-- ==== Sys2Proof/Word.lean ====
section
/-! DEFINITION. The word types and the one sparse-table type every part of the state uses. -/

namespace Sys2Proof

/-- A 64-bit register or address value. -/
abbrev Word := BitVec 64

/-- One byte of memory. -/
abbrev Byte := BitVec 8

/-- A sparse table: pairs (key, value), keys strictly rising, no entry equal to the default of the table.
`Sys2Proof.Machine.Tab` (Machine/Table.lean) holds its operations. -/
abbrev Tab (α : Type) := List (Nat × α)

end Sys2Proof
end

