-- ==== Sys2Proof/Config.lean ====
section
/-! DEFINITION. What the manual leaves to an implementation and no claim may know: the free values. None has a body. -/

namespace Sys2Proof.Config

/-- R111, R112: which of the two neighbours of an inexact exact result a special function returns
(false: the one toward zero; true: the one away from zero). First argument: the function's minor. DESIGN CHOICE: log entry 4. -/
opaque specialAway : Nat → BitVec 64 → Bool

/-- R58, R111: whether a special function whose exact result lies at most half a quantum above a power of two returns the value below
that power, which is within one ulp too. DESIGN CHOICE: log entry 4. -/
opaque specialBelow : Nat → BitVec 64 → Bool

/-- R193: a byte of a record's term area after a term retired. Applied to the counter `State.fresh`. DESIGN CHOICE: log entry 4. -/
opaque freeByte : Nat → BitVec 8

/-- R193: which free slot of the term area a term takes (reduced modulo the number of free slots). DESIGN CHOICE: log entry 4. -/
opaque freeSlot : Nat → Nat

/-- R210: which of the old and the new word a fetch returns after a launch stored to its own code (true: the loop buffer's). DESIGN CHOICE: log entry 4. -/
opaque oldWord : Nat → Bool

/-- R397: the SHA-384 digest of a measured object, given as bytes. DESIGN CHOICE: log entry 4. -/
opaque sha384 : List (BitVec 8) → BitVec 384

/-- R395: whether the ECDSA P-384 signature over an image's digest verifies under the fused key. DESIGN CHOICE: log entry 4. -/
opaque signatureOk : BitVec 384 → BitVec 768 → Bool

/-- R396: the plaintext of a delivered KEY_DATA under the session key (which two AES-256 keys it is). DESIGN CHOICE: log entry 4. -/
opaque unwrapKey : BitVec 512 → BitVec 512

/-- R303, R396: AES-256-XTS of an aligned 16-byte block of memory under key material at a physical address: which permutation of the blocks
it is, plaintext to stored block. DESIGN CHOICE: log entry 4. -/
opaque blockCipher : BitVec 512 → Nat → BitVec 128 ≃ BitVec 128

/-- R372: the operating hours at a margin plan. Applied to `State.fresh`. DESIGN CHOICE: log entry 4. -/
opaque hours : Nat → BitVec 32

/-- R398: what a sensor of the side-band port reads (sensor number, reading counter). DESIGN CHOICE: log entry 4. -/
opaque sensor : Nat → Nat → BitVec 64

/-- Which of several candidates an implementation takes where the manual does not say: the core of a team that fits on several
(R271), the number of a slot, a record or a fork set (R156, R180, R194). Applied to the counter `State.fresh`. DESIGN CHOICE: log entry 4. -/
opaque choice : Nat → Nat

/-- R325: the code of a directory state in a `dirop` event (0 I, 1 S, 2 E, 3 O, 4 M). DESIGN CHOICE: log entry 4. -/
opaque dirCode : Nat → BitVec 4

/-- R282: how many events the counter of a shared resource has counted since it was last published. Applied to `State.fresh`. DESIGN CHOICE: log entry 4. -/
opaque countedEvents : Nat → Nat

end Sys2Proof.Config
end

