-- ==== Sys2Proof/Syntax.lean ====
section
/-! DEFINITION. The syntax: operands, modifiers, and ONE constructor of `Instr` for each row of the table of operations and
events. Rows 1 to 315 are instructions (lane set, uniform set, Gloss set); the other rows are the module's own steps, which
no word encodes: their arguments say which pending occurrence, unit or outside input the step is about. -/

namespace Sys2Proof

/-- Operand control of a controlled source field (R13). -/
inductive Ctl | plain | last | keep | trap
  deriving DecidableEq, Repr

/-- A controlled source field: a register number and its control (R27, R13). -/
structure Src where
  r : BitVec 6
  c : Ctl
  deriving DecidableEq, Repr

/-- Rounding group (R31). -/
inductive Rnd | rne | rtz | rup | rdn
  deriving DecidableEq, Repr

/-- Cache hint (R31). -/
inductive Hint | hn | hs | hl
  deriving DecidableEq, Repr

/-- Address space (R31, R120). -/
inductive Space | g | s | h
  deriving DecidableEq, Repr

/-- Memory width codes (R125). -/
inductive Width | b | hw | w | d
  deriving DecidableEq, Repr

/-- Ordering kind of a fence (R31). -/
inductive OrdKind | acq | rel | ar | sc
  deriving DecidableEq, Repr

/-- Scope (R31). -/
inductive Scope | thread | group | team | pair | core | die | dev | sys
  deriving DecidableEq, Repr

/-- Condition of a handle wait (R143). -/
inductive HCond | full | free | idle
  deriving DecidableEq, Repr

/-- Kinds of a conversion (R114). -/
inductive Kind | d | f | hf | bf | e4 | i32 | n32 | i64 | n64
  deriving DecidableEq, Repr

/-- Element types of an atomic (R133). -/
inductive AtomTy | i32 | n32 | i64 | n64 | d
  deriving DecidableEq, Repr

/-- Order group of an atomic (R133). -/
inductive AtomOrd | rlx | acq | rel | ar | sc
  deriving DecidableEq, Repr

/-- The system registers of R170. -/
inductive SysReg | fpx | amax (k : BitVec 3) | atomSize | gang | trapKind | trapPc | trapAddr | trapInfo | trapTid
  | trapTmp0 | trapTmp1 | trapTmp2
  deriving DecidableEq, Repr

/-- Rounding and subnormal groups of a long floating form (R104). -/
structure FMod where
  rnd : Rnd
  ftz : Bool
  deriving DecidableEq, Repr

/-- Word 1 of a conversion (R114). -/
structure CvtMod where
  dk : Kind
  sk : Kind
  part : BitVec 4
  slot : BitVec 3
  satf : Bool
  ftz : Bool
  rnd : Rnd
  deriving DecidableEq, Repr

/-- Word 1 of `ld` and `st` (R125). -/
structure MemMod where
  space : Space
  width : Width
  hint : Hint
  off : BitVec 14
  deriving DecidableEq, Repr

/-- Word 1 of `lde` (R125): `chk` is the predicate of the `.chk` form. -/
structure LdeMod where
  width : Width
  hint : Hint
  chk : Option (BitVec 3)
  off : BitVec 14
  deriving DecidableEq, Repr

/-- Word 1 of `pf` (R125). -/
structure PfMod where
  space : Space
  hint : Hint
  off : BitVec 14
  deriving DecidableEq, Repr

/-- Word 1 of an atomic (R133). -/
structure AtomMod where
  space : Space
  ty : AtomTy
  scope : Scope
  order : AtomOrd
  off : BitVec 13
  deriving DecidableEq, Repr

/-- An event a tap offers to a Gloss unit (R325): class code, the three words, and for whom it occurred. -/
structure GlossEvent where
  cls : Nat
  a : BitVec 32
  b : BitVec 32
  src : BitVec 32
  asid : BitVec 12
  vdev : Nat
  deriving DecidableEq, Repr

/-- What a peer asks of this module's memory (R350). -/
inductive PeerOp
  | read (bytes : Nat)
  | write (data : List (BitVec 8))
  | atomic (minor : Nat) (ty : AtomTy) (x y : BitVec 64)
  deriving DecidableEq, Repr

/-- A request that arrives from accelerator `peer` at UALink port `port` for local physical address `pa` (R349, R350). -/
structure PeerReq where
  peer : Nat
  port : Nat
  pa : Nat
  op : PeerOp
  deriving DecidableEq, Repr

/-- A peer's answer to a request this module sent (R350): performed (with the bytes read), refused, or unreachable. -/
inductive PeerReply
  | done (data : List (BitVec 8))
  | refused
  | unreachable
  deriving DecidableEq, Repr

/-- A message that arrives over UALink for mailbox `m` of virtual device `vdev` (R351), with its marked words (R160). -/
structure PeerMsg where
  peer : Nat
  vdev : Nat
  m : Nat
  data : List (BitVec 8)
  bad : List Nat := []
  deriving DecidableEq, Repr

/-- A face that arrives at a halo engine (R354): its sender, the virtual device it is for, its tag, its bytes, and which of them carry an
uncorrectable mark. -/
structure Face where
  peer : Nat
  inst : Nat
  vdev : Nat
  tag : Nat
  data : List (BitVec 8)
  bad : List Nat
  deriving DecidableEq, Repr

/-- What another member of a collective group contributes (R356): the group and the tag of its command, its rank, its operation and type
codes, its source bytes and which of them carry an uncorrectable mark. -/
structure Contribution where
  group : Nat
  tag : Nat
  rank : Nat
  op : Nat
  ty : Nat
  data : List (BitVec 8)
  bad : List Nat
  deriving DecidableEq, Repr

/-- One canary of a unit of a die (R371): a core (by local number) or a lane group (64 times its link direction and its number), with the
readings, in ps, that successive voltage steps show. -/
structure Canary where
  isLink : Bool
  unit : Nat
  slack : List Nat
  deriving DecidableEq, Repr

/-- The structure in which a soft error is detected (R364), with its place. -/
inductive ErrPlace
  | vreg (tk : Nat) (r : BitVec 6)
  | sreg (gk : Nat) (r : BitVec 6)
  | stash (team off : Nat)
  | l1 (core line off : Nat)
  | l2 (pa : Nat) (dirty : Bool)
  | hbm (pa : Nat)
  | fetch (tk : Nat)
  | acc (ctx core slot : Nat)
  | record (ctx core rid : Nat)
  | dir (line : Nat)
  | gloss (die word : Nat)
  deriving DecidableEq, Repr

/-- A detected error: where, correctable or not. R365's die and `where` follow from the place, but for the die of an L2 line (`die`) and the
number that `where` shows for a Gloss word (`at_`), which R365 does not name. -/
structure SoftErr where
  place : ErrPlace
  die : Nat
  at_ : BitVec 12
  corr : Bool
  deriving DecidableEq, Repr

/-- A firmware image (R395). -/
structure FwImage where
  digest : BitVec 384
  sig : BitVec 768
  ver : Nat
  deriving DecidableEq, Repr

/-- A register access of the host (a write of `val`; none: a read): through the physical function's window, or through virtual function `vf`'s (R390, R391). -/
structure RegAccess where
  vf : Option Nat
  off : Nat
  width : Nat
  val : Option (BitVec 64)
  deriving DecidableEq, Repr

/-- The host's access to module memory that enters at a die (R276). -/
structure HostReq where
  die : Nat
  pa : Nat
  wr : Option (List (BitVec 8))
  len : Nat
  deriving DecidableEq, Repr

/-- One constructor for each row of the opcode table, in the table's order. -/
inductive Instr
  /-- ADD_I64, R76: Lane 64-bit wrapping addition of two registers. -/
  | addI64 (d : BitVec 6) (a b : Src)
  /-- SUB_I64, R76: Lane 64-bit wrapping subtraction. -/
  | subI64 (d : BitVec 6) (a b : Src)
  /-- ADD_I32, R76: Lane 32-bit signed wrapping addition, sign-extended. -/
  | addI32 (d : BitVec 6) (a b : Src)
  /-- SUB_I32, R76: Lane 32-bit signed wrapping subtraction. -/
  | subI32 (d : BitVec 6) (a b : Src)
  /-- ADD_N32, R76: Lane 32-bit unsigned wrapping addition, zero-extended. -/
  | addN32 (d : BitVec 6) (a b : Src)
  /-- SUB_N32, R76: Lane 32-bit unsigned wrapping subtraction. -/
  | subN32 (d : BitVec 6) (a b : Src)
  /-- ADD_I64_SAT, R76: Lane 64-bit signed saturating addition. -/
  | addI64Sat (d : BitVec 6) (a b : Src)
  /-- SUB_I64_SAT, R76: Lane 64-bit signed saturating subtraction. -/
  | subI64Sat (d : BitVec 6) (a b : Src)
  /-- ADD_N64_SAT, R76: Lane 64-bit unsigned saturating addition. -/
  | addN64Sat (d : BitVec 6) (a b : Src)
  /-- SUB_N64_SAT, R76: Lane 64-bit unsigned saturating subtraction. -/
  | subN64Sat (d : BitVec 6) (a b : Src)
  /-- ADD_I32_SAT, R76: Lane 32-bit signed saturating addition. -/
  | addI32Sat (d : BitVec 6) (a b : Src)
  /-- SUB_I32_SAT, R76: Lane 32-bit signed saturating subtraction. -/
  | subI32Sat (d : BitVec 6) (a b : Src)
  /-- ADD_N32_SAT, R76: Lane 32-bit unsigned saturating addition. -/
  | addN32Sat (d : BitVec 6) (a b : Src)
  /-- SUB_N32_SAT, R76: Lane 32-bit unsigned saturating subtraction. -/
  | subN32Sat (d : BitVec 6) (a b : Src)
  /-- NEG_I64, R77: Lane 64-bit wrapping negation. -/
  | negI64 (d : BitVec 6) (a : Src)
  /-- ABS_I64, R77: Lane 64-bit wrapping absolute value. -/
  | absI64 (d : BitVec 6) (a : Src)
  /-- MUL_I64, R78: Lane low 64 bits of the product. -/
  | mulI64 (d : BitVec 6) (a b : Src)
  /-- MULHI_I64, R78: Lane high 64 bits of the signed 128-bit product. -/
  | mulhiI64 (d : BitVec 6) (a b : Src)
  /-- MULHI_N64, R78: Lane high 64 bits of the unsigned 128-bit product. -/
  | mulhiN64 (d : BitVec 6) (a b : Src)
  /-- MUL_I32, R78: Lane low 32 bits of the product, sign-extended. -/
  | mulI32 (d : BitVec 6) (a b : Src)
  /-- MUL_N32, R78: Lane low 32 bits of the product, zero-extended. -/
  | mulN32 (d : BitVec 6) (a b : Src)
  /-- MULW_I32, R78: Lane full 64-bit product of sign-extended low halves. -/
  | mulwI32 (d : BitVec 6) (a b : Src)
  /-- MULW_N32, R78: Lane full 64-bit product of zero-extended low halves. -/
  | mulwN32 (d : BitVec 6) (a b : Src)
  /-- MIN_I64, R79: Lane signed 64-bit minimum. -/
  | minI64 (d : BitVec 6) (a b : Src)
  /-- MAX_I64, R79: Lane signed 64-bit maximum. -/
  | maxI64 (d : BitVec 6) (a b : Src)
  /-- MIN_N64, R79: Lane unsigned 64-bit minimum. -/
  | minN64 (d : BitVec 6) (a b : Src)
  /-- MAX_N64, R79: Lane unsigned 64-bit maximum. -/
  | maxN64 (d : BitVec 6) (a b : Src)
  /-- MIN_I32, R79: Lane signed 32-bit minimum. -/
  | minI32 (d : BitVec 6) (a b : Src)
  /-- MAX_I32, R79: Lane signed 32-bit maximum. -/
  | maxI32 (d : BitVec 6) (a b : Src)
  /-- MIN_N32, R79: Lane unsigned 32-bit minimum. -/
  | minN32 (d : BitVec 6) (a b : Src)
  /-- MAX_N32, R79: Lane unsigned 32-bit maximum. -/
  | maxN32 (d : BitVec 6) (a b : Src)
  /-- AND, R80: Lane bitwise AND. -/
  | and (d : BitVec 6) (a b : Src)
  /-- OR, R80: Lane bitwise OR. -/
  | or (d : BitVec 6) (a b : Src)
  /-- XOR, R80: Lane bitwise XOR. -/
  | xor (d : BitVec 6) (a b : Src)
  /-- ANDN, R80: Lane AND with the complement of vb. -/
  | andn (d : BitVec 6) (a b : Src)
  /-- ORN, R80: Lane OR with the complement of vb. -/
  | orn (d : BitVec 6) (a b : Src)
  /-- XNOR, R80: Lane complement of XOR. -/
  | xnor (d : BitVec 6) (a b : Src)
  /-- NOT, R80: Lane bitwise complement. -/
  | not (d : BitVec 6) (a : Src)
  /-- MOV, R81: Lane copy of a v register or of the group's s register. -/
  | mov (d : BitVec 6) (a : Src) (u : Bool)
  /-- SHL_N64, R82: Lane 64-bit shift left by a register count. -/
  | shlN64 (d : BitVec 6) (a b : Src)
  /-- SHR_N64, R82: Lane 64-bit logical shift right. -/
  | shrN64 (d : BitVec 6) (a b : Src)
  /-- SHR_I64, R82: Lane 64-bit arithmetic shift right. -/
  | shrI64 (d : BitVec 6) (a b : Src)
  /-- ROTL_N64, R82: Lane 64-bit rotate left. -/
  | rotlN64 (d : BitVec 6) (a b : Src)
  /-- SHL_N32, R82: Lane 32-bit shift left, zero-extended. -/
  | shlN32 (d : BitVec 6) (a b : Src)
  /-- SHR_N32, R82: Lane 32-bit logical shift right. -/
  | shrN32 (d : BitVec 6) (a b : Src)
  /-- SHR_I32, R82: Lane 32-bit arithmetic shift right, sign-extended. -/
  | shrI32 (d : BitVec 6) (a b : Src)
  /-- ROTL_N32, R82: Lane 32-bit rotate left. -/
  | rotlN32 (d : BitVec 6) (a b : Src)
  /-- POPC, R83: Lane count of one bits. -/
  | popc (d : BitVec 6) (a : Src)
  /-- CLZ, R83: Lane count of leading zeros. -/
  | clz (d : BitVec 6) (a : Src)
  /-- CTZ, R83: Lane count of trailing zeros. -/
  | ctz (d : BitVec 6) (a : Src)
  /-- BREV, R83: Lane bit reversal. -/
  | brev (d : BitVec 6) (a : Src)
  /-- BSWAP, R83: Lane byte reversal. -/
  | bswap (d : BitVec 6) (a : Src)
  /-- SEXT_I8, R83: Lane sign extension from 8 bits. -/
  | sextI8 (d : BitVec 6) (a : Src)
  /-- SEXT_I16, R83: Lane sign extension from 16 bits. -/
  | sextI16 (d : BitVec 6) (a : Src)
  /-- SEXT_I32, R83: Lane sign extension from 32 bits. -/
  | sextI32 (d : BitVec 6) (a : Src)
  /-- LEA, R84: Lane address arithmetic va + (vb << k). -/
  | lea (d : BitVec 6) (a b : Src) (k : BitVec 3)
  /-- SETP_EQ_I64, R87: Lane predicate of 64-bit equality. -/
  | setpEqI64 (p : BitVec 3) (a b : Src)
  /-- SETP_NE_I64, R87: Lane predicate of 64-bit inequality. -/
  | setpNeI64 (p : BitVec 3) (a b : Src)
  /-- SETP_LT_I64, R87: Lane predicate of signed 64-bit less-than. -/
  | setpLtI64 (p : BitVec 3) (a b : Src)
  /-- SETP_LE_I64, R87: Lane predicate of signed 64-bit less-or-equal. -/
  | setpLeI64 (p : BitVec 3) (a b : Src)
  /-- SETP_LT_N64, R87: Lane predicate of unsigned 64-bit less-than. -/
  | setpLtN64 (p : BitVec 3) (a b : Src)
  /-- SETP_LE_N64, R87: Lane predicate of unsigned 64-bit less-or-equal. -/
  | setpLeN64 (p : BitVec 3) (a b : Src)
  /-- SETP_TST, R87: Lane predicate of a nonzero AND. -/
  | setpTst (p : BitVec 3) (a b : Src)
  /-- SETP_EQ_I32, R87: Lane predicate of 32-bit equality. -/
  | setpEqI32 (p : BitVec 3) (a b : Src)
  /-- SETP_NE_I32, R87: Lane predicate of 32-bit inequality. -/
  | setpNeI32 (p : BitVec 3) (a b : Src)
  /-- SETP_LT_I32, R87: Lane predicate of signed 32-bit less-than. -/
  | setpLtI32 (p : BitVec 3) (a b : Src)
  /-- SETP_LE_I32, R87: Lane predicate of signed 32-bit less-or-equal. -/
  | setpLeI32 (p : BitVec 3) (a b : Src)
  /-- SETP_LT_N32, R87: Lane predicate of unsigned 32-bit less-than. -/
  | setpLtN32 (p : BitVec 3) (a b : Src)
  /-- SETP_LE_N32, R87: Lane predicate of unsigned 32-bit less-or-equal. -/
  | setpLeN32 (p : BitVec 3) (a b : Src)
  /-- PAND, R88: Lane predicate AND. -/
  | pand (p q r : BitVec 3)
  /-- POR, R88: Lane predicate OR. -/
  | por (p q r : BitVec 3)
  /-- PXOR, R88: Lane predicate XOR. -/
  | pxor (p q r : BitVec 3)
  /-- PANDN, R88: Lane predicate AND NOT. -/
  | pandn (p q r : BitVec 3)
  /-- PNOT, R88: Lane predicate NOT. -/
  | pnot (p q : BitVec 3)
  /-- SEL, R89: Lane select of va or vb by a predicate. -/
  | sel (d : BitVec 6) (a b : Src) (k : BitVec 3)
  /-- ADD_I64_IMM, R85: Lane 64-bit addition of an immediate. -/
  | addI64Imm (d : BitVec 6) (a : Src) (i : BitVec 11)
  /-- ADD_I32_IMM, R85: Lane 32-bit addition of an immediate. -/
  | addI32Imm (d : BitVec 6) (a : Src) (i : BitVec 11)
  /-- ADD_I32_SAT_IMM, R85: Lane 32-bit saturating addition of an immediate. -/
  | addI32SatImm (d : BitVec 6) (a : Src) (i : BitVec 11)
  /-- ADD_I64_SAT_IMM, R85: Lane 64-bit saturating addition of an immediate. -/
  | addI64SatImm (d : BitVec 6) (a : Src) (i : BitVec 11)
  /-- AND_IMM, R85: Lane AND with an immediate. -/
  | andImm (d : BitVec 6) (a : Src) (i : BitVec 11)
  /-- OR_IMM, R85: Lane OR with an immediate. -/
  | orImm (d : BitVec 6) (a : Src) (i : BitVec 11)
  /-- XOR_IMM, R85: Lane XOR with an immediate. -/
  | xorImm (d : BitVec 6) (a : Src) (i : BitVec 11)
  /-- SHL_N64_IMM, R85: Lane shift left by an immediate count. -/
  | shlN64Imm (d : BitVec 6) (a : Src) (i : BitVec 11)
  /-- SHR_N64_IMM, R85: Lane logical shift right by an immediate count. -/
  | shrN64Imm (d : BitVec 6) (a : Src) (i : BitVec 11)
  /-- SHR_I64_IMM, R85: Lane arithmetic shift right by an immediate count. -/
  | shrI64Imm (d : BitVec 6) (a : Src) (i : BitVec 11)
  /-- MUL_I64_IMM, R85: Lane multiplication by an immediate. -/
  | mulI64Imm (d : BitVec 6) (a : Src) (i : BitVec 11)
  /-- MOVC, R86: Lane load of a sign-extended 24-bit constant. -/
  | movc (d : BitVec 6) (i : BitVec 24)
  /-- MOVC_M, R86: Lane merge of 24 bits into bits [47:24]. -/
  | movcM (d : BitVec 6) (i : BitVec 24)
  /-- MOVC_H, R86: Lane merge of 16 bits into bits [63:48]. -/
  | movcH (d : BitVec 6) (i : BitVec 16)
  /-- RDSR, R90: Lane read of a special register. -/
  | rdsr (d : BitVec 6) (r : BitVec 3)
  /-- SHFL_IDX, R93: Cross-lane shuffle from an indexed lane once the group converges. -/
  | shflIdx (d : BitVec 6) (a b : Src)
  /-- SHFL_UP, R93: Cross-lane shuffle from a lower lane. -/
  | shflUp (d : BitVec 6) (a b : Src)
  /-- SHFL_DOWN, R93: Cross-lane shuffle from a higher lane. -/
  | shflDown (d : BitVec 6) (a b : Src)
  /-- SHFL_XOR, R93: Cross-lane shuffle from the XOR lane. -/
  | shflXor (d : BitVec 6) (a b : Src)
  /-- BALLOT, R94: Cross-lane mask of predicate values. -/
  | ballot (d : BitVec 6) (p : BitVec 3)
  /-- VOTE_ANY, R94: Cross-lane OR of a predicate. -/
  | voteAny (p q : BitVec 3)
  /-- VOTE_ALL, R94: Cross-lane AND of a predicate. -/
  | voteAll (p q : BitVec 3)
  /-- RED_ADD_I64, R96: Group tree reduction by wrapping integer addition. -/
  | redAddI64 (d : BitVec 6) (a : Src)
  /-- RED_MIN_I64, R96: Group tree reduction by signed minimum. -/
  | redMinI64 (d : BitVec 6) (a : Src)
  /-- RED_MAX_I64, R96: Group tree reduction by signed maximum. -/
  | redMaxI64 (d : BitVec 6) (a : Src)
  /-- RED_ADD_D, R96: Group tree reduction by FP64 addition. -/
  | redAddD (d : BitVec 6) (a : Src)
  /-- RED_MIN_D, R96: Group tree reduction by FP64 minimum. -/
  | redMinD (d : BitVec 6) (a : Src)
  /-- RED_MAX_D, R96: Group tree reduction by FP64 maximum. -/
  | redMaxD (d : BitVec 6) (a : Src)
  /-- RED_ADD_F, R96: Group tree reduction by packed FP32 addition. -/
  | redAddF (d : BitVec 6) (a : Src)
  /-- BRA, R97: Lane conditional or unconditional relative branch. -/
  | bra (p : BitVec 3) (n : Bool) (t : BitVec 21)
  /-- CALL, R98: Lane relative call writing the return address to v63. -/
  | call (p : BitVec 3) (n : Bool) (t : BitVec 21)
  /-- JMP, R99: Lane jump to a register target. -/
  | jmp (a : Src)
  /-- CALLR, R99: Lane call to a register target. -/
  | callr (d : BitVec 6) (a : Src)
  /-- RET, R99: Lane return to a register target. -/
  | ret (a : Src)
  /-- EXIT, R100: Ends the thread once its long-latency producers complete. -/
  | exit
  /-- NOP, R101: Lane no-operation, waiting on its guard. -/
  | nop
  /-- ADD_D, R105: FP64 addition, short form. -/
  | addD (d : BitVec 6) (a b : Src)
  /-- SUB_D, R105: FP64 subtraction, short form. -/
  | subD (d : BitVec 6) (a b : Src)
  /-- MUL_D, R105: FP64 multiplication, short form. -/
  | mulD (d : BitVec 6) (a b : Src)
  /-- DIV_D, R105: FP64 division, short form. -/
  | divD (d : BitVec 6) (a b : Src)
  /-- MIN_D, R106: FP64 minimum, short form. -/
  | minD (d : BitVec 6) (a b : Src)
  /-- MAX_D, R106: FP64 maximum, short form. -/
  | maxD (d : BitVec 6) (a b : Src)
  /-- SQRT_D, R105: FP64 square root, short form. -/
  | sqrtD (d : BitVec 6) (a : Src)
  /-- RINT_D, R105: FP64 round to integral, short form. -/
  | rintD (d : BitVec 6) (a : Src)
  /-- ADD_F, R105: Packed FP32 addition, short form. -/
  | addF (d : BitVec 6) (a b : Src)
  /-- SUB_F, R105: Packed FP32 subtraction, short form. -/
  | subF (d : BitVec 6) (a b : Src)
  /-- MUL_F, R105: Packed FP32 multiplication, short form. -/
  | mulF (d : BitVec 6) (a b : Src)
  /-- DIV_F, R105: Packed FP32 division, short form. -/
  | divF (d : BitVec 6) (a b : Src)
  /-- MIN_F, R106: Packed FP32 minimum, short form. -/
  | minF (d : BitVec 6) (a b : Src)
  /-- MAX_F, R106: Packed FP32 maximum, short form. -/
  | maxF (d : BitVec 6) (a b : Src)
  /-- SQRT_F, R105: Packed FP32 square root, short form. -/
  | sqrtF (d : BitVec 6) (a : Src)
  /-- RINT_F, R105: Packed FP32 round to integral, short form. -/
  | rintF (d : BitVec 6) (a : Src)
  /-- ADD_HF, R105: Packed FP16 addition, short form. -/
  | addHf (d : BitVec 6) (a b : Src)
  /-- SUB_HF, R105: Packed FP16 subtraction, short form. -/
  | subHf (d : BitVec 6) (a b : Src)
  /-- MUL_HF, R105: Packed FP16 multiplication, short form. -/
  | mulHf (d : BitVec 6) (a b : Src)
  /-- MIN_HF, R106: Packed FP16 minimum, short form. -/
  | minHf (d : BitVec 6) (a b : Src)
  /-- MAX_HF, R106: Packed FP16 maximum, short form. -/
  | maxHf (d : BitVec 6) (a b : Src)
  /-- ADD_BF, R105: Packed BF16 addition, short form. -/
  | addBf (d : BitVec 6) (a b : Src)
  /-- SUB_BF, R105: Packed BF16 subtraction, short form. -/
  | subBf (d : BitVec 6) (a b : Src)
  /-- MUL_BF, R105: Packed BF16 multiplication, short form. -/
  | mulBf (d : BitVec 6) (a b : Src)
  /-- MIN_BF, R106: Packed BF16 minimum, short form. -/
  | minBf (d : BitVec 6) (a b : Src)
  /-- MAX_BF, R106: Packed BF16 maximum, short form. -/
  | maxBf (d : BitVec 6) (a b : Src)
  /-- SETP_EQ_D, R108: Predicate of FP64 equality. -/
  | setpEqD (p : BitVec 3) (a b : Src)
  /-- SETP_LT_D, R108: Predicate of FP64 less-than. -/
  | setpLtD (p : BitVec 3) (a b : Src)
  /-- SETP_LE_D, R108: Predicate of FP64 less-or-equal. -/
  | setpLeD (p : BitVec 3) (a b : Src)
  /-- SETP_NAN_D, R108: Predicate of an FP64 NaN operand. -/
  | setpNanD (p : BitVec 3) (a b : Src)
  /-- SETP_EQ_F, R108: Predicate of FP32 equality of element 0. -/
  | setpEqF (p : BitVec 3) (a b : Src)
  /-- SETP_LT_F, R108: Predicate of FP32 less-than of element 0. -/
  | setpLtF (p : BitVec 3) (a b : Src)
  /-- SETP_LE_F, R108: Predicate of FP32 less-or-equal of element 0. -/
  | setpLeF (p : BitVec 3) (a b : Src)
  /-- SETP_NAN_F, R108: Predicate of an FP32 NaN in element 0. -/
  | setpNanF (p : BitVec 3) (a b : Src)
  /-- FMA_D, R107: FP64 fused multiply-add with one rounding. -/
  | fmaD (d : BitVec 6) (a b c : Src) (m : FMod)
  /-- FNMA_D, R107: FP64 fused negated multiply-add. -/
  | fnmaD (d : BitVec 6) (a b c : Src) (m : FMod)
  /-- FMA_F, R107: Packed FP32 fused multiply-add. -/
  | fmaF (d : BitVec 6) (a b c : Src) (m : FMod)
  /-- FNMA_F, R107: Packed FP32 fused negated multiply-add. -/
  | fnmaF (d : BitVec 6) (a b c : Src) (m : FMod)
  /-- FMA_HF, R107: Packed FP16 fused multiply-add. -/
  | fmaHf (d : BitVec 6) (a b c : Src) (m : FMod)
  /-- FMA_BF, R107: Packed BF16 fused multiply-add. -/
  | fmaBf (d : BitVec 6) (a b c : Src) (m : FMod)
  /-- ADD_D_LONG, R105: FP64 addition, long form with modifiers. -/
  | addDLong (d : BitVec 6) (a b : Src) (m : FMod)
  /-- SUB_D_LONG, R105: FP64 subtraction, long form. -/
  | subDLong (d : BitVec 6) (a b : Src) (m : FMod)
  /-- MUL_D_LONG, R105: FP64 multiplication, long form. -/
  | mulDLong (d : BitVec 6) (a b : Src) (m : FMod)
  /-- DIV_D_LONG, R105: FP64 division, long form. -/
  | divDLong (d : BitVec 6) (a b : Src) (m : FMod)
  /-- MIN_D_LONG, R106: FP64 minimum, long form. -/
  | minDLong (d : BitVec 6) (a b : Src) (z : Bool)
  /-- MAX_D_LONG, R106: FP64 maximum, long form. -/
  | maxDLong (d : BitVec 6) (a b : Src) (z : Bool)
  /-- SQRT_D_LONG, R105: FP64 square root, long form. -/
  | sqrtDLong (d : BitVec 6) (a : Src) (m : FMod)
  /-- RINT_D_LONG, R105: FP64 round to integral, long form. -/
  | rintDLong (d : BitVec 6) (a : Src) (m : FMod)
  /-- ADD_F_LONG, R105: Packed FP32 addition, long form. -/
  | addFLong (d : BitVec 6) (a b : Src) (m : FMod)
  /-- SUB_F_LONG, R105: Packed FP32 subtraction, long form. -/
  | subFLong (d : BitVec 6) (a b : Src) (m : FMod)
  /-- MUL_F_LONG, R105: Packed FP32 multiplication, long form. -/
  | mulFLong (d : BitVec 6) (a b : Src) (m : FMod)
  /-- DIV_F_LONG, R105: Packed FP32 division, long form. -/
  | divFLong (d : BitVec 6) (a b : Src) (m : FMod)
  /-- MIN_F_LONG, R106: Packed FP32 minimum, long form. -/
  | minFLong (d : BitVec 6) (a b : Src) (z : Bool)
  /-- MAX_F_LONG, R106: Packed FP32 maximum, long form. -/
  | maxFLong (d : BitVec 6) (a b : Src) (z : Bool)
  /-- SQRT_F_LONG, R105: Packed FP32 square root, long form. -/
  | sqrtFLong (d : BitVec 6) (a : Src) (m : FMod)
  /-- RINT_F_LONG, R105: Packed FP32 round to integral, long form. -/
  | rintFLong (d : BitVec 6) (a : Src) (m : FMod)
  /-- ADD_HF_LONG, R105: Packed FP16 addition, long form. -/
  | addHfLong (d : BitVec 6) (a b : Src) (m : FMod)
  /-- SUB_HF_LONG, R105: Packed FP16 subtraction, long form. -/
  | subHfLong (d : BitVec 6) (a b : Src) (m : FMod)
  /-- MUL_HF_LONG, R105: Packed FP16 multiplication, long form. -/
  | mulHfLong (d : BitVec 6) (a b : Src) (m : FMod)
  /-- MIN_HF_LONG, R106: Packed FP16 minimum, long form. -/
  | minHfLong (d : BitVec 6) (a b : Src) (z : Bool)
  /-- MAX_HF_LONG, R106: Packed FP16 maximum, long form. -/
  | maxHfLong (d : BitVec 6) (a b : Src) (z : Bool)
  /-- ADD_BF_LONG, R105: Packed BF16 addition, long form. -/
  | addBfLong (d : BitVec 6) (a b : Src) (m : FMod)
  /-- SUB_BF_LONG, R105: Packed BF16 subtraction, long form. -/
  | subBfLong (d : BitVec 6) (a b : Src) (m : FMod)
  /-- MUL_BF_LONG, R105: Packed BF16 multiplication, long form. -/
  | mulBfLong (d : BitVec 6) (a b : Src) (m : FMod)
  /-- MIN_BF_LONG, R106: Packed BF16 minimum, long form. -/
  | minBfLong (d : BitVec 6) (a b : Src) (z : Bool)
  /-- MAX_BF_LONG, R106: Packed BF16 maximum, long form. -/
  | maxBfLong (d : BitVec 6) (a b : Src) (z : Bool)
  /-- RCP_D, R111: FP64 reciprocal. -/
  | rcpD (d : BitVec 6) (a : Src)
  /-- RSQRT_D, R111: FP64 reciprocal square root. -/
  | rsqrtD (d : BitVec 6) (a : Src)
  /-- EXP2_D, R111: FP64 base-2 exponential. -/
  | exp2D (d : BitVec 6) (a : Src)
  /-- LOG2_D, R111: FP64 base-2 logarithm. -/
  | log2D (d : BitVec 6) (a : Src)
  /-- EXP2_F, R111: Correctly rounded packed FP32 base-2 exponential. -/
  | exp2F (d : BitVec 6) (a : Src)
  /-- LOG2_F, R111: Packed FP32 base-2 logarithm. -/
  | log2F (d : BitVec 6) (a : Src)
  /-- SIN_F, R111: Packed FP32 sin(pi x). -/
  | sinF (d : BitVec 6) (a : Src)
  /-- COS_F, R111: Packed FP32 cos(pi x). -/
  | cosF (d : BitVec 6) (a : Src)
  /-- CVT, R115: Conversion of elements between kinds under a format slot. -/
  | cvt (d : BitVec 6) (a : Src) (m : CvtMod)
  /-- FCLASS_D, R109: FP64 class mask. -/
  | fclassD (d : BitVec 6) (a : Src)
  /-- FCLASS_F, R109: Packed FP32 class masks. -/
  | fclassF (d : BitVec 6) (a : Src)
  /-- COPYSIGN_D, R110: FP64 sign copy. -/
  | copysignD (d : BitVec 6) (a b : Src)
  /-- COPYSIGN_F, R110: Packed FP32 sign copy. -/
  | copysignF (d : BitVec 6) (a b : Src)
  /-- ABS_D, R110: FP64 sign clear. -/
  | absD (d : BitVec 6) (a : Src)
  /-- NEG_D, R110: FP64 sign inversion. -/
  | negD (d : BitVec 6) (a : Src)
  /-- ABS_F, R110: Packed FP32 sign clear. -/
  | absF (d : BitVec 6) (a : Src)
  /-- NEG_F, R110: Packed FP32 sign inversion. -/
  | negF (d : BitVec 6) (a : Src)
  /-- LD, R126: Lane load from global, stash or host space. -/
  | ld (d : BitVec 6) (a : Src) (m : MemMod)
  /-- ST, R127: Lane store, or copy start at the aperture. -/
  | st (a b : Src) (m : MemMod)
  /-- LDE, R131: Lane load of a named edition, checked or plain. -/
  | lde (d : BitVec 6) (a b : Src) (m : LdeMod)
  /-- PF, R128: Lane prefetch of a line. -/
  | pf (a : Src) (m : PfMod)
  /-- ATOM_ADD, R134: Atomic addition. -/
  | atomAdd (d : BitVec 6) (a b : Src) (m : AtomMod)
  /-- ATOM_MIN, R134: Atomic minimum. -/
  | atomMin (d : BitVec 6) (a b : Src) (m : AtomMod)
  /-- ATOM_MAX, R134: Atomic maximum. -/
  | atomMax (d : BitVec 6) (a b : Src) (m : AtomMod)
  /-- ATOM_AND, R134: Atomic AND. -/
  | atomAnd (d : BitVec 6) (a b : Src) (m : AtomMod)
  /-- ATOM_OR, R134: Atomic OR. -/
  | atomOr (d : BitVec 6) (a b : Src) (m : AtomMod)
  /-- ATOM_XOR, R134: Atomic XOR. -/
  | atomXor (d : BitVec 6) (a b : Src) (m : AtomMod)
  /-- ATOM_XCHG, R134: Atomic exchange. -/
  | atomXchg (d : BitVec 6) (a b : Src) (m : AtomMod)
  /-- ATOM_CAS, R134: Atomic compare-and-swap. -/
  | atomCas (d : BitVec 6) (a b c : Src) (m : AtomMod)
  /-- RECV_D, R137: Lane queue receive of 64-bit elements. -/
  | recvD (d : BitVec 6) (n : BitVec 6)
  /-- RECV_W, R137: Lane queue receive of 32-bit elements. -/
  | recvW (d : BitVec 6) (n : BitVec 6)
  /-- SEND_D, R137: Lane queue send of 64-bit elements. -/
  | sendD (n : BitVec 6) (b : Src)
  /-- SEND_W, R137: Lane queue send of 32-bit elements. -/
  | sendW (n : BitVec 6) (b : Src)
  /-- MMAR_D, R182: Register-form FP64 K-step of a gang into an accumulator slot. -/
  | mmarD (d : BitVec 6) (a b : Src) (fa fb : BitVec 3)
  /-- MMAR_F, R182: Register-form FP32 K-step into a C block. -/
  | mmarF (d : BitVec 6) (a b : Src) (fa fb : BitVec 3)
  /-- MMAR_BF, R182: Register-form BF16 K-step into an FP32 C block. -/
  | mmarBf (d : BitVec 6) (a b : Src) (fa fb : BitVec 3)
  /-- MMAR_HF, R182: Register-form FP16 K-step into an FP32 C block. -/
  | mmarHf (d : BitVec 6) (a b : Src) (fa fb : BitVec 3)
  /-- MMAR_E4, R182: Register-form E4 K-step into an FP32 C block. -/
  | mmarE4 (d : BitVec 6) (a b : Src) (fa fb : BitVec 3)
  /-- COPEN, R194: Opens a compositing record in a handle's tile. -/
  | copen (d : BitVec 6) (a : Src) (l : Bool) (h : BitVec 7)
  /-- CADD, R195: Sends a radiance or log-sum term to a record, locally or remotely. -/
  | cadd (p : BitVec 3) (a b c : Src) (n : Option (BitVec 6))
  /-- CFLUSH, R200: Retires every buffered term of a record and writes it to the stash. -/
  | cflush (a : Src)
  /-- CCLOSE, R200: Flushes and closes a record, freeing its id. -/
  | cclose (a : Src)
  /-- CREAD, R200: Reads 8 bytes of a record's working copy. -/
  | cread (d : BitVec 6) (a : Src) (k : BitVec 3)
  /-- CREPLAY, R201: Replays a closed radiance record's log into gradient rows. -/
  | creplay (d : BitVec 6) (a b : Src) (x : BitVec 16) (h : BitVec 7)
  /-- ADD_I64_U, R149: Uniform 64-bit wrapping addition. -/
  | addI64U (d : BitVec 6) (a b : Src)
  /-- SUB_I64_U, R149: Uniform 64-bit wrapping subtraction. -/
  | subI64U (d : BitVec 6) (a b : Src)
  /-- MUL_I64_U, R149: Uniform low 64 bits of the product. -/
  | mulI64U (d : BitVec 6) (a b : Src)
  /-- MULHI_N64_U, R149: Uniform high 64 bits of the unsigned product. -/
  | mulhiN64U (d : BitVec 6) (a b : Src)
  /-- MIN_I64_U, R149: Uniform signed minimum. -/
  | minI64U (d : BitVec 6) (a b : Src)
  /-- MAX_I64_U, R149: Uniform signed maximum. -/
  | maxI64U (d : BitVec 6) (a b : Src)
  /-- MIN_N64_U, R149: Uniform unsigned minimum. -/
  | minN64U (d : BitVec 6) (a b : Src)
  /-- MAX_N64_U, R149: Uniform unsigned maximum. -/
  | maxN64U (d : BitVec 6) (a b : Src)
  /-- AND_U, R149: Uniform bitwise AND. -/
  | andU (d : BitVec 6) (a b : Src)
  /-- OR_U, R149: Uniform bitwise OR. -/
  | orU (d : BitVec 6) (a b : Src)
  /-- XOR_U, R149: Uniform bitwise XOR. -/
  | xorU (d : BitVec 6) (a b : Src)
  /-- ANDN_U, R149: Uniform AND NOT. -/
  | andnU (d : BitVec 6) (a b : Src)
  /-- SHL_N64_U, R149: Uniform shift left. -/
  | shlN64U (d : BitVec 6) (a b : Src)
  /-- SHR_N64_U, R149: Uniform logical shift right. -/
  | shrN64U (d : BitVec 6) (a b : Src)
  /-- SHR_I64_U, R149: Uniform arithmetic shift right. -/
  | shrI64U (d : BitVec 6) (a b : Src)
  /-- MOV_U, R149: Uniform register copy. -/
  | movU (d : BitVec 6) (a : Src)
  /-- SETP_EQ_I64_U, R149: Uniform q predicate of equality. -/
  | setpEqI64U (p : BitVec 3) (a b : Src)
  /-- SETP_NE_I64_U, R149: Uniform q predicate of inequality. -/
  | setpNeI64U (p : BitVec 3) (a b : Src)
  /-- SETP_LT_I64_U, R149: Uniform q predicate of signed less-than. -/
  | setpLtI64U (p : BitVec 3) (a b : Src)
  /-- SETP_LE_I64_U, R149: Uniform q predicate of signed less-or-equal. -/
  | setpLeI64U (p : BitVec 3) (a b : Src)
  /-- SETP_LT_N64_U, R149: Uniform q predicate of unsigned less-than. -/
  | setpLtN64U (p : BitVec 3) (a b : Src)
  /-- SETP_LE_N64_U, R149: Uniform q predicate of unsigned less-or-equal. -/
  | setpLeN64U (p : BitVec 3) (a b : Src)
  /-- SETP_TST_U, R149: Uniform q predicate of a nonzero AND. -/
  | setpTstU (p : BitVec 3) (a b : Src)
  /-- PAND_U, R149: Uniform q predicate AND. -/
  | pandU (p q r : BitVec 3)
  /-- POR_U, R149: Uniform q predicate OR. -/
  | porU (p q r : BitVec 3)
  /-- PXOR_U, R149: Uniform q predicate XOR. -/
  | pxorU (p q r : BitVec 3)
  /-- PANDN_U, R149: Uniform q predicate AND NOT. -/
  | pandnU (p q r : BitVec 3)
  /-- PNOT_U, R149: Uniform q predicate NOT. -/
  | pnotU (p q : BitVec 3)
  /-- ADD_I64_IMM_U, R149: Uniform addition of an immediate. -/
  | addI64ImmU (d : BitVec 6) (a : Src) (i : BitVec 11)
  /-- MOVC_U, R149: Uniform load of a sign-extended 24-bit constant. -/
  | movcU (d : BitVec 6) (i : BitVec 24)
  /-- MOVC_M_U, R149: Uniform merge of 24 bits into [47:24]. -/
  | movcMU (d : BitVec 6) (i : BitVec 24)
  /-- MOVC_H_U, R149: Uniform merge of 16 bits into [63:48]. -/
  | movcHU (d : BitVec 6) (i : BitVec 16)
  /-- LD_U, R129: Uniform load, once for the group. -/
  | ldU (d : BitVec 6) (a : Src) (m : MemMod)
  /-- ST_U, R129: Uniform store, or copy start at the aperture. -/
  | stU (a b : Src) (m : MemMod)
  /-- LDE_U, R129: Uniform edition-named load. -/
  | ldeU (d : BitVec 6) (a b : Src) (m : LdeMod)
  /-- PF_U, R129: Uniform prefetch. -/
  | pfU (a : Src) (m : PfMod)
  /-- UJMP, R150: Uniform relative jump of the whole group. -/
  | ujmp (p : BitVec 3) (n : Bool) (t : BitVec 21)
  /-- UCALL, R150: Uniform relative call writing s63. -/
  | ucall (p : BitVec 3) (n : Bool) (t : BitVec 21)
  /-- UJMPR, R151: Uniform jump to a register target. -/
  | ujmpr (a : Src)
  /-- UCALLR, R151: Uniform call to a register target. -/
  | ucallr (d : BitVec 6) (a : Src)
  /-- URET, R151: Uniform return to a register target. -/
  | uret (a : Src)
  /-- BAR, R153: Device barrier arrival of the group over the participation set. -/
  | bar
  /-- TBAR, R152: Team barrier arrival of the group. -/
  | tbar
  /-- CLAIM, R139: Re-homes the pages of a range onto the group's die. -/
  | claim (d : BitVec 6) (a b : Src)
  /-- RDV, R157: Waits for the members of a fork set and frees it. -/
  | rdv (a : Src)
  /-- FENCE, R138: Orders the group's accesses at a scope by kind. -/
  | fence (k : OrdKind) (c : Scope)
  /-- WAITH, R143: Waits for a handle state and acquires the engine's release. -/
  | waith (c : HCond) (n : BitVec 7)
  /-- SEND_U, R159: Uniform send through a capability entry. -/
  | sendU (n : BitVec 6) (a : Src) (b : Option Src)
  /-- RECV_U, R160: Uniform receive through a capability entry. -/
  | recvU (d : BitVec 6) (n : BitVec 6) (ab : Option (Src × Src))
  /-- LAUNCH, R161: Device-side launch of a child record. -/
  | launch (q : BitVec 3) (d : BitVec 6) (a b : Src) (k : BitVec 2)
  /-- WAITL, R163: Waits for a launch token to end and returns its status. -/
  | waitl (d : BitVec 6) (a : Src)
  /-- FORK, R156: Starts copies and an access program as one set. -/
  | fork (d : BitVec 6) (a : Src)
  /-- BPUB, R164: Publishes the open edition of a region. -/
  | bpub (d : BitVec 6) (a : Src)
  /-- BFLOOR, R165: Raises a region's edition floor. -/
  | bfloor (d : BitVec 6) (a b : Src)
  /-- GANG, R174: Forms or dissolves a gang through the rendezvous latch. -/
  | gang (a : Src)
  /-- MMAS_D, R187: Streamed FP64 matrix product from stash tiles. -/
  | mmasD (d : BitVec 6) (a b : Src)
  /-- MMAS_F, R187: Streamed FP32 matrix product. -/
  | mmasF (v : BitVec 6) (a b : Src) (w : BitVec 4)
  /-- MMAS_BF, R187: Streamed BF16 matrix product. -/
  | mmasBf (v : BitVec 6) (a b : Src) (w : BitVec 4)
  /-- MMAS_HF, R187: Streamed FP16 matrix product. -/
  | mmasHf (v : BitVec 6) (a b : Src) (w : BitVec 4)
  /-- MMAS_E4, R187: Streamed E4 matrix product. -/
  | mmasE4 (v : BitVec 6) (a b : Src) (w : BitVec 4)
  /-- ACCREL, R191: Writes and/or frees an accumulator slot. -/
  | accrel (d : BitVec 6) (o : Option (Bool × Src))
  /-- TRAP, R167: Takes USER_TRAP for the group with a code. -/
  | trap (c : BitVec 12)
  /-- RETT, R168: Returns the handler set to user mode at TRAP_PC. -/
  | rett
  /-- RDSYS, R169: Reads, and optionally clears, a system register. -/
  | rdsys (d : BitVec 6) (r : SysReg) (k : Bool)
  /-- WRSYS, R169: Writes a system register in system mode. -/
  | wrsys (r : SysReg) (a : Src)
  /-- UNOP, R172: Reconvergence point with no side effect. -/
  | unop
  /-- GADD, R336: Gloss addition. -/
  | gadd (d a b : BitVec 4)
  /-- GSUB, R336: Gloss subtraction. -/
  | gsub (d a b : BitVec 4)
  /-- GAND, R336: Gloss AND. -/
  | gand (d a b : BitVec 4)
  /-- GOR, R336: Gloss OR. -/
  | gor (d a b : BitVec 4)
  /-- GXOR, R336: Gloss XOR. -/
  | gxor (d a b : BitVec 4)
  /-- GSHL, R336: Gloss shift left. -/
  | gshl (d a b : BitVec 4)
  /-- GSHR, R336: Gloss logical shift right. -/
  | gshr (d a b : BitVec 4)
  /-- GMIN, R336: Gloss unsigned minimum. -/
  | gmin (d a b : BitVec 4)
  /-- GMAX, R336: Gloss unsigned maximum. -/
  | gmax (d a b : BitVec 4)
  /-- GMUL, R336: Gloss low 32 bits of the product. -/
  | gmul (d a b : BitVec 4)
  /-- GMOVI, R336: Gloss load of a sign-extended immediate. -/
  | gmovi (d : BitVec 4) (i : BitVec 18)
  /-- GADDI, R336: Gloss addition of an immediate. -/
  | gaddi (d a : BitVec 4) (i : BitVec 18)
  /-- GANDI, R336: Gloss AND with an immediate. -/
  | gandi (d a : BitVec 4) (i : BitVec 18)
  /-- GSHLI, R336: Gloss shift left by an immediate. -/
  | gshli (d a : BitVec 4) (i : BitVec 18)
  /-- GSHRI, R336: Gloss shift right by an immediate. -/
  | gshri (d a : BitVec 4) (i : BitVec 18)
  /-- GLD, R336: Gloss load of a window word. -/
  | gld (d a : BitVec 4) (i : BitVec 18)
  /-- GST, R336: Gloss store to a window word. -/
  | gst (d a : BitVec 4) (i : BitVec 18)
  /-- GBEQ, R336: Gloss forward branch if equal. -/
  | gbeq (a b : BitVec 4) (t : BitVec 6)
  /-- GBNE, R336: Gloss forward branch if not equal. -/
  | gbne (a b : BitVec 4) (t : BitVec 6)
  /-- GBLT, R336: Gloss forward branch if unsigned less. -/
  | gblt (a b : BitVec 4) (t : BitVec 6)
  /-- GBGE, R336: Gloss forward branch if unsigned greater or equal. -/
  | gbge (a b : BitVec 4) (t : BitVec 6)
  /-- GBR, R336: Gloss unconditional forward branch. -/
  | gbr (t : BitVec 6)
  /-- GHASH, R339: Gloss hash of a value and a seed. -/
  | ghash (d a b : BitVec 4)
  /-- GHIST, R338: Gloss saturating histogram count. -/
  | ghist (d a b : BitVec 4)
  /-- GCMS, R339: Gloss count-min sketch update. -/
  | gcms (d a b : BitVec 4)
  /-- GHLL, R340: Gloss HyperLogLog register update. -/
  | ghll (d a b : BitVec 4)
  /-- GFIRE, R341: Gloss delivery of a value through a trigger. -/
  | gfire (a t : BitVec 4)
  /-- GEND, R336: Ends the gloss run. -/
  | gend
  /-- LOAD_COMPLETION, R126: A load's data returns and fills its destination FULL or FAULT. -/
  | loadCompletion (k : Nat)
  /-- ATOMIC_PERFORM, R134: An atomic is performed at its scope's point and completes vd with the old value. -/
  | atomicPerform (k : Nat)
  /-- EDITION_LOOKUP, R131: An edition-named access reaches its page's agent and the copy that serves it is chosen. -/
  | editionLookup (k : Nat)
  /-- QUEUE_RECEIVE_COMPLETION, R137: A pending lane receive pops its entries once the queue holds them. -/
  | queueReceiveCompletion (k : Nat)
  /-- CHANNEL_RECEIVE_COMPLETION, R160: A pending uniform receive takes a message and completes sd. -/
  | channelReceiveCompletion (k : Nat)
  /-- MESSAGE_DELIVERY, R160: A waiting send's message is accepted by its endpoint or mailbox. -/
  | messageDelivery (k : Nat)
  /-- LAUNCH_RECORD_READ, R161: The launch record read completes; the launch is appended or refused. -/
  | launchRecordRead (k : Nat)
  /-- BPUB_AT_BINDERY, R164: After its accesses are performed, a publish acts at the region's agent. -/
  | bpubAtBindery (k : Nat)
  /-- BFLOOR_AT_HOME, R165: A floor raise reaches the region's home and takes effect. -/
  | bfloorAtHome (k : Nat)
  /-- CLAIM_PAGE_MOVE, R315: One page of a claim's range is recalled, copied and re-homed. -/
  | claimPageMove (k : Nat)
  /-- COPY_BEAT, R142: A copy engine moves one beat between memory and the stash. -/
  | copyBeat (k : Nat)
  /-- COPY_END, R142: A copy's last beat is performed and its handle becomes full or free. -/
  | copyEnd (k : Nat)
  /-- FORK_START, R156: After waiting for a set or program, a fork starts its copies and access program as one action. -/
  | forkStart (k : Nat)
  /-- ACCESS_PROGRAM_REQUEST, R218: The access engine reserves a queue entry and requests a line. -/
  | accessProgramRequest (k : Nat)
  /-- ACCESS_PROGRAM_RETURN, R218: A requested line fills its queue entry. -/
  | accessProgramReturn (k : Nat)
  /-- MATRIX_COMPLETION, R183: A latch-issued matrix instruction completes its slot or C registers. -/
  | matrixCompletion (k : Nat)
  /-- MMAS_K_STEP, R187: A streamed matrix engine performs one K-step once its tiles are full. -/
  | mmasKStep (k : Nat)
  /-- RECORD_OPERATION_ARRIVAL, R197: A term or record operation reaches the compositing accumulator and is applied. -/
  | recordOperationArrival (k : Nat)
  /-- REGROUPING, R208: Every 4 quarter cycles the quarter regroups threads into bundles. -/
  | regrouping (core q : Nat)
  /-- BARRIER_ARRIVAL_BIT, R384: A core raises its arrival bit once its teams arrived and their accesses are performed. -/
  | barrierArrivalBit (c core : Nat)
  /-- L1_WRITE_BACK_BOUND, R230: A dirty L1 line reaches its 8,192 cc bound and is written back. -/
  | l1WriteBackBound (core line : Nat)
  /-- COMBINING_BUFFER_DRAIN, R230: A combining-buffer entry reaches its bound and drains into the L1. -/
  | combiningBufferDrain (core line : Nat)
  /-- DISTRIBUTOR_PLACEMENT, R271: When residency frees or an item arrives, the distributor places work in order. -/
  | distributorPlacement (v : Nat)
  /-- SLICE_END, R277: A virtual device's quantum expires and it is switched out for a waiting one. -/
  | sliceEnd (v : Nat)
  /-- RENDER_CONTEXT_SWITCH, R278: At a quantum end the next render context of a virtual device is switched in. -/
  | renderContextSwitch (v : Nat)
  /-- COMPLETION_ENTRY_WRITE, R392: A held completion entry is written to the ring when room exists. -/
  | completionEntryWrite (x : Nat)
  /-- HQ_TAIL_WRITE, R391: A host tail write makes entries available, assigns tokens and copies records. -/
  | hqTailWrite (x j val : Nat)
  /-- VDEV_APPLY, R274: Applies a virtual-device configuration block or refuses it with a code. -/
  | vdevApply (w : BitVec 64)
  /-- RCTX_APPLY, R279: Applies or withdraws a render-context block. -/
  | rctxApply (w : BitVec 64)
  /-- COUNTER_PUBLISH, R282: Every 2^22 cc a shared counter's quantised value is latched. -/
  | counterPublish (die : Nat)
  /-- PAGE_WALK, R288: A page walker performs a merged translation walk. -/
  | pageWalk (asid page : Nat)
  /-- FAULT_RECORD_POST, R289: A fault record is posted to the fault queue when room exists. -/
  | faultRecordPost (k : Nat)
  /-- FQ_DONE_RETRY, R290: Software answers a fault record with retry and joined accesses walk again. -/
  | fqDoneRetry (v seq : Nat)
  /-- FQ_DONE_DENY, R290: Software answers a fault record with deny and joined accesses fault. -/
  | fqDoneDeny (v seq : Nat)
  /-- INVALIDATION, R291: INV_CTL starts a translation invalidation over a page range. -/
  | invalidation
  /-- REGION_CREATE, R293: Creates an editioned region from its descriptor. -/
  | regionCreate (r : Nat)
  /-- REGION_REREAD, R293: Re-reads a region's pool fields and mappings. -/
  | regionReread (r : Nat)
  /-- REGION_DESTROY, R293: Destroys a region and returns its copies to sub-pools. -/
  | regionDestroy (r : Nat)
  /-- BINDERY_WRITE, R297: A write reaches its editioned page's agent and is handled by page state. -/
  | binderyWrite (k : Nat)
  /-- BACKGROUND_SUBBLOCK_COPY, R297: A pending sub-block copy ends in the background. -/
  | backgroundSubblockCopy (r page : Nat)
  /-- RECLAIM_WALK, R301: The Bindery frees reclaimable copies page by page after a floor raise. -/
  | reclaimWalk (r page : Nat)
  /-- DIRECTORY_READ, R312: The directory serves a read request from a die. -/
  | directoryRead (die line : Nat)
  /-- DIRECTORY_WRITE, R312: The directory serves a write request from a die. -/
  | directoryWrite (die line : Nat)
  /-- DIRECTORY_WRITE_BACK, R312: An owner's write-back reaches the directory. -/
  | directoryWriteBack (die line : Nat)
  /-- EVICTION_NOTICE, R312: A die's eviction notice clears its presence bit. -/
  | evictionNotice (die line : Nat)
  /-- MEM_SPLIT_WRITE, R306: Writes the interleaved share, held or ignored as the rule states. -/
  | memSplitWrite (w : BitVec 64)
  /-- ROUTE_WRITE, R316: Firmware writes link service and pair directions. -/
  | routeWrite (w : BitVec 64)
  /-- LINK_DOWN, R374: The link supervisor declares a link down. -/
  | linkDown (l : Nat)
  /-- GLOSS_EVENT_OFFER, R331: A tap offers an event and matching pairs are queued or dropped. -/
  | glossEventOffer (die : Nat) (e : GlossEvent)
  /-- GLOSS_SLOT, R332: A 256-cycle gloss slot runs its owner's oldest pair. -/
  | glossSlot (die : Nat)
  /-- GLOSS_BUDGET_WINDOW, R333: A 2^20-cycle window starts and budgets are refilled. -/
  | glossBudgetWindow (die : Nat)
  /-- GLOSS_APPLY_TENANT, R328: Applies a gloss tenant entry. -/
  | glossApplyTenant (die i : Nat)
  /-- GLOSS_ATTACH, R328: Attaches a gloss program to a class. -/
  | glossAttach (die i : Nat)
  /-- GLOSS_DETACH, R328: Detaches a gloss attachment between runs. -/
  | glossDetach (die i : Nat)
  /-- GLOSS_DRAIN, R334: Starts a system wait until every earlier pair is run or dropped. -/
  | glossDrain (die : Nat)
  /-- DRAIN_WORD_READ, R334: A load of the drain word completes once the tenant's earlier pairs are done. -/
  | drainWordRead (k : Nat)
  /-- LINK_TRAINING, R346: A UALink port trains and admits or refuses its peer. -/
  | linkTraining (port : Nat) (ok : Bool)
  /-- UALINK_INBOUND_REQUEST, R350: A peer's read, write or atomic arrives and is checked against PEER_IN. -/
  | ualinkInboundRequest (r : PeerReq)
  /-- PEER_ACKNOWLEDGEMENT, R350: A peer acknowledges or refuses a remote access. -/
  | peerAcknowledgement (k : Nat) (r : PeerReply)
  /-- UALINK_MESSAGE_ARRIVAL, R351: A UALink message arrives for an inbound mailbox. -/
  | ualinkMessageArrival (m : PeerMsg)
  /-- HALO_COMMAND, R354: The halo engine takes a command block. -/
  | haloCommand (die : Nat)
  /-- HALO_FACE_ARRIVAL, R354: A streamed face arrives at the destination halo engine. -/
  | haloFaceArrival (die : Nat) (f : Face)
  /-- ALL_REDUCE_COMMAND, R356: The all-reduce engine takes a command block. -/
  | allReduceCommand (die : Nat) (cs : List Contribution)
  /-- ENGINE_COMPLETION, R352: A halo or all-reduce command completes and yields its completion. -/
  | engineCompletion (die : Nat) (coll : Bool)
  /-- FUNCTION_LEVEL_RESET, R367: FLR_CTL resets one virtual device. -/
  | functionLevelReset
  /-- CORE_RETIREMENT, R369: CORE_RETIRE moves a logical core onto a spare. -/
  | coreRetirement
  /-- MARGIN_PLAN, R371: The planner reads canaries and raises voltage or retires units. -/
  | marginPlan (die : Nat) (u : List Canary)
  /-- AUDIT_FLIT_SEND, R373: After 65,536 flits the receiver sends an audit flit. -/
  | auditFlitSend (l : Nat)
  /-- AUDIT_FLIT_RECEIVE, R373: The transmitter restores lost credits from an audit flit. -/
  | auditFlitReceive (l : Nat) (crc : Bool)
  /-- LANE_GROUP_FAILURE, R374: A failing lane group is replaced by a spare group. -/
  | laneGroupFailure (l : Nat)
  /-- SOFT_ERROR, R364: A protected structure detects a correctable or uncorrectable error. -/
  | softError (e : SoftErr)
  /-- PATROL_SCRUB, R364: The scrubber reads and corrects all of HBM every 24 hours. -/
  | patrolScrub (line : Nat)
  /-- CHECKPOINT_SAVE, R381: Streams all physical memory to the safe tier. -/
  | checkpointSave
  /-- CHECKPOINT_RESTORE, R381: Writes all physical memory back from the safe tier. -/
  | checkpointRestore
  /-- MODULE_RESET, R394: Reset starts bring-up from the boot ROM. -/
  | moduleReset
  /-- KEY_LOAD, R396: Loads an encrypted key into a key index. -/
  | keyLoad (i : Nat)
  /-- KEY_CLEAR, R396: Clears a key index. -/
  | keyClear (i : Nat)
  /-- SPDM_REQUEST, R397: The module answers an SPDM request. -/
  | spdmRequest (i : Nat)
  /-- PLDM_MONITORING, R398: The side-band port answers a monitoring request. -/
  | pldmMonitoring (i : Nat)
  /-- PLDM_FIRMWARE_UPDATE, R398: The side-band port writes and checks a new firmware image. -/
  | pldmFirmwareUpdate (img : FwImage)
  /-- POWER_MANAGER_UPDATE, R399: Every 10 µs the power manager sets withheld cycles per die. -/
  | powerManagerUpdate (est : List Nat)
  /-- POWER_LIMIT_WRITE, R399: Writes the power limit, held within its bounds. -/
  | powerLimitWrite (w : BitVec 64)
  /-- THERMAL_CAP, R401: A die above 100 °C lowers the effective power limit. -/
  | thermalCap (die temp : Nat)
  /-- THERMAL_SHUTDOWN, R401: A die at 110 °C stops the module. -/
  | thermalShutdown (die temp : Nat)
  /-- REGISTER_WRITE, R390: A write to a module register with no row of its own, clearing R/C fields. -/
  | registerWrite (a : RegAccess)
  /-- ISSUE_CYCLE, R212: In every cycle that is not withheld, each quarter updates its deficit counters and issues at most one ready bundle. -/
  | issueCycle (core q : Nat)
  /-- CREPLAY_COMPLETION, R201: A creplay finishes writing its gradient rows and completes vd with the log count. -/
  | creplayCompletion (k : Nat)
  /-- FLIT_REPLAY, R374: A link receiver rejects or misses a flit and the flit is replayed, counted in LINK_ERR and offered as a linkev replay event. -/
  | flitReplay (l : Nat)
  /-- UALINK_PORT_DOWN, R374: A lane failure takes a UALink port down; its in-flight requests complete as R350 states and MGMT_CAUSE.port is set. -/
  | ualinkPortDown (port : Nat)
  /-- HOST_INGRESS_ACCESS, R276: The host's access to module memory arrives through the Flaward Link at a die's host ingress port and is checked against CONN_MATRIX. -/
  | hostIngressAccess (r : HostReq)
  /-- PEER_DRAIN_TIMEOUT, R367: A peer that has not acknowledged within 100 ms of a function-level reset is counted in PEER_ERR and released from the drain. -/
  | peerDrainTimeout (k : Nat)
  /-- MAIN_SIDE_OFF, R398: Main-side power is lost while the side-band port goes on running from standby power. -/
  | mainSideOff
  deriving DecidableEq, Repr

end Sys2Proof
end

