-- ==== Sys2Proof/Machine/Bits.lean ====
section
/-! DEFINITION. Bit fields, extensions and byte order (R47, R52): the helpers that the meanings share. -/

namespace Sys2Proof.Machine

/-- `Bits(x, hi, lo)` of R47, as a number. -/
def bits (x : Word) (hi lo : Nat) : Nat := x.toNat / 2 ^ lo % 2 ^ (hi + 1 - lo)

/-- A bit. -/
def bitAt (x : Word) (i : Nat) : Bool := x.getLsbD i

def word (n : Nat) : Word := BitVec.ofNat 64 n
def wordI (n : Int) : Word := BitVec.ofInt 64 n

/-- Low 32 bits as a number. -/
def lo32 (x : Word) : BitVec 32 := x.setWidth 32
def hi32 (x : Word) : BitVec 32 := (x >>> 32).setWidth 32
/-- `SignExtend` and `ZeroExtend` of R47 for a 32-bit result (R52). -/
def sx32 (x : BitVec 32) : Word := x.signExtend 64
def zx32 (x : BitVec 32) : Word := x.setWidth 64
/-- `SignExtend(x, n)` of R47. -/
def sx (n : Nat) (x : Word) : Word := (x.setWidth n).signExtend 64

/-- `Sat(x, type)` of R47, for a range. -/
def clamp (lo hi x : Int) : Int := if x < lo then lo else if hi < x then hi else x

/-- The `n` low bytes of a word, little-endian. -/
def bytesOf : Nat → Nat → List Byte
  | 0, _ => []
  | n + 1, v => BitVec.ofNat 8 v :: bytesOf n (v / 256)

/-- The number that bytes make, little-endian. -/
def natOf : List Byte → Nat
  | [] => 0
  | b :: bs => b.toNat + 256 * natOf bs

/-- Bytes `lo` to `lo + n - 1` of a list; zero past its end. -/
def slice (bs : List Byte) (lo n : Nat) : List Byte := (List.range n).map fun i => bs.getD (lo + i) 0

/-- The little-endian number in bytes `lo` to `lo + n - 1`. -/
def fieldOf (bs : List Byte) (lo n : Nat) : Nat := natOf (slice bs lo n)

/-- Bytes of a width code (R125). -/
def widthBytes : Width → Nat | .b => 1 | .hw => 2 | .w => 4 | .d => 8

/-- One element of a packed register: element `i` of width `n` bits. -/
def elem (n i : Nat) (x : Word) : Nat := x.toNat / 2 ^ (n * i) % 2 ^ n

/-- The register made of elements of `n` bits, element 0 first. -/
def packElems (n : Nat) : List Nat → Nat
  | [] => 0
  | x :: xs => x % 2 ^ n + 2 ^ n * packElems n xs

end Sys2Proof.Machine
end

