-- ==== Sys2Proof/Machine/Fp.lean ====
section
/-! DEFINITION. Numbers and roundings: the formats of R49 and R50, the helpers Prod, Align, Round and RoundToOdd of R58 and R59,
and the operations of R105 to R113 on one element. A finite number is exact: sign, natural significand, binary exponent. -/

namespace Sys2Proof.Machine

/-- FPX flags of one operation: nv dz of uf nx (R62). -/
abbrev Flags := BitVec 5
def flNV : Flags := 16
def flDZ : Flags := 8
def flOF : Flags := 4
def flUF : Flags := 2
def flNX : Flags := 1

/-- A floating format (R49): widths of exponent and fraction. -/
structure Fmt where
  eb : Nat
  mb : Nat
  deriving DecidableEq, Repr

def fp64 : Fmt := ⟨11, 52⟩
def fp32 : Fmt := ⟨8, 23⟩
def fp16 : Fmt := ⟨5, 10⟩
def bf16 : Fmt := ⟨8, 7⟩
def e8m26 : Fmt := ⟨8, 26⟩

/-- The bias, which is also emax (R49). -/
def fBias (F : Fmt) : Nat := 2 ^ (F.eb - 1) - 1
def fEmin (F : Fmt) : Int := 1 - (fBias F : Int)
/-- Exponent of the least quantum: emin − p + 1. -/
def fQmin (F : Fmt) : Int := fEmin F - F.mb
def fInf (F : Fmt) (neg : Bool) : Nat := (if neg then 2 ^ (F.eb + F.mb) else 0) + (2 ^ F.eb - 1) * 2 ^ F.mb
def fMax (F : Fmt) (neg : Bool) : Nat := fInf F neg - 1
def fNaN (F : Fmt) : Nat := (2 ^ F.eb - 1) * 2 ^ F.mb + 2 ^ (F.mb - 1)
def fZero (F : Fmt) (neg : Bool) : Nat := if neg then 2 ^ (F.eb + F.mb) else 0

/-- The value of an element. -/
inductive Num
  | nan (sig : Bool)
  | inf (neg : Bool)
  | fin (neg : Bool) (m : Nat) (e : Int)
  deriving DecidableEq, Repr

/-- The value that the bits of a format encode (R49). -/
def numOf (F : Fmt) (x : Nat) : Num :=
  let neg := x / 2 ^ (F.eb + F.mb) % 2 = 1
  let ef := x / 2 ^ F.mb % 2 ^ F.eb
  let fr := x % 2 ^ F.mb
  if ef = 2 ^ F.eb - 1 then (if fr = 0 then .inf neg else .nan (fr < 2 ^ (F.mb - 1)))
  else if ef = 0 then .fin neg fr (fQmin F)
  else .fin neg (2 ^ F.mb + fr) (fQmin F + ef - 1)

def nNeg : Num → Num
  | .nan s => .nan s
  | .inf n => .inf !n
  | .fin n m e => .fin (!n) m e
def nAbs : Num → Num
  | .nan s => .nan s
  | .inf _ => .inf false
  | .fin _ m e => .fin false m e
def isNan : Num → Bool | .nan _ => true | .inf _ => false | .fin _ _ _ => false
def isSnan : Num → Bool | .nan s => s | .inf _ => false | .fin _ _ _ => false
def isInf : Num → Bool | .inf _ => true | .nan _ => false | .fin _ _ _ => false
def isZero : Num → Bool | .fin _ m _ => m == 0 | .inf _ => false | .nan _ => false
def nSign : Num → Bool | .fin n _ _ => n | .inf n => n | .nan _ => false

/-- x · 2^k, exact (R57). -/
def nScale (k : Int) : Num → Num
  | .nan s => .nan s
  | .inf n => .inf n
  | .fin n m e => .fin n m (e + k)

/-- |x| < 2^emin(F) and x ≠ 0: subnormal in F. -/
def isSub (F : Fmt) : Num → Bool
  | .fin _ m e => m != 0 && decide ((Nat.log2 m : Int) + e < fEmin F)
  | .nan _ => false
  | .inf _ => false

/-- The input flush of `.ftz1` (R58). -/
def flush (F : Fmt) (ftz : Bool) (x : Num) : Num := if ftz && isSub F x then .fin (nSign x) 0 0 else x

/-- `Prod` (R58). -/
def nProd : Num → Num → Num
  | .nan _, _ => .nan false
  | _, .nan _ => .nan false
  | .inf n, .inf k => .inf (n != k)
  | .inf n, .fin k m _ => if m = 0 then .nan false else .inf (n != k)
  | .fin n m _, .inf k => if m = 0 then .nan false else .inf (n != k)
  | .fin n m e, .fin k p f => .fin (n != k) (m * p) (e + f)

/-- 0 × ∞ (R62: raises NV). -/
def prodInvalid (a b : Num) : Bool := (isInf a && isZero b) || (isZero a && isInf b)

/-- +∞ and −∞ among the terms (R62: raises NV). -/
def sumInvalid (ts : List Num) : Bool := ts.contains (.inf true) && ts.contains (.inf false)

/-- The finite terms' least exponent, `e` at most. -/
def minExp (e : Int) : List Num → Int
  | [] => e
  | .fin _ _ f :: ts => minExp (if f < e then f else e) ts
  | .nan _ :: ts => minExp e ts
  | .inf _ :: ts => minExp e ts

/-- The finite terms' sum in units of 2^e. -/
def sumAt (e : Int) : List Num → Int
  | [] => 0
  | .fin n m f :: ts => (if n then -((m * 2 ^ (f - e).toNat : Nat) : Int) else ((m * 2 ^ (f - e).toNat : Nat) : Int)) + sumAt e ts
  | .nan _ :: ts => sumAt e ts
  | .inf _ :: ts => sumAt e ts

/-- `Align` (R58): the exact sum. A zero sum is −0 when every term is −0; under `.rdn` also when the terms were not all +0. -/
def nAlign (r : Rnd) (ts : List Num) : Num :=
  if ts.any isNan || sumInvalid ts then .nan false
  else if ts.contains (.inf true) then .inf true
  else if ts.contains (.inf false) then .inf false
  else
    let ts' := ts.filter (!isZero ·)
    let e := minExp (match ts' with | .fin _ _ f :: _ => f | _ => 0) ts'
    let x := sumAt e ts'
    if x = 0 then
      .fin (if r = .rdn then !(ts.all fun t => isZero t && !nSign t) else ts.all fun t => isZero t && nSign t) 0 0
    else .fin (x < 0) x.natAbs e

/-- The bits of ±m · 2^q, for a quantum exponent q of R58 at m (so m < 2^p, or m = 2^p). -/
def encodeAt (F : Fmt) (neg : Bool) (m : Nat) (q : Int) : Nat :=
  fZero F neg + (q - fQmin F).toNat * 2 ^ F.mb + m

/-- The quantum exponent at m · 2^e, m > 0 (R58). -/
def quantum (F : Fmt) (m : Nat) (e : Int) : Int := max ((Nat.log2 m : Int) + e) (fEmin F) - F.mb

/-- |x| in quanta of 2^q: integer part, and whether the rest is 0, below, at, or above one half (0 to 3). `sticky`: the true
value lies above m · 2^e by less than one unit of m. -/
def quanta (m : Nat) (e q : Int) (sticky : Bool) : Nat × Nat :=
  if q ≤ e then (m * 2 ^ (e - q).toNat, if sticky then 1 else 0)
  else
    let k := (q - e).toNat
    let r := m % 2 ^ k
    let h := 2 ^ (k - 1)
    (m / 2 ^ k, if r < h then (if r = 0 && !sticky then 0 else 1) else if r = h && !sticky then 2 else 3)

/-- Whether a mode takes the magnitude up (R58). -/
def roundsUp (r : Rnd) (neg odd : Bool) (rest : Nat) : Bool :=
  match r with
  | .rne => rest == 3 || (rest == 2 && odd)
  | .rtz => false
  | .rup => rest != 0 && !neg
  | .rdn => rest != 0 && neg

/-- ±m·2^q in F after rounding, with overflow (R58). -/
def overflowTo (F : Fmt) (r : Rnd) (neg : Bool) : Nat :=
  match r with
  | .rne => fInf F neg
  | .rtz => fMax F neg
  | .rup => if neg then fMax F true else fInf F false
  | .rdn => if neg then fInf F true else fMax F false

/-- `Round` of a finite nonzero magnitude (R58), `sticky` as in `quanta`. -/
def roundMag (F : Fmt) (r : Rnd) (ftz neg : Bool) (m : Nat) (e : Int) (sticky : Bool) : Nat × Flags :=
  let q := quantum F m e
  let (n, rest) := quanta m e q sticky
  let y := if roundsUp r neg (n % 2 == 1) rest then n + 1 else n
  if y ≠ 0 ∧ (Nat.log2 y : Int) + q > fBias F then (overflowTo F r neg, flOF ||| flNX)
  else
    let tiny := decide (y < 2 ^ F.mb)
    let fl := if rest = 0 then 0 else if tiny then flNX ||| flUF else flNX
    if ftz && tiny && y != 0 then (fZero F neg, fl ||| flUF ||| flNX) else (encodeAt F neg y q, fl)

/-- `Round` (R58). -/
def nRound (F : Fmt) (r : Rnd) (ftz : Bool) (x : Num) : Nat × Flags :=
  match x with
  | .nan _ => (fNaN F, 0)
  | .inf n => (fInf F n, 0)
  | .fin n m e => if m = 0 then (fZero F n, 0) else roundMag F r ftz n m e false

/-- `RoundToOdd` (R59). -/
def nRoundOdd (F : Fmt) (x : Num) : Nat :=
  match x with
  | .nan _ => fNaN F
  | .inf n => fInf F n
  | .fin n m e =>
    if m = 0 then fZero F n
    else
      let q := quantum F m e
      let (k, rest) := quanta m e q false
      if (Nat.log2 k : Int) + q > fBias F then fMax F n
      else encodeAt F n (if rest ≠ 0 && k % 2 == 0 then k + 1 else k) q

/-! ## Operations on one element (R105 to R109) -/

/-- NV for a signalling NaN among the operands (R51). -/
def snv (ts : List Num) : Flags := if ts.any isSnan then flNV else 0
def nvIf (b : Bool) : Flags := if b then flNV else 0

def opAdd (F : Fmt) (m : FMod) (a b : Nat) : Nat × Flags :=
  let x := flush F m.ftz (numOf F a)
  let y := flush F m.ftz (numOf F b)
  let (z, f) := nRound F m.rnd m.ftz (nAlign m.rnd [x, y])
  (z, f ||| snv [x, y] ||| nvIf (sumInvalid [x, y]))

def opSub (F : Fmt) (m : FMod) (a b : Nat) : Nat × Flags :=
  let x := flush F m.ftz (numOf F a)
  let y := nNeg (flush F m.ftz (numOf F b))
  let (z, f) := nRound F m.rnd m.ftz (nAlign m.rnd [x, y])
  (z, f ||| snv [x, y] ||| nvIf (sumInvalid [x, y]))

def opMul (F : Fmt) (m : FMod) (a b : Nat) : Nat × Flags :=
  let x := flush F m.ftz (numOf F a)
  let y := flush F m.ftz (numOf F b)
  let (z, f) := nRound F m.rnd m.ftz (nProd x y)
  (z, f ||| snv [x, y] ||| nvIf (prodInvalid x y))

/-- a·b + c, or −(a·b) + c, with one rounding (R107). -/
def opFma (F : Fmt) (neg : Bool) (m : FMod) (a b c : Nat) : Nat × Flags :=
  let x := flush F m.ftz (numOf F a)
  let y := flush F m.ftz (numOf F b)
  let w := flush F m.ftz (numOf F c)
  let p := if neg then nNeg (nProd x y) else nProd x y
  let (z, f) := nRound F m.rnd m.ftz (nAlign m.rnd [p, w])
  (z, f ||| snv [x, y, w] ||| nvIf (prodInvalid x y || sumInvalid [p, w]))

/-- The quotient of two significands: at least `k` significant bits, and whether it is inexact. -/
def divBits (k ma mb : Nat) : Nat × Int × Bool :=
  let s := k + Nat.log2 mb - Nat.log2 ma
  (ma * 2 ^ s / mb, -(s : Int), ma * 2 ^ s % mb != 0)

def opDiv (F : Fmt) (m : FMod) (a b : Nat) : Nat × Flags :=
  let x := flush F m.ftz (numOf F a)
  let y := flush F m.ftz (numOf F b)
  match x, y with
  | .nan s, .nan t => (fNaN F, nvIf (s || t))
  | .nan s, .inf _ => (fNaN F, nvIf s)
  | .nan s, .fin _ _ _ => (fNaN F, nvIf s)
  | .inf _, .nan t => (fNaN F, nvIf t)
  | .fin _ _ _, .nan t => (fNaN F, nvIf t)
  | .inf _, .inf _ => (fNaN F, flNV)
  | .inf n, .fin k _ _ => (fInf F (n != k), 0)
  | .fin n _ _, .inf k => (fZero F (n != k), 0)
  | .fin n ma ea, .fin k mb eb =>
    if mb = 0 then (if ma = 0 then (fNaN F, flNV) else (fInf F (n != k), flDZ))
    else if ma = 0 then (fZero F (n != k), 0)
    else
      let (q, e, st) := divBits (F.mb + 4) ma mb
      roundMag F m.rnd m.ftz (n != k) q (ea - eb + e) st

/-- The integer square root, bit by bit from 2^i down. -/
def sqrtBits (n : Nat) : Nat → Nat → Nat
  | 0, r => r
  | i + 1, r => if (r + 2 ^ i) * (r + 2 ^ i) ≤ n then sqrtBits n i (r + 2 ^ i) else sqrtBits n i r

def isqrt (n : Nat) : Nat := sqrtBits n (Nat.log2 n / 2 + 1) 0

/-- √(m · 2^e): at least `k` significant bits, its exponent, and whether it is inexact. -/
def sqrtNum (k m : Nat) (e : Int) : Nat × Int × Bool :=
  let s := 2 * k + (if (e % 2) = 0 then 0 else 1)
  let n := m * 2 ^ s
  let r := isqrt n
  (r, (e - s) / 2, r * r != n)

def opSqrt (F : Fmt) (m : FMod) (a : Nat) : Nat × Flags :=
  match flush F m.ftz (numOf F a) with
  | .nan s => (fNaN F, nvIf s)
  | .inf n => if n then (fNaN F, flNV) else (fInf F false, 0)
  | .fin n k e =>
    if k = 0 then (fZero F n, 0)
    else if n then (fNaN F, flNV)
    else
      let (r, f, st) := sqrtNum (F.mb + 4) k e
      roundMag F m.rnd m.ftz false r f st

/-- An integral value by mode: magnitude, and whether the value was integral. -/
def toInt (r : Rnd) (neg : Bool) (m : Nat) (e : Int) : Nat × Bool :=
  let (n, rest) := quanta m e 0 false
  (if roundsUp r neg (n % 2 == 1) rest then n + 1 else n, rest == 0)

def opRint (F : Fmt) (m : FMod) (a : Nat) : Nat × Flags :=
  match flush F m.ftz (numOf F a) with
  | .nan s => (fNaN F, nvIf s)
  | .inf n => (fInf F n, 0)
  | .fin n k e =>
    let (y, exact) := toInt m.rnd n k e
    ((nRound F .rne false (.fin n y 0)).1, if exact then 0 else flNX)

/-- Numeric order; none with a NaN. −0 below +0 (R106). -/
def totalLt (a b : Num) : Bool :=
  match a, b with
  | .nan _, _ => false
  | _, .nan _ => false
  | .inf n, .inf k => n && !k
  | .inf n, .fin _ _ _ => n
  | .fin _ _ _, .inf k => !k
  | .fin n m e, .fin k p f =>
    if m = 0 && p = 0 then n && !k
    else
      let g := minExp e [.fin k p f]
      decide (sumAt g [.fin n m e] < sumAt g [.fin k p f])

/-- `min` or `max` of one element (R106). -/
def opMinMax (F : Fmt) (big ftz : Bool) (a b : Nat) : Nat × Flags :=
  let x := flush F ftz (numOf F a)
  let y := flush F ftz (numOf F b)
  let keep (v : Num) (raw : Nat) : Nat := if isZero v then fZero F (nSign v) else raw
  let fl := snv [x, y]
  if isNan x then (if isNan y then fNaN F else keep y b, fl)
  else if isNan y then (keep x a, fl)
  else
    let lt := totalLt x y
    let le := lt || !totalLt y x
    (if big then (if le then keep y b else keep x a) else (if le then keep x a else keep y b), fl)

/-- The four comparisons of R108: eq, lt, le, nan. -/
inductive FCmp | eq | lt | le | nan
  deriving DecidableEq, Repr

def opCmp (F : Fmt) (c : FCmp) (a b : Nat) : Bool × Flags :=
  let x := numOf F a
  let y := numOf F b
  let any := isNan x || isNan y
  let eq := !any && ((isZero x && isZero y) || (!totalLt x y && !totalLt y x))
  let lt := !any && !eq && totalLt x y
  match c with
  | .eq => (eq, snv [x, y])
  | .lt => (lt, nvIf any)
  | .le => (eq || lt, nvIf any)
  | .nan => (any, snv [x, y])

/-- The class mask of R109. -/
def opClass (F : Fmt) (a : Nat) : Nat :=
  let x := numOf F a
  match x with
  | .nan s => if s then 2 ^ 8 else 2 ^ 9
  | .inf n => if n then 2 ^ 0 else 2 ^ 7
  | .fin n m _ =>
    if m = 0 then (if n then 2 ^ 3 else 2 ^ 4)
    else if isSub F x then (if n then 2 ^ 2 else 2 ^ 5)
    else (if n then 2 ^ 1 else 2 ^ 6)

/-! ## Special functions (R111 to R113) -/

/-- Bits of the fixed-point numbers in which transcendental values are computed. -/
def fixBits : Nat := 400
/-- ⌊π · 2^420⌋ -/
def piFix : Nat := 0x3243f6a8885a308d313198a2e03707344a4093822299f31d0082efa98ec4e6c89452821e638d01377be5466cf34e90c6cc0ac29b7c
/-- ⌊ln 2 · 2^420⌋ -/
def ln2Fix : Nat := 0xb17217f7d1cf79abc9e3b39803f2f6af40f343267298b62d8a0d175b8baafa2be7b876206debac98559552fb4afa1b10ed2eae35c

/-- Σ y^n / n! from term `t` on, `k` terms, in units of 2^−fixBits. -/
def expSeries (y : Nat) : Nat → Nat → Nat → Nat
  | 0, _, _ => 0
  | k + 1, n, t => t + expSeries y k (n + 1) (t * y / 2 ^ fixBits / (n + 1))

/-- The alternating series of sine and cosine: term `t`, then t · y² / ((n+1)(n+2)). -/
def altSeries (y2 : Nat) : Nat → Nat → Nat → Int
  | 0, _, _ => 0
  | k + 1, n, t => (t : Int) - altSeries y2 k (n + 2) (t * y2 / 2 ^ fixBits / ((n + 1) * (n + 2)))

/-- The exact finite value as integer part and fraction in units of 2^−fixBits (rounded down). -/
def splitFix (neg : Bool) (m : Nat) (e : Int) : Int × Nat :=
  let x : Int := if 0 ≤ e then ((m * 2 ^ (e.toNat + fixBits) : Nat) : Int) else ((m * 2 ^ fixBits : Nat) : Int)
  let d : Int := if 0 ≤ e then 1 else ((2 ^ (-e).toNat : Nat) : Int)
  let v := (if neg then -x else x) / d
  (v / ((2 ^ fixBits : Nat) : Int), (v % ((2 ^ fixBits : Nat) : Int)).toNat)

/-- A result of a function, before it is delivered: exact, or a truncated magnitude m · 2^e with a rest below one unit of m. -/
inductive Raw
  | bits (x : Nat) (f : Flags)
  | mag (neg : Bool) (m : Nat) (e : Int) (inexact : Bool)
  deriving DecidableEq, Repr

/-- 2^x (R111). `.mag` of at least `fixBits` significant bits. -/
def rawExp2 (F : Fmt) (a : Nat) : Raw :=
  match numOf F a with
  | .nan s => .bits (fNaN F) (nvIf s)
  | .inf n => .bits (if n then 0 else fInf F false) 0
  | .fin n m e =>
    if m = 0 then .mag false 1 0 false
    else if 20 < (Nat.log2 m : Int) + e then
      .bits (if n then 0 else fInf F false) (if n then flUF ||| flNX else flOF ||| flNX)
    else
      let (i, f) := splitFix n m e
      if i < fQmin F - 1 then .bits 0 (flUF ||| flNX)
      else if (toInt .rtz n m e).2 then .mag false 1 i false
      else
        let v := expSeries (f * ln2Fix / 2 ^ 420) 100 0 (2 ^ fixBits)
        .mag false (min (max v (2 ^ fixBits)) (2 ^ (fixBits + 1) - 1)) (i - fixBits) true

/-- log₂ of a significand in [1, 2) given as y / 2^fixBits: `k` bits of the fraction, most significant first, after `acc`. -/
def logBits (y : Nat) : Nat → Nat → Nat
  | 0, acc => acc
  | k + 1, acc =>
    let s := y * y / 2 ^ fixBits
    if 2 ^ (fixBits + 1) ≤ s then logBits (s / 2) k (2 * acc + 1) else logBits s k (2 * acc)

/-- log₂ x (R111); of 1 it is +0. DESIGN CHOICE: log entry 47. -/
def rawLog2 (F : Fmt) (a : Nat) : Raw :=
  match numOf F a with
  | .nan s => .bits (fNaN F) (nvIf s)
  | .inf n => if n then .bits (fNaN F) flNV else .bits (fInf F false) 0
  | .fin n m e =>
    if m = 0 then .bits (fInf F true) flDZ
    else if n then .bits (fNaN F) flNV
    else
      let l := Nat.log2 m
      let i : Int := l + e
      if m = 2 ^ l then (if i = 0 then .bits 0 0 else .mag (i < 0) i.natAbs 0 false)
      else
        let fr := logBits (m * 2 ^ (fixBits - l)) 180 0
        if 0 ≤ i then .mag false (i.toNat * 2 ^ 180 + fr) (-180) true
        else .mag true (i.natAbs * 2 ^ 180 - fr - 1) (-180) true

/-- sin(π t) for 0 ≤ t ≤ 1/2 in units of 2^−fixBits. -/
def sinPiFix (t : Nat) : Nat :=
  let y := t * piFix / 2 ^ 420
  (altSeries (y * y / 2 ^ fixBits) 60 1 y).toNat
/-- cos(π t) for 0 ≤ t ≤ 1/2. -/
def cosPiFix (t : Nat) : Nat :=
  let y := t * piFix / 2 ^ 420
  min (altSeries (y * y / 2 ^ fixBits) 60 0 (2 ^ fixBits)).toNat (2 ^ fixBits - 1)

/-- sin(π x), or cos(π x) (R111, R113): `t` is x mod 2 in units of 2^−fixBits. -/
def rawTrig (F : Fmt) (cos : Bool) (a : Nat) : Raw :=
  match numOf F a with
  | .nan s => .bits (fNaN F) (nvIf s)
  | .inf _ => .bits (fNaN F) flNV
  | .fin n m e =>
    if m = 0 then (if cos then .mag false 1 0 false else .bits (fZero F n) 0)
    else
      let (i, f) := splitFix false m e
      let one := 2 ^ fixBits
      let half := 2 ^ (fixBits - 1)
      let odd := i % 2 = 1
      if cos then
        if f = 0 then .mag odd 1 0 false
        else if f = half then .bits 0 0
        else if f < half then .mag odd (cosPiFix f) (-fixBits) true
        else .mag (!odd) (cosPiFix (one - f)) (-fixBits) true
      else
        if f = 0 then .bits (fZero F n) 0
        else if f = half then .mag (n != odd) 1 0 false
        else .mag (n != odd) (sinPiFix (if f < half then f else one - f)) (-fixBits) true

/-- 1/x. -/
def rawRcp (F : Fmt) (a : Nat) : Raw :=
  match numOf F a with
  | .nan s => .bits (fNaN F) (nvIf s)
  | .inf n => .bits (fZero F n) 0
  | .fin n m e =>
    if m = 0 then .bits (fInf F n) flDZ
    else let (q, k, st) := divBits fixBits 1 m; .mag n q (k - e) st

/-- 1/√x. -/
def rawRsqrt (F : Fmt) (a : Nat) : Raw :=
  match numOf F a with
  | .nan s => .bits (fNaN F) (nvIf s)
  | .inf n => if n then .bits (fNaN F) flNV else .bits 0 0
  | .fin n m e =>
    if m = 0 then .bits (fInf F n) flDZ
    else if n then .bits (fNaN F) flNV
    else
      -- 1/√(m·2^e) = √(2^(2k)/m') · 2^(−k) · 2^(−e'/2), with e' even
      let (m', e') := if e % 2 = 0 then (m, e) else (2 * m, e - 1)
      let k := fixBits
      let q := 2 ^ (2 * k) / m'
      let r := isqrt q
      .mag false r (-(k : Int) - e' / 2) (r * r * m' != 2 ^ (2 * k))

/-- A special function's result within 1 ulp (R111, R112): exact where the exact result is representable, else one of the values
within one quantum of it, as the implementation chose: a neighbour (Config.specialAway), or, within half a quantum above a power
of two, the value below that power (Config.specialBelow). NX, UF and OF follow the value returned. Where the exact result exceeds
MaxFinite, the infinity of its sign with OF and NX, of `rcp.d` too, for which no rule says so. DESIGN CHOICE: log entry 4. -/
def withinUlp (F : Fmt) (fn : Nat) (arg : Word) (x : Raw) : Nat × Flags :=
  match x with
  | .bits y f => (y, f)
  | .mag neg m e st =>
    let q := quantum F m e
    let (n, rest) := quanta m e q st
    if rest = 0 then roundMag F .rne false neg m e st
    else if (Nat.log2 m : Int) + e > fBias F then (fInf F neg, flOF ||| flNX)
    else if Config.specialBelow fn arg = true ∧ n = 2 ^ F.mb ∧ fQmin F < q ∧ rest ≤ 2 then
      (encodeAt F neg (2 * n - 1) (q - 1), flNX)
    else
      let y := if Config.specialAway fn arg then n + 1 else n
      if (Nat.log2 y : Int) + q > fBias F then (fInf F neg, flOF ||| flNX)
      else (encodeAt F neg y q, if y < 2 ^ F.mb then flNX ||| flUF else flNX)

/-- A function rounded to nearest even (R112: `exp2.f`). -/
def nearest (F : Fmt) (x : Raw) : Nat × Flags :=
  match x with
  | .bits y f => (y, f)
  | .mag neg m e st => roundMag F .rne false neg m e st

/-- `exp2.f` of one FP32 element, as the compositing accumulator uses it too (R112, R199). -/
def exp2F32 (a : Nat) : Nat × Flags := nearest fp32 (rawExp2 fp32 a)

end Sys2Proof.Machine
end

