-- ==== Sys2Proof/Machine/State.lean ====
section
/-! DEFINITION. The state of one Voxras GS4 module, as plain data, and the module right after reset.
Every `Tab` is a sparse table: keys strictly rising, no entry equal to the table's default (named at the field). -/

namespace Sys2Proof.Machine

/-- Why the machine stops. Both are raised by `step` alone, on every state whose module has stopped; both are safe. -/
inductive Fault
  /-- Raised by `step` after a thermal shutdown (R401: the module stops at once and needs a reset) or with the main side off
  (R398): only side-band steps and the reset are taken then. Safe. -/
  | moduleStopped
  deriving DecidableEq, Repr

/-- Why a step has no meaning. -/
inductive Refusal
  /-- Raised by `exec`'s arm of an instruction that has no meaning in this model (none). Safe. -/
  | notModelled (mnemonic : String)
  deriving DecidableEq, Repr

/-! ## Registers (R36 to R39) -/

/-- State of a v or s register (R36). A FAULT register keeps what its trap record will hold: the address of the producing
instruction and the data address. -/
inductive RState | full | empty | dead | fault (ia da : Word)
  deriving DecidableEq, Repr

/-- A v or s register: value, state, poison bit. The default is R39's start: zero, FULL, clean. -/
structure Cell where
  v : Word := 0
  st : RState := .full
  psn : Bool := false
  deriving DecidableEq, Repr

/-- What the commit of an instruction does to its source registers: those it kills, those it keeps in the operand cache (R40 to R42). -/
structure Uses where
  kill : List (Bool × BitVec 6) := []
  keep : List (Bool × BitVec 6) := []
  deriving DecidableEq, Repr

/-- A predicate p1 to p7 or q1 to q7 (R37). -/
structure PCell where
  b : Bool := false
  empty : Bool := false
  deriving DecidableEq, Repr

/-! ## Traps (R360 to R362) -/

/-- The trap names of R361. -/
inductive TrapName
  | illegal | privilege | accessFault | misalign | poisonUse | emptyRead | dataUncorr | uniformSplit | handleBusy
  | handleFault | capFault | copyFault | engineFault | editionGone | editionLimit | gangFault | slotFault | accExhausted
  | compFault | barrierFault | launchFault | userTrap
  deriving DecidableEq, Repr

/-- What a trap records (R361, R362), but for TRAP_TID and the group bit, which its handler set gives. -/
structure TrapRec where
  name : TrapName
  pc : Word
  addr : Word := 0
  info : Word := 0
  wr : Bool := false
  space : Space := .g
  fetch : Bool := false
  deriving DecidableEq, Repr

/-- A trap that waits for the handler set before it to return (R145). -/
structure HeldTrap where
  tids : List Nat
  group : Bool
  tr : TrapRec
  deriving DecidableEq, Repr

/-! ## Threads and groups (R203, R221) -/

/-- Thread states of R221. -/
inductive TState | ready | waitOpnd | blocked | waitLane | waitConv | exited
  deriving DecidableEq, Repr

/-- What a WAIT_OPND or BLOCKED thread waits for (R220, R221): its wake condition. `agent`: the operation of that number has ended;
`ops`: every register of the thread has its value (R100), or, at a release, every operation of the group has ended; `denied` marks a
thread whose access FQ_DONE has denied and which runs again to take its trap (R290). -/
inductive Wait
  | none
  | reg (uni : Bool) (r : BitVec 6)
  | pred (uni : Bool) (p : BitVec 3)
  | tbar
  | bar
  | waith (h : Nat) (c : HCond)
  | rdv (n : Nat)
  | waitl (tok : Nat)
  | page (asid page : Nat)
  | pool (region k : Nat)
  | agent (id : Nat)
  | ops
  | trackers
  | denied (asid page : Nat)
  | handleTrap
  deriving DecidableEq, Repr

/-- A thread. The default stands for "no such thread", which counts as exited. `last` is the quarter cycle of its last issue
(R213). -/
structure Thr where
  pc : Word := 0
  sys : Bool := false
  st : TState := .exited
  wait : Wait := .none
  last : Nat := 0
  deriving DecidableEq, Repr

/-- A shape table entry as a core has read it (R269); none when its use is a CAP_FAULT. -/
structure Shape where
  base : Word
  ext : List Nat
  str : List Word
  slot : BitVec 3
  r : Bool
  w : Bool
  deriving DecidableEq, Repr

/-- What one group brings to a streamed matrix instruction (R184 to R190): its position, its slot (`.d`: none until it is allocated), its
C block (narrow types), its shapes and handles, by element the C block at issue, as it is, and its running E8M26 partials. -/
structure MmGroup where
  gk : Nat
  pos : Nat := 0
  slot : Option Nat := .none
  d : BitVec 6
  a : Shape
  b : Shape
  ha : Nat
  hb : Nat
  c : Tab (BitVec 32) := []
  cur : Tab (BitVec 32) := []
  acc : Tab (BitVec 35) := []
  deriving DecidableEq, Repr

/-- What one group brings to a register-form matrix instruction (R182): its slot, its C block, the bytes of its A block, of its B part
and of its C block at issue. -/
structure MrGroup where
  gk : Nat
  slot : Option Nat := .none
  d : BitVec 6
  a : List Byte
  b : List Byte
  c : List Byte
  deriving DecidableEq, Repr

/-- A joint instruction as a group brings it to the rendezvous latch (R175): `gang` with its value; `mmar` with type, destination,
blocks and format slots; `mmas` with type, window, reference, K-steps and what the group brings. -/
inductive Joint
  | gang (v : Word)
  | mmar (ty : Nat) (d : BitVec 6) (a b : Src) (fa fb : BitVec 3)
  | mmas (ty p : Nat) (ref : Word) (k0 nk : Nat) (m : MmGroup)
  deriving DecidableEq, Repr

/-- A group's arrival at the latch: its instruction, the kills of its commit, the address at which it goes on, and the address and
first word of the instruction. -/
structure Latch where
  ins : Joint
  kl : List (Bool × BitVec 6)
  npc : Word
  pc : Word
  deriving DecidableEq, Repr

/-- A group's own state (R226): quarter binding, flags, running maxima, GANG, the trap registers, the handler set in system
mode ([] for none), held traps, barrier arrivals (the address after the barrier), the latch arrival. -/
structure Grp where
  quarter : Nat := 0
  order : Nat := 0
  fpx : BitVec 5 := 0
  amax : Tab Word := []
  gang : Word := 0
  /-- GANG holds what `wrsys` has written, and no joint instruction has taken a fault for it (R173) -/
  gangNew : Bool := false
  tKind : Word := 0
  tPc : Word := 0
  tAddr : Word := 0
  tInfo : Word := 0
  tTid : Word := 0
  tTmp0 : Word := 0
  tTmp1 : Word := 0
  tTmp2 : Word := 0
  hset : List Nat := []
  held : List HeldTrap := []
  tbar : Option Word := .none
  bar : Option Word := .none
  latch : Option Latch := .none
  /-- the fork set that the group's next `mmas` joins (R156) -/
  fork : Option Nat := .none
  /-- the token of a `waitl` that waits, its destination EMPTY (R36, R163) -/
  wl : Option Word := .none
  /-- the target of a uniform register jump that no thread has fetched at yet (R151) -/
  utgt : Option Word := .none
  deriving DecidableEq, Repr

/-! ## Teams (R224, R226) -/

inductive TeamState | queued | resident | evicted | woken | switchedOut | ended
  deriving DecidableEq, Repr

/-- Handle states of R142. -/
inductive HState | free | full | filling | draining
  deriving DecidableEq, Repr

/-- A bound handle: its tile, its state, its err bit, the number of its open records (R192), and the number of running
streamed matrix instructions that name it (R189). -/
structure Handle where
  off : Nat
  size : Nat
  st : HState := .free
  err : Bool := false
  recs : Nat := 0
  mm : Nat := 0
  deriving DecidableEq, Repr

/-- A 128-byte queue entry in reservation order (R216, R218): filled or only reserved, its bytes, its uncorrectable mark. -/
structure QEnt where
  id : Nat
  filled : Bool
  data : List Byte
  bad : Bool
  deriving DecidableEq, Repr

/-- A message in a mailbox (R265) with the bytes that carry an uncorrectable mark (8-byte words, by number). -/
structure Msg where
  data : List Byte
  bad : List Nat := []
  deriving DecidableEq, Repr

/-- One record of an access program (R217). -/
structure StreamRec where
  off : Word
  stride : Word
  rows : Nat
  entries : Nat
  queue : Nat
  space : Space
  deriving DecidableEq, Repr

/-- A running access program (R217 to R219): its address and what has been read of it, its argument, its records once all of it has
been read, its position, what it waits for. -/
structure AProg where
  base : Word
  hdr : List Byte := []
  ready : Bool := false
  gk : Nat
  ia : Word
  arg : Word
  recs : List StreamRec := []
  i : Nat := 0
  row : Nat := 0
  e : Nat := 0
  set : Nat := 0
  wait : Wait := .none
  deriving DecidableEq, Repr

/-- The program member of a fork set: running, ended, or ended on a fault at an address (R157). -/
inductive ProgEnd | run | ok | fault (a : Word)
  deriving DecidableEq, Repr

/-- An open fork set (R156, R157): the handles of its copies, the operations still running, its access program. -/
structure ForkSet where
  hs : List Nat := []
  live : List Nat := []
  prog : Option ProgEnd := .none
  deriving DecidableEq, Repr

structure Team where
  ctx : Nat := 0
  grid : Nat := 0
  num : Nat := 0
  st : TeamState := .ended
  core : Nat := 0
  pair : Bool := false
  order : Nat := 0
  woke : Nat := 0
  /-- by handle number; default none: not bound -/
  handles : Tab (Option Handle) := []
  /-- by team-local queue number; the entries of the queue -/
  queues : Tab (List QEnt) := []
  /-- which team-local queue numbers a capability entry of the team names -/
  qnames : List Nat := []
  /-- remaining send allowance by channel (R266) -/
  allow : Tab Nat := []
  /-- by set number -/
  sets : Tab (Option ForkSet) := []
  prog : Option AProg := .none
  stash : Tab Byte := []
  /-- by stash offset / 8; default false: the word is sound -/
  sbad : Tab Bool := []
  /-- by mailbox number (R265) -/
  boxes : Tab (List Msg) := []
  /-- the team was stopped by the end of its grid -/
  killed : Bool := false
  deriving DecidableEq, Repr

/-! ## Launches (R261 to R271) -/

/-- Progress classes. -/
inductive Cls | concurrent | parallel | weak
  deriving DecidableEq, Repr

/-- The fields of a launch record (R261). -/
structure LRec where
  entry : Word := 0
  teams : Nat := 0
  groups : Nat := 0
  w : Nat := 16
  pair : Bool := false
  cls : Cls := .parallel
  bounded : Bool := false
  eopen : BitVec 4 := 0
  nv : Nat := 0
  ns : Nat := 0
  stash : Nat := 0
  dbase : Word := 0
  arg : Word := 0
  /-- by slot; default 0: kind d, scale 0 -/
  fslots : Tab Word := []
  capbase : Nat := 0
  shpbase : Nat := 0
  shpcount : Nat := 0
  dep : Nat := 0
  eds : Tab Nat := []
  partset : Nat := 0
  hlist : Nat := 0
  deriving DecidableEq, Repr

/-- Endpoint kinds of R264. -/
inductive CapKind | queue | comp | core | ualink | halo | coll | gloss
  deriving DecidableEq, Repr

/-- A valid capability entry (R264). -/
structure Cap where
  kind : CapKind
  operand : Word
  allow : Nat
  s : Bool
  v : Bool
  x : Bool
  deriving DecidableEq, Repr

/-- A token of a grid's child launches (R162): the child's grid, once it is admitted, and its status, once it has ended. -/
structure Tok where
  tok : Nat
  status : Option Nat := .none
  deriving DecidableEq, Repr

structure Grid where
  ctx : Nat := 0
  lr : LRec := {}
  /-- by channel; default none: entry invalid -/
  caps : Tab (Option Cap) := []
  /-- slot·16 + code (R56) -/
  cbook : Tab (BitVec 16) := []
  /-- the handle list (R267): handle, offset, size -/
  hlist : List (Nat × Nat × Nat) := []
  /-- core·65536 + shape number, once the core has read it (R269) -/
  shapes : Tab (Option (Option Shape)) := []
  toks : List Tok := []
  nextTok : Nat := 1
  /-- status, once the grid has ended (R363) -/
  status : Option Nat := .none
  /-- the status that is still to be reported, while what the grid has sent is not yet performed (R163, R320, R359) -/
  report : Option Nat := .none
  /-- host token, 0 for a device-side launch -/
  hostTok : Nat := 0
  /-- launching grid and its token, for a device-side launch -/
  parent : Option (Nat × Nat) := .none
  /-- gloss trigger that appended it -/
  trig : Option Nat := .none
  prio : Nat := 0
  order : Nat := 0
  /-- barrier context held (R376) -/
  barCtx : Option Nat := .none
  /-- by core: the core's quarter-cycle count when the launch's first team started there, plus 1 -/
  start : Tab Nat := []
  /-- physical memory at admission: the code that the launch fetches (R210) -/
  code0 : Tab Byte := []
  deriving DecidableEq, Repr

/-- An entry of a launch queue (R270). -/
structure QItem where
  lr : LRec
  tok : Nat
  dep : Nat
  trig : Option Nat := .none
  parent : Option (Nat × Nat) := .none
  /-- a host launch whose record failed a check when it was copied (R262) -/
  bad : Bool := false
  /-- the record of a host launch that is not read yet, because its page is absent (R289) -/
  va : Option Nat := .none
  deriving DecidableEq, Repr

/-! ## Pages and memory (R120, R228, R285) -/

inductive PKind | rc | so | uo
  deriving DecidableEq, Repr

/-- A leaf as the walker reads it (R285), for the 64 KiB page that holds the address: `pa` is that page's physical base. -/
structure Leaf where
  pa : Nat
  r : Bool
  w : Bool
  x : Bool
  user : Bool
  kind : PKind
  region : Nat
  edition : Nat
  key : Nat
  enc : Bool
  place : Nat
  /-- physical address of the leaf entry itself -/
  at_ : Nat
  size : Nat
  deriving DecidableEq, Repr

/-- A translation that a core caches (R288); one that an engine, a table read or a claim made stands under `agentCore`. -/
structure XEnt where
  core : Nat
  asid : Nat
  page : Nat
  leaf : Leaf
  deriving DecidableEq, Repr

/-- A line of an L1 (or an entry of a combining buffer): core, the context whose access brought it (R281), line number PA/128, its bytes,
which of them are dirty (R230). -/
structure Line where
  core : Nat
  ctx : Nat
  line : Nat
  data : List Byte
  dirty : BitVec 128 := 0
  uo : Bool := false
  /-- releases that are not yet performed cover its dirty bytes (R234, R236, R243): bit 0, before the core's next store or atomic acts;
  bit 1, before any access of the other core of its pair; bit 2, before any access of another core of its die -/
  due : BitVec 3 := 0
  /-- its 8-byte words, 16 in all, that go home with uncorrectable check bits (R364) -/
  bad : BitVec 16 := 0
  deriving DecidableEq, Repr

/-- A piece of an access: physical address (or stash offset), length, its ordering kind. Addresses from 2^52 stand for the gloss
aperture and the status page (R329, R330), which their own unit serves. -/
structure Part where
  pa : Nat
  len : Nat
  kind : PKind
  deriving DecidableEq, Repr

/-- Directory states of R312. -/
inductive Moesi | i | s | e | o | m
  deriving DecidableEq, Repr

structure DirEnt where
  st : Moesi := .i
  pres : BitVec 4 := 0
  owner : Nat := 0
  deriving DecidableEq, Repr

/-! ## Operations in flight -/

/-- A record operation on its way to a compositing accumulator (R197): `copen` with its destination, the id that it has reserved, the
record's offset, its handle and mode; `cadd` with its predicate, record id, mode, key, four FP32 words and vector; the others with a
record id. -/
inductive RecOp
  | copen (d : BitVec 6) (rid off h : Nat) (lse : Bool)
  | cadd (p : BitVec 3) (rid : Nat) (lse : Bool) (key f0 f1 f2 f3 : BitVec 32) (vec : List (BitVec 32))
  | cflush (rid : Nat)
  | cclose (rid : Nat)
  | cread (d : BitVec 6) (rid : Nat) (k : Nat)
  deriving DecidableEq, Repr

/-- A copy: its template, the shape and handle it named, direction, transposition, next image byte, the fork set it belongs to. -/
structure Copy where
  team : Nat
  tmpl : Nat
  rows : Word
  chan : Nat
  shape : Shape
  h : Nat
  drain : Bool
  xp : Bool
  xw : Nat
  pos : Nat := 0
  err : Bool := false
  set : Option Nat := .none
  wait : Wait := .none
  /-- the piece that it has asked of a peer -/
  sent : Option Part := .none
  deriving DecidableEq, Repr

/-- Where a message goes (R159). -/
inductive Dest
  | queue (q : Nat)
  | box (team m : Nat)
  | peer (port id vdev m : Nat)
  | halo (e : Nat)
  | coll (e : Nat)
  | gloss (e : Nat)
  deriving DecidableEq, Repr

/-- What is in flight. Comments name the step that ends each. -/
inductive OpK
  /-- LOAD_COMPLETION: destination, checked predicate, pieces, virtual address -/
  | load (uni stash : Bool) (d : BitVec 6) (p : Option (BitVec 3)) (parts : List Part) (va : Word)
  /-- ATOMIC_PERFORM -/
  | atomic (d : BitVec 6) (minor : Nat) (m : AtomMod) (part : Part) (va x y : Word)
  /-- EDITION_LOOKUP: an edition-named access whose thread waits for the choice of the copy; what its destinations held at issue -/
  | edl (uni : Bool) (d : BitVec 6) (chk : Option (BitVec 3)) (use : Uses) (va : Word) (bytes : Nat)
      (e : Option Nat) (npc : Word) (old : Cell) (oldP : PCell)
  /-- BINDERY_WRITE: a store or an atomic whose thread waits for the page's agent; what an atomic's destination held at issue -/
  | bwr (uni : Bool) (use : Uses) (va : Word) (data : List Byte) (npc : Word)
      (atom : Option (BitVec 6 × Nat × AtomMod × Word × Word × Cell))
  /-- QUEUE_RECEIVE_COMPLETION -/
  | qrecv (d : BitVec 6) (q n b : Nat) (tids : List Nat)
  /-- CHANNEL_RECEIVE_COMPLETION: channel, stash offset and capacity (none: a value) -/
  | crecv (d : BitVec 6) (n : Nat) (blk : Option (Nat × Nat))
  /-- MESSAGE_DELIVERY: a uniform send that waits for its endpoint -/
  | msg (dest : Dest) (m : Msg) (npc : Word) (use : Uses)
  /-- MESSAGE_DELIVERY: a lane send that waits for free entries; its threads and what each uses -/
  | qsend (q : Nat) (ents : List (List Byte)) (n : Nat) (npc : Word) (tids : List Nat) (use : Uses)
  /-- LAUNCH_RECORD_READ: destinations, the record's physical and virtual address, the token it depends on, the priority -/
  | lrec (q : BitVec 3) (d : BitVec 6) (pa : Nat) (va : Word) (dep : Word) (pri : Nat)
  /-- BPUB_AT_BINDERY; what the destination held at issue -/
  | bpub (d : BitVec 6) (va : Word) (region : Nat) (npc : Word) (use : Uses) (old : Cell)
  /-- BFLOOR_AT_HOME -/
  | bfloor (d : BitVec 6) (region f : Nat)
  /-- CLAIM_PAGE_MOVE: destination, next page, pages left, pages moved, the pool it waits for -/
  | claim (d : BitVec 6) (page left moved : Nat) (w : Wait)
  /-- COPY_BEAT, COPY_END -/
  | copy (c : Copy)
  /-- FORK_START: program, argument, copies that passed their checks -/
  | fork (d : BitVec 6) (prog arg : Word) (cs : List Copy) (npc : Word) (use : Uses)
  /-- ACCESS_PROGRAM_RETURN: team, queue (8: the program's own words), entry, pieces, virtual address and space -/
  | aline (team q ent : Nat) (parts : List Part) (va : Word) (sp : Space)
  /-- MATRIX_COMPLETION: type, format slots, the gang -/
  | matrix (ty : Nat) (fa fb : BitVec 3) (gs : List MrGroup)
  /-- MMAS_K_STEP: type, window, first, next and end K-step, the gang, the fork sets it joined -/
  | mmas (ty p k0 k kend : Nat) (gs : List MmGroup) (sets : List (Nat × Nat))
  /-- RECORD_OPERATION_ARRIVAL: target team, channel used (none: local), whether it is held there, the operation -/
  | rop (team : Nat) (chan : Option Nat) (held : Bool) (o : RecOp)
  /-- CREPLAY_COMPLETION: destination, log count -/
  | creplay (d : BitVec 6) (count : Nat)
  /-- PEER_ACKNOWLEDGEMENT: a remote store -/
  | rstore (part : Part) (data : List Byte)
  /-- PEER_ACKNOWLEDGEMENT: a remote load, with its checked predicate, or a remote atomic; the bytes of the piece that an edition's
  agent has served, if one lies beside the peer's: before it or not, and whether they carry a mark -/
  | rload (uni : Bool) (d : BitVec 6) (p : Option (BitVec 3)) (parts : List Part) (va : Word)
      (atom : Option (Nat × AtomMod × Word × Word)) (served : Option (Bool × List Byte × Bool))
  /-- PEER_ACKNOWLEDGEMENT: a face on its way to a peer's halo engine: port, peer -/
  | face (port peer : Nat)
  /-- DRAIN_WORD_READ: destination, checked predicate, die, tenant, the pairs to wait for (numbers below `upto`) -/
  | drain (uni : Bool) (d : BitVec 6) (p : Option (BitVec 3)) (die tenant upto : Nat)
  deriving DecidableEq, Repr

/-- An operation in flight: its number, the group and thread that issued it (0xFFFF: the group), the issue it came from, the
address of its instruction, the route generation under which its requests left (R317), the port through which its request to a peer
left (R349), the core whose trackers it holds (R214). -/
structure Op where
  id : Nat
  gk : Nat
  tid : Nat
  iss : Nat
  ia : Word
  k : OpK
  gen : Nat := 0
  port : Option Nat := .none
  core : Nat := 0
  /-- issued in system mode -/
  sys : Bool := false
  deriving DecidableEq, Repr

/-! ## Accumulator slots and records (R179, R192) -/

/-- A held slot: its tag, its team, how many matrix instructions still write it, its 384 FP64 elements (default +0). -/
structure Slot where
  tag : BitVec 16
  team : Nat
  /-- 1 on the second core of a pair -/
  half : Nat := 0
  busy : Nat := 0
  d : Tab Word := []
  deriving DecidableEq, Repr

/-- A buffered term (R197): key, the other four FP32 words of its registers, the term-area slot that holds its vector. -/
structure Term where
  key : BitVec 32
  f0 : BitVec 32
  f1 : BitVec 32
  f2 : BitVec 32
  f3 : BitVec 32
  slot : Nat := 0
  deriving DecidableEq, Repr

/-- An open record (R192, R193): its team, offset and handle, its working copy as 16 words, its insertion buffer by key. -/
structure Rec where
  team : Nat
  /-- 1 on the second core of a pair -/
  half : Nat := 0
  off : Nat
  h : Nat
  w : Tab (BitVec 32) := []
  buf : List Term := []
  /-- the term area's bytes at `copen` -/
  area : List Byte := []
  deriving DecidableEq, Repr

/-! ## Memory system -/

structure Mem where
  /-- physical memory: HBM below 768 GiB, the host window, the peer windows; default 0 -/
  mem : Tab Byte := []
  /-- by PA / 8: the word carries an uncorrectable mark -/
  bad : Tab Bool := []
  /-- by PA / 32: HBM's protected word itself is uncorrectable (R364) -/
  badH : Tab Bool := []
  l1 : List Line := []
  comb : List Line := []
  ops : List Op := []
  /-- receives that an eviction has withdrawn, issued again on resume (R223) -/
  withdrawn : List Op := []
  nextId : Nat := 1
  xlat : List XEnt := []
  dir : Tab DirEnt := []
  /-- the host's translation of `.h` pages: vdev·2^41 + page; none: refused -/
  hostMap : Tab (Option Nat) := []
  /-- grid·2^40 + PA / 65536: the launch has stored to the page (R210) -/
  stored : Tab Bool := []
  /-- by PA / 65536: the key material under which the page's bytes are written above as plaintext (R303, R396); none: as stored -/
  wrapped : Tab (Option (BitVec 512)) := []
  deriving DecidableEq, Repr

/-! ## Quarters (R207 to R215) -/

/-- A bundle: group and threads; `lone`: a thread alone at its address, which needs its fetch lane to issue (R208, R211). Of a chosen
bundle, the last issue of each thread before its choice (R213). -/
structure Sel where
  gk : Nat := 0
  tids : List Nat := []
  lone : Bool := false
  ages : List (Nat × Nat) := []
  deriving DecidableEq, Repr

/-- A fetch lane: its thread and its loop buffer (base address and words) (R209, R210). -/
structure Lane where
  tk : Nat
  base : Word
  words : List (BitVec 32)
  deriving DecidableEq, Repr

/-- Per quarter (core·4 + q) unless a comment says otherwise. -/
structure Sched where
  cyc : Tab Nat := []
  /-- (core·4 + q)·64 + vdev -/
  dc : Tab Int := []
  /-- the member of Z served last, plus 1 -/
  zlast : Tab Nat := []
  bundles : Tab (List Sel) := []
  lanes : Tab (List Lane) := []
  laneq : Tab (List Nat) := []
  /-- operand cache: register names (`cacheKey`), oldest first, at most 8 (R42) -/
  opc : Tab (List Nat) := []
  /-- where the default schedule goes on -/
  turn : Nat := 0
  issues : Nat := 0
  deriving DecidableEq, Repr

/-! ## Tenancy (R273 to R282) -/

/-- A virtual device's applied block (R273). -/
structure VBlock where
  weight : Nat := 0
  bounded : Bool := false
  hard : Bool := false
  render : Bool := false
  l2share : Nat := 0
  quantum : Nat := 0
  tmplbase : Nat := 0
  tmplcount : Nat := 0
  l1share : Nat := 0
  handler : Word := 0
  savebase : Nat := 0
  savesize : Nat := 0
  reqmask : Word := 0
  /-- per die: mask of L2 slices -/
  slices : List (BitVec 48) := []
  cores : BitVec 960 := 0
  deriving DecidableEq, Repr

/-- A render context's applied block (R279). -/
structure RBlock where
  owner : Nat
  savebase : Nat
  savesize : Nat
  cores : List Nat
  deriving DecidableEq, Repr

structure Tenancy where
  /-- by virtual device; default none: never applied -/
  vb : Tab (Option VBlock) := []
  rb : Tab (Option RBlock) := []
  /-- ctx·4 + priority -/
  hostq : Tab (List QItem) := []
  devq : Tab (List QItem) := []
  /-- by virtual device: last host token given -/
  hostTok : Tab Nat := []
  /-- ended host launches: virtual device, token -/
  hostEnded : List (Nat × Nat) := []
  /-- virtual devices waiting for their slice, oldest first (R277) -/
  waiting : List Nat := []
  /-- the render context whose slice runs, by virtual device (default: its first) -/
  rcur : Tab Nat := []
  orders : Nat := 0
  /-- shared counters by resource (R282): count, latest latch, the latch before it -/
  cnt : Tab Nat := []
  latch1 : Tab Nat := []
  latch2 : Tab Nat := []
  deriving DecidableEq, Repr

/-! ## Faults in translation, the Bindery -/

/-- A pending fault record (R289): virtual device, its seq once posted, what it is about. -/
structure FRec where
  vdev : Nat
  seq : Option Nat
  asid : Nat
  page : Nat
  cause : Nat
  access : BitVec 8
  region : Nat := 0
  pool : Nat := 0
  deriving DecidableEq, Repr

/-- A mapping of a region as the Bindery last read it (R293). -/
structure Mapping where
  va : Nat
  asid : Nat
  deriving DecidableEq, Repr

/-- The pool fields of a sub-pool as the Bindery last read them, and as its own pops and pushes have left them (R292, R293). -/
structure PoolRegs where
  stack : Nat := 0
  count : Nat := 0
  cap : Nat := 0
  deriving DecidableEq, Repr

structure Bindery where
  /-- by region: the valid mappings as last read; none: the region is not created -/
  maps : Tab (Option (List Mapping)) := []
  /-- by region·8 + sub-pool -/
  pools : Tab PoolRegs := []
  /-- pending fault records -/
  frecs : List FRec := []
  /-- by virtual device: next seq -/
  fseq : Tab Nat := []
  /-- by region * 2^20 + page: page address and edition of the current copy, as the Bindery last set them (R298, R304) -/
  current : Tab (Nat × Nat) := []
  deriving DecidableEq, Repr

/-! ## Module registers (R390) and windows (R391) -/

structure Regs where
  asBase : Word := 0
  regionBase : Word := 0
  regionApply : Word := 0
  regionStatus : Word := 0
  memSplit : Word := 24
  route : Word := 0xF02A
  invAddr : Word := 0
  invCtl : Word := 0
  vdevApply : Word := 0
  vdevStatus : Word := 0
  vdevBase : Word := 0
  flrCtl : Word := 0
  coreRetire : Word := 0
  ckptDest : Word := 0
  ckptCtl : Word := 0
  ckptStat : Word := 0
  mgmtCause : Word := 0
  ualinkId : Word := 0
  peerInBase : Word := 0
  powerLimit : Word := 3600
  powerStat : Word := 0
  keyCtl : Word := 0
  /-- eight words -/
  keyData : Tab Word := []
  rctxBase : Word := 0
  rctxApply : Word := 0
  rctxStatus : Word := 0
  /-- per die -/
  eccLog : Tab Word := []
  /-- per die; default 16 (spares left) -/
  marginLog : Tab Word := []
  glossApply : Tab Word := []
  glossStatus : Tab Word := []
  /-- per die; default all ones (every slot idle) -/
  slots0 : Tab Word := []
  slots1 : Tab Word := []
  glossTab : Tab Word := []
  collBase : Tab Word := []
  /-- per link: 0 to 3 die to die, 4 to 19 UALink ports -/
  linkErr : Tab Word := []
  peerErr : Tab Nat := []
  deriving DecidableEq, Repr

/-- A completion that waits for ring room (R392). -/
structure CEnt where
  tok : Nat
  status : Nat
  trig : Option Nat
  deriving DecidableEq, Repr

/-- Per context (virtual device v, or 64 + r), queue registers at ctx·4 + j. -/
structure VfRegs where
  hqBase : Tab Word := []
  hqTail : Tab Word := []
  hqHead : Tab Word := []
  cqBase : Tab Word := []
  cqTail : Tab Word := []
  cqHead : Tab Word := []
  fqHead : Tab Word := []
  fqTail : Tab Word := []
  fqDone : Tab Word := []
  held : Tab (List CEnt) := []
  deriving DecidableEq, Repr

/-! ## Gloss units (R324) -/

/-- An attachment as the unit has read it (R326); `valid` false once detached. -/
structure Att where
  valid : Bool
  len : Nat
  cls : Nat
  owner : Nat
  asid : BitVec 12
  mask : BitVec 12
  param : BitVec 32
  deriving DecidableEq, Repr

/-- A trigger as the unit has read it (R341). -/
structure Trig where
  kind : Nat
  once : Bool
  sel : Nat
  team : Nat
  target : Nat
  deriving DecidableEq, Repr

structure Ten where
  budget : Nat
  wbase : Nat
  wlog : Nat
  quota : Nat
  trigs : List Trig
  deriving DecidableEq, Repr

/-- A queued pair (R331): its number, the event, its attachment. -/
structure Pair where
  n : Nat
  e : GlossEvent
  k : Nat
  deriving DecidableEq, Repr

/-- A run in progress. -/
structure GRun where
  k : Nat
  pc : Nat
  deriving DecidableEq, Repr

structure GUnit where
  /-- g1 to g15 -/
  g : Tab (BitVec 32) := []
  mem : Tab (BitVec 32) := []
  /-- attachment·64 + word -/
  code : Tab (BitVec 32) := []
  att : Tab (Option Att) := []
  ten : Tab (Option Ten) := []
  q : List Pair := []
  nextPair : Nat := 0
  runs : Tab Nat := []
  fifo : Tab Nat := []
  budg : Tab Nat := []
  fire : Tab Nat := []
  left : Tab Nat := []
  susp : Tab Bool := []
  /-- total runs by tenant -/
  total : Tab Nat := []
  slot : Nat := 0
  run : Option GRun := .none
  /-- tenant·16 + trigger -/
  fired : Tab (BitVec 32) := []
  trigTok : Tab Nat := []
  disarmed : Tab Bool := []
  /-- GLOSS_DRAIN: the pairs it waits for (numbers below), none when not busy -/
  drain : Option Nat := .none
  deriving DecidableEq, Repr

/-! ## Links and packages (R346 to R357, R373, R374) -/

/-- A command of a halo or all-reduce engine (R354, R356): its team and group, its 128 bytes; its progress: bytes read of the source,
the face in flight, the result it writes (status, bytes, marked bytes), bytes written, what it waits for; its completion, once it has one (R353). -/
structure Cmd where
  team : Nat
  gk : Nat
  data : List Byte
  /-- its words that carry a mark (R160) -/
  bad : List Nat := []
  rd : Option Nat := .none
  /-- bytes of the source passed over when a page is awaited -/
  seen : Nat := 0
  face : Option Nat := .none
  stat : Nat := 0
  res : Option (Nat × List Byte × List Nat) := .none
  wrote : Nat := 0
  wait : Wait := .none
  done : Option (Nat × Nat × Nat) := .none
  deriving DecidableEq, Repr

/-- A completion that waits for its receive (R352, R353). -/
structure Compl where
  team : Nat
  status : Nat
  token : Word
  rd : Nat
  wr : Nat
  deriving DecidableEq, Repr

/-- A message that stands in an inbound mailbox (R351): its sender, its slot in memory, its bytes' number. -/
structure InMsg where
  peer : Nat
  slot : Nat
  len : Nat
  deriving DecidableEq, Repr

structure Pkg where
  /-- by port: true once trained and not gone down -/
  portUp : Tab Bool := []
  /-- vdev·64 + mailbox: the messages in order of arrival; their bytes are in the save area (R280, R351) -/
  inbox : Tab (List InMsg) := []
  /-- messages this module has sent: port, peer, vdev, mailbox, bytes with their marks -/
  outbox : List (Nat × Nat × Nat × Nat × Msg) := []
  /-- faces a halo engine has streamed out: die, peer, instance, tag, bytes -/
  faceOut : List (Nat × Face) := []
  halo : Tab (List Cmd) := []
  coll : Tab (List Cmd) := []
  faces : Tab (List Face) := []
  hdone : Tab (List Compl) := []
  cdone : Tab (List Compl) := []
  /-- answers to inbound peer reads and atomics: peer, bytes (none: refused) -/
  replies : List (Nat × Option (List Byte)) := []
  /-- link directions 2·l + dir: credits received R, credits returned Y, credits available; the audit flits under way, oldest first: the Y
  that each carries, and how many of the credits returned before it, and after the audit before it, arrive -/
  credR : Tab Nat := []
  credY : Tab Nat := []
  avail : Tab Nat := []
  audits : Tab (List (Nat × Nat)) := []
  /-- spare lane groups used, by link direction; replays without success of the flit at the head, by link direction -/
  spares : Tab Nat := []
  retries : Tab Nat := []
  deriving DecidableEq, Repr

/-! ## Repairs, barriers (R364 to R385) -/

structure Repair where
  /-- die·240 + local: the spare that carries it (none: the physical core of the same number) -/
  phys : Tab (Option Nat) := []
  dead : Tab Bool := []
  /-- barrier contexts: (context·960 + core) -/
  arr : Tab Bool := []
  /-- default true: excused -/
  mask : Tab Bool := []
  part : Tab Bool := []
  /-- by barrier context -/
  gen : Tab Bool := []
  holder : Tab (Option Nat) := []
  /-- cores whose mask bit a move forced (context·960 + core) until the flip (R379) -/
  forced : Tab Bool := []
  /-- voltage raise in mV by unit: die·4096 + physical core number, or die·4096 + 1024 + direction·64 + lane group -/
  volt : Tab Nat := []
  /-- retirements that wait for the current move (R368) -/
  moves : List Nat := []
  deriving DecidableEq, Repr

/-! ## Host side, security, power (R389 to R402) -/

/-- What the save areas of a checkpoint image hold of the switched-out teams (R381). -/
structure Snap where
  vreg : Tab Cell
  sreg : Tab Cell
  pred : Tab PCell
  qpred : Tab PCell
  thr : Tab Thr
  grp : Tab Grp
  team : Tab Team
  slot : Tab (Option Slot)
  recs : Tab (Option Rec)
  /-- what the teams have in flight, and the receives withdrawn from them -/
  ops : List Op
  withdrawn : List Op
  deriving DecidableEq, Repr

structure HostSide where
  /-- bring-up step under way (R394), 0 before the boot ROM's check; and the actions of it that are done: dies whose plan has run, 4:
  MEM_SPLIT, 5: ROUTE; in step 4 the ports that have trained, 16: UALINK_ID -/
  boot : Nat := 0
  did : List Nat := []
  recovery : Bool := false
  /-- firmware images A (0) and B (1); none: the place holds none -/
  images : Tab (Option FwImage) := []
  active : Nat := 0
  /-- the place that the running image was started from, and the image as it was started; none runs in recovery (R394, R397) -/
  running : Nat := 0
  image : Option FwImage := .none
  /-- the image that becomes active at the next reset (R398) -/
  pend : Option Nat := .none
  /-- checkpoint images by the address of their tier -/
  snaps : Tab (Option Snap) := []
  fuses : Nat := 0
  /-- key material by index; default none: no key -/
  keys : Tab (Option (BitVec 512)) := []
  /-- interrupts raised: function (64: the physical function), vector -/
  irq : List (Nat × Nat) := []
  /-- cycles withheld per 64, per die -/
  wh : Tab Nat := []
  temp : Tab Nat := []
  spdmOut : List (Nat × BitVec 384) := []
  pldmOut : List (Nat × Word) := []
  /-- each change of MGMT_CAUSE sent as a side-band event -/
  sideEvents : List Word := []
  mainOff : Bool := false
  stopped : Bool := false
  /-- the die whose temperature stopped the module, reported by the side-band port -/
  stopCause : Option Nat := .none
  /-- data returned to the host's reads of module memory and of registers -/
  hostReads : List (List Byte) := []
  /-- the function-level reset was started during a checkpoint, whose end it awaits (R402) -/
  flrWaits : Bool := false
  deriving DecidableEq, Repr

/-- The instruction being issued (`step` fills it): group, threads, address (of the prefix, if any), next address, guard
(predicate, neg), first word, its threads' last issues before it. The MODEL's own field. -/
structure Cur where
  gk : Nat := 0
  tids : List Nat := []
  pc : Word := 0
  npc : Word := 0
  guard : Option (BitVec 3 × Bool) := .none
  word : BitVec 32 := 0
  ages : List (Nat × Nat) := []
  deriving DecidableEq, Repr

/-- One Voxras GS4 module. Keys: grid g; team T = g·2^24 + number; group G = T·128 + gid; thread tk = G·64 + tid. -/
structure State where
  /-- v registers, tk·64 + r -/
  vreg : Tab Cell
  /-- s registers, G·64 + r -/
  sreg : Tab Cell
  /-- p predicates, tk·8 + p -/
  pred : Tab PCell
  /-- q predicates, G·8 + q -/
  qpred : Tab PCell
  thr : Tab Thr
  grp : Tab Grp
  team : Tab Team
  grid : Tab Grid
  /-- accumulator slots, T·128 + 64·half + slot; default none: free -/
  slot : Tab (Option Slot)
  /-- last tag given to a slot number, (ctx·1024 + core)·64 + number -/
  tag : Tab Nat
  /-- by ctx·1024 + core: the slot number allocated last, and how often in a row (R179) -/
  tagRun : Tab (Nat × Nat)
  /-- open records, T·1024 + 512·half + id -/
  recs : Tab (Option Rec)
  mm : Mem
  sc : Sched
  vs : Tenancy
  bd : Bindery
  rg : Regs
  vf : VfRegs
  /-- by die -/
  gl : Tab GUnit
  pk : Pkg
  rp : Repair
  hs : HostSide
  /-- the MODEL's own: the bundle an issue cycle chose and has not issued yet -/
  sel : Sel
  cur : Cur
  /-- the MODEL's own: the Gloss unit whose run is being executed -/
  gsel : Option Nat
  /-- the MODEL's own: the steps that come next, in order; free: every schedule the manual allows is some agenda -/
  agenda : List Instr
  /-- the MODEL's own: how many free values have been taken -/
  fresh : Nat
  deriving DecidableEq, Repr

/-- The module right after reset: no launch, no virtual device, no translation, memory with nothing listed, every register at
the value R62, R64, R170, R173, R274, R290, R291, R306, R316, R328, R332, R349, R365 to R377, R380, R396, R399 give, and at zero
where none is given (log entry 2). DESIGN CHOICE: log entry 2. -/
def State.reset : State where
  vreg := []
  sreg := []
  pred := []
  qpred := []
  thr := []
  grp := []
  team := []
  grid := []
  slot := []
  tag := []
  tagRun := []
  recs := []
  mm := {}
  sc := {}
  vs := {}
  bd := {}
  rg := {}
  vf := {}
  gl := []
  pk := {}
  rp := {}
  hs := {}
  sel := {}
  cur := {}
  gsel := .none
  agenda := []
  fresh := 0

end Sys2Proof.Machine
end

