-- ==== Sys2Proof/Machine/Table.lean ====
section
/-! DEFINITION. The operations of the sparse tables that hold every part of the state. A table lists (key, value) pairs, keys
strictly rising, and no value equal to what an unlisted key reads as. -/

namespace Sys2Proof.Machine

/-- What key `k` reads as; `dflt` for an unlisted key. -/
def tget {α : Type} (dflt : α) (k : Nat) : Tab α → α
  | [] => dflt
  | p :: t => if p.1 = k then p.2 else tget dflt k t

/-- The table without key `k`. -/
def terase {α : Type} (k : Nat) (t : Tab α) : Tab α := t.filter fun p => p.1 != k

/-- The table with `v` listed at key `k`, in its place. -/
def tput {α : Type} (k : Nat) (v : α) : Tab α → Tab α
  | [] => [(k, v)]
  | p :: t => if k < p.1 then (k, v) :: p :: t else if p.1 = k then (k, v) :: t else p :: tput k v t

/-- Key `k` reads `v` from now on; writing the default removes the entry. -/
def tset {α : Type} [DecidableEq α] (dflt : α) (k : Nat) (v : α) (t : Tab α) : Tab α :=
  if v = dflt then terase k t else tput k v t

/-- The canonical form of a table. -/
abbrev TabWf {α : Type} (dflt : α) (t : Tab α) : Prop :=
  t.Pairwise (fun p q => p.1 < q.1) ∧ ∀ p ∈ t, p.2 ≠ dflt

/-- The canonical form of the physical memory. DESIGN CHOICE: log entry 6. -/
abbrev Memory.wf (m : Tab Byte) : Prop := TabWf (0 : Byte) m

/-- The table without the keys that `drop` names. -/
def tdrop {α : Type} (drop : Nat → Bool) (t : Tab α) : Tab α := t.filter fun p => !drop p.1

/-- The table with each listed value changed; an entry that becomes the default goes. -/
def tmap {α : Type} [DecidableEq α] (dflt : α) (f : Nat → α → α) (t : Tab α) : Tab α :=
  (t.map fun p => (p.1, f p.1 p.2)).filter fun p => p.2 != dflt

/-- Keys listed. -/
def tkeys {α : Type} (t : Tab α) : List Nat := t.map Prod.fst

end Sys2Proof.Machine
end

