-- ==== Sys2Proof/Machine/Records.lean ====
section
/-! DEFINITION. The keys of the tables, the records of threads, groups, teams and grids, and where a physical address is at home. -/

namespace Sys2Proof.Machine

/-! ## Keys -/

def teamKey (g num : Nat) : Nat := g * 2 ^ 24 + num
def groupKey (t gid : Nat) : Nat := t * 128 + gid
def threadKey (gk tid : Nat) : Nat := gk * 64 + tid
def gidOf (gk : Nat) : Nat := gk % 128
def teamOfG (gk : Nat) : Nat := gk / 128
def gridOfT (t : Nat) : Nat := t / 2 ^ 24
def gridOfG (gk : Nat) : Nat := gridOfT (teamOfG gk)

/-! ## Records of the state -/

def getThr (s : State) (tk : Nat) : Thr := tget {} tk s.thr
def setThr (tk : Nat) (t : Thr) (s : State) : State := { s with thr := tset {} tk t s.thr }
def getGrp (s : State) (gk : Nat) : Grp := tget {} gk s.grp
def setGrp (gk : Nat) (x : Grp) (s : State) : State := { s with grp := tset {} gk x s.grp }
def getTeam (s : State) (t : Nat) : Team := tget {} t s.team
def setTeam (t : Nat) (x : Team) (s : State) : State := { s with team := tset {} t x s.team }
def getGrid (s : State) (g : Nat) : Grid := tget {} g s.grid
def setGrid (g : Nat) (x : Grid) (s : State) : State := { s with grid := tset {} g x s.grid }

/-- The launch record of a group's grid (R261). -/
def recOf (s : State) (gk : Nat) : LRec := (getGrid s (gridOfG gk)).lr
/-- The context of a group: virtual device v as v, render context r as 64 + r (its ASID, R284). -/
def ctxOf (s : State) (gk : Nat) : Nat := (getGrid s (gridOfG gk)).ctx
/-- The virtual device of a context (R279). -/
def vdevOf (s : State) (ctx : Nat) : Nat :=
  if ctx < 64 then ctx else match tget .none (ctx - 64) s.vs.rb with | .some b => b.owner | .none => 0
/-- The configuration block of a context's virtual device (R273). -/
def blockOf (s : State) (ctx : Nat) : VBlock := (tget .none (vdevOf s ctx) s.vs.vb).getD {}
/-- The logical core of a group (R204). -/
def coreOf (s : State) (gk : Nat) : Nat :=
  let t := getTeam s (teamOfG gk)
  if t.pair && decide ((recOf s gk).groups ≤ 2 * gidOf gk) then t.core + 1 else t.core
/-- On which core of a pair a group resides (R204). -/
def halfOf (s : State) (gk : Nat) : Nat := if coreOf s gk = (getTeam s (teamOfG gk)).core then 0 else 1
def dieOf (core : Nat) : Nat := core / 240
/-- The cycles of a core (R90): those that its quarters have counted. DEDUCED: log entry 8. -/
def coreCycles (s : State) (core : Nat) : Nat := [0, 1, 2, 3].foldl (fun n q => max n (tget 0 (core * 4 + q) s.sc.cyc)) 0

def bitN (b : Bool) (i : Nat) : Nat := if b then 2 ^ i else 0

/-! ## Homes (R306, R308, R309) -/

def gib : Nat := 2 ^ 30
/-- The host window begins here (R389). -/
def hostBase : Nat := 768 * gib
/-- Bytes of each die's interleaved share (R306). -/
def isplitBytes (s : State) : Nat := bits s.rg.memSplit 5 0 * (4 * gib)
/-- The home die of a physical address of HBM (R306, R308). -/
def homeDie (s : State) (pa : Nat) : Nat :=
  let i := isplitBytes s
  if pa < 4 * i then pa / 2 ^ 12 % 4 ^^^ pa / 2 ^ 22 % 4 ^^^ pa / 2 ^ 32 % 4
  else (pa - 4 * i) / (192 * gib - i) % 4
/-- The L2 slice of a line within its home die (R309). -/
def sliceOf (pa : Nat) : Nat :=
  let f := pa / 2 ^ 16 % 4096 ^^^ pa / 2 ^ 28 % 4096 ^^^ pa / 2 ^ 40 % 4096
  4 * (f % 12) + (pa / 2 ^ 7 % 4 ^^^ pa / 2 ^ 9 % 4)
def widthOf (s : State) (gk : Nat) : Nat := (recOf s gk).w

end Sys2Proof.Machine
end

