-- ==== Sys2Proof/Machine/Memory.lean ====
section
/-! DEFINITION. Physical memory (R228) with its uncorrectable marks (R364). -/

namespace Sys2Proof.Machine

/-! ## Physical memory -/

/-- The bytes at a physical address. DESIGN CHOICE: log entry 6. -/
def pread (s : State) (pa n : Nat) : List Byte := (List.range n).map fun i => tget 0 (pa + i) s.mm.mem
def rdN (s : State) (pa n : Nat) : Nat := natOf (pread s pa n)

/-- A byte lies in a protected word with an uncorrectable mark: 8 bytes, or 32 where HBM itself failed (R364). DEDUCED: log entry 34. -/
def badAt (s : State) (a : Nat) : Bool := tget false (a / 8) s.mm.bad || tget false (a / 32) s.mm.badH
/-- Whether some byte of a range does. -/
def pbad (s : State) (pa n : Nat) : Bool := (List.range n).any fun i => badAt s (pa + i)

/-- Bytes written one by one, without regard to marks. -/
def putBytes (pa : Nat) : List Byte → Tab Byte → Tab Byte
  | [], m => m
  | b :: bs, m => putBytes (pa + 1) bs (tset 0 pa b m)

/-- The marks after `n` bytes have been written: a word that is written whole loses its mark (R364). DEDUCED: log entry 34. -/
def clearMarks (pa n : Nat) (m : Tab Bool) : Tab Bool := tdrop (fun w => decide (pa ≤ 8 * w ∧ 8 * w + 8 ≤ pa + n)) m
def clearHbm (pa n : Nat) (m : Tab Bool) : Tab Bool := tdrop (fun w => decide (pa ≤ 32 * w ∧ 32 * w + 32 ≤ pa + n)) m

/-- A write with fresh check bits. DESIGN CHOICE: log entry 6. -/
def pwrite (pa : Nat) (bs : List Byte) (s : State) : State :=
  { s with mm := { s.mm with
      mem := putBytes pa bs s.mm.mem, bad := clearMarks pa bs.length s.mm.bad, badH := clearHbm pa bs.length s.mm.badH } }
def pwriteN (pa n v : Nat) (s : State) : State := pwrite pa (bytesOf n v) s
/-- Every word of a range gets an uncorrectable mark. -/
def pmark (pa n : Nat) (s : State) : State :=
  { s with mm := { s.mm with bad :=
      (List.range ((pa + n + 7) / 8 - pa / 8)).foldl (fun b i => tset false (pa / 8 + i) true b) s.mm.bad } }

/-- A run of bytes that ends where the mask ends, from byte `i` of a line on: only masked bytes are written (R230). -/
def putMasked (pa : Nat) (mask : BitVec 128) : Nat → List Byte → Tab Byte → Tab Byte
  | _, [], m => m
  | i, b :: bs, m => putMasked pa mask (i + 1) bs (if mask.getLsbD i then tset 0 (pa + i) b m else m)

/-- Only the masked bytes of a line are written; words that are written whole lose their marks. -/
def pwriteMasked (pa : Nat) (mask : BitVec 128) (bs : List Byte) (s : State) : State :=
  { s with mm := { s.mm with
      mem := putMasked pa mask 0 bs s.mm.mem
      bad := tdrop (fun w => decide (pa ≤ 8 * w ∧ 8 * w < pa + 128) &&
        (List.range 8).all fun i => mask.getLsbD (8 * w - pa + i)) s.mm.bad
      badH := tdrop (fun w => decide (pa ≤ 32 * w ∧ 32 * w < pa + 128) &&
        (List.range 32).all fun i => mask.getLsbD (32 * w - pa + i)) s.mm.badH } }

/-! ## Fields of numbers -/

/-- Bits `hi` to `lo` of a number. -/
def nb (x hi lo : Nat) : Nat := x / 2 ^ lo % 2 ^ (hi + 1 - lo)

def isPeer (pa : Nat) : Bool := decide (2 ^ 51 ≤ pa ∧ pa < 2 ^ 52)
def isHost (pa : Nat) : Bool := decide (hostBase ≤ pa ∧ pa < 2 ^ 51)
def isDev (pa : Nat) : Bool := decide (2 ^ 52 ≤ pa)
def isHbm (pa : Nat) : Bool := decide (pa < hostBase)
/-- The accelerator of a peer window address (R348). -/
def peerOf (pa : Nat) : Nat := nb pa 50 41
/-- The offset in a peer's memory. -/
def peerOff (pa : Nat) : Nat := nb pa 40 0

/-- The PEER_IN entry of accelerator p (R349). -/
def peerIn (s : State) (p : Nat) : Nat := rdN s (s.rg.peerInBase.toNat + 16 * p) 16
def peerPorts (s : State) (p : Nat) : Nat := nb (peerIn s p) 115 100

/-- The ports of an accelerator's entry. -/
def portsOf (s : State) (p : Nat) : List Nat := (List.range 16).filter fun k => peerPorts s p / 2 ^ k % 2 = 1
/-- The port of an access: PA[20:7] mod the number of set bits picks among them (R349). -/
def portFor (s : State) (pa : Nat) : Nat :=
  let ps := portsOf s (peerOf pa)
  ps.getD (nb pa 20 7 % ps.length) 16

def portUp (s : State) (p : Nat) : Bool := tget false p s.pk.portUp

/-! ## Routes (R305, R316, R319) -/

/-- The links of a pair's two paths round the ring 0, 1, 3, 2: along the ring, and the other way. -/
def ringPos (d : Nat) : Nat := [0, 1, 3, 2].getD d 0
def ringLinks (a b : Nat) : List Nat := (List.range ((ringPos b + 4 - ringPos a) % 4)).map fun i => (ringPos a + i) % 4
/-- Link A, B, C, D joins ring positions 0–1, 1–2, 2–3, 3–0. -/
def linkUp (s : State) (l : Nat) : Bool := bitAt s.rg.route (12 + l)
/-- Whether some path joins two dies (R319). -/
def pathOk (s : State) (a b : Nat) : Bool :=
  a == b || (ringLinks a b).all (linkUp s) || (ringLinks b a).all (linkUp s)
/-- Whether a core's requests can reach the home of an address. -/
def reachable (s : State) (core pa : Nat) : Bool := !isHbm pa || pathOk s (dieOf core) (homeDie s pa)
/-- Whether they can reach the homes of all bytes of a piece, which may lie in two granules (R308, R319). -/
def partReach (s : State) (core : Nat) (p : Part) : Bool := reachable s core p.pa && reachable s core (p.pa + p.len - 1)
end Sys2Proof.Machine
end

