-- ==== Sys2Proof/Machine/Taps.lean ====
section
/-! DEFINITION. The taps of the Gloss units (R325) and what an offered event does to a unit (R326, R331, R333). -/

namespace Sys2Proof.Machine

def getUnit (s : State) (die : Nat) : GUnit := tget {} die s.gl
def setUnit (die : Nat) (u : GUnit) (s : State) : State := { s with gl := tset {} die u s.gl }

/-- Whether an event matches an attachment (R326); a `summary` occurs on no device's behalf, and any tenant may attach to it (R325). -/
def attMatches (e : GlossEvent) (a : Att) : Bool :=
  a.valid && decide (e.cls = a.cls) && decide (e.asid &&& a.mask = a.asid &&& a.mask) && (a.owner == 64 || e.cls == 10 || e.vdev == a.owner)

/-- How many pairs of a tenant are queued. -/
def queuedOf (u : GUnit) (o : Nat) : Nat :=
  (u.q.filter fun p => match tget .none p.k u.att with | .some a => a.owner == o | .none => false).length

/-- The virtual device in reset (R366). -/
def resetting (s : State) : Option Nat := if bitAt s.rg.flrCtl 63 then .some (bits s.rg.flrCtl 5 0) else .none

/-- One pair is formed for an attachment (R331): refused while the owner is suspended (R333), is being reset (R367), or its quota is full,
else queued. -/
def formPair (e : GlossEvent) (rst : Option Nat) (u : GUnit) (k : Nat) : GUnit :=
  match tget .none k u.att with
  | .none => u
  | .some a =>
    if !attMatches e a then u
    else
      let quota := match tget .none a.owner u.ten with | .some t => t.quota | .none => 0
      if tget false a.owner u.susp then { u with budg := tset 0 k (tget 0 k u.budg + 1) u.budg }
      else if rst = .some a.owner ∨ quota ≤ queuedOf u a.owner then { u with fifo := tset 0 k (tget 0 k u.fifo + 1) u.fifo }
      else { u with q := u.q ++ [⟨u.nextPair, e, k⟩], nextPair := u.nextPair + 1 }

/-- An event is offered to a die's unit (R331). -/
def offerEvent (die : Nat) (e : GlossEvent) (s : State) : State :=
  setUnit die ((List.range 64).foldl (formPair e (resetting s)) (getUnit s die)) s

/-- An event on behalf of a context (R325). -/
def tap (die cls a b src ctx : Nat) (s : State) : State :=
  offerEvent die ⟨cls, BitVec.ofNat 32 a, BitVec.ofNat 32 b, BitVec.ofNat 32 src, BitVec.ofNat 12 ctx, vdevOf s ctx⟩ s

/-- `linereq`: a core's L1 sends a request for a line to L2. -/
def tapLine (ctx core line : Nat) (wr engine : Bool) (s : State) : State :=
  let h := homeDie s (line * 128)
  tap (dieOf core) 1 line (bitN wr 0 + bitN (h != dieOf core) 1 + 4 * h + bitN engine 4) core ctx s
/-- `l2miss`: the slice of a line's home reads it from HBM. -/
def tapMiss (ctx line : Nat) (wr : Bool) (s : State) : State :=
  let die := homeDie s (line * 128)
  tap die 2 line (bitN wr 0) (48 * die + sliceOf (line * 128)) ctx s
/-- `dirop`: the directory starts a transaction. -/
def tapDir (ctx die line st pres : Nat) (s : State) : State :=
  tap (homeDie s (line * 128)) 3 line ((Config.dirCode st).toNat + 16 * pres) die ctx s
/-- `linkev`: replay 0, audit 1, down 2; at both ends of a die-to-die link; the audit of UALink port p counts as link 4 + p at the port's
die (R373). DESIGN CHOICE: log entry 45. -/
def tapLink (l kind : Nat) (s : State) : State :=
  if l < 4 then
    let a := [0, 1, 3, 2].getD l 0
    let b := [1, 3, 2, 0].getD l 0
    tap b 4 l kind b 0 (tap a 4 l kind a 0 s)
  else if kind = 1 then tap ((l - 4) / 4) 4 l kind ((l - 4) / 4) 0 s
  else s
/-- `bindery`: copy 0, reclaim 1, pool 2. -/
def tapBindery (pa page kind region ctx : Nat) (s : State) : State := tap (homeDie s pa) 5 page kind region ctx s
/-- `comp`: retire 0, late 1, discard 2, opaque 3. -/
def tapComp (core key kind ctx : Nat) (s : State) : State := tap (dieOf core) 6 key kind core ctx s
/-- `copy`. -/
def tapCopy (core index : Nat) (err drain : Bool) (ctx : Nat) (s : State) : State :=
  tap (dieOf core) 7 index (bitN err 0 + bitN drain 1) core ctx s
/-- `monitor`: a sensor of a die reports: 0 its temperature, 1 + n the canary of unit n. DESIGN CHOICE: log entry 45. -/
def tapMonitor (die sensor reading : Nat) (s : State) : State := tap die 8 reading sensor die 0 s
/-- `port`. -/
def tapPort (core e : Nat) (v : Word) (ctx : Nat) (s : State) : State :=
  tap (dieOf core) 9 (bits v 31 0) (bits v 63 32) (core % 1024 + 1024 * (e % 16)) ctx s
/-- `summary`: kinds 0 L2 slice to 4 shared copy engine. -/
def tapSummary (die v res kind : Nat) (s : State) : State := tap die 10 (v / 4096) (res % 65536 + 65536 * kind) die 0 s

end Sys2Proof.Machine
end

