-- ==== Sys2Proof/Machine/Lines.lean ====
section
/-! DEFINITION. The directory's states (R311, R312), the L1 lines and the combining buffers of the cores (R230, R231). -/

namespace Sys2Proof.Machine

/-! ## The directory (R312) -/

def dirBit (die : Nat) : BitVec 4 := BitVec.ofNat 4 (2 ^ die)
def moesiNum : Moesi → Nat | .i => 0 | .s => 1 | .e => 2 | .o => 3 | .m => 4
/-- The tap of a transaction of die `r`, on behalf of a context (R325). -/
def dirTap (ctx r line : Nat) (s : State) : State :=
  let e := tget {} line s.mm.dir
  tapDir ctx r line (moesiNum e.st) e.pres.toNat s

/-- Die `r` holds the line; and it alone may write it: its L2 serves such a read, or write, with no transaction (R311, R312). -/
def dirHolds (e : DirEnt) (r : Nat) : Bool := e.st != .i && e.pres &&& dirBit r != 0
def dirOwns (e : DirEnt) (r : Nat) : Bool := (e.st == .e || e.st == .m) && e.owner == r
/-- A transaction of die `r` that reads or, with `wr`, writes the line: its tap, and that of memory's data, where R312 takes them from
there (R325). -/
def dirStart (ctx r line : Nat) (wr : Bool) (s : State) : State :=
  let e := tget {} line s.mm.dir
  if (if wr then dirOwns e r else dirHolds e r) then s
  else
    let s := dirTap ctx r line s
    if e.st = .i ∨ e.st = .s ∧ wr = false then tapMiss ctx line wr s else s

/-- A read request of die `r` (R312). -/
def dirRead (ctx r line : Nat) (s : State) : State :=
  let s := dirStart ctx r line false s
  let e := tget {} line s.mm.dir
  let e' : DirEnt := match e.st with
    | .i => ⟨.e, dirBit r, r⟩
    | .s => ⟨.s, e.pres ||| dirBit r, 0⟩
    | .e => if e.owner = r then e else ⟨.s, e.pres ||| dirBit r, 0⟩
    | .m => if e.owner = r then e else ⟨.o, e.pres ||| dirBit r, e.owner⟩
    | .o => ⟨.o, e.pres ||| dirBit r, e.owner⟩
  { s with mm := { s.mm with dir := tset {} line e' s.mm.dir } }

/-- A write request of die `r`: every other die is invalidated (R312). -/
def dirWrite (ctx r line : Nat) (s : State) : State :=
  let s := dirStart ctx r line true s
  { s with mm := { s.mm with dir := tset {} line ⟨.m, dirBit r, r⟩ s.mm.dir } }

/-- A write performed at the home: every copy is invalidated and no die caches the line (R231, R311); with no copy there is no transaction. -/
def dirHome (ctx r line : Nat) (s : State) : State :=
  let s := if (tget {} line s.mm.dir).st = .i then s else dirTap ctx r line s
  { s with mm := { s.mm with dir := tset {} line {} s.mm.dir } }

/-- A write-back by the owner (R312). -/
def dirWriteBack (ctx o line : Nat) (s : State) : State :=
  let e := tget {} line s.mm.dir
  if (e.st = .m ∨ e.st = .o) ∧ e.owner = o then
    let s := dirTap ctx o line s
    let e' : DirEnt := if e.st = .m ∨ e.pres &&& ~~~dirBit o = 0 then {} else ⟨.s, e.pres &&& ~~~dirBit o, 0⟩
    { s with mm := { s.mm with dir := tset {} line e' s.mm.dir } }
  else s

/-- An eviction notice (R312). -/
def dirEvict (ctx r line : Nat) (s : State) : State :=
  let e := tget {} line s.mm.dir
  if (e.st = .e ∨ e.st = .s) ∧ e.pres &&& dirBit r ≠ 0 then
    let s := dirTap ctx r line s
    let p := e.pres &&& ~~~dirBit r
    { s with mm := { s.mm with dir := tset {} line (if p = 0 then {} else { e with pres := p }) s.mm.dir } }
  else s

/-- The requests of a die for the lines of a range. -/
def dirLines (f : Nat → State → State) (pa n : Nat) (s : State) : State :=
  if isHbm pa then (List.range ((pa + n + 127) / 128 - pa / 128)).foldl (fun s i => f (pa / 128 + i) s) s else s

/-! ## L1 and combining buffer (R230, R231) -/

def findLine (core line : Nat) (ls : List Line) : Option Line := ls.find? fun l => l.core == core && l.line == line
def dropLine (core line : Nat) (ls : List Line) : List Line := ls.filter fun l => !(l.core == core && l.line == line)

/-- A line's bytes with some replaced from byte `off` on, and the mask of those. -/
def mergeBytes (data : List Byte) (off : Nat) (bs : List Byte) : List Byte :=
  (List.range 128).map fun i => if off ≤ i ∧ i < off + bs.length then bs.getD (i - off) 0 else data.getD i 0
def maskOf (off n : Nat) : BitVec 128 := BitVec.ofNat 128 ((2 ^ n - 1) * 2 ^ off)
/-- The bad words of a line that a write of the masked bytes leaves so: those it does not write whole (R364). -/
def stillBad (mask : BitVec 128) (b : BitVec 16) : BitVec 16 :=
  ((List.range 16).filter fun i => (List.range 8).all fun j => mask.getLsbD (8 * i + j)).foldl (fun b i => b &&& ~~~BitVec.ofNat 16 (2 ^ i)) b

/-- The words of a line that go home with uncorrectable check bits (R364). -/
def markBad (l : Line) (s : State) : State :=
  ((List.range 16).filter fun i => l.bad.getLsbD i).foldl (fun s i => pmark (l.line * 128 + 8 * i) 8 s) s

/-- The dirty bytes of a line go home (R230). -/
def sendBack (core line : Nat) (s : State) : State :=
  match findLine core line s.mm.l1 with
  | .none => s
  | .some l =>
    if l.dirty = 0 then s
    else
      let s := dirWrite l.ctx (dieOf core) line (markBad l (pwriteMasked (line * 128) l.dirty l.data s))
      { s with mm := { s.mm with l1 := s.mm.l1.map fun k =>
          if k.core = core ∧ k.line = line then { k with dirty := 0, due := 0, bad := 0 } else k } }

/-- A dirty line is written back; with no path to its home it is held at its die (R319). -/
def writeBackLine (core line : Nat) (s : State) : State := if reachable s core (line * 128) then sendBack core line s else s

/-- The lines of a list are written back. -/
def writeBackAll (ls : List Line) (s : State) : State := ls.foldl (fun s l => writeBackLine l.core l.line s) s

/-! ## Releases that are not yet performed (R234, R243) -/

/-- A release covers the core's dirty lines of RC pages (and of UO pages with `uo`): they are performed later, before what the bits of
`n` say (the field `due` of a line). DEDUCED: log entry 9. -/
def markDue (core : Nat) (uo : Bool) (n : BitVec 3) (s : State) : State :=
  { s with mm := { s.mm with l1 := s.mm.l1.map fun l =>
      if l.core = core ∧ l.dirty ≠ 0 ∧ (uo || !l.uo) then { l with due := l.due ||| n } else l } }

/-- What releases of the core at `.dev` and `.sys` cover is performed, before a store or an atomic of the core acts (R138, R235). DEDUCED: log entry 9. -/
def performDue (core : Nat) (s : State) : State :=
  writeBackAll (s.mm.l1.filter fun l => l.core == core && l.due.getLsbD 0) s

/-- Whether the release that covers a line of another core comes before an access of this one: one at `.die`, or one at the scope of
the pair in the other core of its pair (R234, R243). -/
def coversFor (core : Nat) (l : Line) : Bool :=
  l.core != core && ((l.due.getLsbD 2 && dieOf l.core == dieOf core) || (l.due.getLsbD 1 && l.core / 2 == core / 2))
/-- What such releases cover is performed, before an access of this core (R236, R243). DEDUCED: log entry 9. -/
def performDie (core : Nat) (s : State) : State := writeBackAll (s.mm.l1.filter (coversFor core)) s

/-! ## Filling and writing lines -/

/-- The line is in the core's L1, from its die's L2 if it was not (R241). -/
def fillLine (ctx core line : Nat) (uo wr : Bool) (s : State) : State :=
  match findLine core line s.mm.l1 with
  | .some _ => s
  | .none =>
    let s := dirRead ctx (dieOf core) line (tapLine ctx core line wr false (performDie core s))
    { s with mm := { s.mm with
        l1 := s.mm.l1 ++ [{ core := core, ctx := ctx, line := line, data := pread s (line * 128) 128, uo := uo }] } }

def lineData (s : State) (core line : Nat) : List Byte :=
  match findLine core line s.mm.l1 with | .some l => l.data | .none => pread s (line * 128) 128

/-- Bytes written into a line of the core's L1, which becomes dirty there. -/
def dirtyLine (ctx core line off : Nat) (bs : List Byte) (uo : Bool) (s : State) : State :=
  let s := fillLine ctx core line uo true s
  { s with mm := { s.mm with l1 := s.mm.l1.map fun l =>
      if l.core = core ∧ l.line = line then
        { l with data := mergeBytes l.data off bs, dirty := l.dirty ||| maskOf off bs.length, uo := l.uo || uo
                 bad := stillBad (maskOf off bs.length) l.bad } else l } }

/-- A combining-buffer entry drains into the L1 (R230). -/
def drainEntry (core line : Nat) (s : State) : State :=
  match findLine core line s.mm.comb with
  | .none => s
  | .some e =>
    let s := fillLine e.ctx core line true true { s with mm := { s.mm with comb := dropLine core line s.mm.comb } }
    { s with mm := { s.mm with l1 := s.mm.l1.map fun l =>
        if l.core = core ∧ l.line = line then
          { l with data := (List.range 128).map fun i => if e.dirty.getLsbD i then e.data.getD i 0 else l.data.getD i 0
                   dirty := l.dirty ||| e.dirty, uo := true, bad := stillBad e.dirty l.bad } else l } }

/-- A UO store waits in the core's combining buffer (R231). -/
def combine (ctx core line off : Nat) (bs : List Byte) (s : State) : State :=
  let e := (findLine core line s.mm.comb).getD { core := core, ctx := ctx, line := line, data := List.replicate 128 0, uo := true }
  { s with mm := { s.mm with comb := dropLine core line s.mm.comb ++
      [{ e with data := mergeBytes e.data off bs, dirty := e.dirty ||| maskOf off bs.length }] } }

/-- A core's own bytes of a line reach the coherent memory, and the line leaves its L1: what precedes an access performed there. A line
whose home no path reaches stays (R319). -/
def flushLine (core line : Nat) (s : State) : State :=
  let s := writeBackLine core line (drainEntry core line s)
  { s with mm := { s.mm with l1 := s.mm.l1.filter fun l => !(l.core == core && l.line == line) || l.dirty != 0 } }

/-- A superblock tag leaves the L1: its four lines, each dirty one written back by itself (R230). -/
def evictTag (core line : Nat) (s : State) : State :=
  let mine (l : Line) : Bool := l.core == core && l.line / 4 == line / 4
  let s := writeBackAll (s.mm.l1.filter mine) s
  { s with mm := { s.mm with l1 := s.mm.l1.filter fun l => !mine l || l.dirty != 0 } }

/-- Every dirty line of a core of RC pages (and of UO pages with `uo`) is written back. DEDUCED: log entry 9. -/
def writeBackCore (core : Nat) (uo : Bool) (s : State) : State :=
  writeBackAll (s.mm.l1.filter fun l => l.core == core && (uo || !l.uo)) s
def drainCore (core : Nat) (s : State) : State :=
  (s.mm.comb.filter fun l => l.core == core).foldl (fun s l => drainEntry core l.line s) s

/-- A line without the bytes that an acquire invalidates: none is left, or its dirty bytes over memory's (R230, R234). -/
def freshLine (s : State) (l : Line) : Option Line :=
  if l.dirty = 0 then .none
  else .some { l with data := (List.range 128).map fun i =>
    if l.dirty.getLsbD i then l.data.getD i 0 else tget 0 (l.line * 128 + i) s.mm.mem }

/-- The bytes of RC pages (and of UO pages with `uo`) that are not dirty leave a core's L1. DEDUCED: log entry 9. -/
def invalidateCore (core : Nat) (uo : Bool) (s : State) : State :=
  let s := performDie core s
  { s with mm := { s.mm with l1 := s.mm.l1.filterMap fun l =>
      if l.core = core ∧ (uo || !l.uo) then freshLine s l else .some l } }

/-- What a core holds for a team that comes or goes: everything written is performed, and nothing stays (R232, R237). DEDUCED: log entry 9. -/
def emptyCore (core : Nat) (s : State) : State := invalidateCore core true (writeBackCore core true (drainCore core s))

end Sys2Proof.Machine
end

