-- ==== Sys2Proof/Machine/Ops.lean ====
section
/-! DEFINITION. The named operations over registers, threads, groups, teams and grids: every read and write of a register goes
through here, and so do taking a trap (R145, R360 to R363), returning from one (R168) and the end of a grid (R224, R363). -/

namespace Sys2Proof.Machine

/-! ## Registers (R36 to R39, R47) -/

def poisonWord : Word := 0x7FF40000DEAD0001

def getV (s : State) (tk : Nat) (r : BitVec 6) : Cell := tget {} (tk * 64 + r.toNat) s.vreg
def setV (tk : Nat) (r : BitVec 6) (c : Cell) (s : State) : State :=
  { s with vreg := tset {} (tk * 64 + r.toNat) c s.vreg }

/-- s0 reads zero, FULL and clean (R38). -/
def getS (s : State) (gk : Nat) (r : BitVec 6) : Cell := if r = 0 then {} else tget {} (gk * 64 + r.toNat) s.sreg
/-- Writes to s0 are discarded (R38). -/
def setS (gk : Nat) (r : BitVec 6) (c : Cell) (s : State) : State :=
  if r = 0 then s else { s with sreg := tset {} (gk * 64 + r.toNat) c s.sreg }

/-- p0 reads true and is never empty (R37). -/
def getP (s : State) (tk : Nat) (p : BitVec 3) : PCell := if p = 0 then ⟨true, false⟩ else tget {} (tk * 8 + p.toNat) s.pred
def setP (tk : Nat) (p : BitVec 3) (c : PCell) (s : State) : State :=
  if p = 0 then s else { s with pred := tset {} (tk * 8 + p.toNat) c s.pred }
def getQ (s : State) (gk : Nat) (p : BitVec 3) : PCell := if p = 0 then ⟨true, false⟩ else tget {} (gk * 8 + p.toNat) s.qpred
def setQ (gk : Nat) (p : BitVec 3) (c : PCell) (s : State) : State :=
  if p = 0 then s else { s with qpred := tset {} (gk * 8 + p.toNat) c s.qpred }

/-- A register of a thread (`uni` false) or of its group: one notion for both sets (R13, R38). -/
def getR (s : State) (gk tid : Nat) (uni : Bool) (r : BitVec 6) : Cell :=
  if uni then getS s gk r else getV s (threadKey gk tid) r
def setR (gk tid : Nat) (uni : Bool) (r : BitVec 6) (c : Cell) (s : State) : State :=
  if uni then setS gk r c s else setV (threadKey gk tid) r c s

def getPQ (s : State) (gk tid : Nat) (uni : Bool) (p : BitVec 3) : PCell :=
  if uni then getQ s gk p else getP s (threadKey gk tid) p
def setPQ (gk tid : Nat) (uni : Bool) (p : BitVec 3) (c : PCell) (s : State) : State :=
  if uni then setQ gk p c s else setP (threadKey gk tid) p c s

/-- The name of a register in the operand cache of its quarter (R42). -/
def cacheKey (gk tid : Nat) (uni : Bool) (r : BitVec 6) : Nat :=
  if uni then 2 * (gk * 64 + r.toNat) + 1 else 2 * (threadKey gk tid * 64 + r.toNat)
/-- The quarter that a group is bound to (R207), as core·4 + q. -/
def quarterOf (s : State) (gk : Nat) : Nat := coreOf s gk * 4 + (getGrp s gk).quarter
/-- A write or a kill of a register drops its entry (R42). -/
def dropKept (gk tid : Nat) (uni : Bool) (r : BitVec 6) (s : State) : State :=
  let kept := (tget [] (quarterOf s gk) s.sc.opc).filter (· != cacheKey gk tid uni r)
  { s with sc := { s.sc with opc := tset [] (quarterOf s gk) kept s.sc.opc } }

/-- `WriteDst` (R47). -/
def writeDst (gk tid : Nat) (uni : Bool) (r : BitVec 6) (x : Word) (psn : Bool) (s : State) : State :=
  dropKept gk tid uni r (setR gk tid uni r ⟨x, .full, psn⟩ s)
/-- `MarkEmpty` (R47). -/
def markEmpty (gk tid : Nat) (uni : Bool) (r : BitVec 6) (s : State) : State :=
  dropKept gk tid uni r (setR gk tid uni r { getR s gk tid uni r with st := .empty } s)
/-- `Complete` with data (R47). -/
def complete (gk tid : Nat) (uni : Bool) (r : BitVec 6) (x : Word) (s : State) : State := writeDst gk tid uni r x false s
/-- `Complete` with uncorrectable data: the register keeps the producer's address and the data address (R36). -/
def completeFault (gk tid : Nat) (uni : Bool) (r : BitVec 6) (ia da : Word) (s : State) : State :=
  setR gk tid uni r { getR s gk tid uni r with st := .fault ia da } s
/-- A kill by control 0b01 (R36): the register is DEAD. -/
def kill (gk tid : Nat) (uni : Bool) (r : BitVec 6) (s : State) : State :=
  dropKept gk tid uni r (setR gk tid uni r { getR s gk tid uni r with st := .dead } s)
def killAll (gk tid : Nat) (ks : List (Bool × BitVec 6)) (s : State) : State :=
  ks.foldl (fun s k => kill gk tid k.1 k.2 s) s

/-- The flags ORed into the group's FPX (R62). -/
def orFpx (gk : Nat) (f : Flags) (s : State) : State :=
  if f = 0 then s else setGrp gk { getGrp s gk with fpx := (getGrp s gk).fpx ||| f } s

/-! ## Threads of a group -/

/-- The live threads of a group: those that have not exited (R91, R144). -/
def live (s : State) (gk : Nat) : List Nat :=
  (List.range (widthOf s gk)).filter fun i => decide ((getThr s (threadKey gk i)).st ≠ .exited)

/-- Over which threads convergence ranges: the handler set in system mode, else the live threads (R144, R145). DEDUCED: log entry 38. -/
def domain (s : State) (gk : Nat) : List Nat :=
  if (getGrp s gk).hset = [] then live s gk else (live s gk).filter (getGrp s gk).hset.contains

/-- Whether an issuer, a thread or (0xFFFF) the group, is in system mode (R145). -/
def inSys (s : State) (gk tid : Nat) : Bool :=
  (if tid = 0xFFFF then domain s gk else [tid]).any fun i => (getThr s (threadKey gk i)).sys

/-- One thread with a new state of R221. -/
def setSt (gk tid : Nat) (st : TState) (w : Wait) (s : State) : State :=
  setThr (threadKey gk tid) { getThr s (threadKey gk tid) with st := st, wait := w } s
def setPc (gk tid : Nat) (pc : Word) (s : State) : State :=
  setThr (threadKey gk tid) { getThr s (threadKey gk tid) with pc := pc } s
/-- A thread that is held at issue has not issued: its last issue is the one before (R213). -/
def unage (s : State) (tid : Nat) : State :=
  match s.cur.ages.find? fun p => p.1 == tid with
  | .some p => setThr (threadKey s.cur.gk tid) { getThr s (threadKey s.cur.gk tid) with last := p.2 } s
  | .none => s
/-- A thread that goes on at `pc`. -/
def goOn (gk : Nat) (pc : Word) (s : State) (tid : Nat) : State :=
  setThr (threadKey gk tid) { getThr s (threadKey gk tid) with pc := pc, st := .ready, wait := .none } s
/-- The group passes: every thread of its domain goes on at one address (R144). -/
def passGroup (gk : Nat) (pc : Word) (s : State) : State := (domain s gk).foldl (goOn gk pc) s

/-! ## Ending teams and grids -/

/-- Whether an operation in flight outlives the team that issued it: what already belongs to another agent, which completes it or
acknowledges it (R367). -/
def outlives (o : Op) : Bool :=
  match o.k with
  | .rstore _ _ => true | .rload _ _ _ _ _ _ _ => true | .lrec _ _ _ _ _ _ => true | .face _ _ => true | .rop _ _ _ _ => true | .bfloor _ _ _ => true
  | .claim _ _ _ _ _ => true | .atomic _ _ m _ _ _ _ => m.space != .s | .bwr _ _ _ _ _ _ => true | .bpub _ _ _ _ _ _ => true
  | .copy c => c.wait == .agent o.id | .aline _ _ _ ps _ _ => ps.any fun p => isPeer p.pa
  | _ => false

/-- Whether an operation keeps its team from ending: copies, access programs, matrix instructions (R224). -/
def keepsTeam (o : Op) : Bool :=
  match o.k with
  | .copy _ => true | .fork _ _ _ _ _ _ => true | .aline _ _ _ _ _ _ => true | .matrix _ _ _ _ => true
  | .mmas _ _ _ _ _ _ _ => true
  | _ => false

/-- The cores of a resident team (R204). -/
def coresOf (x : Team) : List Nat := if x.pair then [x.core, x.core + 1] else [x.core]
/-- Whether an operation that outlives its team is a write, or an append, that the end of its launch waits for: the end is a release
(R163, R320), and a launch's stores to other packages are performed when it has ended (R359). A claim that waits for a pool, and what is
held at a team that is not resident, are not waited for. DEDUCED: log entry 44. -/
def endsLaunch (o : Op) : Bool :=
  match o.k with
  | .rstore _ _ => true | .lrec _ _ _ _ _ _ => true | .atomic _ _ m _ _ _ _ => m.space != .s | .bwr _ _ _ _ _ _ => true
  | .bpub _ _ _ _ _ _ => true | .bfloor _ _ _ => true | .claim _ _ _ _ w => w == .none | .rop _ _ held _ => !held
  | .rload _ _ _ _ _ a _ => a.isSome
  | _ => false

/-- What a resident team has stored is performed at `.dev` before it leaves its cores, or as soon as its home can be reached (R163, R232,
R237, R319). DEDUCED: log entry 9. -/
def leaveCores (t : Nat) (s : State) : State :=
  let x := getTeam s t
  if x.st = .resident then (coresOf x).foldl (fun s c => markDue c true 7 (writeBackCore c true (drainCore c s))) s else s

/-- A team leaves the machine: its threads, registers, slots, records, queues and tokens are freed (R224, R363). The flags, maxima and GANG
of its groups, its allowances, and the states and bytes of its tiles, stay what they were at its end (R256, R260, R359). DEDUCED: log entry 44. -/
def dropTeam (t : Nat) (s : State) : State :=
  let s := leaveCores t s
  let x := getTeam s t
  { s with
    vreg := tdrop (fun k => k / 64 / 64 / 128 == t) s.vreg
    sreg := tdrop (fun k => k / 64 / 128 == t) s.sreg
    pred := tdrop (fun k => k / 8 / 64 / 128 == t) s.pred
    qpred := tdrop (fun k => k / 8 / 128 == t) s.qpred
    thr := tdrop (fun k => k / 64 / 128 == t) s.thr
    grp := tmap {} (fun k g => if k / 128 = t then { fpx := g.fpx, amax := g.amax, gang := g.gang } else g) s.grp
    slot := s.slot.filter fun p => match p.2 with | .some z => z.team != t | .none => true
    recs := s.recs.filter fun p => match p.2 with | .some z => z.team != t | .none => true
    mm := { s.mm with ops := s.mm.ops.filter fun o => teamOfG o.gk != t || outlives o
                      withdrawn := s.mm.withdrawn.filter fun o => teamOfG o.gk != t }
    team := tset {} t { ctx := x.ctx, grid := x.grid, num := x.num, st := .ended, core := x.core, pair := x.pair,
                        order := x.order, handles := x.handles, allow := x.allow, stash := x.stash, sbad := x.sbad } s.team }

/-- A team, which before its first placement is QUEUED and holds at most the messages sent to it (R224, R265). -/
def teamOrQueued (s : State) (t : Nat) : Team :=
  if s.team.any fun p => p.1 == t then getTeam s t
  else { ctx := (getGrid s (gridOfT t)).ctx, grid := gridOfT t, num := t % 2 ^ 24, st := .queued }

/-- Whether the engines of a group's team go on: a team that is evicted lets its copies and matrix instructions run to completion
(R223), a switched-out one stops them (R190, R277). -/
def enginesRun (s : State) (gk : Nat) : Bool :=
  match (getTeam s (teamOfG gk)).st with
  | .resident => true | .evicted => true | .woken => true | .queued => false | .switchedOut => false | .ended => false

/-- The keys of a grid's teams. -/
def teamsOf (s : State) (g : Nat) : List Nat := (tkeys s.team).filter fun t => gridOfT t == g

/-- Step 6 of the bring-up is under way: the Flaward Link is enabled (R394). -/
def linkEnabled (s : State) : Bool := decide (6 ≤ s.hs.boot)

/-- A launch token takes its status (R163); a host launch's completion waits for its ring (R392). -/
def reportEnd (g status : Nat) (s : State) : State :=
  let s := setGrid g { getGrid s g with report := .none } s
  let x := getGrid s g
  let s := match x.parent with
    | .some (pg, tok) =>
      let p := getGrid s pg
      setGrid pg { p with toks := p.toks.map fun k => if k.tok = tok then { k with status := .some status } else k } s
    | .none => s
  if x.hostTok = 0 then s
  else
    { s with
      vs := { s.vs with hostEnded := (vdevOf s x.ctx, x.hostTok) :: s.vs.hostEnded }
      vf := { s.vf with held := tset [] x.ctx (tget [] x.ctx s.vf.held ++ [⟨x.hostTok, status, x.trig⟩]) s.vf.held } }

/-- What a grid has sent, or what its context's cores hold for a home that no path reaches, is not yet performed (R319, R320). -/
def endPending (s : State) (g : Nat) : Bool :=
  (s.mm.ops.any fun o => gridOfG o.gk == g && endsLaunch o)
    || s.mm.l1.any fun l => l.dirty != 0 && l.ctx == (getGrid s g).ctx && !reachable s l.core (l.line * 128)

/-- The status of an ended grid is reported once its end is performed (R163, R320). DEDUCED: log entry 44. -/
def settleReport (g : Nat) (s : State) : State :=
  match (getGrid s g).report with
  | .none => s
  | .some st =>
    if endPending s g then s
    else reportEnd g st (writeBackAll (s.mm.l1.filter fun l => l.ctx == (getGrid s g).ctx && l.due != 0) s)

/-- A barrier context is free again: its registers return to their reset values (R377, R383). -/
def freeBarrier (c : Nat) (s : State) : State :=
  let mine (k : Nat) : Bool := k / 960 == c
  { s with rp := { s.rp with holder := tset .none c .none s.rp.holder, gen := tset false c false s.rp.gen
                             arr := tdrop mine s.rp.arr, mask := tdrop mine s.rp.mask, part := tdrop mine s.rp.part
                             forced := tdrop mine s.rp.forced } }

/-- The end of a grid with a status; its tokens, barrier context and shapes are freed (R162, R224, R363, R376), and the status is
reported once its end is performed. -/
def endGrid (g status : Nat) (s : State) : State :=
  let x := getGrid s g
  if x.status.isSome then s
  else
    let s := (teamsOf s g).foldl (fun s t => dropTeam t s) s
    let s := match x.barCtx with
      | .some c => freeBarrier c s
      | .none => s
    settleReport g (setGrid g { x with status := .some status, report := .some status, barCtx := .none, shapes := [] } s)

/-- A team has ended when every thread has exited, its copies, access program and matrix instructions have ended and its records
are closed (R224, R225); what its cores have written can be performed (R163, R319). -/
def teamDone (s : State) (t : Nat) : Bool :=
  let x := getTeam s t
  let n := (getGrid s (gridOfT t)).lr.groups
  x.st == .resident && (List.range n).all (fun i => (live s (groupKey t i)).isEmpty) && x.prog.isNone
    && s.mm.ops.all (fun o => teamOfG o.gk != t || !keepsTeam o)
    && (s.mm.l1 ++ s.mm.comb).all (fun l => l.dirty == 0 || !(coresOf x).contains l.core || reachable s l.core (l.line * 128))
    && s.recs.all (fun p => match p.2 with | .some z => z.team != t | .none => true)

/-- The team ends if it is done, and with its last team the grid (R224). -/
def settleTeam (t : Nat) (s : State) : State :=
  if teamDone s t then
    let s := dropTeam t s
    let g := gridOfT t
    if (teamsOf s g).all (fun u => (getTeam s u).st == .ended) && decide ((teamsOf s g).length = (getGrid s g).lr.teams)
    then endGrid g 0 s else s
  else s

/-! ## Traps (R145, R360 to R363) -/

/-- The codes of R361. -/
def trapCode : TrapName → Nat
  | .illegal => 0x01 | .privilege => 0x02 | .accessFault => 0x03 | .misalign => 0x04 | .poisonUse => 0x05 | .emptyRead => 0x06
  | .dataUncorr => 0x07 | .uniformSplit => 0x08 | .handleBusy => 0x09 | .handleFault => 0x0A | .capFault => 0x0B
  | .copyFault => 0x0C | .engineFault => 0x0D | .editionGone => 0x0E | .editionLimit => 0x0F | .gangFault => 0x10
  | .slotFault => 0x11 | .accExhausted => 0x12 | .compFault => 0x13 | .barrierFault => 0x14 | .launchFault => 0x15
  | .userTrap => 0x16

/-- The space codes of R31. -/
def spaceNum : Space → Nat | .g => 0 | .s => 1 | .h => 2


/-- TRAP_KIND (R362). -/
def trapKind (tr : TrapRec) (group : Bool) : Word :=
  word (trapCode tr.name + bitN group 8 + bitN tr.fetch 9 + spaceNum tr.space * 2 ^ 10 + bitN tr.wr 12)

/-- A fetch lane is released (R209). -/
def dropLane (tk : Nat) (s : State) : State :=
  { s with sc := { s.sc with
      lanes := tmap [] (fun _ ls => ls.filter fun l => l.tk != tk) s.sc.lanes
      laneq := tmap [] (fun _ ls => ls.filter fun l => l != tk) s.sc.laneq } }

/-- The handler set enters system mode: the trap registers are written and every thread goes on at the handler, as one action
(R360). The caller has checked that no other set of the group is in system mode. DEDUCED: log entry 38. -/
def enterHandler (gk : Nat) (tids : List Nat) (group : Bool) (tr : TrapRec) (h : Word) (s : State) : State :=
  let x := getGrp s gk
  let s := setGrp gk { x with
    tKind := trapKind tr group, tPc := tr.pc, tAddr := tr.addr, tInfo := tr.info
    tTid := if group then 0xFFFF else word (tids.headD 0), hset := tids } s
  tids.foldl (fun s i => dropLane (threadKey gk i)
    (setThr (threadKey gk i) { getThr s (threadKey gk i) with pc := h, sys := true, st := .ready, wait := .none } s)) s

/-- Taking a trap, for one thread (`group` false) or for the group: the one operation that every trap goes through. In system mode
the grid ends (R363); behind another handler set the trap is held (R145); with no handler the grid ends (R363). DEDUCED: log entry 38. -/
def takeTrap (gk : Nat) (tids : List Nat) (group : Bool) (tr : TrapRec) (s : State) : State :=
  if tids.any fun i => (getThr s (threadKey gk i)).sys then endGrid (gridOfG gk) (trapCode tr.name + 0x100) s
  else
    let h := (blockOf s (ctxOf s gk)).handler
    if (getGrp s gk).hset ≠ [] then
      let s := setGrp gk { getGrp s gk with held := (getGrp s gk).held ++ [⟨tids, group, tr⟩] } s
      tids.foldl (fun s i => setSt gk i .waitOpnd .handleTrap s) s
    else if h = 0 then endGrid (gridOfG gk) (trapCode tr.name) s
    else enterHandler gk tids group tr h s

/-- The next held trap enters the handler (R145). DEDUCED: log entry 38. -/
def enterHeld (gk : Nat) (s : State) : State :=
  match (getGrp s gk).held with
  | [] => s
  | h :: rest =>
    let s := setGrp gk { getGrp s gk with held := rest } s
    takeTrap gk h.tids h.group h.tr s

/-- Return from a trap (R168): every thread of the handler set that has not exited goes on at TRAP_PC in user mode; then a held trap
enters. DEDUCED: log entry 38. -/
def returnFromTrap (gk : Nat) (s : State) : State :=
  let x := getGrp s gk
  let set := domain s gk
  let s := setGrp gk { x with hset := [] } s
  let s := set.foldl (fun s i =>
    setThr (threadKey gk i) { getThr s (threadKey gk i) with pc := x.tPc, sys := false, st := .ready, wait := .none } s) s
  enterHeld gk s

/-- A trap of the instruction being issued, for one thread. -/
def trapThread (tid : Nat) (tr : TrapRec) (s : State) : State := takeTrap s.cur.gk [tid] false tr s
/-- A trap of the instruction being issued, for the group or, in system mode, its handler set (R148). -/
def trapGroup (tr : TrapRec) (s : State) : State := takeTrap s.cur.gk (domain s s.cur.gk) true tr s

/-- UNIFORM_SPLIT, when every thread that convergence awaits waits at a uniform or cross-lane instruction and the addresses
differ (R147). -/
def splitCheck (gk : Nat) (s : State) : State :=
  let d := domain s gk
  let pcs := (d.map fun i => (getThr s (threadKey gk i)).pc.toNat).eraseDups
  if d ≠ [] ∧ d.all (fun i => decide ((getThr s (threadKey gk i)).st = .waitConv)) ∧ 2 ≤ pcs.length
      ∧ (getGrp s gk).held = [] then
    let lo := pcs.foldl min (2 ^ 64)
    let lo2 := (pcs.filter (· != lo)).foldl min (2 ^ 64)
    takeTrap gk d true { name := .uniformSplit, pc := word lo, addr := word lo2, info := word pcs.length } s
  else s

/-! ## Operations in flight -/

/-- The route generation (R316). -/
def routeGen (s : State) : Nat := bits s.rg.route 63 48
/-- Where in another package's memory the request of an operation goes, if it goes there. -/
def peerAddr (k : OpK) : Option Nat :=
  let far (ps : List Part) : Option Nat := (ps.find? fun p => isPeer p.pa).map (·.pa)
  match k with
  | .rstore p _ => .some p.pa
  | .rload _ _ _ ps _ _ _ => far ps
  | .aline _ _ _ ps _ _ => far ps
  | .lrec _ _ pa _ _ _ => far [⟨pa, 256, .rc⟩]
  | .copy c => c.sent.map (·.pa)
  | _ => .none
/-- The peer that an operation's request goes to, if it goes to one. -/
def peerOfOp (k : OpK) : Option Nat :=
  match k with
  | .face _ p => .some p
  | k => (peerAddr k).map peerOf
/-- The port by which a request leaves for a peer (R349). -/
def portOf (s : State) (k : OpK) : Option Nat := (peerAddr k).map (portFor s)
/-- The generation under which a request leaves: that of the routes, and, to a peer, the ports that reach it (R317, R349). -/
def genOf (s : State) (k : OpK) : Nat := routeGen s + 65536 * match peerOfOp k with | .some p => peerPorts s p | .none => 0
/-- The next operation in flight, numbered; `iss` is the issue it comes from. -/
def newOp (gk tid : Nat) (ia : Word) (k : OpK) (s : State) : Op :=
  { id := s.mm.nextId, gk := gk, tid := tid, iss := s.sc.issues, ia := ia, k := k, gen := genOf s k, port := portOf s k, core := coreOf s gk
    sys := inSys s gk tid }
def addOp (gk tid : Nat) (ia : Word) (k : OpK) (s : State) : State :=
  { s with mm := { s.mm with ops := s.mm.ops ++ [newOp gk tid ia k s], nextId := s.mm.nextId + 1 } }
def findOp (s : State) (id : Nat) : Option Op := s.mm.ops.find? fun o => o.id == id
def dropOp (id : Nat) (s : State) : State := { s with mm := { s.mm with ops := s.mm.ops.filter fun o => o.id != id } }
/-- An operation in another form; a request to a peer that it did not have before leaves under the present routes and ports. -/
def reform (s : State) (k : OpK) (o : Op) : Op :=
  if peerAddr k = .none ∨ peerAddr k = peerAddr o.k then { o with k := k } else { o with k := k, gen := genOf s k, port := portOf s k }
def setOp (id : Nat) (k : OpK) (s : State) : State :=
  { s with mm := { s.mm with ops := s.mm.ops.map fun o => if o.id = id then reform s k o else o } }

/-- The next free value's number. DESIGN CHOICE: log entry 4. -/
def tick (s : State) : State := { s with fresh := s.fresh + 1 }

/-- What an implementation chooses where the manual leaves the choice open: any member of the list. DESIGN CHOICE: log entry 4. -/
def pick {α : Type} (l : List α) (d : α) (s : State) : α × State :=
  match l with
  | [] => (d, s)
  | [x] => (x, s)
  | _ => (l.getD (Config.choice s.fresh % l.length) d, tick s)

/-! ## Interrupts (R375, R393, R398) -/

def raiseIrq (f v : Nat) (s : State) : State := { s with hs := { s.hs with irq := s.hs.irq ++ [(f, v)] } }

/-- MGMT_CAUSE takes a bit: the management interrupt is raised, and a change is also sent over the side-band port. -/
def raiseMgmt (b : Nat) (s : State) : State :=
  let c := s.rg.mgmtCause ||| word (2 ^ b)
  let s := if c = s.rg.mgmtCause then s else { s with hs := { s.hs with sideEvents := s.hs.sideEvents ++ [c] } }
  raiseIrq 64 0 { s with rg := { s.rg with mgmtCause := c } }

/-- PEER_ERR[p] counts one more, saturating (R350). -/
def peerError (p : Nat) (s : State) : State :=
  raiseMgmt 3 { s with rg := { s.rg with peerErr := tset 0 p (min (tget 0 p s.rg.peerErr + 1) (2 ^ 32 - 1)) s.rg.peerErr } }

/-- Bytes that the spec leaves open. DESIGN CHOICE: log entry 4. -/
def freeBytes (n : Nat) (s : State) : List Byte × State :=
  ((List.range n).map fun i => Config.freeByte (s.fresh + i), { s with fresh := s.fresh + n })

/-- What a peer answers to a read that this module makes in one step: bytes, which this module does not hold itself; or none, where it
refuses the read or does not answer (R350). DESIGN CHOICE: log entry 4. -/
def peerBytes (pa n : Nat) (s : State) : Option (List Byte) × State :=
  let r := pick [true, false] true s
  if portUp s (portFor s pa) && r.1 then (let b := freeBytes n r.2; (.some b.1, b.2)) else (.none, peerError (peerOf pa) r.2)

end Sys2Proof.Machine
end

