-- ==== Sys2Proof/Machine/Place.lean ====
section
/-! DEFINITION. Residency: what a team needs of a core (R204 to R206), what the resident teams use, whether a team fits (R205, R278)
or never could (R162, R271, R370), binding to quarters (R207), and the start of a team (R39, R263, R266, R267). -/

namespace Sys2Proof.Machine

/-! ## Needs (R205) -/

/-- Threads, register bytes, stash bytes, queues, accumulator slots, records. -/
structure Need where
  threads : Nat := 0
  regs : Nat := 0
  stash : Nat := 0
  queues : Nat := 0
  slots : Nat := 0
  recs : Nat := 0
  deriving DecidableEq, Repr

def Need.add (a b : Need) : Need :=
  ⟨a.threads + b.threads, a.regs + b.regs, a.stash + b.stash, a.queues + b.queues, a.slots + b.slots, a.recs + b.recs⟩

/-- Groups on one core of a team: all of them, or the halves of a pair (R204). -/
def groupsOn (l : LRec) (half : Nat) : Nat :=
  if l.pair then (if half = 0 then (l.groups + 1) / 2 else l.groups / 2) else l.groups
/-- Stash bytes on one core (R206). -/
def stashOn (l : LRec) (half : Nat) : Nat :=
  if l.pair then (let h := 128 * ((l.stash + 255) / 256); if half = 0 then min h l.stash else l.stash - h) else l.stash

/-- The team-local queue numbers that the capability entries of a grid name (R216). -/
def queueNames (caps : Tab (Option Cap)) : List Nat :=
  (caps.filterMap fun p => match p.2 with
    | .some c => if c.kind = .queue then .some (bits c.operand 2 0) else .none
    | .none => .none).eraseDups

/-- What a team that holds nothing yet needs of one core; the queues of a pair are those of its first core. -/
def baseNeed (l : LRec) (queues half : Nat) : Need :=
  { threads := groupsOn l half * l.w, regs := groupsOn l half * (l.w * l.nv + l.ns) * 8, stash := stashOn l half
    queues := if half = 0 then queues else 0 }

/-- What a team needs, with the slots and records that it holds (R179, R192). -/
def needOf (s : State) (t half : Nat) : Need :=
  let g := getGrid s (gridOfT t)
  { baseNeed g.lr (queueNames g.caps).length half with
    slots := (s.slot.filter fun p => match p.2 with | .some z => z.team == t && z.half == half | .none => false).length
    recs := (s.recs.filter fun p => match p.2 with | .some z => z.team == t && z.half == half | .none => false).length
      + (s.mm.ops.filter fun o => match o.k with
          | .rop u .none _ (.copen _ _ _ _ _) => u == t && halfOf s o.gk == half | _ => false).length }

/-- The teams on a core, each with its half. -/
def teamsAt (s : State) (core : Nat) : List (Nat × Nat) :=
  s.team.filterMap fun p =>
    if p.2.st = .resident ∧ p.2.core = core then .some (p.1, 0)
    else if p.2.st = .resident ∧ p.2.pair = true ∧ p.2.core + 1 = core then .some (p.1, 1) else .none

def useOf (s : State) (ts : List (Nat × Nat)) : Need := ts.foldl (fun n t => n.add (needOf s t.1 t.2)) {}

/-- The limits of R205. -/
def withinLimits (n : Need) : Bool :=
  decide (n.threads ≤ 1024) && decide (n.regs ≤ 524288) && decide (n.stash ≤ 393216) && decide (n.queues ≤ 8)
    && decide (n.slots ≤ 64) && decide (n.recs ≤ 512)

/-- A team of a context fits on a core beside what is resident there (R205, R278). -/
def fitsCore (s : State) (ctx core : Nat) (n : Need) : Bool :=
  let ts := teamsAt s core
  let mine := ts.filter fun t => (getTeam s t.1).ctx == ctx
  let vs := (ts.map fun t => vdevOf s (getTeam s t.1).ctx).eraseDups
  let own := useOf s mine
  withinLimits ((useOf s ts).add n) && (vs.contains (vdevOf s ctx) || decide (vs.length < 8))
    && (decide (ctx < 64) || decide (own.regs + own.stash + n.regs + n.stash ≤ 262144))

/-- A block that names a core or a slice enables its device (R273). -/
def enabledBlock (b : VBlock) : Bool := b.cores != 0 || b.slices.any (· != 0)
def enabledV (s : State) (v : Nat) : Bool := match tget .none v s.vs.vb with | .some b => enabledBlock b | .none => false
/-- A context whose queues are served: of an enabled device, and, a render context, not withdrawn (R273, R279). -/
def servedCtx (s : State) (ctx : Nat) : Bool :=
  if ctx < 64 then enabledV s ctx
  else match tget .none (ctx - 64) s.vs.rb with | .some b => enabledV s b.owner | .none => false

/-- The cores of a context's partition that some physical core carries (R273, R279, R370). -/
def partition (s : State) (ctx : Nat) : List Nat :=
  let cs := if ctx < 64 then
      (let b := (tget .none ctx s.vs.vb).getD {}; (List.range 960).filter fun c => b.cores.getLsbD c)
    else match tget .none (ctx - 64) s.vs.rb with
      | .some b => (List.range 960).filter b.cores.contains
      | .none => []
  cs.filter fun c => !tget false c s.rp.dead

/-- The cores a grid may use: those of its participation set, if it has one (R383). -/
def gridCores (s : State) (g : Nat) : List Nat :=
  let x := getGrid s g
  match x.barCtx with
  | .none => partition s x.ctx
  | .some c => (partition s x.ctx).filter fun k => tget false (c * 960 + k) s.rp.part

/-- Cores at which a team may begin: any core, or the first core of a pair (R204). -/
def starts (pair : Bool) (cores : List Nat) : List Nat :=
  if pair then cores.filter fun c => c % 2 == 0 && cores.contains (c + 1) else cores

/-- A team of a grid fits at a core (and the next one, for a pair). -/
def fitsAt (s : State) (ctx : Nat) (pair : Bool) (core : Nat) (need : Nat → Need) : Bool :=
  fitsCore s ctx core (need 0) && (!pair || fitsCore s ctx (core + 1) (need 1))

/-! ## What could never fit (R162, R271, R370) -/

def quot (limit need most : Nat) : Nat := if need = 0 then most else limit / need
/-- How many teams an empty core holds, at most `most`. -/
def capacity (render : Bool) (l : LRec) (queues half most : Nat) : Nat :=
  let n := baseNeed l queues half
  let m := min (min (quot 1024 n.threads most) (quot 524288 n.regs most)) (min (quot 393216 n.stash most) (quot 8 n.queues most))
  if render then min m (quot 262144 (n.regs + n.stash) most) else m

/-- The teams of a launch could be resident together on cores that hold nothing else. -/
def couldFit (ctx : Nat) (l : LRec) (queues : Nat) (cores : List Nat) : Bool :=
  let r := decide (64 ≤ ctx)
  let each := if l.pair then min (capacity r l queues 0 l.teams) (capacity r l queues 1 l.teams) else capacity r l queues 0 l.teams
  decide (l.teams ≤ each * (starts l.pair cores).length)

/-! ## Becoming resident -/

/-- The quarter number of a group that is bound to none. -/
def unbound : Nat := 4
/-- The quarter with the fewest resident threads, ties to the lowest (R207). -/
def fewest (s : State) (core : Nat) : Nat :=
  let load (q : Nat) : Nat :=
    (s.grp.filter fun p => p.2.quarter == q && coreOf s p.1 == core && (getTeam s (teamOfG p.1)).st == .resident).foldl
      (fun n p => n + widthOf s p.1) 0
  [1, 2, 3].foldl (fun b q => if load q < load b then q else b) 0

/-- A group is bound to a quarter and takes its place in residency order (R207, R213). Its threads' ages start at 0 (R226). -/
def bindGroup (s : State) (gk : Nat) : State :=
  let q := fewest s (coreOf s gk)
  let s := setGrp gk { getGrp s gk with quarter := q, order := s.vs.orders } s
  let s := (List.range (widthOf s gk)).foldl (fun s i =>
    setThr (threadKey gk i) { getThr s (threadKey gk i) with last := 0 } s) s
  { s with vs := { s.vs with orders := s.vs.orders + 1 } }

/-- A tenant that was not resident on a core starts with deficit counters of 0 (R212). -/
def freshTenant (core v : Nat) (s : State) : State :=
  if (teamsAt s core).any fun t => vdevOf s (getTeam s t.1).ctx == v then s
  else { s with sc := { s.sc with dc := (List.range 4).foldl (fun d q => terase ((core * 4 + q) * 64 + v) d) s.sc.dc } }

/-- A team takes up residence at a core: its first instruction acquires at `.dev`, so nothing stale stays in the core's L1 (R161, R232,
R237); its groups are bound, in ascending %gid. DEDUCED: log entry 9. -/
def reside (t core : Nat) (s : State) : State :=
  let x := getTeam s t
  let l := (getGrid s (gridOfT t)).lr
  let v := vdevOf s x.ctx
  let s := freshTenant core v s
  let s := if x.pair then freshTenant (core + 1) v s else s
  let s := setTeam t { x with st := .resident, core := core, order := s.vs.orders } s
  let s := (coresOf (getTeam s t)).foldl (fun s c => invalidateCore c true s) s
  let g := getGrid s (gridOfT t)
  let mark (c : Nat) (st : Tab Nat) : Tab Nat := if tget 0 c st = 0 then tset 0 c (coreCycles s c + 1) st else st
  let s := setGrid (gridOfT t) { g with start := if x.pair then mark (core + 1) (mark core g.start) else mark core g.start } s
  let gs := (List.range l.groups).map (groupKey t)
  gs.foldl bindGroup (gs.foldl (fun s g => setGrp g { getGrp s g with quarter := unbound } s) s)

/-- Handles bound at team start (R267); h0 covers the window (R253). -/
def startHandles (l : LRec) (hl : List (Nat × Nat × Nat)) : Tab (Option Handle) :=
  hl.foldl (fun h e => tset .none e.1 (.some { off := e.2.1, size := e.2.2 }) h)
    (if l.stash = 0 then [] else [(0, .some { off := 0, size := l.stash })])

/-- A group's registers and threads at team start (R39, R263): every register zero, but s1 and s2; every thread at the entry. -/
def startGroup (l : LRec) (s : State) (gk : Nat) : State :=
  let s := setS gk 1 ⟨l.dbase, .full, false⟩ (setS gk 2 ⟨l.arg, .full, false⟩ s)
  (List.range l.w).foldl (fun s i => setThr (threadKey gk i) { pc := l.entry, st := .ready } s) s

/-- A team is created, QUEUED, and placed at a core (R224, R263, R266). -/
def startTeam (t core : Nat) (s : State) : State :=
  let g := getGrid s (gridOfT t)
  let allow := g.caps.foldl (fun (a : Tab Nat) p => match p.2 with | .some c => tset 0 p.1 c.allow a | .none => a) []
  let s := setTeam t { ctx := g.ctx, grid := gridOfT t, num := t % 2 ^ 24, st := .resident, core := core, pair := g.lr.pair
                       handles := startHandles g.lr g.hlist, qnames := queueNames g.caps, allow := allow
                       boxes := (getTeam s t).boxes } s
  let gs := (List.range g.lr.groups).map (groupKey t)
  let s := gs.foldl (startGroup g.lr) s
  reside t core (setTeam t { getTeam s t with st := .queued } s)

end Sys2Proof.Machine
end

