-- ==== Sys2Proof/Machine/Flags.lean ====
section
/-! DEFINITION. Registers of packed elements (R49, R102): an operation of one element carried to every element of a register, with
the flags of all of them ORed (R62), and the integer results that depend on a range or a comparison. -/

namespace Sys2Proof.Machine

/-- An operation on every element of width `n`: the register and the flags (R102). -/
def packed1 (n : Nat) (f : Nat → Nat × Flags) (a : Word) : Word × Flags :=
  let rs := (List.range (64 / n)).map fun i => f (elem n i a)
  (word (packElems n (rs.map Prod.fst)), rs.foldl (fun x r => x ||| r.2) 0)
def packed2 (n : Nat) (f : Nat → Nat → Nat × Flags) (a b : Word) : Word × Flags :=
  let rs := (List.range (64 / n)).map fun i => f (elem n i a) (elem n i b)
  (word (packElems n (rs.map Prod.fst)), rs.foldl (fun x r => x ||| r.2) 0)
def packed3 (n : Nat) (f : Nat → Nat → Nat → Nat × Flags) (a b c : Word) : Word × Flags :=
  let rs := (List.range (64 / n)).map fun i => f (elem n i a) (elem n i b) (elem n i c)
  (word (packElems n (rs.map Prod.fst)), rs.foldl (fun x r => x ||| r.2) 0)

/-- Width in bits of a format. -/
def fWidth (F : Fmt) : Nat := 1 + F.eb + F.mb
def lift1 (F : Fmt) (f : Fmt → Nat → Nat × Flags) : Word → Word × Flags := packed1 (fWidth F) (f F)
def lift2 (F : Fmt) (f : Fmt → Nat → Nat → Nat × Flags) : Word → Word → Word × Flags := packed2 (fWidth F) (f F)
def lift3 (F : Fmt) (f : Fmt → Nat → Nat → Nat → Nat × Flags) : Word → Word → Word → Word × Flags := packed3 (fWidth F) (f F)

/-- The comparison of element 0 (R108). -/
def cmp0 (F : Fmt) (c : FCmp) (a b : Word) : Bool × Flags := opCmp F c (elem (fWidth F) 0 a) (elem (fWidth F) 0 b)

/-- The default rounding of the short forms (R32). -/
def fm0 : FMod := ⟨.rne, false⟩

/-- Saturating results (R76). -/
def satI (n : Nat) (x : Int) : Word := BitVec.ofInt 64 (clamp (-(2 ^ (n - 1) : Nat)) ((2 ^ (n - 1) : Nat) - 1) x)
def satN (n : Nat) (x : Int) : Word := BitVec.ofInt 64 (clamp 0 ((2 ^ n : Nat) - 1) x)

end Sys2Proof.Machine
end

