-- ==== Sys2Proof/Machine/Operands.lean ====
section
/-! DEFINITION. Every operand form, once: guards (R34), register limits (R29), reading sources (R40, R41), poison (R43), the commit
(R40), the convergence of uniform and cross-lane instructions (R91, R144), and the waits of a thread (R220, R221). -/

namespace Sys2Proof.Machine

/-- A source that an instruction names: a controlled field, or a destination read as a plain source (R86). `field` is the number
that POISON_USE reports (R361); `strict`: a poisoned value takes POISON_USE, else it poisons the results (R43). -/
structure Fld where
  uni : Bool
  r : BitVec 6
  c : Ctl
  field : Nat
  strict : Bool := false
  deriving DecidableEq, Repr

/-- What an instruction names. -/
structure Form where
  /-- its set: does it write s registers and q predicates? -/
  uni : Bool
  flds : List Fld
  /-- predicates read -/
  preds : List (BitVec 3) := []
  dv : Option (BitVec 6) := .none
  dp : Option (BitVec 3) := .none
  /-- further registers that must lie below the launch's counts -/
  more : List (Bool × BitVec 6) := []
  deriving DecidableEq, Repr

/-! ## Lane and uniform forms -/

def fA (u : Bool) (a : Src) (strict : Bool := false) : Fld := ⟨u, a.r, a.c, 0, strict⟩
def fB (u : Bool) (b : Src) (strict : Bool := false) : Fld := ⟨u, b.r, b.c, 1, strict⟩
def fC (u : Bool) (c : Src) (strict : Bool := false) : Fld := ⟨u, c.r, c.c, 2, strict⟩
/-- The destination read as a plain source. -/
def fD (u : Bool) (d : BitVec 6) (strict : Bool := false) : Fld := ⟨u, d, .plain, 4, strict⟩

def form2 (u : Bool) (d : BitVec 6) (a b : Src) : Form := { uni := u, flds := [fA u a, fB u b], dv := .some d }
def form1 (u : Bool) (d : BitVec 6) (a : Src) : Form := { uni := u, flds := [fA u a], dv := .some d }
def form3 (d : BitVec 6) (a b c : Src) : Form := { uni := false, flds := [fA false a, fB false b, fC false c], dv := .some d }
/-- Two sources, the second a shift count (R43, R82). -/
def formSh (u : Bool) (d : BitVec 6) (a b : Src) : Form := { uni := u, flds := [fA u a, fB u b true], dv := .some d }
/-- Two sources and a predicate destination: poison traps (R43). -/
def formP (u : Bool) (p : BitVec 3) (a b : Src) : Form := { uni := u, flds := [fA u a true, fB u b true], dp := .some p }

/-! ## Waits (R220, R221) -/

/-- Whether a piece lies in host or peer memory or is homed on another die: a load of it is remote (R220). -/
def remotePart (s : State) (die : Nat) (p : Part) : Bool :=
  decide (hostBase ≤ p.pa) && decide (p.pa < 2 ^ 52) || decide (p.pa < hostBase) && homeDie s p.pa != die

/-- Whether a pending operation of the group that writes a register is a receive or a remote load: waiting on it is a blocking
point (R220); so is waiting on an atomic whose request is held at its die (R319). -/
def remotePending (s : State) (gk tid : Nat) (uni : Bool) (r : BitVec 6) : Bool :=
  s.mm.ops.any fun o => o.gk == gk && match o.k with
    | .qrecv d _ _ _ ts => !uni && d == r && ts.contains tid
    | .crecv d _ _ => uni && d == r
    | .rload u d _ _ _ .none _ => u == uni && d == r && (uni || o.tid == tid)
    | .atomic d _ m p _ _ _ => !uni && d == r && o.tid == tid && m.space != .s && !partReach s (coreOf s gk) p
    | .load u st d _ ps _ => u == uni && d == r && (uni || o.tid == tid) && !st && ps.any (remotePart s (dieOf (coreOf s gk)))
    | _ => false

/-- The same for a predicate: that of a pending remote `lde.chk` (R131, R220). -/
def remotePred (s : State) (gk tid : Nat) (uni : Bool) (p : BitVec 3) : Bool :=
  s.mm.ops.any fun o => o.gk == gk && match o.k with
    | .rload u _ q _ _ .none _ => u == uni && q == .some p && (uni || o.tid == tid)
    | .load u st _ q ps _ => u == uni && q == .some p && (uni || o.tid == tid) && !st && ps.any (remotePart s (dieOf (coreOf s gk)))
    | _ => false

/-- The thread waits for a predicate. -/
def waitPred (gk tid : Nat) (p : BitVec 3) (s : State) : State :=
  setSt gk tid (if remotePred s gk tid false p then .blocked else .waitOpnd) (.pred false p) s

/-- The thread waits for a register. -/
def waitReg (gk tid : Nat) (uni : Bool) (r : BitVec 6) (s : State) : State :=
  setSt gk tid (if remotePending s gk tid uni r then .blocked else .waitOpnd) (.reg uni r) s

/-- A thread that has arrived with its group waits for a register, or a predicate: it stays arrived, but for a blocking point (R220, R221). -/
def waitThere (gk tid : Nat) (uni : Bool) (r : BitVec 6) (s : State) : State :=
  setSt gk tid (if remotePending s gk tid uni r then .blocked else .waitConv) (.reg uni r) s
def waitThereP (gk tid : Nat) (p : BitVec 3) (s : State) : State :=
  setSt gk tid (if remotePred s gk tid false p then .blocked else .waitConv) (.pred false p) s

/-- What the reading of sources comes to. -/
inductive Got
  | wait (uni : Bool) (r : BitVec 6)
  | waitP (p : BitVec 3)
  | trap (t : TrapRec)
  | ok (vals : List Word) (psn : Bool)
  deriving DecidableEq, Repr

def regNum (uni : Bool) (r : BitVec 6) : Word := word (r.toNat + bitN uni 6)

/-- The first loop of `ReadSources` (R40, R41). -/
def checkFields (s : State) (gk tid : Nat) (pc : Word) (all : List Fld) : List Fld → Option Got
  | [] => .none
  | f :: fs =>
    match (getR s gk tid f.uni f.r).st with
    | .empty =>
      if all.any fun h => h.uni == f.uni && h.r == f.r && h.c == .trap then
        .some (.trap { name := .emptyRead, pc := pc, info := regNum f.uni f.r })
      else .some (.wait f.uni f.r)
    | .fault ia da => .some (.trap { name := .dataUncorr, pc := pc, addr := da, info := ia })
    | .full => checkFields s gk tid pc all fs
    | .dead => checkFields s gk tid pc all fs

/-- Value and poison of a register that can be read (R36). -/
def readCell (c : Cell) : Word × Bool := if c.st = .dead then (poisonWord, true) else (c.v, c.psn)

/-- A strict field that is poisoned takes POISON_USE (R43). -/
def poisonTrap (s : State) (gk tid : Nat) (pc : Word) : List Fld → Option Got
  | [] => .none
  | f :: fs =>
    if f.strict && (readCell (getR s gk tid f.uni f.r)).2 then
      .some (.trap { name := .poisonUse, pc := pc, info := word f.field })
    else poisonTrap s gk tid pc fs

/-- The last loop of `ReadSources`: a destination that is EMPTY waits, one that is FAULT traps (R40); a predicate destination
waits (R75). -/
def checkDest (s : State) (gk tid : Nat) (pc : Word) (F : Form) : Option Got :=
  match F.dv with
  | .some d =>
    match (getR s gk tid F.uni d).st with
    | .empty => .some (.wait F.uni d)
    | .fault ia da => .some (.trap { name := .dataUncorr, pc := pc, addr := da, info := ia })
    | .full => .none
    | .dead => .none
  | .none => .none

def checkPreds (s : State) (gk tid : Nat) (uni : Bool) : List (BitVec 3) → Option Got
  | [] => .none
  | p :: ps => if (getPQ s gk tid uni p).empty then .some (.waitP p) else checkPreds s gk tid uni ps

/-- `ReadSources` (R40) with the predicates of the instruction, and the poison rule (R43). DEDUCED: log entry 12. -/
def readSources (s : State) (gk tid : Nat) (pc : Word) (F : Form) : Got :=
  match checkFields s gk tid pc F.flds F.flds with
  | .some g => g
  | .none =>
    match checkPreds s gk tid F.uni F.preds with
    | .some g => g
    | .none =>
      match checkDest s gk tid pc F with
      | .some g => g
      | .none =>
        match (match F.dp with | .some p => checkPreds s gk tid F.uni [p] | .none => .none) with
        | .some g => g
        | .none =>
          match poisonTrap s gk tid pc F.flds with
          | .some g => g
          | .none =>
            .ok (F.flds.map fun f => (readCell (getR s gk tid f.uni f.r)).1)
              (F.flds.any fun f => (readCell (getR s gk tid f.uni f.r)).2)

/-- The registers that the commit kills (R40, R41). -/
def kills (F : Form) : List (Bool × BitVec 6) := (F.flds.filter fun f => f.c == .last).map fun f => (f.uni, f.r)

/-! ## Limits and guards -/

/-- A register at or above the counts of the launch record takes ILLEGAL (R29). DEDUCED: log entry 12. -/
def overLimit (s : State) (gk : Nat) (F : Form) : Bool :=
  let l := recOf s gk
  let bad (u : Bool) (r : BitVec 6) : Bool := decide ((if u then l.ns else l.nv) ≤ r.toNat)
  F.flds.any (fun f => bad f.uni f.r) || (match F.dv with | .some d => bad F.uni d | .none => false)
    || F.more.any (fun m => bad m.1 m.2)

def illegalHere (s : State) : TrapRec := { name := .illegal, pc := s.cur.pc, info := zx32 s.cur.word }

/-- A guard of R34: none (true), empty, or its value. -/
inductive GuardVal | yes | no | wait (p : BitVec 3)
  deriving DecidableEq, Repr

def guardVal (s : State) (gk tid : Nat) (uni : Bool) : GuardVal :=
  match s.cur.guard with
  | .none => .yes
  | .some (p, n) =>
    let c := getPQ s gk tid uni p
    if c.empty then .wait p else if c.b != n then .yes else .no

/-- The registers that the commit keeps: control 0b10, unless another field kills the register (R41). -/
def keeps (F : Form) : List (Bool × BitVec 6) :=
  (F.flds.filter fun f => f.c == .keep && F.flds.all fun g => !(g.c == .last && g.uni == f.uni && g.r == f.r)).map fun f => (f.uni, f.r)

/-- Kept registers enter the quarter's operand cache: once a register, the least recently kept beyond 8 leaving (R13, R41, R42). -/
def keepRegs (gk tid : Nat) (ks : List (Bool × BitVec 6)) (s : State) : State :=
  let q := quarterOf s gk
  let kept := (ks.map fun k => cacheKey gk tid k.1 k.2).eraseDups
  if kept.isEmpty then s
  else
    let l := ((tget [] q s.sc.opc).filter fun k => !kept.contains k) ++ kept
    { s with sc := { s.sc with opc := tset [] q (l.drop (l.length - 8)) s.sc.opc } }
def keepCache (gk tid : Nat) (F : Form) (s : State) : State := keepRegs gk tid (keeps F) s

/-- What a form's commit does to its sources; and its doing so, for an instruction whose issuer waits for an agent before its commit. -/
def usesOf (F : Form) : Uses := ⟨kills F, keeps F⟩
def useAll (gk tid : Nat) (u : Uses) (s : State) : State := keepRegs gk tid u.keep (killAll gk tid u.kill s)

/-! ## What an instruction does to one thread (or to the group) -/

/-- The effect between reading the sources and the commit. -/
inductive Eff
  /-- the register result, the predicate result, the flags and the next address -/
  | val (v : Option Word) (p : Option Bool) (f : Flags) (pc : Option Word)
  | trap (t : TrapRec)
  deriving DecidableEq, Repr

def effV (v : Word) (f : Flags := 0) : Eff := .val (.some v) .none f .none
def effP (p : Bool) (f : Flags := 0) : Eff := .val .none (.some p) f .none

/-- The commit of R40: kills, then the destinations, then the flags, and on to the next address. -/
def commit (gk tid : Nat) (F : Form) (psn : Bool) (v : Option Word) (p : Option Bool) (f : Flags) (s : State) : State :=
  let s := keepCache gk tid F (killAll gk tid (kills F) s)
  let s := match F.dv, v with
    | .some d, .some x => writeDst gk tid F.uni d (if psn then poisonWord else x) psn s
    | _, _ => s
  let s := match F.dp, p with | .some d, .some b => setPQ gk tid F.uni d ⟨b, false⟩ s | _, _ => s
  orFpx gk f s

/-- One thread of a lane instruction that acts at once: guard, sources, effect, commit (R34, R40, R43). `fp`: a poisoned source
raises the flags of a signalling NaN (R43). -/
def laneThread (F : Form) (fp : Bool) (body : List Word → Nat → State → Eff) (s : State) (tid : Nat) : State :=
  let gk := s.cur.gk
  match guardVal s gk tid false with
  | .wait p => waitPred gk tid p s
  | .no => goOn gk s.cur.npc s tid
  | .yes =>
    match readSources s gk tid s.cur.pc F with
    | .wait u r => waitReg gk tid u r s
    | .waitP p => waitPred gk tid p s
    | .trap t => trapThread tid t s
    | .ok vals psn =>
      match body vals tid s with
      | .trap t => trapThread tid t s
      | .val v p f pc =>
        let f := if psn then (if fp then flNV else 0) else f
        goOn gk (pc.getD s.cur.npc) (commit gk tid F psn v p f s) tid

abbrev Out := Host.Outcome State Fault Refusal

/-- For every issuing thread in ascending %tid (R43, R145), while it is live: a trap of one may end the grid (R363). DEDUCED: log entry 12. -/
def perThread (f : State → Nat → State) (s : State) : State :=
  s.cur.tids.foldl (fun s i => if (getThr s (threadKey s.cur.gk i)).st = .exited then s else f s i) s

/-- ILLEGAL in every issuing thread (R29, R30). -/
def illegalLane (s : State) : State := perThread (fun s i => trapThread i (illegalHere s) s) s

/-- A lane instruction, for every thread of its bundle in ascending %tid (R43, R145). -/
def lane (F : Form) (fp : Bool) (body : List Word → Nat → State → Eff) (s : State) : Out :=
  .next (if overLimit s s.cur.gk F then illegalLane s else perThread (laneThread F fp body) s)

/-- Two-source and one-source bodies. -/
def b2 (f : Word → Word → Word) : List Word → Nat → State → Eff := fun v _ _ => effV (f (v.getD 0 0) (v.getD 1 0))
def b1 (f : Word → Word) : List Word → Nat → State → Eff := fun v _ _ => effV (f (v.getD 0 0))
def bp (f : Word → Word → Bool) : List Word → Nat → State → Eff := fun v _ _ => effP (f (v.getD 0 0) (v.getD 1 0))
/-- Floating bodies with flags. -/
def bf2 (f : Word → Word → Word × Flags) : List Word → Nat → State → Eff :=
  fun v _ _ => let r := f (v.getD 0 0) (v.getD 1 0); effV r.1 r.2
def bf1 (f : Word → Word × Flags) : List Word → Nat → State → Eff := fun v _ _ => let r := f (v.getD 0 0); effV r.1 r.2
def bf3 (f : Word → Word → Word → Word × Flags) : List Word → Nat → State → Eff :=
  fun v _ _ => let r := f (v.getD 0 0) (v.getD 1 0) (v.getD 2 0); effV r.1 r.2
def bfp (f : Word → Word → Bool × Flags) : List Word → Nat → State → Eff :=
  fun v _ _ => let r := f (v.getD 0 0) (v.getD 1 0); effP r.1 r.2

/-! ## Convergence (R91, R144, R145) -/

/-- What a thread still carries when it arrives: only the denial of the page it waited for (R290). -/
def keepDenied (w : Wait) : Wait :=
  match w with
  | .denied a p => .denied a p
  | .none => .none | .reg _ _ => .none | .pred _ _ => .none | .tbar => .none | .bar => .none | .waith _ _ => .none | .rdv _ => .none
  | .waitl _ => .none | .page _ _ => .none | .pool _ _ => .none | .agent _ => .none | .ops => .none | .trackers => .none
  | .handleTrap => .none

/-- The issuing threads arrive: they wait for the others (R144). -/
def arrive (s : State) : State :=
  s.cur.tids.foldl (fun s i =>
    setSt s.cur.gk i .waitConv (keepDenied (getThr s (threadKey s.cur.gk i)).wait) s) s

/-- Whether every thread that convergence awaits has arrived at the address of the instruction. -/
def converged (s : State) : Bool :=
  (domain s s.cur.gk).all fun i =>
    let t := getThr s (threadKey s.cur.gk i)
    t.st == .waitConv && t.pc == s.cur.pc

/-- Threads of a group that is converged but cannot yet read: they wait, still at the instruction. -/
def holdAll (w : Wait) (s : State) : State :=
  (domain s s.cur.gk).foldl (fun s i => setSt s.cur.gk i .waitConv w s) s
/-- None of the group's threads has issued (R213). -/
def unageAll (s : State) : State := (domain s s.cur.gk).foldl unage s

/-- The group waits at a blocking point of R220, at the instruction; it converges again once the wait ends. DEDUCED: log entry 10. -/
def blockAll (w : Wait) (s : State) : State :=
  (domain s s.cur.gk).foldl (fun s i => setSt s.cur.gk i .blocked w s) s

/-- The group waits for a register or a q predicate, blocking where a pending receive or remote load fills it (R220). -/
def waitRegAll (u : Bool) (r : BitVec 6) (s : State) : State :=
  if remotePending s s.cur.gk 0 u r then blockAll (.reg u r) s else holdAll (.reg u r) s
def waitPredAll (p : BitVec 3) (s : State) : State :=
  if remotePred s s.cur.gk 0 true p then blockAll (.pred true p) s else holdAll (.pred true p) s

/-- The group, once it has converged and its guard is true. A trap of the words is taken first (R30). -/
def converge (k : State → State) (s : State) : Out :=
  let s := arrive s
  if converged s then .next (k s) else .next (splitCheck s.cur.gk s)

/-- Whether the issuer runs in user mode. -/
def userOf (s : State) (gk tid : Nat) (uni : Bool) : Bool :=
  if uni then !((domain s gk).any fun i => (getThr s (threadKey gk i)).sys) else !(getThr s (threadKey gk tid)).sys

/-- A uniform instruction: convergence, ILLEGAL, PRIVILEGE for a privileged form in user mode, the guard, the sources, and then its own
effect `k` on the source values; `k` is answerable for the commit (R30, R34, R144, R148). -/
def uniP (priv : Bool) (F : Form) (k : List Word → Bool → State → State) (s : State) : Out :=
  converge (fun s =>
    let gk := s.cur.gk
    if overLimit s gk F then trapGroup (illegalHere s) s
    else if priv && userOf s gk 0 true then trapGroup { illegalHere s with name := .privilege } s
    else match guardVal s gk 0 true with
      | .wait p => waitPredAll p s
      | .no => passGroup gk s.cur.npc s
      | .yes =>
        match readSources s gk 0 s.cur.pc F with
        | .wait u r => waitRegAll u r s
        | .waitP p => waitPredAll p s
        | .trap t => trapGroup t s
        | .ok vals psn => k vals psn s) s

/-- A uniform instruction that is not privileged. -/
def uni (F : Form) (k : List Word → Bool → State → State) (s : State) : Out := uniP false F k s

/-- The group passes a uniform instruction: commit, then the next address for every thread (R144, R146). -/
def uniCommit (F : Form) (psn : Bool) (v : Option Word) (p : Option Bool) (pc : Option Word) (s : State) : State :=
  passGroup s.cur.gk (pc.getD s.cur.npc) (commit s.cur.gk 0 F psn v p 0 s)

/-- A uniform instruction whose effect is one of `Eff` (R149). -/
def uniEff (F : Form) (body : List Word → Nat → State → Eff) (s : State) : Out :=
  uni F (fun vals psn s =>
    match body vals 0 s with
    | .trap t => trapGroup t s
    | .val v p _ pc => uniCommit F psn v p pc s) s

/-- A trap of this instruction. -/
def trapAt (s : State) (n : TrapName) (addr info : Word) : TrapRec := { name := n, pc := s.cur.pc, addr := addr, info := info }

end Sys2Proof.Machine
end

