-- ==== Sys2Proof/Machine/IntLane.lean ====
section
/-! DEFINITION. Lane instructions of majors 0x01 to 0x19: integer arithmetic, logic, shifts, bit operations, address arithmetic,
immediates, constants, comparisons, predicates, select and special registers (R72 to R90), and the operations they share with the
uniform set (R149). -/

namespace Sys2Proof.Machine

/-! ## Operations on values -/

def iAdd (x y : Word) : Word := x + y
def iSub (x y : Word) : Word := x - y
def iMul (x y : Word) : Word := x * y
def iAnd (x y : Word) : Word := x &&& y
def iOr (x y : Word) : Word := x ||| y
def iXor (x y : Word) : Word := x ^^^ y
def iAndn (x y : Word) : Word := x &&& ~~~y
def iAbs (x : Word) : Word := if x.msb then 0 - x else x
def minI (x y : Word) : Word := if y.slt x then y else x
def maxI (x y : Word) : Word := if x.slt y then y else x
def minN (x y : Word) : Word := if y.ult x then y else x
def maxN (x y : Word) : Word := if x.ult y then y else x
/-- Bits 127 to 64 of the exact signed product (R78). -/
def mulhiI (x y : Word) : Word := BitVec.ofInt 64 (x.toInt * y.toInt / (2 ^ 64 : Nat))
/-- Bits 127 to 64 of the exact unsigned product (R78). -/
def mulhiN (x y : Word) : Word := BitVec.ofNat 64 (x.toNat * y.toNat / 2 ^ 64)
/-- The shifts of R82; the count is the whole register. -/
def shl64 (x c : Word) : Word := if 64 ≤ c.toNat then 0 else x <<< c.toNat
def shr64 (x c : Word) : Word := if 64 ≤ c.toNat then 0 else x >>> c.toNat
def sar64 (x c : Word) : Word := x.sshiftRight (min c.toNat 63)
def bitList (x : Word) : List Bool := (List.range 64).map x.getLsbD
def popcount (x : Word) : Word := word ((bitList x).filter id).length
def trailZeros (x : Word) : Word := word ((bitList x).takeWhile (!·)).length
def leadZeros (x : Word) : Word := word ((bitList x).reverse.takeWhile (!·)).length
def natOfBits : List Bool → Nat
  | [] => 0
  | b :: bs => (if b then 1 else 0) + 2 * natOfBits bs
def bitReverse (x : Word) : Word := word (natOfBits (bitList x).reverse)
def byteReverse (x : Word) : Word := word (natOf (bytesOf 8 x.toNat).reverse)
/-- R86. -/
def movcMid (x : Word) (i : BitVec 24) : Word := (x &&& ~~~(0x0000FFFFFF000000 : Word)) ||| (i.setWidth 64 <<< 24)
def movcHigh (x : Word) (i : BitVec 16) : Word := (x &&& (0x0000FFFFFFFFFFFF : Word)) ||| (i.setWidth 64 <<< 48)

/-- Predicate sources and a predicate destination (R88). -/
def formPP (u : Bool) (p : BitVec 3) (ps : List (BitVec 3)) : Form := { uni := u, flds := [], preds := ps, dp := .some p }
def bpp (u : Bool) (q r : BitVec 3) (f : Bool → Bool → Bool) : List Word → Nat → State → Eff :=
  fun _ i s => effP (f (getPQ s s.cur.gk i u q).b (getPQ s s.cur.gk i u r).b)

/-- The special registers of R90. %elapsed: a core counts its cycles as its quarters do (log entry 8). DEDUCED: log entry 8. -/
def specialReg (s : State) (gk tid : Nat) (r : BitVec 3) : Word :=
  let core := coreOf s gk
  match r.toNat with
  | 0 => word tid
  | 1 => word (gidOf gk)
  | 2 => word (teamOfG gk % 2 ^ 24)
  | 3 => word core
  | 4 => word (dieOf core)
  | 5 => word (widthOf s gk)
  | 6 => word (coreCycles s core + 1 - tget 0 core (getGrid s (gridOfG gk)).start)
  | _ => word (vdevOf s (ctxOf s gk))

/-! ## Meanings -/

/-- R76: `add.i64`. -/
def execAddI64 (d : BitVec 6) (a b : Src) (s : State) : Out :=
  lane (form2 false d a b) false (b2 iAdd) s

/-- R76: `sub.i64`. -/
def execSubI64 (d : BitVec 6) (a b : Src) (s : State) : Out :=
  lane (form2 false d a b) false (b2 iSub) s

/-- R76: `add.i32`. -/
def execAddI32 (d : BitVec 6) (a b : Src) (s : State) : Out :=
  lane (form2 false d a b) false (b2 fun x y => sx32 (lo32 x + lo32 y)) s

/-- R76: `sub.i32`. -/
def execSubI32 (d : BitVec 6) (a b : Src) (s : State) : Out :=
  lane (form2 false d a b) false (b2 fun x y => sx32 (lo32 x - lo32 y)) s

/-- R76: `add.n32`. -/
def execAddN32 (d : BitVec 6) (a b : Src) (s : State) : Out :=
  lane (form2 false d a b) false (b2 fun x y => zx32 (lo32 x + lo32 y)) s

/-- R76: `sub.n32`. -/
def execSubN32 (d : BitVec 6) (a b : Src) (s : State) : Out :=
  lane (form2 false d a b) false (b2 fun x y => zx32 (lo32 x - lo32 y)) s

/-- R76: `add.i64.sat`. -/
def execAddI64Sat (d : BitVec 6) (a b : Src) (s : State) : Out :=
  lane (form2 false d a b) false (b2 fun x y => satI 64 (x.toInt + y.toInt)) s

/-- R76: `add.n64.sat`. -/
def execAddN64Sat (d : BitVec 6) (a b : Src) (s : State) : Out :=
  lane (form2 false d a b) false (b2 fun x y => satN 64 ((x.toNat : Int) + y.toNat)) s

/-- R76: `add.i32.sat`. -/
def execAddI32Sat (d : BitVec 6) (a b : Src) (s : State) : Out :=
  lane (form2 false d a b) false (b2 fun x y => satI 32 ((lo32 x).toInt + (lo32 y).toInt)) s

/-- R76: `add.n32.sat`. -/
def execAddN32Sat (d : BitVec 6) (a b : Src) (s : State) : Out :=
  lane (form2 false d a b) false (b2 fun x y => satN 32 (((lo32 x).toNat : Int) + (lo32 y).toNat)) s

/-- R76: `sub.i64.sat`. -/
def execSubI64Sat (d : BitVec 6) (a b : Src) (s : State) : Out :=
  lane (form2 false d a b) false (b2 fun x y => satI 64 (x.toInt - y.toInt)) s

/-- R76: `sub.n64.sat`. -/
def execSubN64Sat (d : BitVec 6) (a b : Src) (s : State) : Out :=
  lane (form2 false d a b) false (b2 fun x y => satN 64 ((x.toNat : Int) - y.toNat)) s

/-- R76: `sub.i32.sat`. -/
def execSubI32Sat (d : BitVec 6) (a b : Src) (s : State) : Out :=
  lane (form2 false d a b) false (b2 fun x y => satI 32 ((lo32 x).toInt - (lo32 y).toInt)) s

/-- R76: `sub.n32.sat`. -/
def execSubN32Sat (d : BitVec 6) (a b : Src) (s : State) : Out :=
  lane (form2 false d a b) false (b2 fun x y => satN 32 (((lo32 x).toNat : Int) - (lo32 y).toNat)) s

/-- R77: `neg.i64`. -/
def execNegI64 (d : BitVec 6) (a : Src) (s : State) : Out :=
  lane (form1 false d a) false (b1 fun x => 0 - x) s

/-- R77: `abs.i64`. -/
def execAbsI64 (d : BitVec 6) (a : Src) (s : State) : Out :=
  lane (form1 false d a) false (b1 iAbs) s

/-- R78: `mul.i64`. -/
def execMulI64 (d : BitVec 6) (a b : Src) (s : State) : Out :=
  lane (form2 false d a b) false (b2 iMul) s

/-- R78: `mulhi.i64`. -/
def execMulhiI64 (d : BitVec 6) (a b : Src) (s : State) : Out :=
  lane (form2 false d a b) false (b2 mulhiI) s

/-- R78: `mulhi.n64`. -/
def execMulhiN64 (d : BitVec 6) (a b : Src) (s : State) : Out :=
  lane (form2 false d a b) false (b2 mulhiN) s

/-- R78: `mul.i32`. -/
def execMulI32 (d : BitVec 6) (a b : Src) (s : State) : Out :=
  lane (form2 false d a b) false (b2 fun x y => sx32 (lo32 x * lo32 y)) s

/-- R78: `mul.n32`. -/
def execMulN32 (d : BitVec 6) (a b : Src) (s : State) : Out :=
  lane (form2 false d a b) false (b2 fun x y => zx32 (lo32 x * lo32 y)) s

/-- R78: `mulw.i32`. -/
def execMulwI32 (d : BitVec 6) (a b : Src) (s : State) : Out :=
  lane (form2 false d a b) false (b2 fun x y => sx32 (lo32 x) * sx32 (lo32 y)) s

/-- R78: `mulw.n32`. -/
def execMulwN32 (d : BitVec 6) (a b : Src) (s : State) : Out :=
  lane (form2 false d a b) false (b2 fun x y => zx32 (lo32 x) * zx32 (lo32 y)) s

/-- R79: `min.i64`. -/
def execMinI64 (d : BitVec 6) (a b : Src) (s : State) : Out :=
  lane (form2 false d a b) false (b2 minI) s

/-- R79: `max.i64`. -/
def execMaxI64 (d : BitVec 6) (a b : Src) (s : State) : Out :=
  lane (form2 false d a b) false (b2 maxI) s

/-- R79: `min.n64`. -/
def execMinN64 (d : BitVec 6) (a b : Src) (s : State) : Out :=
  lane (form2 false d a b) false (b2 minN) s

/-- R79: `max.n64`. -/
def execMaxN64 (d : BitVec 6) (a b : Src) (s : State) : Out :=
  lane (form2 false d a b) false (b2 maxN) s

/-- R79: `min.i32`. -/
def execMinI32 (d : BitVec 6) (a b : Src) (s : State) : Out :=
  lane (form2 false d a b) false (b2 fun x y => minI (sx32 (lo32 x)) (sx32 (lo32 y))) s

/-- R79: `max.i32`. -/
def execMaxI32 (d : BitVec 6) (a b : Src) (s : State) : Out :=
  lane (form2 false d a b) false (b2 fun x y => maxI (sx32 (lo32 x)) (sx32 (lo32 y))) s

/-- R79: `min.n32`. -/
def execMinN32 (d : BitVec 6) (a b : Src) (s : State) : Out :=
  lane (form2 false d a b) false (b2 fun x y => minN (zx32 (lo32 x)) (zx32 (lo32 y))) s

/-- R79: `max.n32`. -/
def execMaxN32 (d : BitVec 6) (a b : Src) (s : State) : Out :=
  lane (form2 false d a b) false (b2 fun x y => maxN (zx32 (lo32 x)) (zx32 (lo32 y))) s

/-- R80: `and`. -/
def execAnd (d : BitVec 6) (a b : Src) (s : State) : Out :=
  lane (form2 false d a b) false (b2 iAnd) s

/-- R80: `or`. -/
def execOr (d : BitVec 6) (a b : Src) (s : State) : Out :=
  lane (form2 false d a b) false (b2 iOr) s

/-- R80: `xor`. -/
def execXor (d : BitVec 6) (a b : Src) (s : State) : Out :=
  lane (form2 false d a b) false (b2 iXor) s

/-- R80: `andn`. -/
def execAndn (d : BitVec 6) (a b : Src) (s : State) : Out :=
  lane (form2 false d a b) false (b2 iAndn) s

/-- R80: `orn`. -/
def execOrn (d : BitVec 6) (a b : Src) (s : State) : Out :=
  lane (form2 false d a b) false (b2 fun x y => x ||| ~~~y) s

/-- R80: `xnor`. -/
def execXnor (d : BitVec 6) (a b : Src) (s : State) : Out :=
  lane (form2 false d a b) false (b2 fun x y => ~~~(x ^^^ y)) s

/-- R80: `not`. -/
def execNot (d : BitVec 6) (a : Src) (s : State) : Out :=
  lane (form1 false d a) false (b1 fun x => ~~~x) s

/-- R81: `mov`, from a v register or the group's s register. -/
def execMov (d : BitVec 6) (a : Src) (u : Bool) (s : State) : Out :=
  lane { uni := false, flds := [fA u a], dv := .some d } false (b1 fun x => x) s

/-- R82: `shl.n64`. -/
def execShlN64 (d : BitVec 6) (a b : Src) (s : State) : Out :=
  lane (formSh false d a b) false (b2 shl64) s

/-- R82: `shr.n64`. -/
def execShrN64 (d : BitVec 6) (a b : Src) (s : State) : Out :=
  lane (formSh false d a b) false (b2 shr64) s

/-- R82: `shr.i64`. -/
def execShrI64 (d : BitVec 6) (a b : Src) (s : State) : Out :=
  lane (formSh false d a b) false (b2 sar64) s

/-- R82: `rotl.n64`. -/
def execRotlN64 (d : BitVec 6) (a b : Src) (s : State) : Out :=
  lane (formSh false d a b) false (b2 fun x c => x.rotateLeft (c.toNat % 64)) s

/-- R82: `shl.n32`. -/
def execShlN32 (d : BitVec 6) (a b : Src) (s : State) : Out :=
  lane (formSh false d a b) false (b2 fun x c => if 32 ≤ c.toNat then 0 else zx32 (lo32 x <<< c.toNat)) s

/-- R82: `shr.n32`. -/
def execShrN32 (d : BitVec 6) (a b : Src) (s : State) : Out :=
  lane (formSh false d a b) false (b2 fun x c => if 32 ≤ c.toNat then 0 else zx32 (lo32 x >>> c.toNat)) s

/-- R82: `shr.i32`. -/
def execShrI32 (d : BitVec 6) (a b : Src) (s : State) : Out :=
  lane (formSh false d a b) false (b2 fun x c => sx32 ((lo32 x).sshiftRight (min c.toNat 31))) s

/-- R82: `rotl.n32`. -/
def execRotlN32 (d : BitVec 6) (a b : Src) (s : State) : Out :=
  lane (formSh false d a b) false (b2 fun x c => zx32 ((lo32 x).rotateLeft (c.toNat % 32))) s

/-- R83: `popc`. -/
def execPopc (d : BitVec 6) (a : Src) (s : State) : Out :=
  lane (form1 false d a) false (b1 popcount) s

/-- R83: `clz`. -/
def execClz (d : BitVec 6) (a : Src) (s : State) : Out :=
  lane (form1 false d a) false (b1 leadZeros) s

/-- R83: `ctz`. -/
def execCtz (d : BitVec 6) (a : Src) (s : State) : Out :=
  lane (form1 false d a) false (b1 trailZeros) s

/-- R83: `brev`. -/
def execBrev (d : BitVec 6) (a : Src) (s : State) : Out :=
  lane (form1 false d a) false (b1 bitReverse) s

/-- R83: `bswap`. -/
def execBswap (d : BitVec 6) (a : Src) (s : State) : Out :=
  lane (form1 false d a) false (b1 byteReverse) s

/-- R83: `sext.i8`. -/
def execSextI8 (d : BitVec 6) (a : Src) (s : State) : Out :=
  lane (form1 false d a) false (b1 (sx 8)) s

/-- R83: `sext.i16`. -/
def execSextI16 (d : BitVec 6) (a : Src) (s : State) : Out :=
  lane (form1 false d a) false (b1 (sx 16)) s

/-- R83: `sext.i32`. -/
def execSextI32 (d : BitVec 6) (a : Src) (s : State) : Out :=
  lane (form1 false d a) false (b1 (sx 32)) s

/-- R84: `lea`. -/
def execLea (d : BitVec 6) (a b : Src) (k : BitVec 3) (s : State) : Out :=
  lane (form2 false d a b) false (b2 fun x y => x + (y <<< k.toNat)) s

/-- R87: `setp.eq.i64`. -/
def execSetpEqI64 (p : BitVec 3) (a b : Src) (s : State) : Out :=
  lane (formP false p a b) false (bp fun x y => x == y) s

/-- R87: `setp.ne.i64`. -/
def execSetpNeI64 (p : BitVec 3) (a b : Src) (s : State) : Out :=
  lane (formP false p a b) false (bp fun x y => x != y) s

/-- R87: `setp.lt.i64`. -/
def execSetpLtI64 (p : BitVec 3) (a b : Src) (s : State) : Out :=
  lane (formP false p a b) false (bp fun x y => x.slt y) s

/-- R87: `setp.le.i64`. -/
def execSetpLeI64 (p : BitVec 3) (a b : Src) (s : State) : Out :=
  lane (formP false p a b) false (bp fun x y => x.sle y) s

/-- R87: `setp.lt.n64`. -/
def execSetpLtN64 (p : BitVec 3) (a b : Src) (s : State) : Out :=
  lane (formP false p a b) false (bp fun x y => x.ult y) s

/-- R87: `setp.le.n64`. -/
def execSetpLeN64 (p : BitVec 3) (a b : Src) (s : State) : Out :=
  lane (formP false p a b) false (bp fun x y => x.ule y) s

/-- R87: `setp.tst`. -/
def execSetpTst (p : BitVec 3) (a b : Src) (s : State) : Out :=
  lane (formP false p a b) false (bp fun x y => x &&& y != 0) s

/-- R87: `setp.eq.i32`. -/
def execSetpEqI32 (p : BitVec 3) (a b : Src) (s : State) : Out :=
  lane (formP false p a b) false (bp fun x y => lo32 x == lo32 y) s

/-- R87: `setp.ne.i32`. -/
def execSetpNeI32 (p : BitVec 3) (a b : Src) (s : State) : Out :=
  lane (formP false p a b) false (bp fun x y => lo32 x != lo32 y) s

/-- R87: `setp.lt.i32`. -/
def execSetpLtI32 (p : BitVec 3) (a b : Src) (s : State) : Out :=
  lane (formP false p a b) false (bp fun x y => (lo32 x).slt (lo32 y)) s

/-- R87: `setp.le.i32`. -/
def execSetpLeI32 (p : BitVec 3) (a b : Src) (s : State) : Out :=
  lane (formP false p a b) false (bp fun x y => (lo32 x).sle (lo32 y)) s

/-- R87: `setp.lt.n32`. -/
def execSetpLtN32 (p : BitVec 3) (a b : Src) (s : State) : Out :=
  lane (formP false p a b) false (bp fun x y => (lo32 x).ult (lo32 y)) s

/-- R87: `setp.le.n32`. -/
def execSetpLeN32 (p : BitVec 3) (a b : Src) (s : State) : Out :=
  lane (formP false p a b) false (bp fun x y => (lo32 x).ule (lo32 y)) s

/-- R88: `pand`. -/
def execPand (p q r : BitVec 3) (s : State) : Out :=
  lane (formPP false p [q, r]) false (bpp false q r fun x y => x && y) s

/-- R88: `por`. -/
def execPor (p q r : BitVec 3) (s : State) : Out :=
  lane (formPP false p [q, r]) false (bpp false q r fun x y => x || y) s

/-- R88: `pxor`. -/
def execPxor (p q r : BitVec 3) (s : State) : Out :=
  lane (formPP false p [q, r]) false (bpp false q r fun x y => x != y) s

/-- R88: `pandn`. -/
def execPandn (p q r : BitVec 3) (s : State) : Out :=
  lane (formPP false p [q, r]) false (bpp false q r fun x y => x && !y) s

/-- R88: `pnot`. -/
def execPnot (p q : BitVec 3) (s : State) : Out :=
  lane (formPP false p [q]) false (bpp false q q fun x _ => !x) s

/-- R89: `sel`. -/
def execSel (d : BitVec 6) (a b : Src) (k : BitVec 3) (s : State) : Out :=
  lane { form2 false d a b with preds := [k] } false (fun v i s =>
    effV (if (getPQ s s.cur.gk i false k).b then v.getD 0 0 else v.getD 1 0)) s

/-- R85: `add.i64` with an immediate. -/
def execAddI64Imm (d : BitVec 6) (a : Src) (i : BitVec 11) (s : State) : Out :=
  lane (form1 false d a) false (b1 fun x => x + i.signExtend 64) s

/-- R85: `add.i32` with an immediate. -/
def execAddI32Imm (d : BitVec 6) (a : Src) (i : BitVec 11) (s : State) : Out :=
  lane (form1 false d a) false (b1 fun x => sx32 (lo32 x + i.signExtend 32)) s

/-- R85: `add.i32.sat` with an immediate. -/
def execAddI32SatImm (d : BitVec 6) (a : Src) (i : BitVec 11) (s : State) : Out :=
  lane (form1 false d a) false (b1 fun x => satI 32 ((lo32 x).toInt + i.toInt)) s

/-- R85: `add.i64.sat` with an immediate. -/
def execAddI64SatImm (d : BitVec 6) (a : Src) (i : BitVec 11) (s : State) : Out :=
  lane (form1 false d a) false (b1 fun x => satI 64 (x.toInt + i.toInt)) s

/-- R85: `and` with an immediate. -/
def execAndImm (d : BitVec 6) (a : Src) (i : BitVec 11) (s : State) : Out :=
  lane (form1 false d a) false (b1 fun x => x &&& i.signExtend 64) s

/-- R85: `or` with an immediate. -/
def execOrImm (d : BitVec 6) (a : Src) (i : BitVec 11) (s : State) : Out :=
  lane (form1 false d a) false (b1 fun x => x ||| i.signExtend 64) s

/-- R85: `xor` with an immediate. -/
def execXorImm (d : BitVec 6) (a : Src) (i : BitVec 11) (s : State) : Out :=
  lane (form1 false d a) false (b1 fun x => x ^^^ i.signExtend 64) s

/-- R85: `shl.n64` by an immediate. -/
def execShlN64Imm (d : BitVec 6) (a : Src) (i : BitVec 11) (s : State) : Out :=
  lane (form1 false d a) false (b1 fun x => shl64 x (i.setWidth 64)) s

/-- R85: `shr.n64` by an immediate. -/
def execShrN64Imm (d : BitVec 6) (a : Src) (i : BitVec 11) (s : State) : Out :=
  lane (form1 false d a) false (b1 fun x => shr64 x (i.setWidth 64)) s

/-- R85: `shr.i64` by an immediate. -/
def execShrI64Imm (d : BitVec 6) (a : Src) (i : BitVec 11) (s : State) : Out :=
  lane (form1 false d a) false (b1 fun x => sar64 x (i.setWidth 64)) s

/-- R85: `mul.i64` with an immediate. -/
def execMulI64Imm (d : BitVec 6) (a : Src) (i : BitVec 11) (s : State) : Out :=
  lane (form1 false d a) false (b1 fun x => x * i.signExtend 64) s

/-- R86: `movc`. -/
def execMovc (d : BitVec 6) (i : BitVec 24) (s : State) : Out :=
  lane { uni := false, flds := [], dv := .some d } false (fun _ _ _ => effV (i.signExtend 64)) s

/-- R86: `movc.m`. -/
def execMovcM (d : BitVec 6) (i : BitVec 24) (s : State) : Out :=
  lane { uni := false, flds := [fD false d], dv := .some d } false (b1 fun x => movcMid x i) s

/-- R86: `movc.h`. -/
def execMovcH (d : BitVec 6) (i : BitVec 16) (s : State) : Out :=
  lane { uni := false, flds := [fD false d], dv := .some d } false (b1 fun x => movcHigh x i) s

/-- R90: `rdsr`. -/
def execRdsr (d : BitVec 6) (r : BitVec 3) (s : State) : Out :=
  lane { uni := false, flds := [], dv := .some d } false (fun _ i s => effV (specialReg s s.cur.gk i r)) s

end Sys2Proof.Machine
end

