-- ==== Sys2Proof/Machine/CrossLane.lean ====
section
/-! DEFINITION. The cross-lane instructions of majors 0x1A and 0x1B (R91 to R96, R70, R71). -/

namespace Sys2Proof.Machine

/-- What a participating thread has read: its number, its source values, whether its first source is poisoned. -/
structure Part1 where
  tid : Nat
  vals : List Word
  psn : Bool
  deriving DecidableEq, Repr

/-- Each thread of the domain: it is guarded off (`none`), it waits for its guard, or what reading its sources comes to. -/
def crossRead (F : Form) (s : State) (tid : Nat) : Nat × Option Got :=
  let gk := s.cur.gk
  match guardVal s gk tid false with
  | .no => (tid, .none)
  | .wait p => (tid, .some (.waitP p))
  | .yes => (tid, .some (readSources s gk tid s.cur.pc F))

/-- A thread of a cross-lane instruction that cannot read yet waits where it has arrived, and has not issued (R95, R213, R221). -/
def crossWait (gk : Nat) (s : State) (r : Nat × Option Got) : State :=
  match r.2 with
  | .some (.wait u q) => waitThere gk r.1 u q s
  | .some (.waitP p) => waitThereP gk r.1 p s
  | .some (.trap _) => s
  | .some (.ok _ _) => s
  | .none => s

def crossTrap (s : State) (r : Nat × Option Got) : State :=
  match r.2 with
  | .some (.trap t) => if (getThr s (threadKey s.cur.gk r.1)).st = .exited then s else trapThread r.1 t s
  | .some (.wait _ _) => s
  | .some (.waitP _) => s
  | .some (.ok _ _) => s
  | .none => s

def crossPart (r : Nat × Option Got) : Option Part1 :=
  match r.2 with
  | .some (.ok vals psn) => .some ⟨r.1, vals, psn⟩
  | .some (.wait _ _) => .none
  | .some (.waitP _) => .none
  | .some (.trap _) => .none
  | .none => .none

def isTrapGot (r : Nat × Option Got) : Bool :=
  match r.2 with
  | .some (.trap _) => true | .some (.wait _ _) => false | .some (.waitP _) => false | .some (.ok _ _) => false | .none => false
def isWaitGot (r : Nat × Option Got) : Bool :=
  match r.2 with
  | .some (.trap _) => false | .some (.wait _ _) => true | .some (.waitP _) => true | .some (.ok _ _) => false | .none => false

/-- A cross-lane instruction: convergence, then every thread's reading; a thread that traps stops alone and nothing commits; else `k`
acts on what all of them read (R91, R95). -/
def crossWith (F : Form) (k : List Part1 → State → State) (s : State) : Out :=
  if overLimit s s.cur.gk F then .next (illegalLane s)
  else converge (fun s =>
    let rs := (domain s s.cur.gk).map (crossRead F s)
    if rs.any isTrapGot then rs.foldl crossTrap s
    else if rs.any isWaitGot then rs.foldl (crossWait s.cur.gk) (unageAll s)
    else k (rs.filterMap crossPart) s) s

/-- A cross-lane instruction that acts at once: `res` gives each participant's result from what all of them read. -/
def cross (F : Form) (res : State → List Part1 → Part1 → Option Word × Bool × Option Bool) (fl : List Part1 → Flags)
    (s : State) : Out :=
  crossWith F (fun ps s =>
    let gk := s.cur.gk
    let effs := ps.map fun p => (p.tid, res s ps p)
    let s := effs.foldl (fun s e => commit gk e.1 F e.2.2.1 e.2.1 e.2.2.2 0 s) s
    passGroup gk s.cur.npc (orFpx gk (fl ps) s)) s

/-! ## Shuffles (R92, R93) -/

/-- The source lane and the element of a shuffle; none where the lane is below zero. -/
def shuffle (minor : Nat) (s : State) (ps : List Part1) (p : Part1) : Option Word × Bool × Option Bool :=
  let sel := p.vals.getD 1 0
  let lane := bits sel 5 0
  let sz := 64 / 2 ^ bits sel 9 8
  let j := bits sel 12 10 % (64 / sz)
  let t := p.tid
  let L : Int := match minor with
    | 0 => lane
    | 1 => (t : Int) - lane
    | 2 => (t : Int) + lane
    | _ => ((BitVec.ofNat 6 t ^^^ BitVec.ofNat 6 lane).toNat : Int)
  let src := if 0 ≤ L ∧ L < widthOf s s.cur.gk then (ps.find? fun q => (q.tid : Int) == L).getD p else p
  (.some (word (elem sz j (src.vals.getD 0 0))), src.psn, .none)

/-- The data of a shuffle is read with its poison (R93): the selector traps, so the poison of the reading is the data's. -/
def shflBy (minor : Nat) (d : BitVec 6) (a b : Src) (s : State) : Out := cross (formSh false d a b) (shuffle minor) (fun _ => 0) s

/-- R92: `shfl.idx`. -/
def execShflIdx (d : BitVec 6) (a b : Src) (s : State) : Out := shflBy 0 d a b s
/-- R92: `shfl.up`. -/
def execShflUp (d : BitVec 6) (a b : Src) (s : State) : Out := shflBy 1 d a b s
/-- R92: `shfl.down`. -/
def execShflDown (d : BitVec 6) (a b : Src) (s : State) : Out := shflBy 2 d a b s
/-- R92: `shfl.xor`. -/
def execShflXor (d : BitVec 6) (a b : Src) (s : State) : Out := shflBy 3 d a b s

/-! ## Predicate forms (R94) -/

def predTrue (s : State) (p : BitVec 3) (q : Part1) : Bool := (getP s (threadKey s.cur.gk q.tid) p).b

/-- R94: `ballot`. -/
def execBallot (d : BitVec 6) (p : BitVec 3) (s : State) : Out :=
  cross { uni := false, flds := [], preds := [p], dv := .some d }
    (fun s ps _ => (.some (word ((ps.filter (predTrue s p)).foldl (fun n q => n + 2 ^ q.tid) 0)), false, .none)) (fun _ => 0) s

/-- R94: `vote.any`. -/
def execVoteAny (p q : BitVec 3) (s : State) : Out :=
  cross (formPP false p [q]) (fun s ps _ => (.none, false, .some (ps.any (predTrue s q)))) (fun _ => 0) s

/-- R94: `vote.all`. -/
def execVoteAll (p q : BitVec 3) (s : State) : Out :=
  cross (formPP false p [q]) (fun s ps _ => (.none, false, .some (ps.all (predTrue s q)))) (fun _ => 0) s

/-! ## Reductions (R70, R71, R96) -/

/-- One level of the tree: adjacent pairs. -/
def pairUp {α : Type} (op : α → α → α) : List α → List α
  | x :: y :: r => op x y :: pairUp op r
  | r => r

/-- The tree of R70: as many levels as the fuel says, until one value is left. -/
def tree {α : Type} (op : α → α → α) : Nat → List α → List α
  | 0, xs => xs
  | n + 1, xs => tree op n (pairUp op xs)

/-- A node with the flags of everything below it; none: poisoned. A node that reads a poisoned value raises, if `fp`, the flags of a
signalling NaN, and is poisoned (R43). -/
def flagged (fp : Bool) (op : Word → Word → Word × Flags) (x y : Option Word × Flags) : Option Word × Flags :=
  match x.1, y.1 with
  | .some a, .some b => (.some (op a b).1, (op a b).2 ||| x.2 ||| y.2)
  | _, _ => (.none, (if fp then flNV else 0) ||| x.2 ||| y.2)

/-- The reduction of R70 over w threads: a thread that does not participate contributes the identity. -/
def reduce (w : Nat) (ident : Word) (fp : Bool) (op : Word → Word → Word × Flags) (ps : List Part1) : Option Word × Flags :=
  let leaf (i : Nat) : Option Word × Flags :=
    (match ps.find? fun q => q.tid == i with | .some q => if q.psn then .none else .some (q.vals.getD 0 0) | .none => .some ident, 0)
  ((tree (flagged fp op) 6 ((List.range w).map leaf)).headD (.some ident, 0))

/-- A reduction: the root's value, the flags of every node (R62, R96). -/
def red (d : BitVec 6) (a : Src) (ident : Word) (op : Word → Word → Word × Flags) (fp : Bool) (s : State) : Out :=
  let r (ps : List Part1) := reduce (widthOf s s.cur.gk) ident fp op ps
  cross (form1 false d a) (fun _ ps _ => (.some ((r ps).1.getD 0), (r ps).1.isNone, .none)) (fun ps => (r ps).2) s

def noFlags (f : Word → Word → Word) : Word → Word → Word × Flags := fun x y => (f x y, 0)

/-- R96: `red.add.i64`. -/
def execRedAddI64 (d : BitVec 6) (a : Src) (s : State) : Out := red d a 0 (noFlags iAdd) false s
/-- R96: `red.min.i64`. -/
def execRedMinI64 (d : BitVec 6) (a : Src) (s : State) : Out := red d a 0x7FFFFFFFFFFFFFFF (noFlags minI) false s
/-- R96: `red.max.i64`. -/
def execRedMaxI64 (d : BitVec 6) (a : Src) (s : State) : Out := red d a 0x8000000000000000 (noFlags maxI) false s
/-- R96: `red.add.d`. -/
def execRedAddD (d : BitVec 6) (a : Src) (s : State) : Out :=
  red d a 0x8000000000000000 (lift2 fp64 fun F => opAdd F fm0) true s
/-- R96, R106: `red.min.d`. -/
def execRedMinD (d : BitVec 6) (a : Src) (s : State) : Out :=
  red d a 0x7FF0000000000000 (lift2 fp64 fun F => opMinMax F false false) true s
/-- R96, R106: `red.max.d`. -/
def execRedMaxD (d : BitVec 6) (a : Src) (s : State) : Out :=
  red d a 0xFFF0000000000000 (lift2 fp64 fun F => opMinMax F true false) true s
/-- R96: `red.add.f`, two trees. -/
def execRedAddF (d : BitVec 6) (a : Src) (s : State) : Out :=
  red d a 0x8000000080000000 (lift2 fp32 fun F => opAdd F fm0) true s

end Sys2Proof.Machine
end

