-- ==== Sys2Proof/Machine/Convert.lean ====
section
/-! DEFINITION. Conversion (R114 to R118), with the E4 encoding (R53, R54), conversion to integers (R61), format slots (R55 to R57)
and the running maxima (R64 to R66). -/

namespace Sys2Proof.Machine

/-! ## Format slots (R55, R56) -/

/-- The kind field of a slot. -/
def slotKind (x : Word) : Nat := bits x 2 0
/-- The signed scale S of a slot. -/
def slotScale (x : Word) : Int := ((x >>> 3).setWidth 7).toInt
/-- Entry `c` of a grid's codebook of a slot. -/
def codeEntry (g : Grid) (slot c : Nat) : Nat := (tget 0 (slot * 16 + c) g.cbook).toNat
def codebook (g : Grid) (slot : Nat) : List Num := (List.range 16).map fun c => numOf bf16 (codeEntry g slot c)

/-! ## Kinds (R114, R115) -/

def kindNum : Kind → Nat
  | .d => 0 | .f => 1 | .hf => 2 | .bf => 3 | .e4 => 4 | .i32 => 8 | .n32 => 9 | .i64 => 10 | .n64 => 11
def isIntKind : Kind → Bool
  | .d => false | .f => false | .hf => false | .bf => false | .e4 => false | .i32 => true | .n32 => true | .i64 => true | .n64 => true
def kindWidth : Kind → Nat
  | .d => 64 | .f => 32 | .hf => 16 | .bf => 16 | .e4 => 4 | .i32 => 32 | .n32 => 32 | .i64 => 64 | .n64 => 64
def kindCount (k : Kind) : Nat := if isIntKind k then 1 else 64 / kindWidth k
/-- The format in which a floating or E4 source is read. -/
def kindFmt : Kind → Fmt
  | .d => fp64 | .f => fp32 | .hf => fp16 | .bf => bf16 | .e4 => bf16 | .i32 => fp64 | .n32 => fp64 | .i64 => fp64 | .n64 => fp64

/-- The bare value of element bits `e` (R53, R116). -/
def bareValue (book : List Num) (k : Kind) (e : Nat) : Num :=
  match k with
  | .d => numOf fp64 e
  | .f => numOf fp32 e
  | .hf => numOf fp16 e
  | .bf => numOf bf16 e
  | .e4 => book.getD e (.fin false 0 0)
  | .i32 => .fin (decide (2 ^ 31 ≤ e)) (BitVec.ofNat 32 e).toInt.natAbs 0
  | .n32 => .fin false e 0
  | .i64 => .fin (decide (2 ^ 63 ≤ e)) (BitVec.ofNat 64 e).toInt.natAbs 0
  | .n64 => .fin false e 0

/-! ## Into E4 (R54) -/

/-- |x − y| as a number in units of 2^e. -/
def distAt (e : Int) (x y : Num) : Nat := (sumAt e [x] - sumAt e [y]).natAbs

/-- The lowest code that satisfies `p`. -/
def lowest (book : List Num) (p : Num → Bool) : Option Nat := (List.range 16).find? fun c => p (book.getD c (.nan false))

def isFin : Num → Bool | .fin _ _ _ => true | .nan _ => false | .inf _ => false

/-- The lowest finite code that `better` prefers to every other, zeros of both signs being equal (R54, R116). DESIGN CHOICE: log entry 52. -/
def bestFin (book : List Num) (better : Num → Num → Bool) : Option Nat :=
  (List.range 16).foldl (fun b c =>
    let x := book.getD c (.nan false)
    if isFin x then
      match b with
      | .none => .some c
      | .some k => if better x (book.getD k (.nan false)) then .some c else b
    else b) .none

/-- Numeric `<` (zeros equal). -/
def numLt (x y : Num) : Bool := totalLt x y && !(isZero x && isZero y)

/-- The code and the flags of R54, step 3, for the source x and the quotient v. -/
def toE4 (book : List Num) (x v : Num) : Nat × Flags :=
  match x with
  | .nan _ => ((lowest book isNan).getD 0, flNV)
  | .inf n =>
    if book.all isNan then (0, flNV)
    else match lowest book (fun b => b == .inf n) with
      | .some c => (c, 0)
      | .none => match bestFin book (fun a b => if n then numLt a b else numLt b a) with
        | .some c => (c, flNX)
        | .none => ((lowest book isInf).getD 0, flNX)
  | .fin n _ _ =>
    if book.all isNan then (0, flNV)
    else
      let e := minExp (match v with | .fin _ _ f => f | _ => 0) book
      match bestFin book (fun a b => decide (distAt e a v < distAt e b v)) with
      | .some c => (c, if distAt e (book.getD c (.nan false)) v = 0 then 0 else flNX)
      | .none => match lowest book (fun b => b == .inf n) with
        | .some c => (c, flNX)
        | .none => ((lowest book isInf).getD 0, flNX)

/-! ## Into an integer (R61) -/

def intRange : Kind → Int × Int
  | .i32 => (-(2 ^ 31 : Nat), (2 ^ 31 : Nat) - 1)
  | .n32 => (0, (2 ^ 32 : Nat) - 1)
  | .i64 => (-(2 ^ 63 : Nat), (2 ^ 63 : Nat) - 1)
  | _ => (0, (2 ^ 64 : Nat) - 1)

def toInteger (k : Kind) (r : Rnd) (x : Num) : Int × Flags :=
  let (lo, hi) := intRange k
  match x with
  | .nan _ => (0, flNV)
  | .inf n => (if n then lo else hi, flNV)
  | .fin n m e =>
    let (y, exact) := toInt r n m e
    let v : Int := if n then -(y : Int) else y
    if v < lo then (lo, flNV) else if hi < v then (hi, flNV) else (v, if exact then 0 else flNX)

/-! ## One element, one register (R115, R116) -/

/-- The scaling of R116: 2^S where the source has the slot's kind, 2^−S where the destination has it. -/
def cvtScale (m : CvtMod) (slot : Word) (x : Num) : Num :=
  let x := if kindNum m.sk = slotKind slot then nScale (slotScale slot) x else x
  if kindNum m.dk = slotKind slot then nScale (-slotScale slot) x else x

/-- `ConvertOne` (R116) but for AMAX: the element's bits (an integer already extended to 64 bits) and the flags. -/
def convertOne (m : CvtMod) (slot : Word) (book : List Num) (e : Nat) : Nat × Flags :=
  let x := flush (kindFmt m.sk) (m.ftz && !isIntKind m.sk) (bareValue book m.sk e)
  let fl : Flags := if isSnan x then flNV else 0
  let v := cvtScale m slot x
  let flt (F : Fmt) : Nat × Flags :=
    let (y, f) := nRound F m.rnd m.ftz v
    (if m.satf && y % 2 ^ (F.eb + F.mb) == fInf F false then fMax F (nSign v) else y, f ||| fl)
  match m.dk with
  | .d => flt fp64
  | .f => flt fp32
  | .hf => flt fp16
  | .bf => flt bf16
  | .e4 => toE4 book x v
  | .i32 => let (y, f) := toInteger .i32 m.rnd v; ((wordI y).toNat, f)
  | .n32 => let (y, f) := toInteger .n32 m.rnd v; ((wordI y).toNat, f)
  | .i64 => let (y, f) := toInteger .i64 m.rnd v; ((wordI y).toNat, f)
  | .n64 => let (y, f) := toInteger .n64 m.rnd v; ((wordI y).toNat, f)

/-- N of R115, and whether the conversion merges into vd. -/
def cvtN (m : CvtMod) : Nat := min (kindCount m.sk) (kindCount m.dk)
def cvtMerges (m : CvtMod) : Bool := decide (kindCount m.sk < kindCount m.dk)

/-- The source elements that one `cvt` reads. -/
def cvtSources (m : CvtMod) (a : Word) : List Nat :=
  (List.range (cvtN m)).map fun i =>
    elem (kindWidth m.sk) (if cvtN m < kindCount m.sk then m.part.toNat * cvtN m + i else i) a

/-- A whole conversion (R115): the result register, given what vd held. -/
def cvtReg (m : CvtMod) (slot : Word) (book : List Num) (a old : Word) : Word × Flags :=
  let rs := (cvtSources m a).map (convertOne m slot book)
  let fl := rs.foldl (fun x r => x ||| r.2) 0
  if isIntKind m.dk then (word ((rs.map Prod.fst).headD 0), fl)
  else
    let w := kindWidth m.dk
    let lo := if cvtN m < kindCount m.dk then m.part.toNat * cvtN m else 0
    (word (packElems w ((List.range (kindCount m.dk)).map fun i =>
      if lo ≤ i ∧ i < lo + cvtN m then (rs.map Prod.fst).getD (i - lo) 0 else elem w i old)), fl)

/-! ## AMAX (R64 to R66) -/

/-- Whether a conversion narrows (R116). -/
def narrows (m : CvtMod) : Bool := decide (kindWidth m.dk < kindWidth m.sk)

/-- AMAX after one input of value x (R65). -/
def amaxNote (x : Num) (a : Word) : Word :=
  match x with
  | .nan _ => a ||| 0x8000000000000000
  | .inf _ => word (max (bits a 62 0) (fInf fp64 false) + bitN (bitAt a 63) 63)
  | .fin _ _ _ => word (max (bits a 62 0) (nRound fp64 .rup false (nAbs x)).1 + bitN (bitAt a 63) 63)

def noteAmax (gk k : Nat) (xs : List Num) (s : State) : State :=
  let g := getGrp s gk
  setGrp gk { g with amax := tset 0 k (xs.foldl (fun a x => amaxNote x a) (tget 0 k g.amax)) g.amax } s

/-- The operand form of `cvt`: vd is read where the conversion merges (R115). -/
def formCvt (d : BitVec 6) (a : Src) (m : CvtMod) : Form :=
  { uni := false, flds := if cvtMerges m then [fA false a, fD false d] else [fA false a], dv := .some d }

/-- The AMAX update of one thread, when its conversion executes (R66). -/
def cvtNote (d : BitVec 6) (a : Src) (m : CvtMod) (s : State) (tid : Nat) : State :=
  let gk := s.cur.gk
  match guardVal s gk tid false, readSources s gk tid s.cur.pc (formCvt d a m) with
  | .yes, .ok vals _ =>
    let g := getGrid s (gridOfG gk)
    let psn := (readCell (getR s gk tid false a.r)).2
    noteAmax gk m.slot.toNat
      (if psn then [.nan false]
       else (cvtSources m (vals.getD 0 0)).map (bareValue (codebook g m.slot.toNat) m.sk)) s
  | _, _ => s

/-- R114 to R118: `cvt`. A conversion from or to E4 whose slot has another kind takes ILLEGAL (R118). -/
def execCvt (d : BitVec 6) (a : Src) (m : CvtMod) (s : State) : Out :=
  let gk := s.cur.gk
  let g := getGrid s (gridOfG gk)
  let slot := tget 0 m.slot.toNat g.lr.fslots
  if (m.sk = .e4 ∨ m.dk = .e4) ∧ slotKind slot ≠ kindNum .e4 then .next (illegalLane s)
  else if overLimit s gk (formCvt d a m) then .next (illegalLane s)
  else .next (perThread (fun s i =>
    laneThread (formCvt d a m) true
      (fun v _ _ => let r := cvtReg m slot (codebook g m.slot.toNat) (v.getD 0 0) (v.getD 1 0); effV r.1 r.2)
      (if narrows m then cvtNote d a m s i else s) i) s)

end Sys2Proof.Machine
end

