-- ==== Sys2Proof/Machine/Xlat.lean ====
section
/-! DEFINITION. Physical memory (R228), and translation: page tables (R283 to R287), cached translations (R288), fault records
(R289), the malformed leaves of R286, R292, R307, R348 and R389, and the connection matrix (R276). -/

namespace Sys2Proof.Machine

/-! ## Leaves -/

/-- Whether placement and range agree (R307, R348, R389). -/
def placeOk (s : State) (pa place : Nat) (enc : Bool) : Bool :=
  if isPeer pa then
    decide (place = 0) && !enc && decide (peerOff pa < hostBase)
      && !(bitAt s.rg.ualinkId 15 && decide (peerOf pa = bits s.rg.ualinkId 9 0))
  else if isHost pa then decide (place = 0) && !enc
  else if pa < 4 * isplitBytes s then decide (place = 0)
  else decide (place = 4 + homeDie s pa)

/-- Descriptor r of the region table (R292). -/
def regionAt (s : State) (r : Nat) : Nat := s.rg.regionBase.toNat + 256 * r
def regionPages (s : State) (r : Nat) : Nat := rdN s (regionAt s r + 16) 4

/-- The page index of a virtual address in a region, by the mapping of its ASID, as the Bindery last read the mappings (R292,
R293). -/
def pageIndex (s : State) (r asid va : Nat) : Option Nat :=
  match tget .none r s.bd.maps with
  | .none => .none
  | .some ms =>
    match ms.find? fun m => m.asid == asid && decide (m.va ≤ va ∧ va < m.va + 65536 * regionPages s r) with
    | .some m => .some ((va - m.va) / 65536)
    | .none => .none

def kindOfCode : Nat → PKind | 0 => .rc | 1 => .so | _ => .uo

/-- The reserved bits of a leaf (R285). -/
def leafReserved (e : Nat) : Bool :=
  nb e 83 80 != 0 || nb e 67 63 != 0 || nb e 56 52 != 0 || nb e 15 12 != 0 || nb e 6 5 != 0

/-- What a walk comes to: a leaf, an entry that is not present, a refusal with a cause of R361. -/
inductive Walk
  | leaf (l : Leaf)
  | absent
  | bad (cause : Nat)
  deriving DecidableEq, Repr

/-- A present leaf entry `e` at `pe`, found at the level whose page has 2^lg bytes (R285, R286, R307). -/
def leafOf (s : State) (asid va pe e lg : Nat) : Walk :=
  let size := nb e 9 8
  let pa := nb e 51 16 * 65536
  let place := nb e 62 60
  let enc := nb e 57 57 = 1
  let region := nb e 79 68
  if leafReserved e || nb e 59 58 == 3 || size == 3 || (place != 0 && decide (place < 4))
      || lg != [16, 21, 30].getD size 0 || pa % 2 ^ lg != 0 || (nb e 95 84 != 0 && !enc)
      || (region != 0 && size != 0) || !placeOk s pa place enc
      || (region != 0 && (rdN s (regionAt s region + 13) 1 % 2 == 0 || (pageIndex s region asid va).isNone)) then .bad 2
  else
    let off := va % 2 ^ lg / 65536 * 65536
    .leaf { pa := pa + off, r := nb e 1 1 = 1, w := nb e 2 2 = 1, x := nb e 3 3 = 1, user := nb e 4 4 = 1
            kind := kindOfCode (nb e 59 58), region := region, edition := nb e 127 96, key := nb e 95 84, enc := enc
            place := place, at_ := pe, size := size }

/-! ## The connection matrix (R276) -/

/-- Whether a block names a requester port of a die. DEDUCED: log entry 22. -/
def namesPort (b : VBlock) (die k : Nat) : Bool :=
  if k < 240 then b.cores.getLsbD (240 * die + k)
  else if k < 248 then bitAt b.reqmask (8 * die + k - 240)
  else if k = 248 then bitAt b.reqmask 32
  else if k < 253 then bitAt b.reqmask (33 + 4 * die + k - 249)
  else false

/-- A row: the slices of die `e` that port `k` of die `die` may reach. -/
def connRow (s : State) (die k e : Nat) : BitVec 48 :=
  s.vs.vb.foldl (fun m p => match p.2 with
    | .some b => if namesPort b die k then m ||| b.slices.getD e 0 else m
    | .none => m) 0

/-- A requester acting for a virtual device may reach only slices of the device's masks (R276, R310). -/
def sliceOk (s : State) (vdev pa : Nat) : Bool :=
  let b := (tget .none vdev s.vs.vb).getD {}
  (b.slices.getD (homeDie s pa) 0).getLsbD (sliceOf pa)

/-! ## Walks (R283, R284) -/

/-- A walk from a table on, over the levels left: the bit at which each level's index begins, its width, and whether the tables
below have 8 KiB (R283, R286); the walker acts under the slice masks of the context's device, or, for the system, without limit (R276). -/
def walkFrom (s : State) (sys : Bool) (asid va : Nat) : Nat → List (Nat × Nat × Nat) → Walk
  | _, [] => .bad 2
  | tab, (lg, w, align) :: rest =>
    let pe := tab + 16 * nb va (lg + w - 1) lg
    if !sys && isHbm pe && decide (asid < 1088) && !sliceOk s (vdevOf s asid) pe then .bad 3
    else if pbad s pe 16 then .bad 6
    else
      let e := rdN s pe 16
      if e % 2 = 0 then .absent
      else if nb e 7 7 = 1 then (if lg ≤ 30 then leafOf s asid va pe e lg else .bad 2)
      else if rest.isEmpty || nb e 6 1 != 0 || nb e 8 8 != 0 || nb e 127 52 != 0 || nb e 51 9 * 512 % align != 0 then .bad 2
      else walkFrom s sys asid va (nb e 51 9 * 512) rest

/-- The levels of R283: L4, L3, L2, L1, L0. -/
def levels : List (Nat × Nat × Nat) := [(48, 9, 8192), (39, 9, 8192), (30, 9, 8192), (21, 9, 512), (16, 5, 1)]

/-- A walk (R283, R284), for the context's own device or for the system. -/
def walkOf (s : State) (sys : Bool) (asid va : Nat) : Walk :=
  let pe := s.rg.asBase.toNat + 16 * asid
  let e := rdN s pe 16
  if pbad s pe 16 then .bad 6
  else if e % 2 = 0 then .bad 7
  else if nb e 12 1 != 0 || nb e 127 52 != 0 then .bad 2
  else walkFrom s sys asid (va % 2 ^ 57) (nb e 51 13 * 8192) levels
/-- A walk for the context's own device. -/
def walk (s : State) (asid va : Nat) : Walk := walkOf s false asid va

/-- The walker sets a bit of byte 1 of an entry in memory (R287): accessed 4, dirty 8. -/
def setEntryBit (pe b : Nat) (s : State) : State :=
  let x := (tget 0 (pe + 1) s.mm.mem).toNat
  if x / b % 2 = 1 then s else { s with mm := { s.mm with mem := tset 0 (pe + 1) (BitVec.ofNat 8 (x + b)) s.mm.mem } }

/-- Whether a record for a page is pending (R289). -/
def pendingRec (s : State) (asid page : Nat) : Bool :=
  s.bd.frecs.any fun r => r.asid == asid && r.page == page && r.cause == 1

/-- Under which number translations stand that no core made: those of table reads, of claims and of the walker's own steps. -/
def agentCore : Nat := 960

/-- Who asks for a translation: the core whose translations it uses, its address space, its virtual device, and its own requester port
where that is not a core's, as die·256 + port (R276, R288); the page that has been denied to it (R290). -/
structure Asker where
  core : Nat := agentCore
  asid : Nat
  vdev : Nat
  port : Option Nat := .none
  deny : Option Nat := .none
  deriving DecidableEq, Repr

/-- Translation of one page for a core: a cached one (R288), else, unless a record for the page is pending (R289), a walk, which sets
accessed and is cached. The walkers stand on the interposer (R276, R288): no path between dies is in their way. -/
def lookup (core asid va : Nat) (s : State) : Walk × State :=
  let page := va % 2 ^ 57 / 65536
  match s.mm.xlat.find? fun e => e.core == core && e.asid == asid && e.page == page with
  | .some e => (.leaf e.leaf, s)
  | .none =>
    if pendingRec s asid page then (.absent, s)
    else match walk s asid va with
      | .leaf l =>
        (.leaf l, setEntryBit l.at_ 4 { s with mm := { s.mm with xlat := s.mm.xlat ++ [⟨core, asid, page, l⟩] } })
      | .absent => (.absent, s)
      | .bad c => (.bad c, s)

/-! ## Permission -/

inductive Acc | r | w | x
  deriving DecidableEq, Repr

/-- Whether an asker may reach every granule of a range of HBM: slices of its device's masks (R276, R310), and of its own port's row. -/
def rangeOk (s : State) (q : Asker) (pa n : Nat) : Bool :=
  (List.range ((pa + n - 1) / 4096 + 1 - pa / 4096)).all fun i =>
    let a := if i = 0 then pa else (pa / 4096 + i) * 4096
    sliceOk s q.vdev a && match q.port with
      | .some p => (connRow s (p / 256) (p % 256) (homeDie s a)).getLsbD (sliceOf a)
      | .none => true

/-- The cause for which an access of `n` bytes through a leaf is refused, if any: permission (R286), a key index without a key (R396), an
unreachable peer (R349), the connection matrix (R276). -/
def refuse (s : State) (l : Leaf) (a : Acc) (user : Bool) (q : Asker) (pa n : Nat) : Option Nat :=
  if !(match a with | .r => l.r | .w => l.w | .x => l.x) || (user && !l.user) then .some 2
  else if l.enc && (tget .none l.key s.hs.keys).isNone then .some 2
  else if isPeer pa then (if peerPorts s (peerOf pa) = 0 then .some 8 else .none)
  else if isHost pa then .none
  else if rangeOk s q pa n then .none else .some 3

/-- Two records are of one page, or of one sub-pool of a region in one queue (R289, R302). -/
def sameRec (q r : FRec) : Bool :=
  q.cause == r.cause && if r.cause = 2 then q.vdev == r.vdev && q.region == r.region && q.pool == r.pool else q.asid == r.asid && q.page == r.page
/-- A pending fault record: an access that meets an absent page joins it (R289). -/
def joinRec (r : FRec) (s : State) : State :=
  if s.bd.frecs.any (sameRec · r) then s
  else { s with bd := { s.bd with frecs := s.bd.frecs ++ [r] } }

/-- What a translated access comes to. -/
inductive Xr
  | ok (pa : Nat) (l : Leaf)
  | cause (c : Nat)
  | absent
  deriving DecidableEq, Repr

/-! ## Encryption (R303, R396) -/

/-- A block as it reads under other key material than it was written under; none: the stored block itself. DEDUCED: log entry 31. -/
def recode (old new : Option (BitVec 512)) (pa : Nat) (b : BitVec 128) : BitVec 128 :=
  let raw := match old with | .some m => Config.blockCipher m pa b | .none => b
  match new with | .some m => (Config.blockCipher m pa).symm raw | .none => raw

/-- A core's bytes of a page reach memory and leave its caches. DEDUCED: log entry 31. -/
def sweepPage (page : Nat) (s : State) : State :=
  let mine (l : Line) : Bool := l.line / 512 == page
  let s := ((s.mm.l1.filter mine) ++ s.mm.comb.filter mine).foldl (fun s l => pwriteMasked (l.line * 128) l.dirty l.data s) s
  { s with mm := { s.mm with l1 := s.mm.l1.filter fun l => !mine l, comb := s.mm.comb.filter fun l => !mine l
                             dir := tdrop (fun k => k / 512 == page) s.mm.dir } }

/-- A page of bytes under other key material. -/
def recodePage (old new : Option (BitVec 512)) (page : Nat) (m : Tab Byte) : Tab Byte :=
  (List.range 4096).foldl (fun (mem : Tab Byte) i =>
    let a := page * 65536 + 16 * i
    let b := natOf ((List.range 16).map fun j => tget 0 (a + j) mem)
    putBytes a (bytesOf 16 (recode old new a (BitVec.ofNat 128 b)).toNat) mem) m

/-- A page is seen under some key material from now on: the same stored bytes, so other bytes where the material differs. DEDUCED: log entry 31. -/
def viewPage (pa : Nat) (m : Option (BitVec 512)) (s : State) : State :=
  let page := pa / 65536
  let old := tget .none page s.mm.wrapped
  if old = m then s
  else
    let s := sweepPage page s
    { s with
      mm := { s.mm with mem := recodePage old m page s.mm.mem, wrapped := tset .none page m s.mm.wrapped }
      grid := tmap {} (fun _ g => { g with code0 := recodePage old m page g.code0 }) s.grid }

/-- The key material of a leaf's page (R303, R396). -/
def materialOf (s : State) (l : Leaf) : Option (BitVec 512) := if l.enc then tget .none l.key s.hs.keys else .none

/-- The translation and the checks of `n` bytes within one page (R122). -/
def xlate (q : Asker) (va n : Nat) (a : Acc) (user : Bool) (s : State) : Xr × State :=
  match lookup q.core q.asid va s with
  | (.leaf l, s) =>
    let pa := l.pa + va % 65536
    match refuse s l a user q pa n with
    | .some c => (.cause c, s)
    | .none => (.ok pa l, if isHbm pa then viewPage pa (materialOf s l) s else s)
  | (.absent, s) => (.absent, s)
  | (.bad c, s) => (.cause c, s)

/-- Drop the cached translations of a range of pages of an address space (R291). -/
def dropXlat (asid lo n : Nat) (s : State) : State :=
  { s with mm := { s.mm with xlat := s.mm.xlat.filter fun e => !(e.asid == asid && decide (lo ≤ e.page ∧ e.page < lo + n)) } }

end Sys2Proof.Machine
end

