-- ==== Sys2Proof/Machine/MemOps.lean ====
section
/-! DEFINITION. The places where an access takes effect (R228 to R236): the stash, the L1 lines and combining buffers of a core, the
coherent memory behind them with the directory's states (R311, R312), the checks of an access (R120 to R123), and the waits that
order the accesses of one thread (R146, R231, R232, R235, R258). -/

namespace Sys2Proof.Machine

/-! ## The stash (R229) -/

def stashRead (s : State) (t off n : Nat) : List Byte :=
  (List.range n).map fun i => tget 0 (off + i) (getTeam s t).stash
def stashBad (s : State) (t off n : Nat) : Bool :=
  (List.range n).any fun i => tget false ((off + i) / 8) (getTeam s t).sbad
/-- Bytes written to a stash with fresh check bits (R364). -/
def stashWrite (t off : Nat) (bs : List Byte) (s : State) : State :=
  let x := getTeam s t
  setTeam t { x with stash := putBytes off bs x.stash, sbad := clearMarks off bs.length x.sbad } s
def stashMark (t off n : Nat) (s : State) : State :=
  let x := getTeam s t
  setTeam t { x with sbad := (List.range ((off + n + 7) / 8 - off / 8)).foldl (fun b i => tset false (off / 8 + i) true b) x.sbad } s

/-- The size of a team's window (R120). -/
def windowOf (s : State) (t : Nat) : Nat := (getGrid s (gridOfT t)).lr.stash

/-! ## Handles (R142, R267, R268) -/

def isEngine (h : HState) : Bool := match h with | .filling => true | .draining => true | .free => false | .full => false
def tilesMeet (a b n m : Nat) : Bool := decide (a < b + m ∧ b < a + n)

/-- The lowest handle in an engine state whose tile holds one of the bytes (R122). DEDUCED: log entry 19. -/
def busyTile (s : State) (t off n : Nat) : Option Nat :=
  ((getTeam s t).handles.find? fun p => match p.2 with
    | .some h => isEngine h.st && tilesMeet off h.off n h.size | .none => false).map Prod.fst

def getHandle (s : State) (t h : Nat) : Option Handle := tget .none h (getTeam s t).handles
def setHandle (t h : Nat) (x : Handle) (s : State) : State :=
  setTeam t { getTeam s t with handles := tset .none h (.some x) (getTeam s t).handles } s

/-- A handle counts as in an engine state when it is, or when its tile meets one that is (R268). -/
def engineHeld (s : State) (t h : Nat) : Bool :=
  match getHandle s t h with | .some x => (busyTile s t x.off x.size).isSome | .none => false

/-- An aperture store or `copen` that names a handle takes HANDLE_BUSY: it counts as in an engine state, or a running `mmas` names it or
a handle that its tile meets (R189, R268). -/
def tileBusy (s : State) (t h : Nat) : Bool :=
  engineHeld s t h || match getHandle s t h with
    | .some x => (getTeam s t).handles.any fun p => match p.2 with
      | .some y => decide (0 < y.mm) && tilesMeet x.off y.off x.size y.size
      | .none => false
    | .none => false

/-! ## Pieces of accesses -/

/-- The line pieces of a range: line, offset in it, length. -/
def linesOf : Nat → Nat → Nat → List (Nat × Nat × Nat)
  | 0, _, _ => []
  | k + 1, pa, n =>
    if n = 0 then [] else
      let m := min n (128 - pa % 128)
      (pa / 128, pa % 128, m) :: linesOf k (pa + m) (n - m)

/-- Whether a byte that a core reads carries an uncorrectable mark: not in a word that is wholly dirty there (R364),
unless it is bad in the L1 itself. -/
def markedFor (s : State) (core a : Nat) : Bool :=
  (findLine core (a / 128) s.mm.l1).any (fun l => l.bad.getLsbD (a % 128 / 8)) || badAt s a && !(List.range 8).all fun i =>
    let b := a / 8 * 8 + i
    (match findLine core (b / 128) s.mm.l1 with | .some l => l.dirty.getLsbD (b % 128) | .none => false)
      || match findLine core (b / 128) s.mm.comb with | .some l => l.dirty.getLsbD (b % 128) | .none => false

/-- A line as the core reads it: its L1's bytes, under the combining buffer's. -/
def coreBytes (s : State) (core line off n : Nat) : List Byte :=
  let d := lineData s core line
  match findLine core line s.mm.comb with
  | .some e => (List.range n).map fun i => if e.dirty.getLsbD (off + i) then e.data.getD (off + i) 0 else d.getD (off + i) 0
  | .none => slice d off n

/-- The line requests of an access that bypasses the L1. -/
def tapLines (ctx core : Nat) (p : Part) (wr : Bool) (s : State) : State :=
  (linesOf (p.len + 1) p.pa p.len).foldl (fun s q => tapLine ctx core q.1 wr false s) s

/-- A launch stores to a page (R210). -/
def noteStore (gk pa : Nat) (s : State) : State :=
  { s with mm := { s.mm with stored := tset false (gridOfG gk * 2 ^ 40 + pa / 65536) true s.mm.stored } }

/-- A read by a core of a piece of memory: bytes, whether a word carries an uncorrectable mark, and the state with the lines it
brought into the L1 (R228, R231). DEDUCED: log entry 9. -/
def readPart (ctx core : Nat) (p : Part) (s : State) : List Byte × Bool × State :=
  if !isHbm p.pa then (pread s p.pa p.len, pbad s p.pa p.len, s)
  else if p.kind == .so then
    let s := performDie core (tapLines ctx core p false s)
    (pread s p.pa p.len, pbad s p.pa p.len, s)
  else
    (linesOf (p.len + 1) p.pa p.len).foldl (fun (acc : List Byte × Bool × State) q =>
      let s := fillLine ctx core q.1 (p.kind == .uo) false acc.2.2
      let bad := (List.range q.2.2).any fun i => markedFor s core (q.1 * 128 + q.2.1 + i)
      (acc.1 ++ coreBytes s core q.1 q.2.1 q.2.2, acc.2.1 || bad, s)) ([], false, s)

/-- A read at the coherent memory, once the core's own bytes of the lines have gone there: of a load whose team has left its core (R223). -/
def readAway (ctx core : Nat) (p : Part) (s : State) : List Byte × Bool × State :=
  let ls := linesOf (p.len + 1) p.pa p.len
  let s := if isHbm p.pa then tapLines ctx core p false (ls.foldl (fun s q => flushLine core q.1 s) (performDie core s)) else s
  (pread s p.pa p.len, pbad s p.pa p.len, s)

/-- A group's team is on its cores (R223). -/
def residentG (s : State) (gk : Nat) : Bool := (getTeam s (teamOfG gk)).st == .resident
/-- Whether the issuer of an operation still has registers. -/
def aliveG (s : State) (gk : Nat) : Bool := (getTeam s (teamOfG gk)).st != .ended
/-- A piece is read on behalf of a group: through its core, or, once its team has left that, at the coherent memory (R223, R232). -/
def readHere (gk : Nat) (p : Part) (s : State) : List Byte × Bool × State :=
  if residentG s gk then readPart (ctxOf s gk) (coreOf s gk) p s else readAway (ctxOf s gk) (coreOf s gk) p s

/-- A write by a core of a piece of local or host memory (R230, R231, R234), after what the core's releases cover. -/
def writePart (ctx core : Nat) (p : Part) (bs : List Byte) (s : State) : State :=
  let s := performDue core s
  if !isHbm p.pa then pwrite p.pa bs s
  else match p.kind with
    | .so => dirLines (dirHome ctx (dieOf core)) p.pa p.len (pwrite p.pa bs (tapLines ctx core p true s))
    | .rc => (linesOf (p.len + 1) p.pa p.len).foldl
        (fun s q => dirtyLine ctx core q.1 q.2.1 (slice bs (q.1 * 128 + q.2.1 - p.pa) q.2.2) false s) s
    | .uo => (linesOf (p.len + 1) p.pa p.len).foldl
        (fun s q => combine ctx core q.1 q.2.1 (slice bs (q.1 * 128 + q.2.1 - p.pa) q.2.2) s) s

/-! ## Engines: accesses at `.dev` (R238) -/

/-- The read requests of an engine of a die (R312): it reads the coherent memory, whatever is dirty in a core. -/
def engineReads (ctx die : Nat) (kind : PKind) (pa n : Nat) (s : State) : State :=
  if kind = .so then s else dirLines (dirRead ctx die) pa n s
/-- An engine's write: a write request of its die, or, on an SO page, performed at the home (R231, R311, R312). -/
def engineWrite (ctx die : Nat) (kind : PKind) (pa : Nat) (bs : List Byte) (s : State) : State :=
  dirLines ((if kind = .so then dirHome else dirWrite) ctx die) pa bs.length (pwrite pa bs s)

/-! ## Checks of an access (R120 to R123) -/

/-- Bits 63 to 57 equal bit 56 (R121). -/
def canonical (va : Word) : Bool := let h := va.toNat / 2 ^ 56; h == 0 || h == 255

def copyAperture : Nat := 0x00FFFFFFFFFF0000
def glossAperture : Nat := 0x00FFFFFFFFF00000
def statusPage : Nat := 0x00FFFFFFFFF40000

/-- Some of `n` bytes lies in the copy aperture, the gloss aperture or the status page (R140, R329, R330). -/
def inAperture (va : Word) (n : Nat) : Bool :=
  decide (glossAperture < va.toNat + n ∧ va.toNat < statusPage + 4096)
    || decide (copyAperture < va.toNat + n ∧ va.toNat < copyAperture + 65536)

/-- A piece of a planned access with its leaf entry (0: none) and its region (0: none). -/
structure Piece where
  part : Part
  at_ : Nat := 0
  region : Nat := 0
  va : Word := 0
  deriving DecidableEq, Repr

/-- What a planned access comes to: a refusal with its cause and address, a wait for a page, or its pieces. -/
inductive Plan
  | fault (cause : Nat) (addr : Word)
  | page (asid page : Nat)
  | ok (ps : List Piece)
  deriving DecidableEq, Repr

/-- The pages of a range (R233): address and length of each piece. -/
def pagePieces (va : Word) (n : Nat) : List (Word × Nat) :=
  let k := 65536 - va.toNat % 65536
  if n ≤ k then [(va, n)] else [(va, k), (va + word k, n - k)]

/-- One piece of the `.g` space: every access right it needs (R122); a page that is denied to the asker counts as absent (R290). DESIGN CHOICE: log entry 17. -/
def planPiece (k : Asker) (user : Bool) (accs : List Acc) (q : Word × Nat) (s : State) : Plan × State :=
  accs.foldl (fun (acc : Plan × State) a =>
    match acc.1 with
    | .ok _ =>
      if k.deny = .some (q.1.toNat % 2 ^ 57 / 65536) then (.page k.asid (q.1.toNat % 2 ^ 57 / 65536), acc.2)
      else match xlate k (q.1.toNat % 2 ^ 57) q.2 a user acc.2 with
      | (.ok pa l, s) => (.ok [⟨⟨pa, q.2, l.kind⟩, l.at_, l.region, q.1⟩], s)
      | (.cause c, s) => (.fault c q.1, s)
      | (.absent, s) => (.page k.asid (q.1.toNat % 2 ^ 57 / 65536), s)
    | .fault c d => (.fault c d, acc.2)
    | .page a p => (.page a p, acc.2)) (.ok [], s)

/-- One piece of the `.h` space: the host's own translation (R120, R389). DESIGN CHOICE: log entry 17. -/
def planHost (s : State) (vdev : Nat) (q : Word × Nat) : Plan :=
  match tget .none (vdev * 2 ^ 41 + q.1.toNat % 2 ^ 57 / 65536) s.mm.hostMap with
  | .some pa => .ok [⟨⟨hostBase + pa + q.1.toNat % 65536, q.2, .rc⟩, 0, 0, q.1⟩]
  | .none => .fault 4 q.1

def joinPlans : List Plan → Plan
  | [] => .ok []
  | .fault c d :: _ => .fault c d
  | .page a p :: r => match joinPlans r with | .fault c d => .fault c d | .page _ _ => .page a p | .ok _ => .page a p
  | .ok ps :: r => match joinPlans r with | .fault c d => .fault c d | .page a p => .page a p | .ok qs => .ok (ps ++ qs)

/-- The checks of R121 and R122 for an access of `n` bytes at `va` (`.s`: a stash offset of a window), all before any effect; an access
that wraps past 2^64 has two canonical ends. DEDUCED: log entry 41. -/
def planFor (k : Asker) (window : Nat) (user : Bool) (sp : Space) (accs : List Acc) (va : Word) (n : Nat) (s : State) : Plan × State :=
  let wr := accs.contains .w
  match sp with
  | .s => if va.toNat + n ≤ window then (.ok [⟨⟨va.toNat, n, .rc⟩, 0, 0, va⟩], s) else (.fault 1 va, s)
  | .h =>
    if !canonical va || !canonical (va + word (n - 1)) then (.fault 1 va, s)
    else (joinPlans ((pagePieces va n).map (planHost s k.vdev)), s)
  | .g =>
    if !canonical va || !canonical (va + word (n - 1)) then (.fault 1 va, s)
    else if glossAperture < va.toNat + n ∧ va.toNat < statusPage + 4096 then
      if !wr && (n == 4 || n == 8) && va.toNat % n == 0 then
        (.ok [⟨⟨2 ^ 52 + (va.toNat - glossAperture), n, .so⟩, 0, 0, va⟩], s)
      else (.fault 1 va, s)
    else if copyAperture < va.toNat + n ∧ va.toNat < copyAperture + 65536 then (.fault 1 va, s)
    else
      let r := (pagePieces va n).foldl (fun (acc : List Plan × State) q =>
        let x := planPiece k user accs q acc.2
        (acc.1 ++ [x.1], x.2)) ([], s)
      (joinPlans r.1, r.2)

/-- A group asks through its core. -/
def askerOf (s : State) (gk : Nat) : Asker := { core := coreOf s gk, asid := ctxOf s gk, vdev := vdevOf s (ctxOf s gk) }

/-- The page whose record FQ_DONE has denied to an issuer (R290). -/
def denyOf (s : State) (gk tid : Nat) (uni : Bool) : Option Nat :=
  (if uni then domain s gk else [tid]).findSome? fun i => match (getThr s (threadKey gk i)).wait with
    | .denied a p => if a = ctxOf s gk then .some p else .none
    | _ => .none

/-- The plan of an access of a group, or of one thread of it. -/
def plan (gk tid : Nat) (uni : Bool) (user : Bool) (sp : Space) (accs : List Acc) (va : Word) (n : Nat) (s : State) : Plan × State :=
  planFor { askerOf s gk with deny := denyOf s gk tid uni } (windowOf s (teamOfG gk)) user sp accs va n s

/-- The trap of a refused access (R361, R362). DEDUCED: log entry 7. -/
def accessFault (pc va : Word) (cause : Nat) (sp : Space) (wr : Bool) : TrapRec :=
  { name := .accessFault, pc := pc, addr := va, info := word cause, wr := wr, space := sp }

/-! ## Order among the accesses of one thread -/

/-- The issuer number of an engine's own operations: ordered with no thread's (R238). -/
def engineTid : Nat := 0xFFFE
/-- Whether two operations of a group are of one thread: either may be the group's own (R146, R232). -/
def sameIssuer (a b : Nat) : Bool := a != engineTid && b != engineTid && (a == b || a == 0xFFFF || b == 0xFFFF)

def partsMeet (ps qs : List Part) : Bool := ps.any fun p => qs.any fun q => tilesMeet p.pa q.pa p.len q.len

/-- The pieces of memory that an operation in flight reads or writes; `st`: they are stash offsets. -/
def opParts (k : OpK) : List Part :=
  match k with
  | .load _ _ _ _ ps _ => ps | .atomic _ _ _ p _ _ _ => [p] | .rstore p _ => [p] | .rload _ _ _ ps _ _ _ => ps
  | .lrec _ _ pa _ _ _ => [⟨pa, 256, .rc⟩] | .crecv _ _ (.some b) => [⟨b.1, b.2, .rc⟩] | _ => []
/-- An operation in flight with its pieces elsewhere (R315). -/
def mapParts (f : Part → Part) (k : OpK) : OpK :=
  match k with
  | .load u st d p ps va => .load u st d p (ps.map f) va
  | .atomic d n m p va x y => .atomic d n m (f p) va x y
  | .lrec q d pa va dep pri => .lrec q d (f ⟨pa, 256, .rc⟩).pa va dep pri
  | .aline t q e ps va sp => .aline t q e (ps.map f) va sp
  | k => k
def opStash (k : OpK) : Bool :=
  match k with
  | .load _ st _ _ _ _ => st | .atomic _ _ m _ _ _ _ => m.space == .s | .crecv _ _ b => b.isSome | _ => false
/-- Whether pieces are ordered by what is not `.sc`: some piece lies on no UO page (R138, R231). -/
def notUo (sc : Bool) (ps : List Part) : Bool := sc || ps.any fun p => p.kind != .uo

def isRecv (k : OpK) : Bool := match k with | .qrecv _ _ _ _ _ => true | .crecv _ _ _ => true | _ => false

/-- What orders the accesses that follow it: an atomic with an acquire order (R135), a receive, whose acquire is its taking of entries or a
message (R137, R160, R237). DEDUCED: log entry 7. -/
def opAcquires (k : OpK) : Bool :=
  match k with
  | .atomic _ _ m p _ _ _ => m.order != .rlx && m.order != .rel && notUo (m.order == .sc) [p]
  | .rload _ _ _ _ _ (.some (_, m, _, _)) _ => m.order != .rlx && m.order != .rel
  | k => isRecv k

/-- The leaf entry in memory, else one that is still cached; `sys`: sought for the system. -/
def knownLeaf (s : State) (sys : Bool) (asid va : Nat) : Option Leaf :=
  match walkOf s sys asid va with
  | .leaf l => .some l
  | .absent => (s.mm.xlat.find? fun e => e.asid == asid && e.page == va % 2 ^ 57 / 65536).map (·.leaf)
  | .bad _ => (s.mm.xlat.find? fun e => e.asid == asid && e.page == va % 2 ^ 57 / 65536).map (·.leaf)
/-- The current copy as the agent knows it. -/
def agentLeaf (s : State) (asid va : Nat) : Option Leaf := knownLeaf s false asid va
/-- The leaf entry of a region's mapping, which the Bindery keeps whatever device it acts for (R298). DEDUCED: log entry 22. -/
def mappedLeaf (s : State) (asid va : Nat) : Option Leaf := knownLeaf s true asid va

/-- The pieces of an access that is on its way to the agents of its pages. -/
def lateParts (s : State) (asid : Nat) (va : Word) (n : Nat) : List Part :=
  (pagePieces va n).filterMap fun q => (agentLeaf s asid (q.1.toNat % 2 ^ 57)).map fun l =>
    ⟨l.pa / 65536 * 65536 + q.1.toNat % 65536, q.2, l.kind⟩
/-- What an operation's requests that are not yet acknowledged ask for. -/
def reqParts (s : State) (o : Op) : List Part :=
  match o.k with
  | .edl _ _ _ _ va n _ _ _ _ => lateParts s (ctxOf s o.gk) va n
  | .bwr _ _ va data _ _ => lateParts s (ctxOf s o.gk) va (max 1 data.length)
  | .bpub _ _ r _ _ _ => [⟨regionAt s r, 12, .rc⟩]
  | .bfloor _ r _ => [⟨regionAt s r, 12, .rc⟩]
  | .aline _ _ _ ps _ _ => ps
  | .copy c => c.sent.toList
  | k => if opStash k then [] else opParts k
/-- A request of the operation is held at its die, its home being out of reach (R319). -/
def heldOp (s : State) (o : Op) : Bool := (reqParts s o).any fun p => !partReach s (coreOf s o.gk) p
/-- Whether a wait is for a request, or for write-backs, so held: a blocking point (R220, R319). -/
def waitsHeld (s : State) (w : Wait) : Bool :=
  match w with
  | .agent id => id == 0 || (findOp s id).any (heldOp s)
  | _ => false

/-- A group waits at its instruction, which has not issued (R213): at a blocking point, or not. -/
def holdGroup (blocking : Bool) (w : Wait) (s : State) : State :=
  if blocking || waitsHeld s w then blockAll w (unageAll s) else holdAll w (unageAll s)

/-- A request that left under an earlier generation of the routes, or of the ports to its peer (R317, R318, R349). -/
def olderGen (s : State) (o : Op) : Bool := o.gen != genOf s o.k
/-- Two addresses lie at one end of a path: in one peer, or homed on one die. -/
def sameEnd (s : State) (a b : Nat) : Bool :=
  if isPeer a || isPeer b then isPeer a && isPeer b && peerOf a == peerOf b else isHbm a && isHbm b && homeDie s a == homeDie s b

/-- An older operation of the same thread that must be performed before this access issues: one that touches the same bytes
(R232), an SO access before an SO access (R231), an atomic with an acquire order (R135), a receive, which an eviction may have
withdrawn, but for a trap handler's access and a receive of the trapped code; and, for an SO access, its die's requests of earlier
generations to where it goes (R318). DEDUCED: log entry 7. -/
def orderWait (s : State) (gk tid : Nat) (stash : Bool) (ps : List Part) : Option Nat :=
  let so := !stash && ps.any (·.kind == .so)
  ((s.mm.ops ++ s.mm.withdrawn).find? fun o => (o.gk == gk && sameIssuer o.tid tid &&
    ((opAcquires o.k && !(isRecv o.k && !o.sys && inSys s gk tid)) || (opStash o.k == stash && partsMeet (opParts o.k) ps)
      || (so && !opStash o.k && (opParts o.k).any (·.kind == .so))))
    || (so && olderGen s o && dieOf (coreOf s o.gk) == dieOf (coreOf s gk)
        && (reqParts s o).any fun p => ps.any fun q => sameEnd s p.pa q.pa)).map (·.id)

/-- An older operation of the same thread in flight that touches the same bytes (R146, R232). -/
def meetWait (s : State) (gk tid : Nat) (stash : Bool) (ps : List Part) : Option Nat :=
  ((s.mm.ops ++ s.mm.withdrawn).find? fun o =>
    o.gk == gk && sameIssuer o.tid tid && opStash o.k == stash && partsMeet (opParts o.k) ps).map (·.id)

/-- An operation that a release of its thread waits for: everything the thread has issued that is not yet performed (R138, R235),
its compositing operations (R258), but for a remote one that its target's core holds for a team that is not resident: it has taken its
place there (R202); remote stores only at `.sys` (R350). DEDUCED: log entry 20. -/
def opReleased (sys sc : Bool) (k : OpK) : Bool :=
  match k with
  | .load _ _ _ _ ps _ => notUo sc ps | .atomic _ _ _ p _ _ _ => notUo sc [p] | .rload _ _ _ ps _ _ _ => notUo sc ps
  | .rstore p _ => sys && notUo sc [p] | .rop _ chan held _ => !(held && chan.isSome) | .drain _ _ _ _ _ _ => true | .lrec _ _ _ _ _ _ => true | _ => false

/-- A core's write-backs that a release would make are held at its die (R319). -/
def heldBack (s : State) (core : Nat) (uo : Bool) : Bool :=
  (s.mm.l1 ++ s.mm.comb).any fun l => l.core == core && l.dirty != 0 && (uo || !l.uo) && !reachable s core (l.line * 128)

/-- What the core's releases cover can be performed: a store may follow (R138, R319). -/
def duePerforms (s : State) (core : Nat) : Bool :=
  s.mm.l1.all fun l => l.core != core || !l.due.getLsbD 0 || l.dirty == 0 || reachable s core (l.line * 128)

/-- What a release of an issuer waits for; no operation has the number 0, which stands for write-backs that are held. -/
def releaseWait (s : State) (gk : Nat) (tid : Option Nat) (sys : Bool) (sc : Bool := false) (wide : Bool := true) : Option Nat :=
  match s.mm.ops.find? fun o => o.gk == gk && opReleased sys sc o.k && sameIssuer o.tid (tid.getD 0xFFFF) with
  | .some o => .some o.id
  | .none => if wide && heldBack s (coreOf s gk) sc then .some 0 else .none

/-- A request that some group of the die has sent under an earlier generation: a fence at `.die` or wider waits for it (R318). -/
def oldRequest (s : State) (die : Nat) : Option Nat :=
  (s.mm.ops.find? fun o => olderGen s o && dieOf (coreOf s o.gk) == die && reqParts s o != []).map (·.id)

/-- An operation that an acquire fence of its group waits for: loads and the reads of atomics (R138). -/
def opAcquired (k : OpK) : Bool :=
  match k with
  | .load _ _ _ _ ps _ => notUo false ps | .atomic _ _ _ p _ _ _ => notUo false [p] | .rload _ _ _ ps _ _ _ => notUo false ps
  | .drain _ _ _ _ _ _ => true | .lrec _ _ _ _ _ _ => true | _ => false
def acquireWait (s : State) (gk : Nat) : Option Nat := (s.mm.ops.find? fun o => o.gk == gk && opAcquired o.k).map (·.id)

/-- Whether a scope is wider than the core for this group (R234): a paired team's `.team` is. -/
def wideScope (s : State) (gk : Nat) (c : Scope) : Bool :=
  match c with
  | .thread => false | .group => false | .core => false | .pair => true | .die => true | .dev => true | .sys => true
  | .team => (getTeam s (teamOfG gk)).pair

/-- A scope of a die or wider. -/
def dieScope (c : Scope) : Bool :=
  match c with
  | .die => true | .dev => true | .sys => true | .thread => false | .group => false | .team => false | .core => false | .pair => false

/-- Before what a release at a scope must be performed that is not performed at once: the bits of the field `due` of a line (R234, R243). -/
def dueBits (s : State) (gk : Nat) (c : Scope) : BitVec 3 :=
  match c with
  | .thread => 0 | .group => 0 | .core => 0 | .pair => 2 | .die => 4 | .dev => 1 | .sys => 1
  | .team => if (getTeam s (teamOfG gk)).pair then 2 else 0

/-- The release side of a fence or event on the core's L1 (R234); `sc`: UO pages and the combining buffer too. -/
def releaseCore (core : Nat) (wide sc : Bool) (s : State) : State :=
  let s := if sc then drainCore core s else s
  if wide then writeBackCore core sc s else s
/-- The release side of a fence or an atomic that need not be performed before the core's later loads (R138, R243): the dirty lines are
covered, to be performed before what the bits say. DEDUCED: log entry 9. -/
def releaseLater (core : Nat) (n : BitVec 3) (sc : Bool) (s : State) : State :=
  let s := if sc then drainCore core s else s
  if n = 0 then s else markDue core sc n s
/-- The release side of a fence or an atomic of a scope: a `.sc` one at `.dev` or `.sys` performs what it covers, any other leaves that for
later (R138, R236, R243). DEDUCED: log entry 9. -/
def releaseScope (gk : Nat) (c : Scope) (sc : Bool) (s : State) : State :=
  if sc && (c == .dev || c == .sys) then releaseCore (coreOf s gk) true true s
  else releaseLater (coreOf s gk) (dueBits s gk c) sc s
/-- The acquire side (R234). -/
def acquireCore (core : Nat) (wide sc : Bool) (s : State) : State := if wide then invalidateCore core sc s else s

/-! ## Request trackers (R214, R215) -/

/-- The lines of pieces. -/
def partLines (ps : List Part) : List Nat := ps.flatMap fun p => (linesOf (p.len + 1) p.pa p.len).map (·.1)
/-- The lines of an access that is not yet translated. -/
def lateLines (va : Word) (n : Nat) : List Nat := (linesOf (n + 1) va.toNat n).map fun l => 2 ^ 61 + l.1

/-- What an operation holds trackers for: line numbers (from 2^60 on: a receive, or a line not yet translated). -/
def opTrackers (o : Op) : List Nat :=
  match o.k with
  | .load _ st _ _ ps _ => if st then [] else partLines ps
  | .atomic _ _ m p _ _ _ => if m.space = .s then [] else partLines [p]
  | .rload _ _ _ ps _ _ _ => partLines ps
  | .drain _ _ _ _ _ _ => [2 ^ 60 + 1]
  | .edl _ _ _ _ va n _ _ _ _ => lateLines va n
  | .bwr _ _ va _ _ (.some _) => lateLines va 1
  | .qrecv _ _ _ _ _ => [2 ^ 60]
  | .crecv _ _ _ => [2 ^ 60]
  | .aline _ _ _ ps _ _ => partLines ps
  | _ => []

/-- Trackers that a virtual device holds on a core, as issue and line: threads of one issue share the tracker of a line (R214). -/
def trackersHeld (s : State) (core vdev : Nat) : List (Nat × Nat) :=
  ((s.mm.ops.filter fun o => o.core == core && vdevOf s (ctxOf s o.gk) == vdev).flatMap fun o =>
    (opTrackers o).map fun l => (o.iss, l)).eraseDups

/-- The virtual devices with teams resident on a core. DEDUCED: log entry 22. -/
def tenantsOf (s : State) (core : Nat) : List Nat :=
  ((s.team.filter fun t => t.2.st == .resident && (t.2.core == core || (t.2.pair && t.2.core + 1 == core))).map
    fun t => vdevOf s t.2.ctx).eraseDups

/-- The virtual devices whose operations hold trackers of a core: those of saved teams too (R223). -/
def holdersOf (s : State) (core : Nat) : List Nat :=
  ((s.mm.ops.filter fun o => o.core == core).map fun o => vdevOf s (ctxOf s o.gk)).eraseDups

/-- Whether a request for some lines of the current issue may take its trackers: within the device's limit, beside what each other
device holds, and for a tenant at least the 16 it may claim; one that needs more than the limit goes on in parts, when its device holds none and the
limit is free (R215). -/
def trackersOk (s : State) (gk : Nat) (lines : List Nat) : Bool :=
  let core := coreOf s gk
  let v := vdevOf s (ctxOf s gk)
  let held := trackersHeld s core v
  let need := (lines.filter fun l => !held.contains (s.sc.issues, l)).length
  let lim := if (recOf s gk).bounded || (blockOf s (ctxOf s gk)).bounded then 48 else 512
  let tenants := tenantsOf s core
  let others := ((tenants ++ holdersOf s core).eraseDups.filter (· != v)).foldl
    (fun n u => n + max (if tenants.contains u then 16 else 0) (trackersHeld s core u).length) 0
  s.mm.ops.isEmpty || (decide (held.length + need ≤ lim) && decide (held.length + need + others ≤ 512))
    || (held.isEmpty && decide (lim < need) && decide (min lim (512 - others) ≠ 0))

end Sys2Proof.Machine
end

