-- ==== Sys2Proof/Machine/Editions.lean ====
section
/-! DEFINITION. The Bindery's operations on one page of an editioned region (R292 to R302): the descriptor and the catalogue in
memory, the choice of a copy, copy on write, pools, reclaim. -/

namespace Sys2Proof.Machine

/-! ## Descriptor and pools (R292) -/

def eOpen (s : State) (r : Nat) : Nat := rdN s (regionAt s r) 4
def ePub (s : State) (r : Nat) : Nat := rdN s (regionAt s r + 4) 4
def eFloor (s : State) (r : Nat) : Nat := rdN s (regionAt s r + 8) 4
def regionDepth (s : State) (r : Nat) : Nat := rdN s (regionAt s r + 12) 1
def regionCat (s : State) (r : Nat) : Nat := rdN s (regionAt s r + 24) 8
/-- A counter of the descriptor goes up. -/
def bump (pa n : Nat) (s : State) : State := pwriteN pa n ((rdN s pa n + 1) % 2 ^ (8 * n)) s

/-- A stack of page addresses of a claim (R314): its descriptor holds the stack's address, its count and its capacity. -/
def poolCount (s : State) (p : Nat) : Nat := rdN s (p + 8) 4
def poolCap (s : State) (p : Nat) : Nat := rdN s (p + 12) 4
def poolPop (p : Nat) (s : State) : Option (Nat × State) :=
  let c := poolCount s p
  if c = 0 then .none
  else .some (rdN s (rdN s p 8 + 8 * (c - 1)) 8, pwriteN (p + 8) 4 (c - 1) s)
def poolRoom (s : State) (p : Nat) : Nat := poolCap s p - poolCount s p
def poolPush (p page : Nat) (s : State) : State :=
  let c := poolCount s p
  pwriteN (p + 8) 4 (c + 1) (pwriteN (rdN s p 8 + 8 * c) 8 page s)

/-- The sub-pool of a placement: 0 interleaved, 1 + d homed on die d (R292). -/
def subPoolOf (s : State) (pa : Nat) : Nat := if pa < 4 * isplitBytes s then 0 else 1 + homeDie s pa
def regionPool (s : State) (r k : Nat) : Nat := regionAt s r + 32 + 16 * k
/-- Sub-pool k of a region, its fields as the Bindery last read them (R293), with its own pops and pushes since. -/
def subPool (s : State) (r k : Nat) : PoolRegs := tget {} (r * 8 + k) s.bd.pools
def subCount (s : State) (r k : Nat) : Nat := (subPool s r k).count
def subRoom (s : State) (r k : Nat) : Nat := (subPool s r k).cap - (subPool s r k).count
/-- The count of a sub-pool goes to `n`; the descriptor's count takes the same change, beside what software has written there. DESIGN CHOICE: log entry 45. -/
def setCount (r k n : Nat) (s : State) : State :=
  let p := subPool s r k
  let s := pwriteN (regionPool s r k + 8) 4 ((rdN s (regionPool s r k + 8) 4 + 2 ^ 32 + n - p.count) % 2 ^ 32) s
  { s with bd := { s.bd with pools := tset {} (r * 8 + k) { p with count := n } s.bd.pools } }
def subPop (r k : Nat) (s : State) : Option (Nat × State) :=
  let p := subPool s r k
  if p.count = 0 then .none else .some (rdN s (p.stack + 8 * (p.count - 1)) 8, setCount r k (p.count - 1) s)

/-! ## Catalogue (R295) -/

def catAt (s : State) (r i : Nat) : Nat := regionCat s r + 64 * i
def catPend (s : State) (r i : Nat) : Nat := rdN s (catAt s r i) 2
def catCount (s : State) (r i : Nat) : Nat := rdN s (catAt s r i + 2) 1
/-- The retained copies, newest first: edition and page address. -/
def catSlots (s : State) (r i : Nat) : List (Nat × Nat) :=
  (List.range (catCount s r i)).map fun j =>
    (rdN s (catAt s r i + 16 + 12 * j) 4, rdN s (catAt s r i + 20 + 12 * j) 8 % 2 ^ 36 * 65536)

def slotBytes : Nat → List (Nat × Nat) → List Byte
  | 0, _ => []
  | n + 1, [] => bytesOf 12 0 ++ slotBytes n []
  | n + 1, (e, p) :: r => bytesOf 4 e ++ bytesOf 8 (p / 65536) ++ slotBytes n r

def setCat (r i pend : Nat) (slots : List (Nat × Nat)) (s : State) : State :=
  pwrite (catAt s r i) (bytesOf 2 pend ++ bytesOf 1 slots.length ++ bytesOf 13 0 ++ slotBytes 4 slots) s

/-- The retained copies that are reclaimable: those whose next newer copy has an edition at or below the floor (R296). `y`: the
edition of the copy before the head. -/
def reclaimables (floor y : Nat) : List (Nat × Nat) → List Bool
  | [] => []
  | (e, _) :: r => decide (y ≤ floor) :: reclaimables floor e r

/-- How many of the newest copies are still needed (the reclaimable ones are the oldest, R296). -/
def keptCount (s : State) (r : Nat) (cur : Nat) (slots : List (Nat × Nat)) : Nat :=
  ((reclaimables (eFloor s r) cur slots).takeWhile (!·)).length

/-! ## The choice of a copy (R131, R297, R299) -/

/-- Where the bytes of the current copy at an offset lie: in slot 0 while the sub-block is pending (R297). DEDUCED: log entry 32. -/
def currentAt (s : State) (r i : Nat) (l : Leaf) (off : Nat) : Nat :=
  let page := l.pa / 65536 * 65536
  if catPend s r i / 2 ^ (off / 4096) % 2 = 1 then
    (match catSlots s r i with | (_, p) :: _ => p + off | [] => page + off)
  else page + off

/-- The page from which an edition-named read of a byte is served; none: reclaimed or never kept. `e` none: the open edition. -/
def chooseCopy (s : State) (r i : Nat) (l : Leaf) (e : Option Nat) (off : Nat) : Option Nat :=
  match e with
  | .none => .some (currentAt s r i l off)
  | .some e =>
    if eOpen s r ≤ e ∨ l.edition ≤ e then .some (currentAt s r i l off)
    else
      let slots := catSlots s r i
      let n := keptCount s r l.edition slots
      match (slots.take n).find? fun c => decide (c.1 ≤ e) with
      | .some c => .some (c.2 + off)
      | .none => .none

/-- The pages of some addresses are seen under a leaf's key from now on (R303). -/
def viewAddrs (l : Leaf) (as : List Nat) (s : State) : State :=
  (as.map (· / 65536)).eraseDups.foldl (fun s p => viewPage (p * 65536) (materialOf s l) s) s
/-- The bytes at some addresses under a leaf's key (R303), and which of them carry a mark. -/
def keyedBytes (s : State) (l : Leaf) (as : List Nat) : List Byte × List Bool :=
  let s := viewAddrs l as s
  (as.map fun a => tget 0 a s.mm.mem, as.map (badAt s))

/-- What an edition-named read within one page comes to: the bytes and which of them carry a mark; the edition is gone; the copy lies
outside the device's slices (R310). -/
inductive EdRead
  | ok (bs : List Byte) (bad : List Bool)
  | gone
  | denied
  deriving DecidableEq, Repr

/-- Where the bytes of an edition-named read lie; none: the edition is gone. -/
def editionAt (s : State) (asid va n : Nat) (l : Leaf) (e : Option Nat) : Option (List Nat) :=
  match pageIndex s l.region asid va with
  | .none => .none
  | .some i =>
    let at_ := (List.range n).map fun k => chooseCopy s l.region i l e (va % 65536 + k)
    if at_.all Option.isSome then .some (at_.map (·.getD 0)) else .none

/-- An edition-named read within one page. -/
def editionRead (s : State) (asid va n : Nat) (l : Leaf) (e : Option Nat) : EdRead :=
  match editionAt s asid va n l e with
  | .none => .gone
  | .some as =>
    if as.all (sliceOk s (vdevOf s asid)) then (let r := keyedBytes s l as; .ok r.1 r.2) else .denied

/-- Where the bytes of a piece of a read that names no edition lie now (R297, R299). -/
def pieceAddrs (s : State) (asid : Nat) (p : Piece) : List Nat :=
  let u := p.va.toNat % 2 ^ 57
  let plain := (List.range p.part.len).map (p.part.pa + ·)
  if p.region = 0 then plain
  else match agentLeaf s asid u with
    | .none => plain
    | .some l => match pageIndex s l.region asid u with
      | .none => plain
      | .some i => (List.range p.part.len).map fun k => currentAt s l.region i l (u % 65536 + k)

/-- The bytes of a piece of a read that names no edition, as they are now, and which carry a mark: under the key of the leaf (R303). -/
def pieceNow (s : State) (asid : Nat) (p : Piece) : List Byte × List Bool :=
  let as := pieceAddrs s asid p
  match (if p.at_ = 0 ∨ !isHbm p.part.pa then .none else agentLeaf s asid (p.va.toNat % 2 ^ 57)) with
  | .some l => keyedBytes s l as
  | .none => (as.map fun a => tget 0 a s.mm.mem, as.map (badAt s))
def piecesNow (s : State) (asid : Nat) (ps : List Piece) : List Byte × List Bool :=
  ps.foldl (fun acc p => let r := pieceNow s asid p; (acc.1 ++ r.1, acc.2 ++ r.2)) ([], [])

/-! ## Reclaim (R300, R301, R302) -/

/-- Whether a wait is for a page of a sub-pool (R302). -/
def isPoolWait (r k : Nat) (w : Wait) : Bool := w == .pool r k

/-- The waits in EDITION_POOL for a sub-pool end, a page having entered it: every waiter acts again (R302). DEDUCED: log entry 11. -/
def endPoolWaits (r k : Nat) (s : State) : State :=
  { s with
    thr := tmap {} (fun _ t => if isPoolWait r k t.wait then { t with wait := .none } else t) s.thr
    mm := { s.mm with ops := s.mm.ops.map fun o => match o.k with
      | .copy c => if isPoolWait r k c.wait then { o with k := .copy { c with wait := .none } } else o
      | .claim d p n m w => if isPoolWait r k w then { o with k := .claim d p n m .none } else o
      | _ => o }
    pk := { s.pk with
      halo := tmap [] (fun _ cs => cs.map fun c => if isPoolWait r k c.wait then { c with wait := .none } else c) s.pk.halo
      coll := tmap [] (fun _ cs => cs.map fun c => if isPoolWait r k c.wait then { c with wait := .none } else c) s.pk.coll } }

/-- A page enters a sub-pool. -/
def subPush (r k page : Nat) (s : State) : State :=
  let p := subPool s r k
  endPoolWaits r k (setCount r k (p.count + 1) (pwriteN (p.stack + 8 * p.count) 8 page s))

/-- The oldest copies of a list go to their sub-pools, `n` of them at most, while the stacks have room; each counts as reclaimed. -/
def freeOldest (r i : Nat) : Nat → List (Nat × Nat) → State → List (Nat × Nat) × State
  | 0, slots, s => (slots, s)
  | n + 1, slots, s =>
    match slots.getLast? with
    | .none => (slots, s)
    | .some c =>
      let k := subPoolOf s c.2
      if subRoom s r k = 0 then (slots, s)
      else
        let ctx := match (tget .none r s.bd.maps).getD [] with | m :: _ => m.asid | [] => 0
        freeOldest r i n slots.dropLast (tapBindery c.2 i 1 r ctx (bump (regionAt s r + 192) 8 (subPush r k c.2 s)))

/-- The reclaimable copies of a page are freed, but for a copy in slot 0 that pending sub-blocks still need (R301). -/
def reclaimPage (r i cur : Nat) (s : State) : State :=
  let slots := catSlots s r i
  let pin := if catPend s r i ≠ 0 then 1 else 0
  let n := slots.length - max (keptCount s r cur slots) pin
  if n = 0 then s
  else
    let x := freeOldest r i n slots s
    setCat r i (catPend x.2 r i) x.1 x.2

/-- A page's current copy, address and edition: from the leaf of a valid mapping, or, with none, as the Bindery last set it. -/
def pageCurrent (s : State) (r i : Nat) : Nat × Nat :=
  match ((tget .none r s.bd.maps).getD []).findSome? fun m => mappedLeaf s m.asid (m.va + 65536 * i) with
  | .some l => (l.pa / 65536 * 65536, l.edition)
  | .none => tget (0, 0) (r * 2 ^ 20 + i) s.bd.current
def pageEdition (s : State) (r i : Nat) : Nat := (pageCurrent s r i).2
/-- The key material of a region's page: that of its leaf in a valid mapping; with none, as the page was last seen (R303). -/
def pageMaterial (s : State) (r i : Nat) : Option (BitVec 512) :=
  match ((tget .none r s.bd.maps).getD []).findSome? fun m => mappedLeaf s m.asid (m.va + 65536 * i) with
  | .some l => materialOf s l
  | .none => tget .none ((pageCurrent s r i).1 / 65536) s.mm.wrapped

/-- Every reclaimable copy of a region (R302). -/
def reclaimRegion (r : Nat) (s : State) : State :=
  (List.range (regionPages s r)).foldl (fun s i => if catCount s r i = 0 then s else reclaimPage r i (pageEdition s r i) s) s

/-! ## Copy on write (R297, R298, R300) -/

/-- The code of the running launches moves with its page, and so does their having stored to it (R210). -/
def copyCode (src dst n : Nat) (s : State) : State :=
  let from_ := (tkeys s.mm.stored).filter fun k => k % 2 ^ 40 == src / 65536
  let stored := from_.foldl (fun m k => tset false (k / 2 ^ 40 * 2 ^ 40 + dst / 65536) true m) s.mm.stored
  { s with
    grid := tmap {} (fun _ g => { g with code0 := putBytes dst ((List.range n).map fun i => tget 0 (src + i) g.code0) g.code0 }) s.grid
    mm := { s.mm with stored := stored } }
/-- Copy `n` bytes, marks included: decrypted and encrypted under the key material of the leaf (R303, R315). -/
def copyBytes (m : Option (BitVec 512)) (src dst n : Nat) (s : State) : State :=
  let s := viewPage dst m (viewPage src m s)
  let bad := (List.range (n / 8)).filter fun w => badAt s (src + 8 * w)
  let s := copyCode src dst n (pwrite dst (pread s src n) s)
  bad.foldl (fun s w => pmark (dst + 8 * w) 8 s) s

/-- Whether every dirty line of a page can go home: each core that holds one has a path there (R319). -/
def recallable (s : State) (page : Nat) : Bool :=
  (s.mm.l1 ++ s.mm.comb).all fun l => l.line / 512 != page / 65536 || l.dirty == 0 || reachable s l.core (l.line * 128)

/-- Every line of a page that a core holds goes home and out of the L1s (R291, R315). -/
def recallPage (page : Nat) (s : State) : State :=
  let mine (l : Line) : Bool := l.line / 512 == page / 65536
  let s := (s.mm.comb.filter mine).foldl (fun s l => drainEntry l.core l.line s) s
  let s := (s.mm.l1.filter mine).foldl (fun s l => sendBack l.core l.line s) s
  { s with mm := { s.mm with l1 := s.mm.l1.filter fun l => !mine l
                             dir := tdrop (fun k => k / 512 == page / 65536) s.mm.dir } }

/-- The leaf entries of every valid mapping take a new page address, edition and placement, and no core keeps the old translation
(R298, R304). -/
def remapPage (r i page edition place : Nat) (s : State) : State :=
  let s := { s with bd := { s.bd with current := tset (0, 0) (r * 2 ^ 20 + i) (page, edition) s.bd.current } }
  ((tget .none r s.bd.maps).getD []).foldl (fun s m =>
    let va := m.va + 65536 * i
    match mappedLeaf s m.asid va with
    | .none => s
    | .some l =>
      let e := rdN s l.at_ 16
      let e := e - nb e 51 16 * 2 ^ 16 + page / 65536 * 2 ^ 16
      let e := e - nb e 62 60 * 2 ^ 60 + place * 2 ^ 60
      let e := e - nb e 127 96 * 2 ^ 96 + edition * 2 ^ 96
      dropXlat m.asid (va % 2 ^ 57 / 65536) 1 (recallPage (l.pa / 65536 * 65536) (pwriteN l.at_ 16 e s))) s

/-- One pending sub-block is copied from slot 0; with the last one a pinned copy that has become reclaimable is freed (R297, R301). -/
def copySub (r i sub : Nat) (cur : Nat × Nat) (s : State) : State :=
  let slots := catSlots s r i
  let pend := catPend s r i
  if pend / 2 ^ sub % 2 = 0 then s
  else
    let p0 := match slots with | (_, p) :: _ => p | [] => cur.1
    let s := copyBytes (pageMaterial s r i) (p0 + 4096 * sub) (cur.1 + 4096 * sub) 4096 s
    let s := setCat r i (pend - 2 ^ sub) slots s
    if pend = 2 ^ sub then reclaimPage r i cur.2 s else s

/-- Every pending sub-block (R297, COPYING_STALE). -/
def copyAllSubs (r i : Nat) (cur : Nat × Nat) (s : State) : State := (List.range 16).foldl (fun s k => copySub r i k cur s) s

/-- A page from a sub-pool, after reclaim if it is empty (R302); what reclaim has freed stays freed. DEDUCED: log entry 11. -/
def takePage (r k : Nat) (s : State) : Option Nat × State :=
  match subPop r k s with
  | .some x => (.some x.1, x.2)
  | .none =>
    let s := reclaimRegion r s
    match subPop r k s with | .some x => (.some x.1, x.2) | .none => (.none, s)

/-- The copies after an insertion (R300): the reclaimable ones beyond the depth go, oldest first; if there are still too many the
oldest goes, and counts as forced. -/
def trimSlots (r i : Nat) (slots : List (Nat × Nat)) (pend : Nat) (s : State) : State :=
  let depth := regionDepth s r
  let recl := slots.length - keptCount s r (eOpen s r) slots
  let x := freeOldest r i (min recl (slots.length - depth)) slots s
  let x := if depth < x.1.length then
      (let y := freeOldest r i 1 x.1 x.2; (y.1, bump (regionAt s r + 184) 4 y.2))
    else x
  setCat r i pend x.1 x.2

/-- What a write at the agent comes to: performed; the sub-pool that was empty (R297); the page that the sub-pool gives lies outside the
slices of the writer's device (R310). -/
inductive AgentWrite
  | done (s : State)
  | pool (k : Nat) (s : State)
  | denied

/-- A page lies in slices of a device's masks (R276, R310). -/
def pageOk (s : State) (vdev page : Nat) : Bool := (List.range 16).all fun i => sliceOk s vdev (page + 4096 * i)

/-- Copies that a full stack has held back are pushed once a page has left it (R301): `full`, it was full before. DEDUCED: log entry 11. -/
def pushHeld (full : Bool) (r : Nat) (s : State) : State := if full then reclaimRegion r s else s

/-- Copy on write of sub-block `sub` (R298); the current copy is then the new page. -/
def copyOnWrite (asid r i sub : Nat) (l : Leaf) (s : State) : AgentWrite :=
  let p := l.pa / 65536 * 65536
  let s := copyAllSubs r i (p, l.edition) s
  let k := subPoolOf s p
  match takePage r k s with
  | (.none, s) => .pool k s
  | (.some q, s) =>
    if !pageOk s (vdevOf s asid) q then .denied
    else
      let full := subRoom s r k == 1
      let s := copyBytes (materialOf s l) (p + 4096 * sub) (q + 4096 * sub) 4096 s
      let s := trimSlots r i ((l.edition, p) :: catSlots s r i) (0xFFFF - 2 ^ sub) s
      .done (pushHeld full r
        (tapBindery q i 0 r asid (bump (regionAt s r + 176) 8 (remapPage r i q (eOpen s r) l.place s))))

/-- The page is ready for a write to a sub-block: its current copy has the open edition and the sub-block is its own (R297). -/
def readySub (r i asid va sub : Nat) (s : State) : AgentWrite :=
  match agentLeaf s asid va with
  | .none => .done s
  | .some l => if l.edition < eOpen s r then copyOnWrite asid r i sub l s else .done (copySub r i sub (l.pa / 65536 * 65536, l.edition) s)

/-- Both sub-blocks that a range within one page may touch. -/
def readyRange (r i asid va n : Nat) (s : State) : AgentWrite :=
  let a := va % 65536 / 4096
  let b := (va % 65536 + n - 1) / 4096
  match readySub r i asid va a s with
  | .pool k s => .pool k s
  | .denied => .denied
  | .done s => if a = b then .done s else readySub r i asid va b s

/-- A write within one page at the region's agent, as its own die's request (R294, R297, R299). -/
def agentWrite (die r asid va : Nat) (bs : List Byte) (s : State) : AgentWrite :=
  match pageIndex s r asid va with
  | .none => .done s
  | .some i =>
    match readyRange r i asid va bs.length s with
    | .pool k s => .pool k s
    | .denied => .denied
    | .done s =>
      match agentLeaf s asid va with
      | .none => .done s
      | .some l =>
        let s := viewPage l.pa (materialOf s l) s
        .done (setEntryBit l.at_ 8 (engineWrite asid die l.kind (l.pa / 65536 * 65536 + va % 65536) bs s))

/-- A writer to page `i` of a region enters EDITION_POOL: the count, the event and the record (R302, R325); `acc`: the access bits
of R289. DEDUCED: log entry 11. -/
def enterPool (r i k asid vdev : Nat) (acc : BitVec 8) (s : State) : State :=
  let page := match ((tget .none r s.bd.maps).getD []).find? fun m => m.asid == asid with
    | .some m => m.va % 2 ^ 57 / 65536 | .none => 0
  let pa := match agentLeaf s asid ((page + i) * 65536) with | .some l => l.pa | .none => 0
  joinRec { vdev := vdev, seq := .none, asid := r, page := page, cause := 2
            access := acc ||| 8 ||| (BitVec.ofNat 8 k <<< 4), region := r, pool := k }
    (tapBindery pa i 2 r asid (bump (regionAt s r + 188) 4 s))

end Sys2Proof.Machine
end

