-- ==== Sys2Proof/Machine/Copy.lean ====
section
/-! DEFINITION. Engines: shapes (R269), an engine's own reads and writes (R238, R297), copy templates, the checks of a copy and its
stash image (R140 to R142). -/

namespace Sys2Proof.Machine

/-- Default edition k of a launch (R130); none: the open edition. -/
def defEdition (l : LRec) (k : Nat) : Option Nat := if l.eopen.getLsbD k then .none else .some (tget 0 k l.eds)

/-! ## Shapes (R269) -/

/-- A shape table entry, unless its use is a CAP_FAULT. DEDUCED: log entry 14. -/
def parseShape (bs : List Byte) : Option Shape :=
  let ctl := fieldOf bs 56 8
  let dims := nb ctl 4 3 + 1
  let ext := (List.range 4).map fun i => fieldOf bs (8 + 4 * i) 4
  if nb ctl 7 7 = 0 ∨ nb ctl 63 8 ≠ 0 ∨ (ext.take dims).any (· == 0) ∨ (ext.drop dims).any (· != 0) then .none
  else .some { base := word (fieldOf bs 0 8), ext := ext.take dims
               str := (List.range dims).map fun i => word (fieldOf bs (24 + 8 * i) 8)
               slot := BitVec.ofNat 3 ctl, r := nb ctl 5 5 = 1, w := nb ctl 6 6 = 1 }

/-- What naming a shape comes to. -/
inductive ShapeGot
  | ok (sh : Shape)
  | bad
  | page (asid page : Nat)
  deriving DecidableEq, Repr

/-- The shape of a number: as the group's core first read it in this launch, else read now (R269); a page denied to the user counts as
absent (R290). A table that cannot be read makes the use a CAP_FAULT (log entry 14). DEDUCED: log entry 14. -/
def getShape (gk : Nat) (deny : Option Nat) (x : Nat) (s : State) : ShapeGot × State :=
  let g := gridOfG gk
  let key := coreOf s gk * 65536 + x
  match tget .none key (getGrid s g).shapes with
  | .some (.some sh) => (.ok sh, s)
  | .some .none => (.bad, s)
  | .none =>
    let l := (getGrid s g).lr
    if l.shpbase = 0 ∨ l.shpcount ≤ x then (.bad, s)
    else match planFor { askerOf s gk with deny := deny } 0 true .g [.r] (word (l.shpbase + 64 * x)) 64 s with
      | (.page a p, s) => (.page a p, s)
      | (.fault _ _, s) => (.bad, s)
      | (.ok ps, s) =>
        let sh := parseShape (piecesNow s (ctxOf s gk) ps).1
        let s := setGrid g { getGrid s g with shapes := tset .none key (.some sh) (getGrid s g).shapes } s
        (match sh with | .some v => .ok v | .none => .bad, s)

/-- Bits of an element of a slot's kind (R55). -/
def slotBits (l : LRec) (slot : BitVec 3) : Nat := [64, 32, 16, 16, 4].getD (slotKind (tget 0 slot.toNat l.fslots)) 64

/-! ## Engine accesses (R238) -/

/-- What an engine's read comes to: bytes with their marks; an error that ends it as a permission fault, at an address; a wait; a
remote piece. -/
inductive EngR
  | ok (bs : List Byte) (bad : List Bool)
  | err (a : Word)
  | wait (w : Wait)
  | peer (p : Part)
  deriving DecidableEq, Repr

/-- An engine of a team asks: page walks of its own, the device's slices (R276). DEDUCED: log entry 22. -/
def engAsker (s : State) (gk : Nat) : Asker := { asid := ctxOf s gk, vdev := vdevOf s (ctxOf s gk) }
/-- A copy asks through the copy engine of the die that serves its channel. DESIGN CHOICE: log entry 42. -/
def copyAsker (s : State) (gk chan : Nat) : Asker :=
  { engAsker s gk with port := .some (dieOf (coreOf s gk) * 256 + 240 + chan % 8) }

/-- An engine joins or posts the record of an absent page (R289). -/
def engJoin (gk asid page : Nat) (wr : Bool) (s : State) : State :=
  joinRec { vdev := vdevOf s (ctxOf s gk), seq := .none, asid := asid, page := page, cause := 1, access := if wr then 6 else 5 } s

/-- The read requests of an engine at some addresses (R312). -/
def engineReadsAt (gk : Nat) (kind : PKind) (as : List Nat) (s : State) : State :=
  ((as.map (· / 128)).eraseDups).foldl (fun s l => engineReads (ctxOf s gk) (dieOf (coreOf s gk)) kind (l * 128) 128 s) s

/-- An engine reads bytes that lie in one page, with the rules of a `ld` of their space (R126, R142, R218). -/
def engRead (q : Asker) (gk : Nat) (sp : Space) (va : Word) (n : Nat) (s : State) : EngR × State :=
  match planFor q (windowOf s (teamOfG gk)) true sp [.r] va n s with
  | (.fault _ a, s) => (.err a, s)
  | (.page a p, s) => (.wait (.page a p), engJoin gk a p false s)
  | (.ok ps, s) =>
    match ps with
    | [p] =>
      if isDev p.part.pa then (.err va, s)
      else if isPeer p.part.pa then (.peer p.part, s)
      else if p.region = 0 then
        let as := (List.range n).map (p.part.pa + ·)
        (.ok (pread s p.part.pa n) (as.map (badAt s)), engineReadsAt gk p.part.kind as s)
      else
        match lookup q.core q.asid (va.toNat % 2 ^ 57) s with
        | (.leaf l, s) =>
          let e := defEdition (recOf s gk) 0
          (match editionRead s q.asid (va.toNat % 2 ^ 57) n l e with
          | .ok bs bad =>
            (.ok bs bad, engineReadsAt gk l.kind ((editionAt s q.asid (va.toNat % 2 ^ 57) n l e).getD []) s)
          | .gone => (.err va, s)
          | .denied => (.err va, s))
        | (.absent, s) => (.err va, s)
        | (.bad _, s) => (.err va, s)
    | _ => (.err va, s)

/-- What an engine's write comes to. -/
inductive EngW
  | done
  | err
  | wait (w : Wait)
  /-- a remote piece, with its leaf entry, whose dirty bit the sender sets (R287) -/
  | peer (p : Part) (at_ : Nat)
  deriving DecidableEq, Repr

/-- Words of `pa` whose bytes came with marks are written with uncorrectable check bits (R142, R364). -/
def carryMarks (pa : Nat) (bad : List Bool) (s : State) : State :=
  ((List.range bad.length).filter fun i => bad.getD i false).foldl (fun s i => pmark (pa + i) 1 s) s

/-- An engine writes bytes that lie in one page (R132, R142). -/
def engWrite (q : Asker) (gk : Nat) (va : Word) (bs : List Byte) (bad : List Bool) (s : State) : EngW × State :=
  let n := bs.length
  let die := dieOf (coreOf s gk)
  match planFor q (windowOf s (teamOfG gk)) true .g [.w] va n s with
  | (.fault _ _, s) => (.err, s)
  | (.page a p, s) => (.wait (.page a p), engJoin gk a p true s)
  | (.ok ps, s) =>
    match ps with
    | [p] =>
      if isDev p.part.pa then (.err, s)
      else if isPeer p.part.pa then (.peer p.part p.at_, s)
      else if p.region = 0 then
        (.done, carryMarks p.part.pa bad (setEntryBit p.at_ 8
          (engineWrite q.asid die p.part.kind p.part.pa bs (noteStore gk p.part.pa s))))
      else
        let u := va.toNat % 2 ^ 57
        match agentWrite die p.region q.asid u bs s with
        | .denied => (.err, s)
        | .pool k s =>
          (.wait (.pool p.region k),
            enterPool p.region ((pageIndex s p.region q.asid u).getD 0) k q.asid q.vdev 6 s)
        | .done s =>
          match agentLeaf s q.asid u with
          | .some l => (.done, carryMarks (l.pa / 65536 * 65536 + u % 65536) bad (noteStore gk l.pa s))
          | .none => (.done, s)
    | _ => (.err, s)

/-! ## The stash image (R142) -/

/-- Where one half of a memory byte lies in the image: byte, upper nibble, last of an odd row (its pad follows). -/
structure Nib where
  off : Nat
  hi : Bool
  pad : Bool := false
  deriving DecidableEq, Repr

/-- One memory byte of a copy: its address and where its two nibbles lie in the image. -/
structure Move where
  a : Word
  lo : Option Nib
  hi : Option Nib
  deriving DecidableEq, Repr

/-- A copy's geometry: element bits, bytes of an innermost row, rows in all, extent of the second innermost dimension, the transpose
element's bits (0: not transposed). -/
structure Geo where
  eb : Nat
  inner : Nat
  rb : Nat
  rows : Nat
  mid : Nat
  xb : Nat
  deriving DecidableEq, Repr

def prod (l : List Nat) : Nat := l.foldl (· * ·) 1

def geoOf (l : LRec) (sh : Shape) (xp : Bool) (xw : Nat) : Geo :=
  let eb := slotBits l sh.slot
  let inner := sh.ext.getLastD 1
  { eb := eb, inner := inner, rb := (inner * eb + 7) / 8, rows := prod sh.ext.dropLast
    mid := sh.ext.dropLast.getLastD 1, xb := if xp then [4, 8, 16, 32].getD xw 4 else 0 }

/-- Nibbles of a row that take part in a transposition by nibbles. -/
def rowNibs (g : Geo) : Nat := if g.eb = 4 then g.inner else 2 * g.rb

/-- Bytes of the image. -/
def imageBytes (g : Geo) : Nat :=
  if g.xb = 4 then g.rows / g.mid * rowNibs g * ((g.mid + 1) / 2) else g.rows * g.rb

/-- The offset of row `r` of the shape: its indices, outermost first, times the strides. -/
def rowOffset : List Nat → List Word → Nat → Word
  | [], _, _ => 0
  | _, [], _ => 0
  | _ :: es, st :: ss, r => word (r / prod es) * st + rowOffset es ss (r % prod es)

/-- Memory byte `i` of a copy in row-major order, and its place in the image. -/
def moveAt (l : LRec) (c : Copy) (i : Nat) : Move :=
  let g := geoOf l c.shape c.xp c.xw
  let r := i / g.rb
  let j := i % g.rb
  let es := g.eb / 8
  let base := c.shape.base + c.rows * c.shape.str.headD 0 + rowOffset c.shape.ext.dropLast c.shape.str r
  let a := base + (if g.eb = 4 then word j else word (j / es) * c.shape.str.getLastD 0 + word (j % es))
  let odd := decide (g.eb = 4 ∧ g.inner % 2 = 1 ∧ j = g.rb - 1)
  if g.xb = 0 then
    let o := r * g.rb + j
    { a := a, lo := .some ⟨o, false, odd⟩, hi := if odd then .none else .some ⟨o, true, false⟩ }
  else if g.xb = 4 then
    let w := (g.mid + 1) / 2
    let q (n : Nat) : Nib :=
      ⟨r / g.mid * (rowNibs g * w) + n * w + r % g.mid / 2, decide (r % g.mid % 2 = 1),
        decide (r % g.mid % 2 = 0 ∧ r % g.mid = g.mid - 1)⟩
    { a := a, lo := .some (q (2 * j)), hi := if odd then .none else .some (q (2 * j + 1)) }
  else
    let xb := g.xb / 8
    let o := r / g.mid * (g.mid * g.rb) + (j / xb * g.mid + r % g.mid) * xb + j % xb
    { a := a, lo := .some ⟨o, false, false⟩, hi := .some ⟨o, true, false⟩ }

def totalMoves (l : LRec) (c : Copy) : Nat := let g := geoOf l c.shape c.xp c.xw; g.rows * g.rb

/-- The moves of the next beat: memory bytes that follow one another within one aligned block (R124). Where a shape's elements in one block
do not follow one another, each run of bytes that do is a beat of its own. DESIGN CHOICE: log entry 50. -/
def beatFrom (l : LRec) (c : Copy) (block : Nat) : Nat → Nat → Option Word → List Move
  | 0, _, _ => []
  | k + 1, i, prev =>
    if totalMoves l c ≤ i then []
    else
      let m := moveAt l c i
      match prev with
      | .none => m :: beatFrom l c block k (i + 1) (.some m.a)
      | .some a => if m.a = a + 1 ∧ m.a.toNat % block ≠ 0 then m :: beatFrom l c block k (i + 1) (.some m.a) else []

/-- A nibble of a byte, and a byte with one replaced. -/
def nibOf (b : Byte) (hi : Bool) : Nat := if hi then b.toNat / 16 else b.toNat % 16
def withNib (b : Byte) (hi : Bool) (v : Nat) : Byte := BitVec.ofNat 8 (if hi then b.toNat % 16 + 16 * v else b.toNat / 16 * 16 + v)

/-- A fill writes a nibble of the image, and the pad nibble after the last of an odd row as zero. -/
def fillNib (t off : Nat) (v : Nat) (n : Option Nib) (s : State) : State :=
  match n with
  | .none => s
  | .some n =>
    let b := tget 0 (off + n.off) (getTeam s t).stash
    let b := withNib b n.hi v
    let x := getTeam s t
    setTeam t { x with stash := tset 0 (off + n.off) (if n.pad && !n.hi then withNib b true 0 else b) x.stash } s

/-- A fill's beat reaches the stash; a word with a marked source byte is written with uncorrectable check bits, a word written whole
without one with fresh ones (R142, R364). DEDUCED: log entry 33. -/
def fillBeat (t off : Nat) (ms : List Move) (bs : List Byte) (bad : List Bool) (s : State) : State :=
  let s := (ms.zip bs).foldl (fun s p => fillNib t off (nibOf p.2 true) p.1.hi (fillNib t off (nibOf p.2 false) p.1.lo s)) s
  let offs := ms.filterMap fun m => m.lo.map fun n => off + n.off
  let x := getTeam s t
  let s := setTeam t { x with sbad := tdrop (fun w => (List.range 8).all fun i => offs.contains (8 * w + i)) x.sbad } s
  ((ms.zip bad).filter (·.2)).foldl (fun s p =>
    match p.1.lo with | .some n => stashMark t (off + n.off) 1 s | .none => s) s

/-- The byte that a drain writes to memory: each nibble from the image (the pad of an odd row as it stands in the tile), or as it is
in memory where the image has none. -/
def drainByte (s : State) (t off : Nat) (xp : Bool) (old : Byte) (m : Move) : Byte :=
  let get (n : Nib) : Nat := nibOf (tget 0 (off + n.off) (getTeam s t).stash) n.hi
  let lo := match m.lo with | .some n => get n | .none => nibOf old false
  let hi := match m.hi with
    | .some n => get n
    | .none => (match m.lo with | .some n => if xp then nibOf old true else get { n with hi := true } | .none => nibOf old true)
  BitVec.ofNat 8 (lo + 16 * hi)

def drainBad (s : State) (t off : Nat) (m : Move) : Bool :=
  (match m.lo with | .some n => tget false ((off + n.off) / 8) (getTeam s t).sbad | .none => false)
    || (match m.hi with | .some n => tget false ((off + n.off) / 8) (getTeam s t).sbad | .none => false)

/-! ## Starting a copy (R140, R141) -/

/-- What the checks of a copy come to. -/
inductive CopyGot
  | trap (n : TrapName) (info : Word)
  | page (asid page : Nat)
  | ok (c : Copy)
  deriving DecidableEq, Repr

/-- CAP_FAULT information (R361): 0 channel, 1 shape, 2 template. DEDUCED: log entries 14, 19. -/
def capInfo (what x : Nat) : Word := word (x + what * 2 ^ 16)

/-- The checks of R140 to R142 for a copy on channel `chan` started by the stored value `v`, in the order of R123. DEDUCED: log entry 19. -/
def copyCheck (gk : Nat) (deny : Option Nat) (chan : Nat) (v : Word) (s : State) : CopyGot × State :=
  let t := teamOfG gk
  let b := blockOf s (ctxOf s gk)
  let idx := bits v 15 0
  let e := rdN s (b.tmplbase + 8 * idx) 8
  let drain := nb e 37 37 = 1
  let xp := nb e 40 40 = 1
  let xw := nb e 39 38
  let h := nb e 47 41
  let tmpl : CopyGot := .trap .capFault (capInfo 2 idx)
  let hx := getHandle s t h
  let busy (x : Handle) : Bool := tileBusy s t h || (drain && x.st == .free)
  if b.tmplcount ≤ idx ∨ nb e 36 36 = 0 then (tmpl, s)
  else if hx.any busy then (.trap .handleBusy (word h), s)
  else if bits v 31 16 ≠ 0 ∨ nb e 35 0 ≠ 0 then (tmpl, s)
  else match getShape gk deny (nb e 63 48) s with
    | (.page a p, s) => (.page a p, s)
    | (.bad, s) => (.trap .capFault (capInfo 1 (nb e 63 48)), s)
    | (.ok sh, s) =>
      let g := geoOf (recOf s gk) sh xp xw
      if !(if drain then sh.w else sh.r) then (.trap .capFault (capInfo 1 (nb e 63 48)), s)
      else if (xp && g.rb * 8 % g.xb != 0) || (!xp && xw != 0) then (tmpl, s)
      else match hx with
        | .none => (.trap .handleFault (word h), s)
        | .some x =>
          if x.size < imageBytes g then (tmpl, s)
          else (.ok { team := t, tmpl := idx, rows := wordI ((hi32 v).toInt), chan := chan, shape := sh, h := h, drain := drain
                      xp := xp, xw := xw }, s)

/-- Pending copies of a channel of a virtual device (R142). -/
def chanLoad (s : State) (vdev chan : Nat) : Nat :=
  (s.mm.ops.filter fun o => match o.k with
    | .copy c => c.chan == chan && vdevOf s (ctxOf s o.gk) == vdev | _ => false).length

/-- A checked copy starts: its handle enters an engine state (R142). -/
def startCopy (gk : Nat) (pc : Word) (c : Copy) (s : State) : State :=
  let s := match getHandle s c.team c.h with
    | .some x => setHandle c.team c.h { x with st := if c.drain then .draining else .filling } s
    | .none => s
  addOp gk engineTid pc (.copy c) s

end Sys2Proof.Machine
end

