-- ==== Sys2Proof/Machine/MemLane.lean ====
section
/-! DEFINITION. Loads, stores, edition-named loads, prefetches and atomics of threads and of groups (R120 to R135, R140 to R142):
one access per thread (lane set), or one for the group (uniform set, R129). -/

namespace Sys2Proof.Machine

/-! ## Issuers -/

/-- The issuer number of an operation. -/
def issuerOf (uni : Bool) (tid : Nat) : Nat := if uni then 0xFFFF else tid
/-- What an access comes to: a trap, a trap after which what the core has read of a table stays read (R269), a wait at the instruction
(blocking or not) or its effect; the issuer has passed the instruction (`ok`), or stays at it until an agent has served it (`stall`). -/
inductive AccGot
  | trap (t : TrapRec)
  | trapIn (t : TrapRec) (s : State)
  | hold (blocking : Bool) (w : Wait) (s : State)
  | ok (s : State)
  | stall (id : Nat) (s : State)

/-- One thread of a lane access. -/
def accThread (F : Form) (body : List Word → Nat → State → AccGot) (s : State) (tid : Nat) : State :=
  let gk := s.cur.gk
  match guardVal s gk tid false with
  | .wait p => waitPred gk tid p s
  | .no => goOn gk s.cur.npc s tid
  | .yes =>
    match readSources s gk tid s.cur.pc F with
    | .wait u r => waitReg gk tid u r s
    | .waitP p => waitPred gk tid p s
    | .trap t => trapThread tid t s
    | .ok vals _ =>
      match body vals tid s with
      | .trap t => trapThread tid t s
      | .trapIn t s => trapThread tid t s
      | .hold b w s => setSt gk tid (if b || waitsHeld s w then .blocked else .waitOpnd) w (unage s tid)
      | .ok s => goOn gk s.cur.npc s tid
      | .stall id s => setSt gk tid .waitOpnd (.agent id) s

/-- A lane access, for every thread of its bundle. -/
def accLane (F : Form) (body : List Word → Nat → State → AccGot) (s : State) : Out :=
  .next (if overLimit s s.cur.gk F then illegalLane s else perThread (accThread F body) s)

/-- A group's own access or other wait (R144, R148). -/
def accGroup (r : AccGot) (s : State) : State :=
  match r with
  | .trap t => trapGroup t s
  | .trapIn t s => trapGroup t s
  | .hold b w s => holdGroup b w s
  | .ok s => passGroup s.cur.gk s.cur.npc s
  | .stall id s => holdAll (.agent id) s
def accUni (F : Form) (body : List Word → Nat → State → AccGot) (s : State) : Out :=
  uni F (fun vals _ s => accGroup (body vals 0 s) s) s

/-! ## The parts that accesses share -/

/-- The page of the access that is absent: its issuer joins the record and waits, or takes ACCESS_FAULT with cause 5 if the record
has been denied (R122, R289, R290). -/
def absentPage (uni : Bool) (tid : Nat) (sp : Space) (va : Word) (wr : Bool) (asid page : Nat) (s : State) : AccGot :=
  let gk := s.cur.gk
  let at_ := if va.toNat % 2 ^ 57 / 65536 = page then va else va + word (65536 - va.toNat % 65536)
  if asid = ctxOf s gk ∧ denyOf s gk tid uni = .some page then .trap (accessFault s.cur.pc at_ 5 sp wr)
  else .hold true (.page asid page) (joinRec { vdev := vdevOf s (ctxOf s gk), seq := .none, asid := asid, page := page, cause := 1
                                               access := if wr then 2 else 1 } s)

/-- HANDLE_BUSY for a stash access under a tile in an engine state (R122). -/
def stashBusy (s : State) (sp : Space) (va : Word) (n : Nat) : Option TrapRec :=
  if sp = .s then
    (busyTile s (teamOfG s.cur.gk) va.toNat n).map fun h => { trapAt s .handleBusy 0 (word h) with space := .s }
  else .none

def partsOf (ps : List Piece) : List Part := ps.map (·.part)

/-- The line requests of an access that goes to the agents of its pages: of the lines that its translations name (R325, R342). -/
def tapAgents (gk : Nat) (ps : List Piece) (wr : Bool) (s : State) : State :=
  (ps.filter fun p => p.region != 0).foldl (fun s p => tapLines (ctxOf s gk) (coreOf s gk) p.part wr s) s

/-- The dirty bits of the leaf entries of a store (R287). -/
def setDirty (ps : List Piece) (s : State) : State := ps.foldl (fun s p => if p.at_ = 0 then s else setEntryBit p.at_ 8 s) s

/-- Whether an older operation of the issuer must come first, or the trackers are missing (R215, R231, R232). -/
def issueWait (uni : Bool) (tid : Nat) (sp : Space) (ps : List Part) (tracked : Bool) (s : State) : Option Wait :=
  match orderWait s s.cur.gk (issuerOf uni tid) (sp == .s) ps with
  | .some id => .some (.agent id)
  | .none => if tracked && sp != .s && !trackersOk s s.cur.gk (partLines ps) then .some .trackers else .none

/-- The destinations of a long-latency producer are EMPTY from its issue on (R36, R37). -/
def emptyDest (tid : Nat) (F : Form) (s : State) : State :=
  let gk := s.cur.gk
  let s := match F.dv with | .some d => markEmpty gk tid F.uni d s | .none => s
  match F.dp with | .some p => setPQ gk tid F.uni p { getPQ s gk tid F.uni p with empty := true } s | .none => s
/-- The commit of a long-latency producer: kills, keeps, and its destinations EMPTY (R36, R40). -/
def commitLong (tid : Nat) (F : Form) (s : State) : State :=
  emptyDest tid F (keepCache s.cur.gk tid F (killAll s.cur.gk tid (kills F) s))
/-- What a checked predicate holds. -/
def predOf (s : State) (tid : Nat) (F : Form) : PCell :=
  match F.dp with | .some p => getPQ s s.cur.gk tid F.uni p | .none => {}

/-! ## Loads (R126, R131) -/

/-- The drain word of the status page (R334). -/
def isDrainWord (ps : List Part) : Bool := ps.any fun p => p.pa == 2 ^ 52 + 0x40000 + 0x800

def rawAsid (s : State) : Nat := ctxOf s s.cur.gk

/-- A load of `n` bytes at `va`; `e`: the edition it names. -/
def loadBody (F : Form) (d : BitVec 6) (sp : Space) (n : Nat) (va : Word) (e : Option Nat) (tid : Nat) (s : State) : AccGot :=
  let gk := s.cur.gk
  let u := F.uni
  match plan gk tid u (userOf s gk tid u) sp [.r] va n s with
  | (.fault c a, s) => .trap (accessFault s.cur.pc a c sp false)
  | (.page asid p, s) => absentPage u tid sp va false asid p s
  | (.ok qs, s) =>
    let ps := partsOf qs
    match stashBusy s sp va n with
    | .some t => .trap t
    | .none =>
      match issueWait u tid sp ps true s with
      | .some w => .hold false w s
      | .none =>
        if qs.any (·.region != 0) then
          .stall s.mm.nextId (addOp gk (issuerOf u tid) s.cur.pc
            (.edl u d F.dp (usesOf F) va n e s.cur.npc (getR s gk tid u d) (predOf s tid F)) (tapAgents gk qs false (emptyDest tid F s)))
        else
          let s := commitLong tid F s
          let k : OpK :=
            if isDrainWord ps && n == 8 then
              .drain u d F.dp (dieOf (coreOf s gk)) (vdevOf s (ctxOf s gk)) (getUnit s (dieOf (coreOf s gk))).nextPair
            else if ps.any fun p => isPeer p.pa then .rload u d F.dp ps va .none .none
            else .load u (sp == .s) d F.dp ps va
          .ok (addOp gk (issuerOf u tid) s.cur.pc k s)

def off14 (o : BitVec 14) : Word := o.signExtend 64
def off13 (o : BitVec 13) : Word := o.signExtend 64

def formLd (u : Bool) (d : BitVec 6) (a : Src) : Form := { uni := u, flds := [fA u a true], dv := .some d }
/-- The edition operand is an s register (R130). -/
def formLde (u : Bool) (d : BitVec 6) (a b : Src) (chk : Option (BitVec 3)) : Form :=
  { uni := u, flds := [fA u a true, fB true b true], dv := .some d, dp := chk }

def ldBody (u : Bool) (d : BitVec 6) (a : Src) (m : MemMod) (v : List Word) (tid : Nat) (s : State) : AccGot :=
  loadBody (formLd u d a) d m.space (widthBytes m.width) (v.getD 0 0 + off14 m.off) (defEdition (recOf s s.cur.gk) 0) tid s

/-- The edition that a value selects (R130). -/
def editionOf (l : LRec) (v : Word) : Option Nat := if bitAt v 63 then defEdition l (bits v 1 0) else .some (bits v 31 0)

def ldeBody (u : Bool) (d : BitVec 6) (a b : Src) (m : LdeMod) (v : List Word) (tid : Nat) (s : State) : AccGot :=
  loadBody (formLde u d a b m.chk) d .g (widthBytes m.width) (v.getD 0 0 + off14 m.off)
    (editionOf (recOf s s.cur.gk) (v.getD 1 0)) tid s

/-! ## Stores (R127, R140, R142) -/

def formSt (u : Bool) (a b : Src) : Form := { uni := u, flds := [fA u a true, fB u b true] }

/-- The kills of a store's commit. -/
def commitStore (tid : Nat) (F : Form) (s : State) : State :=
  keepCache s.cur.gk tid F (killAll s.cur.gk tid (kills F) s)

/-- A store to the copy aperture: a release at `.dev` of every earlier access of the storing thread, then a copy starts (R140 to R142).
DEDUCED: log entry 9. -/
def apertureStore (F : Form) (tid : Nat) (va v : Word) (s : State) : AccGot :=
  let gk := s.cur.gk
  let chan := va.toNat % 65536 / 8
  match copyCheck gk (denyOf s gk tid F.uni) chan v s with
  | (.trap n i, s) => .trapIn (trapAt s n 0 i) s
  | (.page a p, s) => absentPage F.uni tid .g va false a p s
  | (.ok c, s) =>
    let vdev := vdevOf s (ctxOf s gk)
    if 16 ≤ chanLoad s vdev chan then .hold false .trackers s
    else match issueWait F.uni tid .g [] false s with
      | .some w => .hold false w s
      | .none =>
        match releaseWait s gk (if F.uni then .none else .some tid) false true with
        | .some id => .hold false (.agent id) s
        | .none => .ok (startCopy gk s.cur.pc c (releaseCore (coreOf s gk) true true (commitStore tid F s)))

/-- The pieces of a store's data. -/
def storeParts (gk tid : Nat) (pc : Word) : List Piece → List Byte → State → State
  | [], _, s => s
  | q :: qs, bs, s =>
    let b := bs.take q.part.len
    let s := if isPeer q.part.pa then addOp gk tid pc (.rstore q.part b) s
             else noteStore gk q.part.pa (writePart (ctxOf s gk) (coreOf s gk) q.part b s)
    storeParts gk tid pc qs (bs.drop q.part.len) s

def unreachable (s : State) (gk : Nat) (ps : List Part) : Bool :=
  ps.any fun p => p.kind == .so && !isDev p.pa && !partReach s (coreOf s gk) p

/-- A store of `n` bytes at `va`. -/
def storeBody (F : Form) (sp : Space) (n : Nat) (va v : Word) (tid : Nat) (s : State) : AccGot :=
  let gk := s.cur.gk
  let u := F.uni
  if sp = .g ∧ copyAperture ≤ va.toNat ∧ va.toNat < copyAperture + 512 ∧ n = 8 ∧ va.toNat % 8 = 0 then
    apertureStore F tid va v s
  else match plan gk tid u (userOf s gk tid u) sp [.w] va n s with
    | (.fault c a, s) => .trap (accessFault s.cur.pc a c sp true)
    | (.page asid p, s) => absentPage u tid sp va true asid p s
    | (.ok qs, s) =>
      let ps := partsOf qs
      match stashBusy s sp va n with
      | .some t => .trap { t with wr := true }
      | .none =>
        match issueWait u tid sp ps false s with
        | .some w => .hold false w s
        | .none =>
          let bs := bytesOf n v.toNat
          let free := duePerforms s (coreOf s gk)
          let s := performDue (coreOf s gk) s
          if !free then .hold true (.agent 0) s
          else if sp != .s && unreachable s gk ps then .hold true .trackers s
          else if sp = .s then .ok (stashWrite (teamOfG gk) va.toNat bs (commitStore tid F s))
          else if qs.any (·.region != 0) then
            .stall s.mm.nextId (addOp gk (issuerOf u tid) s.cur.pc (.bwr u (usesOf F) va bs s.cur.npc .none) (tapAgents gk qs true s))
          else .ok (storeParts gk (issuerOf u tid) s.cur.pc qs bs (setDirty qs (commitStore tid F s)))

def stBody (u : Bool) (a b : Src) (m : MemMod) (v : List Word) (tid : Nat) (s : State) : AccGot :=
  storeBody (formSt u a b) m.space (widthBytes m.width) (v.getD 0 0 + off14 m.off) (v.getD 1 0) tid s

/-! ## Prefetches (R128) -/

/-- A prefetch: dropped where it would fault, miss translation or find no tracker. Of an editioned page, whose bytes its agent serves, the
line comes to the die's L2 (R297). DEDUCED: log entry 7. -/
def pfBody (F : Form) (m : PfMod) (v : List Word) (tid : Nat) (s : State) : AccGot :=
  let gk := s.cur.gk
  let va := v.getD 0 0 + off14 m.off
  let done := commitStore tid F s
  let core := coreOf s gk
  if m.space ≠ .g ∨ !canonical va ∨ inAperture va 1 then .ok done
  else match s.mm.xlat.find? fun e => e.core == core && e.asid == ctxOf s gk && e.page == va.toNat % 2 ^ 57 / 65536 with
    | .none => .ok done
    | .some e =>
      let pa := e.leaf.pa + va.toNat % 65536
      let line := pa / 128
      if (refuse s e.leaf .r (userOf s gk tid F.uni) (askerOf s gk) pa 1).isSome || !isHbm pa || e.leaf.kind == .so
          || !trackersOk s gk [line] || !reachable s core pa then .ok done
      else
        let done := viewPage pa (materialOf done e.leaf) done
        let line := (pieceAddrs s (ctxOf s gk) ⟨⟨pa, 1, e.leaf.kind⟩, e.leaf.at_, e.leaf.region, va⟩).headD pa / 128
        if m.hint = .hs ∨ e.leaf.region ≠ 0 then .ok (dirRead (ctxOf s gk) (dieOf core) line (tapLine (ctxOf s gk) core (pa / 128) false false done))
        else .ok (fillLine (ctxOf s gk) core line (e.leaf.kind == .uo) false done)

def formPf (u : Bool) (a : Src) : Form := { uni := u, flds := [fA u a true] }

/-! ## Atomics (R133 to R135) -/

def atomBytes : AtomTy → Nat | .i32 => 4 | .n32 => 4 | .i64 => 8 | .n64 => 8 | .d => 8
/-- An element read by type (R47, R52). -/
def atomExt (ty : AtomTy) (x : Nat) : Word :=
  match ty with
  | .i32 => sx32 (BitVec.ofNat 32 x) | .n32 => zx32 (BitVec.ofNat 32 x) | .i64 => word x | .n64 => word x | .d => word x

/-- The new value of the element (R134), from the old one extended as its type; `x` is vb, `y` is vc. -/
def atomNew (minor : Nat) (ty : AtomTy) (old x y : Word) : Word :=
  let x := if atomBytes ty = 4 then atomExt ty (bits x 31 0) else x
  let y := if atomBytes ty = 4 then atomExt ty (bits y 31 0) else y
  match minor with
  | 0 => (match ty with
    | .d => word (opAdd fp64 fm0 old.toNat x.toNat).1
    | .i32 => old + x | .n32 => old + x | .i64 => old + x | .n64 => old + x)
  | 1 => (match ty with
    | .i32 => if x.slt old then x else old | .i64 => if x.slt old then x else old
    | .n32 => if x.ult old then x else old | .n64 => if x.ult old then x else old | .d => old)
  | 2 => (match ty with
    | .i32 => if old.slt x then x else old | .i64 => if old.slt x then x else old
    | .n32 => if old.ult x then x else old | .n64 => if old.ult x then x else old | .d => old)
  | 3 => old &&& x
  | 4 => old ||| x
  | 5 => old ^^^ x
  | 6 => x
  | _ => if old = x then y else old

def isRel (o : AtomOrd) : Bool := o == .rel || o == .ar || o == .sc
def isAcq (o : AtomOrd) : Bool := o == .acq || o == .ar || o == .sc

def formAtom (d : BitVec 6) (a b : Src) : Form := { uni := false, flds := [fA false a true, fB false b true], dv := .some d }
def formCas (d : BitVec 6) (a b c : Src) : Form :=
  { uni := false, flds := [fA false a true, fB false b true, fC false c true], dv := .some d }

/-- An atomic of one thread: its checks (R121 to R123), its release (R135), and the request; one to a peer, which acts there, leaves after
what the core's releases cover (R235, R244). -/
def atomBody (F : Form) (d : BitVec 6) (minor : Nat) (m : AtomMod) (v : List Word) (tid : Nat) (s : State) : AccGot :=
  let gk := s.cur.gk
  let va := v.getD 0 0 + off13 m.off
  let n := atomBytes m.ty
  let x := v.getD 1 0
  let y := v.getD 2 0
  match plan gk tid false (userOf s gk tid false) m.space [.r, .w] va n s with
  | (.fault c a, s) => .trap (accessFault s.cur.pc a c m.space true)
  | (.page asid p, s) => absentPage false tid m.space va true asid p s
  | (.ok qs, s) =>
    let ps := partsOf qs
    if (ps.any fun p => isPeer p.pa) && m.scope != .sys then .trap (accessFault s.cur.pc va 9 m.space true)
    else if va.toNat % n ≠ 0 then .trap { trapAt s .misalign va 0 with space := m.space, wr := true }
    else match stashBusy s m.space va n with
      | .some t => .trap { t with wr := true }
      | .none =>
        match issueWait false tid m.space ps true s with
        | .some w => .hold false w s
        | .none =>
          match (if isRel m.order then releaseWait s gk (.some tid) (m.scope == .sys) (m.order == .sc) (wideScope s gk m.scope) else .none) with
          | .some id => .hold false (.agent id) s
          | .none =>
            let s := if isRel m.order then releaseScope gk m.scope (m.order == .sc) s else s
            if qs.any (·.region != 0) then
              .stall s.mm.nextId (addOp gk tid s.cur.pc
                (.bwr false (usesOf F) va [] s.cur.npc (.some (d, minor, m, x, y, getR s gk tid false d)))
                (tapAgents gk qs true (emptyDest tid F s)))
            else match ps with
              | p :: _ =>
                if isPeer p.pa then
                  if !duePerforms s (coreOf s gk) then .hold true (.agent 0) s
                  else .ok (addOp gk tid s.cur.pc (.rload false d .none ps va (.some (minor, m, x, y)) .none)
                    (commitLong tid F (performDue (coreOf s gk) s)))
                else .ok (addOp gk tid s.cur.pc (.atomic d minor m p va x y) (commitLong tid F s))
              | [] => .ok s

/-! ## Meanings: the lane set -/

/-- R126: `ld`. -/
def execLd (d : BitVec 6) (a : Src) (m : MemMod) (s : State) : Out := accLane (formLd false d a) (ldBody false d a m) s
/-- R127: `st`. -/
def execSt (a b : Src) (m : MemMod) (s : State) : Out := accLane (formSt false a b) (stBody false a b m) s
/-- R131: `lde`. -/
def execLde (d : BitVec 6) (a b : Src) (m : LdeMod) (s : State) : Out :=
  accLane (formLde false d a b m.chk) (ldeBody false d a b m) s
/-- R128: `pf`. -/
def execPf (a : Src) (m : PfMod) (s : State) : Out := accLane (formPf false a) (pfBody (formPf false a) m) s

/-- R134, minor 0. -/
def execAtomAdd (d : BitVec 6) (a b : Src) (m : AtomMod) (s : State) : Out :=
  accLane (formAtom d a b) (atomBody (formAtom d a b) d 0 m) s
/-- R134, minor 1. -/
def execAtomMin (d : BitVec 6) (a b : Src) (m : AtomMod) (s : State) : Out :=
  accLane (formAtom d a b) (atomBody (formAtom d a b) d 1 m) s
/-- R134, minor 2. -/
def execAtomMax (d : BitVec 6) (a b : Src) (m : AtomMod) (s : State) : Out :=
  accLane (formAtom d a b) (atomBody (formAtom d a b) d 2 m) s
/-- R134, minor 3. -/
def execAtomAnd (d : BitVec 6) (a b : Src) (m : AtomMod) (s : State) : Out :=
  accLane (formAtom d a b) (atomBody (formAtom d a b) d 3 m) s
/-- R134, minor 4. -/
def execAtomOr (d : BitVec 6) (a b : Src) (m : AtomMod) (s : State) : Out :=
  accLane (formAtom d a b) (atomBody (formAtom d a b) d 4 m) s
/-- R134, minor 5. -/
def execAtomXor (d : BitVec 6) (a b : Src) (m : AtomMod) (s : State) : Out :=
  accLane (formAtom d a b) (atomBody (formAtom d a b) d 5 m) s
/-- R134, minor 6. -/
def execAtomXchg (d : BitVec 6) (a b : Src) (m : AtomMod) (s : State) : Out :=
  accLane (formAtom d a b) (atomBody (formAtom d a b) d 6 m) s
/-- R134, minor 7. -/
def execAtomCas (d : BitVec 6) (a b c : Src) (m : AtomMod) (s : State) : Out :=
  accLane (formCas d a b c) (atomBody (formCas d a b c) d 7 m) s

/-! ## Meanings: the uniform set (R129) -/

/-- R129: uniform `ld`. -/
def execLdU (d : BitVec 6) (a : Src) (m : MemMod) (s : State) : Out := accUni (formLd true d a) (ldBody true d a m) s
/-- R129: uniform `st`. -/
def execStU (a b : Src) (m : MemMod) (s : State) : Out := accUni (formSt true a b) (stBody true a b m) s
/-- R129: uniform `lde`. -/
def execLdeU (d : BitVec 6) (a b : Src) (m : LdeMod) (s : State) : Out :=
  accUni (formLde true d a b m.chk) (ldeBody true d a b m) s
/-- R129: uniform `pf`. -/
def execPfU (a : Src) (m : PfMod) (s : State) : Out := accUni (formPf true a) (pfBody (formPf true a) m) s

end Sys2Proof.Machine
end

