-- ==== Sys2Proof/Machine/Queues.lean ====
section
/-! DEFINITION. Capability entries, queues, mailboxes and channels: lane sends and receives (R136, R137), uniform sends and receives
(R158 to R160), and what their delivery does (R216, R265, R351, R352). -/

namespace Sys2Proof.Machine

def capOf (s : State) (gk n : Nat) : Option Cap := tget .none n (getGrid s (gridOfG gk)).caps
def capFault (s : State) (n : Nat) : TrapRec := trapAt s .capFault 0 (capInfo 0 n)

/-! ## Queues (R216) -/

def queueOf (s : State) (t q : Nat) : List QEnt := tget [] q (getTeam s t).queues
def setQueue (t q : Nat) (es : List QEnt) (s : State) : State :=
  setTeam t { getTeam s t with queues := tset [] q es (getTeam s t).queues } s
def queueRoom (s : State) (t q : Nat) : Nat := 64 - (queueOf s t q).length
/-- Entries that can be popped: those before the first that is only reserved (R218). -/
def poppable (es : List QEnt) : List QEnt := es.takeWhile (·.filled)
/-- Filled entries join a queue; each keeps the mark of its own bytes. -/
def pushEnts (t q : Nat) (ents : List (List Byte × Bool)) (s : State) : State :=
  ents.foldl (fun s e =>
    let s := setQueue t q (queueOf s t q ++ [⟨s.mm.nextId, true, e.1, e.2⟩]) s
    { s with mm := { s.mm with nextId := s.mm.nextId + 1 } }) s
def popEnts (t q n : Nat) (s : State) : State := setQueue t q ((queueOf s t q).drop n) s

/-- Bytes cut into pieces of 128. -/
def chunks : Nat → List Byte → List (List Byte)
  | 0, _ => []
  | k + 1, bs => if bs.isEmpty then [] else (List.range 128).map (fun i => bs.getD i 0) :: chunks k (bs.drop 128)

/-- A message's entries (R159), marked where one of their words is (R160). -/
def entriesOf (m : Msg) : List (List Byte × Bool) :=
  let cs := chunks 33 m.data
  (List.range cs.length).map fun i => (cs.getD i [], m.bad.any fun w => w / 16 == i)

/-! ## Lane sends and receives (R136, R137) -/

def entriesFor (w b : Nat) : Nat := (w * b + 127) / 128

/-- Whether an entry is a queue that carries the permission (R136). -/
def queueCap (s : State) (gk n : Nat) (send : Bool) : Option Nat :=
  match capOf s gk n with
  | .some c => if c.kind = .queue ∧ (if send then c.s else c.v) then .some (bits c.operand 2 0) else .none
  | .none => .none

def trapEach (ps : List Nat) (t : TrapRec) (s : State) : State :=
  ps.foldl (fun s i => if (getThr s (threadKey s.cur.gk i)).st = .exited then s else trapThread i t s) s

/-- Lane `recv` of elements of `b` bytes: every participant's destination is EMPTY until the entries are popped. A group whose every
guard is false moves its entries too (R137). -/
def laneRecv (d : BitVec 6) (n : BitVec 6) (b : Nat) (s : State) : Out :=
  let F : Form := { uni := false, flds := [], dv := .some d }
  crossWith F (fun ps s =>
    let gk := s.cur.gk
    match queueCap s gk n.toNat false with
      | .none => if ps.isEmpty then passGroup gk s.cur.npc s else trapEach (ps.map (·.tid)) (capFault s n.toNat) s
      | .some q =>
        if !trackersOk s gk [2 ^ 60] then holdGroup false .trackers s
        else
          let s := ps.foldl (fun s p => commitLong p.tid F s) s
          passGroup gk s.cur.npc (addOp gk 0xFFFF s.cur.pc (.qrecv d q (entriesFor (widthOf s gk) b) b (ps.map (·.tid))) s)) s

/-- The entries of a lane send: thread i's low `b` bytes at i·b, zero elsewhere. -/
def sendEnts (w b : Nat) (ps : List Part1) : List (List Byte) :=
  let bytes := (List.range (entriesFor w b * 128)).map fun k =>
    match ps.find? fun p => p.tid == k / b with
    | .some p => BitVec.ofNat 8 ((p.vals.getD 0 0).toNat / 256 ^ (k % b))
    | .none => 0
  chunks (entriesFor w b) bytes

def allowOf (s : State) (t n : Nat) : Nat := tget 0 n (getTeam s t).allow
def charge (t n units : Nat) (s : State) : State :=
  setTeam t { getTeam s t with allow := tset 0 n (allowOf s t n - units) (getTeam s t).allow } s

/-- A lane send once the queue has room: the allowance, then the push (R137); the group passes. -/
def lanePush (gk q n : Nat) (ents : List (List Byte)) (tids : List Nat) (use : Uses) (pc npc : Word) (s : State) : State :=
  let t := teamOfG gk
  if allowOf s t n < ents.length then
    if tids.isEmpty then passGroup gk npc s
    else tids.foldl (fun s i => if (getThr s (threadKey gk i)).st = .exited then s
      else takeTrap gk [i] false { name := .capFault, pc := pc, info := capInfo 0 n } s) s
  else
    let s := tids.foldl (fun s i => useAll gk i use s) s
    passGroup gk npc (charge t n ents.length (pushEnts t q (ents.map fun e => (e, false)) s))

/-- Lane `send` of elements of `b` bytes. -/
def laneSend (n : BitVec 6) (v : Src) (b : Nat) (s : State) : Out :=
  let F : Form := { uni := false, flds := [fB false v true] }
  crossWith F (fun ps s =>
    let gk := s.cur.gk
    let t := teamOfG gk
    match queueCap s gk n.toNat true with
      | .none => if ps.isEmpty then passGroup gk s.cur.npc s else trapEach (ps.map (·.tid)) (capFault s n.toNat) s
      | .some q =>
        match releaseWait s gk .none false false (getTeam s t).pair with
        | .some id => holdGroup false (.agent id) s
        | .none =>
          let s := releaseCore (coreOf s gk) (getTeam s t).pair false s
          let ents := sendEnts (widthOf s gk) b ps
          let tids := ps.map (·.tid)
          if ents.length ≤ queueRoom s t q then lanePush gk q n.toNat ents tids (usesOf F) s.cur.pc s.cur.npc s
          else holdAll (.agent s.mm.nextId) (addOp gk 0xFFFF s.cur.pc (.qsend q ents n.toNat s.cur.npc tids (usesOf F)) s)) s

/-- R137: `recv.d`. -/
def execRecvD (d n : BitVec 6) (s : State) : Out := laneRecv d n 8 s
/-- R137: `recv.w`. -/
def execRecvW (d n : BitVec 6) (s : State) : Out := laneRecv d n 4 s
/-- R137: `send.d`. -/
def execSendD (n : BitVec 6) (b : Src) (s : State) : Out := laneSend n b 8 s
/-- R137: `send.w`. -/
def execSendW (n : BitVec 6) (b : Src) (s : State) : Out := laneSend n b 4 s

/-! ## Uniform sends (R158 to R160) -/

/-- Where a message sent through an entry goes; none: the form takes CAP_FAULT (R159, R265). -/
def destOf (s : State) (gk : Nat) (c : Cap) (val : Bool) (len : Nat) : Option Dest :=
  if !c.s then .none
  else match c.kind with
    | .queue => .some (.queue (bits c.operand 2 0))
    | .comp => .none
    | .core =>
      if bits c.operand 31 0 < (recOf s gk).teams then
        .some (.box (teamKey (gridOfG gk) (bits c.operand 31 0)) (bits c.operand 37 32))
      else .none
    | .ualink => .some (.peer (bits c.operand 25 22) (bits c.operand 9 0) (bits c.operand 15 10) (bits c.operand 21 16))
    | .halo => if val || len != 128 then .none else .some (.halo (bits c.operand 1 0))
    | .coll => if val || len != 128 then .none else .some (.coll (bits c.operand 1 0))
    | .gloss => if val then .some (.gloss (bits c.operand 3 0)) else .none

/-- Whether sender and endpoint share a core: the narrowest scope that holds both is then the core's (R160). -/
def destWide (s : State) (gk : Nat) (d : Dest) : Bool :=
  match d with
  | .queue _ => (getTeam s (teamOfG gk)).pair
  | .box t _ => (getTeam s t).pair || (getTeam s (teamOfG gk)).pair || (getTeam s t).core != (getTeam s (teamOfG gk)).core
  | .peer _ _ _ _ => true | .halo _ => true | .coll _ => true | .gloss _ => false
def destSys (d : Dest) : Bool :=
  match d with
  | .peer _ _ _ _ => true | .halo _ => true | .coll _ => true | .queue _ => false | .box _ _ => false | .gloss _ => false

/-- The endpoint accepts a message of a group, if it can; a peer's answer comes from outside (`peerOk`). -/
def accept (gk : Nat) (d : Dest) (m : Msg) (peerOk : Bool) (s : State) : Option State :=
  let t := teamOfG gk
  match d with
  | .queue q => if (entriesOf m).length ≤ queueRoom s t q then .some (pushEnts t q (entriesOf m) s) else .none
  | .box u b =>
    let x := teamOrQueued s u
    if (tget [] b x.boxes).length < 8 then .some (setTeam u { x with boxes := tset [] b (tget [] b x.boxes ++ [m]) x.boxes } s)
    else .none
  | .peer port id v b =>
    if peerOk then .some { s with pk := { s.pk with outbox := s.pk.outbox ++ [(port, id, v, b, m)] } } else .none
  | .halo e =>
    let q := tget [] e s.pk.halo
    if q.length < 32 then
      .some { s with pk := { s.pk with halo := tset [] e (q ++ [{ team := t, gk := gk, data := m.data, bad := m.bad }]) s.pk.halo } }
    else .none
  | .coll e =>
    let q := tget [] e s.pk.coll
    if q.length < 32 then
      .some { s with pk := { s.pk with coll := tset [] e (q ++ [{ team := t, gk := gk, data := m.data, bad := m.bad }]) s.pk.coll } }
    else .none
  | .gloss e => .some (tapPort (coreOf s gk) e (word (natOf m.data)) (ctxOf s gk) s)

/-- The checks of a stash block (R158, in the order of R123). DEDUCED: log entry 28. -/
def blockCheck (s : State) (off len : Word) : Option TrapRec :=
  let o := off.toNat
  let n := len.toNat
  let gk := s.cur.gk
  if n < 128 ∨ 4096 < n ∨ n % 128 ≠ 0 ∨ windowOf s (teamOfG gk) < o + n then .some (accessFault s.cur.pc off 1 .s false)
  else if o % 128 ≠ 0 then .some { trapAt s .misalign off 0 with space := .s }
  else stashBusy s .s off n

/-- The words of a stash block that carry marks. -/
def blockMarks (s : State) (t off n : Nat) : List Nat :=
  (List.range (n / 8)).filter fun w => tget false (off / 8 + w) (getTeam s t).sbad

def sendForm (a : Src) (b : Option Src) : Form :=
  { uni := true, flds := match b with | .some b => [fA true a true, fB true b true] | .none => [fA true a true] }

/-- A uniform send: checks, allowance, release, then the endpoint accepts the message or the group waits for it (R159, R160). -/
def sendBody (F : Form) (n : Nat) (val : Bool) (v : List Word) (_ : Nat) (s : State) : AccGot :=
  let gk := s.cur.gk
  let t := teamOfG gk
  let x := v.getD 0 0
  let len := v.getD 1 0
  match (if val then .none else blockCheck s x len) with
  | .some tr => .trap tr
  | .none =>
    match (match capOf s gk n with | .some c => destOf s gk c val len.toNat | .none => .none) with
    | .none => .trap (capFault s n)
    | .some d =>
      let units := if val then 1 else len.toNat / 128
      if allowOf s t n < units then .trap (capFault s n)
      else match releaseWait s gk .none (destSys d) false (destWide s gk d) with
        | .some id => .hold false (.agent id) s
        | .none =>
          let s := releaseCore (coreOf s gk) (destWide s gk d) false s
          let m : Msg := if val then ⟨bytesOf 8 x.toNat, []⟩
            else ⟨stashRead s t x.toNat len.toNat, blockMarks s t x.toNat len.toNat⟩
          let s := charge t n units s
          match accept gk d m false s with
          | .some s => .ok (commitStore 0 F s)
          | .none => .stall s.mm.nextId (addOp gk 0xFFFF s.cur.pc (.msg d m s.cur.npc (usesOf F)) s)

/-- R159: `send` (with a byte length) and `send.v`. -/
def execSendU (n : BitVec 6) (a : Src) (b : Option Src) (s : State) : Out :=
  accUni (sendForm a b) (sendBody (sendForm a b) n.toNat b.isNone) s

/-! ## Uniform receives (R159, R160) -/

def recvForm (d : BitVec 6) (ab : Option (Src × Src)) : Form :=
  { uni := true, flds := match ab with | .some (a, b) => [fA true a true, fB true b true] | .none => [], dv := .some d }

/-- Whether an entry can be received through. -/
def recvCap (s : State) (gk n : Nat) : Option Cap :=
  match capOf s gk n with
  | .some c => if c.v ∧ c.kind ≠ .comp ∧ c.kind ≠ .gloss then .some c else .none
  | .none => .none

def recvBody (F : Form) (d : BitVec 6) (n : Nat) (blk : Bool) (v : List Word) (_ : Nat) (s : State) : AccGot :=
  let gk := s.cur.gk
  match (if blk then blockCheck s (v.getD 0 0) (v.getD 1 0) else .none) with
  | .some tr => .trap { tr with wr := true }
  | .none =>
    match recvCap s gk n with
    | .none => .trap (capFault s n)
    | .some _ =>
      let b := if blk then .some ((v.getD 0 0).toNat, (v.getD 1 0).toNat) else .none
      match meetWait s gk 0xFFFF true (opParts (.crecv d n b)) with
      | .some id => .hold false (.agent id) s
      | .none =>
        if !trackersOk s gk [2 ^ 60] then .hold false .trackers s
        else .ok (addOp gk 0xFFFF s.cur.pc (.crecv d n b) (commitLong 0 F s))

/-- R160: `recv` (into a stash block) and `recv.v`. -/
def execRecvU (d n : BitVec 6) (ab : Option (Src × Src)) (s : State) : Out :=
  accUni (recvForm d ab) (recvBody (recvForm d ab) d n.toNat ab.isSome) s

/-! ## What receives take -/

/-- What a receive of a team through an entry finds: its bytes, its marked words, whether it must fit a capacity, and the state
without it. -/
structure Taken where
  data : List Byte
  bad : List Nat
  rest : State

/-- A completion record (R353). -/
def complRecord (c : Compl) : List Byte :=
  bytesOf 8 c.token.toNat ++ bytesOf 8 c.status ++ bytesOf 8 c.rd ++ bytesOf 8 c.wr ++ List.replicate 96 0
/-- A completion value (R353). -/
def complValue (c : Compl) : List Byte := bytesOf 7 (bits c.token 55 0) ++ bytesOf 1 c.status

def takeCompl (t : Nat) (blk : Bool) (q : List Compl) (put : List Compl → State) : Option Taken :=
  match q.find? fun c => c.team == t with
  | .some c => .some ⟨if blk then complRecord c else complValue c, [], put (q.erase c)⟩
  | .none => .none

/-- Where slot k of an inbound mailbox lies in the save area of a virtual device (R280, R351). DEDUCED: log entry 35. -/
def inboxAt (s : State) (vdev m k : Nat) : Nat := (blockOf s vdev).savebase + 0x100000 + (m * 16 + k) * 4096

/-- The next message of an entry for a receive with a capacity (none: a value); marked queue entries are marked whole (R218). -/
def takeNext (gk : Nat) (c : Cap) (cap : Option Nat) (s : State) : Option Taken :=
  let t := teamOfG gk
  match c.kind with
  | .queue =>
    let q := bits c.operand 2 0
    let n := match cap with | .some k => k / 128 | .none => 1
    let es := poppable (queueOf s t q)
    if es.length < n then .none
    else
      let es := es.take n
      .some ⟨es.flatMap (·.data), (List.range (16 * n)).filter fun w => (es.getD (w / 16) ⟨0, true, [], false⟩).bad,
        popEnts t q n s⟩
  | .core =>
    let b := bits c.operand 37 32
    let x := getTeam s t
    (match tget [] b x.boxes with
    | [] => .none
    | m :: ms => .some ⟨m.data, m.bad, setTeam t { x with boxes := tset [] b ms x.boxes } s⟩)
  | .ualink =>
    let key := vdevOf s (ctxOf s gk) * 64 + bits c.operand 21 16
    let id := bits c.operand 9 0
    let q := tget [] key s.pk.inbox
    (match q.find? fun m => id == 1023 || m.peer == id with
    | .some m =>
      let a := inboxAt s (vdevOf s (ctxOf s gk)) (bits c.operand 21 16) m.slot
      .some ⟨pread s a m.len, (List.range ((m.len + 7) / 8)).filter fun w => pbad s (a + 8 * w) 8,
        { s with pk := { s.pk with inbox := tset [] key (q.erase m) s.pk.inbox } }⟩
    | .none => .none)
  | .halo =>
    let e := bits c.operand 1 0
    takeCompl t cap.isSome (tget [] e s.pk.hdone) fun q => { s with pk := { s.pk with hdone := tset [] e q s.pk.hdone } }
  | .coll =>
    let e := bits c.operand 1 0
    takeCompl t cap.isSome (tget [] e s.pk.cdone) fun q => { s with pk := { s.pk with cdone := tset [] e q s.pk.cdone } }
  | .comp => .none
  | .gloss => .none

/-- The acquire of a receive, at the narrowest scope that holds both ends (R160). -/
def recvAcquire (gk : Nat) (c : Cap) (s : State) : State :=
  let wide := match c.kind with
    | .queue => (getTeam s (teamOfG gk)).pair
    | .comp => true | .core => true | .ualink => true | .halo => true | .coll => true | .gloss => true
  acquireCore (coreOf s gk) wide false s

/-- A uniform receive takes its message, or leaves one that is too long in place (R160). DEDUCED: log entry 33. -/
def finishCrecv (o : Op) (d : BitVec 6) (c : Cap) (blk : Option (Nat × Nat)) (s : State) : State :=
  let gk := o.gk
  let t := teamOfG gk
  match takeNext gk c (blk.map (·.2)) s with
  | .none => s
  | .some k =>
    let len := k.data.length
    let cap := match blk with | .some b => b.2 | .none => 8
    let queue := c.kind == .queue
    if !queue && decide (cap < len) then
      complete gk 0 true d (word (len + 2 ^ 63)) (dropOp o.id s)
    else
      let s := recvAcquire gk c (dropOp o.id k.rest)
      match blk with
      | .some b =>
        let s := stashWrite t b.1 k.data s
        let s := k.bad.foldl (fun s w => stashMark t (b.1 + 8 * w) 8 s) s
        complete gk 0 true d (word len) s
      | .none =>
        if k.bad.contains 0 then completeFault gk 0 true d o.ia 0 s
        else complete gk 0 true d (word (fieldOf k.data 0 8)) s

/-- A lane receive pops its entries (R137): element i to thread i, FAULT where its entry is marked (R218), with the data
address 0, an entry having none. DEDUCED: log entry 33. DESIGN CHOICE: log entry 46. -/
def finishQrecv (o : Op) (d : BitVec 6) (q n b : Nat) (tids : List Nat) (s : State) : State :=
  let gk := o.gk
  let t := teamOfG gk
  let es := (poppable (queueOf s t q)).take n
  let data := es.flatMap (·.data)
  let s := dropOp o.id (popEnts t q n s)
  let s := acquireCore (coreOf s gk) (getTeam s t).pair false s
  tids.foldl (fun s i =>
    if (es.getD (i * b / 128) ⟨0, true, [], false⟩).bad then completeFault gk i false d o.ia 0 s
    else complete gk i false d (word (fieldOf data (i * b) b)) s) s

end Sys2Proof.Machine
end

