-- ==== Sys2Proof/Machine/Program.lean ====
section
/-! DEFINITION. Access programs (R217 to R219): reading a program, its requests and their returns, and how it ends. -/

namespace Sys2Proof.Machine

/-! ## Engine pieces -/

/-- Where an engine finds bytes of one page (R238, R297): the piece, and that of the translation used (R342); an error at an address; a
wait. -/
inductive EngP
  | ok (p via : Part)
  | err (a : Word)
  | wait (w : Wait)
  deriving DecidableEq, Repr

/-- The place of a read by an engine of a group; a page of an editioned region is read at default edition 0 (R126, R218). The range
lies within one sub-block. -/
def engPart (q : Asker) (gk : Nat) (sp : Space) (va : Word) (n : Nat) (s : State) : EngP × State :=
  match planFor q (windowOf s (teamOfG gk)) true sp [.r] va n s with
  | (.fault _ a, s) => (.err a, s)
  | (.page a p, s) => (.wait (.page a p), engJoin gk a p false s)
  | (.ok ps, s) =>
    match ps with
    | [p] =>
      if isDev p.part.pa then (.err va, s)
      else if p.region = 0 then (.ok p.part p.part, s)
      else
        let u := va.toNat % 2 ^ 57
        (match agentLeaf s (ctxOf s gk) u, pageIndex s p.region (ctxOf s gk) u with
        | .some l, .some i =>
          (match chooseCopy s p.region i l (defEdition (recOf s gk) 0) (u % 65536) with
          | .some a => (.ok { p.part with pa := a } p.part, s)
          | .none => (.err va, s))
        | _, _ => (.err va, s))
    | _ => (.err va, s)

/-! ## The program's own words (R217) -/

/-- One stream record, unless a reserved value or bound is broken. -/
def parseStream (bs : List Byte) : Option StreamRec :=
  let c := fieldOf bs 22 1
  let e := fieldOf bs 20 2
  if fieldOf bs 23 9 ≠ 0 ∨ nb c 7 7 ≠ 0 ∨ nb c 6 5 = 3 ∨ e = 0 ∨ 32 < e ∨ (nb c 4 3 ≠ 0 ∧ nb c 4 3 ≠ 2) then .none
  else .some { off := word (fieldOf bs 0 8), stride := word (fieldOf bs 8 8), rows := fieldOf bs 16 4, entries := e
               queue := nb c 2 0, space := if nb c 4 3 = 0 then .g else .h }

/-- Bytes of the program, once its header has been read; none: a count outside 1 to 31. -/
def progBytes (hdr : List Byte) : Option Nat :=
  let n := fieldOf hdr 0 4
  if n = 0 ∨ 31 < n ∨ fieldOf hdr 4 28 ≠ 0 then .none else .some (32 + 32 * n)

/-- The records of a whole program; none: a fault. DEDUCED: log entry 33. -/
def parseProgram (qs : List Nat) (hdr : List Byte) : Option (List StreamRec) :=
  let rs := (List.range (fieldOf hdr 0 4)).map fun i => parseStream (slice hdr (32 + 32 * i) 32)
  if rs.all fun r => match r with | .some r => qs.contains r.queue | .none => false then .some (rs.filterMap id) else .none

def setProg (t : Nat) (p : Option AProg) (s : State) : State := setTeam t { getTeam s t with prog := p } s

/-- The program of a team ends: its fork set learns how (R157). -/
def endProg (t : Nat) (e : ProgEnd) (s : State) : State :=
  match (getTeam s t).prog with
  | .none => s
  | .some p =>
    let s := setProg t .none s
    let x := getTeam s t
    match tget .none p.set x.sets with
    | .some f => setTeam t { x with sets := tset .none p.set (.some { f with prog := .some e }) x.sets } s
    | .none => s

/-- The engine reads the program, 32 bytes at a time, as far as it gets (R217, R218): once it has all of it the program runs, or it
ends on a fault. -/
def readProg (t : Nat) : Nat → State → State
  | 0, s => s
  | k + 1, s =>
    match (getTeam s t).prog with
    | .none => s
    | .some p =>
      if p.ready then s
      else
        let fault := endProg t (.fault p.base) s
        match (if p.hdr = [] then .some 32 else progBytes p.hdr) with
        | .none => fault
        | .some n =>
          if n ≤ p.hdr.length then
            match parseProgram (getTeam s t).qnames p.hdr with
            | .none => fault
            | .some rs => setProg t (.some { p with ready := true, recs := rs, wait := .none }) s
          else
            let a := p.base + word p.hdr.length
            match engPart (engAsker s p.gk) p.gk .g a 32 s with
            | (.err d, s) => endProg t (.fault d) s
            | (.wait w, s) => setProg t (.some { p with wait := w }) s
            | (.ok q _, s) =>
              if isPeer q.pa then
                setProg t (.some { p with wait := .agent s.mm.nextId }) (addOp p.gk engineTid p.ia (.aline t 8 0 [q] a .g) s)
              else if pbad s q.pa 32 then endProg t (.fault a) s
              else readProg t k (setProg t (.some { p with hdr := p.hdr ++ pread s q.pa 32, wait := .none })
                (engineReads (ctxOf s p.gk) (dieOf (coreOf s p.gk)) q.kind q.pa 32 s))

/-- A program starts (R156, R217): a misaligned one ends on a fault. -/
def startProg (gk : Nat) (ia base arg : Word) (set : Nat) (s : State) : State :=
  let t := teamOfG gk
  let s := setProg t (.some { base := base, gk := gk, ia := ia, arg := arg, set := set }) s
  if base.toNat % 64 ≠ 0 then endProg t (.fault base) s else readProg t 34 s

/-! ## Requests and returns (R218) -/

/-- The lines of a team's program that have not returned. -/
def linesOut (s : State) (t : Nat) : Bool :=
  s.mm.ops.any fun o => match o.k with | .aline u q _ _ _ _ => u == t && q != 8 | _ => false

/-- The program ends normally when every reserved entry is filled. -/
def settleProg (t : Nat) (s : State) : State :=
  match (getTeam s t).prog with
  | .some p => if p.ready && decide (p.recs.length ≤ p.i) && !linesOut s t then endProg t .ok s else s
  | .none => s

/-- The position after one entry. DEDUCED: log entry 33. -/
def stepProg (r : StreamRec) (p : AProg) : AProg :=
  if p.e + 1 < r.entries then { p with e := p.e + 1 }
  else if p.row + 1 < r.rows then { p with e := 0, row := p.row + 1 }
  else { p with e := 0, row := 0, i := p.i + 1 }

/-- Records of no rows are skipped. -/
def skipEmpty : Nat → AProg → AProg
  | 0, p => p
  | k + 1, p =>
    match p.recs[p.i]? with
    | .some r => if r.rows = 0 then skipEmpty k { p with i := p.i + 1 } else p
    | .none => p

/-- ACCESS_PROGRAM_REQUEST for team `t` (R218): one entry reserved and one line requested, if the queue has a free entry and a tracker
can be taken; a not-present page makes the engine wait. A team that is not resident requests nothing (R219). -/
def programRequest (t : Nat) (s : State) : State :=
  match (getTeam s t).prog with
  | .none => s
  | .some p =>
    if (getTeam s t).st ≠ .resident then s
    else if !p.ready then (match p.wait with | .agent _ => s | _ => readProg t 34 s)
    else
      let p := skipEmpty 32 p
      match p.recs[p.i]? with
      | .none => settleProg t (setProg t (.some p) s)
      | .some r =>
        let a := p.arg + r.off + word p.row * r.stride
        if a.toNat % 128 ≠ 0 then endProg t (.fault a) s
        else if queueRoom s t r.queue = 0 then s
        else
          let va := a + word (128 * p.e)
          match engPart (engAsker s p.gk) p.gk r.space va 128 s with
          | (.err d, s) => endProg t (.fault d) s
          | (.wait w, s) => setProg t (.some { p with wait := w }) s
          | (.ok q via, s) =>
            if !trackersOk s p.gk (partLines [q]) || !reachable s (coreOf s p.gk) q.pa then s
            else
              let id := s.mm.nextId
              let s := setQueue t r.queue (queueOf s t r.queue ++ [⟨id, false, [], false⟩]) s
              let s := setProg t (.some (stepProg r { p with wait := .none })) s
              let s := addOp p.gk engineTid p.ia (.aline t r.queue id [q] va r.space) s
              if r.space = .g ∧ isHbm q.pa then tapLine (ctxOf s p.gk) (coreOf s p.gk) (via.pa / 128) false true s else s

/-- A line returns: it fills its entry, marked if a word of it is (R218); the program's own words are read on. -/
def lineReturn (o : Op) (t q ent : Nat) (bs : List Byte) (bad : Bool) (s : State) : State :=
  let s := dropOp o.id s
  if q = 8 then
    match (getTeam s t).prog with
    | .some p =>
      if bad then endProg t (.fault (p.base + word p.hdr.length)) s
      else readProg t 34 (setProg t (.some { p with hdr := p.hdr ++ bs, wait := .none }) s)
    | .none => s
  else
    settleProg t (setQueue t q ((queueOf s t q).map fun e => if e.id = ent then ⟨ent, true, bs, bad⟩ else e) s)

/-- R218: an access engine goes on with the program of team `t`. -/
def execAccessProgramRequest (t : Nat) (s : State) : Out := .next (settleTeam t (programRequest t s))

/-- What a line of an access program returns: of an editioned page the bytes of the copy that default edition 0 names now (R218, R299),
else those of its piece, under the leaf's key (R303); none: a fault, the edition being gone or its copy outside the device's slices. -/
def lineBytes (gk : Nat) (p : Part) (va : Word) (sp : Space) (s : State) : Option (List Byte × Bool) × State :=
  let plain (s : State) : Option (List Byte × Bool) × State := (.some (pread s p.pa p.len, pbad s p.pa p.len),
    if isHbm p.pa then engineReads (ctxOf s gk) (dieOf (coreOf s gk)) p.kind p.pa p.len s else s)
  if sp ≠ .g then plain s
  else match agentLeaf s (ctxOf s gk) (va.toNat % 2 ^ 57) with
    | .none => plain s
    | .some l =>
      if l.region = 0 then plain (if isHbm p.pa then viewPage p.pa (materialOf s l) s else s)
      else
        let e := defEdition (recOf s gk) 0
        match editionRead s (ctxOf s gk) (va.toNat % 2 ^ 57) p.len l e with
        | .ok bs m =>
          (.some (bs, m.any id), engineReadsAt gk l.kind ((editionAt s (ctxOf s gk) (va.toNat % 2 ^ 57) p.len l e).getD []) s)
        | .gone => (.none, s)
        | .denied => (.none, s)

/-- R218: a requested line returns, once its home can be reached (R319); one that is a fault ends the program, and the entry that it had
reserved is filled all the same, with bytes that the spec leaves open. DESIGN CHOICE: log entry 54. -/
def execAccessProgramReturn (k : Nat) (s : State) : Out :=
  .next (match findOp s k with
    | .some o =>
      (match o.k with
      | .aline t q ent ps va sp =>
        (match ps with
        | p :: _ =>
          if isPeer p.pa || !partReach s (coreOf s o.gk) p then s
          else match lineBytes o.gk p va sp s with
            | (.some x, s) => settleTeam t (lineReturn o t q ent x.1 x.2 s)
            | (.none, s) =>
              let f := freeBytes 128 (endProg t (.fault va) s)
              settleTeam t (lineReturn o t q ent f.1 false f.2)
        | [] => dropOp k s)
      | _ => s)
    | .none => s)

end Sys2Proof.Machine
end

