-- ==== Sys2Proof/Machine/Control.lean ====
section
/-! DEFINITION. Lane branches, calls, register jumps and `nop` (R35, R97 to R99, R101). `exit` stands in Machine/Exit.lean, since the
end of a thread ends teams and releases what the rest of its group waits for. -/

namespace Sys2Proof.Machine

/-- The target of an LB or UB branch: the address of its own word plus 4 × disp21 (R35). -/
def branchTarget (pc : Word) (t : BitVec 21) : Word := pc + (t.signExtend 64 <<< 2)

/-- A branch of each thread on its own predicate (R97): a taken branch sets the program counter. -/
def branchBody (u : Bool) (p : BitVec 3) (n : Bool) (t : BitVec 21) (link : Bool) : List Word → Nat → State → Eff := fun _ i s =>
  let taken := (getPQ s s.cur.gk i u p).b != n
  .val (if taken && link then .some s.cur.npc else .none) .none 0 (if taken then .some (branchTarget s.cur.pc t) else .none)

/-- R97: `bra`. -/
def execBra (p : BitVec 3) (n : Bool) (t : BitVec 21) (s : State) : Out :=
  lane { uni := false, flds := [], preds := [p] } false (branchBody false p n t false) s

/-- R98: `call`: a taken call writes the address of the next word into v63. -/
def execCall (p : BitVec 3) (n : Bool) (t : BitVec 21) (s : State) : Out :=
  lane { uni := false, flds := [], preds := [p], dv := .some 63 } false (branchBody false p n t true) s

/-- A register jump (R99): a clean target that is misaligned takes ILLEGAL (R28). -/
def jumpBody (link : Bool) : List Word → Nat → State → Eff := fun v _ s =>
  let t := v.getD 0 0
  if bits t 1 0 ≠ 0 then .trap (illegalHere s)
  else .val (if link then .some s.cur.npc else .none) .none 0 (.some t)

/-- R99: `jmp`. -/
def execJmp (a : Src) (s : State) : Out := lane { uni := false, flds := [fA false a true] } false (jumpBody false) s
/-- R99: `callr`. -/
def execCallr (d : BitVec 6) (a : Src) (s : State) : Out :=
  lane { uni := false, flds := [fA false a true], dv := .some d } false (jumpBody true) s
/-- R99: `ret`: the effect of `jmp`. -/
def execRet (a : Src) (s : State) : Out := lane { uni := false, flds := [fA false a true] } false (jumpBody false) s

/-- R101: `nop`. -/
def execNop (s : State) : Out := lane { uni := false, flds := [] } false (fun _ _ _ => .val .none .none 0 .none) s

end Sys2Proof.Machine
end

