-- ==== Sys2Proof/Machine/Uniform.lean ====
section
/-! DEFINITION. Uniform jumps and calls (R150, R151), barriers (R152, R153), fences (R138), claims (R139), waits (R143, R157), editions
(R164, R165) and system instructions (R167 to R172). -/

namespace Sys2Proof.Machine

/-! ## Jumps and calls -/

/-- R150: `ujmp`. -/
def execUjmp (p : BitVec 3) (n : Bool) (t : BitVec 21) (s : State) : Out :=
  uniEff { uni := true, flds := [], preds := [p] } (branchBody true p n t false) s
/-- R150: `ucall`: a taken call writes the address of the next word into s63. -/
def execUcall (p : BitVec 3) (n : Bool) (t : BitVec 21) (s : State) : Out :=
  uniEff { uni := true, flds := [], preds := [p], dv := .some 63 } (branchBody true p n t true) s

/-- A uniform register jump (R151); its target is fetched by the group. -/
def uniJump (F : Form) (link : Bool) (s : State) : Out :=
  uni F (fun v psn s =>
    match jumpBody link v 0 s with
    | .trap t => trapGroup t s
    | .val x p _ pc =>
      let gk := s.cur.gk
      let s := uniCommit F psn x p pc s
      setGrp gk { getGrp s gk with utgt := pc } s) s

/-- R151: `ujmpr`. -/
def execUjmpr (a : Src) (s : State) : Out := uniJump { uni := true, flds := [fA true a true] } false s
/-- R151: `ucallr`. -/
def execUcallr (d : BitVec 6) (a : Src) (s : State) : Out :=
  uniJump { uni := true, flds := [fA true a true], dv := .some d } true s
/-- R151: `uret`. -/
def execUret (a : Src) (s : State) : Out := uniJump { uni := true, flds := [fA true a true] } false s

/-! ## Barriers -/

/-- Whether a group counts as arrived at the team barrier: it waits there, or all its threads have exited (R152). -/
def atTbar (s : State) (gk : Nat) : Bool := (getGrp s gk).tbar.isSome || (live s gk).isEmpty

/-- A group leaves the team barrier. -/
def leaveTbar (s : State) (gk : Nat) : State :=
  let x := getGrp s gk
  match x.tbar with
  | .none => s
  | .some npc =>
    let s := acquireCore (coreOf s gk) (getTeam s (teamOfG gk)).pair false s
    passGroup gk npc (setGrp gk { x with tbar := .none } s)

def groupsOf (s : State) (t : Nat) : List Nat := (List.range (getGrid s (gridOfT t)).lr.groups).map (groupKey t)

/-- All waiting groups are released together when every group of the team has arrived (R152). -/
def settleTbar (t : Nat) (s : State) : State :=
  let gs := groupsOf s t
  if gs.all (atTbar s) && gs.any fun g => (getGrp s g).tbar.isSome then gs.foldl leaveTbar s else s

def noForm : Form := { uni := true, flds := [] }

/-- R152: `tbar`: a release at `.team`, then the group waits for the others. -/
def execTbar (s : State) : Out :=
  uni noForm (fun _ _ s =>
    let gk := s.cur.gk
    let t := teamOfG gk
    match releaseWait s gk .none false false (getTeam s t).pair with
    | .some id => holdGroup false (.agent id) s
    | .none =>
      let s := releaseCore (coreOf s gk) (getTeam s t).pair false s
      settleTbar t (blockAll .tbar (setGrp gk { getGrp s gk with tbar := .some s.cur.npc } s))) s

/-- R153: `bar`: every access of the group is performed at `.dev`, those of UO pages and remote stores too (R384), then it waits for the
device barrier; without a participation set BARRIER_FAULT. -/
def execBar (s : State) : Out :=
  uni noForm (fun _ _ s =>
    let gk := s.cur.gk
    if (getGrid s (gridOfG gk)).barCtx.isNone then trapGroup (trapAt s .barrierFault 0 0) s
    else match releaseWait s gk .none true true with
      | .some id => holdGroup false (.agent id) s
      | .none =>
        let s := releaseCore (coreOf s gk) true true s
        blockAll .bar (setGrp gk { getGrp s gk with bar := .some s.cur.npc } s)) s

/-! ## Fences (R138, R234) -/

def fenceRel (k : OrdKind) : Bool := k != .acq
def fenceAcq (k : OrdKind) : Bool := k != .rel
/-- What a fence waits for: its group's own accesses, and its die's requests under earlier generations of the routes (R138, R318). -/
def fenceWait (s : State) (gk : Nat) (k : OrdKind) (c : Scope) : Option Nat :=
  if fenceRel k then
    match releaseWait s gk .none (c == .sys) (k == .sc) (wideScope s gk c) with
    | .some id => .some id
    | .none => if dieScope c then oldRequest s (dieOf (coreOf s gk)) else .none
  else acquireWait s gk

/-- What a fence of a group does to its core's L1 (R234): its release side (`releaseScope`), then the acquire side. DEDUCED: log entry 9. -/
def fenceCore (gk : Nat) (k : OrdKind) (c : Scope) (s : State) : State :=
  let sc := k == .sc
  let s := if fenceRel k then releaseScope gk c sc s else s
  if fenceAcq k then acquireCore (coreOf s gk) (wideScope s gk c) sc s else s

/-- R138: `fence.K.S`. -/
def execFence (k : OrdKind) (c : Scope) (s : State) : Out :=
  uni noForm (fun _ _ s =>
    let gk := s.cur.gk
    if c = .thread then passGroup gk s.cur.npc s
    else match fenceWait s gk k c with
      | .some id => holdGroup false (.agent id) s
      | .none => passGroup gk s.cur.npc (fenceCore gk k c s)) s

/-! ## Claims (R139) -/

/-- The first page of a range that is unmapped or lacks write permission, with its cause. -/
def claimScan (gk : Nat) (user : Bool) : Nat → Nat → State → Option (Nat × Nat) × State
  | 0, _, s => (.none, s)
  | k + 1, page, s =>
    match xlate { askerOf s gk with core := agentCore } (page * 65536) 1 .w user s with
    | (.ok _ _, s) => claimScan gk user k (page + 1) s
    | (.cause c, s) => (.some (page, c), s)
    | (.absent, s) => (.some (page, 2), s)

def claimBody (F : Form) (d : BitVec 6) (v : List Word) (_ : Nat) (s : State) : AccGot :=
  let gk := s.cur.gk
  let a := v.getD 0 0
  let n := (v.getD 1 0).toNat
  let lo := a.toNat % 2 ^ 57
  if n = 0 then .ok (complete gk 0 true d 0 (commitStore 0 F s))
  else if !canonical a || decide (2 ^ 57 < lo + n) then .trap (accessFault s.cur.pc a 1 .g true)
  else
    let p0 := lo / 65536
    let cnt := (lo + n - 1) / 65536 + 1 - p0
    match claimScan gk (userOf s gk 0 true) cnt p0 s with
    | (.some (p, c), s) => .trap (accessFault s.cur.pc (if p = p0 then a else word (p * 65536)) c .g true)
    | (.none, s) =>
      match releaseWait s gk .none true true with
      | .some id => .hold false (.agent id) s
      | .none =>
        let s := releaseCore (coreOf s gk) true true s
        .ok (addOp gk 0xFFFF s.cur.pc (.claim d p0 cnt 0 .none) (commitLong 0 F s))

/-- R139: `claim`. -/
def execClaim (d : BitVec 6) (a b : Src) (s : State) : Out :=
  let F : Form := { uni := true, flds := [fA true a true, fB true b true], dv := .some d }
  accUni F (claimBody F d) s

/-! ## Handle waits and rendezvous (R143, R157) -/

def condMet (c : HCond) (h : HState) : Bool :=
  match c with
  | .full => h == .full | .free => h == .free | .idle => h == .full || h == .free

/-- R143: `waith`; what a drain or a fill of the handle has performed is seen afterwards, in global memory too (R237). DEDUCED: log entry 9. -/
def execWaith (c : HCond) (n : BitVec 7) (s : State) : Out :=
  uni noForm (fun _ _ s =>
    let gk := s.cur.gk
    let t := teamOfG gk
    match getHandle s t n.toNat with
    | .none => trapGroup (trapAt s .handleFault 0 (word n.toNat)) s
    | .some h =>
      if isEngine h.st || !(h.err || condMet c h.st) then blockAll (.waith n.toNat c) s
      else if h.err then
        trapGroup (trapAt s .copyFault 0 (word n.toNat)) (setHandle t n.toNat { h with err := false } s)
      else passGroup gk s.cur.npc (acquireCore (coreOf s gk) true true s)) s

/-- A fork set is freed. -/
def freeSet (t n : Nat) (s : State) : State :=
  let x := getTeam s t
  let s := setTeam t { x with sets := tset .none n .none x.sets } s
  (groupsOf s t).foldl (fun s g => if (getGrp s g).fork = .some n then setGrp g { getGrp s g with fork := .none } s else s) s

def setEnded (f : ForkSet) : Bool := f.live.isEmpty && f.prog != .some .run
def handleErr (s : State) (t h : Nat) : Bool := match getHandle s t h with | .some x => x.err | .none => false
def clearErrs (t : Nat) (hs : List Nat) (s : State) : State :=
  hs.foldl (fun s h => match getHandle s t h with | .some x => setHandle t h { x with err := false } s | .none => s) s

/-- R157: `rdv`; an acquire of its members' beats (R237). DEDUCED: log entry 9. -/
def execRdv (a : Src) (s : State) : Out :=
  uni { uni := true, flds := [fA true a true] } (fun v psn s =>
    let gk := s.cur.gk
    let t := teamOfG gk
    let x := v.getD 0 0
    let F : Form := { uni := true, flds := [fA true a true] }
    match (if x.toNat < 8 then tget .none x.toNat (getTeam s t).sets else .none) with
    | .none => trapGroup (trapAt s .engineFault 0 x) s
    | .some f =>
      if !setEnded f then blockAll (.rdv x.toNat) s
      else match f.hs.find? (handleErr s t) with
        | .some h => trapGroup (trapAt s .copyFault 0 (word h)) (freeSet t x.toNat (clearErrs t f.hs s))
        | .none =>
          match f.prog with
          | .some (.fault a) => trapGroup (trapAt s .engineFault a x) (freeSet t x.toNat s)
          | .some .run => s
          | .some .ok => uniCommit F psn .none .none .none (acquireCore (coreOf s gk) true true (freeSet t x.toNat s))
          | .none => uniCommit F psn .none .none .none (acquireCore (coreOf s gk) true true (freeSet t x.toNat s))) s

/-! ## Editions (R164, R165) -/

/-- The editioned region of an address that the group may write, or why there is none (R164). -/
inductive RegionGot
  | ok (r : Nat)
  | trap (t : TrapRec)
  | page (asid page : Nat)

def regionOf (va : Word) (s : State) : RegionGot × State :=
  let gk := s.cur.gk
  match plan gk 0 true (userOf s gk 0 true) .g [.w] va 1 s with
  | (.fault c a, s) => (.trap (accessFault s.cur.pc a c .g true), s)
  | (.page a p, s) => (.page a p, s)
  | (.ok ps, s) =>
    match ps with
    | p :: _ => if p.region = 0 then (.trap (accessFault s.cur.pc va 2 .g true), s) else (.ok p.region, s)
    | [] => (.trap (accessFault s.cur.pc va 2 .g true), s)

/-- R164: `bpub`: every earlier access of the group is performed at `.dev`; `sd` is EMPTY, and the group waits, until the publish has acted
at the region's agent (R36). -/
def execBpub (d : BitVec 6) (a : Src) (s : State) : Out :=
  let F : Form := { uni := true, flds := [fA true a true], dv := .some d }
  accUni F (fun v _ s =>
    let va := v.getD 0 0
    let gk := s.cur.gk
    match regionOf va s with
    | (.trap t, _) => .trap t
    | (.page asid p, s) => absentPage true 0 .g va true asid p s
    | (.ok r, s) =>
      match releaseWait s gk .none false true with
      | .some id => .hold false (.agent id) s
      | .none =>
        let s := releaseCore (coreOf s gk) true true s
        .stall s.mm.nextId (addOp gk 0xFFFF s.cur.pc (.bpub d va r s.cur.npc (usesOf F) (getS s gk d)) (markEmpty gk 0 true d s))) s

/-- R165: `bfloor`. -/
def execBfloor (d : BitVec 6) (a b : Src) (s : State) : Out :=
  let F : Form := { uni := true, flds := [fA true a true, fB true b true], dv := .some d }
  accUni F (fun v _ s =>
    let va := v.getD 0 0
    match regionOf va s with
    | (.trap t, _) => .trap t
    | (.page asid p, s) => absentPage true 0 .g va true asid p s
    | (.ok r, s) => .ok (addOp s.cur.gk 0xFFFF s.cur.pc (.bfloor d r (bits (v.getD 1 0) 31 0)) (commitLong 0 F s))) s

/-! ## System instructions (R167 to R172) -/

/-- R167: `trap`: USER_TRAP of the group, which resumes at the next word. -/
def execTrap (c : BitVec 12) (s : State) : Out :=
  uni noForm (fun _ _ s => trapGroup { name := .userTrap, pc := s.cur.npc, info := c.setWidth 64 } s) s

/-- R168: `rett`. -/
def execRett (s : State) : Out := uniP true noForm (fun _ _ s => returnFromTrap s.cur.gk s) s

/-- Registers that only system mode reads (R170). -/
def sysOnly : SysReg → Bool
  | .fpx => false | .amax _ => false | .atomSize => false | .gang => false
  | .trapKind => true | .trapPc => true | .trapAddr => true | .trapInfo => true | .trapTid => true
  | .trapTmp0 => true | .trapTmp1 => true | .trapTmp2 => true

/-- ATOM_SIZE (R124): peer 8 B, host 8 B, HBM 32 B, stash 64 B. -/
def atomSizeWord : Word := 0x3356

def readSys (s : State) (gk : Nat) : SysReg → Word
  | .fpx => (getGrp s gk).fpx.setWidth 64
  | .amax k => tget 0 k.toNat (getGrp s gk).amax
  | .atomSize => atomSizeWord
  | .gang => (getGrp s gk).gang
  | .trapKind => (getGrp s gk).tKind
  | .trapPc => (getGrp s gk).tPc
  | .trapAddr => (getGrp s gk).tAddr
  | .trapInfo => (getGrp s gk).tInfo
  | .trapTid => (getGrp s gk).tTid
  | .trapTmp0 => (getGrp s gk).tTmp0
  | .trapTmp1 => (getGrp s gk).tTmp1
  | .trapTmp2 => (getGrp s gk).tTmp2

/-- A write of a system register; reserved bits and registers without write access ignore it (R169). -/
def writeSys (gk : Nat) (r : SysReg) (x : Word) (s : State) : State :=
  let g := getGrp s gk
  match r with
  | .fpx => setGrp gk { g with fpx := x.setWidth 5 } s
  | .amax k => setGrp gk { g with amax := tset 0 k.toNat x g.amax } s
  | .gang => setGrp gk { g with gang := x.setWidth 54 |>.setWidth 64, gangNew := true } s
  | .trapPc => setGrp gk { g with tPc := x } s
  | .trapTmp0 => setGrp gk { g with tTmp0 := x } s
  | .trapTmp1 => setGrp gk { g with tTmp1 := x } s
  | .trapTmp2 => setGrp gk { g with tTmp2 := x } s
  | .atomSize => s | .trapKind => s | .trapAddr => s | .trapInfo => s | .trapTid => s

/-- R169, R171: `rdsys` and `rdsys.clr`. -/
def execRdsys (d : BitVec 6) (r : SysReg) (k : Bool) (s : State) : Out :=
  let F : Form := { uni := true, flds := [], dv := .some d }
  uniP (sysOnly r) F (fun _ psn s =>
    let x := readSys s s.cur.gk r
    let s := if k then writeSys s.cur.gk r 0 s else s
    uniCommit F psn (.some x) .none .none s) s

/-- R169: `wrsys`. -/
def execWrsys (r : SysReg) (a : Src) (s : State) : Out :=
  let F : Form := { uni := true, flds := [fA true a true] }
  uniP true F (fun v psn s => uniCommit F psn .none .none .none (writeSys s.cur.gk r (v.getD 0 0) s)) s

/-- R172: `unop`. -/
def execUnop (s : State) : Out := uni noForm (fun _ _ s => passGroup s.cur.gk s.cur.npc s) s

end Sys2Proof.Machine
end

