-- ==== Sys2Proof/Machine/Launch.lean ====
section
/-! DEFINITION. Launch records (R261, R262), device-side launches (R161, R162), `waitl` (R163), `fork` (R156). -/

namespace Sys2Proof.Machine

/-! ## The record (R261) -/

/-- The fields of a record. -/
def parseRecord (bs : List Byte) : LRec :=
  let sh := fieldOf bs 14 1
  { entry := word (fieldOf bs 0 8), teams := fieldOf bs 8 4, groups := fieldOf bs 12 2
    w := [16, 32, 64, 64].getD (nb sh 1 0) 16, pair := nb sh 2 2 = 1
    cls := (match nb sh 4 3 with | 0 => .concurrent | 1 => .parallel | _ => .weak), bounded := nb sh 5 5 = 1
    eopen := BitVec.ofNat 4 (fieldOf bs 15 1), nv := fieldOf bs 16 1, ns := fieldOf bs 17 1, stash := fieldOf bs 20 4
    dbase := word (fieldOf bs 24 8), arg := word (fieldOf bs 32 8)
    fslots := (List.range 8).foldl (fun f i => tset 0 i (word (fieldOf bs (40 + 8 * i) 8)) f) []
    capbase := fieldOf bs 104 8, shpbase := fieldOf bs 112 8, shpcount := fieldOf bs 120 4, dep := fieldOf bs 124 4
    eds := (List.range 4).foldl (fun f i => tset 0 i (fieldOf bs (128 + 4 * i) 4) f) []
    partset := fieldOf bs 144 8, hlist := fieldOf bs 152 8 }

/-- The checks that the 256 bytes decide by themselves (R262, R56). -/
def recordOk (bs : List Byte) : Bool :=
  let l := parseRecord bs
  let sh := fieldOf bs 14 1
  let most := if l.pair then 2 else 1
  decide (nb sh 1 0 ≠ 3) && decide (nb sh 4 3 ≠ 3) && decide (nb sh 7 6 = 0) && decide (bits l.entry 1 0 = 0)
    && decide (1 ≤ l.teams) && decide (l.teams ≤ 2 ^ 24) && decide (1 ≤ l.groups) && decide (l.groups ≤ 128)
    && decide (l.groups * l.w ≤ 1024 * most)
    && decide (fieldOf bs 15 1 < 16) && decide (1 ≤ l.nv) && decide (l.nv ≤ 64) && decide (1 ≤ l.ns) && decide (l.ns ≤ 64)
    && decide (fieldOf bs 18 2 = 0) && decide (l.stash % 128 = 0) && decide (l.stash ≤ 393216 * most)
    && decide (l.shpcount ≤ 65536) && decide (l.capbase % 64 = 0) && decide (l.shpbase % 64 = 0) && decide (l.partset % 64 = 0)
    && decide (l.hlist % 8 = 0)
    && (List.range 8).all (fun i => let f := tget 0 i l.fslots; decide (slotKind f ≤ 4) && decide (bits f 11 10 = 0))
    && (bs.drop 160).all (· == 0)

/-! ## Device-side launches (R161, R162) -/

/-- The entry of a device-side launch queue: context and priority. -/
def dqKey (ctx pri : Nat) : Nat := ctx * 4 + pri

def findTok (x : Grid) (tok : Nat) : Option Tok := x.toks.find? fun k => k.tok == tok

/-- The first failing check of R162 for a record read by a group; 0: none. DEDUCED: log entry 15. -/
def launchStatus (s : State) (gk pri : Nat) (dep : Word) (bs : List Byte) : Nat :=
  let ctx := ctxOf s gk
  let l := parseRecord bs
  let x := getGrid s (gridOfG gk)
  if 64 ≤ (tget [] (dqKey ctx pri) s.vs.devq).length then 0x01
  else if l.cls = .concurrent ∧ couldFit ctx l 0 (partition s ctx) = false then 0x02
  else if recordOk bs = false then 0x03
  else if dep ≠ 0 ∧ (findTok x dep.toNat).isNone then 0x04
  else if 256 ≤ x.toks.length then 0x05
  else 0

/-- The two destinations of a `launch` are completed; a dropped team has none. -/
def launchDone (gk : Nat) (q : BitVec 3) (d : BitVec 6) (x : Word) (ok : Bool) (s : State) : State :=
  if aliveG s gk then setQ gk q ⟨ok, false⟩ (complete gk 0 true d x s) else s

/-- LAUNCH_RECORD_READ: the launch is appended under the next token, or refused; both destinations are completed. DEDUCED: log entries 15, 34. -/
def finishLaunch (o : Op) (q : BitVec 3) (d : BitVec 6) (va dep : Word) (pri : Nat) (bs : List Byte) (bad : Bool) (s : State) : State :=
  let gk := o.gk
  let s := dropOp o.id s
  if bad then (if aliveG s gk then setQ gk q ⟨false, false⟩ (completeFault gk 0 true d o.ia va s) else s)
  else
    let st := launchStatus s gk pri dep bs
    if st ≠ 0 then launchDone gk q d (word (2 ^ 63 + st)) false s
    else
      let g := gridOfG gk
      let x := getGrid s g
      let key := dqKey x.ctx pri
      let it : QItem := { lr := parseRecord bs, tok := x.nextTok, dep := dep.toNat, parent := .some (g, x.nextTok) }
      let s := { s with vs := { s.vs with devq := tset [] key (tget [] key s.vs.devq ++ [it]) s.vs.devq } }
      let s := setGrid g { x with toks := x.toks ++ [⟨x.nextTok, .none⟩], nextTok := x.nextTok + 1 } s
      launchDone gk q d (word x.nextTok) true s

def launchForm (q : BitVec 3) (d : BitVec 6) (a b : Src) : Form :=
  { uni := true, flds := [fA true a true, fB true b true], dv := .some d, dp := .some q }

/-- The issue of a `launch`: the checks of its record's address, the release at `.dev`, and the read. -/
def launchBody (q : BitVec 3) (d : BitVec 6) (a b : Src) (pri : Nat) (v : List Word) (_ : Nat) (s : State) : AccGot :=
  let gk := s.cur.gk
  let va := v.getD 0 0
  match plan gk 0 true (userOf s gk 0 true) .g [.r] va 256 s with
  | (.fault c x, s) => .trap (accessFault s.cur.pc x c .g false)
  | (.page asid p, s) => absentPage true 0 .g va false asid p s
  | (.ok _, s) =>
    if va.toNat % 256 ≠ 0 then .trap (trapAt s .misalign va 0)
    else match engPart (askerOf s gk) gk .g va 256 s with
      | (.err x, s) => .trap (trapAt s .editionGone x 0)
      | (.wait w, s) => .hold true w s
      | (.ok p _, s) =>
        match releaseWait s gk .none false true with
        | .some id => .hold false (.agent id) s
        | .none =>
          let s := releaseCore (coreOf s gk) true true s
          .ok (addOp gk 0xFFFF s.cur.pc (.lrec q d p.pa va (v.getD 1 0) pri) (commitLong 0 (launchForm q d a b) s))

/-- R161: `launch`. -/
def execLaunch (q : BitVec 3) (d : BitVec 6) (a b : Src) (k : BitVec 2) (s : State) : Out :=
  accUni (launchForm q d a b) (launchBody q d a b k.toNat) s

/-- A launch record as its launch reads it: of an editioned page the copy that default edition 0 names, under the leaf's key (R130, R161,
R303). -/
def readRecord (gk pa : Nat) (va : Word) (s : State) : List Byte × Bool × State :=
  match agentLeaf s (ctxOf s gk) (va.toNat % 2 ^ 57) with
  | .none => readHere gk ⟨pa, 256, .rc⟩ s
  | .some l =>
    if l.region = 0 then readHere gk ⟨pa, 256, l.kind⟩ (if isHbm pa then viewPage pa (materialOf s l) s else s)
    else match editionRead s (ctxOf s gk) (va.toNat % 2 ^ 57) 256 l (defEdition (recOf s gk) 0) with
      | .ok bs m => (bs, m.any id, engineReadsAt gk l.kind
          ((editionAt s (ctxOf s gk) (va.toNat % 2 ^ 57) 256 l (defEdition (recOf s gk) 0)).getD []) s)
      | .gone => readHere gk ⟨pa, 256, l.kind⟩ s
      | .denied => readHere gk ⟨pa, 256, l.kind⟩ s

/-- R161, R162: a launch record's read completes. DEDUCED: log entry 15. -/
def execLaunchRecordRead (k : Nat) (s : State) : Out :=
  .next (match findOp s k with
    | .some o =>
      (match o.k with
      | .lrec q d pa va dep pri =>
        if isPeer pa || !reachable s (coreOf s o.gk) pa then s
        else let r := readRecord o.gk pa va s; finishLaunch o q d va dep pri r.1 r.2.1 r.2.2
      | _ => s)
    | .none => s)

/-- R163: `waitl`: its destination is EMPTY while the group waits for the launch of a token (R36); the completion is an acquire at
`.dev`. DEDUCED: log entry 22. -/
def execWaitl (d : BitVec 6) (a : Src) (s : State) : Out :=
  let F : Form := { uni := true, flds := [fA true a true], dv := .some d }
  let gk := s.cur.gk
  let go (tok : Word) (psn : Bool) (s : State) : State :=
    match findTok (getGrid s (gridOfG gk)) tok.toNat with
    | .none => trapGroup (trapAt s .launchFault 0 tok) s
    | .some k =>
      match k.status with
      | .none => blockAll (.waitl tok.toNat) (markEmpty gk 0 true d (setGrp gk { getGrp s gk with wl := .some tok } s))
      | .some st =>
        uniCommit F psn (.some (word st)) .none .none
          (acquireCore (coreOf s gk) true true (setGrp gk { getGrp s gk with wl := .none } s))
  match (getGrp s gk).wl with
  | .none => uni F (fun v psn s => go (v.getD 0 0) psn s) s
  | .some tok => uni { uni := true, flds := [] } (fun _ _ s => go tok false s) s

/-! ## `fork` (R156) -/

/-- What the checks of a fork block come to: the copies to start, if all pass. -/
inductive ForkGot
  | trap (n : TrapName) (info : Word)
  | page (asid page : Nat)
  | ok (cs : List Copy)
  deriving DecidableEq, Repr

/-- Whether two handles share bytes. DEDUCED: log entry 33. -/
def handlesMeet (s : State) (t h k : Nat) : Bool :=
  match getHandle s t h, getHandle s t k with
  | .some x, .some y => tilesMeet x.off y.off x.size y.size
  | _, _ => false

/-- The checks of a fork block's copy starts, in order: the first that fails ends them; two starts of one set may not hold one tile. DEDUCED: log entry 33. -/
def forkChecks (gk : Nat) (deny : Option Nat) (blk : List Byte) : List Nat → List Copy → State → ForkGot × State
  | [], cs, s => (.ok cs, s)
  | i :: is, cs, s =>
    let x := fieldOf blk (16 + 8 * i) 8
    if nb x 31 31 = 0 then forkChecks gk deny blk is cs s
    else if nb x 30 22 ≠ 0 then (.trap .capFault (capInfo 2 (nb x 15 0)), s)
    else match copyCheck gk deny (nb x 21 16) (word (nb x 63 32 * 2 ^ 32 + nb x 15 0)) s with
      | (.trap n f, s) => (.trap n f, s)
      | (.page a p, s) => (.page a p, s)
      | (.ok c, s) =>
        if cs.any fun d => handlesMeet s (teamOfG gk) d.h c.h then (.trap .handleBusy (word c.h), s)
        else forkChecks gk deny blk is (cs ++ [c]) s

/-- The numbers that open sets do not have. -/
def freeSets (x : Team) : List Nat := (List.range 8).filter fun n => (tget .none n x.sets).isNone

/-- Whether a fork need not wait: a set number is free, the previous access program has ended, the channels have room, no handle it
names has entered an engine state since its checks. -/
def forkReady (s : State) (gk : Nat) (prog : Word) (cs : List Copy) : Bool :=
  let x := getTeam s (teamOfG gk)
  let v := vdevOf s (ctxOf s gk)
  !(freeSets x).isEmpty && (prog == 0 || x.prog.isNone)
    && cs.all (fun c => decide (chanLoad s v c.chan + (cs.filter fun d => d.chan == c.chan).length ≤ 16)
        && !tileBusy s (teamOfG gk) c.h)

/-- Every copy and the access program start as one action; the set's number. -/
def startFork (gk : Nat) (pc prog arg : Word) (cs : List Copy) (s : State) : Nat × State :=
  let t := teamOfG gk
  let r := pick (freeSets (getTeam s t)) 0 s
  let n := r.1
  let s := r.2
  let x := getTeam s t
  let f : ForkSet := { hs := cs.map (·.h), live := (List.range cs.length).map (s.mm.nextId + ·)
                       prog := if prog = 0 then .none else .some .run }
  let s := setTeam t { x with sets := tset .none n (.some f) x.sets } s
  let s := setGrp gk { getGrp s gk with fork := .some n } s
  let s := cs.foldl (fun s c => startCopy gk pc { c with set := .some n } s) s
  (n, if prog = 0 then s else startProg gk pc prog arg n s)

def forkForm (d : BitVec 6) (a : Src) : Form := { uni := true, flds := [fA true a true], dv := .some d }

def forkBody (F : Form) (d : BitVec 6) (v : List Word) (_ : Nat) (s : State) : AccGot :=
  let gk := s.cur.gk
  let t := teamOfG gk
  let o := v.getD 0 0
  if o.toNat % 64 ≠ 0 then .trap { trapAt s .misalign o 0 with space := .s }
  else if windowOf s t < o.toNat + 64 then .trap (accessFault s.cur.pc o 1 .s false)
  else match stashBusy s .s o 64 with
    | .some tr => .trap tr
    | .none =>
      if stashBad s t o.toNat 64 then .trap { trapAt s .dataUncorr o s.cur.pc with space := .s }
      else
        let blk := stashRead s t o.toNat 64
        let prog := word (fieldOf blk 0 8)
        let arg := word (fieldOf blk 8 8)
        let go (cs : List Copy) (s : State) : AccGot :=
          match releaseWait s gk .none false true with
          | .some id => .hold false (.agent id) s
          | .none =>
            let s := releaseCore (coreOf s gk) true true s
            if forkReady s gk prog cs then
              let r := startFork gk s.cur.pc prog arg cs (commitStore 0 F s)
              .ok (writeDst gk 0 true d (word r.1) false r.2)
            else .stall s.mm.nextId (addOp gk 0xFFFF s.cur.pc (.fork d prog arg cs s.cur.npc (usesOf F)) s)
        match forkChecks gk (denyOf s gk 0 true) blk (List.range 6) [] s with
        | (.ok cs, s) => go cs s
        | (.trap n i, s) => .trapIn (trapAt s n 0 i) s
        | (.page a p, s) => absentPage true 0 .g (word (p * 65536)) false a p s

/-- R156: `fork`. -/
def execFork (d : BitVec 6) (a : Src) (s : State) : Out := accUni (forkForm d a) (forkBody (forkForm d a) d) s

/-- R156, R142: a fork that waited starts. -/
def execForkStart (k : Nat) (s : State) : Out :=
  .next (match findOp s k with
    | .some o =>
      (match o.k with
      | .fork d prog arg cs npc use =>
        if (getTeam s (teamOfG o.gk)).st = .resident ∧ forkReady s o.gk prog cs then
          let r := startFork o.gk o.ia prog arg cs (useAll o.gk 0 use (dropOp k s))
          passGroup o.gk npc (writeDst o.gk 0 true d (word r.1) false r.2)
        else s
      | _ => s)
    | .none => s)

end Sys2Proof.Machine
end

