-- ==== Sys2Proof/Machine/Latch.lean ====
section
/-! DEFINITION. Gangs (R173, R174) and the rendezvous latch (R175): which groups a list names, when a list is complete, GANG_FAULT. -/

namespace Sys2Proof.Machine

/-! ## Lists (R173, R174) -/

def gangCount (v : Word) : Nat := bits v 50 48
def gangMember (v : Word) (i : Nat) : Nat := bits v (8 * i + 7) (8 * i)
def gangGids (v : Word) : List Nat := (List.range (gangCount v)).map (gangMember v)


/-- A list fails the checks of R174 for a group, but for bits [63:51]. -/
def listBad (s : State) (gk : Nat) (v : Word) : Bool :=
  let t := teamOfG gk
  let n := gangCount v
  let ms := gangGids v
  n == 1 || n == 7 || ([0, 1, 2, 3, 4, 5].any fun i => decide (n ≤ i) && gangMember v i != 0)
    || ms.any (fun m => decide ((recOf s gk).groups ≤ m)) || decide (ms.eraseDups.length ≠ n) || !ms.contains (gidOf gk)
    || ms.any fun m => halfOf s (groupKey t m) != halfOf s gk

/-- The position of a group in its gang (R173). -/
def gangPos (v : Word) : Nat := bits v 53 51
/-- A GANG value that no `gang` could have written (R173). DEDUCED: log entry 19. -/
def gangBad (s : State) (gk : Nat) (v : Word) : Bool :=
  listBad s gk v || decide (gangCount v ≤ gangPos v) || gangMember v (gangPos v) != gidOf gk

/-- `wrsys` has written a GANG value that fails the checks, which the group's next joint instruction finds (R173). -/
def gangStale (s : State) (gk : Nat) : Bool :=
  (getGrp s gk).gangNew && gangCount (getGrp s gk).gang != 0 && gangBad s gk (getGrp s gk).gang
/-- A joint instruction has taken its GANG_FAULT for the value. -/
def gangSeen (gk : Nat) (s : State) : State := setGrp gk { getGrp s gk with gangNew := false } s

/-! ## The latch (R175) -/

def latchOf (s : State) (gk : Nat) : Option Latch := (getGrp s gk).latch
def setLatch (gk : Nat) (l : Option Latch) (s : State) : State := setGrp gk { getGrp s gk with latch := l } s

/-- The list of a group that waits in the latch, as groups. -/
def listOf (s : State) (gk : Nat) (l : Latch) : List Nat :=
  let v := match l.ins with | .gang v => v | .mmar _ _ _ _ _ _ => (getGrp s gk).gang | .mmas _ _ _ _ _ _ => (getGrp s gk).gang
  (gangGids v).map (groupKey (teamOfG gk))

/-- Count and members of GANG. -/
def gangList (s : State) (gk : Nat) : Nat := bits (getGrp s gk).gang 50 0

/-- Two arrivals agree. -/
def agree (s : State) (g h : Nat) (x y : Joint) : Bool :=
  match x, y with
  | .gang v, .gang w => v == w
  | .mmar t _ _ _ fa fb, .mmar u _ _ _ ga gb => t == u && fa == ga && fb == gb && gangList s g == gangList s h
  | .mmas t p _ k n _, .mmas u q _ j m _ => t == u && p == q && k == j && n == m && gangList s g == gangList s h
  | _, _ => false

/-- A trap of a whole group that waits in the latch. -/
def groupTrap (tr : TrapRec) (s : State) (gk : Nat) : State :=
  if domain s gk = [] then s else takeTrap gk (domain s gk) true tr s

/-- GANG_FAULT in a waiting group (R361: the value of sa, or 0). -/
def latchFault (s : State) (gk : Nat) : State :=
  match latchOf s gk with
  | .none => s
  | .some l =>
    let v : Word := match l.ins with | .gang v => v | .mmar _ _ _ _ _ _ => 0 | .mmas _ _ _ _ _ _ => 0
    groupTrap { name := .gangFault, pc := l.pc, info := v } (setLatch gk .none s) gk

/-- Every thread of a group has exited. -/
def gone (s : State) (gk : Nat) : Bool := (live s gk).isEmpty

/-- The waiting groups of a team. -/
def waitingIn (s : State) (t : Nat) : List Nat :=
  ((List.range (getGrid s (gridOfT t)).lr.groups).map (groupKey t)).filter fun g => (latchOf s g).isSome

/-- A list that names a group whose threads have all exited can never be complete: its waiting groups take GANG_FAULT. -/
def latchGone (t : Nat) (s : State) : State :=
  (waitingIn s t).foldl (fun s g =>
    match latchOf s g with
    | .none => s
    | .some l =>
      let ms := listOf s g l
      if ms.any (gone s) then (ms.filter fun m => (latchOf s m).isSome).foldl latchFault s else s) s

end Sys2Proof.Machine
end

