-- ==== Sys2Proof/Machine/Exit.lean ====
section
/-! DEFINITION. `exit` (R100), and what the end of a thread settles: the handler set (R145), UNIFORM_SPLIT (R147), the barriers (R152,
R153), the rendezvous latch (R175), the end of the team (R224, R225). -/

namespace Sys2Proof.Machine

/-- The registers of a thread that its launch gives it. -/
def threadRegs (s : State) (gk tid : Nat) : List Cell :=
  (List.range (recOf s gk).nv).map fun r => getV s (threadKey gk tid) (BitVec.ofNat 6 r)

/-- A long-latency producer of the thread has not completed (R100); a `cadd` that writes p0 leaves no EMPTY mark (R37). -/
def unfinished (s : State) (gk tid : Nat) : Bool :=
  (threadRegs s gk tid).any (fun c => decide (c.st = .empty))
    || [1, 2, 3, 4, 5, 6, 7].any (fun p => (getP s (threadKey gk tid) (BitVec.ofNat 3 p)).empty)
    || s.mm.ops.any fun o => o.gk == gk && o.tid == tid && match o.k with
      | .rop _ _ _ (.cadd p _ _ _ _ _ _ _ _) => p == 0
      | _ => false

/-- The trap of the FAULT register that has the lowest number, where there are several (R36, R100). DESIGN CHOICE: log entry 53. -/
def faultOf (s : State) (gk tid : Nat) (pc : Word) : Option TrapRec :=
  (threadRegs s gk tid).findSome? fun c => match c.st with
    | .fault ia da => .some { name := .dataUncorr, pc := pc, addr := da, info := ia }
    | .full => .none | .empty => .none | .dead => .none

/-- A handler set whose threads have all exited gives the group back to its other threads (R145). DEDUCED: log entry 38. -/
def handlerDone (gk : Nat) (s : State) : State :=
  let x := getGrp s gk
  if x.hset ≠ [] ∧ (live s gk).all (fun i => !x.hset.contains i) then enterHeld gk (setGrp gk { x with hset := [] } s) else s

/-- What an ended thread settles. -/
def settleExit (gk : Nat) (s : State) : State :=
  let t := teamOfG gk
  settleTeam t (settleTbar t (latchGone t (splitCheck gk (handlerDone gk s))))

/-- One thread ends, waits for its producers, or traps. -/
def exitThread (s : State) (tid : Nat) : State :=
  let gk := s.cur.gk
  match guardVal s gk tid false with
  | .wait p => waitPred gk tid p s
  | .no => goOn gk s.cur.npc s tid
  | .yes =>
    if unfinished s gk tid then setSt gk tid .waitOpnd .ops s
    else match faultOf s gk tid s.cur.pc with
      | .some tr => trapThread tid tr s
      | .none => dropLane (threadKey gk tid) (setSt gk tid .exited .none s)

/-- R100: `exit`. -/
def execExit (s : State) : Out :=
  .next (settleExit s.cur.gk (perThread exitThread s))

end Sys2Proof.Machine
end

