-- ==== Sys2Proof/WellFormed.lean ====
section
/-! DEFINITION. Which instructions the words of a launch may hold: every ILLEGAL case of R29, R30, R118, R134, R169 and every
refusal of R335 that an instruction's own fields decide and that the shape of `Instr` does not already rule out. -/

namespace Sys2Proof

/-- Why an instruction is ill-formed. -/
inductive Flaw
  /-- a control other than 0b00 on a field that names `s0` (R29) -/
  | zeroControl
  /-- a control 0b01 or 0b10 on a field in which a lane instruction names an s register (R29) -/
  | uniControl
  /-- an immediate shift count outside 0 to 63, in a gloss outside 0 to 31 (R85, R335) -/
  | shiftCount
  /-- a branch that is never taken: pd = 0 with neg = 1 (R35) -/
  | neverTaken
  /-- one of the cases of R118 that the word decides -/
  | conversion
  /-- the `.s` space on `pf` (R125) -/
  | prefetchSpace
  /-- a type that the atomic does not accept (R134) -/
  | atomType
  /-- `.clr` or `wrsys` on a system register without that access (R169) -/
  | noAccess
  /-- a gloss branch with displacement 0 (R335) -/
  | glossDisp
  deriving DecidableEq, Repr

namespace WF

/-- A uniform source: `s0` takes no control (R29). -/
def zeroPlain (a : Src) : Option Flaw :=
  if a.r = 0 ∧ a.c ≠ .plain then .some .zeroControl else .none

/-- An s register in a lane instruction: controls plain and trap only (R29, R81, R130). -/
def uniRead (a : Src) : Option Flaw :=
  if a.c = .last ∨ a.c = .keep then .some .uniControl else zeroPlain a

def shiftIn (i : BitVec 11) : Option Flaw :=
  if i.toNat ≤ 63 then .none else .some .shiftCount

def branchIn (p : BitVec 3) (n : Bool) : Option Flaw :=
  if p = 0 ∧ n = true then .some .neverTaken else .none

/-- Number of elements of a kind in a register (R115). -/
def Kind.count : Kind → Nat
  | .d => 1 | .f => 2 | .hf => 4 | .bf => 4 | .e4 => 16 | .i32 => 1 | .n32 => 1 | .i64 => 1 | .n64 => 1

def Kind.isInt : Kind → Bool
  | .i32 => true | .n32 => true | .i64 => true | .n64 => true
  | .d => false | .f => false | .hf => false | .bf => false | .e4 => false

/-- R118, without its first case (no `Kind` is reserved) and its last (which the launch's slots decide). -/
def cvtIn (m : CvtMod) : Option Flaw :=
  if m.sk = m.dk ∨ (Kind.isInt m.sk ∧ Kind.isInt m.dk) ∨ (Kind.isInt m.sk ∧ m.dk = .e4) ∨ (m.sk = .e4 ∧ Kind.isInt m.dk)
    ∨ max (Kind.count m.sk) (Kind.count m.dk) ≤ m.part.toNat * min (Kind.count m.sk) (Kind.count m.dk)
    ∨ (m.dk = .e4 ∧ m.rnd ≠ .rne) ∨ (m.satf = true ∧ (Kind.isInt m.dk ∨ m.dk = .e4))
  then .some .conversion else .none

def pfIn (m : PfMod) : Option Flaw :=
  if m.space = .s then .some .prefetchSpace else .none

def atomIn (ts : List AtomTy) (m : AtomMod) : Option Flaw :=
  if ts.contains m.ty then .none else .some .atomType

/-- Registers with clear access (R170: R/C). -/
def clearable : SysReg → Bool
  | .fpx => true | .amax _ => true | .atomSize => false | .gang => false | .trapKind => false | .trapPc => false
  | .trapAddr => false | .trapInfo => false | .trapTid => false | .trapTmp0 => false | .trapTmp1 => false | .trapTmp2 => false

/-- Registers with write access in system mode (R170). -/
def writable : SysReg → Bool
  | .fpx => true | .amax _ => true | .atomSize => false | .gang => true | .trapKind => false | .trapPc => true
  | .trapAddr => false | .trapInfo => false | .trapTid => false | .trapTmp0 => true | .trapTmp1 => true | .trapTmp2 => true

def gshiftIn (i : BitVec 18) : Option Flaw :=
  if i.toNat ≤ 31 then .none else .some .shiftCount

def gbranchIn (t : BitVec 6) : Option Flaw :=
  if t = 0 then .some .glossDisp else .none

end WF

open WF in
/-- The first flaw of an instruction. The steps of the module that no word encodes have none. -/
def Instr.flaw : Instr → Option Flaw
  | .addI64 _ _ _ => .none
  | .subI64 _ _ _ => .none
  | .addI32 _ _ _ => .none
  | .subI32 _ _ _ => .none
  | .addN32 _ _ _ => .none
  | .subN32 _ _ _ => .none
  | .addI64Sat _ _ _ => .none
  | .subI64Sat _ _ _ => .none
  | .addN64Sat _ _ _ => .none
  | .subN64Sat _ _ _ => .none
  | .addI32Sat _ _ _ => .none
  | .subI32Sat _ _ _ => .none
  | .addN32Sat _ _ _ => .none
  | .subN32Sat _ _ _ => .none
  | .negI64 _ _ => .none
  | .absI64 _ _ => .none
  | .mulI64 _ _ _ => .none
  | .mulhiI64 _ _ _ => .none
  | .mulhiN64 _ _ _ => .none
  | .mulI32 _ _ _ => .none
  | .mulN32 _ _ _ => .none
  | .mulwI32 _ _ _ => .none
  | .mulwN32 _ _ _ => .none
  | .minI64 _ _ _ => .none
  | .maxI64 _ _ _ => .none
  | .minN64 _ _ _ => .none
  | .maxN64 _ _ _ => .none
  | .minI32 _ _ _ => .none
  | .maxI32 _ _ _ => .none
  | .minN32 _ _ _ => .none
  | .maxN32 _ _ _ => .none
  | .and _ _ _ => .none
  | .or _ _ _ => .none
  | .xor _ _ _ => .none
  | .andn _ _ _ => .none
  | .orn _ _ _ => .none
  | .xnor _ _ _ => .none
  | .not _ _ => .none
  | .mov _ a u => (if u then uniRead a else .none)
  | .shlN64 _ _ _ => .none
  | .shrN64 _ _ _ => .none
  | .shrI64 _ _ _ => .none
  | .rotlN64 _ _ _ => .none
  | .shlN32 _ _ _ => .none
  | .shrN32 _ _ _ => .none
  | .shrI32 _ _ _ => .none
  | .rotlN32 _ _ _ => .none
  | .popc _ _ => .none
  | .clz _ _ => .none
  | .ctz _ _ => .none
  | .brev _ _ => .none
  | .bswap _ _ => .none
  | .sextI8 _ _ => .none
  | .sextI16 _ _ => .none
  | .sextI32 _ _ => .none
  | .lea _ _ _ _ => .none
  | .setpEqI64 _ _ _ => .none
  | .setpNeI64 _ _ _ => .none
  | .setpLtI64 _ _ _ => .none
  | .setpLeI64 _ _ _ => .none
  | .setpLtN64 _ _ _ => .none
  | .setpLeN64 _ _ _ => .none
  | .setpTst _ _ _ => .none
  | .setpEqI32 _ _ _ => .none
  | .setpNeI32 _ _ _ => .none
  | .setpLtI32 _ _ _ => .none
  | .setpLeI32 _ _ _ => .none
  | .setpLtN32 _ _ _ => .none
  | .setpLeN32 _ _ _ => .none
  | .pand _ _ _ => .none
  | .por _ _ _ => .none
  | .pxor _ _ _ => .none
  | .pandn _ _ _ => .none
  | .pnot _ _ => .none
  | .sel _ _ _ _ => .none
  | .addI64Imm _ _ _ => .none
  | .addI32Imm _ _ _ => .none
  | .addI32SatImm _ _ _ => .none
  | .addI64SatImm _ _ _ => .none
  | .andImm _ _ _ => .none
  | .orImm _ _ _ => .none
  | .xorImm _ _ _ => .none
  | .shlN64Imm _ _ i => shiftIn i
  | .shrN64Imm _ _ i => shiftIn i
  | .shrI64Imm _ _ i => shiftIn i
  | .mulI64Imm _ _ _ => .none
  | .movc _ _ => .none
  | .movcM _ _ => .none
  | .movcH _ _ => .none
  | .rdsr _ _ => .none
  | .shflIdx _ _ _ => .none
  | .shflUp _ _ _ => .none
  | .shflDown _ _ _ => .none
  | .shflXor _ _ _ => .none
  | .ballot _ _ => .none
  | .voteAny _ _ => .none
  | .voteAll _ _ => .none
  | .redAddI64 _ _ => .none
  | .redMinI64 _ _ => .none
  | .redMaxI64 _ _ => .none
  | .redAddD _ _ => .none
  | .redMinD _ _ => .none
  | .redMaxD _ _ => .none
  | .redAddF _ _ => .none
  | .bra p n _ => branchIn p n
  | .call p n _ => branchIn p n
  | .jmp _ => .none
  | .callr _ _ => .none
  | .ret _ => .none
  | .exit => .none
  | .nop => .none
  | .addD _ _ _ => .none
  | .subD _ _ _ => .none
  | .mulD _ _ _ => .none
  | .divD _ _ _ => .none
  | .minD _ _ _ => .none
  | .maxD _ _ _ => .none
  | .sqrtD _ _ => .none
  | .rintD _ _ => .none
  | .addF _ _ _ => .none
  | .subF _ _ _ => .none
  | .mulF _ _ _ => .none
  | .divF _ _ _ => .none
  | .minF _ _ _ => .none
  | .maxF _ _ _ => .none
  | .sqrtF _ _ => .none
  | .rintF _ _ => .none
  | .addHf _ _ _ => .none
  | .subHf _ _ _ => .none
  | .mulHf _ _ _ => .none
  | .minHf _ _ _ => .none
  | .maxHf _ _ _ => .none
  | .addBf _ _ _ => .none
  | .subBf _ _ _ => .none
  | .mulBf _ _ _ => .none
  | .minBf _ _ _ => .none
  | .maxBf _ _ _ => .none
  | .setpEqD _ _ _ => .none
  | .setpLtD _ _ _ => .none
  | .setpLeD _ _ _ => .none
  | .setpNanD _ _ _ => .none
  | .setpEqF _ _ _ => .none
  | .setpLtF _ _ _ => .none
  | .setpLeF _ _ _ => .none
  | .setpNanF _ _ _ => .none
  | .fmaD _ _ _ _ _ => .none
  | .fnmaD _ _ _ _ _ => .none
  | .fmaF _ _ _ _ _ => .none
  | .fnmaF _ _ _ _ _ => .none
  | .fmaHf _ _ _ _ _ => .none
  | .fmaBf _ _ _ _ _ => .none
  | .addDLong _ _ _ _ => .none
  | .subDLong _ _ _ _ => .none
  | .mulDLong _ _ _ _ => .none
  | .divDLong _ _ _ _ => .none
  | .minDLong _ _ _ _ => .none
  | .maxDLong _ _ _ _ => .none
  | .sqrtDLong _ _ _ => .none
  | .rintDLong _ _ _ => .none
  | .addFLong _ _ _ _ => .none
  | .subFLong _ _ _ _ => .none
  | .mulFLong _ _ _ _ => .none
  | .divFLong _ _ _ _ => .none
  | .minFLong _ _ _ _ => .none
  | .maxFLong _ _ _ _ => .none
  | .sqrtFLong _ _ _ => .none
  | .rintFLong _ _ _ => .none
  | .addHfLong _ _ _ _ => .none
  | .subHfLong _ _ _ _ => .none
  | .mulHfLong _ _ _ _ => .none
  | .minHfLong _ _ _ _ => .none
  | .maxHfLong _ _ _ _ => .none
  | .addBfLong _ _ _ _ => .none
  | .subBfLong _ _ _ _ => .none
  | .mulBfLong _ _ _ _ => .none
  | .minBfLong _ _ _ _ => .none
  | .maxBfLong _ _ _ _ => .none
  | .rcpD _ _ => .none
  | .rsqrtD _ _ => .none
  | .exp2D _ _ => .none
  | .log2D _ _ => .none
  | .exp2F _ _ => .none
  | .log2F _ _ => .none
  | .sinF _ _ => .none
  | .cosF _ _ => .none
  | .cvt _ _ m => cvtIn m
  | .fclassD _ _ => .none
  | .fclassF _ _ => .none
  | .copysignD _ _ _ => .none
  | .copysignF _ _ _ => .none
  | .absD _ _ => .none
  | .negD _ _ => .none
  | .absF _ _ => .none
  | .negF _ _ => .none
  | .ld _ _ _ => .none
  | .st _ _ _ => .none
  | .lde _ _ b _ => uniRead b
  | .pf _ m => pfIn m
  | .atomAdd _ _ _ _ => .none
  | .atomMin _ _ _ m => atomIn [.i32, .n32, .i64, .n64] m
  | .atomMax _ _ _ m => atomIn [.i32, .n32, .i64, .n64] m
  | .atomAnd _ _ _ m => atomIn [.n32, .n64] m
  | .atomOr _ _ _ m => atomIn [.n32, .n64] m
  | .atomXor _ _ _ m => atomIn [.n32, .n64] m
  | .atomXchg _ _ _ m => atomIn [.n32, .n64] m
  | .atomCas _ _ _ _ m => atomIn [.n32, .n64] m
  | .recvD _ _ => .none
  | .recvW _ _ => .none
  | .sendD _ _ => .none
  | .sendW _ _ => .none
  | .mmarD _ _ _ _ _ => .none
  | .mmarF _ _ _ _ _ => .none
  | .mmarBf _ _ _ _ _ => .none
  | .mmarHf _ _ _ _ _ => .none
  | .mmarE4 _ _ _ _ _ => .none
  | .copen _ _ _ _ => .none
  | .cadd _ _ _ _ _ => .none
  | .cflush _ => .none
  | .cclose _ => .none
  | .cread _ _ _ => .none
  | .creplay _ _ _ _ _ => .none
  | .addI64U _ a b => zeroPlain a <|> zeroPlain b
  | .subI64U _ a b => zeroPlain a <|> zeroPlain b
  | .mulI64U _ a b => zeroPlain a <|> zeroPlain b
  | .mulhiN64U _ a b => zeroPlain a <|> zeroPlain b
  | .minI64U _ a b => zeroPlain a <|> zeroPlain b
  | .maxI64U _ a b => zeroPlain a <|> zeroPlain b
  | .minN64U _ a b => zeroPlain a <|> zeroPlain b
  | .maxN64U _ a b => zeroPlain a <|> zeroPlain b
  | .andU _ a b => zeroPlain a <|> zeroPlain b
  | .orU _ a b => zeroPlain a <|> zeroPlain b
  | .xorU _ a b => zeroPlain a <|> zeroPlain b
  | .andnU _ a b => zeroPlain a <|> zeroPlain b
  | .shlN64U _ a b => zeroPlain a <|> zeroPlain b
  | .shrN64U _ a b => zeroPlain a <|> zeroPlain b
  | .shrI64U _ a b => zeroPlain a <|> zeroPlain b
  | .movU _ a => zeroPlain a
  | .setpEqI64U _ a b => zeroPlain a <|> zeroPlain b
  | .setpNeI64U _ a b => zeroPlain a <|> zeroPlain b
  | .setpLtI64U _ a b => zeroPlain a <|> zeroPlain b
  | .setpLeI64U _ a b => zeroPlain a <|> zeroPlain b
  | .setpLtN64U _ a b => zeroPlain a <|> zeroPlain b
  | .setpLeN64U _ a b => zeroPlain a <|> zeroPlain b
  | .setpTstU _ a b => zeroPlain a <|> zeroPlain b
  | .pandU _ _ _ => .none
  | .porU _ _ _ => .none
  | .pxorU _ _ _ => .none
  | .pandnU _ _ _ => .none
  | .pnotU _ _ => .none
  | .addI64ImmU _ a _ => zeroPlain a
  | .movcU _ _ => .none
  | .movcMU _ _ => .none
  | .movcHU _ _ => .none
  | .ldU _ a _ => zeroPlain a
  | .stU a b _ => zeroPlain a <|> zeroPlain b
  | .ldeU _ a b _ => zeroPlain a <|> zeroPlain b
  | .pfU a m => zeroPlain a <|> pfIn m
  | .ujmp p n _ => branchIn p n
  | .ucall p n _ => branchIn p n
  | .ujmpr a => zeroPlain a
  | .ucallr _ a => zeroPlain a
  | .uret a => zeroPlain a
  | .bar => .none
  | .tbar => .none
  | .claim _ a b => zeroPlain a <|> zeroPlain b
  | .rdv a => zeroPlain a
  | .fence _ _ => .none
  | .waith _ _ => .none
  | .sendU _ a b => zeroPlain a <|> (match b with | .some b => zeroPlain b | .none => .none)
  | .recvU _ _ ab => (match ab with | .some (a, b) => zeroPlain a <|> zeroPlain b | .none => .none)
  | .launch _ _ a b _ => zeroPlain a <|> zeroPlain b
  | .waitl _ a => zeroPlain a
  | .fork _ a => zeroPlain a
  | .bpub _ a => zeroPlain a
  | .bfloor _ a b => zeroPlain a <|> zeroPlain b
  | .gang a => zeroPlain a
  | .mmasD _ a b => zeroPlain a <|> zeroPlain b
  | .mmasF _ a b _ => zeroPlain a <|> zeroPlain b
  | .mmasBf _ a b _ => zeroPlain a <|> zeroPlain b
  | .mmasHf _ a b _ => zeroPlain a <|> zeroPlain b
  | .mmasE4 _ a b _ => zeroPlain a <|> zeroPlain b
  | .accrel _ o => (match o with | .some (_, b) => zeroPlain b | .none => .none)
  | .trap _ => .none
  | .rett => .none
  | .rdsys _ r k => (if k && !clearable r then .some .noAccess else .none)
  | .wrsys r a => zeroPlain a <|> (if !writable r then .some .noAccess else .none)
  | .unop => .none
  | .gadd _ _ _ => .none
  | .gsub _ _ _ => .none
  | .gand _ _ _ => .none
  | .gor _ _ _ => .none
  | .gxor _ _ _ => .none
  | .gshl _ _ _ => .none
  | .gshr _ _ _ => .none
  | .gmin _ _ _ => .none
  | .gmax _ _ _ => .none
  | .gmul _ _ _ => .none
  | .gmovi _ _ => .none
  | .gaddi _ _ _ => .none
  | .gandi _ _ _ => .none
  | .gshli _ _ i => gshiftIn i
  | .gshri _ _ i => gshiftIn i
  | .gld _ _ _ => .none
  | .gst _ _ _ => .none
  | .gbeq _ _ t => gbranchIn t
  | .gbne _ _ t => gbranchIn t
  | .gblt _ _ t => gbranchIn t
  | .gbge _ _ t => gbranchIn t
  | .gbr t => gbranchIn t
  | .ghash _ _ _ => .none
  | .ghist _ _ _ => .none
  | .gcms _ _ _ => .none
  | .ghll _ _ _ => .none
  | .gfire _ _ => .none
  | .gend => .none
  | .loadCompletion _ => .none
  | .atomicPerform _ => .none
  | .editionLookup _ => .none
  | .queueReceiveCompletion _ => .none
  | .channelReceiveCompletion _ => .none
  | .messageDelivery _ => .none
  | .launchRecordRead _ => .none
  | .bpubAtBindery _ => .none
  | .bfloorAtHome _ => .none
  | .claimPageMove _ => .none
  | .copyBeat _ => .none
  | .copyEnd _ => .none
  | .forkStart _ => .none
  | .accessProgramRequest _ => .none
  | .accessProgramReturn _ => .none
  | .matrixCompletion _ => .none
  | .mmasKStep _ => .none
  | .recordOperationArrival _ => .none
  | .regrouping _ _ => .none
  | .barrierArrivalBit _ _ => .none
  | .l1WriteBackBound _ _ => .none
  | .combiningBufferDrain _ _ => .none
  | .distributorPlacement _ => .none
  | .sliceEnd _ => .none
  | .renderContextSwitch _ => .none
  | .completionEntryWrite _ => .none
  | .hqTailWrite _ _ _ => .none
  | .vdevApply _ => .none
  | .rctxApply _ => .none
  | .counterPublish _ => .none
  | .pageWalk _ _ => .none
  | .faultRecordPost _ => .none
  | .fqDoneRetry _ _ => .none
  | .fqDoneDeny _ _ => .none
  | .invalidation => .none
  | .regionCreate _ => .none
  | .regionReread _ => .none
  | .regionDestroy _ => .none
  | .binderyWrite _ => .none
  | .backgroundSubblockCopy _ _ => .none
  | .reclaimWalk _ _ => .none
  | .directoryRead _ _ => .none
  | .directoryWrite _ _ => .none
  | .directoryWriteBack _ _ => .none
  | .evictionNotice _ _ => .none
  | .memSplitWrite _ => .none
  | .routeWrite _ => .none
  | .linkDown _ => .none
  | .glossEventOffer _ _ => .none
  | .glossSlot _ => .none
  | .glossBudgetWindow _ => .none
  | .glossApplyTenant _ _ => .none
  | .glossAttach _ _ => .none
  | .glossDetach _ _ => .none
  | .glossDrain _ => .none
  | .drainWordRead _ => .none
  | .linkTraining _ _ => .none
  | .ualinkInboundRequest _ => .none
  | .peerAcknowledgement _ _ => .none
  | .ualinkMessageArrival _ => .none
  | .haloCommand _ => .none
  | .haloFaceArrival _ _ => .none
  | .allReduceCommand _ _ => .none
  | .engineCompletion _ _ => .none
  | .functionLevelReset => .none
  | .coreRetirement => .none
  | .marginPlan _ _ => .none
  | .auditFlitSend _ => .none
  | .auditFlitReceive _ _ => .none
  | .laneGroupFailure _ => .none
  | .softError _ => .none
  | .patrolScrub _ => .none
  | .checkpointSave => .none
  | .checkpointRestore => .none
  | .moduleReset => .none
  | .keyLoad _ => .none
  | .keyClear _ => .none
  | .spdmRequest _ => .none
  | .pldmMonitoring _ => .none
  | .pldmFirmwareUpdate _ => .none
  | .powerManagerUpdate _ => .none
  | .powerLimitWrite _ => .none
  | .thermalCap _ _ => .none
  | .thermalShutdown _ _ => .none
  | .registerWrite _ => .none
  | .issueCycle _ _ => .none
  | .creplayCompletion _ => .none
  | .flitReplay _ => .none
  | .ualinkPortDown _ => .none
  | .hostIngressAccess _ => .none
  | .peerDrainTimeout _ => .none
  | .mainSideOff => .none

/-- A well-formed instruction. -/
abbrev Instr.WellFormed (i : Instr) : Prop := i.flaw = none

end Sys2Proof
end

