-- ==== Sys2Proof/Decode.lean ====
section
/-! DEFINITION. The decoder, total on any words and rejecting by name, and after it the encoder, both from the layouts of R27, R31,
R33, R44, R45, R335, R336 and of each instruction's own rule. Every reject is the trap ILLEGAL of R29 (for a gloss: the refusal
0x01 of R335).
Some definitions are noncomputable only because Lean's code generator numbers no more than 245 constructors with fields of one type
(`Instr` has more); Lean's kernel evaluates them as any other. -/

namespace Sys2Proof

/-! ## Fields -/

/-- The field of `n` bits of `w` whose lowest bit is `lo`. -/
abbrev fld (w : BitVec 32) (lo n : Nat) : BitVec n := w.extractLsb' lo n

/-- The number that fields make, the most significant field first. -/
def packNat : List (Nat × Nat) → Nat
  | [] => 0
  | f :: fs => f.2 * 2 ^ (fs.map Prod.fst).sum + packNat fs

/-- A word made of fields (width, value), the most significant first, as the layouts of the manual are written. -/
def pack (fs : List (Nat × Nat)) : BitVec 32 := BitVec.ofNat 32 (packNat fs)

namespace Word

def set (w : BitVec 32) : BitVec 1 := fld w 31 1
def major (w : BitVec 32) : BitVec 6 := fld w 25 6
def d (w : BitVec 32) : BitVec 6 := fld w 19 6
def a (w : BitVec 32) : BitVec 6 := fld w 13 6
def b (w : BitVec 32) : BitVec 6 := fld w 7 6
def ca (w : BitVec 32) : BitVec 2 := fld w 5 2
def cb (w : BitVec 32) : BitVec 2 := fld w 3 2
def minor (w : BitVec 32) : BitVec 3 := fld w 0 3
/-- word 1 of LX and UX -/
def vc (x : BitVec 32) : BitVec 6 := fld x 26 6
def cc (x : BitVec 32) : BitVec 2 := fld x 24 2
def ext (x : BitVec 32) : BitVec 24 := fld x 0 24

end Word

open Word

/-- LR and UR, and word 0 of LX and UX (R27). -/
def wordR (s : BitVec 1) (maj d a b : BitVec 6) (ca cb : BitVec 2) (mn : BitVec 3) : BitVec 32 :=
  pack [(1, s.toNat), (6, maj.toNat), (6, d.toNat), (6, a.toNat), (6, b.toNat), (2, ca.toNat), (2, cb.toNat), (3, mn.toNat)]

/-- LI and UI (R27). -/
def wordI (s : BitVec 1) (maj d a : BitVec 6) (ca : BitVec 2) (i : BitVec 11) : BitVec 32 :=
  pack [(1, s.toNat), (6, maj.toNat), (6, d.toNat), (6, a.toNat), (2, ca.toNat), (11, i.toNat)]

/-- LB, UB and the guard prefix (R27, R33). -/
def wordB (s : BitVec 1) (maj : BitVec 6) (p : BitVec 3) (n : BitVec 1) (t : BitVec 21) : BitVec 32 :=
  pack [(1, s.toNat), (6, maj.toNat), (3, p.toNat), (1, n.toNat), (21, t.toNat)]

/-- Word 1 of LX and UX (R27). -/
def wordX (vc : BitVec 6) (cc : BitVec 2) (e : BitVec 24) : BitVec 32 :=
  pack [(6, vc.toNat), (2, cc.toNat), (24, e.toNat)]

/-! ## Codes of the modifier groups (R13, R31, R114, R125, R133, R143, R170) -/

def Ctl.code : Ctl → BitVec 2 | .plain => 0 | .last => 1 | .keep => 2 | .trap => 3
def ctlOf (c : BitVec 2) : Ctl := match c.toNat with | 0 => .plain | 1 => .last | 2 => .keep | _ => .trap
def Rnd.code : Rnd → BitVec 2 | .rne => 0 | .rtz => 1 | .rup => 2 | .rdn => 3
def rndOf (c : BitVec 2) : Rnd := match c.toNat with | 0 => .rne | 1 => .rtz | 2 => .rup | _ => .rdn
def Hint.code : Hint → BitVec 2 | .hn => 0 | .hs => 1 | .hl => 2
def hintOf (c : BitVec 2) : Option Hint := match c.toNat with | 0 => .some .hn | 1 => .some .hs | 2 => .some .hl | _ => .none
def Space.code : Space → BitVec 2 | .g => 0 | .s => 1 | .h => 2
def spaceOf (c : BitVec 2) : Option Space := match c.toNat with | 0 => .some .g | 1 => .some .s | 2 => .some .h | _ => .none
def Width.code : Width → BitVec 2 | .b => 0 | .hw => 1 | .w => 2 | .d => 3
def widthOf (c : BitVec 2) : Width := match c.toNat with | 0 => .b | 1 => .hw | 2 => .w | _ => .d
def OrdKind.code : OrdKind → BitVec 2 | .acq => 0 | .rel => 1 | .ar => 2 | .sc => 3
def ordKindOf (c : BitVec 2) : OrdKind := match c.toNat with | 0 => .acq | 1 => .rel | 2 => .ar | _ => .sc
def Scope.code : Scope → BitVec 3
  | .thread => 0 | .group => 1 | .team => 2 | .pair => 3 | .core => 4 | .die => 5 | .dev => 6 | .sys => 7
def scopeOf (c : BitVec 3) : Scope :=
  match c.toNat with | 0 => .thread | 1 => .group | 2 => .team | 3 => .pair | 4 => .core | 5 => .die | 6 => .dev | _ => .sys
def HCond.code : HCond → BitVec 2 | .full => 0 | .free => 1 | .idle => 2
def hcondOf (c : BitVec 2) : Option HCond := match c.toNat with | 0 => .some .full | 1 => .some .free | 2 => .some .idle | _ => .none
def Kind.code : Kind → BitVec 4
  | .d => 0 | .f => 1 | .hf => 2 | .bf => 3 | .e4 => 4 | .i32 => 8 | .n32 => 9 | .i64 => 10 | .n64 => 11
def kindOf (c : BitVec 4) : Option Kind :=
  match c.toNat with
  | 0 => .some .d | 1 => .some .f | 2 => .some .hf | 3 => .some .bf | 4 => .some .e4
  | 8 => .some .i32 | 9 => .some .n32 | 10 => .some .i64 | 11 => .some .n64 | _ => .none
def AtomTy.code : AtomTy → BitVec 3 | .i32 => 0 | .n32 => 1 | .i64 => 2 | .n64 => 3 | .d => 4
def atomTyOf (c : BitVec 3) : Option AtomTy :=
  match c.toNat with | 0 => .some .i32 | 1 => .some .n32 | 2 => .some .i64 | 3 => .some .n64 | 4 => .some .d | _ => .none
def AtomOrd.code : AtomOrd → BitVec 3 | .rlx => 0 | .acq => 4 | .rel => 5 | .ar => 6 | .sc => 7
def atomOrdOf (c : BitVec 3) : Option AtomOrd :=
  match c.toNat with | 0 => .some .rlx | 4 => .some .acq | 5 => .some .rel | 6 => .some .ar | 7 => .some .sc | _ => .none
def SysReg.code : SysReg → BitVec 6
  | .fpx => 0 | .amax k => BitVec.ofNat 6 (k.toNat + 1) | .atomSize => 9 | .gang => 10 | .trapKind => 0x10 | .trapPc => 0x11
  | .trapAddr => 0x12 | .trapInfo => 0x13 | .trapTid => 0x14 | .trapTmp0 => 0x15 | .trapTmp1 => 0x16 | .trapTmp2 => 0x17
def sysRegOf (c : BitVec 6) : Option SysReg :=
  match c.toNat with
  | 0 => .some .fpx | 1 => .some (.amax 0) | 2 => .some (.amax 1) | 3 => .some (.amax 2) | 4 => .some (.amax 3)
  | 5 => .some (.amax 4) | 6 => .some (.amax 5) | 7 => .some (.amax 6) | 8 => .some (.amax 7) | 9 => .some .atomSize
  | 10 => .some .gang | 0x10 => .some .trapKind | 0x11 => .some .trapPc | 0x12 => .some .trapAddr | 0x13 => .some .trapInfo
  | 0x14 => .some .trapTid | 0x15 => .some .trapTmp0 | 0x16 => .some .trapTmp1 | 0x17 => .some .trapTmp2 | _ => .none
def bit (b : Bool) : BitVec 1 := if b then 1 else 0
def isOne (b : BitVec 1) : Bool := b == 1

/-! ## Decoding -/

/-- Why words are rejected. -/
inductive Reject
  /-- a major, minor or opcode that the maps mark reserved (R44, R45, R335) -/
  | reservedCell
  /-- a reserved bit holding one (R29) -/
  | reservedBit
  /-- a modifier, kind, type, condition or register code that is reserved (R31, R114, R133, R143, R169) -/
  | reservedCode
  /-- the instruction is ill-formed -/
  | flawed (f : Flaw)
  /-- a guard prefix before another prefix, a branch word, a word of the other set, or `mmar` (R33, R181) -/
  | badGuard
  /-- fewer words than the major needs -/
  | truncated
  deriving DecidableEq, Repr

abbrev Dec := Except Reject Instr

/-- The instruction, if its reserved bits are zero (R29). -/
def okIf (c : Prop) [Decidable c] (i : Instr) : Dec := if c then .ok i else .error .reservedBit

/-- A modifier code that may be reserved (R31). -/
def code {α : Type} (o : Option α) (k : α → Dec) : Dec :=
  match o with | .some v => k v | .none => .error .reservedCode

def srcA (w : BitVec 32) : Src := ⟨a w, ctlOf (ca w)⟩
def srcB (w : BitVec 32) : Src := ⟨b w, ctlOf (cb w)⟩
def srcC (x : BitVec 32) : Src := ⟨vc x, ctlOf (cc x)⟩
/-- The predicate sub-layouts of R27: a predicate number in the upper half of a register field, the lower half reserved. -/
def hi3 (r : BitVec 6) : BitVec 3 := r.extractLsb' 3 3
def lo3 (r : BitVec 6) : BitVec 3 := r.extractLsb' 0 3
def up3 (p : BitVec 3) : BitVec 6 := p ++ (0 : BitVec 3)

def lr2D (k : BitVec 6 → Src → Src → Instr) (w : BitVec 32) : Dec := .ok (k (d w) (srcA w) (srcB w))
def lr1D (k : BitVec 6 → Src → Instr) (w : BitVec 32) : Dec := okIf (b w = 0 ∧ cb w = 0) (k (d w) (srcA w))
def a1D (k : Src → Instr) (w : BitVec 32) : Dec := okIf (d w = 0 ∧ b w = 0 ∧ cb w = 0) (k (srcA w))
def noneD (k : Instr) (w : BitVec 32) : Dec := okIf (d w = 0 ∧ a w = 0 ∧ b w = 0 ∧ ca w = 0 ∧ cb w = 0) k
def pd2D (k : BitVec 3 → Src → Src → Instr) (w : BitVec 32) : Dec := okIf (lo3 (d w) = 0) (k (hi3 (d w)) (srcA w) (srcB w))
def p3D (k : BitVec 3 → BitVec 3 → BitVec 3 → Instr) (w : BitVec 32) : Dec :=
  okIf (lo3 (d w) = 0 ∧ lo3 (a w) = 0 ∧ lo3 (b w) = 0 ∧ ca w = 0 ∧ cb w = 0) (k (hi3 (d w)) (hi3 (a w)) (hi3 (b w)))
def p2D (k : BitVec 3 → BitVec 3 → Instr) (w : BitVec 32) : Dec :=
  okIf (lo3 (d w) = 0 ∧ lo3 (a w) = 0 ∧ b w = 0 ∧ ca w = 0 ∧ cb w = 0) (k (hi3 (d w)) (hi3 (a w)))
def krD (k : BitVec 6 → Src → Src → BitVec 3 → Instr) (w : BitVec 32) : Dec := .ok (k (d w) (srcA w) (srcB w) (minor w))
def liD (k : BitVec 6 → Src → BitVec 11 → Instr) (w : BitVec 32) : Dec :=
  .ok (k (d w) ⟨a w, ctlOf (fld w 11 2)⟩ (fld w 0 11))
def lbD (k : BitVec 3 → Bool → BitVec 21 → Instr) (w : BitVec 32) : Dec :=
  .ok (k (fld w 22 3) (isOne (fld w 21 1)) (fld w 0 21))
def movD (k : BitVec 6 → Src → Bool → Instr) (w : BitVec 32) : Dec :=
  okIf ((b w).extractLsb' 1 5 = 0 ∧ cb w = 0) (k (d w) (srcA w) (isOne ((b w).extractLsb' 0 1)))
def mcD (k : BitVec 6 → BitVec 24 → Instr) (w x : BitVec 32) : Dec :=
  okIf (a w = 0 ∧ b w = 0 ∧ ca w = 0 ∧ cb w = 0 ∧ vc x = 0 ∧ cc x = 0) (k (d w) (ext x))
def mchD (k : BitVec 6 → BitVec 16 → Instr) (w x : BitVec 32) : Dec :=
  okIf (a w = 0 ∧ b w = 0 ∧ ca w = 0 ∧ cb w = 0 ∧ vc x = 0 ∧ cc x = 0 ∧ fld x 16 8 = 0) (k (d w) (fld x 0 16))
def rdsrD (k : BitVec 6 → BitVec 3 → Instr) (w : BitVec 32) : Dec :=
  okIf (a w = 0 ∧ b w = 0 ∧ ca w = 0 ∧ cb w = 0) (k (d w) (minor w))
def ballotD (k : BitVec 6 → BitVec 3 → Instr) (w : BitVec 32) : Dec :=
  okIf (lo3 (a w) = 0 ∧ b w = 0 ∧ ca w = 0 ∧ cb w = 0) (k (d w) (hi3 (a w)))
def fmodOf (x : BitVec 32) : FMod := ⟨rndOf (fld x 0 2), isOne (fld x 2 1)⟩
def fmaD (k : BitVec 6 → Src → Src → Src → FMod → Instr) (w x : BitVec 32) : Dec :=
  okIf (fld x 3 21 = 0) (k (d w) (srcA w) (srcB w) (srcC x) (fmodOf x))
def long2D (k : BitVec 6 → Src → Src → FMod → Instr) (w x : BitVec 32) : Dec :=
  okIf (fld x 6 26 = 0) (k (d w) (srcA w) (srcB w) (fmodOf x))
def long1D (k : BitVec 6 → Src → FMod → Instr) (w x : BitVec 32) : Dec :=
  okIf (fld x 6 26 = 0 ∧ b w = 0 ∧ cb w = 0) (k (d w) (srcA w) (fmodOf x))
def longMMD (k : BitVec 6 → Src → Src → Bool → Instr) (w x : BitVec 32) : Dec :=
  okIf (fld x 6 26 = 0 ∧ fld x 0 2 = 0) (k (d w) (srcA w) (srcB w) (isOne (fld x 2 1)))
def cvtD (k : BitVec 6 → Src → CvtMod → Instr) (w x : BitVec 32) : Dec :=
  code (kindOf (fld x 15 4)) fun dk => code (kindOf (fld x 11 4)) fun sk =>
    okIf (fld x 19 13 = 0 ∧ b w = 0 ∧ cb w = 0) (k (d w) (srcA w)
      ⟨dk, sk, fld x 7 4, fld x 4 3, isOne (fld x 3 1), isOne (fld x 2 1), rndOf (fld x 0 2)⟩)
def ldD (k : BitVec 6 → Src → MemMod → Instr) (w x : BitVec 32) : Dec :=
  code (spaceOf (fld x 22 2)) fun sp => code (hintOf (fld x 18 2)) fun h =>
    okIf (fld x 24 8 = 0 ∧ fld x 14 4 = 0 ∧ b w = 0 ∧ cb w = 0) (k (d w) (srcA w) ⟨sp, widthOf (fld x 20 2), h, fld x 0 14⟩)
def stD (k : Src → Src → MemMod → Instr) (w x : BitVec 32) : Dec :=
  code (spaceOf (fld x 22 2)) fun sp => code (hintOf (fld x 18 2)) fun h =>
    okIf (fld x 24 8 = 0 ∧ fld x 14 4 = 0 ∧ d w = 0) (k (srcA w) (srcB w) ⟨sp, widthOf (fld x 20 2), h, fld x 0 14⟩)
def ldeD (k : BitVec 6 → Src → Src → LdeMod → Instr) (w x : BitVec 32) : Dec :=
  code (hintOf (fld x 18 2)) fun h =>
    okIf (fld x 22 7 = 0 ∧ fld x 14 3 = 0 ∧ (fld x 17 1 = 0 → fld x 29 3 = 0)) (k (d w) (srcA w) (srcB w)
      ⟨widthOf (fld x 20 2), h, if isOne (fld x 17 1) then .some (fld x 29 3) else .none, fld x 0 14⟩)
def pfD (k : Src → PfMod → Instr) (w x : BitVec 32) : Dec :=
  code (spaceOf (fld x 22 2)) fun sp => code (hintOf (fld x 18 2)) fun h =>
    okIf (fld x 24 8 = 0 ∧ fld x 20 2 = 0 ∧ fld x 14 4 = 0 ∧ d w = 0 ∧ b w = 0 ∧ cb w = 0) (k (srcA w) ⟨sp, h, fld x 0 14⟩)
def atomModOf (x : BitVec 32) (k : AtomMod → Dec) : Dec :=
  code (spaceOf (fld x 22 2)) fun sp => code (atomTyOf (fld x 19 3)) fun t => code (atomOrdOf (fld x 13 3)) fun o =>
    k ⟨sp, t, scopeOf (fld x 16 3), o, fld x 0 13⟩
def atomD (k : BitVec 6 → Src → Src → AtomMod → Instr) (w x : BitVec 32) : Dec :=
  atomModOf x fun m => okIf (vc x = 0 ∧ cc x = 0) (k (d w) (srcA w) (srcB w) m)
def casD (k : BitVec 6 → Src → Src → Src → AtomMod → Instr) (w x : BitVec 32) : Dec :=
  atomModOf x fun m => .ok (k (d w) (srcA w) (srcB w) (srcC x) m)
def recvD (k : BitVec 6 → BitVec 6 → Instr) (w : BitVec 32) : Dec := okIf (ca w = 0 ∧ b w = 0 ∧ cb w = 0) (k (d w) (a w))
def sendD (k : BitVec 6 → Src → Instr) (w : BitVec 32) : Dec := okIf (ca w = 0 ∧ d w = 0) (k (a w) (srcB w))
def mmarD (k : BitVec 6 → Src → Src → BitVec 3 → BitVec 3 → Instr) (w x : BitVec 32) : Dec :=
  okIf (fld x 6 26 = 0) (k (d w) (srcA w) (srcB w) (fld x 0 3) (fld x 3 3))
def copenD (k : BitVec 6 → Src → Bool → BitVec 7 → Instr) (w x : BitVec 32) : Dec :=
  okIf (fld x 8 24 = 0 ∧ b w = 0 ∧ cb w = 0) (k (d w) (srcA w) (isOne (fld x 7 1)) (fld x 0 7))
def caddD (k : BitVec 3 → Src → Src → Src → Option (BitVec 6) → Instr) (w x : BitVec 32) : Dec :=
  okIf (lo3 (d w) = 0 ∧ fld x 22 1 = 0 ∧ fld x 0 16 = 0 ∧ (fld x 23 1 = 0 → fld x 16 6 = 0))
    (k (hi3 (d w)) (srcA w) (srcB w) (srcC x) (if isOne (fld x 23 1) then .some (fld x 16 6) else .none))
def a1xD (k : Src → Instr) (w x : BitVec 32) : Dec := okIf (d w = 0 ∧ b w = 0 ∧ cb w = 0 ∧ x = 0) (k (srcA w))
def lr1xD (k : BitVec 6 → Src → Instr) (w x : BitVec 32) : Dec := okIf (b w = 0 ∧ cb w = 0 ∧ x = 0) (k (d w) (srcA w))
def lr2xD (k : BitVec 6 → Src → Src → Instr) (w x : BitVec 32) : Dec := okIf (x = 0) (k (d w) (srcA w) (srcB w))
def creadD (k : BitVec 6 → Src → BitVec 3 → Instr) (w x : BitVec 32) : Dec :=
  okIf (fld x 3 29 = 0 ∧ b w = 0 ∧ cb w = 0) (k (d w) (srcA w) (fld x 0 3))
def creplayD (k : BitVec 6 → Src → Src → BitVec 16 → BitVec 7 → Instr) (w x : BitVec 32) : Dec :=
  okIf (fld x 23 9 = 0) (k (d w) (srcA w) (srcB w) (fld x 0 16) (fld x 16 7))
def fenceD (k : OrdKind → Scope → Instr) (w : BitVec 32) : Dec :=
  okIf (fld w 21 4 = 0 ∧ fld w 3 16 = 0) (k (ordKindOf (fld w 19 2)) (scopeOf (minor w)))
def waithD (k : HCond → BitVec 7 → Instr) (w : BitVec 32) : Dec :=
  code (hcondOf (fld w 7 2)) fun c => okIf (fld w 9 16 = 0) (k c (fld w 0 7))
def send_uD (k : BitVec 6 → Src → Option Src → Instr) (w x : BitVec 32) : Dec :=
  okIf (d w = 0 ∧ fld x 24 8 = 0 ∧ fld x 0 17 = 0 ∧ (fld x 17 1 = 1 → b w = 0 ∧ cb w = 0))
    (k (fld x 18 6) (srcA w) (if isOne (fld x 17 1) then .none else .some (srcB w)))
def recv_uD (k : BitVec 6 → BitVec 6 → Option (Src × Src) → Instr) (w x : BitVec 32) : Dec :=
  okIf (fld x 24 8 = 0 ∧ fld x 0 17 = 0 ∧ (fld x 17 1 = 1 → a w = 0 ∧ ca w = 0 ∧ b w = 0 ∧ cb w = 0))
    (k (d w) (fld x 18 6) (if isOne (fld x 17 1) then .none else .some (srcA w, srcB w)))
def launchD (k : BitVec 3 → BitVec 6 → Src → Src → BitVec 2 → Instr) (w x : BitVec 32) : Dec :=
  okIf (fld x 24 8 = 0 ∧ fld x 0 19 = 0) (k (fld x 21 3) (d w) (srcA w) (srcB w) (fld x 19 2))
def mmasnD (k : BitVec 6 → Src → Src → BitVec 4 → Instr) (w x : BitVec 32) : Dec :=
  okIf (d w = 0 ∧ fld x 24 8 = 0 ∧ fld x 0 14 = 0) (k (fld x 18 6) (srcA w) (srcB w) (fld x 14 4))
def accrelD (k : BitVec 6 → Option (Bool × Src) → Instr) (w x : BitVec 32) : Dec :=
  okIf (a w = 0 ∧ ca w = 0 ∧ fld x 2 30 = 0 ∧ (fld x 0 1 = 0 → fld x 1 1 = 0 ∧ b w = 0 ∧ cb w = 0))
    (k (d w) (if isOne (fld x 0 1) then .some (isOne (fld x 1 1), srcB w) else .none))
def trapD (k : BitVec 12 → Instr) (w : BitVec 32) : Dec := okIf (d w = 0 ∧ ca w = 0 ∧ cb w = 0) (k (fld w 7 12))
def rdsysD (k : BitVec 6 → SysReg → Bool → Instr) (w : BitVec 32) : Dec :=
  code (sysRegOf (b w)) fun r => okIf (a w = 0 ∧ fld w 6 1 = 0 ∧ cb w = 0) (k (d w) r (isOne (fld w 5 1)))
def wrsysD (k : SysReg → Src → Instr) (w : BitVec 32) : Dec :=
  code (sysRegOf (b w)) fun r => okIf (d w = 0 ∧ cb w = 0) (k r (srcA w))

/-- Major 0x26 (R105), by type and op. -/
def longD (ty op : Nat) (w x : BitVec 32) : Dec :=
  match ty, op with
  | 0, 0 => long2D .addDLong w x
  | 0, 1 => long2D .subDLong w x
  | 0, 2 => long2D .mulDLong w x
  | 0, 3 => long2D .divDLong w x
  | 0, 4 => longMMD .minDLong w x
  | 0, 5 => longMMD .maxDLong w x
  | 0, 6 => long1D .sqrtDLong w x
  | 0, 7 => long1D .rintDLong w x
  | 1, 0 => long2D .addFLong w x
  | 1, 1 => long2D .subFLong w x
  | 1, 2 => long2D .mulFLong w x
  | 1, 3 => long2D .divFLong w x
  | 1, 4 => longMMD .minFLong w x
  | 1, 5 => longMMD .maxFLong w x
  | 1, 6 => long1D .sqrtFLong w x
  | 1, 7 => long1D .rintFLong w x
  | 2, 0 => long2D .addHfLong w x
  | 2, 1 => long2D .subHfLong w x
  | 2, 2 => long2D .mulHfLong w x
  | 2, 3 => longMMD .minHfLong w x
  | 2, 4 => longMMD .maxHfLong w x
  | 3, 0 => long2D .addBfLong w x
  | 3, 1 => long2D .subBfLong w x
  | 3, 2 => long2D .mulBfLong w x
  | 3, 3 => longMMD .minBfLong w x
  | 3, 4 => longMMD .maxBfLong w x
  | _, _ => .error .reservedCell

/-- The lane map (R44). -/
def laneCell (w x : BitVec 32) : Dec :=
  match (major w).toNat with
  | 0x01 => match (Word.minor w).toNat with
    | 0 => lr2D .addI64 w
    | 1 => lr2D .subI64 w
    | 2 => lr2D .addI32 w
    | 3 => lr2D .subI32 w
    | 4 => lr2D .addN32 w
    | 5 => lr2D .subN32 w
    | 6 => lr2D .addI64Sat w
    | _ => lr2D .subI64Sat w
  | 0x02 => match (Word.minor w).toNat with
    | 0 => lr2D .addN64Sat w
    | 1 => lr2D .subN64Sat w
    | 2 => lr2D .addI32Sat w
    | 3 => lr2D .subI32Sat w
    | 4 => lr2D .addN32Sat w
    | 5 => lr2D .subN32Sat w
    | 6 => lr1D .negI64 w
    | _ => lr1D .absI64 w
  | 0x03 => match (Word.minor w).toNat with
    | 0 => lr2D .mulI64 w
    | 1 => lr2D .mulhiI64 w
    | 2 => lr2D .mulhiN64 w
    | 3 => lr2D .mulI32 w
    | 4 => lr2D .mulN32 w
    | 5 => lr2D .mulwI32 w
    | 6 => lr2D .mulwN32 w
    | _ => .error .reservedCell
  | 0x04 => match (Word.minor w).toNat with
    | 0 => lr2D .minI64 w
    | 1 => lr2D .maxI64 w
    | 2 => lr2D .minN64 w
    | 3 => lr2D .maxN64 w
    | 4 => lr2D .minI32 w
    | 5 => lr2D .maxI32 w
    | 6 => lr2D .minN32 w
    | _ => lr2D .maxN32 w
  | 0x05 => match (Word.minor w).toNat with
    | 0 => lr2D .and w
    | 1 => lr2D .or w
    | 2 => lr2D .xor w
    | 3 => lr2D .andn w
    | 4 => lr2D .orn w
    | 5 => lr2D .xnor w
    | 6 => lr1D .not w
    | _ => movD .mov w
  | 0x06 => match (Word.minor w).toNat with
    | 0 => lr2D .shlN64 w
    | 1 => lr2D .shrN64 w
    | 2 => lr2D .shrI64 w
    | 3 => lr2D .rotlN64 w
    | 4 => lr2D .shlN32 w
    | 5 => lr2D .shrN32 w
    | 6 => lr2D .shrI32 w
    | _ => lr2D .rotlN32 w
  | 0x07 => match (Word.minor w).toNat with
    | 0 => lr1D .popc w
    | 1 => lr1D .clz w
    | 2 => lr1D .ctz w
    | 3 => lr1D .brev w
    | 4 => lr1D .bswap w
    | 5 => lr1D .sextI8 w
    | 6 => lr1D .sextI16 w
    | _ => lr1D .sextI32 w
  | 0x08 => krD .lea w
  | 0x09 => match (Word.minor w).toNat with
    | 0 => pd2D .setpEqI64 w
    | 1 => pd2D .setpNeI64 w
    | 2 => pd2D .setpLtI64 w
    | 3 => pd2D .setpLeI64 w
    | 4 => pd2D .setpLtN64 w
    | 5 => pd2D .setpLeN64 w
    | 6 => pd2D .setpTst w
    | _ => .error .reservedCell
  | 0x0A => match (Word.minor w).toNat with
    | 0 => pd2D .setpEqI32 w
    | 1 => pd2D .setpNeI32 w
    | 2 => pd2D .setpLtI32 w
    | 3 => pd2D .setpLeI32 w
    | 4 => pd2D .setpLtN32 w
    | 5 => pd2D .setpLeN32 w
    | _ => .error .reservedCell
  | 0x0B => match (Word.minor w).toNat with
    | 0 => p3D .pand w
    | 1 => p3D .por w
    | 2 => p3D .pxor w
    | 3 => p3D .pandn w
    | 4 => p2D .pnot w
    | _ => .error .reservedCell
  | 0x0C => krD .sel w
  | 0x0D => liD .addI64Imm w
  | 0x0E => liD .addI32Imm w
  | 0x0F => liD .addI32SatImm w
  | 0x10 => liD .addI64SatImm w
  | 0x11 => liD .andImm w
  | 0x12 => liD .orImm w
  | 0x13 => liD .xorImm w
  | 0x14 => liD .shlN64Imm w
  | 0x15 => liD .shrN64Imm w
  | 0x16 => liD .shrI64Imm w
  | 0x17 => liD .mulI64Imm w
  | 0x18 => match (Word.minor w).toNat with
    | 0 => mcD .movc w x
    | 1 => mcD .movcM w x
    | 2 => mchD .movcH w x
    | _ => .error .reservedCell
  | 0x19 => rdsrD .rdsr w
  | 0x1A => match (Word.minor w).toNat with
    | 0 => lr2D .shflIdx w
    | 1 => lr2D .shflUp w
    | 2 => lr2D .shflDown w
    | 3 => lr2D .shflXor w
    | 4 => ballotD .ballot w
    | 5 => p2D .voteAny w
    | 6 => p2D .voteAll w
    | _ => .error .reservedCell
  | 0x1B => match (Word.minor w).toNat with
    | 0 => lr1D .redAddI64 w
    | 1 => lr1D .redMinI64 w
    | 2 => lr1D .redMaxI64 w
    | 3 => lr1D .redAddD w
    | 4 => lr1D .redMinD w
    | 5 => lr1D .redMaxD w
    | 6 => lr1D .redAddF w
    | _ => .error .reservedCell
  | 0x1C => lbD .bra w
  | 0x1D => lbD .call w
  | 0x1E => match (Word.minor w).toNat with
    | 0 => a1D .jmp w
    | 1 => lr1D .callr w
    | 2 => a1D .ret w
    | _ => .error .reservedCell
  | 0x1F => match (Word.minor w).toNat with
    | 0 => noneD .exit w
    | 1 => noneD .nop w
    | _ => .error .reservedCell
  | 0x20 => match (Word.minor w).toNat with
    | 0 => lr2D .addD w
    | 1 => lr2D .subD w
    | 2 => lr2D .mulD w
    | 3 => lr2D .divD w
    | 4 => lr2D .minD w
    | 5 => lr2D .maxD w
    | 6 => lr1D .sqrtD w
    | _ => lr1D .rintD w
  | 0x21 => match (Word.minor w).toNat with
    | 0 => lr2D .addF w
    | 1 => lr2D .subF w
    | 2 => lr2D .mulF w
    | 3 => lr2D .divF w
    | 4 => lr2D .minF w
    | 5 => lr2D .maxF w
    | 6 => lr1D .sqrtF w
    | _ => lr1D .rintF w
  | 0x22 => match (Word.minor w).toNat with
    | 0 => lr2D .addHf w
    | 1 => lr2D .subHf w
    | 2 => lr2D .mulHf w
    | 3 => lr2D .minHf w
    | 4 => lr2D .maxHf w
    | _ => .error .reservedCell
  | 0x23 => match (Word.minor w).toNat with
    | 0 => lr2D .addBf w
    | 1 => lr2D .subBf w
    | 2 => lr2D .mulBf w
    | 3 => lr2D .minBf w
    | 4 => lr2D .maxBf w
    | _ => .error .reservedCell
  | 0x24 => match (Word.minor w).toNat with
    | 0 => pd2D .setpEqD w
    | 1 => pd2D .setpLtD w
    | 2 => pd2D .setpLeD w
    | 3 => pd2D .setpNanD w
    | 4 => pd2D .setpEqF w
    | 5 => pd2D .setpLtF w
    | 6 => pd2D .setpLeF w
    | _ => pd2D .setpNanF w
  | 0x25 => match (Word.minor w).toNat with
    | 0 => fmaD .fmaD w x
    | 1 => fmaD .fnmaD w x
    | 2 => fmaD .fmaF w x
    | 3 => fmaD .fnmaF w x
    | 4 => fmaD .fmaHf w x
    | 5 => fmaD .fmaBf w x
    | _ => .error .reservedCell
  | 0x26 => longD (Word.minor w).toNat (fld x 3 3).toNat w x
  | 0x27 => match (Word.minor w).toNat with
    | 0 => lr1D .rcpD w
    | 1 => lr1D .rsqrtD w
    | 2 => lr1D .exp2D w
    | 3 => lr1D .log2D w
    | 4 => lr1D .exp2F w
    | 5 => lr1D .log2F w
    | 6 => lr1D .sinF w
    | _ => lr1D .cosF w
  | 0x28 => match (Word.minor w).toNat with
    | 0 => cvtD .cvt w x
    | _ => .error .reservedCell
  | 0x29 => match (Word.minor w).toNat with
    | 0 => lr1D .fclassD w
    | 1 => lr1D .fclassF w
    | 2 => lr2D .copysignD w
    | 3 => lr2D .copysignF w
    | 4 => lr1D .absD w
    | 5 => lr1D .negD w
    | 6 => lr1D .absF w
    | _ => lr1D .negF w
  | 0x2C => match (Word.minor w).toNat with
    | 0 => ldD .ld w x
    | 1 => stD .st w x
    | 2 => ldeD .lde w x
    | 3 => pfD .pf w x
    | _ => .error .reservedCell
  | 0x2D => match (Word.minor w).toNat with
    | 0 => atomD .atomAdd w x
    | 1 => atomD .atomMin w x
    | 2 => atomD .atomMax w x
    | 3 => atomD .atomAnd w x
    | 4 => atomD .atomOr w x
    | 5 => atomD .atomXor w x
    | 6 => atomD .atomXchg w x
    | _ => casD .atomCas w x
  | 0x2E => match (Word.minor w).toNat with
    | 0 => recvD .recvD w
    | 1 => recvD .recvW w
    | 2 => sendD .sendD w
    | 3 => sendD .sendW w
    | _ => .error .reservedCell
  | 0x38 => match (Word.minor w).toNat with
    | 0 => mmarD .mmarD w x
    | 1 => mmarD .mmarF w x
    | 2 => mmarD .mmarBf w x
    | 3 => mmarD .mmarHf w x
    | 4 => mmarD .mmarE4 w x
    | _ => .error .reservedCell
  | 0x39 => match (Word.minor w).toNat with
    | 0 => copenD .copen w x
    | 1 => caddD .cadd w x
    | 2 => a1xD .cflush w x
    | 3 => a1xD .cclose w x
    | 4 => creadD .cread w x
    | 5 => creplayD .creplay w x
    | _ => .error .reservedCell
  | _ => .error .reservedCell

/-- The uniform map (R45). -/
noncomputable def uniCell (w x : BitVec 32) : Dec :=
  match (major w).toNat with
  | 0x01 => match (Word.minor w).toNat with
    | 0 => lr2D .addI64U w
    | 1 => lr2D .subI64U w
    | 2 => lr2D .mulI64U w
    | 3 => lr2D .mulhiN64U w
    | 4 => lr2D .minI64U w
    | 5 => lr2D .maxI64U w
    | 6 => lr2D .minN64U w
    | _ => lr2D .maxN64U w
  | 0x02 => match (Word.minor w).toNat with
    | 0 => lr2D .andU w
    | 1 => lr2D .orU w
    | 2 => lr2D .xorU w
    | 3 => lr2D .andnU w
    | 4 => lr2D .shlN64U w
    | 5 => lr2D .shrN64U w
    | 6 => lr2D .shrI64U w
    | _ => lr1D .movU w
  | 0x03 => match (Word.minor w).toNat with
    | 0 => pd2D .setpEqI64U w
    | 1 => pd2D .setpNeI64U w
    | 2 => pd2D .setpLtI64U w
    | 3 => pd2D .setpLeI64U w
    | 4 => pd2D .setpLtN64U w
    | 5 => pd2D .setpLeN64U w
    | 6 => pd2D .setpTstU w
    | _ => .error .reservedCell
  | 0x04 => match (Word.minor w).toNat with
    | 0 => p3D .pandU w
    | 1 => p3D .porU w
    | 2 => p3D .pxorU w
    | 3 => p3D .pandnU w
    | 4 => p2D .pnotU w
    | _ => .error .reservedCell
  | 0x05 => liD .addI64ImmU w
  | 0x06 => match (Word.minor w).toNat with
    | 0 => mcD .movcU w x
    | 1 => mcD .movcMU w x
    | 2 => mchD .movcHU w x
    | _ => .error .reservedCell
  | 0x07 => match (Word.minor w).toNat with
    | 0 => ldD .ldU w x
    | 1 => stD .stU w x
    | 2 => ldeD .ldeU w x
    | 3 => pfD .pfU w x
    | _ => .error .reservedCell
  | 0x08 => lbD .ujmp w
  | 0x09 => lbD .ucall w
  | 0x0A => match (Word.minor w).toNat with
    | 0 => a1D .ujmpr w
    | 1 => lr1D .ucallr w
    | 2 => a1D .uret w
    | _ => .error .reservedCell
  | 0x0B => match (Word.minor w).toNat with
    | 0 => noneD .bar w
    | 1 => noneD .tbar w
    | 2 => lr2D .claim w
    | 3 => a1D .rdv w
    | _ => .error .reservedCell
  | 0x0C => fenceD .fence w
  | 0x0D => waithD .waith w
  | 0x0E => match (Word.minor w).toNat with
    | 0 => send_uD .sendU w x
    | 1 => recv_uD .recvU w x
    | 2 => launchD .launch w x
    | 3 => lr1xD .waitl w x
    | 4 => lr1xD .fork w x
    | _ => .error .reservedCell
  | 0x0F => match (Word.minor w).toNat with
    | 0 => lr1D .bpub w
    | 1 => lr2D .bfloor w
    | _ => .error .reservedCell
  | 0x10 => match (Word.minor w).toNat with
    | 0 => a1xD .gang w x
    | 1 => lr2xD .mmasD w x
    | 2 => mmasnD .mmasF w x
    | 3 => mmasnD .mmasBf w x
    | 4 => mmasnD .mmasHf w x
    | 5 => mmasnD .mmasE4 w x
    | 6 => accrelD .accrel w x
    | _ => .error .reservedCell
  | 0x11 => match (Word.minor w).toNat with
    | 0 => trapD .trap w
    | 1 => noneD .rett w
    | 2 => rdsysD .rdsys w
    | 3 => wrsysD .wrsys w
    | 4 => noneD .unop w
    | _ => .error .reservedCell
  | _ => .error .reservedCell

/-- The instruction itself, without its guard; `x` counts for the two-word majors only. -/
noncomputable def decodePlain (w x : BitVec 32) : Dec :=
  match (if set w = 0 then laneCell w x else uniCell w x) with
  | .ok i => match i.flaw with | .none => .ok i | .some f => .error (.flawed f)
  | .error r => .error r

/-- R28: LX and UX majors are two words long. -/
def twoWord (w : BitVec 32) : Bool :=
  if set w = 0 then [0x18, 0x25, 0x26, 0x28, 0x2C, 0x2D, 0x38, 0x39].contains (major w).toNat
  else [0x06, 0x07, 0x0E, 0x10].contains (major w).toNat

/-- R33: a guard prefix word. -/
def isGuard (w : BitVec 32) : Bool := major w == 0x3F

/-- LB and UB majors (R44, R45). -/
def isBranch (w : BitVec 32) : Bool :=
  if set w = 0 then major w == 0x1C || major w == 0x1D else major w == 0x08 || major w == 0x09

/-- A decoded instruction with its guard (R33, R34) and its length in bytes, the prefix included. -/
structure Decoded where
  guard : Option (BitVec 3 × Bool)
  ins : Instr
  bytes : Nat
  deriving DecidableEq, Repr

/-- One instruction from the words at an address. -/
noncomputable def decodeWords : List (BitVec 32) → Except Reject Decoded
  | [] => .error .truncated
  | w :: rest =>
    let body (g : Option (BitVec 3 × Bool)) (n : Nat) (w : BitVec 32) (rest : List (BitVec 32)) : Except Reject Decoded :=
      if twoWord w then
        match rest with
        | [] => .error .truncated
        | x :: _ => match decodePlain w x with | .ok i => .ok ⟨g, i, n + 8⟩ | .error r => .error r
      else match decodePlain w 0 with | .ok i => .ok ⟨g, i, n + 4⟩ | .error r => .error r
    if isGuard w then
      match rest with
      | [] => .error .truncated
      | v :: rest' =>
        if isGuard v || isBranch v || set v != set w || (set v == 0 && major v == 0x38) then .error .badGuard
        else if fld w 0 21 ≠ 0 then .error .reservedBit
        else body (.some (fld w 22 3, isOne (fld w 21 1))) 4 v rest'
    else body .none 0 w rest

/-- Four bytes as a little-endian word. -/
def le32 (b0 b1 b2 b3 : BitVec 8) : BitVec 32 := b3 ++ b2 ++ b1 ++ b0

/-- The words that bytes hold; bytes that fill no word are dropped. -/
def wordsOf : List (BitVec 8) → List (BitVec 32)
  | b0 :: b1 :: b2 :: b3 :: rest => le32 b0 b1 b2 b3 :: wordsOf rest
  | _ => []

/-- One core instruction from bytes, little-endian. -/
noncomputable def decodeBytes (bs : List (BitVec 8)) : Except Reject Decoded := decodeWords (wordsOf bs)

/-! ## Gloss words (R335, R336) -/

def grD (k : BitVec 4 → BitVec 4 → BitVec 4 → Instr) (w : BitVec 32) : Dec :=
  okIf (fld w 0 14 = 0) (k (fld w 22 4) (fld w 18 4) (fld w 14 4))
def giD (k : BitVec 4 → BitVec 4 → BitVec 18 → Instr) (w : BitVec 32) : Dec := .ok (k (fld w 22 4) (fld w 18 4) (fld w 0 18))
def gmoviD (k : BitVec 4 → BitVec 18 → Instr) (w : BitVec 32) : Dec := okIf (fld w 18 4 = 0) (k (fld w 22 4) (fld w 0 18))
def gbD (k : BitVec 4 → BitVec 4 → BitVec 6 → Instr) (w : BitVec 32) : Dec :=
  okIf (fld w 6 12 = 0) (k (fld w 22 4) (fld w 18 4) (fld w 0 6))
def gbrD (k : BitVec 6 → Instr) (w : BitVec 32) : Dec := okIf (fld w 6 20 = 0) (k (fld w 0 6))
def gfireD (k : BitVec 4 → BitVec 4 → Instr) (w : BitVec 32) : Dec :=
  okIf (fld w 22 4 = 0 ∧ fld w 4 14 = 0) (k (fld w 18 4) (fld w 0 4))
def gendD (k : Instr) (w : BitVec 32) : Dec := okIf (fld w 0 26 = 0) k

noncomputable def glossCell (w : BitVec 32) : Dec :=
  match (fld w 26 6).toNat with
  | 0x01 => grD .gadd w
  | 0x02 => grD .gsub w
  | 0x03 => grD .gand w
  | 0x04 => grD .gor w
  | 0x05 => grD .gxor w
  | 0x06 => grD .gshl w
  | 0x07 => grD .gshr w
  | 0x08 => grD .gmin w
  | 0x09 => grD .gmax w
  | 0x0A => grD .gmul w
  | 0x0B => gmoviD .gmovi w
  | 0x0C => giD .gaddi w
  | 0x0D => giD .gandi w
  | 0x0E => giD .gshli w
  | 0x0F => giD .gshri w
  | 0x10 => giD .gld w
  | 0x11 => giD .gst w
  | 0x12 => gbD .gbeq w
  | 0x13 => gbD .gbne w
  | 0x14 => gbD .gblt w
  | 0x15 => gbD .gbge w
  | 0x16 => gbrD .gbr w
  | 0x17 => grD .ghash w
  | 0x18 => grD .ghist w
  | 0x19 => grD .gcms w
  | 0x1A => grD .ghll w
  | 0x1B => gfireD .gfire w
  | 0x1C => gendD .gend w
  | _ => .error .reservedCell

/-- A gloss word, as the unit checks it when it is attached (R335). DEDUCED: log entry 36. -/
noncomputable def decodeGloss (w : BitVec 32) : Dec :=
  match glossCell w with
  | .ok i => match i.flaw with | .none => .ok i | .some f => .error (.flawed f)
  | .error r => .error r

/-- The decoder of whichever unit the bits belong to, for the host: a core's decoder, and a Gloss unit's where the core's refuses
them or would read a second word that is not there. DEDUCED: log entry 36. -/
noncomputable def decodeTableWord (nbits w : Nat) : Option Instr :=
  let w0 := BitVec.ofNat 32 w
  match decodeWords [w0, BitVec.ofNat 32 (w / 2 ^ 32), BitVec.ofNat 32 (w / 2 ^ 64)] with
  | .ok d =>
    if nbits ≤ 32 ∧ d.bytes ≠ 4 then
      match decodeGloss w0 with | .ok i => .some i | .error _ => .some d.ins
    else .some d.ins
  | .error _ => match decodeGloss w0 with | .ok i => .some i | .error _ => .none

/-! ## Encoding -/

def lr2E (s : BitVec 1) (maj : BitVec 6) (mn : BitVec 3) (d : BitVec 6) (a b : Src) : List (BitVec 32) :=
  [wordR s maj d a.r b.r a.c.code b.c.code mn]
def lr1E (s : BitVec 1) (maj : BitVec 6) (mn : BitVec 3) (d : BitVec 6) (a : Src) : List (BitVec 32) :=
  [wordR s maj d a.r 0 a.c.code 0 mn]
def a1E (s : BitVec 1) (maj : BitVec 6) (mn : BitVec 3) (a : Src) : List (BitVec 32) := [wordR s maj 0 a.r 0 a.c.code 0 mn]
def noneE (s : BitVec 1) (maj : BitVec 6) (mn : BitVec 3) : List (BitVec 32) := [wordR s maj 0 0 0 0 0 mn]
def pd2E (s : BitVec 1) (maj : BitVec 6) (mn : BitVec 3) (p : BitVec 3) (a b : Src) : List (BitVec 32) :=
  [wordR s maj (up3 p) a.r b.r a.c.code b.c.code mn]
def p3E (s : BitVec 1) (maj : BitVec 6) (mn : BitVec 3) (p q r : BitVec 3) : List (BitVec 32) :=
  [wordR s maj (up3 p) (up3 q) (up3 r) 0 0 mn]
def p2E (s : BitVec 1) (maj : BitVec 6) (mn : BitVec 3) (p q : BitVec 3) : List (BitVec 32) :=
  [wordR s maj (up3 p) (up3 q) 0 0 0 mn]
def krE (s : BitVec 1) (maj : BitVec 6) (d : BitVec 6) (a b : Src) (k : BitVec 3) : List (BitVec 32) :=
  [wordR s maj d a.r b.r a.c.code b.c.code k]
def liE (s : BitVec 1) (maj : BitVec 6) (d : BitVec 6) (a : Src) (i : BitVec 11) : List (BitVec 32) :=
  [wordI s maj d a.r a.c.code i]
def lbE (s : BitVec 1) (maj : BitVec 6) (p : BitVec 3) (n : Bool) (t : BitVec 21) : List (BitVec 32) := [wordB s maj p (bit n) t]
def movE (s : BitVec 1) (maj : BitVec 6) (mn : BitVec 3) (d : BitVec 6) (a : Src) (u : Bool) : List (BitVec 32) :=
  [wordR s maj d a.r ((0 : BitVec 5) ++ bit u) a.c.code 0 mn]
def mcE (s : BitVec 1) (maj : BitVec 6) (mn : BitVec 3) (d : BitVec 6) (i : BitVec 24) : List (BitVec 32) :=
  [wordR s maj d 0 0 0 0 mn, wordX 0 0 i]
def mchE (s : BitVec 1) (maj : BitVec 6) (mn : BitVec 3) (d : BitVec 6) (i : BitVec 16) : List (BitVec 32) :=
  [wordR s maj d 0 0 0 0 mn, pack [(16, 0), (16, i.toNat)]]
def rdsrE (s : BitVec 1) (maj : BitVec 6) (d : BitVec 6) (r : BitVec 3) : List (BitVec 32) := [wordR s maj d 0 0 0 0 r]
def ballotE (s : BitVec 1) (maj : BitVec 6) (mn : BitVec 3) (d : BitVec 6) (p : BitVec 3) : List (BitVec 32) :=
  [wordR s maj d (up3 p) 0 0 0 mn]
def fmaE (s : BitVec 1) (maj : BitVec 6) (mn : BitVec 3) (d : BitVec 6) (a b c : Src) (m : FMod) : List (BitVec 32) :=
  [wordR s maj d a.r b.r a.c.code b.c.code mn,
   pack [(6, c.r.toNat), (2, c.c.code.toNat), (21, 0), (1, (bit m.ftz).toNat), (2, m.rnd.code.toNat)]]
/-- Word 1 at major 0x26 (R104). -/
def wordL (op : BitVec 3) (z : Bool) (r : BitVec 2) : BitVec 32 := pack [(26, 0), (3, op.toNat), (1, (bit z).toNat), (2, r.toNat)]
def long2E (ty op : BitVec 3) (d : BitVec 6) (a b : Src) (m : FMod) : List (BitVec 32) :=
  [wordR 0 0x26 d a.r b.r a.c.code b.c.code ty, wordL op m.ftz m.rnd.code]
def long1E (ty op : BitVec 3) (d : BitVec 6) (a : Src) (m : FMod) : List (BitVec 32) :=
  [wordR 0 0x26 d a.r 0 a.c.code 0 ty, wordL op m.ftz m.rnd.code]
def longMME (ty op : BitVec 3) (d : BitVec 6) (a b : Src) (z : Bool) : List (BitVec 32) :=
  [wordR 0 0x26 d a.r b.r a.c.code b.c.code ty, wordL op z 0]
def cvtE (s : BitVec 1) (maj : BitVec 6) (mn : BitVec 3) (d : BitVec 6) (a : Src) (m : CvtMod) : List (BitVec 32) :=
  [wordR s maj d a.r 0 a.c.code 0 mn,
   pack [(13, 0), (4, m.dk.code.toNat), (4, m.sk.code.toNat), (4, m.part.toNat), (3, m.slot.toNat), (1, (bit m.satf).toNat),
         (1, (bit m.ftz).toNat), (2, m.rnd.code.toNat)]]
/-- Word 1 at lane major 0x2C and uniform major 0x07 (R125). -/
def wordM (p : BitVec 3) (sp wd h : BitVec 2) (chk : BitVec 1) (off : BitVec 14) : BitVec 32 :=
  pack [(3, p.toNat), (5, 0), (2, sp.toNat), (2, wd.toNat), (2, h.toNat), (1, chk.toNat), (3, 0), (14, off.toNat)]
def ldE (s : BitVec 1) (maj : BitVec 6) (mn : BitVec 3) (d : BitVec 6) (a : Src) (m : MemMod) : List (BitVec 32) :=
  [wordR s maj d a.r 0 a.c.code 0 mn, wordM 0 m.space.code m.width.code m.hint.code 0 m.off]
def stE (s : BitVec 1) (maj : BitVec 6) (mn : BitVec 3) (a b : Src) (m : MemMod) : List (BitVec 32) :=
  [wordR s maj 0 a.r b.r a.c.code b.c.code mn, wordM 0 m.space.code m.width.code m.hint.code 0 m.off]
def ldeE (s : BitVec 1) (maj : BitVec 6) (mn : BitVec 3) (d : BitVec 6) (a b : Src) (m : LdeMod) : List (BitVec 32) :=
  [wordR s maj d a.r b.r a.c.code b.c.code mn,
   wordM (m.chk.getD 0) 0 m.width.code m.hint.code (bit m.chk.isSome) m.off]
def pfE (s : BitVec 1) (maj : BitVec 6) (mn : BitVec 3) (a : Src) (m : PfMod) : List (BitVec 32) :=
  [wordR s maj 0 a.r 0 a.c.code 0 mn, wordM 0 m.space.code 0 m.hint.code 0 m.off]
/-- Word 1 at lane major 0x2D (R133). -/
def wordA (c : BitVec 6) (cc : BitVec 2) (m : AtomMod) : BitVec 32 :=
  pack [(6, c.toNat), (2, cc.toNat), (2, m.space.code.toNat), (3, m.ty.code.toNat), (3, m.scope.code.toNat),
        (3, m.order.code.toNat), (13, m.off.toNat)]
def atomE (s : BitVec 1) (maj : BitVec 6) (mn : BitVec 3) (d : BitVec 6) (a b : Src) (m : AtomMod) : List (BitVec 32) :=
  [wordR s maj d a.r b.r a.c.code b.c.code mn, wordA 0 0 m]
def casE (s : BitVec 1) (maj : BitVec 6) (mn : BitVec 3) (d : BitVec 6) (a b c : Src) (m : AtomMod) : List (BitVec 32) :=
  [wordR s maj d a.r b.r a.c.code b.c.code mn, wordA c.r c.c.code m]
def recvE (s : BitVec 1) (maj : BitVec 6) (mn : BitVec 3) (d n : BitVec 6) : List (BitVec 32) := [wordR s maj d n 0 0 0 mn]
def sendE (s : BitVec 1) (maj : BitVec 6) (mn : BitVec 3) (n : BitVec 6) (b : Src) : List (BitVec 32) :=
  [wordR s maj 0 n b.r 0 b.c.code mn]
def mmarE (s : BitVec 1) (maj : BitVec 6) (mn : BitVec 3) (d : BitVec 6) (a b : Src) (fa fb : BitVec 3) : List (BitVec 32) :=
  [wordR s maj d a.r b.r a.c.code b.c.code mn, pack [(26, 0), (3, fb.toNat), (3, fa.toNat)]]
def copenE (s : BitVec 1) (maj : BitVec 6) (mn : BitVec 3) (d : BitVec 6) (a : Src) (l : Bool) (h : BitVec 7) :
    List (BitVec 32) :=
  [wordR s maj d a.r 0 a.c.code 0 mn, pack [(24, 0), (1, (bit l).toNat), (7, h.toNat)]]
def caddE (s : BitVec 1) (maj : BitVec 6) (mn : BitVec 3) (p : BitVec 3) (a b c : Src) (n : Option (BitVec 6)) :
    List (BitVec 32) :=
  [wordR s maj (up3 p) a.r b.r a.c.code b.c.code mn,
   pack [(6, c.r.toNat), (2, c.c.code.toNat), (1, (bit n.isSome).toNat), (1, 0), (6, (n.getD 0).toNat), (16, 0)]]
def a1xE (s : BitVec 1) (maj : BitVec 6) (mn : BitVec 3) (a : Src) : List (BitVec 32) := [wordR s maj 0 a.r 0 a.c.code 0 mn, 0]
def lr1xE (s : BitVec 1) (maj : BitVec 6) (mn : BitVec 3) (d : BitVec 6) (a : Src) : List (BitVec 32) :=
  [wordR s maj d a.r 0 a.c.code 0 mn, 0]
def lr2xE (s : BitVec 1) (maj : BitVec 6) (mn : BitVec 3) (d : BitVec 6) (a b : Src) : List (BitVec 32) :=
  [wordR s maj d a.r b.r a.c.code b.c.code mn, 0]
def creadE (s : BitVec 1) (maj : BitVec 6) (mn : BitVec 3) (d : BitVec 6) (a : Src) (k : BitVec 3) : List (BitVec 32) :=
  [wordR s maj d a.r 0 a.c.code 0 mn, pack [(29, 0), (3, k.toNat)]]
def creplayE (s : BitVec 1) (maj : BitVec 6) (mn : BitVec 3) (d : BitVec 6) (a b : Src) (x : BitVec 16) (h : BitVec 7) :
    List (BitVec 32) :=
  [wordR s maj d a.r b.r a.c.code b.c.code mn, pack [(9, 0), (7, h.toNat), (16, x.toNat)]]
def fenceE (s : BitVec 1) (maj : BitVec 6) (k : OrdKind) (c : Scope) : List (BitVec 32) :=
  [pack [(1, s.toNat), (6, maj.toNat), (4, 0), (2, k.code.toNat), (16, 0), (3, c.code.toNat)]]
def waithE (s : BitVec 1) (maj : BitVec 6) (c : HCond) (n : BitVec 7) : List (BitVec 32) :=
  [pack [(1, s.toNat), (6, maj.toNat), (16, 0), (2, c.code.toNat), (7, n.toNat)]]
/-- Word 1 of the uniform `send` and `recv` (R158). -/
def wordC (n : BitVec 6) (v : Bool) : BitVec 32 := pack [(8, 0), (6, n.toNat), (1, (bit v).toNat), (17, 0)]
def send_uE (s : BitVec 1) (maj : BitVec 6) (mn : BitVec 3) (n : BitVec 6) (a : Src) (b : Option Src) : List (BitVec 32) :=
  match b with
  | .some b => [wordR s maj 0 a.r b.r a.c.code b.c.code mn, wordC n false]
  | .none => [wordR s maj 0 a.r 0 a.c.code 0 mn, wordC n true]
def recv_uE (s : BitVec 1) (maj : BitVec 6) (mn : BitVec 3) (d n : BitVec 6) (ab : Option (Src × Src)) : List (BitVec 32) :=
  match ab with
  | .some (a, b) => [wordR s maj d a.r b.r a.c.code b.c.code mn, wordC n false]
  | .none => [wordR s maj d 0 0 0 0 mn, wordC n true]
def launchE (s : BitVec 1) (maj : BitVec 6) (mn : BitVec 3) (q : BitVec 3) (d : BitVec 6) (a b : Src) (k : BitVec 2) :
    List (BitVec 32) :=
  [wordR s maj d a.r b.r a.c.code b.c.code mn, pack [(8, 0), (3, q.toNat), (2, k.toNat), (19, 0)]]
def mmasnE (s : BitVec 1) (maj : BitVec 6) (mn : BitVec 3) (v : BitVec 6) (a b : Src) (k : BitVec 4) : List (BitVec 32) :=
  [wordR s maj 0 a.r b.r a.c.code b.c.code mn, pack [(8, 0), (6, v.toNat), (4, k.toNat), (14, 0)]]
def accrelE (s : BitVec 1) (maj : BitVec 6) (mn : BitVec 3) (d : BitVec 6) (o : Option (Bool × Src)) : List (BitVec 32) :=
  match o with
  | .some (k, b) => [wordR s maj d 0 b.r 0 b.c.code mn, pack [(30, 0), (1, (bit k).toNat), (1, 1)]]
  | .none => [wordR s maj d 0 0 0 0 mn, 0]
def trapE (s : BitVec 1) (maj : BitVec 6) (mn : BitVec 3) (c : BitVec 12) : List (BitVec 32) :=
  [pack [(1, s.toNat), (6, maj.toNat), (6, 0), (12, c.toNat), (4, 0), (3, mn.toNat)]]
def rdsysE (s : BitVec 1) (maj : BitVec 6) (mn : BitVec 3) (d : BitVec 6) (r : SysReg) (k : Bool) : List (BitVec 32) :=
  [wordR s maj d 0 r.code ((0 : BitVec 1) ++ bit k) 0 mn]
def wrsysE (s : BitVec 1) (maj : BitVec 6) (mn : BitVec 3) (r : SysReg) (a : Src) : List (BitVec 32) :=
  [wordR s maj 0 a.r r.code a.c.code 0 mn]
def grE (op : BitVec 6) (d a b : BitVec 4) : List (BitVec 32) :=
  [pack [(6, op.toNat), (4, d.toNat), (4, a.toNat), (4, b.toNat), (14, 0)]]
def giE (op : BitVec 6) (d a : BitVec 4) (i : BitVec 18) : List (BitVec 32) :=
  [pack [(6, op.toNat), (4, d.toNat), (4, a.toNat), (18, i.toNat)]]
def gmoviE (op : BitVec 6) (d : BitVec 4) (i : BitVec 18) : List (BitVec 32) :=
  [pack [(6, op.toNat), (4, d.toNat), (4, 0), (18, i.toNat)]]
def gbE (op : BitVec 6) (a b : BitVec 4) (t : BitVec 6) : List (BitVec 32) :=
  [pack [(6, op.toNat), (4, a.toNat), (4, b.toNat), (12, 0), (6, t.toNat)]]
def gbrE (op : BitVec 6) (t : BitVec 6) : List (BitVec 32) := [pack [(6, op.toNat), (20, 0), (6, t.toNat)]]
def gfireE (op : BitVec 6) (a t : BitVec 4) : List (BitVec 32) :=
  [pack [(6, op.toNat), (4, 0), (4, a.toNat), (14, 0), (4, t.toNat)]]
def gendE (op : BitVec 6) : List (BitVec 32) := [pack [(6, op.toNat), (26, 0)]]

/-- The words of an instruction, without a guard prefix; none for a step of the module that no word encodes. -/
def encode : Instr → List (BitVec 32)
  | .addI64 d a b => lr2E 0 0x01 0 d a b
  | .subI64 d a b => lr2E 0 0x01 1 d a b
  | .addI32 d a b => lr2E 0 0x01 2 d a b
  | .subI32 d a b => lr2E 0 0x01 3 d a b
  | .addN32 d a b => lr2E 0 0x01 4 d a b
  | .subN32 d a b => lr2E 0 0x01 5 d a b
  | .addI64Sat d a b => lr2E 0 0x01 6 d a b
  | .subI64Sat d a b => lr2E 0 0x01 7 d a b
  | .addN64Sat d a b => lr2E 0 0x02 0 d a b
  | .subN64Sat d a b => lr2E 0 0x02 1 d a b
  | .addI32Sat d a b => lr2E 0 0x02 2 d a b
  | .subI32Sat d a b => lr2E 0 0x02 3 d a b
  | .addN32Sat d a b => lr2E 0 0x02 4 d a b
  | .subN32Sat d a b => lr2E 0 0x02 5 d a b
  | .negI64 d a => lr1E 0 0x02 6 d a
  | .absI64 d a => lr1E 0 0x02 7 d a
  | .mulI64 d a b => lr2E 0 0x03 0 d a b
  | .mulhiI64 d a b => lr2E 0 0x03 1 d a b
  | .mulhiN64 d a b => lr2E 0 0x03 2 d a b
  | .mulI32 d a b => lr2E 0 0x03 3 d a b
  | .mulN32 d a b => lr2E 0 0x03 4 d a b
  | .mulwI32 d a b => lr2E 0 0x03 5 d a b
  | .mulwN32 d a b => lr2E 0 0x03 6 d a b
  | .minI64 d a b => lr2E 0 0x04 0 d a b
  | .maxI64 d a b => lr2E 0 0x04 1 d a b
  | .minN64 d a b => lr2E 0 0x04 2 d a b
  | .maxN64 d a b => lr2E 0 0x04 3 d a b
  | .minI32 d a b => lr2E 0 0x04 4 d a b
  | .maxI32 d a b => lr2E 0 0x04 5 d a b
  | .minN32 d a b => lr2E 0 0x04 6 d a b
  | .maxN32 d a b => lr2E 0 0x04 7 d a b
  | .and d a b => lr2E 0 0x05 0 d a b
  | .or d a b => lr2E 0 0x05 1 d a b
  | .xor d a b => lr2E 0 0x05 2 d a b
  | .andn d a b => lr2E 0 0x05 3 d a b
  | .orn d a b => lr2E 0 0x05 4 d a b
  | .xnor d a b => lr2E 0 0x05 5 d a b
  | .not d a => lr1E 0 0x05 6 d a
  | .mov d a u => movE 0 0x05 7 d a u
  | .shlN64 d a b => lr2E 0 0x06 0 d a b
  | .shrN64 d a b => lr2E 0 0x06 1 d a b
  | .shrI64 d a b => lr2E 0 0x06 2 d a b
  | .rotlN64 d a b => lr2E 0 0x06 3 d a b
  | .shlN32 d a b => lr2E 0 0x06 4 d a b
  | .shrN32 d a b => lr2E 0 0x06 5 d a b
  | .shrI32 d a b => lr2E 0 0x06 6 d a b
  | .rotlN32 d a b => lr2E 0 0x06 7 d a b
  | .popc d a => lr1E 0 0x07 0 d a
  | .clz d a => lr1E 0 0x07 1 d a
  | .ctz d a => lr1E 0 0x07 2 d a
  | .brev d a => lr1E 0 0x07 3 d a
  | .bswap d a => lr1E 0 0x07 4 d a
  | .sextI8 d a => lr1E 0 0x07 5 d a
  | .sextI16 d a => lr1E 0 0x07 6 d a
  | .sextI32 d a => lr1E 0 0x07 7 d a
  | .lea d a b k => krE 0 0x08 d a b k
  | .setpEqI64 p a b => pd2E 0 0x09 0 p a b
  | .setpNeI64 p a b => pd2E 0 0x09 1 p a b
  | .setpLtI64 p a b => pd2E 0 0x09 2 p a b
  | .setpLeI64 p a b => pd2E 0 0x09 3 p a b
  | .setpLtN64 p a b => pd2E 0 0x09 4 p a b
  | .setpLeN64 p a b => pd2E 0 0x09 5 p a b
  | .setpTst p a b => pd2E 0 0x09 6 p a b
  | .setpEqI32 p a b => pd2E 0 0x0A 0 p a b
  | .setpNeI32 p a b => pd2E 0 0x0A 1 p a b
  | .setpLtI32 p a b => pd2E 0 0x0A 2 p a b
  | .setpLeI32 p a b => pd2E 0 0x0A 3 p a b
  | .setpLtN32 p a b => pd2E 0 0x0A 4 p a b
  | .setpLeN32 p a b => pd2E 0 0x0A 5 p a b
  | .pand p q r => p3E 0 0x0B 0 p q r
  | .por p q r => p3E 0 0x0B 1 p q r
  | .pxor p q r => p3E 0 0x0B 2 p q r
  | .pandn p q r => p3E 0 0x0B 3 p q r
  | .pnot p q => p2E 0 0x0B 4 p q
  | .sel d a b k => krE 0 0x0C d a b k
  | .addI64Imm d a i => liE 0 0x0D d a i
  | .addI32Imm d a i => liE 0 0x0E d a i
  | .addI32SatImm d a i => liE 0 0x0F d a i
  | .addI64SatImm d a i => liE 0 0x10 d a i
  | .andImm d a i => liE 0 0x11 d a i
  | .orImm d a i => liE 0 0x12 d a i
  | .xorImm d a i => liE 0 0x13 d a i
  | .shlN64Imm d a i => liE 0 0x14 d a i
  | .shrN64Imm d a i => liE 0 0x15 d a i
  | .shrI64Imm d a i => liE 0 0x16 d a i
  | .mulI64Imm d a i => liE 0 0x17 d a i
  | .movc d i => mcE 0 0x18 0 d i
  | .movcM d i => mcE 0 0x18 1 d i
  | .movcH d i => mchE 0 0x18 2 d i
  | .rdsr d r => rdsrE 0 0x19 d r
  | .shflIdx d a b => lr2E 0 0x1A 0 d a b
  | .shflUp d a b => lr2E 0 0x1A 1 d a b
  | .shflDown d a b => lr2E 0 0x1A 2 d a b
  | .shflXor d a b => lr2E 0 0x1A 3 d a b
  | .ballot d p => ballotE 0 0x1A 4 d p
  | .voteAny p q => p2E 0 0x1A 5 p q
  | .voteAll p q => p2E 0 0x1A 6 p q
  | .redAddI64 d a => lr1E 0 0x1B 0 d a
  | .redMinI64 d a => lr1E 0 0x1B 1 d a
  | .redMaxI64 d a => lr1E 0 0x1B 2 d a
  | .redAddD d a => lr1E 0 0x1B 3 d a
  | .redMinD d a => lr1E 0 0x1B 4 d a
  | .redMaxD d a => lr1E 0 0x1B 5 d a
  | .redAddF d a => lr1E 0 0x1B 6 d a
  | .bra p n t => lbE 0 0x1C p n t
  | .call p n t => lbE 0 0x1D p n t
  | .jmp a => a1E 0 0x1E 0 a
  | .callr d a => lr1E 0 0x1E 1 d a
  | .ret a => a1E 0 0x1E 2 a
  | .exit  => noneE 0 0x1F 0
  | .nop  => noneE 0 0x1F 1
  | .addD d a b => lr2E 0 0x20 0 d a b
  | .subD d a b => lr2E 0 0x20 1 d a b
  | .mulD d a b => lr2E 0 0x20 2 d a b
  | .divD d a b => lr2E 0 0x20 3 d a b
  | .minD d a b => lr2E 0 0x20 4 d a b
  | .maxD d a b => lr2E 0 0x20 5 d a b
  | .sqrtD d a => lr1E 0 0x20 6 d a
  | .rintD d a => lr1E 0 0x20 7 d a
  | .addF d a b => lr2E 0 0x21 0 d a b
  | .subF d a b => lr2E 0 0x21 1 d a b
  | .mulF d a b => lr2E 0 0x21 2 d a b
  | .divF d a b => lr2E 0 0x21 3 d a b
  | .minF d a b => lr2E 0 0x21 4 d a b
  | .maxF d a b => lr2E 0 0x21 5 d a b
  | .sqrtF d a => lr1E 0 0x21 6 d a
  | .rintF d a => lr1E 0 0x21 7 d a
  | .addHf d a b => lr2E 0 0x22 0 d a b
  | .subHf d a b => lr2E 0 0x22 1 d a b
  | .mulHf d a b => lr2E 0 0x22 2 d a b
  | .minHf d a b => lr2E 0 0x22 3 d a b
  | .maxHf d a b => lr2E 0 0x22 4 d a b
  | .addBf d a b => lr2E 0 0x23 0 d a b
  | .subBf d a b => lr2E 0 0x23 1 d a b
  | .mulBf d a b => lr2E 0 0x23 2 d a b
  | .minBf d a b => lr2E 0 0x23 3 d a b
  | .maxBf d a b => lr2E 0 0x23 4 d a b
  | .setpEqD p a b => pd2E 0 0x24 0 p a b
  | .setpLtD p a b => pd2E 0 0x24 1 p a b
  | .setpLeD p a b => pd2E 0 0x24 2 p a b
  | .setpNanD p a b => pd2E 0 0x24 3 p a b
  | .setpEqF p a b => pd2E 0 0x24 4 p a b
  | .setpLtF p a b => pd2E 0 0x24 5 p a b
  | .setpLeF p a b => pd2E 0 0x24 6 p a b
  | .setpNanF p a b => pd2E 0 0x24 7 p a b
  | .fmaD d a b c m => fmaE 0 0x25 0 d a b c m
  | .fnmaD d a b c m => fmaE 0 0x25 1 d a b c m
  | .fmaF d a b c m => fmaE 0 0x25 2 d a b c m
  | .fnmaF d a b c m => fmaE 0 0x25 3 d a b c m
  | .fmaHf d a b c m => fmaE 0 0x25 4 d a b c m
  | .fmaBf d a b c m => fmaE 0 0x25 5 d a b c m
  | .addDLong d a b m => long2E 0 0 d a b m
  | .subDLong d a b m => long2E 0 1 d a b m
  | .mulDLong d a b m => long2E 0 2 d a b m
  | .divDLong d a b m => long2E 0 3 d a b m
  | .minDLong d a b z => longMME 0 4 d a b z
  | .maxDLong d a b z => longMME 0 5 d a b z
  | .sqrtDLong d a m => long1E 0 6 d a m
  | .rintDLong d a m => long1E 0 7 d a m
  | .addFLong d a b m => long2E 1 0 d a b m
  | .subFLong d a b m => long2E 1 1 d a b m
  | .mulFLong d a b m => long2E 1 2 d a b m
  | .divFLong d a b m => long2E 1 3 d a b m
  | .minFLong d a b z => longMME 1 4 d a b z
  | .maxFLong d a b z => longMME 1 5 d a b z
  | .sqrtFLong d a m => long1E 1 6 d a m
  | .rintFLong d a m => long1E 1 7 d a m
  | .addHfLong d a b m => long2E 2 0 d a b m
  | .subHfLong d a b m => long2E 2 1 d a b m
  | .mulHfLong d a b m => long2E 2 2 d a b m
  | .minHfLong d a b z => longMME 2 3 d a b z
  | .maxHfLong d a b z => longMME 2 4 d a b z
  | .addBfLong d a b m => long2E 3 0 d a b m
  | .subBfLong d a b m => long2E 3 1 d a b m
  | .mulBfLong d a b m => long2E 3 2 d a b m
  | .minBfLong d a b z => longMME 3 3 d a b z
  | .maxBfLong d a b z => longMME 3 4 d a b z
  | .rcpD d a => lr1E 0 0x27 0 d a
  | .rsqrtD d a => lr1E 0 0x27 1 d a
  | .exp2D d a => lr1E 0 0x27 2 d a
  | .log2D d a => lr1E 0 0x27 3 d a
  | .exp2F d a => lr1E 0 0x27 4 d a
  | .log2F d a => lr1E 0 0x27 5 d a
  | .sinF d a => lr1E 0 0x27 6 d a
  | .cosF d a => lr1E 0 0x27 7 d a
  | .cvt d a m => cvtE 0 0x28 0 d a m
  | .fclassD d a => lr1E 0 0x29 0 d a
  | .fclassF d a => lr1E 0 0x29 1 d a
  | .copysignD d a b => lr2E 0 0x29 2 d a b
  | .copysignF d a b => lr2E 0 0x29 3 d a b
  | .absD d a => lr1E 0 0x29 4 d a
  | .negD d a => lr1E 0 0x29 5 d a
  | .absF d a => lr1E 0 0x29 6 d a
  | .negF d a => lr1E 0 0x29 7 d a
  | .ld d a m => ldE 0 0x2C 0 d a m
  | .st a b m => stE 0 0x2C 1 a b m
  | .lde d a b m => ldeE 0 0x2C 2 d a b m
  | .pf a m => pfE 0 0x2C 3 a m
  | .atomAdd d a b m => atomE 0 0x2D 0 d a b m
  | .atomMin d a b m => atomE 0 0x2D 1 d a b m
  | .atomMax d a b m => atomE 0 0x2D 2 d a b m
  | .atomAnd d a b m => atomE 0 0x2D 3 d a b m
  | .atomOr d a b m => atomE 0 0x2D 4 d a b m
  | .atomXor d a b m => atomE 0 0x2D 5 d a b m
  | .atomXchg d a b m => atomE 0 0x2D 6 d a b m
  | .atomCas d a b c m => casE 0 0x2D 7 d a b c m
  | .recvD d n => recvE 0 0x2E 0 d n
  | .recvW d n => recvE 0 0x2E 1 d n
  | .sendD n b => sendE 0 0x2E 2 n b
  | .sendW n b => sendE 0 0x2E 3 n b
  | .mmarD d a b fa fb => mmarE 0 0x38 0 d a b fa fb
  | .mmarF d a b fa fb => mmarE 0 0x38 1 d a b fa fb
  | .mmarBf d a b fa fb => mmarE 0 0x38 2 d a b fa fb
  | .mmarHf d a b fa fb => mmarE 0 0x38 3 d a b fa fb
  | .mmarE4 d a b fa fb => mmarE 0 0x38 4 d a b fa fb
  | .copen d a l h => copenE 0 0x39 0 d a l h
  | .cadd p a b c n => caddE 0 0x39 1 p a b c n
  | .cflush a => a1xE 0 0x39 2 a
  | .cclose a => a1xE 0 0x39 3 a
  | .cread d a k => creadE 0 0x39 4 d a k
  | .creplay d a b x h => creplayE 0 0x39 5 d a b x h
  | .addI64U d a b => lr2E 1 0x01 0 d a b
  | .subI64U d a b => lr2E 1 0x01 1 d a b
  | .mulI64U d a b => lr2E 1 0x01 2 d a b
  | .mulhiN64U d a b => lr2E 1 0x01 3 d a b
  | .minI64U d a b => lr2E 1 0x01 4 d a b
  | .maxI64U d a b => lr2E 1 0x01 5 d a b
  | .minN64U d a b => lr2E 1 0x01 6 d a b
  | .maxN64U d a b => lr2E 1 0x01 7 d a b
  | .andU d a b => lr2E 1 0x02 0 d a b
  | .orU d a b => lr2E 1 0x02 1 d a b
  | .xorU d a b => lr2E 1 0x02 2 d a b
  | .andnU d a b => lr2E 1 0x02 3 d a b
  | .shlN64U d a b => lr2E 1 0x02 4 d a b
  | .shrN64U d a b => lr2E 1 0x02 5 d a b
  | .shrI64U d a b => lr2E 1 0x02 6 d a b
  | .movU d a => lr1E 1 0x02 7 d a
  | .setpEqI64U p a b => pd2E 1 0x03 0 p a b
  | .setpNeI64U p a b => pd2E 1 0x03 1 p a b
  | .setpLtI64U p a b => pd2E 1 0x03 2 p a b
  | .setpLeI64U p a b => pd2E 1 0x03 3 p a b
  | .setpLtN64U p a b => pd2E 1 0x03 4 p a b
  | .setpLeN64U p a b => pd2E 1 0x03 5 p a b
  | .setpTstU p a b => pd2E 1 0x03 6 p a b
  | .pandU p q r => p3E 1 0x04 0 p q r
  | .porU p q r => p3E 1 0x04 1 p q r
  | .pxorU p q r => p3E 1 0x04 2 p q r
  | .pandnU p q r => p3E 1 0x04 3 p q r
  | .pnotU p q => p2E 1 0x04 4 p q
  | .addI64ImmU d a i => liE 1 0x05 d a i
  | .movcU d i => mcE 1 0x06 0 d i
  | .movcMU d i => mcE 1 0x06 1 d i
  | .movcHU d i => mchE 1 0x06 2 d i
  | .ldU d a m => ldE 1 0x07 0 d a m
  | .stU a b m => stE 1 0x07 1 a b m
  | .ldeU d a b m => ldeE 1 0x07 2 d a b m
  | .pfU a m => pfE 1 0x07 3 a m
  | .ujmp p n t => lbE 1 0x08 p n t
  | .ucall p n t => lbE 1 0x09 p n t
  | .ujmpr a => a1E 1 0x0A 0 a
  | .ucallr d a => lr1E 1 0x0A 1 d a
  | .uret a => a1E 1 0x0A 2 a
  | .bar  => noneE 1 0x0B 0
  | .tbar  => noneE 1 0x0B 1
  | .claim d a b => lr2E 1 0x0B 2 d a b
  | .rdv a => a1E 1 0x0B 3 a
  | .fence k c => fenceE 1 0x0C k c
  | .waith c n => waithE 1 0x0D c n
  | .sendU n a b => send_uE 1 0x0E 0 n a b
  | .recvU d n ab => recv_uE 1 0x0E 1 d n ab
  | .launch q d a b k => launchE 1 0x0E 2 q d a b k
  | .waitl d a => lr1xE 1 0x0E 3 d a
  | .fork d a => lr1xE 1 0x0E 4 d a
  | .bpub d a => lr1E 1 0x0F 0 d a
  | .bfloor d a b => lr2E 1 0x0F 1 d a b
  | .gang a => a1xE 1 0x10 0 a
  | .mmasD d a b => lr2xE 1 0x10 1 d a b
  | .mmasF v a b w => mmasnE 1 0x10 2 v a b w
  | .mmasBf v a b w => mmasnE 1 0x10 3 v a b w
  | .mmasHf v a b w => mmasnE 1 0x10 4 v a b w
  | .mmasE4 v a b w => mmasnE 1 0x10 5 v a b w
  | .accrel d o => accrelE 1 0x10 6 d o
  | .trap c => trapE 1 0x11 0 c
  | .rett  => noneE 1 0x11 1
  | .rdsys d r k => rdsysE 1 0x11 2 d r k
  | .wrsys r a => wrsysE 1 0x11 3 r a
  | .unop  => noneE 1 0x11 4
  | .gadd d a b => grE 0x01 d a b
  | .gsub d a b => grE 0x02 d a b
  | .gand d a b => grE 0x03 d a b
  | .gor d a b => grE 0x04 d a b
  | .gxor d a b => grE 0x05 d a b
  | .gshl d a b => grE 0x06 d a b
  | .gshr d a b => grE 0x07 d a b
  | .gmin d a b => grE 0x08 d a b
  | .gmax d a b => grE 0x09 d a b
  | .gmul d a b => grE 0x0A d a b
  | .gmovi d i => gmoviE 0x0B d i
  | .gaddi d a i => giE 0x0C d a i
  | .gandi d a i => giE 0x0D d a i
  | .gshli d a i => giE 0x0E d a i
  | .gshri d a i => giE 0x0F d a i
  | .gld d a i => giE 0x10 d a i
  | .gst d a i => giE 0x11 d a i
  | .gbeq a b t => gbE 0x12 a b t
  | .gbne a b t => gbE 0x13 a b t
  | .gblt a b t => gbE 0x14 a b t
  | .gbge a b t => gbE 0x15 a b t
  | .gbr t => gbrE 0x16 t
  | .ghash d a b => grE 0x17 d a b
  | .ghist d a b => grE 0x18 d a b
  | .gcms d a b => grE 0x19 d a b
  | .ghll d a b => grE 0x1A d a b
  | .gfire a t => gfireE 0x1B a t
  | .gend  => gendE 0x1C
  | .loadCompletion _ => []
  | .atomicPerform _ => []
  | .editionLookup _ => []
  | .queueReceiveCompletion _ => []
  | .channelReceiveCompletion _ => []
  | .messageDelivery _ => []
  | .launchRecordRead _ => []
  | .bpubAtBindery _ => []
  | .bfloorAtHome _ => []
  | .claimPageMove _ => []
  | .copyBeat _ => []
  | .copyEnd _ => []
  | .forkStart _ => []
  | .accessProgramRequest _ => []
  | .accessProgramReturn _ => []
  | .matrixCompletion _ => []
  | .mmasKStep _ => []
  | .recordOperationArrival _ => []
  | .regrouping _ _ => []
  | .barrierArrivalBit _ _ => []
  | .l1WriteBackBound _ _ => []
  | .combiningBufferDrain _ _ => []
  | .distributorPlacement _ => []
  | .sliceEnd _ => []
  | .renderContextSwitch _ => []
  | .completionEntryWrite _ => []
  | .hqTailWrite _ _ _ => []
  | .vdevApply _ => []
  | .rctxApply _ => []
  | .counterPublish _ => []
  | .pageWalk _ _ => []
  | .faultRecordPost _ => []
  | .fqDoneRetry _ _ => []
  | .fqDoneDeny _ _ => []
  | .invalidation => []
  | .regionCreate _ => []
  | .regionReread _ => []
  | .regionDestroy _ => []
  | .binderyWrite _ => []
  | .backgroundSubblockCopy _ _ => []
  | .reclaimWalk _ _ => []
  | .directoryRead _ _ => []
  | .directoryWrite _ _ => []
  | .directoryWriteBack _ _ => []
  | .evictionNotice _ _ => []
  | .memSplitWrite _ => []
  | .routeWrite _ => []
  | .linkDown _ => []
  | .glossEventOffer _ _ => []
  | .glossSlot _ => []
  | .glossBudgetWindow _ => []
  | .glossApplyTenant _ _ => []
  | .glossAttach _ _ => []
  | .glossDetach _ _ => []
  | .glossDrain _ => []
  | .drainWordRead _ => []
  | .linkTraining _ _ => []
  | .ualinkInboundRequest _ => []
  | .peerAcknowledgement _ _ => []
  | .ualinkMessageArrival _ => []
  | .haloCommand _ => []
  | .haloFaceArrival _ _ => []
  | .allReduceCommand _ _ => []
  | .engineCompletion _ _ => []
  | .functionLevelReset => []
  | .coreRetirement => []
  | .marginPlan _ _ => []
  | .auditFlitSend _ => []
  | .auditFlitReceive _ _ => []
  | .laneGroupFailure _ => []
  | .softError _ => []
  | .patrolScrub _ => []
  | .checkpointSave => []
  | .checkpointRestore => []
  | .moduleReset => []
  | .keyLoad _ => []
  | .keyClear _ => []
  | .spdmRequest _ => []
  | .pldmMonitoring _ => []
  | .pldmFirmwareUpdate _ => []
  | .powerManagerUpdate _ => []
  | .powerLimitWrite _ => []
  | .thermalCap _ _ => []
  | .thermalShutdown _ _ => []
  | .registerWrite _ => []
  | .issueCycle _ _ => []
  | .creplayCompletion _ => []
  | .flitReplay _ => []
  | .ualinkPortDown _ => []
  | .hostIngressAccess _ => []
  | .peerDrainTimeout _ => []
  | .mainSideOff => []

/-- Instructions of a Gloss unit. -/
def Instr.isGloss : Instr → Bool
  | .gadd _ _ _ => true
  | .gsub _ _ _ => true
  | .gand _ _ _ => true
  | .gor _ _ _ => true
  | .gxor _ _ _ => true
  | .gshl _ _ _ => true
  | .gshr _ _ _ => true
  | .gmin _ _ _ => true
  | .gmax _ _ _ => true
  | .gmul _ _ _ => true
  | .gmovi _ _ => true
  | .gaddi _ _ _ => true
  | .gandi _ _ _ => true
  | .gshli _ _ _ => true
  | .gshri _ _ _ => true
  | .gld _ _ _ => true
  | .gst _ _ _ => true
  | .gbeq _ _ _ => true
  | .gbne _ _ _ => true
  | .gblt _ _ _ => true
  | .gbge _ _ _ => true
  | .gbr _ => true
  | .ghash _ _ _ => true
  | .ghist _ _ _ => true
  | .gcms _ _ _ => true
  | .ghll _ _ _ => true
  | .gfire _ _ => true
  | .gend => true
  | _ => false

/-- Steps of the module that no word encodes. -/
def Instr.isEvent : Instr → Bool
  | .loadCompletion _ => true
  | .atomicPerform _ => true
  | .editionLookup _ => true
  | .queueReceiveCompletion _ => true
  | .channelReceiveCompletion _ => true
  | .messageDelivery _ => true
  | .launchRecordRead _ => true
  | .bpubAtBindery _ => true
  | .bfloorAtHome _ => true
  | .claimPageMove _ => true
  | .copyBeat _ => true
  | .copyEnd _ => true
  | .forkStart _ => true
  | .accessProgramRequest _ => true
  | .accessProgramReturn _ => true
  | .matrixCompletion _ => true
  | .mmasKStep _ => true
  | .recordOperationArrival _ => true
  | .regrouping _ _ => true
  | .barrierArrivalBit _ _ => true
  | .l1WriteBackBound _ _ => true
  | .combiningBufferDrain _ _ => true
  | .distributorPlacement _ => true
  | .sliceEnd _ => true
  | .renderContextSwitch _ => true
  | .completionEntryWrite _ => true
  | .hqTailWrite _ _ _ => true
  | .vdevApply _ => true
  | .rctxApply _ => true
  | .counterPublish _ => true
  | .pageWalk _ _ => true
  | .faultRecordPost _ => true
  | .fqDoneRetry _ _ => true
  | .fqDoneDeny _ _ => true
  | .invalidation => true
  | .regionCreate _ => true
  | .regionReread _ => true
  | .regionDestroy _ => true
  | .binderyWrite _ => true
  | .backgroundSubblockCopy _ _ => true
  | .reclaimWalk _ _ => true
  | .directoryRead _ _ => true
  | .directoryWrite _ _ => true
  | .directoryWriteBack _ _ => true
  | .evictionNotice _ _ => true
  | .memSplitWrite _ => true
  | .routeWrite _ => true
  | .linkDown _ => true
  | .glossEventOffer _ _ => true
  | .glossSlot _ => true
  | .glossBudgetWindow _ => true
  | .glossApplyTenant _ _ => true
  | .glossAttach _ _ => true
  | .glossDetach _ _ => true
  | .glossDrain _ => true
  | .drainWordRead _ => true
  | .linkTraining _ _ => true
  | .ualinkInboundRequest _ => true
  | .peerAcknowledgement _ _ => true
  | .ualinkMessageArrival _ => true
  | .haloCommand _ => true
  | .haloFaceArrival _ _ => true
  | .allReduceCommand _ _ => true
  | .engineCompletion _ _ => true
  | .functionLevelReset => true
  | .coreRetirement => true
  | .marginPlan _ _ => true
  | .auditFlitSend _ => true
  | .auditFlitReceive _ _ => true
  | .laneGroupFailure _ => true
  | .softError _ => true
  | .patrolScrub _ => true
  | .checkpointSave => true
  | .checkpointRestore => true
  | .moduleReset => true
  | .keyLoad _ => true
  | .keyClear _ => true
  | .spdmRequest _ => true
  | .pldmMonitoring _ => true
  | .pldmFirmwareUpdate _ => true
  | .powerManagerUpdate _ => true
  | .powerLimitWrite _ => true
  | .thermalCap _ _ => true
  | .thermalShutdown _ _ => true
  | .registerWrite _ => true
  | .issueCycle _ _ => true
  | .creplayCompletion _ => true
  | .flitReplay _ => true
  | .ualinkPortDown _ => true
  | .hostIngressAccess _ => true
  | .peerDrainTimeout _ => true
  | .mainSideOff => true
  | _ => false

end Sys2Proof
end

