-- ==== Sys2Proof/Machine/Fetch.lean ====
section
/-! DEFINITION. Instruction fetch (R28, R30, R209, R210): one word, the words of an instruction, the loop buffers, the fetch faults. -/

namespace Sys2Proof.Machine

/-- What a fetch comes to: words, a trap with its cause and address, an absent page. -/
inductive Fetched
  | ok (ws : List (BitVec 32))
  | trap (n : TrapName) (info addr : Word)
  | page (asid page : Nat)
  deriving DecidableEq, Repr

/-- A word of code: as it was at admission, or, on a page that the launch has stored to itself, that or the new one (R210). DEDUCED: log entry 18. -/
def oldOrNew (own : Bool) (old new : List Byte) (s : State) : List Byte × State :=
  if old = new ∨ own = false then (old, s) else (if Config.oldWord s.fresh then old else new, tick s)

/-- One word at an address: the checks of R121, R122 and R140 for a fetch, an uncorrectable word (R364), one that a peer refuses among
them (R350), then its bytes, under the leaf's key (R303). DEDUCED: log entry 18. -/
def fetchWord (gk : Nat) (user : Bool) (va : Word) (s : State) : Fetched × State :=
  if !canonical va || inAperture va 4 then (.trap .accessFault 1 va, s)
  else
    let q := askerOf s gk
    match xlate q (va.toNat % 2 ^ 57) 4 .x user s with
    | (.cause c, s) => (.trap .accessFault (word c) va, s)
    | (.absent, s) => (.page q.asid (va.toNat % 2 ^ 57 / 65536), s)
    | (.ok pa l, s) =>
      if isPeer pa then
        match peerBytes pa 4 s with
        | (.some bs, s) => (.ok (wordsOf bs), s)
        | (.none, s) => (.trap .dataUncorr 0 va, s)
      else
        let as := pieceAddrs s q.asid ⟨⟨pa, 4, l.kind⟩, l.at_, l.region, va⟩
        let s := viewAddrs l as s
        if as.any (badAt s) then (.trap .dataUncorr 0 va, s)
        else
          let old := as.map fun a => tget 0 a (getGrid s (gridOfG gk)).code0
          let own := tget false (gridOfG gk * 2 ^ 40 + as.headD pa / 65536) s.mm.stored
          let r := oldOrNew own old (as.map fun a => tget 0 a s.mm.mem) s
          (.ok (wordsOf r.1), r.2)

/-- The fetch lane of a thread. -/
def laneOf (s : State) (gk tid : Nat) : Option Lane :=
  (tget [] (coreOf s gk * 4 + (getGrp s gk).quarter) s.sc.lanes).find? fun l => l.tk == threadKey gk tid

def setLane (gk : Nat) (l : Lane) (s : State) : State :=
  let q := coreOf s gk * 4 + (getGrp s gk).quarter
  { s with sc := { s.sc with lanes := tset [] q ((tget [] q s.sc.lanes).map fun m => if m.tk = l.tk then l else m) s.sc.lanes } }

/-- The words from an address on, as far as they can be fetched, at most 48 and none of a page after the first that fails (R210). DEDUCED: log entry 18. -/
def fillBuffer (gk : Nat) (user : Bool) : Nat → Word → State → List (BitVec 32) × State
  | 0, _, s => ([], s)
  | k + 1, va, s =>
    match fetchWord gk user va s with
    | (.ok ws, s) => let r := fillBuffer gk user k (va + 4) s; (ws ++ r.1, r.2)
    | (.trap _ _ _, _) => ([], s)
    | (.page _ _, _) => ([], s)

/-- The word of a lone thread's loop buffer. DEDUCED: log entry 18. -/
def buffered (l : Lane) (va : Word) : Option (BitVec 32) :=
  let o := (va - l.base).toNat
  if o % 4 = 0 then l.words[o / 4]? else .none

/-- One word for a bundle: from the lane's buffer, which is filled again where the word is not in it, or by broadcast; a page that
has been denied to one of its threads counts as absent (R290). DEDUCED: log entry 18. -/
def fetchFor (gk : Nat) (user : Bool) (tids : List Nat) (va : Word) (s : State) : Fetched × State :=
  let asid := ctxOf s gk
  let page := va.toNat % 2 ^ 57 / 65536
  if tids.any fun i => (getThr s (threadKey gk i)).wait == .denied asid page then (.page asid page, s)
  else match (match tids with | [i] => laneOf s gk i | _ => .none) with
  | .none => fetchWord gk user va s
  | .some l =>
    match buffered l va with
    | .some w => (.ok [w], s)
    | .none =>
      match fetchWord gk user va s with
      | (.ok ws, s) =>
        let r := fillBuffer gk user 47 (va + 4) s
        (.ok ws, setLane gk { l with base := va, words := ws ++ r.1 } r.2)
      | x => x

/-- Two fetches in turn. -/
def andThen (gk : Nat) (user : Bool) (tids : List Nat) (va : Word) (r : Fetched × State) : Fetched × State :=
  match r with
  | (.ok ws, s) =>
    (match fetchFor gk user tids va s with
    | (.ok vs, s) => (.ok (ws ++ vs), s)
    | x => x)
  | x => x

def fetchedOk (r : Fetched) : Bool := match r with | .ok _ => true | .trap _ _ _ => false | .page _ _ => false
def gotWords (r : Fetched) : List (BitVec 32) := match r with | .ok ws => ws | .trap _ _ _ => [] | .page _ _ => []

/-- The words of the instruction at an address, its prefix included: the major alone fixes how many (R28, R33). DEDUCED: log entry 12. -/
def fetchInstr (gk : Nat) (user : Bool) (tids : List Nat) (pc : Word) (s : State) : Fetched × State :=
  let r := fetchFor gk user tids pc s
  let w := (gotWords r.1).headD 0
  if !fetchedOk r.1 then r
  else if isGuard w then
    let r := andThen gk user tids (pc + 4) r
    if fetchedOk r.1 && twoWord ((gotWords r.1).getD 1 0) then andThen gk user tids (pc + 8) r else r
  else if twoWord w then andThen gk user tids (pc + 4) r else r

/-- A fetch fault: of each thread, or of the group where all of it has come to the target of a uniform register jump (R151, R361). DEDUCED: log entry 12. -/
def fetchTrap (gk : Nat) (tids : List Nat) (pc : Word) (n : TrapName) (info addr : Word) (s : State) : State :=
  let tr : TrapRec := { name := n, pc := pc, addr := addr, info := info, fetch := true }
  if (getGrp s gk).utgt = .some pc ∧ (domain s gk).all (fun i => (getThr s (threadKey gk i)).pc == pc) then
    takeTrap gk (domain s gk) true tr (setGrp gk { getGrp s gk with utgt := .none } s)
  else tids.foldl (fun s i => if (getThr s (threadKey gk i)).st = .exited then s else takeTrap gk [i] false tr s) s

/-- A fetch meets an absent page: its threads join the record and wait, or take ACCESS_FAULT if it has been denied (R289, R290). -/
def fetchAbsent (gk : Nat) (tids : List Nat) (pc : Word) (asid page : Nat) (s : State) : State :=
  let va := if pc.toNat % 2 ^ 57 / 65536 = page then pc else pc + word (65536 - pc.toNat % 65536)
  let denied := tids.filter fun i => (getThr s (threadKey gk i)).wait == .denied asid page
  if denied ≠ [] then fetchTrap gk denied pc .accessFault 5 va s
  else
    tids.foldl (fun s i => dropLane (threadKey gk i) (setSt gk i .blocked (.page asid page) s))
      (joinRec { vdev := vdevOf s asid, seq := .none, asid := asid, page := page, cause := 1, access := 1 } s)

/-- The group has fetched somewhere: a uniform jump's target has been reached or left behind. -/
def clearTgt (gk : Nat) (s : State) : State :=
  if (getGrp s gk).utgt = .none then s else setGrp gk { getGrp s gk with utgt := .none } s

end Sys2Proof.Machine
end

