-- ==== Sys2Proof/Machine/FloatLane.lean ====
section
/-! DEFINITION. Lane instructions of majors 0x20 to 0x27 and 0x29: floating-point arithmetic, fused multiply-add, comparisons,
sign and class, special functions (R102 to R113). -/

namespace Sys2Proof.Machine

/-! ## Operations on registers -/

/-- `min` and `max` with a subnormal group only (R105, R106). -/
def minMax (F : Fmt) (big z : Bool) : Word → Word → Word × Flags := lift2 F fun F a b => opMinMax F big z a b
/-- The class masks of every element (R109). -/
def classAll (F : Fmt) : Word → Word × Flags := lift1 F fun F x => (opClass F x, 0)
/-- The sign operations of R110 on one element: the sign bit cleared, inverted, or another's. -/
def signClear (F : Fmt) (x : Nat) : Nat × Flags := (x % 2 ^ (F.eb + F.mb), 0)
def signFlip (F : Fmt) (x : Nat) : Nat × Flags := ((x + 2 ^ (F.eb + F.mb)) % 2 ^ fWidth F, 0)
def signCopy (F : Fmt) (x y : Nat) : Nat × Flags := (x % 2 ^ (F.eb + F.mb) + y / 2 ^ (F.eb + F.mb) * 2 ^ (F.eb + F.mb), 0)
/-- A special function of every element, within 1 ulp (R111, R112); `fn` is its minor. -/
def special (F : Fmt) (fn : Nat) (f : Fmt → Nat → Raw) : Word → Word × Flags :=
  lift1 F fun F x => withinUlp F fn (word x) (f F x)
/-- `exp2.f` of both elements, correctly rounded (R112). -/
def exp2Pair : Word → Word × Flags := lift1 fp32 fun _ x => exp2F32 x

/-! ## Meanings -/

/-- R105: `add.d`. -/
def execAddD (d : BitVec 6) (a b : Src) (s : State) : Out :=
  lane (form2 false d a b) true (bf2 (lift2 fp64 fun F => opAdd F fm0)) s

/-- R105: `sub.d`. -/
def execSubD (d : BitVec 6) (a b : Src) (s : State) : Out :=
  lane (form2 false d a b) true (bf2 (lift2 fp64 fun F => opSub F fm0)) s

/-- R105: `mul.d`. -/
def execMulD (d : BitVec 6) (a b : Src) (s : State) : Out :=
  lane (form2 false d a b) true (bf2 (lift2 fp64 fun F => opMul F fm0)) s

/-- R105: `div.d`. -/
def execDivD (d : BitVec 6) (a b : Src) (s : State) : Out :=
  lane (form2 false d a b) true (bf2 (lift2 fp64 fun F => opDiv F fm0)) s

/-- R106: `min.d`. -/
def execMinD (d : BitVec 6) (a b : Src) (s : State) : Out :=
  lane (form2 false d a b) true (bf2 (minMax fp64 false false)) s

/-- R106: `max.d`. -/
def execMaxD (d : BitVec 6) (a b : Src) (s : State) : Out :=
  lane (form2 false d a b) true (bf2 (minMax fp64 true false)) s

/-- R105: `sqrt.d`. -/
def execSqrtD (d : BitVec 6) (a : Src) (s : State) : Out :=
  lane (form1 false d a) true (bf1 (lift1 fp64 fun F => opSqrt F fm0)) s

/-- R105: `rint.d`. -/
def execRintD (d : BitVec 6) (a : Src) (s : State) : Out :=
  lane (form1 false d a) true (bf1 (lift1 fp64 fun F => opRint F fm0)) s

/-- R105: `add.d`, long form. -/
def execAddDLong (d : BitVec 6) (a b : Src) (m : FMod) (s : State) : Out :=
  lane (form2 false d a b) true (bf2 (lift2 fp64 fun F => opAdd F m)) s

/-- R105: `sub.d`, long form. -/
def execSubDLong (d : BitVec 6) (a b : Src) (m : FMod) (s : State) : Out :=
  lane (form2 false d a b) true (bf2 (lift2 fp64 fun F => opSub F m)) s

/-- R105: `mul.d`, long form. -/
def execMulDLong (d : BitVec 6) (a b : Src) (m : FMod) (s : State) : Out :=
  lane (form2 false d a b) true (bf2 (lift2 fp64 fun F => opMul F m)) s

/-- R105: `div.d`, long form. -/
def execDivDLong (d : BitVec 6) (a b : Src) (m : FMod) (s : State) : Out :=
  lane (form2 false d a b) true (bf2 (lift2 fp64 fun F => opDiv F m)) s

/-- R106: `min.d`, long form. -/
def execMinDLong (d : BitVec 6) (a b : Src) (z : Bool) (s : State) : Out :=
  lane (form2 false d a b) true (bf2 (minMax fp64 false z)) s

/-- R106: `max.d`, long form. -/
def execMaxDLong (d : BitVec 6) (a b : Src) (z : Bool) (s : State) : Out :=
  lane (form2 false d a b) true (bf2 (minMax fp64 true z)) s

/-- R105: `sqrt.d`, long form. -/
def execSqrtDLong (d : BitVec 6) (a : Src) (m : FMod) (s : State) : Out :=
  lane (form1 false d a) true (bf1 (lift1 fp64 fun F => opSqrt F m)) s

/-- R105: `rint.d`, long form. -/
def execRintDLong (d : BitVec 6) (a : Src) (m : FMod) (s : State) : Out :=
  lane (form1 false d a) true (bf1 (lift1 fp64 fun F => opRint F m)) s

/-- R105: `add.f`. -/
def execAddF (d : BitVec 6) (a b : Src) (s : State) : Out :=
  lane (form2 false d a b) true (bf2 (lift2 fp32 fun F => opAdd F fm0)) s

/-- R105: `sub.f`. -/
def execSubF (d : BitVec 6) (a b : Src) (s : State) : Out :=
  lane (form2 false d a b) true (bf2 (lift2 fp32 fun F => opSub F fm0)) s

/-- R105: `mul.f`. -/
def execMulF (d : BitVec 6) (a b : Src) (s : State) : Out :=
  lane (form2 false d a b) true (bf2 (lift2 fp32 fun F => opMul F fm0)) s

/-- R105: `div.f`. -/
def execDivF (d : BitVec 6) (a b : Src) (s : State) : Out :=
  lane (form2 false d a b) true (bf2 (lift2 fp32 fun F => opDiv F fm0)) s

/-- R106: `min.f`. -/
def execMinF (d : BitVec 6) (a b : Src) (s : State) : Out :=
  lane (form2 false d a b) true (bf2 (minMax fp32 false false)) s

/-- R106: `max.f`. -/
def execMaxF (d : BitVec 6) (a b : Src) (s : State) : Out :=
  lane (form2 false d a b) true (bf2 (minMax fp32 true false)) s

/-- R105: `sqrt.f`. -/
def execSqrtF (d : BitVec 6) (a : Src) (s : State) : Out :=
  lane (form1 false d a) true (bf1 (lift1 fp32 fun F => opSqrt F fm0)) s

/-- R105: `rint.f`. -/
def execRintF (d : BitVec 6) (a : Src) (s : State) : Out :=
  lane (form1 false d a) true (bf1 (lift1 fp32 fun F => opRint F fm0)) s

/-- R105: `add.f`, long form. -/
def execAddFLong (d : BitVec 6) (a b : Src) (m : FMod) (s : State) : Out :=
  lane (form2 false d a b) true (bf2 (lift2 fp32 fun F => opAdd F m)) s

/-- R105: `sub.f`, long form. -/
def execSubFLong (d : BitVec 6) (a b : Src) (m : FMod) (s : State) : Out :=
  lane (form2 false d a b) true (bf2 (lift2 fp32 fun F => opSub F m)) s

/-- R105: `mul.f`, long form. -/
def execMulFLong (d : BitVec 6) (a b : Src) (m : FMod) (s : State) : Out :=
  lane (form2 false d a b) true (bf2 (lift2 fp32 fun F => opMul F m)) s

/-- R105: `div.f`, long form. -/
def execDivFLong (d : BitVec 6) (a b : Src) (m : FMod) (s : State) : Out :=
  lane (form2 false d a b) true (bf2 (lift2 fp32 fun F => opDiv F m)) s

/-- R106: `min.f`, long form. -/
def execMinFLong (d : BitVec 6) (a b : Src) (z : Bool) (s : State) : Out :=
  lane (form2 false d a b) true (bf2 (minMax fp32 false z)) s

/-- R106: `max.f`, long form. -/
def execMaxFLong (d : BitVec 6) (a b : Src) (z : Bool) (s : State) : Out :=
  lane (form2 false d a b) true (bf2 (minMax fp32 true z)) s

/-- R105: `sqrt.f`, long form. -/
def execSqrtFLong (d : BitVec 6) (a : Src) (m : FMod) (s : State) : Out :=
  lane (form1 false d a) true (bf1 (lift1 fp32 fun F => opSqrt F m)) s

/-- R105: `rint.f`, long form. -/
def execRintFLong (d : BitVec 6) (a : Src) (m : FMod) (s : State) : Out :=
  lane (form1 false d a) true (bf1 (lift1 fp32 fun F => opRint F m)) s

/-- R105: `add.hf`. -/
def execAddHf (d : BitVec 6) (a b : Src) (s : State) : Out :=
  lane (form2 false d a b) true (bf2 (lift2 fp16 fun F => opAdd F fm0)) s

/-- R105: `sub.hf`. -/
def execSubHf (d : BitVec 6) (a b : Src) (s : State) : Out :=
  lane (form2 false d a b) true (bf2 (lift2 fp16 fun F => opSub F fm0)) s

/-- R105: `mul.hf`. -/
def execMulHf (d : BitVec 6) (a b : Src) (s : State) : Out :=
  lane (form2 false d a b) true (bf2 (lift2 fp16 fun F => opMul F fm0)) s

/-- R106: `min.hf`. -/
def execMinHf (d : BitVec 6) (a b : Src) (s : State) : Out :=
  lane (form2 false d a b) true (bf2 (minMax fp16 false false)) s

/-- R106: `max.hf`. -/
def execMaxHf (d : BitVec 6) (a b : Src) (s : State) : Out :=
  lane (form2 false d a b) true (bf2 (minMax fp16 true false)) s

/-- R105: `add.hf`, long form. -/
def execAddHfLong (d : BitVec 6) (a b : Src) (m : FMod) (s : State) : Out :=
  lane (form2 false d a b) true (bf2 (lift2 fp16 fun F => opAdd F m)) s

/-- R105: `sub.hf`, long form. -/
def execSubHfLong (d : BitVec 6) (a b : Src) (m : FMod) (s : State) : Out :=
  lane (form2 false d a b) true (bf2 (lift2 fp16 fun F => opSub F m)) s

/-- R105: `mul.hf`, long form. -/
def execMulHfLong (d : BitVec 6) (a b : Src) (m : FMod) (s : State) : Out :=
  lane (form2 false d a b) true (bf2 (lift2 fp16 fun F => opMul F m)) s

/-- R106: `min.hf`, long form. -/
def execMinHfLong (d : BitVec 6) (a b : Src) (z : Bool) (s : State) : Out :=
  lane (form2 false d a b) true (bf2 (minMax fp16 false z)) s

/-- R106: `max.hf`, long form. -/
def execMaxHfLong (d : BitVec 6) (a b : Src) (z : Bool) (s : State) : Out :=
  lane (form2 false d a b) true (bf2 (minMax fp16 true z)) s

/-- R105: `add.bf`. -/
def execAddBf (d : BitVec 6) (a b : Src) (s : State) : Out :=
  lane (form2 false d a b) true (bf2 (lift2 bf16 fun F => opAdd F fm0)) s

/-- R105: `sub.bf`. -/
def execSubBf (d : BitVec 6) (a b : Src) (s : State) : Out :=
  lane (form2 false d a b) true (bf2 (lift2 bf16 fun F => opSub F fm0)) s

/-- R105: `mul.bf`. -/
def execMulBf (d : BitVec 6) (a b : Src) (s : State) : Out :=
  lane (form2 false d a b) true (bf2 (lift2 bf16 fun F => opMul F fm0)) s

/-- R106: `min.bf`. -/
def execMinBf (d : BitVec 6) (a b : Src) (s : State) : Out :=
  lane (form2 false d a b) true (bf2 (minMax bf16 false false)) s

/-- R106: `max.bf`. -/
def execMaxBf (d : BitVec 6) (a b : Src) (s : State) : Out :=
  lane (form2 false d a b) true (bf2 (minMax bf16 true false)) s

/-- R105: `add.bf`, long form. -/
def execAddBfLong (d : BitVec 6) (a b : Src) (m : FMod) (s : State) : Out :=
  lane (form2 false d a b) true (bf2 (lift2 bf16 fun F => opAdd F m)) s

/-- R105: `sub.bf`, long form. -/
def execSubBfLong (d : BitVec 6) (a b : Src) (m : FMod) (s : State) : Out :=
  lane (form2 false d a b) true (bf2 (lift2 bf16 fun F => opSub F m)) s

/-- R105: `mul.bf`, long form. -/
def execMulBfLong (d : BitVec 6) (a b : Src) (m : FMod) (s : State) : Out :=
  lane (form2 false d a b) true (bf2 (lift2 bf16 fun F => opMul F m)) s

/-- R106: `min.bf`, long form. -/
def execMinBfLong (d : BitVec 6) (a b : Src) (z : Bool) (s : State) : Out :=
  lane (form2 false d a b) true (bf2 (minMax bf16 false z)) s

/-- R106: `max.bf`, long form. -/
def execMaxBfLong (d : BitVec 6) (a b : Src) (z : Bool) (s : State) : Out :=
  lane (form2 false d a b) true (bf2 (minMax bf16 true z)) s

/-- R107: `fma.d`. -/
def execFmaD (d : BitVec 6) (a b c : Src) (m : FMod) (s : State) : Out :=
  lane (form3 d a b c) true (bf3 (lift3 fp64 fun F => opFma F false m)) s

/-- R107: `fnma.d`. -/
def execFnmaD (d : BitVec 6) (a b c : Src) (m : FMod) (s : State) : Out :=
  lane (form3 d a b c) true (bf3 (lift3 fp64 fun F => opFma F true m)) s

/-- R107: `fma.f`. -/
def execFmaF (d : BitVec 6) (a b c : Src) (m : FMod) (s : State) : Out :=
  lane (form3 d a b c) true (bf3 (lift3 fp32 fun F => opFma F false m)) s

/-- R107: `fnma.f`. -/
def execFnmaF (d : BitVec 6) (a b c : Src) (m : FMod) (s : State) : Out :=
  lane (form3 d a b c) true (bf3 (lift3 fp32 fun F => opFma F true m)) s

/-- R107: `fma.hf`. -/
def execFmaHf (d : BitVec 6) (a b c : Src) (m : FMod) (s : State) : Out :=
  lane (form3 d a b c) true (bf3 (lift3 fp16 fun F => opFma F false m)) s

/-- R107: `fma.bf`. -/
def execFmaBf (d : BitVec 6) (a b c : Src) (m : FMod) (s : State) : Out :=
  lane (form3 d a b c) true (bf3 (lift3 bf16 fun F => opFma F false m)) s

/-- R108: `setp.eq.d`. -/
def execSetpEqD (p : BitVec 3) (a b : Src) (s : State) : Out :=
  lane (formP false p a b) false (bfp (cmp0 fp64 .eq)) s

/-- R108: `setp.lt.d`. -/
def execSetpLtD (p : BitVec 3) (a b : Src) (s : State) : Out :=
  lane (formP false p a b) false (bfp (cmp0 fp64 .lt)) s

/-- R108: `setp.le.d`. -/
def execSetpLeD (p : BitVec 3) (a b : Src) (s : State) : Out :=
  lane (formP false p a b) false (bfp (cmp0 fp64 .le)) s

/-- R108: `setp.nan.d`. -/
def execSetpNanD (p : BitVec 3) (a b : Src) (s : State) : Out :=
  lane (formP false p a b) false (bfp (cmp0 fp64 .nan)) s

/-- R108: `setp.eq.f`. -/
def execSetpEqF (p : BitVec 3) (a b : Src) (s : State) : Out :=
  lane (formP false p a b) false (bfp (cmp0 fp32 .eq)) s

/-- R108: `setp.lt.f`. -/
def execSetpLtF (p : BitVec 3) (a b : Src) (s : State) : Out :=
  lane (formP false p a b) false (bfp (cmp0 fp32 .lt)) s

/-- R108: `setp.le.f`. -/
def execSetpLeF (p : BitVec 3) (a b : Src) (s : State) : Out :=
  lane (formP false p a b) false (bfp (cmp0 fp32 .le)) s

/-- R108: `setp.nan.f`. -/
def execSetpNanF (p : BitVec 3) (a b : Src) (s : State) : Out :=
  lane (formP false p a b) false (bfp (cmp0 fp32 .nan)) s

/-- R111: `rcp.d`. -/
def execRcpD (d : BitVec 6) (a : Src) (s : State) : Out :=
  lane (form1 false d a) true (bf1 (special fp64 0 rawRcp)) s

/-- R111: `rsqrt.d`. -/
def execRsqrtD (d : BitVec 6) (a : Src) (s : State) : Out :=
  lane (form1 false d a) true (bf1 (special fp64 1 rawRsqrt)) s

/-- R111: `exp2.d`. -/
def execExp2D (d : BitVec 6) (a : Src) (s : State) : Out :=
  lane (form1 false d a) true (bf1 (special fp64 2 rawExp2)) s

/-- R111: `log2.d`. -/
def execLog2D (d : BitVec 6) (a : Src) (s : State) : Out :=
  lane (form1 false d a) true (bf1 (special fp64 3 rawLog2)) s

/-- R111, R112: `exp2.f`. -/
def execExp2F (d : BitVec 6) (a : Src) (s : State) : Out :=
  lane (form1 false d a) true (bf1 exp2Pair) s

/-- R111: `log2.f`. -/
def execLog2F (d : BitVec 6) (a : Src) (s : State) : Out :=
  lane (form1 false d a) true (bf1 (special fp32 5 rawLog2)) s

/-- R111: `sin.f`. -/
def execSinF (d : BitVec 6) (a : Src) (s : State) : Out :=
  lane (form1 false d a) true (bf1 (special fp32 6 (fun F => rawTrig F false))) s

/-- R111: `cos.f`. -/
def execCosF (d : BitVec 6) (a : Src) (s : State) : Out :=
  lane (form1 false d a) true (bf1 (special fp32 7 (fun F => rawTrig F true))) s

/-- R109: `fclass.d`. -/
def execFclassD (d : BitVec 6) (a : Src) (s : State) : Out :=
  lane (form1 false d a) false (bf1 (classAll fp64)) s

/-- R110: `copysign.d`. -/
def execCopysignD (d : BitVec 6) (a b : Src) (s : State) : Out :=
  lane (form2 false d a b) false (bf2 (lift2 fp64 signCopy)) s

/-- R110: `abs.d`. -/
def execAbsD (d : BitVec 6) (a : Src) (s : State) : Out :=
  lane (form1 false d a) false (bf1 (lift1 fp64 signClear)) s

/-- R110: `neg.d`. -/
def execNegD (d : BitVec 6) (a : Src) (s : State) : Out :=
  lane (form1 false d a) false (bf1 (lift1 fp64 signFlip)) s

/-- R109: `fclass.f`. -/
def execFclassF (d : BitVec 6) (a : Src) (s : State) : Out :=
  lane (form1 false d a) false (bf1 (classAll fp32)) s

/-- R110: `copysign.f`. -/
def execCopysignF (d : BitVec 6) (a b : Src) (s : State) : Out :=
  lane (form2 false d a b) false (bf2 (lift2 fp32 signCopy)) s

/-- R110: `abs.f`. -/
def execAbsF (d : BitVec 6) (a : Src) (s : State) : Out :=
  lane (form1 false d a) false (bf1 (lift1 fp32 signClear)) s

/-- R110: `neg.f`. -/
def execNegF (d : BitVec 6) (a : Src) (s : State) : Out :=
  lane (form1 false d a) false (bf1 (lift1 fp32 signFlip)) s

end Sys2Proof.Machine
end

