-- ==== Sys2Proof/Machine/Matrix.lean ====
section
/-! DEFINITION. Matrix instructions: `gang` (R174), accumulator slots (R179, R180), the register form (R177, R178, R181 to R183), the
streamed form (R184 to R190) and `accrel` (R191), with the accumulation orders of R67 and R68. -/

namespace Sys2Proof.Machine

/-! ## Types (R176) -/

/-- A matrix type: the kind of its slots, element bits, K-step length, rows and columns of D. -/
structure MTy where
  kind : Nat
  eb : Nat
  k : Nat
  m : Nat
  n : Nat

/-- Types by minor of `mmar`: d, f, bf, hf, e4. -/
def mty (ty : Nat) : MTy :=
  [⟨0, 64, 4, 16, 24⟩, ⟨1, 32, 8, 16, 24⟩, ⟨3, 16, 16, 32, 48⟩, ⟨2, 16, 16, 32, 48⟩, ⟨4, 4, 64, 32, 48⟩].getD ty ⟨0, 64, 4, 16, 24⟩

def mfmt (ty : Nat) : Fmt := [fp64, fp32, bf16, fp16].getD ty bf16

def aBytes (ty : Nat) : Nat := (mty ty).m * (mty ty).k * (mty ty).eb / 8
def cBytes (ty : Nat) : Nat := if ty = 0 then 0 else (mty ty).m * (mty ty).n * 4
/-- First column of the part of position `i` in a gang of `g` (R178). -/
def colLo (ty i g : Nat) : Nat := i * (mty ty).n / g
def colCount (ty i g : Nat) : Nat := colLo ty (i + 1) g - colLo ty i g
def bBytes (ty i g : Nat) : Nat := (mty ty).k * colCount ty i g * (mty ty).eb / 8

/-! ## Register blocks (R177) -/

def blockRegs (w bytes : Nat) : Nat := (bytes + 8 * w - 1) / (8 * w)

/-- The bytes of a block; a thread that has exited holds zero. -/
def readBlock (s : State) (gk base bytes : Nat) : List Byte :=
  let w := widthOf s gk
  (List.range bytes).map fun o =>
    let tk := threadKey gk (o / 8 % w)
    if (getThr s tk).st = .exited then 0
    else BitVec.ofNat 8 ((getV s tk (BitVec.ofNat 6 (base + o / (8 * w)))).v.toNat / 256 ^ (o % 8))

/-- A block as sources of one thread: a poisoned register reports field 3 (R182, R361). -/
def blockFlds (w bytes : Nat) (x : Src) : List Fld :=
  (List.range (blockRegs w bytes)).map fun i => ⟨false, BitVec.ofNat 6 (x.r.toNat + i), x.c, 3, true⟩

def blockOver (l : LRec) (x : Src) (bytes : Nat) : Bool := decide (bytes ≠ 0 ∧ l.nv < x.r.toNat + blockRegs l.w bytes)

/-! ## Slots (R179, R180) -/

def slotKey (t half n : Nat) : Nat := t * 128 + 64 * half + n

/-- The slot that a reference names, if it is current. -/
def refSlot (s : State) (gk : Nat) (ref : Word) : Option Nat :=
  let n := bits ref 5 0
  if bits ref 63 24 ≠ 0 ∨ bits ref 7 6 ≠ 0 then .none
  else match tget .none (slotKey (teamOfG gk) (halfOf s gk) n) s.slot with
    | .some z => if z.tag.toNat = bits ref 23 8 then .some n else .none
    | .none => .none

def getSlot (s : State) (gk n : Nat) : Option Slot := tget .none (slotKey (teamOfG gk) (halfOf s gk) n) s.slot
def setSlot (gk n : Nat) (z : Option Slot) (s : State) : State :=
  { s with slot := tset .none (slotKey (teamOfG gk) (halfOf s gk) n) z s.slot }

/-- The core of a slot's or a record's owner. -/
def ownerCore (s : State) (t half : Nat) : Nat := (getTeam s t).core + half

/-- The numbers that a context may still give on a core, and how many physical slots the core has free (R179, R205, R278). -/
def freeSlots (s : State) (gk : Nat) : List Nat × Nat :=
  let core := coreOf s gk
  let ctx := ctxOf s gk
  let here := s.slot.filterMap fun p => match p.2 with
    | .some z => if ownerCore s z.team z.half = core then .some (p.1 % 64, (getTeam s z.team).ctx, (getTeam s z.team).st) else .none
    | .none => .none
  ((List.range 64).filter fun n => !here.any fun x => x.1 == n && x.2.1 == ctx,
    if 64 ≤ ctx then 0 else 64 - (here.filter fun x => x.2.2 == .resident).length)

/-- The numbers that may be given next: one that was given 65,534 times in a row is passed over while another is free, so that a released
reference stays stale for 2^16 allocations (R179). DEDUCED: log entry 19. -/
def nextSlots (s : State) (gk : Nat) : List Nat :=
  let l := tget (0, 0) (ctxOf s gk * 1024 + coreOf s gk) s.tagRun
  let fs := (freeSlots s gk).1
  let gs := fs.filter (· != l.1)
  if l.2 < 65534 ∨ gs = [] then fs else gs
/-- How often in a row a number has been given, once it is given again. -/
def runOf (l : Nat × Nat) (n : Nat) : Nat × Nat := (n, if l.1 = n then l.2 + 1 else 1)
/-- One slot is allocated, every element +0, under the next tag of its number; the number and the reference (R179). DEDUCED: log entry 19. -/
def allocSlot (gk : Nat) (s : State) : Nat × Word × State :=
  let r := pick (nextSlots s gk) 0 s
  let at_ := ctxOf s gk * 1024 + coreOf s gk
  let tag := tget 0 (at_ * 64 + r.1) s.tag % 65535 + 1
  let s := { r.2 with tag := tset 0 (at_ * 64 + r.1) tag r.2.tag
                      tagRun := tset (0, 0) at_ (runOf (tget (0, 0) at_ r.2.tagRun) r.1) r.2.tagRun }
  (r.1, word (tag * 256 + r.1),
    setSlot gk r.1 (.some { tag := BitVec.ofNat 16 tag, team := teamOfG gk, half := halfOf s gk }) s)

def slotBusy (gk n : Nat) (up : Bool) (s : State) : State :=
  match getSlot s gk n with
  | .some z => setSlot gk n (.some { z with busy := if up then z.busy + 1 else z.busy - 1 }) s
  | .none => s

/-! ## Products and windows (R57, R67, R68, R188) -/

/-- One product; with an edge element it is exactly +0. -/
def mprod (sc : Int) (a b : Option Num) : Num :=
  match a, b with
  | .some x, .some y => nScale sc (nProd x y)
  | _, _ => .fin false 0 0

/-- The products of one row of A and one column of B. -/
def terms (sc : Int) (row col : List (Option Num)) : List Num := row.zipWith (mprod sc) col

/-- Whether a product raises invalid: of a signalling NaN, or 0 × ∞ (R62). -/
def prodNv (a b : Option Num) : Bool :=
  match a, b with
  | .some x, .some y => isSnan x || isSnan y || prodInvalid x y
  | _, _ => false

/-- A K-step of R67 on one element, the row of A and the column of B; a signalling NaN, ∞ − ∞ and 0 × ∞ raise invalid (R62). -/
def stepD (sc : Int) (d : Nat) (row col : List (Option Num)) : Nat × Flags :=
  let ts := numOf fp64 d :: terms sc row col
  let r := nRound fp64 .rne false (nAlign .rne ts)
  (r.1, r.2 ||| nvIf (isSnan (numOf fp64 d) || (row.zipWith prodNv col).contains true || sumInvalid ts))
/-- A K-step of R68: into E8M26 from C, or from the running partial. -/
def stepFrom (c : Num) (ts : List Num) : Nat := nRoundOdd e8m26 (nAlign .rne (c :: ts))
/-- A window's end. -/
def windowEnd (acc : Nat) : Nat × Flags := nRound fp32 .rne false (numOf e8m26 acc)

/-- The bare value of element bits (R53); E4 codes through the slot's codebook. -/
def mval (ty : Nat) (book : List Num) (e : Nat) : Num := if ty = 4 then book.getD e (.fin false 0 0) else numOf (mfmt ty) e

/-- Element `i` of packed bytes. -/
def packedElem (ty : Nat) (bs : List Byte) (i : Nat) : Nat :=
  let eb := (mty ty).eb
  if eb = 4 then (bs.getD (i / 2) 0).toNat / 16 ^ (i % 2) % 16 else fieldOf bs (i * (eb / 8)) (eb / 8)

def slotOf (l : LRec) (f : BitVec 3) : Word := tget 0 f.toNat l.fslots

/-! ## `gang` (R174) -/

/-- An operation of the matrix engine that a group takes part in. -/
def isMatrixOf (gk : Nat) (o : Op) : Bool :=
  match o.k with
  | .matrix _ _ _ gs => gs.any (·.gk == gk)
  | .mmas _ _ _ _ _ gs _ => gs.any (·.gk == gk)
  | _ => false

/-- The group waits in the latch. -/
def enterLatch (gk : Nat) (j : Joint) (kl : List (Bool × BitVec 6)) (s : State) : State :=
  holdAll .none (setLatch gk (.some ⟨j, kl, s.cur.npc, s.cur.pc⟩) s)

/-- A waiting group passes its joint instruction. -/
def leaveLatch (s : State) (gk : Nat) : State :=
  match latchOf s gk with
  | .some l => passGroup gk l.npc (killAll gk 0 l.kl (setLatch gk .none s))
  | .none => s

/-- Every listed group writes GANG, each with its own position, as one action. -/
def issueGang (gs : List Nat) (v : Word) (s : State) : State :=
  (List.range gs.length).foldl (fun s i =>
    let g := gs.getD i 0
    leaveLatch (setGrp g { getGrp s g with gang := word (bits v 50 0 + i * 2 ^ 51) } s) g) s

/-! ## The register form (R181, R182) -/

/-- What one thread of a group reads for an `mmar`. -/
def mmarForm (w ty pos g : Nat) (d : BitVec 6) (a b : Src) : Form :=
  { uni := false, flds := blockFlds w (aBytes ty) a ++ blockFlds w (bBytes ty pos g) b
      ++ (if ty = 0 then [] else blockFlds w (cBytes ty) ⟨d, .plain⟩) }
/-- What a group reads for its slot reference. -/
def refForm (d : BitVec 6) : Form := { uni := true, flds := [⟨true, d, .plain, 4, true⟩] }

/-- What reading comes to for a group: its thread traps, or one of its own. -/
inductive MGot
  | ok
  | trap (t : TrapRec)
  | each (ts : List (Nat × TrapRec))

def readThreads (s : State) (gk : Nat) (pc : Word) (F : Form) : List (Nat × TrapRec) :=
  (live s gk).filterMap fun i => match readSources s gk i pc F with
    | .trap t => .some (i, t) | .wait _ _ => .none | .waitP _ => .none | .ok _ _ => .none

/-- The reading of a group's blocks and its reference at issue. -/
def readJoint (s : State) (gk pos g : Nat) (l : Latch) : MGot :=
  match l.ins with
  | .gang _ => .ok
  | .mmar ty d a b _ _ =>
    (match readThreads s gk l.pc (mmarForm (widthOf s gk) ty pos g d a b) with
    | [] =>
      if ty ≠ 0 then .ok
      else match readSources s gk 0 l.pc (refForm d) with
        | .trap t => .trap t
        | .ok v _ => if v.getD 0 0 ≠ 0 ∧ (refSlot s gk (v.getD 0 0)).isNone then
            .trap { name := .slotFault, pc := l.pc, info := v.getD 0 0 } else .ok
        | .wait _ _ => .ok
        | .waitP _ => .ok
    | ts => .each ts)
  | .mmas ty _ _ _ _ m =>
    (match (if ty = 0 then [] else
        readThreads s gk l.pc { uni := false, flds := blockFlds (widthOf s gk) (cBytes ty) ⟨m.d, .plain⟩ }) with
    | [] => .ok
    | ts => .each ts)

/-- The traps of a group's reading: the group has then not arrived (R175). DEDUCED: log entry 19. -/
def applyTraps (s : State) (x : Nat × MGot) : State :=
  match x.2 with
  | .ok => s
  | .trap t => groupTrap t (setLatch x.1 .none s) x.1
  | .each ts => ts.foldl (fun s p =>
      if (getThr s (threadKey x.1 p.1)).st = .exited then s else takeTrap x.1 [p.1] false p.2 s) (setLatch x.1 .none s)

def isOk (x : MGot) : Bool := match x with | .ok => true | .trap _ => false | .each _ => false

/-- The reference register of a group's joint instruction, if it is an `.d` form: field and value. -/
def refOf (s : State) (gk : Nat) (l : Latch) : Option (BitVec 6 × Word) :=
  match l.ins with
  | .gang _ => .none
  | .mmar ty d _ _ _ _ => if ty = 0 then .some (d, (getS s gk d).v) else .none
  | .mmas ty _ ref _ _ m => if ty = 0 then .some (m.d, ref) else .none

/-- Every register of a block is EMPTY in every live thread. -/
def emptyBlock (gk : Nat) (d : BitVec 6) (bytes : Nat) (s : State) : State :=
  (live s gk).foldl (fun s i => (List.range (blockRegs (widthOf s gk) bytes)).foldl
    (fun s k => markEmpty gk i false (BitVec.ofNat 6 (d.toNat + k)) s) s) s

/-- The block's registers complete from its bytes. -/
def fillBlock (gk : Nat) (d : BitVec 6) (bs : List Byte) (s : State) : State :=
  let w := widthOf s gk
  (live s gk).foldl (fun s i => (List.range (blockRegs w bs.length)).foldl
    (fun s k => complete gk i false (BitVec.ofNat 6 (d.toNat + k)) (word (fieldOf bs (8 * (k * w + i)) 8)) s) s) s

/-- The slot of each group, the empty references' allocated; the reference registers are written. A reference that has
gone stale in the latch is not checked again. DESIGN CHOICE: log entry 48. -/
def takeSlots (gs : List Nat) (s : State) : List (Option Nat) × State :=
  gs.foldl (fun (acc : List (Option Nat) × State) g =>
    let s := acc.2
    match latchOf s g with
    | .none => (acc.1 ++ [.none], s)
    | .some l =>
      match refOf s g l with
      | .none => (acc.1 ++ [.none], s)
      | .some (d, ref) =>
        if ref = 0 then
          let r := allocSlot g s
          (acc.1 ++ [.some r.1], slotBusy g r.1 true (writeDst g 0 true d r.2.1 false r.2.2))
        else (acc.1 ++ [.some (bits ref 5 0)], slotBusy g (bits ref 5 0) true s)) ([], s)

/-- A group's part of an issued `mmar`: its blocks are read, then killed, then its C block is EMPTY. -/
def takeMr (ty g : Nat) (s : State) (x : Nat × Nat × Option Nat) : Option MrGroup × State :=
  let gk := x.1
  match latchOf s gk with
  | .some { ins := .mmar _ d a b _ _, kl := _, npc := _, pc := _ } =>
    let F := mmarForm (widthOf s gk) ty x.2.1 g d a b
    let m : MrGroup := { gk := gk, slot := x.2.2, d := d, a := readBlock s gk a.r.toNat (aBytes ty)
                         b := readBlock s gk b.r.toNat (bBytes ty x.2.1 g), c := readBlock s gk d.toNat (cBytes ty) }
    let s := (live s gk).foldl (fun s i => keepCache gk i F (killAll gk i (kills F) s)) s
    (.some m, if ty = 0 then s else emptyBlock gk d (cBytes ty) s)
  | _ => (.none, s)

/-- A group's part of an issued `mmas`: its C block at issue, its handles, the set that the group has forked last (R187).
DESIGN CHOICE: log entry 48. -/
def takeMm (ty id : Nat) (s : State) (x : Nat × Nat × Option Nat) : Option MmGroup × List (Nat × Nat) × State :=
  let gk := x.1
  let t := teamOfG gk
  match latchOf s gk with
  | .some { ins := .mmas _ _ _ _ _ m, kl := _, npc := _, pc := _ } =>
    let bs := readBlock s gk m.d.toNat (cBytes ty)
    let c := (List.range (cBytes ty / 4)).foldl (fun c e => tset 0 e (BitVec.ofNat 32 (fieldOf bs (4 * e) 4)) c) []
    let s := if ty = 0 then s else emptyBlock gk m.d (cBytes ty) s
    let s := [m.ha, m.hb].foldl (fun s h => match getHandle s t h with
      | .some y => setHandle t h { y with mm := y.mm + 1 } s | .none => s) s
    let m := { m with gk := gk, pos := x.2.1, slot := x.2.2, c := c, cur := c }
    match (getGrp s gk).fork with
    | .none => (.some m, [], s)
    | .some n =>
      let y := getTeam s t
      (match tget .none n y.sets with
      | .some f => (.some m, [(gk, n)], setTeam t { y with sets := tset .none n (.some { f with live := f.live ++ [id] }) y.sets } s)
      | .none => (.some m, [], s))
  | _ => (.none, [], s)

/-- The latch issues a matrix instruction once for the gang (R175, R180, R182, R187). -/
def issueMatrix (gs : List Nat) (l : Latch) (s : State) : State :=
  let n := gs.length
  let reads := (List.range n).map fun i => let g := gs.getD i 0
    (g, match latchOf s g with | .some l => readJoint s g i n l | .none => .ok)
  if reads.any fun r => !isOk r.2 then reads.foldl applyTraps s
  else
    let need := (gs.filter fun g => match latchOf s g with
      | .some l => (match refOf s g l with | .some (_, r) => r == 0 | .none => false) | .none => false).length
    let fs := freeSlots s (gs.headD 0)
    let have_ := min fs.1.length fs.2
    if have_ < need then
      gs.foldl (fun s g => match latchOf s g with
        | .some l => groupTrap { name := .accExhausted, pc := l.pc, info := word have_ } (setLatch g .none s) g
        | .none => s) s
    else
      let r := takeSlots gs s
      let xs := (List.range n).map fun i => (gs.getD i 0, i, r.1.getD i .none)
      let g0 := gs.headD 0
      let pass (s : State) : State := gs.foldl leaveLatch s
      match l.ins with
      | .gang _ => s
      | .mmar ty _ _ _ fa fb =>
        let y := xs.foldl (fun (acc : List MrGroup × State) x =>
          let z := takeMr ty n acc.2 x
          (match z.1 with | .some m => acc.1 ++ [m] | .none => acc.1, z.2)) ([], r.2)
        pass (addOp g0 engineTid l.pc (.matrix ty fa fb y.1) y.2)
      | .mmas ty p _ k0 nk _ =>
        let id := r.2.mm.nextId
        let y := xs.foldl (fun (acc : List MmGroup × List (Nat × Nat) × State) x =>
          let z := takeMm ty id acc.2.2 x
          (match z.1 with | .some m => acc.1 ++ [m] | .none => acc.1, acc.2.1 ++ z.2.1, z.2.2)) ([], [], r.2)
        pass (addOp g0 engineTid l.pc (.mmas ty p k0 k0 (k0 + nk) y.1 y.2.1) y.2.2)

/-- One complete list acts: it issues if its arrivals agree, else every group of it takes GANG_FAULT (R175). -/
def actList (s : State) (gk : Nat) : State :=
  match latchOf s gk with
  | .none => s
  | .some l =>
    let ms := listOf s gk l
    if ms.all (fun m => (latchOf s m).isSome) then
      if ms.all fun m => match latchOf s m with | .some x => agree s gk m l.ins x.ins | .none => false then
        (match l.ins with
        | .gang v => issueGang ms v s
        | .mmar _ _ _ _ _ _ => issueMatrix ms l s
        | .mmas _ _ _ _ _ _ => issueMatrix ms l s)
      else ms.foldl latchFault s
    else s

/-- After an arrival: lists that can never be complete, then every list that is (R175). -/
def settleLatch (t : Nat) (s : State) : State :=
  let s := latchGone t s
  (waitingIn s t).foldl actList s

/-- R174: `gang`. -/
def execGang (a : Src) (s : State) : Out :=
  let F : Form := { uni := true, flds := [fA true a true] }
  uni F (fun v psn s =>
    let gk := s.cur.gk
    let x := v.getD 0 0
    match s.mm.ops.find? (isMatrixOf gk) with
    | .some o => holdGroup false (.agent o.id) s
    | .none =>
      if gangCount x ≠ 0 ∧ gangStale s gk = true then trapGroup (trapAt s .gangFault 0 x) (gangSeen gk s)
      else if gangCount x = 0 then uniCommit F psn .none .none .none (setGrp gk { getGrp s gk with gang := 0 } s)
      else if bits x 63 51 ≠ 0 ∨ listBad s gk x = true then trapGroup (trapAt s .gangFault 0 x) s
      else settleLatch (teamOfG gk) (enterLatch gk (.gang x) (kills F) (keepCache gk 0 F s))) s

/-- `mmar.T` (R181): ILLEGAL from the words and the record, convergence, the list, the B part, the sources' arrival, the latch. -/
def mmar (ty : Nat) (d : BitVec 6) (a b : Src) (fa fb : BitVec 3) (s : State) : Out :=
  let gk := s.cur.gk
  let l := recOf s gk
  if blockOver l a (aBytes ty) || (ty != 0 && blockOver l ⟨d, .plain⟩ (cBytes ty)) || (ty == 0 && decide (l.ns ≤ d.toNat))
      || slotKind (slotOf l fa) != (mty ty).kind || slotKind (slotOf l fb) != (mty ty).kind || decide (l.nv ≤ b.r.toNat) then
    .next (illegalLane s)
  else converge (fun s =>
    let v := (getGrp s gk).gang
    if gangCount v = 0 ∨ gangBad s gk v = true then trapGroup (trapAt s .gangFault 0 0) (gangSeen gk s)
    else if blockOver l b (bBytes ty (gangPos v) (gangCount v)) then trapGroup (illegalHere s) s
    else
      let F := mmarForm l.w ty (gangPos v) (gangCount v) d a b
      let rs := (live s gk).map fun i => (i, .some (readSources s gk i s.cur.pc F))
      if rs.any isWaitGot then rs.foldl (crossWait gk) (unageAll s)
      else if ty = 0 ∧ (getS s gk d).st = .empty then waitRegAll true d s
      else settleLatch (teamOfG gk) (enterLatch gk (.mmar ty d a b fa fb) [] s)) s

/-- R181, R182: `mmar.d`. -/
def execMmarD (d : BitVec 6) (a b : Src) (fa fb : BitVec 3) (s : State) : Out := mmar 0 d a b fa fb s
/-- R181, R182: `mmar.f`. -/
def execMmarF (d : BitVec 6) (a b : Src) (fa fb : BitVec 3) (s : State) : Out := mmar 1 d a b fa fb s
/-- R181, R182: `mmar.bf`. -/
def execMmarBf (d : BitVec 6) (a b : Src) (fa fb : BitVec 3) (s : State) : Out := mmar 2 d a b fa fb s
/-- R181, R182: `mmar.hf`. -/
def execMmarHf (d : BitVec 6) (a b : Src) (fa fb : BitVec 3) (s : State) : Out := mmar 3 d a b fa fb s
/-- R181, R182: `mmar.e4`. -/
def execMmarE4 (d : BitVec 6) (a b : Src) (fa fb : BitVec 3) (s : State) : Out := mmar 4 d a b fa fb s

/-! ## Completion of the register form (R182, R183) -/

/-- Whether an operation uses the matrix engine of a core. -/
def usesEngine (s : State) (core : Nat) (o : Op) : Bool :=
  coreOf s o.gk == core && match o.k with
    | .matrix _ _ _ _ => true | .mmas _ _ _ _ _ _ _ => true | _ => false

/-- The matrix instructions of a core are performed in the order of issue (R183); those of a team that a slice end has stopped hold back
only its own (R190). -/
def engineTurn (s : State) (o : Op) : Bool :=
  match s.mm.ops.find? fun x => usesEngine s (coreOf s o.gk) x && (enginesRun s x.gk || teamOfG x.gk == teamOfG o.gk) with
  | .some x => x.id == o.id
  | .none => true

/-- The columns of a gang's B, each with its list of `k` elements. -/
def mrCols (ty : Nat) (book : List Num) (gs : List MrGroup) : List (List (Option Num)) :=
  (List.range gs.length).flatMap fun i =>
    let nc := colCount ty i gs.length
    let bs := match gs[i]? with | .some m => m.b | .none => []
    (List.range nc).map fun j => (List.range (mty ty).k).map fun x => .some (mval ty book (packedElem ty bs (x * nc + j)))

def mrRow (ty : Nat) (book : List Num) (m : MrGroup) (i : Nat) : List (Option Num) :=
  (List.range (mty ty).k).map fun x => .some (mval ty book (packedElem ty m.a (i * (mty ty).k + x)))

/-- The K-step for one group: its slot or its C registers, and the flags. -/
def mrGroup (ty : Nat) (sc : Int) (bookA : List Num) (cols : List (List (Option Num))) (acc : Flags × State) (m : MrGroup) :
    Flags × State :=
  let s := acc.2
  let n := (mty ty).n
  let rows := (List.range (mty ty).m).map (mrRow ty bookA m)
  let row (e : Nat) := rows.getD (e / n) []
  let col (e : Nat) := cols.getD (e % n) []
  if ty = 0 then
    match m.slot with
    | .none => (acc.1, s)
    | .some k =>
      match getSlot s m.gk k with
      | .none => (acc.1, s)
      | .some z =>
        let rs := (List.range 384).map fun e => stepD sc (tget 0 e z.d).toNat (row e) (col e)
        let d := (List.range 384).foldl (fun d e => tset 0 e (word (rs.getD e (0, 0)).1) d) []
        (rs.foldl (fun f r => f ||| r.2) acc.1, slotBusy m.gk k false (setSlot m.gk k (.some { z with d := d }) s))
  else
    let rs := (List.range ((mty ty).m * n)).map fun e =>
      windowEnd (stepFrom (numOf fp32 (fieldOf m.c (4 * e) 4)) (terms sc (row e) (col e)))
    (rs.foldl (fun f r => f ||| r.2) acc.1, fillBlock m.gk m.d (rs.flatMap fun r => bytesOf 4 r.1) s)

def finishMatrix (o : Op) (ty : Nat) (fa fb : BitVec 3) (gs : List MrGroup) (s : State) : State :=
  let g := getGrid s (gridOfG o.gk)
  let sc := slotScale (slotOf g.lr fa) + slotScale (slotOf g.lr fb)
  let cols := mrCols ty (codebook g fb.toNat) gs
  let r := gs.foldl (mrGroup ty sc (codebook g fa.toNat) cols) (0, dropOp o.id s)
  gs.foldl (fun s m => orFpx m.gk r.1 s) r.2

/-- R183: a latch-issued `mmar` completes. -/
def execMatrixCompletion (k : Nat) (s : State) : Out :=
  .next (match findOp s k with
    | .some o =>
      (match o.k with
      | .matrix ty fa fb gs => if engineTurn s o then settleTeam (teamOfG o.gk) (finishMatrix o ty fa fb gs s) else s
      | _ => s)
    | .none => s)

/-! ## Shapes on the stash side (R186) -/

/-- The bytes of a two-dimensional stash shape, as offsets in its tile: lowest and one past the highest. -/
def shapeSpan (sh : Shape) (eb : Nat) : Int × Int :=
  let st := (sh.str.headD 0).toInt
  let far : Int := ((sh.ext.headD 1 : Nat) - 1 : Int) * st
  let b : Int := sh.base.toNat
  (b + min 0 far, b + max 0 far + ((sh.ext.getLastD 1 * eb + 7) / 8 : Nat))

/-- The bytes that writing the first `m` rows and `n` columns through a shape reaches, row by row, as places in the stash (R188, R191). -/
def rowParts (x : Handle) (sh : Shape) (m n eb : Nat) : List (Nat × Nat) :=
  (List.range (min m (sh.ext.headD 0))).map fun (i : Nat) =>
    (((x.off : Int) + sh.base.toNat + (i : Int) * (sh.str.headD 0).toInt).toNat, (min n (sh.ext.getLastD 0) * eb + 7) / 8)

/-- The conditions of R186 for a shape of a kind, read or written. -/
def stashShapeOk (l : LRec) (sh : Shape) (kind : Nat) (wr : Bool) : Bool :=
  decide (sh.ext.length = 2) && (if wr then sh.w else sh.r) && slotKind (slotOf l sh.slot) == kind
    && decide ((sh.str.headD 0).toNat % 8 = 0)

/-- The span lies in the tile. -/
def spanIn (x : Handle) (sp : Int × Int) : Bool := decide (0 ≤ sp.1) && decide (sp.2 ≤ x.size)

/-- The element of a tile: none at an edge. An uncorrectable stash word reads as a free value. DEDUCED: log entry 19. -/
def tileElem (s : State) (t : Nat) (x : Handle) (sh : Shape) (ty : Nat) (book : List Num) (row col : Nat) : Option Num :=
  if sh.ext.headD 0 ≤ row ∨ sh.ext.getLastD 0 ≤ col then .none
  else
    let eb := (mty ty).eb
    let at_ : Int := (x.off : Int) + sh.base.toNat + (row : Int) * (sh.str.headD 0).toInt + (col * eb / 8 : Nat)
    let byte (o : Nat) : Byte := if stashBad s t o 1 then Config.freeByte (s.fresh + o) else tget 0 o (getTeam s t).stash
    if eb = 4 then .some (mval ty book ((byte at_.toNat).toNat / 16 ^ (col % 2) % 16))
    else .some (mval ty book (natOf ((List.range (eb / 8)).map fun i => byte (at_.toNat + i))))

/-! ## The streamed form (R184 to R187) -/

/-- Traps of a named handle and shape for `mmas`, in the order of R187; none: they pass. -/
def mmasHandle (s : State) (t h : Nat) : Option (TrapName × Word) :=
  match getHandle s t h with
  | .none => .some (.handleFault, word h)
  | .some x =>
    let other := (getTeam s t).handles.any fun p => p.1 != h && match p.2 with
      | .some y => isEngine y.st && tilesMeet x.off y.off x.size y.size | .none => false
    if x.st = .free ∨ x.st = .draining ∨ (x.st = .filling ∧ x.recs ≠ 0) ∨ other = true then .some (.handleBusy, word h) else .none

def mmasForm (ty : Nat) (d : BitVec 6) (a b : Src) : Form :=
  { uni := true, flds := [fA true a true, fB true b true] ++ (if ty = 0 then [⟨true, d, .plain, 4, true⟩] else []) }

/-- The checks of R187 and the arrival at the latch (`ok`); `stall`: a thread waits for its C block. A shape that leaves its tile
reports where the shape begins. DEDUCED: log entry 19. DESIGN CHOICE: log entry 48. -/
def mmasBody (ty p : Nat) (F : Form) (d : BitVec 6) (v : List Word) (_ : Nat) (s : State) : AccGot :=
  let gk := s.cur.gk
  let t := teamOfG gk
  let l := recOf s gk
  let a := v.getD 0 0
  let b := v.getD 1 0
  let ref := v.getD 2 0
  let ha := bits a 38 32
  let hb := bits a 46 40
  let xa := bits a 15 0
  let xb := bits a 31 16
  let g := (getGrp s gk).gang
  if bits a 63 47 ≠ 0 ∨ bits a 39 39 ≠ 0 ∨ bits b 63 32 ≠ 0 then .trap (trapAt s .capFault 0 (capInfo 1 xa))
  else if ty = 0 ∧ ref ≠ 0 ∧ (refSlot s gk ref).isNone then .trap (trapAt s .slotFault 0 ref)
  else match getHandle s t ha, getHandle s t hb with
    | .none, _ => .trap (trapAt s .handleFault 0 (word ha))
    | .some _, .none => .trap (trapAt s .handleFault 0 (word hb))
    | .some ya, .some yb =>
      match (mmasHandle s t ha).orElse fun _ => mmasHandle s t hb with
      | .some (n, i) => .trap (trapAt s n 0 i)
      | .none =>
        let deny := denyOf s gk 0 true
        match getShape gk deny xa s with
        | (.page q w, s) => absentPage true 0 .g (word (w * 65536)) false q w s
        | (.bad, s) => .trapIn (trapAt s .capFault 0 (capInfo 1 xa)) s
        | (.ok sa, s) =>
          match getShape gk deny xb s with
          | (.page q w, s) => absentPage true 0 .g (word (w * 65536)) false q w s
          | (.bad, s) => .trapIn (trapAt s .capFault 0 (capInfo 1 xb)) s
          | (.ok sb, s) =>
            if stashShapeOk l sa (mty ty).kind false = false then .trapIn (trapAt s .capFault 0 (capInfo 1 xa)) s
            else if stashShapeOk l sb (mty ty).kind false = false then .trapIn (trapAt s .capFault 0 (capInfo 1 xb)) s
            else if spanIn ya (shapeSpan sa (mty ty).eb) = false then
              .trapIn (accessFault s.cur.pc (word ya.off + sa.base) 1 .s false) s
            else if spanIn yb (shapeSpan sb (mty ty).eb) = false then
              .trapIn (accessFault s.cur.pc (word yb.off + sb.base) 1 .s false) s
            else if gangCount g = 0 ∨ gangBad s gk g = true then .trapIn (trapAt s .gangFault 0 0) (gangSeen gk s)
            else
              let CF : Form := { uni := false, flds := if ty = 0 then [] else blockFlds l.w (cBytes ty) ⟨d, .plain⟩ }
              match (live s gk).findSome? fun i => match readSources s gk i s.cur.pc CF with
                | .wait _ r => .some (i, r) | .waitP _ => .none | .trap _ => .none | .ok _ _ => .none with
              | .some (i, r) => .stall 0 (waitThere gk i false r (unageAll s))
              | .none =>
                match releaseWait s gk .none false false (getTeam s t).pair with
                | .some id => .hold false (.agent id) s
                | .none =>
                  let s := keepCache gk 0 F (releaseCore (coreOf s gk) (getTeam s t).pair false s)
                  .ok (setLatch gk (.some ⟨.mmas ty p ref (bits b 31 16) (bits b 15 0)
                    { gk := gk, d := d, a := sa, b := sb, ha := ha, hb := hb }, kills F, s.cur.npc, s.cur.pc⟩) s)

/-- `mmas.T` (R184); a group that has arrived waits in the latch. -/
def mmas (ty p : Nat) (d : BitVec 6) (a b : Src) (s : State) : Out :=
  let l := recOf s s.cur.gk
  let F := mmasForm ty d a b
  if overLimit s s.cur.gk F || (ty != 0 && blockOver l ⟨d, .plain⟩ (cBytes ty)) then
    converge (fun s => trapGroup (illegalHere s) s) s
  else uni F (fun v _ s =>
    let gk := s.cur.gk
    match mmasBody ty p F d v 0 s with
    | .trap t => trapGroup t s
    | .trapIn t s => trapGroup t s
    | .hold b w s => holdGroup b w s
    | .ok s => settleLatch (teamOfG gk) (holdAll .none s)
    | .stall _ s => s) s

/-- R184: `mmas.d`. -/
def execMmasD (d : BitVec 6) (a b : Src) (s : State) : Out := mmas 0 1 d a b s
/-- R184: `mmas.f`. -/
def execMmasF (v : BitVec 6) (a b : Src) (w : BitVec 4) (s : State) : Out := mmas 1 (w.toNat + 1) v a b s
/-- R184: `mmas.bf`. -/
def execMmasBf (v : BitVec 6) (a b : Src) (w : BitVec 4) (s : State) : Out := mmas 2 (w.toNat + 1) v a b s
/-- R184: `mmas.hf`. -/
def execMmasHf (v : BitVec 6) (a b : Src) (w : BitVec 4) (s : State) : Out := mmas 3 (w.toNat + 1) v a b s
/-- R184: `mmas.e4`. -/
def execMmasE4 (v : BitVec 6) (a b : Src) (w : BitVec 4) (s : State) : Out := mmas 4 (w.toNat + 1) v a b s

/-! ## K-steps of the streamed form (R187 to R190) -/

/-- The handles that a running instruction waits for. -/
def mmHandles (s : State) (gs : List MmGroup) : List (Option Handle) :=
  gs.flatMap fun m => [getHandle s (teamOfG m.gk) m.ha, getHandle s (teamOfG m.gk) m.hb]

/-- The instruction ends: slots stop being busy, C blocks complete (after a stop, with their values at issue), handles and fork sets let
go. -/
def endMmas (o : Op) (ty : Nat) (gs : List MmGroup) (sets : List (Nat × Nat)) (stop : Bool) (s : State) : State :=
  let s := dropOp o.id s
  let s := gs.foldl (fun s m =>
    let t := teamOfG m.gk
    let s := match m.slot with | .some k => slotBusy m.gk k false s | .none => s
    let c := if stop then m.c else m.cur
    let s := if ty = 0 then s
      else fillBlock m.gk m.d ((List.range (cBytes ty / 4)).flatMap fun e => bytesOf 4 (tget 0 e c).toNat) s
    [m.ha, m.hb].foldl (fun s h => match getHandle s t h with
      | .some y => setHandle t h { y with mm := y.mm - 1 } s | .none => s) s) s
  sets.foldl (fun s x =>
    let t := teamOfG x.1
    let y := getTeam s t
    match tget .none x.2 y.sets with
    | .some f => setTeam t { y with sets := tset .none x.2 (.some { f with live := f.live.erase o.id }) y.sets } s
    | .none => s) s

/-- One K-step for one group. -/
def mmGroup (ty k : Nat) (first last : Bool) (sb : List Int) (cols : List (List (Option Num))) (acc : List MmGroup × Flags × State)
    (m : MmGroup) : List MmGroup × Flags × State :=
  let s := acc.2.2
  let t := teamOfG m.gk
  let g := getGrid s (gridOfG m.gk)
  let n := (mty ty).n
  match getHandle s t m.ha with
  | .none => acc
  | .some ha =>
    let book := codebook g m.a.slot.toNat
    let rows := (List.range (mty ty).m).map fun i => (List.range (mty ty).k).map fun x =>
      tileElem s t ha m.a ty book i (k * (mty ty).k + x)
    let sa := slotScale (slotOf g.lr m.a.slot)
    let sc (e : Nat) := sa + sb.getD (e % n) 0
    let row (e : Nat) := rows.getD (e / n) []
    let col (e : Nat) := cols.getD (e % n) []
    if ty = 0 then
      match m.slot.bind (getSlot s m.gk) with
      | .none => (acc.1 ++ [m], acc.2)
      | .some z =>
        let rs := (List.range 384).map fun e => stepD (sc e) (tget 0 e z.d).toNat (row e) (col e)
        let d := (List.range 384).foldl (fun d e => tset 0 e (word (rs.getD e (0, 0)).1) d) []
        (acc.1 ++ [m], rs.foldl (fun f r => f ||| r.2) acc.2.1, setSlot m.gk (m.slot.getD 0) (.some { z with d := d }) s)
    else
      let num := (mty ty).m * n
      let as := (List.range num).map fun e =>
        stepFrom (if first then numOf fp32 (tget 0 e m.cur).toNat else numOf e8m26 (tget 0 e m.acc).toNat) (terms (sc e) (row e) (col e))
      if last then
        let rs := as.map windowEnd
        (acc.1 ++ [{ m with cur := (List.range num).foldl (fun c e => tset 0 e (BitVec.ofNat 32 (rs.getD e (0, 0)).1) c) [], acc := [] }],
          rs.foldl (fun f r => f ||| r.2) acc.2.1, s)
      else
        (acc.1 ++ [{ m with acc := (List.range num).foldl (fun c e => tset 0 e (BitVec.ofNat 35 (as.getD e 0)) c) [] }], acc.2.1, s)

/-- The columns of B for a K-step: each from its position's own shape, with its slot's scale. -/
def mmCols (s : State) (ty k : Nat) (gs : List MmGroup) : List (Int × List (Option Num)) :=
  (List.range gs.length).flatMap fun i =>
    match gs[i]? with
    | .none => []
    | .some m =>
      let t := teamOfG m.gk
      let g := getGrid s (gridOfG m.gk)
      let book := codebook g m.b.slot.toNat
      (List.range (colCount ty i gs.length)).map fun j =>
        (slotScale (slotOf g.lr m.b.slot),
          (List.range (mty ty).k).map fun x => match getHandle s t m.hb with
            | .some hb => tileElem s t hb m.b ty book (k * (mty ty).k + x) (colLo ty i gs.length + j)
            | .none => .none)

/-- MMAS_K_STEP: one K-step, once every handle is full; the end after the last; the stop at a fill that ended with an error. DEDUCED: log entry 19. -/
def mmasStep (o : Op) (ty p k0 k kend : Nat) (gs : List MmGroup) (sets : List (Nat × Nat)) (s : State) : State :=
  let hs := mmHandles s gs
  if kend ≤ k then endMmas o ty gs sets false s
  else if hs.any fun h => match h with | .some x => x.err | .none => false then endMmas o ty gs sets true s
  else if hs.all fun h => match h with | .some x => x.st == .full | .none => false then
    let cols := mmCols s ty k gs
    let first := decide ((k - k0) % p = 0)
    let last := decide ((k - k0) % p = p - 1) || decide (k + 1 = kend)
    let r := gs.foldl (mmGroup ty k first last (cols.map (·.1)) (cols.map (·.2))) ([], 0, s)
    let s := gs.foldl (fun s m => orFpx m.gk r.2.1 s) (tick r.2.2)
    if k + 1 = kend then endMmas o ty r.1 sets false s else setOp o.id (.mmas ty p k0 (k + 1) kend r.1 sets) s
  else s

/-- R187, R190: the matrix engine performs one K-step of a streamed instruction. -/
def execMmasKStep (k : Nat) (s : State) : Out :=
  .next (match findOp s k with
    | .some o =>
      (match o.k with
      | .mmas ty p k0 i kend gs sets =>
        if enginesRun s o.gk && engineTurn s o then
          settleTeam (teamOfG o.gk) (mmasStep o ty p k0 i kend gs sets s)
        else s
      | _ => s)
    | .none => s)

/-! ## `accrel` (R191) -/

/-- The operation in flight that writes a slot. -/
def slotWriter (s : State) (gk n : Nat) : Option Nat :=
  (s.mm.ops.find? fun o => teamOfG o.gk == teamOfG gk && match o.k with
    | .matrix _ _ _ gs => gs.any fun m => m.slot == .some n && halfOf s m.gk == halfOf s gk
    | .mmas _ _ _ _ _ gs _ => gs.any fun m => m.slot == .some n && halfOf s m.gk == halfOf s gk
    | _ => false).map (·.id)

/-- The tile of a slot is written through a shape; elements outside its bounds are suppressed (R188). -/
def writeTile (t : Nat) (h : Handle) (sh : Shape) (d : Tab Word) (s : State) : State :=
  (List.range 384).foldl (fun s e =>
    let i := e / 24
    let j := e % 24
    if sh.ext.headD 0 ≤ i ∨ sh.ext.getLastD 0 ≤ j then s
    else
      let at_ : Int := (h.off : Int) + sh.base.toNat + (i : Int) * (sh.str.headD 0).toInt + (8 * j : Nat)
      stashWrite t at_.toNat (bytesOf 8 (tget 0 e d).toNat) s) s

def accrelForm (d : BitVec 6) (o : Option (Bool × Src)) : Form :=
  { uni := true, flds := (match o with | .some (_, b) => [fB true b true] | .none => []) ++ [⟨true, d, .plain, 4, true⟩]
    dv := .some d }

/-- The write of `accrel.st`: its checks in the order of R187, then every byte; none: no trap. -/
def accrelWrite (n : Nat) (x : Word) (s : State) : AccGot :=
  let gk := s.cur.gk
  let t := teamOfG gk
  let h := bits x 22 16
  let xs := bits x 15 0
  match getHandle s t h with
  | .none => .trap (trapAt s .handleFault 0 (word h))
  | .some y =>
    if isEngine y.st then .trap (trapAt s .handleBusy 0 (word h))
    else match getShape gk (denyOf s gk 0 true) xs s with
      | (.page q w, s) => absentPage true 0 .g (word (w * 65536)) false q w s
      | (.bad, s) => .trapIn (trapAt s .capFault 0 (capInfo 1 xs)) s
      | (.ok sh, s) =>
        let rows := rowParts y sh 16 24 64
        if stashShapeOk (recOf s gk) sh 0 true = false then .trapIn (trapAt s .capFault 0 (capInfo 1 xs)) s
        else if spanIn y (shapeSpan sh 64) = false then .trapIn (accessFault s.cur.pc (word y.off + sh.base) 1 .s true) s
        else match rows.findSome? fun r => busyTile s t r.1 r.2 with
          | .some k => .trapIn { trapAt s .handleBusy 0 (word k) with space := .s, wr := true } s
          | .none =>
            match issueWait true 0 .s (rows.map fun r => ⟨r.1, r.2, .rc⟩) false s with
            | .some w => .hold false w s
            | .none => match getSlot s gk n with
              | .some z => .ok (writeTile t y sh z.d s)
              | .none => .ok s

def accrelBody (d : BitVec 6) (o : Option (Bool × Src)) (v : List Word) (s : State) : AccGot :=
  let gk := s.cur.gk
  let F := accrelForm d o
  let x := v.getD 0 0
  let ref := if o.isSome then v.getD 1 0 else v.getD 0 0
  let free (n : Nat) (s : State) : State := writeDst gk 0 true d 0 false (commitStore 0 F (setSlot gk n .none s))
  match o with
  | .none =>
    if ref = 0 then .ok (commitStore 0 F s)
    else match refSlot s gk ref with
      | .none => .trap (trapAt s .slotFault 0 ref)
      | .some n => (match slotWriter s gk n with | .some id => .hold false (.agent id) s | .none => .ok (free n s))
  | .some (keep, _) =>
    if bits x 63 23 ≠ 0 then .trap (trapAt s .capFault 0 (capInfo 1 (bits x 15 0)))
    else match refSlot s gk ref with
      | .none => .trap (trapAt s .slotFault 0 ref)
      | .some n =>
        match slotWriter s gk n with
        | .some id => .hold false (.agent id) s
        | .none =>
          match accrelWrite n x s with
          | .ok s => .ok (if keep then commitStore 0 F s else free n s)
          | r => r

/-- R191: `accrel`. -/
def execAccrel (d : BitVec 6) (o : Option (Bool × Src)) (s : State) : Out :=
  accUni (accrelForm d o) (fun v _ s => accrelBody d o v s) s

end Sys2Proof.Machine
end

