-- ==== Sys2Proof/Machine/Comp.lean ====
section
/-! DEFINITION. Compositing records: `copen` (R192 to R194), `cadd` (R195, R196), their arrival in the order of R197, retirement (R198,
R199), `cflush`, `cclose`, `cread` (R200), `creplay` (R201). -/

namespace Sys2Proof.Machine

/-! ## FP32 arithmetic of the accumulator -/

def n32 (x : BitVec 32) : Num := numOf fp32 x.toNat
/-- One rounding to FP32, nearest even, subnormals kept. -/
def r32 (x : Num) : BitVec 32 := BitVec.ofNat 32 (nRound fp32 .rne false x).1
def mul32 (a b : BitVec 32) : Num := nProd (n32 a) (n32 b)
def sum32 (l : List Num) : BitVec 32 := r32 (nAlign .rne l)
def lt32 (a b : BitVec 32) : Bool := (opCmp fp32 .lt a.toNat b.toNat).1
def eq32 (a b : BitVec 32) : Bool := (opCmp fp32 .eq a.toNat b.toNat).1
def exp32 (x : BitVec 32) : BitVec 32 := BitVec.ofNat 32 (exp2F32 x.toNat).1
def nan32 : BitVec 32 := BitVec.ofNat 32 (fNaN fp32)
def one32 : BitVec 32 := 0x3F800000
def ninf32 : BitVec 32 := 0xFF800000

def words32 (bs : List Byte) : List (BitVec 32) := (List.range (bs.length / 4)).map fun i => BitVec.ofNat 32 (fieldOf bs (4 * i) 4)
def bytes32 (ws : List (BitVec 32)) : List Byte := ws.flatMap fun w => bytesOf 4 w.toNat

/-! ## Records (R192, R193) -/

def recKey (t half rid : Nat) : Nat := t * 1024 + 512 * half + rid
def getRec (s : State) (t half rid : Nat) : Option Rec := tget .none (recKey t half rid) s.recs
def setRec (t half rid : Nat) (r : Option Rec) (s : State) : State := { s with recs := tset .none (recKey t half rid) r s.recs }

/-- Word `i` of a working copy, and its change. -/
def rw (r : Rec) (i : Nat) : BitVec 32 := tget 0 i r.w
def setW (i : Nat) (x : BitVec 32) (r : Rec) : Rec := { r with w := tset 0 i x r.w }
def recImage (r : Rec) : List Byte := bytes32 ((List.range 16).map (rw r))
def isLse (r : Rec) : Bool := (rw r 6).getLsbD 4
def isOpaque (r : Rec) : Bool := (rw r 6).getLsbD 1
def hasRetired (r : Rec) : Bool := (rw r 6).getLsbD 2
def setFlag (i : Nat) (r : Rec) : Rec := setW 6 (rw r 6 ||| BitVec.ofNat 32 (2 ^ i)) r
def incW (i : Nat) (n : Nat) (r : Rec) : Rec := setW i (rw r i + BitVec.ofNat 32 n) r

/-- `last` and `retired` after a term that was not late. -/
def markLast (late : Bool) (key : BitVec 32) (r : Rec) : Rec := if late then r else setFlag 2 (setW 5 key r)

/-! ## Retirement (R198, R199) -/

/-- A record with the team's state: what an operation changes. -/
abbrev RS := Rec × State

def tapRec (r : Rec) (key : BitVec 32) (kind : Nat) (s : State) : State :=
  tapComp (ownerCore s r.team r.half) key.toNat kind (getTeam s r.team).ctx s

/-- A radiance term retires (R198). -/
def retireRad (late : Bool) (t : Term) (x : RS) : RS :=
  let r := x.1
  let tr := rw r 3
  let n := (rw r 10).toNat
  let y : RS :=
    if n < (rw r 9).toNat then
      (incW 10 1 r, stashWrite r.team ((rw r 8).toNat + 32 * n) (bytes32 [t.key, t.f0, t.f1, t.f2, t.f3, tr, 0, 0]) x.2)
    else (setFlag 3 r, x.2)
  let r := y.1
  let w := r32 (mul32 tr t.f0)
  let r := setW 0 (sum32 [n32 (rw r 0), mul32 w t.f1]) r
  let r := setW 1 (sum32 [n32 (rw r 1), mul32 w t.f2]) r
  let r := setW 2 (sum32 [n32 (rw r 2), mul32 w t.f3]) r
  let r := setW 3 (sum32 [n32 tr, nNeg (mul32 tr t.f0)]) r
  let r := markLast late t.key r
  let s := tapRec r t.key (if late then 1 else 0) y.2
  if lt32 (rw r 3) (rw r 4) then
    let s := r.buf.foldl (fun s b => tapRec r b.key 2 s) s
    let r := { incW 11 r.buf.length (setFlag 1 r) with buf := [] }
    (r, tapRec r t.key 3 s)
  else (r, s)

/-- A log-sum term retires with its vector (R199). -/
def retireLse (late : Bool) (t : Term) (vec : List (BitVec 32)) (x : RS) : RS :=
  let r := x.1
  let m := rw r 0
  let l := rw r 1
  let n := (rw r 4).toNat
  let ob := (rw r 8).toNat
  let s := tapRec r t.key (if late then 1 else 0) x.2
  if isNan (n32 m) || isNan (n32 t.f0) then
    (markLast late t.key (setW 0 nan32 (setW 1 nan32 r)), stashWrite r.team ob (bytes32 (List.replicate n nan32)) s)
  else
    let mn := if lt32 m t.f0 then t.f0 else m
    let a := if eq32 m mn then one32 else exp32 (sum32 [n32 m, nNeg (n32 mn)])
    let b := if eq32 t.f0 mn then one32 else exp32 (sum32 [n32 t.f0, nNeg (n32 mn)])
    let o := words32 (stashRead s r.team ob (4 * n))
    let o := (List.range n).map fun j => sum32 [mul32 a (o.getD j 0), mul32 b (vec.getD j 0)]
    (markLast late t.key (setW 0 mn (setW 1 (sum32 [mul32 a l, mul32 b t.f1]) r)), stashWrite r.team ob (bytes32 o) s)

/-- The place of a slot of the term area (R193). -/
def areaAt (r : Rec) (slot : Nat) : Nat := (rw r 9).toNat + slot * (4 * (rw r 4).toNat)

/-- A buffered term retires: a log-sum term's vector is read back from its slot. -/
def retire (t : Term) (x : RS) : RS :=
  if isLse x.1 then
    retireLse false t (words32 (stashRead x.2 x.1.team (areaAt x.1 t.slot) (4 * (rw x.1 4).toNat))) x
  else retireRad false t x

/-- Every buffered term, in key order; a record that turns opaque has none left. -/
def retireAll : Nat → RS → RS
  | 0, x => x
  | k + 1, x =>
    match x.1.buf with
    | [] => x
    | t :: ts => retireAll k (retire t ({ x.1 with buf := ts }, x.2))

/-- Terms in key order, equal keys by arrival. -/
def insertTerm (t : Term) : List Term → List Term
  | [] => [t]
  | u :: us => if t.key.toNat < u.key.toNat then t :: u :: us else u :: insertTerm t us

/-- A log-sum term takes a free slot of the term area and its place in the buffer. -/
def bufferLse (t : Term) (vec : List (BitVec 32)) (x : RS) : RS :=
  let r := x.1
  let free := (List.range 8).filter fun k => r.buf.all fun u => u.slot != k
  let k := free.getD (Config.freeSlot x.2.fresh % free.length) 0
  ({ r with buf := insertTerm { t with slot := k } r.buf }, tick (stashWrite r.team (areaAt r k) (bytes32 vec) x.2))

/-- A term arrives (R197): whether pd is true, and the record. DEDUCED: log entry 20. -/
def arriveTerm (t : Term) (vec : List (BitVec 32)) (x : RS) : Bool × RS :=
  let r := x.1
  if isOpaque r then (false, (incW 11 1 r, tapRec r t.key 2 x.2))
  else if hasRetired r && decide (t.key.toNat < (rw r 5).toNat) then
    let y : RS := (incW 7 1 r, x.2)
    (true, if isLse r then retireLse true t vec y else retireRad true t y)
  else if isLse r then
    if r.buf.length < 8 then (true, bufferLse t vec x)
    else if r.buf.all fun u => decide (t.key.toNat < u.key.toNat) then (true, retireLse false t vec x)
    else match r.buf with
      | u :: us => (true, bufferLse t vec (retire u ({ r with buf := us }, x.2)))
      | [] => (true, x)
  else
    match insertTerm t r.buf with
    | u :: us => if us.length < 8 then (true, ({ r with buf := u :: us }, x.2)) else (true, retireRad false u ({ r with buf := us }, x.2))
    | [] => (true, x)

/-! ## Opening (R194) -/

/-- The bytes of a stash range as a thread reads it (R122). -/
inductive StashGot
  | trap (t : TrapRec)
  | ok (bs : List Byte)

def stashGet (s : State) (off n : Nat) : StashGot :=
  let t := teamOfG s.cur.gk
  if windowOf s t < off + n then .trap (accessFault s.cur.pc (word off) 1 .s false)
  else match busyTile s t off n with
    | .some h => .trap { trapAt s .handleBusy 0 (word h) with space := .s }
    | .none =>
      if stashBad s t off n then .trap { trapAt s .dataUncorr (word off) s.cur.pc with space := .s }
      else .ok (stashRead s t off n)

/-- The areas of a record to be opened: the record, then the log, or the o vector and the term area (R193). -/
def recAreas (lse : Bool) (off : Nat) (w : List (BitVec 32)) : List (Nat × Nat) :=
  let f (i : Nat) : Nat := (w.getD i 0).toNat
  (off, 64) :: if lse then [(f 8, 4 * f 4), (f 9, 32 * f 4)] else [(f 8, 32 * f 9)]

/-- The COMP_FAULT cases of R194 that the record's words decide. DEDUCED: log entry 20. -/
def recWordsBad (lse : Bool) (w : List (BitVec 32)) : Bool :=
  let f (i : Nat) : Nat := (w.getD i 0).toNat
  [12, 13, 14, 15].any (fun i => f i != 0)
    || (if lse then f 4 == 0 || decide (64 < f 4) || f 8 % 4 != 0 || f 9 % 4 != 0 else isNan (n32 (w.getD 4 0)) || f 8 % 32 != 0)

/-- The initial working copy (R193). -/
def recStart (lse : Bool) (w : List (BitVec 32)) : Tab (BitVec 32) :=
  let l : List (BitVec 32) := if lse then [ninf32, 0, 0, 0, w.getD 4 0, 0, 0x11, 0, w.getD 8 0, w.getD 9 0, 0, 0]
    else [0, 0, 0, one32, w.getD 4 0, 0, 0x01, 0, w.getD 8 0, w.getD 9 0, 0, 0]
  (List.range 12).foldl (fun t i => tset 0 i (l.getD i 0) t) []

/-- The records that are being opened: issued, not yet in their place (R258); core, id, team and offset of each. -/
def openings (s : State) : List (Nat × Nat × Nat × Nat) :=
  s.mm.ops.filterMap fun o => match o.k with | .rop t .none _ (.copen _ rid off _ _) => .some (coreOf s o.gk, rid, t, off) | _ => .none

/-- The ids that a context does not use on a core, and the open records of the core's resident teams (R192). -/
def freeRecs (s : State) (gk : Nat) : List Nat × Nat :=
  let core := coreOf s gk
  let here := (s.recs.filterMap fun p => match p.2 with
    | .some r => if ownerCore s r.team r.half = core then .some (p.1 % 512, r.team) else .none
    | .none => .none) ++ ((openings s).filter fun p => p.1 == core).map fun p => (p.2.1, p.2.2.1)
  ((List.range 512).filter fun n => !here.any fun x => x.1 == n && (getTeam s x.2).ctx == ctxOf s gk,
    (here.filter fun x => (getTeam s x.2).st == .resident).length)

/-- Whether a record of a team is open at an offset, or is being opened there. -/
def openAt (s : State) (t off : Nat) : Bool :=
  (s.recs.any fun p => match p.2 with | .some r => r.team == t && r.off == off | .none => false)
    || (openings s).any fun p => p.2.2 == (t, off)

/-- `copen` takes its place (R193, R194, R258): the program fields are read, the initial values written. -/
def openRec (t half rid off h : Nat) (lse : Bool) (s : State) : State :=
  let w := words32 (stashRead s t off 64)
  let n := (w.getD 4 0).toNat
  let r : Rec := { team := t, half := half, off := off, h := h, w := recStart lse w
                   area := if lse then stashRead s t (w.getD 9 0).toNat (32 * n) else [] }
  let s := stashWrite t off (recImage r) (setRec t half rid (.some r) s)
  if lse then stashWrite t (w.getD 8 0).toNat (List.replicate (4 * n) 0) s else s

def copenForm (d : BitVec 6) (a : Src) : Form := { uni := false, flds := [fA false a true], dv := .some d }

/-- The checks of R194 in order; a log of no entries must lie in the tile as well; a context without a free record id, because its saved
teams hold them, takes COMP_FAULT as one does that finds 512 records open. DESIGN CHOICE: log entry 49. -/
def copenBody (F : Form) (d : BitVec 6) (lse : Bool) (h : Nat) (v : List Word) (tid : Nat) (s : State) : AccGot :=
  let gk := s.cur.gk
  let t := teamOfG gk
  let off := (v.getD 0 0).toNat
  if off % 64 ≠ 0 then .trap { trapAt s .misalign (word off) 0 with space := .s }
  else match getHandle s t h with
    | .none => .trap (trapAt s .handleFault 0 (word h))
    | .some y =>
      let other := (getTeam s t).handles.any fun p => match p.2 with
        | .some z => tilesMeet y.off z.off y.size z.size && ((p.1 != h && isEngine z.st) || decide (0 < z.mm))
        | .none => false
      if y.st = .draining ∨ (y.st = .filling ∧ y.recs = 0) ∨ other = true then .trap (trapAt s .handleBusy 0 (word h))
      else
        let w := words32 (stashRead s t off 64)
        let inTile (a : Nat × Nat) : Bool := decide (y.off ≤ a.1 ∧ a.1 + a.2 ≤ y.off + y.size)
        match (recAreas lse off w).find? fun a => !inTile a with
        | .some a => .trap (accessFault s.cur.pc (word a.1) 1 .s false)
        | .none =>
          let fr := freeRecs s gk
          if recWordsBad lse w || decide (512 ≤ fr.2) || fr.1.isEmpty || openAt s t off then
            .trap (trapAt s .compFault 0 (word off))
          else match issueWait false tid .s [⟨off, 64, .rc⟩] false s with
            | .some q => .hold false q s
            | .none =>
              if stashBad s t off 64 then .trap { trapAt s .dataUncorr (word off) s.cur.pc with space := .s }
              else
                let c := pick fr.1 0 s
                let s := setHandle t h { y with st := .filling, recs := y.recs + 1 } c.2
                .ok (addOp gk tid s.cur.pc (.rop t .none false (.copen d c.1 off h lse)) (commitLong tid F s))

/-- R194: `copen`. -/
def execCopen (d : BitVec 6) (a : Src) (l : Bool) (h : BitVec 7) (s : State) : Out :=
  accLane (copenForm d a) (copenBody (copenForm d a) d l h.toNat) s

/-! ## Terms (R195, R196) -/

/-- The record that an id names for a thread: open, of its team, on its core. -/
def ownRec (s : State) (gk rid : Nat) : Option Rec := getRec s (teamOfG gk) (halfOf s gk) rid

/-- A `cclose` of the thread that has not arrived yet: what follows it must see the record closed. -/
def closing (s : State) (gk tid rid : Nat) : Option Nat :=
  (s.mm.ops.find? fun o => o.gk == gk && o.tid == tid && match o.k with | .rop _ .none _ (.cclose r) => r == rid | _ => false).map (·.id)

def caddForm (p : BitVec 3) (a b c : Src) : Form :=
  { uni := false, flds := [fA false a true, fB false b true, fC false c true], dp := .some p }

/-- The vector of a log-sum term, read before the thread continues. -/
def readVec (tid off n : Nat) (s : State) : AccGot ⊕ List (BitVec 32) :=
  match stashGet s off (4 * n) with
  | .trap t => .inl (.trap t)
  | .ok bs => match issueWait false tid .s [⟨off, 4 * n, .rc⟩] false s with
    | .some w => .inl (.hold false w s)
    | .none => .inr (words32 bs)

def caddBody (F : Form) (p : BitVec 3) (chan : Option Nat) (v : List Word) (tid : Nat) (s : State) : AccGot :=
  let gk := s.cur.gk
  let t := teamOfG gk
  let a := v.getD 0 0
  let b := v.getD 1 0
  let c := v.getD 2 0
  let rid := bits a 8 0
  let np := bits c 63 32
  let term (lse : Bool) (vec : List (BitVec 32)) : RecOp :=
    if lse then .cadd p rid true (lo32 b) (hi32 b) (lo32 c) 0 0 vec
    else .cadd p rid false (lo32 b) (hi32 b) (lo32 c) (hi32 c) (hi32 a) []
  let send (target : Nat) (op : RecOp) (s : State) : AccGot :=
    match issueWait false tid .s [] false s with
    | .some w => .hold false w s
    | .none =>
      let s := match chan with | .some n => charge t n 1 s | .none => s
      .ok (addOp gk tid s.cur.pc (.rop target chan false op) (commitLong tid F s))
  match chan with
  | .none =>
    (match closing s gk tid rid with
    | .some id => .hold false (.agent id) s
    | .none =>
      match ownRec s gk rid with
      | .none => .trap (trapAt s .compFault 0 (word rid))
      | .some r =>
        if !isLse r then send t (term false []) s
        else if np ≠ (rw r 4).toNat then .trap (trapAt s .compFault 0 (word rid))
        else match readVec tid (bits a 63 32) np s with
          | .inl g => g
          | .inr vec => send t (term true vec) s)
  | .some n =>
    match capOf s gk n with
    | .none => .trap (capFault s n)
    | .some e =>
      let tt := bits e.operand 31 0
      let lse := bitAt e.operand 32
      if e.kind ≠ .comp ∨ e.s = false ∨ (recOf s gk).teams ≤ tt ∨ allowOf s t n = 0 then .trap (capFault s n)
      else
        let go (vec : List (BitVec 32)) : AccGot := send (teamKey (gridOfG gk) tt) (term lse vec) s
        if !lse then go []
        else if np = 0 ∨ 64 < np then .trap (trapAt s .compFault 0 (word rid))
        else match readVec tid (bits a 63 32) np s with
          | .inl g => g
          | .inr vec => go vec

/-- R195: `cadd`, local or through a capability entry. -/
def execCadd (p : BitVec 3) (a b c : Src) (n : Option (BitVec 6)) (s : State) : Out :=
  accLane (caddForm p a b c) (caddBody (caddForm p a b c) p (n.map (·.toNat))) s

/-! ## Flushing, closing, reading (R200) -/

/-- The common part of R200: the record is open for the team; the operation is sent to it. Bits of va above the id are ignored, as in `cadd`.
DESIGN CHOICE: log entry 49. -/
def recOpBody (F : Form) (op : Nat → RecOp) (v : List Word) (tid : Nat) (s : State) : AccGot :=
  let gk := s.cur.gk
  let rid := bits (v.getD 0 0) 8 0
  match closing s gk tid rid with
  | .some id => .hold false (.agent id) s
  | .none =>
    match ownRec s gk rid with
    | .none => .trap (trapAt s .compFault 0 (word rid))
    | .some _ =>
      match issueWait false tid .s [] false s with
      | .some w => .hold false w s
      | .none => .ok (addOp gk tid s.cur.pc (.rop (teamOfG gk) .none false (op rid)) (commitLong tid F s))

/-- R200: `cflush`. -/
def execCflush (a : Src) (s : State) : Out :=
  let F : Form := { uni := false, flds := [fA false a true] }
  accLane F (recOpBody F .cflush) s
/-- R200: `cclose`. -/
def execCclose (a : Src) (s : State) : Out :=
  let F : Form := { uni := false, flds := [fA false a true] }
  accLane F (recOpBody F .cclose) s
/-- R200: `cread`. -/
def execCread (d : BitVec 6) (a : Src) (k : BitVec 3) (s : State) : Out :=
  accLane (copenForm d a) (recOpBody (copenForm d a) fun r => .cread d r k.toNat) s

/-! ## Arrival (R197, R202, R257) -/

/-- A predicate destination completes. -/
def completeP (gk tid : Nat) (p : BitVec 3) (b : Bool) (s : State) : State :=
  if aliveG s gk then setP (threadKey gk tid) p ⟨b, false⟩ s else s

/-- The record is written to the stash: its working copy (the o vector already stands there). -/
def writeRec (r : Rec) (s : State) : State := stashWrite r.team r.off (recImage r) s

/-- What the term area of a closed log-sum record holds: byte by byte its value at `copen` or a byte of a term's vector (R193). -/
def leaveArea (r : Rec) (s : State) : State :=
  let base := (rw r 9).toNat
  let cur := stashRead s r.team base r.area.length
  if r.area.isEmpty then s
  else tick (stashWrite r.team base ((List.range r.area.length).map fun i =>
    if Config.choice (s.fresh + i) % 2 = 0 then r.area.getD i 0 else cur.getD i 0) s)

/-- A record closes: its id is free, its handle full with the last (R192, R200). DEDUCED: log entry 20. -/
def closeRec (t half rid : Nat) (r : Rec) (s : State) : State :=
  let r := setW 6 (rw r 6 &&& 0xFFFFFFFE) r
  let s := leaveArea r (writeRec r (setRec t half rid .none s))
  let s := match getHandle s t r.h with
    | .some y => setHandle t r.h { y with recs := y.recs - 1, st := if y.recs ≤ 1 then .full else y.st } s
    | .none => s
  settleTeam t s

/-- A term that R196 discards: the event of its target (R325), and its predicate false. -/
def discardTerm (o : Op) (t half : Nat) (p : BitVec 3) (key : BitVec 32) (s : State) : State :=
  completeP o.gk o.tid p false (tapComp (ownerCore s t half) key.toNat 2 (getTeam s t).ctx s)

/-- The operation is applied to its record. Where another thread's `cclose` has come before it, a `cread` completes with 0, and a local
`cadd` is discarded. DESIGN CHOICE: log entry 49. -/
def applyRec (o : Op) (t half : Nat) (k : RecOp) (s : State) : State :=
  match k with
  | .copen d rid off h lse =>
    if aliveG s o.gk then complete o.gk o.tid false d (word rid) (openRec t half rid off h lse s) else s
  | .cadd p rid lse key f0 f1 f2 f3 vec =>
    (match getRec s t half rid with
    | .none => discardTerm o t half p key s
    | .some r =>
      if isLse r != lse || (lse && decide (vec.length ≠ (rw r 4).toNat)) then discardTerm o t half p key s
      else
        let y := arriveTerm ⟨key, f0, f1, f2, f3, 0⟩ vec (r, s)
        completeP o.gk o.tid p y.1 (setRec t half rid (.some y.2.1) y.2.2))
  | .cflush rid =>
    (match getRec s t half rid with
    | .none => s
    | .some r => let y := retireAll 9 (r, s); writeRec y.1 (setRec t half rid (.some y.1) y.2))
  | .cclose rid =>
    (match getRec s t half rid with
    | .none => s
    | .some r => let y := retireAll 9 (r, s); closeRec t half rid y.1 y.2)
  | .cread d rid i =>
    if !aliveG s o.gk then s
    else match getRec s t half rid with
      | .none => complete o.gk o.tid false d 0 s
      | .some r => complete o.gk o.tid false d (word (fieldOf (recImage r) (8 * i) 8)) s

/-- An operation that must arrive before another one: of the same thread or the same issue, on the same channel (R197). -/
def arrivesFirst (o p : Op) : Bool :=
  p.gk == o.gk && (p.tid == o.tid || p.iss == o.iss) && decide (p.id < o.id) && match o.k, p.k with
    | .rop _ c _ _, .rop _ d held _ => c == d && !held
    | _, _ => false

/-- The first operation held for a team. -/
def firstHeld (s : State) (t : Nat) : Option Nat :=
  (s.mm.ops.find? fun o => match o.k with | .rop u _ h _ => u == t && h | _ => false).map (·.id)

/-- RECORD_OPERATION_ARRIVAL: applied, or held while its team is not resident, in arrival order (R202, R257); a team that has never been
placed has no record open. DESIGN CHOICE: log entry 49. -/
def arriveOp (o : Op) (t : Nat) (chan : Option Nat) (held : Bool) (k : RecOp) (s : State) : State :=
  let x := getTeam s t
  let half := if chan.isNone then halfOf s o.gk else 0
  if s.mm.ops.any (arrivesFirst o) then s
  else if x.st = .ended ∨ x.st = .queued then applyRec o t half k (dropOp o.id s)
  else if x.st = .resident then
    if (firstHeld s t).isNone || firstHeld s t == .some o.id then applyRec o t half k (dropOp o.id s) else s
  else if held then s
  else { s with mm := { s.mm with ops := (s.mm.ops.filter fun p => p.id != o.id) ++ [{ o with k := .rop t chan true k }] } }

/-- R197: a term or record operation reaches the accumulator. DEDUCED: log entry 20. -/
def execRecordOperationArrival (k : Nat) (s : State) : Out :=
  .next (match findOp s k with
    | .some o => (match o.k with | .rop t c h r => arriveOp o t c h r s | _ => s)
    | .none => s)

/-! ## `creplay` (R201) -/

/-- The gradient row of a log entry and the next U. -/
def replayStep (g u : List (BitVec 32)) (e : List (BitVec 32)) : List (BitVec 32) × List (BitVec 32) :=
  let al := e.getD 1 0
  let c := e.drop 2
  let t := e.getD 5 0
  let gt := (List.range 3).map fun j => r32 (mul32 (g.getD j 0) t)
  let gc := (List.range 3).map fun j => r32 (mul32 (gt.getD j 0) al)
  let d := (List.range 3).map fun j => sum32 [n32 (c.getD j 0), nNeg (n32 (u.getD j 0))]
  let ga := sum32 ((List.range 3).map fun j => mul32 (gt.getD j 0) (d.getD j 0))
  (gc ++ [ga], (List.range 3).map fun j =>
    sum32 [mul32 al (c.getD j 0), n32 (u.getD j 0), nNeg (mul32 al (u.getD j 0))])

/-- The rows of entries i − 1 down to 0 and U, written through the shape. -/
def replayRows (t base : Nat) (y : Handle) (sh : Shape) (g : List (BitVec 32)) : Nat → List (BitVec 32) → State → State
  | 0, _, s => s
  | i + 1, u, s =>
    let r := replayStep g u (words32 (stashRead s t (base + 32 * i) 32))
    let s := if sh.ext.headD 0 ≤ i then s
      else
        let at_ : Int := (y.off : Int) + sh.base.toNat + (i : Int) * (sh.str.headD 0).toInt
        stashWrite t at_.toNat (bytes32 (r.1.take (min 4 (sh.ext.getLastD 0)))) s
    replayRows t base y sh g i r.2 s

def creplayForm (d : BitVec 6) (a b : Src) : Form := { uni := false, flds := [fA false a true, fB false b true], dv := .some d }

/-- The checks of R201 in order, those of reading the log after COMP_FAULT; vb is not checked for alignment. DESIGN CHOICE: log entry 49. -/
def creplayBody (F : Form) (d : BitVec 6) (x h : Nat) (v : List Word) (tid : Nat) (s : State) : AccGot :=
  let gk := s.cur.gk
  let t := teamOfG gk
  let off := (v.getD 0 0).toNat
  let bo := (v.getD 1 0).toNat
  let win := windowOf s t
  if win < off + 64 then .trap (accessFault s.cur.pc (word off) 1 .s false)
  else if win < bo + 24 then .trap (accessFault s.cur.pc (word bo) 1 .s false)
  else match stashGet s off 64, stashGet s bo 24 with
    | .trap q, _ => .trap q
    | .ok _, .trap q => .trap q
    | .ok rb, .ok bb =>
      let w := words32 rb
      let blk := words32 bb
      let fl := w.getD 6 0
      let lb := (w.getD 8 0).toNat
      let n := (w.getD 10 0).toNat
      if fl.getLsbD 0 || fl.getLsbD 4 || fl.getLsbD 3 then .trap (trapAt s .compFault 0 (word off))
      else match (if n = 0 then StashGot.ok [] else stashGet s lb (32 * n)) with
        | .trap q => .trap q
        | .ok _ =>
          match getHandle s t h with
          | .none => .trap (trapAt s .handleFault 0 (word h))
          | .some y =>
            match getShape gk (denyOf s gk tid false) x s with
            | (.page q p, s) => absentPage false tid .g (word (p * 65536)) false q p s
            | (.bad, s) => .trapIn (trapAt s .capFault 0 (capInfo 1 x)) s
            | (.ok sh, s) =>
              let rows := rowParts y sh n 4 32
              if stashShapeOk (recOf s gk) sh 1 true = false then .trapIn (trapAt s .capFault 0 (capInfo 1 x)) s
              else if spanIn y (shapeSpan sh 32) = false then .trapIn (accessFault s.cur.pc (word y.off + sh.base) 1 .s true) s
              else match rows.findSome? fun r => busyTile s t r.1 r.2 with
                | .some k => .trapIn { trapAt s .handleBusy 0 (word k) with space := .s, wr := true } s
                | .none =>
                  match issueWait false tid .s (⟨off, 64, .rc⟩ :: ⟨bo, 24, .rc⟩ :: ⟨lb, 32 * n, .rc⟩ ::
                      rows.map fun r => ⟨r.1, r.2, .rc⟩) false s with
                  | .some q => .hold false q s
                  | .none =>
                    let s := replayRows t lb y sh (blk.take 3) n (blk.drop 3) (commitLong tid F s)
                    .ok (addOp gk tid s.cur.pc (.creplay d n) s)

/-- R201: `creplay`. -/
def execCreplay (d : BitVec 6) (a b : Src) (x : BitVec 16) (h : BitVec 7) (s : State) : Out :=
  accLane (creplayForm d a b) (creplayBody (creplayForm d a b) d x.toNat h.toNat) s

/-- R201: a `creplay` completes. -/
def execCreplayCompletion (k : Nat) (s : State) : Out :=
  .next (match findOp s k with
    | .some o => (match o.k with | .creplay d n => complete o.gk o.tid false d (word n) (dropOp k s) | _ => s)
    | .none => s)

end Sys2Proof.Machine
end

