-- ==== Sys2Proof/Machine/GlossSet.lean ====
section
/-! DEFINITION. The Gloss instruction set (R336 to R341): each instruction of the run in progress on the unit that `State.gsel` names. -/

namespace Sys2Proof.Machine

/-! ## Registers and windows (R324, R329) -/

def gReg (u : GUnit) (r : BitVec 4) : BitVec 32 := if r = 0 then 0 else tget 0 r.toNat u.g
/-- Writes to g0 are discarded. -/
def setG (r : BitVec 4) (x : BitVec 32) (u : GUnit) : GUnit := if r = 0 then u else { u with g := tset 0 r.toNat x u.g }

/-- The gloss memory word of word `i` of a tenant's window. -/
def winAt (u : GUnit) (o : Nat) (i : BitVec 32) : Nat :=
  match tget .none o u.ten with | .some t => t.wbase + i.toNat % 2 ^ t.wlog | .none => i.toNat % 256
def winGet (u : GUnit) (o : Nat) (i : BitVec 32) : BitVec 32 := tget 0 (winAt u o i) u.mem
def winSet (o : Nat) (i x : BitVec 32) (u : GUnit) : GUnit := { u with mem := tset 0 (winAt u o i) x u.mem }
/-- A count that saturates. -/
def satInc (x : BitVec 32) : BitVec 32 := if x = 0xFFFFFFFF then x else x + 1

/-- The owner of an attachment. -/
def ownerOf (u : GUnit) (k : Nat) : Nat := match tget .none k u.att with | .some a => a.owner | .none => 64
def lenOf (u : GUnit) (k : Nat) : Nat := match tget .none k u.att with | .some a => a.len | .none => 0

/-! ## Runs (R333, R336, R337) -/

/-- GLOSS_DRAIN.busy reads 0 once every earlier pair has been run or dropped (R334). -/
def settleDrain (u : GUnit) : GUnit :=
  match u.drain with
  | .some n => if u.run.isNone && u.q.all fun p => decide (n ≤ p.n) then { u with drain := .none } else u
  | .none => u

/-- A run ends: it is counted. -/
def endRun (k : Nat) (u : GUnit) : GUnit :=
  let o := ownerOf u k
  settleDrain { u with run := .none, runs := tset 0 k (tget 0 k u.runs + 1) u.runs, total := tset 0 o (tget 0 o u.total + 1) u.total }

/-- What one instruction does to the run in progress: its effect, one unit of budget, the next word; past the last word, or with no next
word, the run ends. -/
def glossStep (f : GRun → GUnit → GUnit × Option Nat) (s : State) : Out :=
  match s.gsel with
  | .none => .next s
  | .some die =>
    let u := getUnit s die
    match u.run with
    | .none => .next { s with gsel := .none }
    | .some r =>
      let o := ownerOf u r.k
      let x := f r { u with left := tset 0 o (tget 0 o u.left - 1) u.left }
      match x.2 with
      | .some pc =>
        if pc < lenOf u r.k then .next (setUnit die { x.1 with run := .some { r with pc := pc } } s)
        else .next { setUnit die (endRun r.k x.1) s with gsel := .none }
      | .none => .next { setUnit die (endRun r.k x.1) s with gsel := .none }

/-- An instruction that writes gd. -/
def glossD (d : BitVec 4) (f : GUnit → BitVec 32) (s : State) : Out :=
  glossStep (fun r u => (setG d (f u) u, .some (r.pc + 1))) s
def gloss2 (d a b : BitVec 4) (f : BitVec 32 → BitVec 32 → BitVec 32) (s : State) : Out :=
  glossD d (fun u => f (gReg u a) (gReg u b)) s
/-- A forward branch. -/
def glossBr (a b : BitVec 4) (t : BitVec 6) (c : BitVec 32 → BitVec 32 → Bool) (s : State) : Out :=
  glossStep (fun r u => (u, .some (if c (gReg u a) (gReg u b) then r.pc + t.toNat else r.pc + 1))) s

def imm18 (i : BitVec 18) : BitVec 32 := i.signExtend 32

/-! ## Meanings (R336) -/

/-- R336: `gadd`. -/
def execGadd (d a b : BitVec 4) (s : State) : Out := gloss2 d a b (· + ·) s
/-- R336: `gsub`. -/
def execGsub (d a b : BitVec 4) (s : State) : Out := gloss2 d a b (· - ·) s
/-- R336: `gand`. -/
def execGand (d a b : BitVec 4) (s : State) : Out := gloss2 d a b (· &&& ·) s
/-- R336: `gor`. -/
def execGor (d a b : BitVec 4) (s : State) : Out := gloss2 d a b (· ||| ·) s
/-- R336: `gxor`. -/
def execGxor (d a b : BitVec 4) (s : State) : Out := gloss2 d a b (· ^^^ ·) s
/-- R336: `gshl`: 0 when the count is 32 or more. -/
def execGshl (d a b : BitVec 4) (s : State) : Out := gloss2 d a b (fun x y => if 32 ≤ y.toNat then 0 else x <<< y.toNat) s
/-- R336: `gshr`: 0 when the count is 32 or more. -/
def execGshr (d a b : BitVec 4) (s : State) : Out := gloss2 d a b (fun x y => if 32 ≤ y.toNat then 0 else x >>> y.toNat) s
/-- R336: `gmin`. -/
def execGmin (d a b : BitVec 4) (s : State) : Out := gloss2 d a b (fun x y => if x.ult y then x else y) s
/-- R336: `gmax`. -/
def execGmax (d a b : BitVec 4) (s : State) : Out := gloss2 d a b (fun x y => if x.ult y then y else x) s
/-- R336: `gmul`. -/
def execGmul (d a b : BitVec 4) (s : State) : Out := gloss2 d a b (· * ·) s
/-- R336: `gmovi`. -/
def execGmovi (d : BitVec 4) (i : BitVec 18) (s : State) : Out := glossD d (fun _ => imm18 i) s
/-- R336: `gaddi`. -/
def execGaddi (d a : BitVec 4) (i : BitVec 18) (s : State) : Out := glossD d (fun u => gReg u a + imm18 i) s
/-- R336: `gandi`. -/
def execGandi (d a : BitVec 4) (i : BitVec 18) (s : State) : Out := glossD d (fun u => gReg u a &&& i.setWidth 32) s
/-- R336: `gshli`. -/
def execGshli (d a : BitVec 4) (i : BitVec 18) (s : State) : Out := glossD d (fun u => if 32 ≤ i.toNat then 0 else gReg u a <<< i.toNat) s
/-- R336: `gshri`. -/
def execGshri (d a : BitVec 4) (i : BitVec 18) (s : State) : Out := glossD d (fun u => gReg u a >>> i.toNat) s
/-- R336: `gld`. -/
def execGld (d a : BitVec 4) (i : BitVec 18) (s : State) : Out :=
  glossStep (fun r u => (setG d (winGet u (ownerOf u r.k) (gReg u a + imm18 i)) u, .some (r.pc + 1))) s
/-- R336: `gst`. -/
def execGst (d a : BitVec 4) (i : BitVec 18) (s : State) : Out :=
  glossStep (fun r u => (winSet (ownerOf u r.k) (gReg u a + imm18 i) (gReg u d) u, .some (r.pc + 1))) s
/-- R336: `gbeq`. -/
def execGbeq (a b : BitVec 4) (t : BitVec 6) (s : State) : Out := glossBr a b t (fun x y => x == y) s
/-- R336: `gbne`. -/
def execGbne (a b : BitVec 4) (t : BitVec 6) (s : State) : Out := glossBr a b t (fun x y => x != y) s
/-- R336: `gblt`. -/
def execGblt (a b : BitVec 4) (t : BitVec 6) (s : State) : Out := glossBr a b t (fun x y => x.ult y) s
/-- R336: `gbge`. -/
def execGbge (a b : BitVec 4) (t : BitVec 6) (s : State) : Out := glossBr a b t (fun x y => !x.ult y) s
/-- R336: `gbr`. -/
def execGbr (t : BitVec 6) (s : State) : Out := glossStep (fun r u => (u, .some (r.pc + t.toNat))) s
/-- R336: `gend`. -/
def execGend (s : State) : Out := glossStep (fun _ u => (u, .none)) s

/-! ## Counts and sketches (R338 to R340) -/

/-- `Hash` (R339). -/
def glossHash (x y : BitVec 32) : BitVec 32 :=
  let h := x ^^^ (y * 0x9E3779B9)
  let h := (h ^^^ (h >>> 16)) * 0x85EBCA6B
  let h := (h ^^^ (h >>> 13)) * 0xC2B2AE35
  h ^^^ (h >>> 16)

/-- R339: `ghash`. -/
def execGhash (d a b : BitVec 4) (s : State) : Out := gloss2 d a b glossHash s

/-- R338: `ghist`: a saturating count. -/
def execGhist (d a b : BitVec 4) (s : State) : Out :=
  glossStep (fun r u =>
    let o := ownerOf u r.k
    let i := gReg u a + gReg u b
    let w := satInc (winGet u o i)
    (setG d w (winSet o i w u), .some (r.pc + 1))) s

def heldIn (lo hi x : Nat) : Nat := if x < lo then lo else if hi < x then hi else x

/-- R339: `gcms`: one count in each of four rows; the least of them. -/
def execGcms (d a b : BitVec 4) (s : State) : Out :=
  glossStep (fun r u =>
    let o := ownerOf u r.k
    let x := gReg u a
    let y := gReg u b
    let k := heldIn 1 14 ((winGet u o y).toNat % 16)
    let z := (List.range 4).foldl (fun (acc : GUnit × BitVec 32) row =>
      let i := y + 1 + BitVec.ofNat 32 (row * 2 ^ k + (glossHash x (BitVec.ofNat 32 row)).toNat % 2 ^ k)
      let w := satInc (winGet acc.1 o i)
      (winSet o i w acc.1, if w.ult acc.2 then w else acc.2)) (u, 0xFFFFFFFF)
    (setG d z.2 z.1, .some (r.pc + 1))) s

/-- Leading zeros of a 32-bit word. -/
def clz32 (x : BitVec 32) : Nat := if x = 0 then 32 else 31 - Nat.log2 x.toNat

/-- R340: `ghll`. -/
def execGhll (d a b : BitVec 4) (s : State) : Out :=
  glossStep (fun r u =>
    let o := ownerOf u r.k
    let y := gReg u b
    let p := heldIn 4 14 ((winGet u o y).toNat % 16)
    let h := glossHash (gReg u a) 0
    let rank := min (clz32 (h <<< p) + 1) (33 - p)
    let i := y + 1 + (h >>> (32 - p))
    if (winGet u o i).toNat < rank then (setG d 1 (winSet o i (BitVec.ofNat 32 rank) u), .some (r.pc + 1))
    else (setG d 0 u, .some (r.pc + 1))) s

/-! ## Triggers (R341) -/

/-- The next host token of a virtual device: n32, starting at 1, 0 skipped (R391). -/
def nextHostTok (s : State) (v : Nat) : Nat := let n := tget 0 v s.vs.hostTok; if 2 ^ 32 - 1 ≤ n then 1 else n + 1
/-- The next host token is given: with it no earlier launch is meant any more, should it wrap (R392). -/
def giveHostTok (v : Nat) (s : State) : State :=
  let tok := nextHostTok s v
  { s with vs := { s.vs with hostTok := tset 0 v tok s.vs.hostTok, hostEnded := s.vs.hostEnded.filter fun p => p != (v, tok) } }

/-- The running launch of a virtual device with a host token. -/
def hostGrid (s : State) (v tok : Nat) : Option Nat :=
  (s.grid.find? fun p => vdevOf s p.2.ctx == v && p.2.hostTok == tok && tok != 0 && p.2.status.isNone).map Prod.fst

/-- The unit reads a launch record under the slice masks of its tenant's device (R276, R310). DEDUCED: log entry 16. -/
def recordOutside (s : State) (o pa : Nat) : Bool :=
  (List.range 256).any fun i => isHbm (pa + i) && !sliceOk s o (pa + i)

/-- A delivery: the state with it, or nothing when it fails; and the token of an appended launch. -/
def deliver (o k i : Nat) (t : Trig) (x : BitVec 32) (s : State) : Option (State × Nat) :=
  match t.kind with
  | 1 => .some ({ s with hs := { s.hs with irq := s.hs.irq ++ [(o, 8 + t.sel)] } }, 0)
  | 2 =>
    (match hostGrid s o (t.target % 2 ^ 32) with
    | .none => .none
    | .some g =>
      let u := teamKey g t.team
      if (getGrid s g).lr.teams ≤ t.team ∨ 64 ≤ t.sel then .none
      else
        let y := teamOrQueued s u
        if y.st = .ended ∨ 8 ≤ (tget [] t.sel y.boxes).length then .none
        else
          let m : Msg := ⟨bytesOf 8 (x.toNat + k * 2 ^ 32), []⟩
          .some (setTeam u { y with boxes := tset [] t.sel (tget [] t.sel y.boxes ++ [m]) y.boxes } s, 0))
  | 3 =>
    let bs := pread s t.target 256
    let key := o * 4 + t.sel
    if enabledV s o = false ∨ recordOutside s o t.target = true ∨ 4 ≤ t.sel ∨ recordOk bs = false ∨ pbad s t.target 256 = true ∨ 256 ≤ (tget [] key s.vs.hostq).length then .none
    else
      let tok := nextHostTok s o
      let l := parseRecord bs
      let it : QItem := { lr := { l with arg := x.setWidth 64 }, tok := tok, dep := l.dep, trig := .some i }
      let s := giveHostTok o s
      .some ({ s with vs := { s.vs with hostq := tset [] key (tget [] key s.vs.hostq ++ [it]) s.vs.hostq } }, tok)
  | _ => .none

/-- R341: `gfire`: the value is recorded and delivered, or a fire drop is counted; the run goes on. -/
def execGfire (a t : BitVec 4) (s : State) : Out :=
  match s.gsel with
  | .none => .next s
  | .some die =>
    let u := getUnit s die
    match u.run with
    | .none => .next { s with gsel := .none }
    | .some r =>
      let o := ownerOf u r.k
      let i := t.toNat
      let x := gReg u a
      let key := o * 16 + i
      let u := { u with fired := tset 0 key x u.fired }
      let trig : Option Trig := match tget .none o u.ten with | .some y => y.trigs[i]? | .none => .none
      let res : Option ((State × Nat) × Trig) := match trig with
        | .some y => if tget false key u.disarmed then .none else (deliver o r.k i y x s).map fun p => (p, y)
        | .none => .none
      match res with
      | .none =>
        glossStep (fun r u => (u, .some (r.pc + 1))) (setUnit die { u with fire := tset 0 r.k (tget 0 r.k u.fire + 1) u.fire } s)
      | .some (p, y) =>
        let u := { u with disarmed := if y.once then tset false key true u.disarmed else u.disarmed
                          trigTok := if y.kind = 3 then tset 0 key p.2 u.trigTok else u.trigTok }
        glossStep (fun r u => (u, .some (r.pc + 1))) (setUnit die u p.1)

end Sys2Proof.Machine
end

