-- ==== Sys2Proof/Machine/DevRead.lean ====
section
/-! DEFINITION. What the gloss aperture and the status page read as (R329, R330, R334). -/

namespace Sys2Proof.Machine

/-- Word `i` of a tenant's window; 0 at or above its size (R329). DEDUCED: log entry 39. -/
def apertureWord (u : GUnit) (v i : Nat) : BitVec 32 :=
  match tget .none v u.ten with
  | .some t => if i < 2 ^ t.wlog then tget 0 (t.wbase + i) u.mem else 0
  | .none => 0

/-- Half `h` (0 low) of a 64-bit count. -/
def halfWord (x h : Nat) : BitVec 32 := BitVec.ofNat 32 (x / 2 ^ (32 * h))

/-- The 32-bit word at offset `o` of the status page, as tenant `v` sees it (R330). DEDUCED: log entry 39. -/
def statusWord (u : GUnit) (v o : Nat) : BitVec 32 :=
  if o < 0x800 then
    let k := o / 32
    if ownerOf u k ≠ v then 0
    else
      let c := [tget 0 k u.runs, tget 0 k u.fifo, tget 0 k u.budg, tget 0 k u.fire].getD (o % 32 / 8) 0
      halfWord c (o % 8 / 4)
  else if o < 0x808 then halfWord (tget 0 v u.total) (o % 8 / 4)
  else if 0x840 ≤ o ∧ o < 0x880 then tget 0 (v * 16 + (o - 0x840) / 4) u.fired
  else if 0x880 ≤ o ∧ o < 0x8C0 then BitVec.ofNat 32 (tget 0 (v * 16 + (o - 0x880) / 4) u.trigTok)
  else 0

/-- The bytes that a read of the aperture or the status page returns; `off` counts from the aperture's start. -/
def devBytes (u : GUnit) (v off n : Nat) : List Byte :=
  (List.range (n / 4)).flatMap fun j =>
    let o := off + 4 * j
    bytesOf 4 (if o < 0x40000 then apertureWord u v (o / 4) else statusWord u v (o - 0x40000)).toNat

/-- The unit serves reads only between runs (R329); none: not now. -/
def devRead (s : State) (die v pa n : Nat) : Option (List Byte) :=
  let u := getUnit s die
  if u.run.isSome then .none else .some (devBytes u v (pa - 2 ^ 52) n)

end Sys2Proof.Machine
end

