-- ==== Sys2Proof/Machine/MemEvents.lean ====
section
/-! DEFINITION. The completions of accesses that threads and groups have issued: loads (R126), atomics (R134, R135), edition-named
accesses (R131), writes at the Bindery (R297), receives (R137, R160), messages (R160), publishes and floors (R164, R165), the drain
word (R334); the bounds of the L1 and the combining buffer (R230); the directory's steps (R312) and the walker's (R288). -/

namespace Sys2Proof.Machine

/-! ## Loads (R126) -/

/-- The bytes of a load's pieces with an uncorrectable mark, when they can be read now: a unit between runs, a path to each home
(R319, R329). -/
def readParts (gk : Nat) : List Part → State → Option (List Byte × Bool × State)
  | [], s => .some ([], false, s)
  | p :: ps, s =>
    let core := coreOf s gk
    let one : Option (List Byte × Bool × State) :=
      if isDev p.pa then (devRead s (dieOf core) (vdevOf s (ctxOf s gk)) p.pa p.len).map fun b => (b, false, s)
      else if partReach s core p then .some (readHere gk p s) else .none
    match one with
    | .none => .none
    | .some (b, m, s) =>
      match readParts gk ps s with
      | .none => .none
      | .some (c, n, s) => .some (b ++ c, m || n, s)

/-- A register of an issuer completes with bytes, or FAULT; a dropped team has no registers. DEDUCED: log entry 34. -/
def finishReg (o : Op) (u : Bool) (d : BitVec 6) (va : Word) (bs : List Byte) (bad : Bool) (s : State) : State :=
  if !aliveG s o.gk then s
  else if bad then completeFault o.gk o.tid u d o.ia va s
  else complete o.gk o.tid u d (word (natOf bs)) s

/-- A checked load's predicate becomes true (R131). -/
def finishPred (o : Op) (u : Bool) (p : Option (BitVec 3)) (b : Bool) (s : State) : State :=
  match p with
  | .some p => if aliveG s o.gk then setPQ o.gk o.tid u p ⟨b, false⟩ s else s
  | .none => s

/-- R126: a load's data return. DEDUCED: log entry 7. -/
def execLoadCompletion (k : Nat) (s : State) : Out :=
  .next (match findOp s k with
    | .some o =>
      (match o.k with
      | .load u st d p ps va =>
        if st then
          let t := teamOfG o.gk
          (match ps with
          | q :: _ =>
            finishPred o u p true (finishReg o u d va (stashRead s t q.pa q.len) (stashBad s t q.pa q.len) (dropOp k s))
          | [] => dropOp k s)
        else
          (match readParts o.gk ps s with
          | .none => s
          | .some (bs, bad, s) => finishPred o u p true (finishReg o u d va bs bad (dropOp k s)))
      | _ => s)
    | .none => s)

/-! ## Atomics (R134, R135) -/

/-- The register, memory and order effects of an atomic on an element read as `old`; `put` writes the new bytes. -/
def finishAtomic (o : Op) (d : BitVec 6) (minor : Nat) (m : AtomMod) (va x y : Word) (old : List Byte) (bad : Bool)
    (put : List Byte → State → State) (s : State) : State :=
  if bad then (if aliveG s o.gk then completeFault o.gk o.tid false d o.ia va s else s)
  else
    let e := atomExt m.ty (natOf old)
    let z := atomNew minor m.ty e x y
    let s := if minor = 7 ∧ z = e then s else put (bytesOf (atomBytes m.ty) z.toNat) s
    let s := if aliveG s o.gk then complete o.gk o.tid false d e s else s
    if isAcq m.order then acquireCore (coreOf s o.gk) (wideScope s o.gk m.scope) (m.order == .sc) s else s

/-- The first write through a leaf sets its dirty bit (R287). -/
def dirtyAt (gk : Nat) (va : Word) (s : State) : State :=
  match agentLeaf s (ctxOf s gk) (va.toNat % 2 ^ 57) with
  | .some l => setEntryBit l.at_ 8 s
  | .none => s

/-- An atomic of a scope within its core, on a page that the L1 holds: read and written there (R134, R234, R245). -/
def atomInL1 (o : Op) (d : BitVec 6) (minor : Nat) (m : AtomMod) (p : Part) (va x y : Word) (s : State) : State :=
  let core := coreOf s o.gk
  let ctx := ctxOf s o.gk
  let r := readPart ctx core p (drainEntry core (p.pa / 128) (performDue core s))
  finishAtomic o d minor m va x y r.1 r.2.1
    (fun bs s => dirtyAt o.gk va (noteStore o.gk p.pa (dirtyLine ctx core (p.pa / 128) (p.pa % 128) bs (p.kind == .uo) s))) r.2.2

/-- An atomic on the coherent memory, where its core's own bytes of the line have gone first; at the directory it is a write request,
whether or not it writes (R312). -/
def atomAtHome (o : Op) (d : BitVec 6) (minor : Nat) (m : AtomMod) (p : Part) (va x y : Word) (s : State) : State :=
  let core := coreOf s o.gk
  let ctx := ctxOf s o.gk
  let s := performDie core (performDue core s)
  let s := if isHbm p.pa then tapLine ctx core (p.pa / 128) true false (flushLine core (p.pa / 128) s) else s
  let s := dirLines ((if p.kind = .so then dirHome else dirWrite) ctx (dieOf core)) p.pa p.len s
  finishAtomic o d minor m va x y (pread s p.pa p.len) (pbad s p.pa p.len)
    (fun bs s => dirtyAt o.gk va (noteStore o.gk p.pa (pwrite p.pa bs s))) s

/-- R134: an atomic is performed, in the stash or at the performing point of its scope (R234). DEDUCED: log entry 7. -/
def execAtomicPerform (k : Nat) (s : State) : Out :=
  .next (match findOp s k with
    | .some o =>
      (match o.k with
      | .atomic d minor m p va x y =>
        let t := teamOfG o.gk
        if !duePerforms s (coreOf s o.gk) then s
        else if m.space = .s then
          finishAtomic o d minor m va x y (stashRead s t p.pa p.len) (stashBad s t p.pa p.len) (stashWrite t p.pa)
            (performDue (coreOf s o.gk) (dropOp k s))
        else if !partReach s (coreOf s o.gk) p then s
        else if isHbm p.pa && p.kind != .so && !wideScope s o.gk m.scope && residentG s o.gk then atomInL1 o d minor m p va x y (dropOp k s)
        else atomAtHome o d minor m p va x y (dropOp k s)
      | _ => s)
    | .none => s)

/-! ## Edition-named reads (R131) -/

/-- What the pieces of an access read at the agents of their pages: bytes and mark of those that lie here, and those that lie with a
peer; an edition that is gone, with its address; a copy outside the device's slices; a page that is no longer mapped, so that the access
walks again. -/
inductive EdGot
  | ok (bs : List Byte) (bad : Bool) (far : List Part)
  | gone (va : Word)
  | denied (va : Word)
  | again
  deriving DecidableEq, Repr

/-- Some piece's page cannot be reached: the request is held at its die (R319). -/
def cutOff (s : State) (gk : Nat) (qs : List (Word × Nat)) : Bool :=
  qs.any fun q => match agentLeaf s (ctxOf s gk) (q.1.toNat % 2 ^ 57) with
    | .some l => !partReach s (coreOf s gk) ⟨l.pa / 65536 * 65536 + q.1.toNat % 65536, q.2, l.kind⟩
    | .none => false

/-- The first piece whose copy lies outside the device's slices: checked of every piece before any edition is chosen (R123, R310). -/
def deniedPiece (s : State) (gk : Nat) (e : Option Nat) (qs : List (Word × Nat)) : Option Word :=
  (qs.find? fun q => match agentLeaf s (ctxOf s gk) (q.1.toNat % 2 ^ 57) with
    | .some l => l.region != 0 && editionRead s (ctxOf s gk) (q.1.toNat % 2 ^ 57) q.2 l e == .denied
    | .none => false).map Prod.fst

/-- One piece that does not lie with a peer. -/
def readEdition (gk : Nat) (e : Option Nat) (q : Word × Nat) (l : Leaf) (s : State) : EdRead × State :=
  let asid := ctxOf s gk
  let u := q.1.toNat % 2 ^ 57
  if l.region = 0 then
    (let r := readHere gk ⟨l.pa / 65536 * 65536 + u % 65536, q.2, l.kind⟩ s; (.ok r.1 [r.2.1], r.2.2))
  else (editionRead s asid u q.2 l e, engineReadsAt gk l.kind ((editionAt s asid u q.2 l e).getD []) s)

def readEditions (gk : Nat) (e : Option Nat) : List (Word × Nat) → State → EdGot × State
  | [], s => (.ok [] false [], s)
  | q :: qs, s =>
    match agentLeaf s (ctxOf s gk) (q.1.toNat % 2 ^ 57) with
    | .none => (.again, s)
    | .some l =>
      let pa := l.pa / 65536 * 65536 + q.1.toNat % 65536
      if isPeer pa then
        match readEditions gk e qs s with
        | (.ok c n far, s) => (.ok c n (⟨pa, q.2, l.kind⟩ :: far), s)
        | x => x
      else match readEdition gk e q l s with
        | (.gone, s) => (.gone q.1, s)
        | (.denied, s) => (.denied q.1, s)
        | (.ok b m, s) =>
          match readEditions gk e qs s with
          | (.ok c n far, s) => (.ok (b ++ c) (m.any id || n) far, s)
          | x => x

/-- The threads that an operation of an issuer holds at its instruction: none once its team has ended. -/
def heldThreads (s : State) (o : Op) : List Nat :=
  if !aliveG s o.gk then [] else if o.tid = 0xFFFF then domain s o.gk else [o.tid]

/-- The issuer of an operation passes its instruction. -/
def passIssuer (o : Op) (npc : Word) (s : State) : State := (heldThreads s o).foldl (goOn o.gk npc) s

/-- A trap of an operation's issuer, at its instruction. -/
def trapIssuer (o : Op) (tr : TrapRec) (s : State) : State :=
  if aliveG s o.gk then takeTrap o.gk (heldThreads s o) (o.tid == 0xFFFF) tr s else s

/-- The issuer of an operation uses its sources: the commit of an instruction that has waited for an agent (R36, R41). -/
def useIssuer (o : Op) (u : Uses) (s : State) : State := if aliveG s o.gk then useAll o.gk o.tid u s else s

/-- An instruction that has not completed leaves its destination as it was (R40). -/
def undoReg (o : Op) (u : Bool) (d : BitVec 6) (old : Cell) (s : State) : State := if aliveG s o.gk then setR o.gk o.tid u d old s else s
def undoPred (o : Op) (u : Bool) (p : Option (BitVec 3)) (old : PCell) (s : State) : State :=
  match p with | .some p => if aliveG s o.gk then setPQ o.gk o.tid u p old s else s | .none => s

/-- An edition-named access of which a peer holds a piece asks the peer for that; the other piece has been served (R131, R350). -/
def askPeer (o : Op) (u : Bool) (d : BitVec 6) (chk : Option (BitVec 3)) (va : Word) (bs : List Byte) (bad : Bool) (far : List Part)
    (s : State) : State :=
  let first := (far.head?.map fun p => p.pa % 65536 != va.toNat % 65536).getD false
  setOp o.id (.rload u d chk far va .none (if bs.isEmpty then .none else .some (first, bs, bad))) s

/-- R131: an edition-named access reaches its page's agent, and the copy that serves it is chosen. DEDUCED: log entry 7. -/
def execEditionLookup (k : Nat) (s : State) : Out :=
  .next (match findOp s k with
    | .some o =>
      (match o.k with
      | .edl u d chk use va n e npc old oldP =>
        let undo (s : State) : State := undoPred o u chk oldP (undoReg o u d old (dropOp k s))
        if cutOff s o.gk (pagePieces va n) then s
        else match deniedPiece s o.gk e (pagePieces va n) with
        | .some a => trapIssuer o (accessFault o.ia a 3 .g false) (undo s)
        | .none =>
          (match readEditions o.gk e (pagePieces va n) s with
          | (.denied a, s) => trapIssuer o (accessFault o.ia a 3 .g false) (undo s)
          | (.ok bs bad [], s) =>
            passIssuer o npc (finishPred o u chk true (finishReg o u d va bs bad (useIssuer o use (dropOp k s))))
          | (.ok bs bad far, s) => passIssuer o npc (askPeer o u d chk va bs bad far (useIssuer o use s))
          | (.gone a, s) =>
            if chk.isSome then
              passIssuer o npc (finishPred o u chk false (finishReg o u d va [] false (useIssuer o use (dropOp k s))))
            else
              trapIssuer o { name := .editionGone, pc := o.ia, addr := a, info := word (e.getD 0) } (undo s)
          | (.again, s) => undo s)
      | _ => s)
    | .none => s)

/-! ## Writes at the Bindery (R297, R302) -/

/-- What making the pages of a store ready comes to: ready; a region, page and sub-pool that is empty; a pool page outside the device's
slices, for an address (R310). -/
inductive ReadyGot
  | ready
  | pool (r i k : Nat)
  | denied (va : Word)
  deriving DecidableEq, Repr

/-- The pieces of a store of an editioned page, each at its agent; the first pool that is empty stops it with nothing written.
The sub-blocks of every piece are made ready before any byte is written (R233). -/
def readyPieces (gk : Nat) : List (Word × Nat) → State → ReadyGot × State
  | [], s => (.ready, s)
  | q :: qs, s =>
    let asid := ctxOf s gk
    let u := q.1.toNat % 2 ^ 57
    match agentLeaf s asid u with
    | .none => readyPieces gk qs s
    | .some l =>
      if l.region = 0 then readyPieces gk qs s
      else match pageIndex s l.region asid u with
        | .none => readyPieces gk qs s
        | .some i =>
          match readyRange l.region i asid u q.2 s with
          | .pool k s => (.pool l.region i k, s)
          | .denied => (.denied q.1, s)
          | .done s => readyPieces gk qs s

/-- The pieces are written where they now lie. -/
def writePieces (gk tid : Nat) (ia : Word) : List (Word × Nat) → List Byte → State → State
  | [], _, s => s
  | q :: qs, bs, s =>
    let asid := ctxOf s gk
    let u := q.1.toNat % 2 ^ 57
    let b := bs.take q.2
    let s := match agentLeaf s asid u with
      | .none => s
      | .some l =>
        let pa := l.pa / 65536 * 65536 + u % 65536
        if isPeer pa then addOp gk tid ia (.rstore ⟨pa, q.2, l.kind⟩ b) (setEntryBit l.at_ 8 s)
        else if l.region = 0 then setEntryBit l.at_ 8 (noteStore gk pa (writePart asid (coreOf s gk) ⟨pa, q.2, l.kind⟩ b s))
        else setEntryBit l.at_ 8 (noteStore gk pa
          (engineWrite asid (dieOf (coreOf s gk)) l.kind pa b (viewPage pa (materialOf s l) s)))
    writePieces gk tid ia qs (bs.drop q.2) s

/-- Every piece's page is still mapped; an atomic's, still of a region. -/
def allMapped (s : State) (gk : Nat) (atomic : Bool) (qs : List (Word × Nat)) : Bool :=
  qs.all fun q => match agentLeaf s (ctxOf s gk) (q.1.toNat % 2 ^ 57) with | .some l => !atomic || l.region != 0 | .none => false

/-- An atomic on an editioned page whose sub-block is ready: on the current copy, under its key (R303); at `.die` or wider it is a write
request of its die, whether or not it writes (R312). -/
def atomAtAgent (o : Op) (d : BitVec 6) (minor : Nat) (m : AtomMod) (l : Leaf) (va x y : Word) (s : State) : State :=
  let pa := l.pa / 65536 * 65536 + va.toNat % 65536
  let n := atomBytes m.ty
  let ask := if l.kind = .so then dirHome else if dieScope m.scope then dirWrite else dirRead
  let s := dirLines (ask (ctxOf s o.gk) (dieOf (coreOf s o.gk))) pa n (viewPage pa (materialOf s l) s)
  finishAtomic o d minor m va x y (pread s pa n) (pbad s pa n)
    (fun bs s => setEntryBit l.at_ 8 (noteStore o.gk pa (pwrite pa bs s))) s

/-- The destination of an atomic that has not completed is as it was. -/
def undoAtom (o : Op) (atom : Option (BitVec 6 × Nat × AtomMod × Word × Word × Cell)) (s : State) : State :=
  match atom with | .some (d, _, _, _, _, old) => undoReg o false d old s | .none => s

/-- R297: a write that has reached its editioned page's agent: performed, or its issuer waits in EDITION_POOL at the instruction, where it
tries again (R302). One that is refused leaves everything as it was (R123). DEDUCED: log entry 7. -/
def execBinderyWrite (k : Nat) (s : State) : Out :=
  .next (match findOp s k with
    | .some o =>
      (match o.k with
      | .bwr _ use va data npc atom =>
        let n := match atom with | .some (_, _, m, _, _, _) => atomBytes m.ty | .none => data.length
        let qs := pagePieces va n
        let undo (s : State) : State := undoAtom o atom (dropOp k s)
        if !allMapped s o.gk atom.isSome qs then undo s
        else if cutOff s o.gk qs || !duePerforms s (coreOf s o.gk) then s
        else (match readyPieces o.gk qs (performDue (coreOf s o.gk) s) with
        | (.denied a, _) => trapIssuer o (accessFault o.ia a 3 .g true) (undo s)
        | (.pool r i p, s) =>
          let asid := ctxOf s o.gk
          let s := enterPool r i p asid (vdevOf s asid) 2 (undo s)
          (heldThreads s o).foldl (fun s t => setSt o.gk t .blocked (.pool r p) s) s
        | (.ready, s) =>
          let s := useIssuer o use (dropOp k s)
          (match atom with
          | .none => passIssuer o npc (writePieces o.gk o.tid o.ia qs data s)
          | .some (d, minor, m, x, y, _) =>
            (match agentLeaf s (ctxOf s o.gk) (va.toNat % 2 ^ 57) with
            | .none => passIssuer o npc s
            | .some l => passIssuer o npc (atomAtAgent o d minor m l va x y s))))
      | _ => s)
    | .none => s)

/-! ## Receives and messages (R137, R160) -/

/-- What a receive of a group takes from. -/
inductive RecvFrom
  | queue (q : Nat) | box (b : Nat) | peer (m : Nat) | halo (e : Nat) | coll (e : Nat)
  deriving DecidableEq, Repr

def recvFrom (s : State) (o : Op) : Option RecvFrom :=
  match o.k with
  | .qrecv _ q _ _ _ => .some (.queue q)
  | .crecv _ n _ =>
    (match capOf s o.gk n with
    | .some c =>
      (match c.kind with
      | .queue => .some (.queue (bits c.operand 2 0))
      | .core => .some (.box (bits c.operand 37 32))
      | .ualink => .some (.peer (bits c.operand 21 16))
      | .halo => .some (.halo (bits c.operand 1 0))
      | .coll => .some (.coll (bits c.operand 1 0))
      | .comp => .none
      | .gloss => .none)
    | .none => .none)
  | _ => .none

/-- An older receive of the same group from the same place comes first. -/
def recvTurn (s : State) (o : Op) : Bool :=
  s.mm.ops.all fun p => p.gk != o.gk || decide (o.id ≤ p.id) || recvFrom s p != recvFrom s o

/-- R137: a pending lane receive pops its entries, once the queue holds them and its team is on a core (R223). -/
def execQueueReceiveCompletion (k : Nat) (s : State) : Out :=
  .next (match findOp s k with
    | .some o =>
      (match o.k with
      | .qrecv d q n b tids =>
        if residentG s o.gk && recvTurn s o && decide (n ≤ (poppable (queueOf s (teamOfG o.gk) q)).length)
        then finishQrecv o d q n b tids s else s
      | _ => s)
    | .none => s)

/-- R160: a pending uniform receive takes a message. -/
def execChannelReceiveCompletion (k : Nat) (s : State) : Out :=
  .next (match findOp s k with
    | .some o =>
      (match o.k with
      | .crecv d n blk =>
        (match capOf s o.gk n with
        | .some c => if residentG s o.gk && recvTurn s o then finishCrecv o d c blk s else s
        | .none => s)
      | _ => s)
    | .none => s)

/-- R160: a waiting send's message is accepted by its endpoint; R137: a lane send finds its free entries. -/
def execMessageDelivery (k : Nat) (s : State) : Out :=
  .next (match findOp s k with
    | .some o =>
      (match o.k with
      | .msg d m npc use =>
        if !residentG s o.gk then s
        else match accept o.gk d m false s with
          | .some s => passGroup o.gk npc (useAll o.gk 0 use (dropOp k s))
          | .none => s
      | .qsend q ents n npc tids use =>
        if residentG s o.gk ∧ ents.length ≤ queueRoom s (teamOfG o.gk) q then
          lanePush o.gk q n ents tids use o.ia npc (dropOp k s)
        else s
      | _ => s)
    | .none => s)

/-! ## Publishes and floors (R164, R165) -/

/-- R164: a publish acts at the region's agent. -/
def execBpubAtBindery (k : Nat) (s : State) : Out :=
  .next (match findOp s k with
    | .some o =>
      (match o.k with
      | .bpub d va r npc use old =>
        let e := eOpen s r
        if e = 0xFFFFFFFF then
          trapIssuer o { name := .editionLimit, pc := o.ia, addr := va, info := word r }
            (undoReg o true d old (dropOp k s))
        else
          let s := pwriteN (regionAt s r + 4) 4 e (pwriteN (regionAt s r) 4 (e + 1) (dropOp k s))
          passIssuer o npc (if aliveG s o.gk then complete o.gk 0 true d (word e) (useIssuer o use s) else s)
      | _ => s)
    | .none => s)

/-- R165: a floor raise takes effect at the region's home. -/
def execBfloorAtHome (k : Nat) (s : State) : Out :=
  .next (match findOp s k with
    | .some o =>
      (match o.k with
      | .bfloor d r f =>
        let new := min f (ePub s r)
        let s := if eFloor s r < new then pwriteN (regionAt s r + 8) 4 new s else s
        let s := dropOp k s
        if aliveG s o.gk then complete o.gk 0 true d (word (eFloor s r)) s else s
      | _ => s)
    | .none => s)

/-! ## The drain word (R334) -/

/-- R334: a load of the drain word completes once its tenant's earlier pairs are run or dropped. -/
def execDrainWordRead (k : Nat) (s : State) : Out :=
  .next (match findOp s k with
    | .some o =>
      (match o.k with
      | .drain u d p die tenant upto =>
        let x := getUnit s die
        if (x.q.all fun p => decide (upto ≤ p.n) || ownerOf x p.k != tenant) && x.run.isNone then
          let s := dropOp k s
          finishPred o u p true (if aliveG s o.gk then complete o.gk o.tid u d (word (tget 0 tenant x.total)) s else s)
        else s
      | _ => s)
    | .none => s)

/-! ## Caches, directory, walker -/

/-- R230: an L1 line's time comes: a dirty line is written back and stays; a clean one makes room, with its tag. DEDUCED: log entry 9. -/
def execL1WriteBackBound (core line : Nat) (s : State) : Out :=
  .next (match findLine core line s.mm.l1 with
    | .some l => if l.dirty = 0 then evictTag core line s else writeBackLine core line s
    | .none => s)
/-- R230: a combining-buffer entry reaches its bound. DEDUCED: log entry 9. -/
def execCombiningBufferDrain (core line : Nat) (s : State) : Out := .next (drainEntry core line s)
/-- On whose behalf a die asks for a line: the context whose access brought it to one of its cores, if one holds it. DEDUCED: log entry 9. -/
def lineCtx (s : State) (die line : Nat) : Nat :=
  match s.mm.l1.find? fun l => dieOf l.core == die && l.line == line with | .some l => l.ctx | .none => 0
/-- R312: a read request. -/
def execDirectoryRead (die line : Nat) (s : State) : Out := .next (dirRead (lineCtx s die line) die line s)
/-- R312: a write request. -/
def execDirectoryWrite (die line : Nat) (s : State) : Out := .next (dirWrite (lineCtx s die line) die line s)
/-- R312: a write-back by the owner. -/
def execDirectoryWriteBack (die line : Nat) (s : State) : Out := .next (dirWriteBack (lineCtx s die line) die line s)
/-- R312: an eviction notice. -/
def execEvictionNotice (die line : Nat) (s : State) : Out := .next (dirEvict (lineCtx s die line) die line s)
/-- R288: a walk serves every access of one page that waits for it. -/
def execPageWalk (asid page : Nat) (s : State) : Out := .next (lookup agentCore asid (page * 65536) s).2

end Sys2Proof.Machine
end

