-- ==== Sys2Proof/Machine/UniArith.lean ====
section
/-! DEFINITION. Uniform arithmetic, predicates and constants (R149): the lane operations on s registers and q predicates, once for the
group. -/

namespace Sys2Proof.Machine

/-- R149, R76: `add.i64`. -/
def execAddI64U (d : BitVec 6) (a b : Src) (s : State) : Out := uniEff (form2 true d a b) (b2 iAdd) s
/-- R149, R76: `sub.i64`. -/
def execSubI64U (d : BitVec 6) (a b : Src) (s : State) : Out := uniEff (form2 true d a b) (b2 iSub) s
/-- R149, R78: `mul.i64`. -/
def execMulI64U (d : BitVec 6) (a b : Src) (s : State) : Out := uniEff (form2 true d a b) (b2 iMul) s
/-- R149, R78: `mulhi.n64`. -/
def execMulhiN64U (d : BitVec 6) (a b : Src) (s : State) : Out := uniEff (form2 true d a b) (b2 mulhiN) s
/-- R149, R79: `min.i64`. -/
def execMinI64U (d : BitVec 6) (a b : Src) (s : State) : Out := uniEff (form2 true d a b) (b2 minI) s
/-- R149, R79: `max.i64`. -/
def execMaxI64U (d : BitVec 6) (a b : Src) (s : State) : Out := uniEff (form2 true d a b) (b2 maxI) s
/-- R149, R79: `min.n64`. -/
def execMinN64U (d : BitVec 6) (a b : Src) (s : State) : Out := uniEff (form2 true d a b) (b2 minN) s
/-- R149, R79: `max.n64`. -/
def execMaxN64U (d : BitVec 6) (a b : Src) (s : State) : Out := uniEff (form2 true d a b) (b2 maxN) s
/-- R149, R80: `and`. -/
def execAndU (d : BitVec 6) (a b : Src) (s : State) : Out := uniEff (form2 true d a b) (b2 iAnd) s
/-- R149, R80: `or`. -/
def execOrU (d : BitVec 6) (a b : Src) (s : State) : Out := uniEff (form2 true d a b) (b2 iOr) s
/-- R149, R80: `xor`. -/
def execXorU (d : BitVec 6) (a b : Src) (s : State) : Out := uniEff (form2 true d a b) (b2 iXor) s
/-- R149, R80: `andn`. -/
def execAndnU (d : BitVec 6) (a b : Src) (s : State) : Out := uniEff (form2 true d a b) (b2 iAndn) s
/-- R149, R82: `shl.n64`. -/
def execShlN64U (d : BitVec 6) (a b : Src) (s : State) : Out := uniEff (formSh true d a b) (b2 shl64) s
/-- R149, R82: `shr.n64`. -/
def execShrN64U (d : BitVec 6) (a b : Src) (s : State) : Out := uniEff (formSh true d a b) (b2 shr64) s
/-- R149, R82: `shr.i64`. -/
def execShrI64U (d : BitVec 6) (a b : Src) (s : State) : Out := uniEff (formSh true d a b) (b2 sar64) s
/-- R149, `mov`. -/
def execMovU (d : BitVec 6) (a : Src) (s : State) : Out := uniEff (form1 true d a) (b1 fun x => x) s
/-- R149, R87: `setp.eq.i64`. -/
def execSetpEqI64U (p : BitVec 3) (a b : Src) (s : State) : Out := uniEff (formP true p a b) (bp fun x y => x == y) s
/-- R149, R87: `setp.ne.i64`. -/
def execSetpNeI64U (p : BitVec 3) (a b : Src) (s : State) : Out := uniEff (formP true p a b) (bp fun x y => x != y) s
/-- R149, R87: `setp.lt.i64`. -/
def execSetpLtI64U (p : BitVec 3) (a b : Src) (s : State) : Out := uniEff (formP true p a b) (bp fun x y => x.slt y) s
/-- R149, R87: `setp.le.i64`. -/
def execSetpLeI64U (p : BitVec 3) (a b : Src) (s : State) : Out := uniEff (formP true p a b) (bp fun x y => x.sle y) s
/-- R149, R87: `setp.lt.n64`. -/
def execSetpLtN64U (p : BitVec 3) (a b : Src) (s : State) : Out := uniEff (formP true p a b) (bp fun x y => x.ult y) s
/-- R149, R87: `setp.le.n64`. -/
def execSetpLeN64U (p : BitVec 3) (a b : Src) (s : State) : Out := uniEff (formP true p a b) (bp fun x y => x.ule y) s
/-- R149, R87: `setp.tst`. -/
def execSetpTstU (p : BitVec 3) (a b : Src) (s : State) : Out := uniEff (formP true p a b) (bp fun x y => x &&& y != 0) s
/-- R149, R88: `pand`. -/
def execPandU (p q r : BitVec 3) (s : State) : Out := uniEff (formPP true p [q, r]) (bpp true q r fun x y => x && y) s
/-- R149, R88: `por`. -/
def execPorU (p q r : BitVec 3) (s : State) : Out := uniEff (formPP true p [q, r]) (bpp true q r fun x y => x || y) s
/-- R149, R88: `pxor`. -/
def execPxorU (p q r : BitVec 3) (s : State) : Out := uniEff (formPP true p [q, r]) (bpp true q r fun x y => x != y) s
/-- R149, R88: `pandn`. -/
def execPandnU (p q r : BitVec 3) (s : State) : Out := uniEff (formPP true p [q, r]) (bpp true q r fun x y => x && !y) s
/-- R149, R88: `pnot`. -/
def execPnotU (p q : BitVec 3) (s : State) : Out := uniEff (formPP true p [q]) (bpp true q q fun x _ => !x) s
/-- R149, R85: `add.i64` with an immediate. -/
def execAddI64ImmU (d : BitVec 6) (a : Src) (i : BitVec 11) (s : State) : Out :=
  uniEff (form1 true d a) (b1 fun x => x + i.signExtend 64) s
/-- R149, R86: `movc`. -/
def execMovcU (d : BitVec 6) (i : BitVec 24) (s : State) : Out :=
  uniEff { uni := true, flds := [], dv := .some d } (fun _ _ _ => effV (i.signExtend 64)) s
/-- R149, R86: `movc.m`. -/
def execMovcMU (d : BitVec 6) (i : BitVec 24) (s : State) : Out :=
  uniEff { uni := true, flds := [fD true d], dv := .some d } (b1 fun x => movcMid x i) s
/-- R149, R86: `movc.h`. -/
def execMovcHU (d : BitVec 6) (i : BitVec 16) (s : State) : Out :=
  uniEff { uni := true, flds := [fD true d], dv := .some d } (b1 fun x => movcHigh x i) s

end Sys2Proof.Machine
end

