-- ==== Sys2Proof/Machine/Needs.lean ====
section
/-! DEFINITION. What the next instruction of a thread names, and whether the states of that let it issue (R36, R37, R211): the sources,
destinations, predicates and guard of every instruction of the lane and the uniform set. -/

namespace Sys2Proof.Machine

/-! ## What an instruction names -/

/-- How an instruction issues: each thread by itself; a converged group, whose threads read for themselves (R91, R175); or once for the
group (R144). -/
inductive Issuing | lane | cross | group
  deriving DecidableEq, Repr

structure Names where
  by_ : Issuing
  form : Form
  deriving DecidableEq, Repr

/-- The registers that the register form of a matrix instruction names in a group of a good gang (R182). -/
def mmarNames (s : State) (gk ty : Nat) (d : BitVec 6) (a b : Src) : Form :=
  let v := (getGrp s gk).gang
  if gangCount v = 0 ∨ gangBad s gk v = true then { uni := false, flds := [] }
  else
    let F := mmarForm (recOf s gk).w ty (gangPos v) (gangCount v) d a b
    if ty = 0 then { F with flds := F.flds ++ [⟨true, d, .plain, 4, false⟩] } else F

/-- What each instruction names; none: a step of the machine or of a Gloss unit. -/
def named (s : State) (gk : Nat) (i : Instr) : Option Names :=
  match i with
  | .addI64 d a b | .subI64 d a b | .addI32 d a b | .subI32 d a b | .addN32 d a b | .subN32 d a b | .addI64Sat d a b
    | .subI64Sat d a b | .addN64Sat d a b | .subN64Sat d a b | .addI32Sat d a b | .subI32Sat d a b | .addN32Sat d a b
    | .subN32Sat d a b | .mulI64 d a b | .mulhiI64 d a b | .mulhiN64 d a b | .mulI32 d a b | .mulN32 d a b | .mulwI32 d a b
    | .mulwN32 d a b | .minI64 d a b | .maxI64 d a b | .minN64 d a b | .maxN64 d a b | .minI32 d a b | .maxI32 d a b
    | .minN32 d a b | .maxN32 d a b | .and d a b | .or d a b | .xor d a b | .andn d a b | .orn d a b | .xnor d a b
    | .addD d a b | .subD d a b | .mulD d a b | .divD d a b | .minD d a b | .maxD d a b | .addF d a b | .subF d a b
    | .mulF d a b | .divF d a b | .minF d a b | .maxF d a b | .addHf d a b | .subHf d a b | .mulHf d a b | .minHf d a b
    | .maxHf d a b | .addBf d a b | .subBf d a b | .mulBf d a b | .minBf d a b | .maxBf d a b | .copysignD d a b
    | .copysignF d a b | .lea d a b _ | .addDLong d a b _ | .subDLong d a b _ | .mulDLong d a b _ | .divDLong d a b _
    | .addFLong d a b _ | .subFLong d a b _ | .mulFLong d a b _ | .divFLong d a b _ | .addHfLong d a b _
    | .subHfLong d a b _ | .mulHfLong d a b _ | .addBfLong d a b _ | .subBfLong d a b _ | .mulBfLong d a b _
    | .minDLong d a b _ | .maxDLong d a b _ | .minFLong d a b _ | .maxFLong d a b _ | .minHfLong d a b _
    | .maxHfLong d a b _ | .minBfLong d a b _ | .maxBfLong d a b _ => .some ⟨.lane, form2 false d a b⟩
  | .negI64 d a | .absI64 d a | .not d a | .popc d a | .clz d a | .ctz d a | .brev d a | .bswap d a | .sextI8 d a
    | .sextI16 d a | .sextI32 d a | .sqrtD d a | .rintD d a | .sqrtF d a | .rintF d a | .rcpD d a | .rsqrtD d a
    | .exp2D d a | .log2D d a | .exp2F d a | .log2F d a | .sinF d a | .cosF d a | .fclassD d a | .fclassF d a | .absD d a
    | .negD d a | .absF d a | .negF d a | .addI64Imm d a _ | .addI32Imm d a _ | .addI32SatImm d a _ | .addI64SatImm d a _
    | .andImm d a _ | .orImm d a _ | .xorImm d a _ | .shlN64Imm d a _ | .shrN64Imm d a _ | .shrI64Imm d a _
    | .mulI64Imm d a _ | .sqrtDLong d a _ | .rintDLong d a _ | .sqrtFLong d a _ | .rintFLong d a _ =>
    .some ⟨.lane, form1 false d a⟩
  | .mov d a u => .some ⟨.lane, { uni := false, flds := [fA u a], dv := .some d }⟩
  | .shlN64 d a b | .shrN64 d a b | .shrI64 d a b | .rotlN64 d a b | .shlN32 d a b | .shrN32 d a b | .shrI32 d a b
    | .rotlN32 d a b => .some ⟨.lane, formSh false d a b⟩
  | .setpEqI64 p a b | .setpNeI64 p a b | .setpLtI64 p a b | .setpLeI64 p a b | .setpLtN64 p a b | .setpLeN64 p a b
    | .setpTst p a b | .setpEqI32 p a b | .setpNeI32 p a b | .setpLtI32 p a b | .setpLeI32 p a b | .setpLtN32 p a b
    | .setpLeN32 p a b | .setpEqD p a b | .setpLtD p a b | .setpLeD p a b | .setpNanD p a b | .setpEqF p a b
    | .setpLtF p a b | .setpLeF p a b | .setpNanF p a b => .some ⟨.lane, formP false p a b⟩
  | .pand p q r | .por p q r | .pxor p q r | .pandn p q r => .some ⟨.lane, formPP false p [q, r]⟩
  | .pnot p q => .some ⟨.lane, formPP false p [q]⟩
  | .sel d a b k => .some ⟨.lane, { form2 false d a b with preds := [k] }⟩
  | .movc d _ | .rdsr d _ => .some ⟨.lane, { uni := false, flds := [], dv := .some d }⟩
  | .movcM d _ | .movcH d _ => .some ⟨.lane, { uni := false, flds := [fD false d], dv := .some d }⟩
  | .shflIdx d a b | .shflUp d a b | .shflDown d a b | .shflXor d a b => .some ⟨.cross, formSh false d a b⟩
  | .ballot d p => .some ⟨.cross, { uni := false, flds := [], preds := [p], dv := .some d }⟩
  | .voteAny p q | .voteAll p q => .some ⟨.cross, formPP false p [q]⟩
  | .redAddI64 d a | .redMinI64 d a | .redMaxI64 d a | .redAddD d a | .redMinD d a | .redMaxD d a | .redAddF d a =>
    .some ⟨.cross, form1 false d a⟩
  | .bra p _ _ => .some ⟨.lane, { uni := false, flds := [], preds := [p] }⟩
  | .call p _ _ => .some ⟨.lane, { uni := false, flds := [], preds := [p], dv := .some 63 }⟩
  | .jmp a | .ret a | .cflush a | .cclose a => .some ⟨.lane, { uni := false, flds := [fA false a true] }⟩
  | .callr d a => .some ⟨.lane, { uni := false, flds := [fA false a true], dv := .some d }⟩
  | .nop => .some ⟨.lane, { uni := false, flds := [] }⟩
  | .fmaD d a b c _ | .fnmaD d a b c _ | .fmaF d a b c _ | .fnmaF d a b c _ | .fmaHf d a b c _ | .fmaBf d a b c _ =>
    .some ⟨.lane, form3 d a b c⟩
  | .cvt d a m => .some ⟨.lane, formCvt d a m⟩
  | .ld d a _ => .some ⟨.lane, formLd false d a⟩
  | .st a b _ => .some ⟨.lane, formSt false a b⟩
  | .lde d a b m => .some ⟨.lane, formLde false d a b m.chk⟩
  | .pf a _ => .some ⟨.lane, formPf false a⟩
  | .atomAdd d a b _ | .atomMin d a b _ | .atomMax d a b _ | .atomAnd d a b _ | .atomOr d a b _ | .atomXor d a b _
    | .atomXchg d a b _ => .some ⟨.lane, formAtom d a b⟩
  | .atomCas d a b c _ => .some ⟨.lane, formCas d a b c⟩
  | .copen d a _ _ | .cread d a _ => .some ⟨.lane, copenForm d a⟩
  | .cadd p a b c _ => .some ⟨.lane, caddForm p a b c⟩
  | .creplay d a b _ _ => .some ⟨.lane, creplayForm d a b⟩
  | .addI64U d a b | .subI64U d a b | .mulI64U d a b | .mulhiN64U d a b | .minI64U d a b | .maxI64U d a b | .minN64U d a b
    | .maxN64U d a b | .andU d a b | .orU d a b | .xorU d a b | .andnU d a b => .some ⟨.group, form2 true d a b⟩
  | .shlN64U d a b | .shrN64U d a b | .shrI64U d a b => .some ⟨.group, formSh true d a b⟩
  | .movU d a | .addI64ImmU d a _ => .some ⟨.group, form1 true d a⟩
  | .setpEqI64U p a b | .setpNeI64U p a b | .setpLtI64U p a b | .setpLeI64U p a b | .setpLtN64U p a b | .setpLeN64U p a b
    | .setpTstU p a b => .some ⟨.group, formP true p a b⟩
  | .pandU p q r | .porU p q r | .pxorU p q r | .pandnU p q r => .some ⟨.group, formPP true p [q, r]⟩
  | .pnotU p q => .some ⟨.group, formPP true p [q]⟩
  | .movcU d _ | .rdsys d _ _ => .some ⟨.group, { uni := true, flds := [], dv := .some d }⟩
  | .movcMU d _ | .movcHU d _ => .some ⟨.group, { uni := true, flds := [fD true d], dv := .some d }⟩
  | .ldU d a _ => .some ⟨.group, formLd true d a⟩
  | .stU a b _ => .some ⟨.group, formSt true a b⟩
  | .ldeU d a b m => .some ⟨.group, formLde true d a b m.chk⟩
  | .pfU a _ => .some ⟨.group, formPf true a⟩
  | .ujmp p _ _ => .some ⟨.group, { uni := true, flds := [], preds := [p] }⟩
  | .ucall p _ _ => .some ⟨.group, { uni := true, flds := [], preds := [p], dv := .some 63 }⟩
  | .ujmpr a | .uret a | .rdv a | .gang a | .wrsys _ a => .some ⟨.group, { uni := true, flds := [fA true a true] }⟩
  | .waitl d a =>
    .some ⟨.group, if (getGrp s gk).wl.isSome then { uni := true, flds := [] } else { uni := true, flds := [fA true a true], dv := .some d }⟩
  | .ucallr d a | .bpub d a => .some ⟨.group, { uni := true, flds := [fA true a true], dv := .some d }⟩
  | .bar | .tbar | .rett | .unop | .fence _ _ | .waith _ _ | .trap _ => .some ⟨.group, noForm⟩
  | .claim d a b | .bfloor d a b => .some ⟨.group, { uni := true, flds := [fA true a true, fB true b true], dv := .some d }⟩
  | .sendU _ a b => .some ⟨.group, sendForm a b⟩
  | .recvU d _ ab => .some ⟨.group, recvForm d ab⟩
  | .launch q d a b _ => .some ⟨.group, launchForm q d a b⟩
  | .fork d a => .some ⟨.group, forkForm d a⟩
  | .mmasD d a b => .some ⟨.group, mmasForm 0 d a b⟩
  | .mmasF v a b _ => .some ⟨.group, mmasForm 1 v a b⟩
  | .mmasBf v a b _ => .some ⟨.group, mmasForm 2 v a b⟩
  | .mmasHf v a b _ => .some ⟨.group, mmasForm 3 v a b⟩
  | .mmasE4 v a b _ => .some ⟨.group, mmasForm 4 v a b⟩
  | .accrel d o => .some ⟨.group, accrelForm d o⟩
  | .recvD d _ | .recvW d _ => .some ⟨.cross, { uni := false, flds := [], dv := .some d }⟩
  | .sendD _ b | .sendW _ b => .some ⟨.cross, { uni := false, flds := [fB false b true] }⟩
  | .exit => .some ⟨.lane, noForm⟩
  | .mmarD d a b _ _ => .some ⟨.cross, mmarNames s gk 0 d a b⟩
  | .mmarF d a b _ _ => .some ⟨.cross, mmarNames s gk 1 d a b⟩
  | .mmarBf d a b _ _ => .some ⟨.cross, mmarNames s gk 2 d a b⟩
  | .mmarHf d a b _ _ => .some ⟨.cross, mmarNames s gk 3 d a b⟩
  | .mmarE4 d a b _ _ => .some ⟨.cross, mmarNames s gk 4 d a b⟩
  | .gadd _ _ _ | .gsub _ _ _ | .gand _ _ _ | .gor _ _ _ | .gxor _ _ _ | .gshl _ _ _ | .gshr _ _ _ | .gmin _ _ _
    | .gmax _ _ _ | .gmul _ _ _ | .gmovi _ _ | .gaddi _ _ _ | .gandi _ _ _ | .gshli _ _ _ | .gshri _ _ _ | .gld _ _ _
    | .gst _ _ _ | .gbeq _ _ _ | .gbne _ _ _ | .gblt _ _ _ | .gbge _ _ _ | .gbr _ | .ghash _ _ _ | .ghist _ _ _
    | .gcms _ _ _ | .ghll _ _ _ | .gfire _ _ | .gend | .loadCompletion _ | .atomicPerform _ | .editionLookup _
    | .queueReceiveCompletion _ | .channelReceiveCompletion _ | .messageDelivery _ | .launchRecordRead _ | .bpubAtBindery _
    | .bfloorAtHome _ | .claimPageMove _ | .copyBeat _ | .copyEnd _ | .forkStart _ | .accessProgramRequest _
    | .accessProgramReturn _ | .matrixCompletion _ | .mmasKStep _ | .recordOperationArrival _ | .regrouping _ _
    | .barrierArrivalBit _ _ | .l1WriteBackBound _ _ | .combiningBufferDrain _ _ | .distributorPlacement _ | .sliceEnd _
    | .renderContextSwitch _ | .completionEntryWrite _ | .hqTailWrite _ _ _ | .vdevApply _ | .rctxApply _
    | .counterPublish _ | .pageWalk _ _ | .faultRecordPost _ | .fqDoneRetry _ _ | .fqDoneDeny _ _ | .invalidation
    | .regionCreate _ | .regionReread _ | .regionDestroy _ | .binderyWrite _ | .backgroundSubblockCopy _ _
    | .reclaimWalk _ _ | .directoryRead _ _ | .directoryWrite _ _ | .directoryWriteBack _ _ | .evictionNotice _ _
    | .memSplitWrite _ | .routeWrite _ | .linkDown _ | .glossEventOffer _ _ | .glossSlot _ | .glossBudgetWindow _
    | .glossApplyTenant _ _ | .glossAttach _ _ | .glossDetach _ _ | .glossDrain _ | .drainWordRead _ | .linkTraining _ _
    | .ualinkInboundRequest _ | .peerAcknowledgement _ _ | .ualinkMessageArrival _ | .haloCommand _ | .haloFaceArrival _ _
    | .allReduceCommand _ _ | .engineCompletion _ _ | .functionLevelReset | .coreRetirement | .marginPlan _ _
    | .auditFlitSend _ | .auditFlitReceive _ _ | .laneGroupFailure _ | .softError _ | .patrolScrub _ | .checkpointSave
    | .checkpointRestore | .moduleReset | .keyLoad _ | .keyClear _ | .spdmRequest _ | .pldmMonitoring _
    | .pldmFirmwareUpdate _ | .powerManagerUpdate _ | .powerLimitWrite _ | .thermalCap _ _ | .thermalShutdown _ _
    | .registerWrite _ | .issueCycle _ _ | .creplayCompletion _ | .flitReplay _ | .ualinkPortDown _ | .hostIngressAccess _
    | .peerDrainTimeout _ | .mainSideOff => .none

/-! ## The next instruction of a thread -/

/-- The word at an address as a thread's fetch would find it: in its loop buffer, or in memory. -/
def peekWord (gk tid : Nat) (user : Bool) (va : Word) (s : State) : Option (BitVec 32) :=
  match (laneOf s gk tid).bind fun l => buffered l va with
  | .some w => .some w
  | .none => match (fetchWord gk user va s).1 with | .ok ws => ws[0]? | .trap _ _ _ => .none | .page _ _ => .none

/-- The words of an instruction, as far as they can be fetched now. -/
def peekWords (gk tid : Nat) (user : Bool) (pc : Word) (s : State) : Option (List (BitVec 32)) :=
  let one (k : Nat) : Option (BitVec 32) := peekWord gk tid user (pc + word (4 * k)) s
  (one 0).bind fun w =>
    if isGuard w then (one 1).bind fun x => if twoWord x then (one 2).map fun y => [w, x, y] else .some [w, x]
    else if twoWord w then (one 1).map fun x => [w, x]
    else .some [w]

/-- The next instruction of a thread, if its words can be fetched and are one. -/
noncomputable def nextIns (s : State) (gk tid : Nat) : Option Decoded :=
  let t := getThr s (threadKey gk tid)
  (peekWords gk tid (!t.sys) t.pc s).bind fun ws => match decodeWords ws with | .ok d => .some d | .error _ => .none

/-- What the next instruction of a thread names, with its guard. -/
noncomputable def nextNames (s : State) (gk tid : Nat) : Option (Names × Option (BitVec 3 × Bool)) :=
  (nextIns s gk tid).bind fun d => (named s gk d.ins).map fun n => (n, d.guard)

/-- A thread that stands at a uniform, cross-lane or joint instruction has arrived there (R144). -/
noncomputable def atGroupIns (s : State) (gk tid : Nat) : Bool :=
  match nextNames s gk tid with | .some n => n.1.by_ != .lane | .none => false

/-! ## Whether it may issue -/

/-- What keeps a thread, or its group, from issuing what is named: a register or predicate that is EMPTY (R36, R37, R40); a false guard
names nothing more (R34). -/
def unmet (s : State) (gk tid : Nat) (n : Names) (g : Option (BitVec 3 × Bool)) : Option Wait :=
  let u := n.by_ == .group
  let s := { s with cur := { s.cur with gk := gk, guard := g } }
  match guardVal s gk tid u with
  | .wait p => .some (.pred u p)
  | .no => .none
  | .yes => match readSources s gk tid 0 n.form with
    | .wait v r => .some (.reg v r)
    | .waitP p => .some (.pred n.form.uni p)
    | .trap _ => .none
    | .ok _ _ => .none

/-- What a thread's next instruction waits for: `exit` waits for the thread's producers (R100). -/
noncomputable def nextWait (s : State) (gk tid : Nat) : Option Wait :=
  match nextIns s gk tid with
  | .none => .none
  | .some d => match named s gk d.ins with
    | .none => .none
    | .some n => match unmet s gk tid n d.guard with
      | .some w => .some w
      | .none =>
        if d.ins = .exit ∧ guardVal { s with cur := { s.cur with guard := d.guard } } gk tid false = .yes ∧ unfinished s gk tid = true
        then .some .ops else .none

end Sys2Proof.Machine
end

