-- ==== Sys2Proof/Machine/Sched.lean ====
section
/-! DEFINITION. Wake conditions (R220, R221, R224), regrouping and fetch lanes (R208, R209), the ready bundles of a quarter, deficit
counters (R212) and the choice of a bundle (R213). -/

namespace Sys2Proof.Machine

/-! ## Wake conditions -/

/-- What is awaited has been performed: a remote term that is held at its target has taken its place (R202); a receive that an eviction has
withdrawn has not (R223). -/
def opGone (s : State) (id : Nat) : Bool :=
  match findOp s id with
  | .none => s.mm.withdrawn.all fun o => o.id != id
  | .some o => (match o.k with | .rop _ chan held _ => held && chan.isSome | _ => false)

/-- Whether what a thread waits for has happened. DEDUCED: log entry 10. -/
def waitMet (s : State) (gk tid : Nat) (w : Wait) : Bool :=
  match w with
  | .none => true
  | .reg u r => (getR s gk tid u r).st != .empty
  | .pred u p => !(getPQ s gk tid u p).empty
  | .tbar => (getGrp s gk).tbar.isNone
  | .bar => (getGrp s gk).bar.isNone
  | .waith h c =>
    (match getHandle s (teamOfG gk) h with
    | .some x => !isEngine x.st && (x.err || condMet c x.st)
    | .none => true)
  | .rdv n => (match tget .none n (getTeam s (teamOfG gk)).sets with | .some f => setEnded f | .none => true)
  | .waitl t => (match findTok (getGrid s (gridOfG gk)) t with | .some k => k.status.isSome | .none => true)
  | .page asid p => !pendingRec s asid p
  | .pool _ _ => false
  | .agent id => if id = 0 then !heldBack s (coreOf s gk) false else opGone s id
  | .ops => !unfinished s gk tid
  | .trackers => true
  | .denied _ _ => true
  | .handleTrap => false

/-- A thread whose wait has ended is READY again, or, if it has arrived with its group, waits only for the group (R221). DEDUCED: log entry 10. -/
def refreshThread (gk : Nat) (s : State) (tid : Nat) : State :=
  let t := getThr s (threadKey gk tid)
  match t.st with
  | .waitOpnd => if waitMet s gk tid t.wait then setSt gk tid .ready .none s else s
  | .blocked => if waitMet s gk tid t.wait then setSt gk tid .ready .none s else s
  | .waitConv =>
    (match t.wait with
    | .none => s
    | .denied _ _ => s
    | w => if waitMet s gk tid w then setSt gk tid .waitConv .none s else s)
  | .ready => s | .waitLane => s | .exited => s

/-- The groups bound to a quarter of a core, in residency order. -/
def quarterGroups (s : State) (core q : Nat) : List Nat :=
  let gs := s.grp.filter fun p =>
    p.2.quarter == q && (getTeam s (teamOfG p.1)).st == .resident && coreOf s p.1 == core
  (gs.mergeSort fun a b => a.2.order ≤ b.2.order).map Prod.fst

def refreshGroup (s : State) (gk : Nat) : State := (live s gk).foldl (refreshThread gk) s

/-- A thread that stands at a uniform, cross-lane or joint instruction has arrived at it (R144, R221). -/
noncomputable def arriveThread (gk : Nat) (s : State) (tid : Nat) : State :=
  let t := getThr s (threadKey gk tid)
  if t.st = .ready ∧ atGroupIns s gk tid = true then setSt gk tid .waitConv (keepDenied t.wait) s else s

/-- A READY thread whose next instruction names something that is EMPTY waits for it (R211, R221). -/
noncomputable def needThread (gk : Nat) (s : State) (tid : Nat) : State :=
  if (getThr s (threadKey gk tid)).st = .ready then
    match nextWait s gk tid with
    | .some (.reg u r) => waitReg gk tid u r s
    | .some (.pred _ p) => waitPred gk tid p s
    | .some w => setSt gk tid .waitOpnd w s
    | .none => s
  else s

/-- Every thread that convergence awaits stands at one address and waits for nothing else. A group in the rendezvous latch is none. -/
def groupStands (s : State) (gk : Nat) : Bool :=
  let d := domain s gk
  (getGrp s gk).latch.isNone && d != [] && (d.all fun i =>
    let t := getThr s (threadKey gk i)
    t.st == .waitConv && (match t.wait with | .none => true | .denied _ _ => true | _ => false))
    && ((d.map fun i => (getThr s (threadKey gk i)).pc.toNat).eraseDups).length == 1

/-- A converged group whose instruction names something that is EMPTY waits for it: the group, or each of its threads (R95, R211, R220). -/
noncomputable def needGroup (s : State) (gk : Nat) : State :=
  if !groupStands s gk then s
  else match nextNames s gk ((domain s gk).headD 0) with
    | .none => s
    | .some n =>
      if n.1.by_ = .group then
        let s' := { s with cur := { s.cur with gk := gk } }
        match unmet s gk 0 n.1 n.2 with
        | .some (.reg u r) => { waitRegAll u r s' with cur := s.cur }
        | .some (.pred _ p) => { waitPredAll p s' with cur := s.cur }
        | _ => s
      else (domain s gk).foldl (fun s i => match unmet s gk i n.1 n.2 with
        | .some (.reg u r) => waitThere gk i u r s
        | .some (.pred _ p) => waitThereP gk i p s
        | _ => s) s

/-- A thread that has arrived, that waits at a blocking point, or that has exited releases its lane (R209). -/
def sweepLanes (core q : Nat) (s : State) : State :=
  let key := core * 4 + q
  let lanes := (tget [] key s.sc.lanes).filter fun l =>
    let t := getThr s l.tk
    t.st != .waitConv && t.st != .blocked && t.st != .exited
  { s with sc := { s.sc with lanes := tset [] key lanes s.sc.lanes } }

/-- The threads of a group as they stand before an issue: arrivals, splits (R147), and what their next instructions wait for. -/
noncomputable def standGroup (s : State) (gk : Nat) : State :=
  let s := splitCheck gk ((live s gk).foldl (arriveThread gk) s)
  needGroup ((live s gk).foldl (needThread gk) s) gk
noncomputable def standQuarter (core q : Nat) (s : State) : State :=
  sweepLanes core q ((quarterGroups s core q).foldl standGroup s)

/-- Waits that have ended, and then how the threads of a quarter stand. DEDUCED: log entry 10. -/
noncomputable def refreshQuarter (core q : Nat) (s : State) : State :=
  standQuarter core q ((quarterGroups s core q).foldl refreshGroup (sweepLanes core q s))

/-! ## Regrouping (R208, R209) -/

/-- Threads that a regrouping partitions: live, and not at a convergence wait. -/
def partitioned (s : State) (gk : Nat) : List Nat :=
  (live s gk).filter fun i => (getThr s (threadKey gk i)).st != .waitConv

def pcOf (s : State) (gk i : Nat) : Nat := (getThr s (threadKey gk i)).pc.toNat

/-- Threads by address: each list in ascending %tid. -/
def byPc (s : State) (gk : Nat) (ts : List Nat) : List (List Nat) :=
  ((ts.map (pcOf s gk)).eraseDups).map fun a => ts.filter fun i => pcOf s gk i == a

/-- Pieces of 16. -/
def sixteens : Nat → List Nat → List (List Nat)
  | 0, _ => []
  | k + 1, ts => if ts.isEmpty then [] else ts.take 16 :: sixteens k (ts.drop 16)

/-- Bundles and lone threads of a group. -/
def bundlesOf (s : State) (gk : Nat) : List Sel × List Nat :=
  let ps := byPc s gk (partitioned s gk)
  let many := (ps.filter fun l => decide (2 ≤ l.length)).flatMap (sixteens 5)
  (many.map fun l => { gk := gk, tids := l }, (ps.filter fun l => l.length == 1).flatten)

/-- A thread of a group with a new state, wait kept. -/
def setState (gk tid : Nat) (st : TState) (s : State) : State :=
  setThr (threadKey gk tid) { getThr s (threadKey gk tid) with st := st } s

/-- A WAIT_LANE thread at a broadcast address is READY (R221). -/
def joinBroadcast (gk : Nat) (s : State) (i : Nat) : State :=
  if (getThr s (threadKey gk i)).st = .waitLane then setState gk i .ready s else s

/-- A quarter regroups its groups: bundles, lanes kept, lanes granted oldest waiting first, WAIT_LANE for the rest. -/
def regroup (core q : Nat) (s : State) : State :=
  let key := core * 4 + q
  let gs := quarterGroups s core q
  let parts := gs.map fun g => (g, bundlesOf s g)
  let many := parts.flatMap fun p => p.2.1
  let lone := parts.flatMap fun p => p.2.2.map fun i => (p.1, i)
  let s := many.foldl (fun s b => b.tids.foldl (joinBroadcast b.gk) s) s
  let stOf (x : Nat × Nat) : TState := (getThr s (threadKey x.1 x.2)).st
  let keep := (tget [] key s.sc.lanes).filter fun l =>
    lone.any fun x => threadKey x.1 x.2 == l.tk && stOf x != .blocked
  let want := lone.filter fun x =>
    (stOf x == .ready || stOf x == .waitLane) && keep.all fun l => l.tk != threadKey x.1 x.2
  let old := (tget [] key s.sc.laneq).filter fun k => want.any fun x => threadKey x.1 x.2 == k
  let queue := old ++ (want.map fun x => threadKey x.1 x.2).filter fun k => !old.contains k
  let grant := queue.take (16 - keep.length)
  let rest := queue.drop (16 - keep.length)
  let s := want.foldl (fun s x =>
    setState x.1 x.2 (if grant.contains (threadKey x.1 x.2) then .ready else .waitLane) s) s
  let lanes := keep ++ grant.map fun k => { tk := k, base := 0, words := [] }
  let ones := (lone.filter fun x => lanes.any fun l => l.tk == threadKey x.1 x.2).map fun x => { gk := x.1, tids := [x.2], lone := true }
  { s with sc := { s.sc with bundles := tset [] key (many ++ ones) s.sc.bundles
                             lanes := tset [] key lanes s.sc.lanes, laneq := tset [] key rest s.sc.laneq } }

/-- R208: a quarter regroups, at a cycle count that is a multiple of 4. -/
noncomputable def execRegrouping (core q : Nat) (s : State) : Out :=
  .next (if tget 0 (core * 4 + q) s.sc.cyc % 4 = 0 then regroup core q (refreshQuarter core q s) else s)

/-! ## Ready bundles (R211) -/

def readyThr (t : Thr) : Bool :=
  t.st == .ready && (match t.wait with | .none => true | .denied _ _ => true | _ => false)

/-- The bundles of a quarter that are ready: of each bundle the threads at one address, all of them READY, a lone thread with its lane;
and each group that has converged and waits for nothing. -/
def candidates (s : State) (core q : Nat) : List Sel :=
  let gs := quarterGroups s core q
  let held (b : Sel) : Bool := (tget [] (core * 4 + q) s.sc.lanes).any fun l => b.tids == [l.tk % 64] && b.gk == l.tk / 64
  let bs := (tget [] (core * 4 + q) s.sc.bundles).filter fun b => gs.contains b.gk && (!b.lone || held b)
  let lanes := bs.flatMap fun b =>
    ((byPc s b.gk (b.tids.filter fun i =>
      let t := getThr s (threadKey b.gk i)
      t.st != .exited && t.st != .waitConv)).filter fun l => l.all fun i => readyThr (getThr s (threadKey b.gk i))).map fun l =>
      ({ b with tids := l } : Sel)
  lanes ++ (gs.filter (groupStands s)).map fun g => { gk := g, tids := domain s g }

/-! ## Deficit counters (R212) and the choice (R213) -/

def dcOf (s : State) (qk v : Nat) : Int := tget 0 (qk * 64 + v) s.sc.dc
def vdevOfG (s : State) (gk : Nat) : Nat := vdevOf s (ctxOf s gk)
def weightOf (s : State) (v : Nat) : Nat := (blockOf s v).weight

/-- Counters of some tenants: device and value. -/
def dcFind (v : Nat) (l : List (Nat × Int)) : Int := match l.find? fun p => p.1 == v with | .some p => p.2 | .none => 0

/-- Refills until some counter is positive. -/
def refill (s : State) : Nat → List (Nat × Int) → List (Nat × Int)
  | 0, l => l
  | k + 1, l =>
    if l.any fun p => decide (0 < p.2) then l
    else refill s k (l.map fun p => let w : Int := weightOf s p.1; (p.1, min (p.2 + w) (2 * w)))

/-- How many refills may be needed. -/
def refillFuel (l : List (Nat × Int)) : Nat := l.foldl (fun n p => n + p.2.natAbs) 1

/-- The member of a list with the greatest counter; ties to the lowest device. -/
def greatest : List (Nat × Int) → Option (Nat × Int)
  | [] => .none
  | p :: r => match greatest r with
    | .none => .some p
    | .some q => if p.2 < q.2 ∨ (p.2 = q.2 ∧ q.1 < p.1) then .some q else .some p

/-- The scavenger served next: the first device after the last one served, in ascending order, wrapping (`last`: its number plus 1). -/
def nextZero (last : Nat) (z : List Nat) : Option Nat :=
  match (z.filter fun v => decide (last ≤ v)).min? with
  | .some v => .some v
  | .none => z.min?

/-- The tenant that a cycle issues for, the quarter's counters after it issues, and the scavenger served last; `ready`: the tenants with
a ready bundle. -/
def chooseTenant (s : State) (qk : Nat) (tenants ready : List Nat) : Option Nat × List (Nat × Int) × Nat :=
  let last := tget 0 qk s.sc.zlast
  let e := ready.filter fun v => decide (0 < weightOf s v)
  let idle := (tenants.filter fun v => !e.contains v).map fun v => (v, min (dcOf s qk v) 0)
  if e.isEmpty then
    match nextZero last (ready.filter fun v => weightOf s v == 0) with
    | .some v => (.some v, idle, v + 1)
    | .none => (.none, idle, last)
  else
    let l := e.map fun v => (v, dcOf s qk v)
    let l := refill s (refillFuel l) l
    match greatest l with
    | .some p => (.some p.1, idle ++ l.map (fun x => if x.1 = p.1 then (x.1, x.2 - 1) else x), last)
    | .none => (.none, idle, last)

/-- Write a quarter's counters. -/
def setDcs (qk : Nat) (l : List (Nat × Int)) (d : Tab Int) : Tab Int := l.foldl (fun d p => tset 0 (qk * 64 + p.1) p.2 d) d

/-- A bundle's age: the least of its threads' last issues. -/
def ageOf (s : State) (b : Sel) : Nat :=
  ((b.tids.map fun i => (getThr s (threadKey b.gk i)).last).min?).getD 0

/-- The order of R213: oldest last issue, then residency, then the lower lowest %tid. -/
def before (s : State) (a b : Sel) : Bool :=
  let x := (ageOf s a, (getGrp s a.gk).order, (a.tids.min?).getD 0)
  let y := (ageOf s b, (getGrp s b.gk).order, (b.tids.min?).getD 0)
  decide (x.1 < y.1 ∨ (x.1 = y.1 ∧ (x.2.1 < y.2.1 ∨ (x.2.1 = y.2.1 ∧ x.2.2 ≤ y.2.2))))

def firstBundle (s : State) : List Sel → Option Sel
  | [] => .none
  | b :: r => match firstBundle s r with
    | .none => .some b
    | .some c => if before s b c then .some b else .some c

/-- Whether the power manager withholds the cycle: the first `wh` of each 64 (R399). DESIGN CHOICE: log entry 5. DEDUCED: log entry 30. -/
def withheld (s : State) (core cyc : Nat) : Bool := decide (cyc % 64 < tget 0 (dieOf core) s.hs.wh)

/-- The cycle of a quarter begins: its count, its waits, every fourth time its regrouping. -/
noncomputable def beginCycle (core q : Nat) (s : State) : State :=
  let c := tget 0 (core * 4 + q) s.sc.cyc
  let s := { s with sc := { s.sc with cyc := tset 0 (core * 4 + q) (c + 1) s.sc.cyc } }
  let s := refreshQuarter core q s
  if c % 4 = 0 then standQuarter core q (regroup core q s) else s

/-- The threads of a bundle issue in this cycle (R213). -/
def ageBundle (b : Sel) (c : Nat) (s : State) : State :=
  b.tids.foldl (fun s i => setThr (threadKey b.gk i) { getThr s (threadKey b.gk i) with last := c } s) s

/-- The quarter issues for a tenant, or for none: the counters, and the bundle that `step` issues next. -/
def chooseBundle (core q : Nat) (s : State) : State :=
  let qk := core * 4 + q
  let cs := candidates s core q
  let r := chooseTenant s qk (tenantsOf s core) ((cs.map fun b => vdevOfG s b.gk).eraseDups)
  let s := { s with sc := { s.sc with dc := setDcs qk r.2.1 s.sc.dc, zlast := tset 0 qk r.2.2 s.sc.zlast } }
  match r.1.bind fun v => firstBundle s (cs.filter fun b => vdevOfG s b.gk == v) with
  | .none => s
  | .some b =>
    let ages := b.tids.map fun i => (i, (getThr s (threadKey b.gk i)).last)
    { ageBundle b (tget 0 qk s.sc.cyc) s with sel := { b with ages := ages }, sc := { s.sc with issues := s.sc.issues + 1 } }

/-- One cycle of a quarter: regrouping every fourth, then the tenant, then its bundle; `step` issues it. DESIGN CHOICE: log entry 5. -/
noncomputable def issueCycle (core q : Nat) (s : State) : State :=
  let t := beginCycle core q s
  if withheld t core (tget 0 (core * 4 + q) s.sc.cyc) then t else chooseBundle core q t

/-- R212, R213: an issue cycle chooses at most one bundle, which `step` issues next. -/
noncomputable def execIssueCycle (core q : Nat) (s : State) : Out := .next (issueCycle core q s)

/-! ## Waking (R224) -/

/-- What a pending receive waits for is there; the receive itself is taken after the team has resumed (R223). -/
def recvReady (s : State) (o : Op) : Bool :=
  match o.k with
  | .qrecv _ q n _ _ => decide (n ≤ (poppable (queueOf s (teamOfG o.gk) q)).length)
  | .crecv _ n blk => (match capOf s o.gk n with | .some c => (takeNext o.gk c (blk.map (·.2)) s).isSome | .none => false)
  | _ => false

/-- Whether a thread waits for the destination of a receive that its eviction has withdrawn and that could be taken (R223). -/
def recvWakes (s : State) (gk tid : Nat) (w : Wait) : Bool :=
  match w with
  | .reg u r => s.mm.withdrawn.any fun o => o.gk == gk && recvReady s o && match o.k with
    | .qrecv d _ _ _ ts => !u && d == r && ts.contains tid
    | .crecv d _ _ => u && d == r
    | _ => false
  | _ => false

/-- An evicted team one of whose blocked threads may go on is WOKEN (R224). -/
def wakeTeam (s : State) (t : Nat) : State :=
  let x := getTeam s t
  if x.st = .evicted ∧ ((List.range (getGrid s x.grid).lr.groups).map (groupKey t)).any (fun g =>
      (live s g).any fun i =>
        let y := getThr s (threadKey g i)
        y.st != .waitConv && (waitMet s g i y.wait || recvWakes s g i y.wait)) then
    { setTeam t { x with st := .woken, woke := s.vs.orders } s with vs := { s.vs with orders := s.vs.orders + 1 } }
  else s

end Sys2Proof.Machine
end

