-- ==== Sys2Proof/Machine/Admit.lean ====
section
/-! DEFINITION. The distributor (R270, R271): the checks made at admission (R56, R262 to R267), placement, eviction (R222, R223, R272),
the barrier context of a launch (R376, R377, R383). -/

namespace Sys2Proof.Machine

/-! ## Reading the tables of a launch (R262, R263) -/

/-- What a table read comes to. -/
inductive TabGot
  | ok (bs : List Byte)
  | fault
  | page (asid page : Nat)
  deriving DecidableEq, Repr

/-- The bytes of one piece: of an editioned region at default edition 0; of a peer's memory what the peer answers (R350). DEDUCED: log
entry 13. -/
def pieceBytes (asid : Nat) (l : LRec) (p : Piece) (s : State) : Option (List Byte) × State :=
  if isPeer p.part.pa then peerBytes p.part.pa p.part.len s
  else if pbad s p.part.pa p.part.len || isDev p.part.pa then (.none, s)
  else if p.region = 0 then (.some (pread s p.part.pa p.part.len), s)
  else
    let u := p.va.toNat % 2 ^ 57
    match agentLeaf s asid u with
    | .none => (.none, s)
    | .some f => match editionRead s asid u p.part.len f (defEdition l 0) with
      | .ok bs m => (if m.any id then .none else .some bs, s)
      | .gone => (.none, s)
      | .denied => (.none, s)

/-- The bytes of pieces. -/
def piecesBytes (asid : Nat) (l : LRec) : List Piece → State → Option (List Byte) × State
  | [], s => (.some [], s)
  | p :: ps, s =>
    match pieceBytes asid l p s with
    | (.none, s) => (.none, s)
    | (.some b, s) =>
      match piecesBytes asid l ps s with
      | (.none, s) => (.none, s)
      | (.some c, s) => (.some (b ++ c), s)

/-- A table of a launch, read at admission in the context's address space. DEDUCED: log entry 13. -/
def readTable (ctx : Nat) (l : LRec) (va n : Nat) (s : State) : TabGot × State :=
  match planFor { asid := ctx, vdev := vdevOf s ctx } 0 true .g [.r] (word va) n s with
  | (.fault _ _, s) => (.fault, s)
  | (.page a p, s) => (.page a p, s)
  | (.ok ps, s) =>
    match piecesBytes ctx l ps s with
    | (.some bs, s) => (.ok bs, s)
    | (.none, s) => (.fault, s)

/-- A record of a page that an admission waits for (R289). DEDUCED: log entry 13. -/
def admitJoin (ctx asid page : Nat) (s : State) : State :=
  joinRec { vdev := vdevOf s ctx, seq := .none, asid := asid, page := page, cause := 1, access := 5 } s

/-- The entry of a host launch: its record is copied, or awaited where its page is absent (R289, R391); at an address that is no multiple of
256 too. DEDUCED: log entry 26. DESIGN CHOICE: log entry 51. -/
def readEntry (ctx tok va : Nat) (s : State) : QItem × State :=
  match readTable ctx {} va 256 s with
  | (.ok bs, s) => (if recordOk bs then { lr := parseRecord bs, tok := tok, dep := (parseRecord bs).dep }
      else { lr := {}, tok := tok, dep := 0, bad := true }, s)
  | (.fault, s) => ({ lr := {}, tok := tok, dep := 0, bad := true }, s)
  | (.page a p, s) => ({ lr := {}, tok := tok, dep := 0, va := .some va }, admitJoin ctx a p s)

/-- The entries of a host queue whose records are awaited are read again. -/
def fillQueue (ctx : Nat) (s : State) (k : Nat) : State :=
  let r := (tget [] k s.vs.hostq).foldl (fun (r : List QItem × State) it =>
    match it.va with
    | .some va => let x := readEntry ctx it.tok va r.2; (r.1 ++ [x.1], x.2)
    | .none => (r.1 ++ [it], r.2)) ([], s)
  { r.2 with vs := { r.2.vs with hostq := tset [] k r.1 r.2.vs.hostq } }
def fillEntries (ctx : Nat) (s : State) : State := [0, 1, 2, 3].foldl (fun s j => fillQueue ctx s (ctx * 4 + j)) s

/-- What the reads of an admission have found so far. -/
structure Found where
  cbook : Tab (BitVec 16) := []
  caps : Tab (Option Cap) := []
  hlist : List (Nat × Nat × Nat) := []
  parts : List Nat := []
  deriving DecidableEq, Repr

inductive AdmGot
  | ok (f : Found)
  | bad
  | page (asid page : Nat)
  deriving DecidableEq, Repr

/-- One more table, if the ones before passed; `use` answers none where the table fails its checks. DEDUCED: log entry 13. -/
def withTable (ctx : Nat) (l : LRec) (va n : Nat) (use : List Byte → Found → Option Found) (r : AdmGot × State) : AdmGot × State :=
  match r with
  | (.ok f, s) =>
    if va = 0 then (.ok f, s)
    else match readTable ctx l va n s with
      | (.ok bs, s) => (match use bs f with | .some f => .ok f | .none => .bad, s)
      | (.fault, s) => (.bad, s)
      | (.page a p, s) => (.page a p, s)
  | x => x

/-- The address of a slot's codebook: cb_addr holds bits [56:5] (R55), the bits above follow bit 56. DEDUCED: log entry 13. -/
def cbAddr (f : Word) : Nat := (((f >>> 12).setWidth 52 ++ (0 : BitVec 5)).signExtend 64).toNat

/-- The codebook of a slot of kind e4 (R56); an address of 0 is read like any other. -/
def readCode (ctx : Nat) (l : LRec) (r : AdmGot × State) (slot : Nat) : AdmGot × State :=
  let f := tget 0 slot l.fslots
  if slotKind f ≠ 4 then r
  else match r with
    | (.ok x, s) =>
      (match readTable ctx l (cbAddr f) 32 s with
      | (.ok bs, s) =>
        let put (t : Tab (BitVec 16)) (c : Nat) : Tab (BitVec 16) := tset 0 (slot * 16 + c) (BitVec.ofNat 16 (fieldOf bs (2 * c) 2)) t
        (.ok { x with cbook := (List.range 16).foldl put x.cbook }, s)
      | (.fault, s) => (.bad, s)
      | (.page a p, s) => (.page a p, s))
    | x => x

/-- Kinds by code (R264). -/
def capKindOf : Nat → Option CapKind
  | 1 => .some .queue | 2 => .some .comp | 3 => .some .core | 4 => .some .ualink | 5 => .some .halo | 6 => .some .coll
  | 7 => .some .gloss | _ => .none

/-- The operand bits that a kind leaves reserved (R264, R265, R351, R352). -/
def operandOk (k : CapKind) (x : Nat) : Bool :=
  match k with
  | .ualink => decide (x < 2 ^ 26) | .gloss => decide (x < 16) | .comp => decide (x < 2 ^ 33) | .halo => decide (x < 4)
  | .coll => decide (x < 4) | .queue => true | .core => true

/-- One capability entry (R264, R265): outer none: malformed. -/
def parseCap (e : Nat) : Option (Option Cap) :=
  if nb e 8 8 = 0 then (if e = 0 then .some .none else .none)
  else match capKindOf (nb e 47 40) with
    | .none => .none
    | .some k =>
      if nb e 39 12 ≠ 0 ∨ nb e 7 0 ≠ 0 ∨ nb e 63 48 = 0 ∨ operandOk k (nb e 127 64) = false then .none
      else .some (.some { kind := k, operand := word (nb e 127 64), allow := nb e 63 48
                          s := nb e 9 9 = 1, v := nb e 10 10 = 1, x := nb e 11 11 = 1 })

def useCaps (bs : List Byte) (f : Found) : Option Found :=
  let es := (List.range 64).map fun i => parseCap (fieldOf bs (16 * i) 16)
  if es.all Option.isSome then
    .some { f with caps := (List.range 64).foldl (fun t i => tset .none i ((es.getD i .none).getD .none) t) [] }
  else .none

/-- The handle list (R267). -/
def useHandles (stash : Nat) (bs : List Byte) (f : Found) : Option Found :=
  let es := ((List.range 127).map fun i => (i + 1, fieldOf bs (8 * i) 4, fieldOf bs (8 * i + 4) 4)).filter fun e =>
    e.2.1 != 0 || e.2.2 != 0
  let ok (e : Nat × Nat × Nat) : Bool :=
    decide (e.2.1 % 128 = 0) && decide (e.2.2 % 128 = 0) && decide (128 ≤ e.2.2) && decide (e.2.1 + e.2.2 ≤ stash)
  let apart := es.all fun e => es.all fun g => e.1 == g.1 || !tilesMeet e.2.1 g.2.1 e.2.2 g.2.2
  if es.all ok && apart then .some { f with hlist := es } else .none

/-- The participation bitmap (R262, R382): a nonempty set needs the concurrent class and cores of the partition. -/
def useParts (cls : Cls) (cores : List Nat) (bs : List Byte) (f : Found) : Option Found :=
  let n := natOf bs
  let ps := (List.range 1024).filter fun c => n / 2 ^ c % 2 = 1
  if ps = [] then .some f
  else if cls = .concurrent ∧ ps.all cores.contains = true then .some { f with parts := ps } else .none

/-- The checks of R262 that read memory; the partition of a render context is its own cores. DEDUCED: log entry 13. DESIGN CHOICE: log entry 51. -/
def admitChecks (ctx : Nat) (l : LRec) (s : State) : AdmGot × State :=
  let own := if ctx < 64 then
      (let b := (tget .none ctx s.vs.vb).getD {}; (List.range 960).filter fun c => b.cores.getLsbD c)
    else match tget .none (ctx - 64) s.vs.rb with | .some b => b.cores | .none => []
  let r : AdmGot × State := (List.range 8).foldl (readCode ctx l) (.ok {}, s)
  let r := withTable ctx l l.capbase 1024 useCaps r
  let r := withTable ctx l l.partset 128 (useParts l.cls own) r
  withTable ctx l l.hlist 1016 (useHandles l.stash) r

/-! ## Placing (R271) -/

/-- The cores where a team of a grid fits, by what it needs. -/
def fitting (s : State) (g : Nat) (need : Nat → Need) : List Nat :=
  let x := getGrid s g
  (starts x.lr.pair (gridCores s g)).filter fun c => fitsAt s x.ctx x.lr.pair c need

/-- The number of a grid's teams that have been created. -/
def created (s : State) (g : Nat) : Nat := ((teamsOf s g).filter fun t => (getTeam s t).st != .queued).length

def newNeed (s : State) (g : Nat) : Nat → Need :=
  let x := getGrid s g
  baseNeed x.lr (queueNames x.caps).length

/-- The next team of a grid, placed where it fits. -/
def placeNext (g : Nat) (s : State) : Option State :=
  match fitting s g (newNeed s g) with
  | [] => .none
  | c :: cs => let r := pick (c :: cs) c s; .some (startTeam (teamKey g (created s g)) r.1 r.2)

/-- Every team of a concurrent grid, together. -/
def placeAll (g : Nat) : Nat → State → Option State
  | 0, s => .some s
  | n + 1, s => (placeNext g s).bind (placeAll g n)

/-- A withdrawn receive is issued again, with a tracker of its own (R214, R223), once one can be taken (R215). -/
def reissueOne (s : State) (o : Op) : State :=
  let t := { s with sc := { s.sc with issues := s.sc.issues + 1 } }
  if trackersOk t o.gk (opTrackers o) then
    { t with
      sc := { t.sc with issues := t.sc.issues + 1 }
      mm := { t.mm with ops := t.mm.ops ++ [{ o with iss := t.sc.issues, core := coreOf t o.gk }]
                        withdrawn := t.mm.withdrawn.filter fun p => p.id != o.id } }
  else s

/-- The receives that an eviction or a slice end has withdrawn are issued again, as far as trackers can be taken (R215, R223). -/
def reissue (t : Nat) (s : State) : State := (s.mm.withdrawn.filter fun o => teamOfG o.gk == t).foldl reissueOne s

/-- A saved team is resident again; one that has nothing left to do ends (R224). -/
def comeBack (t core : Nat) (s : State) : State := settleTeam t (reissue t (reside t core s))

/-- A woken team goes on where it fits. -/
def placeWoken (t : Nat) (s : State) : Option State :=
  match fitting s (gridOfT t) (needOf s t) with
  | [] => .none
  | c :: cs => let r := pick (c :: cs) c s; .some (comeBack t r.1 r.2)

/-- The barrier context of a launch with a participation set (R377). -/
def takeBarrier (g c : Nat) (parts : List Nat) (s : State) : State :=
  let s := setGrid g { getGrid s g with barCtx := .some c } s
  parts.foldl (fun s k =>
    { s with rp := { s.rp with part := tset false (c * 960 + k) true s.rp.part
                               mask := if tget false k s.rp.dead then s.rp.mask else tset true (c * 960 + k) false s.rp.mask } })
    { s with rp := { s.rp with holder := tset .none c (.some g) s.rp.holder } }

/-- The next grid number. -/
def nextGrid (s : State) : Nat := s.grid.foldl (fun n p => max n (p.1 + 1)) 0

/-- The grid of an admitted item. -/
def makeGrid (ctx prio : Nat) (host : Bool) (it : QItem) (f : Found) (s : State) : Nat × State :=
  let g := nextGrid s
  let x : Grid := { ctx := ctx, lr := it.lr, caps := f.caps, cbook := f.cbook, hlist := f.hlist, hostTok := if host then it.tok else 0
                    parent := it.parent, trig := it.trig, prio := prio, order := s.vs.orders, code0 := s.mm.mem }
  (g, { setGrid g x s with vs := { s.vs with orders := s.vs.orders + 1 } })

/-- An item that is refused takes its status without running a team (R271). -/
def refuseItem (ctx prio : Nat) (host : Bool) (it : QItem) (status : Nat) (s : State) : State :=
  let r := makeGrid ctx prio host it {} s
  endGrid r.1 status r.2

/-! ## Queues (R270) -/

/-- Whether the launch that an item depends on has ended. -/
def depEnded (s : State) (ctx : Nat) (host : Bool) (it : QItem) : Bool :=
  if it.dep = 0 then true
  else if host then s.vs.hostEnded.any fun p => p.1 == vdevOf s ctx && p.2 == it.dep
  else match it.parent with
    | .some (g, _) =>
      let x := getGrid s g
      x.status.isSome || (match findTok x it.dep with | .some k => k.status.isSome | .none => true)
    | .none => true

/-- The heads of a context's queues in their order: highest priority first, the device-side queue before the host queue. -/
def heads (s : State) (ctx : Nat) : List (Nat × Bool × QItem) :=
  [3, 2, 1, 0].flatMap fun p =>
    let one (host : Bool) (q : List QItem) : List (Nat × Bool × QItem) :=
      match q with
      | it :: _ => if it.va.isNone && depEnded s ctx host it then [(p, host, it)] else []
      | [] => []
    one false (tget [] (ctx * 4 + p) s.vs.devq) ++ one true (tget [] (ctx * 4 + p) s.vs.hostq)

/-- A head leaves its queue. -/
def popHead (ctx prio : Nat) (host : Bool) (s : State) : State :=
  let k := ctx * 4 + prio
  if host then { s with vs := { s.vs with hostq := tset [] k ((tget [] k s.vs.hostq).drop 1) s.vs.hostq } }
  else { s with vs := { s.vs with devq := tset [] k ((tget [] k s.vs.devq).drop 1) s.vs.devq } }

/-- The lowest free barrier context (R383). -/
def freeContext (s : State) : Option Nat := [0, 1, 2, 3].find? fun c => (tget .none c s.rp.holder).isNone

/-- What an item comes to: done, still in the way, or a page that is awaited. -/
inductive Placed
  | done (s : State)
  | no
  | hold (s : State)

/-- A head is admitted: refused, or its grid is created and its first team (of a concurrent launch every team) is placed. -/
def admitLaunch (ctx prio : Nat) (host : Bool) (it : QItem) (s : State) : Placed :=
  if it.bad then .done (refuseItem ctx prio host it 0x8003 (popHead ctx prio host s))
  else match admitChecks ctx it.lr s with
    | (.bad, s) => .done (refuseItem ctx prio host it 0x8003 (popHead ctx prio host s))
    | (.page a p, s) => .hold (admitJoin ctx a p s)
    | (.ok f, s) =>
      let cores := if f.parts = [] then partition s ctx else (partition s ctx).filter f.parts.contains
      if it.lr.cls = .concurrent ∧ couldFit ctx it.lr (queueNames f.caps).length cores = false then
        .done (refuseItem ctx prio host it 0x8002 (popHead ctx prio host s))
      else
        let r := makeGrid ctx prio host it f (popHead ctx prio host s)
        let s := r.2
        match (if f.parts = [] then .some s else (freeContext s).map fun c => takeBarrier r.1 c f.parts s) with
        | .none => .no
        | .some s =>
          match placeAll r.1 (if it.lr.cls = .concurrent then it.lr.teams else 1) s with
          | .some s => .done s
          | .none => .no

/-! ## Items in order (R271) -/

inductive Item
  | woken (t : Nat)
  | next (g : Nat)
  | head (prio : Nat) (host : Bool) (it : QItem)
  deriving DecidableEq, Repr

def weakG (s : State) (g : Nat) : Bool := (getGrid s g).lr.cls == .weak

/-- A context's items, in the distributor's order. -/
def items (s : State) (ctx : Nat) : List Item :=
  let woken := (s.team.filter fun p => p.2.ctx == ctx && p.2.st == .woken).mergeSort fun a b => a.2.woke ≤ b.2.woke
  let grids := (s.grid.filter fun p => p.2.ctx == ctx && p.2.status.isNone && decide (created s p.1 < p.2.lr.teams)).mergeSort
    fun a b => a.2.order ≤ b.2.order
  let ws (weak : Bool) : List Item := (woken.filter fun p => weakG s (gridOfT p.1) == weak).map fun p => .woken p.1
  let gs (weak : Bool) : List Item := (grids.filter fun p => weakG s p.1 == weak).map fun p => .next p.1
  ws false ++ gs false ++ ws true ++ gs true ++ (heads s ctx).map fun h => .head h.1 h.2.1 h.2.2

def placeItem (ctx : Nat) (i : Item) (s : State) : Placed :=
  match i with
  | .woken t => (match placeWoken t s with | .some s => .done s | .none => .no)
  | .next g => (match placeNext g s with | .some s => .done s | .none => .no)
  | .head p h it => admitLaunch ctx p h it s

/-! ## Render contexts in turn (R278) -/

/-- The render contexts of a virtual device that have teams or queued launches, as contexts. -/
def liveContexts (s : State) (v : Nat) : List Nat :=
  ((s.vs.rb.filter fun p => match p.2 with | .some b => b.owner == v | .none => false).map fun p => 64 + p.1).filter fun c =>
    (s.team.any fun p => p.2.ctx == c && p.2.st != .ended) || !(items s c).isEmpty

/-- Cores that two contexts share. -/
def coresMeet (s : State) (a b : Nat) : Bool := (partition s a).any (partition s b).contains

/-- Whether a render context may hold cores: no other context of its owner holds one of them, and none that shares them is the one
whose turn it is. DEDUCED: log entry 22. -/
def contextTurn (s : State) (ctx : Nat) : Bool :=
  if ctx < 64 then true
  else
    let v := vdevOf s ctx
    let cur := tget 0 v s.vs.rcur
    ((s.team.filter fun p => p.2.st == .resident && decide (64 ≤ p.2.ctx) && p.2.ctx != ctx && vdevOf s p.2.ctx == v).all
        fun p => (coresOf p.2).all fun c => !(partition s ctx).contains c)
      && (cur == ctx || !(liveContexts s v).contains cur || !coresMeet s ctx cur)

/-- The turn goes to a context that begins while the one that had it has nothing to do. -/
def takeTurn (ctx : Nat) (s : State) : State :=
  let v := vdevOf s ctx
  if ctx < 64 ∨ (liveContexts s v).contains (tget 0 v s.vs.rcur) = true ∨
      (s.team.any fun p => p.2.ctx == ctx && p.2.st == .resident) = false then s
  else { s with vs := { s.vs with rcur := tset 0 v ctx s.vs.rcur } }

/-! ## Eviction (R222, R223, R272) -/

/-- Teams of concurrent launches are never evicted (R272). -/
def concurrentT (s : State) (t : Nat) : Bool := (getGrid s (gridOfT t)).lr.cls == .concurrent

/-- Every live thread is BLOCKED or at a convergence wait, one at least BLOCKED (R222); what its cores have written can be performed (R223,
R319). DEDUCED: log entry 9. -/
def evictable (s : State) (t : Nat) : Bool :=
  let gs := (List.range (getGrid s (gridOfT t)).lr.groups).map (groupKey t)
  let ths := gs.flatMap fun g => (live s g).map fun i => getThr s (threadKey g i)
  (getTeam s t).st == .resident && !concurrentT s t && ths.all (fun y => y.st == .blocked || y.st == .waitConv)
    && (ths.any fun y => y.st == .blocked) && (coresOf (getTeam s t)).all fun c => !heldBack s c true

/-- Bytes that a saved team takes of the team heap, in units of 64 KiB (R280): its layout is the module's own; counted here are its
registers, its stash, its slots and its records. DEDUCED: log entry 22. -/
def savedBytes (s : State) (t : Nat) : Nat :=
  let a := needOf s t 0
  let b := needOf s t 1
  let pair := (getTeam s t).pair
  let n (x : Need) : Nat := x.regs + x.stash + 3072 * x.slots + 512 * x.recs
  65536 * ((n a + (if pair then n b else 0) + 65535) / 65536)

/-- The team heap of a context, and what its saved teams hold of it. -/
def heapSize (s : State) (ctx : Nat) : Nat :=
  if ctx < 64 then (blockOf s ctx).savesize - 5 * 2 ^ 20
  else match tget .none (ctx - 64) s.vs.rb with | .some b => b.savesize | .none => 0
def isSaved (x : Team) : Bool := x.st == .evicted || x.st == .woken || x.st == .switchedOut
def heapUsed (s : State) (ctx : Nat) : Nat :=
  (s.team.filter fun p => p.2.ctx == ctx && isSaved p.2).foldl (fun n p => n + savedBytes s p.1) 0
/-- What a context's resident teams need of it, were they saved (R280). -/
def heapNeed (s : State) (ctx : Nat) : Nat :=
  (s.team.filter fun p => p.2.ctx == ctx && p.2.st == .resident).foldl (fun n p => n + savedBytes s p.1) 0

/-- The team of an operand-cache entry. -/
def keyTeam (k : Nat) : Nat := if k % 2 = 1 then k / 2 / 64 / 128 else k / 2 / 64 / 64 / 128

/-- The parts of a core's state that are not saved (R226): fetch lanes, loop buffers, bundles; a group that waits in the rendezvous latch
is saved unissued. -/
def unseat (t : Nat) (s : State) : State :=
  let mine (k : Nat) : Bool := k / 64 / 128 == t
  let s := { s with sc := { s.sc with
    lanes := tmap [] (fun _ ls => ls.filter fun l => !mine l.tk) s.sc.lanes
    laneq := tmap [] (fun _ ls => ls.filter fun k => !mine k) s.sc.laneq
    bundles := tmap [] (fun _ bs => bs.filter fun b => teamOfG b.gk != t) s.sc.bundles
    opc := tmap [] (fun _ ks => ks.filter fun k => keyTeam k != t) s.sc.opc } }
  ((List.range (getGrid s (gridOfT t)).lr.groups).map (groupKey t)).foldl (fun s g =>
    if (getGrp s g).latch.isSome then setGrp g { getGrp s g with latch := .none } s else s) s

/-- A saved team's pending receives are withdrawn before they take anything (R223). -/
def withdraw (t : Nat) (s : State) : State :=
  let out (o : Op) : Bool := teamOfG o.gk == t && isRecv o.k
  { s with mm := { s.mm with ops := s.mm.ops.filter fun o => !out o, withdrawn := s.mm.withdrawn ++ s.mm.ops.filter out } }

/-- A team is evicted (R223): what it has written is performed, its receives are withdrawn. -/
def evict (t : Nat) (s : State) : State :=
  let s := withdraw t (unseat t (leaveCores t s))
  setTeam t { getTeam s t with st := .evicted } s

/-- Class, priority and placement order of a victim. -/
def victimKey (s : State) (t : Nat) : Nat × Nat × Nat :=
  let x := getGrid s (gridOfT t)
  (if x.lr.cls = .weak then 0 else 1, x.prio, (getTeam s t).order)

/-- Victims of a virtual device in their order (R272). -/
def victims (s : State) (v : Nat) : List Nat :=
  let ts := (tkeys s.team).filter fun t => vdevOf s (getTeam s t).ctx == v && evictable s t
  ts.mergeSort fun a b =>
    let x := victimKey s a
    let y := victimKey s b
    decide (x.1 < y.1 ∨ (x.1 = y.1 ∧ (x.2.1 < y.2.1 ∨ (x.2.1 = y.2.1 ∧ y.2.2 ≤ x.2.2))))

/-- Victims leave one at a time until the item can be placed; a victim that the heap cannot hold, beyond what the resident teams need, is
passed over (R280). -/
def evictFor (ctx : Nat) (i : Item) : List Nat → State → Placed
  | [], _ => .no
  | t :: ts, s =>
    if heapSize s (getTeam s t).ctx < heapUsed s (getTeam s t).ctx + heapNeed s (getTeam s t).ctx then evictFor ctx i ts s
    else
      let s := evict t s
      match placeItem ctx i s with
      | .no => evictFor ctx i ts s
      | r => r

/-! ## The distributor -/

/-- A virtual device that waits longer than another for the same cores. -/
def waitsAhead (s : State) (v : Nat) : Bool :=
  (s.vs.waiting.takeWhile (· != v)).any fun w => w != v && coresMeet s w v

/-- A switched-out team goes back to its logical cores, where R205 allows it (R224). -/
def returnTeam (s : State) (t : Nat) : State :=
  let x := getTeam s t
  if x.st = .switchedOut ∧ contextTurn s x.ctx ∧ fitsAt s x.ctx x.pair x.core (needOf s t) then comeBack t x.core s else s

/-- The switched-out teams of a virtual device, in residency order. -/
def switchedOut (s : State) (v : Nat) : List Nat :=
  ((s.team.filter fun p => vdevOf s p.2.ctx == v && p.2.st == .switchedOut).mergeSort fun a b => a.2.order ≤ b.2.order).map Prod.fst

/-- Whether another virtual device holds cores of this one. -/
def heldByOther (s : State) (v : Nat) : Bool :=
  s.team.any fun p => p.2.st == .resident && vdevOf s p.2.ctx != v && (coresOf p.2).any (partition s v).contains

/-- Whether a virtual device's slice is on, or may begin at once (R277). -/
def sliceOn (s : State) (v : Nat) : Bool :=
  !s.vs.waiting.contains v || (!waitsAhead s v && ((switchedOut s v).isEmpty || !heldByOther s v))

/-- The first item is placed; else after evictions; else the context's device waits for its slice, if another device holds its cores
(R271, R272, R277); a disabled device's queues are ignored (R273). -/
def distribute (ctx : Nat) (s : State) : State :=
  let v := vdevOf s ctx
  let calm (s : State) : State := { s with vs := { s.vs with waiting := s.vs.waiting.erase v } }
  let s := if servedCtx s ctx then fillEntries ctx s else s
  if !servedCtx s ctx || !sliceOn s v then s
  else
    let back := (switchedOut s v).foldl returnTeam s
    if (switchedOut back v).length < (switchedOut s v).length then calm (takeTurn ctx back)
    else match items s ctx with
      | [] => if (switchedOut s v).isEmpty then calm s else s
      | i :: _ =>
        if !contextTurn s ctx then s
        else match placeItem ctx i s with
          | .done s => calm (takeTurn ctx s)
          | .hold s => s
          | .no =>
            match evictFor ctx i (victims s v) s with
            | .done s => calm (takeTurn ctx s)
            | .hold s => s
            | .no =>
              if heldByOther s v && !s.vs.waiting.contains v then { s with vs := { s.vs with waiting := s.vs.waiting ++ [v] } } else s

/-- R271: the distributor of a context places its first item. -/
def execDistributorPlacement (v : Nat) (s : State) : Out := .next (distribute v s)

end Sys2Proof.Machine
end

