-- ==== Sys2Proof/Machine/EngineEvents.lean ====
section
/-! DEFINITION. The beats and the end of a copy (R142, R238), and the page moves of a claim (R139, R304, R314, R315). -/

namespace Sys2Proof.Machine

/-! ## Copies (R142) -/

/-- The aligned block within which a beat is single-copy (R124): 32 bytes in HBM, 8 in host and peer memory. -/
def beatBlock (q : Asker) (wr : Bool) (a : Word) (s : State) : Nat × State :=
  match xlate q (a.toNat % 2 ^ 57) 1 (if wr then .w else .r) true s with
  | (.ok pa _, s) => (if isHbm pa then 32 else 8, s)
  | (.cause _, s) => (32, s)
  | (.absent, s) => (32, s)

/-- The bytes that memory holds where a drain writes, as the current copy has them, under the leaf's key (R303). -/
def currentBytes (gk : Nat) (va : Word) (n : Nat) (s : State) : List Byte :=
  let asid := ctxOf s gk
  let u := va.toNat % 2 ^ 57
  match agentLeaf s asid u with
  | .none => List.replicate n 0
  | .some l =>
    (keyedBytes s l (match (if l.region = 0 then .none else pageIndex s l.region asid u) with
      | .some i => (List.range n).map fun k => currentAt s l.region i l (u % 65536 + k)
      | .none => (List.range n).map (l.pa + u % 65536 + ·))).1

def setCopy (k : Nat) (c : Copy) (s : State) : State := setOp k (.copy c) s

/-- A fill's beat arrives. -/
def fillArrives (k : Nat) (c : Copy) (ms : List Move) (bs : List Byte) (bad : List Bool) (s : State) : State :=
  match getHandle s c.team c.h with
  | .none => s
  | .some x => setCopy k { c with pos := c.pos + ms.length, wait := .none, sent := .none } (fillBeat c.team x.off ms bs bad s)

/-- The next beat of a copy: its memory bytes in turn. -/
def nextBeat (o : Op) (c : Copy) (s : State) : List Move × State :=
  let l := recOf s o.gk
  let r := beatBlock (copyAsker s o.gk c.chan) c.drain (moveAt l c c.pos).a s
  (beatFrom l c r.1 r.1 c.pos .none, r.2)

/-- The moves of the beat that a peer has been asked for. -/
def sentMoves (s : State) (o : Op) (c : Copy) : List Move :=
  match c.sent with
  | .some p => (List.range p.len).map fun i => moveAt (recOf s o.gk) c (c.pos + i)
  | .none => []

/-- One beat of a copy, once its home can be reached (R319); a beat to a peer waits for the peer's answer (R350); a permission fault ends
the copy. -/
def copyStep (o : Op) (c : Copy) (s : State) : State :=
  let fail (s : State) : State := setCopy o.id { c with err := true, wait := .none } s
  let b := nextBeat o c s
  let ms := b.1
  let s := b.2
  let a := (ms.headD ⟨0, .none, .none⟩).a
  let q := copyAsker s o.gk c.chan
  match getHandle s c.team c.h with
  | .none => s
  | .some x =>
    if cutOff s o.gk [(a, ms.length)] then s
    else if c.drain then
      let old := currentBytes o.gk a ms.length s
      let bs := (List.range ms.length).map fun i =>
        drainByte s c.team x.off c.xp (old.getD i 0) (ms.getD i ⟨0, .none, .none⟩)
      let bad := ms.map (drainBad s c.team x.off)
      match engWrite q o.gk a bs bad s with
      | (.done, s) => setCopy o.id { c with pos := c.pos + ms.length, wait := .none } s
      | (.err, s) => fail s
      | (.wait w, s) => setCopy o.id { c with wait := w } s
      | (.peer p e, s) => setCopy o.id { c with wait := .agent o.id, sent := .some p } (setEntryBit e 8 s)
    else
      match engRead q o.gk .g a ms.length s with
      | (.ok bs bad, s) => fillArrives o.id c ms bs bad s
      | (.err _, s) => fail s
      | (.wait w, s) => setCopy o.id { c with wait := w } s
      | (.peer p, s) => setCopy o.id { c with wait := .agent o.id, sent := .some p } s

/-- Whether an engine's wait has ended: its page's record has been answered or the page is there; its sub-pool has a page. -/
def engReady (s : State) (w : Wait) : Bool :=
  match w with
  | .none => true
  | .page asid p => !pendingRec s asid p
  | .pool _ _ => false
  | .agent _ => false
  | _ => true

/-- The copy has no beat left. -/
def copyOver (s : State) (o : Op) (c : Copy) : Bool := c.err || decide (totalMoves (recOf s o.gk) c ≤ c.pos)

/-- R142: a copy engine moves one beat. -/
def execCopyBeat (k : Nat) (s : State) : Out :=
  .next (match findOp s k with
    | .some o =>
      (match o.k with
      | .copy c => if enginesRun s o.gk && !copyOver s o c && engReady s c.wait then copyStep o c s else s
      | _ => s)
    | .none => s)

/-- A fill leaves zero in the bytes of its tile beyond the image. -/
def zeroRest (l : LRec) (c : Copy) (x : Handle) (s : State) : State :=
  let n := imageBytes (geoOf l c.shape c.xp c.xw)
  stashWrite c.team (x.off + n) (List.replicate (x.size - n) 0) s

/-- R142: a copy's last beat is performed: its handle becomes full or free. -/
def execCopyEnd (k : Nat) (s : State) : Out :=
  .next (match findOp s k with
    | .some o =>
      (match o.k with
      | .copy c =>
        if enginesRun s o.gk && copyOver s o c then
          let s := match getHandle s c.team c.h with
            | .none => s
            | .some x =>
              if c.err then setHandle c.team c.h { x with st := .free, err := true } s
              else if c.drain then setHandle c.team c.h { x with st := .free } s
              else setHandle c.team c.h { x with st := .full } (zeroRest (recOf s o.gk) c x s)
          let s := match c.set with
            | .none => s
            | .some n =>
              let t := getTeam s c.team
              (match tget .none n t.sets with
              | .some f => setTeam c.team { t with sets := tset .none n (.some { f with live := f.live.erase k }) t.sets } s
              | .none => s)
          let s := tapCopy (coreOf s o.gk) c.tmpl c.err c.drain (ctxOf s o.gk) s
          settleTeam c.team (dropOp k s)
        else s
      | _ => s)
    | .none => s)

/-! ## Claims (R304, R314, R315) -/

/-- Sub-pool k of a virtual device's claim pools. DEDUCED: log entry 32. -/
def claimPool (s : State) (vdev k : Nat) : Nat := (blockOf s vdev).savebase + 16384 + 16 * k

/-- What one page of a claim comes to. -/
inductive PageMove
  | moved (s : State)
  | left (s : State)
  | wait (w : Wait) (s : State)
  /-- a line to recall is held at its die: the claim tries again (R319) -/
  | held

/-- A leaf entry takes a new page and place. -/
def rehome (l : Leaf) (page place : Nat) (s : State) : State :=
  let e := rdN s l.at_ 16
  let e := e - nb e 51 16 * 2 ^ 16 + page / 65536 * 2 ^ 16
  let e := e - nb e 62 60 * 2 ^ 60 + place * 2 ^ 60
  pwriteN l.at_ 16 e s

/-- The accesses in flight that reached a page through a caller's mapping are performed at its new place (R139, R315). -/
def redirect (asid old q : Nat) (s : State) : State :=
  let go (p : Part) : Part := if p.pa / 65536 = old / 65536 then { p with pa := q + p.pa % 65536 } else p
  let ops := s.mm.ops.map fun o => if ctxOf s o.gk = asid ∧ opStash o.k = false then { o with k := mapParts go o.k } else o
  { s with mm := { s.mm with ops := ops } }

/-- A page of no region (R315). Where its destination lies outside the device's slices, accesses of the page take ACCESS_FAULT from
then on (R276, R310). DEDUCED: log entries 22, 32. -/
def movePlain (asid vdev d page : Nat) (l : Leaf) (s : State) : PageMove :=
  let old := l.pa / 65536 * 65536
  let p := claimPool s vdev (1 + d)
  let back := claimPool s vdev (subPoolOf s old)
  if poolRoom s back = 0 then .left s
  else match poolPop p s with
    | .none => .left s
    | .some (q, s) =>
      let s := redirect asid old q (copyBytes (materialOf s l) old q 65536 (recallPage old s))
      .moved (poolPush back old (dropXlat asid page 1 (rehome l q (4 + d) s)))

/-- `n` pages popped from a sub-pool of a region. -/
def popMany (r k : Nat) : Nat → State → List Nat × State
  | 0, s => ([], s)
  | n + 1, s =>
    match subPop r k s with
    | .none => ([], s)
    | .some (q, s) => let x := popMany r k n s; (q :: x.1, x.2)

/-- A page of an editioned region: its current and its retained copies move together (R304), also where their destinations lie outside
the device's slices (R310). DEDUCED: log entry 22. -/
def moveEditioned (asid vdev d i : Nat) (l : Leaf) (s : State) : PageMove :=
  let r := l.region
  let s := copyAllSubs r i (l.pa / 65536 * 65536, l.edition) s
  let s := if subCount s r (1 + d) ≤ catCount s r i then reclaimRegion r s else s
  let n := catCount s r i + 1
  if subCount s r (1 + d) < n then .wait (.pool r (1 + d)) (enterPool r i (1 + d) asid vdev 2 s)
  else if subRoom s r (subPoolOf s l.pa) < n then .left s
  else
    let full := subRoom s r (1 + d) == 0
    let g := popMany r (1 + d) n s
    let m := materialOf s l
    let old := l.pa / 65536 * 65536
    let slots := catSlots g.2 r i
    let q0 := g.1.headD 0
    let qs := g.1.drop 1
    let s := copyBytes m old q0 65536 (recallPage old g.2)
    let s := (slots.zip qs).foldl (fun s x => copyBytes m x.1.2 x.2 65536 s) s
    let s := setCat r i (catPend s r i) ((slots.zip qs).map fun m => (m.1.1, m.2)) s
    let s := remapPage r i q0 l.edition (4 + d) s
    let s := subPush r (subPoolOf s old) old s
    .moved (pushHeld full r (slots.foldl (fun s m => subPush r (subPoolOf s m.2) m.2 s) s))

/-- One page of a claim by a die. -/
def movePage (asid vdev d page : Nat) (s : State) : PageMove :=
  match agentLeaf s asid (page * 65536) with
  | .none => .left s
  | .some l =>
    if l.size ≠ 0 ∨ isHbm l.pa = false ∨ l.place = 4 + d then .left s
    else if !recallable s l.pa then .held
    else if l.region = 0 then movePlain asid vdev d page l s
    else match pageIndex s l.region asid (page * 65536) with
      | .none => .left s
      | .some i => moveEditioned asid vdev d i l s

/-- R315: one page of a claim's range is moved or left; after the last, `sd` takes the number moved. DEDUCED: log entry 32. -/
def execClaimPageMove (k : Nat) (s : State) : Out :=
  .next (match findOp s k with
    | .some o =>
      (match o.k with
      | .claim d page left moved w =>
        let asid := ctxOf s o.gk
        if left = 0 then
          let s := dropOp k s
          if aliveG s o.gk then complete o.gk 0 true d (word moved) s else s
        else if w ≠ .none then s
        else
          let vdev := vdevOf s asid
          (match movePage asid vdev (dieOf (coreOf s o.gk)) page s with
          | .moved s => setOp k (.claim d (page + 1) (left - 1) (moved + 1) .none) s
          | .left s => setOp k (.claim d (page + 1) (left - 1) moved .none) s
          | .wait w s => setOp k (.claim d page left moved w) s
          | .held => s)
      | _ => s)
    | .none => s)

end Sys2Proof.Machine
end

