-- ==== Sys2Proof/Machine/Tenancy.lean ====
section
/-! DEFINITION. Slices (R277), render contexts (R278, R279), configuration blocks (R273 to R276, R310), published counters (R282). -/

namespace Sys2Proof.Machine

/-! ## Slices (R277, R278) -/

/-- A resident team is switched out (R224). -/
def switchOut (t : Nat) (s : State) : State :=
  let s := withdraw t (unseat t (leaveCores t s))
  setTeam t { getTeam s t with st := .switchedOut } s

def residentOf (s : State) (v : Nat) : List Nat :=
  (s.team.filter fun p => p.2.st == .resident && vdevOf s p.2.ctx == v).map Prod.fst

/-- R277: the quantum of a device that runs ends: if another virtual device waits for the same cores, this one is switched out and the oldest
waiting one's slice begins. A device that is idle, or waits for its own slice, has no quantum that could end. -/
def execSliceEnd (v : Nat) (s : State) : Out :=
  .next (if residentOf s v = [] ∨ s.vs.waiting.contains v then s else match s.vs.waiting.find? fun w => w != v && coresMeet s w v with
    | .none => s
    | .some w =>
      let s := (residentOf s v).foldl (fun s t => switchOut t s) s
      let s := { s with vs := { s.vs with waiting := (s.vs.waiting.erase w).erase v ++ [v] } }
      (switchedOut s w).foldl returnTeam s)

/-- The context after the current one, in ascending order, wrapping. -/
def nextContext (cur : Nat) (l : List Nat) : Option Nat :=
  match (l.filter fun c => decide (cur < c)).min? with
  | .some c => .some c
  | .none => l.min?

/-- R278: at a quantum end the next render context of a virtual device is switched in. DEDUCED: log entry 22. -/
def execRenderContextSwitch (v : Nat) (s : State) : Out :=
  .next (match nextContext (tget 0 v s.vs.rcur) (liveContexts s v) with
    | .none => s
    | .some c =>
      let out := (residentOf s v).filter fun t => decide (64 ≤ (getTeam s t).ctx) && (getTeam s t).ctx != c
        && coresMeet s c (getTeam s t).ctx
      let s := out.foldl (fun s t => switchOut t s) s
      let s := { s with vs := { s.vs with rcur := tset 0 v c s.vs.rcur } }
      ((switchedOut s v).filter fun t => (getTeam s t).ctx == c).foldl returnTeam s)

/-! ## Published counters (R282) -/

/-- The shared resources of a die as kind and index: its slices, the directory, its two links, the channels of its slice groups, its copy
engines. DEDUCED: log entry 22. -/
def resources (die : Nat) : List (Nat × Nat) :=
  (List.range 48).map (fun i => (0, 48 * die + i)) ++ [(1, 0)]
    ++ ([[0, 3], [0, 1], [2, 3], [1, 2]].getD die []).map (fun l => (2, l))
    ++ (List.range 12).map (fun i => (3, 12 * die + i)) ++ (List.range 8).map (fun i => (4, 8 * die + i))

/-- One resource's counter goes on, is latched, and the latch before is offered as a `summary` event. -/
def publish (die : Nat) (s : State) (r : Nat × Nat) : State :=
  let key := (die * 8 + r.1) * 65536 + r.2
  let old := tget 0 key s.vs.latch1
  let c := tget 0 key s.vs.cnt + Config.countedEvents s.fresh
  let s := tick { s with vs := { s.vs with cnt := tset 0 key c s.vs.cnt, latch2 := tset 0 key old s.vs.latch2
                                           latch1 := tset 0 key (c / 4096 * 4096) s.vs.latch1 } }
  tapSummary die old r.2 r.1 s

/-- R282: the shared counters of a die are published. -/
def execCounterPublish (die : Nat) (s : State) : Out := .next ((resources die).foldl (publish die) s)

/-! ## Configuration blocks (R273 to R275, R310) -/

def blockBytes (s : State) (v : Nat) : List Byte := pread s (s.rg.vdevBase.toNat + 256 * v) 256

def parseBlock (bs : List Byte) : VBlock :=
  let f := fieldOf bs 1 1
  { weight := fieldOf bs 0 1, bounded := nb f 0 0 = 1, hard := nb f 1 1 = 1, render := nb f 2 2 = 1
    l2share := fieldOf bs 2 2, quantum := fieldOf bs 4 4, tmplbase := fieldOf bs 8 8, tmplcount := fieldOf bs 16 4
    l1share := fieldOf bs 20 1, handler := word (fieldOf bs 24 8), savebase := fieldOf bs 32 8, reqmask := word (fieldOf bs 40 8)
    slices := (List.range 4).map fun d => BitVec.ofNat 48 (fieldOf bs (48 + 8 * d) 8)
    cores := BitVec.ofNat 960 (fieldOf bs 80 128), savesize := fieldOf bs 208 8 }

def coreList (b : VBlock) : List Nat := (List.range 960).filter fun c => b.cores.getLsbD c
def sliceCount (b : VBlock) : Nat :=
  b.slices.foldl (fun n m => n + ((List.range 48).filter fun i => m.getLsbD i).length) 0

/-- The minimum quantum in µs (R275); of a block that names no slice, 1. DESIGN CHOICE: log entry 43. -/
def minQuantum (b : VBlock) : Nat :=
  let d := sliceCount b * 204700
  1 + (if d = 0 then 0 else ((coreList b).length * 1146880 + d - 1) / d)

/-- The dies of a block's cores and of the ports that `reqmask` names, but for the host port, which every die has. -/
def diesOf (b : VBlock) : List Nat :=
  ((coreList b).map dieOf ++ ((List.range 32).filter fun i => bitAt b.reqmask i).map (· / 8)
    ++ ((List.range 16).filter fun i => bitAt b.reqmask (33 + i)).map (· / 4)).eraseDups

/-- VDEV_MALFORMED (R274, R310, R370). -/
def malformedBlock (s : State) (bs : List Byte) (b : VBlock) : Bool :=
  nb (fieldOf bs 1 1) 7 3 != 0 || fieldOf bs 21 3 != 0 || nb (fieldOf bs 40 8) 63 49 != 0 || fieldOf bs 200 8 != 0
    || ((List.range 4).any fun d => nb (fieldOf bs (48 + 8 * d) 8) 63 48 != 0) || (bs.drop 216).any (· != 0)
    || ((diesOf b).any fun d => b.slices.getD d 0 == 0) || b.savesize % 65536 != 0
    || decide (b.savesize < 5 * 2 ^ 20 + (coreList b).length * 1310720) || b.savebase % 65536 != 0 || b.tmplbase % 8 != 0
    || decide (65536 < b.tmplcount)
    || (b.slices.any fun m => (List.range 12).any fun g =>
        let x := m.toNat / 2 ^ (4 * g) % 16
        x != 0 && x != 15)
    || (coreList b).any fun c => tget false c s.rp.dead

/-- The other enabled devices' blocks. -/
def otherBlocks (s : State) (v : Nat) : List VBlock :=
  s.vs.vb.filterMap fun p => match p.2 with | .some b => if p.1 ≠ v ∧ enabledBlock b then .some b else .none | .none => .none

/-- VDEV_OVERLAP. -/
def overlapBlock (s : State) (v : Nat) (b : VBlock) : Bool :=
  let os := otherBlocks s v
  (os.any fun o => (b.hard || o.hard) &&
      (o.cores &&& b.cores != 0 || (List.range 4).any fun d => o.slices.getD d 0 &&& b.slices.getD d 0 != 0))
    || (coreList b).any fun c => decide (8 ≤ (os.filter fun o => o.cores.getLsbD c).length)

/-- VDEV_BUSY: while a team is resident, or, for a block that disables the device, while a team of it or of one of its render contexts is
resident or saved (R273, R274), or while the device is being reset (R402). -/
def busyBlock (s : State) (v : Nat) (b : VBlock) : Bool :=
  let mine := s.team.filter fun p => vdevOf s p.2.ctx == v
  let resident := mine.any fun p => p.2.st == .resident && p.2.ctx == v
  let held := mine.any fun p => p.2.st == .resident || isSaved p.2
  let old := (tget .none v s.vs.vb).getD {}
  (bitAt s.rg.flrCtl 63 && bits s.rg.flrCtl 5 0 == v)
    || (resident && (old.cores != b.cores || old.slices != b.slices || old.reqmask != b.reqmask || old.quantum != b.quantum))
    || (held && !enabledBlock b)

/-- The code of an apply (R274): the first check that fails, in the order of the table. DEDUCED: log entry 22. -/
def vdevCode (s : State) (v : Nat) (bs : List Byte) (b : VBlock) : Nat :=
  if malformedBlock s bs b || pbad s (s.rg.vdevBase.toNat + 256 * v) 256 then 4
  else if overlapBlock s v b then 2
  else if busyBlock s v b then 3
  else if b.quantum < minQuantum b then 1
  else 0

/-- R274: a block is applied, or refused with a code; the previous one then stands. Before step 6 of the bring-up the write is ignored
(R394). DEDUCED: log entry 22. -/
def execVdevApply (w : BitVec 64) (s : State) : Out :=
  if linkEnabled s = false then .next s else
  let v := bits w 5 0
  let bs := blockBytes s v
  let b := parseBlock bs
  let code := vdevCode s v bs b
  let s := { s with rg := { s.rg with vdevApply := word v, vdevStatus := word (minQuantum b * 2 ^ 32 + code) } }
  .next (if code = 0 then { s with vs := { s.vs with vb := tset .none v (.some b) s.vs.vb } } else s)

/-! ## Render contexts (R279) -/

/-- A render context's block: none: withdrawn. -/
def parseRctx (bs : List Byte) : Option RBlock :=
  let o := fieldOf bs 0 1
  if nb o 7 7 = 0 then .none
  else .some { owner := nb o 5 0, savebase := fieldOf bs 8 8, savesize := fieldOf bs 16 8
               cores := ((List.range 16).map fun i => fieldOf bs (24 + 2 * i) 2).filter (· != 0xFFFF) }

/-- Reserved bits of a render context's block, checked of a withdrawal too (R279). -/
def reservedRctx (bs : List Byte) : Bool := nb (fieldOf bs 0 1) 6 6 != 0 || fieldOf bs 1 7 != 0 || fieldOf bs 56 8 != 0

/-- VDEV_MALFORMED for a valid block (R279); a save area that does not begin at 64 KiB counts as well. DESIGN CHOICE: log entry 43. -/
def malformedRctx (s : State) (b : RBlock) : Bool :=
  let v := (tget .none b.owner s.vs.vb).getD {}
  !enabledV s b.owner || !v.render
    || b.cores.eraseDups.length != b.cores.length || (b.cores.any fun c => decide (960 ≤ c) || !v.cores.getLsbD c)
    || b.savesize % 65536 != 0 || decide (b.savesize < b.cores.length * 1310720) || b.savebase % 65536 != 0

/-- R279: a render context's block is applied or withdrawn, or refused with a code. -/
def execRctxApply (w : BitVec 64) (s : State) : Out :=
  let r := bits w 9 0
  let at_ := s.rg.rctxBase.toNat + 64 * r
  let bs := pread s at_ 64
  let new := parseRctx bs
  let held := s.team.any fun p => p.2.ctx == 64 + r && (p.2.st == .resident || isSaved p.2)
  let bad := pbad s at_ 64 || reservedRctx bs || match new with | .some b => malformedRctx s b | .none => false
  let code := if bad then 4 else if held && tget .none r s.vs.rb != new then 3 else 0
  let s := { s with rg := { s.rg with rctxApply := word r, rctxStatus := word code } }
  .next (if code = 0 then { s with vs := { s.vs with rb := tset .none r new s.vs.rb } } else s)

end Sys2Proof.Machine
end

