-- ==== Sys2Proof/Machine/BinderyEvents.lean ====
section
/-! DEFINITION. Fault records and their answers (R289, R290), invalidations (R291), regions (R293), the Bindery's background work (R297,
R301), MEM_SPLIT (R306), routes (R316, R317, R319), the management interrupt (R375). -/

namespace Sys2Proof.Machine

/-! ## Fault records (R289, R290) -/

/-- The 64 bytes of a record. -/
def recBytes (r : FRec) (seq : Nat) : List Byte :=
  bytesOf 8 (r.page * 65536) ++ bytesOf 2 r.asid ++ bytesOf 1 r.cause ++ [r.access] ++ bytesOf 4 seq ++ List.replicate 48 0

/-- A record goes to its device's ring, when that has room. -/
def postRecord (k : Nat) (s : State) : State :=
  match s.bd.frecs[k]? with
  | .none => s
  | .some r =>
    let t := (tget 0 r.vdev s.vf.fqTail).toNat
    let h := (tget 0 r.vdev s.vf.fqHead).toNat
    if r.seq.isSome || decide (256 ≤ (t + 2 ^ 64 - h) % 2 ^ 64) then s
    else
      let seq := tget 0 r.vdev s.bd.fseq
      let s := pwrite ((blockOf s r.vdev).savebase + 64 * (t % 256)) (recBytes r seq) s
      let s := { s with
        vf := { s.vf with fqTail := tset 0 r.vdev (word (t + 1)) s.vf.fqTail }
        bd := { s.bd with frecs := s.bd.frecs.set k { r with seq := .some seq }
                          fseq := tset 0 r.vdev ((seq + 1) % 2 ^ 32) s.bd.fseq } }
      raiseIrq r.vdev 1 s

/-- R289: the k-th pending record is posted. -/
def execFaultRecordPost (k : Nat) (s : State) : Out := .next (postRecord k s)

/-- The posted record of a device with a sequence number. -/
def recordOf (s : State) (v seq : Nat) : Option FRec := s.bd.frecs.find? fun r => r.vdev == v && r.seq == .some seq
def dropRecord (v seq : Nat) (s : State) : State :=
  { s with bd := { s.bd with frecs := s.bd.frecs.filter fun r => !(r.vdev == v && r.seq == .some seq) } }

/-- R290: retry: the joined accesses walk again. -/
def execFqDoneRetry (v seq : Nat) (s : State) : Out := .next (dropRecord v seq s)

/-- A denied thread runs again, to take its trap; the access of an evicted team has been withdrawn, and walks again (R290). -/
def denyThread (asid page : Nat) (s : State) (p : Nat × Thr) : State :=
  let st := (getTeam s (teamOfG (p.1 / 64))).st
  if p.2.wait = .page asid page ∧ st ≠ .evicted ∧ st ≠ .woken then { s with thr := tset {} p.1 { p.2 with st := .ready, wait := .denied asid page } s.thr } else s

/-- A denied engine ends as for a permission fault. DEDUCED: log entry 33. -/
def denyOp (asid page : Nat) (s : State) (o : Op) : State :=
  match o.k with
  | .copy c => if c.wait = .page asid page then setOp o.id (.copy { c with err := true, wait := .none }) s else s
  | _ => s

/-- The address that an access program is denied. -/
def progAddr (p : AProg) : Word :=
  if p.ready then
    match p.recs[p.i]? with
    | .some r => p.arg + r.off + word p.row * r.stride + word (128 * p.e)
    | .none => p.base
  else p.base + word p.hdr.length

def denyProg (asid page : Nat) (s : State) (t : Nat) : State :=
  match (getTeam s t).prog with
  | .some p => if p.wait = .page asid page then settleTeam t (endProg t (.fault (progAddr p)) s) else s
  | .none => s

/-- A command of a halo or all-reduce engine that is denied a page completes with status 0x05 (R353); it goes behind those that have
completed before. DEDUCED: log entry 28. -/
def denyCmds (asid page : Nat) (q : List Cmd) : List Cmd :=
  let hit (c : Cmd) : Bool := c.done.isNone && c.wait == .page asid page
  let end_ (c : Cmd) : Cmd := { c with done := .some (5, c.rd.getD c.seen, c.wrote) }
  q.filter (fun c => !hit c) ++ (q.filter hit).map end_

/-- An entry of a host queue whose record lies in the denied page is marked bad. -/
def denyEntry (asid page : Nat) (s : State) (it : QItem) : QItem :=
  match it.va with
  | .some va => (match (readTable asid {} va 256 s).1 with
    | .page a q => if a = asid ∧ q = page then { it with bad := true, va := .none } else it
    | _ => it)
  | .none => it
def denyEntries (asid page : Nat) (s : State) : State :=
  { s with vs := { s.vs with hostq := tmap [] (fun k q => if k / 4 = asid then q.map (denyEntry asid page s) else q) s.vs.hostq } }

/-- An admission whose table lies in the denied page is refused (R262). DEDUCED: log entry 13. -/
def denyAdmission (asid page : Nat) (s : State) : State :=
  match (items s asid).head? with
  | .some (.head p h it) =>
    (match (admitChecks asid it.lr s).1 with
    | .page a q => if a = asid ∧ q = page then refuseItem asid p h it 0x8003 (popHead asid p h s) else s
    | _ => s)
  | _ => s

/-- R290: deny: every joined thread takes ACCESS_FAULT, every engine ends. A record of cause 2 is only retired (R302). -/
def execFqDoneDeny (v seq : Nat) (s : State) : Out :=
  .next (match recordOf s v seq with
    | .none => s
    | .some r =>
      let s := dropRecord v seq s
      if r.cause ≠ 1 then s
      else
        let s := s.thr.foldl (denyThread r.asid r.page) s
        let s := s.mm.ops.foldl (denyOp r.asid r.page) s
        let s := (tkeys s.team).foldl (denyProg r.asid r.page) s
        let cmds := tmap [] fun _ q => denyCmds r.asid r.page q
        denyAdmission r.asid r.page <| denyEntries r.asid r.page { s with pk := { s.pk with halo := cmds s.pk.halo, coll := cmds s.pk.coll } })

/-! ## Invalidations (R291) -/

/-- Whether an operation in flight has used a translation of a range of pages. -/
def usesPages (s : State) (asid lo n : Nat) (o : Op) : Bool :=
  ctxOf s o.gk == asid &&
    let hit (va : Word) : Bool := let p := va.toNat % 2 ^ 57 / 65536; decide (lo ≤ p + 1 ∧ p < lo + n)
    match o.k with
    | .load _ st _ _ _ va => !st && hit va
    | .atomic _ _ m _ va _ _ => m.space != .s && hit va
    | .rload _ _ _ _ va _ _ => hit va
    | .edl _ _ _ _ va _ _ _ _ _ => hit va
    | .bwr _ _ va _ _ _ => hit va
    | .bpub _ va _ _ _ _ => hit va
    | .bfloor _ _ _ => true
    | .claim _ page left _ _ => decide (lo < page + left ∧ page < lo + n)
    | .copy c => c.sent.isSome
    | .rstore _ _ => true
    | .aline _ _ _ _ _ _ => true
    | .lrec _ _ _ _ _ _ => true
    | _ => false

/-- Translations of a range go, and every line that was reached through them goes home. -/
def invalidate (asid lo n : Nat) (s : State) : State :=
  let es := s.mm.xlat.filter fun e => e.asid == asid && decide (lo ≤ e.page ∧ e.page < lo + n)
  dropXlat asid lo n (es.foldl (fun s e => recallPage (e.leaf.pa / 65536 * 65536) s) s)

/-- Every dirty line that an invalidation recalls can go home (R319). -/
def recallsAll (s : State) (asid lo n : Nat) : Bool :=
  (s.mm.xlat.filter fun e => e.asid == asid && decide (lo ≤ e.page ∧ e.page < lo + n)).all fun e => recallable s e.leaf.pa

/-- R291: an invalidation that has been started is done once every access that used the old translations is performed, and every line
reached through them can go home. -/
def execInvalidation (s : State) : Out :=
  let c := s.rg.invCtl
  let asid := bits c 11 0
  let n := bits c 31 12
  let lo := bits s.rg.invAddr 56 16
  .next (if !bitAt c 63 || s.mm.ops.any (usesPages s asid lo n) || !recallsAll s asid lo n then s
    else
      let s := invalidate asid lo n s
      { s with rg := { s.rg with invCtl := c &&& 0x7FFFFFFFFFFFFFFF } })

/-! ## Regions (R293) -/

/-- The valid mappings that a descriptor lists. DEDUCED: log entry 32. -/
def readMaps (s : State) (r : Nat) : List Mapping :=
  (List.range 4).filterMap fun m =>
    let a := regionAt s r + 112 + 16 * m
    if rdN s (a + 10) 1 % 2 = 1 then .some { va := nb (rdN s a 8) 56 16 * 65536, asid := nb (rdN s (a + 8) 2) 11 0 } else .none

def setMaps (r : Nat) (m : Option (List Mapping)) (s : State) : State :=
  { s with bd := { s.bd with maps := tset .none r m s.bd.maps } }

/-- The pool fields of the descriptor as software has left them (R292). -/
def readPool (s : State) (r k : Nat) : PoolRegs :=
  let p := regionPool s r k
  { stack := rdN s p 8, count := poolCount s p, cap := poolCap s p }
/-- A sub-pool's fields are read again; a wait for a page of it ends where one has come in (R293, R302). -/
def rereadPool (r : Nat) (s : State) (k : Nat) : State :=
  let p := readPool s r k
  let t := { s with bd := { s.bd with pools := tset {} (r * 8 + k) p s.bd.pools } }
  if subCount s r k < p.count then endPoolWaits r k t else t
def rereadPools (r : Nat) (s : State) : State := [0, 1, 2, 3, 4].foldl (rereadPool r) s

/-- A pool's descriptor and stack are as R293 asks. -/
def poolOk (s : State) (r k : Nat) : Bool :=
  let p := regionPool s r k
  let n := poolCount s p
  decide (n ≤ poolCap s p) && (List.range n).all fun i =>
    let q := rdN s (rdN s p 8 + 8 * i) 8
    isHbm q && subPoolOf s q == k

/-- The causes of R293's code 0x01 for a creation. -/
def malformedRegion (s : State) (r : Nat) : Bool :=
  let a := regionAt s r
  let n := regionPages s r
  let ms := readMaps s r
  let flags := rdN s (a + 13) 1
  r == 0 || eOpen s r == 0 || ePub s r + 1 != eOpen s r || decide (ePub s r < eFloor s r)
    || regionDepth s r == 0 || decide (4 < regionDepth s r) || flags != 1 || n == 0 || decide (2 ^ 20 < n)
    || regionCat s r % 64 != 0 || rdN s (a + 14) 2 != 0 || rdN s (a + 20) 4 != 0 || rdN s (a + 200) 56 != 0
    || [0, 1, 2, 3, 4].any (fun k => !poolOk s r k)
    || (List.range n).any (fun i => rdN s (catAt s r i) 64 != 0)
    || ms.any fun m => (List.range n).any fun i =>
        match walk (setMaps r (.some ms) s) m.asid (m.va + 65536 * i) with
        | .leaf l => l.region == r && decide (ePub s r < l.edition)
        | .absent => false
        | .bad _ => false

def regionStatus (op r code : Nat) (s : State) : State :=
  { s with rg := { s.rg with regionApply := word (op * 2 ^ 62 + r), regionStatus := word code } }

/-- A creation. Of a region that is created already it is checked like any other and, if well formed, replaces what the Bindery had read.
DESIGN CHOICE: log entry 45. -/
def createRegion (r : Nat) (s : State) : State :=
  if malformedRegion s r then regionStatus 0 r 1 s else rereadPools r (regionStatus 0 r 0 (setMaps r (.some (readMaps s r)) s))

/-- The pools and mappings are read again; copies that a full stack held back are pushed where it has room now (R301). DEDUCED: log
entry 11. Of a region that is not created: code 0x01, nothing changes. DESIGN CHOICE: log entry 45. -/
def rereadRegion (r : Nat) (s : State) : State :=
  if r = 0 ∨ (tget .none r s.bd.maps).isNone then regionStatus 1 r 1 s
  else reclaimRegion r (rereadPools r (regionStatus 1 r 0 (setMaps r (.some (readMaps s r)) s)))

/-- A writer, an engine's command among them, or a claim waits in EDITION_POOL for a region. -/
def poolWaiter (s : State) (r : Nat) : Bool :=
  let mine (w : Wait) : Bool := match w with | .pool q _ => q == r | _ => false
  (s.thr.any fun p => mine p.2.wait)
    || (s.mm.ops.any fun o => match o.k with | .copy c => mine c.wait | .claim _ _ _ _ w => mine w | _ => false)
    || (s.pk.halo ++ s.pk.coll).any fun p => p.2.any fun c => mine c.wait

/-- Every retained copy of a page goes to its sub-pool; one for which the stack has no place is lost to it. DESIGN CHOICE: log entry 45. -/
def returnCopies (r : Nat) (s : State) (i : Nat) : State :=
  let s := (catSlots s r i).foldl (fun s c =>
    let k := subPoolOf s c.2
    if subRoom s r k = 0 then s else subPush r k c.2 s) s
  if catCount s r i = 0 then s else setCat r i 0 [] s

/-- A destroy. Of a region that is not created: code 0x01, nothing changes. DESIGN CHOICE: log entry 45. -/
def destroyRegion (r : Nat) (s : State) : State :=
  match tget .none r s.bd.maps with
  | .none => regionStatus 2 r 1 s
  | .some ms =>
    let n := regionPages s r
    if r = 0 ∨ ms ≠ [] then regionStatus 2 r 1 s
    else if (List.range n).any (fun i => catPend s r i != 0) || poolWaiter s r then regionStatus 2 r 2 s
    else regionStatus 2 r 0 (setMaps r .none ((List.range n).foldl (returnCopies r) s))

/-- R293: a region is created. Regions are applied in step 6 of the bring-up and no earlier (R394), here and below. DEDUCED: log entry 25. -/
def execRegionCreate (r : Nat) (s : State) : Out := .next (if linkEnabled s then createRegion r s else s)
/-- R293: a region's pools and mappings are read again. DEDUCED: log entry 25. -/
def execRegionReread (r : Nat) (s : State) : Out := .next (if linkEnabled s then rereadRegion r s else s)
/-- R293: a region is destroyed. DEDUCED: log entry 25. -/
def execRegionDestroy (r : Nat) (s : State) : Out := .next (if linkEnabled s then destroyRegion r s else s)

/-- R297: the background copy of a page's lowest pending sub-block. -/
def execBackgroundSubblockCopy (r page : Nat) (s : State) : Out :=
  .next (match (List.range 16).find? fun k => catPend s r page / 2 ^ k % 2 = 1 with
    | .none => s
    | .some k => copySub r page k (pageCurrent s r page) s)

/-- A page has a copy that reclaim can free now (R301). -/
def freeable (s : State) (r i : Nat) : Bool :=
  let slots := catSlots s r i
  let kept := max (keptCount s r (pageEdition s r i) slots) (if catPend s r i ≠ 0 then 1 else 0)
  decide (kept < slots.length) && match slots.getLast? with
    | .some c => decide (0 < subRoom s r (subPoolOf s c.2))
    | .none => false

/-- R301: the reclaim walk comes to a page, those below it done. -/
def execReclaimWalk (r page : Nat) (s : State) : Out :=
  .next (if catCount s r page = 0 ∨ (List.range page).any (freeable s r) = true then s
    else reclaimPage r page (pageEdition s r page) s)

/-! ## MEM_SPLIT and ROUTE (R306, R316, R317, R319, R394) -/

/-- An action of the firmware's bring-up is done; with the last one of a step the next step begins (R394): after step 4 the link is enabled
at once, which is step 5, and step 6 begins. DEDUCED: log entry 25. -/
def bootDid (step a : Nat) (all : List Nat) (s : State) : State :=
  if s.hs.boot ≠ step then s
  else
    let did := if s.hs.did.contains a then s.hs.did else a :: s.hs.did
    if all.all did.contains then { s with hs := { s.hs with boot := if step = 4 then 6 else step + 1, did := [] } }
    else { s with hs := { s.hs with did := did } }

/-- R306: ignored while an address-space entry is valid; a share above 48 is held. Before step 3 of the bring-up the write does not come about
(R394). DEDUCED: log entry 25. -/
def execMemSplitWrite (w : BitVec 64) (s : State) : Out :=
  .next (if s.hs.boot < 3 then s
    else if (List.range 4096).any (fun a => rdN s (s.rg.asBase.toNat + 16 * a) 1 % 2 = 1) then s
    else bootDid 3 4 [4, 5] { s with rg := { s.rg with memSplit := word (min (bits w 5 0) 48) } })

/-- The pairs of dies, by the bit of dir. -/
def diePairs : List (Nat × Nat) := [(0, 1), (0, 2), (0, 3), (1, 2), (1, 3), (2, 3)]
/-- The links of a pair's path. -/
def pairPath (p : Nat × Nat) (dir : Bool) : List Nat := if dir then ringLinks p.2 p.1 else ringLinks p.1 p.2
/-- The direction that a pair takes: the written one, unless that needs a link that is out of service (R316). -/
def pairDir (up : Nat → Bool) (p : Nat × Nat) (dir : Bool) : Bool :=
  if (pairPath p dir).all up then dir else !dir

/-- A new route, of a new generation if it changes anything (R316); a pair left without a path raises the management interrupt (R375); what
was held at a die can go on (R319). -/
def setRoute (up dir : Nat) (s : State) : State :=
  let route := up * 2 ^ 12 + dir
  if route = bits s.rg.route 15 0 then s
  else
    let gen := (bits s.rg.route 63 48 + 1) % 65536
    let t := { s with rg := { s.rg with route := word (gen * 2 ^ 48 + route) } }
    let t := if diePairs.any fun p => pathOk s p.1 p.2 && !pathOk t p.1 p.2 then raiseMgmt 2 t else t
    (tkeys t.team).foldl (fun s k => settleTeam k s) t

/-- The actions of step 4: the ports train, UALINK_ID is written. -/
def portSteps : List Nat := List.range 17

def packDirs (l : List Bool) : Nat := ((List.range 6).map fun i => bitN (l.getD i false) i).foldl (· + ·) 0

/-- R316: firmware writes a route, in step 3 of the bring-up or later (R394). DEDUCED: log entry 25. -/
def execRouteWrite (w : BitVec 64) (s : State) : Out :=
  let up (l : Nat) : Bool := bitAt w (12 + l)
  .next (if s.hs.boot < 3 then s else bootDid 3 5 [4, 5] (setRoute (bits w 15 12)
    (packDirs ((List.range 6).map fun i => pairDir up (diePairs.getD i (0, 1)) (bitAt w i))) s))

/-- A die-to-die link goes down: the reroute is one action. -/
def linkGoesDown (l : Nat) (s : State) : State :=
  if l < 4 ∧ linkUp s l then
    let up := bits s.rg.route 15 12 - 2 ^ l
    let dirs := (List.range 6).map fun i =>
      let d := bitAt s.rg.route i
      if (pairPath (diePairs.getD i (0, 1)) d).contains l then !d else d
    raiseMgmt 0 (tapLink l 2 (setRoute up (packDirs dirs) s))
  else s

/-- R374, R317: a link is declared down. -/
def execLinkDown (l : Nat) (s : State) : Out := .next (linkGoesDown l s)

end Sys2Proof.Machine
end

