-- ==== Sys2Proof/Machine/GlossEvents.lean ====
section
/-! DEFINITION. The steps of the Gloss units outside their programs: offers (R331), slots (R332), budgets (R333), applies, attaches and
detaches (R326 to R328, R335), the system's drain (R334). -/

namespace Sys2Proof.Machine

/-! ## Offers and slots -/

/-- R331: a tap offers an event. DEDUCED: log entry 39. -/
def execGlossEventOffer (die : Nat) (e : GlossEvent) (s : State) : Out := .next (offerEvent die e s)

/-- The owner of a slot of the rotation. -/
def slotOwner (s : State) (die slot : Nat) : Nat :=
  let w := tget (-1) die (if slot < 8 then s.rg.slots0 else s.rg.slots1)
  bits w (8 * (slot % 8) + 7) (8 * (slot % 8))

/-- The registers at the start of a run (R337). -/
def loadRun (p : Pair) (param : BitVec 32) (u : GUnit) : GUnit :=
  let drops := tget 0 p.k u.fifo + tget 0 p.k u.budg
  let g4 : BitVec 32 := BitVec.ofNat 32 (p.e.asid.toNat + 4096 * (p.e.vdev % 64))
  let g := [(1, p.e.a), (2, p.e.b), (3, p.e.src), (4, g4), (5, BitVec.ofNat 32 drops), (6, param)].foldl
    (fun (t : Tab (BitVec 32)) x => tset 0 x.1 x.2 t) []
  { u with g := g, run := .some ⟨p.k, 0⟩ }

/-- A tenant is suspended: its queued pairs become budget drops (R333). -/
def suspend (o : Nat) (u : GUnit) : GUnit :=
  let mine (p : Pair) : Bool := ownerOf u p.k == o
  let b := (u.q.filter mine).foldl (fun b p => tset 0 p.k (tget 0 p.k b + 1) b) u.budg
  settleDrain { u with susp := tset false o true u.susp, budg := b, q := u.q.filter fun p => !mine p }

/-- R332: a slot runs its owner's oldest pair, if it may. -/
def execGlossSlot (die : Nat) (s : State) : Out :=
  let u := getUnit s die
  let o := slotOwner s die (u.slot % 16)
  let u := { u with slot := (u.slot + 1) % 16 }
  let idle := setUnit die u s
  .next (if 64 < o || tget false o u.susp || (bitAt s.rg.flrCtl 63 && bits s.rg.flrCtl 5 0 == o) then idle
    else match u.q.find? fun p => ownerOf u p.k == o with
      | .none => idle
      | .some p =>
        if tget 0 o u.left < lenOf u p.k then setUnit die (suspend o u) s
        else
          let param := match tget .none p.k u.att with | .some a => a.param | .none => 0
          { setUnit die (loadRun p param { u with q := u.q.filter fun x => x.n != p.n }) s with gsel := .some die })

/-- R333: a window starts: every tenant's budget is refilled and its suspension ends. -/
def execGlossBudgetWindow (die : Nat) (s : State) : Out :=
  let u := getUnit s die
  let left := u.ten.foldl (fun (l : Tab Nat) p => match p.2 with | .some t => tset 0 p.1 t.budget l | .none => l) u.left
  .next (setUnit die { u with left := left, susp := [] } s)

/-! ## Tenants (R327, R328) -/

def glossEntry (s : State) (die i : Nat) : Nat := (tget 0 die s.rg.glossTab).toNat + 32 * i

/-- The registers of an apply. -/
def glossDone (die op i code : Nat) (s : State) : State :=
  { s with rg := { s.rg with glossApply := tset 0 die (word (op * 2 ^ 62 + i)) s.rg.glossApply
                             glossStatus := tset 0 die (word code) s.rg.glossStatus } }

def parseTrig (bs : List Byte) : Trig :=
  { kind := fieldOf bs 0 1, once := nb (fieldOf bs 1 1) 0 0 = 1, sel := fieldOf bs 2 1, team := fieldOf bs 4 4
    target := fieldOf bs 8 8 }

def windowsMeet (a b : Ten) : Bool := tilesMeet a.wbase b.wbase (2 ^ a.wlog) (2 ^ b.wlog)

/-- The code of a tenant entry: 0x03, then 0x04. DEDUCED: log entry 16. -/
def tenantCode (u : GUnit) (i : Nat) (bs : List Byte) (t : Ten) : Nat :=
  let others := u.ten.filterMap fun p => match p.2 with | .some x => if p.1 = i then .none else .some x | .none => .none
  if others.any (windowsMeet t) || decide (256 < others.foldl (fun n x => n + x.quota) t.quota) then 3
  else if t.wlog < 8 ∨ 16 < t.wlog ∨ t.wbase % 2 ^ t.wlog ≠ 0 ∨ 65536 < t.wbase + 2 ^ t.wlog ∨ fieldOf bs 10 6 ≠ 0
      ∨ fieldOf bs 24 8 ≠ 0 ∨ fieldOf bs 16 8 % 16 ≠ 0 then 4
  else 0

def applyTenant (die i : Nat) (s : State) : State :=
  let bs := pread s (glossEntry s die i) 32
  let trig := fieldOf bs 16 8
  let t : Ten := { budget := fieldOf bs 0 4, wbase := fieldOf bs 4 4, wlog := fieldOf bs 8 1, quota := fieldOf bs 9 1
                   trigs := (List.range 16).map fun j => parseTrig (pread s (trig + 16 * j) 16) }
  let u := getUnit s die
  let code := if 64 < i ∨ pbad s (glossEntry s die i) 32 = true then 4 else tenantCode u i bs t
  if code ≠ 0 then glossDone die 0 i code s
  else
    let left := match tget .none i u.ten with | .some _ => min (tget 0 i u.left) t.budget | .none => t.budget
    glossDone die 0 i 0 (setUnit die { u with
      ten := tset .none i (.some t) u.ten, left := tset 0 i left u.left
      disarmed := tdrop (fun k => k / 16 == i) u.disarmed } s)

/-- R328: a tenant entry is applied. -/
def execGlossApplyTenant (die i : Nat) (s : State) : Out := .next (applyTenant die i s)

/-! ## Attachments (R326, R328, R335) -/

/-- The checks of one word of a program of `len` words, at word `pc` (R335). -/
def glossWordOk (len pc : Nat) (w : BitVec 32) : Bool :=
  let op := w.toNat / 2 ^ 26
  let z (hi lo : Nat) : Bool := w.toNat / 2 ^ lo % 2 ^ (hi + 1 - lo) == 0
  let disp := w.toNat % 64
  let br := decide (1 ≤ disp) && decide (pc + disp ≤ len)
  if op = 0 ∨ 0x1C < op then false
  else if op ≤ 0x0A ∨ (0x17 ≤ op ∧ op ≤ 0x1A) then z 13 0
  else if op = 0x0B then z 21 18
  else if op = 0x0E ∨ op = 0x0F then z 17 5
  else if op ≤ 0x11 then true
  else if op ≤ 0x15 then z 17 6 && br
  else if op = 0x16 then z 25 6 && br
  else if op = 0x1B then z 25 22 && z 17 4
  else z 25 0

/-- Whether an owner may attach to a class (R325). -/
def mayAttach (s : State) (cls o : Nat) : Bool :=
  if cls = 3 ∨ cls = 4 ∨ cls = 8 then o == 64
  else if cls = 2 then o == 64 || ((tget .none o s.vs.vb).getD {}).hard
  else true

/-- An attachment leaves its index: its queued pairs become fifo drops. DEDUCED: log entry 16. -/
def detach (k : Nat) (u : GUnit) : GUnit :=
  match tget .none k u.att with
  | .none => u
  | .some a =>
    let n := (u.q.filter fun p => p.k == k).length
    settleDrain { u with att := tset .none k (.some { a with valid := false }) u.att
                         fifo := tset 0 k (tget 0 k u.fifo + n) u.fifo, q := u.q.filter fun p => p.k != k }

def attachCode (s : State) (k : Nat) (bs : List Byte) : Nat :=
  let prog := fieldOf bs 0 8
  let len := fieldOf bs 8 1
  let cls := fieldOf bs 9 1
  let o := fieldOf bs 10 1
  let sized := decide (1 ≤ len ∧ len ≤ 64)
  if sized && ((List.range len).any fun i => !glossWordOk len i (BitVec.ofNat 32 (rdN s (prog + 4 * i) 4))
      || pbad s (prog + 4 * i) 4) then 1
  else if mayAttach s cls o = false then 2
  else if 64 ≤ k ∨ sized = false ∨ prog % 4 ≠ 0 ∨ cls = 0 ∨ 10 < cls ∨ 64 < o ∨ fieldOf bs 11 1 ≠ 1
      ∨ nb (fieldOf bs 12 2) 15 12 ≠ 0 ∨ nb (fieldOf bs 14 2) 15 12 ≠ 0 ∨ fieldOf bs 20 12 ≠ 0 then 4
  else 0

def attach (die k : Nat) (s : State) : State :=
  let at_ := glossEntry s die (65 + k)
  let bs := pread s at_ 32
  let code := if pbad s at_ 32 then 4 else attachCode s k bs
  if code ≠ 0 then glossDone die 1 k code s
  else
    let u := detach k (getUnit s die)
    let len := fieldOf bs 8 1
    let prog := fieldOf bs 0 8
    let a : Att := { valid := true, len := len, cls := fieldOf bs 9 1, owner := fieldOf bs 10 1
                     asid := BitVec.ofNat 12 (fieldOf bs 12 2), mask := BitVec.ofNat 12 (fieldOf bs 14 2)
                     param := BitVec.ofNat 32 (fieldOf bs 16 4) }
    let code := (List.range len).foldl
      (fun (c : Tab (BitVec 32)) i => tset 0 (k * 64 + i) (BitVec.ofNat 32 (rdN s (prog + 4 * i) 4)) c)
      (tdrop (fun x => x / 64 == k) u.code)
    glossDone die 1 k 0 (setUnit die { u with
      att := tset .none k (.some a) u.att, code := code, runs := tset 0 k 0 u.runs, fifo := tset 0 k 0 u.fifo
      budg := tset 0 k 0 u.budg, fire := tset 0 k 0 u.fire } s)

/-- R328: a program is attached; a valid attachment at its index is replaced. -/
def execGlossAttach (die i : Nat) (s : State) : Out := .next (attach die i s)

/-- R328: an attachment is detached, between two runs; its counters stop. -/
def execGlossDetach (die i : Nat) (s : State) : Out :=
  .next (if 64 ≤ i then glossDone die 2 i 4 s else glossDone die 2 i 0 (setUnit die (detach i (getUnit s die)) s))

/-- R334: GLOSS_DRAIN starts to wait for every earlier pair. -/
def execGlossDrain (die : Nat) (s : State) : Out :=
  let u := getUnit s die
  .next (setUnit die (settleDrain { u with drain := .some u.nextPair }) s)

end Sys2Proof.Machine
end

