-- ==== Sys2Proof/Machine/PackageEvents.lean ====
section
/-! DEFINITION. Other packages: link training (R346), peers' requests (R349, R350) and answers (R350), messages (R351), the halo
engines (R354) and the all-reduce engines (R355, R356) with their completions (R352, R353), ports that go down (R374). -/

namespace Sys2Proof.Machine

/-! ## Ports (R346, R349) -/

def ownId (s : State) : Nat := bits s.rg.ualinkId 9 0
def hasId (s : State) : Bool := bitAt s.rg.ualinkId 15
/-- R346: a port trains: it comes up with a peer inside the profile, and stays down otherwise; in step 4 of the bring-up or later (R394).
DEDUCED: log entry 25. -/
def execLinkTraining (port : Nat) (ok : Bool) (s : State) : Out :=
  .next (if port < 16 ∧ 4 ≤ s.hs.boot then
      bootDid 4 port portSteps { s with pk := { s.pk with portUp := tset false port ok s.pk.portUp } }
    else s)

/-! ## Inbound requests (R349, R350) -/

/-- A checkpoint holds inbound traffic by credit back-pressure (R381). -/
def inboundHeld (s : State) : Bool := bitAt s.rg.ckptCtl 63

/-- Whether the virtual device is being reset (R367). -/
def inReset (s : State) (v : Nat) : Bool := bitAt s.rg.flrCtl 63 && bits s.rg.flrCtl 5 0 == v

def reqBytes (o : PeerOp) : Nat :=
  match o with | .read n => n | .write d => d.length | .atomic _ ty _ _ => atomBytes ty

/-- Whether the entry of a peer lets a request in: its right, its range, the slices that the port may reach (R276, R349). DEDUCED: log entry 35. -/
def peerMay (s : State) (r : PeerReq) : Bool :=
  let e := peerIn s r.peer
  let n := reqBytes r.op
  let right := match r.op with | .read _ => nb e 0 0 = 1 | .write _ => nb e 1 1 = 1 | .atomic _ _ _ _ => nb e 2 2 = 1
  let lo := nb e 63 28 * 65536
  let hi := nb e 99 64 * 65536 + 65536
  let row (pa : Nat) : Bool := (connRow s (r.port / 4) (249 + r.port % 4) (homeDie s pa)).getLsbD (sliceOf pa)
  right && decide (lo ≤ r.pa ∧ r.pa + n ≤ hi ∧ r.pa + n ≤ hostBase ∧ 0 < n ∧ n ≤ 256) && row r.pa && row (r.pa + n - 1)

def reply (p : Nat) (bs : Option (List Byte)) (s : State) : State :=
  { s with pk := { s.pk with replies := s.pk.replies ++ [(p, bs)] } }

/-- The pages of a range of physical memory, each by its first address. DEDUCED: log entry 35. -/
def pagesOf (pa n : Nat) : List Nat := (List.range ((pa + n + 65535) / 65536 - pa / 65536)).map fun i => (pa / 65536 + i) * 65536

/-- A request is performed at this module's `.dev`: on the stored bytes of the coherent memory (R303). DEDUCED: log entry 35. -/
def serve (r : PeerReq) (s : State) : State :=
  let die := r.port / 4
  let s := (pagesOf r.pa (reqBytes r.op)).foldl (fun s p => viewPage p .none s) s
  match r.op with
  | .read n => if pbad s r.pa n then reply r.peer .none s else reply r.peer (.some (pread s r.pa n)) s
  | .write d => reply r.peer (.some []) (dirLines (dirHome 0 die) r.pa d.length (pwrite r.pa d s))
  | .atomic minor ty x y =>
    let n := atomBytes ty
    if pbad s r.pa n then reply r.peer .none s
    else
      let old := pread s r.pa n
      let e := atomExt ty (natOf old)
      let z := atomNew minor ty e x y
      let s := if minor = 7 ∧ z = e then s
        else dirLines (dirHome 0 die) r.pa n (pwrite r.pa (bytesOf n z.toNat) s)
      reply r.peer (.some old) s

/-- R350: a peer's request arrives. DEDUCED: log entry 35. -/
def execUalinkInboundRequest (r : PeerReq) (s : State) : Out :=
  .next (if inboundHeld s || !portUp s r.port then s else if peerMay s r then serve r s else reply r.peer .none s)

/-! ## Outbound requests (R350) -/

/-- What an operation in flight waits for from another package: accelerator, and the port by which its request left (R349). -/
def peerWait (s : State) (o : Op) : Option (Nat × Nat) :=
  match o.k with
  | .msg (.peer port id _ _) _ _ _ => .some (id, port)
  | .face port peer => if port < 16 then .some (peer, port) else .none
  | .copy c => if c.wait = .agent o.id then (peerAddr o.k).map fun a => (peerOf a, o.port.getD (portFor s a)) else .none
  | k => (peerAddr k).map fun a => (peerOf a, o.port.getD (portFor s a))

/-- The bytes of a remote load: the peer's, and those of a piece that lies here. -/
def mixParts (gk : Nat) : List Part → List Byte → State → Option (List Byte × Bool × State)
  | [], _, s => .some ([], false, s)
  | p :: ps, d, s =>
    match (if isPeer p.pa then .some (slice d 0 p.len, false, s) else readParts gk [p] s) with
    | .none => .none
    | .some (b, m, s) =>
      match mixParts gk ps (if isPeer p.pa then d.drop p.len else d) s with
      | .none => .none
      | .some (c, n, s) => .some (b ++ c, m || n, s)

/-- The bytes of a load beside those of the piece that an edition's agent has served (R131). -/
def withServed (served : Option (Bool × List Byte × Bool)) (bs : List Byte) (bad : Bool) : List Byte × Bool :=
  match served with
  | .none => (bs, bad)
  | .some (first, cs, m) => (if first then cs ++ bs else bs ++ cs, m || bad)

/-- The command whose face an operation carries takes that part's status. -/
def faceDone (id stat : Nat) (s : State) : State :=
  let put (q : List Cmd) : List Cmd := q.map fun c => if c.face = .some id then { c with stat := max c.stat stat } else c
  { s with pk := { s.pk with halo := tmap [] (fun _ q => put q) s.pk.halo } }

/-- A peer has performed a request; `bs`: the bytes it returns. -/
def peerDone (o : Op) (bs : List Byte) (s : State) : State :=
  match o.k with
  | .rstore _ _ => dropOp o.id s
  | .rload u d q ps va atom served =>
    (match mixParts o.gk ps bs s with
    | .none => s
    | .some (b, bad, s) =>
      let s := dropOp o.id s
      (match atom with
      | .none =>
        let r := withServed served b bad
        finishPred o u q true (finishReg o u d va r.1 r.2 s)
      | .some (minor, m, x, y) =>
        let e := atomExt m.ty (natOf b)
        let s := if minor = 7 ∧ atomNew minor m.ty e x y = e then s else dirtyAt o.gk va s
        let s := if aliveG s o.gk then complete o.gk o.tid false d (atomExt m.ty (natOf b)) s else s
        if isAcq m.order then acquireCore (coreOf s o.gk) (wideScope s o.gk m.scope) (m.order == .sc) s else s))
  | .aline t q ent ps _ _ =>
    (match ps with
    | p :: _ => settleTeam t (lineReturn o t q ent (slice bs 0 p.len) false s)
    | [] => dropOp o.id s)
  | .lrec q d _ va dep pri => finishLaunch o q d va dep pri (slice bs 0 256) false s
  | .copy c =>
    let ms := sentMoves s o c
    if !aliveG s o.gk then dropOp o.id s
    else if c.drain then setCopy o.id { c with pos := c.pos + ms.length, wait := .none, sent := .none } s
    else fillArrives o.id c ms (slice bs 0 ms.length) [] s
  | .msg d m npc use =>
    (match accept o.gk d m true s with
    | .some s => passGroup o.gk npc (useAll o.gk 0 use (dropOp o.id s))
    | .none => s)
  | .face _ _ => dropOp o.id (faceDone o.id (if (bs.headD 0).toNat = 3 then 3 else 0) s)
  | _ => s

/-- A peer refuses a request, or cannot be reached (R350): a load or an atomic completes FAULT, a store or a message is lost, an
engine's bytes come marked; PEER_ERR counts. DEDUCED: log entry 27. -/
def peerLost (o : Op) (p : Nat) (s : State) : State :=
  let s := peerError p s
  match o.k with
  | .rload u d q _ va _ _ => finishPred o u q true (finishReg o u d va [] true (dropOp o.id s))
  | .aline t q ent ps _ _ =>
    (match ps with
    | r :: _ => settleTeam t (lineReturn o t q ent (List.replicate r.len 0) true s)
    | [] => dropOp o.id s)
  | .lrec q d _ va dep pri => finishLaunch o q d va dep pri [] true s
  | .copy c =>
    let ms := sentMoves s o c
    if !aliveG s o.gk then dropOp o.id s
    else if c.drain then setCopy o.id { c with pos := c.pos + ms.length, wait := .none, sent := .none } s
    else fillArrives o.id c ms (ms.map fun _ => 0) (ms.map fun _ => true) s
  | .msg _ _ npc use => passGroup o.gk npc (useAll o.gk 0 use (dropOp o.id s))
  | .face _ _ => dropOp o.id (faceDone o.id 4 s)
  | _ => dropOp o.id s

/-- R350: a peer answers the request of operation `k`; through a port that is down, or from a peer that no port reaches (R349), no answer
comes. -/
def execPeerAcknowledgement (k : Nat) (r : PeerReply) (s : State) : Out :=
  .next (match findOp s k with
    | .none => s
    | .some o =>
      match peerWait s o with
      | .none => s
      | .some (p, port) =>
        match r with
        | .done bs => if portUp s port && peerPorts s p != 0 then peerDone o bs s else peerLost o p s
        | .refused => peerLost o p s
        | .unreachable => peerLost o p s)

/-- R374: a port goes down: its requests in flight are lost, and the management interrupt says so. -/
def execUalinkPortDown (port : Nat) (s : State) : Out :=
  .next (if portUp s port then
      let s := { s with pk := { s.pk with portUp := tset false port false s.pk.portUp } }
      let s := s.mm.ops.foldl (fun s o => match peerWait s o with
        | .some (p, q) => if q = port then peerLost o p s else s
        | .none => s) s
      raiseMgmt 1 s
    else s)

/-- R367: a peer that has not answered a request of a virtual device in reset within 100 ms is counted and released. DEDUCED: log entry 27. -/
def execPeerDrainTimeout (k : Nat) (s : State) : Out :=
  .next (match findOp s k with
    | .none => s
    | .some o =>
      match peerWait s o with
      | .none => s
      | .some (p, _) => if inReset s (vdevOf s (ctxOf s o.gk)) then peerError p (dropOp k s) else s)

/-! ## Messages (R351) -/

/-- Whether this module takes traffic of accelerator `p` for virtual device `v` (R349, R351, R367). -/
def takesFrom (s : State) (p v : Nat) : Bool := nb (peerIn s p) 3 3 = 1 && decide (v < 64) && enabledV s v && !inReset s v

/-- A peer's traffic arrives through a port that reaches it and is up (R346, R349). DEDUCED: log entry 27. -/
def linked (s : State) (p : Nat) : Bool := (portsOf s p).any (portUp s)

/-- The lowest slot of a mailbox that holds no message (R351). DEDUCED: log entry 35. -/
def freeSlot (q : List InMsg) : Option Nat := (List.range 16).find? fun k => q.all fun m => m.slot != k

/-- A message takes its slot in memory, marks included, and its place in the mailbox's order (R280, R351). -/
def takeMessage (m : PeerMsg) (k : Nat) (s : State) : State :=
  let key := m.vdev * 64 + m.m
  let a := inboxAt s m.vdev m.m k
  let s := m.bad.foldl (fun s w => pmark (a + 8 * w) 8 s) (pwrite a m.data s)
  { s with pk := { s.pk with inbox := tset [] key (tget [] key s.pk.inbox ++ [⟨m.peer, k, m.data.length⟩]) s.pk.inbox } }

/-- R351: a message arrives: discarded and counted, held back by a full mailbox, or taken. -/
def execUalinkMessageArrival (m : PeerMsg) (s : State) : Out :=
  .next (if inboundHeld s || !linked s m.peer || decide (64 ≤ m.m) || decide (4096 < m.data.length) then s
    else if !takesFrom s m.peer m.vdev then peerError m.peer s
    else match freeSlot (tget [] (m.vdev * 64 + m.m) s.pk.inbox) with
      | .some k => takeMessage m k s
      | .none => s)

/-! ## The shapes of engine commands (R353) -/

/-- The bytes of a shape as an engine passes over them, in row-major order. -/
def passOver (sh : Shape) : Copy :=
  { team := 0, tmpl := 0, rows := 0, chan := 0, shape := sh, h := 0, drain := false, xp := false, xw := 0 }
def shapeBytes (l : LRec) (sh : Shape) : Nat := totalMoves l (passOver sh)

/-- What a shape comes to for a command: usable, a malformed command, or a page of the table that is awaited. -/
inductive CmdShape
  | ok (sh : Shape)
  | bad
  | wait (w : Wait)

def cmdShape (gk x : Nat) (wr : Bool) (s : State) : CmdShape × State :=
  match getShape gk .none x s with
  | (.ok sh, s) =>
    (if (if wr then sh.w else sh.r) && decide (slotKind (tget 0 sh.slot.toNat (recOf s gk).fslots) < 4) then .ok sh else .bad, s)
  | (.bad, s) => (.bad, s)
  | (.page a p, s) => (.wait (.page a p), engJoin gk a p false s)

/-- What passing over a shape comes to. -/
inductive Passed
  | all (bs : List Byte) (bad : List Nat)
  | denied (n : Nat)
  | wait (n : Nat) (w : Wait)

/-- The bytes of a shape from byte `i` on, beat by beat. -/
def readShape (gk : Nat) (l : LRec) (c : Copy) : Nat → Nat → List Byte → List Nat → State → Passed × State
  | 0, _, bs, bad, s => (.all bs bad, s)
  | k + 1, i, bs, bad, s =>
    if totalMoves l c ≤ i then (.all bs bad, s)
    else
      let a := (moveAt l c i).a
      let r := beatBlock (engAsker s gk) false a s
      let n := (beatFrom l c r.1 r.1 i .none).length
      if cutOff r.2 gk [(a, n)] then (.wait i .none, r.2)
      else match engRead (engAsker s gk) gk .g a n r.2 with
      | (.ok b m, s) =>
        readShape gk l c k (i + n) (bs ++ b) (bad ++ ((List.range n).filter fun j => m.getD j false).map (i + ·)) s
      | (.wait w, s) => (.wait i w, s)
      | (.err _, s) => (.denied i, s)
      | (.peer _, s) => (.denied i, s)

/-- Bytes written into a shape from byte `i` on, beat by beat. -/
def writeShape (gk : Nat) (l : LRec) (c : Copy) (bs : List Byte) (bad : List Nat) : Nat → Nat → State → Passed × State
  | 0, _, s => (.all bs bad, s)
  | k + 1, i, s =>
    if totalMoves l c ≤ i then (.all bs bad, s)
    else
      let a := (moveAt l c i).a
      let r := beatBlock (engAsker s gk) true a s
      let n := (beatFrom l c r.1 r.1 i .none).length
      if cutOff r.2 gk [(a, n)] then (.wait i .none, r.2)
      else match engWrite (engAsker s gk) gk a (slice bs i n) ((List.range n).map fun j => bad.contains (i + j)) r.2 with
      | (.done, s) => writeShape gk l c bs bad k (i + n) s
      | (.wait w, s) => (.wait i w, s)
      | (.err, s) => (.denied i, s)
      | (.peer _ _, s) => (.denied i, s)

/-! ## Halo commands (R354) -/

/-- The channel of a command: a valid ualink entry with the permission; its peer, virtual device, mailbox and port. -/
def cmdChan (s : State) (gk n : Nat) (send : Bool) : Option (Nat × Nat × Nat × Nat) :=
  match capOf s gk n with
  | .some c =>
    if n < 64 ∧ c.kind = .ualink ∧ (if send then c.s else c.v) ∧ bits c.operand 21 16 < 4 then
      .some (bits c.operand 9 0, bits c.operand 15 10, bits c.operand 21 16, bits c.operand 25 22)
    else .none
  | .none => .none

def finish (c : Cmd) (status : Nat) : Cmd := { c with done := .some (status, c.rd.getD c.seen, c.wrote) }

/-- Whether a peer of a command is this module itself. -/
def isOwn (s : State) (id : Nat) : Bool := hasId s && id == ownId s

def sendPart (c : Cmd) : Bool := fieldOf c.data 2 1 % 2 = 1
def recvPart (c : Cmd) : Bool := fieldOf c.data 2 1 / 2 % 2 = 1
def getHalo (die : Nat) (s : State) : List Cmd := tget [] die s.pk.halo

/-- The face that a command's receive part takes: its tag, from that module and engine, for its device (R354). -/
def takesFace (s : State) (c : Cmd) (f : Face) : Bool :=
  fieldOf c.data 4 4 == f.tag && vdevOf s (ctxOf s c.gk) == f.vdev && match cmdChan s c.gk (fieldOf c.data 13 1) false with
    | .some ch => f.peer == ch.1 && f.inst == ch.2.2.1
    | .none => false

/-- A command of the die waits for a face, and no face that is held is its own. -/
def awaits (s : State) (die : Nat) (f : Face) : Bool :=
  (getHalo die s).any fun c => c.done.isNone && c.res.isNone && recvPart c && takesFace s c f
    && (tget [] die s.pk.faces).all fun g => !takesFace s c g

/-- The engine of a die can take a face: its command waits for it, or fewer than 16 are held (R354). -/
def faceRoom (s : State) (die : Nat) (f : Face) : Bool := decide ((tget [] die s.pk.faces).length < 16) || awaits s die f
def addFace (die : Nat) (f : Face) (s : State) : State :=
  { s with pk := { s.pk with faces := tset [] die (tget [] die s.pk.faces ++ [f]) s.pk.faces } }

/-- The send part: the face is read and streamed out. -/
def haloSend (die : Nat) (c : Cmd) (sh : Shape) (ch : Nat × Nat × Nat × Nat) (s : State) : Cmd × State :=
  let id := ch.1
  let own := isOwn s id
  if c.rd.isSome then (c, s)
  else if own && !faceRoom s ch.2.2.1 { peer := ownId s, inst := die, vdev := ch.2.1, tag := fieldOf c.data 4 4, data := [], bad := [] } then (c, s)
  else if !own && (!portUp s ch.2.2.2 || peerPorts s id == 0) then ({ c with rd := .some 0, stat := 4 }, s)
  else
    let l := recOf s c.gk
    match readShape c.gk l (passOver sh) (shapeBytes l sh) 0 [] [] s with
    | (.wait n w, s) => ({ c with wait := w, seen := n }, s)
    | (.denied n, s) => ({ c with rd := .some n, stat := 5 }, s)
    | (.all bs bad, s) =>
      let f : Face := { peer := ownId s, inst := die, vdev := ch.2.1, tag := fieldOf c.data 4 4, data := bs, bad := bad }
      let c := { c with rd := .some bs.length, face := .some s.mm.nextId }
      let s := addOp c.gk 0xFFFF 0 (.face (if own then 16 else ch.2.2.2) id) s
      (c, if own then addFace ch.2.2.1 f s else { s with pk := { s.pk with faceOut := s.pk.faceOut ++ [(ch.2.2.1, f)] } })

/-- The sender in this module of a face that command `c` of the die has taken: that may be the command itself. -/
def localSender (s : State) (die : Nat) (c : Cmd) (f : Face) : Option Nat :=
  let q := tget [] f.inst s.pk.halo
  ((if f.inst = die then c :: q else q).find? fun c =>
    fieldOf c.data 4 4 == f.tag && (match c.face with | .some id => (findOp s id).isSome | .none => false)
      && match cmdChan s c.gk (fieldOf c.data 12 1) true with | .some ch => ch.2.2.1 == die && isOwn s ch.1 | .none => false).bind (·.face)

/-- The receive part: the face of the tag, from that module and engine, is taken. -/
def haloTake (die : Nat) (c : Cmd) (sh : Shape) (ch : Nat × Nat × Nat × Nat) (s : State) : Cmd × State :=
  if c.res.isSome then (c, s)
  else
    let q := tget [] die s.pk.faces
    match q.find? (takesFace s c) with
    | .none =>
      if !isOwn s ch.1 && (!portUp s ch.2.2.2 || peerPorts s ch.1 == 0) then ({ c with res := .some (4, [], []) }, s) else (c, s)
    | .some f =>
      let s := { s with pk := { s.pk with faces := tset [] die (q.erase f) s.pk.faces } }
      let stat := if f.data.length = shapeBytes (recOf s c.gk) sh then 0 else 3
      let s := if isOwn s f.peer then
          match localSender s die c f with | .some id => dropOp id (faceDone id stat s) | .none => s
        else s
      (match (tget [] die s.pk.halo).find? fun x => x.gk == c.gk && x.data == c.data with
        | .some x => { c with stat := max c.stat x.stat, res := .some (stat, f.data, f.bad) }
        | .none => { c with res := .some (stat, f.data, f.bad) }, s)

/-- What was received is written. -/
def writeRes (c : Cmd) (sh : Shape) (s : State) : Cmd × Bool × State :=
  match c.res with
  | .some (0, bs, bad) =>
    let l := recOf s c.gk
    (match writeShape c.gk l (passOver sh) bs bad (bs.length + 1) c.wrote s with
    | (.all _ _, s) => ({ c with wrote := bs.length }, true, s)
    | (.wait n w, s) => ({ c with wrote := n, wait := w }, false, s)
    | (.denied n, s) => ({ c with wrote := n, stat := max c.stat 5 }, true, s))
  | .some (st, _, _) => ({ c with stat := max c.stat st }, true, s)
  | .none => (c, false, s)

/-- Whether the command block is malformed in itself; one with a marked word is, too. DEDUCED: log entry 28. -/
def haloBad (bs : List Byte) : Bool :=
  fieldOf bs 0 2 != 1 || decide (4 ≤ fieldOf bs 2 1) || fieldOf bs 3 1 != 0 || fieldOf bs 14 2 != 0 || (bs.drop 24).any (· != 0)

/-- Both shapes of a command, where its parts need them. -/
def haloShapes (c : Cmd) (s : State) : CmdShape × CmdShape × State :=
  let a := if sendPart c then cmdShape c.gk (fieldOf c.data 8 2) false s else (.wait .none, s)
  let b := if recvPart c then cmdShape c.gk (fieldOf c.data 10 2) true a.2 else (.wait .none, a.2)
  (a.1, b.1, b.2)

/-- A command that waits for a table of shapes. DEDUCED: log entry 28. -/
def shapeWait (c : Cmd) (a b : CmdShape) : Cmd :=
  match a, b with
  | .wait (.page x y), _ => { c with wait := .page x y }
  | _, .wait (.page x y) => { c with wait := .page x y }
  | _, _ => c

/-- Whether the page or the pool that a command waits for has come. -/
def cmdReady (s : State) (c : Cmd) : Bool := engReady s c.wait

/-- One advance of a halo command. DEDUCED: log entry 28. -/
def haloStep (die : Nat) (c : Cmd) (s : State) : Cmd × State :=
  if c.done.isSome || !cmdReady s c then (c, s)
  else if haloBad c.data || !c.bad.isEmpty then (finish c 1, s)
  else
    let x := haloShapes c s
    let c := shapeWait { c with wait := .none } x.1 x.2.1
    let s := x.2.2
    match x.1, x.2.1 with
    | .bad, _ => (finish c 1, s)
    | _, .bad => (finish c 1, s)
    | sa, sb =>
      let ca := cmdChan s c.gk (fieldOf c.data 12 1) true
      let cb := cmdChan s c.gk (fieldOf c.data 13 1) false
      if (sendPart c && ca.isNone) || (recvPart c && cb.isNone) then (finish c 2, s)
      else
        let r : Cmd × State := match sa, ca with
          | .ok sh, .some ch => haloSend die c sh ch s
          | _, _ => (c, s)
        let r : Cmd × Bool × State := match sb, cb with
          | .ok sh, .some ch => (let t := haloTake die r.1 sh ch r.2; writeRes t.1 sh t.2)
          | _, _ => (r.1, !recvPart c, r.2)
        let c := r.1
        let s := r.2.2
        let sent := !sendPart c || (c.rd.isSome && match c.face with | .some id => (findOp s id).isNone | .none => true)
        (if sent && r.2.1 then finish c c.stat else c, s)

/-- The commands of an engine each advance; those that complete now go behind those that have completed before. -/
def advance (step : Cmd → State → Cmd × State) (get : State → List Cmd) (put : List Cmd → State → State) (s : State) : State :=
  let s := put ((get s).filter fun c => (getGrid s (gridOfG c.gk)).status.isNone) s
  let old := (get s).filter (·.done.isSome)
  let s := (List.range (get s).length).foldl (fun s i =>
    match (get s)[i]? with
    | .some c => let r := step c s; put ((get r.2).set i r.1) r.2
    | .none => s) s
  let q := get s
  put (q.filter (·.done.isNone) ++ old ++ q.filter fun c => c.done.isSome && !old.contains c) s

def putHalo (die : Nat) (q : List Cmd) (s : State) : State := { s with pk := { s.pk with halo := tset [] die q s.pk.halo } }
def getColl (die : Nat) (s : State) : List Cmd := tget [] die s.pk.coll
def putColl (die : Nat) (q : List Cmd) (s : State) : State := { s with pk := { s.pk with coll := tset [] die q s.pk.coll } }

/-- R354: the halo engine of a die goes on with its commands. -/
def execHaloCommand (die : Nat) (s : State) : Out := .next (advance (haloStep die) (getHalo die) (putHalo die) s)

/-- R354: a face arrives: discarded and counted, held back, or held. -/
def execHaloFaceArrival (die : Nat) (f : Face) (s : State) : Out :=
  .next (if inboundHeld s || !linked s f.peer then s
    else if !takesFrom s f.peer f.vdev then peerError f.peer s
    else if faceRoom s die f then addFace die f s else s)

/-! ## All-reduce commands (R355, R356) -/

/-- The operation and identity of a type and operation code; an element's bytes. -/
def collOp (op ty : Nat) : Word → Word → Word :=
  match ty, op with
  | 0, 0 => fun x y => (lift2 fp64 (fun F => opAdd F fm0) x y).1
  | 0, 1 => fun x y => (lift2 fp64 (fun F => opMinMax F false false) x y).1
  | 0, _ => fun x y => (lift2 fp64 (fun F => opMinMax F true false) x y).1
  | 1, 0 => fun x y => word (opAdd fp32 fm0 (bits x 31 0) (bits y 31 0)).1
  | 1, 1 => fun x y => word (opMinMax fp32 false false (bits x 31 0) (bits y 31 0)).1
  | 1, _ => fun x y => word (opMinMax fp32 true false (bits x 31 0) (bits y 31 0)).1
  | _, 0 => iAdd
  | _, 1 => minI
  | _, _ => maxI
def collIdent (op ty : Nat) : Word :=
  match ty, op with
  | 0, 0 => 0x8000000000000000 | 0, 1 => 0x7FF0000000000000 | 0, _ => 0xFFF0000000000000
  | 1, 0 => 0x80000000 | 1, 1 => 0x7F800000 | 1, _ => 0xFF800000
  | _, 0 => 0 | _, 1 => 0x7FFFFFFFFFFFFFFF | _, _ => 0x8000000000000000
def collWidth (ty : Nat) : Nat := if ty = 1 then 4 else 8

/-- The smallest power of two at or above n, for n to 64. -/
def powTwo (n : Nat) : Nat := if n ≤ 1 then 1 else 2 ^ (Nat.log2 (n - 1) + 1)

/-- One element of the result: the tree of R356 over the contributions in rank order, filled up with the identity. -/
def collElem (op ty : Nat) (xs : List Word) : Word :=
  let w := powTwo xs.length
  (tree (collOp op ty) 7 (xs ++ List.replicate (w - xs.length) (collIdent op ty))).headD 0

/-- The result bytes of all members' contributions. -/
def collResult (op ty : Nat) (cs : List (List Byte)) : List Byte :=
  let n := collWidth ty
  (List.range ((cs.headD []).length / n)).flatMap fun i =>
    bytesOf n (collElem op ty (cs.map fun c => word (fieldOf c (n * i) n))).toNat

/-- Bytes of elements to which some contribution was marked. -/
def collMarks (ty : Nat) (bads : List (List Nat)) : List Nat :=
  let n := collWidth ty
  ((bads.flatten.map (· / n)).eraseDups).flatMap fun e => (List.range n).map (n * e + ·)

/-- A member: accelerator, virtual device, engine. -/
structure Member where
  id : Nat
  vdev : Nat
  inst : Nat
  deriving DecidableEq, Repr

/-- Collective group `g` of a virtual device (R355); none: invalid. -/
def collGroup (s : State) (v g : Nat) : Option (List Member) :=
  let a := (tget 0 v s.rg.collBase).toNat + 1024 * g
  let bs := pread s a 1024
  let n := fieldOf bs 0 1
  let m (r : Nat) : Nat := fieldOf bs (8 + 8 * r) 8
  if 16 ≤ g ∨ n = 0 ∨ 64 < n ∨ pbad s a 1024 = true ∨ fieldOf bs 1 7 ≠ 0 ∨ ((List.range n).any fun r => nb (m r) 63 18 != 0) = true
      ∨ (bs.drop (8 + 8 * n)).any (· != 0) = true then .none
  else .some ((List.range n).map fun r => ⟨nb (m r) 9 0, nb (m r) 15 10, nb (m r) 17 16⟩)

def collTag (c : Cmd) : Nat := fieldOf c.data 4 4
def collBad (bs : List Byte) : Bool :=
  fieldOf bs 0 2 != 2 || decide (2 < fieldOf bs 2 1) || decide (2 < fieldOf bs 3 1) || fieldOf bs 13 3 != 0 || (bs.drop 24).any (· != 0)

/-- The slot kind that a type needs. -/
def collKind (ty : Nat) : Nat := if ty = 1 then 1 else 0
def kindIs (s : State) (gk : Nat) (sh : Shape) (k : Nat) : Bool := slotKind (tget 0 sh.slot.toNat (recOf s gk).fslots) == k

/-- A member's contribution as it is known here: its operation, type and bytes; still awaited; or the member cannot be reached; or its own
source is denied. -/
inductive Contrib
  | ok (op ty : Nat) (bs : List Byte) (bad : List Nat)
  | wait (n : Nat) (w : Wait)
  | lost
  | denied (n : Nat)

/-- How many bytes of its source a member has passed over (R353). -/
def Contrib.read : Contrib → Nat | .ok _ _ bs _ => bs.length | .wait n _ => n | .lost => 0 | .denied n => n

/-- The open command of a member of this module for a group and a tag. -/
def memberCmd (s : State) (m : Member) (g tag : Nat) : Option Cmd :=
  (getColl m.inst s).find? fun c => c.done.isNone && c.res.isNone && !collBad c.data && vdevOf s (ctxOf s c.gk) == m.vdev
    && fieldOf c.data 12 1 == g && collTag c == tag

/-- The contribution of one member of a group of virtual device `v`; a peer's only where its traffic is taken and a port
reaches it (R346, R349). -/
def contribOf (cs : List Contribution) (v g tag r : Nat) (m : Member) (s : State) : Contrib × State :=
  if isOwn s m.id then
    match memberCmd s m g tag with
    | .none => (.wait 0 .none, s)
    | .some c =>
      match cmdShape c.gk (fieldOf c.data 8 2) false s with
      | (.ok sh, s) =>
        let l := recOf s c.gk
        (match readShape c.gk l (passOver sh) (shapeBytes l sh) 0 [] [] s with
        | (.all bs bad, s) => (.ok (fieldOf c.data 2 1) (fieldOf c.data 3 1) bs bad, s)
        | (.wait n w, s) => (.wait n w, s)
        | (.denied n, s) => (.denied n, s))
      | (.wait w, s) => (.wait 0 w, s)
      | (.bad, s) => (.wait 0 .none, s)
  else match cs.find? fun x => x.group == g && x.tag == tag && x.rank == r && takesFrom s m.id v && linked s m.id with
    | .some x => (.ok x.op x.ty x.data x.bad, s)
    | .none => (if (portsOf s m.id).any (portUp s) then .wait 0 .none else .lost, s)

def contribs (cs : List Contribution) (v g tag : Nat) : Nat → List Member → State → List Contrib × State
  | _, [], s => ([], s)
  | r, m :: ms, s =>
    let x := contribOf cs v g tag r m s
    let y := contribs cs v g tag (r + 1) ms x.2
    (x.1 :: y.1, y.2)

/-- What the members' contributions come to: a status, the result and its marks. -/
def combineAll (xs : List Contrib) : Option (Nat × List Byte × List Nat) :=
  if xs.any fun x => match x with | .lost => true | _ => false then .some (4, [], [])
  else if xs.any fun x => match x with | .wait _ _ => true | _ => false then .none
  else
    let l := xs.filterMap fun x => match x with | .ok o t b m => .some (o, t, b, m) | _ => .none
    match l with
    | [] => .some (5, [], [])
    | h :: _ =>
      if l.length < xs.length then .some (5, [], [])
      else if l.any fun x => x.1 != h.1 || x.2.1 != h.2.1 || x.2.2.1.length != h.2.2.1.length then .some (3, [], [])
      else .some (0, collResult h.1 h.2.1 (l.map (·.2.2.1)), collMarks h.2.1 (l.map (·.2.2.2)))

/-- The page that a contribution waits for. -/
def waitOf : List Contrib → Wait
  | [] => .none
  | .wait _ (.page a p) :: _ => .page a p
  | _ :: r => waitOf r

/-- Every member of this module takes the result, and the bytes that its own source has given. -/
def spread (ms : List (Member × Nat)) (g tag : Nat) (res : Nat × List Byte × List Nat) (s : State) : State :=
  (ms.filter fun m => isOwn s m.1.id).foldl (fun s m =>
    match memberCmd s m.1 g tag with
    | .none => s
    | .some c =>
      putColl m.1.inst ((getColl m.1.inst s).map fun x => if x = c then { x with res := .some res, rd := .some m.2 } else x) s) s

/-- One advance of an all-reduce command. DEDUCED: log entry 28. -/
def collStep (die : Nat) (cs : List Contribution) (c0 : Cmd) (s : State) : Cmd × State :=
  if c0.done.isSome || !cmdReady s c0 then (c0, s)
  else if collBad c0.data || !c0.bad.isEmpty then (finish c0 1, s)
  else
    let g := fieldOf c0.data 12 1
    let v := vdevOf s (ctxOf s c0.gk)
    let k := collKind (fieldOf c0.data 3 1)
    let a := cmdShape c0.gk (fieldOf c0.data 8 2) false s
    let b := cmdShape c0.gk (fieldOf c0.data 10 2) true a.2
    let c0 := shapeWait { c0 with wait := .none } a.1 b.1
    let s := b.2
    match a.1, b.1 with
    | .bad, _ => (finish c0 1, s)
    | _, .bad => (finish c0 1, s)
    | .ok sa, .ok sb =>
      if !kindIs s c0.gk sa k || !kindIs s c0.gk sb k then (finish c0 1, s)
      else match collGroup s v g with
        | .none => (finish c0 2, s)
        | .some ms =>
          if !hasId s || !ms.contains ⟨ownId s, v, die⟩ then (finish c0 2, s)
          else
            let r : Cmd × State :=
              if c0.res.isSome then (c0, s)
              else
                let x := contribs cs v g (collTag c0) 0 ms s
                let counts := ms.zip (x.1.map Contrib.read)
                let own := ((counts.find? fun m => m.1 == ⟨ownId s, v, die⟩).map (·.2)).getD 0
                match combineAll x.1 with
                | .none => ({ c0 with wait := waitOf x.1, seen := own }, x.2)
                | .some res => ({ c0 with res := .some res, rd := .some own }, spread counts g (collTag c0) res x.2)
            let c := r.1
            let s := r.2
            let fits := match c.res with
              | .some (0, bs, _) => bs.length == shapeBytes (recOf s c.gk) sb | _ => true
            if !fits then (finish c 3, s)
            else
              let w := writeRes c sb s
              (if w.2.1 then finish w.1 w.1.stat else w.1, w.2.2)
    | _, _ => (c0, s)

/-- R356: the all-reduce engine of a die goes on with its commands, given what the other packages' members contribute. -/
def execAllReduceCommand (die : Nat) (cs : List Contribution) (s : State) : Out :=
  .next (advance (collStep die cs) (getColl die) (putColl die) s)

/-! ## Completions (R352, R353) -/

/-- The oldest completed command of a queue, as its completion, and the queue without it. -/
def popDone (q : List Cmd) : Option (Compl × List Cmd) :=
  (q.find? (·.done.isSome)).bind fun c => c.done.map fun d =>
    ({ team := c.team, status := d.1, token := word (fieldOf c.data 16 8), rd := d.2.1, wr := d.2.2 }, q.erase c)

/-- R352: a command completes and yields its completion. -/
def execEngineCompletion (die : Nat) (coll : Bool) (s : State) : Out :=
  .next (if coll then
      match popDone (getColl die s) with
      | .none => s
      | .some (x, q) =>
        let s := putColl die q s
        { s with pk := { s.pk with cdone := tset [] die (tget [] die s.pk.cdone ++ [x]) s.pk.cdone } }
    else
      match popDone (getHalo die s) with
      | .none => s
      | .some (x, q) =>
        let s := putHalo die q s
        { s with pk := { s.pk with hdone := tset [] die (tget [] die s.pk.hdone ++ [x]) s.pk.hdone } })

end Sys2Proof.Machine
end

