-- ==== Sys2Proof/Machine/RepairEvents.lean ====
section
/-! DEFINITION. The device barrier tree (R153, R376, R377, R383, R384), function-level reset (R366, R367), retirement (R368 to R370, R379),
margin plans (R371, R372), credit audits and lane sparing (R373, R374), soft errors (R364, R365), the checkpoint engine (R380, R381). -/

namespace Sys2Proof.Machine

/-! ## The barrier tree -/

/-- The teams of a launch on a core. -/
def teamsOn (s : State) (g core : Nat) : List Nat :=
  (teamsOf s g).filter fun t =>
    let x := getTeam s t
    (x.st == .resident || x.st == .switchedOut) && (x.core == core || (x.pair && x.core + 1 == core))

/-- A team has arrived: each of its groups waits at `bar`, or has exited, with every access performed, those of UO pages and remote stores
too, but for what its core still holds, which can go home (R153, R383, R384). -/
def teamArrived (s : State) (t : Nat) : Bool :=
  (groupsOf s t).all fun g => ((live s g).isEmpty || (getGrp s g).bar.isSome) && (releaseWait s g .none true true).isNone

/-- A core's part of the AND: excused, arrived, or without a team of the launch (R377, R383). -/
def coreReady (s : State) (c g core : Nat) : Bool :=
  let k := c * 960 + core
  tget true k s.rp.mask || tget false k s.rp.arr != tget false c s.rp.gen || (teamsOn s g core).isEmpty

/-- A group takes the release: the acquire side of `bar`, then the instruction after it. -/
def releaseGroup (s : State) (gk : Nat) : State :=
  let x := getGrp s gk
  match x.bar with
  | .none => s
  | .some npc =>
    passGroup gk npc (setGrp gk { x with bar := .none } (acquireCore (coreOf s gk) true false s))

/-- The root flips G when every core is ready: all waiting groups are released, forced mask bits return (R377, R379, R385). -/
def flipRoot (c g : Nat) (s : State) : State :=
  let parts := (List.range 960).filter fun k => tget false (c * 960 + k) s.rp.part
  if parts.all (coreReady s c g) && ((teamsOf s g).flatMap (groupsOf s)).any fun x => (getGrp s x).bar.isSome then
    let new := !tget false c s.rp.gen
    let arr := parts.foldl (fun a k => if tget true (c * 960 + k) s.rp.mask && !tget false (c * 960 + k) s.rp.forced then a
      else tset false (c * 960 + k) new a) s.rp.arr
    let mask := parts.foldl (fun m k => if tget false (c * 960 + k) s.rp.forced && !tget false k s.rp.dead
      then tset true (c * 960 + k) false m else m) s.rp.mask
    let s := { s with rp := { s.rp with gen := tset false c new s.rp.gen, arr := arr, mask := mask
                                        forced := tdrop (fun k => k / 960 == c) s.rp.forced } }
    ((teamsOf s g).flatMap (groupsOf s)).foldl releaseGroup s
  else s

/-- R384: a core raises its arrival bit in a context once its teams have arrived and what it holds is performed at `.dev`; the root then
looks at every bit. -/
def execBarrierArrivalBit (c core : Nat) (s : State) : Out :=
  .next (match tget .none c s.rp.holder with
    | .none => s
    | .some g =>
      let k := c * 960 + core
      let ts := teamsOn s g core
      let s := if tget false k s.rp.part && ts != [] && ts.all (teamArrived s) && !tget false k s.rp.forced
        then (let s := releaseCore core true true s
              { s with rp := { s.rp with arr := tset false k (!tget false c s.rp.gen) s.rp.arr } }) else s
      flipRoot c g s)

/-! ## Function-level reset (R366, R367) -/

/-- The contexts of a virtual device: its own, and its render contexts. -/
def ctxsOf (s : State) (v : Nat) : List Nat :=
  v :: (s.vs.rb.filter fun p => match p.2 with | .some b => b.owner == v | .none => false).map fun p => 64 + p.1

/-- Steps 1 and 2: every grid of the device ends with status 0x17; nothing of it is left but what other agents have to answer. DEDUCED: log entry 24. -/
def stopDevice (v : Nat) (s : State) : State :=
  let cs := ctxsOf s v
  let gs := (s.grid.filter fun p => cs.contains p.2.ctx && p.2.status.isNone).map Prod.fst
  let s := gs.foldl (fun s g => endGrid g 0x17 s) s
  let mine (k : Nat) : Bool := cs.contains (k / 4)
  { s with
    vs := { s.vs with hostq := tdrop mine s.vs.hostq, devq := tdrop mine s.vs.devq, waiting := s.vs.waiting.erase v }
    mm := { s.mm with ops := s.mm.ops.filter fun o => vdevOf s (ctxOf s o.gk) != v || match o.k with
      | .rop _ _ _ _ => false | .claim _ _ _ _ _ => false | _ => true } }

/-- A Gloss unit without the device's window, counters, pairs and triggers; its pairs count as fifo drops. DEDUCED: log entry 24. -/
def scrubUnit (v : Nat) (u : GUnit) : GUnit :=
  let own (k : Nat) : Bool := ownerOf u k == v
  let inWin (i : Nat) : Bool := match tget .none v u.ten with | .some t => decide (t.wbase ≤ i ∧ i < t.wbase + 2 ^ t.wlog) | .none => false
  let fifo := (u.q.filter fun p => own p.k).foldl (fun f p => tset 0 p.k (tget 0 p.k f + 1) f) (tdrop own u.fifo)
  let hasTrigs := (tget .none v u.ten).isSome
  settleDrain { u with
    mem := tdrop inWin u.mem, runs := tdrop own u.runs, fifo := fifo, budg := tdrop own u.budg, fire := tdrop own u.fire
    q := u.q.filter fun p => !own p.k, total := tset 0 v 0 u.total
    run := match u.run with | .some r => if own r.k then .none else .some r | .none => .none
    fired := tdrop (fun k => k / 16 == v) u.fired, trigTok := tdrop (fun k => k / 16 == v) u.trigTok
    disarmed := if hasTrigs then (List.range 16).foldl (fun d i => tset false (v * 16 + i) true d) u.disarmed else u.disarmed }

/-- The dirty lines of a context go home, and its translations go. DEDUCED: log entry 24. -/
def forgetCtx (s : State) (ctx : Nat) : State :=
  let s := (s.mm.comb.filter fun l => l.ctx == ctx).foldl (fun s l => drainEntry l.core l.line s) s
  let s := (s.mm.l1.filter fun l => l.ctx == ctx).foldl (fun s l => writeBackLine l.core l.line s) s
  { s with mm := { s.mm with l1 := s.mm.l1.filter fun l => l.ctx != ctx, xlat := s.mm.xlat.filter fun e => e.asid != ctx } }

/-- A range of memory reads zero, with fresh check bits. -/
def zeroRange (pa n : Nat) (s : State) : State :=
  let s := (pagesOf pa n).foldl (fun s p => viewPage p .none s) s
  let within (sz k : Nat) : Bool := decide (pa ≤ sz * k ∧ sz * k + sz ≤ pa + n)
  { s with mm := { s.mm with mem := tdrop (within 1) s.mm.mem, bad := tdrop (within 8) s.mm.bad, badH := tdrop (within 32) s.mm.badH } }

/-- The tiles' bytes and handles of the device's teams, the flags and maxima of their groups, are gone. -/
def scrubTeams (v : Nat) (s : State) : State :=
  { s with
    grp := tmap {} (fun k g => if vdevOf s (ctxOf s k) = v then {} else g) s.grp
    team := tmap {} (fun _ x => if vdevOf s x.ctx = v then { x with handles := [], stash := [], sbad := [] } else x) s.team }

/-- Step 4. DEDUCED: log entry 24. -/
def scrubDevice (v : Nat) (s : State) : State :=
  let cs := ctxsOf s v
  let s := { s with
    gl := tmap {} (fun _ u => scrubUnit v u) s.gl
    gsel := match s.gsel with | .some d => (if ((getUnit s d).run.any fun r => ownerOf (getUnit s d) r.k == v) then .none else .some d)
                              | .none => .none
    grid := tmap {} (fun _ x => if cs.contains x.ctx then { x with toks := [] } else x) s.grid
    pk := { s.pk with inbox := tdrop (fun k => k / 64 == v) s.pk.inbox
                      halo := tmap [] (fun _ q => q.filter fun c => vdevOf s (ctxOf s c.gk) != v) s.pk.halo
                      coll := tmap [] (fun _ q => q.filter fun c => vdevOf s (ctxOf s c.gk) != v) s.pk.coll
                      faces := tmap [] (fun _ q => q.filter fun f => f.vdev != v) s.pk.faces }
    bd := { s.bd with frecs := s.bd.frecs.filter fun r => r.vdev != v } }
  let b := (blockOf s v).savebase
  let s := if (tget .none v s.vs.vb).isSome then zeroRange (b + 0x100000) 0x400000 (zeroRange b 16384 s) else s
  scrubTeams v (cs.foldl forgetCtx s)

/-- A dirty line of some contexts has no path home (R319). -/
def heldLines (s : State) (mine : Nat → Bool) : Bool :=
  (s.mm.l1 ++ s.mm.comb).any fun l => l.dirty != 0 && mine l.ctx && !reachable s l.core (l.line * 128)
/-- Whether something that the device has asked of another agent is still unanswered, or a line of its cannot go home. DEDUCED: log entry 24. -/
def undrained (s : State) (v : Nat) : Bool :=
  (s.mm.ops.any fun o => vdevOf s (ctxOf s o.gk) == v) || heldLines s (ctxsOf s v).contains

/-- R367: the device is stopped, drained and scrubbed; a reset started during a checkpoint waits (R402). DEDUCED: log entry 24. -/
def execFunctionLevelReset (s : State) : Out :=
  .next (if !bitAt s.rg.flrCtl 63 || (s.hs.flrWaits && bitAt s.rg.ckptCtl 63) then s
    else
      let v := bits s.rg.flrCtl 5 0
      let s := stopDevice v s
      if undrained s v then s
      else
        let s := scrubDevice v s
        { s with rg := { s.rg with flrCtl := word v } })

/-! ## Retirement (R368 to R370, R379) -/

def spares (s : State) (die : Nat) : Nat := bits (tget 16 die s.rg.marginLog) 7 0
/-- A field of a register takes a value. -/
def setField (x : Word) (hi lo n : Nat) : Word := word (x.toNat - bits x hi lo * 2 ^ lo + n % 2 ^ (hi + 1 - lo) * 2 ^ lo)

/-- The teams resident on a core. -/
def occupants (s : State) (core : Nat) : List Nat :=
  (s.team.filter fun p => p.2.st == .resident && (p.2.core == core || (p.2.pair && p.2.core + 1 == core))).map Prod.fst

/-- A core that had raised its bit is excused until the flip (R379). DEDUCED: log entry 23. -/
def forceMasks (core : Nat) (s : State) : State :=
  [0, 1, 2, 3].foldl (fun s c =>
    let k := c * 960 + core
    if tget false k s.rp.part && !tget true k s.rp.mask && tget false k s.rp.arr != tget false c s.rp.gen then
      { s with rp := { s.rp with mask := tset true k true s.rp.mask, forced := tset false k true s.rp.forced } }
    else s) s

/-- A launch of the concurrent class whose teams, those that have not ended, can never again be resident together ends (R370). -/
def loseLaunch (s : State) (g : Nat) : State :=
  let x := getGrid s g
  let left := ((teamsOf s g).filter fun t => (getTeam s t).st != .ended).length
  if x.lr.cls = .concurrent ∧ x.status.isNone ∧
      couldFit x.ctx { x.lr with teams := left } (queueNames x.caps).length (gridCores s g) = false
  then endGrid g 0x18 s else s

/-- No spare is left: the logical core is dead, its saved teams are placed elsewhere like woken ones, and so are those that a slice end
had saved from it. DEDUCED: log entry 23. -/
def loseCore (core : Nat) (s : State) : State :=
  let s := { s with rp := { s.rp with
    dead := tset false core true s.rp.dead
    mask := [0, 1, 2, 3].foldl (fun m c => tset true (c * 960 + core) true m) s.rp.mask
    forced := [0, 1, 2, 3].foldl (fun m c => tset false (c * 960 + core) false m) s.rp.forced } }
  let ts := (s.team.filter fun p => p.2.st == .switchedOut && (coresOf p.2).contains core).map Prod.fst
  let s := ts.foldl (fun s t =>
    let s := setTeam t { getTeam s t with st := .woken, woke := s.vs.orders } s
    { s with vs := { s.vs with orders := s.vs.orders + 1 } }) s
  let s := ((tkeys s.team).map gridOfT).eraseDups.foldl loseLaunch s
  raiseMgmt 5 s

/-- Retirement of a logical core: its teams are saved as at a slice end, and resume on the spare, or elsewhere if there is none. DEDUCED: log entry 23. -/
def retireCore (core : Nat) (s : State) : State :=
  let die := dieOf core
  let ts := occupants s core
  let s := writeBackCore core true (drainCore core (forceMasks core (ts.foldl (fun s t => switchOut t s) s)))
  let n := spares s die
  if n = 0 then loseCore core s
  else
    let s := { s with
      rp := { s.rp with phys := tset .none core (.some (256 - n)) s.rp.phys }
      rg := { s.rg with marginLog := tset 16 die (setField (tget 16 die s.rg.marginLog) 7 0 (n - 1)) s.rg.marginLog } }
    ts.foldl (fun s t => comeBack t (getTeam s t).core s) s

/-- A retirement may start: a logical core that is not dead (R368). DEDUCED: log entry 23. -/
def mayRetire (s : State) (core : Nat) : Bool := decide (core < 960) && !tget false core s.rp.dead

/-- A retirement starts, or waits behind the one that runs. DEDUCED: log entry 23. -/
def startRetire (core : Nat) (s : State) : State :=
  if bitAt s.rg.coreRetire 63 then { s with rp := { s.rp with moves := s.rp.moves ++ [core] } }
  else { s with rg := { s.rg with coreRetire := word ((if mayRetire s core then 2 ^ 63 else 0) + core) } }

/-- The next retirement that waits and may start does so; those that may not are ignored (R368). -/
def nextRetire (s : State) : State :=
  match s.rp.moves.dropWhile (fun c => !mayRetire s c) with
  | [] => { s with rp := { s.rp with moves := [] } }
  | c :: r => startRetire c { s with rp := { s.rp with moves := r } }

/-- R369: the move of CORE_RETIRE completes. DEDUCED: log entry 23. -/
def execCoreRetirement (s : State) : Out :=
  .next (if bitAt s.rg.coreRetire 63 then
      let core := bits s.rg.coreRetire 9 0
      let s := if mayRetire s core then retireCore core s else s
      nextRetire { s with rg := { s.rg with coreRetire := word core } }
    else s)

/-! ## Links (R373, R374) -/

/-- The link of a direction. -/
def linkOf (l : Nat) : Nat := l / 2

/-- R373: the receiver sends an audit flit, behind every earlier credit return. How many credits it has returned since the last one, and how
many of those arrive, is not stated. DEDUCED: log entry 27. -/
def execAuditFlitSend (l : Nat) (s : State) : Out :=
  let n := Config.countedEvents s.fresh
  let m := Config.countedEvents (s.fresh + 1) % (n + 1)
  let y := (tget 0 l s.pk.credY + n) % 2 ^ 32
  .next (tick (tick { s with pk := { s.pk with
    credY := tset 0 l y s.pk.credY
    audits := tset [] l (tget [] l s.pk.audits ++ [(y, m)]) s.pk.audits } }))

/-- A field of LINK_ERR counts on. DEDUCED: log entry 27. -/
def linkErr (l hi lo n : Nat) (s : State) : State :=
  let x := tget 0 l s.rg.linkErr
  { s with rg := { s.rg with linkErr := tset 0 l (setField x hi lo (bits x hi lo + n)) s.rg.linkErr } }

/-- R373: the transmitter takes an audit flit, behind the credit returns before it; one that fails its CRC is dropped. DEDUCED: log entry 27. -/
def execAuditFlitReceive (l : Nat) (crc : Bool) (s : State) : Out :=
  .next (match tget [] l s.pk.audits with
    | [] => s
    | (y, m) :: rest =>
      let r := (tget 0 l s.pk.credR + m) % 2 ^ 32
      let s := { s with pk := { s.pk with
        audits := tset [] l rest s.pk.audits, credR := tset 0 l r s.pk.credR, avail := tset 0 l (tget 0 l s.pk.avail + m) s.pk.avail } }
      if !crc then s
      else
        let d := (y + 2 ^ 32 - r) % 2 ^ 32
        let s := { s with pk := { s.pk with
          avail := tset 0 l (tget 0 l s.pk.avail + d) s.pk.avail, credR := tset 0 l y s.pk.credR } }
        if d = 0 then s else tapLink (linkOf l) 1 (linkErr (linkOf l) 31 0 d s))

/-- A port goes down, if it is up. -/
def portGoesDown (p : Nat) (s : State) : State := match execUalinkPortDown p s with | .next s => s | _ => s

/-- A lane group of a direction fails: a spare takes its place, or the link goes down. -/
def loseLane (l : Nat) (s : State) : State :=
  if linkOf l < 4 then
    if tget 0 l s.pk.spares < 2 then { s with pk := { s.pk with spares := tset 0 l (tget 0 l s.pk.spares + 1) s.pk.spares } }
    else linkGoesDown (linkOf l) s
  else portGoesDown (linkOf l - 4) s

/-- R374: a lane group fails. DEDUCED: log entry 27. -/
def execLaneGroupFailure (l : Nat) (s : State) : Out := .next (loseLane l s)

/-- R374: the oldest unacknowledged flit of a direction is replayed, with success or without, which is a free value; its eighth replay
without success takes a die-to-die link down. DEDUCED: log entry 27. -/
def execFlitReplay (l : Nat) (s : State) : Out :=
  .next (
    let r := pick [false, true] false s
    let ok := r.1
    let s := r.2
    let s := tapLink (linkOf l) 0 (linkErr (linkOf l) 63 32 1 s)
    let n := if ok then 0 else tget 0 l s.pk.retries + 1
    if n < 8 ∨ 8 ≤ l then { s with pk := { s.pk with retries := tset 0 l n s.pk.retries } }
    else linkGoesDown (linkOf l) { s with pk := { s.pk with retries := tset 0 l 0 s.pk.retries } })

/-! ## Margins (R371, R372) -/

/-- The plan of one unit: the readings in order, the last one standing for what follows; its voltage raise; whether it is retired. DESIGN CHOICE: log entry 37. -/
def planUnit : Nat → List Nat → Nat → Nat × Bool
  | 0, _, v => (v, false)
  | k + 1, rs, v =>
    match rs with
    | [] => (v, false)
    | r :: rest =>
      if 20 ≤ r then (v, false)
      else if 12 ≤ r then (min 50 (v + 10), false)
      else if 50 ≤ v then (50, true)
      else planUnit k (if rest.isEmpty then [r] else rest) (min 50 (v + 10))

/-- SPARE_MAP entry `l` of a die (R368). DESIGN CHOICE: log entry 2. -/
def spareEntry (s : State) (die l : Nat) : Nat :=
  let c := 240 * die + l
  bitN (tget false c s.rp.dead) 15 + (match tget .none c s.rp.phys with | .some p => p | .none => l)

/-- The readings that a plan takes of one canary: one, and one more after each step (R371). -/
def planReads : Nat → List Nat → Nat → List Nat
  | 0, _, _ => []
  | k + 1, rs, v =>
    match rs with
    | [] => []
    | r :: rest => r :: (if 12 ≤ r ∨ 50 ≤ v then [] else planReads k (if rest.isEmpty then [r] else rest) (min 50 (v + 10)))

/-- A unit's key in the voltage table: a physical core, or a lane group of a direction. -/
def unitKey (s : State) (die : Nat) (c : Canary) : Nat :=
  die * 4096 + (if c.isLink then 1024 + c.unit else spareEntry s die c.unit % 256)

/-- A unit that the plan retires: a core, or a lane group, whose spare starts at its own test value. -/
def retireUnit (die : Nat) (c : Canary) (s : State) : State :=
  if c.isLink then loseLane (c.unit / 64) { s with rp := { s.rp with volt := tset 0 (unitKey s die c) 0 s.rp.volt } }
  else startRetire (die * 240 + c.unit) s

/-- R371: the margin planner of a die applies its plan and logs it; at start-up it is part of step 2 (R394). DESIGN CHOICE: log entry 37. -/
def execMarginPlan (die : Nat) (us : List Canary) (s : State) : Out :=
  .next (
    let old (c : Canary) : Nat := tget 0 (unitKey s die c) s.rp.volt
    let plan := us.map fun c => (c, planUnit 7 c.slack (old c))
    let raised := (plan.filter fun p => decide (old p.1 < p.2.1)).length
    let retired := (plan.filter (·.2.2)).length
    let least := ((us.filterMap fun c => c.slack.head?).min?).getD 255
    let volt := plan.foldl (fun t p => tset 0 (unitKey s die p.1) p.2.1 t) s.rp.volt
    let log := word ((Config.hours s.fresh).toNat * 2 ^ 32 + least % 256 * 2 ^ 24 + raised % 256 * 2 ^ 16 + retired % 256 * 2 ^ 8
      + spares s die)
    let s := us.foldl (fun s c => (planReads 7 c.slack (tget 0 (unitKey s die c) s.rp.volt)).foldl (fun s r =>
      tapMonitor die (1 + c.unit) r s) s) (bootDid 2 die [0, 1, 2, 3] s)
    let s := tick { s with rp := { s.rp with volt := volt }, rg := { s.rg with marginLog := tset 16 die log s.rg.marginLog } }
    (plan.filter (·.2.2)).foldl (fun s p => retireUnit die p.1 s) s)

/-! ## Soft errors (R364, R365) -/

/-- The unit code of ECC_LOG. -/
def errUnit (p : ErrPlace) : Nat :=
  match p with
  | .vreg _ _ => 0 | .sreg _ _ => 0 | .stash _ _ => 1 | .l1 _ _ _ => 2 | .l2 _ _ => 3 | .hbm _ => 4 | .fetch _ => 5
  | .acc _ _ _ => 6 | .record _ _ _ => 6 | .dir _ => 7 | .gloss _ _ => 8

/-- The die whose ECC_LOG counts an error, and the logical core, slice or stack that it shows (R309, R365). DEDUCED: log entry 34. -/
def errAt (s : State) (e : SoftErr) : Nat × Nat :=
  let core (c : Nat) : Nat × Nat := (dieOf c, c)
  match e.place with
  | .vreg tk _ => core (coreOf s (tk / 64)) | .sreg gk _ => core (coreOf s gk) | .fetch tk => core (coreOf s (tk / 64))
  | .stash t off =>
    let x := getTeam s t
    core (if x.pair && decide (128 * (((getGrid s (gridOfT t)).lr.stash + 255) / 256) ≤ off) then x.core + 1 else x.core)
  | .l1 c _ _ => core c | .acc _ c _ => core c | .record _ c _ => core c
  | .l2 pa _ => (e.die, sliceOf pa) | .hbm pa => (homeDie s pa, sliceOf pa / 16) | .dir line => (homeDie s (line * 128), sliceOf (line * 128))
  | .gloss die _ => (die, e.at_.toNat)

/-- ECC_LOG counts an error. -/
def logError (e : SoftErr) (die at_ : Nat) (s : State) : State :=
  let x := tget 0 die s.rg.eccLog
  let y := if e.corr then setField x 47 16 (min (bits x 47 16 + 1) (2 ^ 32 - 1))
    else setField (setField (setField x 63 48 (min (bits x 63 48 + 1) 65535)) 15 12 (errUnit e.place)) 11 0 at_
  { s with rg := { s.rg with eccLog := tset 0 die y s.rg.eccLog } }

/-- A word of a line of a core's L1 is bad. -/
def badWord (core line off : Nat) (s : State) : State :=
  { s with mm := { s.mm with l1 := s.mm.l1.map fun l =>
      if l.core = core ∧ l.line = line then { l with bad := l.bad ||| BitVec.ofNat 16 (2 ^ (off / 8)) } else l } }

/-- A line of an L1: a clean one is refetched; a dirty one goes home, as soon as it can (R319), its bad word with a mark. -/
def l1Error (core line off : Nat) (s : State) : State :=
  match findLine core line s.mm.l1 with
  | .none => s
  | .some l =>
    let hit := (List.range 8).any fun i => l.dirty.getLsbD (off / 8 * 8 + i)
    let s := writeBackLine core line (if hit then badWord core line off s else s)
    { s with mm := { s.mm with l1 := s.mm.l1.filter fun l => !(l.core == core && l.line == line) || l.dirty != 0 } }

/-- The grid that holds a slot or a record of a core: it ends with status 0x07 (R363). -/
def endHolder (s : State) (t : Option Nat) : State := match t with | .some t => endGrid (gridOfT t) 0x07 s | .none => s

def slotHolder (s : State) (ctx core n : Nat) : Option Nat :=
  (s.slot.find? fun p => p.1 % 64 == n && match p.2 with
    | .some z => (getTeam s z.team).ctx == ctx && (getTeam s z.team).core + z.half == core | .none => false).bind fun p => p.2.map (·.team)
def recHolder (s : State) (ctx core n : Nat) : Option Nat :=
  (s.recs.find? fun p => p.1 % 512 == n && match p.2 with
    | .some z => (getTeam s z.team).ctx == ctx && (getTeam s z.team).core + z.half == core | .none => false).bind fun p => p.2.map (·.team)

/-- What an uncorrectable error does. DEDUCED: log entry 34. -/
def uncorrectable (p : ErrPlace) (s : State) : State :=
  match p with
  | .vreg tk r => if (getThr s tk).st = .exited then s else setV tk r { getV s tk r with st := .fault 0 0 } s
  | .sreg gk r => if (getTeam s (teamOfG gk)).st = .ended then s else setS gk r { getS s gk r with st := .fault 0 0 } s
  | .stash t off => if (getTeam s t).st = .ended then s else stashMark t off 1 s
  | .l1 core line off => l1Error core line off s
  | .l2 pa dirty => if dirty && isHbm pa then pmark pa 1 s else s
  | .hbm pa => if isHbm pa then { s with mm := { s.mm with badH := tset false (pa / 32) true s.mm.badH } } else s
  | .fetch tk => { s with sc := { s.sc with
      lanes := tmap [] (fun _ ls => ls.map fun l => if l.tk = tk then { l with words := [] } else l) s.sc.lanes } }
  | .acc ctx core n => endHolder s (slotHolder s ctx core n)
  | .record ctx core n => endHolder s (recHolder s ctx core n)
  | .dir line =>
    let s := (s.mm.l1.filter fun l => l.line == line).foldl (fun s l => flushLine l.core line s) s
    raiseMgmt 4 { s with mm := { s.mm with dir := tset {} line {} s.mm.dir } }
  | .gloss die w => let u := getUnit s die; setUnit die { u with mem := tset 0 w 0 u.mem } s

/-- R364: an error is detected: counted, and if it cannot be corrected, dealt with. DEDUCED: log entry 34. -/
def execSoftError (e : SoftErr) (s : State) : Out :=
  let w := errAt s e
  .next (logError e w.1 w.2 (if e.corr then s else uncorrectable e.place s))

/-- R364: the scrubber comes to a line of HBM: a word that has an uncorrectable mark keeps it, and the errors that it corrects are
SOFT_ERROR steps of their own. -/
def execPatrolScrub (_line : Nat) (s : State) : Out := .next s

/-! ## The checkpoint engine (R380, R381) -/

/-- Copies, claims and Bindery operations are over; nothing of them is left in flight. DEDUCED: log entry 29. -/
def quiet (s : State) : Bool :=
  s.gsel.isNone && s.mm.ops.all fun o => match o.k with
    | .copy _ => false | .claim _ _ _ _ _ => false | .bpub _ _ _ _ _ _ => false | .bfloor _ _ _ => false | .bwr _ _ _ _ _ _ => false
    | .edl _ _ _ _ _ _ _ _ _ _ => false | .rload _ _ _ _ _ _ _ => false | .rstore _ _ => false
    | _ => true

/-- Whether a checkpoint of a direction may run: started, no reset under way (R402), everything quiet, every dirty line able to go home
(R319). -/
def ckptRuns (s : State) (restore : Bool) : Bool :=
  bitAt s.rg.ckptCtl 63 && bitAt s.rg.ckptCtl 62 == restore && (!bitAt s.rg.flrCtl 63 || s.hs.flrWaits) && quiet s
    && !heldLines s (fun _ => true)

def residents (s : State) : List Nat := (s.team.filter fun p => p.2.st == .resident).map Prod.fst

/-- Every dirty line goes home. DEDUCED: log entry 29. -/
def allHome (s : State) : State :=
  let s := s.mm.comb.foldl (fun s l => drainEntry l.core l.line s) s
  s.mm.l1.foldl (fun s l => writeBackLine l.core l.line s) s

/-- The physical address of the tier. DEDUCED: log entry 29. -/
def tierAt (s : State) : Nat := hostBase + bits s.rg.ckptDest 51 0

/-- A range of a table moved to another place, over what stands there. -/
def shiftInto {α : Type} (src dst n : Nat) (t : Tab α) : Tab α :=
  let piece := (t.filter fun p => decide (src ≤ p.1 ∧ p.1 < src + n)).map fun p => (p.1 - src + dst, p.2)
  t.filter (fun p => decide (p.1 < dst)) ++ piece ++ t.filter fun p => decide (dst + n ≤ p.1)

def snapOf (s : State) : Snap :=
  { vreg := s.vreg, sreg := s.sreg, pred := s.pred, qpred := s.qpred, thr := s.thr, grp := s.grp, team := s.team, slot := s.slot
    recs := s.recs, ops := s.mm.ops, withdrawn := s.mm.withdrawn }

/-- The control register at the end of a checkpoint; a reset that has waited for it goes on (R402). -/
def ckptDone (uncorr : Nat) (s : State) : State :=
  { s with hs := { s.hs with flrWaits := false }, rg := { s.rg with ckptCtl := s.rg.ckptCtl &&& 0x4000000000000000, ckptStat := word (uncorr % 2 ^ 32 * 2 ^ 32 + 768) } }

/-- The 8-byte words of HBM that carry an uncorrectable mark. -/
def markedWords (s : State) : Nat :=
  (((tkeys s.mm.bad) ++ (tkeys s.mm.badH).flatMap fun k => [4 * k, 4 * k + 1, 4 * k + 2, 4 * k + 3]).filter
    fun w => decide (w < hostBase / 8)).eraseDups.length

/-- R381: memory is streamed to the tier, as stored and with its marks, while every device is switched out. DEDUCED: log entry 29. -/
def execCheckpointSave (s : State) : Out :=
  .next (if !ckptRuns s false then s
    else
      let ts := residents s
      let s := allHome (ts.foldl (fun s t => switchOut t s) s)
      let s := (tkeys s.mm.wrapped).foldl (fun s p => viewPage (p * 65536) .none s) s
      let n := markedWords s
      let s := { s with
        mm := { s.mm with mem := shiftInto 0 (tierAt s) hostBase s.mm.mem, bad := shiftInto 0 (tierAt s / 8) (hostBase / 8) s.mm.bad
                          badH := shiftInto 0 (tierAt s / 32) (hostBase / 32) s.mm.badH }
        hs := { s.hs with snaps := tset .none (tierAt s) (.some (snapOf s)) s.hs.snaps } }
      ts.foldl returnTeam (ckptDone n s))

/-- The entries of a saved team replace those of a table. -/
def backTab {α : Type} (mine : Nat → Bool) (old cur : Tab α) : Tab α :=
  (old.filter fun p => mine p.1).foldl (fun t p => tput p.1 p.2 t) (cur.filter fun p => !mine p.1)

/-- A switched-out team takes what its save area in the image holds. DEDUCED: log entry 29. -/
def backTeam (x : Snap) (s : State) (t : Nat) : State :=
  if !(x.team.any fun p => p.1 == t && p.2.st == .switchedOut) || (getTeam s t).st != .switchedOut then s
  else
    { s with
      vreg := backTab (fun k => k / 64 / 64 / 128 == t) x.vreg s.vreg, sreg := backTab (fun k => k / 64 / 128 == t) x.sreg s.sreg
      pred := backTab (fun k => k / 8 / 64 / 128 == t) x.pred s.pred, qpred := backTab (fun k => k / 8 / 128 == t) x.qpred s.qpred
      thr := backTab (fun k => k / 64 / 128 == t) x.thr s.thr, grp := backTab (fun k => k / 128 == t) x.grp s.grp
      slot := backTab (fun k => k / 128 == t) x.slot s.slot, recs := backTab (fun k => k / 1024 == t) x.recs s.recs
      team := backTab (fun k => k == t) x.team s.team
      mm := { s.mm with ops := s.mm.ops.filter (fun o => teamOfG o.gk != t) ++ x.ops.filter fun o => teamOfG o.gk == t
                        withdrawn := s.mm.withdrawn.filter (fun o => teamOfG o.gk != t) ++ x.withdrawn.filter fun o => teamOfG o.gk == t } }

/-- R381: memory is written back from the tier; the save areas of the image are among it. DEDUCED: log entry 29. -/
def execCheckpointRestore (s : State) : Out :=
  .next (if !ckptRuns s true then s
    else
      let ts := residents s
      let s := allHome (ts.foldl (fun s t => switchOut t s) s)
      let at_ := tierAt s
      let s := { s with mm := { s.mm with
        mem := shiftInto at_ 0 hostBase s.mm.mem, bad := shiftInto (at_ / 8) 0 (hostBase / 8) s.mm.bad
        badH := shiftInto (at_ / 32) 0 (hostBase / 32) s.mm.badH
        l1 := [], comb := [], dir := [], wrapped := [] } }
      let s := match tget .none at_ s.hs.snaps with
        | .some x => (tkeys x.team).foldl (backTeam x) s
        | .none => s
      ts.foldl returnTeam (ckptDone (markedWords s) s))

end Sys2Proof.Machine
end

