-- ==== Sys2Proof/Machine/HostEvents.lean ====
section
/-! DEFINITION. The host's side: reset and bring-up (R394, R395), host queues and completion rings (R391, R392), keys (R396), SPDM and the
side-band port (R397, R398), power and temperature (R399, R401), the register windows (R390, R391), host accesses (R276, R389). -/

namespace Sys2Proof.Machine

/-! ## Reset and firmware (R394, R395, R398) -/

/-- Whether the boot ROM accepts an image. DEDUCED: log entry 25. -/
def imageOk (s : State) (i : FwImage) : Bool := Config.signatureOk i.digest i.sig && decide (s.hs.fuses ≤ i.ver)

/-- The image that the boot ROM takes: the active one first, then the other. DEDUCED: log entry 25. -/
def bootImage (s : State) : Option (Nat × FwImage) :=
  [s.hs.active, 1 - s.hs.active].findSome? fun n => match tget .none n s.hs.images with
    | .some i => if imageOk s i then .some (n, i) else .none
    | .none => .none

/-- What outlives a reset: the host's memory and translation, the flash and the fuses, the spares taken, the checkpoint images. DEDUCED: log entry 25. -/
def afterReset (s : State) : State :=
  let far (k : Nat) : Bool := decide (hostBase ≤ k)
  { State.reset with
    mm := { State.reset.mm with mem := s.mm.mem.filter fun p => far p.1, bad := s.mm.bad.filter fun p => far (8 * p.1)
                                badH := s.mm.badH.filter fun p => far (32 * p.1)
                                hostMap := s.mm.hostMap }
    rg := { State.reset.rg with marginLog := tmap 16 (fun _ x => word (bits x 7 0)) s.rg.marginLog }
    pk := { State.reset.pk with spares := s.pk.spares }
    rp := { State.reset.rp with phys := s.rp.phys, dead := s.rp.dead, volt := s.rp.volt }
    hs := { State.reset.hs with images := s.hs.images, fuses := s.hs.fuses, snaps := s.hs.snaps
                                active := match s.hs.pend with | .some n => n | .none => s.hs.active }
    fresh := s.fresh }

/-- R394, R395: the module is reset and the boot ROM checks the firmware: bring-up goes on with step 2, or the module stays in recovery. DESIGN CHOICE: log entry 2. -/
def execModuleReset (s : State) : Out :=
  let s := afterReset s
  .next (match bootImage s with
    | .some (n, i) => { s with hs := { s.hs with boot := 2, running := n, image := .some i, fuses := max s.hs.fuses (min 64 i.ver) } }
    | .none => { s with hs := { s.hs with recovery := true } })

/-- R398: a new image is checked and written to the inactive place alone; it becomes active at the next reset. -/
def execPldmFirmwareUpdate (img : FwImage) (s : State) : Out :=
  .next (if imageOk s img then
      let other := 1 - s.hs.active
      { s with hs := { s.hs with images := tset .none other (.some img) s.hs.images, pend := .some other } }
    else s)

/-- R398: main-side power is lost. -/
def execMainSideOff (s : State) : Out := .next { s with hs := { s.hs with mainOff := true } }

/-! ## Host queues (R270, R391) -/

/-- A context whose queues and doorbells serve (R273, R279, R367). DEDUCED: log entry 25. -/
def doorbellOk (s : State) (x : Nat) : Bool :=
  let v := vdevOf s x
  linkEnabled s && enabledV s v && !inReset s v && (decide (x < 64) || (tget .none (x - 64) s.vs.rb).isSome)

/-- One entry is taken: it gets the next host token, its record is copied. DEDUCED: log entry 26. -/
def takeEntry (x j : Nat) (s : State) (i : Nat) : State :=
  let v := vdevOf s x
  let at_ := (tget 0 (x * 4 + j) s.vf.hqBase).toNat + 16 * (i % 256)
  let tok := nextHostTok s v
  let r := if pbad s at_ 16 then ({ lr := {}, tok := tok, dep := 0, bad := true }, s) else readEntry x tok (rdN s at_ 8) s
  let s := giveHostTok v r.2
  let k := x * 4 + j
  { s with vs := { s.vs with hostq := tset [] k (tget [] k s.vs.hostq ++ [r.1]) s.vs.hostq }
           vf := { s.vf with hqHead := tset 0 k (word (i + 1)) s.vf.hqHead } }

/-- R391: a tail write makes entries available, or is ignored. DEDUCED: log entry 26. -/
def execHqTailWrite (x j val : Nat) (s : State) : Out :=
  let k := x * 4 + j
  let old := (tget 0 k s.vf.hqTail).toNat
  .next (if !doorbellOk s x || decide (4 ≤ j) || decide (val ≤ old) || decide (2 ^ 64 ≤ val)
      || decide (256 < (tget [] k s.vs.hostq).length + (val - old)) then s
    else
      let s := { s with vf := { s.vf with hqTail := tset 0 k (word val) s.vf.hqTail } }
      (List.range (val - old)).foldl (fun s i => takeEntry x j s (old + i)) s)

/-- R392: the oldest held completion of a context is written to its ring, if it has room. DEDUCED: log entry 26. -/
def execCompletionEntryWrite (x : Nat) (s : State) : Out :=
  let t := (tget 0 x s.vf.cqTail).toNat
  let h := (tget 0 x s.vf.cqHead).toNat
  .next (match tget [] x s.vf.held with
    | [] => s
    | c :: r =>
      if 256 ≤ (t + 2 ^ 64 - h) % 2 ^ 64 then s
      else
        let bs := bytesOf 4 c.tok ++ bytesOf 2 c.status ++ bytesOf 1 (if c.trig.isSome then 1 else 0) ++ bytesOf 1 (c.trig.getD 0)
          ++ bytesOf 8 0
        let s := pwrite ((tget 0 x s.vf.cqBase).toNat + 16 * (t % 256)) bs s
        raiseIrq (vdevOf s x) (if x < 64 then 0 else 2)
          { s with vf := { s.vf with held := tset [] x r s.vf.held, cqTail := tset 0 x (word (t + 1)) s.vf.cqTail } })

/-! ## Keys (R396) -/

/-- A start of KEY_CTL that may be carried out: of an operation, on an index, in step 6 of the bring-up (R394), and no checkpoint under way
(R402). DEDUCED: log entries 25, 31. -/
def keyStart (s : State) (op i : Nat) : Bool :=
  linkEnabled s && bitAt s.rg.keyCtl 63 && bits s.rg.keyCtl 62 61 == op && bits s.rg.keyCtl 11 0 == i && !bitAt s.rg.ckptCtl 63
def keyDone (s : State) : State := { s with rg := { s.rg with keyCtl := s.rg.keyCtl &&& 0x7FFFFFFFFFFFFFFF } }
def keyWords (s : State) : BitVec 512 :=
  BitVec.ofNat 512 ((List.range 8).foldl (fun n i => n + (tget 0 i s.rg.keyData).toNat * 2 ^ (64 * i)) 0)

/-- R396: a key is loaded. -/
def execKeyLoad (i : Nat) (s : State) : Out :=
  .next (if keyStart s 0 i then
      keyDone { s with hs := { s.hs with keys := tset .none i (.some (Config.unwrapKey (keyWords s))) s.hs.keys } }
    else s)
/-- R396: a key index is cleared. -/
def execKeyClear (i : Nat) (s : State) : Out :=
  .next (if keyStart s 1 i then keyDone { s with hs := { s.hs with keys := tset .none i .none s.hs.keys } } else s)

/-! ## Attestation and the side-band port (R397, R398) -/

/-- A configuration block as its device last applied it; zeros where none was. -/
def blockImage (b : VBlock) : List Byte :=
  bytesOf 1 b.weight ++ bytesOf 1 (bitN b.bounded 0 + bitN b.hard 1 + bitN b.render 2) ++ bytesOf 2 b.l2share ++ bytesOf 4 b.quantum
    ++ bytesOf 8 b.tmplbase ++ bytesOf 4 b.tmplcount ++ bytesOf 1 b.l1share ++ bytesOf 3 0 ++ bytesOf 8 b.handler.toNat
    ++ bytesOf 8 b.savebase ++ bytesOf 8 b.reqmask.toNat ++ (List.range 4).flatMap (fun d => bytesOf 8 (b.slices.getD d 0).toNat)
    ++ bytesOf 128 b.cores.toNat ++ bytesOf 8 b.savesize ++ bytesOf 40 0

/-- What is measured under an index; none: no measurement. DESIGN CHOICE: log entry 37. -/
def measured (s : State) (i : Nat) : Option (BitVec 384) :=
  match i with
  | 1 => s.hs.image.map (·.digest)
  | 2 => .some (Config.sha384 (bytesOf 8 s.hs.fuses ++
      (List.range 4).flatMap fun d => (List.range 240).flatMap fun l => bytesOf 2 (spareEntry s d l)))
  | 3 => .some (Config.sha384 ((List.range 64).flatMap fun v =>
      match tget .none v s.vs.vb with | .some b => blockImage b | .none => bytesOf 256 0))
  | 4 => .some (Config.sha384 ((tkeys s.hs.keys).flatMap fun k => bytesOf 2 k))
  | _ => .none

/-- R397: a measurement is answered. DESIGN CHOICE: log entry 37. -/
def execSpdmRequest (i : Nat) (s : State) : Out :=
  .next (match measured s i with
    | .some d => { s with hs := { s.hs with spdmOut := s.hs.spdmOut ++ [(i, d)] } }
    | .none => s)

/-- Sensors of the side-band port: 0 power, 1 to 4 the dies' temperatures, 5 coolant temperature, 6 coolant flow, 7 to 10 ECC_LOG,
11 to 14 MARGIN_LOG, 15 MGMT_CAUSE, 16 the die whose temperature stopped the module, plus 1. DESIGN CHOICE: log entry 37. -/
def sensorValue (s : State) (i : Nat) : Option Word :=
  if i = 0 then .some (word (bits s.rg.powerStat 15 0))
  else if i < 5 then .some (word (tget 0 (i - 1) s.hs.temp))
  else if i < 7 then .some (Config.sensor i s.fresh)
  else if i < 11 then .some (tget 0 (i - 7) s.rg.eccLog)
  else if i < 15 then .some (tget 16 (i - 11) s.rg.marginLog)
  else if i = 15 then .some s.rg.mgmtCause
  else if i = 16 then .some (match s.hs.stopCause with | .some d => word (d + 1) | .none => 0)
  else .none

/-- R398: a monitoring request is answered. DESIGN CHOICE: log entry 37. -/
def execPldmMonitoring (i : Nat) (s : State) : Out :=
  .next (match sensorValue s i with
    | .some x => tick { s with hs := { s.hs with pldmOut := s.hs.pldmOut ++ [(i, x)] } }
    | .none => s)

/-! ## Power and temperature (R399, R401) -/

/-- Degrees above 100 °C of the hottest die. DEDUCED: log entry 30. -/
def overheat (s : State) : Nat := (s.hs.temp.foldl (fun n p => max n p.2) 0) - 100

/-- The least number of withheld cycles that keeps an estimate at or below the effective limit, at most 63. DEDUCED: log entry 30. -/
def withhold (limit total d : Nat) : Nat :=
  ((List.range 64).find? fun w => decide (total * (64 - w) * 100 ≤ 64 * limit * (100 - 5 * d))).getD 63

/-- POWER_STAT. DEDUCED: log entry 30. -/
def powerStat (therm : Bool) (w watts : Nat) : Word := word (bitN therm 24 + w * 2 ^ 16 + watts % 65536)

/-- R399: the power manager sets the withheld cycles of the dies from their estimated power, in watts. DEDUCED: log entry 30. -/
def execPowerManagerUpdate (est : List Nat) (s : State) : Out :=
  let total := est.foldl (· + ·) 0
  let w := withhold (bits s.rg.powerLimit 15 0) total (overheat s)
  .next { s with hs := { s.hs with wh := (List.range 4).foldl (fun t d => tset 0 d w t) s.hs.wh }
                 rg := { s.rg with powerStat := powerStat (decide (0 < overheat s)) w (total * (64 - w) / 64) } }

/-- R399: POWER_LIMIT is held within its bounds. -/
def execPowerLimitWrite (w : BitVec 64) (s : State) : Out :=
  .next { s with rg := { s.rg with powerLimit := word (heldIn 1000 3600 (bits w 15 0)) } }

/-- A die's temperature is read: it is offered as a `monitor` event. -/
def takeTemp (die temp : Nat) (s : State) : State := tapMonitor die 0 temp { s with hs := { s.hs with temp := tset 0 die temp s.hs.temp } }
/-- The module stops for a die's temperature. -/
def stopHot (die : Nat) (s : State) : State := { s with hs := { s.hs with stopped := true, stopCause := .some die } }

/-- R401: a die's temperature is taken; above 100 °C the thermal cap is in force, and at 110 °C the module stops at once. DEDUCED: log entry 30. -/
def execThermalCap (die temp : Nat) (s : State) : Out :=
  let s := takeTemp die temp s
  let s := { s with rg := { s.rg with
    powerStat := powerStat (decide (0 < overheat s)) (bits s.rg.powerStat 23 16) (bits s.rg.powerStat 15 0) } }
  .next (if 110 ≤ temp then stopHot die s else s)

/-- R401: at 110 °C the module stops. DEDUCED: log entry 30. -/
def execThermalShutdown (die temp : Nat) (s : State) : Out := .next (if 110 ≤ temp then stopHot die (takeTemp die temp s) else s)

/-! ## Host accesses to module memory (R276, R389) -/

/-- Whether the host ingress of a die reaches every line of a range. DEDUCED: log entry 35. -/
def ingressOk (s : State) (die pa n : Nat) : Bool :=
  decide (0 < n ∧ pa + n ≤ hostBase) && ((List.range ((pa + n + 127) / 128 - pa / 128)).all fun i =>
    let a := (pa / 128 + i) * 128
    (connRow s die 248 (homeDie s a)).getLsbD (sliceOf a))

/-- R276: the host's access arrives at a die: it is performed on the stored bytes of the coherent memory, or refused: nothing is written, no
data return. DEDUCED: log entry 35. -/
def execHostIngressAccess (r : HostReq) (s : State) : Out :=
  let n := match r.wr with | .some d => d.length | .none => r.len
  .next (if !linkEnabled s then s
    else if !ingressOk s r.die r.pa n then
      match r.wr with
      | .some _ => s
      | .none => { s with hs := { s.hs with hostReads := s.hs.hostReads ++ [[]] } }
    else
      let s := (pagesOf r.pa n).foldl (fun s p => viewPage p .none s) s
      match r.wr with
      | .some d => dirLines (dirHome 0 r.die) r.pa n (pwrite r.pa d s)
      | .none => { s with hs := { s.hs with hostReads := s.hs.hostReads ++ [pread s r.pa n] } })

/-! ## The physical function's window (R390) -/

/-- One register of the first page and of RCTX_BASE on, as it reads. DEDUCED: log entry 21. -/
def readLow (s : State) (o : Nat) : Word :=
  match o with
  | 0x00 => s.rg.asBase | 0x08 => s.rg.regionBase | 0x10 => s.rg.regionApply | 0x18 => s.rg.regionStatus
  | 0x20 => s.rg.memSplit | 0x28 => s.rg.route | 0x30 => s.rg.invAddr | 0x38 => s.rg.invCtl
  | 0x40 => s.rg.vdevApply | 0x48 => s.rg.vdevStatus | 0x50 => s.rg.vdevBase | 0x58 => s.rg.flrCtl
  | 0x60 => s.rg.coreRetire | 0x68 => s.rg.ckptDest | 0x70 => s.rg.ckptCtl | 0x78 => s.rg.ckptStat
  | 0x80 => s.rg.mgmtCause | 0x88 => s.rg.ualinkId | 0x90 => s.rg.peerInBase | 0x98 => s.rg.powerLimit
  | 0xA0 => s.rg.powerStat | 0xA8 => s.rg.keyCtl
  | 0xF00 => s.rg.rctxBase | 0xF08 => s.rg.rctxApply | 0xF10 => s.rg.rctxStatus
  | _ => 0

/-- A register of die `d`. DEDUCED: log entry 21. -/
def readDie (s : State) (d i : Nat) : Word :=
  match i with
  | 0 => tget 0 d s.rg.eccLog | 1 => tget 16 d s.rg.marginLog | 2 => tget 0 d s.rg.glossApply | 3 => tget 0 d s.rg.glossStatus
  | 4 => tget (-1) d s.rg.slots0 | 5 => tget (-1) d s.rg.slots1 | 6 => word (bitN (getUnit s d).drain.isSome 63)
  | 7 => tget 0 d s.rg.glossTab | _ => 0

/-- BAR_SEG of a context, a die and a segment (R377). -/
def barSeg (s : State) (c d k : Nat) : Word :=
  let key (i : Nat) : Nat := c * 960 + 240 * d + 15 * k + i
  let sum (f : Nat → Bool) (at_ : Nat) : Nat := (List.range 15).foldl (fun n i => n + bitN (f (key i)) (at_ + i)) 0
  word (sum (fun x => tget true x s.rp.mask) 0 + bitN (tget false c s.rp.gen) 32 + sum (fun x => tget false x s.rp.arr) 33)

/-- The window as naturally aligned reads of 8, 4 and 2 bytes see it; a read of any other shape gives zero. DEDUCED: log entry 21. -/
def readPf (s : State) (o w : Nat) : Nat :=
  if w = 8 ∧ o % 8 = 0 then
    if o < 0x1000 then (readLow s o).toNat
    else if o < 0x1400 then (if o % 0x100 < 0x40 then (readDie s ((o - 0x1000) / 0x100) (o % 0x100 / 8)).toNat else 0)
    else if 0x2000 ≤ o ∧ o < 0x2200 then (tget 0 ((o - 0x2000) / 8) s.rg.collBase).toNat
    else if 0x4000 ≤ o ∧ o < 0x4800 then (barSeg s ((o - 0x4000) / 0x200) (o % 0x200 / 0x80) (o % 0x80 / 8)).toNat
    else if 0x5000 ≤ o ∧ o < 0x50A0 then (tget 0 ((o - 0x5000) / 8) s.rg.linkErr).toNat
    else if 0x10000 ≤ o ∧ o < 0x18000 then
      (connRow s ((o - 0x10000) / 0x2000) (o % 0x2000 / 0x20) (o % 0x20 / 8)).toNat
    else 0
  else if w = 4 ∧ o % 4 = 0 ∧ 0x8000 ≤ o ∧ o < 0x9000 then tget 0 ((o - 0x8000) / 4) s.rg.peerErr
  else if w = 2 ∧ o % 2 = 0 ∧ 0x3000 ≤ o ∧ o < 0x3800 ∧ o % 0x200 < 0x1E0 then spareEntry s ((o - 0x3000) / 0x200) (o % 0x200 / 2)
  else 0

/-- The state in an outcome; the steps that a register write starts all answer a next state. DEDUCED: log entry 25. -/
def andGo (s : State) (o : Out) : State := match o with | .next t => t | .fault _ => s | .refused _ => s

/-- FLR_CTL (R366): a start while busy is ignored. -/
def writeFlr (x : Word) (s : State) : State :=
  if bitAt s.rg.flrCtl 63 then s
  else { s with rg := { s.rg with flrCtl := x &&& 0x800000000000003F }, hs := { s.hs with flrWaits := bitAt s.rg.ckptCtl 63 } }
/-- CORE_RETIRE (R368). -/
def writeRetire (x : Word) (s : State) : State :=
  if bitAt x 63 then startRetire (bits x 9 0) s
  else if bitAt s.rg.coreRetire 63 then s else { s with rg := { s.rg with coreRetire := x &&& 0x3FF } }
/-- CKPT_CTL (R380). -/
def writeCkpt (x : Word) (s : State) : State :=
  if bitAt s.rg.ckptCtl 63 then s else { s with rg := { s.rg with ckptCtl := x &&& 0xC000000000000000 } }
/-- KEY_CTL (R396): a start with a reserved operation is ignored. -/
def writeKeyCtl (x : Word) (s : State) : State :=
  if bitAt s.rg.keyCtl 63 then s
  else if bitAt x 63 && bitAt x 62 then s
  else { s with rg := { s.rg with keyCtl := x &&& 0xE000000000000FFF } }
/-- INV_CTL (R291). -/
def writeInv (x : Word) (s : State) : State :=
  if bitAt s.rg.invCtl 63 then s else { s with rg := { s.rg with invCtl := x &&& 0x80000000FFFFFFFF } }
/-- MGMT_CAUSE: R/C fields (R375, R390); a change is also a side-band event (R398). -/
def clearMgmt (x : Word) (s : State) : State :=
  let c := s.rg.mgmtCause &&& ~~~x
  let s := if c = s.rg.mgmtCause then s else { s with hs := { s.hs with sideEvents := s.hs.sideEvents ++ [c] } }
  { s with rg := { s.rg with mgmtCause := c } }
/-- ECC_LOG: R/C fields (R365, R390). -/
def clearEcc (d : Nat) (x : Word) (s : State) : State :=
  let y := tget 0 d s.rg.eccLog
  let y := if bits x 63 48 = 0 then y else setField y 63 48 0
  let y := if bits x 47 16 = 0 then y else setField y 47 16 0
  { s with rg := { s.rg with eccLog := tset 0 d y s.rg.eccLog } }
/-- REGION_APPLY (R293): a reserved operation is malformed. -/
def writeRegionApply (x : Word) (s : State) : State :=
  let r := bits x 11 0
  match bits x 63 62 with
  | 0 => createRegion r s | 1 => rereadRegion r s | 2 => destroyRegion r s | n => regionStatus n r 1 s
/-- GLOSS_APPLY (R328). -/
def writeGlossApply (d : Nat) (x : Word) (s : State) : State :=
  let i := bits x 6 0
  match bits x 63 62 with
  | 0 => applyTenant d i s | 1 => attach d i s | 2 => andGo s (execGlossDetach d i s) | n => glossDone d n i 4 s

/-- A write to a register of the first page. DEDUCED: log entry 21. -/
def writeLow (o : Nat) (x : Word) (s : State) : State :=
  let rg := s.rg
  match o with
  | 0x00 => { s with rg := { rg with asBase := x &&& 0x000FFFFFFFFFFFFF } }
  | 0x08 => { s with rg := { rg with regionBase := x &&& 0x000FFFFFFFFFFFFF } }
  | 0x10 => writeRegionApply x s
  | 0x20 => andGo s (execMemSplitWrite x s)
  | 0x28 => andGo s (execRouteWrite x s)
  | 0x30 => { s with rg := { rg with invAddr := x &&& 0x01FFFFFFFFFF0000 } }
  | 0x38 => writeInv x s
  | 0x40 => andGo s (execVdevApply x s)
  | 0x50 => { s with rg := { rg with vdevBase := x &&& 0x000FFFFFFFFFC000 } }
  | 0x58 => writeFlr x s
  | 0x60 => writeRetire x s
  | 0x68 => { s with rg := { rg with ckptDest := x &&& 0x000FFFFFFFFF0000 } }
  | 0x70 => writeCkpt x s
  | 0x80 => clearMgmt x s
  | 0x88 =>
    if s.hs.boot < 4 then s else bootDid 4 16 portSteps { s with rg := { rg with ualinkId := x &&& 0x83FF } }
  | 0x90 => { s with rg := { rg with peerInBase := x &&& 0x000FFFFFFFFFFFF0 } }
  | 0x98 => andGo s (execPowerLimitWrite x s)
  | 0xA8 => writeKeyCtl x s
  | 0xF00 => { s with rg := { rg with rctxBase := x &&& 0x000FFFFFFFFF0000 } }
  | 0xF08 => andGo s (execRctxApply x s)
  | _ => s

/-- A write to a register of die `d`. DEDUCED: log entry 21. -/
def writeDie (d i : Nat) (x : Word) (s : State) : State :=
  match i with
  | 0 => clearEcc d x s
  | 2 => writeGlossApply d x s
  | 4 => { s with rg := { s.rg with slots0 := tset (-1) d x s.rg.slots0 } }
  | 5 => { s with rg := { s.rg with slots1 := tset (-1) d x s.rg.slots1 } }
  | 6 => if bitAt x 63 then andGo s (execGlossDrain d s) else s
  | 7 => { s with rg := { s.rg with glossTab := tset 0 d (x &&& 0x000FFFFFFFFFFFFF) s.rg.glossTab } }
  | _ => s

/-- The registers that firmware writes in steps 3 and 4 of the bring-up: MEM_SPLIT, ROUTE, UALINK_ID. -/
def firmwareRegister (o : Nat) : Bool := o == 0x20 || o == 0x28 || o == 0x88

/-- A write to the physical function's window: 8 bytes, naturally aligned, or ignored; the host's come through the Flaward Link and begin
with step 6 of the bring-up (R394). DEDUCED: log entries 21, 25. -/
def writePf (o w : Nat) (x : Word) (s : State) : State :=
  if w ≠ 8 ∨ o % 8 ≠ 0 ∨ (linkEnabled s = false ∧ firmwareRegister o = false) then s
  else if 0xB0 ≤ o ∧ o < 0xF0 then { s with rg := { s.rg with keyData := tset 0 ((o - 0xB0) / 8) x s.rg.keyData } }
  else if o < 0x1000 then writeLow o x s
  else if o < 0x1400 then (if o % 0x100 < 0x40 then writeDie ((o - 0x1000) / 0x100) (o % 0x100 / 8) x s else s)
  else if 0x2000 ≤ o ∧ o < 0x2200 then
    { s with rg := { s.rg with collBase := tset 0 ((o - 0x2000) / 8) (x &&& 0x000FFFFFFFFFFC00) s.rg.collBase } }
  else s

/-! ## The virtual functions' windows (R391) -/

/-- The context and the offset in its launch window that an offset of function `v`'s window names; none: reserved. -/
def vfPlace (s : State) (v o : Nat) : Option (Nat × Nat) :=
  if o < 0x90 then .some (v, o)
  else
    let r := (o - 0x10000) / 0x80
    match tget .none r s.vs.rb with
    | .some b => if 0x10000 ≤ o ∧ r < 1024 ∧ b.owner = v ∧ o % 0x80 < 0x78 then .some (64 + r, o % 0x80) else .none
    | .none => .none

def readVf (s : State) (v o w : Nat) : Nat :=
  if w ≠ 8 ∨ o % 8 ≠ 0 then 0
  else match vfPlace s v o with
    | .none => 0
    | .some (x, o) =>
      let q := x * 4 + o % 0x20 / 8
      (if o < 0x20 then tget 0 q s.vf.hqBase
       else if o < 0x40 then tget 0 q s.vf.hqTail
       else if o < 0x60 then tget 0 q s.vf.hqHead
       else match o with
        | 0x60 => tget 0 x s.vf.cqBase | 0x68 => tget 0 x s.vf.cqTail | 0x70 => tget 0 x s.vf.cqHead
        | 0x78 => tget 0 x s.vf.fqHead | 0x80 => tget 0 x s.vf.fqTail | 0x88 => tget 0 x s.vf.fqDone | _ => 0).toNat

/-- FQ_DONE (R290): a reserved result is ignored. -/
def writeFqDone (v : Nat) (x : Word) (s : State) : State :=
  let s := { s with vf := { s.vf with fqDone := tset 0 v x s.vf.fqDone } }
  match bits x 63 62 with
  | 0 => andGo s (execFqDoneRetry v (bits x 31 0) s)
  | 1 => andGo s (execFqDoneDeny v (bits x 31 0) s)
  | _ => s

def writeVf (v o w : Nat) (x : Word) (s : State) : State :=
  if w ≠ 8 ∨ o % 8 ≠ 0 ∨ linkEnabled s = false then s
  else match vfPlace s v o with
    | .none => s
    | .some (c, o) =>
      let q := c * 4 + o % 0x20 / 8
      if o < 0x20 then { s with vf := { s.vf with hqBase := tset 0 q (x &&& 0x000FFFFFFFFFF000) s.vf.hqBase } }
      else if o < 0x40 then andGo s (execHqTailWrite c (o % 0x20 / 8) x.toNat s)
      else match o with
        | 0x60 => { s with vf := { s.vf with cqBase := tset 0 c (x &&& 0x000FFFFFFFFFFFFF) s.vf.cqBase } }
        | 0x70 => { s with vf := { s.vf with cqHead := tset 0 c x s.vf.cqHead } }
        | 0x78 => { s with vf := { s.vf with fqHead := tset 0 c x s.vf.fqHead } }
        | 0x88 => writeFqDone v x s
        | _ => s

/-- R390, R391: a register is written; or it is read, and the data go back to the host. DEDUCED: log entry 25. -/
def execRegisterWrite (a : RegAccess) (s : State) : Out :=
  .next (match a.val with
    | .some x => (match a.vf with | .some v => (if v < 64 then writeVf v a.off a.width x s else s) | .none => writePf a.off a.width x s)
    | .none =>
      let n := match a.vf with | .some v => (if v < 64 then readVf s v a.off a.width else 0) | .none => readPf s a.off a.width
      { s with hs := { s.hs with hostReads := s.hs.hostReads ++ [bytesOf a.width n] } })

end Sys2Proof.Machine
end

