-- ==== Sys2Proof/Machine/Dispatch.lean ====
section
/-! DEFINITION. One arm for each row of the opcode table: each calls its meaning. It is noncomputable for the same reason as the decoder,
which two of the meanings call (Decode.lean); the kernel evaluates it as any other. -/

namespace Sys2Proof.Machine

open Sys2Proof in noncomputable
def exec (i : Instr) (s : State) : Host.Outcome State Fault Refusal :=
  match i with
  | .addI64 d a b => Sys2Proof.Machine.execAddI64 d a b s
  | .subI64 d a b => Sys2Proof.Machine.execSubI64 d a b s
  | .addI32 d a b => Sys2Proof.Machine.execAddI32 d a b s
  | .subI32 d a b => Sys2Proof.Machine.execSubI32 d a b s
  | .addN32 d a b => Sys2Proof.Machine.execAddN32 d a b s
  | .subN32 d a b => Sys2Proof.Machine.execSubN32 d a b s
  | .addI64Sat d a b => Sys2Proof.Machine.execAddI64Sat d a b s
  | .subI64Sat d a b => Sys2Proof.Machine.execSubI64Sat d a b s
  | .addN64Sat d a b => Sys2Proof.Machine.execAddN64Sat d a b s
  | .subN64Sat d a b => Sys2Proof.Machine.execSubN64Sat d a b s
  | .addI32Sat d a b => Sys2Proof.Machine.execAddI32Sat d a b s
  | .subI32Sat d a b => Sys2Proof.Machine.execSubI32Sat d a b s
  | .addN32Sat d a b => Sys2Proof.Machine.execAddN32Sat d a b s
  | .subN32Sat d a b => Sys2Proof.Machine.execSubN32Sat d a b s
  | .negI64 d a => Sys2Proof.Machine.execNegI64 d a s
  | .absI64 d a => Sys2Proof.Machine.execAbsI64 d a s
  | .mulI64 d a b => Sys2Proof.Machine.execMulI64 d a b s
  | .mulhiI64 d a b => Sys2Proof.Machine.execMulhiI64 d a b s
  | .mulhiN64 d a b => Sys2Proof.Machine.execMulhiN64 d a b s
  | .mulI32 d a b => Sys2Proof.Machine.execMulI32 d a b s
  | .mulN32 d a b => Sys2Proof.Machine.execMulN32 d a b s
  | .mulwI32 d a b => Sys2Proof.Machine.execMulwI32 d a b s
  | .mulwN32 d a b => Sys2Proof.Machine.execMulwN32 d a b s
  | .minI64 d a b => Sys2Proof.Machine.execMinI64 d a b s
  | .maxI64 d a b => Sys2Proof.Machine.execMaxI64 d a b s
  | .minN64 d a b => Sys2Proof.Machine.execMinN64 d a b s
  | .maxN64 d a b => Sys2Proof.Machine.execMaxN64 d a b s
  | .minI32 d a b => Sys2Proof.Machine.execMinI32 d a b s
  | .maxI32 d a b => Sys2Proof.Machine.execMaxI32 d a b s
  | .minN32 d a b => Sys2Proof.Machine.execMinN32 d a b s
  | .maxN32 d a b => Sys2Proof.Machine.execMaxN32 d a b s
  | .and d a b => Sys2Proof.Machine.execAnd d a b s
  | .or d a b => Sys2Proof.Machine.execOr d a b s
  | .xor d a b => Sys2Proof.Machine.execXor d a b s
  | .andn d a b => Sys2Proof.Machine.execAndn d a b s
  | .orn d a b => Sys2Proof.Machine.execOrn d a b s
  | .xnor d a b => Sys2Proof.Machine.execXnor d a b s
  | .not d a => Sys2Proof.Machine.execNot d a s
  | .mov d a u => Sys2Proof.Machine.execMov d a u s
  | .shlN64 d a b => Sys2Proof.Machine.execShlN64 d a b s
  | .shrN64 d a b => Sys2Proof.Machine.execShrN64 d a b s
  | .shrI64 d a b => Sys2Proof.Machine.execShrI64 d a b s
  | .rotlN64 d a b => Sys2Proof.Machine.execRotlN64 d a b s
  | .shlN32 d a b => Sys2Proof.Machine.execShlN32 d a b s
  | .shrN32 d a b => Sys2Proof.Machine.execShrN32 d a b s
  | .shrI32 d a b => Sys2Proof.Machine.execShrI32 d a b s
  | .rotlN32 d a b => Sys2Proof.Machine.execRotlN32 d a b s
  | .popc d a => Sys2Proof.Machine.execPopc d a s
  | .clz d a => Sys2Proof.Machine.execClz d a s
  | .ctz d a => Sys2Proof.Machine.execCtz d a s
  | .brev d a => Sys2Proof.Machine.execBrev d a s
  | .bswap d a => Sys2Proof.Machine.execBswap d a s
  | .sextI8 d a => Sys2Proof.Machine.execSextI8 d a s
  | .sextI16 d a => Sys2Proof.Machine.execSextI16 d a s
  | .sextI32 d a => Sys2Proof.Machine.execSextI32 d a s
  | .lea d a b k => Sys2Proof.Machine.execLea d a b k s
  | .setpEqI64 p a b => Sys2Proof.Machine.execSetpEqI64 p a b s
  | .setpNeI64 p a b => Sys2Proof.Machine.execSetpNeI64 p a b s
  | .setpLtI64 p a b => Sys2Proof.Machine.execSetpLtI64 p a b s
  | .setpLeI64 p a b => Sys2Proof.Machine.execSetpLeI64 p a b s
  | .setpLtN64 p a b => Sys2Proof.Machine.execSetpLtN64 p a b s
  | .setpLeN64 p a b => Sys2Proof.Machine.execSetpLeN64 p a b s
  | .setpTst p a b => Sys2Proof.Machine.execSetpTst p a b s
  | .setpEqI32 p a b => Sys2Proof.Machine.execSetpEqI32 p a b s
  | .setpNeI32 p a b => Sys2Proof.Machine.execSetpNeI32 p a b s
  | .setpLtI32 p a b => Sys2Proof.Machine.execSetpLtI32 p a b s
  | .setpLeI32 p a b => Sys2Proof.Machine.execSetpLeI32 p a b s
  | .setpLtN32 p a b => Sys2Proof.Machine.execSetpLtN32 p a b s
  | .setpLeN32 p a b => Sys2Proof.Machine.execSetpLeN32 p a b s
  | .pand p q r => Sys2Proof.Machine.execPand p q r s
  | .por p q r => Sys2Proof.Machine.execPor p q r s
  | .pxor p q r => Sys2Proof.Machine.execPxor p q r s
  | .pandn p q r => Sys2Proof.Machine.execPandn p q r s
  | .pnot p q => Sys2Proof.Machine.execPnot p q s
  | .sel d a b k => Sys2Proof.Machine.execSel d a b k s
  | .addI64Imm d a imm => Sys2Proof.Machine.execAddI64Imm d a imm s
  | .addI32Imm d a imm => Sys2Proof.Machine.execAddI32Imm d a imm s
  | .addI32SatImm d a imm => Sys2Proof.Machine.execAddI32SatImm d a imm s
  | .addI64SatImm d a imm => Sys2Proof.Machine.execAddI64SatImm d a imm s
  | .andImm d a imm => Sys2Proof.Machine.execAndImm d a imm s
  | .orImm d a imm => Sys2Proof.Machine.execOrImm d a imm s
  | .xorImm d a imm => Sys2Proof.Machine.execXorImm d a imm s
  | .shlN64Imm d a imm => Sys2Proof.Machine.execShlN64Imm d a imm s
  | .shrN64Imm d a imm => Sys2Proof.Machine.execShrN64Imm d a imm s
  | .shrI64Imm d a imm => Sys2Proof.Machine.execShrI64Imm d a imm s
  | .mulI64Imm d a imm => Sys2Proof.Machine.execMulI64Imm d a imm s
  | .movc d imm => Sys2Proof.Machine.execMovc d imm s
  | .movcM d imm => Sys2Proof.Machine.execMovcM d imm s
  | .movcH d imm => Sys2Proof.Machine.execMovcH d imm s
  | .rdsr d r => Sys2Proof.Machine.execRdsr d r s
  | .shflIdx d a b => Sys2Proof.Machine.execShflIdx d a b s
  | .shflUp d a b => Sys2Proof.Machine.execShflUp d a b s
  | .shflDown d a b => Sys2Proof.Machine.execShflDown d a b s
  | .shflXor d a b => Sys2Proof.Machine.execShflXor d a b s
  | .ballot d p => Sys2Proof.Machine.execBallot d p s
  | .voteAny p q => Sys2Proof.Machine.execVoteAny p q s
  | .voteAll p q => Sys2Proof.Machine.execVoteAll p q s
  | .redAddI64 d a => Sys2Proof.Machine.execRedAddI64 d a s
  | .redMinI64 d a => Sys2Proof.Machine.execRedMinI64 d a s
  | .redMaxI64 d a => Sys2Proof.Machine.execRedMaxI64 d a s
  | .redAddD d a => Sys2Proof.Machine.execRedAddD d a s
  | .redMinD d a => Sys2Proof.Machine.execRedMinD d a s
  | .redMaxD d a => Sys2Proof.Machine.execRedMaxD d a s
  | .redAddF d a => Sys2Proof.Machine.execRedAddF d a s
  | .bra p n t => Sys2Proof.Machine.execBra p n t s
  | .call p n t => Sys2Proof.Machine.execCall p n t s
  | .jmp a => Sys2Proof.Machine.execJmp a s
  | .callr d a => Sys2Proof.Machine.execCallr d a s
  | .ret a => Sys2Proof.Machine.execRet a s
  | .exit => Sys2Proof.Machine.execExit s
  | .nop => Sys2Proof.Machine.execNop s
  | .addD d a b => Sys2Proof.Machine.execAddD d a b s
  | .subD d a b => Sys2Proof.Machine.execSubD d a b s
  | .mulD d a b => Sys2Proof.Machine.execMulD d a b s
  | .divD d a b => Sys2Proof.Machine.execDivD d a b s
  | .minD d a b => Sys2Proof.Machine.execMinD d a b s
  | .maxD d a b => Sys2Proof.Machine.execMaxD d a b s
  | .sqrtD d a => Sys2Proof.Machine.execSqrtD d a s
  | .rintD d a => Sys2Proof.Machine.execRintD d a s
  | .addF d a b => Sys2Proof.Machine.execAddF d a b s
  | .subF d a b => Sys2Proof.Machine.execSubF d a b s
  | .mulF d a b => Sys2Proof.Machine.execMulF d a b s
  | .divF d a b => Sys2Proof.Machine.execDivF d a b s
  | .minF d a b => Sys2Proof.Machine.execMinF d a b s
  | .maxF d a b => Sys2Proof.Machine.execMaxF d a b s
  | .sqrtF d a => Sys2Proof.Machine.execSqrtF d a s
  | .rintF d a => Sys2Proof.Machine.execRintF d a s
  | .addHf d a b => Sys2Proof.Machine.execAddHf d a b s
  | .subHf d a b => Sys2Proof.Machine.execSubHf d a b s
  | .mulHf d a b => Sys2Proof.Machine.execMulHf d a b s
  | .minHf d a b => Sys2Proof.Machine.execMinHf d a b s
  | .maxHf d a b => Sys2Proof.Machine.execMaxHf d a b s
  | .addBf d a b => Sys2Proof.Machine.execAddBf d a b s
  | .subBf d a b => Sys2Proof.Machine.execSubBf d a b s
  | .mulBf d a b => Sys2Proof.Machine.execMulBf d a b s
  | .minBf d a b => Sys2Proof.Machine.execMinBf d a b s
  | .maxBf d a b => Sys2Proof.Machine.execMaxBf d a b s
  | .setpEqD p a b => Sys2Proof.Machine.execSetpEqD p a b s
  | .setpLtD p a b => Sys2Proof.Machine.execSetpLtD p a b s
  | .setpLeD p a b => Sys2Proof.Machine.execSetpLeD p a b s
  | .setpNanD p a b => Sys2Proof.Machine.execSetpNanD p a b s
  | .setpEqF p a b => Sys2Proof.Machine.execSetpEqF p a b s
  | .setpLtF p a b => Sys2Proof.Machine.execSetpLtF p a b s
  | .setpLeF p a b => Sys2Proof.Machine.execSetpLeF p a b s
  | .setpNanF p a b => Sys2Proof.Machine.execSetpNanF p a b s
  | .fmaD d a b c m => Sys2Proof.Machine.execFmaD d a b c m s
  | .fnmaD d a b c m => Sys2Proof.Machine.execFnmaD d a b c m s
  | .fmaF d a b c m => Sys2Proof.Machine.execFmaF d a b c m s
  | .fnmaF d a b c m => Sys2Proof.Machine.execFnmaF d a b c m s
  | .fmaHf d a b c m => Sys2Proof.Machine.execFmaHf d a b c m s
  | .fmaBf d a b c m => Sys2Proof.Machine.execFmaBf d a b c m s
  | .addDLong d a b m => Sys2Proof.Machine.execAddDLong d a b m s
  | .subDLong d a b m => Sys2Proof.Machine.execSubDLong d a b m s
  | .mulDLong d a b m => Sys2Proof.Machine.execMulDLong d a b m s
  | .divDLong d a b m => Sys2Proof.Machine.execDivDLong d a b m s
  | .minDLong d a b z => Sys2Proof.Machine.execMinDLong d a b z s
  | .maxDLong d a b z => Sys2Proof.Machine.execMaxDLong d a b z s
  | .sqrtDLong d a m => Sys2Proof.Machine.execSqrtDLong d a m s
  | .rintDLong d a m => Sys2Proof.Machine.execRintDLong d a m s
  | .addFLong d a b m => Sys2Proof.Machine.execAddFLong d a b m s
  | .subFLong d a b m => Sys2Proof.Machine.execSubFLong d a b m s
  | .mulFLong d a b m => Sys2Proof.Machine.execMulFLong d a b m s
  | .divFLong d a b m => Sys2Proof.Machine.execDivFLong d a b m s
  | .minFLong d a b z => Sys2Proof.Machine.execMinFLong d a b z s
  | .maxFLong d a b z => Sys2Proof.Machine.execMaxFLong d a b z s
  | .sqrtFLong d a m => Sys2Proof.Machine.execSqrtFLong d a m s
  | .rintFLong d a m => Sys2Proof.Machine.execRintFLong d a m s
  | .addHfLong d a b m => Sys2Proof.Machine.execAddHfLong d a b m s
  | .subHfLong d a b m => Sys2Proof.Machine.execSubHfLong d a b m s
  | .mulHfLong d a b m => Sys2Proof.Machine.execMulHfLong d a b m s
  | .minHfLong d a b z => Sys2Proof.Machine.execMinHfLong d a b z s
  | .maxHfLong d a b z => Sys2Proof.Machine.execMaxHfLong d a b z s
  | .addBfLong d a b m => Sys2Proof.Machine.execAddBfLong d a b m s
  | .subBfLong d a b m => Sys2Proof.Machine.execSubBfLong d a b m s
  | .mulBfLong d a b m => Sys2Proof.Machine.execMulBfLong d a b m s
  | .minBfLong d a b z => Sys2Proof.Machine.execMinBfLong d a b z s
  | .maxBfLong d a b z => Sys2Proof.Machine.execMaxBfLong d a b z s
  | .rcpD d a => Sys2Proof.Machine.execRcpD d a s
  | .rsqrtD d a => Sys2Proof.Machine.execRsqrtD d a s
  | .exp2D d a => Sys2Proof.Machine.execExp2D d a s
  | .log2D d a => Sys2Proof.Machine.execLog2D d a s
  | .exp2F d a => Sys2Proof.Machine.execExp2F d a s
  | .log2F d a => Sys2Proof.Machine.execLog2F d a s
  | .sinF d a => Sys2Proof.Machine.execSinF d a s
  | .cosF d a => Sys2Proof.Machine.execCosF d a s
  | .cvt d a m => Sys2Proof.Machine.execCvt d a m s
  | .fclassD d a => Sys2Proof.Machine.execFclassD d a s
  | .fclassF d a => Sys2Proof.Machine.execFclassF d a s
  | .copysignD d a b => Sys2Proof.Machine.execCopysignD d a b s
  | .copysignF d a b => Sys2Proof.Machine.execCopysignF d a b s
  | .absD d a => Sys2Proof.Machine.execAbsD d a s
  | .negD d a => Sys2Proof.Machine.execNegD d a s
  | .absF d a => Sys2Proof.Machine.execAbsF d a s
  | .negF d a => Sys2Proof.Machine.execNegF d a s
  | .ld d a m => Sys2Proof.Machine.execLd d a m s
  | .st a b m => Sys2Proof.Machine.execSt a b m s
  | .lde d a b m => Sys2Proof.Machine.execLde d a b m s
  | .pf a m => Sys2Proof.Machine.execPf a m s
  | .atomAdd d a b m => Sys2Proof.Machine.execAtomAdd d a b m s
  | .atomMin d a b m => Sys2Proof.Machine.execAtomMin d a b m s
  | .atomMax d a b m => Sys2Proof.Machine.execAtomMax d a b m s
  | .atomAnd d a b m => Sys2Proof.Machine.execAtomAnd d a b m s
  | .atomOr d a b m => Sys2Proof.Machine.execAtomOr d a b m s
  | .atomXor d a b m => Sys2Proof.Machine.execAtomXor d a b m s
  | .atomXchg d a b m => Sys2Proof.Machine.execAtomXchg d a b m s
  | .atomCas d a b c m => Sys2Proof.Machine.execAtomCas d a b c m s
  | .recvD d n => Sys2Proof.Machine.execRecvD d n s
  | .recvW d n => Sys2Proof.Machine.execRecvW d n s
  | .sendD n b => Sys2Proof.Machine.execSendD n b s
  | .sendW n b => Sys2Proof.Machine.execSendW n b s
  | .mmarD d a b fa fb => Sys2Proof.Machine.execMmarD d a b fa fb s
  | .mmarF d a b fa fb => Sys2Proof.Machine.execMmarF d a b fa fb s
  | .mmarBf d a b fa fb => Sys2Proof.Machine.execMmarBf d a b fa fb s
  | .mmarHf d a b fa fb => Sys2Proof.Machine.execMmarHf d a b fa fb s
  | .mmarE4 d a b fa fb => Sys2Proof.Machine.execMmarE4 d a b fa fb s
  | .copen d a l h => Sys2Proof.Machine.execCopen d a l h s
  | .cadd p a b c n => Sys2Proof.Machine.execCadd p a b c n s
  | .cflush a => Sys2Proof.Machine.execCflush a s
  | .cclose a => Sys2Proof.Machine.execCclose a s
  | .cread d a k => Sys2Proof.Machine.execCread d a k s
  | .creplay d a b x h => Sys2Proof.Machine.execCreplay d a b x h s
  | .addI64U d a b => Sys2Proof.Machine.execAddI64U d a b s
  | .subI64U d a b => Sys2Proof.Machine.execSubI64U d a b s
  | .mulI64U d a b => Sys2Proof.Machine.execMulI64U d a b s
  | .mulhiN64U d a b => Sys2Proof.Machine.execMulhiN64U d a b s
  | .minI64U d a b => Sys2Proof.Machine.execMinI64U d a b s
  | .maxI64U d a b => Sys2Proof.Machine.execMaxI64U d a b s
  | .minN64U d a b => Sys2Proof.Machine.execMinN64U d a b s
  | .maxN64U d a b => Sys2Proof.Machine.execMaxN64U d a b s
  | .andU d a b => Sys2Proof.Machine.execAndU d a b s
  | .orU d a b => Sys2Proof.Machine.execOrU d a b s
  | .xorU d a b => Sys2Proof.Machine.execXorU d a b s
  | .andnU d a b => Sys2Proof.Machine.execAndnU d a b s
  | .shlN64U d a b => Sys2Proof.Machine.execShlN64U d a b s
  | .shrN64U d a b => Sys2Proof.Machine.execShrN64U d a b s
  | .shrI64U d a b => Sys2Proof.Machine.execShrI64U d a b s
  | .movU d a => Sys2Proof.Machine.execMovU d a s
  | .setpEqI64U p a b => Sys2Proof.Machine.execSetpEqI64U p a b s
  | .setpNeI64U p a b => Sys2Proof.Machine.execSetpNeI64U p a b s
  | .setpLtI64U p a b => Sys2Proof.Machine.execSetpLtI64U p a b s
  | .setpLeI64U p a b => Sys2Proof.Machine.execSetpLeI64U p a b s
  | .setpLtN64U p a b => Sys2Proof.Machine.execSetpLtN64U p a b s
  | .setpLeN64U p a b => Sys2Proof.Machine.execSetpLeN64U p a b s
  | .setpTstU p a b => Sys2Proof.Machine.execSetpTstU p a b s
  | .pandU p q r => Sys2Proof.Machine.execPandU p q r s
  | .porU p q r => Sys2Proof.Machine.execPorU p q r s
  | .pxorU p q r => Sys2Proof.Machine.execPxorU p q r s
  | .pandnU p q r => Sys2Proof.Machine.execPandnU p q r s
  | .pnotU p q => Sys2Proof.Machine.execPnotU p q s
  | .addI64ImmU d a imm => Sys2Proof.Machine.execAddI64ImmU d a imm s
  | .movcU d imm => Sys2Proof.Machine.execMovcU d imm s
  | .movcMU d imm => Sys2Proof.Machine.execMovcMU d imm s
  | .movcHU d imm => Sys2Proof.Machine.execMovcHU d imm s
  | .ldU d a m => Sys2Proof.Machine.execLdU d a m s
  | .stU a b m => Sys2Proof.Machine.execStU a b m s
  | .ldeU d a b m => Sys2Proof.Machine.execLdeU d a b m s
  | .pfU a m => Sys2Proof.Machine.execPfU a m s
  | .ujmp p n t => Sys2Proof.Machine.execUjmp p n t s
  | .ucall p n t => Sys2Proof.Machine.execUcall p n t s
  | .ujmpr a => Sys2Proof.Machine.execUjmpr a s
  | .ucallr d a => Sys2Proof.Machine.execUcallr d a s
  | .uret a => Sys2Proof.Machine.execUret a s
  | .bar => Sys2Proof.Machine.execBar s
  | .tbar => Sys2Proof.Machine.execTbar s
  | .claim d a b => Sys2Proof.Machine.execClaim d a b s
  | .rdv a => Sys2Proof.Machine.execRdv a s
  | .fence k c => Sys2Proof.Machine.execFence k c s
  | .waith c n => Sys2Proof.Machine.execWaith c n s
  | .sendU n a b => Sys2Proof.Machine.execSendU n a b s
  | .recvU d n ab => Sys2Proof.Machine.execRecvU d n ab s
  | .launch q d a b k => Sys2Proof.Machine.execLaunch q d a b k s
  | .waitl d a => Sys2Proof.Machine.execWaitl d a s
  | .fork d a => Sys2Proof.Machine.execFork d a s
  | .bpub d a => Sys2Proof.Machine.execBpub d a s
  | .bfloor d a b => Sys2Proof.Machine.execBfloor d a b s
  | .gang a => Sys2Proof.Machine.execGang a s
  | .mmasD d a b => Sys2Proof.Machine.execMmasD d a b s
  | .mmasF v a b w => Sys2Proof.Machine.execMmasF v a b w s
  | .mmasBf v a b w => Sys2Proof.Machine.execMmasBf v a b w s
  | .mmasHf v a b w => Sys2Proof.Machine.execMmasHf v a b w s
  | .mmasE4 v a b w => Sys2Proof.Machine.execMmasE4 v a b w s
  | .accrel d o => Sys2Proof.Machine.execAccrel d o s
  | .trap c => Sys2Proof.Machine.execTrap c s
  | .rett => Sys2Proof.Machine.execRett s
  | .rdsys d r k => Sys2Proof.Machine.execRdsys d r k s
  | .wrsys r a => Sys2Proof.Machine.execWrsys r a s
  | .unop => Sys2Proof.Machine.execUnop s
  | .gadd d a b => Sys2Proof.Machine.execGadd d a b s
  | .gsub d a b => Sys2Proof.Machine.execGsub d a b s
  | .gand d a b => Sys2Proof.Machine.execGand d a b s
  | .gor d a b => Sys2Proof.Machine.execGor d a b s
  | .gxor d a b => Sys2Proof.Machine.execGxor d a b s
  | .gshl d a b => Sys2Proof.Machine.execGshl d a b s
  | .gshr d a b => Sys2Proof.Machine.execGshr d a b s
  | .gmin d a b => Sys2Proof.Machine.execGmin d a b s
  | .gmax d a b => Sys2Proof.Machine.execGmax d a b s
  | .gmul d a b => Sys2Proof.Machine.execGmul d a b s
  | .gmovi d imm => Sys2Proof.Machine.execGmovi d imm s
  | .gaddi d a imm => Sys2Proof.Machine.execGaddi d a imm s
  | .gandi d a imm => Sys2Proof.Machine.execGandi d a imm s
  | .gshli d a imm => Sys2Proof.Machine.execGshli d a imm s
  | .gshri d a imm => Sys2Proof.Machine.execGshri d a imm s
  | .gld d a imm => Sys2Proof.Machine.execGld d a imm s
  | .gst d a imm => Sys2Proof.Machine.execGst d a imm s
  | .gbeq a b t => Sys2Proof.Machine.execGbeq a b t s
  | .gbne a b t => Sys2Proof.Machine.execGbne a b t s
  | .gblt a b t => Sys2Proof.Machine.execGblt a b t s
  | .gbge a b t => Sys2Proof.Machine.execGbge a b t s
  | .gbr t => Sys2Proof.Machine.execGbr t s
  | .ghash d a b => Sys2Proof.Machine.execGhash d a b s
  | .ghist d a b => Sys2Proof.Machine.execGhist d a b s
  | .gcms d a b => Sys2Proof.Machine.execGcms d a b s
  | .ghll d a b => Sys2Proof.Machine.execGhll d a b s
  | .gfire a t => Sys2Proof.Machine.execGfire a t s
  | .gend => Sys2Proof.Machine.execGend s
  | .loadCompletion k => Sys2Proof.Machine.execLoadCompletion k s
  | .atomicPerform k => Sys2Proof.Machine.execAtomicPerform k s
  | .editionLookup k => Sys2Proof.Machine.execEditionLookup k s
  | .queueReceiveCompletion k => Sys2Proof.Machine.execQueueReceiveCompletion k s
  | .channelReceiveCompletion k => Sys2Proof.Machine.execChannelReceiveCompletion k s
  | .messageDelivery k => Sys2Proof.Machine.execMessageDelivery k s
  | .launchRecordRead k => Sys2Proof.Machine.execLaunchRecordRead k s
  | .bpubAtBindery k => Sys2Proof.Machine.execBpubAtBindery k s
  | .bfloorAtHome k => Sys2Proof.Machine.execBfloorAtHome k s
  | .claimPageMove k => Sys2Proof.Machine.execClaimPageMove k s
  | .copyBeat k => Sys2Proof.Machine.execCopyBeat k s
  | .copyEnd k => Sys2Proof.Machine.execCopyEnd k s
  | .forkStart k => Sys2Proof.Machine.execForkStart k s
  | .accessProgramRequest k => Sys2Proof.Machine.execAccessProgramRequest k s
  | .accessProgramReturn k => Sys2Proof.Machine.execAccessProgramReturn k s
  | .matrixCompletion k => Sys2Proof.Machine.execMatrixCompletion k s
  | .mmasKStep k => Sys2Proof.Machine.execMmasKStep k s
  | .recordOperationArrival k => Sys2Proof.Machine.execRecordOperationArrival k s
  | .regrouping core q => Sys2Proof.Machine.execRegrouping core q s
  | .barrierArrivalBit c core => Sys2Proof.Machine.execBarrierArrivalBit c core s
  | .l1WriteBackBound core line => Sys2Proof.Machine.execL1WriteBackBound core line s
  | .combiningBufferDrain core line => Sys2Proof.Machine.execCombiningBufferDrain core line s
  | .distributorPlacement v => Sys2Proof.Machine.execDistributorPlacement v s
  | .sliceEnd v => Sys2Proof.Machine.execSliceEnd v s
  | .renderContextSwitch v => Sys2Proof.Machine.execRenderContextSwitch v s
  | .completionEntryWrite x => Sys2Proof.Machine.execCompletionEntryWrite x s
  | .hqTailWrite x j val => Sys2Proof.Machine.execHqTailWrite x j val s
  | .vdevApply w => Sys2Proof.Machine.execVdevApply w s
  | .rctxApply w => Sys2Proof.Machine.execRctxApply w s
  | .counterPublish die => Sys2Proof.Machine.execCounterPublish die s
  | .pageWalk asid page => Sys2Proof.Machine.execPageWalk asid page s
  | .faultRecordPost k => Sys2Proof.Machine.execFaultRecordPost k s
  | .fqDoneRetry v seq => Sys2Proof.Machine.execFqDoneRetry v seq s
  | .fqDoneDeny v seq => Sys2Proof.Machine.execFqDoneDeny v seq s
  | .invalidation => Sys2Proof.Machine.execInvalidation s
  | .regionCreate r => Sys2Proof.Machine.execRegionCreate r s
  | .regionReread r => Sys2Proof.Machine.execRegionReread r s
  | .regionDestroy r => Sys2Proof.Machine.execRegionDestroy r s
  | .binderyWrite k => Sys2Proof.Machine.execBinderyWrite k s
  | .backgroundSubblockCopy r page => Sys2Proof.Machine.execBackgroundSubblockCopy r page s
  | .reclaimWalk r page => Sys2Proof.Machine.execReclaimWalk r page s
  | .directoryRead die line => Sys2Proof.Machine.execDirectoryRead die line s
  | .directoryWrite die line => Sys2Proof.Machine.execDirectoryWrite die line s
  | .directoryWriteBack die line => Sys2Proof.Machine.execDirectoryWriteBack die line s
  | .evictionNotice die line => Sys2Proof.Machine.execEvictionNotice die line s
  | .memSplitWrite w => Sys2Proof.Machine.execMemSplitWrite w s
  | .routeWrite w => Sys2Proof.Machine.execRouteWrite w s
  | .linkDown l => Sys2Proof.Machine.execLinkDown l s
  | .glossEventOffer die e => Sys2Proof.Machine.execGlossEventOffer die e s
  | .glossSlot die => Sys2Proof.Machine.execGlossSlot die s
  | .glossBudgetWindow die => Sys2Proof.Machine.execGlossBudgetWindow die s
  | .glossApplyTenant die imm => Sys2Proof.Machine.execGlossApplyTenant die imm s
  | .glossAttach die imm => Sys2Proof.Machine.execGlossAttach die imm s
  | .glossDetach die imm => Sys2Proof.Machine.execGlossDetach die imm s
  | .glossDrain die => Sys2Proof.Machine.execGlossDrain die s
  | .drainWordRead k => Sys2Proof.Machine.execDrainWordRead k s
  | .linkTraining port ok => Sys2Proof.Machine.execLinkTraining port ok s
  | .ualinkInboundRequest r => Sys2Proof.Machine.execUalinkInboundRequest r s
  | .peerAcknowledgement k r => Sys2Proof.Machine.execPeerAcknowledgement k r s
  | .ualinkMessageArrival m => Sys2Proof.Machine.execUalinkMessageArrival m s
  | .haloCommand die => Sys2Proof.Machine.execHaloCommand die s
  | .haloFaceArrival die f => Sys2Proof.Machine.execHaloFaceArrival die f s
  | .allReduceCommand die cs => Sys2Proof.Machine.execAllReduceCommand die cs s
  | .engineCompletion die coll => Sys2Proof.Machine.execEngineCompletion die coll s
  | .functionLevelReset => Sys2Proof.Machine.execFunctionLevelReset s
  | .coreRetirement => Sys2Proof.Machine.execCoreRetirement s
  | .marginPlan die u => Sys2Proof.Machine.execMarginPlan die u s
  | .auditFlitSend l => Sys2Proof.Machine.execAuditFlitSend l s
  | .auditFlitReceive l crc => Sys2Proof.Machine.execAuditFlitReceive l crc s
  | .laneGroupFailure l => Sys2Proof.Machine.execLaneGroupFailure l s
  | .softError e => Sys2Proof.Machine.execSoftError e s
  | .patrolScrub line => Sys2Proof.Machine.execPatrolScrub line s
  | .checkpointSave => Sys2Proof.Machine.execCheckpointSave s
  | .checkpointRestore => Sys2Proof.Machine.execCheckpointRestore s
  | .moduleReset => Sys2Proof.Machine.execModuleReset s
  | .keyLoad imm => Sys2Proof.Machine.execKeyLoad imm s
  | .keyClear imm => Sys2Proof.Machine.execKeyClear imm s
  | .spdmRequest imm => Sys2Proof.Machine.execSpdmRequest imm s
  | .pldmMonitoring imm => Sys2Proof.Machine.execPldmMonitoring imm s
  | .pldmFirmwareUpdate img => Sys2Proof.Machine.execPldmFirmwareUpdate img s
  | .powerManagerUpdate est => Sys2Proof.Machine.execPowerManagerUpdate est s
  | .powerLimitWrite w => Sys2Proof.Machine.execPowerLimitWrite w s
  | .thermalCap die temp => Sys2Proof.Machine.execThermalCap die temp s
  | .thermalShutdown die temp => Sys2Proof.Machine.execThermalShutdown die temp s
  | .registerWrite a => Sys2Proof.Machine.execRegisterWrite a s
  | .issueCycle core q => Sys2Proof.Machine.execIssueCycle core q s
  | .creplayCompletion k => Sys2Proof.Machine.execCreplayCompletion k s
  | .flitReplay l => Sys2Proof.Machine.execFlitReplay l s
  | .ualinkPortDown port => Sys2Proof.Machine.execUalinkPortDown port s
  | .hostIngressAccess r => Sys2Proof.Machine.execHostIngressAccess r s
  | .peerDrainTimeout k => Sys2Proof.Machine.execPeerDrainTimeout k s
  | .mainSideOff => Sys2Proof.Machine.execMainSideOff s

end Sys2Proof.Machine
end

