-- ==== Sys2Proof/Machine/Issue.lean ====
section
/-! DEFINITION. Issue: the bundle that an issue cycle chose fetches and decodes one instruction and executes it (R28, R30, R33, R210); a
Gloss unit's run does the same from its code store (R335, R336); what runs while the module itself does not (R398, R401). -/

namespace Sys2Proof.Machine

/-! ## One bundle -/

/-- A thread that may issue: ready, or converged and waiting for nothing. -/
def mayIssue (t : Thr) : Bool :=
  (t.st == .ready || t.st == .waitConv) && match t.wait with | .none => true | .denied _ _ => true | _ => false

/-- The threads of a chosen bundle that still may issue, at the first one's address and in its mode. -/
def issuers (s : State) (x : Sel) : List Nat :=
  let ts := x.tids.filter fun i => mayIssue (getThr s (threadKey x.gk i))
  match ts with
  | [] => []
  | i :: _ =>
    let t := getThr s (threadKey x.gk i)
    ts.filter fun j => let u := getThr s (threadKey x.gk j); u.pc == t.pc && u.sys == t.sys

/-- The first word of the instruction itself, after a prefix. -/
def insWord (ws : List (BitVec 32)) : BitVec 32 := if isGuard (ws.headD 0) then ws.getD 1 0 else ws.headD 0

/-- The state in which an instruction executes. -/
def withCur (x : Sel) (ts : List Nat) (pc npc : Word) (g : Option (BitVec 3 × Bool)) (w : BitVec 32) (s : State) : State :=
  { s with cur := { gk := x.gk, tids := ts, pc := pc, npc := npc, guard := g, word := w, ages := x.ages } }

/-- Words that are no instruction: an illegal lane instruction traps each thread, an illegal uniform one the group, once it has
converged (R29, R30, R148). -/
def illegalWords (ws : List (BitVec 32)) (s : State) : Out :=
  if Word.set (ws.headD 0) = 1 then converge (fun s => trapGroup (trapAt s .illegal 0 (s.cur.word.setWidth 64)) s) s
  else .next (illegalLane s)

/-- A thread of a chosen bundle has not issued after all (R213). -/
def unissue (gk : Nat) (s : State) (a : Nat × Nat) : State :=
  setThr (threadKey gk a.1) { getThr s (threadKey gk a.1) with last := a.2 } s

/-- The chosen bundle issues. DESIGN CHOICE: log entry 3. DEDUCED: log entry 12. -/
noncomputable def issueBundle (s : State) : Out :=
  let x := s.sel
  let s := { s with sel := {} }
  match issuers s x with
  | [] => .next s
  | i :: ts =>
    let t := getThr s (threadKey x.gk i)
    match fetchInstr x.gk (!t.sys) (i :: ts) t.pc s with
    | (.trap n info a, s') => .next (fetchTrap x.gk (i :: ts) t.pc n info a s')
    | (.page asid p, s') => .next (fetchAbsent x.gk (i :: ts) t.pc asid p (x.ages.foldl (unissue x.gk) s'))
    | (.ok ws, s') =>
      let s' := clearTgt x.gk s'
      match decodeWords ws with
      | .ok d => exec d.ins (withCur x (i :: ts) t.pc (t.pc + word d.bytes) d.guard (insWord ws) s')
      | .error _ => illegalWords ws (withCur x (i :: ts) t.pc t.pc .none (insWord ws) s')

/-! ## Gloss runs -/

/-- The word that a unit's run comes to. -/
def glossFetch (s : State) (die : Nat) : BitVec 32 :=
  let u := getUnit s die
  match u.run with
  | .some r => tget 0 (r.k * 64 + r.pc) u.code
  | .none => 0

/-- One instruction of a run; a word that is none (attaching refuses such programs, R335) ends the run. -/
noncomputable def issueGloss (die : Nat) (s : State) : Out :=
  match decodeGloss (glossFetch s die) with
  | .ok i => exec i s
  | .error _ => execGend s

/-! ## What comes next -/

/-- The steps that the side-band port and a reset take while the main side does not run. -/
def sideBand (i : Instr) : Bool :=
  match i with
  | .moduleReset => true | .pldmMonitoring _ => true | .pldmFirmwareUpdate _ => true | .spdmRequest _ => true
  | _ => false

/-- The main side runs no step: off, stopped by heat, or in recovery (R394, R398, R401). -/
def halted (s : State) : Bool := s.hs.stopped || s.hs.mainOff || s.hs.recovery

/-- A step of a module whose main side does not run. -/
noncomputable def haltedStep (s : State) : Out :=
  match s.agenda with
  | i :: r => if sideBand i then exec i { s with agenda := r } else .fault .moduleStopped
  | [] => .fault .moduleStopped

/-- The receives of a resident team that its absence has withdrawn are issued as trackers come free (R215, R223). -/
def reissueAll (s : State) : State :=
  (((s.mm.withdrawn.map fun o => teamOfG o.gk).eraseDups).filter fun t => (getTeam s t).st == .resident).foldl (fun s t => reissue t s) s
/-- The grids that have ended and whose end is performed now report it (R163, R320). -/
def reportAll (s : State) : State := ((s.grid.filter fun p => p.2.report.isSome).map Prod.fst).foldl (fun s g => settleReport g s) s

/-- What every step settles. -/
def afterStep (s : State) : State :=
  reportAll (reissueAll (((s.team.filter fun p => p.2.st == .evicted).map Prod.fst).foldl wakeTeam s))

/-- What every outcome settles. DESIGN CHOICE: log entry 3. -/
def after (o : Out) : Out := match o with | .next t => .next (afterStep t) | r => r

end Sys2Proof.Machine
end

