-- ==== Sys2Proof/Machine/Default.lean ====
section
/-! DEFINITION. The schedule that the machine follows while its agenda is empty: one of those that the manual allows. What is in flight
comes first, oldest first; then the engines and the host's side; then, in turn, the quarters and the Gloss units. -/

namespace Sys2Proof.Machine

/-- The step that takes an operation on. -/
noncomputable def opStep (s : State) (o : Op) : Out :=
  match o.k with
  | .load _ _ _ _ _ _ => execLoadCompletion o.id s
  | .atomic _ _ _ _ _ _ _ => execAtomicPerform o.id s
  | .edl _ _ _ _ _ _ _ _ _ _ => execEditionLookup o.id s
  | .bwr _ _ _ _ _ _ => execBinderyWrite o.id s
  | .qrecv _ _ _ _ _ => execQueueReceiveCompletion o.id s
  | .crecv _ _ _ => execChannelReceiveCompletion o.id s
  | .msg _ _ _ _ => execMessageDelivery o.id s
  | .qsend _ _ _ _ _ _ => execMessageDelivery o.id s
  | .lrec _ _ _ _ _ _ => execLaunchRecordRead o.id s
  | .bpub _ _ _ _ _ _ => execBpubAtBindery o.id s
  | .bfloor _ _ _ => execBfloorAtHome o.id s
  | .claim _ _ _ _ _ => execClaimPageMove o.id s
  | .copy c => if copyOver s o c then execCopyEnd o.id s else execCopyBeat o.id s
  | .fork _ _ _ _ _ _ => execForkStart o.id s
  | .aline _ _ _ _ _ _ => execAccessProgramReturn o.id s
  | .matrix _ _ _ _ => execMatrixCompletion o.id s
  | .mmas _ _ _ _ _ _ _ => execMmasKStep o.id s
  | .rop _ _ _ _ => execRecordOperationArrival o.id s
  | .creplay _ _ => execCreplayCompletion o.id s
  | .drain _ _ _ _ _ _ => execDrainWordRead o.id s
  | .rstore _ _ => .next s
  | .rload _ _ _ _ _ _ _ => .next s
  | .face _ _ => .next s

/-- The first of some steps that gets anywhere, as `moved` judges it. -/
def firstOf {α : Type} (run : α → State → Out) (moved : α → State → State → Bool) (s : State) : List α → Option State
  | [] => .none
  | a :: r => match run a s with
    | .next t => if moved a s t then .some t else firstOf run moved s r
    | _ => firstOf run moved s r

/-- The oldest operation that can go on. -/
noncomputable def nextOp (s : State) : Option State :=
  firstOf (fun o s => opStep s o) (fun o _ t => findOp t o.id != .some o) s s.mm.ops

/-- The access programs of the teams. -/
noncomputable def nextProg (s : State) : Option State :=
  firstOf execAccessProgramRequest (fun t a b => (getTeam a t).prog != (getTeam b t).prog) s
    ((s.team.filter fun p : Nat × Team => p.2.prog.isSome).map Prod.fst)

/-- The host's side and the repairs: completions, fault records, barriers, started commands. -/
noncomputable def nextHost (s : State) : Option State :=
  let more : List (Option State) :=
    [firstOf execCompletionEntryWrite (fun _ a b => a.vf != b.vf) s (tkeys s.vf.held),
     firstOf execFaultRecordPost (fun _ a b => a.bd != b.bd) s (List.range s.bd.frecs.length),
     firstOf (fun k s => execBarrierArrivalBit (k / 960) (k % 960) s) (fun _ a b => a.rp != b.rp) s (tkeys s.rp.part),
     firstOf (fun _ s => execInvalidation s) (fun _ a b => a.rg != b.rg) s (if bitAt s.rg.invCtl 63 then [()] else []),
     firstOf (fun _ s => execFunctionLevelReset s) (fun _ a b => a.rg != b.rg) s (if bitAt s.rg.flrCtl 63 then [()] else []),
     firstOf (fun _ s => execCoreRetirement s) (fun _ a b => a.rg != b.rg) s (if bitAt s.rg.coreRetire 63 then [()] else []),
     firstOf (fun _ s => execKeyLoad (bits s.rg.keyCtl 11 0) s) (fun _ a b => a.rg != b.rg) s (if bitAt s.rg.keyCtl 63 then [()] else []),
     firstOf (fun _ s => execKeyClear (bits s.rg.keyCtl 11 0) s) (fun _ a b => a.rg != b.rg) s (if bitAt s.rg.keyCtl 63 then [()] else []),
     firstOf (fun _ s => execCheckpointSave s) (fun _ a b => a.rg != b.rg) s (if bitAt s.rg.ckptCtl 63 then [()] else []),
     firstOf (fun _ s => execCheckpointRestore s) (fun _ a b => a.rg != b.rg) s (if bitAt s.rg.ckptCtl 63 then [()] else [])]
  more.findSome? id

/-- The engines of the dies. -/
noncomputable def nextEngine (s : State) : Option State :=
  let more : List (Option State) :=
    [firstOf (fun d s => execEngineCompletion d false s) (fun _ a b => a.pk != b.pk) s (tkeys s.pk.halo),
     firstOf (fun d s => execEngineCompletion d true s) (fun _ a b => a.pk != b.pk) s (tkeys s.pk.coll),
     firstOf execHaloCommand (fun _ a b => a.pk != b.pk) s (tkeys s.pk.halo),
     firstOf (fun d s => execAllReduceCommand d [] s) (fun _ a b => a.pk != b.pk) s (tkeys s.pk.coll)]
  more.findSome? id

/-- The contexts that may have something to place. -/
def contexts (s : State) : List Nat :=
  let queued := (tkeys s.vs.hostq).map (· / 4) ++ (tkeys s.vs.devq).map (· / 4)
  let teams := s.team.map fun p : Nat × Team => p.2.ctx
  let open_ := s.grid.filter fun p : Nat × Grid => p.2.status.isNone
  (queued ++ teams ++ open_.map fun p : Nat × Grid => p.2.ctx).eraseDups

/-- The distributors. -/
noncomputable def nextPlace (s : State) : Option State :=
  firstOf execDistributorPlacement (fun _ a b => a.team != b.team || a.grid != b.grid || a.vs != b.vs || a.bd != b.bd) s (contexts s)

/-- Cores with resident teams, and dies with queued pairs. -/
def activeCores (s : State) : List Nat :=
  (s.team.flatMap fun p : Nat × Team => if p.2.st = .resident then coresOf p.2 else []).eraseDups
def activeDies (s : State) : List Nat := (s.gl.filter fun p : Nat × GUnit => p.2.q != []).map Prod.fst

/-- The Bindery's background work: pending sub-blocks, and copies that can be reclaimed (R298, R301). -/
noncomputable def nextBackground (s : State) : Option State :=
  (firstOf (fun k s => execBackgroundSubblockCopy (k / 2 ^ 20) (k % 2 ^ 20) s)
      (fun k a b => catPend a (k / 2 ^ 20) (k % 2 ^ 20) != catPend b (k / 2 ^ 20) (k % 2 ^ 20)) s (tkeys s.bd.current)).orElse fun _ =>
    firstOf (fun k s => execReclaimWalk (k / 2 ^ 20) (k % 2 ^ 20) s)
      (fun k a b => catCount a (k / 2 ^ 20) (k % 2 ^ 20) != catCount b (k / 2 ^ 20) (k % 2 ^ 20)) s (tkeys s.bd.current)

/-- Combining buffers drain, and lines of the L1s go home (R230). DESIGN CHOICE: log entry 3. DEDUCED: log entry 9. -/
def ageCaches (s : State) : State :=
  let s := s.mm.comb.foldl (fun s l => drainEntry l.core l.line s) s
  s.mm.l1.foldl (fun s l => flushLine l.core l.line s) s

/-- What comes to pass with time: windows, slices, render contexts. DESIGN CHOICE: log entry 5. -/
noncomputable def onTime (s : State) : Out :=
  let n := s.sc.turn / 1024
  match (activeDies s)[n % 5]?, s.vs.waiting.isEmpty with
  | .some d, _ => execGlossBudgetWindow d s
  | .none, false => execSliceEnd (n % 64) s
  | .none, true => execRenderContextSwitch (n % 64) s

/-- One turn of the quarters and units. DESIGN CHOICE: log entries 3, 5. -/
noncomputable def oneTurn (s : State) : Out :=
  let qs := (activeCores s).flatMap fun c => [(c, 0), (c, 1), (c, 2), (c, 3)]
  let ds := activeDies s
  let i := s.sc.turn % (qs.length + ds.length)
  let s := { s with sc := { s.sc with turn := s.sc.turn + 1 } }
  if s.sc.turn % 1024 = 0 then onTime (ageCaches s)
  else if s.sc.turn % 64 = 0 ∨ qs.length + ds.length = 0 then .next ((nextBackground s).getD s)
  else match qs[i]? with
    | .some (c, q) => execIssueCycle c q s
    | .none =>
      match ds[i - qs.length]? with
      | .some d => execGlossSlot d s
      | .none => .next s

/-- The next step of the schedule; while a checkpoint waits no quarter issues. DESIGN CHOICE: log entry 3. -/
noncomputable def defaultStep (s : State) : Out :=
  match [nextOp s, nextProg s, nextHost s, nextEngine s].findSome? id with
  | .some t => .next t
  | .none =>
    if bitAt s.rg.ckptCtl 63 then .next { s with sc := { s.sc with turn := s.sc.turn + 1 } }
    else match nextPlace s with
      | .some t => .next t
      | .none => oneTurn s

/-- What comes next, of a module that runs: a Gloss run that is under way, the bundle that has been chosen, the agenda, the schedule. DESIGN CHOICE: log entry 3. -/
noncomputable def advanceOnce (s : State) : Out :=
  match s.gsel with
  | .some die => issueGloss die s
  | .none =>
    if s.sel.tids ≠ [] then issueBundle s
    else match s.agenda with
      | i :: r => exec i { s with agenda := r }
      | [] => defaultStep s

end Sys2Proof.Machine
end

