-- ==== Sys2Proof/Machine/Loader.lean ====
section
/-! DEFINITION. Placing one instruction where the next step takes it from: the loader behind `State.withFetchWord`. A program
comes to run from reset only by bring-up, a configured virtual device and a launch (R394, R270 to R274); this stands for all of that. -/

namespace Sys2Proof.Machine

/-- A core's decoder takes a table word, or neither a core's nor a Gloss unit's does: the word goes to a core. -/
noncomputable def forCore (nbits w : Nat) : Bool :=
  let w0 := BitVec.ofNat 32 w
  let gloss := match decodeGloss w0 with | .ok _ => true | .error _ => false
  match decodeWords [w0, BitVec.ofNat 32 (w / 2 ^ 32), BitVec.ofNat 32 (w / 2 ^ 64)] with
  | .ok d => !(decide (nbits ≤ 32) && decide (d.bytes ≠ 4) && gloss)
  | .error _ => !gloss

/-- Where the loader puts code: physical and virtual address. DESIGN CHOICE: log entry 1. -/
def loadAt : Nat := 2 ^ 20

/-- The launch of the loader: one team of one group of 16 threads, with every register. DESIGN CHOICE: log entry 1. -/
def loadRecord : LRec := { entry := word loadAt, teams := 1, groups := 1, w := 16, nv := 64, ns := 64 }

/-- The page of the loader's code: readable, writable, executable in user mode, in no region. DESIGN CHOICE: log entry 1. -/
def loadLeaf : Leaf :=
  { pa := loadAt, r := true, w := true, x := true, user := true, kind := .rc, region := 0, edition := 0, key := 0, enc := false,
    place := 0, at_ := 0, size := 0 }

/-- Virtual device 0 may use every core and every L2 slice. DESIGN CHOICE: log entry 1. -/
def loadBlock (s : State) : VBlock :=
  { (tget .none 0 s.vs.vb).getD {} with slices := List.replicate 4 (BitVec.allOnes 48), cores := BitVec.allOnes 960 }

/-- A core's instruction: its words at the loader's address, a running group there, its bundle chosen. DESIGN CHOICE: log entry 1. -/
def loadCore (w : Nat) (s : State) : State :=
  let g := nextGrid s
  let gk := groupKey (teamKey g 0) 0
  let s := { s with vs := { s.vs with vb := tset .none 0 (.some (loadBlock s)) s.vs.vb } }
  let s := { s with mm := { s.mm with xlat := ⟨0, 0, loadAt / 65536, loadLeaf⟩ :: s.mm.xlat
                                      wrapped := tset .none (loadAt / 65536) .none s.mm.wrapped } }
  let s := pwrite loadAt (bytesOf 12 w) s
  let s := setGrid g { lr := loadRecord, code0 := s.mm.mem } s
  let s := startTeam (teamKey g 0) 0 s
  { s with gsel := .none, sel := { gk := gk, tids := List.range 16 } }

/-- A Gloss instruction: word 0 of attachment 0 of die 0, whose run is under way. DESIGN CHOICE: log entry 1. -/
def loadGloss (w : Nat) (s : State) : State :=
  let u := getUnit s 0
  let a : Att := { valid := true, len := 64, cls := 0, owner := 64, asid := 0, mask := 0, param := 0 }
  let t : Ten := { budget := 65535, wbase := 0, wlog := 12, quota := 16, trigs := [] }
  { setUnit 0 { u with code := tset 0 0 (BitVec.ofNat 32 w) u.code, att := tset .none 0 (.some a) u.att
                       ten := tset .none 64 (.some t) u.ten, run := .some ⟨0, 0⟩ } s with gsel := .some 0 }

/-- A module whose main side runs. -/
def powered (s : State) : State := { s with hs := { s.hs with stopped := false, mainOff := false, recovery := false } }

/-- One instruction, placed where the next step takes it from. DESIGN CHOICE: log entry 1. DEDUCED: log entry 36. -/
noncomputable def placeWord (nbits w : Nat) (s : State) : State :=
  if forCore nbits w then loadCore w (powered s) else loadGloss w (powered s)

/-- One step: of a module whose main side does not run, or of one that runs; then what every step settles. -/
noncomputable def stepOnce (s : State) : Out := if halted s then after (haltedStep s) else after (advanceOnce s)

end Sys2Proof.Machine
end

