-- ==== Sys2Proof/Machine/Step.lean ====
section
/-! DEFINITION. One step of the machine, and the host's way to place one instruction. -/

namespace Sys2Proof.Machine

/-- One step: an instruction of a core or of a Gloss unit, or one of the machine's own steps (R22, R24, R203, R213). -/
noncomputable def step (s : State) : Host.Outcome State Fault Refusal := stepOnce s

/-- `s` with one instruction placed where the next step takes it from. DESIGN CHOICE: log entry 1. -/
noncomputable def State.withFetchWord (s : State) (nbits w : Nat) : State := placeWord nbits w s

end Sys2Proof.Machine
end

