-- ==== Sys2Proof/Laws/Encoding.lean ====
section
/-! SUPPORT. The fields of the words that the encoder builds, one lemma per field, and for each layout: what the decoder's reader of
that layout makes of the encoder's words. -/

namespace Sys2Proof
open Word

/-! ## Fields of a packed word -/

/-- The number under a field of a word. -/
theorem fld_toNat (w : BitVec 32) (lo n : Nat) : (fld w lo n).toNat = w.toNat / 2 ^ lo % 2 ^ n := by
  simp [fld, BitVec.extractLsb'_toNat, Nat.shiftRight_eq_div_pow]

theorem pack_toNat (fs : List (Nat × Nat)) : (pack fs).toNat = packNat fs % 2 ^ 32 := by simp [pack]

section wordR
variable (s : BitVec 1) (maj d a b : BitVec 6) (ca cb : BitVec 2) (mn : BitVec 3)

theorem wordR_toNat : (wordR s maj d a b ca cb mn).toNat = s.toNat * 2 ^ 31 + maj.toNat * 2 ^ 25 + d.toNat * 2 ^ 19
    + a.toNat * 2 ^ 13 + b.toNat * 2 ^ 7 + ca.toNat * 2 ^ 5 + cb.toNat * 2 ^ 3 + mn.toNat := by
  have := s.isLt; have := maj.isLt; have := d.isLt; have := a.isLt; have := b.isLt; have := ca.isLt; have := cb.isLt; have := mn.isLt
  simp only [wordR, pack_toNat, packNat, List.map, List.sum_cons, List.sum_nil]
  omega

@[simp] theorem wordR_set : Word.set (wordR s maj d a b ca cb mn) = s := by
  have := s.isLt; have := maj.isLt; have := d.isLt; have := a.isLt; have := b.isLt; have := ca.isLt; have := cb.isLt; have := mn.isLt
  apply BitVec.eq_of_toNat_eq; simp only [Word.set, fld_toNat, wordR_toNat]; omega
@[simp] theorem wordR_major : Word.major (wordR s maj d a b ca cb mn) = maj := by
  have := s.isLt; have := maj.isLt; have := d.isLt; have := a.isLt; have := b.isLt; have := ca.isLt; have := cb.isLt; have := mn.isLt
  apply BitVec.eq_of_toNat_eq; simp only [Word.major, fld_toNat, wordR_toNat]; omega
@[simp] theorem wordR_d : Word.d (wordR s maj d a b ca cb mn) = d := by
  have := s.isLt; have := maj.isLt; have := d.isLt; have := a.isLt; have := b.isLt; have := ca.isLt; have := cb.isLt; have := mn.isLt
  apply BitVec.eq_of_toNat_eq; simp only [Word.d, fld_toNat, wordR_toNat]; omega
@[simp] theorem wordR_a : Word.a (wordR s maj d a b ca cb mn) = a := by
  have := s.isLt; have := maj.isLt; have := d.isLt; have := a.isLt; have := b.isLt; have := ca.isLt; have := cb.isLt; have := mn.isLt
  apply BitVec.eq_of_toNat_eq; simp only [Word.a, fld_toNat, wordR_toNat]; omega
@[simp] theorem wordR_b : Word.b (wordR s maj d a b ca cb mn) = b := by
  have := s.isLt; have := maj.isLt; have := d.isLt; have := a.isLt; have := b.isLt; have := ca.isLt; have := cb.isLt; have := mn.isLt
  apply BitVec.eq_of_toNat_eq; simp only [Word.b, fld_toNat, wordR_toNat]; omega
@[simp] theorem wordR_ca : Word.ca (wordR s maj d a b ca cb mn) = ca := by
  have := s.isLt; have := maj.isLt; have := d.isLt; have := a.isLt; have := b.isLt; have := ca.isLt; have := cb.isLt; have := mn.isLt
  apply BitVec.eq_of_toNat_eq; simp only [Word.ca, fld_toNat, wordR_toNat]; omega
@[simp] theorem wordR_cb : Word.cb (wordR s maj d a b ca cb mn) = cb := by
  have := s.isLt; have := maj.isLt; have := d.isLt; have := a.isLt; have := b.isLt; have := ca.isLt; have := cb.isLt; have := mn.isLt
  apply BitVec.eq_of_toNat_eq; simp only [Word.cb, fld_toNat, wordR_toNat]; omega
@[simp] theorem wordR_minor : Word.minor (wordR s maj d a b ca cb mn) = mn := by
  have := s.isLt; have := maj.isLt; have := d.isLt; have := a.isLt; have := b.isLt; have := ca.isLt; have := cb.isLt; have := mn.isLt
  apply BitVec.eq_of_toNat_eq; simp only [Word.minor, fld_toNat, wordR_toNat]; omega

end wordR

section words_wordI
variable (s : BitVec 1) (maj : BitVec 6) (d : BitVec 6) (a : BitVec 6) (ca : BitVec 2) (i : BitVec 11)
theorem wordI_word : (pack [(1, s.toNat), (6, maj.toNat), (6, d.toNat), (6, a.toNat), (2, ca.toNat), (11, i.toNat)] : BitVec 32).toNat = s.toNat * 2 ^ 31 + maj.toNat * 2 ^ 25 + d.toNat * 2 ^ 19 + a.toNat * 2 ^ 13 + ca.toNat * 2 ^ 11 + i.toNat := by
  have := s.isLt; have := maj.isLt; have := d.isLt; have := a.isLt; have := ca.isLt; have := i.isLt
  simp only [pack_toNat, packNat, List.map, List.sum_cons, List.sum_nil]
  omega
@[simp] theorem wordI_31 : fld (wordI s maj d a ca i) 31 1 = s := by
  apply BitVec.eq_of_toNat_eq; simp only [fld_toNat, wordI, wordI_word]; have := s.isLt; have := maj.isLt; have := d.isLt; have := a.isLt; have := ca.isLt; have := i.isLt; omega
@[simp] theorem wordI_25 : fld (wordI s maj d a ca i) 25 6 = maj := by
  apply BitVec.eq_of_toNat_eq; simp only [fld_toNat, wordI, wordI_word]; have := s.isLt; have := maj.isLt; have := d.isLt; have := a.isLt; have := ca.isLt; have := i.isLt; omega
@[simp] theorem wordI_19 : fld (wordI s maj d a ca i) 19 6 = d := by
  apply BitVec.eq_of_toNat_eq; simp only [fld_toNat, wordI, wordI_word]; have := s.isLt; have := maj.isLt; have := d.isLt; have := a.isLt; have := ca.isLt; have := i.isLt; omega
@[simp] theorem wordI_13 : fld (wordI s maj d a ca i) 13 6 = a := by
  apply BitVec.eq_of_toNat_eq; simp only [fld_toNat, wordI, wordI_word]; have := s.isLt; have := maj.isLt; have := d.isLt; have := a.isLt; have := ca.isLt; have := i.isLt; omega
@[simp] theorem wordI_11 : fld (wordI s maj d a ca i) 11 2 = ca := by
  apply BitVec.eq_of_toNat_eq; simp only [fld_toNat, wordI, wordI_word]; have := s.isLt; have := maj.isLt; have := d.isLt; have := a.isLt; have := ca.isLt; have := i.isLt; omega
@[simp] theorem wordI_0 : fld (wordI s maj d a ca i) 0 11 = i := by
  apply BitVec.eq_of_toNat_eq; simp only [fld_toNat, wordI, wordI_word]; have := s.isLt; have := maj.isLt; have := d.isLt; have := a.isLt; have := ca.isLt; have := i.isLt; omega
end words_wordI

section words_wordB
variable (s : BitVec 1) (maj : BitVec 6) (p : BitVec 3) (n : BitVec 1) (t : BitVec 21)
theorem wordB_word : (pack [(1, s.toNat), (6, maj.toNat), (3, p.toNat), (1, n.toNat), (21, t.toNat)] : BitVec 32).toNat = s.toNat * 2 ^ 31 + maj.toNat * 2 ^ 25 + p.toNat * 2 ^ 22 + n.toNat * 2 ^ 21 + t.toNat := by
  have := s.isLt; have := maj.isLt; have := p.isLt; have := n.isLt; have := t.isLt
  simp only [pack_toNat, packNat, List.map, List.sum_cons, List.sum_nil]
  omega
@[simp] theorem wordB_31 : fld (wordB s maj p n t) 31 1 = s := by
  apply BitVec.eq_of_toNat_eq; simp only [fld_toNat, wordB, wordB_word]; have := s.isLt; have := maj.isLt; have := p.isLt; have := n.isLt; have := t.isLt; omega
@[simp] theorem wordB_25 : fld (wordB s maj p n t) 25 6 = maj := by
  apply BitVec.eq_of_toNat_eq; simp only [fld_toNat, wordB, wordB_word]; have := s.isLt; have := maj.isLt; have := p.isLt; have := n.isLt; have := t.isLt; omega
@[simp] theorem wordB_22 : fld (wordB s maj p n t) 22 3 = p := by
  apply BitVec.eq_of_toNat_eq; simp only [fld_toNat, wordB, wordB_word]; have := s.isLt; have := maj.isLt; have := p.isLt; have := n.isLt; have := t.isLt; omega
@[simp] theorem wordB_21 : fld (wordB s maj p n t) 21 1 = n := by
  apply BitVec.eq_of_toNat_eq; simp only [fld_toNat, wordB, wordB_word]; have := s.isLt; have := maj.isLt; have := p.isLt; have := n.isLt; have := t.isLt; omega
@[simp] theorem wordB_0 : fld (wordB s maj p n t) 0 21 = t := by
  apply BitVec.eq_of_toNat_eq; simp only [fld_toNat, wordB, wordB_word]; have := s.isLt; have := maj.isLt; have := p.isLt; have := n.isLt; have := t.isLt; omega
end words_wordB

section words_wordX
variable (vc : BitVec 6) (cc : BitVec 2) (e : BitVec 24)
theorem wordX_word : (pack [(6, vc.toNat), (2, cc.toNat), (24, e.toNat)] : BitVec 32).toNat = vc.toNat * 2 ^ 26 + cc.toNat * 2 ^ 24 + e.toNat := by
  have := vc.isLt; have := cc.isLt; have := e.isLt
  simp only [pack_toNat, packNat, List.map, List.sum_cons, List.sum_nil]
  omega
@[simp] theorem wordX_26 : fld (wordX vc cc e) 26 6 = vc := by
  apply BitVec.eq_of_toNat_eq; simp only [fld_toNat, wordX, wordX_word]; have := vc.isLt; have := cc.isLt; have := e.isLt; omega
@[simp] theorem wordX_24 : fld (wordX vc cc e) 24 2 = cc := by
  apply BitVec.eq_of_toNat_eq; simp only [fld_toNat, wordX, wordX_word]; have := vc.isLt; have := cc.isLt; have := e.isLt; omega
@[simp] theorem wordX_0 : fld (wordX vc cc e) 0 24 = e := by
  apply BitVec.eq_of_toNat_eq; simp only [fld_toNat, wordX, wordX_word]; have := vc.isLt; have := cc.isLt; have := e.isLt; omega
end words_wordX

section words_mch
variable (i : BitVec 16)
theorem mch_word : (pack [(16, 0), (16, i.toNat)] : BitVec 32).toNat = i.toNat := by
  have := i.isLt
  simp only [pack_toNat, packNat, List.map, List.sum_cons, List.sum_nil]
  omega
@[simp] theorem mch_26 : fld (pack [(16, 0), (16, i.toNat)]) 26 6 = 0 := by
  apply BitVec.eq_of_toNat_eq; simp only [fld_toNat, mch_word, BitVec.ofNat_eq_ofNat, BitVec.toNat_ofNat, Nat.zero_mod]; have := i.isLt; omega
@[simp] theorem mch_24 : fld (pack [(16, 0), (16, i.toNat)]) 24 2 = 0 := by
  apply BitVec.eq_of_toNat_eq; simp only [fld_toNat, mch_word, BitVec.ofNat_eq_ofNat, BitVec.toNat_ofNat, Nat.zero_mod]; have := i.isLt; omega
@[simp] theorem mch_16 : fld (pack [(16, 0), (16, i.toNat)]) 16 8 = 0 := by
  apply BitVec.eq_of_toNat_eq; simp only [fld_toNat, mch_word, BitVec.ofNat_eq_ofNat, BitVec.toNat_ofNat, Nat.zero_mod]; have := i.isLt; omega
@[simp] theorem mch_0 : fld (pack [(16, 0), (16, i.toNat)]) 0 16 = i := by
  apply BitVec.eq_of_toNat_eq; simp only [fld_toNat, mch_word]; have := i.isLt; omega
end words_mch

section words_fma
variable (r : BitVec 6) (c : BitVec 2) (z : BitVec 1) (m : BitVec 2)
theorem fma_word : (pack [(6, r.toNat), (2, c.toNat), (21, 0), (1, z.toNat), (2, m.toNat)] : BitVec 32).toNat = r.toNat * 2 ^ 26 + c.toNat * 2 ^ 24 + z.toNat * 2 ^ 2 + m.toNat := by
  have := r.isLt; have := c.isLt; have := z.isLt; have := m.isLt
  simp only [pack_toNat, packNat, List.map, List.sum_cons, List.sum_nil]
  omega
@[simp] theorem fma_26 : fld (pack [(6, r.toNat), (2, c.toNat), (21, 0), (1, z.toNat), (2, m.toNat)]) 26 6 = r := by
  apply BitVec.eq_of_toNat_eq; simp only [fld_toNat, fma_word]; have := r.isLt; have := c.isLt; have := z.isLt; have := m.isLt; omega
@[simp] theorem fma_24 : fld (pack [(6, r.toNat), (2, c.toNat), (21, 0), (1, z.toNat), (2, m.toNat)]) 24 2 = c := by
  apply BitVec.eq_of_toNat_eq; simp only [fld_toNat, fma_word]; have := r.isLt; have := c.isLt; have := z.isLt; have := m.isLt; omega
@[simp] theorem fma_3 : fld (pack [(6, r.toNat), (2, c.toNat), (21, 0), (1, z.toNat), (2, m.toNat)]) 3 21 = 0 := by
  apply BitVec.eq_of_toNat_eq; simp only [fld_toNat, fma_word, BitVec.ofNat_eq_ofNat, BitVec.toNat_ofNat, Nat.zero_mod]; have := r.isLt; have := c.isLt; have := z.isLt; have := m.isLt; omega
@[simp] theorem fma_2 : fld (pack [(6, r.toNat), (2, c.toNat), (21, 0), (1, z.toNat), (2, m.toNat)]) 2 1 = z := by
  apply BitVec.eq_of_toNat_eq; simp only [fld_toNat, fma_word]; have := r.isLt; have := c.isLt; have := z.isLt; have := m.isLt; omega
@[simp] theorem fma_0 : fld (pack [(6, r.toNat), (2, c.toNat), (21, 0), (1, z.toNat), (2, m.toNat)]) 0 2 = m := by
  apply BitVec.eq_of_toNat_eq; simp only [fld_toNat, fma_word]; have := r.isLt; have := c.isLt; have := z.isLt; have := m.isLt; omega
end words_fma

section words_wordL
variable (op : BitVec 3) (z : BitVec 1) (m : BitVec 2)
theorem wordL_word : (pack [(26, 0), (3, op.toNat), (1, z.toNat), (2, m.toNat)] : BitVec 32).toNat = op.toNat * 2 ^ 3 + z.toNat * 2 ^ 2 + m.toNat := by
  have := op.isLt; have := z.isLt; have := m.isLt
  simp only [pack_toNat, packNat, List.map, List.sum_cons, List.sum_nil]
  omega
@[simp] theorem wordL_6 : fld (pack [(26, 0), (3, op.toNat), (1, z.toNat), (2, m.toNat)]) 6 26 = 0 := by
  apply BitVec.eq_of_toNat_eq; simp only [fld_toNat, wordL_word, BitVec.ofNat_eq_ofNat, BitVec.toNat_ofNat, Nat.zero_mod]; have := op.isLt; have := z.isLt; have := m.isLt; omega
@[simp] theorem wordL_3 : fld (pack [(26, 0), (3, op.toNat), (1, z.toNat), (2, m.toNat)]) 3 3 = op := by
  apply BitVec.eq_of_toNat_eq; simp only [fld_toNat, wordL_word]; have := op.isLt; have := z.isLt; have := m.isLt; omega
@[simp] theorem wordL_2 : fld (pack [(26, 0), (3, op.toNat), (1, z.toNat), (2, m.toNat)]) 2 1 = z := by
  apply BitVec.eq_of_toNat_eq; simp only [fld_toNat, wordL_word]; have := op.isLt; have := z.isLt; have := m.isLt; omega
@[simp] theorem wordL_0 : fld (pack [(26, 0), (3, op.toNat), (1, z.toNat), (2, m.toNat)]) 0 2 = m := by
  apply BitVec.eq_of_toNat_eq; simp only [fld_toNat, wordL_word]; have := op.isLt; have := z.isLt; have := m.isLt; omega
end words_wordL

section words_cvt
variable (dk : BitVec 4) (sk : BitVec 4) (part : BitVec 4) (slot : BitVec 3) (sat : BitVec 1) (z : BitVec 1) (m : BitVec 2)
theorem cvt_word : (pack [(13, 0), (4, dk.toNat), (4, sk.toNat), (4, part.toNat), (3, slot.toNat), (1, sat.toNat), (1, z.toNat), (2, m.toNat)] : BitVec 32).toNat = dk.toNat * 2 ^ 15 + sk.toNat * 2 ^ 11 + part.toNat * 2 ^ 7 + slot.toNat * 2 ^ 4 + sat.toNat * 2 ^ 3 + z.toNat * 2 ^ 2 + m.toNat := by
  have := dk.isLt; have := sk.isLt; have := part.isLt; have := slot.isLt; have := sat.isLt; have := z.isLt; have := m.isLt
  simp only [pack_toNat, packNat, List.map, List.sum_cons, List.sum_nil]
  omega
@[simp] theorem cvt_19 : fld (pack [(13, 0), (4, dk.toNat), (4, sk.toNat), (4, part.toNat), (3, slot.toNat), (1, sat.toNat), (1, z.toNat), (2, m.toNat)]) 19 13 = 0 := by
  apply BitVec.eq_of_toNat_eq; simp only [fld_toNat, cvt_word, BitVec.ofNat_eq_ofNat, BitVec.toNat_ofNat, Nat.zero_mod]; have := dk.isLt; have := sk.isLt; have := part.isLt; have := slot.isLt; have := sat.isLt; have := z.isLt; have := m.isLt; omega
@[simp] theorem cvt_15 : fld (pack [(13, 0), (4, dk.toNat), (4, sk.toNat), (4, part.toNat), (3, slot.toNat), (1, sat.toNat), (1, z.toNat), (2, m.toNat)]) 15 4 = dk := by
  apply BitVec.eq_of_toNat_eq; simp only [fld_toNat, cvt_word]; have := dk.isLt; have := sk.isLt; have := part.isLt; have := slot.isLt; have := sat.isLt; have := z.isLt; have := m.isLt; omega
@[simp] theorem cvt_11 : fld (pack [(13, 0), (4, dk.toNat), (4, sk.toNat), (4, part.toNat), (3, slot.toNat), (1, sat.toNat), (1, z.toNat), (2, m.toNat)]) 11 4 = sk := by
  apply BitVec.eq_of_toNat_eq; simp only [fld_toNat, cvt_word]; have := dk.isLt; have := sk.isLt; have := part.isLt; have := slot.isLt; have := sat.isLt; have := z.isLt; have := m.isLt; omega
@[simp] theorem cvt_7 : fld (pack [(13, 0), (4, dk.toNat), (4, sk.toNat), (4, part.toNat), (3, slot.toNat), (1, sat.toNat), (1, z.toNat), (2, m.toNat)]) 7 4 = part := by
  apply BitVec.eq_of_toNat_eq; simp only [fld_toNat, cvt_word]; have := dk.isLt; have := sk.isLt; have := part.isLt; have := slot.isLt; have := sat.isLt; have := z.isLt; have := m.isLt; omega
@[simp] theorem cvt_4 : fld (pack [(13, 0), (4, dk.toNat), (4, sk.toNat), (4, part.toNat), (3, slot.toNat), (1, sat.toNat), (1, z.toNat), (2, m.toNat)]) 4 3 = slot := by
  apply BitVec.eq_of_toNat_eq; simp only [fld_toNat, cvt_word]; have := dk.isLt; have := sk.isLt; have := part.isLt; have := slot.isLt; have := sat.isLt; have := z.isLt; have := m.isLt; omega
@[simp] theorem cvt_3 : fld (pack [(13, 0), (4, dk.toNat), (4, sk.toNat), (4, part.toNat), (3, slot.toNat), (1, sat.toNat), (1, z.toNat), (2, m.toNat)]) 3 1 = sat := by
  apply BitVec.eq_of_toNat_eq; simp only [fld_toNat, cvt_word]; have := dk.isLt; have := sk.isLt; have := part.isLt; have := slot.isLt; have := sat.isLt; have := z.isLt; have := m.isLt; omega
@[simp] theorem cvt_2 : fld (pack [(13, 0), (4, dk.toNat), (4, sk.toNat), (4, part.toNat), (3, slot.toNat), (1, sat.toNat), (1, z.toNat), (2, m.toNat)]) 2 1 = z := by
  apply BitVec.eq_of_toNat_eq; simp only [fld_toNat, cvt_word]; have := dk.isLt; have := sk.isLt; have := part.isLt; have := slot.isLt; have := sat.isLt; have := z.isLt; have := m.isLt; omega
@[simp] theorem cvt_0 : fld (pack [(13, 0), (4, dk.toNat), (4, sk.toNat), (4, part.toNat), (3, slot.toNat), (1, sat.toNat), (1, z.toNat), (2, m.toNat)]) 0 2 = m := by
  apply BitVec.eq_of_toNat_eq; simp only [fld_toNat, cvt_word]; have := dk.isLt; have := sk.isLt; have := part.isLt; have := slot.isLt; have := sat.isLt; have := z.isLt; have := m.isLt; omega
end words_cvt

section words_wordM
variable (p : BitVec 3) (sp : BitVec 2) (wd : BitVec 2) (h : BitVec 2) (ck : BitVec 1) (off : BitVec 14)
theorem wordM_word : (pack [(3, p.toNat), (5, 0), (2, sp.toNat), (2, wd.toNat), (2, h.toNat), (1, ck.toNat), (3, 0), (14, off.toNat)] : BitVec 32).toNat = p.toNat * 2 ^ 29 + sp.toNat * 2 ^ 22 + wd.toNat * 2 ^ 20 + h.toNat * 2 ^ 18 + ck.toNat * 2 ^ 17 + off.toNat := by
  have := p.isLt; have := sp.isLt; have := wd.isLt; have := h.isLt; have := ck.isLt; have := off.isLt
  simp only [pack_toNat, packNat, List.map, List.sum_cons, List.sum_nil]
  omega
@[simp] theorem wordM_29 : fld (pack [(3, p.toNat), (5, 0), (2, sp.toNat), (2, wd.toNat), (2, h.toNat), (1, ck.toNat), (3, 0), (14, off.toNat)]) 29 3 = p := by
  apply BitVec.eq_of_toNat_eq; simp only [fld_toNat, wordM_word]; have := p.isLt; have := sp.isLt; have := wd.isLt; have := h.isLt; have := ck.isLt; have := off.isLt; omega
@[simp] theorem wordM_22 : fld (pack [(3, p.toNat), (5, 0), (2, sp.toNat), (2, wd.toNat), (2, h.toNat), (1, ck.toNat), (3, 0), (14, off.toNat)]) 22 2 = sp := by
  apply BitVec.eq_of_toNat_eq; simp only [fld_toNat, wordM_word]; have := p.isLt; have := sp.isLt; have := wd.isLt; have := h.isLt; have := ck.isLt; have := off.isLt; omega
@[simp] theorem wordM_20 : fld (pack [(3, p.toNat), (5, 0), (2, sp.toNat), (2, wd.toNat), (2, h.toNat), (1, ck.toNat), (3, 0), (14, off.toNat)]) 20 2 = wd := by
  apply BitVec.eq_of_toNat_eq; simp only [fld_toNat, wordM_word]; have := p.isLt; have := sp.isLt; have := wd.isLt; have := h.isLt; have := ck.isLt; have := off.isLt; omega
@[simp] theorem wordM_18 : fld (pack [(3, p.toNat), (5, 0), (2, sp.toNat), (2, wd.toNat), (2, h.toNat), (1, ck.toNat), (3, 0), (14, off.toNat)]) 18 2 = h := by
  apply BitVec.eq_of_toNat_eq; simp only [fld_toNat, wordM_word]; have := p.isLt; have := sp.isLt; have := wd.isLt; have := h.isLt; have := ck.isLt; have := off.isLt; omega
@[simp] theorem wordM_17 : fld (pack [(3, p.toNat), (5, 0), (2, sp.toNat), (2, wd.toNat), (2, h.toNat), (1, ck.toNat), (3, 0), (14, off.toNat)]) 17 1 = ck := by
  apply BitVec.eq_of_toNat_eq; simp only [fld_toNat, wordM_word]; have := p.isLt; have := sp.isLt; have := wd.isLt; have := h.isLt; have := ck.isLt; have := off.isLt; omega
@[simp] theorem wordM_14 : fld (pack [(3, p.toNat), (5, 0), (2, sp.toNat), (2, wd.toNat), (2, h.toNat), (1, ck.toNat), (3, 0), (14, off.toNat)]) 14 3 = 0 := by
  apply BitVec.eq_of_toNat_eq; simp only [fld_toNat, wordM_word, BitVec.ofNat_eq_ofNat, BitVec.toNat_ofNat, Nat.zero_mod]; have := p.isLt; have := sp.isLt; have := wd.isLt; have := h.isLt; have := ck.isLt; have := off.isLt; omega
@[simp] theorem wordM_0 : fld (pack [(3, p.toNat), (5, 0), (2, sp.toNat), (2, wd.toNat), (2, h.toNat), (1, ck.toNat), (3, 0), (14, off.toNat)]) 0 14 = off := by
  apply BitVec.eq_of_toNat_eq; simp only [fld_toNat, wordM_word]; have := p.isLt; have := sp.isLt; have := wd.isLt; have := h.isLt; have := ck.isLt; have := off.isLt; omega
end words_wordM

section words_wordA
variable (c : BitVec 6) (cc : BitVec 2) (sp : BitVec 2) (ty : BitVec 3) (sc : BitVec 3) (o : BitVec 3) (off : BitVec 13)
theorem wordA_word : (pack [(6, c.toNat), (2, cc.toNat), (2, sp.toNat), (3, ty.toNat), (3, sc.toNat), (3, o.toNat), (13, off.toNat)] : BitVec 32).toNat = c.toNat * 2 ^ 26 + cc.toNat * 2 ^ 24 + sp.toNat * 2 ^ 22 + ty.toNat * 2 ^ 19 + sc.toNat * 2 ^ 16 + o.toNat * 2 ^ 13 + off.toNat := by
  have := c.isLt; have := cc.isLt; have := sp.isLt; have := ty.isLt; have := sc.isLt; have := o.isLt; have := off.isLt
  simp only [pack_toNat, packNat, List.map, List.sum_cons, List.sum_nil]
  omega
@[simp] theorem wordA_26 : fld (pack [(6, c.toNat), (2, cc.toNat), (2, sp.toNat), (3, ty.toNat), (3, sc.toNat), (3, o.toNat), (13, off.toNat)]) 26 6 = c := by
  apply BitVec.eq_of_toNat_eq; simp only [fld_toNat, wordA_word]; have := c.isLt; have := cc.isLt; have := sp.isLt; have := ty.isLt; have := sc.isLt; have := o.isLt; have := off.isLt; omega
@[simp] theorem wordA_24 : fld (pack [(6, c.toNat), (2, cc.toNat), (2, sp.toNat), (3, ty.toNat), (3, sc.toNat), (3, o.toNat), (13, off.toNat)]) 24 2 = cc := by
  apply BitVec.eq_of_toNat_eq; simp only [fld_toNat, wordA_word]; have := c.isLt; have := cc.isLt; have := sp.isLt; have := ty.isLt; have := sc.isLt; have := o.isLt; have := off.isLt; omega
@[simp] theorem wordA_22 : fld (pack [(6, c.toNat), (2, cc.toNat), (2, sp.toNat), (3, ty.toNat), (3, sc.toNat), (3, o.toNat), (13, off.toNat)]) 22 2 = sp := by
  apply BitVec.eq_of_toNat_eq; simp only [fld_toNat, wordA_word]; have := c.isLt; have := cc.isLt; have := sp.isLt; have := ty.isLt; have := sc.isLt; have := o.isLt; have := off.isLt; omega
@[simp] theorem wordA_19 : fld (pack [(6, c.toNat), (2, cc.toNat), (2, sp.toNat), (3, ty.toNat), (3, sc.toNat), (3, o.toNat), (13, off.toNat)]) 19 3 = ty := by
  apply BitVec.eq_of_toNat_eq; simp only [fld_toNat, wordA_word]; have := c.isLt; have := cc.isLt; have := sp.isLt; have := ty.isLt; have := sc.isLt; have := o.isLt; have := off.isLt; omega
@[simp] theorem wordA_16 : fld (pack [(6, c.toNat), (2, cc.toNat), (2, sp.toNat), (3, ty.toNat), (3, sc.toNat), (3, o.toNat), (13, off.toNat)]) 16 3 = sc := by
  apply BitVec.eq_of_toNat_eq; simp only [fld_toNat, wordA_word]; have := c.isLt; have := cc.isLt; have := sp.isLt; have := ty.isLt; have := sc.isLt; have := o.isLt; have := off.isLt; omega
@[simp] theorem wordA_13 : fld (pack [(6, c.toNat), (2, cc.toNat), (2, sp.toNat), (3, ty.toNat), (3, sc.toNat), (3, o.toNat), (13, off.toNat)]) 13 3 = o := by
  apply BitVec.eq_of_toNat_eq; simp only [fld_toNat, wordA_word]; have := c.isLt; have := cc.isLt; have := sp.isLt; have := ty.isLt; have := sc.isLt; have := o.isLt; have := off.isLt; omega
@[simp] theorem wordA_0 : fld (pack [(6, c.toNat), (2, cc.toNat), (2, sp.toNat), (3, ty.toNat), (3, sc.toNat), (3, o.toNat), (13, off.toNat)]) 0 13 = off := by
  apply BitVec.eq_of_toNat_eq; simp only [fld_toNat, wordA_word]; have := c.isLt; have := cc.isLt; have := sp.isLt; have := ty.isLt; have := sc.isLt; have := o.isLt; have := off.isLt; omega
end words_wordA

section words_mmar
variable (fb : BitVec 3) (fa : BitVec 3)
theorem mmar_word : (pack [(26, 0), (3, fb.toNat), (3, fa.toNat)] : BitVec 32).toNat = fb.toNat * 2 ^ 3 + fa.toNat := by
  have := fb.isLt; have := fa.isLt
  simp only [pack_toNat, packNat, List.map, List.sum_cons, List.sum_nil]
  omega
@[simp] theorem mmar_6 : fld (pack [(26, 0), (3, fb.toNat), (3, fa.toNat)]) 6 26 = 0 := by
  apply BitVec.eq_of_toNat_eq; simp only [fld_toNat, mmar_word, BitVec.ofNat_eq_ofNat, BitVec.toNat_ofNat, Nat.zero_mod]; have := fb.isLt; have := fa.isLt; omega
@[simp] theorem mmar_3 : fld (pack [(26, 0), (3, fb.toNat), (3, fa.toNat)]) 3 3 = fb := by
  apply BitVec.eq_of_toNat_eq; simp only [fld_toNat, mmar_word]; have := fb.isLt; have := fa.isLt; omega
@[simp] theorem mmar_0 : fld (pack [(26, 0), (3, fb.toNat), (3, fa.toNat)]) 0 3 = fa := by
  apply BitVec.eq_of_toNat_eq; simp only [fld_toNat, mmar_word]; have := fb.isLt; have := fa.isLt; omega
end words_mmar

section words_copen
variable (l : BitVec 1) (h : BitVec 7)
theorem copen_word : (pack [(24, 0), (1, l.toNat), (7, h.toNat)] : BitVec 32).toNat = l.toNat * 2 ^ 7 + h.toNat := by
  have := l.isLt; have := h.isLt
  simp only [pack_toNat, packNat, List.map, List.sum_cons, List.sum_nil]
  omega
@[simp] theorem copen_8 : fld (pack [(24, 0), (1, l.toNat), (7, h.toNat)]) 8 24 = 0 := by
  apply BitVec.eq_of_toNat_eq; simp only [fld_toNat, copen_word, BitVec.ofNat_eq_ofNat, BitVec.toNat_ofNat, Nat.zero_mod]; have := l.isLt; have := h.isLt; omega
@[simp] theorem copen_7 : fld (pack [(24, 0), (1, l.toNat), (7, h.toNat)]) 7 1 = l := by
  apply BitVec.eq_of_toNat_eq; simp only [fld_toNat, copen_word]; have := l.isLt; have := h.isLt; omega
@[simp] theorem copen_0 : fld (pack [(24, 0), (1, l.toNat), (7, h.toNat)]) 0 7 = h := by
  apply BitVec.eq_of_toNat_eq; simp only [fld_toNat, copen_word]; have := l.isLt; have := h.isLt; omega
end words_copen

section words_cadd
variable (r : BitVec 6) (c : BitVec 2) (some : BitVec 1) (n : BitVec 6)
theorem cadd_word : (pack [(6, r.toNat), (2, c.toNat), (1, some.toNat), (1, 0), (6, n.toNat), (16, 0)] : BitVec 32).toNat = r.toNat * 2 ^ 26 + c.toNat * 2 ^ 24 + some.toNat * 2 ^ 23 + n.toNat * 2 ^ 16 := by
  have := r.isLt; have := c.isLt; have := some.isLt; have := n.isLt
  simp only [pack_toNat, packNat, List.map, List.sum_cons, List.sum_nil]
  omega
@[simp] theorem cadd_26 : fld (pack [(6, r.toNat), (2, c.toNat), (1, some.toNat), (1, 0), (6, n.toNat), (16, 0)]) 26 6 = r := by
  apply BitVec.eq_of_toNat_eq; simp only [fld_toNat, cadd_word]; have := r.isLt; have := c.isLt; have := some.isLt; have := n.isLt; omega
@[simp] theorem cadd_24 : fld (pack [(6, r.toNat), (2, c.toNat), (1, some.toNat), (1, 0), (6, n.toNat), (16, 0)]) 24 2 = c := by
  apply BitVec.eq_of_toNat_eq; simp only [fld_toNat, cadd_word]; have := r.isLt; have := c.isLt; have := some.isLt; have := n.isLt; omega
@[simp] theorem cadd_23 : fld (pack [(6, r.toNat), (2, c.toNat), (1, some.toNat), (1, 0), (6, n.toNat), (16, 0)]) 23 1 = some := by
  apply BitVec.eq_of_toNat_eq; simp only [fld_toNat, cadd_word]; have := r.isLt; have := c.isLt; have := some.isLt; have := n.isLt; omega
@[simp] theorem cadd_22 : fld (pack [(6, r.toNat), (2, c.toNat), (1, some.toNat), (1, 0), (6, n.toNat), (16, 0)]) 22 1 = 0 := by
  apply BitVec.eq_of_toNat_eq; simp only [fld_toNat, cadd_word, BitVec.ofNat_eq_ofNat, BitVec.toNat_ofNat, Nat.zero_mod]; have := r.isLt; have := c.isLt; have := some.isLt; have := n.isLt; omega
@[simp] theorem cadd_16 : fld (pack [(6, r.toNat), (2, c.toNat), (1, some.toNat), (1, 0), (6, n.toNat), (16, 0)]) 16 6 = n := by
  apply BitVec.eq_of_toNat_eq; simp only [fld_toNat, cadd_word]; have := r.isLt; have := c.isLt; have := some.isLt; have := n.isLt; omega
@[simp] theorem cadd_0 : fld (pack [(6, r.toNat), (2, c.toNat), (1, some.toNat), (1, 0), (6, n.toNat), (16, 0)]) 0 16 = 0 := by
  apply BitVec.eq_of_toNat_eq; simp only [fld_toNat, cadd_word, BitVec.ofNat_eq_ofNat, BitVec.toNat_ofNat, Nat.zero_mod]; have := r.isLt; have := c.isLt; have := some.isLt; have := n.isLt; omega
end words_cadd

section words_cread
variable (k : BitVec 3)
theorem cread_word : (pack [(29, 0), (3, k.toNat)] : BitVec 32).toNat = k.toNat := by
  have := k.isLt
  simp only [pack_toNat, packNat, List.map, List.sum_cons, List.sum_nil]
  omega
@[simp] theorem cread_3 : fld (pack [(29, 0), (3, k.toNat)]) 3 29 = 0 := by
  apply BitVec.eq_of_toNat_eq; simp only [fld_toNat, cread_word, BitVec.ofNat_eq_ofNat, BitVec.toNat_ofNat, Nat.zero_mod]; have := k.isLt; omega
@[simp] theorem cread_0 : fld (pack [(29, 0), (3, k.toNat)]) 0 3 = k := by
  apply BitVec.eq_of_toNat_eq; simp only [fld_toNat, cread_word]; have := k.isLt; omega
end words_cread

section words_creplay
variable (h : BitVec 7) (x : BitVec 16)
theorem creplay_word : (pack [(9, 0), (7, h.toNat), (16, x.toNat)] : BitVec 32).toNat = h.toNat * 2 ^ 16 + x.toNat := by
  have := h.isLt; have := x.isLt
  simp only [pack_toNat, packNat, List.map, List.sum_cons, List.sum_nil]
  omega
@[simp] theorem creplay_23 : fld (pack [(9, 0), (7, h.toNat), (16, x.toNat)]) 23 9 = 0 := by
  apply BitVec.eq_of_toNat_eq; simp only [fld_toNat, creplay_word, BitVec.ofNat_eq_ofNat, BitVec.toNat_ofNat, Nat.zero_mod]; have := h.isLt; have := x.isLt; omega
@[simp] theorem creplay_16 : fld (pack [(9, 0), (7, h.toNat), (16, x.toNat)]) 16 7 = h := by
  apply BitVec.eq_of_toNat_eq; simp only [fld_toNat, creplay_word]; have := h.isLt; have := x.isLt; omega
@[simp] theorem creplay_0 : fld (pack [(9, 0), (7, h.toNat), (16, x.toNat)]) 0 16 = x := by
  apply BitVec.eq_of_toNat_eq; simp only [fld_toNat, creplay_word]; have := h.isLt; have := x.isLt; omega
end words_creplay

section words_fence
variable (s : BitVec 1) (maj : BitVec 6) (k : BitVec 2) (c : BitVec 3)
theorem fence_word : (pack [(1, s.toNat), (6, maj.toNat), (4, 0), (2, k.toNat), (16, 0), (3, c.toNat)] : BitVec 32).toNat = s.toNat * 2 ^ 31 + maj.toNat * 2 ^ 25 + k.toNat * 2 ^ 19 + c.toNat := by
  have := s.isLt; have := maj.isLt; have := k.isLt; have := c.isLt
  simp only [pack_toNat, packNat, List.map, List.sum_cons, List.sum_nil]
  omega
@[simp] theorem fence_31 : fld (pack [(1, s.toNat), (6, maj.toNat), (4, 0), (2, k.toNat), (16, 0), (3, c.toNat)]) 31 1 = s := by
  apply BitVec.eq_of_toNat_eq; simp only [fld_toNat, fence_word]; have := s.isLt; have := maj.isLt; have := k.isLt; have := c.isLt; omega
@[simp] theorem fence_25 : fld (pack [(1, s.toNat), (6, maj.toNat), (4, 0), (2, k.toNat), (16, 0), (3, c.toNat)]) 25 6 = maj := by
  apply BitVec.eq_of_toNat_eq; simp only [fld_toNat, fence_word]; have := s.isLt; have := maj.isLt; have := k.isLt; have := c.isLt; omega
@[simp] theorem fence_21 : fld (pack [(1, s.toNat), (6, maj.toNat), (4, 0), (2, k.toNat), (16, 0), (3, c.toNat)]) 21 4 = 0 := by
  apply BitVec.eq_of_toNat_eq; simp only [fld_toNat, fence_word, BitVec.ofNat_eq_ofNat, BitVec.toNat_ofNat, Nat.zero_mod]; have := s.isLt; have := maj.isLt; have := k.isLt; have := c.isLt; omega
@[simp] theorem fence_19 : fld (pack [(1, s.toNat), (6, maj.toNat), (4, 0), (2, k.toNat), (16, 0), (3, c.toNat)]) 19 2 = k := by
  apply BitVec.eq_of_toNat_eq; simp only [fld_toNat, fence_word]; have := s.isLt; have := maj.isLt; have := k.isLt; have := c.isLt; omega
@[simp] theorem fence_3 : fld (pack [(1, s.toNat), (6, maj.toNat), (4, 0), (2, k.toNat), (16, 0), (3, c.toNat)]) 3 16 = 0 := by
  apply BitVec.eq_of_toNat_eq; simp only [fld_toNat, fence_word, BitVec.ofNat_eq_ofNat, BitVec.toNat_ofNat, Nat.zero_mod]; have := s.isLt; have := maj.isLt; have := k.isLt; have := c.isLt; omega
@[simp] theorem fence_0 : fld (pack [(1, s.toNat), (6, maj.toNat), (4, 0), (2, k.toNat), (16, 0), (3, c.toNat)]) 0 3 = c := by
  apply BitVec.eq_of_toNat_eq; simp only [fld_toNat, fence_word]; have := s.isLt; have := maj.isLt; have := k.isLt; have := c.isLt; omega
end words_fence

section words_waith
variable (s : BitVec 1) (maj : BitVec 6) (c : BitVec 2) (n : BitVec 7)
theorem waith_word : (pack [(1, s.toNat), (6, maj.toNat), (16, 0), (2, c.toNat), (7, n.toNat)] : BitVec 32).toNat = s.toNat * 2 ^ 31 + maj.toNat * 2 ^ 25 + c.toNat * 2 ^ 7 + n.toNat := by
  have := s.isLt; have := maj.isLt; have := c.isLt; have := n.isLt
  simp only [pack_toNat, packNat, List.map, List.sum_cons, List.sum_nil]
  omega
@[simp] theorem waith_31 : fld (pack [(1, s.toNat), (6, maj.toNat), (16, 0), (2, c.toNat), (7, n.toNat)]) 31 1 = s := by
  apply BitVec.eq_of_toNat_eq; simp only [fld_toNat, waith_word]; have := s.isLt; have := maj.isLt; have := c.isLt; have := n.isLt; omega
@[simp] theorem waith_25 : fld (pack [(1, s.toNat), (6, maj.toNat), (16, 0), (2, c.toNat), (7, n.toNat)]) 25 6 = maj := by
  apply BitVec.eq_of_toNat_eq; simp only [fld_toNat, waith_word]; have := s.isLt; have := maj.isLt; have := c.isLt; have := n.isLt; omega
@[simp] theorem waith_9 : fld (pack [(1, s.toNat), (6, maj.toNat), (16, 0), (2, c.toNat), (7, n.toNat)]) 9 16 = 0 := by
  apply BitVec.eq_of_toNat_eq; simp only [fld_toNat, waith_word, BitVec.ofNat_eq_ofNat, BitVec.toNat_ofNat, Nat.zero_mod]; have := s.isLt; have := maj.isLt; have := c.isLt; have := n.isLt; omega
@[simp] theorem waith_7 : fld (pack [(1, s.toNat), (6, maj.toNat), (16, 0), (2, c.toNat), (7, n.toNat)]) 7 2 = c := by
  apply BitVec.eq_of_toNat_eq; simp only [fld_toNat, waith_word]; have := s.isLt; have := maj.isLt; have := c.isLt; have := n.isLt; omega
@[simp] theorem waith_0 : fld (pack [(1, s.toNat), (6, maj.toNat), (16, 0), (2, c.toNat), (7, n.toNat)]) 0 7 = n := by
  apply BitVec.eq_of_toNat_eq; simp only [fld_toNat, waith_word]; have := s.isLt; have := maj.isLt; have := c.isLt; have := n.isLt; omega
end words_waith

section words_wordC
variable (n : BitVec 6) (v : BitVec 1)
theorem wordC_word : (pack [(8, 0), (6, n.toNat), (1, v.toNat), (17, 0)] : BitVec 32).toNat = n.toNat * 2 ^ 18 + v.toNat * 2 ^ 17 := by
  have := n.isLt; have := v.isLt
  simp only [pack_toNat, packNat, List.map, List.sum_cons, List.sum_nil]
  omega
@[simp] theorem wordC_24 : fld (pack [(8, 0), (6, n.toNat), (1, v.toNat), (17, 0)]) 24 8 = 0 := by
  apply BitVec.eq_of_toNat_eq; simp only [fld_toNat, wordC_word, BitVec.ofNat_eq_ofNat, BitVec.toNat_ofNat, Nat.zero_mod]; have := n.isLt; have := v.isLt; omega
@[simp] theorem wordC_18 : fld (pack [(8, 0), (6, n.toNat), (1, v.toNat), (17, 0)]) 18 6 = n := by
  apply BitVec.eq_of_toNat_eq; simp only [fld_toNat, wordC_word]; have := n.isLt; have := v.isLt; omega
@[simp] theorem wordC_17 : fld (pack [(8, 0), (6, n.toNat), (1, v.toNat), (17, 0)]) 17 1 = v := by
  apply BitVec.eq_of_toNat_eq; simp only [fld_toNat, wordC_word]; have := n.isLt; have := v.isLt; omega
@[simp] theorem wordC_0 : fld (pack [(8, 0), (6, n.toNat), (1, v.toNat), (17, 0)]) 0 17 = 0 := by
  apply BitVec.eq_of_toNat_eq; simp only [fld_toNat, wordC_word, BitVec.ofNat_eq_ofNat, BitVec.toNat_ofNat, Nat.zero_mod]; have := n.isLt; have := v.isLt; omega
end words_wordC

section words_launch
variable (q : BitVec 3) (k : BitVec 2)
theorem launch_word : (pack [(8, 0), (3, q.toNat), (2, k.toNat), (19, 0)] : BitVec 32).toNat = q.toNat * 2 ^ 21 + k.toNat * 2 ^ 19 := by
  have := q.isLt; have := k.isLt
  simp only [pack_toNat, packNat, List.map, List.sum_cons, List.sum_nil]
  omega
@[simp] theorem launch_24 : fld (pack [(8, 0), (3, q.toNat), (2, k.toNat), (19, 0)]) 24 8 = 0 := by
  apply BitVec.eq_of_toNat_eq; simp only [fld_toNat, launch_word, BitVec.ofNat_eq_ofNat, BitVec.toNat_ofNat, Nat.zero_mod]; have := q.isLt; have := k.isLt; omega
@[simp] theorem launch_21 : fld (pack [(8, 0), (3, q.toNat), (2, k.toNat), (19, 0)]) 21 3 = q := by
  apply BitVec.eq_of_toNat_eq; simp only [fld_toNat, launch_word]; have := q.isLt; have := k.isLt; omega
@[simp] theorem launch_19 : fld (pack [(8, 0), (3, q.toNat), (2, k.toNat), (19, 0)]) 19 2 = k := by
  apply BitVec.eq_of_toNat_eq; simp only [fld_toNat, launch_word]; have := q.isLt; have := k.isLt; omega
@[simp] theorem launch_0 : fld (pack [(8, 0), (3, q.toNat), (2, k.toNat), (19, 0)]) 0 19 = 0 := by
  apply BitVec.eq_of_toNat_eq; simp only [fld_toNat, launch_word, BitVec.ofNat_eq_ofNat, BitVec.toNat_ofNat, Nat.zero_mod]; have := q.isLt; have := k.isLt; omega
end words_launch

section words_mmasn
variable (v : BitVec 6) (k : BitVec 4)
theorem mmasn_word : (pack [(8, 0), (6, v.toNat), (4, k.toNat), (14, 0)] : BitVec 32).toNat = v.toNat * 2 ^ 18 + k.toNat * 2 ^ 14 := by
  have := v.isLt; have := k.isLt
  simp only [pack_toNat, packNat, List.map, List.sum_cons, List.sum_nil]
  omega
@[simp] theorem mmasn_24 : fld (pack [(8, 0), (6, v.toNat), (4, k.toNat), (14, 0)]) 24 8 = 0 := by
  apply BitVec.eq_of_toNat_eq; simp only [fld_toNat, mmasn_word, BitVec.ofNat_eq_ofNat, BitVec.toNat_ofNat, Nat.zero_mod]; have := v.isLt; have := k.isLt; omega
@[simp] theorem mmasn_18 : fld (pack [(8, 0), (6, v.toNat), (4, k.toNat), (14, 0)]) 18 6 = v := by
  apply BitVec.eq_of_toNat_eq; simp only [fld_toNat, mmasn_word]; have := v.isLt; have := k.isLt; omega
@[simp] theorem mmasn_14 : fld (pack [(8, 0), (6, v.toNat), (4, k.toNat), (14, 0)]) 14 4 = k := by
  apply BitVec.eq_of_toNat_eq; simp only [fld_toNat, mmasn_word]; have := v.isLt; have := k.isLt; omega
@[simp] theorem mmasn_0 : fld (pack [(8, 0), (6, v.toNat), (4, k.toNat), (14, 0)]) 0 14 = 0 := by
  apply BitVec.eq_of_toNat_eq; simp only [fld_toNat, mmasn_word, BitVec.ofNat_eq_ofNat, BitVec.toNat_ofNat, Nat.zero_mod]; have := v.isLt; have := k.isLt; omega
end words_mmasn

section words_accrel
variable (k : BitVec 1) (one : BitVec 1)
theorem accrel_word : (pack [(30, 0), (1, k.toNat), (1, one.toNat)] : BitVec 32).toNat = k.toNat * 2 ^ 1 + one.toNat := by
  have := k.isLt; have := one.isLt
  simp only [pack_toNat, packNat, List.map, List.sum_cons, List.sum_nil]
  omega
@[simp] theorem accrel_2 : fld (pack [(30, 0), (1, k.toNat), (1, one.toNat)]) 2 30 = 0 := by
  apply BitVec.eq_of_toNat_eq; simp only [fld_toNat, accrel_word, BitVec.ofNat_eq_ofNat, BitVec.toNat_ofNat, Nat.zero_mod]; have := k.isLt; have := one.isLt; omega
@[simp] theorem accrel_1 : fld (pack [(30, 0), (1, k.toNat), (1, one.toNat)]) 1 1 = k := by
  apply BitVec.eq_of_toNat_eq; simp only [fld_toNat, accrel_word]; have := k.isLt; have := one.isLt; omega
@[simp] theorem accrel_0 : fld (pack [(30, 0), (1, k.toNat), (1, one.toNat)]) 0 1 = one := by
  apply BitVec.eq_of_toNat_eq; simp only [fld_toNat, accrel_word]; have := k.isLt; have := one.isLt; omega
end words_accrel

section words_trap
variable (s : BitVec 1) (maj : BitVec 6) (c : BitVec 12) (mn : BitVec 3)
theorem trap_word : (pack [(1, s.toNat), (6, maj.toNat), (6, 0), (12, c.toNat), (4, 0), (3, mn.toNat)] : BitVec 32).toNat = s.toNat * 2 ^ 31 + maj.toNat * 2 ^ 25 + c.toNat * 2 ^ 7 + mn.toNat := by
  have := s.isLt; have := maj.isLt; have := c.isLt; have := mn.isLt
  simp only [pack_toNat, packNat, List.map, List.sum_cons, List.sum_nil]
  omega
@[simp] theorem trap_31 : fld (pack [(1, s.toNat), (6, maj.toNat), (6, 0), (12, c.toNat), (4, 0), (3, mn.toNat)]) 31 1 = s := by
  apply BitVec.eq_of_toNat_eq; simp only [fld_toNat, trap_word]; have := s.isLt; have := maj.isLt; have := c.isLt; have := mn.isLt; omega
@[simp] theorem trap_25 : fld (pack [(1, s.toNat), (6, maj.toNat), (6, 0), (12, c.toNat), (4, 0), (3, mn.toNat)]) 25 6 = maj := by
  apply BitVec.eq_of_toNat_eq; simp only [fld_toNat, trap_word]; have := s.isLt; have := maj.isLt; have := c.isLt; have := mn.isLt; omega
@[simp] theorem trap_19 : fld (pack [(1, s.toNat), (6, maj.toNat), (6, 0), (12, c.toNat), (4, 0), (3, mn.toNat)]) 19 6 = 0 := by
  apply BitVec.eq_of_toNat_eq; simp only [fld_toNat, trap_word, BitVec.ofNat_eq_ofNat, BitVec.toNat_ofNat, Nat.zero_mod]; have := s.isLt; have := maj.isLt; have := c.isLt; have := mn.isLt; omega
@[simp] theorem trap_7 : fld (pack [(1, s.toNat), (6, maj.toNat), (6, 0), (12, c.toNat), (4, 0), (3, mn.toNat)]) 7 12 = c := by
  apply BitVec.eq_of_toNat_eq; simp only [fld_toNat, trap_word]; have := s.isLt; have := maj.isLt; have := c.isLt; have := mn.isLt; omega
@[simp] theorem trap_5 : fld (pack [(1, s.toNat), (6, maj.toNat), (6, 0), (12, c.toNat), (4, 0), (3, mn.toNat)]) 5 2 = 0 := by
  apply BitVec.eq_of_toNat_eq; simp only [fld_toNat, trap_word, BitVec.ofNat_eq_ofNat, BitVec.toNat_ofNat, Nat.zero_mod]; have := s.isLt; have := maj.isLt; have := c.isLt; have := mn.isLt; omega
@[simp] theorem trap_3 : fld (pack [(1, s.toNat), (6, maj.toNat), (6, 0), (12, c.toNat), (4, 0), (3, mn.toNat)]) 3 2 = 0 := by
  apply BitVec.eq_of_toNat_eq; simp only [fld_toNat, trap_word, BitVec.ofNat_eq_ofNat, BitVec.toNat_ofNat, Nat.zero_mod]; have := s.isLt; have := maj.isLt; have := c.isLt; have := mn.isLt; omega
@[simp] theorem trap_0 : fld (pack [(1, s.toNat), (6, maj.toNat), (6, 0), (12, c.toNat), (4, 0), (3, mn.toNat)]) 0 3 = mn := by
  apply BitVec.eq_of_toNat_eq; simp only [fld_toNat, trap_word]; have := s.isLt; have := maj.isLt; have := c.isLt; have := mn.isLt; omega
end words_trap

section words_gr
variable (op : BitVec 6) (d : BitVec 4) (a : BitVec 4) (b : BitVec 4)
theorem gr_word : (pack [(6, op.toNat), (4, d.toNat), (4, a.toNat), (4, b.toNat), (14, 0)] : BitVec 32).toNat = op.toNat * 2 ^ 26 + d.toNat * 2 ^ 22 + a.toNat * 2 ^ 18 + b.toNat * 2 ^ 14 := by
  have := op.isLt; have := d.isLt; have := a.isLt; have := b.isLt
  simp only [pack_toNat, packNat, List.map, List.sum_cons, List.sum_nil]
  omega
@[simp] theorem gr_26 : fld (pack [(6, op.toNat), (4, d.toNat), (4, a.toNat), (4, b.toNat), (14, 0)]) 26 6 = op := by
  apply BitVec.eq_of_toNat_eq; simp only [fld_toNat, gr_word]; have := op.isLt; have := d.isLt; have := a.isLt; have := b.isLt; omega
@[simp] theorem gr_22 : fld (pack [(6, op.toNat), (4, d.toNat), (4, a.toNat), (4, b.toNat), (14, 0)]) 22 4 = d := by
  apply BitVec.eq_of_toNat_eq; simp only [fld_toNat, gr_word]; have := op.isLt; have := d.isLt; have := a.isLt; have := b.isLt; omega
@[simp] theorem gr_18 : fld (pack [(6, op.toNat), (4, d.toNat), (4, a.toNat), (4, b.toNat), (14, 0)]) 18 4 = a := by
  apply BitVec.eq_of_toNat_eq; simp only [fld_toNat, gr_word]; have := op.isLt; have := d.isLt; have := a.isLt; have := b.isLt; omega
@[simp] theorem gr_14 : fld (pack [(6, op.toNat), (4, d.toNat), (4, a.toNat), (4, b.toNat), (14, 0)]) 14 4 = b := by
  apply BitVec.eq_of_toNat_eq; simp only [fld_toNat, gr_word]; have := op.isLt; have := d.isLt; have := a.isLt; have := b.isLt; omega
@[simp] theorem gr_0 : fld (pack [(6, op.toNat), (4, d.toNat), (4, a.toNat), (4, b.toNat), (14, 0)]) 0 14 = 0 := by
  apply BitVec.eq_of_toNat_eq; simp only [fld_toNat, gr_word, BitVec.ofNat_eq_ofNat, BitVec.toNat_ofNat, Nat.zero_mod]; have := op.isLt; have := d.isLt; have := a.isLt; have := b.isLt; omega
end words_gr

section words_gi
variable (op : BitVec 6) (d : BitVec 4) (a : BitVec 4) (i : BitVec 18)
theorem gi_word : (pack [(6, op.toNat), (4, d.toNat), (4, a.toNat), (18, i.toNat)] : BitVec 32).toNat = op.toNat * 2 ^ 26 + d.toNat * 2 ^ 22 + a.toNat * 2 ^ 18 + i.toNat := by
  have := op.isLt; have := d.isLt; have := a.isLt; have := i.isLt
  simp only [pack_toNat, packNat, List.map, List.sum_cons, List.sum_nil]
  omega
@[simp] theorem gi_26 : fld (pack [(6, op.toNat), (4, d.toNat), (4, a.toNat), (18, i.toNat)]) 26 6 = op := by
  apply BitVec.eq_of_toNat_eq; simp only [fld_toNat, gi_word]; have := op.isLt; have := d.isLt; have := a.isLt; have := i.isLt; omega
@[simp] theorem gi_22 : fld (pack [(6, op.toNat), (4, d.toNat), (4, a.toNat), (18, i.toNat)]) 22 4 = d := by
  apply BitVec.eq_of_toNat_eq; simp only [fld_toNat, gi_word]; have := op.isLt; have := d.isLt; have := a.isLt; have := i.isLt; omega
@[simp] theorem gi_18 : fld (pack [(6, op.toNat), (4, d.toNat), (4, a.toNat), (18, i.toNat)]) 18 4 = a := by
  apply BitVec.eq_of_toNat_eq; simp only [fld_toNat, gi_word]; have := op.isLt; have := d.isLt; have := a.isLt; have := i.isLt; omega
@[simp] theorem gi_0 : fld (pack [(6, op.toNat), (4, d.toNat), (4, a.toNat), (18, i.toNat)]) 0 18 = i := by
  apply BitVec.eq_of_toNat_eq; simp only [fld_toNat, gi_word]; have := op.isLt; have := d.isLt; have := a.isLt; have := i.isLt; omega
end words_gi

section words_gmovi
variable (op : BitVec 6) (d : BitVec 4) (i : BitVec 18)
theorem gmovi_word : (pack [(6, op.toNat), (4, d.toNat), (4, 0), (18, i.toNat)] : BitVec 32).toNat = op.toNat * 2 ^ 26 + d.toNat * 2 ^ 22 + i.toNat := by
  have := op.isLt; have := d.isLt; have := i.isLt
  simp only [pack_toNat, packNat, List.map, List.sum_cons, List.sum_nil]
  omega
@[simp] theorem gmovi_26 : fld (pack [(6, op.toNat), (4, d.toNat), (4, 0), (18, i.toNat)]) 26 6 = op := by
  apply BitVec.eq_of_toNat_eq; simp only [fld_toNat, gmovi_word]; have := op.isLt; have := d.isLt; have := i.isLt; omega
@[simp] theorem gmovi_22 : fld (pack [(6, op.toNat), (4, d.toNat), (4, 0), (18, i.toNat)]) 22 4 = d := by
  apply BitVec.eq_of_toNat_eq; simp only [fld_toNat, gmovi_word]; have := op.isLt; have := d.isLt; have := i.isLt; omega
@[simp] theorem gmovi_18 : fld (pack [(6, op.toNat), (4, d.toNat), (4, 0), (18, i.toNat)]) 18 4 = 0 := by
  apply BitVec.eq_of_toNat_eq; simp only [fld_toNat, gmovi_word, BitVec.ofNat_eq_ofNat, BitVec.toNat_ofNat, Nat.zero_mod]; have := op.isLt; have := d.isLt; have := i.isLt; omega
@[simp] theorem gmovi_0 : fld (pack [(6, op.toNat), (4, d.toNat), (4, 0), (18, i.toNat)]) 0 18 = i := by
  apply BitVec.eq_of_toNat_eq; simp only [fld_toNat, gmovi_word]; have := op.isLt; have := d.isLt; have := i.isLt; omega
end words_gmovi

section words_gb
variable (op : BitVec 6) (a : BitVec 4) (b : BitVec 4) (t : BitVec 6)
theorem gb_word : (pack [(6, op.toNat), (4, a.toNat), (4, b.toNat), (12, 0), (6, t.toNat)] : BitVec 32).toNat = op.toNat * 2 ^ 26 + a.toNat * 2 ^ 22 + b.toNat * 2 ^ 18 + t.toNat := by
  have := op.isLt; have := a.isLt; have := b.isLt; have := t.isLt
  simp only [pack_toNat, packNat, List.map, List.sum_cons, List.sum_nil]
  omega
@[simp] theorem gb_26 : fld (pack [(6, op.toNat), (4, a.toNat), (4, b.toNat), (12, 0), (6, t.toNat)]) 26 6 = op := by
  apply BitVec.eq_of_toNat_eq; simp only [fld_toNat, gb_word]; have := op.isLt; have := a.isLt; have := b.isLt; have := t.isLt; omega
@[simp] theorem gb_22 : fld (pack [(6, op.toNat), (4, a.toNat), (4, b.toNat), (12, 0), (6, t.toNat)]) 22 4 = a := by
  apply BitVec.eq_of_toNat_eq; simp only [fld_toNat, gb_word]; have := op.isLt; have := a.isLt; have := b.isLt; have := t.isLt; omega
@[simp] theorem gb_18 : fld (pack [(6, op.toNat), (4, a.toNat), (4, b.toNat), (12, 0), (6, t.toNat)]) 18 4 = b := by
  apply BitVec.eq_of_toNat_eq; simp only [fld_toNat, gb_word]; have := op.isLt; have := a.isLt; have := b.isLt; have := t.isLt; omega
@[simp] theorem gb_6 : fld (pack [(6, op.toNat), (4, a.toNat), (4, b.toNat), (12, 0), (6, t.toNat)]) 6 12 = 0 := by
  apply BitVec.eq_of_toNat_eq; simp only [fld_toNat, gb_word, BitVec.ofNat_eq_ofNat, BitVec.toNat_ofNat, Nat.zero_mod]; have := op.isLt; have := a.isLt; have := b.isLt; have := t.isLt; omega
@[simp] theorem gb_0 : fld (pack [(6, op.toNat), (4, a.toNat), (4, b.toNat), (12, 0), (6, t.toNat)]) 0 6 = t := by
  apply BitVec.eq_of_toNat_eq; simp only [fld_toNat, gb_word]; have := op.isLt; have := a.isLt; have := b.isLt; have := t.isLt; omega
end words_gb

section words_gbr
variable (op : BitVec 6) (t : BitVec 6)
theorem gbr_word : (pack [(6, op.toNat), (20, 0), (6, t.toNat)] : BitVec 32).toNat = op.toNat * 2 ^ 26 + t.toNat := by
  have := op.isLt; have := t.isLt
  simp only [pack_toNat, packNat, List.map, List.sum_cons, List.sum_nil]
  omega
@[simp] theorem gbr_26 : fld (pack [(6, op.toNat), (20, 0), (6, t.toNat)]) 26 6 = op := by
  apply BitVec.eq_of_toNat_eq; simp only [fld_toNat, gbr_word]; have := op.isLt; have := t.isLt; omega
@[simp] theorem gbr_6 : fld (pack [(6, op.toNat), (20, 0), (6, t.toNat)]) 6 20 = 0 := by
  apply BitVec.eq_of_toNat_eq; simp only [fld_toNat, gbr_word, BitVec.ofNat_eq_ofNat, BitVec.toNat_ofNat, Nat.zero_mod]; have := op.isLt; have := t.isLt; omega
@[simp] theorem gbr_0 : fld (pack [(6, op.toNat), (20, 0), (6, t.toNat)]) 0 6 = t := by
  apply BitVec.eq_of_toNat_eq; simp only [fld_toNat, gbr_word]; have := op.isLt; have := t.isLt; omega
end words_gbr

section words_gfire
variable (op : BitVec 6) (a : BitVec 4) (t : BitVec 4)
theorem gfire_word : (pack [(6, op.toNat), (4, 0), (4, a.toNat), (14, 0), (4, t.toNat)] : BitVec 32).toNat = op.toNat * 2 ^ 26 + a.toNat * 2 ^ 18 + t.toNat := by
  have := op.isLt; have := a.isLt; have := t.isLt
  simp only [pack_toNat, packNat, List.map, List.sum_cons, List.sum_nil]
  omega
@[simp] theorem gfire_26 : fld (pack [(6, op.toNat), (4, 0), (4, a.toNat), (14, 0), (4, t.toNat)]) 26 6 = op := by
  apply BitVec.eq_of_toNat_eq; simp only [fld_toNat, gfire_word]; have := op.isLt; have := a.isLt; have := t.isLt; omega
@[simp] theorem gfire_22 : fld (pack [(6, op.toNat), (4, 0), (4, a.toNat), (14, 0), (4, t.toNat)]) 22 4 = 0 := by
  apply BitVec.eq_of_toNat_eq; simp only [fld_toNat, gfire_word, BitVec.ofNat_eq_ofNat, BitVec.toNat_ofNat, Nat.zero_mod]; have := op.isLt; have := a.isLt; have := t.isLt; omega
@[simp] theorem gfire_18 : fld (pack [(6, op.toNat), (4, 0), (4, a.toNat), (14, 0), (4, t.toNat)]) 18 4 = a := by
  apply BitVec.eq_of_toNat_eq; simp only [fld_toNat, gfire_word]; have := op.isLt; have := a.isLt; have := t.isLt; omega
@[simp] theorem gfire_4 : fld (pack [(6, op.toNat), (4, 0), (4, a.toNat), (14, 0), (4, t.toNat)]) 4 14 = 0 := by
  apply BitVec.eq_of_toNat_eq; simp only [fld_toNat, gfire_word, BitVec.ofNat_eq_ofNat, BitVec.toNat_ofNat, Nat.zero_mod]; have := op.isLt; have := a.isLt; have := t.isLt; omega
@[simp] theorem gfire_0 : fld (pack [(6, op.toNat), (4, 0), (4, a.toNat), (14, 0), (4, t.toNat)]) 0 4 = t := by
  apply BitVec.eq_of_toNat_eq; simp only [fld_toNat, gfire_word]; have := op.isLt; have := a.isLt; have := t.isLt; omega
end words_gfire

section words_gend
variable (op : BitVec 6)
theorem gend_word : (pack [(6, op.toNat), (26, 0)] : BitVec 32).toNat = op.toNat * 2 ^ 26 := by
  have := op.isLt
  simp only [pack_toNat, packNat, List.map, List.sum_cons, List.sum_nil]
  omega
@[simp] theorem gend_26 : fld (pack [(6, op.toNat), (26, 0)]) 26 6 = op := by
  apply BitVec.eq_of_toNat_eq; simp only [fld_toNat, gend_word]; have := op.isLt; omega
@[simp] theorem gend_0 : fld (pack [(6, op.toNat), (26, 0)]) 0 26 = 0 := by
  apply BitVec.eq_of_toNat_eq; simp only [fld_toNat, gend_word, BitVec.ofNat_eq_ofNat, BitVec.toNat_ofNat, Nat.zero_mod]; have := op.isLt; omega
end words_gend

/-! ## Codes -/

theorem okIf_true {c : Prop} [Decidable c] {i : Instr} (h : c) : okIf c i = .ok i := if_pos h
theorem code_some {α : Type} (v : α) (k : α → Dec) : code (.some v) k = k v := rfl
theorem bit_true : bit true = 1 := rfl
theorem bit_false : bit false = 0 := rfl

@[simp] theorem ctlOf_code (c : Ctl) : ctlOf c.code = c := by cases c <;> rfl
@[simp] theorem rndOf_code (c : Rnd) : rndOf c.code = c := by cases c <;> rfl
@[simp] theorem hintOf_code (c : Hint) : hintOf c.code = .some c := by cases c <;> rfl
@[simp] theorem spaceOf_code (c : Space) : spaceOf c.code = .some c := by cases c <;> rfl
@[simp] theorem widthOf_code (c : Width) : widthOf c.code = c := by cases c <;> rfl
@[simp] theorem ordKindOf_code (c : OrdKind) : ordKindOf c.code = c := by cases c <;> rfl
@[simp] theorem scopeOf_code (c : Scope) : scopeOf c.code = c := by cases c <;> rfl
@[simp] theorem hcondOf_code (c : HCond) : hcondOf c.code = .some c := by cases c <;> rfl
@[simp] theorem kindOf_code (c : Kind) : kindOf c.code = .some c := by cases c <;> rfl
@[simp] theorem atomTyOf_code (c : AtomTy) : atomTyOf c.code = .some c := by cases c <;> rfl
@[simp] theorem atomOrdOf_code (c : AtomOrd) : atomOrdOf c.code = .some c := by cases c <;> rfl
@[simp] theorem sysRegOf_code (c : SysReg) : sysRegOf c.code = .some c := by
  cases c with
  | amax k => revert k; decide
  | _ => rfl
@[simp] theorem isOne_bit (b : Bool) : isOne (bit b) = b := by cases b <;> rfl
@[simp] theorem hi3_up3 (p : BitVec 3) : hi3 (up3 p) = p := by revert p; decide
@[simp] theorem lo3_up3 (p : BitVec 3) : lo3 (up3 p) = 0 := by revert p; decide
theorem srcA_wordR {s : BitVec 1} {maj d b : BitVec 6} {cb : BitVec 2} {mn : BitVec 3} (a : Src) :
    srcA (wordR s maj d a.r b a.c.code cb mn) = a := by simp [srcA]
theorem srcB_wordR {s : BitVec 1} {maj d a : BitVec 6} {ca : BitVec 2} {mn : BitVec 3} (b : Src) :
    srcB (wordR s maj d a b.r ca b.c.code mn) = b := by simp [srcB]

/-! ## What the readers make of the encoder's words -/

theorem lr2D_enc {s : BitVec 1} {maj : BitVec 6} {mn : BitVec 3} (k) (d : BitVec 6) (a b : Src) :
    lr2D k (wordR s maj d a.r b.r a.c.code b.c.code mn) = .ok (k d a b) := by
  simp [lr2D, srcA, srcB, srcC]

theorem lr1D_enc {s : BitVec 1} {maj : BitVec 6} {mn : BitVec 3} (k) (d : BitVec 6) (a : Src) :
    lr1D k (wordR s maj d a.r 0 a.c.code 0 mn) = .ok (k d a) := by
  unfold lr1D; exact (okIf_true (by simp)).trans (by simp [srcA, srcB, srcC])

theorem a1D_enc {s : BitVec 1} {maj : BitVec 6} {mn : BitVec 3} (k) (a : Src) :
    a1D k (wordR s maj 0 a.r 0 a.c.code 0 mn) = .ok (k a) := by
  unfold a1D; exact (okIf_true (by simp)).trans (by simp [srcA, srcB, srcC])

theorem noneD_enc {s : BitVec 1} {maj : BitVec 6} {mn : BitVec 3} (k) :
    noneD k (wordR s maj 0 0 0 0 0 mn) = .ok k := by
  unfold noneD; exact (okIf_true (by simp)).trans (by simp [srcA, srcB, srcC])

theorem pd2D_enc {s : BitVec 1} {maj : BitVec 6} {mn : BitVec 3} (k) (p : BitVec 3) (a b : Src) :
    pd2D k (wordR s maj (up3 p) a.r b.r a.c.code b.c.code mn) = .ok (k p a b) := by
  unfold pd2D; exact (okIf_true (by simp)).trans (by simp [srcA, srcB, srcC])

theorem p3D_enc {s : BitVec 1} {maj : BitVec 6} {mn : BitVec 3} (k) (p q r : BitVec 3) :
    p3D k (wordR s maj (up3 p) (up3 q) (up3 r) 0 0 mn) = .ok (k p q r) := by
  unfold p3D; exact (okIf_true (by simp)).trans (by simp [srcA, srcB, srcC])

theorem p2D_enc {s : BitVec 1} {maj : BitVec 6} {mn : BitVec 3} (k) (p q : BitVec 3) :
    p2D k (wordR s maj (up3 p) (up3 q) 0 0 0 mn) = .ok (k p q) := by
  unfold p2D; exact (okIf_true (by simp)).trans (by simp [srcA, srcB, srcC])

theorem krD_enc {s : BitVec 1} {maj : BitVec 6} (k) (d : BitVec 6) (a b : Src) (n : BitVec 3) :
    krD k (wordR s maj d a.r b.r a.c.code b.c.code n) = .ok (k d a b n) := by
  simp [krD, srcA, srcB, srcC]

theorem liD_enc {s : BitVec 1} {maj : BitVec 6} (k) (d : BitVec 6) (a : Src) (i : BitVec 11) :
    liD k (wordI s maj d a.r a.c.code i) = .ok (k d a i) := by
  simp [liD, srcA, srcB, srcC, Word.d, Word.a]

theorem lbD_enc {s : BitVec 1} {maj : BitVec 6} (k) (p : BitVec 3) (n : Bool) (t : BitVec 21) :
    lbD k (wordB s maj p (bit n) t) = .ok (k p n t) := by
  simp [lbD, srcA, srcB, srcC]

theorem movD_enc {s : BitVec 1} {maj : BitVec 6} {mn : BitVec 3} (k) (d : BitVec 6) (a : Src) (u : Bool) :
    movD k (wordR s maj d a.r ((0 : BitVec 5) ++ bit u) a.c.code 0 mn) = .ok (k d a u) := by
  unfold movD; exact (okIf_true (by cases u <;> simp [bit])).trans (by cases u <;> simp [srcA, bit, isOne])

theorem mcD_enc {s : BitVec 1} {maj : BitVec 6} {mn : BitVec 3} (k) (d : BitVec 6) (i : BitVec 24) :
    mcD k (wordR s maj d 0 0 0 0 mn) (wordX 0 0 i) = .ok (k d i) := by
  unfold mcD; exact (okIf_true (by simp [Word.vc, Word.cc, Word.ext])).trans (by simp [srcA, srcB, srcC, Word.vc, Word.cc, Word.ext])

theorem mchD_enc {s : BitVec 1} {maj : BitVec 6} {mn : BitVec 3} (k) (d : BitVec 6) (i : BitVec 16) :
    mchD k (wordR s maj d 0 0 0 0 mn) (pack [(16, 0), (16, i.toNat)]) = .ok (k d i) := by
  unfold mchD; exact (okIf_true (by simp [Word.vc, Word.cc, Word.ext])).trans (by simp [srcA, srcB, srcC, Word.vc, Word.cc, Word.ext])

theorem rdsrD_enc {s : BitVec 1} {maj : BitVec 6} (k) (d : BitVec 6) (r : BitVec 3) :
    rdsrD k (wordR s maj d 0 0 0 0 r) = .ok (k d r) := by
  unfold rdsrD; exact (okIf_true (by simp)).trans (by simp [srcA, srcB, srcC])

theorem ballotD_enc {s : BitVec 1} {maj : BitVec 6} {mn : BitVec 3} (k) (d : BitVec 6) (p : BitVec 3) :
    ballotD k (wordR s maj d (up3 p) 0 0 0 mn) = .ok (k d p) := by
  unfold ballotD; exact (okIf_true (by simp)).trans (by simp [srcA, srcB, srcC])

theorem fmaD_enc {s : BitVec 1} {maj : BitVec 6} {mn : BitVec 3} (k) (d : BitVec 6) (a b c : Src) (m : FMod) :
    fmaD k (wordR s maj d a.r b.r a.c.code b.c.code mn)
      (pack [(6, c.r.toNat), (2, c.c.code.toNat), (21, 0), (1, (bit m.ftz).toNat), (2, m.rnd.code.toNat)]) = .ok (k d a b c m) := by
  unfold fmaD; exact (okIf_true (by simp [fmodOf, Word.vc, Word.cc])).trans (by simp [srcA, srcB, srcC, fmodOf, Word.vc, Word.cc])

theorem long2D_enc {s : BitVec 1} {maj : BitVec 6} {ty op : BitVec 3} (k) (d : BitVec 6) (a b : Src) (m : FMod) :
    long2D k (wordR s maj d a.r b.r a.c.code b.c.code ty) (wordL op m.ftz m.rnd.code) = .ok (k d a b m) := by
  unfold long2D; exact (okIf_true (by simp [fmodOf, wordL])).trans (by simp [srcA, srcB, srcC, fmodOf, wordL])

theorem long1D_enc {s : BitVec 1} {maj : BitVec 6} {ty op : BitVec 3} (k) (d : BitVec 6) (a : Src) (m : FMod) :
    long1D k (wordR s maj d a.r 0 a.c.code 0 ty) (wordL op m.ftz m.rnd.code) = .ok (k d a m) := by
  unfold long1D; exact (okIf_true (by simp [fmodOf, wordL])).trans (by simp [srcA, srcB, srcC, fmodOf, wordL])

theorem wordL0_rnd (op : BitVec 3) (z : Bool) : fld (wordL op z 0) 0 2 = 0 := wordL_0 op (bit z) 0
theorem wordL_z (op : BitVec 3) (z : Bool) (r : BitVec 2) : fld (wordL op z r) 2 1 = bit z := wordL_2 op (bit z) r
theorem wordL_op (op : BitVec 3) (z : Bool) (r : BitVec 2) : fld (wordL op z r) 3 3 = op := wordL_3 op (bit z) r

theorem longMMD_enc {s : BitVec 1} {maj : BitVec 6} {ty op : BitVec 3} (k) (d : BitVec 6) (a b : Src) (z : Bool) :
    longMMD k (wordR s maj d a.r b.r a.c.code b.c.code ty) (wordL op z 0) = .ok (k d a b z) := by
  unfold longMMD; exact (okIf_true ⟨wordL_6 op (bit z) 0, wordL0_rnd op z⟩).trans (by simp [srcA, srcB, wordL_z])

theorem cvtD_enc {s : BitVec 1} {maj : BitVec 6} {mn : BitVec 3} (k) (d : BitVec 6) (a : Src) (m : CvtMod) :
    cvtD k (wordR s maj d a.r 0 a.c.code 0 mn)
      (pack [(13, 0), (4, m.dk.code.toNat), (4, m.sk.code.toNat), (4, m.part.toNat), (3, m.slot.toNat), (1, (bit m.satf).toNat),
         (1, (bit m.ftz).toNat), (2, m.rnd.code.toNat)]) = .ok (k d a m) := by
  unfold cvtD; simp only [cvt_15, cvt_11, kindOf_code, code_some]; exact (okIf_true (by simp)).trans (by simp [srcA, srcB, srcC])

section
variable (p : BitVec 3) (sp wd h : BitVec 2) (ck : BitVec 1) (off : BitVec 14)
@[simp] theorem wm29 : fld (wordM p sp wd h ck off) 29 3 = p := wordM_29 p sp wd h ck off
@[simp] theorem wm22 : fld (wordM p sp wd h ck off) 22 2 = sp := wordM_22 p sp wd h ck off
@[simp] theorem wm20 : fld (wordM p sp wd h ck off) 20 2 = wd := wordM_20 p sp wd h ck off
@[simp] theorem wm18 : fld (wordM p sp wd h ck off) 18 2 = h := wordM_18 p sp wd h ck off
@[simp] theorem wm17 : fld (wordM p sp wd h ck off) 17 1 = ck := wordM_17 p sp wd h ck off
@[simp] theorem wm14 : fld (wordM p sp wd h ck off) 14 3 = 0 := wordM_14 p sp wd h ck off
@[simp] theorem wm0 : fld (wordM p sp wd h ck off) 0 14 = off := wordM_0 p sp wd h ck off
@[simp] theorem wm24 : fld (wordM 0#3 sp wd h ck off) 24 8 = 0 := by
  apply BitVec.eq_of_toNat_eq
  have hw := wordM_word 0 sp wd h ck off
  simp only [BitVec.ofNat_eq_ofNat, BitVec.toNat_ofNat, Nat.zero_mod] at hw
  simp only [fld_toNat, wordM, BitVec.ofNat_eq_ofNat, BitVec.toNat_ofNat, Nat.zero_mod, hw, BitVec.ofNat_eq_ofNat, BitVec.toNat_ofNat, Nat.zero_mod]
  have := sp.isLt; have := wd.isLt; have := h.isLt; have := ck.isLt; have := off.isLt; omega
@[simp] theorem wm14b : fld (wordM p sp wd h 0#1 off) 14 4 = 0 := by
  apply BitVec.eq_of_toNat_eq
  have hw := wordM_word p sp wd h 0 off
  simp only [BitVec.ofNat_eq_ofNat, BitVec.toNat_ofNat, Nat.zero_mod] at hw
  simp only [fld_toNat, wordM, BitVec.ofNat_eq_ofNat, BitVec.toNat_ofNat, Nat.zero_mod, hw, BitVec.ofNat_eq_ofNat, BitVec.toNat_ofNat, Nat.zero_mod]
  have := sp.isLt; have := wd.isLt; have := h.isLt; have := p.isLt; have := off.isLt; omega
@[simp] theorem wm22b : fld (wordM p 0#2 wd h ck off) 22 7 = 0 := by
  apply BitVec.eq_of_toNat_eq
  have hw := wordM_word p 0 wd h ck off
  simp only [BitVec.ofNat_eq_ofNat, BitVec.toNat_ofNat, Nat.zero_mod] at hw
  simp only [fld_toNat, wordM, BitVec.ofNat_eq_ofNat, BitVec.toNat_ofNat, Nat.zero_mod, hw, BitVec.ofNat_eq_ofNat, BitVec.toNat_ofNat, Nat.zero_mod]
  have := p.isLt; have := wd.isLt; have := h.isLt; have := ck.isLt; have := off.isLt; omega
end

theorem ldD_of {w x : BitVec 32} (k) {d : BitVec 6} {a : Src} {m : MemMod} (h1 : fld x 22 2 = m.space.code) (h2 : fld x 18 2 = m.hint.code)
    (h3 : fld x 24 8 = 0) (h4 : fld x 14 4 = 0) (h5 : Word.b w = 0) (h6 : Word.cb w = 0) (h7 : Word.d w = d) (h8 : srcA w = a)
    (h9 : fld x 20 2 = m.width.code) (h10 : fld x 0 14 = m.off) : ldD k w x = .ok (k d a m) := by
  subst h7 h8; unfold ldD; rw [h1, spaceOf_code, code_some, h2, hintOf_code, code_some, h9, widthOf_code, h10]
  exact okIf_true ⟨h3, h4, h5, h6⟩
theorem ldD_enc {s : BitVec 1} {maj : BitVec 6} {mn : BitVec 3} (k) (d : BitVec 6) (a : Src) (m : MemMod) :
    ldD k (wordR s maj d a.r 0 a.c.code 0 mn) (wordM 0 m.space.code m.width.code m.hint.code 0 m.off) = .ok (k d a m) :=
  ldD_of k (wm22 ..) (wm18 ..) (wm24 ..) (wm14b ..) (wordR_b ..) (wordR_cb ..) (wordR_d ..) (srcA_wordR a) (wm20 ..) (wm0 ..)

theorem stD_of {w x : BitVec 32} (k) {a b : Src} {m : MemMod} (h1 : fld x 22 2 = m.space.code) (h2 : fld x 18 2 = m.hint.code)
    (h3 : fld x 24 8 = 0) (h4 : fld x 14 4 = 0) (h5 : Word.d w = 0) (h7 : srcA w = a) (h8 : srcB w = b)
    (h9 : fld x 20 2 = m.width.code) (h10 : fld x 0 14 = m.off) : stD k w x = .ok (k a b m) := by
  subst h7 h8; unfold stD; rw [h1, spaceOf_code, code_some, h2, hintOf_code, code_some, h9, widthOf_code, h10]
  exact okIf_true ⟨h3, h4, h5⟩
theorem stD_enc {s : BitVec 1} {maj : BitVec 6} {mn : BitVec 3} (k) (a b : Src) (m : MemMod) :
    stD k (wordR s maj 0 a.r b.r a.c.code b.c.code mn) (wordM 0 m.space.code m.width.code m.hint.code 0 m.off) = .ok (k a b m) :=
  stD_of k (wm22 ..) (wm18 ..) (wm24 ..) (wm14b ..) (wordR_d ..) (srcA_wordR a) (srcB_wordR b) (wm20 ..) (wm0 ..)

theorem ldeD_of {w x : BitVec 32} (k) {d : BitVec 6} {a b : Src} {wd : Width} {h : Hint} {c : Option (BitVec 3)} {o : BitVec 14}
    (h2 : fld x 18 2 = h.code) (h3 : fld x 22 7 = 0) (h4 : fld x 14 3 = 0) (h5 : fld x 17 1 = bit c.isSome)
    (h6 : fld x 29 3 = c.getD 0) (h7 : Word.d w = d) (h8 : srcA w = a) (h9 : srcB w = b)
    (h10 : fld x 20 2 = wd.code) (h11 : fld x 0 14 = o) : ldeD k w x = .ok (k d a b ⟨wd, h, c, o⟩) := by
  subst h7 h8 h9; unfold ldeD; rw [h2, hintOf_code, code_some, h10, widthOf_code, h11, h5, h6, isOne_bit]
  cases c with
  | none => exact okIf_true ⟨h3, h4, fun _ => rfl⟩
  | some c => exact okIf_true ⟨h3, h4, fun h => absurd h (by simp [bit])⟩
theorem ldeD_enc {s : BitVec 1} {maj : BitVec 6} {mn : BitVec 3} (k) (d : BitVec 6) (a b : Src) (m : LdeMod) :
    ldeD k (wordR s maj d a.r b.r a.c.code b.c.code mn)
      (wordM (m.chk.getD 0) 0 m.width.code m.hint.code (bit m.chk.isSome) m.off) = .ok (k d a b m) :=
  ldeD_of k (wm18 ..) (wm22b ..) (wm14 ..) (wm17 ..) (wm29 ..) (wordR_d ..) (srcA_wordR a) (srcB_wordR b) (wm20 ..) (wm0 ..)

theorem pfD_of {w x : BitVec 32} (k) {a : Src} {m : PfMod} (h1 : fld x 22 2 = m.space.code) (h2 : fld x 18 2 = m.hint.code)
    (h3 : fld x 24 8 = 0) (h4 : fld x 20 2 = 0) (h5 : fld x 14 4 = 0) (h6 : Word.d w = 0) (h7 : Word.b w = 0) (h8 : Word.cb w = 0)
    (h9 : srcA w = a) (h10 : fld x 0 14 = m.off) : pfD k w x = .ok (k a m) := by
  subst h9; unfold pfD; rw [h1, spaceOf_code, code_some, h2, hintOf_code, code_some, h10]
  exact okIf_true ⟨h3, h4, h5, h6, h7, h8⟩
theorem pfD_enc {s : BitVec 1} {maj : BitVec 6} {mn : BitVec 3} (k) (a : Src) (m : PfMod) :
    pfD k (wordR s maj 0 a.r 0 a.c.code 0 mn) (wordM 0 m.space.code 0 m.hint.code 0 m.off) = .ok (k a m) :=
  pfD_of k (wm22 ..) (wm18 ..) (wm24 ..) (wm20 ..) (wm14b ..) (wordR_d ..) (wordR_b ..) (wordR_cb ..) (srcA_wordR a) (wm0 ..)

theorem atomD_enc {s : BitVec 1} {maj : BitVec 6} {mn : BitVec 3} (k) (d : BitVec 6) (a b : Src) (m : AtomMod) :
    atomD k (wordR s maj d a.r b.r a.c.code b.c.code mn) (wordA 0 0 m) = .ok (k d a b m) := by
  simp only [atomD, atomModOf, wordA, code_some, Word.vc, Word.cc, wordA_22, wordA_19, wordA_13, spaceOf_code, atomTyOf_code, atomOrdOf_code, wordA_16, wordA_0, wordA_26, wordA_24]; exact (okIf_true (by simp)).trans (by simp [srcA, srcB])

theorem casD_enc {s : BitVec 1} {maj : BitVec 6} {mn : BitVec 3} (k) (d : BitVec 6) (a b c : Src) (m : AtomMod) :
    casD k (wordR s maj d a.r b.r a.c.code b.c.code mn) (wordA c.r c.c.code m) = .ok (k d a b c m) := by
  unfold casD; simp only [atomModOf, wordA, wordA_22, wordA_19, wordA_13, spaceOf_code, atomTyOf_code, atomOrdOf_code, code_some]; simp [srcA, srcB, srcC, Word.vc, Word.cc]

theorem recvD_enc {s : BitVec 1} {maj : BitVec 6} {mn : BitVec 3} (k) (d n : BitVec 6) :
    recvD k (wordR s maj d n 0 0 0 mn) = .ok (k d n) := by
  unfold recvD; exact (okIf_true (by simp)).trans (by simp [srcA, srcB, srcC])

theorem sendD_enc {s : BitVec 1} {maj : BitVec 6} {mn : BitVec 3} (k) (n : BitVec 6) (b : Src) :
    sendD k (wordR s maj 0 n b.r 0 b.c.code mn) = .ok (k n b) := by
  unfold sendD; exact (okIf_true (by simp)).trans (by simp [srcA, srcB, srcC])

theorem mmarD_enc {s : BitVec 1} {maj : BitVec 6} {mn : BitVec 3} (k) (d : BitVec 6) (a b : Src) (fa fb : BitVec 3) :
    mmarD k (wordR s maj d a.r b.r a.c.code b.c.code mn) (pack [(26, 0), (3, fb.toNat), (3, fa.toNat)]) = .ok (k d a b fa fb) := by
  unfold mmarD; exact (okIf_true (by simp)).trans (by simp [srcA, srcB, srcC])

theorem copenD_enc {s : BitVec 1} {maj : BitVec 6} {mn : BitVec 3} (k) (d : BitVec 6) (a : Src) (l : Bool) (h : BitVec 7) :
    copenD k (wordR s maj d a.r 0 a.c.code 0 mn) (pack [(24, 0), (1, (bit l).toNat), (7, h.toNat)]) = .ok (k d a l h) := by
  unfold copenD; exact (okIf_true (by simp)).trans (by simp [srcA, srcB, srcC])

theorem caddD_enc {s : BitVec 1} {maj : BitVec 6} {mn : BitVec 3} (k) (p : BitVec 3) (a b c : Src) (n : Option (BitVec 6)) :
    caddD k (wordR s maj (up3 p) a.r b.r a.c.code b.c.code mn)
      (pack [(6, c.r.toNat), (2, c.c.code.toNat), (1, (bit n.isSome).toNat), (1, 0), (6, (n.getD 0).toNat), (16, 0)]) = .ok (k p a b c n) := by
  simp only [caddD, Word.vc, Word.cc, srcC, cadd_26, cadd_24, cadd_23, cadd_22, cadd_16, cadd_0]; cases n <;> exact (okIf_true (by simp [bit])).trans (by simp [srcA, srcB, bit, isOne])

theorem a1xD_enc {s : BitVec 1} {maj : BitVec 6} {mn : BitVec 3} (k) (a : Src) :
    a1xD k (wordR s maj 0 a.r 0 a.c.code 0 mn) 0 = .ok (k a) := by
  unfold a1xD; exact (okIf_true (by simp)).trans (by simp [srcA, srcB, srcC])

theorem lr1xD_enc {s : BitVec 1} {maj : BitVec 6} {mn : BitVec 3} (k) (d : BitVec 6) (a : Src) :
    lr1xD k (wordR s maj d a.r 0 a.c.code 0 mn) 0 = .ok (k d a) := by
  unfold lr1xD; exact (okIf_true (by simp)).trans (by simp [srcA, srcB, srcC])

theorem lr2xD_enc {s : BitVec 1} {maj : BitVec 6} {mn : BitVec 3} (k) (d : BitVec 6) (a b : Src) :
    lr2xD k (wordR s maj d a.r b.r a.c.code b.c.code mn) 0 = .ok (k d a b) := by
  unfold lr2xD; exact (okIf_true (by simp)).trans (by simp [srcA, srcB, srcC])

theorem creadD_enc {s : BitVec 1} {maj : BitVec 6} {mn : BitVec 3} (k) (d : BitVec 6) (a : Src) (n : BitVec 3) :
    creadD k (wordR s maj d a.r 0 a.c.code 0 mn) (pack [(29, 0), (3, n.toNat)]) = .ok (k d a n) := by
  unfold creadD; exact (okIf_true (by simp)).trans (by simp [srcA, srcB, srcC])

theorem creplayD_enc {s : BitVec 1} {maj : BitVec 6} {mn : BitVec 3} (k) (d : BitVec 6) (a b : Src) (x : BitVec 16) (h : BitVec 7) :
    creplayD k (wordR s maj d a.r b.r a.c.code b.c.code mn) (pack [(9, 0), (7, h.toNat), (16, x.toNat)]) = .ok (k d a b x h) := by
  unfold creplayD; exact (okIf_true (by simp)).trans (by simp [srcA, srcB, srcC])

theorem fenceD_enc {s : BitVec 1} {maj : BitVec 6} (k) (o : OrdKind) (c : Scope) :
    fenceD k (pack [(1, s.toNat), (6, maj.toNat), (4, 0), (2, o.code.toNat), (16, 0), (3, c.code.toNat)]) = .ok (k o c) := by
  unfold fenceD; exact (okIf_true (by simp [Word.minor])).trans (by simp [srcA, srcB, srcC, Word.minor])

theorem waithD_of {w : BitVec 32} (k) {c : HCond} {n : BitVec 7} (h1 : fld w 7 2 = c.code) (h2 : fld w 9 16 = 0) (h3 : fld w 0 7 = n) :
    waithD k w = .ok (k c n) := by
  subst h3; unfold waithD; rw [h1, hcondOf_code]; exact okIf_true h2
theorem waithD_enc {s : BitVec 1} {maj : BitVec 6} (k) (c : HCond) (n : BitVec 7) :
    waithD k (pack [(1, s.toNat), (6, maj.toNat), (16, 0), (2, c.code.toNat), (7, n.toNat)]) = .ok (k c n) :=
  waithD_of k (waith_7 s maj c.code n) (waith_9 s maj c.code n) (waith_0 s maj c.code n)

theorem send_uD1_enc {s : BitVec 1} {maj : BitVec 6} {mn : BitVec 3} (k) (n : BitVec 6) (a b : Src) :
    send_uD k (wordR s maj 0 a.r b.r a.c.code b.c.code mn) (wordC n false) = .ok (k n a (.some b)) := by
  simp only [send_uD, wordC, wordC_24, wordC_18, wordC_17, wordC_0]; exact (okIf_true (by simp [bit])).trans (by simp [srcA, srcB, bit, isOne])

theorem send_uD0_enc {s : BitVec 1} {maj : BitVec 6} {mn : BitVec 3} (k) (n : BitVec 6) (a : Src) :
    send_uD k (wordR s maj 0 a.r 0 a.c.code 0 mn) (wordC n true) = .ok (k n a .none) := by
  simp only [send_uD, wordC, wordC_24, wordC_18, wordC_17, wordC_0]; exact (okIf_true (by simp [bit])).trans (by simp [srcA, srcB, bit, isOne])

theorem recv_uD1_enc {s : BitVec 1} {maj : BitVec 6} {mn : BitVec 3} (k) (d n : BitVec 6) (a b : Src) :
    recv_uD k (wordR s maj d a.r b.r a.c.code b.c.code mn) (wordC n false) = .ok (k d n (.some (a, b))) := by
  simp only [recv_uD, wordC, wordC_24, wordC_18, wordC_17, wordC_0]; exact (okIf_true (by simp [bit])).trans (by simp [srcA, srcB, bit, isOne])

theorem recv_uD0_enc {s : BitVec 1} {maj : BitVec 6} {mn : BitVec 3} (k) (d n : BitVec 6) :
    recv_uD k (wordR s maj d 0 0 0 0 mn) (wordC n true) = .ok (k d n .none) := by
  simp only [recv_uD, wordC, wordC_24, wordC_18, wordC_17, wordC_0]; exact (okIf_true (by simp [bit])).trans (by simp [srcA, srcB, bit, isOne])

theorem launchD_enc {s : BitVec 1} {maj : BitVec 6} {mn : BitVec 3} (k) (q : BitVec 3) (d : BitVec 6) (a b : Src) (n : BitVec 2) :
    launchD k (wordR s maj d a.r b.r a.c.code b.c.code mn) (pack [(8, 0), (3, q.toNat), (2, n.toNat), (19, 0)]) = .ok (k q d a b n) := by
  unfold launchD; exact (okIf_true (by simp)).trans (by simp [srcA, srcB, srcC])

theorem mmasnD_enc {s : BitVec 1} {maj : BitVec 6} {mn : BitVec 3} (k) (v : BitVec 6) (a b : Src) (n : BitVec 4) :
    mmasnD k (wordR s maj 0 a.r b.r a.c.code b.c.code mn) (pack [(8, 0), (6, v.toNat), (4, n.toNat), (14, 0)]) = .ok (k v a b n) := by
  unfold mmasnD; exact (okIf_true (by simp)).trans (by simp [srcA, srcB, srcC])

section
variable (k : BitVec 1)
theorem acc2 : fld (pack [(30, 0), (1, k.toNat), (1, 1)]) 2 30 = 0 := accrel_2 k 1
theorem acc1 : fld (pack [(30, 0), (1, k.toNat), (1, 1)]) 1 1 = k := accrel_1 k 1
theorem acc0 : fld (pack [(30, 0), (1, k.toNat), (1, 1)]) 0 1 = 1 := accrel_0 k 1
end

theorem accrelD1_enc {s : BitVec 1} {maj : BitVec 6} {mn : BitVec 3} (k) (d : BitVec 6) (n : Bool) (b : Src) :
    accrelD k (wordR s maj d 0 b.r 0 b.c.code mn) (pack [(30, 0), (1, (bit n).toNat), (1, 1)]) = .ok (k d (.some (n, b))) := by
  simp only [accrelD, acc2, acc1, acc0]; exact (okIf_true (by simp)).trans (by cases n <;> simp [srcB, isOne, bit])

theorem accrelD0_enc {s : BitVec 1} {maj : BitVec 6} {mn : BitVec 3} (k) (d : BitVec 6) :
    accrelD k (wordR s maj d 0 0 0 0 mn) 0 = .ok (k d .none) := by
  unfold accrelD; exact (okIf_true (by simp [fld])).trans (by simp [isOne, fld])

theorem trapD_enc {s : BitVec 1} {maj : BitVec 6} {mn : BitVec 3} (k) (c : BitVec 12) :
    trapD k (pack [(1, s.toNat), (6, maj.toNat), (6, 0), (12, c.toNat), (4, 0), (3, mn.toNat)]) = .ok (k c) := by
  simp only [trapD, Word.d, Word.ca, Word.cb, trap_19, trap_7, trap_5, trap_3]; exact (okIf_true (by simp)).trans rfl

theorem rdsysD_of {w : BitVec 32} (k) {d : BitVec 6} {r : SysReg} {n : Bool} (h1 : Word.b w = r.code) (h2 : Word.a w = 0)
    (h3 : fld w 6 1 = 0) (h4 : Word.cb w = 0) (h5 : Word.d w = d) (h6 : fld w 5 1 = bit n) : rdsysD k w = .ok (k d r n) := by
  subst h5; unfold rdsysD; rw [h1, sysRegOf_code, code_some, h6, isOne_bit]; exact okIf_true ⟨h2, h3, h4⟩
theorem rdsysD_enc {s : BitVec 1} {maj : BitVec 6} {mn : BitVec 3} (k) (d : BitVec 6) (r : SysReg) (n : Bool) :
    rdsysD k (wordR s maj d 0 r.code ((0 : BitVec 1) ++ bit n) 0 mn) = .ok (k d r n) := by
  apply rdsysD_of k (wordR_b ..) (wordR_a ..) ?_ (wordR_cb ..) (wordR_d ..) ?_
  all_goals
    apply BitVec.eq_of_toNat_eq; simp only [fld_toNat, wordR_toNat, BitVec.ofNat_eq_ofNat, BitVec.toNat_ofNat, Nat.zero_mod]
    have := s.isLt; have := maj.isLt; have := d.isLt; have := r.code.isLt; have := mn.isLt
    cases n <;> simp [bit] <;> omega

theorem wrsysD_of {w : BitVec 32} (k) {r : SysReg} {a : Src} (h1 : Word.b w = r.code) (h2 : Word.d w = 0) (h3 : Word.cb w = 0)
    (h4 : srcA w = a) : wrsysD k w = .ok (k r a) := by
  subst h4; unfold wrsysD; rw [h1, sysRegOf_code]; exact okIf_true ⟨h2, h3⟩
theorem wrsysD_enc {s : BitVec 1} {maj : BitVec 6} {mn : BitVec 3} (k) (r : SysReg) (a : Src) :
    wrsysD k (wordR s maj 0 a.r r.code a.c.code 0 mn) = .ok (k r a) :=
  wrsysD_of k (wordR_b ..) (wordR_d ..) (wordR_cb ..) (srcA_wordR a)

theorem grD_enc {op : BitVec 6} (k) (d a b : BitVec 4) :
    grD k (pack [(6, op.toNat), (4, d.toNat), (4, a.toNat), (4, b.toNat), (14, 0)]) = .ok (k d a b) := by
  unfold grD; exact (okIf_true (by simp)).trans (by simp [srcA, srcB, srcC])

theorem giD_enc {op : BitVec 6} (k) (d a : BitVec 4) (i : BitVec 18) :
    giD k (pack [(6, op.toNat), (4, d.toNat), (4, a.toNat), (18, i.toNat)]) = .ok (k d a i) := by
  simp [giD, srcA, srcB, srcC]

theorem gmoviD_of {w : BitVec 32} (k) {d : BitVec 4} {i : BitVec 18} (h1 : fld w 18 4 = 0) (h2 : fld w 22 4 = d) (h3 : fld w 0 18 = i) :
    gmoviD k w = .ok (k d i) := by subst h2 h3; exact okIf_true h1
theorem gmoviD_enc {op : BitVec 6} (k) (d : BitVec 4) (i : BitVec 18) :
    gmoviD k (pack [(6, op.toNat), (4, d.toNat), (4, 0), (18, i.toNat)]) = .ok (k d i) :=
  gmoviD_of k (gmovi_18 op d i) (gmovi_22 op d i) (gmovi_0 op d i)

theorem gbD_enc {op : BitVec 6} (k) (a b : BitVec 4) (t : BitVec 6) :
    gbD k (pack [(6, op.toNat), (4, a.toNat), (4, b.toNat), (12, 0), (6, t.toNat)]) = .ok (k a b t) := by
  unfold gbD; exact (okIf_true (by simp)).trans (by simp [srcA, srcB, srcC])

theorem gbrD_enc {op : BitVec 6} (k) (t : BitVec 6) :
    gbrD k (pack [(6, op.toNat), (20, 0), (6, t.toNat)]) = .ok (k t) := by
  unfold gbrD; exact (okIf_true (by simp)).trans (by simp [srcA, srcB, srcC])

theorem gfireD_enc {op : BitVec 6} (k) (a t : BitVec 4) :
    gfireD k (pack [(6, op.toNat), (4, 0), (4, a.toNat), (14, 0), (4, t.toNat)]) = .ok (k a t) := by
  unfold gfireD; exact (okIf_true (by simp)).trans (by simp [srcA, srcB, srcC])

theorem gendD_enc {op : BitVec 6} (k) :
    gendD k (pack [(6, op.toNat), (26, 0)]) = .ok k := by
  unfold gendD; exact (okIf_true (by simp)).trans (by simp [srcA, srcB, srcC])

end Sys2Proof
end

