-- ==== Sys2Proof/Laws/PerInstr.lean ====
section
/-! SUPPORT. The cells of the maps of R44, R45 and R335 that the decoder comes to, and the round trip of every instruction: what its
encoding decodes to. -/

namespace Sys2Proof
open Word

/-! ## Cells -/

theorem laneCell_addI64 {w x : BitVec 32} (h : Word.major w = 0x01) (m : Word.minor w = 0) : laneCell w x = lr2D .addI64 w := by
  unfold laneCell; rw [h, m]; rfl
theorem laneCell_subI64 {w x : BitVec 32} (h : Word.major w = 0x01) (m : Word.minor w = 1) : laneCell w x = lr2D .subI64 w := by
  unfold laneCell; rw [h, m]; rfl
theorem laneCell_addI32 {w x : BitVec 32} (h : Word.major w = 0x01) (m : Word.minor w = 2) : laneCell w x = lr2D .addI32 w := by
  unfold laneCell; rw [h, m]; rfl
theorem laneCell_subI32 {w x : BitVec 32} (h : Word.major w = 0x01) (m : Word.minor w = 3) : laneCell w x = lr2D .subI32 w := by
  unfold laneCell; rw [h, m]; rfl
theorem laneCell_addN32 {w x : BitVec 32} (h : Word.major w = 0x01) (m : Word.minor w = 4) : laneCell w x = lr2D .addN32 w := by
  unfold laneCell; rw [h, m]; rfl
theorem laneCell_subN32 {w x : BitVec 32} (h : Word.major w = 0x01) (m : Word.minor w = 5) : laneCell w x = lr2D .subN32 w := by
  unfold laneCell; rw [h, m]; rfl
theorem laneCell_addI64Sat {w x : BitVec 32} (h : Word.major w = 0x01) (m : Word.minor w = 6) : laneCell w x = lr2D .addI64Sat w := by
  unfold laneCell; rw [h, m]; rfl
theorem laneCell_subI64Sat {w x : BitVec 32} (h : Word.major w = 0x01) (m : Word.minor w = 7) : laneCell w x = lr2D .subI64Sat w := by
  unfold laneCell; rw [h, m]; rfl
theorem laneCell_addN64Sat {w x : BitVec 32} (h : Word.major w = 0x02) (m : Word.minor w = 0) : laneCell w x = lr2D .addN64Sat w := by
  unfold laneCell; rw [h, m]; rfl
theorem laneCell_subN64Sat {w x : BitVec 32} (h : Word.major w = 0x02) (m : Word.minor w = 1) : laneCell w x = lr2D .subN64Sat w := by
  unfold laneCell; rw [h, m]; rfl
theorem laneCell_addI32Sat {w x : BitVec 32} (h : Word.major w = 0x02) (m : Word.minor w = 2) : laneCell w x = lr2D .addI32Sat w := by
  unfold laneCell; rw [h, m]; rfl
theorem laneCell_subI32Sat {w x : BitVec 32} (h : Word.major w = 0x02) (m : Word.minor w = 3) : laneCell w x = lr2D .subI32Sat w := by
  unfold laneCell; rw [h, m]; rfl
theorem laneCell_addN32Sat {w x : BitVec 32} (h : Word.major w = 0x02) (m : Word.minor w = 4) : laneCell w x = lr2D .addN32Sat w := by
  unfold laneCell; rw [h, m]; rfl
theorem laneCell_subN32Sat {w x : BitVec 32} (h : Word.major w = 0x02) (m : Word.minor w = 5) : laneCell w x = lr2D .subN32Sat w := by
  unfold laneCell; rw [h, m]; rfl
theorem laneCell_negI64 {w x : BitVec 32} (h : Word.major w = 0x02) (m : Word.minor w = 6) : laneCell w x = lr1D .negI64 w := by
  unfold laneCell; rw [h, m]; rfl
theorem laneCell_absI64 {w x : BitVec 32} (h : Word.major w = 0x02) (m : Word.minor w = 7) : laneCell w x = lr1D .absI64 w := by
  unfold laneCell; rw [h, m]; rfl
theorem laneCell_mulI64 {w x : BitVec 32} (h : Word.major w = 0x03) (m : Word.minor w = 0) : laneCell w x = lr2D .mulI64 w := by
  unfold laneCell; rw [h, m]; rfl
theorem laneCell_mulhiI64 {w x : BitVec 32} (h : Word.major w = 0x03) (m : Word.minor w = 1) : laneCell w x = lr2D .mulhiI64 w := by
  unfold laneCell; rw [h, m]; rfl
theorem laneCell_mulhiN64 {w x : BitVec 32} (h : Word.major w = 0x03) (m : Word.minor w = 2) : laneCell w x = lr2D .mulhiN64 w := by
  unfold laneCell; rw [h, m]; rfl
theorem laneCell_mulI32 {w x : BitVec 32} (h : Word.major w = 0x03) (m : Word.minor w = 3) : laneCell w x = lr2D .mulI32 w := by
  unfold laneCell; rw [h, m]; rfl
theorem laneCell_mulN32 {w x : BitVec 32} (h : Word.major w = 0x03) (m : Word.minor w = 4) : laneCell w x = lr2D .mulN32 w := by
  unfold laneCell; rw [h, m]; rfl
theorem laneCell_mulwI32 {w x : BitVec 32} (h : Word.major w = 0x03) (m : Word.minor w = 5) : laneCell w x = lr2D .mulwI32 w := by
  unfold laneCell; rw [h, m]; rfl
theorem laneCell_mulwN32 {w x : BitVec 32} (h : Word.major w = 0x03) (m : Word.minor w = 6) : laneCell w x = lr2D .mulwN32 w := by
  unfold laneCell; rw [h, m]; rfl
theorem laneCell_minI64 {w x : BitVec 32} (h : Word.major w = 0x04) (m : Word.minor w = 0) : laneCell w x = lr2D .minI64 w := by
  unfold laneCell; rw [h, m]; rfl
theorem laneCell_maxI64 {w x : BitVec 32} (h : Word.major w = 0x04) (m : Word.minor w = 1) : laneCell w x = lr2D .maxI64 w := by
  unfold laneCell; rw [h, m]; rfl
theorem laneCell_minN64 {w x : BitVec 32} (h : Word.major w = 0x04) (m : Word.minor w = 2) : laneCell w x = lr2D .minN64 w := by
  unfold laneCell; rw [h, m]; rfl
theorem laneCell_maxN64 {w x : BitVec 32} (h : Word.major w = 0x04) (m : Word.minor w = 3) : laneCell w x = lr2D .maxN64 w := by
  unfold laneCell; rw [h, m]; rfl
theorem laneCell_minI32 {w x : BitVec 32} (h : Word.major w = 0x04) (m : Word.minor w = 4) : laneCell w x = lr2D .minI32 w := by
  unfold laneCell; rw [h, m]; rfl
theorem laneCell_maxI32 {w x : BitVec 32} (h : Word.major w = 0x04) (m : Word.minor w = 5) : laneCell w x = lr2D .maxI32 w := by
  unfold laneCell; rw [h, m]; rfl
theorem laneCell_minN32 {w x : BitVec 32} (h : Word.major w = 0x04) (m : Word.minor w = 6) : laneCell w x = lr2D .minN32 w := by
  unfold laneCell; rw [h, m]; rfl
theorem laneCell_maxN32 {w x : BitVec 32} (h : Word.major w = 0x04) (m : Word.minor w = 7) : laneCell w x = lr2D .maxN32 w := by
  unfold laneCell; rw [h, m]; rfl
theorem laneCell_and {w x : BitVec 32} (h : Word.major w = 0x05) (m : Word.minor w = 0) : laneCell w x = lr2D .and w := by
  unfold laneCell; rw [h, m]; rfl
theorem laneCell_or {w x : BitVec 32} (h : Word.major w = 0x05) (m : Word.minor w = 1) : laneCell w x = lr2D .or w := by
  unfold laneCell; rw [h, m]; rfl
theorem laneCell_xor {w x : BitVec 32} (h : Word.major w = 0x05) (m : Word.minor w = 2) : laneCell w x = lr2D .xor w := by
  unfold laneCell; rw [h, m]; rfl
theorem laneCell_andn {w x : BitVec 32} (h : Word.major w = 0x05) (m : Word.minor w = 3) : laneCell w x = lr2D .andn w := by
  unfold laneCell; rw [h, m]; rfl
theorem laneCell_orn {w x : BitVec 32} (h : Word.major w = 0x05) (m : Word.minor w = 4) : laneCell w x = lr2D .orn w := by
  unfold laneCell; rw [h, m]; rfl
theorem laneCell_xnor {w x : BitVec 32} (h : Word.major w = 0x05) (m : Word.minor w = 5) : laneCell w x = lr2D .xnor w := by
  unfold laneCell; rw [h, m]; rfl
theorem laneCell_not {w x : BitVec 32} (h : Word.major w = 0x05) (m : Word.minor w = 6) : laneCell w x = lr1D .not w := by
  unfold laneCell; rw [h, m]; rfl
theorem laneCell_mov {w x : BitVec 32} (h : Word.major w = 0x05) (m : Word.minor w = 7) : laneCell w x = movD .mov w := by
  unfold laneCell; rw [h, m]; rfl
theorem laneCell_shlN64 {w x : BitVec 32} (h : Word.major w = 0x06) (m : Word.minor w = 0) : laneCell w x = lr2D .shlN64 w := by
  unfold laneCell; rw [h, m]; rfl
theorem laneCell_shrN64 {w x : BitVec 32} (h : Word.major w = 0x06) (m : Word.minor w = 1) : laneCell w x = lr2D .shrN64 w := by
  unfold laneCell; rw [h, m]; rfl
theorem laneCell_shrI64 {w x : BitVec 32} (h : Word.major w = 0x06) (m : Word.minor w = 2) : laneCell w x = lr2D .shrI64 w := by
  unfold laneCell; rw [h, m]; rfl
theorem laneCell_rotlN64 {w x : BitVec 32} (h : Word.major w = 0x06) (m : Word.minor w = 3) : laneCell w x = lr2D .rotlN64 w := by
  unfold laneCell; rw [h, m]; rfl
theorem laneCell_shlN32 {w x : BitVec 32} (h : Word.major w = 0x06) (m : Word.minor w = 4) : laneCell w x = lr2D .shlN32 w := by
  unfold laneCell; rw [h, m]; rfl
theorem laneCell_shrN32 {w x : BitVec 32} (h : Word.major w = 0x06) (m : Word.minor w = 5) : laneCell w x = lr2D .shrN32 w := by
  unfold laneCell; rw [h, m]; rfl
theorem laneCell_shrI32 {w x : BitVec 32} (h : Word.major w = 0x06) (m : Word.minor w = 6) : laneCell w x = lr2D .shrI32 w := by
  unfold laneCell; rw [h, m]; rfl
theorem laneCell_rotlN32 {w x : BitVec 32} (h : Word.major w = 0x06) (m : Word.minor w = 7) : laneCell w x = lr2D .rotlN32 w := by
  unfold laneCell; rw [h, m]; rfl
theorem laneCell_popc {w x : BitVec 32} (h : Word.major w = 0x07) (m : Word.minor w = 0) : laneCell w x = lr1D .popc w := by
  unfold laneCell; rw [h, m]; rfl
theorem laneCell_clz {w x : BitVec 32} (h : Word.major w = 0x07) (m : Word.minor w = 1) : laneCell w x = lr1D .clz w := by
  unfold laneCell; rw [h, m]; rfl
theorem laneCell_ctz {w x : BitVec 32} (h : Word.major w = 0x07) (m : Word.minor w = 2) : laneCell w x = lr1D .ctz w := by
  unfold laneCell; rw [h, m]; rfl
theorem laneCell_brev {w x : BitVec 32} (h : Word.major w = 0x07) (m : Word.minor w = 3) : laneCell w x = lr1D .brev w := by
  unfold laneCell; rw [h, m]; rfl
theorem laneCell_bswap {w x : BitVec 32} (h : Word.major w = 0x07) (m : Word.minor w = 4) : laneCell w x = lr1D .bswap w := by
  unfold laneCell; rw [h, m]; rfl
theorem laneCell_sextI8 {w x : BitVec 32} (h : Word.major w = 0x07) (m : Word.minor w = 5) : laneCell w x = lr1D .sextI8 w := by
  unfold laneCell; rw [h, m]; rfl
theorem laneCell_sextI16 {w x : BitVec 32} (h : Word.major w = 0x07) (m : Word.minor w = 6) : laneCell w x = lr1D .sextI16 w := by
  unfold laneCell; rw [h, m]; rfl
theorem laneCell_sextI32 {w x : BitVec 32} (h : Word.major w = 0x07) (m : Word.minor w = 7) : laneCell w x = lr1D .sextI32 w := by
  unfold laneCell; rw [h, m]; rfl
theorem laneCell_lea {w x : BitVec 32} (h : Word.major w = 0x08) : laneCell w x = krD .lea w := by
  unfold laneCell; rw [h]; rfl
theorem laneCell_setpEqI64 {w x : BitVec 32} (h : Word.major w = 0x09) (m : Word.minor w = 0) : laneCell w x = pd2D .setpEqI64 w := by
  unfold laneCell; rw [h, m]; rfl
theorem laneCell_setpNeI64 {w x : BitVec 32} (h : Word.major w = 0x09) (m : Word.minor w = 1) : laneCell w x = pd2D .setpNeI64 w := by
  unfold laneCell; rw [h, m]; rfl
theorem laneCell_setpLtI64 {w x : BitVec 32} (h : Word.major w = 0x09) (m : Word.minor w = 2) : laneCell w x = pd2D .setpLtI64 w := by
  unfold laneCell; rw [h, m]; rfl
theorem laneCell_setpLeI64 {w x : BitVec 32} (h : Word.major w = 0x09) (m : Word.minor w = 3) : laneCell w x = pd2D .setpLeI64 w := by
  unfold laneCell; rw [h, m]; rfl
theorem laneCell_setpLtN64 {w x : BitVec 32} (h : Word.major w = 0x09) (m : Word.minor w = 4) : laneCell w x = pd2D .setpLtN64 w := by
  unfold laneCell; rw [h, m]; rfl
theorem laneCell_setpLeN64 {w x : BitVec 32} (h : Word.major w = 0x09) (m : Word.minor w = 5) : laneCell w x = pd2D .setpLeN64 w := by
  unfold laneCell; rw [h, m]; rfl
theorem laneCell_setpTst {w x : BitVec 32} (h : Word.major w = 0x09) (m : Word.minor w = 6) : laneCell w x = pd2D .setpTst w := by
  unfold laneCell; rw [h, m]; rfl
theorem laneCell_setpEqI32 {w x : BitVec 32} (h : Word.major w = 0x0A) (m : Word.minor w = 0) : laneCell w x = pd2D .setpEqI32 w := by
  unfold laneCell; rw [h, m]; rfl
theorem laneCell_setpNeI32 {w x : BitVec 32} (h : Word.major w = 0x0A) (m : Word.minor w = 1) : laneCell w x = pd2D .setpNeI32 w := by
  unfold laneCell; rw [h, m]; rfl
theorem laneCell_setpLtI32 {w x : BitVec 32} (h : Word.major w = 0x0A) (m : Word.minor w = 2) : laneCell w x = pd2D .setpLtI32 w := by
  unfold laneCell; rw [h, m]; rfl
theorem laneCell_setpLeI32 {w x : BitVec 32} (h : Word.major w = 0x0A) (m : Word.minor w = 3) : laneCell w x = pd2D .setpLeI32 w := by
  unfold laneCell; rw [h, m]; rfl
theorem laneCell_setpLtN32 {w x : BitVec 32} (h : Word.major w = 0x0A) (m : Word.minor w = 4) : laneCell w x = pd2D .setpLtN32 w := by
  unfold laneCell; rw [h, m]; rfl
theorem laneCell_setpLeN32 {w x : BitVec 32} (h : Word.major w = 0x0A) (m : Word.minor w = 5) : laneCell w x = pd2D .setpLeN32 w := by
  unfold laneCell; rw [h, m]; rfl
theorem laneCell_pand {w x : BitVec 32} (h : Word.major w = 0x0B) (m : Word.minor w = 0) : laneCell w x = p3D .pand w := by
  unfold laneCell; rw [h, m]; rfl
theorem laneCell_por {w x : BitVec 32} (h : Word.major w = 0x0B) (m : Word.minor w = 1) : laneCell w x = p3D .por w := by
  unfold laneCell; rw [h, m]; rfl
theorem laneCell_pxor {w x : BitVec 32} (h : Word.major w = 0x0B) (m : Word.minor w = 2) : laneCell w x = p3D .pxor w := by
  unfold laneCell; rw [h, m]; rfl
theorem laneCell_pandn {w x : BitVec 32} (h : Word.major w = 0x0B) (m : Word.minor w = 3) : laneCell w x = p3D .pandn w := by
  unfold laneCell; rw [h, m]; rfl
theorem laneCell_pnot {w x : BitVec 32} (h : Word.major w = 0x0B) (m : Word.minor w = 4) : laneCell w x = p2D .pnot w := by
  unfold laneCell; rw [h, m]; rfl
theorem laneCell_sel {w x : BitVec 32} (h : Word.major w = 0x0C) : laneCell w x = krD .sel w := by
  unfold laneCell; rw [h]; rfl
theorem laneCell_addI64Imm {w x : BitVec 32} (h : Word.major w = 0x0D) : laneCell w x = liD .addI64Imm w := by
  unfold laneCell; rw [h]; rfl
theorem laneCell_addI32Imm {w x : BitVec 32} (h : Word.major w = 0x0E) : laneCell w x = liD .addI32Imm w := by
  unfold laneCell; rw [h]; rfl
theorem laneCell_addI32SatImm {w x : BitVec 32} (h : Word.major w = 0x0F) : laneCell w x = liD .addI32SatImm w := by
  unfold laneCell; rw [h]; rfl
theorem laneCell_addI64SatImm {w x : BitVec 32} (h : Word.major w = 0x10) : laneCell w x = liD .addI64SatImm w := by
  unfold laneCell; rw [h]; rfl
theorem laneCell_andImm {w x : BitVec 32} (h : Word.major w = 0x11) : laneCell w x = liD .andImm w := by
  unfold laneCell; rw [h]; rfl
theorem laneCell_orImm {w x : BitVec 32} (h : Word.major w = 0x12) : laneCell w x = liD .orImm w := by
  unfold laneCell; rw [h]; rfl
theorem laneCell_xorImm {w x : BitVec 32} (h : Word.major w = 0x13) : laneCell w x = liD .xorImm w := by
  unfold laneCell; rw [h]; rfl
theorem laneCell_shlN64Imm {w x : BitVec 32} (h : Word.major w = 0x14) : laneCell w x = liD .shlN64Imm w := by
  unfold laneCell; rw [h]; rfl
theorem laneCell_shrN64Imm {w x : BitVec 32} (h : Word.major w = 0x15) : laneCell w x = liD .shrN64Imm w := by
  unfold laneCell; rw [h]; rfl
theorem laneCell_shrI64Imm {w x : BitVec 32} (h : Word.major w = 0x16) : laneCell w x = liD .shrI64Imm w := by
  unfold laneCell; rw [h]; rfl
theorem laneCell_mulI64Imm {w x : BitVec 32} (h : Word.major w = 0x17) : laneCell w x = liD .mulI64Imm w := by
  unfold laneCell; rw [h]; rfl
theorem laneCell_movc {w x : BitVec 32} (h : Word.major w = 0x18) (m : Word.minor w = 0) : laneCell w x = mcD .movc w x := by
  unfold laneCell; rw [h, m]; rfl
theorem laneCell_movcM {w x : BitVec 32} (h : Word.major w = 0x18) (m : Word.minor w = 1) : laneCell w x = mcD .movcM w x := by
  unfold laneCell; rw [h, m]; rfl
theorem laneCell_movcH {w x : BitVec 32} (h : Word.major w = 0x18) (m : Word.minor w = 2) : laneCell w x = mchD .movcH w x := by
  unfold laneCell; rw [h, m]; rfl
theorem laneCell_rdsr {w x : BitVec 32} (h : Word.major w = 0x19) : laneCell w x = rdsrD .rdsr w := by
  unfold laneCell; rw [h]; rfl
theorem laneCell_shflIdx {w x : BitVec 32} (h : Word.major w = 0x1A) (m : Word.minor w = 0) : laneCell w x = lr2D .shflIdx w := by
  unfold laneCell; rw [h, m]; rfl
theorem laneCell_shflUp {w x : BitVec 32} (h : Word.major w = 0x1A) (m : Word.minor w = 1) : laneCell w x = lr2D .shflUp w := by
  unfold laneCell; rw [h, m]; rfl
theorem laneCell_shflDown {w x : BitVec 32} (h : Word.major w = 0x1A) (m : Word.minor w = 2) : laneCell w x = lr2D .shflDown w := by
  unfold laneCell; rw [h, m]; rfl
theorem laneCell_shflXor {w x : BitVec 32} (h : Word.major w = 0x1A) (m : Word.minor w = 3) : laneCell w x = lr2D .shflXor w := by
  unfold laneCell; rw [h, m]; rfl
theorem laneCell_ballot {w x : BitVec 32} (h : Word.major w = 0x1A) (m : Word.minor w = 4) : laneCell w x = ballotD .ballot w := by
  unfold laneCell; rw [h, m]; rfl
theorem laneCell_voteAny {w x : BitVec 32} (h : Word.major w = 0x1A) (m : Word.minor w = 5) : laneCell w x = p2D .voteAny w := by
  unfold laneCell; rw [h, m]; rfl
theorem laneCell_voteAll {w x : BitVec 32} (h : Word.major w = 0x1A) (m : Word.minor w = 6) : laneCell w x = p2D .voteAll w := by
  unfold laneCell; rw [h, m]; rfl
theorem laneCell_redAddI64 {w x : BitVec 32} (h : Word.major w = 0x1B) (m : Word.minor w = 0) : laneCell w x = lr1D .redAddI64 w := by
  unfold laneCell; rw [h, m]; rfl
theorem laneCell_redMinI64 {w x : BitVec 32} (h : Word.major w = 0x1B) (m : Word.minor w = 1) : laneCell w x = lr1D .redMinI64 w := by
  unfold laneCell; rw [h, m]; rfl
theorem laneCell_redMaxI64 {w x : BitVec 32} (h : Word.major w = 0x1B) (m : Word.minor w = 2) : laneCell w x = lr1D .redMaxI64 w := by
  unfold laneCell; rw [h, m]; rfl
theorem laneCell_redAddD {w x : BitVec 32} (h : Word.major w = 0x1B) (m : Word.minor w = 3) : laneCell w x = lr1D .redAddD w := by
  unfold laneCell; rw [h, m]; rfl
theorem laneCell_redMinD {w x : BitVec 32} (h : Word.major w = 0x1B) (m : Word.minor w = 4) : laneCell w x = lr1D .redMinD w := by
  unfold laneCell; rw [h, m]; rfl
theorem laneCell_redMaxD {w x : BitVec 32} (h : Word.major w = 0x1B) (m : Word.minor w = 5) : laneCell w x = lr1D .redMaxD w := by
  unfold laneCell; rw [h, m]; rfl
theorem laneCell_redAddF {w x : BitVec 32} (h : Word.major w = 0x1B) (m : Word.minor w = 6) : laneCell w x = lr1D .redAddF w := by
  unfold laneCell; rw [h, m]; rfl
theorem laneCell_bra {w x : BitVec 32} (h : Word.major w = 0x1C) : laneCell w x = lbD .bra w := by
  unfold laneCell; rw [h]; rfl
theorem laneCell_call {w x : BitVec 32} (h : Word.major w = 0x1D) : laneCell w x = lbD .call w := by
  unfold laneCell; rw [h]; rfl
theorem laneCell_jmp {w x : BitVec 32} (h : Word.major w = 0x1E) (m : Word.minor w = 0) : laneCell w x = a1D .jmp w := by
  unfold laneCell; rw [h, m]; rfl
theorem laneCell_callr {w x : BitVec 32} (h : Word.major w = 0x1E) (m : Word.minor w = 1) : laneCell w x = lr1D .callr w := by
  unfold laneCell; rw [h, m]; rfl
theorem laneCell_ret {w x : BitVec 32} (h : Word.major w = 0x1E) (m : Word.minor w = 2) : laneCell w x = a1D .ret w := by
  unfold laneCell; rw [h, m]; rfl
theorem laneCell_exit {w x : BitVec 32} (h : Word.major w = 0x1F) (m : Word.minor w = 0) : laneCell w x = noneD .exit w := by
  unfold laneCell; rw [h, m]; rfl
theorem laneCell_nop {w x : BitVec 32} (h : Word.major w = 0x1F) (m : Word.minor w = 1) : laneCell w x = noneD .nop w := by
  unfold laneCell; rw [h, m]; rfl
theorem laneCell_addD {w x : BitVec 32} (h : Word.major w = 0x20) (m : Word.minor w = 0) : laneCell w x = lr2D .addD w := by
  unfold laneCell; rw [h, m]; rfl
theorem laneCell_subD {w x : BitVec 32} (h : Word.major w = 0x20) (m : Word.minor w = 1) : laneCell w x = lr2D .subD w := by
  unfold laneCell; rw [h, m]; rfl
theorem laneCell_mulD {w x : BitVec 32} (h : Word.major w = 0x20) (m : Word.minor w = 2) : laneCell w x = lr2D .mulD w := by
  unfold laneCell; rw [h, m]; rfl
theorem laneCell_divD {w x : BitVec 32} (h : Word.major w = 0x20) (m : Word.minor w = 3) : laneCell w x = lr2D .divD w := by
  unfold laneCell; rw [h, m]; rfl
theorem laneCell_minD {w x : BitVec 32} (h : Word.major w = 0x20) (m : Word.minor w = 4) : laneCell w x = lr2D .minD w := by
  unfold laneCell; rw [h, m]; rfl
theorem laneCell_maxD {w x : BitVec 32} (h : Word.major w = 0x20) (m : Word.minor w = 5) : laneCell w x = lr2D .maxD w := by
  unfold laneCell; rw [h, m]; rfl
theorem laneCell_sqrtD {w x : BitVec 32} (h : Word.major w = 0x20) (m : Word.minor w = 6) : laneCell w x = lr1D .sqrtD w := by
  unfold laneCell; rw [h, m]; rfl
theorem laneCell_rintD {w x : BitVec 32} (h : Word.major w = 0x20) (m : Word.minor w = 7) : laneCell w x = lr1D .rintD w := by
  unfold laneCell; rw [h, m]; rfl
theorem laneCell_addF {w x : BitVec 32} (h : Word.major w = 0x21) (m : Word.minor w = 0) : laneCell w x = lr2D .addF w := by
  unfold laneCell; rw [h, m]; rfl
theorem laneCell_subF {w x : BitVec 32} (h : Word.major w = 0x21) (m : Word.minor w = 1) : laneCell w x = lr2D .subF w := by
  unfold laneCell; rw [h, m]; rfl
theorem laneCell_mulF {w x : BitVec 32} (h : Word.major w = 0x21) (m : Word.minor w = 2) : laneCell w x = lr2D .mulF w := by
  unfold laneCell; rw [h, m]; rfl
theorem laneCell_divF {w x : BitVec 32} (h : Word.major w = 0x21) (m : Word.minor w = 3) : laneCell w x = lr2D .divF w := by
  unfold laneCell; rw [h, m]; rfl
theorem laneCell_minF {w x : BitVec 32} (h : Word.major w = 0x21) (m : Word.minor w = 4) : laneCell w x = lr2D .minF w := by
  unfold laneCell; rw [h, m]; rfl
theorem laneCell_maxF {w x : BitVec 32} (h : Word.major w = 0x21) (m : Word.minor w = 5) : laneCell w x = lr2D .maxF w := by
  unfold laneCell; rw [h, m]; rfl
theorem laneCell_sqrtF {w x : BitVec 32} (h : Word.major w = 0x21) (m : Word.minor w = 6) : laneCell w x = lr1D .sqrtF w := by
  unfold laneCell; rw [h, m]; rfl
theorem laneCell_rintF {w x : BitVec 32} (h : Word.major w = 0x21) (m : Word.minor w = 7) : laneCell w x = lr1D .rintF w := by
  unfold laneCell; rw [h, m]; rfl
theorem laneCell_addHf {w x : BitVec 32} (h : Word.major w = 0x22) (m : Word.minor w = 0) : laneCell w x = lr2D .addHf w := by
  unfold laneCell; rw [h, m]; rfl
theorem laneCell_subHf {w x : BitVec 32} (h : Word.major w = 0x22) (m : Word.minor w = 1) : laneCell w x = lr2D .subHf w := by
  unfold laneCell; rw [h, m]; rfl
theorem laneCell_mulHf {w x : BitVec 32} (h : Word.major w = 0x22) (m : Word.minor w = 2) : laneCell w x = lr2D .mulHf w := by
  unfold laneCell; rw [h, m]; rfl
theorem laneCell_minHf {w x : BitVec 32} (h : Word.major w = 0x22) (m : Word.minor w = 3) : laneCell w x = lr2D .minHf w := by
  unfold laneCell; rw [h, m]; rfl
theorem laneCell_maxHf {w x : BitVec 32} (h : Word.major w = 0x22) (m : Word.minor w = 4) : laneCell w x = lr2D .maxHf w := by
  unfold laneCell; rw [h, m]; rfl
theorem laneCell_addBf {w x : BitVec 32} (h : Word.major w = 0x23) (m : Word.minor w = 0) : laneCell w x = lr2D .addBf w := by
  unfold laneCell; rw [h, m]; rfl
theorem laneCell_subBf {w x : BitVec 32} (h : Word.major w = 0x23) (m : Word.minor w = 1) : laneCell w x = lr2D .subBf w := by
  unfold laneCell; rw [h, m]; rfl
theorem laneCell_mulBf {w x : BitVec 32} (h : Word.major w = 0x23) (m : Word.minor w = 2) : laneCell w x = lr2D .mulBf w := by
  unfold laneCell; rw [h, m]; rfl
theorem laneCell_minBf {w x : BitVec 32} (h : Word.major w = 0x23) (m : Word.minor w = 3) : laneCell w x = lr2D .minBf w := by
  unfold laneCell; rw [h, m]; rfl
theorem laneCell_maxBf {w x : BitVec 32} (h : Word.major w = 0x23) (m : Word.minor w = 4) : laneCell w x = lr2D .maxBf w := by
  unfold laneCell; rw [h, m]; rfl
theorem laneCell_setpEqD {w x : BitVec 32} (h : Word.major w = 0x24) (m : Word.minor w = 0) : laneCell w x = pd2D .setpEqD w := by
  unfold laneCell; rw [h, m]; rfl
theorem laneCell_setpLtD {w x : BitVec 32} (h : Word.major w = 0x24) (m : Word.minor w = 1) : laneCell w x = pd2D .setpLtD w := by
  unfold laneCell; rw [h, m]; rfl
theorem laneCell_setpLeD {w x : BitVec 32} (h : Word.major w = 0x24) (m : Word.minor w = 2) : laneCell w x = pd2D .setpLeD w := by
  unfold laneCell; rw [h, m]; rfl
theorem laneCell_setpNanD {w x : BitVec 32} (h : Word.major w = 0x24) (m : Word.minor w = 3) : laneCell w x = pd2D .setpNanD w := by
  unfold laneCell; rw [h, m]; rfl
theorem laneCell_setpEqF {w x : BitVec 32} (h : Word.major w = 0x24) (m : Word.minor w = 4) : laneCell w x = pd2D .setpEqF w := by
  unfold laneCell; rw [h, m]; rfl
theorem laneCell_setpLtF {w x : BitVec 32} (h : Word.major w = 0x24) (m : Word.minor w = 5) : laneCell w x = pd2D .setpLtF w := by
  unfold laneCell; rw [h, m]; rfl
theorem laneCell_setpLeF {w x : BitVec 32} (h : Word.major w = 0x24) (m : Word.minor w = 6) : laneCell w x = pd2D .setpLeF w := by
  unfold laneCell; rw [h, m]; rfl
theorem laneCell_setpNanF {w x : BitVec 32} (h : Word.major w = 0x24) (m : Word.minor w = 7) : laneCell w x = pd2D .setpNanF w := by
  unfold laneCell; rw [h, m]; rfl
theorem laneCell_fmaD {w x : BitVec 32} (h : Word.major w = 0x25) (m : Word.minor w = 0) : laneCell w x = fmaD .fmaD w x := by
  unfold laneCell; rw [h, m]; rfl
theorem laneCell_fnmaD {w x : BitVec 32} (h : Word.major w = 0x25) (m : Word.minor w = 1) : laneCell w x = fmaD .fnmaD w x := by
  unfold laneCell; rw [h, m]; rfl
theorem laneCell_fmaF {w x : BitVec 32} (h : Word.major w = 0x25) (m : Word.minor w = 2) : laneCell w x = fmaD .fmaF w x := by
  unfold laneCell; rw [h, m]; rfl
theorem laneCell_fnmaF {w x : BitVec 32} (h : Word.major w = 0x25) (m : Word.minor w = 3) : laneCell w x = fmaD .fnmaF w x := by
  unfold laneCell; rw [h, m]; rfl
theorem laneCell_fmaHf {w x : BitVec 32} (h : Word.major w = 0x25) (m : Word.minor w = 4) : laneCell w x = fmaD .fmaHf w x := by
  unfold laneCell; rw [h, m]; rfl
theorem laneCell_fmaBf {w x : BitVec 32} (h : Word.major w = 0x25) (m : Word.minor w = 5) : laneCell w x = fmaD .fmaBf w x := by
  unfold laneCell; rw [h, m]; rfl
theorem laneCell_rcpD {w x : BitVec 32} (h : Word.major w = 0x27) (m : Word.minor w = 0) : laneCell w x = lr1D .rcpD w := by
  unfold laneCell; rw [h, m]; rfl
theorem laneCell_rsqrtD {w x : BitVec 32} (h : Word.major w = 0x27) (m : Word.minor w = 1) : laneCell w x = lr1D .rsqrtD w := by
  unfold laneCell; rw [h, m]; rfl
theorem laneCell_exp2D {w x : BitVec 32} (h : Word.major w = 0x27) (m : Word.minor w = 2) : laneCell w x = lr1D .exp2D w := by
  unfold laneCell; rw [h, m]; rfl
theorem laneCell_log2D {w x : BitVec 32} (h : Word.major w = 0x27) (m : Word.minor w = 3) : laneCell w x = lr1D .log2D w := by
  unfold laneCell; rw [h, m]; rfl
theorem laneCell_exp2F {w x : BitVec 32} (h : Word.major w = 0x27) (m : Word.minor w = 4) : laneCell w x = lr1D .exp2F w := by
  unfold laneCell; rw [h, m]; rfl
theorem laneCell_log2F {w x : BitVec 32} (h : Word.major w = 0x27) (m : Word.minor w = 5) : laneCell w x = lr1D .log2F w := by
  unfold laneCell; rw [h, m]; rfl
theorem laneCell_sinF {w x : BitVec 32} (h : Word.major w = 0x27) (m : Word.minor w = 6) : laneCell w x = lr1D .sinF w := by
  unfold laneCell; rw [h, m]; rfl
theorem laneCell_cosF {w x : BitVec 32} (h : Word.major w = 0x27) (m : Word.minor w = 7) : laneCell w x = lr1D .cosF w := by
  unfold laneCell; rw [h, m]; rfl
theorem laneCell_cvt {w x : BitVec 32} (h : Word.major w = 0x28) (m : Word.minor w = 0) : laneCell w x = cvtD .cvt w x := by
  unfold laneCell; rw [h, m]; rfl
theorem laneCell_fclassD {w x : BitVec 32} (h : Word.major w = 0x29) (m : Word.minor w = 0) : laneCell w x = lr1D .fclassD w := by
  unfold laneCell; rw [h, m]; rfl
theorem laneCell_fclassF {w x : BitVec 32} (h : Word.major w = 0x29) (m : Word.minor w = 1) : laneCell w x = lr1D .fclassF w := by
  unfold laneCell; rw [h, m]; rfl
theorem laneCell_copysignD {w x : BitVec 32} (h : Word.major w = 0x29) (m : Word.minor w = 2) : laneCell w x = lr2D .copysignD w := by
  unfold laneCell; rw [h, m]; rfl
theorem laneCell_copysignF {w x : BitVec 32} (h : Word.major w = 0x29) (m : Word.minor w = 3) : laneCell w x = lr2D .copysignF w := by
  unfold laneCell; rw [h, m]; rfl
theorem laneCell_absD {w x : BitVec 32} (h : Word.major w = 0x29) (m : Word.minor w = 4) : laneCell w x = lr1D .absD w := by
  unfold laneCell; rw [h, m]; rfl
theorem laneCell_negD {w x : BitVec 32} (h : Word.major w = 0x29) (m : Word.minor w = 5) : laneCell w x = lr1D .negD w := by
  unfold laneCell; rw [h, m]; rfl
theorem laneCell_absF {w x : BitVec 32} (h : Word.major w = 0x29) (m : Word.minor w = 6) : laneCell w x = lr1D .absF w := by
  unfold laneCell; rw [h, m]; rfl
theorem laneCell_negF {w x : BitVec 32} (h : Word.major w = 0x29) (m : Word.minor w = 7) : laneCell w x = lr1D .negF w := by
  unfold laneCell; rw [h, m]; rfl
theorem laneCell_ld {w x : BitVec 32} (h : Word.major w = 0x2C) (m : Word.minor w = 0) : laneCell w x = ldD .ld w x := by
  unfold laneCell; rw [h, m]; rfl
theorem laneCell_st {w x : BitVec 32} (h : Word.major w = 0x2C) (m : Word.minor w = 1) : laneCell w x = stD .st w x := by
  unfold laneCell; rw [h, m]; rfl
theorem laneCell_lde {w x : BitVec 32} (h : Word.major w = 0x2C) (m : Word.minor w = 2) : laneCell w x = ldeD .lde w x := by
  unfold laneCell; rw [h, m]; rfl
theorem laneCell_pf {w x : BitVec 32} (h : Word.major w = 0x2C) (m : Word.minor w = 3) : laneCell w x = pfD .pf w x := by
  unfold laneCell; rw [h, m]; rfl
theorem laneCell_atomAdd {w x : BitVec 32} (h : Word.major w = 0x2D) (m : Word.minor w = 0) : laneCell w x = atomD .atomAdd w x := by
  unfold laneCell; rw [h, m]; rfl
theorem laneCell_atomMin {w x : BitVec 32} (h : Word.major w = 0x2D) (m : Word.minor w = 1) : laneCell w x = atomD .atomMin w x := by
  unfold laneCell; rw [h, m]; rfl
theorem laneCell_atomMax {w x : BitVec 32} (h : Word.major w = 0x2D) (m : Word.minor w = 2) : laneCell w x = atomD .atomMax w x := by
  unfold laneCell; rw [h, m]; rfl
theorem laneCell_atomAnd {w x : BitVec 32} (h : Word.major w = 0x2D) (m : Word.minor w = 3) : laneCell w x = atomD .atomAnd w x := by
  unfold laneCell; rw [h, m]; rfl
theorem laneCell_atomOr {w x : BitVec 32} (h : Word.major w = 0x2D) (m : Word.minor w = 4) : laneCell w x = atomD .atomOr w x := by
  unfold laneCell; rw [h, m]; rfl
theorem laneCell_atomXor {w x : BitVec 32} (h : Word.major w = 0x2D) (m : Word.minor w = 5) : laneCell w x = atomD .atomXor w x := by
  unfold laneCell; rw [h, m]; rfl
theorem laneCell_atomXchg {w x : BitVec 32} (h : Word.major w = 0x2D) (m : Word.minor w = 6) : laneCell w x = atomD .atomXchg w x := by
  unfold laneCell; rw [h, m]; rfl
theorem laneCell_atomCas {w x : BitVec 32} (h : Word.major w = 0x2D) (m : Word.minor w = 7) : laneCell w x = casD .atomCas w x := by
  unfold laneCell; rw [h, m]; rfl
theorem laneCell_recvD {w x : BitVec 32} (h : Word.major w = 0x2E) (m : Word.minor w = 0) : laneCell w x = recvD .recvD w := by
  unfold laneCell; rw [h, m]; rfl
theorem laneCell_recvW {w x : BitVec 32} (h : Word.major w = 0x2E) (m : Word.minor w = 1) : laneCell w x = recvD .recvW w := by
  unfold laneCell; rw [h, m]; rfl
theorem laneCell_sendD {w x : BitVec 32} (h : Word.major w = 0x2E) (m : Word.minor w = 2) : laneCell w x = sendD .sendD w := by
  unfold laneCell; rw [h, m]; rfl
theorem laneCell_sendW {w x : BitVec 32} (h : Word.major w = 0x2E) (m : Word.minor w = 3) : laneCell w x = sendD .sendW w := by
  unfold laneCell; rw [h, m]; rfl
theorem laneCell_mmarD {w x : BitVec 32} (h : Word.major w = 0x38) (m : Word.minor w = 0) : laneCell w x = mmarD .mmarD w x := by
  unfold laneCell; rw [h, m]; rfl
theorem laneCell_mmarF {w x : BitVec 32} (h : Word.major w = 0x38) (m : Word.minor w = 1) : laneCell w x = mmarD .mmarF w x := by
  unfold laneCell; rw [h, m]; rfl
theorem laneCell_mmarBf {w x : BitVec 32} (h : Word.major w = 0x38) (m : Word.minor w = 2) : laneCell w x = mmarD .mmarBf w x := by
  unfold laneCell; rw [h, m]; rfl
theorem laneCell_mmarHf {w x : BitVec 32} (h : Word.major w = 0x38) (m : Word.minor w = 3) : laneCell w x = mmarD .mmarHf w x := by
  unfold laneCell; rw [h, m]; rfl
theorem laneCell_mmarE4 {w x : BitVec 32} (h : Word.major w = 0x38) (m : Word.minor w = 4) : laneCell w x = mmarD .mmarE4 w x := by
  unfold laneCell; rw [h, m]; rfl
theorem laneCell_copen {w x : BitVec 32} (h : Word.major w = 0x39) (m : Word.minor w = 0) : laneCell w x = copenD .copen w x := by
  unfold laneCell; rw [h, m]; rfl
theorem laneCell_cadd {w x : BitVec 32} (h : Word.major w = 0x39) (m : Word.minor w = 1) : laneCell w x = caddD .cadd w x := by
  unfold laneCell; rw [h, m]; rfl
theorem laneCell_cflush {w x : BitVec 32} (h : Word.major w = 0x39) (m : Word.minor w = 2) : laneCell w x = a1xD .cflush w x := by
  unfold laneCell; rw [h, m]; rfl
theorem laneCell_cclose {w x : BitVec 32} (h : Word.major w = 0x39) (m : Word.minor w = 3) : laneCell w x = a1xD .cclose w x := by
  unfold laneCell; rw [h, m]; rfl
theorem laneCell_cread {w x : BitVec 32} (h : Word.major w = 0x39) (m : Word.minor w = 4) : laneCell w x = creadD .cread w x := by
  unfold laneCell; rw [h, m]; rfl
theorem laneCell_creplay {w x : BitVec 32} (h : Word.major w = 0x39) (m : Word.minor w = 5) : laneCell w x = creplayD .creplay w x := by
  unfold laneCell; rw [h, m]; rfl
theorem uniCell_addI64U {w x : BitVec 32} (h : Word.major w = 0x01) (m : Word.minor w = 0) : uniCell w x = lr2D .addI64U w := by
  unfold uniCell; rw [h, m]; rfl
theorem uniCell_subI64U {w x : BitVec 32} (h : Word.major w = 0x01) (m : Word.minor w = 1) : uniCell w x = lr2D .subI64U w := by
  unfold uniCell; rw [h, m]; rfl
theorem uniCell_mulI64U {w x : BitVec 32} (h : Word.major w = 0x01) (m : Word.minor w = 2) : uniCell w x = lr2D .mulI64U w := by
  unfold uniCell; rw [h, m]; rfl
theorem uniCell_mulhiN64U {w x : BitVec 32} (h : Word.major w = 0x01) (m : Word.minor w = 3) : uniCell w x = lr2D .mulhiN64U w := by
  unfold uniCell; rw [h, m]; rfl
theorem uniCell_minI64U {w x : BitVec 32} (h : Word.major w = 0x01) (m : Word.minor w = 4) : uniCell w x = lr2D .minI64U w := by
  unfold uniCell; rw [h, m]; rfl
theorem uniCell_maxI64U {w x : BitVec 32} (h : Word.major w = 0x01) (m : Word.minor w = 5) : uniCell w x = lr2D .maxI64U w := by
  unfold uniCell; rw [h, m]; rfl
theorem uniCell_minN64U {w x : BitVec 32} (h : Word.major w = 0x01) (m : Word.minor w = 6) : uniCell w x = lr2D .minN64U w := by
  unfold uniCell; rw [h, m]; rfl
theorem uniCell_maxN64U {w x : BitVec 32} (h : Word.major w = 0x01) (m : Word.minor w = 7) : uniCell w x = lr2D .maxN64U w := by
  unfold uniCell; rw [h, m]; rfl
theorem uniCell_andU {w x : BitVec 32} (h : Word.major w = 0x02) (m : Word.minor w = 0) : uniCell w x = lr2D .andU w := by
  unfold uniCell; rw [h, m]; rfl
theorem uniCell_orU {w x : BitVec 32} (h : Word.major w = 0x02) (m : Word.minor w = 1) : uniCell w x = lr2D .orU w := by
  unfold uniCell; rw [h, m]; rfl
theorem uniCell_xorU {w x : BitVec 32} (h : Word.major w = 0x02) (m : Word.minor w = 2) : uniCell w x = lr2D .xorU w := by
  unfold uniCell; rw [h, m]; rfl
theorem uniCell_andnU {w x : BitVec 32} (h : Word.major w = 0x02) (m : Word.minor w = 3) : uniCell w x = lr2D .andnU w := by
  unfold uniCell; rw [h, m]; rfl
theorem uniCell_shlN64U {w x : BitVec 32} (h : Word.major w = 0x02) (m : Word.minor w = 4) : uniCell w x = lr2D .shlN64U w := by
  unfold uniCell; rw [h, m]; rfl
theorem uniCell_shrN64U {w x : BitVec 32} (h : Word.major w = 0x02) (m : Word.minor w = 5) : uniCell w x = lr2D .shrN64U w := by
  unfold uniCell; rw [h, m]; rfl
theorem uniCell_shrI64U {w x : BitVec 32} (h : Word.major w = 0x02) (m : Word.minor w = 6) : uniCell w x = lr2D .shrI64U w := by
  unfold uniCell; rw [h, m]; rfl
theorem uniCell_movU {w x : BitVec 32} (h : Word.major w = 0x02) (m : Word.minor w = 7) : uniCell w x = lr1D .movU w := by
  unfold uniCell; rw [h, m]; rfl
theorem uniCell_setpEqI64U {w x : BitVec 32} (h : Word.major w = 0x03) (m : Word.minor w = 0) : uniCell w x = pd2D .setpEqI64U w := by
  unfold uniCell; rw [h, m]; rfl
theorem uniCell_setpNeI64U {w x : BitVec 32} (h : Word.major w = 0x03) (m : Word.minor w = 1) : uniCell w x = pd2D .setpNeI64U w := by
  unfold uniCell; rw [h, m]; rfl
theorem uniCell_setpLtI64U {w x : BitVec 32} (h : Word.major w = 0x03) (m : Word.minor w = 2) : uniCell w x = pd2D .setpLtI64U w := by
  unfold uniCell; rw [h, m]; rfl
theorem uniCell_setpLeI64U {w x : BitVec 32} (h : Word.major w = 0x03) (m : Word.minor w = 3) : uniCell w x = pd2D .setpLeI64U w := by
  unfold uniCell; rw [h, m]; rfl
theorem uniCell_setpLtN64U {w x : BitVec 32} (h : Word.major w = 0x03) (m : Word.minor w = 4) : uniCell w x = pd2D .setpLtN64U w := by
  unfold uniCell; rw [h, m]; rfl
theorem uniCell_setpLeN64U {w x : BitVec 32} (h : Word.major w = 0x03) (m : Word.minor w = 5) : uniCell w x = pd2D .setpLeN64U w := by
  unfold uniCell; rw [h, m]; rfl
theorem uniCell_setpTstU {w x : BitVec 32} (h : Word.major w = 0x03) (m : Word.minor w = 6) : uniCell w x = pd2D .setpTstU w := by
  unfold uniCell; rw [h, m]; rfl
theorem uniCell_pandU {w x : BitVec 32} (h : Word.major w = 0x04) (m : Word.minor w = 0) : uniCell w x = p3D .pandU w := by
  unfold uniCell; rw [h, m]; rfl
theorem uniCell_porU {w x : BitVec 32} (h : Word.major w = 0x04) (m : Word.minor w = 1) : uniCell w x = p3D .porU w := by
  unfold uniCell; rw [h, m]; rfl
theorem uniCell_pxorU {w x : BitVec 32} (h : Word.major w = 0x04) (m : Word.minor w = 2) : uniCell w x = p3D .pxorU w := by
  unfold uniCell; rw [h, m]; rfl
theorem uniCell_pandnU {w x : BitVec 32} (h : Word.major w = 0x04) (m : Word.minor w = 3) : uniCell w x = p3D .pandnU w := by
  unfold uniCell; rw [h, m]; rfl
theorem uniCell_pnotU {w x : BitVec 32} (h : Word.major w = 0x04) (m : Word.minor w = 4) : uniCell w x = p2D .pnotU w := by
  unfold uniCell; rw [h, m]; rfl
theorem uniCell_addI64ImmU {w x : BitVec 32} (h : Word.major w = 0x05) : uniCell w x = liD .addI64ImmU w := by
  unfold uniCell; rw [h]; rfl
theorem uniCell_movcU {w x : BitVec 32} (h : Word.major w = 0x06) (m : Word.minor w = 0) : uniCell w x = mcD .movcU w x := by
  unfold uniCell; rw [h, m]; rfl
theorem uniCell_movcMU {w x : BitVec 32} (h : Word.major w = 0x06) (m : Word.minor w = 1) : uniCell w x = mcD .movcMU w x := by
  unfold uniCell; rw [h, m]; rfl
theorem uniCell_movcHU {w x : BitVec 32} (h : Word.major w = 0x06) (m : Word.minor w = 2) : uniCell w x = mchD .movcHU w x := by
  unfold uniCell; rw [h, m]; rfl
theorem uniCell_ldU {w x : BitVec 32} (h : Word.major w = 0x07) (m : Word.minor w = 0) : uniCell w x = ldD .ldU w x := by
  unfold uniCell; rw [h, m]; rfl
theorem uniCell_stU {w x : BitVec 32} (h : Word.major w = 0x07) (m : Word.minor w = 1) : uniCell w x = stD .stU w x := by
  unfold uniCell; rw [h, m]; rfl
theorem uniCell_ldeU {w x : BitVec 32} (h : Word.major w = 0x07) (m : Word.minor w = 2) : uniCell w x = ldeD .ldeU w x := by
  unfold uniCell; rw [h, m]; rfl
theorem uniCell_pfU {w x : BitVec 32} (h : Word.major w = 0x07) (m : Word.minor w = 3) : uniCell w x = pfD .pfU w x := by
  unfold uniCell; rw [h, m]; rfl
theorem uniCell_ujmp {w x : BitVec 32} (h : Word.major w = 0x08) : uniCell w x = lbD .ujmp w := by
  unfold uniCell; rw [h]; rfl
theorem uniCell_ucall {w x : BitVec 32} (h : Word.major w = 0x09) : uniCell w x = lbD .ucall w := by
  unfold uniCell; rw [h]; rfl
theorem uniCell_ujmpr {w x : BitVec 32} (h : Word.major w = 0x0A) (m : Word.minor w = 0) : uniCell w x = a1D .ujmpr w := by
  unfold uniCell; rw [h, m]; rfl
theorem uniCell_ucallr {w x : BitVec 32} (h : Word.major w = 0x0A) (m : Word.minor w = 1) : uniCell w x = lr1D .ucallr w := by
  unfold uniCell; rw [h, m]; rfl
theorem uniCell_uret {w x : BitVec 32} (h : Word.major w = 0x0A) (m : Word.minor w = 2) : uniCell w x = a1D .uret w := by
  unfold uniCell; rw [h, m]; rfl
theorem uniCell_bar {w x : BitVec 32} (h : Word.major w = 0x0B) (m : Word.minor w = 0) : uniCell w x = noneD .bar w := by
  unfold uniCell; rw [h, m]; rfl
theorem uniCell_tbar {w x : BitVec 32} (h : Word.major w = 0x0B) (m : Word.minor w = 1) : uniCell w x = noneD .tbar w := by
  unfold uniCell; rw [h, m]; rfl
theorem uniCell_claim {w x : BitVec 32} (h : Word.major w = 0x0B) (m : Word.minor w = 2) : uniCell w x = lr2D .claim w := by
  unfold uniCell; rw [h, m]; rfl
theorem uniCell_rdv {w x : BitVec 32} (h : Word.major w = 0x0B) (m : Word.minor w = 3) : uniCell w x = a1D .rdv w := by
  unfold uniCell; rw [h, m]; rfl
theorem uniCell_fence {w x : BitVec 32} (h : Word.major w = 0x0C) : uniCell w x = fenceD .fence w := by
  unfold uniCell; rw [h]; rfl
theorem uniCell_waith {w x : BitVec 32} (h : Word.major w = 0x0D) : uniCell w x = waithD .waith w := by
  unfold uniCell; rw [h]; rfl
theorem uniCell_sendU {w x : BitVec 32} (h : Word.major w = 0x0E) (m : Word.minor w = 0) : uniCell w x = send_uD .sendU w x := by
  unfold uniCell; rw [h, m]; rfl
theorem uniCell_recvU {w x : BitVec 32} (h : Word.major w = 0x0E) (m : Word.minor w = 1) : uniCell w x = recv_uD .recvU w x := by
  unfold uniCell; rw [h, m]; rfl
theorem uniCell_launch {w x : BitVec 32} (h : Word.major w = 0x0E) (m : Word.minor w = 2) : uniCell w x = launchD .launch w x := by
  unfold uniCell; rw [h, m]; rfl
theorem uniCell_waitl {w x : BitVec 32} (h : Word.major w = 0x0E) (m : Word.minor w = 3) : uniCell w x = lr1xD .waitl w x := by
  unfold uniCell; rw [h, m]; rfl
theorem uniCell_fork {w x : BitVec 32} (h : Word.major w = 0x0E) (m : Word.minor w = 4) : uniCell w x = lr1xD .fork w x := by
  unfold uniCell; rw [h, m]; rfl
theorem uniCell_bpub {w x : BitVec 32} (h : Word.major w = 0x0F) (m : Word.minor w = 0) : uniCell w x = lr1D .bpub w := by
  unfold uniCell; rw [h, m]; rfl
theorem uniCell_bfloor {w x : BitVec 32} (h : Word.major w = 0x0F) (m : Word.minor w = 1) : uniCell w x = lr2D .bfloor w := by
  unfold uniCell; rw [h, m]; rfl
theorem uniCell_gang {w x : BitVec 32} (h : Word.major w = 0x10) (m : Word.minor w = 0) : uniCell w x = a1xD .gang w x := by
  unfold uniCell; rw [h, m]; rfl
theorem uniCell_mmasD {w x : BitVec 32} (h : Word.major w = 0x10) (m : Word.minor w = 1) : uniCell w x = lr2xD .mmasD w x := by
  unfold uniCell; rw [h, m]; rfl
theorem uniCell_mmasF {w x : BitVec 32} (h : Word.major w = 0x10) (m : Word.minor w = 2) : uniCell w x = mmasnD .mmasF w x := by
  unfold uniCell; rw [h, m]; rfl
theorem uniCell_mmasBf {w x : BitVec 32} (h : Word.major w = 0x10) (m : Word.minor w = 3) : uniCell w x = mmasnD .mmasBf w x := by
  unfold uniCell; rw [h, m]; rfl
theorem uniCell_mmasHf {w x : BitVec 32} (h : Word.major w = 0x10) (m : Word.minor w = 4) : uniCell w x = mmasnD .mmasHf w x := by
  unfold uniCell; rw [h, m]; rfl
theorem uniCell_mmasE4 {w x : BitVec 32} (h : Word.major w = 0x10) (m : Word.minor w = 5) : uniCell w x = mmasnD .mmasE4 w x := by
  unfold uniCell; rw [h, m]; rfl
theorem uniCell_accrel {w x : BitVec 32} (h : Word.major w = 0x10) (m : Word.minor w = 6) : uniCell w x = accrelD .accrel w x := by
  unfold uniCell; rw [h, m]; rfl
theorem uniCell_trap {w x : BitVec 32} (h : Word.major w = 0x11) (m : Word.minor w = 0) : uniCell w x = trapD .trap w := by
  unfold uniCell; rw [h, m]; rfl
theorem uniCell_rett {w x : BitVec 32} (h : Word.major w = 0x11) (m : Word.minor w = 1) : uniCell w x = noneD .rett w := by
  unfold uniCell; rw [h, m]; rfl
theorem uniCell_rdsys {w x : BitVec 32} (h : Word.major w = 0x11) (m : Word.minor w = 2) : uniCell w x = rdsysD .rdsys w := by
  unfold uniCell; rw [h, m]; rfl
theorem uniCell_wrsys {w x : BitVec 32} (h : Word.major w = 0x11) (m : Word.minor w = 3) : uniCell w x = wrsysD .wrsys w := by
  unfold uniCell; rw [h, m]; rfl
theorem uniCell_unop {w x : BitVec 32} (h : Word.major w = 0x11) (m : Word.minor w = 4) : uniCell w x = noneD .unop w := by
  unfold uniCell; rw [h, m]; rfl
theorem laneCell_addDLong {w x : BitVec 32} (h : Word.major w = 0x26) (m : Word.minor w = 0) (p : fld x 3 3 = 0) : laneCell w x = long2D .addDLong w x := by
  unfold laneCell; rw [h, m, p]; rfl
theorem laneCell_subDLong {w x : BitVec 32} (h : Word.major w = 0x26) (m : Word.minor w = 0) (p : fld x 3 3 = 1) : laneCell w x = long2D .subDLong w x := by
  unfold laneCell; rw [h, m, p]; rfl
theorem laneCell_mulDLong {w x : BitVec 32} (h : Word.major w = 0x26) (m : Word.minor w = 0) (p : fld x 3 3 = 2) : laneCell w x = long2D .mulDLong w x := by
  unfold laneCell; rw [h, m, p]; rfl
theorem laneCell_divDLong {w x : BitVec 32} (h : Word.major w = 0x26) (m : Word.minor w = 0) (p : fld x 3 3 = 3) : laneCell w x = long2D .divDLong w x := by
  unfold laneCell; rw [h, m, p]; rfl
theorem laneCell_minDLong {w x : BitVec 32} (h : Word.major w = 0x26) (m : Word.minor w = 0) (p : fld x 3 3 = 4) : laneCell w x = longMMD .minDLong w x := by
  unfold laneCell; rw [h, m, p]; rfl
theorem laneCell_maxDLong {w x : BitVec 32} (h : Word.major w = 0x26) (m : Word.minor w = 0) (p : fld x 3 3 = 5) : laneCell w x = longMMD .maxDLong w x := by
  unfold laneCell; rw [h, m, p]; rfl
theorem laneCell_sqrtDLong {w x : BitVec 32} (h : Word.major w = 0x26) (m : Word.minor w = 0) (p : fld x 3 3 = 6) : laneCell w x = long1D .sqrtDLong w x := by
  unfold laneCell; rw [h, m, p]; rfl
theorem laneCell_rintDLong {w x : BitVec 32} (h : Word.major w = 0x26) (m : Word.minor w = 0) (p : fld x 3 3 = 7) : laneCell w x = long1D .rintDLong w x := by
  unfold laneCell; rw [h, m, p]; rfl
theorem laneCell_addFLong {w x : BitVec 32} (h : Word.major w = 0x26) (m : Word.minor w = 1) (p : fld x 3 3 = 0) : laneCell w x = long2D .addFLong w x := by
  unfold laneCell; rw [h, m, p]; rfl
theorem laneCell_subFLong {w x : BitVec 32} (h : Word.major w = 0x26) (m : Word.minor w = 1) (p : fld x 3 3 = 1) : laneCell w x = long2D .subFLong w x := by
  unfold laneCell; rw [h, m, p]; rfl
theorem laneCell_mulFLong {w x : BitVec 32} (h : Word.major w = 0x26) (m : Word.minor w = 1) (p : fld x 3 3 = 2) : laneCell w x = long2D .mulFLong w x := by
  unfold laneCell; rw [h, m, p]; rfl
theorem laneCell_divFLong {w x : BitVec 32} (h : Word.major w = 0x26) (m : Word.minor w = 1) (p : fld x 3 3 = 3) : laneCell w x = long2D .divFLong w x := by
  unfold laneCell; rw [h, m, p]; rfl
theorem laneCell_minFLong {w x : BitVec 32} (h : Word.major w = 0x26) (m : Word.minor w = 1) (p : fld x 3 3 = 4) : laneCell w x = longMMD .minFLong w x := by
  unfold laneCell; rw [h, m, p]; rfl
theorem laneCell_maxFLong {w x : BitVec 32} (h : Word.major w = 0x26) (m : Word.minor w = 1) (p : fld x 3 3 = 5) : laneCell w x = longMMD .maxFLong w x := by
  unfold laneCell; rw [h, m, p]; rfl
theorem laneCell_sqrtFLong {w x : BitVec 32} (h : Word.major w = 0x26) (m : Word.minor w = 1) (p : fld x 3 3 = 6) : laneCell w x = long1D .sqrtFLong w x := by
  unfold laneCell; rw [h, m, p]; rfl
theorem laneCell_rintFLong {w x : BitVec 32} (h : Word.major w = 0x26) (m : Word.minor w = 1) (p : fld x 3 3 = 7) : laneCell w x = long1D .rintFLong w x := by
  unfold laneCell; rw [h, m, p]; rfl
theorem laneCell_addHfLong {w x : BitVec 32} (h : Word.major w = 0x26) (m : Word.minor w = 2) (p : fld x 3 3 = 0) : laneCell w x = long2D .addHfLong w x := by
  unfold laneCell; rw [h, m, p]; rfl
theorem laneCell_subHfLong {w x : BitVec 32} (h : Word.major w = 0x26) (m : Word.minor w = 2) (p : fld x 3 3 = 1) : laneCell w x = long2D .subHfLong w x := by
  unfold laneCell; rw [h, m, p]; rfl
theorem laneCell_mulHfLong {w x : BitVec 32} (h : Word.major w = 0x26) (m : Word.minor w = 2) (p : fld x 3 3 = 2) : laneCell w x = long2D .mulHfLong w x := by
  unfold laneCell; rw [h, m, p]; rfl
theorem laneCell_minHfLong {w x : BitVec 32} (h : Word.major w = 0x26) (m : Word.minor w = 2) (p : fld x 3 3 = 3) : laneCell w x = longMMD .minHfLong w x := by
  unfold laneCell; rw [h, m, p]; rfl
theorem laneCell_maxHfLong {w x : BitVec 32} (h : Word.major w = 0x26) (m : Word.minor w = 2) (p : fld x 3 3 = 4) : laneCell w x = longMMD .maxHfLong w x := by
  unfold laneCell; rw [h, m, p]; rfl
theorem laneCell_addBfLong {w x : BitVec 32} (h : Word.major w = 0x26) (m : Word.minor w = 3) (p : fld x 3 3 = 0) : laneCell w x = long2D .addBfLong w x := by
  unfold laneCell; rw [h, m, p]; rfl
theorem laneCell_subBfLong {w x : BitVec 32} (h : Word.major w = 0x26) (m : Word.minor w = 3) (p : fld x 3 3 = 1) : laneCell w x = long2D .subBfLong w x := by
  unfold laneCell; rw [h, m, p]; rfl
theorem laneCell_mulBfLong {w x : BitVec 32} (h : Word.major w = 0x26) (m : Word.minor w = 3) (p : fld x 3 3 = 2) : laneCell w x = long2D .mulBfLong w x := by
  unfold laneCell; rw [h, m, p]; rfl
theorem laneCell_minBfLong {w x : BitVec 32} (h : Word.major w = 0x26) (m : Word.minor w = 3) (p : fld x 3 3 = 3) : laneCell w x = longMMD .minBfLong w x := by
  unfold laneCell; rw [h, m, p]; rfl
theorem laneCell_maxBfLong {w x : BitVec 32} (h : Word.major w = 0x26) (m : Word.minor w = 3) (p : fld x 3 3 = 4) : laneCell w x = longMMD .maxBfLong w x := by
  unfold laneCell; rw [h, m, p]; rfl
theorem glossCell_gadd {w : BitVec 32} (h : fld w 26 6 = 0x01) : glossCell w = grD .gadd w := by
  unfold glossCell; rw [h]; rfl
theorem glossCell_gsub {w : BitVec 32} (h : fld w 26 6 = 0x02) : glossCell w = grD .gsub w := by
  unfold glossCell; rw [h]; rfl
theorem glossCell_gand {w : BitVec 32} (h : fld w 26 6 = 0x03) : glossCell w = grD .gand w := by
  unfold glossCell; rw [h]; rfl
theorem glossCell_gor {w : BitVec 32} (h : fld w 26 6 = 0x04) : glossCell w = grD .gor w := by
  unfold glossCell; rw [h]; rfl
theorem glossCell_gxor {w : BitVec 32} (h : fld w 26 6 = 0x05) : glossCell w = grD .gxor w := by
  unfold glossCell; rw [h]; rfl
theorem glossCell_gshl {w : BitVec 32} (h : fld w 26 6 = 0x06) : glossCell w = grD .gshl w := by
  unfold glossCell; rw [h]; rfl
theorem glossCell_gshr {w : BitVec 32} (h : fld w 26 6 = 0x07) : glossCell w = grD .gshr w := by
  unfold glossCell; rw [h]; rfl
theorem glossCell_gmin {w : BitVec 32} (h : fld w 26 6 = 0x08) : glossCell w = grD .gmin w := by
  unfold glossCell; rw [h]; rfl
theorem glossCell_gmax {w : BitVec 32} (h : fld w 26 6 = 0x09) : glossCell w = grD .gmax w := by
  unfold glossCell; rw [h]; rfl
theorem glossCell_gmul {w : BitVec 32} (h : fld w 26 6 = 0x0A) : glossCell w = grD .gmul w := by
  unfold glossCell; rw [h]; rfl
theorem glossCell_gmovi {w : BitVec 32} (h : fld w 26 6 = 0x0B) : glossCell w = gmoviD .gmovi w := by
  unfold glossCell; rw [h]; rfl
theorem glossCell_gaddi {w : BitVec 32} (h : fld w 26 6 = 0x0C) : glossCell w = giD .gaddi w := by
  unfold glossCell; rw [h]; rfl
theorem glossCell_gandi {w : BitVec 32} (h : fld w 26 6 = 0x0D) : glossCell w = giD .gandi w := by
  unfold glossCell; rw [h]; rfl
theorem glossCell_gshli {w : BitVec 32} (h : fld w 26 6 = 0x0E) : glossCell w = giD .gshli w := by
  unfold glossCell; rw [h]; rfl
theorem glossCell_gshri {w : BitVec 32} (h : fld w 26 6 = 0x0F) : glossCell w = giD .gshri w := by
  unfold glossCell; rw [h]; rfl
theorem glossCell_gld {w : BitVec 32} (h : fld w 26 6 = 0x10) : glossCell w = giD .gld w := by
  unfold glossCell; rw [h]; rfl
theorem glossCell_gst {w : BitVec 32} (h : fld w 26 6 = 0x11) : glossCell w = giD .gst w := by
  unfold glossCell; rw [h]; rfl
theorem glossCell_gbeq {w : BitVec 32} (h : fld w 26 6 = 0x12) : glossCell w = gbD .gbeq w := by
  unfold glossCell; rw [h]; rfl
theorem glossCell_gbne {w : BitVec 32} (h : fld w 26 6 = 0x13) : glossCell w = gbD .gbne w := by
  unfold glossCell; rw [h]; rfl
theorem glossCell_gblt {w : BitVec 32} (h : fld w 26 6 = 0x14) : glossCell w = gbD .gblt w := by
  unfold glossCell; rw [h]; rfl
theorem glossCell_gbge {w : BitVec 32} (h : fld w 26 6 = 0x15) : glossCell w = gbD .gbge w := by
  unfold glossCell; rw [h]; rfl
theorem glossCell_gbr {w : BitVec 32} (h : fld w 26 6 = 0x16) : glossCell w = gbrD .gbr w := by
  unfold glossCell; rw [h]; rfl
theorem glossCell_ghash {w : BitVec 32} (h : fld w 26 6 = 0x17) : glossCell w = grD .ghash w := by
  unfold glossCell; rw [h]; rfl
theorem glossCell_ghist {w : BitVec 32} (h : fld w 26 6 = 0x18) : glossCell w = grD .ghist w := by
  unfold glossCell; rw [h]; rfl
theorem glossCell_gcms {w : BitVec 32} (h : fld w 26 6 = 0x19) : glossCell w = grD .gcms w := by
  unfold glossCell; rw [h]; rfl
theorem glossCell_ghll {w : BitVec 32} (h : fld w 26 6 = 0x1A) : glossCell w = grD .ghll w := by
  unfold glossCell; rw [h]; rfl
theorem glossCell_gfire {w : BitVec 32} (h : fld w 26 6 = 0x1B) : glossCell w = gfireD .gfire w := by
  unfold glossCell; rw [h]; rfl
theorem glossCell_gend {w : BitVec 32} (h : fld w 26 6 = 0x1C) : glossCell w = gendD .gend w := by
  unfold glossCell; rw [h]; rfl

/-! ## One instruction -/

/-- A one-word instruction is what the decoder reads from its word, whatever follows. -/
theorem decode_one {w : BitVec 32} {i : Instr} (hg : isGuard w = false) (ht : twoWord w = false)
    (hc : (if Word.set w = 0 then laneCell w 0 else uniCell w 0) = .ok i) (hf : i.flaw = .none) (rest : List (BitVec 32)) :
    decodeWords ([w] ++ rest) = .ok ⟨.none, i, 4⟩ := by
  simp only [List.cons_append, List.nil_append, decodeWords, hg, ht, decodePlain, hc, hf]; rfl

theorem decode_two {w x : BitVec 32} {i : Instr} (hg : isGuard w = false) (ht : twoWord w = true)
    (hc : (if Word.set w = 0 then laneCell w x else uniCell w x) = .ok i) (hf : i.flaw = .none) (rest : List (BitVec 32)) :
    decodeWords ([w, x] ++ rest) = .ok ⟨.none, i, 8⟩ := by
  simp only [List.cons_append, List.nil_append, decodeWords, hg, ht, decodePlain, hc, hf]; rfl

namespace Laws.RoundTrip

/-- Encoding a well-formed instruction and decoding it gives it back, of its length, whatever words follow; a gloss instruction is one
word of its own decoder; a step of the module has no words. -/
def Statement (i : Instr) : Prop :=
  i.flaw = .none →
    if i.isEvent then encode i = []
    else if i.isGloss then ∃ w, encode i = [w] ∧ decodeGloss w = .ok i
    else ∀ rest, decodeWords (encode i ++ rest) = .ok ⟨.none, i, 4 * (encode i).length⟩

theorem guard_of {w : BitVec 32} {maj : BitVec 6} (h : Word.major w = maj) (n : (maj == 0x3F) = false) : isGuard w = false := by
  unfold isGuard; rw [h]; exact n
theorem two_lane {w : BitVec 32} {maj : BitVec 6} {b : Bool} (s : Word.set w = 0) (h : Word.major w = maj)
    (n : [0x18, 0x25, 0x26, 0x28, 0x2C, 0x2D, 0x38, 0x39].contains maj.toNat = b) : twoWord w = b := by
  unfold twoWord; rw [if_pos s, h]; exact n
theorem two_uni {w : BitVec 32} {maj : BitVec 6} {b : Bool} (s : Word.set w = 1) (h : Word.major w = maj)
    (n : [0x06, 0x07, 0x0E, 0x10].contains maj.toNat = b) : twoWord w = b := by
  unfold twoWord; rw [if_neg (by rw [s]; decide), h]; exact n

theorem lane1 {i : Instr} {w : BitVec 32} {maj : BitVec 6} (he : i.isEvent = false) (hg : i.isGloss = false) (hw : encode i = [w])
    (s : Word.set w = 0) (h : Word.major w = maj) (n : (maj == 0x3F) = false)
    (t : [0x18, 0x25, 0x26, 0x28, 0x2C, 0x2D, 0x38, 0x39].contains maj.toNat = false) (hc : laneCell w 0 = .ok i) : Statement i := by
  intro hf; rw [he, hg, hw]
  exact decode_one (guard_of h n) (two_lane s h t) (by rw [if_pos s]; exact hc) hf
theorem lane2 {i : Instr} {w x : BitVec 32} {maj : BitVec 6} (he : i.isEvent = false) (hg : i.isGloss = false) (hw : encode i = [w, x])
    (s : Word.set w = 0) (h : Word.major w = maj) (n : (maj == 0x3F) = false)
    (t : [0x18, 0x25, 0x26, 0x28, 0x2C, 0x2D, 0x38, 0x39].contains maj.toNat = true) (hc : laneCell w x = .ok i) : Statement i := by
  intro hf; rw [he, hg, hw]
  exact decode_two (guard_of h n) (two_lane s h t) (by rw [if_pos s]; exact hc) hf
theorem uni1 {i : Instr} {w : BitVec 32} {maj : BitVec 6} (he : i.isEvent = false) (hg : i.isGloss = false) (hw : encode i = [w])
    (s : Word.set w = 1) (h : Word.major w = maj) (n : (maj == 0x3F) = false)
    (t : [0x06, 0x07, 0x0E, 0x10].contains maj.toNat = false) (hc : uniCell w 0 = .ok i) : Statement i := by
  intro hf; rw [he, hg, hw]
  exact decode_one (guard_of h n) (two_uni s h t) (by rw [if_neg (by rw [s]; decide)]; exact hc) hf
theorem uni2 {i : Instr} {w x : BitVec 32} {maj : BitVec 6} (he : i.isEvent = false) (hg : i.isGloss = false) (hw : encode i = [w, x])
    (s : Word.set w = 1) (h : Word.major w = maj) (n : (maj == 0x3F) = false)
    (t : [0x06, 0x07, 0x0E, 0x10].contains maj.toNat = true) (hc : uniCell w x = .ok i) : Statement i := by
  intro hf; rw [he, hg, hw]
  exact decode_two (guard_of h n) (two_uni s h t) (by rw [if_neg (by rw [s]; decide)]; exact hc) hf
theorem gloss {i : Instr} {w : BitVec 32} (he : i.isEvent = false) (hg : i.isGloss = true) (hw : encode i = [w])
    (hc : glossCell w = .ok i) : Statement i := by
  intro hf; rw [he, hg]
  exact ⟨w, hw, by unfold decodeGloss; rw [hc]; simp only [hf]⟩
theorem event {i : Instr} (he : i.isEvent = true) (hw : encode i = []) : Statement i := by
  intro _; rw [he]; exact hw

/-! ## Every instruction -/

theorem addI64 (d : BitVec 6) (a b : Src) : Statement (.addI64 d a b) :=
  lane1 (maj := 0x01) rfl rfl rfl (wordR_set ..) (wordR_major ..) rfl rfl
    ((laneCell_addI64 (wordR_major ..) (wordR_minor ..)).trans (lr2D_enc ..))
theorem subI64 (d : BitVec 6) (a b : Src) : Statement (.subI64 d a b) :=
  lane1 (maj := 0x01) rfl rfl rfl (wordR_set ..) (wordR_major ..) rfl rfl
    ((laneCell_subI64 (wordR_major ..) (wordR_minor ..)).trans (lr2D_enc ..))
theorem addI32 (d : BitVec 6) (a b : Src) : Statement (.addI32 d a b) :=
  lane1 (maj := 0x01) rfl rfl rfl (wordR_set ..) (wordR_major ..) rfl rfl
    ((laneCell_addI32 (wordR_major ..) (wordR_minor ..)).trans (lr2D_enc ..))
theorem subI32 (d : BitVec 6) (a b : Src) : Statement (.subI32 d a b) :=
  lane1 (maj := 0x01) rfl rfl rfl (wordR_set ..) (wordR_major ..) rfl rfl
    ((laneCell_subI32 (wordR_major ..) (wordR_minor ..)).trans (lr2D_enc ..))
theorem addN32 (d : BitVec 6) (a b : Src) : Statement (.addN32 d a b) :=
  lane1 (maj := 0x01) rfl rfl rfl (wordR_set ..) (wordR_major ..) rfl rfl
    ((laneCell_addN32 (wordR_major ..) (wordR_minor ..)).trans (lr2D_enc ..))
theorem subN32 (d : BitVec 6) (a b : Src) : Statement (.subN32 d a b) :=
  lane1 (maj := 0x01) rfl rfl rfl (wordR_set ..) (wordR_major ..) rfl rfl
    ((laneCell_subN32 (wordR_major ..) (wordR_minor ..)).trans (lr2D_enc ..))
theorem addI64Sat (d : BitVec 6) (a b : Src) : Statement (.addI64Sat d a b) :=
  lane1 (maj := 0x01) rfl rfl rfl (wordR_set ..) (wordR_major ..) rfl rfl
    ((laneCell_addI64Sat (wordR_major ..) (wordR_minor ..)).trans (lr2D_enc ..))
theorem subI64Sat (d : BitVec 6) (a b : Src) : Statement (.subI64Sat d a b) :=
  lane1 (maj := 0x01) rfl rfl rfl (wordR_set ..) (wordR_major ..) rfl rfl
    ((laneCell_subI64Sat (wordR_major ..) (wordR_minor ..)).trans (lr2D_enc ..))
theorem addN64Sat (d : BitVec 6) (a b : Src) : Statement (.addN64Sat d a b) :=
  lane1 (maj := 0x02) rfl rfl rfl (wordR_set ..) (wordR_major ..) rfl rfl
    ((laneCell_addN64Sat (wordR_major ..) (wordR_minor ..)).trans (lr2D_enc ..))
theorem subN64Sat (d : BitVec 6) (a b : Src) : Statement (.subN64Sat d a b) :=
  lane1 (maj := 0x02) rfl rfl rfl (wordR_set ..) (wordR_major ..) rfl rfl
    ((laneCell_subN64Sat (wordR_major ..) (wordR_minor ..)).trans (lr2D_enc ..))
theorem addI32Sat (d : BitVec 6) (a b : Src) : Statement (.addI32Sat d a b) :=
  lane1 (maj := 0x02) rfl rfl rfl (wordR_set ..) (wordR_major ..) rfl rfl
    ((laneCell_addI32Sat (wordR_major ..) (wordR_minor ..)).trans (lr2D_enc ..))
theorem subI32Sat (d : BitVec 6) (a b : Src) : Statement (.subI32Sat d a b) :=
  lane1 (maj := 0x02) rfl rfl rfl (wordR_set ..) (wordR_major ..) rfl rfl
    ((laneCell_subI32Sat (wordR_major ..) (wordR_minor ..)).trans (lr2D_enc ..))
theorem addN32Sat (d : BitVec 6) (a b : Src) : Statement (.addN32Sat d a b) :=
  lane1 (maj := 0x02) rfl rfl rfl (wordR_set ..) (wordR_major ..) rfl rfl
    ((laneCell_addN32Sat (wordR_major ..) (wordR_minor ..)).trans (lr2D_enc ..))
theorem subN32Sat (d : BitVec 6) (a b : Src) : Statement (.subN32Sat d a b) :=
  lane1 (maj := 0x02) rfl rfl rfl (wordR_set ..) (wordR_major ..) rfl rfl
    ((laneCell_subN32Sat (wordR_major ..) (wordR_minor ..)).trans (lr2D_enc ..))
theorem negI64 (d : BitVec 6) (a : Src) : Statement (.negI64 d a) :=
  lane1 (maj := 0x02) rfl rfl rfl (wordR_set ..) (wordR_major ..) rfl rfl
    ((laneCell_negI64 (wordR_major ..) (wordR_minor ..)).trans (lr1D_enc ..))
theorem absI64 (d : BitVec 6) (a : Src) : Statement (.absI64 d a) :=
  lane1 (maj := 0x02) rfl rfl rfl (wordR_set ..) (wordR_major ..) rfl rfl
    ((laneCell_absI64 (wordR_major ..) (wordR_minor ..)).trans (lr1D_enc ..))
theorem mulI64 (d : BitVec 6) (a b : Src) : Statement (.mulI64 d a b) :=
  lane1 (maj := 0x03) rfl rfl rfl (wordR_set ..) (wordR_major ..) rfl rfl
    ((laneCell_mulI64 (wordR_major ..) (wordR_minor ..)).trans (lr2D_enc ..))
theorem mulhiI64 (d : BitVec 6) (a b : Src) : Statement (.mulhiI64 d a b) :=
  lane1 (maj := 0x03) rfl rfl rfl (wordR_set ..) (wordR_major ..) rfl rfl
    ((laneCell_mulhiI64 (wordR_major ..) (wordR_minor ..)).trans (lr2D_enc ..))
theorem mulhiN64 (d : BitVec 6) (a b : Src) : Statement (.mulhiN64 d a b) :=
  lane1 (maj := 0x03) rfl rfl rfl (wordR_set ..) (wordR_major ..) rfl rfl
    ((laneCell_mulhiN64 (wordR_major ..) (wordR_minor ..)).trans (lr2D_enc ..))
theorem mulI32 (d : BitVec 6) (a b : Src) : Statement (.mulI32 d a b) :=
  lane1 (maj := 0x03) rfl rfl rfl (wordR_set ..) (wordR_major ..) rfl rfl
    ((laneCell_mulI32 (wordR_major ..) (wordR_minor ..)).trans (lr2D_enc ..))
theorem mulN32 (d : BitVec 6) (a b : Src) : Statement (.mulN32 d a b) :=
  lane1 (maj := 0x03) rfl rfl rfl (wordR_set ..) (wordR_major ..) rfl rfl
    ((laneCell_mulN32 (wordR_major ..) (wordR_minor ..)).trans (lr2D_enc ..))
theorem mulwI32 (d : BitVec 6) (a b : Src) : Statement (.mulwI32 d a b) :=
  lane1 (maj := 0x03) rfl rfl rfl (wordR_set ..) (wordR_major ..) rfl rfl
    ((laneCell_mulwI32 (wordR_major ..) (wordR_minor ..)).trans (lr2D_enc ..))
theorem mulwN32 (d : BitVec 6) (a b : Src) : Statement (.mulwN32 d a b) :=
  lane1 (maj := 0x03) rfl rfl rfl (wordR_set ..) (wordR_major ..) rfl rfl
    ((laneCell_mulwN32 (wordR_major ..) (wordR_minor ..)).trans (lr2D_enc ..))
theorem minI64 (d : BitVec 6) (a b : Src) : Statement (.minI64 d a b) :=
  lane1 (maj := 0x04) rfl rfl rfl (wordR_set ..) (wordR_major ..) rfl rfl
    ((laneCell_minI64 (wordR_major ..) (wordR_minor ..)).trans (lr2D_enc ..))
theorem maxI64 (d : BitVec 6) (a b : Src) : Statement (.maxI64 d a b) :=
  lane1 (maj := 0x04) rfl rfl rfl (wordR_set ..) (wordR_major ..) rfl rfl
    ((laneCell_maxI64 (wordR_major ..) (wordR_minor ..)).trans (lr2D_enc ..))
theorem minN64 (d : BitVec 6) (a b : Src) : Statement (.minN64 d a b) :=
  lane1 (maj := 0x04) rfl rfl rfl (wordR_set ..) (wordR_major ..) rfl rfl
    ((laneCell_minN64 (wordR_major ..) (wordR_minor ..)).trans (lr2D_enc ..))
theorem maxN64 (d : BitVec 6) (a b : Src) : Statement (.maxN64 d a b) :=
  lane1 (maj := 0x04) rfl rfl rfl (wordR_set ..) (wordR_major ..) rfl rfl
    ((laneCell_maxN64 (wordR_major ..) (wordR_minor ..)).trans (lr2D_enc ..))
theorem minI32 (d : BitVec 6) (a b : Src) : Statement (.minI32 d a b) :=
  lane1 (maj := 0x04) rfl rfl rfl (wordR_set ..) (wordR_major ..) rfl rfl
    ((laneCell_minI32 (wordR_major ..) (wordR_minor ..)).trans (lr2D_enc ..))
theorem maxI32 (d : BitVec 6) (a b : Src) : Statement (.maxI32 d a b) :=
  lane1 (maj := 0x04) rfl rfl rfl (wordR_set ..) (wordR_major ..) rfl rfl
    ((laneCell_maxI32 (wordR_major ..) (wordR_minor ..)).trans (lr2D_enc ..))
theorem minN32 (d : BitVec 6) (a b : Src) : Statement (.minN32 d a b) :=
  lane1 (maj := 0x04) rfl rfl rfl (wordR_set ..) (wordR_major ..) rfl rfl
    ((laneCell_minN32 (wordR_major ..) (wordR_minor ..)).trans (lr2D_enc ..))
theorem maxN32 (d : BitVec 6) (a b : Src) : Statement (.maxN32 d a b) :=
  lane1 (maj := 0x04) rfl rfl rfl (wordR_set ..) (wordR_major ..) rfl rfl
    ((laneCell_maxN32 (wordR_major ..) (wordR_minor ..)).trans (lr2D_enc ..))
theorem and (d : BitVec 6) (a b : Src) : Statement (.and d a b) :=
  lane1 (maj := 0x05) rfl rfl rfl (wordR_set ..) (wordR_major ..) rfl rfl
    ((laneCell_and (wordR_major ..) (wordR_minor ..)).trans (lr2D_enc ..))
theorem or (d : BitVec 6) (a b : Src) : Statement (.or d a b) :=
  lane1 (maj := 0x05) rfl rfl rfl (wordR_set ..) (wordR_major ..) rfl rfl
    ((laneCell_or (wordR_major ..) (wordR_minor ..)).trans (lr2D_enc ..))
theorem xor (d : BitVec 6) (a b : Src) : Statement (.xor d a b) :=
  lane1 (maj := 0x05) rfl rfl rfl (wordR_set ..) (wordR_major ..) rfl rfl
    ((laneCell_xor (wordR_major ..) (wordR_minor ..)).trans (lr2D_enc ..))
theorem andn (d : BitVec 6) (a b : Src) : Statement (.andn d a b) :=
  lane1 (maj := 0x05) rfl rfl rfl (wordR_set ..) (wordR_major ..) rfl rfl
    ((laneCell_andn (wordR_major ..) (wordR_minor ..)).trans (lr2D_enc ..))
theorem orn (d : BitVec 6) (a b : Src) : Statement (.orn d a b) :=
  lane1 (maj := 0x05) rfl rfl rfl (wordR_set ..) (wordR_major ..) rfl rfl
    ((laneCell_orn (wordR_major ..) (wordR_minor ..)).trans (lr2D_enc ..))
theorem xnor (d : BitVec 6) (a b : Src) : Statement (.xnor d a b) :=
  lane1 (maj := 0x05) rfl rfl rfl (wordR_set ..) (wordR_major ..) rfl rfl
    ((laneCell_xnor (wordR_major ..) (wordR_minor ..)).trans (lr2D_enc ..))
theorem not (d : BitVec 6) (a : Src) : Statement (.not d a) :=
  lane1 (maj := 0x05) rfl rfl rfl (wordR_set ..) (wordR_major ..) rfl rfl
    ((laneCell_not (wordR_major ..) (wordR_minor ..)).trans (lr1D_enc ..))
theorem mov (d : BitVec 6) (a : Src) (u : Bool) : Statement (.mov d a u) :=
  lane1 (maj := 0x05) rfl rfl rfl (wordR_set ..) (wordR_major ..) rfl rfl
    ((laneCell_mov (wordR_major ..) (wordR_minor ..)).trans (movD_enc ..))
theorem shlN64 (d : BitVec 6) (a b : Src) : Statement (.shlN64 d a b) :=
  lane1 (maj := 0x06) rfl rfl rfl (wordR_set ..) (wordR_major ..) rfl rfl
    ((laneCell_shlN64 (wordR_major ..) (wordR_minor ..)).trans (lr2D_enc ..))
theorem shrN64 (d : BitVec 6) (a b : Src) : Statement (.shrN64 d a b) :=
  lane1 (maj := 0x06) rfl rfl rfl (wordR_set ..) (wordR_major ..) rfl rfl
    ((laneCell_shrN64 (wordR_major ..) (wordR_minor ..)).trans (lr2D_enc ..))
theorem shrI64 (d : BitVec 6) (a b : Src) : Statement (.shrI64 d a b) :=
  lane1 (maj := 0x06) rfl rfl rfl (wordR_set ..) (wordR_major ..) rfl rfl
    ((laneCell_shrI64 (wordR_major ..) (wordR_minor ..)).trans (lr2D_enc ..))
theorem rotlN64 (d : BitVec 6) (a b : Src) : Statement (.rotlN64 d a b) :=
  lane1 (maj := 0x06) rfl rfl rfl (wordR_set ..) (wordR_major ..) rfl rfl
    ((laneCell_rotlN64 (wordR_major ..) (wordR_minor ..)).trans (lr2D_enc ..))
theorem shlN32 (d : BitVec 6) (a b : Src) : Statement (.shlN32 d a b) :=
  lane1 (maj := 0x06) rfl rfl rfl (wordR_set ..) (wordR_major ..) rfl rfl
    ((laneCell_shlN32 (wordR_major ..) (wordR_minor ..)).trans (lr2D_enc ..))
theorem shrN32 (d : BitVec 6) (a b : Src) : Statement (.shrN32 d a b) :=
  lane1 (maj := 0x06) rfl rfl rfl (wordR_set ..) (wordR_major ..) rfl rfl
    ((laneCell_shrN32 (wordR_major ..) (wordR_minor ..)).trans (lr2D_enc ..))
theorem shrI32 (d : BitVec 6) (a b : Src) : Statement (.shrI32 d a b) :=
  lane1 (maj := 0x06) rfl rfl rfl (wordR_set ..) (wordR_major ..) rfl rfl
    ((laneCell_shrI32 (wordR_major ..) (wordR_minor ..)).trans (lr2D_enc ..))
theorem rotlN32 (d : BitVec 6) (a b : Src) : Statement (.rotlN32 d a b) :=
  lane1 (maj := 0x06) rfl rfl rfl (wordR_set ..) (wordR_major ..) rfl rfl
    ((laneCell_rotlN32 (wordR_major ..) (wordR_minor ..)).trans (lr2D_enc ..))
theorem popc (d : BitVec 6) (a : Src) : Statement (.popc d a) :=
  lane1 (maj := 0x07) rfl rfl rfl (wordR_set ..) (wordR_major ..) rfl rfl
    ((laneCell_popc (wordR_major ..) (wordR_minor ..)).trans (lr1D_enc ..))
theorem clz (d : BitVec 6) (a : Src) : Statement (.clz d a) :=
  lane1 (maj := 0x07) rfl rfl rfl (wordR_set ..) (wordR_major ..) rfl rfl
    ((laneCell_clz (wordR_major ..) (wordR_minor ..)).trans (lr1D_enc ..))
theorem ctz (d : BitVec 6) (a : Src) : Statement (.ctz d a) :=
  lane1 (maj := 0x07) rfl rfl rfl (wordR_set ..) (wordR_major ..) rfl rfl
    ((laneCell_ctz (wordR_major ..) (wordR_minor ..)).trans (lr1D_enc ..))
theorem brev (d : BitVec 6) (a : Src) : Statement (.brev d a) :=
  lane1 (maj := 0x07) rfl rfl rfl (wordR_set ..) (wordR_major ..) rfl rfl
    ((laneCell_brev (wordR_major ..) (wordR_minor ..)).trans (lr1D_enc ..))
theorem bswap (d : BitVec 6) (a : Src) : Statement (.bswap d a) :=
  lane1 (maj := 0x07) rfl rfl rfl (wordR_set ..) (wordR_major ..) rfl rfl
    ((laneCell_bswap (wordR_major ..) (wordR_minor ..)).trans (lr1D_enc ..))
theorem sextI8 (d : BitVec 6) (a : Src) : Statement (.sextI8 d a) :=
  lane1 (maj := 0x07) rfl rfl rfl (wordR_set ..) (wordR_major ..) rfl rfl
    ((laneCell_sextI8 (wordR_major ..) (wordR_minor ..)).trans (lr1D_enc ..))
theorem sextI16 (d : BitVec 6) (a : Src) : Statement (.sextI16 d a) :=
  lane1 (maj := 0x07) rfl rfl rfl (wordR_set ..) (wordR_major ..) rfl rfl
    ((laneCell_sextI16 (wordR_major ..) (wordR_minor ..)).trans (lr1D_enc ..))
theorem sextI32 (d : BitVec 6) (a : Src) : Statement (.sextI32 d a) :=
  lane1 (maj := 0x07) rfl rfl rfl (wordR_set ..) (wordR_major ..) rfl rfl
    ((laneCell_sextI32 (wordR_major ..) (wordR_minor ..)).trans (lr1D_enc ..))
theorem lea (d : BitVec 6) (a b : Src) (k : BitVec 3) : Statement (.lea d a b k) :=
  lane1 (maj := 0x08) rfl rfl rfl (wordR_set ..) (wordR_major ..) rfl rfl
    ((laneCell_lea (wordR_major ..)).trans (krD_enc ..))
theorem setpEqI64 (p : BitVec 3) (a b : Src) : Statement (.setpEqI64 p a b) :=
  lane1 (maj := 0x09) rfl rfl rfl (wordR_set ..) (wordR_major ..) rfl rfl
    ((laneCell_setpEqI64 (wordR_major ..) (wordR_minor ..)).trans (pd2D_enc ..))
theorem setpNeI64 (p : BitVec 3) (a b : Src) : Statement (.setpNeI64 p a b) :=
  lane1 (maj := 0x09) rfl rfl rfl (wordR_set ..) (wordR_major ..) rfl rfl
    ((laneCell_setpNeI64 (wordR_major ..) (wordR_minor ..)).trans (pd2D_enc ..))
theorem setpLtI64 (p : BitVec 3) (a b : Src) : Statement (.setpLtI64 p a b) :=
  lane1 (maj := 0x09) rfl rfl rfl (wordR_set ..) (wordR_major ..) rfl rfl
    ((laneCell_setpLtI64 (wordR_major ..) (wordR_minor ..)).trans (pd2D_enc ..))
theorem setpLeI64 (p : BitVec 3) (a b : Src) : Statement (.setpLeI64 p a b) :=
  lane1 (maj := 0x09) rfl rfl rfl (wordR_set ..) (wordR_major ..) rfl rfl
    ((laneCell_setpLeI64 (wordR_major ..) (wordR_minor ..)).trans (pd2D_enc ..))
theorem setpLtN64 (p : BitVec 3) (a b : Src) : Statement (.setpLtN64 p a b) :=
  lane1 (maj := 0x09) rfl rfl rfl (wordR_set ..) (wordR_major ..) rfl rfl
    ((laneCell_setpLtN64 (wordR_major ..) (wordR_minor ..)).trans (pd2D_enc ..))
theorem setpLeN64 (p : BitVec 3) (a b : Src) : Statement (.setpLeN64 p a b) :=
  lane1 (maj := 0x09) rfl rfl rfl (wordR_set ..) (wordR_major ..) rfl rfl
    ((laneCell_setpLeN64 (wordR_major ..) (wordR_minor ..)).trans (pd2D_enc ..))
theorem setpTst (p : BitVec 3) (a b : Src) : Statement (.setpTst p a b) :=
  lane1 (maj := 0x09) rfl rfl rfl (wordR_set ..) (wordR_major ..) rfl rfl
    ((laneCell_setpTst (wordR_major ..) (wordR_minor ..)).trans (pd2D_enc ..))
theorem setpEqI32 (p : BitVec 3) (a b : Src) : Statement (.setpEqI32 p a b) :=
  lane1 (maj := 0x0A) rfl rfl rfl (wordR_set ..) (wordR_major ..) rfl rfl
    ((laneCell_setpEqI32 (wordR_major ..) (wordR_minor ..)).trans (pd2D_enc ..))
theorem setpNeI32 (p : BitVec 3) (a b : Src) : Statement (.setpNeI32 p a b) :=
  lane1 (maj := 0x0A) rfl rfl rfl (wordR_set ..) (wordR_major ..) rfl rfl
    ((laneCell_setpNeI32 (wordR_major ..) (wordR_minor ..)).trans (pd2D_enc ..))
theorem setpLtI32 (p : BitVec 3) (a b : Src) : Statement (.setpLtI32 p a b) :=
  lane1 (maj := 0x0A) rfl rfl rfl (wordR_set ..) (wordR_major ..) rfl rfl
    ((laneCell_setpLtI32 (wordR_major ..) (wordR_minor ..)).trans (pd2D_enc ..))
theorem setpLeI32 (p : BitVec 3) (a b : Src) : Statement (.setpLeI32 p a b) :=
  lane1 (maj := 0x0A) rfl rfl rfl (wordR_set ..) (wordR_major ..) rfl rfl
    ((laneCell_setpLeI32 (wordR_major ..) (wordR_minor ..)).trans (pd2D_enc ..))
theorem setpLtN32 (p : BitVec 3) (a b : Src) : Statement (.setpLtN32 p a b) :=
  lane1 (maj := 0x0A) rfl rfl rfl (wordR_set ..) (wordR_major ..) rfl rfl
    ((laneCell_setpLtN32 (wordR_major ..) (wordR_minor ..)).trans (pd2D_enc ..))
theorem setpLeN32 (p : BitVec 3) (a b : Src) : Statement (.setpLeN32 p a b) :=
  lane1 (maj := 0x0A) rfl rfl rfl (wordR_set ..) (wordR_major ..) rfl rfl
    ((laneCell_setpLeN32 (wordR_major ..) (wordR_minor ..)).trans (pd2D_enc ..))
theorem pand (p q r : BitVec 3) : Statement (.pand p q r) :=
  lane1 (maj := 0x0B) rfl rfl rfl (wordR_set ..) (wordR_major ..) rfl rfl
    ((laneCell_pand (wordR_major ..) (wordR_minor ..)).trans (p3D_enc ..))
theorem por (p q r : BitVec 3) : Statement (.por p q r) :=
  lane1 (maj := 0x0B) rfl rfl rfl (wordR_set ..) (wordR_major ..) rfl rfl
    ((laneCell_por (wordR_major ..) (wordR_minor ..)).trans (p3D_enc ..))
theorem pxor (p q r : BitVec 3) : Statement (.pxor p q r) :=
  lane1 (maj := 0x0B) rfl rfl rfl (wordR_set ..) (wordR_major ..) rfl rfl
    ((laneCell_pxor (wordR_major ..) (wordR_minor ..)).trans (p3D_enc ..))
theorem pandn (p q r : BitVec 3) : Statement (.pandn p q r) :=
  lane1 (maj := 0x0B) rfl rfl rfl (wordR_set ..) (wordR_major ..) rfl rfl
    ((laneCell_pandn (wordR_major ..) (wordR_minor ..)).trans (p3D_enc ..))
theorem pnot (p q : BitVec 3) : Statement (.pnot p q) :=
  lane1 (maj := 0x0B) rfl rfl rfl (wordR_set ..) (wordR_major ..) rfl rfl
    ((laneCell_pnot (wordR_major ..) (wordR_minor ..)).trans (p2D_enc ..))
theorem sel (d : BitVec 6) (a b : Src) (k : BitVec 3) : Statement (.sel d a b k) :=
  lane1 (maj := 0x0C) rfl rfl rfl (wordR_set ..) (wordR_major ..) rfl rfl
    ((laneCell_sel (wordR_major ..)).trans (krD_enc ..))
theorem addI64Imm (d : BitVec 6) (a : Src) (i : BitVec 11) : Statement (.addI64Imm d a i) :=
  lane1 (maj := 0x0D) rfl rfl rfl (wordI_31 ..) (wordI_25 ..) rfl rfl
    ((laneCell_addI64Imm (wordI_25 ..)).trans (liD_enc ..))
theorem addI32Imm (d : BitVec 6) (a : Src) (i : BitVec 11) : Statement (.addI32Imm d a i) :=
  lane1 (maj := 0x0E) rfl rfl rfl (wordI_31 ..) (wordI_25 ..) rfl rfl
    ((laneCell_addI32Imm (wordI_25 ..)).trans (liD_enc ..))
theorem addI32SatImm (d : BitVec 6) (a : Src) (i : BitVec 11) : Statement (.addI32SatImm d a i) :=
  lane1 (maj := 0x0F) rfl rfl rfl (wordI_31 ..) (wordI_25 ..) rfl rfl
    ((laneCell_addI32SatImm (wordI_25 ..)).trans (liD_enc ..))
theorem addI64SatImm (d : BitVec 6) (a : Src) (i : BitVec 11) : Statement (.addI64SatImm d a i) :=
  lane1 (maj := 0x10) rfl rfl rfl (wordI_31 ..) (wordI_25 ..) rfl rfl
    ((laneCell_addI64SatImm (wordI_25 ..)).trans (liD_enc ..))
theorem andImm (d : BitVec 6) (a : Src) (i : BitVec 11) : Statement (.andImm d a i) :=
  lane1 (maj := 0x11) rfl rfl rfl (wordI_31 ..) (wordI_25 ..) rfl rfl
    ((laneCell_andImm (wordI_25 ..)).trans (liD_enc ..))
theorem orImm (d : BitVec 6) (a : Src) (i : BitVec 11) : Statement (.orImm d a i) :=
  lane1 (maj := 0x12) rfl rfl rfl (wordI_31 ..) (wordI_25 ..) rfl rfl
    ((laneCell_orImm (wordI_25 ..)).trans (liD_enc ..))
theorem xorImm (d : BitVec 6) (a : Src) (i : BitVec 11) : Statement (.xorImm d a i) :=
  lane1 (maj := 0x13) rfl rfl rfl (wordI_31 ..) (wordI_25 ..) rfl rfl
    ((laneCell_xorImm (wordI_25 ..)).trans (liD_enc ..))
theorem shlN64Imm (d : BitVec 6) (a : Src) (i : BitVec 11) : Statement (.shlN64Imm d a i) :=
  lane1 (maj := 0x14) rfl rfl rfl (wordI_31 ..) (wordI_25 ..) rfl rfl
    ((laneCell_shlN64Imm (wordI_25 ..)).trans (liD_enc ..))
theorem shrN64Imm (d : BitVec 6) (a : Src) (i : BitVec 11) : Statement (.shrN64Imm d a i) :=
  lane1 (maj := 0x15) rfl rfl rfl (wordI_31 ..) (wordI_25 ..) rfl rfl
    ((laneCell_shrN64Imm (wordI_25 ..)).trans (liD_enc ..))
theorem shrI64Imm (d : BitVec 6) (a : Src) (i : BitVec 11) : Statement (.shrI64Imm d a i) :=
  lane1 (maj := 0x16) rfl rfl rfl (wordI_31 ..) (wordI_25 ..) rfl rfl
    ((laneCell_shrI64Imm (wordI_25 ..)).trans (liD_enc ..))
theorem mulI64Imm (d : BitVec 6) (a : Src) (i : BitVec 11) : Statement (.mulI64Imm d a i) :=
  lane1 (maj := 0x17) rfl rfl rfl (wordI_31 ..) (wordI_25 ..) rfl rfl
    ((laneCell_mulI64Imm (wordI_25 ..)).trans (liD_enc ..))
theorem movc (d : BitVec 6) (i : BitVec 24) : Statement (.movc d i) :=
  lane2 (maj := 0x18) rfl rfl rfl (wordR_set ..) (wordR_major ..) rfl rfl
    ((laneCell_movc (wordR_major ..) (wordR_minor ..)).trans (mcD_enc ..))
theorem movcM (d : BitVec 6) (i : BitVec 24) : Statement (.movcM d i) :=
  lane2 (maj := 0x18) rfl rfl rfl (wordR_set ..) (wordR_major ..) rfl rfl
    ((laneCell_movcM (wordR_major ..) (wordR_minor ..)).trans (mcD_enc ..))
theorem movcH (d : BitVec 6) (i : BitVec 16) : Statement (.movcH d i) :=
  lane2 (maj := 0x18) rfl rfl rfl (wordR_set ..) (wordR_major ..) rfl rfl
    ((laneCell_movcH (wordR_major ..) (wordR_minor ..)).trans (mchD_enc ..))
theorem rdsr (d : BitVec 6) (r : BitVec 3) : Statement (.rdsr d r) :=
  lane1 (maj := 0x19) rfl rfl rfl (wordR_set ..) (wordR_major ..) rfl rfl
    ((laneCell_rdsr (wordR_major ..)).trans (rdsrD_enc ..))
theorem shflIdx (d : BitVec 6) (a b : Src) : Statement (.shflIdx d a b) :=
  lane1 (maj := 0x1A) rfl rfl rfl (wordR_set ..) (wordR_major ..) rfl rfl
    ((laneCell_shflIdx (wordR_major ..) (wordR_minor ..)).trans (lr2D_enc ..))
theorem shflUp (d : BitVec 6) (a b : Src) : Statement (.shflUp d a b) :=
  lane1 (maj := 0x1A) rfl rfl rfl (wordR_set ..) (wordR_major ..) rfl rfl
    ((laneCell_shflUp (wordR_major ..) (wordR_minor ..)).trans (lr2D_enc ..))
theorem shflDown (d : BitVec 6) (a b : Src) : Statement (.shflDown d a b) :=
  lane1 (maj := 0x1A) rfl rfl rfl (wordR_set ..) (wordR_major ..) rfl rfl
    ((laneCell_shflDown (wordR_major ..) (wordR_minor ..)).trans (lr2D_enc ..))
theorem shflXor (d : BitVec 6) (a b : Src) : Statement (.shflXor d a b) :=
  lane1 (maj := 0x1A) rfl rfl rfl (wordR_set ..) (wordR_major ..) rfl rfl
    ((laneCell_shflXor (wordR_major ..) (wordR_minor ..)).trans (lr2D_enc ..))
theorem ballot (d : BitVec 6) (p : BitVec 3) : Statement (.ballot d p) :=
  lane1 (maj := 0x1A) rfl rfl rfl (wordR_set ..) (wordR_major ..) rfl rfl
    ((laneCell_ballot (wordR_major ..) (wordR_minor ..)).trans (ballotD_enc ..))
theorem voteAny (p q : BitVec 3) : Statement (.voteAny p q) :=
  lane1 (maj := 0x1A) rfl rfl rfl (wordR_set ..) (wordR_major ..) rfl rfl
    ((laneCell_voteAny (wordR_major ..) (wordR_minor ..)).trans (p2D_enc ..))
theorem voteAll (p q : BitVec 3) : Statement (.voteAll p q) :=
  lane1 (maj := 0x1A) rfl rfl rfl (wordR_set ..) (wordR_major ..) rfl rfl
    ((laneCell_voteAll (wordR_major ..) (wordR_minor ..)).trans (p2D_enc ..))
theorem redAddI64 (d : BitVec 6) (a : Src) : Statement (.redAddI64 d a) :=
  lane1 (maj := 0x1B) rfl rfl rfl (wordR_set ..) (wordR_major ..) rfl rfl
    ((laneCell_redAddI64 (wordR_major ..) (wordR_minor ..)).trans (lr1D_enc ..))
theorem redMinI64 (d : BitVec 6) (a : Src) : Statement (.redMinI64 d a) :=
  lane1 (maj := 0x1B) rfl rfl rfl (wordR_set ..) (wordR_major ..) rfl rfl
    ((laneCell_redMinI64 (wordR_major ..) (wordR_minor ..)).trans (lr1D_enc ..))
theorem redMaxI64 (d : BitVec 6) (a : Src) : Statement (.redMaxI64 d a) :=
  lane1 (maj := 0x1B) rfl rfl rfl (wordR_set ..) (wordR_major ..) rfl rfl
    ((laneCell_redMaxI64 (wordR_major ..) (wordR_minor ..)).trans (lr1D_enc ..))
theorem redAddD (d : BitVec 6) (a : Src) : Statement (.redAddD d a) :=
  lane1 (maj := 0x1B) rfl rfl rfl (wordR_set ..) (wordR_major ..) rfl rfl
    ((laneCell_redAddD (wordR_major ..) (wordR_minor ..)).trans (lr1D_enc ..))
theorem redMinD (d : BitVec 6) (a : Src) : Statement (.redMinD d a) :=
  lane1 (maj := 0x1B) rfl rfl rfl (wordR_set ..) (wordR_major ..) rfl rfl
    ((laneCell_redMinD (wordR_major ..) (wordR_minor ..)).trans (lr1D_enc ..))
theorem redMaxD (d : BitVec 6) (a : Src) : Statement (.redMaxD d a) :=
  lane1 (maj := 0x1B) rfl rfl rfl (wordR_set ..) (wordR_major ..) rfl rfl
    ((laneCell_redMaxD (wordR_major ..) (wordR_minor ..)).trans (lr1D_enc ..))
theorem redAddF (d : BitVec 6) (a : Src) : Statement (.redAddF d a) :=
  lane1 (maj := 0x1B) rfl rfl rfl (wordR_set ..) (wordR_major ..) rfl rfl
    ((laneCell_redAddF (wordR_major ..) (wordR_minor ..)).trans (lr1D_enc ..))
theorem bra (p : BitVec 3) (n : Bool) (t : BitVec 21) : Statement (.bra p n t) :=
  lane1 (maj := 0x1C) rfl rfl rfl (wordB_31 ..) (wordB_25 ..) rfl rfl
    ((laneCell_bra (wordB_25 ..)).trans (lbD_enc ..))
theorem call (p : BitVec 3) (n : Bool) (t : BitVec 21) : Statement (.call p n t) :=
  lane1 (maj := 0x1D) rfl rfl rfl (wordB_31 ..) (wordB_25 ..) rfl rfl
    ((laneCell_call (wordB_25 ..)).trans (lbD_enc ..))
theorem jmp (a : Src) : Statement (.jmp a) :=
  lane1 (maj := 0x1E) rfl rfl rfl (wordR_set ..) (wordR_major ..) rfl rfl
    ((laneCell_jmp (wordR_major ..) (wordR_minor ..)).trans (a1D_enc ..))
theorem callr (d : BitVec 6) (a : Src) : Statement (.callr d a) :=
  lane1 (maj := 0x1E) rfl rfl rfl (wordR_set ..) (wordR_major ..) rfl rfl
    ((laneCell_callr (wordR_major ..) (wordR_minor ..)).trans (lr1D_enc ..))
theorem ret (a : Src) : Statement (.ret a) :=
  lane1 (maj := 0x1E) rfl rfl rfl (wordR_set ..) (wordR_major ..) rfl rfl
    ((laneCell_ret (wordR_major ..) (wordR_minor ..)).trans (a1D_enc ..))
theorem exit : Statement (.exit) :=
  lane1 (maj := 0x1F) rfl rfl rfl (wordR_set ..) (wordR_major ..) rfl rfl
    ((laneCell_exit (wordR_major ..) (wordR_minor ..)).trans (noneD_enc ..))
theorem nop : Statement (.nop) :=
  lane1 (maj := 0x1F) rfl rfl rfl (wordR_set ..) (wordR_major ..) rfl rfl
    ((laneCell_nop (wordR_major ..) (wordR_minor ..)).trans (noneD_enc ..))
theorem addD (d : BitVec 6) (a b : Src) : Statement (.addD d a b) :=
  lane1 (maj := 0x20) rfl rfl rfl (wordR_set ..) (wordR_major ..) rfl rfl
    ((laneCell_addD (wordR_major ..) (wordR_minor ..)).trans (lr2D_enc ..))
theorem subD (d : BitVec 6) (a b : Src) : Statement (.subD d a b) :=
  lane1 (maj := 0x20) rfl rfl rfl (wordR_set ..) (wordR_major ..) rfl rfl
    ((laneCell_subD (wordR_major ..) (wordR_minor ..)).trans (lr2D_enc ..))
theorem mulD (d : BitVec 6) (a b : Src) : Statement (.mulD d a b) :=
  lane1 (maj := 0x20) rfl rfl rfl (wordR_set ..) (wordR_major ..) rfl rfl
    ((laneCell_mulD (wordR_major ..) (wordR_minor ..)).trans (lr2D_enc ..))
theorem divD (d : BitVec 6) (a b : Src) : Statement (.divD d a b) :=
  lane1 (maj := 0x20) rfl rfl rfl (wordR_set ..) (wordR_major ..) rfl rfl
    ((laneCell_divD (wordR_major ..) (wordR_minor ..)).trans (lr2D_enc ..))
theorem minD (d : BitVec 6) (a b : Src) : Statement (.minD d a b) :=
  lane1 (maj := 0x20) rfl rfl rfl (wordR_set ..) (wordR_major ..) rfl rfl
    ((laneCell_minD (wordR_major ..) (wordR_minor ..)).trans (lr2D_enc ..))
theorem maxD (d : BitVec 6) (a b : Src) : Statement (.maxD d a b) :=
  lane1 (maj := 0x20) rfl rfl rfl (wordR_set ..) (wordR_major ..) rfl rfl
    ((laneCell_maxD (wordR_major ..) (wordR_minor ..)).trans (lr2D_enc ..))
theorem sqrtD (d : BitVec 6) (a : Src) : Statement (.sqrtD d a) :=
  lane1 (maj := 0x20) rfl rfl rfl (wordR_set ..) (wordR_major ..) rfl rfl
    ((laneCell_sqrtD (wordR_major ..) (wordR_minor ..)).trans (lr1D_enc ..))
theorem rintD (d : BitVec 6) (a : Src) : Statement (.rintD d a) :=
  lane1 (maj := 0x20) rfl rfl rfl (wordR_set ..) (wordR_major ..) rfl rfl
    ((laneCell_rintD (wordR_major ..) (wordR_minor ..)).trans (lr1D_enc ..))
theorem addF (d : BitVec 6) (a b : Src) : Statement (.addF d a b) :=
  lane1 (maj := 0x21) rfl rfl rfl (wordR_set ..) (wordR_major ..) rfl rfl
    ((laneCell_addF (wordR_major ..) (wordR_minor ..)).trans (lr2D_enc ..))
theorem subF (d : BitVec 6) (a b : Src) : Statement (.subF d a b) :=
  lane1 (maj := 0x21) rfl rfl rfl (wordR_set ..) (wordR_major ..) rfl rfl
    ((laneCell_subF (wordR_major ..) (wordR_minor ..)).trans (lr2D_enc ..))
theorem mulF (d : BitVec 6) (a b : Src) : Statement (.mulF d a b) :=
  lane1 (maj := 0x21) rfl rfl rfl (wordR_set ..) (wordR_major ..) rfl rfl
    ((laneCell_mulF (wordR_major ..) (wordR_minor ..)).trans (lr2D_enc ..))
theorem divF (d : BitVec 6) (a b : Src) : Statement (.divF d a b) :=
  lane1 (maj := 0x21) rfl rfl rfl (wordR_set ..) (wordR_major ..) rfl rfl
    ((laneCell_divF (wordR_major ..) (wordR_minor ..)).trans (lr2D_enc ..))
theorem minF (d : BitVec 6) (a b : Src) : Statement (.minF d a b) :=
  lane1 (maj := 0x21) rfl rfl rfl (wordR_set ..) (wordR_major ..) rfl rfl
    ((laneCell_minF (wordR_major ..) (wordR_minor ..)).trans (lr2D_enc ..))
theorem maxF (d : BitVec 6) (a b : Src) : Statement (.maxF d a b) :=
  lane1 (maj := 0x21) rfl rfl rfl (wordR_set ..) (wordR_major ..) rfl rfl
    ((laneCell_maxF (wordR_major ..) (wordR_minor ..)).trans (lr2D_enc ..))
theorem sqrtF (d : BitVec 6) (a : Src) : Statement (.sqrtF d a) :=
  lane1 (maj := 0x21) rfl rfl rfl (wordR_set ..) (wordR_major ..) rfl rfl
    ((laneCell_sqrtF (wordR_major ..) (wordR_minor ..)).trans (lr1D_enc ..))
theorem rintF (d : BitVec 6) (a : Src) : Statement (.rintF d a) :=
  lane1 (maj := 0x21) rfl rfl rfl (wordR_set ..) (wordR_major ..) rfl rfl
    ((laneCell_rintF (wordR_major ..) (wordR_minor ..)).trans (lr1D_enc ..))
theorem addHf (d : BitVec 6) (a b : Src) : Statement (.addHf d a b) :=
  lane1 (maj := 0x22) rfl rfl rfl (wordR_set ..) (wordR_major ..) rfl rfl
    ((laneCell_addHf (wordR_major ..) (wordR_minor ..)).trans (lr2D_enc ..))
theorem subHf (d : BitVec 6) (a b : Src) : Statement (.subHf d a b) :=
  lane1 (maj := 0x22) rfl rfl rfl (wordR_set ..) (wordR_major ..) rfl rfl
    ((laneCell_subHf (wordR_major ..) (wordR_minor ..)).trans (lr2D_enc ..))
theorem mulHf (d : BitVec 6) (a b : Src) : Statement (.mulHf d a b) :=
  lane1 (maj := 0x22) rfl rfl rfl (wordR_set ..) (wordR_major ..) rfl rfl
    ((laneCell_mulHf (wordR_major ..) (wordR_minor ..)).trans (lr2D_enc ..))
theorem minHf (d : BitVec 6) (a b : Src) : Statement (.minHf d a b) :=
  lane1 (maj := 0x22) rfl rfl rfl (wordR_set ..) (wordR_major ..) rfl rfl
    ((laneCell_minHf (wordR_major ..) (wordR_minor ..)).trans (lr2D_enc ..))
theorem maxHf (d : BitVec 6) (a b : Src) : Statement (.maxHf d a b) :=
  lane1 (maj := 0x22) rfl rfl rfl (wordR_set ..) (wordR_major ..) rfl rfl
    ((laneCell_maxHf (wordR_major ..) (wordR_minor ..)).trans (lr2D_enc ..))
theorem addBf (d : BitVec 6) (a b : Src) : Statement (.addBf d a b) :=
  lane1 (maj := 0x23) rfl rfl rfl (wordR_set ..) (wordR_major ..) rfl rfl
    ((laneCell_addBf (wordR_major ..) (wordR_minor ..)).trans (lr2D_enc ..))
theorem subBf (d : BitVec 6) (a b : Src) : Statement (.subBf d a b) :=
  lane1 (maj := 0x23) rfl rfl rfl (wordR_set ..) (wordR_major ..) rfl rfl
    ((laneCell_subBf (wordR_major ..) (wordR_minor ..)).trans (lr2D_enc ..))
theorem mulBf (d : BitVec 6) (a b : Src) : Statement (.mulBf d a b) :=
  lane1 (maj := 0x23) rfl rfl rfl (wordR_set ..) (wordR_major ..) rfl rfl
    ((laneCell_mulBf (wordR_major ..) (wordR_minor ..)).trans (lr2D_enc ..))
theorem minBf (d : BitVec 6) (a b : Src) : Statement (.minBf d a b) :=
  lane1 (maj := 0x23) rfl rfl rfl (wordR_set ..) (wordR_major ..) rfl rfl
    ((laneCell_minBf (wordR_major ..) (wordR_minor ..)).trans (lr2D_enc ..))
theorem maxBf (d : BitVec 6) (a b : Src) : Statement (.maxBf d a b) :=
  lane1 (maj := 0x23) rfl rfl rfl (wordR_set ..) (wordR_major ..) rfl rfl
    ((laneCell_maxBf (wordR_major ..) (wordR_minor ..)).trans (lr2D_enc ..))
theorem setpEqD (p : BitVec 3) (a b : Src) : Statement (.setpEqD p a b) :=
  lane1 (maj := 0x24) rfl rfl rfl (wordR_set ..) (wordR_major ..) rfl rfl
    ((laneCell_setpEqD (wordR_major ..) (wordR_minor ..)).trans (pd2D_enc ..))
theorem setpLtD (p : BitVec 3) (a b : Src) : Statement (.setpLtD p a b) :=
  lane1 (maj := 0x24) rfl rfl rfl (wordR_set ..) (wordR_major ..) rfl rfl
    ((laneCell_setpLtD (wordR_major ..) (wordR_minor ..)).trans (pd2D_enc ..))
theorem setpLeD (p : BitVec 3) (a b : Src) : Statement (.setpLeD p a b) :=
  lane1 (maj := 0x24) rfl rfl rfl (wordR_set ..) (wordR_major ..) rfl rfl
    ((laneCell_setpLeD (wordR_major ..) (wordR_minor ..)).trans (pd2D_enc ..))
theorem setpNanD (p : BitVec 3) (a b : Src) : Statement (.setpNanD p a b) :=
  lane1 (maj := 0x24) rfl rfl rfl (wordR_set ..) (wordR_major ..) rfl rfl
    ((laneCell_setpNanD (wordR_major ..) (wordR_minor ..)).trans (pd2D_enc ..))
theorem setpEqF (p : BitVec 3) (a b : Src) : Statement (.setpEqF p a b) :=
  lane1 (maj := 0x24) rfl rfl rfl (wordR_set ..) (wordR_major ..) rfl rfl
    ((laneCell_setpEqF (wordR_major ..) (wordR_minor ..)).trans (pd2D_enc ..))
theorem setpLtF (p : BitVec 3) (a b : Src) : Statement (.setpLtF p a b) :=
  lane1 (maj := 0x24) rfl rfl rfl (wordR_set ..) (wordR_major ..) rfl rfl
    ((laneCell_setpLtF (wordR_major ..) (wordR_minor ..)).trans (pd2D_enc ..))
theorem setpLeF (p : BitVec 3) (a b : Src) : Statement (.setpLeF p a b) :=
  lane1 (maj := 0x24) rfl rfl rfl (wordR_set ..) (wordR_major ..) rfl rfl
    ((laneCell_setpLeF (wordR_major ..) (wordR_minor ..)).trans (pd2D_enc ..))
theorem setpNanF (p : BitVec 3) (a b : Src) : Statement (.setpNanF p a b) :=
  lane1 (maj := 0x24) rfl rfl rfl (wordR_set ..) (wordR_major ..) rfl rfl
    ((laneCell_setpNanF (wordR_major ..) (wordR_minor ..)).trans (pd2D_enc ..))
theorem fmaD (d : BitVec 6) (a b c : Src) (m : FMod) : Statement (.fmaD d a b c m) :=
  lane2 (maj := 0x25) rfl rfl rfl (wordR_set ..) (wordR_major ..) rfl rfl
    ((laneCell_fmaD (wordR_major ..) (wordR_minor ..)).trans (fmaD_enc ..))
theorem fnmaD (d : BitVec 6) (a b c : Src) (m : FMod) : Statement (.fnmaD d a b c m) :=
  lane2 (maj := 0x25) rfl rfl rfl (wordR_set ..) (wordR_major ..) rfl rfl
    ((laneCell_fnmaD (wordR_major ..) (wordR_minor ..)).trans (fmaD_enc ..))
theorem fmaF (d : BitVec 6) (a b c : Src) (m : FMod) : Statement (.fmaF d a b c m) :=
  lane2 (maj := 0x25) rfl rfl rfl (wordR_set ..) (wordR_major ..) rfl rfl
    ((laneCell_fmaF (wordR_major ..) (wordR_minor ..)).trans (fmaD_enc ..))
theorem fnmaF (d : BitVec 6) (a b c : Src) (m : FMod) : Statement (.fnmaF d a b c m) :=
  lane2 (maj := 0x25) rfl rfl rfl (wordR_set ..) (wordR_major ..) rfl rfl
    ((laneCell_fnmaF (wordR_major ..) (wordR_minor ..)).trans (fmaD_enc ..))
theorem fmaHf (d : BitVec 6) (a b c : Src) (m : FMod) : Statement (.fmaHf d a b c m) :=
  lane2 (maj := 0x25) rfl rfl rfl (wordR_set ..) (wordR_major ..) rfl rfl
    ((laneCell_fmaHf (wordR_major ..) (wordR_minor ..)).trans (fmaD_enc ..))
theorem fmaBf (d : BitVec 6) (a b c : Src) (m : FMod) : Statement (.fmaBf d a b c m) :=
  lane2 (maj := 0x25) rfl rfl rfl (wordR_set ..) (wordR_major ..) rfl rfl
    ((laneCell_fmaBf (wordR_major ..) (wordR_minor ..)).trans (fmaD_enc ..))
theorem addDLong (d : BitVec 6) (a b : Src) (m : FMod) : Statement (.addDLong d a b m) :=
  lane2 (maj := 0x26) rfl rfl rfl (wordR_set ..) (wordR_major ..) rfl rfl
    ((laneCell_addDLong (wordR_major ..) (wordR_minor ..) (wordL_op ..)).trans (long2D_enc ..))
theorem subDLong (d : BitVec 6) (a b : Src) (m : FMod) : Statement (.subDLong d a b m) :=
  lane2 (maj := 0x26) rfl rfl rfl (wordR_set ..) (wordR_major ..) rfl rfl
    ((laneCell_subDLong (wordR_major ..) (wordR_minor ..) (wordL_op ..)).trans (long2D_enc ..))
theorem mulDLong (d : BitVec 6) (a b : Src) (m : FMod) : Statement (.mulDLong d a b m) :=
  lane2 (maj := 0x26) rfl rfl rfl (wordR_set ..) (wordR_major ..) rfl rfl
    ((laneCell_mulDLong (wordR_major ..) (wordR_minor ..) (wordL_op ..)).trans (long2D_enc ..))
theorem divDLong (d : BitVec 6) (a b : Src) (m : FMod) : Statement (.divDLong d a b m) :=
  lane2 (maj := 0x26) rfl rfl rfl (wordR_set ..) (wordR_major ..) rfl rfl
    ((laneCell_divDLong (wordR_major ..) (wordR_minor ..) (wordL_op ..)).trans (long2D_enc ..))
theorem minDLong (d : BitVec 6) (a b : Src) (z : Bool) : Statement (.minDLong d a b z) :=
  lane2 (maj := 0x26) rfl rfl rfl (wordR_set ..) (wordR_major ..) rfl rfl
    ((laneCell_minDLong (wordR_major ..) (wordR_minor ..) (wordL_op ..)).trans (longMMD_enc ..))
theorem maxDLong (d : BitVec 6) (a b : Src) (z : Bool) : Statement (.maxDLong d a b z) :=
  lane2 (maj := 0x26) rfl rfl rfl (wordR_set ..) (wordR_major ..) rfl rfl
    ((laneCell_maxDLong (wordR_major ..) (wordR_minor ..) (wordL_op ..)).trans (longMMD_enc ..))
theorem sqrtDLong (d : BitVec 6) (a : Src) (m : FMod) : Statement (.sqrtDLong d a m) :=
  lane2 (maj := 0x26) rfl rfl rfl (wordR_set ..) (wordR_major ..) rfl rfl
    ((laneCell_sqrtDLong (wordR_major ..) (wordR_minor ..) (wordL_op ..)).trans (long1D_enc ..))
theorem rintDLong (d : BitVec 6) (a : Src) (m : FMod) : Statement (.rintDLong d a m) :=
  lane2 (maj := 0x26) rfl rfl rfl (wordR_set ..) (wordR_major ..) rfl rfl
    ((laneCell_rintDLong (wordR_major ..) (wordR_minor ..) (wordL_op ..)).trans (long1D_enc ..))
theorem addFLong (d : BitVec 6) (a b : Src) (m : FMod) : Statement (.addFLong d a b m) :=
  lane2 (maj := 0x26) rfl rfl rfl (wordR_set ..) (wordR_major ..) rfl rfl
    ((laneCell_addFLong (wordR_major ..) (wordR_minor ..) (wordL_op ..)).trans (long2D_enc ..))
theorem subFLong (d : BitVec 6) (a b : Src) (m : FMod) : Statement (.subFLong d a b m) :=
  lane2 (maj := 0x26) rfl rfl rfl (wordR_set ..) (wordR_major ..) rfl rfl
    ((laneCell_subFLong (wordR_major ..) (wordR_minor ..) (wordL_op ..)).trans (long2D_enc ..))
theorem mulFLong (d : BitVec 6) (a b : Src) (m : FMod) : Statement (.mulFLong d a b m) :=
  lane2 (maj := 0x26) rfl rfl rfl (wordR_set ..) (wordR_major ..) rfl rfl
    ((laneCell_mulFLong (wordR_major ..) (wordR_minor ..) (wordL_op ..)).trans (long2D_enc ..))
theorem divFLong (d : BitVec 6) (a b : Src) (m : FMod) : Statement (.divFLong d a b m) :=
  lane2 (maj := 0x26) rfl rfl rfl (wordR_set ..) (wordR_major ..) rfl rfl
    ((laneCell_divFLong (wordR_major ..) (wordR_minor ..) (wordL_op ..)).trans (long2D_enc ..))
theorem minFLong (d : BitVec 6) (a b : Src) (z : Bool) : Statement (.minFLong d a b z) :=
  lane2 (maj := 0x26) rfl rfl rfl (wordR_set ..) (wordR_major ..) rfl rfl
    ((laneCell_minFLong (wordR_major ..) (wordR_minor ..) (wordL_op ..)).trans (longMMD_enc ..))
theorem maxFLong (d : BitVec 6) (a b : Src) (z : Bool) : Statement (.maxFLong d a b z) :=
  lane2 (maj := 0x26) rfl rfl rfl (wordR_set ..) (wordR_major ..) rfl rfl
    ((laneCell_maxFLong (wordR_major ..) (wordR_minor ..) (wordL_op ..)).trans (longMMD_enc ..))
theorem sqrtFLong (d : BitVec 6) (a : Src) (m : FMod) : Statement (.sqrtFLong d a m) :=
  lane2 (maj := 0x26) rfl rfl rfl (wordR_set ..) (wordR_major ..) rfl rfl
    ((laneCell_sqrtFLong (wordR_major ..) (wordR_minor ..) (wordL_op ..)).trans (long1D_enc ..))
theorem rintFLong (d : BitVec 6) (a : Src) (m : FMod) : Statement (.rintFLong d a m) :=
  lane2 (maj := 0x26) rfl rfl rfl (wordR_set ..) (wordR_major ..) rfl rfl
    ((laneCell_rintFLong (wordR_major ..) (wordR_minor ..) (wordL_op ..)).trans (long1D_enc ..))
theorem addHfLong (d : BitVec 6) (a b : Src) (m : FMod) : Statement (.addHfLong d a b m) :=
  lane2 (maj := 0x26) rfl rfl rfl (wordR_set ..) (wordR_major ..) rfl rfl
    ((laneCell_addHfLong (wordR_major ..) (wordR_minor ..) (wordL_op ..)).trans (long2D_enc ..))
theorem subHfLong (d : BitVec 6) (a b : Src) (m : FMod) : Statement (.subHfLong d a b m) :=
  lane2 (maj := 0x26) rfl rfl rfl (wordR_set ..) (wordR_major ..) rfl rfl
    ((laneCell_subHfLong (wordR_major ..) (wordR_minor ..) (wordL_op ..)).trans (long2D_enc ..))
theorem mulHfLong (d : BitVec 6) (a b : Src) (m : FMod) : Statement (.mulHfLong d a b m) :=
  lane2 (maj := 0x26) rfl rfl rfl (wordR_set ..) (wordR_major ..) rfl rfl
    ((laneCell_mulHfLong (wordR_major ..) (wordR_minor ..) (wordL_op ..)).trans (long2D_enc ..))
theorem minHfLong (d : BitVec 6) (a b : Src) (z : Bool) : Statement (.minHfLong d a b z) :=
  lane2 (maj := 0x26) rfl rfl rfl (wordR_set ..) (wordR_major ..) rfl rfl
    ((laneCell_minHfLong (wordR_major ..) (wordR_minor ..) (wordL_op ..)).trans (longMMD_enc ..))
theorem maxHfLong (d : BitVec 6) (a b : Src) (z : Bool) : Statement (.maxHfLong d a b z) :=
  lane2 (maj := 0x26) rfl rfl rfl (wordR_set ..) (wordR_major ..) rfl rfl
    ((laneCell_maxHfLong (wordR_major ..) (wordR_minor ..) (wordL_op ..)).trans (longMMD_enc ..))
theorem addBfLong (d : BitVec 6) (a b : Src) (m : FMod) : Statement (.addBfLong d a b m) :=
  lane2 (maj := 0x26) rfl rfl rfl (wordR_set ..) (wordR_major ..) rfl rfl
    ((laneCell_addBfLong (wordR_major ..) (wordR_minor ..) (wordL_op ..)).trans (long2D_enc ..))
theorem subBfLong (d : BitVec 6) (a b : Src) (m : FMod) : Statement (.subBfLong d a b m) :=
  lane2 (maj := 0x26) rfl rfl rfl (wordR_set ..) (wordR_major ..) rfl rfl
    ((laneCell_subBfLong (wordR_major ..) (wordR_minor ..) (wordL_op ..)).trans (long2D_enc ..))
theorem mulBfLong (d : BitVec 6) (a b : Src) (m : FMod) : Statement (.mulBfLong d a b m) :=
  lane2 (maj := 0x26) rfl rfl rfl (wordR_set ..) (wordR_major ..) rfl rfl
    ((laneCell_mulBfLong (wordR_major ..) (wordR_minor ..) (wordL_op ..)).trans (long2D_enc ..))
theorem minBfLong (d : BitVec 6) (a b : Src) (z : Bool) : Statement (.minBfLong d a b z) :=
  lane2 (maj := 0x26) rfl rfl rfl (wordR_set ..) (wordR_major ..) rfl rfl
    ((laneCell_minBfLong (wordR_major ..) (wordR_minor ..) (wordL_op ..)).trans (longMMD_enc ..))
theorem maxBfLong (d : BitVec 6) (a b : Src) (z : Bool) : Statement (.maxBfLong d a b z) :=
  lane2 (maj := 0x26) rfl rfl rfl (wordR_set ..) (wordR_major ..) rfl rfl
    ((laneCell_maxBfLong (wordR_major ..) (wordR_minor ..) (wordL_op ..)).trans (longMMD_enc ..))
theorem rcpD (d : BitVec 6) (a : Src) : Statement (.rcpD d a) :=
  lane1 (maj := 0x27) rfl rfl rfl (wordR_set ..) (wordR_major ..) rfl rfl
    ((laneCell_rcpD (wordR_major ..) (wordR_minor ..)).trans (lr1D_enc ..))
theorem rsqrtD (d : BitVec 6) (a : Src) : Statement (.rsqrtD d a) :=
  lane1 (maj := 0x27) rfl rfl rfl (wordR_set ..) (wordR_major ..) rfl rfl
    ((laneCell_rsqrtD (wordR_major ..) (wordR_minor ..)).trans (lr1D_enc ..))
theorem exp2D (d : BitVec 6) (a : Src) : Statement (.exp2D d a) :=
  lane1 (maj := 0x27) rfl rfl rfl (wordR_set ..) (wordR_major ..) rfl rfl
    ((laneCell_exp2D (wordR_major ..) (wordR_minor ..)).trans (lr1D_enc ..))
theorem log2D (d : BitVec 6) (a : Src) : Statement (.log2D d a) :=
  lane1 (maj := 0x27) rfl rfl rfl (wordR_set ..) (wordR_major ..) rfl rfl
    ((laneCell_log2D (wordR_major ..) (wordR_minor ..)).trans (lr1D_enc ..))
theorem exp2F (d : BitVec 6) (a : Src) : Statement (.exp2F d a) :=
  lane1 (maj := 0x27) rfl rfl rfl (wordR_set ..) (wordR_major ..) rfl rfl
    ((laneCell_exp2F (wordR_major ..) (wordR_minor ..)).trans (lr1D_enc ..))
theorem log2F (d : BitVec 6) (a : Src) : Statement (.log2F d a) :=
  lane1 (maj := 0x27) rfl rfl rfl (wordR_set ..) (wordR_major ..) rfl rfl
    ((laneCell_log2F (wordR_major ..) (wordR_minor ..)).trans (lr1D_enc ..))
theorem sinF (d : BitVec 6) (a : Src) : Statement (.sinF d a) :=
  lane1 (maj := 0x27) rfl rfl rfl (wordR_set ..) (wordR_major ..) rfl rfl
    ((laneCell_sinF (wordR_major ..) (wordR_minor ..)).trans (lr1D_enc ..))
theorem cosF (d : BitVec 6) (a : Src) : Statement (.cosF d a) :=
  lane1 (maj := 0x27) rfl rfl rfl (wordR_set ..) (wordR_major ..) rfl rfl
    ((laneCell_cosF (wordR_major ..) (wordR_minor ..)).trans (lr1D_enc ..))
theorem cvt (d : BitVec 6) (a : Src) (m : CvtMod) : Statement (.cvt d a m) :=
  lane2 (maj := 0x28) rfl rfl rfl (wordR_set ..) (wordR_major ..) rfl rfl
    ((laneCell_cvt (wordR_major ..) (wordR_minor ..)).trans (cvtD_enc ..))
theorem fclassD (d : BitVec 6) (a : Src) : Statement (.fclassD d a) :=
  lane1 (maj := 0x29) rfl rfl rfl (wordR_set ..) (wordR_major ..) rfl rfl
    ((laneCell_fclassD (wordR_major ..) (wordR_minor ..)).trans (lr1D_enc ..))
theorem fclassF (d : BitVec 6) (a : Src) : Statement (.fclassF d a) :=
  lane1 (maj := 0x29) rfl rfl rfl (wordR_set ..) (wordR_major ..) rfl rfl
    ((laneCell_fclassF (wordR_major ..) (wordR_minor ..)).trans (lr1D_enc ..))
theorem copysignD (d : BitVec 6) (a b : Src) : Statement (.copysignD d a b) :=
  lane1 (maj := 0x29) rfl rfl rfl (wordR_set ..) (wordR_major ..) rfl rfl
    ((laneCell_copysignD (wordR_major ..) (wordR_minor ..)).trans (lr2D_enc ..))
theorem copysignF (d : BitVec 6) (a b : Src) : Statement (.copysignF d a b) :=
  lane1 (maj := 0x29) rfl rfl rfl (wordR_set ..) (wordR_major ..) rfl rfl
    ((laneCell_copysignF (wordR_major ..) (wordR_minor ..)).trans (lr2D_enc ..))
theorem absD (d : BitVec 6) (a : Src) : Statement (.absD d a) :=
  lane1 (maj := 0x29) rfl rfl rfl (wordR_set ..) (wordR_major ..) rfl rfl
    ((laneCell_absD (wordR_major ..) (wordR_minor ..)).trans (lr1D_enc ..))
theorem negD (d : BitVec 6) (a : Src) : Statement (.negD d a) :=
  lane1 (maj := 0x29) rfl rfl rfl (wordR_set ..) (wordR_major ..) rfl rfl
    ((laneCell_negD (wordR_major ..) (wordR_minor ..)).trans (lr1D_enc ..))
theorem absF (d : BitVec 6) (a : Src) : Statement (.absF d a) :=
  lane1 (maj := 0x29) rfl rfl rfl (wordR_set ..) (wordR_major ..) rfl rfl
    ((laneCell_absF (wordR_major ..) (wordR_minor ..)).trans (lr1D_enc ..))
theorem negF (d : BitVec 6) (a : Src) : Statement (.negF d a) :=
  lane1 (maj := 0x29) rfl rfl rfl (wordR_set ..) (wordR_major ..) rfl rfl
    ((laneCell_negF (wordR_major ..) (wordR_minor ..)).trans (lr1D_enc ..))
theorem ld (d : BitVec 6) (a : Src) (m : MemMod) : Statement (.ld d a m) :=
  lane2 (maj := 0x2C) rfl rfl rfl (wordR_set ..) (wordR_major ..) rfl rfl
    ((laneCell_ld (wordR_major ..) (wordR_minor ..)).trans (ldD_enc ..))
theorem st (a b : Src) (m : MemMod) : Statement (.st a b m) :=
  lane2 (maj := 0x2C) rfl rfl rfl (wordR_set ..) (wordR_major ..) rfl rfl
    ((laneCell_st (wordR_major ..) (wordR_minor ..)).trans (stD_enc ..))
theorem lde (d : BitVec 6) (a b : Src) (m : LdeMod) : Statement (.lde d a b m) :=
  lane2 (maj := 0x2C) rfl rfl rfl (wordR_set ..) (wordR_major ..) rfl rfl
    ((laneCell_lde (wordR_major ..) (wordR_minor ..)).trans (ldeD_enc ..))
theorem pf (a : Src) (m : PfMod) : Statement (.pf a m) :=
  lane2 (maj := 0x2C) rfl rfl rfl (wordR_set ..) (wordR_major ..) rfl rfl
    ((laneCell_pf (wordR_major ..) (wordR_minor ..)).trans (pfD_enc ..))
theorem atomAdd (d : BitVec 6) (a b : Src) (m : AtomMod) : Statement (.atomAdd d a b m) :=
  lane2 (maj := 0x2D) rfl rfl rfl (wordR_set ..) (wordR_major ..) rfl rfl
    ((laneCell_atomAdd (wordR_major ..) (wordR_minor ..)).trans (atomD_enc ..))
theorem atomMin (d : BitVec 6) (a b : Src) (m : AtomMod) : Statement (.atomMin d a b m) :=
  lane2 (maj := 0x2D) rfl rfl rfl (wordR_set ..) (wordR_major ..) rfl rfl
    ((laneCell_atomMin (wordR_major ..) (wordR_minor ..)).trans (atomD_enc ..))
theorem atomMax (d : BitVec 6) (a b : Src) (m : AtomMod) : Statement (.atomMax d a b m) :=
  lane2 (maj := 0x2D) rfl rfl rfl (wordR_set ..) (wordR_major ..) rfl rfl
    ((laneCell_atomMax (wordR_major ..) (wordR_minor ..)).trans (atomD_enc ..))
theorem atomAnd (d : BitVec 6) (a b : Src) (m : AtomMod) : Statement (.atomAnd d a b m) :=
  lane2 (maj := 0x2D) rfl rfl rfl (wordR_set ..) (wordR_major ..) rfl rfl
    ((laneCell_atomAnd (wordR_major ..) (wordR_minor ..)).trans (atomD_enc ..))
theorem atomOr (d : BitVec 6) (a b : Src) (m : AtomMod) : Statement (.atomOr d a b m) :=
  lane2 (maj := 0x2D) rfl rfl rfl (wordR_set ..) (wordR_major ..) rfl rfl
    ((laneCell_atomOr (wordR_major ..) (wordR_minor ..)).trans (atomD_enc ..))
theorem atomXor (d : BitVec 6) (a b : Src) (m : AtomMod) : Statement (.atomXor d a b m) :=
  lane2 (maj := 0x2D) rfl rfl rfl (wordR_set ..) (wordR_major ..) rfl rfl
    ((laneCell_atomXor (wordR_major ..) (wordR_minor ..)).trans (atomD_enc ..))
theorem atomXchg (d : BitVec 6) (a b : Src) (m : AtomMod) : Statement (.atomXchg d a b m) :=
  lane2 (maj := 0x2D) rfl rfl rfl (wordR_set ..) (wordR_major ..) rfl rfl
    ((laneCell_atomXchg (wordR_major ..) (wordR_minor ..)).trans (atomD_enc ..))
theorem atomCas (d : BitVec 6) (a b c : Src) (m : AtomMod) : Statement (.atomCas d a b c m) :=
  lane2 (maj := 0x2D) rfl rfl rfl (wordR_set ..) (wordR_major ..) rfl rfl
    ((laneCell_atomCas (wordR_major ..) (wordR_minor ..)).trans (casD_enc ..))
theorem recvD (d : BitVec 6) (n : BitVec 6) : Statement (.recvD d n) :=
  lane1 (maj := 0x2E) rfl rfl rfl (wordR_set ..) (wordR_major ..) rfl rfl
    ((laneCell_recvD (wordR_major ..) (wordR_minor ..)).trans (recvD_enc ..))
theorem recvW (d : BitVec 6) (n : BitVec 6) : Statement (.recvW d n) :=
  lane1 (maj := 0x2E) rfl rfl rfl (wordR_set ..) (wordR_major ..) rfl rfl
    ((laneCell_recvW (wordR_major ..) (wordR_minor ..)).trans (recvD_enc ..))
theorem sendD (n : BitVec 6) (b : Src) : Statement (.sendD n b) :=
  lane1 (maj := 0x2E) rfl rfl rfl (wordR_set ..) (wordR_major ..) rfl rfl
    ((laneCell_sendD (wordR_major ..) (wordR_minor ..)).trans (sendD_enc ..))
theorem sendW (n : BitVec 6) (b : Src) : Statement (.sendW n b) :=
  lane1 (maj := 0x2E) rfl rfl rfl (wordR_set ..) (wordR_major ..) rfl rfl
    ((laneCell_sendW (wordR_major ..) (wordR_minor ..)).trans (sendD_enc ..))
theorem mmarD (d : BitVec 6) (a b : Src) (fa fb : BitVec 3) : Statement (.mmarD d a b fa fb) :=
  lane2 (maj := 0x38) rfl rfl rfl (wordR_set ..) (wordR_major ..) rfl rfl
    ((laneCell_mmarD (wordR_major ..) (wordR_minor ..)).trans (mmarD_enc ..))
theorem mmarF (d : BitVec 6) (a b : Src) (fa fb : BitVec 3) : Statement (.mmarF d a b fa fb) :=
  lane2 (maj := 0x38) rfl rfl rfl (wordR_set ..) (wordR_major ..) rfl rfl
    ((laneCell_mmarF (wordR_major ..) (wordR_minor ..)).trans (mmarD_enc ..))
theorem mmarBf (d : BitVec 6) (a b : Src) (fa fb : BitVec 3) : Statement (.mmarBf d a b fa fb) :=
  lane2 (maj := 0x38) rfl rfl rfl (wordR_set ..) (wordR_major ..) rfl rfl
    ((laneCell_mmarBf (wordR_major ..) (wordR_minor ..)).trans (mmarD_enc ..))
theorem mmarHf (d : BitVec 6) (a b : Src) (fa fb : BitVec 3) : Statement (.mmarHf d a b fa fb) :=
  lane2 (maj := 0x38) rfl rfl rfl (wordR_set ..) (wordR_major ..) rfl rfl
    ((laneCell_mmarHf (wordR_major ..) (wordR_minor ..)).trans (mmarD_enc ..))
theorem mmarE4 (d : BitVec 6) (a b : Src) (fa fb : BitVec 3) : Statement (.mmarE4 d a b fa fb) :=
  lane2 (maj := 0x38) rfl rfl rfl (wordR_set ..) (wordR_major ..) rfl rfl
    ((laneCell_mmarE4 (wordR_major ..) (wordR_minor ..)).trans (mmarD_enc ..))
theorem copen (d : BitVec 6) (a : Src) (l : Bool) (h : BitVec 7) : Statement (.copen d a l h) :=
  lane2 (maj := 0x39) rfl rfl rfl (wordR_set ..) (wordR_major ..) rfl rfl
    ((laneCell_copen (wordR_major ..) (wordR_minor ..)).trans (copenD_enc ..))
theorem cadd (p : BitVec 3) (a b c : Src) (n : Option (BitVec 6)) : Statement (.cadd p a b c n) :=
  lane2 (maj := 0x39) rfl rfl rfl (wordR_set ..) (wordR_major ..) rfl rfl
    ((laneCell_cadd (wordR_major ..) (wordR_minor ..)).trans (caddD_enc ..))
theorem cflush (a : Src) : Statement (.cflush a) :=
  lane2 (maj := 0x39) rfl rfl rfl (wordR_set ..) (wordR_major ..) rfl rfl
    ((laneCell_cflush (wordR_major ..) (wordR_minor ..)).trans (a1xD_enc ..))
theorem cclose (a : Src) : Statement (.cclose a) :=
  lane2 (maj := 0x39) rfl rfl rfl (wordR_set ..) (wordR_major ..) rfl rfl
    ((laneCell_cclose (wordR_major ..) (wordR_minor ..)).trans (a1xD_enc ..))
theorem cread (d : BitVec 6) (a : Src) (k : BitVec 3) : Statement (.cread d a k) :=
  lane2 (maj := 0x39) rfl rfl rfl (wordR_set ..) (wordR_major ..) rfl rfl
    ((laneCell_cread (wordR_major ..) (wordR_minor ..)).trans (creadD_enc ..))
theorem creplay (d : BitVec 6) (a b : Src) (x : BitVec 16) (h : BitVec 7) : Statement (.creplay d a b x h) :=
  lane2 (maj := 0x39) rfl rfl rfl (wordR_set ..) (wordR_major ..) rfl rfl
    ((laneCell_creplay (wordR_major ..) (wordR_minor ..)).trans (creplayD_enc ..))
theorem addI64U (d : BitVec 6) (a b : Src) : Statement (.addI64U d a b) :=
  uni1 (maj := 0x01) rfl rfl rfl (wordR_set ..) (wordR_major ..) rfl rfl
    ((uniCell_addI64U (wordR_major ..) (wordR_minor ..)).trans (lr2D_enc ..))
theorem subI64U (d : BitVec 6) (a b : Src) : Statement (.subI64U d a b) :=
  uni1 (maj := 0x01) rfl rfl rfl (wordR_set ..) (wordR_major ..) rfl rfl
    ((uniCell_subI64U (wordR_major ..) (wordR_minor ..)).trans (lr2D_enc ..))
theorem mulI64U (d : BitVec 6) (a b : Src) : Statement (.mulI64U d a b) :=
  uni1 (maj := 0x01) rfl rfl rfl (wordR_set ..) (wordR_major ..) rfl rfl
    ((uniCell_mulI64U (wordR_major ..) (wordR_minor ..)).trans (lr2D_enc ..))
theorem mulhiN64U (d : BitVec 6) (a b : Src) : Statement (.mulhiN64U d a b) :=
  uni1 (maj := 0x01) rfl rfl rfl (wordR_set ..) (wordR_major ..) rfl rfl
    ((uniCell_mulhiN64U (wordR_major ..) (wordR_minor ..)).trans (lr2D_enc ..))
theorem minI64U (d : BitVec 6) (a b : Src) : Statement (.minI64U d a b) :=
  uni1 (maj := 0x01) rfl rfl rfl (wordR_set ..) (wordR_major ..) rfl rfl
    ((uniCell_minI64U (wordR_major ..) (wordR_minor ..)).trans (lr2D_enc ..))
theorem maxI64U (d : BitVec 6) (a b : Src) : Statement (.maxI64U d a b) :=
  uni1 (maj := 0x01) rfl rfl rfl (wordR_set ..) (wordR_major ..) rfl rfl
    ((uniCell_maxI64U (wordR_major ..) (wordR_minor ..)).trans (lr2D_enc ..))
theorem minN64U (d : BitVec 6) (a b : Src) : Statement (.minN64U d a b) :=
  uni1 (maj := 0x01) rfl rfl rfl (wordR_set ..) (wordR_major ..) rfl rfl
    ((uniCell_minN64U (wordR_major ..) (wordR_minor ..)).trans (lr2D_enc ..))
theorem maxN64U (d : BitVec 6) (a b : Src) : Statement (.maxN64U d a b) :=
  uni1 (maj := 0x01) rfl rfl rfl (wordR_set ..) (wordR_major ..) rfl rfl
    ((uniCell_maxN64U (wordR_major ..) (wordR_minor ..)).trans (lr2D_enc ..))
theorem andU (d : BitVec 6) (a b : Src) : Statement (.andU d a b) :=
  uni1 (maj := 0x02) rfl rfl rfl (wordR_set ..) (wordR_major ..) rfl rfl
    ((uniCell_andU (wordR_major ..) (wordR_minor ..)).trans (lr2D_enc ..))
theorem orU (d : BitVec 6) (a b : Src) : Statement (.orU d a b) :=
  uni1 (maj := 0x02) rfl rfl rfl (wordR_set ..) (wordR_major ..) rfl rfl
    ((uniCell_orU (wordR_major ..) (wordR_minor ..)).trans (lr2D_enc ..))
theorem xorU (d : BitVec 6) (a b : Src) : Statement (.xorU d a b) :=
  uni1 (maj := 0x02) rfl rfl rfl (wordR_set ..) (wordR_major ..) rfl rfl
    ((uniCell_xorU (wordR_major ..) (wordR_minor ..)).trans (lr2D_enc ..))
theorem andnU (d : BitVec 6) (a b : Src) : Statement (.andnU d a b) :=
  uni1 (maj := 0x02) rfl rfl rfl (wordR_set ..) (wordR_major ..) rfl rfl
    ((uniCell_andnU (wordR_major ..) (wordR_minor ..)).trans (lr2D_enc ..))
theorem shlN64U (d : BitVec 6) (a b : Src) : Statement (.shlN64U d a b) :=
  uni1 (maj := 0x02) rfl rfl rfl (wordR_set ..) (wordR_major ..) rfl rfl
    ((uniCell_shlN64U (wordR_major ..) (wordR_minor ..)).trans (lr2D_enc ..))
theorem shrN64U (d : BitVec 6) (a b : Src) : Statement (.shrN64U d a b) :=
  uni1 (maj := 0x02) rfl rfl rfl (wordR_set ..) (wordR_major ..) rfl rfl
    ((uniCell_shrN64U (wordR_major ..) (wordR_minor ..)).trans (lr2D_enc ..))
theorem shrI64U (d : BitVec 6) (a b : Src) : Statement (.shrI64U d a b) :=
  uni1 (maj := 0x02) rfl rfl rfl (wordR_set ..) (wordR_major ..) rfl rfl
    ((uniCell_shrI64U (wordR_major ..) (wordR_minor ..)).trans (lr2D_enc ..))
theorem movU (d : BitVec 6) (a : Src) : Statement (.movU d a) :=
  uni1 (maj := 0x02) rfl rfl rfl (wordR_set ..) (wordR_major ..) rfl rfl
    ((uniCell_movU (wordR_major ..) (wordR_minor ..)).trans (lr1D_enc ..))
theorem setpEqI64U (p : BitVec 3) (a b : Src) : Statement (.setpEqI64U p a b) :=
  uni1 (maj := 0x03) rfl rfl rfl (wordR_set ..) (wordR_major ..) rfl rfl
    ((uniCell_setpEqI64U (wordR_major ..) (wordR_minor ..)).trans (pd2D_enc ..))
theorem setpNeI64U (p : BitVec 3) (a b : Src) : Statement (.setpNeI64U p a b) :=
  uni1 (maj := 0x03) rfl rfl rfl (wordR_set ..) (wordR_major ..) rfl rfl
    ((uniCell_setpNeI64U (wordR_major ..) (wordR_minor ..)).trans (pd2D_enc ..))
theorem setpLtI64U (p : BitVec 3) (a b : Src) : Statement (.setpLtI64U p a b) :=
  uni1 (maj := 0x03) rfl rfl rfl (wordR_set ..) (wordR_major ..) rfl rfl
    ((uniCell_setpLtI64U (wordR_major ..) (wordR_minor ..)).trans (pd2D_enc ..))
theorem setpLeI64U (p : BitVec 3) (a b : Src) : Statement (.setpLeI64U p a b) :=
  uni1 (maj := 0x03) rfl rfl rfl (wordR_set ..) (wordR_major ..) rfl rfl
    ((uniCell_setpLeI64U (wordR_major ..) (wordR_minor ..)).trans (pd2D_enc ..))
theorem setpLtN64U (p : BitVec 3) (a b : Src) : Statement (.setpLtN64U p a b) :=
  uni1 (maj := 0x03) rfl rfl rfl (wordR_set ..) (wordR_major ..) rfl rfl
    ((uniCell_setpLtN64U (wordR_major ..) (wordR_minor ..)).trans (pd2D_enc ..))
theorem setpLeN64U (p : BitVec 3) (a b : Src) : Statement (.setpLeN64U p a b) :=
  uni1 (maj := 0x03) rfl rfl rfl (wordR_set ..) (wordR_major ..) rfl rfl
    ((uniCell_setpLeN64U (wordR_major ..) (wordR_minor ..)).trans (pd2D_enc ..))
theorem setpTstU (p : BitVec 3) (a b : Src) : Statement (.setpTstU p a b) :=
  uni1 (maj := 0x03) rfl rfl rfl (wordR_set ..) (wordR_major ..) rfl rfl
    ((uniCell_setpTstU (wordR_major ..) (wordR_minor ..)).trans (pd2D_enc ..))
theorem pandU (p q r : BitVec 3) : Statement (.pandU p q r) :=
  uni1 (maj := 0x04) rfl rfl rfl (wordR_set ..) (wordR_major ..) rfl rfl
    ((uniCell_pandU (wordR_major ..) (wordR_minor ..)).trans (p3D_enc ..))
theorem porU (p q r : BitVec 3) : Statement (.porU p q r) :=
  uni1 (maj := 0x04) rfl rfl rfl (wordR_set ..) (wordR_major ..) rfl rfl
    ((uniCell_porU (wordR_major ..) (wordR_minor ..)).trans (p3D_enc ..))
theorem pxorU (p q r : BitVec 3) : Statement (.pxorU p q r) :=
  uni1 (maj := 0x04) rfl rfl rfl (wordR_set ..) (wordR_major ..) rfl rfl
    ((uniCell_pxorU (wordR_major ..) (wordR_minor ..)).trans (p3D_enc ..))
theorem pandnU (p q r : BitVec 3) : Statement (.pandnU p q r) :=
  uni1 (maj := 0x04) rfl rfl rfl (wordR_set ..) (wordR_major ..) rfl rfl
    ((uniCell_pandnU (wordR_major ..) (wordR_minor ..)).trans (p3D_enc ..))
theorem pnotU (p q : BitVec 3) : Statement (.pnotU p q) :=
  uni1 (maj := 0x04) rfl rfl rfl (wordR_set ..) (wordR_major ..) rfl rfl
    ((uniCell_pnotU (wordR_major ..) (wordR_minor ..)).trans (p2D_enc ..))
theorem addI64ImmU (d : BitVec 6) (a : Src) (i : BitVec 11) : Statement (.addI64ImmU d a i) :=
  uni1 (maj := 0x05) rfl rfl rfl (wordI_31 ..) (wordI_25 ..) rfl rfl
    ((uniCell_addI64ImmU (wordI_25 ..)).trans (liD_enc ..))
theorem movcU (d : BitVec 6) (i : BitVec 24) : Statement (.movcU d i) :=
  uni2 (maj := 0x06) rfl rfl rfl (wordR_set ..) (wordR_major ..) rfl rfl
    ((uniCell_movcU (wordR_major ..) (wordR_minor ..)).trans (mcD_enc ..))
theorem movcMU (d : BitVec 6) (i : BitVec 24) : Statement (.movcMU d i) :=
  uni2 (maj := 0x06) rfl rfl rfl (wordR_set ..) (wordR_major ..) rfl rfl
    ((uniCell_movcMU (wordR_major ..) (wordR_minor ..)).trans (mcD_enc ..))
theorem movcHU (d : BitVec 6) (i : BitVec 16) : Statement (.movcHU d i) :=
  uni2 (maj := 0x06) rfl rfl rfl (wordR_set ..) (wordR_major ..) rfl rfl
    ((uniCell_movcHU (wordR_major ..) (wordR_minor ..)).trans (mchD_enc ..))
theorem ldU (d : BitVec 6) (a : Src) (m : MemMod) : Statement (.ldU d a m) :=
  uni2 (maj := 0x07) rfl rfl rfl (wordR_set ..) (wordR_major ..) rfl rfl
    ((uniCell_ldU (wordR_major ..) (wordR_minor ..)).trans (ldD_enc ..))
theorem stU (a b : Src) (m : MemMod) : Statement (.stU a b m) :=
  uni2 (maj := 0x07) rfl rfl rfl (wordR_set ..) (wordR_major ..) rfl rfl
    ((uniCell_stU (wordR_major ..) (wordR_minor ..)).trans (stD_enc ..))
theorem ldeU (d : BitVec 6) (a b : Src) (m : LdeMod) : Statement (.ldeU d a b m) :=
  uni2 (maj := 0x07) rfl rfl rfl (wordR_set ..) (wordR_major ..) rfl rfl
    ((uniCell_ldeU (wordR_major ..) (wordR_minor ..)).trans (ldeD_enc ..))
theorem pfU (a : Src) (m : PfMod) : Statement (.pfU a m) :=
  uni2 (maj := 0x07) rfl rfl rfl (wordR_set ..) (wordR_major ..) rfl rfl
    ((uniCell_pfU (wordR_major ..) (wordR_minor ..)).trans (pfD_enc ..))
theorem ujmp (p : BitVec 3) (n : Bool) (t : BitVec 21) : Statement (.ujmp p n t) :=
  uni1 (maj := 0x08) rfl rfl rfl (wordB_31 ..) (wordB_25 ..) rfl rfl
    ((uniCell_ujmp (wordB_25 ..)).trans (lbD_enc ..))
theorem ucall (p : BitVec 3) (n : Bool) (t : BitVec 21) : Statement (.ucall p n t) :=
  uni1 (maj := 0x09) rfl rfl rfl (wordB_31 ..) (wordB_25 ..) rfl rfl
    ((uniCell_ucall (wordB_25 ..)).trans (lbD_enc ..))
theorem ujmpr (a : Src) : Statement (.ujmpr a) :=
  uni1 (maj := 0x0A) rfl rfl rfl (wordR_set ..) (wordR_major ..) rfl rfl
    ((uniCell_ujmpr (wordR_major ..) (wordR_minor ..)).trans (a1D_enc ..))
theorem ucallr (d : BitVec 6) (a : Src) : Statement (.ucallr d a) :=
  uni1 (maj := 0x0A) rfl rfl rfl (wordR_set ..) (wordR_major ..) rfl rfl
    ((uniCell_ucallr (wordR_major ..) (wordR_minor ..)).trans (lr1D_enc ..))
theorem uret (a : Src) : Statement (.uret a) :=
  uni1 (maj := 0x0A) rfl rfl rfl (wordR_set ..) (wordR_major ..) rfl rfl
    ((uniCell_uret (wordR_major ..) (wordR_minor ..)).trans (a1D_enc ..))
theorem bar : Statement (.bar) :=
  uni1 (maj := 0x0B) rfl rfl rfl (wordR_set ..) (wordR_major ..) rfl rfl
    ((uniCell_bar (wordR_major ..) (wordR_minor ..)).trans (noneD_enc ..))
theorem tbar : Statement (.tbar) :=
  uni1 (maj := 0x0B) rfl rfl rfl (wordR_set ..) (wordR_major ..) rfl rfl
    ((uniCell_tbar (wordR_major ..) (wordR_minor ..)).trans (noneD_enc ..))
theorem claim (d : BitVec 6) (a b : Src) : Statement (.claim d a b) :=
  uni1 (maj := 0x0B) rfl rfl rfl (wordR_set ..) (wordR_major ..) rfl rfl
    ((uniCell_claim (wordR_major ..) (wordR_minor ..)).trans (lr2D_enc ..))
theorem rdv (a : Src) : Statement (.rdv a) :=
  uni1 (maj := 0x0B) rfl rfl rfl (wordR_set ..) (wordR_major ..) rfl rfl
    ((uniCell_rdv (wordR_major ..) (wordR_minor ..)).trans (a1D_enc ..))
theorem fence (k : OrdKind) (c : Scope) : Statement (.fence k c) :=
  uni1 (maj := 0x0C) rfl rfl rfl (fence_31 ..) (fence_25 ..) rfl rfl
    ((uniCell_fence (fence_25 ..)).trans (fenceD_enc ..))
theorem waith (c : HCond) (n : BitVec 7) : Statement (.waith c n) :=
  uni1 (maj := 0x0D) rfl rfl rfl (waith_31 ..) (waith_25 ..) rfl rfl
    ((uniCell_waith (waith_25 ..)).trans (waithD_enc ..))
theorem sendU (n : BitVec 6) (a : Src) (b : Option Src) : Statement (.sendU n a b) := by
  cases b with
  | none => exact uni2 (maj := 0x0E) rfl rfl rfl (wordR_set ..) (wordR_major ..) rfl rfl ((uniCell_sendU (wordR_major ..) (wordR_minor ..)).trans (send_uD0_enc ..))
  | some y => exact uni2 (maj := 0x0E) rfl rfl rfl (wordR_set ..) (wordR_major ..) rfl rfl ((uniCell_sendU (wordR_major ..) (wordR_minor ..)).trans (send_uD1_enc ..))
theorem recvU (d : BitVec 6) (n : BitVec 6) (ab : Option (Src × Src)) : Statement (.recvU d n ab) := by
  cases ab with
  | none => exact uni2 (maj := 0x0E) rfl rfl rfl (wordR_set ..) (wordR_major ..) rfl rfl ((uniCell_recvU (wordR_major ..) (wordR_minor ..)).trans (recv_uD0_enc ..))
  | some y => exact uni2 (maj := 0x0E) rfl rfl rfl (wordR_set ..) (wordR_major ..) rfl rfl ((uniCell_recvU (wordR_major ..) (wordR_minor ..)).trans (recv_uD1_enc ..))
theorem launch (q : BitVec 3) (d : BitVec 6) (a b : Src) (k : BitVec 2) : Statement (.launch q d a b k) :=
  uni2 (maj := 0x0E) rfl rfl rfl (wordR_set ..) (wordR_major ..) rfl rfl
    ((uniCell_launch (wordR_major ..) (wordR_minor ..)).trans (launchD_enc ..))
theorem waitl (d : BitVec 6) (a : Src) : Statement (.waitl d a) :=
  uni2 (maj := 0x0E) rfl rfl rfl (wordR_set ..) (wordR_major ..) rfl rfl
    ((uniCell_waitl (wordR_major ..) (wordR_minor ..)).trans (lr1xD_enc ..))
theorem fork (d : BitVec 6) (a : Src) : Statement (.fork d a) :=
  uni2 (maj := 0x0E) rfl rfl rfl (wordR_set ..) (wordR_major ..) rfl rfl
    ((uniCell_fork (wordR_major ..) (wordR_minor ..)).trans (lr1xD_enc ..))
theorem bpub (d : BitVec 6) (a : Src) : Statement (.bpub d a) :=
  uni1 (maj := 0x0F) rfl rfl rfl (wordR_set ..) (wordR_major ..) rfl rfl
    ((uniCell_bpub (wordR_major ..) (wordR_minor ..)).trans (lr1D_enc ..))
theorem bfloor (d : BitVec 6) (a b : Src) : Statement (.bfloor d a b) :=
  uni1 (maj := 0x0F) rfl rfl rfl (wordR_set ..) (wordR_major ..) rfl rfl
    ((uniCell_bfloor (wordR_major ..) (wordR_minor ..)).trans (lr2D_enc ..))
theorem gang (a : Src) : Statement (.gang a) :=
  uni2 (maj := 0x10) rfl rfl rfl (wordR_set ..) (wordR_major ..) rfl rfl
    ((uniCell_gang (wordR_major ..) (wordR_minor ..)).trans (a1xD_enc ..))
theorem mmasD (d : BitVec 6) (a b : Src) : Statement (.mmasD d a b) :=
  uni2 (maj := 0x10) rfl rfl rfl (wordR_set ..) (wordR_major ..) rfl rfl
    ((uniCell_mmasD (wordR_major ..) (wordR_minor ..)).trans (lr2xD_enc ..))
theorem mmasF (v : BitVec 6) (a b : Src) (w : BitVec 4) : Statement (.mmasF v a b w) :=
  uni2 (maj := 0x10) rfl rfl rfl (wordR_set ..) (wordR_major ..) rfl rfl
    ((uniCell_mmasF (wordR_major ..) (wordR_minor ..)).trans (mmasnD_enc ..))
theorem mmasBf (v : BitVec 6) (a b : Src) (w : BitVec 4) : Statement (.mmasBf v a b w) :=
  uni2 (maj := 0x10) rfl rfl rfl (wordR_set ..) (wordR_major ..) rfl rfl
    ((uniCell_mmasBf (wordR_major ..) (wordR_minor ..)).trans (mmasnD_enc ..))
theorem mmasHf (v : BitVec 6) (a b : Src) (w : BitVec 4) : Statement (.mmasHf v a b w) :=
  uni2 (maj := 0x10) rfl rfl rfl (wordR_set ..) (wordR_major ..) rfl rfl
    ((uniCell_mmasHf (wordR_major ..) (wordR_minor ..)).trans (mmasnD_enc ..))
theorem mmasE4 (v : BitVec 6) (a b : Src) (w : BitVec 4) : Statement (.mmasE4 v a b w) :=
  uni2 (maj := 0x10) rfl rfl rfl (wordR_set ..) (wordR_major ..) rfl rfl
    ((uniCell_mmasE4 (wordR_major ..) (wordR_minor ..)).trans (mmasnD_enc ..))
theorem accrel (d : BitVec 6) (o : Option (Bool × Src)) : Statement (.accrel d o) := by
  cases o with
  | none => exact uni2 (maj := 0x10) rfl rfl rfl (wordR_set ..) (wordR_major ..) rfl rfl ((uniCell_accrel (wordR_major ..) (wordR_minor ..)).trans (accrelD0_enc ..))
  | some y => exact uni2 (maj := 0x10) rfl rfl rfl (wordR_set ..) (wordR_major ..) rfl rfl ((uniCell_accrel (wordR_major ..) (wordR_minor ..)).trans (accrelD1_enc ..))
theorem trap (c : BitVec 12) : Statement (.trap c) :=
  uni1 (maj := 0x11) rfl rfl rfl (trap_31 ..) (trap_25 ..) rfl rfl
    ((uniCell_trap (trap_25 ..) (trap_0 ..)).trans (trapD_enc ..))
theorem rett : Statement (.rett) :=
  uni1 (maj := 0x11) rfl rfl rfl (wordR_set ..) (wordR_major ..) rfl rfl
    ((uniCell_rett (wordR_major ..) (wordR_minor ..)).trans (noneD_enc ..))
theorem rdsys (d : BitVec 6) (r : SysReg) (k : Bool) : Statement (.rdsys d r k) :=
  uni1 (maj := 0x11) rfl rfl rfl (wordR_set ..) (wordR_major ..) rfl rfl
    ((uniCell_rdsys (wordR_major ..) (wordR_minor ..)).trans (rdsysD_enc ..))
theorem wrsys (r : SysReg) (a : Src) : Statement (.wrsys r a) :=
  uni1 (maj := 0x11) rfl rfl rfl (wordR_set ..) (wordR_major ..) rfl rfl
    ((uniCell_wrsys (wordR_major ..) (wordR_minor ..)).trans (wrsysD_enc ..))
theorem unop : Statement (.unop) :=
  uni1 (maj := 0x11) rfl rfl rfl (wordR_set ..) (wordR_major ..) rfl rfl
    ((uniCell_unop (wordR_major ..) (wordR_minor ..)).trans (noneD_enc ..))
theorem gadd (d a b : BitVec 4) : Statement (.gadd d a b) :=
  gloss rfl rfl rfl ((glossCell_gadd (gr_26 ..)).trans (grD_enc ..))
theorem gsub (d a b : BitVec 4) : Statement (.gsub d a b) :=
  gloss rfl rfl rfl ((glossCell_gsub (gr_26 ..)).trans (grD_enc ..))
theorem gand (d a b : BitVec 4) : Statement (.gand d a b) :=
  gloss rfl rfl rfl ((glossCell_gand (gr_26 ..)).trans (grD_enc ..))
theorem gor (d a b : BitVec 4) : Statement (.gor d a b) :=
  gloss rfl rfl rfl ((glossCell_gor (gr_26 ..)).trans (grD_enc ..))
theorem gxor (d a b : BitVec 4) : Statement (.gxor d a b) :=
  gloss rfl rfl rfl ((glossCell_gxor (gr_26 ..)).trans (grD_enc ..))
theorem gshl (d a b : BitVec 4) : Statement (.gshl d a b) :=
  gloss rfl rfl rfl ((glossCell_gshl (gr_26 ..)).trans (grD_enc ..))
theorem gshr (d a b : BitVec 4) : Statement (.gshr d a b) :=
  gloss rfl rfl rfl ((glossCell_gshr (gr_26 ..)).trans (grD_enc ..))
theorem gmin (d a b : BitVec 4) : Statement (.gmin d a b) :=
  gloss rfl rfl rfl ((glossCell_gmin (gr_26 ..)).trans (grD_enc ..))
theorem gmax (d a b : BitVec 4) : Statement (.gmax d a b) :=
  gloss rfl rfl rfl ((glossCell_gmax (gr_26 ..)).trans (grD_enc ..))
theorem gmul (d a b : BitVec 4) : Statement (.gmul d a b) :=
  gloss rfl rfl rfl ((glossCell_gmul (gr_26 ..)).trans (grD_enc ..))
theorem gmovi (d : BitVec 4) (i : BitVec 18) : Statement (.gmovi d i) :=
  gloss rfl rfl rfl ((glossCell_gmovi (gmovi_26 ..)).trans (gmoviD_enc ..))
theorem gaddi (d a : BitVec 4) (i : BitVec 18) : Statement (.gaddi d a i) :=
  gloss rfl rfl rfl ((glossCell_gaddi (gi_26 ..)).trans (giD_enc ..))
theorem gandi (d a : BitVec 4) (i : BitVec 18) : Statement (.gandi d a i) :=
  gloss rfl rfl rfl ((glossCell_gandi (gi_26 ..)).trans (giD_enc ..))
theorem gshli (d a : BitVec 4) (i : BitVec 18) : Statement (.gshli d a i) :=
  gloss rfl rfl rfl ((glossCell_gshli (gi_26 ..)).trans (giD_enc ..))
theorem gshri (d a : BitVec 4) (i : BitVec 18) : Statement (.gshri d a i) :=
  gloss rfl rfl rfl ((glossCell_gshri (gi_26 ..)).trans (giD_enc ..))
theorem gld (d a : BitVec 4) (i : BitVec 18) : Statement (.gld d a i) :=
  gloss rfl rfl rfl ((glossCell_gld (gi_26 ..)).trans (giD_enc ..))
theorem gst (d a : BitVec 4) (i : BitVec 18) : Statement (.gst d a i) :=
  gloss rfl rfl rfl ((glossCell_gst (gi_26 ..)).trans (giD_enc ..))
theorem gbeq (a b : BitVec 4) (t : BitVec 6) : Statement (.gbeq a b t) :=
  gloss rfl rfl rfl ((glossCell_gbeq (gb_26 ..)).trans (gbD_enc ..))
theorem gbne (a b : BitVec 4) (t : BitVec 6) : Statement (.gbne a b t) :=
  gloss rfl rfl rfl ((glossCell_gbne (gb_26 ..)).trans (gbD_enc ..))
theorem gblt (a b : BitVec 4) (t : BitVec 6) : Statement (.gblt a b t) :=
  gloss rfl rfl rfl ((glossCell_gblt (gb_26 ..)).trans (gbD_enc ..))
theorem gbge (a b : BitVec 4) (t : BitVec 6) : Statement (.gbge a b t) :=
  gloss rfl rfl rfl ((glossCell_gbge (gb_26 ..)).trans (gbD_enc ..))
theorem gbr (t : BitVec 6) : Statement (.gbr t) :=
  gloss rfl rfl rfl ((glossCell_gbr (gbr_26 ..)).trans (gbrD_enc ..))
theorem ghash (d a b : BitVec 4) : Statement (.ghash d a b) :=
  gloss rfl rfl rfl ((glossCell_ghash (gr_26 ..)).trans (grD_enc ..))
theorem ghist (d a b : BitVec 4) : Statement (.ghist d a b) :=
  gloss rfl rfl rfl ((glossCell_ghist (gr_26 ..)).trans (grD_enc ..))
theorem gcms (d a b : BitVec 4) : Statement (.gcms d a b) :=
  gloss rfl rfl rfl ((glossCell_gcms (gr_26 ..)).trans (grD_enc ..))
theorem ghll (d a b : BitVec 4) : Statement (.ghll d a b) :=
  gloss rfl rfl rfl ((glossCell_ghll (gr_26 ..)).trans (grD_enc ..))
theorem gfire (a t : BitVec 4) : Statement (.gfire a t) :=
  gloss rfl rfl rfl ((glossCell_gfire (gfire_26 ..)).trans (gfireD_enc ..))
theorem gend : Statement (.gend) :=
  gloss rfl rfl rfl ((glossCell_gend (gend_26 ..)).trans (gendD_enc ..))
theorem loadCompletion (k : Nat) : Statement (.loadCompletion k) := event rfl rfl
theorem atomicPerform (k : Nat) : Statement (.atomicPerform k) := event rfl rfl
theorem editionLookup (k : Nat) : Statement (.editionLookup k) := event rfl rfl
theorem queueReceiveCompletion (k : Nat) : Statement (.queueReceiveCompletion k) := event rfl rfl
theorem channelReceiveCompletion (k : Nat) : Statement (.channelReceiveCompletion k) := event rfl rfl
theorem messageDelivery (k : Nat) : Statement (.messageDelivery k) := event rfl rfl
theorem launchRecordRead (k : Nat) : Statement (.launchRecordRead k) := event rfl rfl
theorem bpubAtBindery (k : Nat) : Statement (.bpubAtBindery k) := event rfl rfl
theorem bfloorAtHome (k : Nat) : Statement (.bfloorAtHome k) := event rfl rfl
theorem claimPageMove (k : Nat) : Statement (.claimPageMove k) := event rfl rfl
theorem copyBeat (k : Nat) : Statement (.copyBeat k) := event rfl rfl
theorem copyEnd (k : Nat) : Statement (.copyEnd k) := event rfl rfl
theorem forkStart (k : Nat) : Statement (.forkStart k) := event rfl rfl
theorem accessProgramRequest (k : Nat) : Statement (.accessProgramRequest k) := event rfl rfl
theorem accessProgramReturn (k : Nat) : Statement (.accessProgramReturn k) := event rfl rfl
theorem matrixCompletion (k : Nat) : Statement (.matrixCompletion k) := event rfl rfl
theorem mmasKStep (k : Nat) : Statement (.mmasKStep k) := event rfl rfl
theorem recordOperationArrival (k : Nat) : Statement (.recordOperationArrival k) := event rfl rfl
theorem regrouping (core q : Nat) : Statement (.regrouping core q) := event rfl rfl
theorem barrierArrivalBit (c core : Nat) : Statement (.barrierArrivalBit c core) := event rfl rfl
theorem l1WriteBackBound (core line : Nat) : Statement (.l1WriteBackBound core line) := event rfl rfl
theorem combiningBufferDrain (core line : Nat) : Statement (.combiningBufferDrain core line) := event rfl rfl
theorem distributorPlacement (v : Nat) : Statement (.distributorPlacement v) := event rfl rfl
theorem sliceEnd (v : Nat) : Statement (.sliceEnd v) := event rfl rfl
theorem renderContextSwitch (v : Nat) : Statement (.renderContextSwitch v) := event rfl rfl
theorem completionEntryWrite (x : Nat) : Statement (.completionEntryWrite x) := event rfl rfl
theorem hqTailWrite (x j val : Nat) : Statement (.hqTailWrite x j val) := event rfl rfl
theorem vdevApply (w : BitVec 64) : Statement (.vdevApply w) := event rfl rfl
theorem rctxApply (w : BitVec 64) : Statement (.rctxApply w) := event rfl rfl
theorem counterPublish (die : Nat) : Statement (.counterPublish die) := event rfl rfl
theorem pageWalk (asid page : Nat) : Statement (.pageWalk asid page) := event rfl rfl
theorem faultRecordPost (k : Nat) : Statement (.faultRecordPost k) := event rfl rfl
theorem fqDoneRetry (v seq : Nat) : Statement (.fqDoneRetry v seq) := event rfl rfl
theorem fqDoneDeny (v seq : Nat) : Statement (.fqDoneDeny v seq) := event rfl rfl
theorem invalidation : Statement (.invalidation) := event rfl rfl
theorem regionCreate (r : Nat) : Statement (.regionCreate r) := event rfl rfl
theorem regionReread (r : Nat) : Statement (.regionReread r) := event rfl rfl
theorem regionDestroy (r : Nat) : Statement (.regionDestroy r) := event rfl rfl
theorem binderyWrite (k : Nat) : Statement (.binderyWrite k) := event rfl rfl
theorem backgroundSubblockCopy (r page : Nat) : Statement (.backgroundSubblockCopy r page) := event rfl rfl
theorem reclaimWalk (r page : Nat) : Statement (.reclaimWalk r page) := event rfl rfl
theorem directoryRead (die line : Nat) : Statement (.directoryRead die line) := event rfl rfl
theorem directoryWrite (die line : Nat) : Statement (.directoryWrite die line) := event rfl rfl
theorem directoryWriteBack (die line : Nat) : Statement (.directoryWriteBack die line) := event rfl rfl
theorem evictionNotice (die line : Nat) : Statement (.evictionNotice die line) := event rfl rfl
theorem memSplitWrite (w : BitVec 64) : Statement (.memSplitWrite w) := event rfl rfl
theorem routeWrite (w : BitVec 64) : Statement (.routeWrite w) := event rfl rfl
theorem linkDown (l : Nat) : Statement (.linkDown l) := event rfl rfl
theorem glossEventOffer (die : Nat) (e : GlossEvent) : Statement (.glossEventOffer die e) := event rfl rfl
theorem glossSlot (die : Nat) : Statement (.glossSlot die) := event rfl rfl
theorem glossBudgetWindow (die : Nat) : Statement (.glossBudgetWindow die) := event rfl rfl
theorem glossApplyTenant (die i : Nat) : Statement (.glossApplyTenant die i) := event rfl rfl
theorem glossAttach (die i : Nat) : Statement (.glossAttach die i) := event rfl rfl
theorem glossDetach (die i : Nat) : Statement (.glossDetach die i) := event rfl rfl
theorem glossDrain (die : Nat) : Statement (.glossDrain die) := event rfl rfl
theorem drainWordRead (k : Nat) : Statement (.drainWordRead k) := event rfl rfl
theorem linkTraining (port : Nat) (ok : Bool) : Statement (.linkTraining port ok) := event rfl rfl
theorem ualinkInboundRequest (r : PeerReq) : Statement (.ualinkInboundRequest r) := event rfl rfl
theorem peerAcknowledgement (k : Nat) (r : PeerReply) : Statement (.peerAcknowledgement k r) := event rfl rfl
theorem ualinkMessageArrival (m : PeerMsg) : Statement (.ualinkMessageArrival m) := event rfl rfl
theorem haloCommand (die : Nat) : Statement (.haloCommand die) := event rfl rfl
theorem haloFaceArrival (die : Nat) (f : Face) : Statement (.haloFaceArrival die f) := event rfl rfl
theorem allReduceCommand (die : Nat) (cs : List Contribution) : Statement (.allReduceCommand die cs) := event rfl rfl
theorem engineCompletion (die : Nat) (coll : Bool) : Statement (.engineCompletion die coll) := event rfl rfl
theorem functionLevelReset : Statement (.functionLevelReset) := event rfl rfl
theorem coreRetirement : Statement (.coreRetirement) := event rfl rfl
theorem marginPlan (die : Nat) (u : List Canary) : Statement (.marginPlan die u) := event rfl rfl
theorem auditFlitSend (l : Nat) : Statement (.auditFlitSend l) := event rfl rfl
theorem auditFlitReceive (l : Nat) (crc : Bool) : Statement (.auditFlitReceive l crc) := event rfl rfl
theorem laneGroupFailure (l : Nat) : Statement (.laneGroupFailure l) := event rfl rfl
theorem softError (e : SoftErr) : Statement (.softError e) := event rfl rfl
theorem patrolScrub (line : Nat) : Statement (.patrolScrub line) := event rfl rfl
theorem checkpointSave : Statement (.checkpointSave) := event rfl rfl
theorem checkpointRestore : Statement (.checkpointRestore) := event rfl rfl
theorem moduleReset : Statement (.moduleReset) := event rfl rfl
theorem keyLoad (i : Nat) : Statement (.keyLoad i) := event rfl rfl
theorem keyClear (i : Nat) : Statement (.keyClear i) := event rfl rfl
theorem spdmRequest (i : Nat) : Statement (.spdmRequest i) := event rfl rfl
theorem pldmMonitoring (i : Nat) : Statement (.pldmMonitoring i) := event rfl rfl
theorem pldmFirmwareUpdate (img : FwImage) : Statement (.pldmFirmwareUpdate img) := event rfl rfl
theorem powerManagerUpdate (est : List Nat) : Statement (.powerManagerUpdate est) := event rfl rfl
theorem powerLimitWrite (w : BitVec 64) : Statement (.powerLimitWrite w) := event rfl rfl
theorem thermalCap (die temp : Nat) : Statement (.thermalCap die temp) := event rfl rfl
theorem thermalShutdown (die temp : Nat) : Statement (.thermalShutdown die temp) := event rfl rfl
theorem registerWrite (a : RegAccess) : Statement (.registerWrite a) := event rfl rfl
theorem issueCycle (core q : Nat) : Statement (.issueCycle core q) := event rfl rfl
theorem creplayCompletion (k : Nat) : Statement (.creplayCompletion k) := event rfl rfl
theorem flitReplay (l : Nat) : Statement (.flitReplay l) := event rfl rfl
theorem ualinkPortDown (port : Nat) : Statement (.ualinkPortDown port) := event rfl rfl
theorem hostIngressAccess (r : HostReq) : Statement (.hostIngressAccess r) := event rfl rfl
theorem peerDrainTimeout (k : Nat) : Statement (.peerDrainTimeout k) := event rfl rfl
theorem mainSideOff : Statement (.mainSideOff) := event rfl rfl

end Laws.RoundTrip

end Sys2Proof
end

