-- ==== Sys2Proof/Safety.lean ====
section
/-! DEFINITION. What a state of a module that works as the manual says satisfies, and what a safe run is. -/

namespace Sys2Proof.Machine

/-- What every step keeps: the physical memory is in its canonical form; POWER_LIMIT lies within 1000 W to 3600 W (R399); each die's
interleaved share is at most 48 units (R306). -/
structure Sound (s : State) : Prop where
  mem : Memory.wf s.mm.mem
  power : 1000 ≤ s.rg.powerLimit.toNat ∧ s.rg.powerLimit.toNat ≤ 3600
  split : s.rg.memSplit.toNat ≤ 48

/-- A run of `k` steps that neither stops nor leaves the sound states. -/
def safeRun : Nat → State → Prop
  | 0, s => Sound s
  | k + 1, s => Sound s ∧ match step s with
    | .next t => safeRun k t
    | .fault _ => False
    | .refused _ => False

/-! ## Lane instructions: when a bundle can issue, and what it has then done

The words that the statements about lane instructions share. A bundle is the set of threads that an issue cycle chose (R214):
`s.cur`. -/

/-- The key of thread `i` of the issuing group. -/
abbrev tkOf (s : State) (i : Nat) : Nat := threadKey s.cur.gk i

/-- Every thread of the bundle can issue an instruction of form `F`: it is live, its guard is true (R34), the registers lie below the
launch's counts (R29), every source is FULL or DEAD, no predicate is EMPTY, the destination is neither EMPTY nor FAULT (R36, R40), and
no field that traps on poison is poisoned (R43). -/
structure LaneReadable (s : State) (F : Form) : Prop where
  lane : F.uni = false
  nodup : s.cur.tids.Nodup
  small : ∀ i ∈ s.cur.tids, i < 64
  live : ∀ i ∈ s.cur.tids, (getThr s (tkOf s i)).st ≠ .exited
  guard : ∀ i ∈ s.cur.tids, guardVal s s.cur.gk i false = .yes
  limit : ∀ f ∈ F.flds, f.r.toNat < (if f.uni then (recOf s s.cur.gk).ns else (recOf s s.cur.gk).nv)
  limitD : ∀ d, F.dv = .some d → d.toNat < (recOf s s.cur.gk).nv
  limitM : F.more = []
  source : ∀ i ∈ s.cur.tids, ∀ f ∈ F.flds,
    (getR s s.cur.gk i f.uni f.r).st = .full ∨ (getR s s.cur.gk i f.uni f.r).st = .dead
  strict : ∀ i ∈ s.cur.tids, ∀ f ∈ F.flds, f.strict = true → (readCell (getR s s.cur.gk i f.uni f.r)).2 = false
  keepsS : ∀ f ∈ F.flds, f.uni = true → f.c ≠ .last
  pred : ∀ i ∈ s.cur.tids, ∀ p ∈ F.preds, (getP s (tkOf s i) p).empty = false
  dest : ∀ i ∈ s.cur.tids, ∀ d, F.dv = .some d → (getV s (tkOf s i) d).st = .full ∨ (getV s (tkOf s i) d).st = .dead
  destP : ∀ i ∈ s.cur.tids, ∀ p, F.dp = .some p → (getP s (tkOf s i) p).empty = false

/-- The bundle can issue, and every source is FULL and clean. -/
structure LaneReady (s : State) (F : Form) : Prop extends LaneReadable s F where
  clean : ∀ i ∈ s.cur.tids, ∀ f ∈ F.flds,
    (getR s s.cur.gk i f.uni f.r).st = .full ∧ (getR s s.cur.gk i f.uni f.r).psn = false

/-- What the threads `ids` of the bundle have done in going from `s` to `t` by an instruction of form `F` (R40, R43, R47): thread `i`
has written `v i` to the register destination and `p i` to the predicate destination, has killed the sources with control 0b01, goes
on at `pc i`; the group's FPX has the flags `fl` of all of them; and nothing else has changed but the operand cache, which has no
architectural effect (R42). -/
structure LaneDone (s t : State) (ids : List Nat) (F : Form) (v : Nat → Option Cell) (p : Nat → Option Bool) (fl : Nat → Flags)
    (pc : Nat → Word) : Prop where
  dest : ∀ i ∈ ids, ∀ d x, F.dv = .some d → v i = .some x → getV t (tkOf s i) d = x
  killed : ∀ i ∈ ids, ∀ f ∈ F.flds, f.c = .last → (F.dv = .some f.r → v i = .none) →
    getV t (tkOf s i) f.r = { getV s (tkOf s i) f.r with st := .dead }
  others : ∀ k r, getV t k r ≠ getV s k r →
    ∃ i ∈ ids, k = tkOf s i ∧ ((F.dv = .some r ∧ v i ≠ .none) ∨ ∃ f ∈ F.flds, f.c = .last ∧ f.r = r)
  destP : ∀ i ∈ ids, ∀ q b, F.dp = .some q → p i = .some b → q ≠ 0 → getP t (tkOf s i) q = ⟨b, false⟩
  othersP : ∀ k q, getP t k q ≠ getP s k q → ∃ i ∈ ids, k = tkOf s i ∧ F.dp = .some q ∧ p i ≠ .none
  next : ∀ i ∈ ids, getThr t (tkOf s i) = { getThr s (tkOf s i) with pc := pc i, st := .ready, wait := .none }
  otherThreads : ∀ k, getThr t k ≠ getThr s k → ∃ i ∈ ids, k = tkOf s i
  fpx : getGrp t s.cur.gk = { getGrp s s.cur.gk with fpx := ids.foldl (fun f i => f ||| fl i) (getGrp s s.cur.gk).fpx }
  otherGroups : ∀ g, g ≠ s.cur.gk → getGrp t g = getGrp s g
  rest : t = { s with vreg := t.vreg, pred := t.pred, thr := t.thr, grp := t.grp, sc := { s.sc with opc := t.sc.opc } }

/-- The value that thread `i` reads from v register `r`. -/
abbrev valV (s : State) (i : Nat) (r : BitVec 6) : Word := (getV s (tkOf s i) r).v

/-- Every thread of the bundle gets the register result `f i`, raises the flags `fl i`, and goes on at the next word. -/
abbrev LaneResult (s t : State) (F : Form) (f : Nat → Word) (fl : Nat → Flags := fun _ => 0) : Prop :=
  LaneDone s t s.cur.tids F (fun i => .some ⟨f i, .full, false⟩) (fun _ => .none) fl (fun _ => s.cur.npc)

/-- Every thread of the bundle gets the predicate result `f i`, raises the flags `fl i`, and goes on at the next word. -/
abbrev LanePResult (s t : State) (F : Form) (f : Nat → Bool) (fl : Nat → Flags := fun _ => 0) : Prop :=
  LaneDone s t s.cur.tids F (fun _ => .none) (fun i => .some (f i)) fl (fun _ => s.cur.npc)

/-- The sources that thread `i` reads hold poison: a source is DEAD or carries its poison bit (R36, R43). -/
abbrev Poisoned (s : State) (F : Form) (i : Nat) : Prop := ∃ f ∈ F.flds, (readCell (getR s s.cur.gk i f.uni f.r)).2 = true

/-- The bundle is thread `i` alone. -/
abbrev Alone (s : State) (i : Nat) : Prop := s.cur.tids = [i]

/-! ## Uniform instructions: when a group can issue, and what it has then done -/

/-- Every thread that convergence awaits issues the instruction now, or waits at its address (R91, R144). -/
structure Gathered (s : State) : Prop where
  issuers : ∀ i ∈ s.cur.tids, i ∈ domain s s.cur.gk ∧ (getThr s (tkOf s i)).pc = s.cur.pc
  arrived : ∀ i ∈ domain s s.cur.gk,
    i ∈ s.cur.tids ∨ ((getThr s (tkOf s i)).st = .waitConv ∧ (getThr s (tkOf s i)).pc = s.cur.pc)
  width : widthOf s s.cur.gk ≤ 64

/-- The group can issue a uniform instruction of form `F`: it has converged, its guard is true (R34), the registers lie below the
launch's counts (R29), every source is FULL and clean, no predicate is EMPTY, and the destination is neither EMPTY nor FAULT. -/
structure UniReady (s : State) (F : Form) : Prop extends Gathered s where
  uniform : F.uni = true
  guard : guardVal s s.cur.gk 0 true = .yes
  fields : ∀ f ∈ F.flds, f.uni = true
  limit : ∀ f ∈ F.flds, f.r.toNat < (recOf s s.cur.gk).ns
  limitD : ∀ d, F.dv = .some d → d.toNat < (recOf s s.cur.gk).ns
  limitM : F.more = []
  clean : ∀ f ∈ F.flds, (getS s s.cur.gk f.r).st = .full ∧ (getS s s.cur.gk f.r).psn = false
  pred : ∀ p ∈ F.preds, (getQ s s.cur.gk p).empty = false
  dest : ∀ d, F.dv = .some d → (getS s s.cur.gk d).st = .full ∨ (getS s s.cur.gk d).st = .dead
  destP : ∀ p, F.dp = .some p → (getQ s s.cur.gk p).empty = false

/-- The group runs in system mode: its handler set is not empty and all of it is in system mode (R145). -/
def InSystem (s : State) : Prop := ∃ i ∈ domain s s.cur.gk, (getThr s (tkOf s i)).sys = true

/-- What a uniform instruction of form `F` has done in going from `s` to `t`: the register result `v` (s0 discards it, R38), the
predicate result `p` (q0 discards it), the dead sources, every thread of the domain at `pc`; nothing else has changed but the operand cache (R42). -/
structure UniDone (s t : State) (F : Form) (v : Option Word) (p : Option Bool) (pc : Word) : Prop where
  dest : ∀ d x, F.dv = .some d → v = .some x → d ≠ 0 → getS t s.cur.gk d = ⟨x, .full, false⟩
  killed : ∀ f ∈ F.flds, f.c = .last → f.r ≠ 0 → (F.dv = .some f.r → v = .none) →
    getS t s.cur.gk f.r = { getS s s.cur.gk f.r with st := .dead }
  others : ∀ g r, getS t g r ≠ getS s g r →
    g = s.cur.gk ∧ r ≠ 0 ∧ ((F.dv = .some r ∧ v ≠ .none) ∨ ∃ f ∈ F.flds, f.c = .last ∧ f.r = r)
  destP : ∀ q b, F.dp = .some q → p = .some b → q ≠ 0 → getQ t s.cur.gk q = ⟨b, false⟩
  othersP : ∀ g q, getQ t g q ≠ getQ s g q → g = s.cur.gk ∧ F.dp = .some q ∧ q ≠ 0 ∧ p ≠ .none
  next : ∀ i ∈ domain s s.cur.gk, getThr t (tkOf s i) = { getThr s (tkOf s i) with pc := pc, st := .ready, wait := .none }
  otherThreads : ∀ k, getThr t k ≠ getThr s k → ∃ i ∈ domain s s.cur.gk, k = tkOf s i
  rest : t = { s with sreg := t.sreg, qpred := t.qpred, thr := t.thr, sc := { s.sc with opc := t.sc.opc } }

/-- The value that the group reads from s register `r`. -/
abbrev valS (s : State) (r : BitVec 6) : Word := (getS s s.cur.gk r).v

/-! ## Cross-lane instructions -/

/-- The threads that take part in a cross-lane instruction: those of the domain whose guard is true (R91, R95). -/
def parts (s : State) : List Nat := (domain s s.cur.gk).filter fun i => guardVal s s.cur.gk i false = .yes

/-- A cross-lane instruction of form `F` can act: every thread that convergence awaits issues it now or waits at its address, no guard is
EMPTY, the registers lie below the counts, and every participant can read and write, clean (R91, R95, R40). -/
structure CrossReady (s : State) (F : Form) : Prop where
  lane : F.uni = false
  width : widthOf s s.cur.gk ≤ 64
  issuers : ∀ i ∈ s.cur.tids, i ∈ domain s s.cur.gk ∧ (getThr s (tkOf s i)).pc = s.cur.pc
  arrived : ∀ i ∈ domain s s.cur.gk,
    i ∈ s.cur.tids ∨ ((getThr s (tkOf s i)).st = .waitConv ∧ (getThr s (tkOf s i)).pc = s.cur.pc)
  guards : ∀ i ∈ domain s s.cur.gk, guardVal s s.cur.gk i false = .yes ∨ guardVal s s.cur.gk i false = .no
  lanes : ∀ f ∈ F.flds, f.uni = false
  limit : ∀ f ∈ F.flds, f.r.toNat < (recOf s s.cur.gk).nv
  limitD : ∀ d, F.dv = .some d → d.toNat < (recOf s s.cur.gk).nv
  limitM : F.more = []
  clean : ∀ i ∈ parts s, ∀ f ∈ F.flds, (getV s (tkOf s i) f.r).st = .full ∧ (getV s (tkOf s i) f.r).psn = false
  pred : ∀ i ∈ parts s, ∀ p ∈ F.preds, (getP s (tkOf s i) p).empty = false
  dest : ∀ i ∈ parts s, ∀ d, F.dv = .some d → (getV s (tkOf s i) d).st = .full ∨ (getV s (tkOf s i) d).st = .dead
  destP : ∀ i ∈ parts s, ∀ p, F.dp = .some p → (getP s (tkOf s i) p).empty = false

/-- What a cross-lane instruction has done: every participant has its result, its sources with control 0b01 are dead; every thread
of the domain goes on at the next word; the flags are in FPX; nothing else has changed but the operand cache. -/
structure CrossDone (s t : State) (F : Form) (v : Nat → Option Word) (p : Nat → Option Bool) (fl : Flags) : Prop where
  dest : ∀ i ∈ parts s, ∀ d x, F.dv = .some d → v i = .some x → getV t (tkOf s i) d = ⟨x, .full, false⟩
  killed : ∀ i ∈ parts s, ∀ f ∈ F.flds, f.c = .last → F.dv ≠ .some f.r →
    getV t (tkOf s i) f.r = { getV s (tkOf s i) f.r with st := .dead }
  others : ∀ k r, getV t k r ≠ getV s k r →
    ∃ i ∈ parts s, k = tkOf s i ∧ (F.dv = .some r ∨ ∃ f ∈ F.flds, f.c = .last ∧ f.r = r)
  destP : ∀ i ∈ parts s, ∀ q b, F.dp = .some q → p i = .some b → q ≠ 0 → getP t (tkOf s i) q = ⟨b, false⟩
  othersP : ∀ k q, getP t k q ≠ getP s k q → ∃ i ∈ parts s, k = tkOf s i ∧ F.dp = .some q
  next : ∀ i ∈ domain s s.cur.gk,
    getThr t (tkOf s i) = { getThr s (tkOf s i) with pc := s.cur.npc, st := .ready, wait := .none }
  otherThreads : ∀ k, getThr t k ≠ getThr s k → ∃ i ∈ domain s s.cur.gk, k = tkOf s i
  fpx : getGrp t s.cur.gk = { getGrp s s.cur.gk with fpx := (getGrp s s.cur.gk).fpx ||| fl }
  otherGroups : ∀ g, g ≠ s.cur.gk → getGrp t g = getGrp s g
  rest : t = { s with vreg := t.vreg, pred := t.pred, thr := t.thr, grp := t.grp, sc := { s.sc with opc := t.sc.opc } }

/-! ## Accesses -/

/-- What an access has done when thread `i` has passed it, in going from `s` (the state after its translation) to `t`: the long-latency
destination is EMPTY with its old value, the checked predicate is empty, the sources with control 0b01 are dead, the thread goes on,
the operations `ops` are in flight, and nothing else has changed but the operand cache. -/
structure LaneIssued (s t : State) (i : Nat) (F : Form) (ops : List Op) : Prop where
  dest : ∀ d, F.dv = .some d → getV t (tkOf s i) d = { getV s (tkOf s i) d with st := .empty }
  killed : ∀ f ∈ F.flds, f.c = .last → F.dv ≠ .some f.r → getV t (tkOf s i) f.r = { getV s (tkOf s i) f.r with st := .dead }
  others : ∀ k r, getV t k r ≠ getV s k r → k = tkOf s i ∧ (F.dv = .some r ∨ ∃ f ∈ F.flds, f.c = .last ∧ f.r = r)
  destP : ∀ q, F.dp = .some q → q ≠ 0 → getP t (tkOf s i) q = { getP s (tkOf s i) q with empty := true }
  othersP : ∀ k q, getP t k q ≠ getP s k q → k = tkOf s i ∧ F.dp = .some q
  next : getThr t (tkOf s i) = { getThr s (tkOf s i) with pc := s.cur.npc, st := .ready, wait := .none }
  otherThreads : ∀ k, k ≠ tkOf s i → getThr t k = getThr s k
  rest : t = { s with vreg := t.vreg, pred := t.pred, thr := t.thr, sc := { s.sc with opc := t.sc.opc }
                      mm := { s.mm with ops := s.mm.ops ++ ops, nextId := s.mm.nextId + ops.length } }

/-- The same for a group's own access (s0 and q0 discard what is written to them). -/
structure UniIssued (s t : State) (F : Form) (ops : List Op) : Prop where
  dest : ∀ d, F.dv = .some d → d ≠ 0 → getS t s.cur.gk d = { getS s s.cur.gk d with st := .empty }
  killed : ∀ f ∈ F.flds, f.c = .last → f.r ≠ 0 → F.dv ≠ .some f.r → getS t s.cur.gk f.r = { getS s s.cur.gk f.r with st := .dead }
  others : ∀ g r, getS t g r ≠ getS s g r → g = s.cur.gk ∧ (F.dv = .some r ∨ ∃ f ∈ F.flds, f.c = .last ∧ f.r = r)
  destP : ∀ q, F.dp = .some q → q ≠ 0 → getQ t s.cur.gk q = { getQ s s.cur.gk q with empty := true }
  othersP : ∀ g q, getQ t g q ≠ getQ s g q → g = s.cur.gk ∧ F.dp = .some q
  next : ∀ i ∈ domain s s.cur.gk, getThr t (tkOf s i) = { getThr s (tkOf s i) with pc := s.cur.npc, st := .ready, wait := .none }
  otherThreads : ∀ k, getThr t k ≠ getThr s k → ∃ i ∈ domain s s.cur.gk, k = tkOf s i
  rest : t = { s with sreg := t.sreg, qpred := t.qpred, thr := t.thr, sc := { s.sc with opc := t.sc.opc }
                      mm := { s.mm with ops := s.mm.ops ++ ops, nextId := s.mm.nextId + ops.length } }

end Sys2Proof.Machine
end

