-- ==== Sys2Proof/Certificates/Slice0/Obligations.lean ====
section
/-! DEFINITION. The statements for the provers. -/

namespace Sys2Proof.Machine

/-! # Vocabulary -/

/-- An exact value saturated to a range, as a register holds it (R47, R52). -/
def satTo (lo hi z : Int) : Word := BitVec.ofInt 64 (max lo (min hi z))

/-! ## Lane instructions: integers -/

/-- The results of the two-source integer forms (R76, R78 to R80, R82 to R84) as exact arithmetic. -/
noncomputable def laneTwo : List ((BitVec 6 → Src → Src → Instr) × (Word → Word → Word)) :=
  [(.addI64, fun x y => BitVec.ofInt 64 (x.toInt + y.toInt)),
   (.subI64, fun x y => BitVec.ofInt 64 (x.toInt - y.toInt)),
   (.addI32, fun x y => (BitVec.ofInt 32 ((x.setWidth 32).toInt + (y.setWidth 32).toInt)).signExtend 64),
   (.subI32, fun x y => (BitVec.ofInt 32 ((x.setWidth 32).toInt - (y.setWidth 32).toInt)).signExtend 64),
   (.addN32, fun x y => (BitVec.ofInt 32 ((x.setWidth 32).toNat + (y.setWidth 32).toNat)).setWidth 64),
   (.subN32, fun x y => (BitVec.ofInt 32 ((x.setWidth 32).toNat - (y.setWidth 32).toNat)).setWidth 64),
   (.addI64Sat, fun x y => satTo (-2 ^ 63) (2 ^ 63 - 1) (x.toInt + y.toInt)),
   (.subI64Sat, fun x y => satTo (-2 ^ 63) (2 ^ 63 - 1) (x.toInt - y.toInt)),
   (.addN64Sat, fun x y => satTo 0 (2 ^ 64 - 1) (x.toNat + y.toNat)),
   (.subN64Sat, fun x y => satTo 0 (2 ^ 64 - 1) (x.toNat - y.toNat)),
   (.addI32Sat, fun x y => satTo (-2 ^ 31) (2 ^ 31 - 1) ((x.setWidth 32).toInt + (y.setWidth 32).toInt)),
   (.subI32Sat, fun x y => satTo (-2 ^ 31) (2 ^ 31 - 1) ((x.setWidth 32).toInt - (y.setWidth 32).toInt)),
   (.addN32Sat, fun x y => satTo 0 (2 ^ 32 - 1) ((x.setWidth 32).toNat + (y.setWidth 32).toNat)),
   (.subN32Sat, fun x y => satTo 0 (2 ^ 32 - 1) ((x.setWidth 32).toNat - (y.setWidth 32).toNat)),
   (.mulI64, fun x y => BitVec.ofInt 64 (x.toInt * y.toInt)),
   (.mulhiI64, fun x y => BitVec.ofInt 64 (x.toInt * y.toInt / 2 ^ 64)),
   (.mulhiN64, fun x y => BitVec.ofNat 64 (x.toNat * y.toNat / 2 ^ 64)),
   (.mulI32, fun x y => (BitVec.ofInt 32 ((x.setWidth 32).toInt * (y.setWidth 32).toInt)).signExtend 64),
   (.mulN32, fun x y => (BitVec.ofNat 32 ((x.setWidth 32).toNat * (y.setWidth 32).toNat)).setWidth 64),
   (.mulwI32, fun x y => BitVec.ofInt 64 ((x.setWidth 32).toInt * (y.setWidth 32).toInt)),
   (.mulwN32, fun x y => BitVec.ofNat 64 ((x.setWidth 32).toNat * (y.setWidth 32).toNat)),
   (.minI64, fun x y => if x.toInt ≤ y.toInt then x else y),
   (.maxI64, fun x y => if x.toInt ≤ y.toInt then y else x),
   (.minN64, fun x y => if x.toNat ≤ y.toNat then x else y),
   (.maxN64, fun x y => if x.toNat ≤ y.toNat then y else x),
   (.minI32, fun x y => BitVec.ofInt 64 (min (x.setWidth 32).toInt (y.setWidth 32).toInt)),
   (.maxI32, fun x y => BitVec.ofInt 64 (max (x.setWidth 32).toInt (y.setWidth 32).toInt)),
   (.minN32, fun x y => BitVec.ofNat 64 (min (x.setWidth 32).toNat (y.setWidth 32).toNat)),
   (.maxN32, fun x y => BitVec.ofNat 64 (max (x.setWidth 32).toNat (y.setWidth 32).toNat)),
   (.and, fun x y => x &&& y), (.or, fun x y => x ||| y), (.xor, fun x y => x ^^^ y),
   (.andn, fun x y => x &&& ~~~y), (.orn, fun x y => x ||| ~~~y), (.xnor, fun x y => ~~~(x ^^^ y))]

/-- The shifts and rotates of R82; `c` is the whole register. -/
noncomputable def laneShift : List ((BitVec 6 → Src → Src → Instr) × (Word → Nat → Word)) :=
  [(.shlN64, fun x c => if 64 ≤ c then 0 else x <<< c), (.shrN64, fun x c => if 64 ≤ c then 0 else x >>> c),
   (.shrI64, fun x c => BitVec.ofInt 64 (x.toInt / 2 ^ c)), (.rotlN64, fun x c => x.rotateLeft (c % 64)),
   (.shlN32, fun x c => if 32 ≤ c then 0 else (x.setWidth 32 <<< c).setWidth 64),
   (.shrN32, fun x c => if 32 ≤ c then 0 else (x.setWidth 32 >>> c).setWidth 64),
   (.shrI32, fun x c => BitVec.ofInt 64 ((x.setWidth 32).toInt / 2 ^ c)),
   (.rotlN32, fun x c => ((x.setWidth 32).rotateLeft (c % 32)).setWidth 64)]

/-- The one-source forms whose results are plain arithmetic (R77, R80, R81, R83). -/
noncomputable def laneOne : List ((BitVec 6 → Src → Instr) × (Word → Word)) :=
  [(.negI64, fun x => BitVec.ofInt 64 (-x.toInt)), (.absI64, fun x => BitVec.ofInt 64 |x.toInt|),
   (.not, fun x => ~~~x), (fun d a => .mov d a false, fun x => x),
   (.sextI8, fun x => (x.setWidth 8).signExtend 64), (.sextI16, fun x => (x.setWidth 16).signExtend 64),
   (.sextI32, fun x => (x.setWidth 32).signExtend 64)]

/-- The immediate forms (R85): `k` is the immediate, sign-extended. -/
noncomputable def laneImm : List ((BitVec 6 → Src → BitVec 11 → Instr) × (Word → Word → Word)) :=
  [(.addI64Imm, fun x k => x + k),
   (.addI32Imm, fun x k => (x.setWidth 32 + k.setWidth 32).signExtend 64),
   (.addI32SatImm, fun x k => satTo (-2 ^ 31) (2 ^ 31 - 1) ((x.setWidth 32).toInt + k.toInt)),
   (.addI64SatImm, fun x k => satTo (-2 ^ 63) (2 ^ 63 - 1) (x.toInt + k.toInt)),
   (.andImm, fun x k => x &&& k), (.orImm, fun x k => x ||| k), (.xorImm, fun x k => x ^^^ k), (.mulI64Imm, fun x k => x * k)]

/-- The immediate shifts (R85): the count is 0 to 63. -/
noncomputable def laneShiftImm : List ((BitVec 6 → Src → BitVec 11 → Instr) × (Word → Nat → Word)) :=
  [(.shlN64Imm, fun x c => x <<< c), (.shrN64Imm, fun x c => x >>> c), (.shrI64Imm, fun x c => x.sshiftRight c)]

/-- The comparisons of R87 and the q forms of the same names (R149). -/
noncomputable def compares : List ((BitVec 3 → Src → Src → Instr) × (Word → Word → Prop)) :=
  [(.setpEqI64, fun x y => x = y), (.setpNeI64, fun x y => x ≠ y),
   (.setpLtI64, fun x y => x.toInt < y.toInt), (.setpLeI64, fun x y => x.toInt ≤ y.toInt),
   (.setpLtN64, fun x y => x.toNat < y.toNat), (.setpLeN64, fun x y => x.toNat ≤ y.toNat),
   (.setpTst, fun x y => x &&& y ≠ 0),
   (.setpEqI32, fun x y => x.setWidth 32 = y.setWidth 32), (.setpNeI32, fun x y => x.setWidth 32 ≠ y.setWidth 32),
   (.setpLtI32, fun x y => (x.setWidth 32).toInt < (y.setWidth 32).toInt),
   (.setpLeI32, fun x y => (x.setWidth 32).toInt ≤ (y.setWidth 32).toInt),
   (.setpLtN32, fun x y => (x.setWidth 32).toNat < (y.setWidth 32).toNat),
   (.setpLeN32, fun x y => (x.setWidth 32).toNat ≤ (y.setWidth 32).toNat)]

/-- The predicate operations of R88 with two sources. -/
noncomputable def predTwo : List ((BitVec 3 → BitVec 3 → BitVec 3 → Instr) × (Bool → Bool → Bool)) :=
  [(.pand, fun x y => x && y), (.por, fun x y => x || y), (.pxor, fun x y => x != y), (.pandn, fun x y => x && !y)]

/-- The cells (major, minor) of the forms of `laneTwo`, in its order (R76, R78 to R80). -/
def laneTwoCells : List (BitVec 6 × BitVec 3) :=
  [(1, 0), (1, 1), (1, 2), (1, 3), (1, 4), (1, 5), (1, 6), (1, 7), (2, 0), (2, 1), (2, 2), (2, 3), (2, 4), (2, 5),
   (3, 0), (3, 1), (3, 2), (3, 3), (3, 4), (3, 5), (3, 6), (4, 0), (4, 1), (4, 2), (4, 3), (4, 4), (4, 5), (4, 6), (4, 7),
   (5, 0), (5, 1), (5, 2), (5, 3), (5, 4), (5, 5)]

/-- A word of the lane set in the cell (major, minor). -/
def LaneWord (w : BitVec 32) (major : BitVec 6) (minor : BitVec 3) : Prop :=
  Word.set w = 0 ∧ Word.major w = major ∧ Word.minor w = minor


/-! ## Lane instructions: floating point -/

/-- The short two-source forms (R105, R106, R110): rounding to nearest even, subnormals kept (R32); each element's result and the
flags of all. -/
noncomputable def floatTwo : List ((BitVec 6 → Src → Src → Instr) × (Word → Word → Word × Flags)) :=
  [(.addD, lift2 fp64 fun F => opAdd F ⟨.rne, false⟩),
   (.subD, lift2 fp64 fun F => opSub F ⟨.rne, false⟩),
   (.mulD, lift2 fp64 fun F => opMul F ⟨.rne, false⟩),
   (.divD, lift2 fp64 fun F => opDiv F ⟨.rne, false⟩),
   (.minD, lift2 fp64 fun F => opMinMax F false false),
   (.maxD, lift2 fp64 fun F => opMinMax F true false),
   (.copysignD, lift2 fp64 fun _ x y => (x % 2 ^ 63 + y / 2 ^ 63 * 2 ^ 63, 0)),
   (.addF, lift2 fp32 fun F => opAdd F ⟨.rne, false⟩),
   (.subF, lift2 fp32 fun F => opSub F ⟨.rne, false⟩),
   (.mulF, lift2 fp32 fun F => opMul F ⟨.rne, false⟩),
   (.divF, lift2 fp32 fun F => opDiv F ⟨.rne, false⟩),
   (.minF, lift2 fp32 fun F => opMinMax F false false),
   (.maxF, lift2 fp32 fun F => opMinMax F true false),
   (.copysignF, lift2 fp32 fun _ x y => (x % 2 ^ 31 + y / 2 ^ 31 * 2 ^ 31, 0)),
   (.addHf, lift2 fp16 fun F => opAdd F ⟨.rne, false⟩),
   (.subHf, lift2 fp16 fun F => opSub F ⟨.rne, false⟩),
   (.mulHf, lift2 fp16 fun F => opMul F ⟨.rne, false⟩),
   (.minHf, lift2 fp16 fun F => opMinMax F false false),
   (.maxHf, lift2 fp16 fun F => opMinMax F true false),
   (.addBf, lift2 bf16 fun F => opAdd F ⟨.rne, false⟩),
   (.subBf, lift2 bf16 fun F => opSub F ⟨.rne, false⟩),
   (.mulBf, lift2 bf16 fun F => opMul F ⟨.rne, false⟩),
   (.minBf, lift2 bf16 fun F => opMinMax F false false),
   (.maxBf, lift2 bf16 fun F => opMinMax F true false)]

/-- The long two-source forms (R105) with their rounding and flush. -/
noncomputable def floatTwoLong : List ((BitVec 6 → Src → Src → FMod → Instr) × (FMod → Word → Word → Word × Flags)) :=
  [(.addDLong, fun m => lift2 fp64 fun F => opAdd F m),
   (.subDLong, fun m => lift2 fp64 fun F => opSub F m),
   (.mulDLong, fun m => lift2 fp64 fun F => opMul F m),
   (.divDLong, fun m => lift2 fp64 fun F => opDiv F m),
   (.addFLong, fun m => lift2 fp32 fun F => opAdd F m),
   (.subFLong, fun m => lift2 fp32 fun F => opSub F m),
   (.mulFLong, fun m => lift2 fp32 fun F => opMul F m),
   (.divFLong, fun m => lift2 fp32 fun F => opDiv F m),
   (.addHfLong, fun m => lift2 fp16 fun F => opAdd F m),
   (.subHfLong, fun m => lift2 fp16 fun F => opSub F m),
   (.mulHfLong, fun m => lift2 fp16 fun F => opMul F m),
   (.addBfLong, fun m => lift2 bf16 fun F => opAdd F m),
   (.subBfLong, fun m => lift2 bf16 fun F => opSub F m),
   (.mulBfLong, fun m => lift2 bf16 fun F => opMul F m)]

/-- The long minima and maxima (R106) with their flush. -/
noncomputable def floatMinMaxLong : List ((BitVec 6 → Src → Src → Bool → Instr) × (Bool → Word → Word → Word × Flags)) :=
  [(.minDLong, fun z => lift2 fp64 fun F => opMinMax F false z),
   (.maxDLong, fun z => lift2 fp64 fun F => opMinMax F true z),
   (.minFLong, fun z => lift2 fp32 fun F => opMinMax F false z),
   (.maxFLong, fun z => lift2 fp32 fun F => opMinMax F true z),
   (.minHfLong, fun z => lift2 fp16 fun F => opMinMax F false z),
   (.maxHfLong, fun z => lift2 fp16 fun F => opMinMax F true z),
   (.minBfLong, fun z => lift2 bf16 fun F => opMinMax F false z),
   (.maxBfLong, fun z => lift2 bf16 fun F => opMinMax F true z)]

/-- The short one-source forms (R105, R109 to R113). -/
noncomputable def floatOne : List ((BitVec 6 → Src → Instr) × (Word → Word × Flags)) :=
  [(.sqrtD, lift1 fp64 fun F => opSqrt F ⟨.rne, false⟩),
   (.rintD, lift1 fp64 fun F => opRint F ⟨.rne, false⟩),
   (.fclassD, lift1 fp64 fun F x => (opClass F x, 0)),
   (.absD, lift1 fp64 fun _ x => (x % 2 ^ 63, 0)),
   (.negD, lift1 fp64 fun _ x => (if x < 2 ^ 63 then x + 2 ^ 63 else x - 2 ^ 63, 0)),
   (.sqrtF, lift1 fp32 fun F => opSqrt F ⟨.rne, false⟩),
   (.rintF, lift1 fp32 fun F => opRint F ⟨.rne, false⟩),
   (.fclassF, lift1 fp32 fun F x => (opClass F x, 0)),
   (.absF, lift1 fp32 fun _ x => (x % 2 ^ 31, 0)),
   (.negF, lift1 fp32 fun _ x => (if x < 2 ^ 31 then x + 2 ^ 31 else x - 2 ^ 31, 0)),
   (.rcpD, lift1 fp64 fun F x => withinUlp F 0 (BitVec.ofNat 64 x) (rawRcp F x)),
   (.rsqrtD, lift1 fp64 fun F x => withinUlp F 1 (BitVec.ofNat 64 x) (rawRsqrt F x)),
   (.exp2D, lift1 fp64 fun F x => withinUlp F 2 (BitVec.ofNat 64 x) (rawExp2 F x)),
   (.log2D, lift1 fp64 fun F x => withinUlp F 3 (BitVec.ofNat 64 x) (rawLog2 F x)),
   (.exp2F, lift1 fp32 fun F x => nearest F (rawExp2 F x)),
   (.log2F, lift1 fp32 fun F x => withinUlp F 5 (BitVec.ofNat 64 x) (rawLog2 F x)),
   (.sinF, lift1 fp32 fun F x => withinUlp F 6 (BitVec.ofNat 64 x) (rawTrig F false x)),
   (.cosF, lift1 fp32 fun F x => withinUlp F 7 (BitVec.ofNat 64 x) (rawTrig F true x))]

/-- The long one-source forms (R105). -/
noncomputable def floatOneLong : List ((BitVec 6 → Src → FMod → Instr) × (FMod → Word → Word × Flags)) :=
  [(.sqrtDLong, fun m => lift1 fp64 fun F => opSqrt F m),
   (.rintDLong, fun m => lift1 fp64 fun F => opRint F m),
   (.sqrtFLong, fun m => lift1 fp32 fun F => opSqrt F m),
   (.rintFLong, fun m => lift1 fp32 fun F => opRint F m)]

/-- The fused multiply-adds (R107). -/
noncomputable def floatFused : List ((BitVec 6 → Src → Src → Src → FMod → Instr) × (FMod → Word → Word → Word → Word × Flags)) :=
  [(.fmaD, fun m => lift3 fp64 fun F => opFma F false m),
   (.fnmaD, fun m => lift3 fp64 fun F => opFma F true m),
   (.fmaF, fun m => lift3 fp32 fun F => opFma F false m),
   (.fnmaF, fun m => lift3 fp32 fun F => opFma F true m),
   (.fmaHf, fun m => lift3 fp16 fun F => opFma F false m),
   (.fmaBf, fun m => lift3 bf16 fun F => opFma F false m)]

/-- The comparisons of element 0 (R108). -/
noncomputable def floatCompares : List ((BitVec 3 → Src → Src → Instr) × (Word → Word → Bool × Flags)) :=
  [(.setpEqD, fun x y => opCmp fp64 .eq (x.toNat % 2 ^ 64) (y.toNat % 2 ^ 64)),
   (.setpLtD, fun x y => opCmp fp64 .lt (x.toNat % 2 ^ 64) (y.toNat % 2 ^ 64)),
   (.setpLeD, fun x y => opCmp fp64 .le (x.toNat % 2 ^ 64) (y.toNat % 2 ^ 64)),
   (.setpNanD, fun x y => opCmp fp64 .nan (x.toNat % 2 ^ 64) (y.toNat % 2 ^ 64)),
   (.setpEqF, fun x y => opCmp fp32 .eq (x.toNat % 2 ^ 32) (y.toNat % 2 ^ 32)),
   (.setpLtF, fun x y => opCmp fp32 .lt (x.toNat % 2 ^ 32) (y.toNat % 2 ^ 32)),
   (.setpLeF, fun x y => opCmp fp32 .le (x.toNat % 2 ^ 32) (y.toNat % 2 ^ 32)),
   (.setpNanF, fun x y => opCmp fp32 .nan (x.toNat % 2 ^ 32) (y.toNat % 2 ^ 32))]

/-- The formats of registers (R49). -/
def regFormats : List Fmt := [fp64, fp32, fp16, bf16]

/-- What a narrowing conversion gives thread `i`'s group's AMAX (R65, R66): the bare values of its source elements. -/
def cvtInputs (s : State) (a : Src) (m : CvtMod) (i : Nat) : List Num :=
  (cvtSources m (valV s i a.r)).map
    (bareValue (codebook (getGrid s (gridOfG s.cur.gk)) m.slot.toNat) m.sk)

/-- The slot of a conversion in its launch's record (R55). -/
def cvtSlot (s : State) (m : CvtMod) : Word := tget 0 m.slot.toNat (getGrid s (gridOfG s.cur.gk)).lr.fslots

/-! ### One rounding of an exact real (R58, R59) -/

/-- The real number that a finite value is (R49). -/
noncomputable def realOf : Num → ℝ
  | .fin n m e => (if n then -1 else 1) * ((m : ℝ) * 2 ^ e)
  | .inf _ => 0
  | .nan _ => 0

/-- The quantum of a format at x (R58): 2^(e − p + 1), with e = max(floor(log2 |x|), emin). -/
noncomputable def quantumAt (F : Fmt) (x : ℝ) : ℝ := 2 ^ (max (Int.log 2 |x|) (fEmin F) - F.mb)

/-- A count of quanta to an integer by the mode (R58). -/
noncomputable def roundCount (r : Rnd) (neg : Bool) (n : ℝ) : ℤ :=
  open Classical in
  match r with
  | .rne => if Int.fract n < 1 / 2 ∨ (Int.fract n = 1 / 2 ∧ Even ⌊n⌋) then ⌊n⌋ else ⌊n⌋ + 1
  | .rtz => ⌊n⌋
  | .rup => if neg then ⌊n⌋ else ⌈n⌉
  | .rdn => if neg then ⌈n⌉ else ⌊n⌋

/-- The greatest finite magnitude of a format, and the least normal one. -/
noncomputable def maxFinite (F : Fmt) : ℝ := realOf (numOf F (fMax F false))
noncomputable def minNormal (F : Fmt) : ℝ := 2 ^ fEmin F

/-- The bits z encode the finite value ±y of sign `neg`. -/
def Encodes (F : Fmt) (neg : Bool) (y : ℝ) (z : Nat) : Prop :=
  z < 2 ^ (1 + F.eb + F.mb) ∧ isFin (numOf F z) = true ∧ nSign (numOf F z) = neg ∧ realOf (numOf F z) = if neg then -y else y

/-- `z` is the result and the flags of the one rounding of the exact x ≠ 0 into F (R58). -/
def RoundsTo (F : Fmt) (r : Rnd) (ftz : Bool) (x : ℝ) (z : Nat × Flags) : Prop :=
  ∀ neg y, (neg = true ↔ x < 0) → y = (roundCount r neg (|x| / quantumAt F x) : ℝ) * quantumAt F x →
    (maxFinite F < y → z.2 = flOF ||| flNX ∧ (r = .rne → z.1 = fInf F neg) ∧ (r = .rtz → z.1 = fMax F neg) ∧
      (r = .rup → z.1 = if neg then fMax F true else fInf F false) ∧ (r = .rdn → z.1 = if neg then fInf F true else fMax F false)) ∧
    (y ≤ maxFinite F → ftz = true → y ≠ 0 → y < minNormal F → z = (fZero F neg, flUF ||| flNX)) ∧
    (y ≤ maxFinite F → (ftz = true → y ≠ 0 → minNormal F ≤ y) → Encodes F neg y z.1 ∧ (y = |x| → z.2 = 0) ∧
      (y ≠ |x| → y < minNormal F → z.2 = flUF ||| flNX) ∧ (y ≠ |x| → minNormal F ≤ y → z.2 = flNX))

/-- `z` is the exact x ≠ 0 rounded to odd in F (R59). -/
def RoundsToOdd (F : Fmt) (x : ℝ) (z : Nat) : Prop :=
  ∀ neg m, (neg = true ↔ x < 0) → m = ⌊|x| / quantumAt F x⌋ →
    (maxFinite F < |x| → z = fMax F neg) ∧
    (|x| ≤ maxFinite F → Encodes F neg
      (((if (m : ℝ) * quantumAt F x = |x| ∨ m % 2 = 1 then m else m + 1 : ℤ) : ℝ) * quantumAt F x) z)

/-- The sign of an exact zero sum (R58): −0 when every term is −0; under `.rdn` when the terms are not all +0. -/
def zeroNeg (r : Rnd) (ts : List Num) : Bool :=
  if r = .rdn then !(ts.all fun t => isZero t && !nSign t) else ts.all fun t => isZero t && nSign t


/-! ## Lane instructions: control flow, and what keeps a thread from issuing -/

/-- The two-source register forms of the integer and of the floating set. -/
noncomputable def intTwoForms : List (BitVec 6 → Src → Src → Instr) := laneTwo.map Prod.fst
noncomputable def floatTwoForms : List (BitVec 6 → Src → Src → Instr) := floatTwo.map Prod.fst

/-- Thread `i` alone, whose guard is true, is about to issue a two-source form below the launch's counts. -/
structure TwoPending (s : State) (i : Nat) (d : BitVec 6) (a b : Src) : Prop where
  alone : Alone s i
  live : (getThr s (tkOf s i)).st ≠ .exited
  guard : guardVal s s.cur.gk i false = .yes
  below : a.r.toNat < (recOf s s.cur.gk).nv ∧ b.r.toNat < (recOf s s.cur.gk).nv ∧ d.toNat < (recOf s s.cur.gk).nv

/-- The operation is a `cadd` on its way (R195): a long-latency producer of its predicate, p0 too (R36, R37). -/
def isCadd (k : OpK) : Bool :=
  match k with | .rop _ _ _ (.cadd _ _ _ _ _ _ _ _ _) => true | _ => false

/-- The trap that thread `i` takes at the instruction being issued. -/
noncomputable def trapOf (s : State) (i : Nat) (n : TrapName) (addr info : Word) : State :=
  takeTrap s.cur.gk [i] false { name := n, pc := s.cur.pc, addr := addr, info := info } s


/-! ## Cross-lane instructions -/

/-- The lane that a shuffle reads, from the reader's number and its selector (R92). -/
noncomputable def shuffles : List ((BitVec 6 → Src → Src → Instr) × (Nat → Nat → Int)) :=
  [(.shflIdx, fun _ k => k), (.shflUp, fun i k => (i : Int) - k), (.shflDown, fun i k => (i : Int) + k),
   (.shflXor, fun i k => ((i ^^^ k : Nat) : Int))]

/-- What a shuffle gives thread `i`: the value of the lane it names, its own where that lane does not take part, cut to the element
that the selector names (R92, R93). -/
def shuffled (s : State) (lane : Nat → Nat → Int) (a b : BitVec 6) (i : Nat) : Word :=
  let c := (valV s i b).toNat
  let l := lane i (c % 64)
  let src := if 0 ≤ l ∧ l < widthOf s s.cur.gk ∧ l.toNat ∈ parts s then l.toNat else i
  let sz := 64 / 2 ^ (c / 256 % 4)
  BitVec.ofNat 64 ((valV s src a).toNat / 2 ^ (sz * (c / 1024 % 8 % (64 / sz))) % 2 ^ sz)


/-! ## Uniform instructions: arithmetic, jumps, system -/

/-- The two-source uniform forms (R149) with the results of the lane forms of the same names. -/
noncomputable def uniTwo : List ((BitVec 6 → Src → Src → Instr) × (Word → Word → Word)) :=
  [(.addI64U, fun x y => BitVec.ofInt 64 (x.toInt + y.toInt)), (.subI64U, fun x y => BitVec.ofInt 64 (x.toInt - y.toInt)),
   (.mulI64U, fun x y => BitVec.ofInt 64 (x.toInt * y.toInt)),
   (.mulhiN64U, fun x y => BitVec.ofNat 64 (x.toNat * y.toNat / 2 ^ 64)),
   (.minI64U, fun x y => if x.toInt ≤ y.toInt then x else y), (.maxI64U, fun x y => if x.toInt ≤ y.toInt then y else x),
   (.minN64U, fun x y => if x.toNat ≤ y.toNat then x else y), (.maxN64U, fun x y => if x.toNat ≤ y.toNat then y else x),
   (.andU, fun x y => x &&& y), (.orU, fun x y => x ||| y), (.xorU, fun x y => x ^^^ y), (.andnU, fun x y => x &&& ~~~y)]

/-- The uniform shifts. -/
noncomputable def uniShift : List ((BitVec 6 → Src → Src → Instr) × (Word → Nat → Word)) :=
  [(.shlN64U, fun x c => if 64 ≤ c then 0 else x <<< c), (.shrN64U, fun x c => if 64 ≤ c then 0 else x >>> c),
   (.shrI64U, fun x c => BitVec.ofInt 64 (x.toInt / 2 ^ c))]

/-- The uniform comparisons. -/
noncomputable def uniCompares : List ((BitVec 3 → Src → Src → Instr) × (Word → Word → Prop)) :=
  [(.setpEqI64U, fun x y => x = y), (.setpNeI64U, fun x y => x ≠ y),
   (.setpLtI64U, fun x y => x.toInt < y.toInt), (.setpLeI64U, fun x y => x.toInt ≤ y.toInt),
   (.setpLtN64U, fun x y => x.toNat < y.toNat), (.setpLeN64U, fun x y => x.toNat ≤ y.toNat),
   (.setpTstU, fun x y => x &&& y ≠ 0)]

/-- The uniform predicate operations with two sources. -/
noncomputable def uniPredTwo : List ((BitVec 3 → BitVec 3 → BitVec 3 → Instr) × (Bool → Bool → Bool)) :=
  [(.pandU, fun x y => x && y), (.porU, fun x y => x || y), (.pxorU, fun x y => x != y), (.pandnU, fun x y => x && !y)]

/-- A uniform form that names nothing. -/
def bareForm : Form := { uni := true, flds := [] }

/-- The system registers of R170: what each holds, whether user mode may read it, whether `rdsys.clr` and `wrsys` may name it. -/
structure SysRow where
  reg : SysReg
  value : Grp → Word
  user : Bool
  clears : Bool
  writes : Bool

def sysRows : List SysRow :=
  [⟨.fpx, fun g => g.fpx.setWidth 64, true, true, true⟩, ⟨.atomSize, fun _ => 0x3356, true, false, false⟩,
   ⟨.gang, fun g => g.gang, true, false, true⟩, ⟨.trapKind, fun g => g.tKind, false, false, false⟩,
   ⟨.trapPc, fun g => g.tPc, false, false, true⟩, ⟨.trapAddr, fun g => g.tAddr, false, false, false⟩,
   ⟨.trapInfo, fun g => g.tInfo, false, false, false⟩, ⟨.trapTid, fun g => g.tTid, false, false, false⟩,
   ⟨.trapTmp0, fun g => g.tTmp0, false, false, true⟩, ⟨.trapTmp1, fun g => g.tTmp1, false, false, true⟩,
   ⟨.trapTmp2, fun g => g.tTmp2, false, false, true⟩] ++
  (List.range 8).map fun k => ⟨.amax (BitVec.ofNat 3 k), fun g => tget 0 k g.amax, true, true, true⟩

/-- No trap of the group is held or handled, its virtual device has a handler, and the threads run in user mode (R145, R360). -/
structure CanTrap (s : State) (gk : Nat) (tids : List Nat) : Prop where
  idle : (getGrp s gk).hset = []
  handler : (blockOf s (ctxOf s gk)).handler ≠ 0
  user : ∀ i ∈ tids, (getThr s (threadKey gk i)).sys = false
  nonempty : tids ≠ []

/-- What taking a trap does (R360 to R362, R170): the trap registers of the group hold the record; the handler set is `tids`; each of
its threads goes on at the handler address in system mode and gives up its fetch lane; every other group, every other thread, and
every v, s and predicate register is as before. -/
structure TrapTaken (s t : State) (gk : Nat) (tids : List Nat) (group : Bool) (tr : TrapRec) : Prop where
  record : getGrp t gk = { getGrp s gk with
    tKind := BitVec.ofNat 64 (trapCode tr.name + (if group then 256 else 0) + (if tr.fetch then 512 else 0)
      + 1024 * spaceNum tr.space + (if tr.wr then 4096 else 0))
    tPc := tr.pc, tAddr := tr.addr, tInfo := tr.info
    tTid := if group then 0xFFFF else BitVec.ofNat 64 (tids.headD 0), hset := tids }
  threads : ∀ i ∈ tids, getThr t (threadKey gk i) =
    { getThr s (threadKey gk i) with pc := (blockOf s (ctxOf s gk)).handler, sys := true, st := .ready, wait := .none }
  otherThreads : ∀ k, getThr t k ≠ getThr s k → ∃ i ∈ tids, k = threadKey gk i
  otherGroups : ∀ g, g ≠ gk → getGrp t g = getGrp s g
  rest : t = { s with grp := t.grp, thr := t.thr, sc := { s.sc with lanes := t.sc.lanes, laneq := t.sc.laneq } }


/-! ## Memory: loads, stores, prefetches, atomics -/

/-- The operation that the instruction being issued puts in flight for issuer `tid`. -/
def opHere (s : State) (tid : Nat) (k : OpK) : Op := newOp s.cur.gk tid s.cur.pc k s

/-- The waiting of thread `i`, or of the group, at its instruction until an agent has served operation `k`. -/
def laneStalled (u : State) (i : Nat) (k : OpK) : State :=
  setThr (tkOf u i) { getThr u (tkOf u i) with st := .waitOpnd, wait := .agent u.mm.nextId }
    { u with mm := { u.mm with ops := u.mm.ops ++ [opHere u i k], nextId := u.mm.nextId + 1 } }

/-- The words of the drain word of a status page (R334) and of a peer's memory (R348). -/
abbrev readsDrainWord (qs : List Piece) (n : Nat) : Prop := n = 8 ∧ ∃ q ∈ qs, q.part.pa = 2 ^ 52 + 0x40800
abbrev readsPeer (qs : List Piece) : Prop := ∃ q ∈ qs, isPeer q.part.pa = true
abbrev editioned (qs : List Piece) : Prop := ∃ q ∈ qs, q.region ≠ 0

/-- The atomics of R134 with their minors. -/
noncomputable def atomics : List ((BitVec 6 → Src → Src → AtomMod → Instr) × Nat) :=
  [(.atomAdd, 0), (.atomMin, 1), (.atomMax, 2), (.atomAnd, 3), (.atomOr, 4), (.atomXor, 5), (.atomXchg, 6)]

/-- The orders of an atomic with a release side (R135). -/
def releases (m : AtomMod) : Bool := m.order == .rel || m.order == .ar || m.order == .sc
/-- Nothing that the thread has issued is left to perform before a release at the atomic's scope (R135, R235). -/
def mayRelease (u : State) (i : Nat) (m : AtomMod) : Prop :=
  releases m = true →
    releaseWait u u.cur.gk (.some i) (m.scope == .sys) (m.order == .sc) (wideScope u u.cur.gk m.scope) = .none
/-- The state after the release side of an atomic (R135, R234). -/
def releasedFor (u : State) (m : AtomMod) : State := if releases m then releaseScope u.cur.gk m.scope (m.order == .sc) u else u
/-- An atomic to a peer leaves after what the core's releases cover (R235, R244). -/
def sentFrom (peer : Bool) (u : State) : State := if peer then performDue (coreOf u u.cur.gk) u else u

/-- An operand that is read as an address or as data. -/
abbrev strictF (u : Bool) (a : Src) (n : Nat) : Fld := ⟨u, a.r, a.c, n, true⟩

/-- The `n` bytes at `va` are plain local memory for an issuer of the group: they lie in one page, whose translation its core holds as `e`
(R288) and which it has not been denied; every right in `accs` is given and every slice within reach (R122, R286, R276); the page is a
coherent page of HBM without editions, whose bytes are seen under its own key (R228, R303). -/
structure PlainPage (s : State) (tid : Nat) (uni : Bool) (accs : List Acc) (va : Word) (n : Nat) (e : XEnt) : Prop where
  address : canonical va = true ∧ (va.toNat + n ≤ glossAperture ∨ 2 ^ 63 ≤ va.toNat) ∧ va.toNat % 65536 + n ≤ 65536
  held : (s.mm.xlat.find? fun x => x.core == coreOf s s.cur.gk && x.asid == ctxOf s s.cur.gk && x.page == va.toNat % 2 ^ 57 / 65536) = .some e
  allowed : denyOf s s.cur.gk tid uni = .none ∧
    ∀ a ∈ accs, refuse s e.leaf a (userOf s s.cur.gk tid uni) (askerOf s s.cur.gk) (e.leaf.pa + va.toNat % 65536) n = .none
  plain : e.leaf.kind = .rc ∧ e.leaf.region = 0 ∧ isHbm (e.leaf.pa + va.toNat % 65536) = true ∧
    tget .none ((e.leaf.pa + va.toNat % 65536) / 65536) s.mm.wrapped = materialOf s e.leaf

/-- The piece of memory that such an access is. -/
def plainPiece (va : Word) (n : Nat) (e : XEnt) : Piece := ⟨⟨e.leaf.pa + va.toNat % 65536, n, .rc⟩, e.leaf.at_, 0, va⟩

/-- Thread `i` has passed its instruction. -/
abbrev WentOn (s t : State) (i : Nat) : Prop :=
  getThr t (tkOf s i) = { getThr s (tkOf s i) with pc := s.cur.npc, st := .ready, wait := .none }

/-- What a prefetch leaves alone (R128): every register but dead sources, every other thread, every group and team; it may bring a line to
the core, ask the directory, and show the page's bytes under its key. -/
structure PrefetchDone (s t : State) : Prop where
  regs : ∀ k r, getV t k r = getV s k r ∨ getV t k r = { getV s k r with st := .dead }
  sregs : ∀ g r, getS t g r = getS s g r ∨ getS t g r = { getS s g r with st := .dead }
  rest : t = { s with vreg := t.vreg, sreg := t.sreg, thr := t.thr, sc := { s.sc with opc := t.sc.opc }, mm := t.mm, gl := t.gl, grid := t.grid }
  ops : t.mm.ops = s.mm.ops


/-! ## Barriers, waits, queues, launches, editions -/

/-- A form of one or two operands that are read as values that must be clean, with or without a destination. -/
abbrev formU1 (a : Src) : Form := { uni := true, flds := [strictF true a 0] }
abbrev formU1d (d : BitVec 6) (a : Src) : Form := { uni := true, flds := [strictF true a 0], dv := .some d }
abbrev formU2 (a b : Src) : Form := { uni := true, flds := [strictF true a 0, strictF true b 1] }
abbrev formU2d (d : BitVec 6) (a b : Src) : Form := { uni := true, flds := [strictF true a 0, strictF true b 1], dv := .some d }

/-- A scope of the die or wider. -/
abbrev dieOrWider (c : Scope) : Prop := c = .die ∨ c = .dev ∨ c = .sys
/-- The state after a fence's actions on the core's caches (R138, R234): the release side, which a `.sc` fence at `.dev` or `.sys` performs
now and any other leaves covered for later, then the acquire side. -/
def fenced (k : OrdKind) (c : Scope) (u : State) : State :=
  let core := coreOf u u.cur.gk
  let wide := wideScope u u.cur.gk c
  let r := match k with
    | .acq => u
    | .sc => if c = .dev ∨ c = .sys then releaseCore core true true u else releaseLater core (dueBits u u.cur.gk c) true u
    | .rel => releaseLater core (dueBits u u.cur.gk c) false u
    | .ar => releaseLater core (dueBits u u.cur.gk c) false u
  if k = .rel then r else acquireCore core wide (k == .sc) r

/-- The participants of a lane send with what they read. -/
def sentBy (s : State) (v : Src) : List Part1 := (parts s).map fun i => ⟨i, [valV s i v.r], false⟩

/-- The lane sends and receives of R137 with the bytes of an element. -/
noncomputable def laneReceives : List ((BitVec 6 → BitVec 6 → Instr) × Nat) := [(.recvD, 8), (.recvW, 4)]
noncomputable def laneSends : List ((BitVec 6 → Src → Instr) × Nat) := [(.sendD, 8), (.sendW, 4)]


/-! ## The matrix engine and the compositing unit -/

/-- The register forms of R181 with the codes of their element types. -/
noncomputable def mmarForms : List ((BitVec 6 → Src → Src → BitVec 3 → BitVec 3 → Instr) × Nat) :=
  [(.mmarD, 0), (.mmarF, 1), (.mmarBf, 2), (.mmarHf, 3), (.mmarE4, 4)]

/-- The streamed forms of R184 with accumulator registers. -/
noncomputable def mmasForms : List ((BitVec 6 → Src → Src → BitVec 4 → Instr) × Nat) :=
  [(.mmasF, 1), (.mmasBf, 2), (.mmasHf, 3), (.mmasE4, 4)]

/-- An `mmar` of element type `ty` can arrive at the latch (R181): its blocks and factors are legal, its group has converged, its GANG value
is a gang's, its B part is legal, and every live thread can read. -/
structure MmarReady (s : State) (ty : Nat) (d : BitVec 6) (a b : Src) (fa fb : BitVec 3) : Prop extends Gathered s where
  blockA : blockOver (recOf s s.cur.gk) a (aBytes ty) = false
  blockC : ty ≠ 0 → blockOver (recOf s s.cur.gk) ⟨d, .plain⟩ (cBytes ty) = false
  ref : ty = 0 → d.toNat < (recOf s s.cur.gk).ns ∧ (getS s s.cur.gk d).st ≠ .empty
  kinds : slotKind (slotOf (recOf s s.cur.gk) fa) = (mty ty).kind ∧ slotKind (slotOf (recOf s s.cur.gk) fb) = (mty ty).kind
  baseB : b.r.toNat < (recOf s s.cur.gk).nv
  list : gangCount (getGrp s s.cur.gk).gang ≠ 0 ∧ gangBad s s.cur.gk (getGrp s s.cur.gk).gang = false
  blockB : blockOver (recOf s s.cur.gk) b
    (bBytes ty (gangPos (getGrp s s.cur.gk).gang) (gangCount (getGrp s s.cur.gk).gang)) = false
  reads : ∀ i ∈ live (arrive s) s.cur.gk, ∃ v p, readSources (arrive s) s.cur.gk i s.cur.pc (mmarForm (recOf s s.cur.gk).w ty
    (gangPos (getGrp s s.cur.gk).gang) (gangCount (getGrp s s.cur.gk).gang) d a b) = .ok v p

/-- The operands of an `mmas` (R184): its sources' words `x` and `y`, and for the slot form the reference `ref`. -/
structure MmasReady (s u w : State) (ty : Nat) (d : BitVec 6) (x y ref : Word) (ha hb : Handle) (sa sb : Shape) : Prop where
  block : ty ≠ 0 → blockOver (recOf s s.cur.gk) ⟨d, .plain⟩ (cBytes ty) = false
  zero : bits x 63 47 = 0 ∧ bits x 39 39 = 0 ∧ bits y 63 32 = 0
  slot : ty = 0 → ref ≠ 0 → (refSlot s s.cur.gk ref).isSome
  handles : getHandle s (teamOfG s.cur.gk) (bits x 38 32) = .some ha ∧ getHandle s (teamOfG s.cur.gk) (bits x 46 40) = .some hb
  ready : mmasHandle s (teamOfG s.cur.gk) (bits x 38 32) = .none ∧ mmasHandle s (teamOfG s.cur.gk) (bits x 46 40) = .none
  shapeA : getShape s.cur.gk (denyOf s s.cur.gk 0 true) (bits x 15 0) (arrive s) = (.ok sa, u)
  shapeB : getShape s.cur.gk (denyOf s s.cur.gk 0 true) (bits x 31 16) u = (.ok sb, w)
  same : w.cur = s.cur
  okA : stashShapeOk (recOf s s.cur.gk) sa (mty ty).kind false = true ∧ spanIn ha (shapeSpan sa (mty ty).eb) = true
  okB : stashShapeOk (recOf s s.cur.gk) sb (mty ty).kind false = true ∧ spanIn hb (shapeSpan sb (mty ty).eb) = true
  list : gangCount (getGrp s s.cur.gk).gang ≠ 0 ∧ gangBad w s.cur.gk (getGrp s s.cur.gk).gang = false
  reads : ∀ i ∈ live w s.cur.gk, ∃ v p, readSources w s.cur.gk i s.cur.pc
    { uni := false, flds := if ty = 0 then [] else blockFlds (recOf s s.cur.gk).w (cBytes ty) ⟨d, .plain⟩ } = .ok v p
  release : releaseWait w s.cur.gk .none false false (getTeam w (teamOfG s.cur.gk)).pair = .none

/-- A group that has arrived at the latch with a streamed instruction of form `F`, after its release. -/
def mmasArrived (w : State) (F : Form) (ty p : Nat) (d : BitVec 6) (x y ref : Word) (sa sb : Shape) : State :=
  holdAll .none (setLatch w.cur.gk (.some ⟨.mmas ty p ref (bits y 31 16) (bits y 15 0)
    { gk := w.cur.gk, d := d, a := sa, b := sb, ha := bits x 38 32, hb := bits x 46 40 }, kills F, w.cur.npc, w.cur.pc⟩)
    (keepCache w.cur.gk 0 F (releaseCore (coreOf w w.cur.gk) (getTeam w (teamOfG w.cur.gk)).pair false w)))

/-- The state in which a record's open is on its way (R192, R194, R258): the next free number is used up, and the record's handle fills
with one record more. -/
def openSent (s : State) (h : Nat) (y : Handle) : State :=
  setHandle (teamOfG s.cur.gk) h { y with st := .filling, recs := y.recs + 1 } (pick (freeRecs s s.cur.gk).1 0 s).2


/-! ## The Gloss instruction set -/

/-- A run is in progress on die `die`'s unit, and the unit issues now (R329, R333). -/
structure GlossRuns (s : State) (die : Nat) (r : GRun) : Prop where
  selected : s.gsel = .some die
  run : (getUnit s die).run = .some r

/-- The unit with one instruction of the owner's budget spent (R333). -/
def spent (u : GUnit) (r : GRun) : GUnit :=
  { u with left := tset 0 (ownerOf u r.k) (tget 0 (ownerOf u r.k) u.left - 1) u.left }

/-- The run goes on at word `pc`; past the program's last word it ends and is counted (R336, R337). -/
def glossGo (s : State) (die : Nat) (r : GRun) (u : GUnit) (pc : Nat) : State :=
  if pc < lenOf u r.k then setUnit die { u with run := .some { r with pc := pc } } s
  else { setUnit die (endRun r.k u) s with gsel := .none }

/-- The instructions that combine two registers (R336), with their results on n32 values. -/
noncomputable def glossTwo : List ((BitVec 4 → BitVec 4 → BitVec 4 → Instr) × (BitVec 32 → BitVec 32 → BitVec 32)) :=
  [(.gadd, fun x y => BitVec.ofNat 32 (x.toNat + y.toNat)), (.gsub, fun x y => BitVec.ofInt 32 (x.toNat - y.toNat)),
   (.gand, fun x y => x &&& y), (.gor, fun x y => x ||| y), (.gxor, fun x y => x ^^^ y),
   (.gshl, fun x y => if 32 ≤ y.toNat then 0 else BitVec.ofNat 32 (x.toNat * 2 ^ y.toNat)),
   (.gshr, fun x y => if 32 ≤ y.toNat then 0 else BitVec.ofNat 32 (x.toNat / 2 ^ y.toNat)),
   (.gmin, fun x y => BitVec.ofNat 32 (min x.toNat y.toNat)), (.gmax, fun x y => BitVec.ofNat 32 (max x.toNat y.toNat)),
   (.gmul, fun x y => BitVec.ofNat 32 (x.toNat * y.toNat))]

/-- The instructions that combine a register and imm18 (R336). -/
noncomputable def glossImm : List ((BitVec 4 → BitVec 4 → BitVec 18 → Instr) × (BitVec 32 → BitVec 18 → BitVec 32)) :=
  [(.gaddi, fun x i => BitVec.ofInt 32 (x.toNat + i.toInt)), (.gandi, fun x i => BitVec.ofNat 32 (x.toNat &&& i.toNat)),
   (.gshli, fun x i => if 32 ≤ i.toNat then 0 else BitVec.ofNat 32 (x.toNat * 2 ^ i.toNat)),
   (.gshri, fun x i => if 32 ≤ i.toNat then 0 else BitVec.ofNat 32 (x.toNat / 2 ^ i.toNat))]

/-- The conditional branches (R336). -/
noncomputable def glossBranches : List ((BitVec 4 → BitVec 4 → BitVec 6 → Instr) × (BitVec 32 → BitVec 32 → Prop)) :=
  [(.gbeq, fun x y => x = y), (.gbne, fun x y => x ≠ y), (.gblt, fun x y => x.toNat < y.toNat), (.gbge, fun x y => y.toNat ≤ x.toNat)]

/-- The four rows of a count-min sketch one after another (R339): the unit with their counts, and the least count so far. -/
def cmsRows (o : Nat) (x y : BitVec 32) (k : Nat) : List Nat → GUnit → BitVec 32 → GUnit × BitVec 32
  | [], u, m => (u, m)
  | row :: rows, u, m =>
    let i := y + 1 + BitVec.ofNat 32 (row * 2 ^ k + (glossHash x (BitVec.ofNat 32 row)).toNat % 2 ^ k)
    let w := satInc (winGet u o i)
    cmsRows o x y k rows (winSet o i w u) (if w.toNat < m.toNat then w else m)


/-! ## Events: what completes the accesses in flight -/

/-- The operation with identity `k` is in flight (R36). -/
abbrev InFlight (s : State) (k : Nat) (o : Op) : Prop := findOp s k = .some o

/-- A checked load's predicate becomes `b` (R131). -/
def checked (o : Op) (u : Bool) (p : Option (BitVec 3)) (b : Bool) (s : State) : State :=
  match p with | .some q => setPQ o.gk o.tid u q ⟨b, false⟩ s | .none => s

/-- A long-latency destination completes (R36): FULL and clean with a value; FAULT with the producer's address and the data address. -/
def filled (o : Op) (u : Bool) (d : BitVec 6) (x : Word) (s : State) : State := writeDst o.gk o.tid u d x false s
def faulted (o : Op) (u : Bool) (d : BitVec 6) (da : Word) (s : State) : State :=
  setR o.gk o.tid u d { getR s o.gk o.tid u d with st := .fault o.ia da } s

/-- The number that an element's low bits stand for as an unsigned or a signed type. -/
def elemInt (signed : Bool) (bits x : Nat) : Int := if signed = true ∧ 2 ^ (bits - 1) ≤ x then (x : Int) - 2 ^ bits else x

/-- The new value of an atomic's element of `w` bits (R134), from the old one `z` and the operands `x` and `y`, as numbers below 2^w. -/
def atomRule (minor : Nat) (signed : Bool) (w z x y : Nat) : Nat :=
  match minor with
  | 0 => (z + x) % 2 ^ w
  | 1 => if elemInt signed w x < elemInt signed w z then x else z
  | 2 => if elemInt signed w z < elemInt signed w x then x else z
  | 3 => z &&& x
  | 4 => z ||| x
  | 5 => z ^^^ x
  | 6 => x
  | _ => if z = x then y else z

/-- The types that an integer atomic accepts (R134). -/
def atomAccepts (minor : Nat) (ty : AtomTy) : Prop :=
  match ty with | .d => False | .i32 => minor ≤ 2 | .i64 => minor ≤ 2 | .n32 => minor ≤ 7 | .n64 => minor ≤ 7

def atomSigned (ty : AtomTy) : Bool := match ty with | .i32 => true | .i64 => true | .n32 => false | .n64 => false | .d => false


/-! ## Events: engines, scheduling, the accumulator -/

/-- The handle of a copy that has ended (R142). -/
def copyEnded (l : LRec) (c : Copy) (x : Handle) (s : State) : State :=
  if c.err then setHandle c.team c.h { x with st := .free, err := true } s
  else if c.drain then setHandle c.team c.h { x with st := .free } s
  else setHandle c.team c.h { x with st := .full } (zeroRest l c x s)

/-- The real number of a matrix element; an edge element is +0 (R188). -/
noncomputable def elemReal : Option Num → ℝ
  | .some x => realOf x
  | .none => 0

/-- The exact sum of the products of a row of A and a column of B, scaled (R57, R67). -/
noncomputable def dotReal (sc : Int) (row col : List (Option Num)) : ℝ :=
  (row.zipWith (fun x y => elemReal x * elemReal y * (2 : ℝ) ^ sc) col).sum

/-- FP32 bits of a sum of products, rounded once to nearest even with subnormals kept (R58, R198, R199). -/
def roundSum (l : List Num) : BitVec 32 := BitVec.ofNat 32 (nRound fp32 .rne false (nAlign .rne l)).1
/-- A number of FP32 bits, and the exact product of two. -/
def f32 (x : BitVec 32) : Num := numOf fp32 x.toNat


/-! ## Events: caches, directory, fault records, the Bindery, routes -/

/-- R312: the entry that a read request of die `r` leaves; the owner's own request changes nothing. -/
def afterRead (r : Nat) (e : DirEnt) : DirEnt :=
  match e.st with
  | .i => ⟨.e, dirBit r, r⟩
  | .s => ⟨.s, e.pres ||| dirBit r, 0⟩
  | .e => if e.owner = r then e else ⟨.s, dirBit e.owner ||| dirBit r, 0⟩
  | .m => if e.owner = r then e else ⟨.o, dirBit e.owner ||| dirBit r, e.owner⟩
  | .o => ⟨.o, e.pres ||| dirBit r, e.owner⟩

/-- The directory has the entry `e` for `line`; the other lines' entries and memory are as before. -/
def DirectoryGets (s t : State) (line : Nat) (e : DirEnt) : Prop :=
  tget {} line t.mm.dir = e ∧ (∀ l, l ≠ line → tget {} l t.mm.dir = tget {} l s.mm.dir) ∧ t.mm.mem = s.mm.mem ∧ t.mm.l1 = s.mm.l1


/-! ## Events: tenancy, queues, Gloss units -/

/-- Attachment `k` of a unit takes an event (R326): valid, of its class, with its address-space bits, of its owner's device. -/
def Takes (u : GUnit) (e : GlossEvent) (k : Nat) (a : Att) : Prop :=
  tget .none k u.att = .some a ∧ a.valid = true ∧ e.cls = a.cls ∧ e.asid &&& a.mask = a.asid &&& a.mask ∧
    (a.owner = 64 ∨ e.cls = 10 ∨ e.vdev = a.owner)

/-- A tenant's entry fits its unit (R327, R328): a window of 2^8 to 2^16 words, aligned and inside the memory, its reserved bytes zero. -/
def TenantFits (t : Ten) (bs : List Byte) : Prop :=
  8 ≤ t.wlog ∧ t.wlog ≤ 16 ∧ t.wbase % 2 ^ t.wlog = 0 ∧ t.wbase + 2 ^ t.wlog ≤ 65536 ∧ fieldOf bs 10 6 = 0 ∧ fieldOf bs 24 8 = 0 ∧
    fieldOf bs 16 8 % 16 = 0

/-- The unit of a die in `t` is `u`; the units of the other dies are as in `s`. -/
def UnitBecomes (s t : State) (die : Nat) (u : GUnit) : Prop :=
  getUnit t die = u ∧ (∀ d, d ≠ die → getUnit t d = getUnit s d) ∧ t.mm = s.mm ∧ t.vreg = s.vreg ∧ t.sreg = s.sreg ∧ t.thr = s.thr


/-! ## Events: other packages, links -/

/-- The reduction tree of R356: level `j`, place `r`, over the contributions `leaf`. -/
def treeLevel (op : Word → Word → Word) (leaf : Nat → Word) : Nat → Nat → Word
  | 0, r => leaf r
  | j + 1, r => op (treeLevel op leaf j (2 * r)) (treeLevel op leaf j (2 * r + 1))


/-! ## Events: repairs, the host, security, power -/

/-- Nothing but the physical function's registers differs. -/
def OnlyRegisters (s t : State) : Prop := t = { s with rg := t.rg }


/-! ## Steps, words, reset, invariants -/

end Sys2Proof.Machine

open Sys2Proof Sys2Proof.Machine

/-- R76, R78, R79, R80, R84: every two-source integer form is decoded from its cell with both sources' controls, and on every bundle that is
ready, answers the next state in which every thread's destination holds the exact result of its own two source values, FULL and clean,
the sources with control 0b01 are dead, every thread goes on at the next word, and nothing else has changed. -/
def Obligations.LaneTwoSourceResults : Prop :=
  (∀ e ∈ laneTwo, ∀ (s : State) (d : BitVec 6) (a b : Src), LaneReady s (form2 false d a b) →
    ∃ t, exec (e.1 d a b) s = .next t ∧ LaneResult s t (form2 false d a b) (fun i => e.2 (valV s i a.r) (valV s i b.r))) ∧
  (∀ (s : State) (d : BitVec 6) (a b : Src) (k : BitVec 3), LaneReady s (form2 false d a b) →
    ∃ t, exec (.lea d a b k) s = .next t ∧ LaneResult s t (form2 false d a b)
      (fun i => BitVec.ofNat 64 ((valV s i a.r).toNat + (valV s i b.r).toNat * 2 ^ k.toNat))) ∧
  (∀ p ∈ laneTwoCells.zip laneTwo, ∀ w x, LaneWord w p.1.1 p.1.2 → decodePlain w x = .ok (p.2.1 (Word.d w) (srcA w) (srcB w))) ∧
  (∀ w x k, LaneWord w 8 k → decodePlain w x = .ok (.lea (Word.d w) (srcA w) (srcB w) k))

/-- R82: the shifts and rotates, decoded from major 0x06, for every count a register can hold; a poisoned count takes POISON_USE in its
thread. -/
def Obligations.LaneShiftResults : Prop :=
  (∀ e ∈ laneShift, ∀ (s : State) (d : BitVec 6) (a b : Src), LaneReady s (formSh false d a b) →
    ∃ t, exec (e.1 d a b) s = .next t ∧
      LaneResult s t (formSh false d a b) (fun i => e.2 (valV s i a.r) (valV s i b.r).toNat)) ∧
  (∀ e ∈ laneShift, ∀ (s : State) (d : BitVec 6) (a b : Src) (i : Nat), LaneReadable s (form2 false d a b) → Alone s i →
    (readCell (getV s (tkOf s i) b.r)).2 = true →
    exec (e.1 d a b) s = .next (takeTrap s.cur.gk [i] false { name := .poisonUse, pc := s.cur.pc, info := 1 } s)) ∧
  (∀ p ∈ (List.range 8).zip laneShift, ∀ w x, LaneWord w 6 (BitVec.ofNat 3 p.1) →
    decodePlain w x = .ok (p.2.1 (Word.d w) (srcA w) (srcB w)))

/-- R77, R80, R81, R83, R86: one-source forms, moves from an s register and constants; `neg.i64` and `abs.i64` are decoded from their cells
where the reserved fields are zero. R83: `popc`, `clz`, `ctz`, `brev` and `bswap`, each result said bit by bit; the cells of major 0x07. -/
def Obligations.LaneOneSourceResults : Prop :=
  ((
  (∀ e ∈ laneOne, ∀ (s : State) (d : BitVec 6) (a : Src), LaneReady s (form1 false d a) →
    ∃ t, exec (e.1 d a) s = .next t ∧ LaneResult s t (form1 false d a) (fun i => e.2 (valV s i a.r))) ∧
  (∀ (s : State) (d : BitVec 6) (a : Src), LaneReady s { uni := false, flds := [⟨true, a.r, a.c, 0, false⟩], dv := .some d } →
    ∃ t, exec (.mov d a true) s = .next t ∧
      LaneResult s t { uni := false, flds := [⟨true, a.r, a.c, 0, false⟩], dv := .some d } (fun _ => (getS s s.cur.gk a.r).v)) ∧
  (∀ (s : State) (d : BitVec 6) (k : BitVec 24), LaneReady s { uni := false, flds := [], dv := .some d } →
    ∃ t, exec (.movc d k) s = .next t ∧ LaneResult s t { uni := false, flds := [], dv := .some d } (fun _ => k.signExtend 64)) ∧
  (∀ (s : State) (d : BitVec 6) (k : BitVec 24), LaneReady s { uni := false, flds := [⟨false, d, .plain, 4, false⟩], dv := .some d } →
    ∃ t, exec (.movcM d k) s = .next t ∧ LaneResult s t { uni := false, flds := [⟨false, d, .plain, 4, false⟩], dv := .some d }
      (fun i => (valV s i d &&& ~~~(0x0000FFFFFF000000 : Word)) ||| (k.setWidth 64 <<< 24))) ∧
  (∀ (s : State) (d : BitVec 6) (k : BitVec 16), LaneReady s { uni := false, flds := [⟨false, d, .plain, 4, false⟩], dv := .some d } →
    ∃ t, exec (.movcH d k) s = .next t ∧ LaneResult s t { uni := false, flds := [⟨false, d, .plain, 4, false⟩], dv := .some d }
      (fun i => (valV s i d &&& (0x0000FFFFFFFFFFFF : Word)) ||| (k.setWidth 64 <<< 48))) ∧
  (∀ w x, LaneWord w 2 6 → Word.b w = 0 → Word.cb w = 0 → decodePlain w x = .ok (.negI64 (Word.d w) (srcA w))) ∧
  (∀ w x, LaneWord w 2 7 → Word.b w = 0 → Word.cb w = 0 → decodePlain w x = .ok (.absI64 (Word.d w) (srcA w)))
  ) ∧ (
  (∀ p ∈ (List.range 8).zip ([.popc, .clz, .ctz, .brev, .bswap, .sextI8, .sextI16, .sextI32] : List (BitVec 6 → Src → Instr)), ∀ w x,
    LaneWord w 7 (BitVec.ofNat 3 p.1) → Word.b w = 0 → Word.cb w = 0 → decodePlain w x = .ok (p.2 (Word.d w) (srcA w))) ∧
  ∀ (s : State) (d : BitVec 6) (a : Src), LaneReady s (form1 false d a) →
    (∃ t, exec (.popc d a) s = .next t ∧
      LaneResult s t (form1 false d a) (fun i => BitVec.ofNat 64 ((List.range 64).countP (valV s i a.r).getLsbD))) ∧
    (∃ t f, exec (.clz d a) s = .next t ∧ LaneResult s t (form1 false d a) f ∧
      ∀ i ∈ s.cur.tids, (f i).toNat ≤ 64 ∧ (∀ k < (f i).toNat, (valV s i a.r).getLsbD (63 - k) = false) ∧
        ((f i).toNat < 64 → (valV s i a.r).getLsbD (63 - (f i).toNat) = true)) ∧
    (∃ t f, exec (.ctz d a) s = .next t ∧ LaneResult s t (form1 false d a) f ∧
      ∀ i ∈ s.cur.tids, (f i).toNat ≤ 64 ∧ (∀ k < (f i).toNat, (valV s i a.r).getLsbD k = false) ∧
        ((f i).toNat < 64 → (valV s i a.r).getLsbD (f i).toNat = true)) ∧
    (∃ t f, exec (.brev d a) s = .next t ∧ LaneResult s t (form1 false d a) f ∧
      ∀ i ∈ s.cur.tids, ∀ k < 64, (f i).getLsbD k = (valV s i a.r).getLsbD (63 - k)) ∧
    (∃ t f, exec (.bswap d a) s = .next t ∧ LaneResult s t (form1 false d a) f ∧
      ∀ i ∈ s.cur.tids, ∀ k < 8, ∀ j < 8, (f i).getLsbD (8 * k + j) = (valV s i a.r).getLsbD (8 * (7 - k) + j))
  ))

/-- R85: the immediate forms, on every immediate; the shifts on every count that R85 accepts. -/
def Obligations.LaneImmediateResults : Prop :=
  (∀ e ∈ laneImm, ∀ (s : State) (d : BitVec 6) (a : Src) (k : BitVec 11), LaneReady s (form1 false d a) →
    ∃ t, exec (e.1 d a k) s = .next t ∧ LaneResult s t (form1 false d a) (fun i => e.2 (valV s i a.r) (k.signExtend 64))) ∧
  (∀ e ∈ laneShiftImm, ∀ (s : State) (d : BitVec 6) (a : Src) (k : BitVec 11), k.toNat < 64 → LaneReady s (form1 false d a) →
    ∃ t, exec (e.1 d a k) s = .next t ∧ LaneResult s t (form1 false d a) (fun i => e.2 (valV s i a.r) k.toNat))

/-- R87, R88, R89: comparisons, predicate logic (with the cells of major 0x0B) and `sel`; a write to p0 is discarded (R37), everything else
as stated. -/
def Obligations.LanePredicateResults : Prop :=
  (∀ e ∈ compares, ∀ (s : State) (p : BitVec 3) (a b : Src), LaneReady s (formP false p a b) →
    ∃ t f, exec (e.1 p a b) s = .next t ∧ LanePResult s t (formP false p a b) f ∧
      ∀ i ∈ s.cur.tids, f i = true ↔ e.2 (valV s i a.r) (valV s i b.r)) ∧
  (∀ e ∈ predTwo, ∀ (s : State) (p q r : BitVec 3), LaneReady s (formPP false p [q, r]) →
    ∃ t, exec (e.1 p q r) s = .next t ∧
      LanePResult s t (formPP false p [q, r]) (fun i => e.2 (getP s (tkOf s i) q).b (getP s (tkOf s i) r).b)) ∧
  (∀ (s : State) (p q : BitVec 3), LaneReady s (formPP false p [q]) →
    ∃ t, exec (.pnot p q) s = .next t ∧ LanePResult s t (formPP false p [q]) (fun i => !(getP s (tkOf s i) q).b)) ∧
  (∀ (s : State) (d : BitVec 6) (a b : Src) (k : BitVec 3), LaneReady s { form2 false d a b with preds := [k] } →
    ∃ t, exec (.sel d a b k) s = .next t ∧ LaneResult s t { form2 false d a b with preds := [k] }
      (fun i => if (getP s (tkOf s i) k).b then valV s i a.r else valV s i b.r)) ∧
  (∀ e ∈ (List.range 4).zip predTwo, ∀ w x, LaneWord w 11 (BitVec.ofNat 3 e.1) → (Word.d w).toNat % 8 = 0 → (Word.a w).toNat % 8 = 0 →
    (Word.b w).toNat % 8 = 0 → Word.ca w = 0 → Word.cb w = 0 →
    decodePlain w x = .ok (e.2.1 ((Word.d w).extractLsb' 3 3) ((Word.a w).extractLsb' 3 3) ((Word.b w).extractLsb' 3 3))) ∧
  (∀ w x, LaneWord w 11 4 → (Word.d w).toNat % 8 = 0 → (Word.a w).toNat % 8 = 0 → Word.b w = 0 → Word.ca w = 0 → Word.cb w = 0 →
    decodePlain w x = .ok (.pnot ((Word.d w).extractLsb' 3 3) ((Word.a w).extractLsb' 3 3)))

/-- R90: `rdsr` reads the special registers: the thread's number, its group's, its team's, the core, the die, the width, the cycles since the
launch's first team started on the core, and the virtual device. Where a clause goes beyond the rule's words it follows the model's own
reading or choice: log entry 8. -/
def Obligations.SpecialRegisterReads : Prop :=
  ∀ (s : State) (d : BitVec 6) (r : BitVec 3), LaneReady s { uni := false, flds := [], dv := .some d } →
    ∃ t, exec (.rdsr d r) s = .next t ∧ LaneResult s t { uni := false, flds := [], dv := .some d } (fun i =>
      if r = 0 then BitVec.ofNat 64 i
      else if r = 1 then BitVec.ofNat 64 (gidOf s.cur.gk)
      else if r = 2 then BitVec.ofNat 64 (teamOfG s.cur.gk % 2 ^ 24)
      else if r = 3 then BitVec.ofNat 64 (coreOf s s.cur.gk)
      else if r = 4 then BitVec.ofNat 64 (dieOf (coreOf s s.cur.gk))
      else if r = 5 then BitVec.ofNat 64 (widthOf s s.cur.gk)
      else if r = 6 then BitVec.ofNat 64 (coreCycles s (coreOf s s.cur.gk) + 1
        - tget 0 (coreOf s s.cur.gk) (getGrid s (gridOfG s.cur.gk)).start)
      else BitVec.ofNat 64 (vdevOf s (ctxOf s s.cur.gk)))

/-- R105, R106, R110: every two-source floating form writes every thread's element-wise result and ORs its flags into the group's FPX (R62);
nothing else changes. R108: the floating comparisons compare element 0 and write a predicate. -/
def Obligations.FloatTwoSourceResults : Prop :=
  ((
  (∀ e ∈ floatTwo, ∀ (s : State) (d : BitVec 6) (a b : Src), LaneReady s (form2 false d a b) →
    ∃ t, exec (e.1 d a b) s = .next t ∧ LaneResult s t (form2 false d a b)
      (fun i => (e.2 (valV s i a.r) (valV s i b.r)).1) (fun i => (e.2 (valV s i a.r) (valV s i b.r)).2)) ∧
  (∀ e ∈ floatTwoLong, ∀ (s : State) (d : BitVec 6) (a b : Src) (m : FMod), LaneReady s (form2 false d a b) →
    ∃ t, exec (e.1 d a b m) s = .next t ∧ LaneResult s t (form2 false d a b)
      (fun i => (e.2 m (valV s i a.r) (valV s i b.r)).1) (fun i => (e.2 m (valV s i a.r) (valV s i b.r)).2)) ∧
  (∀ e ∈ floatMinMaxLong, ∀ (s : State) (d : BitVec 6) (a b : Src) (z : Bool), LaneReady s (form2 false d a b) →
    ∃ t, exec (e.1 d a b z) s = .next t ∧ LaneResult s t (form2 false d a b)
      (fun i => (e.2 z (valV s i a.r) (valV s i b.r)).1) (fun i => (e.2 z (valV s i a.r) (valV s i b.r)).2))
  ) ∧ (
  ∀ e ∈ floatCompares, ∀ (s : State) (p : BitVec 3) (a b : Src), LaneReady s (formP false p a b) →
    ∃ t, exec (e.1 p a b) s = .next t ∧ LanePResult s t (formP false p a b)
      (fun i => (e.2 (valV s i a.r) (valV s i b.r)).1) (fun i => (e.2 (valV s i a.r) (valV s i b.r)).2)
  ))

/-- R105, R107, R109 to R113: the one-source forms, the special functions (within one unit of the last place, which neighbour being a free
value) and the fused forms. Where a clause goes beyond the rule's words it follows the model's own reading or choice: log entries 4, 47. -/
def Obligations.FloatOneAndThreeSourceResults : Prop :=
  (∀ e ∈ floatOne, ∀ (s : State) (d : BitVec 6) (a : Src), LaneReady s (form1 false d a) →
    ∃ t, exec (e.1 d a) s = .next t ∧ LaneResult s t (form1 false d a)
      (fun i => (e.2 (valV s i a.r)).1) (fun i => (e.2 (valV s i a.r)).2)) ∧
  (∀ e ∈ floatOneLong, ∀ (s : State) (d : BitVec 6) (a : Src) (m : FMod), LaneReady s (form1 false d a) →
    ∃ t, exec (e.1 d a m) s = .next t ∧ LaneResult s t (form1 false d a)
      (fun i => (e.2 m (valV s i a.r)).1) (fun i => (e.2 m (valV s i a.r)).2)) ∧
  (∀ e ∈ floatFused, ∀ (s : State) (d : BitVec 6) (a b c : Src) (m : FMod), LaneReady s (form3 d a b c) →
    ∃ t, exec (e.1 d a b c m) s = .next t ∧ LaneResult s t (form3 d a b c)
      (fun i => (e.2 m (valV s i a.r) (valV s i b.r) (valV s i c.r)).1)
      (fun i => (e.2 m (valV s i a.r) (valV s i b.r) (valV s i c.r)).2))

/-- R114 to R117, R65, R66: `cvt` writes every thread's converted elements, merged into vd where it has fewer of them, raises the flags, and
a narrowing conversion first notes its source values in AMAX of its slot. R118: a conversion from or to E4 through a slot of another kind
takes ILLEGAL in its thread. -/
def Obligations.ConversionResults : Prop :=
  ((
  ∀ (s : State) (d : BitVec 6) (a : Src) (m : CvtMod), LaneReady s (formCvt d a m) →
    ((m.sk = .e4 ∨ m.dk = .e4) → slotKind (cvtSlot s m) = 4) →
    ∃ t, exec (.cvt d a m) s = .next t ∧
      LaneResult (if kindWidth m.dk < kindWidth m.sk
          then s.cur.tids.foldl (fun u i => noteAmax s.cur.gk m.slot.toNat (cvtInputs s a m i) u) s else s) t (formCvt d a m)
        (fun i => (cvtReg m (cvtSlot s m) (codebook (getGrid s (gridOfG s.cur.gk)) m.slot.toNat) (valV s i a.r) (valV s i d)).1)
        (fun i => (cvtReg m (cvtSlot s m) (codebook (getGrid s (gridOfG s.cur.gk)) m.slot.toNat) (valV s i a.r) (valV s i d)).2)
  ) ∧ (
  ∀ (s : State) (d : BitVec 6) (a : Src) (m : CvtMod) (i : Nat), Alone s i → (getThr s (tkOf s i)).st ≠ .exited →
    (m.sk = .e4 ∨ m.dk = .e4) → slotKind (cvtSlot s m) ≠ 4 →
    exec (.cvt d a m) s = .next (takeTrap s.cur.gk [i] false { name := .illegal, pc := s.cur.pc, info := s.cur.word.setWidth 64 } s)
  ))

/-- R51, R62, R105, R107: a NaN operand, and each invalid combination of infinities and zeros (∞ − ∞, 0 × ∞, 0 / 0, ∞ / ∞, the root of a
negative value, and the two of a fused form), gives the default NaN of the format, in every mode; each invalid combination raises NV and
nothing else; a nonzero finite value divided by zero gives an infinity and raises DZ; R49 fixes the default NaN's bits. R58, R105, R107:
a sum, difference, product, quotient, square root and fused multiply-add of finite elements (flushed first under `.ftz1`) is the exact
real result rounded once into the format, with the flags of that rounding; an exact zero has the sign of R58 or of the factors; the exact
sum of any finite terms is rounded once as well, and `RoundToOdd` rounds it to odd (R59). R58: rounding a value that the format holds
gives that value back, in every mode, with no flag. -/
def Obligations.RoundingAndNans : Prop :=
  ((
  (fNaN fp64 = 0x7FF8000000000000 ∧ fNaN fp32 = 0x7FC00000 ∧ fNaN fp16 = 0x7E00 ∧ fNaN bf16 = 0x7FC0) ∧
  ∀ F ∈ regFormats, ∀ (m : FMod) (a b : Nat),
    ((isNan (numOf F a) ∨ isNan (numOf F b)) →
      (opAdd F m a b).1 = fNaN F ∧ (opSub F m a b).1 = fNaN F ∧ (opMul F m a b).1 = fNaN F ∧ (opDiv F m a b).1 = fNaN F ∧
      (∀ c neg, (opFma F neg m a b c).1 = fNaN F) ∧ (∀ c neg, (opFma F neg m c a b).1 = fNaN F)) ∧
    (isNan (numOf F a) → (opSqrt F m a).1 = fNaN F ∧ (opRint F m a).1 = fNaN F ∧
      (isNan (numOf F b) → ∀ big, (opMinMax F big m.ftz a b).1 = fNaN F)) ∧
    (∀ x y, x = flush F m.ftz (numOf F a) → y = flush F m.ftz (numOf F b) →
      (∀ n, x = .inf n → y = .inf n → opSub F m a b = (fNaN F, flNV)) ∧
      (∀ n, x = .inf n → y = .inf !n → opAdd F m a b = (fNaN F, flNV)) ∧
      (isInf x = true → isInf y = true → opDiv F m a b = (fNaN F, flNV)) ∧
      (isZero x = true → isZero y = true → opDiv F m a b = (fNaN F, flNV)) ∧
      (isFin x = true → isZero x = false → isZero y = true → opDiv F m a b = (fInf F (nSign x != nSign y), flDZ)) ∧
      ((isInf x = true ∧ isZero y = true) ∨ (isZero x = true ∧ isInf y = true) →
        opMul F m a b = (fNaN F, flNV) ∧ ∀ c neg, opFma F neg m a b c = (fNaN F, flNV)) ∧
      (∀ c neg, (isInf x = true ∧ isNan y = false ∧ isZero y = false) ∨ (isInf y = true ∧ isNan x = false ∧ isZero x = false) →
        flush F m.ftz (numOf F c) = .inf !((nSign x != nSign y) != neg) → opFma F neg m a b c = (fNaN F, flNV)) ∧
      (nSign x = true → isZero x = false → opSqrt F m a = (fNaN F, flNV)))
  ) ∧ (
  (∀ F ∈ regFormats, ∀ (m : FMod) (a b c : Nat) (x y w : Machine.Num), x = flush F m.ftz (numOf F a) → y = flush F m.ftz (numOf F b) →
    w = flush F m.ftz (numOf F c) → isFin x = true → isFin y = true → isFin w = true →
    (realOf x + realOf y ≠ 0 → RoundsTo F m.rnd m.ftz (realOf x + realOf y) (opAdd F m a b)) ∧
    (realOf x - realOf y ≠ 0 → RoundsTo F m.rnd m.ftz (realOf x - realOf y) (opSub F m a b)) ∧
    (realOf x * realOf y ≠ 0 → RoundsTo F m.rnd m.ftz (realOf x * realOf y) (opMul F m a b)) ∧
    (realOf x ≠ 0 → realOf y ≠ 0 → RoundsTo F m.rnd m.ftz (realOf x / realOf y) (opDiv F m a b)) ∧
    (0 < realOf x → RoundsTo F m.rnd m.ftz (Real.sqrt (realOf x)) (opSqrt F m a)) ∧
    (∀ (neg : Bool) (p : ℝ), p = (if neg then -(realOf x * realOf y) else realOf x * realOf y) + realOf w → p ≠ 0 →
      RoundsTo F m.rnd m.ftz p (opFma F neg m a b c)) ∧
    (realOf x + realOf y = 0 → opAdd F m a b = (fZero F (zeroNeg m.rnd [x, y]), 0)) ∧
    (realOf x - realOf y = 0 → opSub F m a b = (fZero F (zeroNeg m.rnd [x, nNeg y]), 0)) ∧
    (realOf x * realOf y = 0 → opMul F m a b = (fZero F (nSign x != nSign y), 0)) ∧
    (realOf x = 0 → realOf y ≠ 0 → opDiv F m a b = (fZero F (nSign x != nSign y), 0)) ∧
    (realOf x = 0 → opSqrt F m a = (fZero F (nSign x), 0)) ∧
    (∀ (neg : Bool) (p : Machine.Num), p = (if neg then nNeg (nProd x y) else nProd x y) → realOf p + realOf w = 0 →
      opFma F neg m a b c = (fZero F (zeroNeg m.rnd [p, w]), 0))) ∧
  (∀ x y : Machine.Num, isFin x = true → isFin y = true → isFin (nProd x y) = true ∧ nSign (nProd x y) = (nSign x != nSign y) ∧
    realOf (nProd x y) = realOf x * realOf y) ∧
  (∀ F ∈ e8m26 :: regFormats, ∀ (r : Rnd) (ftz : Bool) (ts : List Machine.Num) (x : ℝ), (∀ t ∈ ts, isFin t = true) → x = (ts.map realOf).sum →
    (x ≠ 0 → RoundsTo F r ftz x (nRound F r ftz (nAlign r ts)) ∧ RoundsToOdd F x (nRoundOdd F (nAlign r ts))) ∧
    (x = 0 → nRound F r ftz (nAlign r ts) = (fZero F (zeroNeg r ts), 0) ∧ nRoundOdd F (nAlign r ts) = fZero F (zeroNeg r ts)))
  ) ∧ (
  ∀ F ∈ regFormats, ∀ (r : Rnd) (x : Nat), x < 2 ^ (1 + F.eb + F.mb) → isNan (numOf F x) = false →
    nRound F r false (numOf F x) = (x, 0)
  ))

/-- R97 to R99, R101, R35: each thread branches on its own predicate to the address of its own word plus four times the signed displacement;
a taken call links the next word's address in v63; a register jump goes to its clean, aligned target; `nop` only goes on. R28, R99: a
register jump to a clean target that is not a multiple of 4 takes ILLEGAL and writes nothing else. -/
def Obligations.LaneControlFlow : Prop :=
  ((
  (∀ (s : State) (p : BitVec 3) (n : Bool) (x : BitVec 21), LaneReady s { uni := false, flds := [], preds := [p] } →
    ∃ t, exec (.bra p n x) s = .next t ∧ LaneDone s t s.cur.tids { uni := false, flds := [], preds := [p] } (fun _ => .none)
      (fun _ => .none) (fun _ => 0)
      (fun i => if (getP s (tkOf s i) p).b ≠ n then BitVec.ofInt 64 (s.cur.pc.toNat + 4 * x.toInt) else s.cur.npc)) ∧
  (∀ (s : State) (p : BitVec 3) (n : Bool) (x : BitVec 21), LaneReady s { uni := false, flds := [], preds := [p], dv := .some 63 } →
    ∃ t, exec (.call p n x) s = .next t ∧ LaneDone s t s.cur.tids { uni := false, flds := [], preds := [p], dv := .some 63 }
      (fun i => if (getP s (tkOf s i) p).b ≠ n then .some ⟨s.cur.npc, .full, false⟩ else .none) (fun _ => .none) (fun _ => 0)
      (fun i => if (getP s (tkOf s i) p).b ≠ n then BitVec.ofInt 64 (s.cur.pc.toNat + 4 * x.toInt) else s.cur.npc)) ∧
  (∀ I ∈ [Instr.jmp, Instr.ret], ∀ (s : State) (a : Src), LaneReady s { uni := false, flds := [⟨false, a.r, a.c, 0, true⟩] } →
    (∀ i ∈ s.cur.tids, (valV s i a.r).toNat % 4 = 0) →
    ∃ t, exec (I a) s = .next t ∧ LaneDone s t s.cur.tids { uni := false, flds := [⟨false, a.r, a.c, 0, true⟩] } (fun _ => .none)
      (fun _ => .none) (fun _ => 0) (fun i => valV s i a.r)) ∧
  (∀ (s : State) (d : BitVec 6) (a : Src), LaneReady s { uni := false, flds := [⟨false, a.r, a.c, 0, true⟩], dv := .some d } →
    (∀ i ∈ s.cur.tids, (valV s i a.r).toNat % 4 = 0) →
    ∃ t, exec (.callr d a) s = .next t ∧
      LaneDone s t s.cur.tids { uni := false, flds := [⟨false, a.r, a.c, 0, true⟩], dv := .some d }
        (fun _ => .some ⟨s.cur.npc, .full, false⟩) (fun _ => .none) (fun _ => 0) (fun i => valV s i a.r)) ∧
  (∀ (s : State), LaneReady s { uni := false, flds := [] } →
    ∃ t, exec .nop s = .next t ∧
      LaneDone s t s.cur.tids { uni := false, flds := [] } (fun _ => .none) (fun _ => .none) (fun _ => 0) (fun _ => s.cur.npc))
  ) ∧ (
  ∀ (s : State) (d : BitVec 6) (a : Src) (i : Nat), Alone s i → (valV s i a.r).toNat % 4 ≠ 0 →
    (LaneReady s { uni := false, flds := [⟨false, a.r, a.c, 0, true⟩] } →
      exec (.jmp a) s = .next (trapOf s i .illegal 0 (s.cur.word.setWidth 64)) ∧
      exec (.ret a) s = .next (trapOf s i .illegal 0 (s.cur.word.setWidth 64))) ∧
    (LaneReady s { uni := false, flds := [⟨false, a.r, a.c, 0, true⟩], dv := .some d } →
      exec (.callr d a) s = .next (trapOf s i .illegal 0 (s.cur.word.setWidth 64)))
  ))

/-- R100: `exit` ends every thread of the bundle that has no producer outstanding and no FAULT register; while another thread of the group
runs on, nothing else happens; in every case what follows is what the end of the threads settles. Where a clause goes beyond the rule's
words it follows the model's own reading or choice: log entries 44, 53. -/
def Obligations.ExitEndsThreads : Prop :=
  ∀ (s : State), LaneReady s { uni := false, flds := [] } →
    (∀ i ∈ s.cur.tids, ∀ r : BitVec 6, r.toNat < (recOf s s.cur.gk).nv →
      (getV s (tkOf s i) r).st = .full ∨ (getV s (tkOf s i) r).st = .dead) →
    (∀ i ∈ s.cur.tids, ∀ p : BitVec 3, (getP s (tkOf s i) p).empty = false) →
    (∀ o ∈ s.mm.ops, o.gk = s.cur.gk → o.tid ∈ s.cur.tids → isCadd o.k = false) →
    ∃ u, exec .exit s = .next (settleExit s.cur.gk u) ∧
      (∀ i ∈ s.cur.tids, getThr u (tkOf s i) = { getThr s (tkOf s i) with st := .exited, wait := .none }) ∧
      (∀ k, (∀ i ∈ s.cur.tids, k ≠ tkOf s i) → getThr u k = getThr s k) ∧
      u = { s with thr := u.thr, sc := { s.sc with lanes := u.sc.lanes, laneq := u.sc.laneq } } ∧
      (∀ j, j < 64 → j < widthOf s s.cur.gk → j ∉ s.cur.tids → (getThr s (tkOf s j)).st = .ready →
        (getGrp s s.cur.gk).hset = [] → gidOf s.cur.gk < (recOf s s.cur.gk).groups →
        (∀ g, (getGrp s g).tbar = .none ∧ (getGrp s g).latch = .none) → settleExit s.cur.gk u = u)

/-- R43: a poisoned source of integer arithmetic or logic poisons the result and raises nothing; of floating arithmetic it poisons the result
and raises NV; every other effect of the instruction is as ever. R43, R87: a poisoned source of a comparison takes POISON_USE with the
field's number, and the predicate keeps its value. -/
def Obligations.PoisonedSources : Prop :=
  ((
  (∀ I ∈ intTwoForms, ∀ (s : State) (d : BitVec 6) (a b : Src), LaneReadable s (form2 false d a b) →
    (∀ i ∈ s.cur.tids, Poisoned s (form2 false d a b) i) →
    ∃ t, exec (I d a b) s = .next t ∧ LaneDone s t s.cur.tids (form2 false d a b)
      (fun _ => .some ⟨0x7FF40000DEAD0001, .full, true⟩) (fun _ => .none) (fun _ => 0) (fun _ => s.cur.npc)) ∧
  (∀ e ∈ floatTwo, ∀ (s : State) (d : BitVec 6) (a b : Src), LaneReadable s (form2 false d a b) →
    (∀ i ∈ s.cur.tids, Poisoned s (form2 false d a b) i) →
    ∃ t fl, exec (e.1 d a b) s = .next t ∧ LaneDone s t s.cur.tids (form2 false d a b)
      (fun _ => .some ⟨0x7FF40000DEAD0001, .full, true⟩) (fun _ => .none) (fun _ => fl) (fun _ => s.cur.npc) ∧
      (fl = 16 ∨ (fl = 0 ∧ (e.1 d a b = .copysignD d a b ∨ e.1 d a b = .copysignF d a b))))
  ) ∧ (
  ∀ e ∈ compares, ∀ (s : State) (p : BitVec 3) (a b : Src) (i : Nat), Alone s i →
    LaneReadable s { formP false p a b with flds := [fA false a, fB false b] } →
    ((readCell (getV s (tkOf s i) a.r)).2 = true → exec (e.1 p a b) s = .next (trapOf s i .poisonUse 0 0)) ∧
    ((readCell (getV s (tkOf s i) a.r)).2 = false → (readCell (getV s (tkOf s i) b.r)).2 = true →
      exec (e.1 p a b) s = .next (trapOf s i .poisonUse 0 1))
  ))

/-- R36, R40, R41: a first source that is EMPTY makes the thread wait, still at the instruction, with nothing written; with control 0b11 in a
field that names the register it takes EMPTY_READ with the register's number; a FAULT source takes DATA_UNCORR with the addresses that
the register keeps. Where a clause goes beyond the rule's words it follows the model's own reading or choice: log entry 12. -/
def Obligations.UnreadySourcesWaitOrTrap : Prop :=
  ∀ I ∈ intTwoForms ++ floatTwoForms, ∀ (s : State) (d : BitVec 6) (a b : Src) (i : Nat), TwoPending s i d a b →
    ((getV s (tkOf s i) a.r).st = .empty → ¬ (a.c = .trap ∨ (b.r = a.r ∧ b.c = .trap)) →
      ∃ x, (x = .waitOpnd ∨ x = .blocked) ∧
        exec (I d a b) s = .next (setThr (tkOf s i) { getThr s (tkOf s i) with st := x, wait := .reg false a.r } s)) ∧
    ((getV s (tkOf s i) a.r).st = .empty → (a.c = .trap ∨ (b.r = a.r ∧ b.c = .trap)) →
      exec (I d a b) s = .next (trapOf s i .emptyRead 0 (BitVec.ofNat 64 a.r.toNat))) ∧
    (∀ ia da, (getV s (tkOf s i) a.r).st = .fault ia da → exec (I d a b) s = .next (trapOf s i .dataUncorr da ia))

/-- R34: a thread whose guard is false passes the instruction, and nothing but its next address changes; R29: a register at or above the
launch's count takes ILLEGAL. Where a clause goes beyond the rule's words it follows the model's own reading or choice: log entry 12. -/
def Obligations.GuardAndLimits : Prop :=
  ∀ I ∈ intTwoForms ++ floatTwoForms, ∀ (s : State) (d : BitVec 6) (a b : Src) (i : Nat), Alone s i →
    (getThr s (tkOf s i)).st ≠ .exited →
    (guardVal s s.cur.gk i false = .no → a.r.toNat < (recOf s s.cur.gk).nv → b.r.toNat < (recOf s s.cur.gk).nv →
      d.toNat < (recOf s s.cur.gk).nv →
      exec (I d a b) s =
        .next (setThr (tkOf s i) { getThr s (tkOf s i) with pc := s.cur.npc, st := .ready, wait := .none } s)) ∧
    ((recOf s s.cur.gk).nv ≤ a.r.toNat ∨ (recOf s s.cur.gk).nv ≤ b.r.toNat ∨ (recOf s s.cur.gk).nv ≤ d.toNat →
      exec (I d a b) s = .next (trapOf s i .illegal 0 (s.cur.word.setWidth 64)))

/-- R92, R93: every shuffle reads all sources before it writes, and gives each participant the element of the lane it selects. -/
def Obligations.ShuffleResults : Prop :=
  ∀ e ∈ shuffles, ∀ (s : State) (d : BitVec 6) (a b : Src), CrossReady s (formSh false d a b) →
    ∃ t, exec (e.1 d a b) s = .next t ∧
      CrossDone s t (formSh false d a b) (fun i => .some (shuffled s e.2 a.r b.r i)) (fun _ => .none) 0

/-- R94: `ballot` collects the participants' predicates in one word, bit i for thread i; the votes tell whether any or all hold. R91, R144: a
thread that reaches a cross-lane instruction before another live thread of its group, which is elsewhere and not waiting at a uniform or
cross-lane instruction, only waits there. Where a clause goes beyond the rule's words it follows the model's own reading or choice: log
entries 10, 38. -/
def Obligations.BallotVoteAndConvergence : Prop :=
  ((
  (∀ (s : State) (d : BitVec 6) (p : BitVec 3), CrossReady s { uni := false, flds := [], preds := [p], dv := .some d } →
    ∃ t x, exec (.ballot d p) s = .next t ∧
      CrossDone s t { uni := false, flds := [], preds := [p], dv := .some d } (fun _ => .some x) (fun _ => .none) 0 ∧
      ∀ i < 64, x.getLsbD i = true ↔ i ∈ parts s ∧ (getP s (tkOf s i) p).b = true) ∧
  (∀ (s : State) (p q : BitVec 3), CrossReady s (formPP false p [q]) →
    (∃ t b, exec (.voteAny p q) s = .next t ∧ CrossDone s t (formPP false p [q]) (fun _ => .none) (fun _ => .some b) 0 ∧
      (b = true ↔ ∃ i ∈ parts s, (getP s (tkOf s i) q).b = true)) ∧
    (∃ t b, exec (.voteAll p q) s = .next t ∧ CrossDone s t (formPP false p [q]) (fun _ => .none) (fun _ => .some b) 0 ∧
      (b = true ↔ ∀ i ∈ parts s, (getP s (tkOf s i) q).b = true)))
  ) ∧ (
  ∀ e ∈ shuffles, ∀ (s : State) (d : BitVec 6) (a b : Src) (i j : Nat), Alone s i → i < 64 → j < 64 → i ≠ j →
    a.r.toNat < (recOf s s.cur.gk).nv → b.r.toNat < (recOf s s.cur.gk).nv → d.toNat < (recOf s s.cur.gk).nv →
    j ∈ domain s s.cur.gk → (getThr s (tkOf s j)).st = .ready → (getThr s (tkOf s i)).wait = .none →
    exec (e.1 d a b) s = .next (setThr (tkOf s i) { getThr s (tkOf s i) with st := .waitConv, wait := .none } s)
  ))

/-- R70, R96: the integer reductions give every participant the sum, the least and the greatest of all participants' values, and the identity
where there is none. R70, R71, R96: the floating reductions combine the values in the tree of R70 over all w lanes, a lane that takes no
part giving the identity, and raise every node's flags. -/
def Obligations.ReductionResults : Prop :=
  ((
  ∀ (s : State) (d : BitVec 6) (a : Src), CrossReady s (form1 false d a) →
    (∃ t, exec (.redAddI64 d a) s = .next t ∧ CrossDone s t (form1 false d a)
      (fun _ => .some (BitVec.ofInt 64 ((parts s).map fun i => (valV s i a.r).toInt).sum)) (fun _ => .none) 0) ∧
    (∃ t, exec (.redMinI64 d a) s = .next t ∧ CrossDone s t (form1 false d a)
      (fun _ => .some (BitVec.ofInt 64 (((parts s).map fun i => (valV s i a.r).toInt).foldl min (2 ^ 63 - 1)))) (fun _ => .none) 0) ∧
    (∃ t, exec (.redMaxI64 d a) s = .next t ∧ CrossDone s t (form1 false d a)
      (fun _ => .some (BitVec.ofInt 64 (((parts s).map fun i => (valV s i a.r).toInt).foldl max (-2 ^ 63)))) (fun _ => .none) 0)
  ) ∧ (
  ∀ e ∈ ([(.redAddD, 0x8000000000000000, lift2 fp64 fun F => opAdd F ⟨.rne, false⟩),
      (.redMinD, 0x7FF0000000000000, lift2 fp64 fun F => opMinMax F false false),
      (.redMaxD, 0xFFF0000000000000, lift2 fp64 fun F => opMinMax F true false),
      (.redAddF, 0x8000000080000000, lift2 fp32 fun F => opAdd F ⟨.rne, false⟩)] :
      List ((BitVec 6 → Src → Instr) × Word × (Word → Word → Word × Flags))),
    ∀ (s : State) (d : BitVec 6) (a : Src), CrossReady s (form1 false d a) →
      ∃ t x f, exec (e.1 d a) s = .next t ∧ CrossDone s t (form1 false d a) (fun _ => .some x) (fun _ => .none) f ∧
        (some x, f) = ((tree (flagged true e.2.2) 6 ((List.range (widthOf s s.cur.gk)).map fun i =>
          (some (if i ∈ parts s then valV s i a.r else e.2.1), (0 : Flags)))).headD (some e.2.1, 0))
  ))

/-- R149: the uniform arithmetic, shifts, moves and constants, on every group that is ready: s0 discards the result, everything else as the
lane forms, once for the group. R149: the uniform comparisons and predicate operations write q predicates; q0 discards. -/
def Obligations.UniformArithmeticResults : Prop :=
  ((
  (∀ e ∈ uniTwo, ∀ (s : State) (d : BitVec 6) (a b : Src), UniReady s (form2 true d a b) →
    ∃ t, exec (e.1 d a b) s = .next t ∧ UniDone s t (form2 true d a b) (.some (e.2 (valS s a.r) (valS s b.r))) .none s.cur.npc) ∧
  (∀ e ∈ uniShift, ∀ (s : State) (d : BitVec 6) (a b : Src), UniReady s (formSh true d a b) →
    ∃ t, exec (e.1 d a b) s = .next t ∧
      UniDone s t (formSh true d a b) (.some (e.2 (valS s a.r) (valS s b.r).toNat)) .none s.cur.npc) ∧
  (∀ (s : State) (d : BitVec 6) (a : Src), UniReady s (form1 true d a) →
    (∃ t, exec (.movU d a) s = .next t ∧ UniDone s t (form1 true d a) (.some (valS s a.r)) .none s.cur.npc) ∧
    (∀ k : BitVec 11, ∃ t, exec (.addI64ImmU d a k) s = .next t ∧
      UniDone s t (form1 true d a) (.some (valS s a.r + k.signExtend 64)) .none s.cur.npc)) ∧
  (∀ (s : State) (d : BitVec 6) (k : BitVec 24), UniReady s { uni := true, flds := [], dv := .some d } →
    ∃ t, exec (.movcU d k) s = .next t ∧
      UniDone s t { uni := true, flds := [], dv := .some d } (.some (k.signExtend 64)) .none s.cur.npc) ∧
  (∀ (s : State) (d : BitVec 6), UniReady s { uni := true, flds := [⟨true, d, .plain, 4, false⟩], dv := .some d } →
    (∀ k : BitVec 24, ∃ t, exec (.movcMU d k) s = .next t ∧
      UniDone s t { uni := true, flds := [⟨true, d, .plain, 4, false⟩], dv := .some d }
        (.some ((valS s d &&& ~~~(0x0000FFFFFF000000 : Word)) ||| (k.setWidth 64 <<< 24))) .none s.cur.npc) ∧
    (∀ k : BitVec 16, ∃ t, exec (.movcHU d k) s = .next t ∧
      UniDone s t { uni := true, flds := [⟨true, d, .plain, 4, false⟩], dv := .some d }
        (.some ((valS s d &&& (0x0000FFFFFFFFFFFF : Word)) ||| (k.setWidth 64 <<< 48))) .none s.cur.npc))
  ) ∧ (
  (∀ e ∈ uniCompares, ∀ (s : State) (p : BitVec 3) (a b : Src), UniReady s (formP true p a b) →
    ∃ t r, exec (e.1 p a b) s = .next t ∧ UniDone s t (formP true p a b) .none (.some r) s.cur.npc ∧
      (r = true ↔ e.2 (valS s a.r) (valS s b.r))) ∧
  (∀ e ∈ uniPredTwo, ∀ (s : State) (p q r : BitVec 3), UniReady s (formPP true p [q, r]) →
    ∃ t, exec (e.1 p q r) s = .next t ∧
      UniDone s t (formPP true p [q, r]) .none (.some (e.2 (getQ s s.cur.gk q).b (getQ s s.cur.gk r).b)) s.cur.npc) ∧
  (∀ (s : State) (p q : BitVec 3), UniReady s (formPP true p [q]) →
    ∃ t, exec (.pnotU p q) s = .next t ∧ UniDone s t (formPP true p [q]) .none (.some !(getQ s s.cur.gk q).b) s.cur.npc)
  ))

/-- R150, R151, R172: uniform jumps and calls move every thread of the group; `unop` only goes on. A register jump also notes that the group
fetches at its target. -/
def Obligations.UniformControlFlow : Prop :=
  (∀ (s : State) (p : BitVec 3) (n : Bool) (x : BitVec 21), UniReady s { uni := true, flds := [], preds := [p] } →
    ∃ t, exec (.ujmp p n x) s = .next t ∧ UniDone s t { uni := true, flds := [], preds := [p] } .none .none
      (if (getQ s s.cur.gk p).b ≠ n then BitVec.ofInt 64 (s.cur.pc.toNat + 4 * x.toInt) else s.cur.npc)) ∧
  (∀ (s : State) (p : BitVec 3) (n : Bool) (x : BitVec 21), UniReady s { uni := true, flds := [], preds := [p], dv := .some 63 } →
    ∃ t, exec (.ucall p n x) s = .next t ∧ UniDone s t { uni := true, flds := [], preds := [p], dv := .some 63 }
      (if (getQ s s.cur.gk p).b ≠ n then .some s.cur.npc else .none) .none
      (if (getQ s s.cur.gk p).b ≠ n then BitVec.ofInt 64 (s.cur.pc.toNat + 4 * x.toInt) else s.cur.npc)) ∧
  (∀ I ∈ [Instr.ujmpr, Instr.uret], ∀ (s : State) (a : Src), UniReady s { uni := true, flds := [⟨true, a.r, a.c, 0, true⟩] } →
    (valS s a.r).toNat % 4 = 0 →
    ∃ t, exec (I a) s = .next (setGrp s.cur.gk { getGrp s s.cur.gk with utgt := .some (valS s a.r) } t) ∧
      UniDone s t { uni := true, flds := [⟨true, a.r, a.c, 0, true⟩] } .none .none (valS s a.r)) ∧
  (∀ (s : State) (d : BitVec 6) (a : Src), UniReady s { uni := true, flds := [⟨true, a.r, a.c, 0, true⟩], dv := .some d } →
    (valS s a.r).toNat % 4 = 0 →
    ∃ t, exec (.ucallr d a) s = .next (setGrp s.cur.gk { getGrp s s.cur.gk with utgt := .some (valS s a.r) } t) ∧
      UniDone s t { uni := true, flds := [⟨true, a.r, a.c, 0, true⟩], dv := .some d } (.some s.cur.npc) .none (valS s a.r)) ∧
  (∀ s : State, UniReady s bareForm → ∃ t, exec .unop s = .next t ∧ UniDone s t bareForm .none .none s.cur.npc)

/-- R145, R360 to R362: taking a trap writes the trap registers and moves the handler set to the handler, as one action; a trap taken while
another set is in system mode is held; without a handler the grid ends with the trap's code, and in system mode with that code and bit 8
(R363). R361: the codes of the traps. Where a clause goes beyond the rule's words it follows the model's own reading or choice: log entry
38. -/
def Obligations.TakingATrap : Prop :=
  ((
  ∀ (s : State) (gk : Nat) (tids : List Nat) (group : Bool) (tr : TrapRec), tids.Nodup → (∀ i ∈ tids, i < 64) →
    (CanTrap s gk tids → TrapTaken s (takeTrap gk tids group tr s) gk tids group tr) ∧
    ((∀ i ∈ tids, (getThr s (threadKey gk i)).sys = false) → (getGrp s gk).hset ≠ [] →
      (getGrp (takeTrap gk tids group tr s) gk).held = (getGrp s gk).held ++ [⟨tids, group, tr⟩] ∧
      (∀ i ∈ tids, (getThr (takeTrap gk tids group tr s) (threadKey gk i)).wait = .handleTrap ∧
        (getThr (takeTrap gk tids group tr s) (threadKey gk i)).pc = (getThr s (threadKey gk i)).pc)) ∧
    ((∀ i ∈ tids, (getThr s (threadKey gk i)).sys = false) → (getGrp s gk).hset = [] → (blockOf s (ctxOf s gk)).handler = 0 →
      (getGrid s (gridOfG gk)).status = .none →
      (getGrid (takeTrap gk tids group tr s) (gridOfG gk)).status = .some (trapCode tr.name)) ∧
    ((∃ i ∈ tids, (getThr s (threadKey gk i)).sys = true) → (getGrid s (gridOfG gk)).status = .none →
      (getGrid (takeTrap gk tids group tr s) (gridOfG gk)).status = .some (256 + trapCode tr.name))
  ) ∧ (
  [TrapName.illegal, .privilege, .accessFault, .misalign, .poisonUse, .emptyRead, .dataUncorr, .uniformSplit, .handleBusy, .handleFault,
    .capFault, .copyFault, .engineFault, .editionGone, .editionLimit, .gangFault, .slotFault, .accExhausted, .compFault, .barrierFault,
    .launchFault, .userTrap].map trapCode = (List.range 22).map (· + 1) ∧
  ∀ n : TrapName, 1 ≤ trapCode n ∧ trapCode n ≤ 22
  ))

/-- R167, R168: `trap` takes USER_TRAP for the group, with its code and the address of the next word; `rett` in system mode takes the handler
set to TRAP_PC in user mode and restores no register; in user mode it takes PRIVILEGE. -/
def Obligations.TrapAndReturn : Prop :=
  (∀ (s : State) (c : BitVec 12), UniReady s bareForm → CanTrap s s.cur.gk (domain s s.cur.gk) →
    ∃ t, exec (.trap c) s = .next t ∧ TrapTaken s t s.cur.gk (domain s s.cur.gk) true
      { name := .userTrap, pc := s.cur.npc, info := c.setWidth 64 }) ∧
  (∀ s : State, UniReady s bareForm → InSystem s → (getGrp s s.cur.gk).hset = domain s s.cur.gk → (getGrp s s.cur.gk).held = [] →
    ∃ t, exec .rett s = .next t ∧
      getGrp t s.cur.gk = { getGrp s s.cur.gk with hset := [] } ∧
      (∀ i ∈ domain s s.cur.gk, getThr t (tkOf s i) =
        { getThr s (tkOf s i) with pc := (getGrp s s.cur.gk).tPc, sys := false, st := .ready, wait := .none }) ∧
      (∀ k, getThr t k ≠ getThr s k → ∃ i ∈ domain s s.cur.gk, k = tkOf s i) ∧
      (∀ g, g ≠ s.cur.gk → getGrp t g = getGrp s g) ∧ t = { s with grp := t.grp, thr := t.thr }) ∧
  (∀ s : State, UniReady s bareForm → CanTrap s s.cur.gk (domain s s.cur.gk) →
    ∃ t, exec .rett s = .next t ∧ TrapTaken s t s.cur.gk (domain s s.cur.gk) true
      { name := .privilege, pc := s.cur.pc, info := s.cur.word.setWidth 64 })

/-- R169 to R171: `rdsys` reads each system register; `rdsys.clr` reads and clears one that has clear access; `wrsys` in system mode writes
one that has write access, reserved bits ignoring what is written; a read of a system register, and every `wrsys`, takes PRIVILEGE in
user mode. -/
def Obligations.SystemRegisters : Prop :=
  ∀ e ∈ sysRows, ∀ (s : State),
    (∀ d : BitVec 6, UniReady s { uni := true, flds := [], dv := .some d } → (e.user = true ∨ InSystem s) →
      (∃ t, exec (.rdsys d e.reg false) s = .next t ∧
        UniDone s t { uni := true, flds := [], dv := .some d } (.some (e.value (getGrp s s.cur.gk))) .none s.cur.npc) ∧
      (e.clears = true → ∃ t, exec (.rdsys d e.reg true) s = .next t ∧
        (d ≠ 0 → getS t s.cur.gk d = ⟨e.value (getGrp s s.cur.gk), .full, false⟩) ∧ e.value (getGrp t s.cur.gk) = 0 ∧
        (∀ f ∈ sysRows, f.reg ≠ e.reg → f.value (getGrp t s.cur.gk) = f.value (getGrp s s.cur.gk)))) ∧
    (∀ a : Src, UniReady s { uni := true, flds := [⟨true, a.r, a.c, 0, true⟩] } → InSystem s → e.writes = true →
      ∃ t, exec (.wrsys e.reg a) s = .next t ∧
        e.value (getGrp t s.cur.gk) = valS s a.r &&& (if e.reg = .fpx then 0x1F else if e.reg = .gang then 0x003FFFFFFFFFFFFF
          else 0xFFFFFFFFFFFFFFFF) ∧
        (∀ f ∈ sysRows, f.reg ≠ e.reg → f.value (getGrp t s.cur.gk) = f.value (getGrp s s.cur.gk)) ∧
        (∀ g, g ≠ s.cur.gk → getGrp t g = getGrp s g) ∧
        t = { s with sreg := t.sreg, grp := t.grp, thr := t.thr, sc := { s.sc with opc := t.sc.opc } }) ∧
    (∀ d : BitVec 6, e.user = false → UniReady s { uni := true, flds := [], dv := .some d } → CanTrap s s.cur.gk (domain s s.cur.gk) →
      ∃ t, exec (.rdsys d e.reg false) s = .next t ∧ TrapTaken s t s.cur.gk (domain s s.cur.gk) true
        { name := .privilege, pc := s.cur.pc, info := s.cur.word.setWidth 64 }) ∧
    (∀ a : Src, UniReady s { uni := true, flds := [⟨true, a.r, a.c, 0, true⟩] } → CanTrap s s.cur.gk (domain s s.cur.gk) →
      ∃ t, exec (.wrsys e.reg a) s = .next t ∧ TrapTaken s t s.cur.gk (domain s s.cur.gk) true
        { name := .privilege, pc := s.cur.pc, info := s.cur.word.setWidth 64 })

/-- R126, R36, R120 to R122: a lane load whose address translates passes: its destination is EMPTY and one load of the width is in flight; of
an editioned page it waits for the page's agent; of a page refused it takes ACCESS_FAULT. (A bundle of one thread: the threads of a
bundle issue one after another.) R131, R130: an edition-named load is as a load of the `.g` space that names the edition of its s
operand; a checked one also empties its predicate. Where a clause goes beyond the rule's words it follows the model's own reading or
choice: log entries 7, 17, 41. -/
def Obligations.LaneLoadsIssue : Prop :=
  ((
  ∀ (s u : State) (i : Nat) (d : BitVec 6) (a : Src) (m : MemMod), Alone s i →
    LaneReady s { uni := false, flds := [strictF false a 0], dv := .some d } →
    (∀ qs, plan s.cur.gk i false (!(getThr s (tkOf s i)).sys) m.space [.r] (valV s i a.r + m.off.signExtend 64) (widthBytes m.width) s = (.ok qs, u) →
      stashBusy u m.space (valV s i a.r + m.off.signExtend 64) (widthBytes m.width) = .none →
      issueWait false i m.space (partsOf qs) true u = .none →
      (¬ editioned qs → ∃ t k, exec (.ld d a m) s = .next t ∧
        LaneIssued u t i { uni := false, flds := [strictF false a 0], dv := .some d } [opHere u i k] ∧
        (readsDrainWord qs (widthBytes m.width) →
          k = .drain false d .none (dieOf (coreOf u u.cur.gk)) (vdevOf u (ctxOf u u.cur.gk)) (getUnit u (dieOf (coreOf u u.cur.gk))).nextPair) ∧
        (¬ readsDrainWord qs (widthBytes m.width) → readsPeer qs →
          k = .rload false d .none (partsOf qs) (valV s i a.r + m.off.signExtend 64) .none .none) ∧
        (¬ readsDrainWord qs (widthBytes m.width) → ¬ readsPeer qs →
          k = .load false (m.space == .s) d .none (partsOf qs) (valV s i a.r + m.off.signExtend 64))) ∧
      (editioned qs → ∃ w, w = tapAgents u.cur.gk qs false
          (emptyDest i { uni := false, flds := [strictF false a 0], dv := .some d } u) ∧
        (getV w (tkOf u i) d).st = .empty ∧ (∀ r, r ≠ d → getV w (tkOf u i) r = getV u (tkOf u i) r) ∧
        exec (.ld d a m) s = .next (laneStalled w i
          (.edl false d .none ⟨if a.c = .last then [(false, a.r)] else [], if a.c = .keep then [(false, a.r)] else []⟩
            (valV s i a.r + m.off.signExtend 64) (widthBytes m.width) (defEdition (recOf u u.cur.gk) 0) u.cur.npc
            (getV u (tkOf u i) d) {})))) ∧
    (∀ c x, plan s.cur.gk i false (!(getThr s (tkOf s i)).sys) m.space [.r] (valV s i a.r + m.off.signExtend 64) (widthBytes m.width) s =
        (.fault c x, u) →
      exec (.ld d a m) s = .next (takeTrap s.cur.gk [i] false (accessFault s.cur.pc x c m.space false) s))
  ) ∧ (
  (∀ (s u : State) (i : Nat) (d : BitVec 6) (a b : Src) (m : LdeMod) (qs : List Piece), Alone s i →
    LaneReady s { uni := false, flds := [strictF false a 0, strictF true b 1], dv := .some d, dp := m.chk } →
    plan s.cur.gk i false (!(getThr s (tkOf s i)).sys) .g [.r] (valV s i a.r + m.off.signExtend 64) (widthBytes m.width) s = (.ok qs, u) →
    issueWait false i .g (partsOf qs) true u = .none →
    (editioned qs → ∃ w F, F = ({ uni := false, flds := [strictF false a 0, strictF true b 1], dv := .some d, dp := m.chk } : Form) ∧
      w = tapAgents u.cur.gk qs false (emptyDest i F u) ∧
      (getV w (tkOf u i) d).st = .empty ∧ (∀ p, m.chk = .some p → p ≠ 0 → (getP w (tkOf u i) p).empty = true) ∧
      exec (.lde d a b m) s = .next (laneStalled w i
        (.edl false d m.chk (usesOf F) (valV s i a.r + m.off.signExtend 64) (widthBytes m.width)
          (if (valS s b.r).getLsbD 63 then defEdition (recOf u u.cur.gk) ((valS s b.r).toNat % 4) else .some ((valS s b.r).toNat % 2 ^ 32))
          u.cur.npc (getV u (tkOf u i) d) (predOf u i F)))) ∧
    (¬ editioned qs → ¬ readsDrainWord qs (widthBytes m.width) → ∃ t, exec (.lde d a b m) s = .next t ∧
      LaneIssued u t i { uni := false, flds := [strictF false a 0, strictF true b 1], dv := .some d, dp := m.chk }
        [opHere u i (if (partsOf qs).any (fun p => isPeer p.pa)
          then .rload false d m.chk (partsOf qs) (valV s i a.r + m.off.signExtend 64) .none .none
          else .load false false d m.chk (partsOf qs) (valV s i a.r + m.off.signExtend 64))])) ∧
  (∀ (s u : State) (d : BitVec 6) (a b : Src) (m : LdeMod) (qs : List Piece),
    UniReady s { uni := true, flds := [strictF true a 0, strictF true b 1], dv := .some d, dp := m.chk } →
    plan s.cur.gk 0 true (userOf s s.cur.gk 0 true) .g [.r] (valS s a.r + m.off.signExtend 64) (widthBytes m.width) (arrive s) = (.ok qs, u) →
    issueWait true 0 .g (partsOf qs) true u = .none →
    ¬ editioned qs → ¬ readsDrainWord qs (widthBytes m.width) → ∃ t, exec (.ldeU d a b m) s = .next t ∧
      UniIssued u t { uni := true, flds := [strictF true a 0, strictF true b 1], dv := .some d, dp := m.chk }
        [opHere u 0xFFFF (if (partsOf qs).any (fun p => isPeer p.pa)
          then .rload true d m.chk (partsOf qs) (valS s a.r + m.off.signExtend 64) .none .none
          else .load true false d m.chk (partsOf qs) (valS s a.r + m.off.signExtend 64))])
  ))

/-- R129: a uniform load issues once for its group. Where a clause goes beyond the rule's words it follows the model's own reading or choice:
log entries 7, 17, 41. -/
def Obligations.UniformLoadsIssue : Prop :=
  ∀ (s u : State) (d : BitVec 6) (a : Src) (m : MemMod) (qs : List Piece),
    UniReady s { uni := true, flds := [strictF true a 0], dv := .some d } →
    plan s.cur.gk 0 true (userOf s s.cur.gk 0 true) m.space [.r] (valS s a.r + m.off.signExtend 64) (widthBytes m.width) (arrive s) =
      (.ok qs, u) →
    stashBusy u m.space (valS s a.r + m.off.signExtend 64) (widthBytes m.width) = .none →
    issueWait true 0 m.space (partsOf qs) true u = .none → ¬ editioned qs → ¬ readsDrainWord qs (widthBytes m.width) →
    ∃ t, exec (.ldU d a m) s = .next t ∧ UniIssued u t { uni := true, flds := [strictF true a 0], dv := .some d }
      [opHere u 0xFFFF (if (partsOf qs).any (fun p => isPeer p.pa)
        then .rload true d .none (partsOf qs) (valS s a.r + m.off.signExtend 64) .none .none
        else .load true (m.space == .s) d .none (partsOf qs) (valS s a.r + m.off.signExtend 64))]

/-- R127, R129: `st` and its uniform form complete: into the stash window, the bytes are there and the thread goes on; into plain local
memory, the core has the bytes, the page's dirty bit is set (R287) and the thread goes on. In general a store to the stash writes its
bytes there and nothing else; a store to memory writes each piece through its core (R231), after what the core's releases cover (R138),
or sends it to the peer, and sets the dirty bits of its pages. Where a clause goes beyond the rule's words it follows the model's own
reading or choice: log entries 7, 9, 41. -/
def Obligations.StoresPerform : Prop :=
  (∀ (s : State) (i : Nat) (a b : Src) (m : MemMod) (va : Word), Alone s i → va = valV s i a.r + m.off.signExtend 64 →
    LaneReady s { uni := false, flds := [strictF false a 0, strictF false b 1] } → duePerforms s (coreOf s s.cur.gk) = true →
    (m.space = .s → va.toNat + widthBytes m.width ≤ windowOf s (teamOfG s.cur.gk) → stashBusy s .s va (widthBytes m.width) = .none →
      orderWait s s.cur.gk i true [⟨va.toNat, widthBytes m.width, .rc⟩] = .none →
      ∃ t, exec (.st a b m) s = .next t ∧ WentOn s t i ∧
        stashRead t (teamOfG s.cur.gk) va.toNat (widthBytes m.width) = bytesOf (widthBytes m.width) (valV s i b.r).toNat) ∧
    (∀ e, m.space = .g → PlainPage s i false [.w] va (widthBytes m.width) e →
      orderWait s s.cur.gk i false [(plainPiece va (widthBytes m.width) e).part] = .none →
      ∃ t c, exec (.st a b m) s = .next t ∧ WentOn s t i ∧ 
        c = { performDue (coreOf s s.cur.gk) s with vreg := c.vreg, sc := { s.sc with opc := c.sc.opc } } ∧
        t.mm = (noteStore s.cur.gk (plainPiece va (widthBytes m.width) e).part.pa
          (writePart (ctxOf s s.cur.gk) (coreOf s s.cur.gk) (plainPiece va (widthBytes m.width) e).part
            (bytesOf (widthBytes m.width) (valV s i b.r).toNat) (setDirty [plainPiece va (widthBytes m.width) e] c))).mm)) ∧
  (∀ (s : State) (a b : Src) (m : MemMod) (va : Word), va = valS s a.r + m.off.signExtend 64 →
    UniReady s { uni := true, flds := [strictF true a 0, strictF true b 1] } → duePerforms s (coreOf s s.cur.gk) = true →
    (m.space = .s → va.toNat + widthBytes m.width ≤ windowOf s (teamOfG s.cur.gk) → stashBusy s .s va (widthBytes m.width) = .none →
      orderWait s s.cur.gk 0xFFFF true [⟨va.toNat, widthBytes m.width, .rc⟩] = .none →
      ∃ t, exec (.stU a b m) s = .next t ∧ (∀ i ∈ domain s s.cur.gk, WentOn s t i) ∧
        stashRead t (teamOfG s.cur.gk) va.toNat (widthBytes m.width) = bytesOf (widthBytes m.width) (valS s b.r).toNat) ∧
    (∀ e, m.space = .g → PlainPage (arrive s) 0 true [.w] va (widthBytes m.width) e →
      orderWait s s.cur.gk 0xFFFF false [(plainPiece va (widthBytes m.width) e).part] = .none →
      ∃ t c, exec (.stU a b m) s = .next t ∧ (∀ i ∈ domain s s.cur.gk, WentOn s t i) ∧
        c = { performDue (coreOf s s.cur.gk) s with sreg := c.sreg, thr := c.thr, sc := { s.sc with opc := c.sc.opc } } ∧
        t.mm = (noteStore s.cur.gk (plainPiece va (widthBytes m.width) e).part.pa
          (writePart (ctxOf s s.cur.gk) (coreOf s s.cur.gk) (plainPiece va (widthBytes m.width) e).part
            (bytesOf (widthBytes m.width) (valS s b.r).toNat) (setDirty [plainPiece va (widthBytes m.width) e] c))).mm)) ∧
  (∀ (s u : State) (i : Nat) (a b : Src) (m : MemMod) (va : Word) (qs : List Piece), Alone s i →
    LaneReady s { uni := false, flds := [strictF false a 0, strictF false b 1] } → va = valV s i a.r + m.off.signExtend 64 →
    ¬ (m.space = .g ∧ copyAperture ≤ va.toNat ∧ va.toNat < copyAperture + 512 ∧ m.width = .d ∧ va.toNat % 8 = 0) →
    plan s.cur.gk i false (!(getThr s (tkOf s i)).sys) m.space [.w] va (widthBytes m.width) s = (.ok qs, u) →
    stashBusy u m.space va (widthBytes m.width) = .none → issueWait false i m.space (partsOf qs) false u = .none →
    duePerforms u (coreOf u u.cur.gk) = true →
    (m.space ≠ .s → unreachable (performDue (coreOf u u.cur.gk) u) u.cur.gk (partsOf qs) = false ∧ ¬ editioned qs) →
    ∃ t, LaneIssued (performDue (coreOf u u.cur.gk) u) t i { uni := false, flds := [strictF false a 0, strictF false b 1] } [] ∧
      (m.space = .s → exec (.st a b m) s = .next (stashWrite (teamOfG u.cur.gk) va.toNat
        (bytesOf (widthBytes m.width) (valV s i b.r).toNat) t)) ∧
      (m.space ≠ .s → ∃ c, c = { performDue (coreOf u u.cur.gk) u with vreg := t.vreg, sc := { u.sc with opc := t.sc.opc } } ∧
        exec (.st a b m) s = .next (goOn u.cur.gk u.cur.npc (storeParts u.cur.gk i u.cur.pc qs
          (bytesOf (widthBytes m.width) (valV s i b.r).toNat) (setDirty qs c)) i))) ∧
  (∀ (s u : State) (a b : Src) (m : MemMod) (va : Word) (qs : List Piece),
    UniReady s { uni := true, flds := [strictF true a 0, strictF true b 1] } → va = valS s a.r + m.off.signExtend 64 →
    ¬ (m.space = .g ∧ copyAperture ≤ va.toNat ∧ va.toNat < copyAperture + 512 ∧ m.width = .d ∧ va.toNat % 8 = 0) →
    plan s.cur.gk 0 true (userOf s s.cur.gk 0 true) m.space [.w] va (widthBytes m.width) (arrive s) = (.ok qs, u) →
    stashBusy u m.space va (widthBytes m.width) = .none → issueWait true 0 m.space (partsOf qs) false u = .none →
    duePerforms u (coreOf u u.cur.gk) = true →
    (m.space ≠ .s → unreachable (performDue (coreOf u u.cur.gk) u) u.cur.gk (partsOf qs) = false ∧ ¬ editioned qs) →
    ∃ c, c = { performDue (coreOf u u.cur.gk) u with sreg := c.sreg, sc := { u.sc with opc := c.sc.opc } } ∧
      exec (.stU a b m) s = .next (passGroup u.cur.gk u.cur.npc
        (if m.space = .s then stashWrite (teamOfG u.cur.gk) va.toNat (bytesOf (widthBytes m.width) (valS s b.r).toNat) c
          else storeParts u.cur.gk 0xFFFF u.cur.pc qs (bytesOf (widthBytes m.width) (valS s b.r).toNat) (setDirty qs c))))

/-- R133 to R135: an atomic completes its issue: in the stash window, or in plain local memory, aligned, one atomic is in flight with its
destination EMPTY, and the thread goes on. In general so does one whose address translates for reading and writing; misaligned it takes
MISALIGN; on a peer at another scope than `.sys` it takes ACCESS_FAULT with cause 9. An order with a release side first writes back what
its scope needs (R135, R234), once nothing that the thread has issued is left to perform. R128: a prefetch never faults and always
passes, and no register but a dead source changes; at a plain page whose translation the core holds it brings the line into the core's
L1, or asks the directory for it with the hint of the home; where no translation of the core covers the address, or in another space, it
does nothing else. Where a clause goes beyond the rule's words it follows the model's own reading or choice: log entries 7, 9, 41. -/
def Obligations.AtomicsAndPrefetchesIssue : Prop :=
  ((
  (∀ e ∈ atomics, ∀ (s : State) (i : Nat) (d : BitVec 6) (a b : Src) (m : AtomMod) (va : Word), Alone s i →
    va = valV s i a.r + m.off.signExtend 64 → va.toNat % atomBytes m.ty = 0 → mayRelease s i m →
    LaneReady s { uni := false, flds := [strictF false a 0, strictF false b 1], dv := .some d } →
    (m.space = .s → va.toNat + atomBytes m.ty ≤ windowOf s (teamOfG s.cur.gk) → windowOf s (teamOfG s.cur.gk) ≤ 786432 → stashBusy s .s va (atomBytes m.ty) = .none →
      orderWait s s.cur.gk i true [⟨va.toNat, atomBytes m.ty, .rc⟩] = .none →
      ∃ t, exec (e.1 d a b m) s = .next t ∧
        LaneIssued (releasedFor s m) t i { uni := false, flds := [strictF false a 0, strictF false b 1], dv := .some d }
          [opHere s i (.atomic d e.2 m ⟨va.toNat, atomBytes m.ty, .rc⟩ va (valV s i b.r) 0)]) ∧
    (∀ x, m.space = .g → PlainPage s i false [.r, .w] va (atomBytes m.ty) x →
      orderWait s s.cur.gk i false [(plainPiece va (atomBytes m.ty) x).part] = .none →
      trackersOk s s.cur.gk (partLines [(plainPiece va (atomBytes m.ty) x).part]) = true →
      ∃ t, exec (e.1 d a b m) s = .next t ∧
        LaneIssued (releasedFor s m) t i
          { uni := false, flds := [strictF false a 0, strictF false b 1], dv := .some d }
          [opHere s i (.atomic d e.2 m (plainPiece va (atomBytes m.ty) x).part va (valV s i b.r) 0)])) ∧
  (∀ (s : State) (i : Nat) (d : BitVec 6) (a b c : Src) (m : AtomMod) (va : Word), Alone s i →
    va = valV s i a.r + m.off.signExtend 64 → va.toNat % atomBytes m.ty = 0 → mayRelease s i m →
    LaneReady s { uni := false, flds := [strictF false a 0, strictF false b 1, strictF false c 2], dv := .some d } →
    (m.space = .s → va.toNat + atomBytes m.ty ≤ windowOf s (teamOfG s.cur.gk) → windowOf s (teamOfG s.cur.gk) ≤ 786432 → stashBusy s .s va (atomBytes m.ty) = .none →
      orderWait s s.cur.gk i true [⟨va.toNat, atomBytes m.ty, .rc⟩] = .none →
      ∃ t, exec (.atomCas d a b c m) s = .next t ∧
        LaneIssued (releasedFor s m) t i { uni := false, flds := [strictF false a 0, strictF false b 1, strictF false c 2], dv := .some d }
          [opHere s i (.atomic d 7 m ⟨va.toNat, atomBytes m.ty, .rc⟩ va (valV s i b.r) (valV s i c.r))]) ∧
    (∀ x, m.space = .g → PlainPage s i false [.r, .w] va (atomBytes m.ty) x →
      orderWait s s.cur.gk i false [(plainPiece va (atomBytes m.ty) x).part] = .none →
      trackersOk s s.cur.gk (partLines [(plainPiece va (atomBytes m.ty) x).part]) = true →
      ∃ t, exec (.atomCas d a b c m) s = .next t ∧
        LaneIssued (releasedFor s m) t i { uni := false, flds := [strictF false a 0, strictF false b 1, strictF false c 2], dv := .some d }
          [opHere s i (.atomic d 7 m (plainPiece va (atomBytes m.ty) x).part va (valV s i b.r) (valV s i c.r))])) ∧
  (∀ e ∈ atomics, ∀ (s u : State) (i : Nat) (d : BitVec 6) (a b : Src) (m : AtomMod) (p : Piece), Alone s i →
    LaneReady s { uni := false, flds := [strictF false a 0, strictF false b 1], dv := .some d } →
    plan s.cur.gk i false (!(getThr s (tkOf s i)).sys) m.space [.r, .w] (valV s i a.r + m.off.signExtend 64) (atomBytes m.ty) s =
      (.ok [p], u) →
    (isPeer p.part.pa = true → m.scope ≠ .sys →
      exec (e.1 d a b m) s = .next (takeTrap s.cur.gk [i] false (accessFault s.cur.pc (valV s i a.r + m.off.signExtend 64) 9 m.space true) s)) ∧
    (¬ (isPeer p.part.pa = true ∧ m.scope ≠ .sys) → (valV s i a.r + m.off.signExtend 64).toNat % atomBytes m.ty ≠ 0 →
      exec (e.1 d a b m) s = .next (takeTrap s.cur.gk [i] false
        { name := .misalign, pc := s.cur.pc, addr := valV s i a.r + m.off.signExtend 64, space := m.space, wr := true } s)) ∧
    (¬ (isPeer p.part.pa = true ∧ m.scope ≠ .sys) → (valV s i a.r + m.off.signExtend 64).toNat % atomBytes m.ty = 0 →
      stashBusy u m.space (valV s i a.r + m.off.signExtend 64) (atomBytes m.ty) = .none →
      issueWait false i m.space [p.part] true u = .none → mayRelease u i m → p.region = 0 →
      (isPeer p.part.pa = true → duePerforms (releasedFor u m) (coreOf u u.cur.gk) = true) →
      ∃ t, exec (e.1 d a b m) s = .next t ∧
        LaneIssued (sentFrom (isPeer p.part.pa) (releasedFor u m)) t i { uni := false, flds := [strictF false a 0, strictF false b 1], dv := .some d }
          [opHere u i (if isPeer p.part.pa
            then .rload false d .none [p.part] (valV s i a.r + m.off.signExtend 64) (.some (e.2, m, valV s i b.r, 0)) .none
            else .atomic d e.2 m p.part (valV s i a.r + m.off.signExtend 64) (valV s i b.r) 0)])) ∧
  (∀ (s u : State) (i : Nat) (d : BitVec 6) (a b c : Src) (m : AtomMod) (p : Piece), Alone s i →
    LaneReady s { uni := false, flds := [strictF false a 0, strictF false b 1, strictF false c 2], dv := .some d } →
    plan s.cur.gk i false (!(getThr s (tkOf s i)).sys) m.space [.r, .w] (valV s i a.r + m.off.signExtend 64) (atomBytes m.ty) s =
      (.ok [p], u) →
    ¬ (isPeer p.part.pa = true ∧ m.scope ≠ .sys) → (valV s i a.r + m.off.signExtend 64).toNat % atomBytes m.ty = 0 →
    stashBusy u m.space (valV s i a.r + m.off.signExtend 64) (atomBytes m.ty) = .none →
    issueWait false i m.space [p.part] true u = .none → mayRelease u i m → p.region = 0 →
      (isPeer p.part.pa = true → duePerforms (releasedFor u m) (coreOf u u.cur.gk) = true) →
    ∃ t, exec (.atomCas d a b c m) s = .next t ∧
      LaneIssued (sentFrom (isPeer p.part.pa) (releasedFor u m)) t i
        { uni := false, flds := [strictF false a 0, strictF false b 1, strictF false c 2], dv := .some d }
        [opHere u i (if isPeer p.part.pa
          then .rload false d .none [p.part] (valV s i a.r + m.off.signExtend 64) (.some (7, m, valV s i b.r, valV s i c.r)) .none
          else .atomic d 7 m p.part (valV s i a.r + m.off.signExtend 64) (valV s i b.r) (valV s i c.r))])
  ) ∧ (
  (∀ (s : State) (i : Nat) (a : Src) (m : PfMod), Alone s i → LaneReady s { uni := false, flds := [strictF false a 0] } →
    ∃ t, exec (.pf a m) s = .next t ∧ WentOn s t i ∧ (∀ k, k ≠ tkOf s i → getThr t k = getThr s k) ∧ PrefetchDone s t) ∧
  (∀ (s : State) (a : Src) (m : PfMod), UniReady s { uni := true, flds := [strictF true a 0] } →
    ∃ t, exec (.pfU a m) s = .next t ∧ (∀ i ∈ domain s s.cur.gk, WentOn s t i) ∧
      (∀ k, (∀ i ∈ domain s s.cur.gk, k ≠ tkOf s i) → getThr t k = getThr s k) ∧ PrefetchDone s t) ∧
  (∀ (s : State) (i : Nat) (a : Src) (m : PfMod) (va : Word), Alone s i → LaneReady s { uni := false, flds := [strictF false a 0] } →
    va = valV s i a.r + m.off.signExtend 64 →
    ((m.space ≠ .g ∨ canonical va = false ∨
      (∀ e ∈ s.mm.xlat, e.core = coreOf s s.cur.gk → e.asid = ctxOf s s.cur.gk → e.page ≠ va.toNat % 2 ^ 57 / 65536)) →
      ∃ t, exec (.pf a m) s = .next t ∧ LaneIssued s t i { uni := false, flds := [strictF false a 0] } []) ∧
    (∀ e pa, m.space = .g → PlainPage s i false [.r] va 1 e → pa = e.leaf.pa + va.toNat % 65536 →
      trackersOk s s.cur.gk [pa / 128] = true → reachable s (coreOf s s.cur.gk) pa = true →
      ∃ t c, exec (.pf a m) s = .next t ∧ c = { s with vreg := c.vreg, sc := { s.sc with opc := c.sc.opc } } ∧
        t = goOn s.cur.gk s.cur.npc
          (if m.hint = .hs then dirRead (ctxOf s s.cur.gk) (dieOf (coreOf s s.cur.gk)) (pa / 128)
            (tapLine (ctxOf s s.cur.gk) (coreOf s s.cur.gk) (pa / 128) false false c)
          else fillLine (ctxOf s s.cur.gk) (coreOf s s.cur.gk) (pa / 128) false false c) i)) ∧
  (∀ (s : State) (a : Src) (m : PfMod) (va : Word), UniReady s { uni := true, flds := [strictF true a 0] } →
    va = valS s a.r + m.off.signExtend 64 →
    ((m.space ≠ .g ∨ canonical va = false ∨
      (∀ e ∈ s.mm.xlat, e.core = coreOf s s.cur.gk → e.asid = ctxOf s s.cur.gk → e.page ≠ va.toNat % 2 ^ 57 / 65536)) →
      ∃ t, exec (.pfU a m) s = .next t ∧ UniIssued (arrive s) t { uni := true, flds := [strictF true a 0] } []) ∧
    (∀ e pa, m.space = .g → PlainPage (arrive s) 0 true [.r] va 1 e → pa = e.leaf.pa + va.toNat % 65536 →
      trackersOk s s.cur.gk [pa / 128] = true → reachable s (coreOf s s.cur.gk) pa = true →
      ∃ t c, exec (.pfU a m) s = .next t ∧ c = { arrive s with sreg := c.sreg, sc := { s.sc with opc := c.sc.opc } } ∧
        t = passGroup s.cur.gk s.cur.npc
          (if m.hint = .hs then dirRead (ctxOf s s.cur.gk) (dieOf (coreOf s s.cur.gk)) (pa / 128)
            (tapLine (ctxOf s s.cur.gk) (coreOf s s.cur.gk) (pa / 128) false false c)
          else fillLine (ctxOf s s.cur.gk) (coreOf s s.cur.gk) (pa / 128) false false c)))
  ))

/-- R138, R152, R153, R143, R157, R139: a fence passes once nothing that it orders is left to perform, with its actions on the core's caches;
`tbar` and `bar` release and wait for the others; `waith` passes as an acquire when its condition holds and the handle carries no error;
`rdv` frees a set that has ended and passes; `claim` of no bytes writes 0 at once, of pages that may be written it starts the claim.
Where a clause goes beyond the rule's words it follows the model's own reading or choice: log entries 9, 10. -/
def Obligations.BarriersAndWaits : Prop :=
  (∀ (s : State), UniReady s bareForm → ∀ k c,
    (c = .thread → ∃ t, exec (.fence k c) s = .next t ∧ UniDone s t bareForm .none .none s.cur.npc) ∧
    (c ≠ .thread →
      (k ≠ .acq → releaseWait (arrive s) s.cur.gk .none (c == .sys) (k == .sc) (wideScope s s.cur.gk c) = .none ∧
        (dieOrWider c → oldRequest (arrive s) (dieOf (coreOf s s.cur.gk)) = .none)) →
      (k = .acq → acquireWait (arrive s) s.cur.gk = .none) →
      exec (.fence k c) s = .next (passGroup s.cur.gk s.cur.npc (fenced k c (arrive s))))) ∧
  (∀ (s : State), UniReady s bareForm →
    releaseWait (arrive s) s.cur.gk .none false false (getTeam s (teamOfG s.cur.gk)).pair = .none →
    exec .tbar s = .next (settleTbar (teamOfG s.cur.gk) (blockAll .tbar (setGrp s.cur.gk { getGrp s s.cur.gk with tbar := .some s.cur.npc }
      (releaseCore (coreOf s s.cur.gk) (getTeam s (teamOfG s.cur.gk)).pair false (arrive s))))) ∧
    (s.cur.gk ∈ groupsOf s (teamOfG s.cur.gk) → (∀ g ∈ groupsOf s (teamOfG s.cur.gk), g ≠ s.cur.gk → atTbar s g = true) →
      ∃ t, exec .tbar s = .next t ∧ ∀ i ∈ domain s s.cur.gk, WentOn s t i)) ∧
  (∀ (s : State), UniReady s bareForm → releaseWait (arrive s) s.cur.gk .none true true = .none →
    (∀ c, (getGrid s (gridOfG s.cur.gk)).barCtx = .some c →
      exec .bar s = .next (blockAll .bar (setGrp s.cur.gk { getGrp s s.cur.gk with bar := .some s.cur.npc }
        (releaseCore (coreOf s s.cur.gk) true true (arrive s))))) ∧
    (∀ c, (getGrid s (gridOfG s.cur.gk)).barCtx = .some c → ∃ t, exec .bar s = .next t ∧ (getGrp t s.cur.gk).bar = .some s.cur.npc ∧
      ∀ i ∈ domain s s.cur.gk, getThr t (tkOf s i) = { getThr s (tkOf s i) with st := .blocked, wait := .bar })) ∧
  (∀ (s : State) (c g gk : Nat) (npc : Word), (getGrp s gk).bar = .some npc → (teamsOf s g).flatMap (groupsOf s) = [gk] →
    (∀ k < 960, tget false (c * 960 + k) s.rp.part = true → coreReady s c g k = true) →
    (getGrp (flipRoot c g s) gk).bar = .none ∧ ∀ i ∈ domain s gk, getThr (flipRoot c g s) (threadKey gk i) =
      { getThr s (threadKey gk i) with pc := npc, st := .ready, wait := .none }) ∧
  (∀ (s : State), UniReady s bareForm → (getGrid s (gridOfG s.cur.gk)).barCtx = .none →
    exec .bar s = .next (trapGroup { name := .barrierFault, pc := s.cur.pc } (arrive s))) ∧
  (∀ (s : State) (c : HCond) (n : BitVec 7) (h : Handle), UniReady s bareForm →
    getHandle s (teamOfG s.cur.gk) n.toNat = .some h → isEngine h.st = false →
    (h.err = false → condMet c h.st = true → exec (.waith c n) s = .next (passGroup s.cur.gk s.cur.npc
      (acquireCore (coreOf s s.cur.gk) true true (arrive s)))) ∧
    (h.err = true → exec (.waith c n) s = .next (trapGroup { name := .copyFault, pc := s.cur.pc, info := BitVec.ofNat 64 n.toNat }
      (setHandle (teamOfG s.cur.gk) n.toNat { h with err := false } (arrive s))))) ∧
  (∀ (s : State) (a : Src) (f : ForkSet), UniReady s (formU1 a) → (valS s a.r).toNat < 8 →
    tget .none (valS s a.r).toNat (getTeam s (teamOfG s.cur.gk)).sets = .some f → f.live = [] →
    (∀ h ∈ f.hs, handleErr s (teamOfG s.cur.gk) h = false) → f.prog = .none ∨ f.prog = .some .ok →
    ∃ t, exec (.rdv a) s = .next t ∧ UniDone (acquireCore (coreOf (freeSet (teamOfG s.cur.gk) (valS s a.r).toNat (arrive s)) s.cur.gk)
        true true (freeSet (teamOfG s.cur.gk) (valS s a.r).toNat (arrive s))) t (formU1 a) .none .none s.cur.npc) ∧
  (∀ (s : State) (d : BitVec 6) (a b : Src), UniReady s (formU2d d a b) →
    (valS s b.r = 0 → ∃ t, exec (.claim d a b) s = .next t ∧ UniDone s t (formU2d d a b) (.some 0) .none s.cur.npc) ∧
    (∀ u, valS s b.r ≠ 0 → canonical (valS s a.r) = true → (valS s a.r).toNat % 2 ^ 57 + (valS s b.r).toNat ≤ 2 ^ 57 →
      claimScan s.cur.gk (userOf s s.cur.gk 0 true)
        (((valS s a.r).toNat % 2 ^ 57 + (valS s b.r).toNat - 1) / 65536 + 1 - (valS s a.r).toNat % 2 ^ 57 / 65536)
        ((valS s a.r).toNat % 2 ^ 57 / 65536) (arrive s) = (.none, u) →
      releaseWait u s.cur.gk .none true true = .none →
      ∃ t, exec (.claim d a b) s = .next t ∧ UniIssued (releaseCore (coreOf u s.cur.gk) true true u) t (formU2d d a b)
        [opHere (releaseCore (coreOf u s.cur.gk) true true u) 0xFFFF (.claim d ((valS s a.r).toNat % 2 ^ 57 / 65536)
          (((valS s a.r).toNat % 2 ^ 57 + (valS s b.r).toNat - 1) / 65536 + 1 - (valS s a.r).toNat % 2 ^ 57 / 65536) 0 .none)]))

/-- R136, R137: a lane receive through a queue entry leaves every participant's destination EMPTY and one receive of the group in flight; a
lane send through an entry with room in the queue and in the allowance pushes the elements in thread order, zeros for the threads that
take no part, and the group passes. R158 to R160, R265: `send.v` sends a register value, `send` the bytes of a stash block, through an
entry that reaches a destination, within the allowance, after a release: the destination accepts the message and the group passes; a
receive through an entry leaves its destination EMPTY and one receive in flight. Where a clause goes beyond the rule's words it follows
the model's own reading or choice: log entry 33. -/
def Obligations.QueueAndMessageTransfers : Prop :=
  ((
  (∀ e ∈ laneReceives, ∀ (s : State) (d n : BitVec 6) (q : Nat), CrossReady s { uni := false, flds := [], dv := .some d } →
    queueCap s s.cur.gk n.toNat false = .some q → trackersOk (arrive s) s.cur.gk [2 ^ 60] = true →
    exec (e.1 d n) s = .next (passGroup s.cur.gk s.cur.npc (addOp s.cur.gk 0xFFFF s.cur.pc
      (.qrecv d q ((widthOf s s.cur.gk * e.2 + 127) / 128) e.2 (parts s))
      ((parts s).foldl (fun u i => commitLong i { uni := false, flds := [], dv := .some d } u) (arrive s))))) ∧
  (∀ e ∈ laneSends, ∀ (s : State) (n : BitVec 6) (v : Src) (q : Nat), CrossReady s { uni := false, flds := [strictF false v 1] } →
    queueCap s s.cur.gk n.toNat true = .some q →
    releaseWait (arrive s) s.cur.gk .none false false (getTeam s (teamOfG s.cur.gk)).pair = .none →
    ∀ u, u = releaseCore (coreOf s s.cur.gk) (getTeam s (teamOfG s.cur.gk)).pair false (arrive s) →
    (sendEnts (widthOf s s.cur.gk) e.2 (sentBy s v)).length ≤ queueRoom u (teamOfG s.cur.gk) q →
    (sendEnts (widthOf s s.cur.gk) e.2 (sentBy s v)).length ≤ allowOf u (teamOfG s.cur.gk) n.toNat →
    exec (e.1 n v) s = .next (passGroup s.cur.gk s.cur.npc
      (charge (teamOfG s.cur.gk) n.toNat (sendEnts (widthOf s s.cur.gk) e.2 (sentBy s v)).length
        (pushEnts (teamOfG s.cur.gk) q ((sendEnts (widthOf s s.cur.gk) e.2 (sentBy s v)).map fun x => (x, false))
          ((parts s).foldl (fun w i => useAll s.cur.gk i
            ⟨if v.c = .last then [(false, v.r)] else [], if v.c = .keep then [(false, v.r)] else []⟩ w) u)))))
  ) ∧ (
  (∀ (s w : State) (n : BitVec 6) (a : Src) (c : Cap) (d : Dest), UniReady s (formU1 a) → capOf s s.cur.gk n.toNat = .some c →
    destOf s s.cur.gk c true 0 = .some d → 1 ≤ allowOf s (teamOfG s.cur.gk) n.toNat →
    releaseWait (arrive s) s.cur.gk .none (destSys d) false (destWide s s.cur.gk d) = .none →
    accept s.cur.gk d ⟨bytesOf 8 (valS s a.r).toNat, []⟩ false (charge (teamOfG s.cur.gk) n.toNat 1
      (releaseCore (coreOf s s.cur.gk) (destWide s s.cur.gk d) false (arrive s))) = .some w →
    exec (.sendU n a .none) s = .next (passGroup w.cur.gk w.cur.npc (commitStore 0 (formU1 a) w))) ∧
  (∀ (s w : State) (n : BitVec 6) (a b : Src) (c : Cap) (d : Dest), UniReady s (formU2 a b) →
    blockCheck (arrive s) (valS s a.r) (valS s b.r) = .none → capOf s s.cur.gk n.toNat = .some c →
    destOf s s.cur.gk c false (valS s b.r).toNat = .some d → (valS s b.r).toNat / 128 ≤ allowOf s (teamOfG s.cur.gk) n.toNat →
    releaseWait (arrive s) s.cur.gk .none (destSys d) false (destWide s s.cur.gk d) = .none →
    ∀ r, r = releaseCore (coreOf s s.cur.gk) (destWide s s.cur.gk d) false (arrive s) →
    accept s.cur.gk d ⟨stashRead r (teamOfG s.cur.gk) (valS s a.r).toNat (valS s b.r).toNat,
        blockMarks r (teamOfG s.cur.gk) (valS s a.r).toNat (valS s b.r).toNat⟩ false
      (charge (teamOfG s.cur.gk) n.toNat ((valS s b.r).toNat / 128) r) = .some w →
    exec (.sendU n a (.some b)) s = .next (passGroup w.cur.gk w.cur.npc (commitStore 0 (formU2 a b) w))) ∧
  (∀ (s : State) (d n : BitVec 6) (c : Cap), UniReady s { uni := true, flds := [], dv := .some d } → recvCap s s.cur.gk n.toNat = .some c →
    trackersOk (arrive s) s.cur.gk [2 ^ 60] = true →
    ∃ t, exec (.recvU d n .none) s = .next t ∧ UniIssued (arrive s) t { uni := true, flds := [], dv := .some d }
      [opHere s 0xFFFF (.crecv d n.toNat .none)]) ∧
  (∀ (s : State) (d n : BitVec 6) (a b : Src) (c : Cap), UniReady s (formU2d d a b) → blockCheck (arrive s) (valS s a.r) (valS s b.r) = .none →
    recvCap s s.cur.gk n.toNat = .some c → trackersOk (arrive s) s.cur.gk [2 ^ 60] = true →
    meetWait (arrive s) s.cur.gk 0xFFFF true [⟨(valS s a.r).toNat, (valS s b.r).toNat, .rc⟩] = .none →
    ∃ t, exec (.recvU d n (.some (a, b))) s = .next t ∧ UniIssued (arrive s) t (formU2d d a b)
      [opHere s 0xFFFF (.crecv d n.toNat (.some ((valS s a.r).toNat, (valS s b.r).toNat)))])
  ))

/-- R161, R163, R156, R164, R165: a launch whose record can be read leaves its destination and its predicate EMPTY and the record's read in
flight; `waitl` of a token that has ended takes its status; a fork whose block checks and whose handles are ready starts its copies and
its program and writes the set's number; `bpub` waits for the publish at its region's agent; `bfloor` leaves its destination EMPTY and
the query in flight. Where a clause goes beyond the rule's words it follows the model's own reading or choice: log entries 9, 22, 33. -/
def Obligations.LaunchForkAndEditionIssue : Prop :=
  (∀ (s u w : State) (q : BitVec 3) (d : BitVec 6) (a b : Src) (k : BitVec 2) (qs : List Piece) (p via : Part),
    UniReady s { formU2d d a b with dp := .some q } →
    plan s.cur.gk 0 true (userOf s s.cur.gk 0 true) .g [.r] (valS s a.r) 256 (arrive s) = (.ok qs, u) → (valS s a.r).toNat % 256 = 0 →
    engPart (askerOf u s.cur.gk) s.cur.gk .g (valS s a.r) 256 u = (.ok p via, w) → w.cur = s.cur →
    releaseWait w s.cur.gk .none false true = .none →
    ∃ t, exec (.launch q d a b k) s = .next t ∧ UniIssued (releaseCore (coreOf w s.cur.gk) true true w) t { formU2d d a b with dp := .some q }
      [opHere (releaseCore (coreOf w s.cur.gk) true true w) 0xFFFF (.lrec q d p.pa (valS s a.r) (valS s b.r) k.toNat)]) ∧
  (∀ (s : State) (d : BitVec 6) (a : Src) (tok : Word) (k : Tok) (st : Nat), findTok (getGrid s (gridOfG s.cur.gk)) tok.toNat = .some k →
    (UniReady s (formU1d d a) ∧ (getGrp s s.cur.gk).wl = .none ∧ tok = valS s a.r) ∨ (UniReady s bareForm ∧ (getGrp s s.cur.gk).wl = .some tok) →
    k.status = .some st → ∃ t, exec (.waitl d a) s = .next t ∧
      UniDone (acquireCore (coreOf s s.cur.gk) true true (setGrp s.cur.gk { getGrp s s.cur.gk with wl := .none } (arrive s))) t (formU1d d a)
        (.some (BitVec.ofNat 64 st)) .none s.cur.npc) ∧
  (∀ (s : State) (d : BitVec 6) (a : Src) (k : Tok), UniReady s (formU1d d a) → (getGrp s s.cur.gk).wl = .none →
    findTok (getGrid s (gridOfG s.cur.gk)) (valS s a.r).toNat = .some k → k.status = .none →
    exec (.waitl d a) s = .next (blockAll (.waitl (valS s a.r).toNat) (markEmpty s.cur.gk 0 true d
      (setGrp s.cur.gk { getGrp s s.cur.gk with wl := .some (valS s a.r) } (arrive s))))) ∧
  (∀ (s u : State) (d : BitVec 6) (a : Src) (cs : List Copy) (blk : List Byte), UniReady s (formU1d d a) →
    (valS s a.r).toNat + 64 ≤ windowOf s (teamOfG s.cur.gk) → (valS s a.r).toNat % 64 = 0 → stashBusy (arrive s) .s (valS s a.r) 64 = .none →
    stashBad s (teamOfG s.cur.gk) (valS s a.r).toNat 64 = false → blk = stashRead s (teamOfG s.cur.gk) (valS s a.r).toNat 64 →
    forkChecks s.cur.gk (denyOf s s.cur.gk 0 true) blk (List.range 6) [] (arrive s) = (.ok cs, u) → u.cur = s.cur → releaseWait u s.cur.gk .none false true = .none →
    ∀ w, w = releaseCore (coreOf u s.cur.gk) true true u → w.cur = s.cur → forkReady w s.cur.gk (BitVec.ofNat 64 (fieldOf blk 0 8)) cs = true →
    ∀ r, r = startFork s.cur.gk s.cur.pc (BitVec.ofNat 64 (fieldOf blk 0 8)) (BitVec.ofNat 64 (fieldOf blk 8 8)) cs
        (commitStore 0 (formU1d d a) w) → r.2.cur = s.cur →
    exec (.fork d a) s = .next (passGroup s.cur.gk s.cur.npc
      (writeDst s.cur.gk 0 true d (BitVec.ofNat 64 r.1) false r.2))) ∧
  (∀ (s u : State) (d : BitVec 6) (a : Src) (r : Nat), UniReady s (formU1d d a) → (regionOf (valS s a.r) (arrive s)).1 = .ok r →
    u = (regionOf (valS s a.r) (arrive s)).2 → releaseWait u s.cur.gk .none false true = .none →
    ∀ w, w = releaseCore (coreOf u s.cur.gk) true true u → w.mm.nextId = u.mm.nextId →
    exec (.bpub d a) s = .next (holdAll (.agent u.mm.nextId) (addOp s.cur.gk 0xFFFF s.cur.pc
      (.bpub d (valS s a.r) r s.cur.npc ⟨if a.c = .last then [(true, a.r)] else [], if a.c = .keep then [(true, a.r)] else []⟩
        (getS w s.cur.gk d))
      (markEmpty s.cur.gk 0 true d w))) ∧
    (aliveG s s.cur.gk = true → (∀ o ∈ s.mm.ops, o.id < s.mm.nextId) → eOpen w r ≠ 0xFFFFFFFF →
      ∃ t v, exec (.bpub d a) s = .next t ∧ exec (.bpubAtBindery u.mm.nextId) t = .next v ∧
        (d ≠ 0 → getS v s.cur.gk d = ⟨BitVec.ofNat 64 (eOpen w r), .full, false⟩) ∧ ∀ i ∈ domain s s.cur.gk, WentOn s v i)) ∧
  (∀ (s u : State) (d : BitVec 6) (a b : Src) (r : Nat), UniReady s (formU2d d a b) → (regionOf (valS s a.r) (arrive s)).1 = .ok r →
    u = (regionOf (valS s a.r) (arrive s)).2 →
    ∃ t, exec (.bfloor d a b) s = .next t ∧ UniIssued u t (formU2d d a b) [opHere u 0xFFFF (.bfloor d r ((valS s b.r).toNat % 2 ^ 32))])

/-- R174, R175, R181, R184, R187: `gang` with a list of no groups clears GANG; with a list that passes it arrives, unless wrsys has left a
GANG value that is no gang's, which is GANG_FAULT once (R173); a joint instruction whose checks pass arrives at the latch with its
operands, and every list that is then complete acts. R191: `accrel` frees its slot and zeroes its register, once no matrix instruction
that writes the slot is in flight; a reference of 0 frees nothing; `accrel.st` first writes the tile through the shape, and the form that
keeps the slot does only that. Where a clause goes beyond the rule's words it follows the model's own reading or choice: log entries 19,
48. -/
def Obligations.MatrixAndAccumulators : Prop :=
  ((
  (∀ (s : State) (a : Src), UniReady s (formU1 a) → s.mm.ops.find? (isMatrixOf s.cur.gk) = .none →
    (gangCount (valS s a.r) = 0 → ∃ t, exec (.gang a) s = .next t ∧
      UniDone (setGrp s.cur.gk { getGrp s s.cur.gk with gang := 0 } (arrive s)) t (formU1 a) .none .none s.cur.npc) ∧
    (gangCount (valS s a.r) ≠ 0 → bits (valS s a.r) 63 51 = 0 → listBad s s.cur.gk (valS s a.r) = false →
      gangStale s s.cur.gk = false →
      exec (.gang a) s = .next (settleLatch (teamOfG s.cur.gk)
        (enterLatch s.cur.gk (.gang (valS s a.r)) (kills (formU1 a)) (keepCache s.cur.gk 0 (formU1 a) (arrive s))))) ∧
    (gangCount (valS s a.r) ≠ 0 → gangStale s s.cur.gk = true →
      exec (.gang a) s = .next (trapGroup { name := .gangFault, pc := s.cur.pc, info := valS s a.r } (gangSeen s.cur.gk (arrive s)))) ∧
    (gangCount (valS s a.r) ≠ 0 → gangStale s s.cur.gk = false → bits (valS s a.r) 63 51 ≠ 0 ∨ listBad s s.cur.gk (valS s a.r) = true →
      exec (.gang a) s = .next (trapGroup { name := .gangFault, pc := s.cur.pc, info := valS s a.r } (arrive s)))) ∧
  (∀ e ∈ mmarForms, ∀ (s : State) (d : BitVec 6) (a b : Src) (fa fb : BitVec 3), MmarReady s e.2 d a b fa fb →
    exec (e.1 d a b fa fb) s = .next (settleLatch (teamOfG s.cur.gk)
      (enterLatch s.cur.gk (.mmar e.2 d a b fa fb) [] (arrive s)))) ∧
  (∀ (s u w : State) (d : BitVec 6) (a b : Src) (ha hb : Handle) (sa sb : Shape),
    UniReady s (mmasForm 0 d a b) →
    MmasReady s u w 0 d (valS s a.r) (valS s b.r) (valS s d) ha hb sa sb →
    exec (.mmasD d a b) s = .next (settleLatch (teamOfG s.cur.gk)
      (mmasArrived w (mmasForm 0 d a b) 0 1 d (valS s a.r) (valS s b.r) (valS s d) sa sb))) ∧
  (∀ e ∈ mmasForms, ∀ (s u w : State) (d : BitVec 6) (a b : Src) (n : BitVec 4) (ha hb : Handle) (sa sb : Shape),
    UniReady s (formU2 a b) → MmasReady s u w e.2 d (valS s a.r) (valS s b.r) 0 ha hb sa sb →
    exec (e.1 d a b n) s = .next (settleLatch (teamOfG s.cur.gk)
      (mmasArrived w (formU2 a b) e.2 (n.toNat + 1) d (valS s a.r) (valS s b.r) 0 sa sb)))
  ) ∧ (
  (∀ (s : State) (d : BitVec 6), UniReady s { uni := true, flds := [⟨true, d, .plain, 4, true⟩], dv := .some d } →
    (valS s d = 0 → exec (.accrel d .none) s = .next (passGroup s.cur.gk s.cur.npc (arrive s))) ∧
    (∀ n, valS s d ≠ 0 → refSlot s s.cur.gk (valS s d) = .some n → slotWriter s s.cur.gk n = .none →
      exec (.accrel d .none) s = .next (passGroup s.cur.gk s.cur.npc
        (writeDst s.cur.gk 0 true d 0 false (setSlot s.cur.gk n .none (arrive s))))) ∧
    (valS s d ≠ 0 → refSlot s s.cur.gk (valS s d) = .none →
      exec (.accrel d .none) s = .next (trapGroup { name := .slotFault, pc := s.cur.pc, info := valS s d } (arrive s)))) ∧
  (∀ (s w : State) (d : BitVec 6) (b : Src) (keep : Bool) (n : Nat),
    UniReady s { uni := true, flds := [strictF true b 1, ⟨true, d, .plain, 4, true⟩], dv := .some d } → bits (valS s b.r) 63 23 = 0 →
    refSlot s s.cur.gk (valS s d) = .some n → slotWriter s s.cur.gk n = .none →
    (∃ y sh z u, getHandle s (teamOfG s.cur.gk) (bits (valS s b.r) 22 16) = .some y ∧ isEngine y.st = false ∧
      getShape s.cur.gk (denyOf s s.cur.gk 0 true) (bits (valS s b.r) 15 0) (arrive s) = (.ok sh, u) ∧ stashShapeOk (recOf u u.cur.gk) sh 0 true = true ∧
      u.cur = s.cur ∧ spanIn y (shapeSpan sh 64) = true ∧
      ((rowParts y sh 16 24 64).findSome? fun r => busyTile u (teamOfG s.cur.gk) r.1 r.2) = .none ∧
      issueWait true 0 .s ((rowParts y sh 16 24 64).map fun r => ⟨r.1, r.2, .rc⟩) false u = .none ∧
      getSlot u s.cur.gk n = .some z ∧ w = writeTile (teamOfG s.cur.gk) y sh z.d u ∧ w.cur = s.cur) →
    exec (.accrel d (.some (keep, b))) s = .next (passGroup s.cur.gk s.cur.npc
      (if keep then commitStore 0 (accrelForm d (.some (keep, b))) w
        else writeDst s.cur.gk 0 true d 0 false (commitStore 0 (accrelForm d (.some (keep, b))) (setSlot s.cur.gk n .none w)))))
  ))

/-- R193 to R196, R200, R258: `copen` of a record that passes its checks takes a free id and sends the open on its way, its handle filling;
the terms and the record operations of an open record are sent to it, with the destination EMPTY until they arrive; through a capability
entry a term goes to the record of the team that the entry names, at one unit of its allowance. (One thread: the threads of a bundle
issue one after another.) Where a clause goes beyond the rule's words it follows the model's own reading or choice: log entries 4, 20,
49. -/
def Obligations.RecordOperationsIssue : Prop :=
  (∀ (s : State) (i : Nat) (d : BitVec 6) (a : Src) (l : Bool) (h : BitVec 7) (y : Handle) (w : List (BitVec 32)) (off : Nat), Alone s i →
    LaneReady s { uni := false, flds := [strictF false a 0], dv := .some d } → off = (valV s i a.r).toNat → off % 64 = 0 →
    getHandle s (teamOfG s.cur.gk) h.toNat = .some y → y.st ≠ .draining → (y.st = .filling → y.recs ≠ 0) →
    (∀ p ∈ (getTeam s (teamOfG s.cur.gk)).handles, ∀ z, p.2 = .some z → tilesMeet y.off z.off y.size z.size = true →
      (p.1 = h.toNat ∨ isEngine z.st = false) ∧ z.mm = 0) →
    w = words32 (stashRead s (teamOfG s.cur.gk) off 64) → (∀ r ∈ recAreas l off w, y.off ≤ r.1 ∧ r.1 + r.2 ≤ y.off + y.size) →
    recWordsBad l w = false → (freeRecs s s.cur.gk).2 < 512 → (freeRecs s s.cur.gk).1 ≠ [] →
    openAt s (teamOfG s.cur.gk) off = false →
    issueWait false i .s [⟨off, 64, .rc⟩] false s = .none → stashBad s (teamOfG s.cur.gk) off 64 = false →
    ∃ t, exec (.copen d a l h) s = .next t ∧ (pick (freeRecs s s.cur.gk).1 0 s).1 ∈ (freeRecs s s.cur.gk).1 ∧
      LaneIssued (openSent s h.toNat y) t i
        { uni := false, flds := [strictF false a 0], dv := .some d }
        [opHere s i (.rop (teamOfG s.cur.gk) .none false (.copen d (pick (freeRecs s s.cur.gk).1 0 s).1 off h.toNat l))]) ∧
  (∀ (s : State) (i : Nat) (p : BitVec 3) (a b c : Src), Alone s i → issueWait false i .s [] false s = .none →
    LaneReady s { uni := false, flds := [strictF false a 0, strictF false b 1, strictF false c 2], dp := .some p } →
    (∀ r, closing s s.cur.gk i ((valV s i a.r).toNat % 512) = .none → ownRec s s.cur.gk ((valV s i a.r).toNat % 512) = .some r →
      (isLse r = false → ∃ t, exec (.cadd p a b c .none) s = .next t ∧
        LaneIssued s t i { uni := false, flds := [strictF false a 0, strictF false b 1, strictF false c 2], dp := .some p }
          [opHere s i (.rop (teamOfG s.cur.gk) .none false (.cadd p ((valV s i a.r).toNat % 512) false
            ((valV s i b.r).extractLsb' 0 32) ((valV s i b.r).extractLsb' 32 32) ((valV s i c.r).extractLsb' 0 32)
            ((valV s i c.r).extractLsb' 32 32) ((valV s i a.r).extractLsb' 32 32) []))]) ∧
      (∀ vec, isLse r = true → (valV s i c.r).toNat / 2 ^ 32 = (rw r 4).toNat →
        readVec i ((valV s i a.r).toNat / 2 ^ 32) ((valV s i c.r).toNat / 2 ^ 32) s = .inr vec →
        ∃ t, exec (.cadd p a b c .none) s = .next t ∧
        LaneIssued s t i { uni := false, flds := [strictF false a 0, strictF false b 1, strictF false c 2], dp := .some p }
          [opHere s i (.rop (teamOfG s.cur.gk) .none false (.cadd p ((valV s i a.r).toNat % 512) true
            ((valV s i b.r).extractLsb' 0 32) ((valV s i b.r).extractLsb' 32 32) ((valV s i c.r).extractLsb' 0 32) 0 0 vec))])) ∧
    (∀ (n : BitVec 6) (e : Cap), capOf s s.cur.gk n.toNat = .some e → e.kind = .comp → e.s = true → bitAt e.operand 32 = false →
      e.operand.toNat % 2 ^ 32 < (recOf s s.cur.gk).teams → allowOf s (teamOfG s.cur.gk) n.toNat ≠ 0 →
      ∃ t, exec (.cadd p a b c (.some n)) s = .next t ∧ LaneIssued (charge (teamOfG s.cur.gk) n.toNat 1 s) t i
        { uni := false, flds := [strictF false a 0, strictF false b 1, strictF false c 2], dp := .some p }
        [opHere s i (.rop (teamKey (gridOfG s.cur.gk) (e.operand.toNat % 2 ^ 32)) (.some n.toNat) false
          (.cadd p ((valV s i a.r).toNat % 512) false ((valV s i b.r).extractLsb' 0 32) ((valV s i b.r).extractLsb' 32 32)
            ((valV s i c.r).extractLsb' 0 32) ((valV s i c.r).extractLsb' 32 32) ((valV s i a.r).extractLsb' 32 32) []))]) ∧
    (∀ (n : BitVec 6) (e : Cap) (vec : List (BitVec 32)), capOf s s.cur.gk n.toNat = .some e → e.kind = .comp → e.s = true →
      bitAt e.operand 32 = true → e.operand.toNat % 2 ^ 32 < (recOf s s.cur.gk).teams → allowOf s (teamOfG s.cur.gk) n.toNat ≠ 0 →
      1 ≤ (valV s i c.r).toNat / 2 ^ 32 → (valV s i c.r).toNat / 2 ^ 32 ≤ 64 →
      readVec i ((valV s i a.r).toNat / 2 ^ 32) ((valV s i c.r).toNat / 2 ^ 32) s = .inr vec →
      ∃ t, exec (.cadd p a b c (.some n)) s = .next t ∧ LaneIssued (charge (teamOfG s.cur.gk) n.toNat 1 s) t i
        { uni := false, flds := [strictF false a 0, strictF false b 1, strictF false c 2], dp := .some p }
        [opHere s i (.rop (teamKey (gridOfG s.cur.gk) (e.operand.toNat % 2 ^ 32)) (.some n.toNat) false
          (.cadd p ((valV s i a.r).toNat % 512) true ((valV s i b.r).extractLsb' 0 32) ((valV s i b.r).extractLsb' 32 32)
            ((valV s i c.r).extractLsb' 0 32) 0 0 vec))])) ∧
  (∀ (s : State) (i : Nat) (a : Src) (r : Rec), Alone s i → issueWait false i .s [] false s = .none → closing s s.cur.gk i ((valV s i a.r).toNat % 512) = .none →
    ownRec s s.cur.gk ((valV s i a.r).toNat % 512) = .some r →
    (LaneReady s { uni := false, flds := [strictF false a 0] } →
      (∃ t, exec (.cflush a) s = .next t ∧ LaneIssued s t i { uni := false, flds := [strictF false a 0] }
        [opHere s i (.rop (teamOfG s.cur.gk) .none false (.cflush ((valV s i a.r).toNat % 512)))]) ∧
      (∃ t, exec (.cclose a) s = .next t ∧ LaneIssued s t i { uni := false, flds := [strictF false a 0] }
        [opHere s i (.rop (teamOfG s.cur.gk) .none false (.cclose ((valV s i a.r).toNat % 512)))])) ∧
    (∀ (d : BitVec 6) (k : BitVec 3), LaneReady s { uni := false, flds := [strictF false a 0], dv := .some d } →
      ∃ t, exec (.cread d a k) s = .next t ∧ LaneIssued s t i { uni := false, flds := [strictF false a 0], dv := .some d }
        [opHere s i (.rop (teamOfG s.cur.gk) .none false (.cread d ((valV s i a.r).toNat % 512) k.toNat))])) ∧
  (∀ (s w : State) (i : Nat) (d : BitVec 6) (a b : Src) (x : BitVec 16) (h : BitVec 7) (rb bb : List Byte), Alone s i →
    LaneReady s { uni := false, flds := [strictF false a 0, strictF false b 1], dv := .some d } →
    (valV s i a.r).toNat + 64 ≤ windowOf s (teamOfG s.cur.gk) → (valV s i b.r).toNat + 24 ≤ windowOf s (teamOfG s.cur.gk) →
    stashGet s (valV s i a.r).toNat 64 = .ok rb → stashGet s (valV s i b.r).toNat 24 = .ok bb →
    ((words32 rb).getD 6 0).getLsbD 0 = false → ((words32 rb).getD 6 0).getLsbD 3 = false → ((words32 rb).getD 6 0).getLsbD 4 = false →
    ∀ n, n = ((words32 rb).getD 10 0).toNat → (∃ y sh u log,
      (n ≠ 0 → stashGet s ((words32 rb).getD 8 0).toNat (32 * n) = .ok log) ∧ getHandle s (teamOfG s.cur.gk) h.toNat = .some y ∧
      getShape s.cur.gk (denyOf s s.cur.gk i false) x.toNat s = (.ok sh, u) ∧ u.cur = s.cur ∧ stashShapeOk (recOf u s.cur.gk) sh 1 true = true ∧
      spanIn y (shapeSpan sh 32) = true ∧
      ((rowParts y sh n 4 32).findSome? fun r => busyTile u (teamOfG s.cur.gk) r.1 r.2) = .none ∧
      issueWait false i .s (⟨(valV s i a.r).toNat, 64, .rc⟩ :: ⟨(valV s i b.r).toNat, 24, .rc⟩ ::
        ⟨((words32 rb).getD 8 0).toNat, 32 * n, .rc⟩ :: (rowParts y sh n 4 32).map fun r => ⟨r.1, r.2, .rc⟩) false u = .none ∧
      w = replayRows (teamOfG s.cur.gk) ((words32 rb).getD 8 0).toNat y sh ((words32 bb).take 3) n ((words32 bb).drop 3)
        (commitLong i { uni := false, flds := [strictF false a 0, strictF false b 1], dv := .some d } u) ∧ w.cur = s.cur) →
    exec (.creplay d a b x h) s = .next (goOn s.cur.gk s.cur.npc
      (addOp s.cur.gk i s.cur.pc (.creplay d ((words32 rb).getD 10 0).toNat) w) i))

/-- R336, R339: the arithmetic of the Gloss set on n32 values modulo 2^32, with shifts of 32 or more giving 0 and writes to g0 discarded; one
unit of budget is spent, and the run goes on at the next word. -/
def Obligations.GlossArithmeticResults : Prop :=
  ∀ (s : State) (die : Nat) (r : GRun) (u : GUnit), GlossRuns s die r → u = spent (getUnit s die) r →
    (∀ e ∈ glossTwo, ∀ d a b, exec (e.1 d a b) s =
      .next (glossGo s die r (setG d (e.2 (gReg u a) (gReg u b)) u) (r.pc + 1))) ∧
    (∀ e ∈ glossImm, ∀ d a i, exec (e.1 d a i) s = .next (glossGo s die r (setG d (e.2 (gReg u a) i) u) (r.pc + 1))) ∧
    (∀ d i, exec (.gmovi d i) s = .next (glossGo s die r (setG d (BitVec.ofInt 32 i.toInt) u) (r.pc + 1))) ∧
    (∀ d a b, exec (.ghash d a b) s = .next (glossGo s die r (setG d (glossHash (gReg u a) (gReg u b)) u) (r.pc + 1)))

/-- R336, R338 to R341: loads, stores and branches of the Gloss set, its counts and sketches in the tenant's window, and `gfire`: the value
is recorded; a trigger that can be delivered is, and one that cannot (kind 0, disarmed, a full mailbox or queue, an ended or unknown
launch, a malformed record) is counted as a fire drop; the run goes on either way. Where a clause goes beyond the rule's words it follows
the model's own reading or choice: log entry 39. -/
def Obligations.GlossMemoryBranchesAndTriggers : Prop :=
  ∀ (s : State) (die : Nat) (r : GRun) (u : GUnit) (o : Nat), GlossRuns s die r → u = spent (getUnit s die) r → o = ownerOf u r.k →
    (∀ d a i, exec (.gld d a i) s =
      .next (glossGo s die r (setG d (winGet u o (gReg u a + BitVec.ofInt 32 i.toInt)) u) (r.pc + 1))) ∧
    (∀ d a i, exec (.gst d a i) s = .next (glossGo s die r (winSet o (gReg u a + BitVec.ofInt 32 i.toInt) (gReg u d) u) (r.pc + 1))) ∧
    (∀ e ∈ glossBranches, ∀ a b t, (e.2 (gReg u a) (gReg u b) → exec (e.1 a b t) s = .next (glossGo s die r u (r.pc + t.toNat))) ∧
      (¬ e.2 (gReg u a) (gReg u b) → exec (e.1 a b t) s = .next (glossGo s die r u (r.pc + 1)))) ∧
    (∀ t, exec (.gbr t) s = .next (glossGo s die r u (r.pc + t.toNat))) ∧
    exec .gend s = .next { setUnit die (endRun r.k u) s with gsel := .none } ∧
    (∀ d a b w, w = winGet u o (gReg u a + gReg u b) → exec (.ghist d a b) s = .next (glossGo s die r
      (setG d (if w = 0xFFFFFFFF then w else w + 1) (winSet o (gReg u a + gReg u b) (if w = 0xFFFFFFFF then w else w + 1) u)) (r.pc + 1))) ∧
    (∀ d a b k z, k = max 1 (min 14 ((winGet u o (gReg u b)).toNat % 16)) →
      z = cmsRows o (gReg u a) (gReg u b) k [0, 1, 2, 3] u 0xFFFFFFFF →
      exec (.gcms d a b) s = .next (glossGo s die r (setG d z.2 z.1) (r.pc + 1))) ∧
    (∀ d a b p h rank i, p = max 4 (min 14 ((winGet u o (gReg u b)).toNat % 16)) → h = glossHash (gReg u a) 0 →
      rank = min (clz32 (h <<< p) + 1) (33 - p) → i = gReg u b + 1 + (h >>> (32 - p)) →
      exec (.ghll d a b) s = .next (glossGo s die r
        (if (winGet u o i).toNat < rank then setG d 1 (winSet o i (BitVec.ofNat 32 rank) u) else setG d 0 u) (r.pc + 1))) ∧
    (∀ (a t : BitVec 4) (v : GUnit), v = { getUnit s die with fired := tset 0 (o * 16 + t.toNat) (gReg u a) u.fired } →
      (∀ w, w = { v with fire := tset 0 r.k (tget 0 r.k u.fire + 1) u.fire } →
        (∀ x y, tget .none o u.ten = .some x → x.trigs[t.toNat]? = .some y →
          tget false (o * 16 + t.toNat) u.disarmed = true ∨ deliver o r.k t.toNat y (gReg u a) s = .none) →
        exec (.gfire a t) s = .next (glossGo (setUnit die w s) die r (spent w r) (r.pc + 1))) ∧
      (∀ x y w p, tget .none o u.ten = .some x → x.trigs[t.toNat]? = .some y → tget false (o * 16 + t.toNat) u.disarmed = false →
        deliver o r.k t.toNat y (gReg u a) s = .some p →
        w = { v with disarmed := if y.once then tset false (o * 16 + t.toNat) true u.disarmed else u.disarmed,
                     trigTok := if y.kind = 3 then tset 0 (o * 16 + t.toNat) p.2 u.trigTok else u.trigTok } →
        exec (.gfire a t) s = .next (glossGo (setUnit die w p.1) die r (spent w r) (r.pc + 1))) ∧
      (∀ (y : Trig) (i : Nat) (x : BitVec 32), (y.kind = 0 → deliver o r.k i y x s = .none) ∧
        (y.kind = 1 → deliver o r.k i y x s = .some ({ s with hs := { s.hs with irq := s.hs.irq ++ [(o, 8 + y.sel)] } }, 0)) ∧
        (y.kind = 2 → (hostGrid s o (y.target % 2 ^ 32) = .none → deliver o r.k i y x s = .none) ∧
          ∀ g n z, hostGrid s o (y.target % 2 ^ 32) = .some g → n = teamKey g y.team → z = teamOrQueued s n →
            ((getGrid s g).lr.teams ≤ y.team ∨ 64 ≤ y.sel ∨ z.st = .ended ∨ 8 ≤ (tget [] y.sel z.boxes).length →
              deliver o r.k i y x s = .none) ∧
            (y.team < (getGrid s g).lr.teams → y.sel < 64 → z.st ≠ .ended → (tget [] y.sel z.boxes).length < 8 →
              deliver o r.k i y x s = .some (setTeam n
                { z with boxes := tset [] y.sel (tget [] y.sel z.boxes ++ [⟨bytesOf 8 (x.toNat + r.k * 2 ^ 32), []⟩]) z.boxes } s, 0))) ∧
        (y.kind = 3 → ∀ bs q, bs = pread s y.target 256 → q = tget [] (o * 4 + y.sel) s.vs.hostq →
          (enabledV s o = false ∨ recordOutside s o y.target = true ∨ 4 ≤ y.sel ∨ recordOk bs = false ∨ pbad s y.target 256 = true ∨
            256 ≤ q.length → deliver o r.k i y x s = .none) ∧
          (enabledV s o = true → recordOutside s o y.target = false → y.sel < 4 → recordOk bs = true → pbad s y.target 256 = false →
            q.length < 256 →
            ∃ v, deliver o r.k i y x s = .some (v, nextHostTok s o) ∧ tget [] (o * 4 + y.sel) v.vs.hostq =
              q ++ [({ lr := { parseRecord bs with arg := x.setWidth 64 }, tok := nextHostTok s o, dep := (parseRecord bs).dep,
                       trig := .some i } : QItem)]))))

/-- R134: the value that an atomic writes, on every accepted integer type, as bytes of the element; `.d` adds with one rounding to nearest
even and the default NaN. -/
def Obligations.AtomicValues : Prop :=
  (∀ (minor : Nat) (ty : AtomTy) (z : Nat) (x y : Word), atomAccepts minor ty → z < 2 ^ (8 * atomBytes ty) →
    (atomNew minor ty (atomExt ty z) x y).toNat % 2 ^ (8 * atomBytes ty) =
      atomRule minor (atomSigned ty) (8 * atomBytes ty) z (x.toNat % 2 ^ (8 * atomBytes ty)) (y.toNat % 2 ^ (8 * atomBytes ty))) ∧
  (∀ (z x y : Word), atomNew 0 .d z x y = BitVec.ofNat 64 (opAdd fp64 fm0 z.toNat x.toNat).1)

/-- R36, R126, R131, R134, R164, R165, R334: an operation in flight completes: the destination becomes FULL with the bytes read (FAULT where
a word of them carries an uncorrectable mark, and an atomic then writes nothing), a checked load's predicate says whether its edition is
there, an edition-named access passes its instruction, and the operation is gone. Where a clause goes beyond the rule's words it follows
the model's own reading or choice: log entries 7, 9, 22. -/
def Obligations.AccessesComplete : Prop :=
  (∀ (s : State) (k : Nat) (o : Op) (u : Bool) (d : BitVec 6) (p : Option (BitVec 3)) (q : Part) (va : Word), InFlight s k o →
    o.k = .load u true d p [q] va → aliveG s o.gk = true →
    (stashBad s (teamOfG o.gk) q.pa q.len = false → exec (.loadCompletion k) s = .next (checked o u p true
      (filled o u d (BitVec.ofNat 64 (natOf (stashRead s (teamOfG o.gk) q.pa q.len))) (dropOp k s)))) ∧
    (stashBad s (teamOfG o.gk) q.pa q.len = true →
      exec (.loadCompletion k) s = .next (checked o u p true (faulted o u d va (dropOp k s))))) ∧
  (∀ (s w : State) (k : Nat) (o : Op) (u bad : Bool) (d : BitVec 6) (p : Option (BitVec 3)) (qs : List Part) (va : Word) (bs : List Byte),
    InFlight s k o → o.k = .load u false d p qs va → readParts o.gk qs s = .some (bs, bad, w) → aliveG w o.gk = true →
    exec (.loadCompletion k) s = .next (checked o u p true
      (if bad then faulted o u d va (dropOp k w) else filled o u d (BitVec.ofNat 64 (natOf bs)) (dropOp k w)))) ∧
  (∀ (s w : State) (k : Nat) (o : Op) (d : BitVec 6) (minor : Nat) (m : AtomMod) (p : Part) (va x y : Word), InFlight s k o →
    o.k = .atomic d minor m p va x y → aliveG s o.gk = true → duePerforms s (coreOf s o.gk) = true →
    (∀ v, m.space = .s → v = performDue (coreOf s o.gk) (dropOp k s) → stashBad s (teamOfG o.gk) p.pa p.len = true →
      exec (.atomicPerform k) s = .next (faulted o false d va v)) ∧
    (∀ v e, m.space = .s → v = performDue (coreOf s o.gk) (dropOp k s) → stashBad s (teamOfG o.gk) p.pa p.len = false →
      isAcq m.order = false → e = atomExt m.ty (natOf (stashRead s (teamOfG o.gk) p.pa p.len)) →
      (minor = 7 ∧ atomNew minor m.ty e x y = e → exec (.atomicPerform k) s = .next (filled o false d e v)) ∧
      (¬ (minor = 7 ∧ atomNew minor m.ty e x y = e) →
        exec (.atomicPerform k) s = .next (filled o false d e (stashWrite (teamOfG o.gk) p.pa
          (bytesOf (atomBytes m.ty) (atomNew minor m.ty e x y).toNat) v)))) ∧
    (∀ bs bad e, m.space = .g → partReach s (coreOf s o.gk) p = true → isHbm p.pa = true → p.kind ≠ .so →
      wideScope s o.gk m.scope = false → residentG s o.gk = true → readPart (ctxOf s o.gk) (coreOf s o.gk) p
        (drainEntry (coreOf s o.gk) (p.pa / 128) (performDue (coreOf s o.gk) (dropOp k s))) = (bs, bad, w) → aliveG w o.gk = true →
      isAcq m.order = false → e = atomExt m.ty (natOf bs) →
      (bad = true → exec (.atomicPerform k) s = .next (faulted o false d va w)) ∧
      (bad = false → minor = 7 ∧ atomNew minor m.ty e x y = e → exec (.atomicPerform k) s = .next (filled o false d e w)) ∧
      (bad = false → ¬ (minor = 7 ∧ atomNew minor m.ty e x y = e) → ∀ v, v = dirtyAt o.gk va (noteStore o.gk p.pa
          (dirtyLine (ctxOf s o.gk) (coreOf s o.gk) (p.pa / 128) (p.pa % 128)
            (bytesOf (atomBytes m.ty) (atomNew minor m.ty e x y).toNat) (p.kind == .uo) w)) → aliveG v o.gk = true →
        exec (.atomicPerform k) s = .next (filled o false d e v))) ∧
    (∀ e, m.space = .g → partReach s (coreOf s o.gk) p = true → isHbm p.pa = true → p.kind ≠ .so →
      wideScope s o.gk m.scope = true ∨ residentG s o.gk = false →
      w = dirLines (dirWrite (ctxOf s o.gk) (dieOf (coreOf s o.gk))) p.pa p.len
        (tapLine (ctxOf s o.gk) (coreOf s o.gk) (p.pa / 128) true false (flushLine (coreOf s o.gk) (p.pa / 128)
          (performDie (coreOf s o.gk) (performDue (coreOf s o.gk) (dropOp k s))))) → aliveG w o.gk = true →
      isAcq m.order = false → e = atomExt m.ty (natOf (pread w p.pa p.len)) →
      (pbad w p.pa p.len = true → exec (.atomicPerform k) s = .next (faulted o false d va w)) ∧
      (pbad w p.pa p.len = false → minor = 7 ∧ atomNew minor m.ty e x y = e →
        exec (.atomicPerform k) s = .next (filled o false d e w)) ∧
      (pbad w p.pa p.len = false → ¬ (minor = 7 ∧ atomNew minor m.ty e x y = e) → ∀ v, v = dirtyAt o.gk va (noteStore o.gk p.pa
          (pwrite p.pa (bytesOf (atomBytes m.ty) (atomNew minor m.ty e x y).toNat) w)) → aliveG v o.gk = true →
        exec (.atomicPerform k) s = .next (filled o false d e v)))) ∧
  (∀ (s w : State) (k : Nat) (o : Op) (u : Bool) (d : BitVec 6) (chk : Option (BitVec 3)) (use : Uses) (va a npc : Word)
    (n : Nat) (e : Option Nat) (bs : List Byte) (old : Cell) (oldP : PCell), InFlight s k o → o.k = .edl u d chk use va n e npc old oldP →
    cutOff s o.gk (pagePieces va n) = false → aliveG s o.gk = true →
    (deniedPiece s o.gk e (pagePieces va n) = .some a → chk = .none → exec (.editionLookup k) s = .next
      (trapIssuer o (accessFault o.ia a 3 .g false) (setR o.gk o.tid u d old (dropOp k s)))) ∧
    (deniedPiece s o.gk e (pagePieces va n) = .none → aliveG w o.gk = true →
      (∀ bad, readEditions o.gk e (pagePieces va n) s = (.ok bs bad [], w) → exec (.editionLookup k) s = .next (passIssuer o npc
        (checked o u chk true (if bad then faulted o u d va (useAll o.gk o.tid use (dropOp k w))
          else filled o u d (BitVec.ofNat 64 (natOf bs)) (useAll o.gk o.tid use (dropOp k w)))))) ∧
      (∀ bad p ps, readEditions o.gk e (pagePieces va n) s = (.ok bs bad (p :: ps), w) → exec (.editionLookup k) s = .next (passIssuer o npc
        (setOp k (.rload u d chk (p :: ps) va .none
          (if bs.isEmpty then .none else .some (p.pa % 65536 != va.toNat % 65536, bs, bad))) (useAll o.gk o.tid use w)))) ∧
      (readEditions o.gk e (pagePieces va n) s = (.gone a, w) → chk.isSome → exec (.editionLookup k) s = .next (passIssuer o npc
        (checked o u chk false (filled o u d 0 (useAll o.gk o.tid use (dropOp k w)))))) ∧
      (readEditions o.gk e (pagePieces va n) s = (.gone a, w) → chk = .none → exec (.editionLookup k) s = .next
        (trapIssuer o { name := .editionGone, pc := o.ia, addr := a, info := BitVec.ofNat 64 (e.getD 0) }
          (setR o.gk o.tid u d old (dropOp k w)))))) ∧
  (∀ (s : State) (k : Nat) (o : Op) (d : BitVec 6) (va npc : Word) (r : Nat) (use : Uses) (old : Cell), InFlight s k o →
    o.k = .bpub d va r npc use old → aliveG s o.gk = true →
    (eOpen s r ≠ 0xFFFFFFFF → ∀ w, w = pwriteN (regionAt s r + 4) 4 (eOpen s r) (pwriteN (regionAt s r) 4 (eOpen s r + 1) (dropOp k s)) →
      exec (.bpubAtBindery k) s = .next (passIssuer o npc (writeDst o.gk 0 true d (BitVec.ofNat 64 (eOpen s r)) false
        (useAll o.gk o.tid use w)))) ∧
    (eOpen s r = 0xFFFFFFFF → exec (.bpubAtBindery k) s = .next
      (trapIssuer o { name := .editionLimit, pc := o.ia, addr := va, info := BitVec.ofNat 64 r } (setR o.gk o.tid true d old (dropOp k s))))) ∧
  (∀ (s w : State) (k : Nat) (o : Op) (d : BitVec 6) (r f : Nat), InFlight s k o → o.k = .bfloor d r f →
    w = dropOp k (if eFloor s r < min f (ePub s r) then pwriteN (regionAt s r + 8) 4 (min f (ePub s r)) s else s) → aliveG w o.gk = true →
    exec (.bfloorAtHome k) s = .next (writeDst o.gk 0 true d (BitVec.ofNat 64 (eFloor w r)) false w)) ∧
  (∀ (s : State) (k : Nat) (o : Op) (u : Bool) (d : BitVec 6) (p : Option (BitVec 3)) (die tenant upto : Nat), InFlight s k o →
    o.k = .drain u d p die tenant upto → aliveG s o.gk = true → (getUnit s die).run = .none →
    (∀ p ∈ (getUnit s die).q, upto ≤ p.n ∨ ownerOf (getUnit s die) p.k ≠ tenant) →
    exec (.drainWordRead k) s =
      .next (checked o u p true (filled o u d (BitVec.ofNat 64 (tget 0 tenant (getUnit s die).total)) (dropOp k s))))

/-- R137, R160, R297, R302: a receive takes the oldest entries or message once its team is on a core and it is the oldest of its group there;
a waiting send's message is delivered when its endpoint has room; a store that has reached its page's agent is written with its sub-
blocks ready, or waits for a pool. Where a clause goes beyond the rule's words it follows the model's own reading or choice: log entries
7, 9, 11, 22, 33, 46. -/
def Obligations.TransfersComplete : Prop :=
  (∀ (s w : State) (k : Nat) (o : Op) (d : BitVec 6) (q n b : Nat) (tids : List Nat), InFlight s k o → o.k = .qrecv d q n b tids →
    residentG s o.gk = true → recvTurn s o = true → n ≤ (poppable (queueOf s (teamOfG o.gk) q)).length →
    w = acquireCore (coreOf (dropOp k (popEnts (teamOfG o.gk) q n s)) o.gk) (getTeam s (teamOfG o.gk)).pair false
      (dropOp k (popEnts (teamOfG o.gk) q n s)) → o.id = k →
    exec (.queueReceiveCompletion k) s = .next (tids.foldl (fun w i =>
      if (((poppable (queueOf s (teamOfG o.gk) q)).take n).getD (i * b / 128) ⟨0, true, [], false⟩).bad
      then setV (threadKey o.gk i) d { getV w (threadKey o.gk i) d with st := .fault o.ia 0 } w
      else writeDst o.gk i false d
        (BitVec.ofNat 64 (fieldOf (((poppable (queueOf s (teamOfG o.gk) q)).take n).flatMap (·.data)) (i * b) b)) false w) w)) ∧
  (∀ (s w : State) (k n : Nat) (o : Op) (d : BitVec 6) (c : Cap) (x : Taken), InFlight s k o → o.k = .crecv d n .none → o.id = k →
    capOf s o.gk n = .some c → residentG s o.gk = true → recvTurn s o = true → takeNext o.gk c .none s = .some x →
    (c.kind = .queue ∨ x.data.length ≤ 8) → x.bad = [] → w = recvAcquire o.gk c (dropOp k x.rest) →
    exec (.channelReceiveCompletion k) s = .next (writeDst o.gk 0 true d (BitVec.ofNat 64 (fieldOf x.data 0 8)) false w)) ∧
  (∀ (s w : State) (k n off cap : Nat) (o : Op) (d : BitVec 6) (c : Cap) (x : Taken), InFlight s k o → o.k = .crecv d n (.some (off, cap)) →
    o.id = k → capOf s o.gk n = .some c → residentG s o.gk = true → recvTurn s o = true → takeNext o.gk c (.some cap) s = .some x →
    ((c.kind = .queue ∨ x.data.length ≤ cap) → x.bad = [] → w = recvAcquire o.gk c (dropOp k x.rest) →
      exec (.channelReceiveCompletion k) s = .next (writeDst o.gk 0 true d (BitVec.ofNat 64 x.data.length) false
        (stashWrite (teamOfG o.gk) off x.data w))) ∧
    (c.kind ≠ .queue → cap < x.data.length → exec (.channelReceiveCompletion k) s =
      .next (writeDst o.gk 0 true d (BitVec.ofNat 64 (x.data.length + 2 ^ 63)) false (dropOp k s)))) ∧
  (∀ (s w : State) (k : Nat) (o : Op) (d : Dest) (m : Msg) (npc : Word) (use : Uses), InFlight s k o → o.k = .msg d m npc use →
    residentG s o.gk = true →
    (accept o.gk d m false s = .some w → exec (.messageDelivery k) s = .next (passGroup o.gk npc (useAll o.gk 0 use (dropOp k w)))) ∧
    (accept o.gk d m false s = .none → exec (.messageDelivery k) s = .next s)) ∧
  (∀ (s w : State) (k : Nat) (o : Op) (u : Bool) (use : Uses) (va npc : Word) (data : List Byte), InFlight s k o →
    o.k = .bwr u use va data npc .none → allMapped s o.gk false (pagePieces va data.length) = true →
    cutOff s o.gk (pagePieces va data.length) = false → duePerforms s (coreOf s o.gk) = true →
    (aliveG w o.gk = true → readyPieces o.gk (pagePieces va data.length) (performDue (coreOf s o.gk) s) = (.ready, w) →
      exec (.binderyWrite k) s = .next (passIssuer o npc
        (writePieces o.gk o.tid o.ia (pagePieces va data.length) data (useAll o.gk o.tid use (dropOp k w))))) ∧
    (∀ a, readyPieces o.gk (pagePieces va data.length) (performDue (coreOf s o.gk) s) = (.denied a, w) →
      exec (.binderyWrite k) s = .next (trapIssuer o (accessFault o.ia a 3 .g true) (dropOp k s))) ∧
    (∀ r i p v, readyPieces o.gk (pagePieces va data.length) (performDue (coreOf s o.gk) s) = (.pool r i p, w) →
      v = enterPool r i p (ctxOf w o.gk) (vdevOf w (ctxOf w o.gk)) 2 (dropOp k w) →
      exec (.binderyWrite k) s = .next ((heldThreads v o).foldl (fun s t => setSt o.gk t .blocked (.pool r p) s) v)))

/-- R142, R238, R315, R156: a copy engine's beat moves its bytes and advances; the end of a copy makes its handle full or free, or free with
the error set; a claim moves or leaves one page after another and then gives the number moved; a fork that waited starts once it can.
Where a clause goes beyond the rule's words it follows the model's own reading or choice: log entries 22, 32, 33, 42, 50. -/
def Obligations.CopiesClaimsAndForksProceed : Prop :=
  (∀ (s w v : State) (k : Nat) (o : Op) (c : Copy) (ms : List Move) (x : Handle), InFlight s k o → o.id = k → o.k = .copy c →
    enginesRun s o.gk = true → copyOver s o c = false → engReady s c.wait = true → nextBeat o c s = (ms, w) →
    getHandle w c.team c.h = .some x → cutOff w o.gk [((ms.headD ⟨0, .none, .none⟩).a, ms.length)] = false →
    (∀ bs bad, c.drain = false → engRead (copyAsker w o.gk c.chan) o.gk .g (ms.headD ⟨0, .none, .none⟩).a ms.length w = (.ok bs bad, v) →
      getHandle v c.team c.h = .some x → exec (.copyBeat k) s = .next
        (setOp k (.copy { c with pos := c.pos + ms.length, wait := .none, sent := .none }) (fillBeat c.team x.off ms bs bad v))) ∧
    (c.drain = true → engWrite (copyAsker w o.gk c.chan) o.gk (ms.headD ⟨0, .none, .none⟩).a
        ((List.range ms.length).map fun i => drainByte w c.team x.off c.xp
          ((currentBytes o.gk (ms.headD ⟨0, .none, .none⟩).a ms.length w).getD i 0) (ms.getD i ⟨0, .none, .none⟩))
        (ms.map (drainBad w c.team x.off)) w = (.done, v) →
      exec (.copyBeat k) s = .next (setOp k (.copy { c with pos := c.pos + ms.length, wait := .none }) v))) ∧
  (∀ (s : State) (k : Nat) (o : Op) (c : Copy) (x : Handle), InFlight s k o → o.k = .copy c → enginesRun s o.gk = true → copyOver s o c = true →
    getHandle s c.team c.h = .some x → c.set = .none →
    ∀ w, w = copyEnded (recOf s o.gk) c x s →
    exec (.copyEnd k) s = .next (settleTeam c.team (dropOp k (tapCopy (coreOf w o.gk) c.tmpl c.err c.drain (ctxOf w o.gk) w)))) ∧
  (∀ (s w : State) (k : Nat) (o : Op) (d : BitVec 6) (page left moved : Nat), InFlight s k o → o.k = .claim d page left moved .none →
    (left = 0 → aliveG s o.gk = true →
      exec (.claimPageMove k) s = .next (writeDst o.gk 0 true d (BitVec.ofNat 64 moved) false (dropOp k s))) ∧
    (left ≠ 0 → movePage (ctxOf s o.gk) (vdevOf s (ctxOf s o.gk)) (dieOf (coreOf s o.gk)) page s = .moved w →
      exec (.claimPageMove k) s = .next (setOp k (.claim d (page + 1) (left - 1) (moved + 1) .none) w)) ∧
    (left ≠ 0 → movePage (ctxOf s o.gk) (vdevOf s (ctxOf s o.gk)) (dieOf (coreOf s o.gk)) page s = .left w →
      exec (.claimPageMove k) s = .next (setOp k (.claim d (page + 1) (left - 1) moved .none) w))) ∧
  (∀ (s : State) (k : Nat) (o : Op) (d : BitVec 6) (prog arg npc : Word) (cs : List Copy) (use : Uses), InFlight s k o →
    o.k = .fork d prog arg cs npc use → (getTeam s (teamOfG o.gk)).st = .resident → forkReady s o.gk prog cs = true →
    ∀ r, r = startFork o.gk o.ia prog arg cs (useAll o.gk 0 use (dropOp k s)) →
    exec (.forkStart k) s = .next (passGroup o.gk npc (writeDst o.gk 0 true d (BitVec.ofNat 64 r.1) false r.2)))

/-- R161, R162, R218: a launch record that has been read is appended to its queue under the next token, or refused with the code of the first
check it fails; an access program's request reserves a queue entry and requests a line, and the line's return fills that entry. Where a
clause goes beyond the rule's words it follows the model's own reading or choice: log entries 15, 22, 33, 34. -/
def Obligations.LaunchesAndStreamsProceed : Prop :=
  (∀ (s v : State) (k : Nat) (o : Op) (q : BitVec 3) (d : BitVec 6) (pa pri : Nat) (va dep : Word) (bs : List Byte) (bad : Bool),
    InFlight s k o → o.id = k → o.k = .lrec q d pa va dep pri → isPeer pa = false → reachable s (coreOf s o.gk) pa = true →
    readRecord o.gk pa va s = (bs, bad, v) → aliveG v o.gk = true →
    (bad = true → exec (.launchRecordRead k) s = .next (setQ o.gk q ⟨false, false⟩
      (setR o.gk 0 true d { getS v o.gk d with st := .fault o.ia va } (dropOp k v)))) ∧
    (∀ c, bad = false → launchStatus (dropOp k v) o.gk pri dep bs = c →
      (c ≠ 0 → exec (.launchRecordRead k) s = .next (setQ o.gk q ⟨false, false⟩
        (writeDst o.gk 0 true d (BitVec.ofNat 64 (2 ^ 63 + c)) false (dropOp k v)))) ∧
      (c = 0 → ∀ x key it w, x = getGrid v (gridOfG o.gk) → key = x.ctx * 4 + pri →
        it = ({ lr := parseRecord bs, tok := x.nextTok, dep := dep.toNat, parent := .some (gridOfG o.gk, x.nextTok) } : QItem) →
        w = setGrid (gridOfG o.gk) { x with toks := x.toks ++ [⟨x.nextTok, .none⟩], nextTok := x.nextTok + 1 }
          { dropOp k v with vs := { v.vs with devq := tset [] key (tget [] key v.vs.devq ++ [it]) v.vs.devq } } →
        exec (.launchRecordRead k) s = .next (setQ o.gk q ⟨true, false⟩
          (writeDst o.gk 0 true d (BitVec.ofNat 64 x.nextTok) false w))))) ∧
  (∀ (s w : State) (t : Nat) (p : AProg) (r : StreamRec) (q via : Part), (getTeam s t).prog = .some p → (getTeam s t).st = .resident →
    p.ready = true → p.recs[p.i]? = .some r → r.rows ≠ 0 →
    (p.arg + r.off + BitVec.ofNat 64 p.row * r.stride).toNat % 128 = 0 → queueRoom s t r.queue ≠ 0 →
    engPart (engAsker s p.gk) p.gk r.space (p.arg + r.off + BitVec.ofNat 64 p.row * r.stride + BitVec.ofNat 64 (128 * p.e)) 128 s = (.ok q via, w) →
    trackersOk w p.gk (partLines [q]) = true → reachable w (coreOf w p.gk) q.pa = true →
    ∀ v, v = addOp p.gk engineTid p.ia (.aline t r.queue w.mm.nextId [q]
        (p.arg + r.off + BitVec.ofNat 64 p.row * r.stride + BitVec.ofNat 64 (128 * p.e)) r.space)
      (setProg t (.some (stepProg r { p with wait := .none }))
        (setQueue t r.queue (queueOf w t r.queue ++ [⟨w.mm.nextId, false, [], false⟩]) w)) →
    exec (.accessProgramRequest t) s = .next (settleTeam t
      (if r.space = .g ∧ isHbm q.pa = true then tapLine (ctxOf v p.gk) (coreOf v p.gk) (via.pa / 128) false true v else v))) ∧
  (∀ (s w : State) (k : Nat) (o : Op) (t q ent : Nat) (p : Part) (va : Word) (sp : Space) (bs : List Byte) (bad : Bool), InFlight s k o →
    o.id = k → o.k = .aline t q ent [p] va sp → isPeer p.pa = false → partReach s (coreOf s o.gk) p = true → q ≠ 8 →
    lineBytes o.gk p va sp s = (.some (bs, bad), w) →
    exec (.accessProgramReturn k) s = .next (settleTeam t (settleProg t (setQueue t q
      ((queueOf (dropOp k w) t q).map fun e => if e.id = ent then ⟨ent, true, bs, bad⟩ else e) (dropOp k w)))))

/-- R182, R183, R187, R190, R197, R200, R201: matrix instructions and K-steps are performed in the order of issue; a term or record operation
that has arrived is applied to its record and completes its destination. R67, R68: a K-step rounds the exact sum of D and its products
once to FP64; or rounds it to odd in E8M26, from C in a window's first step and from the partial after it, and a window's end rounds the
partial once to FP32; a group's K-step does so for every element, with its row of the A tile and its column. R197, R198, R199: a term
that arrives at its record is discarded if the record is opaque, retires at once if it is late, is buffered in key order, or makes the
smallest of nine retire; a radiance term retires by R198 and a log-sum term by R199. Where a clause goes beyond the rule's words it
follows the model's own reading or choice: log entries 19, 20, 49. -/
def Obligations.MatrixAndRecordsProceed : Prop :=
  ((
  (∀ (s : State) (k ty : Nat) (o : Op) (fa fb : BitVec 3) (gs : List MrGroup), InFlight s k o → o.k = .matrix ty fa fb gs →
    (engineTurn s o = true → exec (.matrixCompletion k) s = .next (settleTeam (teamOfG o.gk) (finishMatrix o ty fa fb gs s))) ∧
    (engineTurn s o = false → exec (.matrixCompletion k) s = .next s)) ∧
  (∀ (s : State) (k ty p k0 i kend : Nat) (o : Op) (gs : List MmGroup) (sets : List (Nat × Nat)), InFlight s k o →
    o.k = .mmas ty p k0 i kend gs sets → enginesRun s o.gk = true → engineTurn s o = true → i < kend →
    (∀ h ∈ mmHandles s gs, ∃ x, h = .some x ∧ x.err = false ∧ x.st = .full) →
    ∀ cols r w, cols = mmCols s ty i gs →
      r = gs.foldl (mmGroup ty i (decide ((i - k0) % p = 0)) (decide ((i - k0) % p = p - 1) || decide (i + 1 = kend))
        (cols.map (·.1)) (cols.map (·.2))) ([], 0, s) →
      w = gs.foldl (fun s m => orFpx m.gk r.2.1 s) (tick r.2.2) →
      exec (.mmasKStep k) s = .next (settleTeam (teamOfG o.gk)
        (if i + 1 = kend then endMmas o ty r.1 sets false w else setOp o.id (.mmas ty p k0 (i + 1) kend r.1 sets) w))) ∧
  (∀ (s : State) (k t : Nat) (o : Op) (ch : Option Nat) (r : RecOp), InFlight s k o → o.id = k → o.k = .rop t ch false r →
    s.mm.ops.any (arrivesFirst o) = false → (getTeam s t).st = .resident → firstHeld s t = .none →
    ∀ half, half = (if ch.isNone then halfOf s o.gk else 0) →
    exec (.recordOperationArrival k) s = .next (applyRec o t half r (dropOp k s)) ∧
    (∀ d rid off h lse, r = .copen d rid off h lse → aliveG s o.gk = true →
      exec (.recordOperationArrival k) s =
        .next (filled o false d (BitVec.ofNat 64 rid) (openRec t half rid off h lse (dropOp k s)))) ∧
    (∀ d rid i x, r = .cread d rid i → aliveG s o.gk = true → getRec s t half rid = .some x →
      exec (.recordOperationArrival k) s = .next (filled o false d (BitVec.ofNat 64 (fieldOf (recImage x) (8 * i) 8)) (dropOp k s)))) ∧
  (∀ (s : State) (k t : Nat) (o : Op) (ch : Option Nat) (r : RecOp), InFlight s k o → o.id = k → o.k = .rop t ch false r →
    s.mm.ops.any (arrivesFirst o) = false → (getTeam s t).st ≠ .resident → (getTeam s t).st ≠ .ended →
    (getTeam s t).st ≠ .queued →
    exec (.recordOperationArrival k) s = .next { s with mm := { s.mm with
      ops := (s.mm.ops.filter fun p => p.id != k) ++ [{ o with k := .rop t ch true r }] } }) ∧
  (∀ (s : State) (k n : Nat) (o : Op) (d : BitVec 6), InFlight s k o → o.k = .creplay d n →
    exec (.creplayCompletion k) s = .next (filled o false d (BitVec.ofNat 64 n) (dropOp k s)))
  ) ∧ (
  (∀ (sc : Int) (row col : List (Option Machine.Num)), (∀ x ∈ row, ∀ y, x = .some y → isFin y = true) →
    (∀ x ∈ col, ∀ y, x = .some y → isFin y = true) →
    (∀ (d : Nat) (x : ℝ), isFin (numOf fp64 d) = true → x = realOf (numOf fp64 d) + dotReal sc row col →
      (x ≠ 0 → RoundsTo fp64 .rne false x (stepD sc d row col)) ∧
      (x = 0 → stepD sc d row col = (fZero fp64 (zeroNeg .rne (numOf fp64 d :: terms sc row col)), 0))) ∧
    (∀ (c : Machine.Num) (x : ℝ), isFin c = true → x = realOf c + dotReal sc row col →
      (x ≠ 0 → RoundsToOdd e8m26 x (stepFrom c (terms sc row col))) ∧
      (x = 0 → stepFrom c (terms sc row col) = fZero e8m26 (zeroNeg .rne (c :: terms sc row col))))) ∧
  (∀ acc : Nat, isFin (numOf e8m26 acc) = true → realOf (numOf e8m26 acc) ≠ 0 →
    RoundsTo fp32 .rne false (realOf (numOf e8m26 acc)) (windowEnd acc)) ∧
  (∀ (sc : Int) (d : Nat) (row col : List (Option Machine.Num)) (c : Machine.Num),
    ((numOf fp64 d :: terms sc row col).any isNan = true → (stepD sc d row col).1 = fNaN fp64) ∧
    ((c :: terms sc row col).any isNan = true → stepFrom c (terms sc row col) = fNaN e8m26)) ∧
  (∀ (ty k e : Nat) (first last : Bool) (sb : List Int) (cols : List (List (Option Machine.Num))) (acc : List MmGroup × Flags × State) (m : MmGroup)
    (ha : Handle) (g : Grid) (sc : Int) (row col : List (Option Machine.Num)),
    getHandle acc.2.2 (teamOfG m.gk) m.ha = .some ha → g = getGrid acc.2.2 (gridOfG m.gk) →
    sc = slotScale (slotOf g.lr m.a.slot) + sb.getD (e % (mty ty).n) 0 → col = cols.getD (e % (mty ty).n) [] →
    row = ((List.range (mty ty).k).map fun x =>
      tileElem acc.2.2 (teamOfG m.gk) ha m.a ty (codebook g m.a.slot.toNat) (e / (mty ty).n) (k * (mty ty).k + x)) →
    e < (mty ty).m * (mty ty).n → ∀ r, r = mmGroup ty k first last sb cols acc m →
    (ty = 0 → ∀ n z, m.slot = .some n → getSlot acc.2.2 m.gk n = .some z → ∃ y, getSlot r.2.2 m.gk n = .some y ∧
      tget 0 e y.d = word (stepD sc (tget 0 e z.d).toNat row col).1) ∧
    (ty ≠ 0 → ∀ a, a = stepFrom (if first then numOf fp32 (tget 0 e m.cur).toNat else numOf e8m26 (tget 0 e m.acc).toNat)
        (terms sc row col) → ∃ y, r.1 = acc.1 ++ [y] ∧ r.2.2 = acc.2.2 ∧
      (last = false → tget 0 e y.acc = BitVec.ofNat 35 a) ∧ (last = true → tget 0 e y.cur = BitVec.ofNat 32 (windowEnd a).1)))
  ) ∧ (
  (∀ (t : Term) (vec : List (BitVec 32)) (r : Rec) (s : State),
    (isOpaque r = true → (arriveTerm t vec (r, s)).1 = false ∧
      (arriveTerm t vec (r, s)).2.1 = { r with w := tset 0 11 (rw r 11 + 1) r.w }) ∧
    (isOpaque r = false → (arriveTerm t vec (r, s)).1 = true ∧
      (hasRetired r = true → t.key.toNat < (rw r 5).toNat → ∀ x, x = ({ r with w := tset 0 7 (rw r 7 + 1) r.w } : Rec) →
        (arriveTerm t vec (r, s)).2 = if isLse r then retireLse true t vec (x, s) else retireRad true t (x, s)) ∧
      ((hasRetired r = false ∨ (rw r 5).toNat ≤ t.key.toNat) → isLse r = false →
        (r.buf.length < 8 → (arriveTerm t vec (r, s)).2 = ({ r with buf := insertTerm t r.buf }, s)) ∧
        (8 ≤ r.buf.length → ∀ u us, insertTerm t r.buf = u :: us →
          (arriveTerm t vec (r, s)).2 = retireRad false u ({ r with buf := us }, s))) ∧
      ((hasRetired r = false ∨ (rw r 5).toNat ≤ t.key.toNat) → isLse r = true →
        (r.buf.length < 8 → (arriveTerm t vec (r, s)).2 = bufferLse t vec (r, s)) ∧
        (8 ≤ r.buf.length → (∀ u ∈ r.buf, t.key.toNat < u.key.toNat) →
          (arriveTerm t vec (r, s)).2 = retireLse false t vec (r, s)) ∧
        (∀ u us, r.buf = u :: us → 8 ≤ r.buf.length → (∃ x ∈ r.buf, x.key.toNat ≤ t.key.toNat) →
          (arriveTerm t vec (r, s)).2 = bufferLse t vec (retire u ({ r with buf := us }, s)))))) ∧
  (∀ (late : Bool) (t : Term) (r : Rec) (s : State) (x : Rec) (w : BitVec 32), x = (retireRad late t (r, s)).1 →
    w = BitVec.ofNat 32 (nRound fp32 .rne false (nProd (f32 (rw r 3)) (f32 t.f0))).1 →
    rw x 0 = roundSum [f32 (rw r 0), nProd (f32 w) (f32 t.f1)] ∧ rw x 1 = roundSum [f32 (rw r 1), nProd (f32 w) (f32 t.f2)] ∧
    rw x 2 = roundSum [f32 (rw r 2), nProd (f32 w) (f32 t.f3)] ∧
    rw x 3 = roundSum [f32 (rw r 3), nNeg (nProd (f32 (rw r 3)) (f32 t.f0))] ∧
    rw x 5 = (if late then rw r 5 else t.key) ∧ (late = false → hasRetired x = true) ∧
    ((rw r 10).toNat < (rw r 9).toNat → rw x 10 = rw r 10 + 1 ∧
      stashRead (retireRad late t (r, s)).2 r.team ((rw r 8).toNat + 32 * (rw r 10).toNat) 32 =
        bytes32 [t.key, t.f0, t.f1, t.f2, t.f3, rw r 3, 0, 0]) ∧
    ((rw r 9).toNat ≤ (rw r 10).toNat → rw x 10 = rw r 10 ∧ (rw x 6).getLsbD 3 = true) ∧
    (lt32 (rw x 3) (rw r 4) = true → isOpaque x = true ∧ x.buf = [] ∧ rw x 11 = rw r 11 + BitVec.ofNat 32 r.buf.length) ∧
    (lt32 (rw x 3) (rw r 4) = false → isOpaque x = isOpaque r ∧ x.buf = r.buf ∧ rw x 11 = rw r 11) ∧
    (∀ i, i = 4 ∨ i = 7 ∨ i = 8 ∨ i = 9 → rw x i = rw r i)) ∧
  (∀ (late : Bool) (t : Term) (vec : List (BitVec 32)) (r : Rec) (s : State) (p : RS) (n ob : Nat), p = retireLse late t vec (r, s) →
    n = (rw r 4).toNat → ob = (rw r 8).toNat →
    rw p.1 5 = (if late then rw r 5 else t.key) ∧ (late = false → hasRetired p.1 = true) ∧ p.1.buf = r.buf ∧ isOpaque p.1 = isOpaque r ∧
    (isNan (f32 (rw r 0)) = true ∨ isNan (f32 t.f0) = true →
      rw p.1 0 = BitVec.ofNat 32 (fNaN fp32) ∧ rw p.1 1 = BitVec.ofNat 32 (fNaN fp32) ∧
      stashRead p.2 r.team ob (4 * n) = bytes32 (List.replicate n (BitVec.ofNat 32 (fNaN fp32)))) ∧
    (isNan (f32 (rw r 0)) = false → isNan (f32 t.f0) = false → ∀ mn a b, mn = (if lt32 (rw r 0) t.f0 then t.f0 else rw r 0) →
      a = (if eq32 (rw r 0) mn then 0x3F800000 else BitVec.ofNat 32 (exp2F32 (roundSum [f32 (rw r 0), nNeg (f32 mn)]).toNat).1) →
      b = (if eq32 t.f0 mn then 0x3F800000 else BitVec.ofNat 32 (exp2F32 (roundSum [f32 t.f0, nNeg (f32 mn)]).toNat).1) →
      rw p.1 0 = mn ∧ rw p.1 1 = roundSum [nProd (f32 a) (f32 (rw r 1)), nProd (f32 b) (f32 t.f1)] ∧
      stashRead p.2 r.team ob (4 * n) = bytes32 ((List.range n).map fun j =>
        roundSum [nProd (f32 a) (f32 ((words32 (stashRead s r.team ob (4 * n))).getD j 0)), nProd (f32 b) (f32 (vec.getD j 0))])))
  ))

/-- R207 to R213, R384, R385: a quarter regroups; an issue cycle counts itself and, unless it is withheld, chooses the first bundle of the
chosen tenant; a core raises its arrival bit once its teams have arrived and what it holds is performed, and the root then looks at every
bit. Where a clause goes beyond the rule's words it follows the model's own reading or choice: log entries 5, 8, 30. -/
def Obligations.SchedulingProceeds : Prop :=
  (∀ (s : State) (core q : Nat),
    (tget 0 (core * 4 + q) s.sc.cyc % 4 = 0 → exec (.regrouping core q) s = .next (regroup core q (refreshQuarter core q s))) ∧
    (tget 0 (core * 4 + q) s.sc.cyc % 4 ≠ 0 → exec (.regrouping core q) s = .next s)) ∧
  (∀ (s x u : State) (core q c : Nat), c = tget 0 (core * 4 + q) s.sc.cyc →
    x = refreshQuarter core q { s with sc := { s.sc with cyc := tset 0 (core * 4 + q) (c + 1) s.sc.cyc } } →
    u = (if c % 4 = 0 then standQuarter core q (regroup core q x) else x) →
    (withheld u core c = true → exec (.issueCycle core q) s = .next u) ∧
    (∀ r dcs z w, withheld u core c = false →
      chooseTenant u (core * 4 + q) (tenantsOf u core) ((candidates u core q).map fun b => vdevOfG u b.gk).eraseDups = (r, dcs, z) →
      w = { u with sc := { u.sc with dc := setDcs (core * 4 + q) dcs u.sc.dc, zlast := tset 0 (core * 4 + q) z u.sc.zlast } } →
      (r = .none → exec (.issueCycle core q) s = .next w) ∧
      (∀ v b, r = .some v → firstBundle w ((candidates u core q).filter fun b => vdevOfG u b.gk == v) = .some b →
        exec (.issueCycle core q) s = .next { ageBundle b (tget 0 (core * 4 + q) w.sc.cyc) w with
          sel := { b with ages := b.tids.map fun i => (i, (getThr w (threadKey b.gk i)).last) }
          sc := { w.sc with issues := w.sc.issues + 1 } }))) ∧
  (∀ (s u : State) (c core g : Nat), tget .none c s.rp.holder = .some g → tget false (c * 960 + core) s.rp.part = true →
    teamsOn s g core ≠ [] → (∀ t ∈ teamsOn s g core, teamArrived s t = true) → tget false (c * 960 + core) s.rp.forced = false →
    u = releaseCore core true true s →
    exec (.barrierArrivalBit c core) s = .next (flipRoot c g
      { u with rp := { u.rp with arr := tset false (c * 960 + core) (!tget false c u.rp.gen) u.rp.arr } }))

/-- R230, R319: a dirty L1 line writes back only its dirty bytes and becomes clean, and is held where no path leads to its home; a clean one
leaves with its superblock tag; a combining-buffer entry drains into the L1, which keeps the bytes that the entry does not hold. R312:
the directory's table. Where a clause goes beyond the rule's words it follows the model's own reading or choice: log entry 9. -/
def Obligations.CachesAndDirectory : Prop :=
  ((
  (∀ (s : State) (core line : Nat) (l : Line), findLine core line s.mm.l1 = .some l →
    (l.dirty = 0 → exec (.l1WriteBackBound core line) s = .next (evictTag core line s)) ∧
    (l.dirty = 0 → (∀ k ∈ s.mm.l1, k.core = core → k.line / 4 = line / 4 → k.dirty = 0) →
      exec (.l1WriteBackBound core line) s =
        .next { s with mm := { s.mm with l1 := s.mm.l1.filter fun k => !(k.core == core && k.line / 4 == line / 4) } }) ∧
    (l.dirty ≠ 0 → reachable s core (line * 128) = false → exec (.l1WriteBackBound core line) s = .next s) ∧
    (l.dirty ≠ 0 → l.data.length = 128 → reachable s core (line * 128) = true → ∃ t, exec (.l1WriteBackBound core line) s = .next t ∧
      t.mm.l1 = (s.mm.l1.map fun k => if k.core = core ∧ k.line = line then { k with dirty := 0, due := 0, bad := 0 } else k) ∧
      (∀ a, tget 0 a t.mm.mem = if line * 128 ≤ a ∧ a < line * 128 + 128 ∧ l.dirty.getLsbD (a - line * 128) = true
        then l.data.getD (a - line * 128) 0 else tget 0 a s.mm.mem) ∧
      tget {} line t.mm.dir = ⟨.m, dirBit (dieOf core), dieOf core⟩ ∧
      t.vreg = s.vreg ∧ t.pred = s.pred ∧ t.sreg = s.sreg ∧ t.qpred = s.qpred ∧ t.thr = s.thr ∧ t.grp = s.grp)) ∧
  (∀ (s : State) (core line : Nat) (e : Line), findLine core line s.mm.comb = .some e →
    (∀ l, findLine core line s.mm.l1 = .some l → ∃ t n, exec (.combiningBufferDrain core line) s = .next t ∧
      findLine core line t.mm.comb = .none ∧ t.mm.mem = s.mm.mem ∧
      findLine core line t.mm.l1 = .some n ∧ n.dirty = l.dirty ||| e.dirty ∧
        ∀ i < 128, n.data.getD i 0 = if e.dirty.getLsbD i = true then e.data.getD i 0 else l.data.getD i 0) ∧
    (findLine core line s.mm.l1 = .none → (∀ k ∈ s.mm.l1, coversFor core k = false) →
      ∃ t n, exec (.combiningBufferDrain core line) s = .next t ∧ findLine core line t.mm.comb = .none ∧ t.mm.mem = s.mm.mem ∧
        findLine core line t.mm.l1 = .some n ∧ n.dirty = e.dirty ∧
        ∀ i < 128, n.data.getD i 0 = if e.dirty.getLsbD i = true then e.data.getD i 0 else tget 0 (line * 128 + i) s.mm.mem))
  ) ∧ (
  (∀ (s : State) (r line : Nat) (e : DirEnt), e = tget {} line s.mm.dir →
    (e.st = .e ∨ e.st = .m → e.pres = dirBit e.owner) →
    ∃ t, exec (.directoryRead r line) s = .next t ∧ DirectoryGets s t line (afterRead r e)) ∧
  (∀ (s : State) (r line : Nat), ∃ t, exec (.directoryWrite r line) s = .next t ∧ DirectoryGets s t line ⟨.m, dirBit r, r⟩) ∧
  (∀ (s : State) (o line : Nat) (e : DirEnt), e = tget {} line s.mm.dir → e.owner = o →
    (e.st = .m → ∃ t, exec (.directoryWriteBack o line) s = .next t ∧ DirectoryGets s t line {}) ∧
    (e.st = .o → e.pres &&& ~~~dirBit o ≠ 0 → ∃ t, exec (.directoryWriteBack o line) s = .next t ∧
      DirectoryGets s t line ⟨.s, e.pres &&& ~~~dirBit o, 0⟩)) ∧
  (∀ (s : State) (r line : Nat) (e : DirEnt), e = tget {} line s.mm.dir → e.st = .e ∨ e.st = .s →
    (e.pres &&& dirBit r = 0 → exec (.evictionNotice r line) s = .next s) ∧
    (e.pres &&& dirBit r ≠ 0 → e.pres &&& ~~~dirBit r = 0 → ∃ t, exec (.evictionNotice r line) s = .next t ∧ (tget {} line t.mm.dir).st = .i) ∧
    (e.pres &&& ~~~dirBit r ≠ 0 → ∃ t, exec (.evictionNotice r line) s = .next t ∧
      DirectoryGets s t line { e with pres := e.pres &&& ~~~dirBit r }))
  ))

/-- R288 to R291: one walk caches its leaf and sets accessed; a fault record is written at FQ_TAIL's place while its ring has room; a retry
and a denial retire it, and a denied thread access will trap; an invalidation is done once the accesses that used the old translations
are and every line reached through them can go home (R319). Where a clause goes beyond the rule's words it follows the model's own
reading or choice: log entries 9, 13. -/
def Obligations.TranslationsAndFaultRecords : Prop :=
  (∀ (s : State) (asid page : Nat) (l : Leaf), page < 2 ^ 41 → (s.mm.xlat.any fun e => e.core == agentCore && e.asid == asid && e.page == page) = false →
    pendingRec s asid page = false → walk s asid (page * 65536) = .leaf l →
    exec (.pageWalk asid page) s =
      .next (setEntryBit l.at_ 4 { s with mm := { s.mm with xlat := s.mm.xlat ++ [⟨agentCore, asid, page, l⟩] } })) ∧
  (∀ (s : State) (k n h : Nat) (r : FRec), s.bd.frecs[k]? = .some r → r.seq = .none → n = tget 0 r.vdev s.bd.fseq →
    tget 0 r.vdev s.vf.fqTail = BitVec.ofNat 64 (h + (tget 0 r.vdev s.vf.fqHead).toNat) → h < 256 →
    ∃ t, exec (.faultRecordPost k) s = .next t ∧
      (tget 0 r.vdev t.vf.fqTail) = tget 0 r.vdev s.vf.fqTail + 1 ∧ (∀ v, v ≠ r.vdev → tget 0 v t.vf.fqTail = tget 0 v s.vf.fqTail) ∧
      t.vf.fqHead = s.vf.fqHead ∧ t.bd.frecs = s.bd.frecs.set k { r with seq := .some n } ∧
      tget 0 r.vdev t.bd.fseq = (n + 1) % 2 ^ 32 ∧ t.hs.irq = s.hs.irq ++ [(r.vdev, 1)] ∧
      pread t ((blockOf s r.vdev).savebase + 64 * ((tget 0 r.vdev s.vf.fqTail).toNat % 256)) 64 =
        bytesOf 8 (r.page * 65536) ++ bytesOf 2 r.asid ++ bytesOf 1 r.cause ++ [r.access] ++ bytesOf 4 n ++ List.replicate 48 0 ∧
      (∀ a, ¬ ((blockOf s r.vdev).savebase + 64 * ((tget 0 r.vdev s.vf.fqTail).toNat % 256) ≤ a ∧
          a < (blockOf s r.vdev).savebase + 64 * ((tget 0 r.vdev s.vf.fqTail).toNat % 256) + 64) → tget 0 a t.mm.mem = tget 0 a s.mm.mem)) ∧
  (∀ (s : State) (k h : Nat) (r : FRec), s.bd.frecs[k]? = .some r → 256 ≤ h → h < 2 ^ 64 →
    tget 0 r.vdev s.vf.fqTail = BitVec.ofNat 64 (h + (tget 0 r.vdev s.vf.fqHead).toNat) → exec (.faultRecordPost k) s = .next s) ∧
  (∀ (s : State) (v seq : Nat), exec (.fqDoneRetry v seq) s = .next { s with bd := { s.bd with
    frecs := s.bd.frecs.filter fun r => !(r.vdev == v && r.seq == .some seq) } }) ∧
  (∀ (s : State) (v seq : Nat), (∀ r ∈ s.bd.frecs, ¬ (r.vdev = v ∧ r.seq = .some seq)) → exec (.fqDoneDeny v seq) s = .next s) ∧
  (∀ (s : State) (v seq : Nat) (r : FRec), (s.bd.frecs.find? fun r => r.vdev == v && r.seq == .some seq) = .some r → r.cause = 1 →
    (s.thr.map Prod.fst).Nodup →
    ∃ t, exec (.fqDoneDeny v seq) s = .next t ∧ t.bd.frecs = (s.bd.frecs.filter fun r => !(r.vdev == v && r.seq == .some seq)) ∧
      ((s.mm.ops = [] ∧ s.vs.hostq = [] ∧ (∀ x, (getTeam s x).prog = .none) ∧ items s r.asid = []) →
        t.mm = s.mm ∧ t.vreg = s.vreg ∧ t.sreg = s.sreg ∧
        ∀ k, (getThr s k).wait = .page r.asid r.page → (getTeam s (teamOfG (k / 64))).st ≠ .evicted →
          (getTeam s (teamOfG (k / 64))).st ≠ .woken → getThr t k = { getThr s k with st := .ready, wait := .denied r.asid r.page })) ∧
  (∀ (s : State) (asid n lo : Nat), bitAt s.rg.invCtl 63 = true → asid = bits s.rg.invCtl 11 0 → n = bits s.rg.invCtl 31 12 →
    lo = bits s.rg.invAddr 56 16 →
    ((s.mm.ops.any (usesPages s asid lo n)) = true ∨ recallsAll s asid lo n = false → exec .invalidation s = .next s) ∧
    ((s.mm.ops.any (usesPages s asid lo n)) = false → recallsAll s asid lo n = true → ∃ t, exec .invalidation s = .next t ∧
      bitAt t.rg.invCtl 63 = false ∧ (∀ e ∈ t.mm.xlat, ¬ (e.asid = asid ∧ lo ≤ e.page ∧ e.page < lo + n)) ∧
      (∀ e ∈ s.mm.xlat, ¬ (e.asid = asid ∧ lo ≤ e.page ∧ e.page < lo + n) → e ∈ t.mm.xlat)))

/-- R293, R297, R301, R306, R316, R317, R394: in step 6 of the bring-up a region is created, re-read and destroyed, or the code says why not,
and its pool fields are read then; from step 3 on firmware writes MEM_SPLIT and ROUTE; the background copy takes the lowest pending sub-
block, and the reclaim walk frees the reclaimable copies of one page, the lowest first; MEM_SPLIT is ignored while an address space is
valid and holds 48 at most; a written route that differs gets the next generation, and a link that goes down loses its bit and flips the
pairs that used it. Where a clause goes beyond the rule's words it follows the model's own reading or choice: log entries 25, 32, 45. -/
def Obligations.RegionsAndRoutes : Prop :=
  (∀ (s : State) (r : Nat), linkEnabled s = true →
    (malformedRegion s r = true → exec (.regionCreate r) s = .next { s with rg := { s.rg with
      regionApply := BitVec.ofNat 64 r, regionStatus := 1 } }) ∧
    (malformedRegion s r = false → ∃ t, exec (.regionCreate r) s = .next t ∧ t = rereadPools r { s with
        rg := { s.rg with regionApply := BitVec.ofNat 64 r, regionStatus := 0 }
        bd := { s.bd with maps := tset .none r (.some (readMaps s r)) s.bd.maps } } ∧
      tget .none r t.bd.maps = .some (readMaps s r) ∧ ∀ k < 5, tget {} (r * 8 + k) t.bd.pools = readPool s r k)) ∧
  (∀ (s : State) (r : Nat), linkEnabled s = false → exec (.regionCreate r) s = .next s ∧ exec (.regionReread r) s = .next s ∧
    exec (.regionDestroy r) s = .next s) ∧
  (∀ (s : State) (r : Nat), (r = 0 ∨ eOpen s r = 0 ∨ ePub s r + 1 ≠ eOpen s r ∨ ePub s r < eFloor s r ∨ regionDepth s r = 0 ∨
    4 < regionDepth s r ∨ regionPages s r = 0 ∨ 2 ^ 20 < regionPages s r ∨ regionCat s r % 64 ≠ 0) → malformedRegion s r = true) ∧
  (∀ (s : State) (r : Nat), linkEnabled s = true →
    (r = 0 ∨ tget .none r s.bd.maps = .none → exec (.regionReread r) s = .next { s with rg := { s.rg with
      regionApply := BitVec.ofNat 64 (2 ^ 62 + r), regionStatus := 1 } }) ∧
    (r ≠ 0 → (tget .none r s.bd.maps).isSome → exec (.regionReread r) s = .next (reclaimRegion r (rereadPools r { s with
      rg := { s.rg with regionApply := BitVec.ofNat 64 (2 ^ 62 + r), regionStatus := 0 }
      bd := { s.bd with maps := tset .none r (.some (readMaps s r)) s.bd.maps } })))) ∧
  (∀ (s : State) (r : Nat), linkEnabled s = true → tget .none r s.bd.maps = .none → exec (.regionDestroy r) s = .next { s with rg :=
    { s.rg with regionApply := BitVec.ofNat 64 (2 * 2 ^ 62 + r), regionStatus := 1 } }) ∧
  (∀ (s : State) (r : Nat) (ms : List Mapping), linkEnabled s = true → tget .none r s.bd.maps = .some ms →
    (r = 0 ∨ ms ≠ [] → exec (.regionDestroy r) s = .next { s with rg := { s.rg with
      regionApply := BitVec.ofNat 64 (2 * 2 ^ 62 + r), regionStatus := 1 } }) ∧
    (r ≠ 0 → ms = [] → ((∃ i < regionPages s r, catPend s r i ≠ 0) ∨ poolWaiter s r = true) →
      exec (.regionDestroy r) s = .next { s with rg := { s.rg with
        regionApply := BitVec.ofNat 64 (2 * 2 ^ 62 + r), regionStatus := 2 } }) ∧
    (r ≠ 0 → ms = [] → (∀ i < regionPages s r, catPend s r i = 0) → poolWaiter s r = false →
      ∃ t, exec (.regionDestroy r) s = .next t ∧ t.rg.regionStatus = 0 ∧ tget .none r t.bd.maps = .none)) ∧
  (∀ (s : State) (r page k : Nat), k < 16 → catPend s r page / 2 ^ k % 2 = 1 → (∀ j < k, catPend s r page / 2 ^ j % 2 = 0) →
    exec (.backgroundSubblockCopy r page) s = .next (copySub r page k (pageCurrent s r page) s)) ∧
  (∀ (s : State) (r page : Nat), (∀ k < 16, catPend s r page / 2 ^ k % 2 = 0) → exec (.backgroundSubblockCopy r page) s = .next s) ∧
  (∀ (s : State) (r page : Nat), (catCount s r page = 0 → exec (.reclaimWalk r page) s = .next s) ∧
    (catCount s r page ≠ 0 → (∀ i < page, freeable s r i = false) →
      exec (.reclaimWalk r page) s = .next (reclaimPage r page (pageEdition s r page) s)) ∧
    ((∃ i < page, freeable s r i = true) → exec (.reclaimWalk r page) s = .next s)) ∧
  (∀ (s : State) (w : BitVec 64), s.hs.boot < 3 → exec (.memSplitWrite w) s = .next s ∧ exec (.routeWrite w) s = .next s) ∧
  (∀ (s : State) (w : BitVec 64), 3 ≤ s.hs.boot → ((∃ a < 4096, rdN s (s.rg.asBase.toNat + 16 * a) 1 % 2 = 1) → exec (.memSplitWrite w) s = .next s) ∧
    ((∀ a < 4096, rdN s (s.rg.asBase.toNat + 16 * a) 1 % 2 ≠ 1) → ∃ t, exec (.memSplitWrite w) s = .next t ∧
      t.rg.memSplit.toNat = min (w.toNat % 64) 48 ∧ t.mm = s.mm)) ∧
  (∀ (s : State) (w : BitVec 64), 3 ≤ s.hs.boot → ∃ t, exec (.routeWrite w) s = .next t ∧
    (bits t.rg.route 15 0 = bits s.rg.route 15 0 → t.rg.route = s.rg.route) ∧
    (bits t.rg.route 15 0 ≠ bits s.rg.route 15 0 → bits t.rg.route 63 48 = (bits s.rg.route 63 48 + 1) % 65536) ∧
    bits t.rg.route 15 12 = bits w 15 12 ∧
    (bits w 15 12 = 15 → bits t.rg.route 5 0 = bits w 5 0)) ∧
  (∀ (s : State) (l : Nat), l < 4 → bitAt s.rg.route (12 + l) = true → ∃ t, exec (.linkDown l) s = .next t ∧
    bits t.rg.route 63 48 = (bits s.rg.route 63 48 + 1) % 65536 ∧ bits t.rg.route 15 12 = bits s.rg.route 15 12 - 2 ^ l ∧
    (∀ i < 6, bitAt t.rg.route i =
      (bitAt s.rg.route i ^^ (pairPath (diePairs.getD i (0, 1)) (bitAt s.rg.route i)).contains l)) ∧
    bitAt t.rg.mgmtCause 0 = true) ∧
  (∀ (s : State) (l : Nat), ¬ (l < 4 ∧ bitAt s.rg.route (12 + l) = true) → exec (.linkDown l) s = .next s)

/-- R270, R271, R273, R277, R278, R282: the distributor of a served context places its first item, or, with none to place and none to evict,
waits for a slice; the quantum of a device that runs, ending with another device waiting, switches every resident team out (an idle or
itself waiting device has none to end); the next render context gets the turn, and those that share its cores leave them; a published
counter is a multiple of 4096 and the latch before it is what guests read. Where a clause goes beyond the rule's words it follows the
model's own reading or choice: log entries 4, 22. -/
def Obligations.TenantsShareCores : Prop :=
  (∀ (s u w : State) (v : Nat) (i : Item) (is : List Item), servedCtx s v = true → u = fillEntries v s →
    sliceOn u (vdevOf s v) = true → switchedOut u (vdevOf s v) = [] → items u v = i :: is → contextTurn u v = true →
    (placeItem v i u = .done w → exec (.distributorPlacement v) s = .next { takeTurn v w with
      vs := { (takeTurn v w).vs with waiting := (takeTurn v w).vs.waiting.erase (vdevOf s v) } }) ∧
    (placeItem v i u = .hold w → exec (.distributorPlacement v) s = .next w) ∧
    (placeItem v i u = .no → victims u (vdevOf s v) = [] → heldByOther u (vdevOf s v) = true →
      u.vs.waiting.contains (vdevOf s v) = false →
      exec (.distributorPlacement v) s = .next { u with vs := { u.vs with waiting := u.vs.waiting ++ [vdevOf s v] } }) ∧
    (placeItem v i u = .no → victims u (vdevOf s v) = [] → heldByOther u (vdevOf s v) = false →
      exec (.distributorPlacement v) s = .next u)) ∧
  (∀ (s : State) (v : Nat), servedCtx s v = true → sliceOn (fillEntries v s) (vdevOf s v) = false →
    exec (.distributorPlacement v) s = .next (fillEntries v s)) ∧
  (∀ (s : State) (v : Nat), servedCtx s v = false → exec (.distributorPlacement v) s = .next s) ∧
  (∀ (s : State) (v : Nat), residentOf s v = [] ∨ v ∈ s.vs.waiting ∨ (∀ w ∈ s.vs.waiting, w = v ∨ coresMeet s w v = false) →
    exec (.sliceEnd v) s = .next s) ∧
  (∀ (s : State) (v w : Nat) (before after : List Nat), s.vs.waiting = before ++ w :: after → w ≠ v → coresMeet s w v = true →
    (∀ x ∈ before, x = v ∨ coresMeet s x v = false) → w ∉ before → v ∉ before → v ∉ after → residentOf s v ≠ [] → TabWf {} s.team →
    ∃ u, exec (.sliceEnd v) s = .next ((switchedOut u w).foldl returnTeam u) ∧ u.vs.waiting = before ++ after ++ [v] ∧
      (∀ k ∈ residentOf s v, getTeam u k = { getTeam s k with st := .switchedOut }) ∧
      ∀ k, k ∉ residentOf s v → getTeam u k = getTeam s k) ∧
  (∀ (s : State) (v : Nat), liveContexts s v = [] → exec (.renderContextSwitch v) s = .next s) ∧
  (∀ (s : State) (v c : Nat), nextContext (tget 0 v s.vs.rcur) (liveContexts s v) = .some c →
    ∃ u, exec (.renderContextSwitch v) s = .next (((switchedOut u v).filter fun t => (getTeam u t).ctx == c).foldl returnTeam u) ∧
      tget 0 v u.vs.rcur = c ∧ (TabWf {} s.team → ∀ k ∈ residentOf s v, 64 ≤ (getTeam s k).ctx → (getTeam s k).ctx ≠ c →
        coresMeet s c (getTeam s k).ctx = true → getTeam u k = { getTeam s k with st := .switchedOut })) ∧
  (∀ (s : State) (die : Nat) (r : Nat × Nat), die < 4 → r ∈ resources die → ∃ t, exec (.counterPublish die) s = .next t ∧
    tget 0 ((die * 8 + r.1) * 65536 + r.2) t.vs.latch1 % 4096 = 0 ∧
    tget 0 ((die * 8 + r.1) * 65536 + r.2) t.vs.latch1 = tget 0 ((die * 8 + r.1) * 65536 + r.2) t.vs.cnt / 4096 * 4096 ∧
    tget 0 ((die * 8 + r.1) * 65536 + r.2) t.vs.latch2 = tget 0 ((die * 8 + r.1) * 65536 + r.2) s.vs.latch1)

/-- R274, R279: a configuration block is applied, or refused with the code of the first check it fails, and the previous one then stands.
R391, R392: a tail write takes the entries up to it, in order, or is ignored; the oldest held completion is written at CQ_TAIL's place
while the ring has room. Where a clause goes beyond the rule's words it follows the model's own reading or choice: log entries 22, 25,
26, 43. -/
def Obligations.ConfigurationAndHostQueues : Prop :=
  ((
  (∀ (s : State) (w : BitVec 64), s.hs.boot < 6 → exec (.vdevApply w) s = .next s) ∧
  (∀ (s : State) (w : BitVec 64) (v : Nat) (bs : List Byte) (b : VBlock) (code : Nat), 6 ≤ s.hs.boot → v = w.toNat % 64 →
    bs = pread s (s.rg.vdevBase.toNat + 256 * v) 256 → b = parseBlock bs →
    code = (if malformedBlock s bs b = true ∨ pbad s (s.rg.vdevBase.toNat + 256 * v) 256 = true then 4
      else if overlapBlock s v b = true then 2 else if busyBlock s v b = true then 3 else if b.quantum < minQuantum b then 1 else 0) →
    exec (.vdevApply w) s = .next { s with
      rg := { s.rg with vdevApply := BitVec.ofNat 64 v, vdevStatus := BitVec.ofNat 64 (minQuantum b * 2 ^ 32 + code) }
      vs := if code = 0 then { s.vs with vb := tset .none v (.some b) s.vs.vb } else s.vs }) ∧
  (∀ (s : State) (w : BitVec 64) (r at_ : Nat) (new : Option RBlock) (code : Nat), r = w.toNat % 1024 →
    at_ = s.rg.rctxBase.toNat + 64 * r → new = parseRctx (pread s at_ 64) →
    code = (if pbad s at_ 64 = true ∨ reservedRctx (pread s at_ 64) = true ∨ (∃ b, new = .some b ∧ malformedRctx s b = true) then 4
      else if (∃ p ∈ s.team, p.2.ctx = 64 + r ∧ (p.2.st = .resident ∨ isSaved p.2 = true)) ∧ tget .none r s.vs.rb ≠ new then 3 else 0) →
    exec (.rctxApply w) s = .next { s with
      rg := { s.rg with rctxApply := BitVec.ofNat 64 r, rctxStatus := BitVec.ofNat 64 code }
      vs := if code = 0 then { s.vs with rb := tset .none r new s.vs.rb } else s.vs })
  ) ∧ (
  (∀ (s : State) (x j val : Nat), val ≤ (tget 0 (x * 4 + j) s.vf.hqTail).toNat ∨ doorbellOk s x = false →
    exec (.hqTailWrite x j val) s = .next s) ∧
  (∀ (s : State) (x j val old : Nat), doorbellOk s x = true → j < 4 → old = (tget 0 (x * 4 + j) s.vf.hqTail).toNat → old < val →
    val < 2 ^ 64 → (tget [] (x * 4 + j) s.vs.hostq).length + (val - old) ≤ 256 →
    exec (.hqTailWrite x j val) s = .next ((List.range (val - old)).foldl (fun s i => takeEntry x j s (old + i))
      { s with vf := { s.vf with hqTail := tset 0 (x * 4 + j) (BitVec.ofNat 64 val) s.vf.hqTail } })) ∧
  (∀ (s : State) (x j i : Nat), ∃ it, tget [] (x * 4 + j) (takeEntry x j s i).vs.hostq = tget [] (x * 4 + j) s.vs.hostq ++ [it] ∧
    it.tok = nextHostTok s (vdevOf s x) ∧ tget 0 (x * 4 + j) (takeEntry x j s i).vf.hqHead = BitVec.ofNat 64 (i + 1)) ∧
  (∀ (s : State) (x : Nat), tget [] x s.vf.held = [] → exec (.completionEntryWrite x) s = .next s) ∧
  (∀ (s : State) (x h at_ : Nat) (c : CEnt) (cs : List CEnt), tget [] x s.vf.held = c :: cs →
    tget 0 x s.vf.cqTail = BitVec.ofNat 64 (h + (tget 0 x s.vf.cqHead).toNat) →
    at_ = (tget 0 x s.vf.cqBase).toNat + 16 * ((tget 0 x s.vf.cqTail).toNat % 256) →
    (256 ≤ h → h < 2 ^ 64 → exec (.completionEntryWrite x) s = .next s) ∧
    (h < 256 → ∃ t, exec (.completionEntryWrite x) s = .next t ∧ tget [] x t.vf.held = cs ∧
      tget 0 x t.vf.cqTail = tget 0 x s.vf.cqTail + 1 ∧ t.vf.cqHead = s.vf.cqHead ∧
      t.hs.irq = s.hs.irq ++ [(vdevOf s x, if x < 64 then 0 else 2)] ∧
      pread t at_ 4 = bytesOf 4 c.tok ∧ pread t (at_ + 4) 2 = bytesOf 2 c.status ∧
      pread t (at_ + 6) 1 = [if c.trig.isSome then 1 else 0] ∧ pread t (at_ + 7) 1 = bytesOf 1 (c.trig.getD 0) ∧
      pread t (at_ + 8) 8 = List.replicate 8 0 ∧
      ∀ a, ¬ (at_ ≤ a ∧ a < at_ + 16) → tget 0 a t.mm.mem = tget 0 a s.mm.mem))
  ))

/-- R325, R326, R331 to R334: an offered event forms one pair for each attachment that takes it, queued or counted as dropped; a slot runs
its owner's oldest pair, or suspends an owner whose budget is short; a window refills the budgets; a drain waits for the earlier pairs.
That a `summary` event (class 10), which occurs on no virtual device's behalf, passes R326's fourth condition for every owner is read
from R325, where any tenant may attach to it (log entry 16). R326 to R328, R333, R335: a tenant entry or an attachment is applied with
code 0, or refused with the code of its fault; a program that is replaced or detached leaves its queued pairs as fifo drops. Where a
clause goes beyond the rule's words it follows the model's own reading or choice: log entry 16. -/
def Obligations.GlossUnitsRun : Prop :=
  ((
  (∀ (s : State) (die : Nat) (e : GlossEvent), (∀ k a, k < 64 → ¬ Takes (getUnit s die) e k a) →
    ∃ t, exec (.glossEventOffer die e) s = .next t ∧ UnitBecomes s t die (getUnit s die)) ∧
  (∀ (s : State) (die : Nat) (e : GlossEvent) (k : Nat) (a : Att) (x : Ten) (u : GUnit), u = getUnit s die → k < 64 → Takes u e k a →
    (∀ j b, j < 64 → Takes u e j b → j = k) → tget .none a.owner u.ten = .some x →
    (tget false a.owner u.susp = true → ∃ t, exec (.glossEventOffer die e) s = .next t ∧
      UnitBecomes s t die { u with budg := tset 0 k (tget 0 k u.budg + 1) u.budg }) ∧
    (tget false a.owner u.susp = false → bitAt s.rg.flrCtl 63 = false →
      (x.quota ≤ queuedOf u a.owner → ∃ t, exec (.glossEventOffer die e) s = .next t ∧
        UnitBecomes s t die { u with fifo := tset 0 k (tget 0 k u.fifo + 1) u.fifo }) ∧
      (queuedOf u a.owner < x.quota → ∃ t, exec (.glossEventOffer die e) s = .next t ∧
        UnitBecomes s t die { u with q := u.q ++ [⟨u.nextPair, e, k⟩], nextPair := u.nextPair + 1 }))) ∧
  (∀ (s : State) (die o : Nat) (u : GUnit), u = getUnit s die → o = slotOwner s die (u.slot % 16) → bitAt s.rg.flrCtl 63 = false →
    ((64 < o ∨ tget false o u.susp = true ∨ ∀ p ∈ u.q, ownerOf u p.k ≠ o) → ∃ t, exec (.glossSlot die) s = .next t ∧
      t.gsel = s.gsel ∧ UnitBecomes s t die { u with slot := (u.slot + 1) % 16 }) ∧
    (∀ before p after, u.q = before ++ p :: after → ownerOf u p.k = o → (∀ x ∈ before, ownerOf u x.k ≠ o) → o ≤ 64 →
      tget false o u.susp = false →
      (tget 0 o u.left < lenOf u p.k → ∃ t, exec (.glossSlot die) s = .next t ∧ t.gsel = s.gsel ∧
        tget false o (getUnit t die).susp = true ∧ (getUnit t die).slot = (u.slot + 1) % 16 ∧
        (getUnit t die).q = u.q.filter (fun x => ownerOf u x.k != o)) ∧
      (lenOf u p.k ≤ tget 0 o u.left → ∃ t, exec (.glossSlot die) s = .next t ∧ t.gsel = .some die ∧
        (getUnit t die).run = .some ⟨p.k, 0⟩ ∧ (getUnit t die).slot = (u.slot + 1) % 16 ∧
        (getUnit t die).q = u.q.filter (fun x => x.n != p.n) ∧
        tget 0 0 (getUnit t die).g = 0 ∧ tget 0 1 (getUnit t die).g = p.e.a ∧ tget 0 2 (getUnit t die).g = p.e.b ∧
        tget 0 3 (getUnit t die).g = p.e.src ∧
        tget 0 4 (getUnit t die).g = BitVec.ofNat 32 (p.e.asid.toNat + 4096 * (p.e.vdev % 64)) ∧
        tget 0 5 (getUnit t die).g = BitVec.ofNat 32 (tget 0 p.k u.fifo + tget 0 p.k u.budg) ∧
        ∀ a, tget .none p.k u.att = .some a → tget 0 6 (getUnit t die).g = a.param))) ∧
  (∀ (s : State) (die : Nat), ∃ t, exec (.glossBudgetWindow die) s = .next t ∧ (getUnit t die).susp = [] ∧
    (∀ o x, ((getUnit s die).ten.map Prod.fst).Nodup → (o, .some x) ∈ (getUnit s die).ten → tget 0 o (getUnit t die).left = x.budget)) ∧
  (∀ (s : State) (die : Nat) (u : GUnit), u = getUnit s die → (∀ p ∈ u.q, p.n < u.nextPair) →
    (u.run = .none ∧ u.q = [] → ∃ t, exec (.glossDrain die) s = .next t ∧ (getUnit t die).drain = .none) ∧
    (u.run ≠ .none ∨ u.q ≠ [] → exec (.glossDrain die) s = .next (setUnit die { u with drain := .some u.nextPair } s)))
  ) ∧ (
  (∀ (s : State) (die i a : Nat) (bs : List Byte) (t : Ten) (u : GUnit), i ≤ 64 → u = getUnit s die →
    a = (tget 0 die s.rg.glossTab).toNat + 32 * i → bs = pread s a 32 → pbad s a 32 = false →
    t = { budget := fieldOf bs 0 4, wbase := fieldOf bs 4 4, wlog := fieldOf bs 8 1, quota := fieldOf bs 9 1
          trigs := (List.range 16).map fun j => parseTrig (pread s (fieldOf bs 16 8 + 16 * j) 16) } →
    ((∃ j x, j ≠ i ∧ (j, .some x) ∈ u.ten ∧ t.wbase < x.wbase + 2 ^ x.wlog ∧ x.wbase < t.wbase + 2 ^ t.wlog) →
      exec (.glossApplyTenant die i) s = .next (glossDone die 0 i 3 s)) ∧
    ((∀ p ∈ u.ten, p.1 = i ∨ p.2 = .none) → t.quota ≤ 256 →
      (¬ TenantFits t bs → exec (.glossApplyTenant die i) s = .next (glossDone die 0 i 4 s)) ∧
      (TenantFits t bs → exec (.glossApplyTenant die i) s = .next (glossDone die 0 i 0 (setUnit die { u with
        ten := tset .none i (.some t) u.ten
        left := tset 0 i (if (tget .none i u.ten).isSome then min (tget 0 i u.left) t.budget else t.budget) u.left
        disarmed := tdrop (fun k => k / 16 == i) u.disarmed } s))))) ∧
  (∀ (s : State) (die i at_ : Nat), at_ = (tget 0 die s.rg.glossTab).toNat + 32 * (65 + i) → pbad s at_ 32 = false →
    (attachCode s i (pread s at_ 32) ≠ 0 →
      exec (.glossAttach die i) s = .next (glossDone die 1 i (attachCode s i (pread s at_ 32)) s)) ∧
    (attachCode s i (pread s at_ 32) = 0 → ∃ t a, exec (.glossAttach die i) s = .next t ∧
      tget 0 die t.rg.glossStatus = 0 ∧ tget .none i (getUnit t die).att = .some a ∧
      a.valid = true ∧ a.len = fieldOf (pread s at_ 32) 8 1 ∧ a.cls = fieldOf (pread s at_ 32) 9 1 ∧
      a.owner = fieldOf (pread s at_ 32) 10 1 ∧ a.param.toNat = fieldOf (pread s at_ 32) 16 4 ∧
      (∀ w < a.len, tget 0 (i * 64 + w) (getUnit t die).code = BitVec.ofNat 32 (rdN s (fieldOf (pread s at_ 32) 0 8 + 4 * w) 4)) ∧
      tget 0 i (getUnit t die).runs = 0 ∧ tget 0 i (getUnit t die).fifo = 0 ∧ tget 0 i (getUnit t die).budg = 0 ∧
      t.mm = s.mm)) ∧
  (∀ (s : State) (k len cls o : Nat) (bs : List Byte), len = fieldOf bs 8 1 → cls = fieldOf bs 9 1 → o = fieldOf bs 10 1 →
    (1 ≤ len → len ≤ 64 → (∃ i < len, glossWordOk len i (BitVec.ofNat 32 (rdN s (fieldOf bs 0 8 + 4 * i) 4)) = false) →
      attachCode s k bs = 1) ∧
    (len = 0 → mayAttach s cls o = true → attachCode s k bs = 4)) ∧
  (∀ (s : State) (die i : Nat) (u : GUnit) (a : Att), u = getUnit s die → i < 64 → tget .none i u.att = .some a →
    ∃ t, exec (.glossDetach die i) s = .next t ∧ tget 0 die t.rg.glossStatus = 0 ∧
      tget .none i (getUnit t die).att = .some { a with valid := false } ∧
      tget 0 i (getUnit t die).fifo = tget 0 i u.fifo + (u.q.filter fun p => p.k == i).length ∧
      (getUnit t die).q = u.q.filter (fun p => p.k != i) ∧ t.mm = s.mm)
  ))

/-- R346, R349, R350, R351, R367, R374: a port that trains inside the profile comes up; a peer's request is performed or refused as its entry
says; a peer's answer completes the request it answers, and a refusal completes a load FAULT and is counted; a port that goes down loses
what is in flight through it; a message is taken, held back or discarded and counted. Where a clause goes beyond the rule's words it
follows the model's own reading or choice: log entries 4, 25, 27, 35, 40. -/
def Obligations.PeersAreServed : Prop :=
  (∀ (s : State) (p : Nat), (∀ q, q ≠ p → tget 0 q (peerError p s).rg.peerErr = tget 0 q s.rg.peerErr) ∧
    tget 0 p (peerError p s).rg.peerErr = min (tget 0 p s.rg.peerErr + 1) 0xFFFFFFFF ∧ bitAt (peerError p s).rg.mgmtCause 3 = true ∧
    (peerError p s).mm = s.mm ∧ (64, 0) ∈ (peerError p s).hs.irq) ∧
  (∀ (s : State) (port : Nat) (ok : Bool), port < 16 → 4 ≤ s.hs.boot → ∃ t, exec (.linkTraining port ok) s = .next t ∧ portUp t port = ok ∧
    ∀ q, q ≠ port → portUp t q = portUp s q) ∧
  (∀ (s : State) (r : PeerReq), bitAt s.rg.ckptCtl 63 = false → portUp s r.port = true →
    (peerMay s r = false → exec (.ualinkInboundRequest r) s = .next (reply r.peer .none s)) ∧
    (∀ n, r.op = .read n → peerMay s r = true → s.mm.wrapped = [] → pbad s r.pa n = false →
      exec (.ualinkInboundRequest r) s = .next (reply r.peer (.some (pread s r.pa n)) s)) ∧
    (∀ d, r.op = .write d → peerMay s r = true → s.mm.wrapped = [] → ∃ t, exec (.ualinkInboundRequest r) s = .next t ∧
      t.pk.replies = s.pk.replies ++ [(r.peer, .some [])] ∧ pread t r.pa d.length = d ∧
      ∀ a, ¬ (r.pa ≤ a ∧ a < r.pa + d.length) → tget 0 a t.mm.mem = tget 0 a s.mm.mem)) ∧
  (∀ (s : State) (r : PeerReq) (e : Nat), e = peerIn s r.peer → (match r.op with
    | .read _ => nb e 0 0 | .write _ => nb e 1 1 | .atomic _ _ _ _ => nb e 2 2) = 0 ∨ r.pa < nb e 63 28 * 65536 ∨
      nb e 99 64 * 65536 + 65536 < r.pa + reqBytes r.op → peerMay s r = false) ∧
  (∀ (s : State) (k peer port : Nat) (o : Op), InFlight s k o → o.id = k → peerWait s o = .some (peer, port) →
    (∀ p data bs, o.k = .rstore p data → portUp s port = true → peerPorts s peer ≠ 0 → exec (.peerAcknowledgement k (.done bs)) s = .next (dropOp k s)) ∧
    (∀ p data, o.k = .rstore p data → exec (.peerAcknowledgement k .refused) s = .next (dropOp k (peerError peer s))) ∧
    (∀ u d q p va bs, o.k = .rload u d q [p] va .none .none → isPeer p.pa = true → portUp s port = true → peerPorts s peer ≠ 0 →
      bs.length = p.len → aliveG s o.gk = true → exec (.peerAcknowledgement k (.done bs)) s =
        .next (checked o u q true (filled o u d (BitVec.ofNat 64 (natOf bs)) (dropOp k s)))) ∧
    (∀ u d q p va bs first cs bad, o.k = .rload u d q [p] va .none (.some (first, cs, bad)) → isPeer p.pa = true → portUp s port = true →
      peerPorts s peer ≠ 0 → bs.length = p.len → aliveG s o.gk = true → exec (.peerAcknowledgement k (.done bs)) s =
        .next (checked o u q true (if bad then faulted o u d va (dropOp k s)
          else filled o u d (BitVec.ofNat 64 (natOf (if first then cs ++ bs else bs ++ cs))) (dropOp k s)))) ∧
    (∀ u d q ps va atom served r, o.k = .rload u d q ps va atom served → r = .refused ∨ r = .unreachable → aliveG s o.gk = true →
      exec (.peerAcknowledgement k r) s = .next (checked o u q true (faulted o u d va (dropOp k (peerError peer s))))) ∧
    (inReset s (vdevOf s (ctxOf s o.gk)) = true → exec (.peerDrainTimeout k) s = .next (peerError peer (dropOp k s))) ∧
    (inReset s (vdevOf s (ctxOf s o.gk)) = false → exec (.peerDrainTimeout k) s = .next s)) ∧
  (∀ (s : State) (port : Nat), portUp s port = true → (∀ o ∈ s.mm.ops, ∀ p, peerWait s o ≠ .some (p, port)) →
    (∀ o ∈ s.mm.ops, peerWait { s with pk := { s.pk with portUp := tset false port false s.pk.portUp } } o = peerWait s o) →
    exec (.ualinkPortDown port) s =
      .next (raiseMgmt 1 { s with pk := { s.pk with portUp := tset false port false s.pk.portUp } })) ∧
  (∀ (s : State) (port : Nat), portUp s port = false → exec (.ualinkPortDown port) s = .next s) ∧
  (∀ (s : State) (m : PeerMsg), bitAt s.rg.ckptCtl 63 = false → m.m < 64 → m.data.length ≤ 4096 →
    (linked s m.peer = false → exec (.ualinkMessageArrival m) s = .next s) ∧
    (linked s m.peer = true → takesFrom s m.peer m.vdev = false → exec (.ualinkMessageArrival m) s = .next (peerError m.peer s)) ∧
    (∀ k a, linked s m.peer = true → takesFrom s m.peer m.vdev = true → freeSlot (tget [] (m.vdev * 64 + m.m) s.pk.inbox) = .some k →
      a = inboxAt s m.vdev m.m k → ∃ t, exec (.ualinkMessageArrival m) s = .next t ∧
      tget [] (m.vdev * 64 + m.m) t.pk.inbox = tget [] (m.vdev * 64 + m.m) s.pk.inbox ++ [⟨m.peer, k, m.data.length⟩] ∧
      pread t a m.data.length = m.data ∧ ∀ x, ¬ (a ≤ x ∧ x < a + m.data.length) → tget 0 x t.mm.mem = tget 0 x s.mm.mem) ∧
    (linked s m.peer = true → takesFrom s m.peer m.vdev = true → freeSlot (tget [] (m.vdev * 64 + m.m) s.pk.inbox) = .none →
      exec (.ualinkMessageArrival m) s = .next s))

/-- R352 to R354, R356: a halo command reads its face and streams it out; a face that arrives is held, held back, or discarded and counted;
an all-reduce command whose members have contributed writes the tree's result and completes; completions leave in the order of
completion. Where a clause goes beyond the rule's words it follows the model's own reading or choice: log entry 28. -/
def Obligations.EnginesExchangeAndReduce : Prop :=
  (∀ (s u v : State) (die : Nat) (c : Cmd) (sh : Shape) (ch : Nat × Nat × Nat × Nat) (bs : List Byte) (bad : List Nat),
    getHalo die s = [c] → putHalo die [c] s = s → (getGrid s (gridOfG c.gk)).status = .none → c.done = .none → c.rd = .none →
    haloBad c.data = false → c.bad = [] → sendPart c = true → recvPart c = false → engReady s c.wait = true →
    cmdShape c.gk (fieldOf c.data 8 2) false s = (.ok sh, u) → cmdChan u c.gk (fieldOf c.data 12 1) true = .some ch →
    isOwn u ch.1 = false → portUp u ch.2.2.2 = true → peerPorts u ch.1 ≠ 0 →
    readShape c.gk (recOf u c.gk) (passOver sh) (shapeBytes (recOf u c.gk) sh) 0 [] [] u = (.all bs bad, v) → getHalo die v = [c] →
    ∃ t, exec (.haloCommand die) s = .next t ∧
      getHalo die t = [{ c with wait := .none, rd := .some bs.length, face := .some v.mm.nextId }] ∧
      t.pk.faceOut = v.pk.faceOut ++ [(ch.2.2.1, ⟨ownId v, die, ch.2.1, fieldOf c.data 4 4, bs, bad⟩)]) ∧
  (∀ (s : State) (die : Nat) (c : Cmd), getHalo die s = [c] → putHalo die [c] s = s → (getGrid s (gridOfG c.gk)).status = .none →
    c.done = .none → haloBad c.data = true ∨ c.bad ≠ [] → engReady s c.wait = true →
    ∃ t, exec (.haloCommand die) s = .next t ∧ getHalo die t = [{ c with done := .some (1, c.rd.getD c.seen, c.wrote) }]) ∧
  (∀ (s : State) (die : Nat) (f : Face), bitAt s.rg.ckptCtl 63 = false →
    (linked s f.peer = false → exec (.haloFaceArrival die f) s = .next s) ∧
    (linked s f.peer = true → takesFrom s f.peer f.vdev = false → exec (.haloFaceArrival die f) s = .next (peerError f.peer s)) ∧
    (linked s f.peer = true → takesFrom s f.peer f.vdev = true → (tget [] die s.pk.faces).length < 16 ∨ awaits s die f = true →
      exec (.haloFaceArrival die f) s =
        .next { s with pk := { s.pk with faces := tset [] die (tget [] die s.pk.faces ++ [f]) s.pk.faces } }) ∧
    (linked s f.peer = true → takesFrom s f.peer f.vdev = true → 16 ≤ (tget [] die s.pk.faces).length → awaits s die f = false →
      exec (.haloFaceArrival die f) s = .next s)) ∧
  (∀ (s u v w x z : State) (die g own : Nat) (cs : List Contribution) (c y : Cmd) (sa sb : Shape) (ms : List Member) (xs : List Contrib)
      (bs : List Byte) (bad : List Nat),
    getColl die s = [c] → putColl die [c] s = s → (getGrid s (gridOfG c.gk)).status = .none → c.done = .none → c.res = .none → c.stat = 0 →
    c.wrote = 0 → collBad c.data = false → c.bad = [] → engReady s c.wait = true → g = fieldOf c.data 12 1 →
    cmdShape c.gk (fieldOf c.data 8 2) false s = (.ok sa, u) → cmdShape c.gk (fieldOf c.data 10 2) true u = (.ok sb, v) →
    kindIs v c.gk sa (collKind (fieldOf c.data 3 1)) = true → kindIs v c.gk sb (collKind (fieldOf c.data 3 1)) = true →
    collGroup v (vdevOf s (ctxOf s c.gk)) g = .some ms → hasId v = true → ⟨ownId v, vdevOf s (ctxOf s c.gk), die⟩ ∈ ms →
    contribs cs (vdevOf s (ctxOf s c.gk)) g (fieldOf c.data 4 4) 0 ms v = (xs, w) → combineAll xs = .some (0, bs, bad) →
    own = (((ms.zip (xs.map Contrib.read)).find? fun m => m.1 == ⟨ownId v, vdevOf s (ctxOf s c.gk), die⟩).map (·.2)).getD 0 →
    spread (ms.zip (xs.map Contrib.read)) g (fieldOf c.data 4 4) (0, bs, bad) w = x → bs.length = shapeBytes (recOf x c.gk) sb →
    writeShape c.gk (recOf x c.gk) (passOver sb) bs bad (bs.length + 1) 0 x = (.all bs bad, z) → getColl die z = [y] →
    ∃ t d, exec (.allReduceCommand die cs) s = .next t ∧ getColl die t = [d] ∧
      d.done = .some (0, own, bs.length) ∧ d.data = c.data ∧ t.mm = z.mm) ∧
  (∀ (op ty k : Nat) (xs : List Word), xs ≠ [] → xs.length ≤ 2 ^ k → (k = 0 ∨ 2 ^ (k - 1) < xs.length) → k ≤ 6 →
    collElem op ty xs = treeLevel (collOp op ty) (fun r => if r < xs.length then xs.getD r 0 else collIdent op ty) k 0) ∧
  (∀ (x y : Word), collOp 0 2 x y = x + y ∧ collOp 1 2 x y = (if x.slt y then x else y) ∧ collOp 2 2 x y = (if y.slt x then x else y)) ∧
  (∀ (s : State) (die : Nat) (before after : List Cmd) (c : Cmd) (st rd wr : Nat), (∀ x ∈ before, x.done = .none) →
    c.done = .some (st, rd, wr) →
    (getHalo die s = before ++ c :: after → ∃ t, exec (.engineCompletion die false) s = .next t ∧ getHalo die t = before ++ after ∧
      tget [] die t.pk.hdone = tget [] die s.pk.hdone ++ [⟨c.team, st, BitVec.ofNat 64 (fieldOf c.data 16 8), rd, wr⟩]) ∧
    (getColl die s = before ++ c :: after → ∃ t, exec (.engineCompletion die true) s = .next t ∧ getColl die t = before ++ after ∧
      tget [] die t.pk.cdone = tget [] die s.pk.cdone ++ [⟨c.team, st, BitVec.ofNat 64 (fieldOf c.data 16 8), rd, wr⟩]))

/-- R373, R374: an audit flit carries the credits returned, and the transmitter restores the ones it has missed; a failed lane group takes a
spare or the link down; a replay is counted, and the eighth of one flit without success takes a die-to-die link down. Where a clause goes
beyond the rule's words it follows the model's own reading or choice: log entries 4, 5, 27, 45. -/
def Obligations.LinksAuditAndReplay : Prop :=
  (∀ (s : State) (l : Nat), ∃ t n m, exec (.auditFlitSend l) s = .next t ∧ m ≤ n ∧
    tget 0 l t.pk.credY = (tget 0 l s.pk.credY + n) % 2 ^ 32 ∧ tget [] l t.pk.audits = tget [] l s.pk.audits ++ [(tget 0 l t.pk.credY, m)] ∧
    t.pk.avail = s.pk.avail ∧ t.pk.credR = s.pk.credR ∧ t.mm = s.mm) ∧
  (∀ (s : State) (l y m d got : Nat) (r : List (Nat × Nat)), tget [] l s.pk.audits = (y, m) :: r → y < 2 ^ 32 →
    got = (tget 0 l s.pk.credR + m) % 2 ^ 32 →
    (∃ t, exec (.auditFlitReceive l false) s = .next t ∧ tget [] l t.pk.audits = r ∧ tget 0 l t.pk.avail = tget 0 l s.pk.avail + m ∧
      tget 0 l t.pk.credR = got ∧ t.rg = s.rg ∧ t.pk.retries = s.pk.retries) ∧
    ((got + d) % 2 ^ 32 = y → d < 2 ^ 32 →
      ∃ t, exec (.auditFlitReceive l true) s = .next t ∧ tget [] l t.pk.audits = r ∧
        tget 0 l t.pk.avail = tget 0 l s.pk.avail + m + d ∧ tget 0 l t.pk.credR = y ∧
        bits (tget 0 (linkOf l) t.rg.linkErr) 31 0 = (bits (tget 0 (linkOf l) s.rg.linkErr) 31 0 + d) % 2 ^ 32 ∧
        bits (tget 0 (linkOf l) t.rg.linkErr) 63 32 = bits (tget 0 (linkOf l) s.rg.linkErr) 63 32 ∧ t.pk.retries = s.pk.retries)) ∧
  (∀ (s : State) (l : Nat), linkOf l < 4 →
    (tget 0 l s.pk.spares < 2 → exec (.laneGroupFailure l) s = .next { s with pk := { s.pk with
      spares := tset 0 l (tget 0 l s.pk.spares + 1) s.pk.spares } }) ∧
    (2 ≤ tget 0 l s.pk.spares → exec (.laneGroupFailure l) s = exec (.linkDown (linkOf l)) s)) ∧
  (∀ (s : State) (l : Nat), 4 ≤ linkOf l → exec (.laneGroupFailure l) s = exec (.ualinkPortDown (linkOf l - 4)) s) ∧
  (∀ (s : State) (l n : Nat) (ok : Bool), n = tget 0 l s.pk.retries + 1 → ok = (pick [false, true] false s).1 →
    ∃ t, exec (.flitReplay l) s = .next t ∧
      (ok = true ∨ n < 8 ∨ 8 ≤ l → t.rg.route = s.rg.route ∧ t.mm = s.mm ∧ tget 0 l t.pk.retries = (if ok then 0 else n) ∧
        bits (tget 0 (linkOf l) t.rg.linkErr) 63 32 = (bits (tget 0 (linkOf l) s.rg.linkErr) 63 32 + 1) % 2 ^ 32) ∧
      (ok = false → 8 ≤ n → l < 8 → tget 0 l t.pk.retries = 0 ∧ bitAt t.rg.route (12 + linkOf l) = false))

/-- R366, R367, R368 to R372, R379: a function-level reset that has nothing left to drain stops and scrubs its device and clears busy; a
retired core moves onto a spare, or dies when none is left, and the next retirement that may start does; the planner keeps the voltage of
a unit whose slack is 20 or more, raises it by 10 once, to +50 at most, where the slack is 12 to 19, raises it by 10 and reads again
where the slack is below 12 and the voltage below +50, until one of the two ends, and retires a unit whose slack is below 12 at +50.
Where a clause goes beyond the rule's words it follows the model's own reading or choice: log entries 23, 24, 37. -/
def Obligations.ResetsAndRetirements : Prop :=
  (∀ (s : State), bitAt s.rg.flrCtl 63 = false ∨ (s.hs.flrWaits = true ∧ bitAt s.rg.ckptCtl 63 = true) →
    exec .functionLevelReset s = .next s) ∧
  (∀ (s : State) (v : Nat), v < 64 → bitAt s.rg.flrCtl 63 = true → s.hs.flrWaits = false ∨ bitAt s.rg.ckptCtl 63 = false →
    v = bits s.rg.flrCtl 5 0 →
    (undrained (stopDevice v s) v = true → exec .functionLevelReset s = .next (stopDevice v s)) ∧
    (undrained (stopDevice v s) v = false → ∃ t, exec .functionLevelReset s = .next t ∧ bitAt t.rg.flrCtl 63 = false ∧
      (∀ r ∈ t.bd.frecs, r.vdev ≠ v) ∧ (∀ e ∈ t.mm.xlat, e.asid ≠ v) ∧ (∀ l ∈ t.mm.l1, l.ctx ≠ v) ∧
      (∀ m < 64, tget [] (v * 64 + m) t.pk.inbox = []) ∧ tget [] (v * 4) t.vs.hostq = [] ∧ t.vs.vb = s.vs.vb)) ∧
  (∀ (s : State), bitAt s.rg.coreRetire 63 = false → exec .coreRetirement s = .next s) ∧
  (∀ (s : State) (core n : Nat), bitAt s.rg.coreRetire 63 = true → core = bits s.rg.coreRetire 9 0 → core < 960 →
    tget false core s.rp.dead = false → n = bits (tget 16 (dieOf core) s.rg.marginLog) 7 0 → occupants s core = [] → s.rp.moves = [] →
    (n ≠ 0 → ∃ t, exec .coreRetirement s = .next t ∧ tget .none core t.rp.phys = .some (256 - n) ∧
      bits (tget 16 (dieOf core) t.rg.marginLog) 7 0 = n - 1 ∧ bitAt t.rg.coreRetire 63 = false ∧ tget false core t.rp.dead = false ∧
      ((∀ l ∈ s.mm.l1 ++ s.mm.comb, l.core ≠ core) → t.mm = s.mm)) ∧
    (n = 0 → ∃ t, exec .coreRetirement s = .next t ∧ tget false core t.rp.dead = true ∧ bitAt t.rg.mgmtCause 5 = true ∧
      bitAt t.rg.coreRetire 63 = false ∧ ((∀ l ∈ s.mm.l1 ++ s.mm.comb, l.core ≠ core) → s.team = [] → t.mm = s.mm))) ∧
  (∀ (s : State) (core c : Nat) (before cs : List Nat), bitAt s.rg.coreRetire 63 = true → core = bits s.rg.coreRetire 9 0 → 960 ≤ core →
    s.rp.moves = before ++ c :: cs → (∀ b ∈ before, mayRetire s b = false) → c < 960 → tget false c s.rp.dead = false →
    ∃ t, exec .coreRetirement s = .next t ∧ t.rp.moves = cs ∧ bitAt t.rg.coreRetire 63 = true ∧ bits t.rg.coreRetire 9 0 = c) ∧
  (∀ (s : State) (die : Nat) (us : List Canary), die < 4 → (∀ c ∈ us, (planUnit 7 c.slack (tget 0 (unitKey s die c) s.rp.volt)).2 = false) →
    ∃ t, exec (.marginPlan die us) s = .next t ∧ bits (tget 16 die t.rg.marginLog) 7 0 = bits (tget 16 die s.rg.marginLog) 7 0 ∧
      bits (tget 16 die t.rg.marginLog) 15 8 = 0 ∧
      (∀ c, us = [c] → tget 0 (unitKey s die c) t.rp.volt = (planUnit 7 c.slack (tget 0 (unitKey s die c) s.rp.volt)).1)) ∧
  (∀ (r v n : Nat), 20 ≤ r → planUnit (n + 1) [r] v = (v, false)) ∧
  (∀ (r v n : Nat), 12 ≤ r → r < 20 → planUnit (n + 1) [r] v = (min 50 (v + 10), false)) ∧
  (∀ (r v n : Nat) (rest : List Nat), r < 12 → 50 ≤ v → planUnit (n + 1) (r :: rest) v = (50, true)) ∧
  (∀ (r q v n : Nat) (rest : List Nat), r < 12 → v < 50 →
    planUnit (n + 1) (r :: q :: rest) v = planUnit n (q :: rest) (min 50 (v + 10)) ∧
    (20 ≤ q → planUnit (n + 2) (r :: q :: rest) v = (min 50 (v + 10), false)) ∧
    (12 ≤ q → q < 20 → planUnit (n + 2) (r :: q :: rest) v = (min 50 (v + 20), false)) ∧
    (q < 12 → 40 ≤ v → planUnit (n + 2) (r :: q :: rest) v = (50, true))) ∧
  (∀ (r v : Nat), r < 12 → planUnit 7 [r] v = (50, true))

/-- R364, R365, R380, R381: a detected error is counted, and an uncorrectable one marks its word or makes its register FAULT; a scrubbed line
keeps its marks; a checkpoint puts every byte of memory at its place in the tier, and a restore brings it back. Where a clause goes
beyond the rule's words it follows the model's own reading or choice: log entries 29, 34. -/
def Obligations.ErrorsAndCheckpoints : Prop :=
  (∀ (s : State) (e : SoftErr), e.corr = true → ∃ t, exec (.softError e) s = .next t ∧ OnlyRegisters s t ∧
    bits (tget 0 (errAt s e).1 t.rg.eccLog) 47 16 = min (bits (tget 0 (errAt s e).1 s.rg.eccLog) 47 16 + 1) (2 ^ 32 - 1) ∧
    bits (tget 0 (errAt s e).1 t.rg.eccLog) 63 48 = bits (tget 0 (errAt s e).1 s.rg.eccLog) 63 48 ∧
    ∀ d, d ≠ (errAt s e).1 → tget 0 d t.rg.eccLog = tget 0 d s.rg.eccLog) ∧
  (∀ (s : State) (e : SoftErr) (pa core line off : Nat),
    (e.place = .hbm pa → errAt s e = (homeDie s pa, sliceOf pa / 16)) ∧ (e.place = .l1 core line off → errAt s e = (dieOf core, core))) ∧
  (∀ (s : State) (e : SoftErr), e.corr = false →
    (∀ tk r, e.place = .vreg tk r → (getThr s tk).st ≠ .exited → ∃ t, exec (.softError e) s = .next t ∧
      getV t tk r = { getV s tk r with st := .fault 0 0 } ∧ (∀ k q, (k, q) ≠ (tk, r) → getV t k q = getV s k q) ∧ t.mm = s.mm) ∧
    (∀ pa, e.place = .hbm pa → isHbm pa = true → ∃ t, exec (.softError e) s = .next t ∧ t.mm.mem = s.mm.mem ∧
      ∀ a, a / 32 = pa / 32 → pbad t a 1 = true) ∧
    (∀ die w, e.place = .gloss die w → ∃ t, exec (.softError e) s = .next t ∧ tget 0 w (getUnit t die).mem = 0) ∧
    (∃ t, exec (.softError e) s = .next t ∧
      bits (tget 0 (errAt s e).1 t.rg.eccLog) 63 48 = min (bits (tget 0 (errAt s e).1 s.rg.eccLog) 63 48 + 1) 65535 ∧
      bits (tget 0 (errAt s e).1 t.rg.eccLog) 15 12 = errUnit e.place ∧
      bits (tget 0 (errAt s e).1 t.rg.eccLog) 11 0 = (errAt s e).2 % 4096)) ∧
  (∀ (s : State) (line : Nat), exec (.patrolScrub line) s = .next s) ∧
  (∀ (s : State), ckptRuns s false = false → exec .checkpointSave s = .next s) ∧
  (∀ (s : State), ckptRuns s true = false → exec .checkpointRestore s = .next s) ∧
  (∀ (s : State), ckptRuns s false = true → residents s = [] → s.mm.comb = [] → s.mm.l1 = [] → s.mm.wrapped = [] →
    Memory.wf s.mm.mem → TabWf false s.mm.bad →
    ∃ t, exec .checkpointSave s = .next t ∧ bitAt t.rg.ckptCtl 63 = false ∧
      (∀ a < hostBase, tget 0 a t.mm.mem = tget 0 a s.mm.mem ∧ tget 0 (tierAt s + a) t.mm.mem = tget 0 a s.mm.mem) ∧
      (∀ a, hostBase ≤ a → ¬ (tierAt s ≤ a ∧ a < tierAt s + hostBase) → tget 0 a t.mm.mem = tget 0 a s.mm.mem)) ∧
  (∀ (s : State), ckptRuns s true = true → residents s = [] → Memory.wf s.mm.mem → s.mm.comb = [] → s.mm.l1 = [] →
    tget .none (tierAt s) s.hs.snaps = .none →
    ∃ t, exec .checkpointRestore s = .next t ∧ bitAt t.rg.ckptCtl 63 = false ∧
      (∀ a < hostBase, tget 0 a t.mm.mem = tget 0 (tierAt s + a) s.mm.mem) ∧
      (∀ a, hostBase ≤ a → tget 0 a t.mm.mem = tget 0 a s.mm.mem) ∧ t.mm.l1 = [] ∧ t.mm.dir = [])

/-- R394 to R398: a module reset starts the first image that the boot ROM accepts, or stays in recovery; a key is loaded and cleared when
KEY_CTL asks for it; measurements and sensors are answered; an accepted firmware image waits for the next reset. Where a clause goes
beyond the rule's words it follows the model's own reading or choice: log entries 4, 25, 31, 37. -/
def Obligations.FirmwareAndKeys : Prop :=
  (∀ (s : State), (∀ n i, tget .none n s.hs.images = .some i → imageOk s i = false) → s.hs.pend = .none →
    ∃ t, exec .moduleReset s = .next t ∧ t.hs.recovery = true ∧ t.hs.boot = State.reset.hs.boot ∧ measured t 1 = .none) ∧
  (∀ (s : State) (i : FwImage), s.hs.pend = .none → tget .none s.hs.active s.hs.images = .some i → imageOk s i = true →
    ∃ t, exec .moduleReset s = .next t ∧ t.hs.boot = 2 ∧ t.hs.running = s.hs.active ∧ measured t 1 = .some i.digest ∧ s.hs.fuses ≤ t.hs.fuses ∧
      t.vreg = State.reset.vreg ∧ t.sreg = State.reset.sreg ∧ t.team = State.reset.team ∧ t.rg.powerLimit = State.reset.rg.powerLimit ∧
      t.hs.keys = State.reset.hs.keys) ∧
  (∀ (s : State) (i : Nat), i < 4096 → linkEnabled s = true → bitAt s.rg.keyCtl 63 = true → bits s.rg.keyCtl 11 0 = i → bitAt s.rg.ckptCtl 63 = false →
    (bits s.rg.keyCtl 62 61 = 0 → ∃ t, exec (.keyLoad i) s = .next t ∧
      tget .none i t.hs.keys = .some (Config.unwrapKey (keyWords s)) ∧ bitAt t.rg.keyCtl 63 = false ∧
      ∀ j, j ≠ i → tget .none j t.hs.keys = tget .none j s.hs.keys) ∧
    (bits s.rg.keyCtl 62 61 = 1 → ∃ t, exec (.keyClear i) s = .next t ∧ tget .none i t.hs.keys = .none ∧ bitAt t.rg.keyCtl 63 = false ∧
      ∀ j, j ≠ i → tget .none j t.hs.keys = tget .none j s.hs.keys)) ∧
  (∀ (s : State) (i : Nat), bitAt s.rg.keyCtl 63 = false → exec (.keyLoad i) s = .next s ∧ exec (.keyClear i) s = .next s) ∧
  (∀ (s : State) (i : Nat) (d : BitVec 384), measured s i = .some d → exec (.spdmRequest i) s =
    .next { s with hs := { s.hs with spdmOut := s.hs.spdmOut ++ [(i, d)] } }) ∧
  (∀ (s : State) (i : Nat) (x : Word), sensorValue s i = .some x → ∃ t, exec (.pldmMonitoring i) s = .next t ∧
    t.hs.pldmOut = s.hs.pldmOut ++ [(i, x)] ∧ t.rg = s.rg ∧ t.mm = s.mm) ∧
  (∀ (s : State) (img : FwImage), (imageOk s img = false → exec (.pldmFirmwareUpdate img) s = .next s) ∧
    (imageOk s img = true → s.hs.active ≤ 1 → ∃ t, exec (.pldmFirmwareUpdate img) s = .next t ∧
      tget .none (1 - s.hs.active) t.hs.images = .some img ∧
      tget .none s.hs.active t.hs.images = tget .none s.hs.active s.hs.images ∧ measured t 1 = measured s 1 ∧ t.hs.pend = .some (1 - s.hs.active) ∧ t.hs.active = s.hs.active ∧
      t.hs.running = s.hs.running)) ∧
  (∀ (s : State), exec .mainSideOff s = .next { s with hs := { s.hs with mainOff := true } })

/-- R276, R389 to R391, R399, R401: power and temperature; the host's accesses to memory go as the connection matrix lets them; a register
write takes its writable bits, and a read of the host returns the register's value. Where a clause goes beyond the rule's words it
follows the model's own reading or choice: log entries 21, 25, 30. -/
def Obligations.PowerAndHostAccess : Prop :=
  (∀ (s : State) (est : List Nat) (w : Nat), w < 64 →
    (est.foldl (· + ·) 0) * (64 - w) * 100 ≤ 64 * bits s.rg.powerLimit 15 0 * (100 - 5 * overheat s) →
    (∀ v < w, ¬ (est.foldl (· + ·) 0) * (64 - v) * 100 ≤ 64 * bits s.rg.powerLimit 15 0 * (100 - 5 * overheat s)) →
    ∃ t, exec (.powerManagerUpdate est) s = .next t ∧ (∀ d < 4, tget 0 d t.hs.wh = w) ∧ bits t.rg.powerStat 23 16 = w ∧
      t.mm = s.mm ∧ t.thr = s.thr) ∧
  (∀ (s : State) (w : BitVec 64), ∃ t, exec (.powerLimitWrite w) s = .next t ∧ OnlyRegisters s t ∧
    t.rg = { s.rg with powerLimit := t.rg.powerLimit } ∧
    t.rg.powerLimit.toNat = max 1000 (min 3600 (w.toNat % 65536))) ∧
  (∀ (s : State) (die temp : Nat), ∃ t, exec (.thermalCap die temp) s = .next t ∧ tget 0 die t.hs.temp = temp ∧
    (100 < temp → bitAt t.rg.powerStat 24 = true) ∧ ((∀ p ∈ s.hs.temp, p.2 ≤ 100) → temp ≤ 100 → bitAt t.rg.powerStat 24 = false) ∧
    (110 ≤ temp → t.hs.stopped = true ∧ t.hs.stopCause = .some die) ∧ (temp < 110 → t.hs.stopped = s.hs.stopped)) ∧
  (∀ (s : State) (die temp : Nat), 110 ≤ temp → ∃ t, exec (.thermalShutdown die temp) s = .next t ∧ t.hs.stopped = true ∧
    t.hs.stopCause = .some die) ∧
  (∀ (s : State) (r : HostReq), 6 ≤ s.hs.boot → s.mm.wrapped = [] →
    (∀ d, r.wr = .some d → ingressOk s r.die r.pa d.length = true → ∃ t, exec (.hostIngressAccess r) s = .next t ∧
      pread t r.pa d.length = d ∧ t.hs.hostReads = s.hs.hostReads ∧
      ∀ a, ¬ (r.pa ≤ a ∧ a < r.pa + d.length) → tget 0 a t.mm.mem = tget 0 a s.mm.mem) ∧
    (r.wr = .none → ingressOk s r.die r.pa r.len = true → exec (.hostIngressAccess r) s =
      .next { s with hs := { s.hs with hostReads := s.hs.hostReads ++ [pread s r.pa r.len] } }) ∧
    (∀ d, r.wr = .some d → ingressOk s r.die r.pa d.length = false → exec (.hostIngressAccess r) s = .next s)) ∧
  (∀ (s : State) (x : BitVec 64), exec (.registerWrite ⟨.none, 0x20, 8, .some x⟩) s = exec (.memSplitWrite x) s ∧
    exec (.registerWrite ⟨.none, 0x28, 8, .some x⟩) s = exec (.routeWrite x) s) ∧
  (∀ (s : State) (o : Nat) (x : BitVec 64), s.hs.boot < 6 → o ≠ 0x20 → o ≠ 0x28 → o ≠ 0x88 ∨ s.hs.boot < 4 →
    exec (.registerWrite ⟨.none, o, 8, .some x⟩) s = .next s) ∧
  (∀ (s : State) (x : BitVec 64), linkEnabled s = true → exec (.registerWrite ⟨.none, 0x98, 8, .some x⟩) s = exec (.powerLimitWrite x) s ∧
    exec (.registerWrite ⟨.none, 0x40, 8, .some x⟩) s = exec (.vdevApply x) s ∧
    exec (.registerWrite ⟨.none, 0x00, 8, .some x⟩) s = .next { s with rg := { s.rg with asBase := x &&& 0x000FFFFFFFFFFFFF } } ∧
    (∃ t, exec (.registerWrite ⟨.none, 0x80, 8, .some x⟩) s = .next t ∧ t.rg.mgmtCause = s.rg.mgmtCause &&& ~~~x) ∧
    (∀ o w, w ≠ 8 ∨ o % 8 ≠ 0 → exec (.registerWrite ⟨.none, o, w, .some x⟩) s = .next s)) ∧
  (∀ (s : State), exec (.registerWrite ⟨.none, 0x98, 8, .none⟩) s =
    .next { s with hs := { s.hs with hostReads := s.hs.hostReads ++ [bytesOf 8 s.rg.powerLimit.toNat] } }) ∧
  (∀ (s : State) (p : Nat), p < 1024 → exec (.registerWrite ⟨.none, 0x8000 + 4 * p, 4, .none⟩) s =
    .next { s with hs := { s.hs with hostReads := s.hs.hostReads ++ [bytesOf 4 (tget 0 p s.rg.peerErr)] } })

/-- R22, R24, R28, R33, R34, R203, R213: a step of a running module in which a chosen bundle fetches words that decode to an instruction is
that instruction's execution, at its address, by the threads that may issue, followed by what every issue and every step settles; a Gloss
run's step is the instruction of its code store; a step of the machine's own agenda is that event; and a module whose main side does not
run takes no step but those of the side-band port and of a reset. Where a clause goes beyond the rule's words it follows the model's own
reading or choice: log entries 3, 12, 18. -/
def Obligations.StepRunsInstruction : Prop :=
  (∀ (s s' : State) (i : Nat) (ts : List Nat) (x : Sel) (ws : List (BitVec 32)) (d : Decoded) (y : Thr), halted s = false → s.gsel = .none → x = s.sel →
    x.tids ≠ [] → issuers { s with sel := {} } x = i :: ts → y = getThr s (threadKey x.gk i) →
    fetchInstr x.gk (!y.sys) (i :: ts) y.pc { s with sel := {} } = (.ok ws, s') → decodeWords ws = .ok d →
    step s = after (exec d.ins (withCur x (i :: ts) y.pc (y.pc + BitVec.ofNat 64 d.bytes) d.guard (insWord ws) (clearTgt x.gk s')))) ∧
  (∀ (s : State) (die : Nat) (i : Instr), halted s = false → s.gsel = .some die → decodeGloss (glossFetch s die) = .ok i →
    step s = after (exec i s)) ∧
  (∀ (s : State) (i : Instr) (r : List Instr), halted s = false → s.gsel = .none → s.sel.tids = [] → s.agenda = i :: r →
    step s = after (exec i { s with agenda := r })) ∧
  (∀ (s : State), halted s = true → s.agenda = [] → step s = .fault .moduleStopped) ∧
  (∀ (s : State) (r : List Instr), halted s = true → s.agenda = .moduleReset :: r →
    step s = after (exec .moduleReset { s with agenda := r }))

/-- R27, R31, R33, R44, R45, R125, R336: words that the spec's tables of encoded lines give decode to the instructions of those lines. Where
a clause goes beyond the rule's words it follows the model's own reading or choice: log entry 36. -/
def Obligations.WordsDecode : Prop :=
  decodeWords [0x1A28A008] = .ok ⟨.none, .addI64Imm 5 ⟨5, .plain⟩ 8, 4⟩ ∧
  decodeWords [0x1E30DC00] = .ok ⟨.none, .addI32SatImm 6 ⟨6, .trap⟩ 0x400, 4⟩ ∧
  decodeWords [0x7EC00000, 0x1A28A008] = .ok ⟨.some (3, false), .addI64Imm 5 ⟨5, .plain⟩ 8, 8⟩ ∧
  decodeWords [0x4A202130, 0x0C000000] = .ok ⟨.none, .fmaD 4 ⟨1, .last⟩ ⟨2, .keep⟩ ⟨3, .plain⟩ ⟨.rne, false⟩, 8⟩ ∧
  decodeWords [0x38BFFFFD] = .ok ⟨.none, .bra 2 true 0x1FFFFD, 4⟩ ∧
  decodeWords [0x58384000, 0x00300040] = .ok ⟨.none, .ld 7 ⟨2, .plain⟩ ⟨.g, .d, .hn, 64⟩, 8⟩ ∧
  decodeWords [0x98080005] = .ok ⟨.none, .fence .rel .die, 4⟩ ∧
  decodeWords [0xA2000001] = .ok ⟨.none, .rett, 4⟩ ∧
  decodeGloss 0x625C0000 = .ok (.ghist 9 7 0)

/-- R62, R170, R291, R306, R316, R332, R365, R372, R380, R399: what reset leaves, where the spec gives it: no launch, no virtual device, no
translation; MEM_SPLIT 24; ROUTE 0xF02A; every Gloss slot idle; POWER_LIMIT 3600 W; 16 spares on every die; nothing busy and nothing
logged. -/
def Obligations.ResetState : Prop :=
  State.reset.team = [] ∧ State.reset.grid = [] ∧ State.reset.mm.mem = [] ∧ State.reset.mm.xlat = [] ∧ State.reset.mm.ops = [] ∧
  State.reset.rg.memSplit = 24 ∧ State.reset.rg.route = 0xF02A ∧ State.reset.rg.powerLimit = 3600 ∧ State.reset.rg.invCtl = 0 ∧
  State.reset.rg.flrCtl = 0 ∧ State.reset.rg.coreRetire = 0 ∧ State.reset.rg.ckptCtl = 0 ∧ State.reset.rg.mgmtCause = 0 ∧
  (∀ d, tget (-1) d State.reset.rg.slots0 = -1 ∧ tget (-1) d State.reset.rg.slots1 = -1 ∧ tget 0 d State.reset.rg.eccLog = 0 ∧
    bits (tget 16 d State.reset.rg.marginLog) 7 0 = 16) ∧
  (∀ p, tget 0 p State.reset.rg.peerErr = 0) ∧ (∀ v, enabledV State.reset v = false) ∧
  (∀ g, (getGrp State.reset g).fpx = 0) ∧ (∀ c, tget .none c State.reset.rp.holder = .none) ∧ linkEnabled State.reset = false

/-- The invariant holds at reset (R306, R399; the memory's canonical form is the model's own). -/
def Obligations.ResetIsSound : Prop :=
  Sound State.reset

/-- R28, R29, R33, R335: what the encoder makes of any well-formed instruction decodes to that instruction, of its length, whatever words
follow. Where a clause goes beyond the rule's words it follows the model's own reading or choice: log entry 36. -/
def Obligations.DecodeEncode : Prop :=
  ∀ i, Laws.RoundTrip.Statement i

/-- R306, R399: no step leaves the sound states: memory stays in its canonical form (the model's own), POWER_LIMIT within 1000 W to 3600 W,
the interleaved share at most 48 units. -/
def Obligations.StepKeepsSound : Prop :=
  ∀ s t, Sound s → step s = .next t → Sound t
end

