-- ==== Sys2Proof/Laws/Table.lean ====
section
/-! SUPPORT. The laws of the sparse tables: what is read after a write, and that every operation keeps the canonical form. -/

namespace Sys2Proof.Machine

variable {α : Type}

/-! ## Reading after writing -/

theorem tget_terase_same (d : α) (k : Nat) (t : Tab α) : tget d k (terase k t) = d := by
  induction t with
  | nil => rfl
  | cons p t ih =>
    by_cases h : p.1 = k
    · simpa [terase, List.filter, h] using ih
    · have hb : (p.1 != k) = true := by simpa using h
      simp only [terase, List.filter, hb, tget]
      simp only [terase] at ih
      rw [if_neg h, ih]

theorem tget_terase_ne (d : α) {j k : Nat} (h : j ≠ k) (t : Tab α) : tget d j (terase k t) = tget d j t := by
  induction t with
  | nil => rfl
  | cons p t ih =>
    by_cases hp : p.1 = k
    · have : ¬ p.1 = j := fun e => h (e ▸ hp)
      simpa [terase, List.filter, hp, tget, Ne.symm h] using ih
    · have hb : (p.1 != k) = true := by simpa using hp
      simp only [terase, List.filter, hb, tget]
      simp only [terase] at ih
      rw [ih]

theorem tget_tput_same (d v : α) (k : Nat) (t : Tab α) : tget d k (tput k v t) = v := by
  induction t with
  | nil => simp [tput, tget]
  | cons p t ih =>
    unfold tput
    split
    · simp [tget]
    · split
      · simp [tget]
      · rename_i h1 h2
        simpa [tget, h2] using ih

theorem tget_tput_ne (d v : α) {j k : Nat} (h : j ≠ k) (t : Tab α) : tget d j (tput k v t) = tget d j t := by
  induction t with
  | nil => simp [tput, tget, Ne.symm h]
  | cons p t ih =>
    unfold tput
    split
    · simp [tget, Ne.symm h]
    · split
      · rename_i h2
        simp [tget, Ne.symm h, h2]
      · simp [tget, ih]

/-- A key reads what was last written to it. -/
@[simp] theorem tget_tset_same [DecidableEq α] (d v : α) (k : Nat) (t : Tab α) : tget d k (tset d k v t) = v := by
  unfold tset
  split
  · rename_i h; rw [tget_terase_same, h]
  · exact tget_tput_same d v k t

/-- A write leaves every other key alone. -/
theorem tget_tset_ne [DecidableEq α] (d v : α) {j k : Nat} (h : j ≠ k) (t : Tab α) : tget d j (tset d k v t) = tget d j t := by
  unfold tset
  split
  · exact tget_terase_ne d h t
  · exact tget_tput_ne d v h t

theorem tget_tset [DecidableEq α] (d v : α) (j k : Nat) (t : Tab α) :
    tget d j (tset d k v t) = if j = k then v else tget d j t := by
  split
  · rename_i h; rw [h, tget_tset_same]
  · rename_i h; exact tget_tset_ne d v h t

@[simp] theorem tget_nil (d : α) (k : Nat) : tget d k [] = d := rfl

/-! ## The canonical form -/

theorem tabWf_nil (d : α) : TabWf d [] := ⟨List.Pairwise.nil, fun _ h => absurd h List.not_mem_nil⟩

theorem tabWf_filter {d : α} {t : Tab α} (q : Nat × α → Bool) (h : TabWf d t) : TabWf d (t.filter q) :=
  ⟨h.1.filter _, fun p hp => h.2 p (List.mem_of_mem_filter hp)⟩

theorem tabWf_terase {d : α} {t : Tab α} (k : Nat) (h : TabWf d t) : TabWf d (terase k t) := tabWf_filter _ h
theorem tabWf_tdrop {d : α} {t : Tab α} (f : Nat → Bool) (h : TabWf d t) : TabWf d (tdrop f t) := tabWf_filter _ h

theorem mem_tput {k : Nat} {v : α} {t : Tab α} {p : Nat × α} (h : p ∈ tput k v t) : p = (k, v) ∨ p ∈ t := by
  induction t with
  | nil => exact .inl (List.mem_singleton.1 h)
  | cons q t ih =>
    unfold tput at h
    split at h
    · rcases List.mem_cons.1 h with h | h
      · exact .inl h
      · exact .inr h
    · split at h
      · rcases List.mem_cons.1 h with h | h
        · exact .inl h
        · exact .inr (List.mem_cons_of_mem _ h)
      · rcases List.mem_cons.1 h with h | h
        · exact .inr (h ▸ List.mem_cons_self ..)
        · rcases ih h with h | h
          · exact .inl h
          · exact .inr (List.mem_cons_of_mem _ h)

theorem tabWf_tput {d v : α} {t : Tab α} (k : Nat) (hv : v ≠ d) (h : TabWf d t) : TabWf d (tput k v t) := by
  induction t with
  | nil => exact ⟨List.pairwise_singleton _ _, fun p hp => (List.mem_singleton.1 hp) ▸ hv⟩
  | cons q t ih =>
    obtain ⟨hs, hd⟩ := h
    have hq := (List.pairwise_cons.1 hs)
    have iht := ih ⟨hq.2, fun p hp => hd p (List.mem_cons_of_mem _ hp)⟩
    unfold tput
    split
    · rename_i hlt
      refine ⟨List.pairwise_cons.2 ⟨fun p hp => ?_, hs⟩, fun p hp => ?_⟩
      · rcases List.mem_cons.1 hp with rfl | hp
        · exact hlt
        · exact lt_trans hlt (hq.1 p hp)
      · rcases List.mem_cons.1 hp with rfl | hp
        · exact hv
        · exact hd p hp
    · split
      · rename_i _ heq
        refine ⟨List.pairwise_cons.2 ⟨fun p hp => heq ▸ hq.1 p hp, hq.2⟩, fun p hp => ?_⟩
        rcases List.mem_cons.1 hp with rfl | hp
        · exact hv
        · exact hd p (List.mem_cons_of_mem _ hp)
      · rename_i hnlt hne
        have hlt : q.1 < k := lt_of_le_of_ne (not_lt.1 hnlt) hne
        refine ⟨List.pairwise_cons.2 ⟨fun p hp => ?_, iht.1⟩, fun p hp => ?_⟩
        · rcases mem_tput hp with rfl | hp
          · exact hlt
          · exact hq.1 p hp
        · rcases List.mem_cons.1 hp with rfl | hp
          · exact hd _ (List.mem_cons_self ..)
          · exact iht.2 p hp

/-- Every write keeps the canonical form. -/
theorem tabWf_tset [DecidableEq α] {d : α} {t : Tab α} (k : Nat) (v : α) (h : TabWf d t) : TabWf d (tset d k v t) := by
  unfold tset
  split
  · exact tabWf_terase k h
  · rename_i hv; exact tabWf_tput k hv h

/-- Two canonical tables in which every key reads the same are the same table. -/
theorem tabWf_ext {d : α} {t u : Tab α} (ht : TabWf d t) (hu : TabWf d u) (h : ∀ k, tget d k t = tget d k u) : t = u := by
  have below : ∀ {t : Tab α} {k : Nat}, (∀ p ∈ t, k < p.1) → tget d k t = d := by
    intro t k hk
    induction t with
    | nil => rfl
    | cons p t ih =>
      have hp := hk p (List.mem_cons_self ..)
      simp only [tget, if_neg (ne_of_gt hp)]
      exact ih fun q hq => hk q (List.mem_cons_of_mem _ hq)
  induction t generalizing u with
  | nil =>
    cases u with
    | nil => rfl
    | cons q u =>
      have := h q.1
      simp only [tget, if_true] at this
      exact absurd this.symm (hu.2 q (List.mem_cons_self ..))
  | cons p t ih =>
    cases u with
    | nil =>
      have := h p.1
      simp only [tget, if_true] at this
      exact absurd this (ht.2 p (List.mem_cons_self ..))
    | cons q u =>
      have hp := List.pairwise_cons.1 ht.1
      have hq := List.pairwise_cons.1 hu.1
      have key : p.1 = q.1 := by
        rcases lt_trichotomy p.1 q.1 with hlt | he | hgt
        · have := h p.1
          simp only [tget, if_true, if_neg (ne_of_gt hlt)] at this
          rw [below fun r hr => lt_trans hlt (hq.1 r hr)] at this
          exact absurd this (ht.2 p (List.mem_cons_self ..))
        · exact he
        · have := h q.1
          simp only [tget, if_true, if_neg (ne_of_gt hgt)] at this
          rw [below fun r hr => lt_trans hgt (hp.1 r hr)] at this
          exact absurd this.symm (hu.2 q (List.mem_cons_self ..))
      have val : p.2 = q.2 := by
        have := h p.1
        simpa only [tget, if_true, ← key] using this
      have pq : p = q := Prod.ext key val
      subst pq
      congr 1
      refine ih ⟨hp.2, fun r hr => ht.2 r (List.mem_cons_of_mem _ hr)⟩ ⟨hq.2, fun r hr => hu.2 r (List.mem_cons_of_mem _ hr)⟩ fun k => ?_
      by_cases hk : k = p.1
      · subst hk
        rw [below hp.1, below hq.1]
      · have := h k
        simpa only [tget, if_neg (Ne.symm hk)] using this

end Sys2Proof.Machine
end

