-- ==== Sys2Proof/Laws/State.lean ====
section
/-! SUPPORT. One lemma for each field of the state and each named update, and what a register, a thread or a record reads after each. -/

namespace Sys2Proof.Machine

variable (s : State)

/-! ## `setV` -/

@[simp] theorem setV_sreg (tk : Nat) (r : BitVec 6) (c : Cell) : (setV tk r c s).sreg = s.sreg := rfl
@[simp] theorem setV_pred (tk : Nat) (r : BitVec 6) (c : Cell) : (setV tk r c s).pred = s.pred := rfl
@[simp] theorem setV_qpred (tk : Nat) (r : BitVec 6) (c : Cell) : (setV tk r c s).qpred = s.qpred := rfl
@[simp] theorem setV_thr (tk : Nat) (r : BitVec 6) (c : Cell) : (setV tk r c s).thr = s.thr := rfl
@[simp] theorem setV_grp (tk : Nat) (r : BitVec 6) (c : Cell) : (setV tk r c s).grp = s.grp := rfl
@[simp] theorem setV_team (tk : Nat) (r : BitVec 6) (c : Cell) : (setV tk r c s).team = s.team := rfl
@[simp] theorem setV_grid (tk : Nat) (r : BitVec 6) (c : Cell) : (setV tk r c s).grid = s.grid := rfl
@[simp] theorem setV_slot (tk : Nat) (r : BitVec 6) (c : Cell) : (setV tk r c s).slot = s.slot := rfl
@[simp] theorem setV_tag (tk : Nat) (r : BitVec 6) (c : Cell) : (setV tk r c s).tag = s.tag := rfl
@[simp] theorem setV_tagRun (tk : Nat) (r : BitVec 6) (c : Cell) : (setV tk r c s).tagRun = s.tagRun := rfl
@[simp] theorem setV_recs (tk : Nat) (r : BitVec 6) (c : Cell) : (setV tk r c s).recs = s.recs := rfl
@[simp] theorem setV_mm (tk : Nat) (r : BitVec 6) (c : Cell) : (setV tk r c s).mm = s.mm := rfl
@[simp] theorem setV_sc (tk : Nat) (r : BitVec 6) (c : Cell) : (setV tk r c s).sc = s.sc := rfl
@[simp] theorem setV_vs (tk : Nat) (r : BitVec 6) (c : Cell) : (setV tk r c s).vs = s.vs := rfl
@[simp] theorem setV_bd (tk : Nat) (r : BitVec 6) (c : Cell) : (setV tk r c s).bd = s.bd := rfl
@[simp] theorem setV_rg (tk : Nat) (r : BitVec 6) (c : Cell) : (setV tk r c s).rg = s.rg := rfl
@[simp] theorem setV_vf (tk : Nat) (r : BitVec 6) (c : Cell) : (setV tk r c s).vf = s.vf := rfl
@[simp] theorem setV_gl (tk : Nat) (r : BitVec 6) (c : Cell) : (setV tk r c s).gl = s.gl := rfl
@[simp] theorem setV_pk (tk : Nat) (r : BitVec 6) (c : Cell) : (setV tk r c s).pk = s.pk := rfl
@[simp] theorem setV_rp (tk : Nat) (r : BitVec 6) (c : Cell) : (setV tk r c s).rp = s.rp := rfl
@[simp] theorem setV_hs (tk : Nat) (r : BitVec 6) (c : Cell) : (setV tk r c s).hs = s.hs := rfl
@[simp] theorem setV_sel (tk : Nat) (r : BitVec 6) (c : Cell) : (setV tk r c s).sel = s.sel := rfl
@[simp] theorem setV_cur (tk : Nat) (r : BitVec 6) (c : Cell) : (setV tk r c s).cur = s.cur := rfl
@[simp] theorem setV_gsel (tk : Nat) (r : BitVec 6) (c : Cell) : (setV tk r c s).gsel = s.gsel := rfl
@[simp] theorem setV_agenda (tk : Nat) (r : BitVec 6) (c : Cell) : (setV tk r c s).agenda = s.agenda := rfl
@[simp] theorem setV_fresh (tk : Nat) (r : BitVec 6) (c : Cell) : (setV tk r c s).fresh = s.fresh := rfl

/-! ## `setThr` -/

@[simp] theorem setThr_vreg (k : Nat) (x : Thr) : (setThr k x s).vreg = s.vreg := rfl
@[simp] theorem setThr_sreg (k : Nat) (x : Thr) : (setThr k x s).sreg = s.sreg := rfl
@[simp] theorem setThr_pred (k : Nat) (x : Thr) : (setThr k x s).pred = s.pred := rfl
@[simp] theorem setThr_qpred (k : Nat) (x : Thr) : (setThr k x s).qpred = s.qpred := rfl
@[simp] theorem setThr_grp (k : Nat) (x : Thr) : (setThr k x s).grp = s.grp := rfl
@[simp] theorem setThr_team (k : Nat) (x : Thr) : (setThr k x s).team = s.team := rfl
@[simp] theorem setThr_grid (k : Nat) (x : Thr) : (setThr k x s).grid = s.grid := rfl
@[simp] theorem setThr_slot (k : Nat) (x : Thr) : (setThr k x s).slot = s.slot := rfl
@[simp] theorem setThr_tag (k : Nat) (x : Thr) : (setThr k x s).tag = s.tag := rfl
@[simp] theorem setThr_tagRun (k : Nat) (x : Thr) : (setThr k x s).tagRun = s.tagRun := rfl
@[simp] theorem setThr_recs (k : Nat) (x : Thr) : (setThr k x s).recs = s.recs := rfl
@[simp] theorem setThr_mm (k : Nat) (x : Thr) : (setThr k x s).mm = s.mm := rfl
@[simp] theorem setThr_sc (k : Nat) (x : Thr) : (setThr k x s).sc = s.sc := rfl
@[simp] theorem setThr_vs (k : Nat) (x : Thr) : (setThr k x s).vs = s.vs := rfl
@[simp] theorem setThr_bd (k : Nat) (x : Thr) : (setThr k x s).bd = s.bd := rfl
@[simp] theorem setThr_rg (k : Nat) (x : Thr) : (setThr k x s).rg = s.rg := rfl
@[simp] theorem setThr_vf (k : Nat) (x : Thr) : (setThr k x s).vf = s.vf := rfl
@[simp] theorem setThr_gl (k : Nat) (x : Thr) : (setThr k x s).gl = s.gl := rfl
@[simp] theorem setThr_pk (k : Nat) (x : Thr) : (setThr k x s).pk = s.pk := rfl
@[simp] theorem setThr_rp (k : Nat) (x : Thr) : (setThr k x s).rp = s.rp := rfl
@[simp] theorem setThr_hs (k : Nat) (x : Thr) : (setThr k x s).hs = s.hs := rfl
@[simp] theorem setThr_sel (k : Nat) (x : Thr) : (setThr k x s).sel = s.sel := rfl
@[simp] theorem setThr_cur (k : Nat) (x : Thr) : (setThr k x s).cur = s.cur := rfl
@[simp] theorem setThr_gsel (k : Nat) (x : Thr) : (setThr k x s).gsel = s.gsel := rfl
@[simp] theorem setThr_agenda (k : Nat) (x : Thr) : (setThr k x s).agenda = s.agenda := rfl
@[simp] theorem setThr_fresh (k : Nat) (x : Thr) : (setThr k x s).fresh = s.fresh := rfl

/-! ## `setGrp` -/

@[simp] theorem setGrp_vreg (k : Nat) (x : Grp) : (setGrp k x s).vreg = s.vreg := rfl
@[simp] theorem setGrp_sreg (k : Nat) (x : Grp) : (setGrp k x s).sreg = s.sreg := rfl
@[simp] theorem setGrp_pred (k : Nat) (x : Grp) : (setGrp k x s).pred = s.pred := rfl
@[simp] theorem setGrp_qpred (k : Nat) (x : Grp) : (setGrp k x s).qpred = s.qpred := rfl
@[simp] theorem setGrp_thr (k : Nat) (x : Grp) : (setGrp k x s).thr = s.thr := rfl
@[simp] theorem setGrp_team (k : Nat) (x : Grp) : (setGrp k x s).team = s.team := rfl
@[simp] theorem setGrp_grid (k : Nat) (x : Grp) : (setGrp k x s).grid = s.grid := rfl
@[simp] theorem setGrp_slot (k : Nat) (x : Grp) : (setGrp k x s).slot = s.slot := rfl
@[simp] theorem setGrp_tag (k : Nat) (x : Grp) : (setGrp k x s).tag = s.tag := rfl
@[simp] theorem setGrp_tagRun (k : Nat) (x : Grp) : (setGrp k x s).tagRun = s.tagRun := rfl
@[simp] theorem setGrp_recs (k : Nat) (x : Grp) : (setGrp k x s).recs = s.recs := rfl
@[simp] theorem setGrp_mm (k : Nat) (x : Grp) : (setGrp k x s).mm = s.mm := rfl
@[simp] theorem setGrp_sc (k : Nat) (x : Grp) : (setGrp k x s).sc = s.sc := rfl
@[simp] theorem setGrp_vs (k : Nat) (x : Grp) : (setGrp k x s).vs = s.vs := rfl
@[simp] theorem setGrp_bd (k : Nat) (x : Grp) : (setGrp k x s).bd = s.bd := rfl
@[simp] theorem setGrp_rg (k : Nat) (x : Grp) : (setGrp k x s).rg = s.rg := rfl
@[simp] theorem setGrp_vf (k : Nat) (x : Grp) : (setGrp k x s).vf = s.vf := rfl
@[simp] theorem setGrp_gl (k : Nat) (x : Grp) : (setGrp k x s).gl = s.gl := rfl
@[simp] theorem setGrp_pk (k : Nat) (x : Grp) : (setGrp k x s).pk = s.pk := rfl
@[simp] theorem setGrp_rp (k : Nat) (x : Grp) : (setGrp k x s).rp = s.rp := rfl
@[simp] theorem setGrp_hs (k : Nat) (x : Grp) : (setGrp k x s).hs = s.hs := rfl
@[simp] theorem setGrp_sel (k : Nat) (x : Grp) : (setGrp k x s).sel = s.sel := rfl
@[simp] theorem setGrp_cur (k : Nat) (x : Grp) : (setGrp k x s).cur = s.cur := rfl
@[simp] theorem setGrp_gsel (k : Nat) (x : Grp) : (setGrp k x s).gsel = s.gsel := rfl
@[simp] theorem setGrp_agenda (k : Nat) (x : Grp) : (setGrp k x s).agenda = s.agenda := rfl
@[simp] theorem setGrp_fresh (k : Nat) (x : Grp) : (setGrp k x s).fresh = s.fresh := rfl

/-! ## `setTeam` -/

@[simp] theorem setTeam_vreg (k : Nat) (x : Team) : (setTeam k x s).vreg = s.vreg := rfl
@[simp] theorem setTeam_sreg (k : Nat) (x : Team) : (setTeam k x s).sreg = s.sreg := rfl
@[simp] theorem setTeam_pred (k : Nat) (x : Team) : (setTeam k x s).pred = s.pred := rfl
@[simp] theorem setTeam_qpred (k : Nat) (x : Team) : (setTeam k x s).qpred = s.qpred := rfl
@[simp] theorem setTeam_thr (k : Nat) (x : Team) : (setTeam k x s).thr = s.thr := rfl
@[simp] theorem setTeam_grp (k : Nat) (x : Team) : (setTeam k x s).grp = s.grp := rfl
@[simp] theorem setTeam_grid (k : Nat) (x : Team) : (setTeam k x s).grid = s.grid := rfl
@[simp] theorem setTeam_slot (k : Nat) (x : Team) : (setTeam k x s).slot = s.slot := rfl
@[simp] theorem setTeam_tag (k : Nat) (x : Team) : (setTeam k x s).tag = s.tag := rfl
@[simp] theorem setTeam_tagRun (k : Nat) (x : Team) : (setTeam k x s).tagRun = s.tagRun := rfl
@[simp] theorem setTeam_recs (k : Nat) (x : Team) : (setTeam k x s).recs = s.recs := rfl
@[simp] theorem setTeam_mm (k : Nat) (x : Team) : (setTeam k x s).mm = s.mm := rfl
@[simp] theorem setTeam_sc (k : Nat) (x : Team) : (setTeam k x s).sc = s.sc := rfl
@[simp] theorem setTeam_vs (k : Nat) (x : Team) : (setTeam k x s).vs = s.vs := rfl
@[simp] theorem setTeam_bd (k : Nat) (x : Team) : (setTeam k x s).bd = s.bd := rfl
@[simp] theorem setTeam_rg (k : Nat) (x : Team) : (setTeam k x s).rg = s.rg := rfl
@[simp] theorem setTeam_vf (k : Nat) (x : Team) : (setTeam k x s).vf = s.vf := rfl
@[simp] theorem setTeam_gl (k : Nat) (x : Team) : (setTeam k x s).gl = s.gl := rfl
@[simp] theorem setTeam_pk (k : Nat) (x : Team) : (setTeam k x s).pk = s.pk := rfl
@[simp] theorem setTeam_rp (k : Nat) (x : Team) : (setTeam k x s).rp = s.rp := rfl
@[simp] theorem setTeam_hs (k : Nat) (x : Team) : (setTeam k x s).hs = s.hs := rfl
@[simp] theorem setTeam_sel (k : Nat) (x : Team) : (setTeam k x s).sel = s.sel := rfl
@[simp] theorem setTeam_cur (k : Nat) (x : Team) : (setTeam k x s).cur = s.cur := rfl
@[simp] theorem setTeam_gsel (k : Nat) (x : Team) : (setTeam k x s).gsel = s.gsel := rfl
@[simp] theorem setTeam_agenda (k : Nat) (x : Team) : (setTeam k x s).agenda = s.agenda := rfl
@[simp] theorem setTeam_fresh (k : Nat) (x : Team) : (setTeam k x s).fresh = s.fresh := rfl

/-! ## `setGrid` -/

@[simp] theorem setGrid_vreg (k : Nat) (x : Grid) : (setGrid k x s).vreg = s.vreg := rfl
@[simp] theorem setGrid_sreg (k : Nat) (x : Grid) : (setGrid k x s).sreg = s.sreg := rfl
@[simp] theorem setGrid_pred (k : Nat) (x : Grid) : (setGrid k x s).pred = s.pred := rfl
@[simp] theorem setGrid_qpred (k : Nat) (x : Grid) : (setGrid k x s).qpred = s.qpred := rfl
@[simp] theorem setGrid_thr (k : Nat) (x : Grid) : (setGrid k x s).thr = s.thr := rfl
@[simp] theorem setGrid_grp (k : Nat) (x : Grid) : (setGrid k x s).grp = s.grp := rfl
@[simp] theorem setGrid_team (k : Nat) (x : Grid) : (setGrid k x s).team = s.team := rfl
@[simp] theorem setGrid_slot (k : Nat) (x : Grid) : (setGrid k x s).slot = s.slot := rfl
@[simp] theorem setGrid_tag (k : Nat) (x : Grid) : (setGrid k x s).tag = s.tag := rfl
@[simp] theorem setGrid_tagRun (k : Nat) (x : Grid) : (setGrid k x s).tagRun = s.tagRun := rfl
@[simp] theorem setGrid_recs (k : Nat) (x : Grid) : (setGrid k x s).recs = s.recs := rfl
@[simp] theorem setGrid_mm (k : Nat) (x : Grid) : (setGrid k x s).mm = s.mm := rfl
@[simp] theorem setGrid_sc (k : Nat) (x : Grid) : (setGrid k x s).sc = s.sc := rfl
@[simp] theorem setGrid_vs (k : Nat) (x : Grid) : (setGrid k x s).vs = s.vs := rfl
@[simp] theorem setGrid_bd (k : Nat) (x : Grid) : (setGrid k x s).bd = s.bd := rfl
@[simp] theorem setGrid_rg (k : Nat) (x : Grid) : (setGrid k x s).rg = s.rg := rfl
@[simp] theorem setGrid_vf (k : Nat) (x : Grid) : (setGrid k x s).vf = s.vf := rfl
@[simp] theorem setGrid_gl (k : Nat) (x : Grid) : (setGrid k x s).gl = s.gl := rfl
@[simp] theorem setGrid_pk (k : Nat) (x : Grid) : (setGrid k x s).pk = s.pk := rfl
@[simp] theorem setGrid_rp (k : Nat) (x : Grid) : (setGrid k x s).rp = s.rp := rfl
@[simp] theorem setGrid_hs (k : Nat) (x : Grid) : (setGrid k x s).hs = s.hs := rfl
@[simp] theorem setGrid_sel (k : Nat) (x : Grid) : (setGrid k x s).sel = s.sel := rfl
@[simp] theorem setGrid_cur (k : Nat) (x : Grid) : (setGrid k x s).cur = s.cur := rfl
@[simp] theorem setGrid_gsel (k : Nat) (x : Grid) : (setGrid k x s).gsel = s.gsel := rfl
@[simp] theorem setGrid_agenda (k : Nat) (x : Grid) : (setGrid k x s).agenda = s.agenda := rfl
@[simp] theorem setGrid_fresh (k : Nat) (x : Grid) : (setGrid k x s).fresh = s.fresh := rfl

/-! ## `setS` -/

@[simp] theorem setS_vreg (g : Nat) (r : BitVec 6) (c : Cell) : (setS g r c s).vreg = s.vreg := by unfold setS; split <;> rfl
@[simp] theorem setS_pred (g : Nat) (r : BitVec 6) (c : Cell) : (setS g r c s).pred = s.pred := by unfold setS; split <;> rfl
@[simp] theorem setS_qpred (g : Nat) (r : BitVec 6) (c : Cell) : (setS g r c s).qpred = s.qpred := by unfold setS; split <;> rfl
@[simp] theorem setS_thr (g : Nat) (r : BitVec 6) (c : Cell) : (setS g r c s).thr = s.thr := by unfold setS; split <;> rfl
@[simp] theorem setS_grp (g : Nat) (r : BitVec 6) (c : Cell) : (setS g r c s).grp = s.grp := by unfold setS; split <;> rfl
@[simp] theorem setS_team (g : Nat) (r : BitVec 6) (c : Cell) : (setS g r c s).team = s.team := by unfold setS; split <;> rfl
@[simp] theorem setS_grid (g : Nat) (r : BitVec 6) (c : Cell) : (setS g r c s).grid = s.grid := by unfold setS; split <;> rfl
@[simp] theorem setS_slot (g : Nat) (r : BitVec 6) (c : Cell) : (setS g r c s).slot = s.slot := by unfold setS; split <;> rfl
@[simp] theorem setS_tag (g : Nat) (r : BitVec 6) (c : Cell) : (setS g r c s).tag = s.tag := by unfold setS; split <;> rfl
@[simp] theorem setS_tagRun (g : Nat) (r : BitVec 6) (c : Cell) : (setS g r c s).tagRun = s.tagRun := by unfold setS; split <;> rfl
@[simp] theorem setS_recs (g : Nat) (r : BitVec 6) (c : Cell) : (setS g r c s).recs = s.recs := by unfold setS; split <;> rfl
@[simp] theorem setS_mm (g : Nat) (r : BitVec 6) (c : Cell) : (setS g r c s).mm = s.mm := by unfold setS; split <;> rfl
@[simp] theorem setS_sc (g : Nat) (r : BitVec 6) (c : Cell) : (setS g r c s).sc = s.sc := by unfold setS; split <;> rfl
@[simp] theorem setS_vs (g : Nat) (r : BitVec 6) (c : Cell) : (setS g r c s).vs = s.vs := by unfold setS; split <;> rfl
@[simp] theorem setS_bd (g : Nat) (r : BitVec 6) (c : Cell) : (setS g r c s).bd = s.bd := by unfold setS; split <;> rfl
@[simp] theorem setS_rg (g : Nat) (r : BitVec 6) (c : Cell) : (setS g r c s).rg = s.rg := by unfold setS; split <;> rfl
@[simp] theorem setS_vf (g : Nat) (r : BitVec 6) (c : Cell) : (setS g r c s).vf = s.vf := by unfold setS; split <;> rfl
@[simp] theorem setS_gl (g : Nat) (r : BitVec 6) (c : Cell) : (setS g r c s).gl = s.gl := by unfold setS; split <;> rfl
@[simp] theorem setS_pk (g : Nat) (r : BitVec 6) (c : Cell) : (setS g r c s).pk = s.pk := by unfold setS; split <;> rfl
@[simp] theorem setS_rp (g : Nat) (r : BitVec 6) (c : Cell) : (setS g r c s).rp = s.rp := by unfold setS; split <;> rfl
@[simp] theorem setS_hs (g : Nat) (r : BitVec 6) (c : Cell) : (setS g r c s).hs = s.hs := by unfold setS; split <;> rfl
@[simp] theorem setS_sel (g : Nat) (r : BitVec 6) (c : Cell) : (setS g r c s).sel = s.sel := by unfold setS; split <;> rfl
@[simp] theorem setS_cur (g : Nat) (r : BitVec 6) (c : Cell) : (setS g r c s).cur = s.cur := by unfold setS; split <;> rfl
@[simp] theorem setS_gsel (g : Nat) (r : BitVec 6) (c : Cell) : (setS g r c s).gsel = s.gsel := by unfold setS; split <;> rfl
@[simp] theorem setS_agenda (g : Nat) (r : BitVec 6) (c : Cell) : (setS g r c s).agenda = s.agenda := by unfold setS; split <;> rfl
@[simp] theorem setS_fresh (g : Nat) (r : BitVec 6) (c : Cell) : (setS g r c s).fresh = s.fresh := by unfold setS; split <;> rfl

/-! ## `setP` -/

@[simp] theorem setP_vreg (tk : Nat) (q : BitVec 3) (c : PCell) : (setP tk q c s).vreg = s.vreg := by unfold setP; split <;> rfl
@[simp] theorem setP_sreg (tk : Nat) (q : BitVec 3) (c : PCell) : (setP tk q c s).sreg = s.sreg := by unfold setP; split <;> rfl
@[simp] theorem setP_qpred (tk : Nat) (q : BitVec 3) (c : PCell) : (setP tk q c s).qpred = s.qpred := by unfold setP; split <;> rfl
@[simp] theorem setP_thr (tk : Nat) (q : BitVec 3) (c : PCell) : (setP tk q c s).thr = s.thr := by unfold setP; split <;> rfl
@[simp] theorem setP_grp (tk : Nat) (q : BitVec 3) (c : PCell) : (setP tk q c s).grp = s.grp := by unfold setP; split <;> rfl
@[simp] theorem setP_team (tk : Nat) (q : BitVec 3) (c : PCell) : (setP tk q c s).team = s.team := by unfold setP; split <;> rfl
@[simp] theorem setP_grid (tk : Nat) (q : BitVec 3) (c : PCell) : (setP tk q c s).grid = s.grid := by unfold setP; split <;> rfl
@[simp] theorem setP_slot (tk : Nat) (q : BitVec 3) (c : PCell) : (setP tk q c s).slot = s.slot := by unfold setP; split <;> rfl
@[simp] theorem setP_tag (tk : Nat) (q : BitVec 3) (c : PCell) : (setP tk q c s).tag = s.tag := by unfold setP; split <;> rfl
@[simp] theorem setP_tagRun (tk : Nat) (q : BitVec 3) (c : PCell) : (setP tk q c s).tagRun = s.tagRun := by unfold setP; split <;> rfl
@[simp] theorem setP_recs (tk : Nat) (q : BitVec 3) (c : PCell) : (setP tk q c s).recs = s.recs := by unfold setP; split <;> rfl
@[simp] theorem setP_mm (tk : Nat) (q : BitVec 3) (c : PCell) : (setP tk q c s).mm = s.mm := by unfold setP; split <;> rfl
@[simp] theorem setP_sc (tk : Nat) (q : BitVec 3) (c : PCell) : (setP tk q c s).sc = s.sc := by unfold setP; split <;> rfl
@[simp] theorem setP_vs (tk : Nat) (q : BitVec 3) (c : PCell) : (setP tk q c s).vs = s.vs := by unfold setP; split <;> rfl
@[simp] theorem setP_bd (tk : Nat) (q : BitVec 3) (c : PCell) : (setP tk q c s).bd = s.bd := by unfold setP; split <;> rfl
@[simp] theorem setP_rg (tk : Nat) (q : BitVec 3) (c : PCell) : (setP tk q c s).rg = s.rg := by unfold setP; split <;> rfl
@[simp] theorem setP_vf (tk : Nat) (q : BitVec 3) (c : PCell) : (setP tk q c s).vf = s.vf := by unfold setP; split <;> rfl
@[simp] theorem setP_gl (tk : Nat) (q : BitVec 3) (c : PCell) : (setP tk q c s).gl = s.gl := by unfold setP; split <;> rfl
@[simp] theorem setP_pk (tk : Nat) (q : BitVec 3) (c : PCell) : (setP tk q c s).pk = s.pk := by unfold setP; split <;> rfl
@[simp] theorem setP_rp (tk : Nat) (q : BitVec 3) (c : PCell) : (setP tk q c s).rp = s.rp := by unfold setP; split <;> rfl
@[simp] theorem setP_hs (tk : Nat) (q : BitVec 3) (c : PCell) : (setP tk q c s).hs = s.hs := by unfold setP; split <;> rfl
@[simp] theorem setP_sel (tk : Nat) (q : BitVec 3) (c : PCell) : (setP tk q c s).sel = s.sel := by unfold setP; split <;> rfl
@[simp] theorem setP_cur (tk : Nat) (q : BitVec 3) (c : PCell) : (setP tk q c s).cur = s.cur := by unfold setP; split <;> rfl
@[simp] theorem setP_gsel (tk : Nat) (q : BitVec 3) (c : PCell) : (setP tk q c s).gsel = s.gsel := by unfold setP; split <;> rfl
@[simp] theorem setP_agenda (tk : Nat) (q : BitVec 3) (c : PCell) : (setP tk q c s).agenda = s.agenda := by unfold setP; split <;> rfl
@[simp] theorem setP_fresh (tk : Nat) (q : BitVec 3) (c : PCell) : (setP tk q c s).fresh = s.fresh := by unfold setP; split <;> rfl

/-! ## `setQ` -/

@[simp] theorem setQ_vreg (g : Nat) (q : BitVec 3) (c : PCell) : (setQ g q c s).vreg = s.vreg := by unfold setQ; split <;> rfl
@[simp] theorem setQ_sreg (g : Nat) (q : BitVec 3) (c : PCell) : (setQ g q c s).sreg = s.sreg := by unfold setQ; split <;> rfl
@[simp] theorem setQ_pred (g : Nat) (q : BitVec 3) (c : PCell) : (setQ g q c s).pred = s.pred := by unfold setQ; split <;> rfl
@[simp] theorem setQ_thr (g : Nat) (q : BitVec 3) (c : PCell) : (setQ g q c s).thr = s.thr := by unfold setQ; split <;> rfl
@[simp] theorem setQ_grp (g : Nat) (q : BitVec 3) (c : PCell) : (setQ g q c s).grp = s.grp := by unfold setQ; split <;> rfl
@[simp] theorem setQ_team (g : Nat) (q : BitVec 3) (c : PCell) : (setQ g q c s).team = s.team := by unfold setQ; split <;> rfl
@[simp] theorem setQ_grid (g : Nat) (q : BitVec 3) (c : PCell) : (setQ g q c s).grid = s.grid := by unfold setQ; split <;> rfl
@[simp] theorem setQ_slot (g : Nat) (q : BitVec 3) (c : PCell) : (setQ g q c s).slot = s.slot := by unfold setQ; split <;> rfl
@[simp] theorem setQ_tag (g : Nat) (q : BitVec 3) (c : PCell) : (setQ g q c s).tag = s.tag := by unfold setQ; split <;> rfl
@[simp] theorem setQ_tagRun (g : Nat) (q : BitVec 3) (c : PCell) : (setQ g q c s).tagRun = s.tagRun := by unfold setQ; split <;> rfl
@[simp] theorem setQ_recs (g : Nat) (q : BitVec 3) (c : PCell) : (setQ g q c s).recs = s.recs := by unfold setQ; split <;> rfl
@[simp] theorem setQ_mm (g : Nat) (q : BitVec 3) (c : PCell) : (setQ g q c s).mm = s.mm := by unfold setQ; split <;> rfl
@[simp] theorem setQ_sc (g : Nat) (q : BitVec 3) (c : PCell) : (setQ g q c s).sc = s.sc := by unfold setQ; split <;> rfl
@[simp] theorem setQ_vs (g : Nat) (q : BitVec 3) (c : PCell) : (setQ g q c s).vs = s.vs := by unfold setQ; split <;> rfl
@[simp] theorem setQ_bd (g : Nat) (q : BitVec 3) (c : PCell) : (setQ g q c s).bd = s.bd := by unfold setQ; split <;> rfl
@[simp] theorem setQ_rg (g : Nat) (q : BitVec 3) (c : PCell) : (setQ g q c s).rg = s.rg := by unfold setQ; split <;> rfl
@[simp] theorem setQ_vf (g : Nat) (q : BitVec 3) (c : PCell) : (setQ g q c s).vf = s.vf := by unfold setQ; split <;> rfl
@[simp] theorem setQ_gl (g : Nat) (q : BitVec 3) (c : PCell) : (setQ g q c s).gl = s.gl := by unfold setQ; split <;> rfl
@[simp] theorem setQ_pk (g : Nat) (q : BitVec 3) (c : PCell) : (setQ g q c s).pk = s.pk := by unfold setQ; split <;> rfl
@[simp] theorem setQ_rp (g : Nat) (q : BitVec 3) (c : PCell) : (setQ g q c s).rp = s.rp := by unfold setQ; split <;> rfl
@[simp] theorem setQ_hs (g : Nat) (q : BitVec 3) (c : PCell) : (setQ g q c s).hs = s.hs := by unfold setQ; split <;> rfl
@[simp] theorem setQ_sel (g : Nat) (q : BitVec 3) (c : PCell) : (setQ g q c s).sel = s.sel := by unfold setQ; split <;> rfl
@[simp] theorem setQ_cur (g : Nat) (q : BitVec 3) (c : PCell) : (setQ g q c s).cur = s.cur := by unfold setQ; split <;> rfl
@[simp] theorem setQ_gsel (g : Nat) (q : BitVec 3) (c : PCell) : (setQ g q c s).gsel = s.gsel := by unfold setQ; split <;> rfl
@[simp] theorem setQ_agenda (g : Nat) (q : BitVec 3) (c : PCell) : (setQ g q c s).agenda = s.agenda := by unfold setQ; split <;> rfl
@[simp] theorem setQ_fresh (g : Nat) (q : BitVec 3) (c : PCell) : (setQ g q c s).fresh = s.fresh := by unfold setQ; split <;> rfl

/-! ## `addOp` -/

@[simp] theorem addOp_vreg (gk i : Nat) (a : Word) (k : OpK) : (addOp gk i a k s).vreg = s.vreg := rfl
@[simp] theorem addOp_sreg (gk i : Nat) (a : Word) (k : OpK) : (addOp gk i a k s).sreg = s.sreg := rfl
@[simp] theorem addOp_pred (gk i : Nat) (a : Word) (k : OpK) : (addOp gk i a k s).pred = s.pred := rfl
@[simp] theorem addOp_qpred (gk i : Nat) (a : Word) (k : OpK) : (addOp gk i a k s).qpred = s.qpred := rfl
@[simp] theorem addOp_thr (gk i : Nat) (a : Word) (k : OpK) : (addOp gk i a k s).thr = s.thr := rfl
@[simp] theorem addOp_grp (gk i : Nat) (a : Word) (k : OpK) : (addOp gk i a k s).grp = s.grp := rfl
@[simp] theorem addOp_team (gk i : Nat) (a : Word) (k : OpK) : (addOp gk i a k s).team = s.team := rfl
@[simp] theorem addOp_grid (gk i : Nat) (a : Word) (k : OpK) : (addOp gk i a k s).grid = s.grid := rfl
@[simp] theorem addOp_slot (gk i : Nat) (a : Word) (k : OpK) : (addOp gk i a k s).slot = s.slot := rfl
@[simp] theorem addOp_tag (gk i : Nat) (a : Word) (k : OpK) : (addOp gk i a k s).tag = s.tag := rfl
@[simp] theorem addOp_tagRun (gk i : Nat) (a : Word) (k : OpK) : (addOp gk i a k s).tagRun = s.tagRun := rfl
@[simp] theorem addOp_recs (gk i : Nat) (a : Word) (k : OpK) : (addOp gk i a k s).recs = s.recs := rfl
@[simp] theorem addOp_sc (gk i : Nat) (a : Word) (k : OpK) : (addOp gk i a k s).sc = s.sc := rfl
@[simp] theorem addOp_vs (gk i : Nat) (a : Word) (k : OpK) : (addOp gk i a k s).vs = s.vs := rfl
@[simp] theorem addOp_bd (gk i : Nat) (a : Word) (k : OpK) : (addOp gk i a k s).bd = s.bd := rfl
@[simp] theorem addOp_rg (gk i : Nat) (a : Word) (k : OpK) : (addOp gk i a k s).rg = s.rg := rfl
@[simp] theorem addOp_vf (gk i : Nat) (a : Word) (k : OpK) : (addOp gk i a k s).vf = s.vf := rfl
@[simp] theorem addOp_gl (gk i : Nat) (a : Word) (k : OpK) : (addOp gk i a k s).gl = s.gl := rfl
@[simp] theorem addOp_pk (gk i : Nat) (a : Word) (k : OpK) : (addOp gk i a k s).pk = s.pk := rfl
@[simp] theorem addOp_rp (gk i : Nat) (a : Word) (k : OpK) : (addOp gk i a k s).rp = s.rp := rfl
@[simp] theorem addOp_hs (gk i : Nat) (a : Word) (k : OpK) : (addOp gk i a k s).hs = s.hs := rfl
@[simp] theorem addOp_sel (gk i : Nat) (a : Word) (k : OpK) : (addOp gk i a k s).sel = s.sel := rfl
@[simp] theorem addOp_cur (gk i : Nat) (a : Word) (k : OpK) : (addOp gk i a k s).cur = s.cur := rfl
@[simp] theorem addOp_gsel (gk i : Nat) (a : Word) (k : OpK) : (addOp gk i a k s).gsel = s.gsel := rfl
@[simp] theorem addOp_agenda (gk i : Nat) (a : Word) (k : OpK) : (addOp gk i a k s).agenda = s.agenda := rfl
@[simp] theorem addOp_fresh (gk i : Nat) (a : Word) (k : OpK) : (addOp gk i a k s).fresh = s.fresh := rfl

/-! ## `dropOp` -/

@[simp] theorem dropOp_vreg (id : Nat) : (dropOp id s).vreg = s.vreg := rfl
@[simp] theorem dropOp_sreg (id : Nat) : (dropOp id s).sreg = s.sreg := rfl
@[simp] theorem dropOp_pred (id : Nat) : (dropOp id s).pred = s.pred := rfl
@[simp] theorem dropOp_qpred (id : Nat) : (dropOp id s).qpred = s.qpred := rfl
@[simp] theorem dropOp_thr (id : Nat) : (dropOp id s).thr = s.thr := rfl
@[simp] theorem dropOp_grp (id : Nat) : (dropOp id s).grp = s.grp := rfl
@[simp] theorem dropOp_team (id : Nat) : (dropOp id s).team = s.team := rfl
@[simp] theorem dropOp_grid (id : Nat) : (dropOp id s).grid = s.grid := rfl
@[simp] theorem dropOp_slot (id : Nat) : (dropOp id s).slot = s.slot := rfl
@[simp] theorem dropOp_tag (id : Nat) : (dropOp id s).tag = s.tag := rfl
@[simp] theorem dropOp_tagRun (id : Nat) : (dropOp id s).tagRun = s.tagRun := rfl
@[simp] theorem dropOp_recs (id : Nat) : (dropOp id s).recs = s.recs := rfl
@[simp] theorem dropOp_sc (id : Nat) : (dropOp id s).sc = s.sc := rfl
@[simp] theorem dropOp_vs (id : Nat) : (dropOp id s).vs = s.vs := rfl
@[simp] theorem dropOp_bd (id : Nat) : (dropOp id s).bd = s.bd := rfl
@[simp] theorem dropOp_rg (id : Nat) : (dropOp id s).rg = s.rg := rfl
@[simp] theorem dropOp_vf (id : Nat) : (dropOp id s).vf = s.vf := rfl
@[simp] theorem dropOp_gl (id : Nat) : (dropOp id s).gl = s.gl := rfl
@[simp] theorem dropOp_pk (id : Nat) : (dropOp id s).pk = s.pk := rfl
@[simp] theorem dropOp_rp (id : Nat) : (dropOp id s).rp = s.rp := rfl
@[simp] theorem dropOp_hs (id : Nat) : (dropOp id s).hs = s.hs := rfl
@[simp] theorem dropOp_sel (id : Nat) : (dropOp id s).sel = s.sel := rfl
@[simp] theorem dropOp_cur (id : Nat) : (dropOp id s).cur = s.cur := rfl
@[simp] theorem dropOp_gsel (id : Nat) : (dropOp id s).gsel = s.gsel := rfl
@[simp] theorem dropOp_agenda (id : Nat) : (dropOp id s).agenda = s.agenda := rfl
@[simp] theorem dropOp_fresh (id : Nat) : (dropOp id s).fresh = s.fresh := rfl

/-! ## `setOp` -/

@[simp] theorem setOp_vreg (id : Nat) (k : OpK) : (setOp id k s).vreg = s.vreg := rfl
@[simp] theorem setOp_sreg (id : Nat) (k : OpK) : (setOp id k s).sreg = s.sreg := rfl
@[simp] theorem setOp_pred (id : Nat) (k : OpK) : (setOp id k s).pred = s.pred := rfl
@[simp] theorem setOp_qpred (id : Nat) (k : OpK) : (setOp id k s).qpred = s.qpred := rfl
@[simp] theorem setOp_thr (id : Nat) (k : OpK) : (setOp id k s).thr = s.thr := rfl
@[simp] theorem setOp_grp (id : Nat) (k : OpK) : (setOp id k s).grp = s.grp := rfl
@[simp] theorem setOp_team (id : Nat) (k : OpK) : (setOp id k s).team = s.team := rfl
@[simp] theorem setOp_grid (id : Nat) (k : OpK) : (setOp id k s).grid = s.grid := rfl
@[simp] theorem setOp_slot (id : Nat) (k : OpK) : (setOp id k s).slot = s.slot := rfl
@[simp] theorem setOp_tag (id : Nat) (k : OpK) : (setOp id k s).tag = s.tag := rfl
@[simp] theorem setOp_tagRun (id : Nat) (k : OpK) : (setOp id k s).tagRun = s.tagRun := rfl
@[simp] theorem setOp_recs (id : Nat) (k : OpK) : (setOp id k s).recs = s.recs := rfl
@[simp] theorem setOp_sc (id : Nat) (k : OpK) : (setOp id k s).sc = s.sc := rfl
@[simp] theorem setOp_vs (id : Nat) (k : OpK) : (setOp id k s).vs = s.vs := rfl
@[simp] theorem setOp_bd (id : Nat) (k : OpK) : (setOp id k s).bd = s.bd := rfl
@[simp] theorem setOp_rg (id : Nat) (k : OpK) : (setOp id k s).rg = s.rg := rfl
@[simp] theorem setOp_vf (id : Nat) (k : OpK) : (setOp id k s).vf = s.vf := rfl
@[simp] theorem setOp_gl (id : Nat) (k : OpK) : (setOp id k s).gl = s.gl := rfl
@[simp] theorem setOp_pk (id : Nat) (k : OpK) : (setOp id k s).pk = s.pk := rfl
@[simp] theorem setOp_rp (id : Nat) (k : OpK) : (setOp id k s).rp = s.rp := rfl
@[simp] theorem setOp_hs (id : Nat) (k : OpK) : (setOp id k s).hs = s.hs := rfl
@[simp] theorem setOp_sel (id : Nat) (k : OpK) : (setOp id k s).sel = s.sel := rfl
@[simp] theorem setOp_cur (id : Nat) (k : OpK) : (setOp id k s).cur = s.cur := rfl
@[simp] theorem setOp_gsel (id : Nat) (k : OpK) : (setOp id k s).gsel = s.gsel := rfl
@[simp] theorem setOp_agenda (id : Nat) (k : OpK) : (setOp id k s).agenda = s.agenda := rfl
@[simp] theorem setOp_fresh (id : Nat) (k : OpK) : (setOp id k s).fresh = s.fresh := rfl

/-! ## Keys -/

theorem vkey_inj {a b : Nat} {r q : BitVec 6} : a * 64 + r.toNat = b * 64 + q.toNat ↔ a = b ∧ r = q := by
  have h1 := r.isLt; have h2 := q.isLt
  constructor
  · intro h; exact ⟨by omega, BitVec.eq_of_toNat_eq (by omega)⟩
  · rintro ⟨rfl, rfl⟩; rfl

theorem pkey_inj {a b : Nat} {r q : BitVec 3} : a * 8 + r.toNat = b * 8 + q.toNat ↔ a = b ∧ r = q := by
  have h1 := r.isLt; have h2 := q.isLt
  constructor
  · intro h; exact ⟨by omega, BitVec.eq_of_toNat_eq (by omega)⟩
  · rintro ⟨rfl, rfl⟩; rfl

theorem threadKey_inj {g h i j : Nat} (hi : i < 64) (hj : j < 64) : threadKey g i = threadKey h j ↔ g = h ∧ i = j := by
  unfold threadKey; omega

/-! ## Reading after writing -/

theorem getV_setV (tk : Nat) (r : BitVec 6) (c : Cell) (k : Nat) (q : BitVec 6) :
    getV (setV tk r c s) k q = if k = tk ∧ q = r then c else getV s k q := by
  unfold getV setV; simp only [tget_tset, vkey_inj]

theorem getS_setS (g : Nat) (r : BitVec 6) (c : Cell) (k : Nat) (q : BitVec 6) :
    getS (setS g r c s) k q = if k = g ∧ q = r ∧ r ≠ 0 then c else getS s k q := by
  unfold getS setS
  by_cases hr : r = 0
  · by_cases hq : q = 0 <;> simp [hr, hq]
  · by_cases hq : q = 0
    · subst hq; simp only [if_true]; rw [if_neg]; rintro ⟨-, h, -⟩; exact hr h.symm
    · simp only [hr, hq, if_false, tget_tset, vkey_inj, ne_eq, not_false_eq_true, and_true]

theorem getP_setP (tk : Nat) (r : BitVec 3) (c : PCell) (k : Nat) (q : BitVec 3) :
    getP (setP tk r c s) k q = if k = tk ∧ q = r ∧ r ≠ 0 then c else getP s k q := by
  unfold getP setP
  by_cases hr : r = 0
  · by_cases hq : q = 0 <;> simp [hr, hq]
  · by_cases hq : q = 0
    · subst hq; simp only [if_true]; rw [if_neg]; rintro ⟨-, h, -⟩; exact hr h.symm
    · simp only [hr, hq, if_false, tget_tset, pkey_inj, ne_eq, not_false_eq_true, and_true]

theorem getQ_setQ (g : Nat) (r : BitVec 3) (c : PCell) (k : Nat) (q : BitVec 3) :
    getQ (setQ g r c s) k q = if k = g ∧ q = r ∧ r ≠ 0 then c else getQ s k q := by
  unfold getQ setQ
  by_cases hr : r = 0
  · by_cases hq : q = 0 <;> simp [hr, hq]
  · by_cases hq : q = 0
    · subst hq; simp only [if_true]; rw [if_neg]; rintro ⟨-, h, -⟩; exact hr h.symm
    · simp only [hr, hq, if_false, tget_tset, pkey_inj, ne_eq, not_false_eq_true, and_true]

theorem getThr_setThr (k j : Nat) (x : Thr) : getThr (setThr k x s) j = if j = k then x else getThr s j := by
  unfold getThr setThr; simp only [tget_tset]
theorem getGrp_setGrp (k j : Nat) (x : Grp) : getGrp (setGrp k x s) j = if j = k then x else getGrp s j := by
  unfold getGrp setGrp; simp only [tget_tset]
theorem getTeam_setTeam (k j : Nat) (x : Team) : getTeam (setTeam k x s) j = if j = k then x else getTeam s j := by
  unfold getTeam setTeam; simp only [tget_tset]
theorem getGrid_setGrid (k j : Nat) (x : Grid) : getGrid (setGrid k x s) j = if j = k then x else getGrid s j := by
  unfold getGrid setGrid; simp only [tget_tset]

@[simp] theorem getThr_setThr_same (k : Nat) (x : Thr) : getThr (setThr k x s) k = x := by simp [getThr_setThr]
@[simp] theorem getGrp_setGrp_same (k : Nat) (x : Grp) : getGrp (setGrp k x s) k = x := by simp [getGrp_setGrp]
@[simp] theorem getTeam_setTeam_same (k : Nat) (x : Team) : getTeam (setTeam k x s) k = x := by simp [getTeam_setTeam]
@[simp] theorem getGrid_setGrid_same (k : Nat) (x : Grid) : getGrid (setGrid k x s) k = x := by simp [getGrid_setGrid]

/-! ## What an update of one part leaves readable in the others -/

@[simp] theorem getS_setV (ztk : Nat) (zr : BitVec 6) (zc : Cell) (k : Nat) (q : BitVec 6) : getS (setV ztk zr zc s) k q = getS s k q := rfl
@[simp] theorem getP_setV (ztk : Nat) (zr : BitVec 6) (zc : Cell) (k : Nat) (q : BitVec 3) : getP (setV ztk zr zc s) k q = getP s k q := rfl
@[simp] theorem getQ_setV (ztk : Nat) (zr : BitVec 6) (zc : Cell) (k : Nat) (q : BitVec 3) : getQ (setV ztk zr zc s) k q = getQ s k q := rfl
@[simp] theorem getThr_setV (ztk : Nat) (zr : BitVec 6) (zc : Cell) (k : Nat) : getThr (setV ztk zr zc s) k = getThr s k := rfl
@[simp] theorem getGrp_setV (ztk : Nat) (zr : BitVec 6) (zc : Cell) (k : Nat) : getGrp (setV ztk zr zc s) k = getGrp s k := rfl
@[simp] theorem getTeam_setV (ztk : Nat) (zr : BitVec 6) (zc : Cell) (k : Nat) : getTeam (setV ztk zr zc s) k = getTeam s k := rfl
@[simp] theorem getGrid_setV (ztk : Nat) (zr : BitVec 6) (zc : Cell) (k : Nat) : getGrid (setV ztk zr zc s) k = getGrid s k := rfl
@[simp] theorem getV_setThr (zk : Nat) (zx : Thr) (k : Nat) (q : BitVec 6) : getV (setThr zk zx s) k q = getV s k q := rfl
@[simp] theorem getS_setThr (zk : Nat) (zx : Thr) (k : Nat) (q : BitVec 6) : getS (setThr zk zx s) k q = getS s k q := rfl
@[simp] theorem getP_setThr (zk : Nat) (zx : Thr) (k : Nat) (q : BitVec 3) : getP (setThr zk zx s) k q = getP s k q := rfl
@[simp] theorem getQ_setThr (zk : Nat) (zx : Thr) (k : Nat) (q : BitVec 3) : getQ (setThr zk zx s) k q = getQ s k q := rfl
@[simp] theorem getGrp_setThr (zk : Nat) (zx : Thr) (k : Nat) : getGrp (setThr zk zx s) k = getGrp s k := rfl
@[simp] theorem getTeam_setThr (zk : Nat) (zx : Thr) (k : Nat) : getTeam (setThr zk zx s) k = getTeam s k := rfl
@[simp] theorem getGrid_setThr (zk : Nat) (zx : Thr) (k : Nat) : getGrid (setThr zk zx s) k = getGrid s k := rfl
@[simp] theorem getV_setGrp (zk : Nat) (zx : Grp) (k : Nat) (q : BitVec 6) : getV (setGrp zk zx s) k q = getV s k q := rfl
@[simp] theorem getS_setGrp (zk : Nat) (zx : Grp) (k : Nat) (q : BitVec 6) : getS (setGrp zk zx s) k q = getS s k q := rfl
@[simp] theorem getP_setGrp (zk : Nat) (zx : Grp) (k : Nat) (q : BitVec 3) : getP (setGrp zk zx s) k q = getP s k q := rfl
@[simp] theorem getQ_setGrp (zk : Nat) (zx : Grp) (k : Nat) (q : BitVec 3) : getQ (setGrp zk zx s) k q = getQ s k q := rfl
@[simp] theorem getThr_setGrp (zk : Nat) (zx : Grp) (k : Nat) : getThr (setGrp zk zx s) k = getThr s k := rfl
@[simp] theorem getTeam_setGrp (zk : Nat) (zx : Grp) (k : Nat) : getTeam (setGrp zk zx s) k = getTeam s k := rfl
@[simp] theorem getGrid_setGrp (zk : Nat) (zx : Grp) (k : Nat) : getGrid (setGrp zk zx s) k = getGrid s k := rfl
@[simp] theorem getV_setTeam (zk : Nat) (zx : Team) (k : Nat) (q : BitVec 6) : getV (setTeam zk zx s) k q = getV s k q := rfl
@[simp] theorem getS_setTeam (zk : Nat) (zx : Team) (k : Nat) (q : BitVec 6) : getS (setTeam zk zx s) k q = getS s k q := rfl
@[simp] theorem getP_setTeam (zk : Nat) (zx : Team) (k : Nat) (q : BitVec 3) : getP (setTeam zk zx s) k q = getP s k q := rfl
@[simp] theorem getQ_setTeam (zk : Nat) (zx : Team) (k : Nat) (q : BitVec 3) : getQ (setTeam zk zx s) k q = getQ s k q := rfl
@[simp] theorem getThr_setTeam (zk : Nat) (zx : Team) (k : Nat) : getThr (setTeam zk zx s) k = getThr s k := rfl
@[simp] theorem getGrp_setTeam (zk : Nat) (zx : Team) (k : Nat) : getGrp (setTeam zk zx s) k = getGrp s k := rfl
@[simp] theorem getGrid_setTeam (zk : Nat) (zx : Team) (k : Nat) : getGrid (setTeam zk zx s) k = getGrid s k := rfl
@[simp] theorem getV_setGrid (zk : Nat) (zx : Grid) (k : Nat) (q : BitVec 6) : getV (setGrid zk zx s) k q = getV s k q := rfl
@[simp] theorem getS_setGrid (zk : Nat) (zx : Grid) (k : Nat) (q : BitVec 6) : getS (setGrid zk zx s) k q = getS s k q := rfl
@[simp] theorem getP_setGrid (zk : Nat) (zx : Grid) (k : Nat) (q : BitVec 3) : getP (setGrid zk zx s) k q = getP s k q := rfl
@[simp] theorem getQ_setGrid (zk : Nat) (zx : Grid) (k : Nat) (q : BitVec 3) : getQ (setGrid zk zx s) k q = getQ s k q := rfl
@[simp] theorem getThr_setGrid (zk : Nat) (zx : Grid) (k : Nat) : getThr (setGrid zk zx s) k = getThr s k := rfl
@[simp] theorem getGrp_setGrid (zk : Nat) (zx : Grid) (k : Nat) : getGrp (setGrid zk zx s) k = getGrp s k := rfl
@[simp] theorem getTeam_setGrid (zk : Nat) (zx : Grid) (k : Nat) : getTeam (setGrid zk zx s) k = getTeam s k := rfl
@[simp] theorem getV_setS (zg : Nat) (zr : BitVec 6) (zc : Cell) (k : Nat) (q : BitVec 6) : getV (setS zg zr zc s) k q = getV s k q := by unfold setS; split <;> rfl
@[simp] theorem getP_setS (zg : Nat) (zr : BitVec 6) (zc : Cell) (k : Nat) (q : BitVec 3) : getP (setS zg zr zc s) k q = getP s k q := by unfold setS; split <;> rfl
@[simp] theorem getQ_setS (zg : Nat) (zr : BitVec 6) (zc : Cell) (k : Nat) (q : BitVec 3) : getQ (setS zg zr zc s) k q = getQ s k q := by unfold setS; split <;> rfl
@[simp] theorem getThr_setS (zg : Nat) (zr : BitVec 6) (zc : Cell) (k : Nat) : getThr (setS zg zr zc s) k = getThr s k := by unfold setS; split <;> rfl
@[simp] theorem getGrp_setS (zg : Nat) (zr : BitVec 6) (zc : Cell) (k : Nat) : getGrp (setS zg zr zc s) k = getGrp s k := by unfold setS; split <;> rfl
@[simp] theorem getTeam_setS (zg : Nat) (zr : BitVec 6) (zc : Cell) (k : Nat) : getTeam (setS zg zr zc s) k = getTeam s k := by unfold setS; split <;> rfl
@[simp] theorem getGrid_setS (zg : Nat) (zr : BitVec 6) (zc : Cell) (k : Nat) : getGrid (setS zg zr zc s) k = getGrid s k := by unfold setS; split <;> rfl
@[simp] theorem getV_setP (ztk : Nat) (zq : BitVec 3) (zc : PCell) (k : Nat) (q : BitVec 6) : getV (setP ztk zq zc s) k q = getV s k q := by unfold setP; split <;> rfl
@[simp] theorem getS_setP (ztk : Nat) (zq : BitVec 3) (zc : PCell) (k : Nat) (q : BitVec 6) : getS (setP ztk zq zc s) k q = getS s k q := by unfold setP; split <;> rfl
@[simp] theorem getQ_setP (ztk : Nat) (zq : BitVec 3) (zc : PCell) (k : Nat) (q : BitVec 3) : getQ (setP ztk zq zc s) k q = getQ s k q := by unfold setP; split <;> rfl
@[simp] theorem getThr_setP (ztk : Nat) (zq : BitVec 3) (zc : PCell) (k : Nat) : getThr (setP ztk zq zc s) k = getThr s k := by unfold setP; split <;> rfl
@[simp] theorem getGrp_setP (ztk : Nat) (zq : BitVec 3) (zc : PCell) (k : Nat) : getGrp (setP ztk zq zc s) k = getGrp s k := by unfold setP; split <;> rfl
@[simp] theorem getTeam_setP (ztk : Nat) (zq : BitVec 3) (zc : PCell) (k : Nat) : getTeam (setP ztk zq zc s) k = getTeam s k := by unfold setP; split <;> rfl
@[simp] theorem getGrid_setP (ztk : Nat) (zq : BitVec 3) (zc : PCell) (k : Nat) : getGrid (setP ztk zq zc s) k = getGrid s k := by unfold setP; split <;> rfl
@[simp] theorem getV_setQ (zg : Nat) (zq : BitVec 3) (zc : PCell) (k : Nat) (q : BitVec 6) : getV (setQ zg zq zc s) k q = getV s k q := by unfold setQ; split <;> rfl
@[simp] theorem getS_setQ (zg : Nat) (zq : BitVec 3) (zc : PCell) (k : Nat) (q : BitVec 6) : getS (setQ zg zq zc s) k q = getS s k q := by unfold setQ; split <;> rfl
@[simp] theorem getP_setQ (zg : Nat) (zq : BitVec 3) (zc : PCell) (k : Nat) (q : BitVec 3) : getP (setQ zg zq zc s) k q = getP s k q := by unfold setQ; split <;> rfl
@[simp] theorem getThr_setQ (zg : Nat) (zq : BitVec 3) (zc : PCell) (k : Nat) : getThr (setQ zg zq zc s) k = getThr s k := by unfold setQ; split <;> rfl
@[simp] theorem getGrp_setQ (zg : Nat) (zq : BitVec 3) (zc : PCell) (k : Nat) : getGrp (setQ zg zq zc s) k = getGrp s k := by unfold setQ; split <;> rfl
@[simp] theorem getTeam_setQ (zg : Nat) (zq : BitVec 3) (zc : PCell) (k : Nat) : getTeam (setQ zg zq zc s) k = getTeam s k := by unfold setQ; split <;> rfl
@[simp] theorem getGrid_setQ (zg : Nat) (zq : BitVec 3) (zc : PCell) (k : Nat) : getGrid (setQ zg zq zc s) k = getGrid s k := by unfold setQ; split <;> rfl
@[simp] theorem getV_addOp (zgk zi : Nat) (za : Word) (zk : OpK) (k : Nat) (q : BitVec 6) : getV (addOp zgk zi za zk s) k q = getV s k q := rfl
@[simp] theorem getS_addOp (zgk zi : Nat) (za : Word) (zk : OpK) (k : Nat) (q : BitVec 6) : getS (addOp zgk zi za zk s) k q = getS s k q := rfl
@[simp] theorem getP_addOp (zgk zi : Nat) (za : Word) (zk : OpK) (k : Nat) (q : BitVec 3) : getP (addOp zgk zi za zk s) k q = getP s k q := rfl
@[simp] theorem getQ_addOp (zgk zi : Nat) (za : Word) (zk : OpK) (k : Nat) (q : BitVec 3) : getQ (addOp zgk zi za zk s) k q = getQ s k q := rfl
@[simp] theorem getThr_addOp (zgk zi : Nat) (za : Word) (zk : OpK) (k : Nat) : getThr (addOp zgk zi za zk s) k = getThr s k := rfl
@[simp] theorem getGrp_addOp (zgk zi : Nat) (za : Word) (zk : OpK) (k : Nat) : getGrp (addOp zgk zi za zk s) k = getGrp s k := rfl
@[simp] theorem getTeam_addOp (zgk zi : Nat) (za : Word) (zk : OpK) (k : Nat) : getTeam (addOp zgk zi za zk s) k = getTeam s k := rfl
@[simp] theorem getGrid_addOp (zgk zi : Nat) (za : Word) (zk : OpK) (k : Nat) : getGrid (addOp zgk zi za zk s) k = getGrid s k := rfl
@[simp] theorem getV_dropOp (zid : Nat) (k : Nat) (q : BitVec 6) : getV (dropOp zid s) k q = getV s k q := rfl
@[simp] theorem getS_dropOp (zid : Nat) (k : Nat) (q : BitVec 6) : getS (dropOp zid s) k q = getS s k q := rfl
@[simp] theorem getP_dropOp (zid : Nat) (k : Nat) (q : BitVec 3) : getP (dropOp zid s) k q = getP s k q := rfl
@[simp] theorem getQ_dropOp (zid : Nat) (k : Nat) (q : BitVec 3) : getQ (dropOp zid s) k q = getQ s k q := rfl
@[simp] theorem getThr_dropOp (zid : Nat) (k : Nat) : getThr (dropOp zid s) k = getThr s k := rfl
@[simp] theorem getGrp_dropOp (zid : Nat) (k : Nat) : getGrp (dropOp zid s) k = getGrp s k := rfl
@[simp] theorem getTeam_dropOp (zid : Nat) (k : Nat) : getTeam (dropOp zid s) k = getTeam s k := rfl
@[simp] theorem getGrid_dropOp (zid : Nat) (k : Nat) : getGrid (dropOp zid s) k = getGrid s k := rfl
@[simp] theorem getV_setOp (zid : Nat) (zk : OpK) (k : Nat) (q : BitVec 6) : getV (setOp zid zk s) k q = getV s k q := rfl
@[simp] theorem getS_setOp (zid : Nat) (zk : OpK) (k : Nat) (q : BitVec 6) : getS (setOp zid zk s) k q = getS s k q := rfl
@[simp] theorem getP_setOp (zid : Nat) (zk : OpK) (k : Nat) (q : BitVec 3) : getP (setOp zid zk s) k q = getP s k q := rfl
@[simp] theorem getQ_setOp (zid : Nat) (zk : OpK) (k : Nat) (q : BitVec 3) : getQ (setOp zid zk s) k q = getQ s k q := rfl
@[simp] theorem getThr_setOp (zid : Nat) (zk : OpK) (k : Nat) : getThr (setOp zid zk s) k = getThr s k := rfl
@[simp] theorem getGrp_setOp (zid : Nat) (zk : OpK) (k : Nat) : getGrp (setOp zid zk s) k = getGrp s k := rfl
@[simp] theorem getTeam_setOp (zid : Nat) (zk : OpK) (k : Nat) : getTeam (setOp zid zk s) k = getTeam s k := rfl
@[simp] theorem getGrid_setOp (zid : Nat) (zk : OpK) (k : Nat) : getGrid (setOp zid zk s) k = getGrid s k := rfl

end Sys2Proof.Machine
end

