-- ==== Sys2Proof/Laws/Lane.lean ====
section
/-! SUPPORT. What the shared operation of the lane instructions does: reading sources, the commit, one thread, the whole bundle. -/

namespace Sys2Proof.Machine

/-! ## Reading sources -/

theorem checkFields_none {s : State} {gk tid : Nat} {pc : Word} {all fs : List Fld}
    (h : ∀ f ∈ fs, (getR s gk tid f.uni f.r).st = .full ∨ (getR s gk tid f.uni f.r).st = .dead) :
    checkFields s gk tid pc all fs = .none := by
  induction fs with
  | nil => rfl
  | cons f fs ih =>
    have hf := h f (List.mem_cons_self ..)
    have it := ih fun g hg => h g (List.mem_cons_of_mem _ hg)
    rcases hf with hf | hf <;> simp only [checkFields, hf, it]

theorem checkPreds_none {s : State} {gk tid : Nat} {u : Bool} {ps : List (BitVec 3)}
    (h : ∀ p ∈ ps, (getPQ s gk tid u p).empty = false) : checkPreds s gk tid u ps = .none := by
  induction ps with
  | nil => rfl
  | cons p ps ih =>
    simp only [checkPreds, h p (List.mem_cons_self ..), ih fun q hq => h q (List.mem_cons_of_mem _ hq), Bool.false_eq_true, if_false]

theorem checkDest_none {s : State} {gk tid : Nat} {pc : Word} {F : Form}
    (h : ∀ d, F.dv = .some d → (getR s gk tid F.uni d).st = .full ∨ (getR s gk tid F.uni d).st = .dead) :
    checkDest s gk tid pc F = .none := by
  unfold checkDest
  cases hd : F.dv with
  | none => rfl
  | some d => rcases h d hd with h | h <;> simp only [h]

theorem readCell_full {c : Cell} (h : c.st = .full) : readCell c = (c.v, c.psn) := by simp [readCell, h]

theorem poisonTrap_none {s : State} {gk tid : Nat} {pc : Word} {fs : List Fld}
    (h : ∀ f ∈ fs, f.strict = true → (readCell (getR s gk tid f.uni f.r)).2 = false) : poisonTrap s gk tid pc fs = .none := by
  induction fs with
  | nil => rfl
  | cons f fs ih =>
    have it := ih fun g hg => h g (List.mem_cons_of_mem _ hg)
    cases hs : f.strict with
    | false => simp [poisonTrap, hs, it]
    | true => simp [poisonTrap, hs, h f (List.mem_cons_self ..) hs, it]

/-- Sources that are FULL or DEAD are read, unless a strict one is poisoned. -/
theorem readSources_ok {s : State} {gk tid : Nat} {pc : Word} {F : Form}
    (hf : ∀ f ∈ F.flds, (getR s gk tid f.uni f.r).st = .full ∨ (getR s gk tid f.uni f.r).st = .dead)
    (hs : ∀ f ∈ F.flds, f.strict = true → (readCell (getR s gk tid f.uni f.r)).2 = false)
    (hp : ∀ p ∈ F.preds, (getPQ s gk tid F.uni p).empty = false)
    (hd : ∀ d, F.dv = .some d → (getR s gk tid F.uni d).st = .full ∨ (getR s gk tid F.uni d).st = .dead)
    (hq : ∀ p, F.dp = .some p → (getPQ s gk tid F.uni p).empty = false) :
    readSources s gk tid pc F = .ok (F.flds.map fun f => (readCell (getR s gk tid f.uni f.r)).1)
      (F.flds.any fun f => (readCell (getR s gk tid f.uni f.r)).2) := by
  have e3 := poisonTrap_none (s := s) (gk := gk) (tid := tid) (pc := pc) (fs := F.flds) hs
  unfold readSources
  rw [checkFields_none hf, checkPreds_none hp, checkDest_none hd, e3]
  cases h : F.dp with
  | none => rfl
  | some p =>
    have := checkPreds_none (s := s) (gk := gk) (tid := tid) (u := F.uni) (ps := [p]) fun q hq' => (List.mem_singleton.1 hq') ▸ hq p h
    simp only [this]

theorem overLimit_false {s : State} {gk : Nat} {F : Form}
    (hf : ∀ f ∈ F.flds, f.r.toNat < (if f.uni then (recOf s gk).ns else (recOf s gk).nv))
    (hd : ∀ d, F.dv = .some d → d.toNat < (if F.uni then (recOf s gk).ns else (recOf s gk).nv)) (hm : F.more = []) :
    overLimit s gk F = false := by
  unfold overLimit
  simp only [hm, List.any_nil, Bool.or_false, Bool.or_eq_false_iff, List.any_eq_false, decide_eq_true_eq, not_le]
  refine ⟨hf, ?_⟩
  cases h : F.dv with
  | none => rfl
  | some d => simpa using hd d h

/-! ## The commit -/

@[simp] theorem getV_dropKept (gk i : Nat) (u : Bool) (r : BitVec 6) (s : State) (k : Nat) (q : BitVec 6) :
    getV (dropKept gk i u r s) k q = getV s k q := rfl

theorem kill_v (gk i : Nat) (r : BitVec 6) (s : State) :
    kill gk i false r s = dropKept gk i false r (setV (threadKey gk i) r { getV s (threadKey gk i) r with st := .dead } s) := rfl

/-- What killing a list of v registers of one thread does. -/
theorem killAll_v (gk i : Nat) (ks : List (Bool × BitVec 6)) (hk : ∀ k ∈ ks, k.1 = false) (s : State) :
    (∃ w o, killAll gk i ks s = { s with vreg := w, sc := { s.sc with opc := o } }) ∧
    (∀ k q, getV (killAll gk i ks s) k q =
      if k = threadKey gk i ∧ (false, q) ∈ ks then { getV s k q with st := .dead } else getV s k q) := by
  induction ks generalizing s with
  | nil => exact ⟨⟨s.vreg, s.sc.opc, rfl⟩, fun k q => by simp [killAll]⟩
  | cons x ks ih =>
    obtain ⟨u, r⟩ := x
    have hu : u = false := hk (u, r) (List.mem_cons_self ..)
    subst hu
    have ht := ih (fun k h => hk k (List.mem_cons_of_mem _ h)) (kill gk i false r s)
    have hfold : killAll gk i ((false, r) :: ks) s = killAll gk i ks (kill gk i false r s) := rfl
    rw [hfold]
    refine ⟨?_, fun k q => ?_⟩
    · obtain ⟨w, o, hw⟩ := ht.1
      exact ⟨w, o, by rw [hw, kill_v]; rfl⟩
    · rw [ht.2 k q, kill_v, getV_dropKept, getV_setV]
      by_cases hkq : k = threadKey gk i
      · subst hkq
        by_cases hq : q = r
        · subst hq; simp
        · simp [hq]
      · simp [hkq]

/-- Keeping registers touches the operand caches only (R13). -/
theorem keepRegs_eq (gk i : Nat) (ks : List (Bool × BitVec 6)) (s : State) :
    ∃ o, keepRegs gk i ks s = { s with sc := { s.sc with opc := o } } := by
  unfold keepRegs
  dsimp only
  split
  · exact ⟨s.sc.opc, rfl⟩
  · exact ⟨_, rfl⟩
theorem keepCache_eq (gk i : Nat) (F : Form) (s : State) :
    ∃ o, keepCache gk i F s = { s with sc := { s.sc with opc := o } } := keepRegs_eq ..

theorem orFpx_eq (gk : Nat) (f : Flags) (s : State) :
    (∃ g, orFpx gk f s = { s with grp := g }) ∧
    (∀ k, getGrp (orFpx gk f s) k = if k = gk then { getGrp s k with fpx := (getGrp s k).fpx ||| f } else getGrp s k) := by
  unfold orFpx
  split
  · rename_i h
    subst h
    refine ⟨⟨s.grp, rfl⟩, fun k => ?_⟩
    split
    · have : (getGrp s k).fpx ||| (0 : Flags) = (getGrp s k).fpx := by simp
      rw [this]
    · rfl
  · refine ⟨⟨_, rfl⟩, fun k => ?_⟩
    rw [getGrp_setGrp]
    split
    · rename_i h; subst h; rfl
    · rfl

theorem kills_v {F : Form} (hk : ∀ f ∈ F.flds, f.uni = true → f.c ≠ .last) : ∀ k ∈ kills F, k.1 = false := by
  intro k h
  obtain ⟨f, hf, rfl⟩ := List.mem_map.1 h
  obtain ⟨hf, hc⟩ := List.mem_filter.1 hf
  cases hu : f.uni with
  | false => rfl
  | true => exact absurd (by simpa using hc) (hk f hf hu)

theorem mem_kills {F : Form} (hk : ∀ f ∈ F.flds, f.uni = true → f.c ≠ .last) (r : BitVec 6) :
    (false, r) ∈ kills F ↔ ∃ f ∈ F.flds, f.c = .last ∧ f.r = r := by
  unfold kills
  simp only [List.mem_map, List.mem_filter, beq_iff_eq, Prod.mk.injEq]
  constructor
  · rintro ⟨f, ⟨hf, hc⟩, -, hr⟩; exact ⟨f, hf, hc, hr⟩
  · rintro ⟨f, hf, hc, hr⟩
    refine ⟨f, ⟨hf, hc⟩, ?_, hr⟩
    cases hu : f.uni with
    | false => rfl
    | true => exact absurd hc (hk f hf hu)

/-- Everything the commit of a clean lane instruction does to the state. -/
theorem commit_lane (gk i : Nat) (F : Form) (v : Option Word) (p : Option Bool) (f : Flags) (psn : Bool) (s : State) (hu : F.uni = false)
    (hk : ∀ f ∈ F.flds, f.uni = true → f.c ≠ .last) :
    (∃ w q g o, commit gk i F psn v p f s = { s with vreg := w, pred := q, grp := g, sc := { s.sc with opc := o } }) ∧
    (∀ k r, getV (commit gk i F psn v p f s) k r =
      if k = threadKey gk i ∧ F.dv = .some r ∧ v.isSome then ⟨if psn then poisonWord else v.getD 0, .full, psn⟩
      else if k = threadKey gk i ∧ (false, r) ∈ kills F then { getV s k r with st := .dead } else getV s k r) ∧
    (∀ k r, getP (commit gk i F psn v p f s) k r =
      if k = threadKey gk i ∧ F.dp = .some r ∧ r ≠ 0 ∧ p.isSome then ⟨p.getD false, false⟩ else getP s k r) ∧
    (∀ k, getGrp (commit gk i F psn v p f s) k =
      if k = gk then { getGrp s k with fpx := (getGrp s k).fpx ||| f } else getGrp s k) := by
  obtain ⟨⟨w, o0, hw⟩, hv⟩ := killAll_v gk i (kills F) (kills_v hk) s
  obtain ⟨o, ho⟩ := keepCache_eq gk i F (killAll gk i (kills F) s)
  generalize hs1 : keepCache gk i F (killAll gk i (kills F) s) = s1 at ho
  have hs1' : s1 = { s with vreg := w, sc := { s.sc with opc := o } } := by rw [ho, hw]
  have hv1 : ∀ k r, getV s1 k r =
      if k = threadKey gk i ∧ (false, r) ∈ kills F then { getV s k r with st := .dead } else getV s k r := by
    intro k r; rw [← hv k r, ho]; rfl
  let s2 : State := match F.dv, v with
    | .some d, .some x => writeDst gk i F.uni d (if psn then poisonWord else x) psn s1
    | _, _ => s1
  have h2 : (∃ w2 o2, s2 = { s1 with vreg := w2, sc := { s1.sc with opc := o2 } }) ∧ ∀ k r, getV s2 k r =
      if k = threadKey gk i ∧ F.dv = .some r ∧ v.isSome then ⟨if psn then poisonWord else v.getD 0, .full, psn⟩ else getV s1 k r := by
    simp only [s2]
    cases hd : F.dv with
    | none => exact ⟨⟨s1.vreg, s1.sc.opc, rfl⟩, fun k r => by simp⟩
    | some d =>
      cases v with
      | none => exact ⟨⟨s1.vreg, s1.sc.opc, rfl⟩, fun k r => by simp⟩
      | some x =>
        simp only [hu, writeDst, setR, Bool.false_eq_true, if_false]
        refine ⟨⟨_, _, rfl⟩, fun k r => ?_⟩
        rw [getV_dropKept, getV_setV]
        simp only [Option.some.injEq, Option.isSome_some, and_true, Option.getD_some, eq_comm (a := d)]
  obtain ⟨⟨w2, o2, hw2⟩, hv2⟩ := h2
  let s3 : State := match F.dp, p with | .some d, .some b => setPQ gk i F.uni d ⟨b, false⟩ s2 | _, _ => s2
  have h3 : (∃ q3, s3 = { s2 with pred := q3 }) ∧ (∀ k r, getP s3 k r =
      if k = threadKey gk i ∧ F.dp = .some r ∧ r ≠ 0 ∧ p.isSome then ⟨p.getD false, false⟩ else getP s2 k r) := by
    simp only [s3]
    cases hd : F.dp with
    | none => exact ⟨⟨s2.pred, rfl⟩, fun k r => by simp⟩
    | some d =>
      cases p with
      | none => exact ⟨⟨s2.pred, rfl⟩, fun k r => by simp⟩
      | some b =>
        simp only [hu, setPQ, Bool.false_eq_true, if_false]
        refine ⟨?_, fun k r => ?_⟩
        · unfold setP
          split
          · exact ⟨s2.pred, rfl⟩
          · exact ⟨_, rfl⟩
        · rw [getP_setP]
          by_cases hr : r = d
          · subst hr; simp
          · simp [hr, Ne.symm hr]
  obtain ⟨⟨q3, hq3⟩, hp3⟩ := h3
  obtain ⟨⟨g4, hg4⟩, hg⟩ := orFpx_eq gk f s3
  have hc : commit gk i F psn v p f s = orFpx gk f s3 := by
    simp only [commit, hs1]
    rfl
  rw [hc]
  have hall : orFpx gk f s3 = { s with vreg := w2, pred := q3, grp := g4, sc := { s.sc with opc := o2 } } := by
    rw [hg4, hq3, hw2, hs1']
  refine ⟨⟨w2, q3, g4, o2, hall⟩, fun k r => ?_, fun k r => ?_, fun k => ?_⟩
  · rw [← hv1 k r, ← hv2 k r, hg4, hq3]; rfl
  · have e2 : getP s2 k r = getP s k r := by rw [hw2, hs1']; rfl
    rw [← e2, ← hp3 k r, hg4]; rfl
  · have e3 : getGrp s3 k = getGrp s k := by rw [hq3, hw2, hs1']; rfl
    rw [hg k, e3]

/-! ## One thread, and the bundle -/

/-- Two states that a body of thread `i` cannot tell apart: they differ only in what other threads of the bundle have written. -/
structure Agree (s t : State) (i : Nat) : Prop where
  same : ∃ w q h g o, t = { s with vreg := w, pred := q, thr := h, grp := g, sc := { s.sc with opc := o } }
  pred : ∀ q, getP t (tkOf s i) q = getP s (tkOf s i) q
  grp : ∀ k, ∃ f, getGrp t k = { getGrp s k with fpx := f }

theorem Agree.cur {s t : State} {i : Nat} (h : Agree s t i) : t.cur = s.cur := by
  obtain ⟨w, q, h, g, o, e⟩ := h.same; rw [e]

theorem laneDone_nil (s : State) (F : Form) (v p fl pc) : LaneDone s s [] F v p fl pc where
  dest := by simp
  killed := by simp
  others := fun k r h => absurd rfl h
  destP := by simp
  othersP := fun k r h => absurd rfl h
  next := by simp
  otherThreads := fun k h => absurd rfl h
  fpx := rfl
  otherGroups := fun _ _ => rfl
  rest := rfl

theorem foldl_or_append (fl : Nat → Flags) (ids : List Nat) (i : Nat) (f : Flags) :
    (ids ++ [i]).foldl (fun f i => f ||| fl i) f = ids.foldl (fun f i => f ||| fl i) f ||| fl i := by
  rw [List.foldl_append]; rfl

section Bundle

variable {s t : State} {ids : List Nat} {F : Form} {v : Nat → Option Cell} {p : Nat → Option Bool} {fl : Nat → Flags} {pc : Nat → Word}

/-- A thread that has not issued yet reads what it read at the start. -/
theorem LaneDone.agree (hd : LaneDone s t ids F v p fl pc) {i : Nat} (hi : i < 64) (hs : ∀ j ∈ ids, j < 64) (hn : i ∉ ids) :
    Agree s t i ∧ (∀ r, getV t (tkOf s i) r = getV s (tkOf s i) r) ∧ getThr t (tkOf s i) = getThr s (tkOf s i) := by
  have key : ∀ j ∈ ids, tkOf s i ≠ tkOf s j := fun j hj h => hn (((threadKey_inj hi (hs j hj)).1 h).2 ▸ hj)
  refine ⟨⟨⟨_, _, _, _, _, hd.rest⟩, fun q => ?_, fun k => ?_⟩, fun r => ?_, ?_⟩
  · by_contra h
    obtain ⟨j, hj, hk, -⟩ := hd.othersP _ _ h
    exact key j hj hk
  · by_cases h : k = s.cur.gk
    · subst h; exact ⟨_, hd.fpx⟩
    · exact ⟨_, hd.otherGroups k h⟩
  · by_contra h
    obtain ⟨j, hj, hk, -⟩ := hd.others _ _ h
    exact key j hj hk
  · by_contra h
    obtain ⟨j, hj, hk⟩ := hd.otherThreads _ h
    exact key j hj hk

theorem Agree.getS {i : Nat} (h : Agree s t i) (g : Nat) (r : BitVec 6) : Machine.getS t g r = Machine.getS s g r := by
  obtain ⟨w, q, h, g, o, e⟩ := h.same; rw [e]; rfl

/-- One more thread of a ready bundle has issued. -/
theorem LaneDone.step (hr : LaneReadable s F) (hd : LaneDone s t ids F v p fl pc) {i : Nat} (hi : i ∈ s.cur.tids) (hn : i ∉ ids)
    (hids : ∀ j ∈ ids, j ∈ s.cur.tids) {fp : Bool} {body : List Word → Nat → State → Eff} {x : Option Word} {f : Flags} {psn : Bool}
    {dst : Option Word}
    (hpsn : (F.flds.any fun f => (readCell (getR s s.cur.gk i f.uni f.r)).2) = psn)
    (hb : body (F.flds.map fun f => (readCell (getR s s.cur.gk i f.uni f.r)).1) i t = .val x (p i) f dst)
    (hv : v i = x.map fun y => ⟨if psn then poisonWord else y, .full, psn⟩)
    (hfl : fl i = if psn then (if fp then flNV else 0) else f) (hpc : pc i = dst.getD s.cur.npc) :
    LaneDone s (laneThread F fp body t i) (ids ++ [i]) F v p fl pc := by
  obtain ⟨ha, hav, hat⟩ := hd.agree (hr.small i hi) (fun j hj => hr.small j (hids j hj)) hn
  have hcur := ha.cur
  have hR : ∀ f ∈ F.flds, getR t s.cur.gk i f.uni f.r = getR s s.cur.gk i f.uni f.r := by
    intro f _; unfold getR; cases f.uni <;> simp only [Bool.false_eq_true, if_true, if_false, ha.getS, hav]
  have hguard : guardVal t s.cur.gk i false = .yes := by
    rw [← hr.guard i hi]; unfold guardVal; rw [hcur]
    cases s.cur.guard with
    | none => rfl
    | some g => simp only [getPQ, Bool.false_eq_true, if_false, ha.pred]
  have hread : readSources t s.cur.gk i s.cur.pc F =
      .ok (F.flds.map fun f => (readCell (getR s s.cur.gk i f.uni f.r)).1) psn := by
    rw [readSources_ok]
    · congr 1
      · exact List.map_congr_left fun f h => by rw [hR f h]
      · rw [← hpsn]
        apply Bool.eq_iff_iff.2
        simp only [List.any_eq_true]
        exact exists_congr fun f => and_congr_right fun h => by rw [hR f h]
    · intro f h; rw [hR f h]; exact hr.source i hi f h
    · intro f h hs; rw [hR f h]; exact hr.strict i hi f h hs
    · intro q hq; simp only [hr.lane, getPQ, Bool.false_eq_true, if_false, ha.pred]; exact hr.pred i hi q hq
    · intro d h; simp only [hr.lane, getR, Bool.false_eq_true, if_false, hav]; exact hr.dest i hi d h
    · intro q h; simp only [hr.lane, getPQ, Bool.false_eq_true, if_false, ha.pred]; exact hr.destP i hi q h
  have hlt : laneThread F fp body t i =
      goOn s.cur.gk (pc i) (commit s.cur.gk i F psn x (p i) (fl i) t) i := by
    simp only [laneThread, hcur, hguard, hread, hb, hpc, hfl]
  have hx : ∀ y, v i = .some y → x.isSome = true ∧ y = ⟨if psn then poisonWord else x.getD 0, .full, psn⟩ := by
    intro y h
    cases x with
    | none => rw [hv] at h; simp at h
    | some z => rw [hv] at h; simp at h; simp [h]
  have hxn : x.isSome = true → v i ≠ .none := by
    intro h; cases x with
    | none => simp at h
    | some z => rw [hv]; simp
  have hxn' : v i = .none → x.isSome = false := by
    intro h; cases x with
    | none => rfl
    | some z => rw [hv] at h; simp at h
  obtain ⟨⟨w, q, g, o, he⟩, hv, hp, hg⟩ := commit_lane s.cur.gk i F x (p i) (fl i) psn t hr.lane hr.keepsS
  rw [hlt]
  generalize hu : commit s.cur.gk i F psn x (p i) (fl i) t = u at he hv hp hg
  have hthr : ∀ k, getThr u k = getThr t k := fun k => by rw [he]; rfl
  have hrest := hd.rest
  have ne : ∀ j ∈ ids, tkOf s j ≠ tkOf s i :=
    fun j hj h => hn (((threadKey_inj (hr.small j (hids j hj)) (hr.small i hi)).1 h).2 ▸ hj)
  have mem : ∀ j, j ∈ ids ++ [i] → j ∈ ids ∨ j = i := fun j h => by simpa using h
  constructor
  · intro j hj d y hdv hy
    rw [show getV (goOn s.cur.gk (pc i) u i) (tkOf s j) d = getV u (tkOf s j) d from rfl, hv]
    rcases mem j hj with hj | rfl
    · rw [if_neg fun h => ne j hj h.1, if_neg fun h => ne j hj h.1]; exact hd.dest j hj d y hdv hy
    · rw [if_pos ⟨rfl, hdv, (hx y hy).1⟩, (hx y hy).2]
  · intro j hj f hf hc hnv
    rw [show getV (goOn s.cur.gk (pc i) u i) (tkOf s j) f.r = getV u (tkOf s j) f.r from rfl, hv]
    rcases mem j hj with hj | rfl
    · rw [if_neg fun h => ne j hj h.1, if_neg fun h => ne j hj h.1]; exact hd.killed j hj f hf hc hnv
    · rw [if_neg, if_pos ⟨rfl, (mem_kills hr.keepsS f.r).2 ⟨f, hf, hc, rfl⟩⟩, hav]
      rintro ⟨-, h1, h2⟩; rw [hxn' (hnv h1)] at h2; exact absurd h2 (by simp)
  · intro k r hne
    rw [show getV (goOn s.cur.gk (pc i) u i) k r = getV u k r from rfl, hv] at hne
    by_cases h1 : k = tkOf s i ∧ F.dv = .some r ∧ x.isSome
    · exact ⟨i, by simp, h1.1, .inl ⟨h1.2.1, hxn h1.2.2⟩⟩
    · rw [if_neg h1] at hne
      by_cases h2 : k = tkOf s i ∧ (false, r) ∈ kills F
      · exact ⟨i, by simp, h2.1, .inr ((mem_kills hr.keepsS r).1 h2.2)⟩
      · rw [if_neg h2] at hne
        obtain ⟨j, hj, h⟩ := hd.others k r hne
        exact ⟨j, by simp [hj], h⟩
  · intro j hj z b hdp hpb hz
    rw [show getP (goOn s.cur.gk (pc i) u i) (tkOf s j) z = getP u (tkOf s j) z from rfl, hp]
    rcases mem j hj with hj | rfl
    · rw [if_neg fun h => ne j hj h.1]; exact hd.destP j hj z b hdp hpb hz
    · rw [if_pos ⟨rfl, hdp, hz, by simp [hpb]⟩]; simp [hpb]
  · intro k z hne
    rw [show getP (goOn s.cur.gk (pc i) u i) k z = getP u k z from rfl, hp] at hne
    by_cases h1 : k = tkOf s i ∧ F.dp = .some z ∧ z ≠ 0 ∧ (p i).isSome
    · exact ⟨i, by simp, h1.1, h1.2.1, fun h => by rw [h] at h1; exact absurd h1.2.2.2 (by simp)⟩
    · rw [if_neg h1] at hne
      obtain ⟨j, hj, h⟩ := hd.othersP k z hne
      exact ⟨j, by simp [hj], h⟩
  · intro j hj
    simp only [goOn, getThr_setThr, hthr]
    rcases mem j hj with hj | rfl
    · rw [if_neg (ne j hj)]; exact hd.next j hj
    · rw [if_pos rfl, hat]
  · intro k hne
    by_cases h : k = tkOf s i
    · exact ⟨i, by simp, h⟩
    · simp only [goOn, getThr_setThr, hthr, if_neg h] at hne
      obtain ⟨j, hj, h⟩ := hd.otherThreads k hne
      exact ⟨j, by simp [hj], h⟩
  · rw [show getGrp (goOn s.cur.gk (pc i) u i) s.cur.gk = getGrp u s.cur.gk from rfl, hg, if_pos rfl, hd.fpx, foldl_or_append]
  · intro k hk
    rw [show getGrp (goOn s.cur.gk (pc i) u i) k = getGrp u k from rfl, hg, if_neg hk, hd.otherGroups k hk]
  · rw [show goOn s.cur.gk (pc i) u i = { u with thr := (goOn s.cur.gk (pc i) u i).thr } from rfl, he, hrest]

/-- A lane instruction whose bundle can read, by its body's results: `hb` says what the body answers in every state that differs
only in what other threads have written; a poisoned source poisons the result (R43). -/
theorem lane_readable (hr : LaneReadable s F) {fp : Bool} {body : List Word → Nat → State → Eff} {x : Nat → Option Word}
    {f : Nat → Flags} {psn : Nat → Bool} {dst : Nat → Option Word}
    (hpsn : ∀ i ∈ s.cur.tids, (F.flds.any fun f => (readCell (getR s s.cur.gk i f.uni f.r)).2) = psn i)
    (hb : ∀ i ∈ s.cur.tids, ∀ t, Agree s t i →
      body (F.flds.map fun f => (readCell (getR s s.cur.gk i f.uni f.r)).1) i t = .val (x i) (p i) (f i) (dst i))
    (hv : ∀ i ∈ s.cur.tids, v i = (x i).map fun y => ⟨if psn i then poisonWord else y, .full, psn i⟩)
    (hfl : ∀ i ∈ s.cur.tids, fl i = if psn i then (if fp then flNV else 0) else f i)
    (hpc : ∀ i ∈ s.cur.tids, pc i = (dst i).getD s.cur.npc) :
    ∃ t, lane F fp body s = .next t ∧ LaneDone s t s.cur.tids F v p fl pc := by
  have hlim : overLimit s s.cur.gk F = false :=
    overLimit_false hr.limit (fun d h => by rw [hr.lane]; exact hr.limitD d h) hr.limitM
  have hfold : ∀ (rest ids : List Nat) (t : State), s.cur.tids = ids ++ rest → LaneDone s t ids F v p fl pc →
      LaneDone s (rest.foldl (fun u i => if (getThr u (threadKey u.cur.gk i)).st = .exited then u else laneThread F fp body u i) t)
        (ids ++ rest) F v p fl pc := by
    intro rest
    induction rest with
    | nil => intro ids t _ h; simpa using h
    | cons i rest ih =>
      intro ids t e h
      have hi : i ∈ s.cur.tids := by rw [e]; simp
      have hn : i ∉ ids := by
        have := hr.nodup; rw [e] at this
        exact fun hm => (List.nodup_append.1 this).2.2 i hm i (List.mem_cons_self ..) rfl
      have hids : ∀ j ∈ ids, j ∈ s.cur.tids := fun j hj => by rw [e]; simp [hj]
      obtain ⟨ha, -, hat⟩ := h.agree (hr.small i hi) (fun j hj => hr.small j (hids j hj)) hn
      have hl : ¬ (getThr t (threadKey t.cur.gk i)).st = .exited := by
        rw [ha.cur, hat]; exact hr.live i hi
      rw [List.foldl_cons, if_neg hl]
      have := ih (ids ++ [i]) (laneThread F fp body t i) (by rw [e]; simp)
        (h.step hr hi hn hids (hpsn i hi) (hb i hi t ha) (hv i hi) (hfl i hi) (hpc i hi))
      simpa using this
  refine ⟨_, rfl, ?_⟩
  rw [hlim]
  have := hfold s.cur.tids [] s rfl (laneDone_nil s F v p fl pc)
  simp only [Bool.false_eq_true, if_false, perThread]
  have hc : (s.cur.tids.foldl (fun u i => if (getThr u (threadKey u.cur.gk i)).st = .exited then u else laneThread F fp body u i) s) =
      s.cur.tids.foldl (fun u i => if (getThr u (threadKey u.cur.gk i)).st = .exited then u else laneThread F fp body u i) s := rfl
  simpa using this

/-- A lane instruction whose bundle is ready, its sources clean. -/
theorem lane_done (hr : LaneReady s F) {fp : Bool} {body : List Word → Nat → State → Eff} {x : Nat → Option Word}
    {dst : Nat → Option Word}
    (hb : ∀ i ∈ s.cur.tids, ∀ t, Agree s t i →
      body (F.flds.map fun f => (getR s s.cur.gk i f.uni f.r).v) i t = .val (x i) (p i) (fl i) (dst i))
    (hv : ∀ i ∈ s.cur.tids, v i = (x i).map fun y => ⟨y, .full, false⟩)
    (hpc : ∀ i ∈ s.cur.tids, pc i = (dst i).getD s.cur.npc) :
    ∃ t, lane F fp body s = .next t ∧ LaneDone s t s.cur.tids F v p fl pc := by
  have hc : ∀ i ∈ s.cur.tids, ∀ f ∈ F.flds,
      readCell (getR s s.cur.gk i f.uni f.r) = ((getR s s.cur.gk i f.uni f.r).v, false) := by
    intro i hi f hf
    obtain ⟨h1, h2⟩ := hr.clean i hi f hf
    rw [readCell_full h1, h2]
  refine lane_readable hr.toLaneReadable (psn := fun _ => false) (f := fl) (x := x) (dst := dst) ?_ ?_ ?_ ?_ hpc
  · intro i hi; rw [List.any_eq_false]; intro f hf; simp [hc i hi f hf]
  · intro i hi t ha
    rw [← hb i hi t ha]
    congr 1
    exact List.map_congr_left fun f hf => by rw [hc i hi f hf]
  · intro i hi; simpa using hv i hi
  · intro i hi; simp

end Bundle

/-! ## A bundle of one thread -/

/-- A bundle of one live thread, below the launch's counts, does what that thread does. -/
theorem lane_alone {s : State} {F : Form} {i : Nat} (hlim : overLimit s s.cur.gk F = false)
    (hl : (getThr s (tkOf s i)).st ≠ .exited) (ha : Alone s i) (fp : Bool) (body : List Word → Nat → State → Eff) :
    lane F fp body s = .next (laneThread F fp body s i) := by
  unfold lane perThread
  rw [hlim, ha]
  simp only [Bool.false_eq_true, if_false, List.foldl_cons, List.foldl_nil]
  rw [if_neg hl]

/-- The first strict field that is poisoned takes POISON_USE with its number (R43). -/
theorem poisonTrap_some {s : State} {gk tid : Nat} {pc : Word} {pre post : List Fld} {f : Fld}
    (hpre : ∀ g ∈ pre, g.strict = true → (readCell (getR s gk tid g.uni g.r)).2 = false) (hs : f.strict = true)
    (hf : (readCell (getR s gk tid f.uni f.r)).2 = true) :
    poisonTrap s gk tid pc (pre ++ f :: post) = .some (.trap { name := .poisonUse, pc := pc, info := word f.field }) := by
  induction pre with
  | nil => simp [poisonTrap, hs, hf]
  | cons g pre ih =>
    have it := ih fun h hh => hpre h (List.mem_cons_of_mem _ hh)
    cases hg : g.strict with
    | false => simp [poisonTrap, hg, it]
    | true => simp [poisonTrap, hg, hpre g (List.mem_cons_self ..) hg, it]

/-- Sources that can be read, the first poisoned strict one at `f`. -/
theorem readSources_poison {s : State} {gk tid : Nat} {pc : Word} {F : Form} {pre post : List Fld} {f : Fld}
    (he : F.flds = pre ++ f :: post)
    (hf : ∀ f ∈ F.flds, (getR s gk tid f.uni f.r).st = .full ∨ (getR s gk tid f.uni f.r).st = .dead)
    (hpre : ∀ g ∈ pre, g.strict = true → (readCell (getR s gk tid g.uni g.r)).2 = false) (hs : f.strict = true)
    (hfp : (readCell (getR s gk tid f.uni f.r)).2 = true)
    (hp : ∀ p ∈ F.preds, (getPQ s gk tid F.uni p).empty = false)
    (hd : ∀ d, F.dv = .some d → (getR s gk tid F.uni d).st = .full ∨ (getR s gk tid F.uni d).st = .dead)
    (hq : ∀ p, F.dp = .some p → (getPQ s gk tid F.uni p).empty = false) :
    readSources s gk tid pc F = .trap { name := .poisonUse, pc := pc, info := word f.field } := by
  have e3 : poisonTrap s gk tid pc F.flds = _ := he ▸ poisonTrap_some hpre hs hfp
  unfold readSources
  rw [checkFields_none hf, checkPreds_none hp, checkDest_none hd, e3]
  cases h : F.dp with
  | none => rfl
  | some p =>
    have := checkPreds_none (s := s) (gk := gk) (tid := tid) (u := F.uni) (ps := [p]) fun q hq' => (List.mem_singleton.1 hq') ▸ hq p h
    simp only [this]

end Sys2Proof.Machine
end

