-- ==== Sys2Proof/Laws/Uniform.lean ====
section
/-! SUPPORT. What the shared operations of the uniform instructions do: arriving, passing, reading, the commit. -/

namespace Sys2Proof.Machine

/-! ## Threads of a group -/

/-- What moving a list of threads on does to the threads. -/
theorem goOn_fold (gk : Nat) (pc : Word) (ids : List Nat) (s : State) :
    (∃ h, ids.foldl (goOn gk pc) s = { s with thr := h }) ∧
    ∀ k, getThr (ids.foldl (goOn gk pc) s) k =
      if ∃ i ∈ ids, k = threadKey gk i then { getThr s k with pc := pc, st := .ready, wait := .none } else getThr s k := by
  induction ids generalizing s with
  | nil => exact ⟨⟨s.thr, rfl⟩, fun k => by simp⟩
  | cons i ids ih =>
    obtain ⟨⟨h, hh⟩, hk⟩ := ih (goOn gk pc s i)
    rw [List.foldl_cons]
    refine ⟨⟨h, by rw [hh]; rfl⟩, fun k => ?_⟩
    rw [hk k]
    by_cases h1 : k = threadKey gk i
    · subst h1
      simp only [goOn, getThr_setThr_same, List.mem_cons, exists_eq_or_imp, true_or, if_true]
      split <;> rfl
    · have e : getThr (goOn gk pc s i) k = getThr s k := by simp only [goOn, getThr_setThr, if_neg h1]
      rw [e]; simp only [List.mem_cons, exists_eq_or_imp, h1, false_or]

/-- Passing moves every thread of the domain to the address, ready, and changes nothing else. -/
theorem passGroup_spec (gk : Nat) (pc : Word) (s : State) :
    (∃ h, passGroup gk pc s = { s with thr := h }) ∧
    ∀ k, getThr (passGroup gk pc s) k =
      if ∃ i ∈ domain s gk, k = threadKey gk i then { getThr s k with pc := pc, st := .ready, wait := .none } else getThr s k :=
  goOn_fold gk pc (domain s gk) s

/-- What arriving does to the threads. -/
theorem arrive_fold (gk : Nat) (ids : List Nat) (s : State) :
    (∃ h, ids.foldl (fun s i => setSt gk i .waitConv (keepDenied (getThr s (threadKey gk i)).wait) s) s = { s with thr := h }) ∧
    ∀ k, ∃ w, getThr (ids.foldl (fun s i => setSt gk i .waitConv (keepDenied (getThr s (threadKey gk i)).wait) s) s) k =
      if ∃ i ∈ ids, k = threadKey gk i then { getThr s k with st := .waitConv, wait := w } else getThr s k := by
  induction ids generalizing s with
  | nil => exact ⟨⟨s.thr, rfl⟩, fun k => ⟨.none, by simp⟩⟩
  | cons i ids ih =>
    obtain ⟨⟨h, hh⟩, hk⟩ := ih (setSt gk i .waitConv (keepDenied (getThr s (threadKey gk i)).wait) s)
    rw [List.foldl_cons]
    refine ⟨⟨h, by rw [hh]; rfl⟩, fun k => ?_⟩
    obtain ⟨w, hw⟩ := hk k
    by_cases h1 : k = threadKey gk i
    · subst h1
      by_cases h2 : ∃ j ∈ ids, threadKey gk i = threadKey gk j
      · refine ⟨w, ?_⟩
        rw [hw, if_pos h2, if_pos ⟨i, by simp, rfl⟩]
        simp [setSt]
      · refine ⟨keepDenied (getThr s (threadKey gk i)).wait, ?_⟩
        rw [hw, if_neg h2, if_pos ⟨i, by simp, rfl⟩]
        simp [setSt]
    · refine ⟨w, ?_⟩
      have e : getThr (setSt gk i .waitConv (keepDenied (getThr s (threadKey gk i)).wait) s) k = getThr s k := by
        simp only [setSt, getThr_setThr, if_neg h1]
      rw [hw, e]; simp only [List.mem_cons, exists_eq_or_imp, h1, false_or]

theorem arrive_spec (s : State) :
    (∃ h, arrive s = { s with thr := h }) ∧
    ∀ k, ∃ w, getThr (arrive s) k =
      if ∃ i ∈ s.cur.tids, k = tkOf s i then { getThr s k with st := .waitConv, wait := w } else getThr s k := by
  have hcur : ∀ (ids : List Nat) (u : State), u.cur = s.cur →
      ids.foldl (fun s i => setSt s.cur.gk i .waitConv (keepDenied (getThr s (threadKey s.cur.gk i)).wait) s) u =
      ids.foldl (fun v i => setSt s.cur.gk i .waitConv (keepDenied (getThr v (threadKey s.cur.gk i)).wait) v) u := by
    intro ids
    induction ids with
    | nil => intros; rfl
    | cons i ids ih =>
      intro u hu
      rw [List.foldl_cons, List.foldl_cons, hu]
      exact ih _ hu
  have := arrive_fold s.cur.gk s.cur.tids s
  unfold arrive
  rw [hcur s.cur.tids s rfl]
  exact this

theorem arrive_cur (s : State) : (arrive s).cur = s.cur := by obtain ⟨⟨h, e⟩, -⟩ := arrive_spec s; rw [e]

theorem arrive_exited {s : State} (hl : ∀ i ∈ s.cur.tids, (getThr s (tkOf s i)).st ≠ .exited) (k : Nat) :
    (getThr (arrive s) k).st = .exited ↔ (getThr s k).st = .exited := by
  obtain ⟨w, hw⟩ := (arrive_spec s).2 k
  rw [hw]
  split
  · rename_i h
    obtain ⟨i, hi, rfl⟩ := h
    simp [hl i hi]
  · rfl

theorem live_congr {s t : State} {gk : Nat} (hw : widthOf t gk = widthOf s gk)
    (h : ∀ k, (getThr t k).st = .exited ↔ (getThr s k).st = .exited) : live t gk = live s gk := by
  unfold live
  rw [hw]
  exact List.filter_congr fun i _ => by simp only [ne_eq, h]

theorem mem_domain_live {s : State} {gk i : Nat} (h : i ∈ domain s gk) : (getThr s (threadKey gk i)).st ≠ .exited := by
  have hl : i ∈ live s gk := by
    unfold domain at h
    split at h
    · exact h
    · exact List.mem_of_mem_filter h
  simpa using (List.mem_filter.1 hl).2

theorem mem_domain_width {s : State} {gk i : Nat} (h : i ∈ domain s gk) : i < widthOf s gk := by
  have hl : i ∈ live s gk := by
    unfold domain at h
    split at h
    · exact h
    · exact List.mem_of_mem_filter h
  exact List.mem_range.1 (List.mem_of_mem_filter hl)

/-- A gathered group is converged once its issuers have arrived, and arriving changes no membership. -/
theorem Gathered.arrive {s : State} (h : Gathered s) :
    converged (arrive s) = true ∧ domain (Machine.arrive s) s.cur.gk = domain s s.cur.gk := by
  have hl : ∀ i ∈ s.cur.tids, (getThr s (tkOf s i)).st ≠ .exited := fun i hi => mem_domain_live (h.issuers i hi).1
  obtain ⟨⟨w, he⟩, hk⟩ := arrive_spec s
  have hdom : domain (Machine.arrive s) s.cur.gk = domain s s.cur.gk := by
    have h1 : live (Machine.arrive s) s.cur.gk = live s s.cur.gk := live_congr (by rw [he]; rfl) (arrive_exited hl)
    have h2 : getGrp (Machine.arrive s) s.cur.gk = getGrp s s.cur.gk := by rw [he]; rfl
    unfold domain; rw [h1, h2]
  refine ⟨?_, hdom⟩
  unfold converged
  rw [arrive_cur, hdom, List.all_eq_true]
  intro i hi
  obtain ⟨x, hx⟩ := hk (threadKey s.cur.gk i)
  rw [hx]
  by_cases ht : ∃ j ∈ s.cur.tids, threadKey s.cur.gk i = tkOf s j
  · rw [if_pos ht]
    obtain ⟨j, hj, e⟩ := ht
    have := (h.issuers j hj).2
    simp only [e, this, beq_self_eq_true, Bool.and_self]
  · rw [if_neg ht]
    rcases h.arrived i hi with hi' | ⟨h1, h2⟩
    · exact absurd ⟨i, hi', rfl⟩ ht
    · simp [h1, h2]

/-! ## The uniform instruction -/

theorem thr_only {s t : State} (h : ∃ w, t = { s with thr := w }) :
    (∀ g r, getS t g r = getS s g r) ∧ (∀ g q, getQ t g q = getQ s g q) ∧ t.cur = s.cur ∧ (∀ g, recOf t g = recOf s g) := by
  obtain ⟨w, rfl⟩ := h
  exact ⟨fun _ _ => rfl, fun _ _ => rfl, rfl, fun _ => rfl⟩

/-- A group that is ready reads its sources and goes on to its own effect, in the state in which its issuers have arrived. -/
theorem uniP_ready {s : State} {F : Form} (h : UniReady s F) (priv : Bool)
    (hp : priv = true → userOf (arrive s) s.cur.gk 0 true = false) (k : List Word → Bool → State → State) :
    uniP priv F k s = .next (k (F.flds.map fun f => (getS s s.cur.gk f.r).v) false (arrive s)) := by
  obtain ⟨hc, hd⟩ := h.toGathered.arrive
  obtain ⟨hS, hQ, hcur, hrec⟩ := thr_only (arrive_spec s).1
  unfold uniP converge
  simp only [hc, if_true]
  have hlim : overLimit (arrive s) s.cur.gk F = false := by
    refine overLimit_false (fun f hf => ?_) (fun d hdv => ?_) h.limitM
    · rw [hrec, h.fields f hf]; exact h.limit f hf
    · rw [hrec, h.uniform]; exact h.limitD d hdv
  have hpriv : (priv && userOf (arrive s) s.cur.gk 0 true) = false := by
    cases hb : priv with
    | false => rfl
    | true => simp [hp hb]
  have hg : guardVal (arrive s) s.cur.gk 0 true = .yes := by
    rw [← h.guard]; unfold guardVal; rw [hcur]
    cases s.cur.guard with
    | none => rfl
    | some g => simp only [getPQ, if_true, hQ]
  have hR : ∀ f ∈ F.flds, getR (arrive s) s.cur.gk 0 f.uni f.r = getS s s.cur.gk f.r := by
    intro f hf; simp only [getR, h.fields f hf, if_true, hS]
  have hread : readSources (arrive s) s.cur.gk 0 s.cur.pc F =
      .ok (F.flds.map fun f => (getS s s.cur.gk f.r).v) false := by
    have hcell : ∀ f ∈ F.flds, readCell (getR (arrive s) s.cur.gk 0 f.uni f.r) = ((getS s s.cur.gk f.r).v, false) := by
      intro f hf; rw [hR f hf, readCell_full (h.clean f hf).1, (h.clean f hf).2]
    rw [readSources_ok]
    · congr 1
      · exact List.map_congr_left fun f hf => by rw [hcell f hf]
      · rw [List.any_eq_false]; intro f hf; simp [hcell f hf]
    · intro f hf; rw [hR f hf]; exact .inl (h.clean f hf).1
    · intro f hf _; rw [hcell f hf]
    · intro q hq; simp only [h.uniform, getPQ, if_true, hQ]; exact h.pred q hq
    · intro d hdv; simp only [h.uniform, getR, if_true, hS]; exact h.dest d hdv
    · intro q hq; simp only [h.uniform, getPQ, if_true, hQ]; exact h.destP q hq
  simp only [hcur, hlim, hpriv, hg, hread, Bool.false_eq_true, if_false]

/-! ## The uniform commit -/

@[simp] theorem getS_dropKept (gk i : Nat) (u : Bool) (r : BitVec 6) (s : State) (g : Nat) (q : BitVec 6) :
    getS (dropKept gk i u r s) g q = getS s g q := rfl

theorem kill_s (gk i : Nat) (r : BitVec 6) (s : State) :
    kill gk i true r s = dropKept gk i true r (setS gk r { getS s gk r with st := .dead } s) := rfl

theorem setS_eq (gk : Nat) (r : BitVec 6) (c : Cell) (s : State) : ∃ w, setS gk r c s = { s with sreg := w } := by
  unfold setS; split
  · exact ⟨s.sreg, rfl⟩
  · exact ⟨_, rfl⟩

theorem dropKept_eq (gk i : Nat) (u : Bool) (r : BitVec 6) (s : State) :
    ∃ o, dropKept gk i u r s = { s with sc := { s.sc with opc := o } } := ⟨_, rfl⟩

theorem killAll_s (gk i : Nat) (ks : List (Bool × BitVec 6)) (hk : ∀ k ∈ ks, k.1 = true) (s : State) :
    (∃ w o, killAll gk i ks s = { s with sreg := w, sc := { s.sc with opc := o } }) ∧
    (∀ g q, getS (killAll gk i ks s) g q =
      if g = gk ∧ q ≠ 0 ∧ (true, q) ∈ ks then { getS s g q with st := .dead } else getS s g q) := by
  induction ks generalizing s with
  | nil => exact ⟨⟨s.sreg, s.sc.opc, rfl⟩, fun k q => by simp [killAll]⟩
  | cons x ks ih =>
    obtain ⟨u, r⟩ := x
    have hu : u = true := hk (u, r) (List.mem_cons_self ..)
    subst hu
    have ht := ih (fun k h => hk k (List.mem_cons_of_mem _ h)) (kill gk i true r s)
    have hfold : killAll gk i ((true, r) :: ks) s = killAll gk i ks (kill gk i true r s) := rfl
    have hsr : ∃ w o, kill gk i true r s = { s with sreg := w, sc := { s.sc with opc := o } } := by
      obtain ⟨w, hw⟩ := setS_eq gk r { getS s gk r with st := .dead } s
      obtain ⟨o, ho⟩ := dropKept_eq gk i true r (setS gk r { getS s gk r with st := .dead } s)
      exact ⟨w, o, by rw [kill_s, ho, hw]⟩
    rw [hfold]
    refine ⟨?_, fun g q => ?_⟩
    · obtain ⟨w, o, hw⟩ := ht.1
      obtain ⟨w', o', hw'⟩ := hsr
      exact ⟨w, o, by rw [hw, hw']⟩
    · rw [ht.2 g q, kill_s, getS_dropKept, getS_setS]
      by_cases hg : g = gk
      · subst hg
        by_cases hq : q = r
        · subst hq
          by_cases h0 : q = 0
          · simp [h0]
          · simp only [h0, ne_eq, not_false_eq_true, and_self, true_and, if_true, List.mem_cons, true_or]
            split <;> rfl
        · simp [hq]
      · simp [hg]

theorem mem_kills_s {F : Form} (hk : ∀ f ∈ F.flds, f.uni = true) (r : BitVec 6) :
    (true, r) ∈ kills F ↔ ∃ f ∈ F.flds, f.c = .last ∧ f.r = r := by
  unfold kills
  simp only [List.mem_map, List.mem_filter, beq_iff_eq, Prod.mk.injEq]
  constructor
  · rintro ⟨f, ⟨hf, hc⟩, -, hr⟩; exact ⟨f, hf, hc, hr⟩
  · rintro ⟨f, hf, hc, hr⟩; exact ⟨f, ⟨hf, hc⟩, hk f hf, hr⟩

theorem kills_s {F : Form} (hk : ∀ f ∈ F.flds, f.uni = true) : ∀ k ∈ kills F, k.1 = true := by
  intro k h
  obtain ⟨f, hf, rfl⟩ := List.mem_map.1 h
  exact hk f (List.mem_of_mem_filter hf)

/-- Everything the clean commit of a uniform instruction does. -/
theorem commit_uni (gk : Nat) (F : Form) (v : Option Word) (p : Option Bool) (s : State) (hu : F.uni = true)
    (hk : ∀ f ∈ F.flds, f.uni = true) :
    (∃ w q o, commit gk 0 F false v p 0 s = { s with sreg := w, qpred := q, sc := { s.sc with opc := o } }) ∧
    (∀ g r, getS (commit gk 0 F false v p 0 s) g r =
      if g = gk ∧ F.dv = .some r ∧ r ≠ 0 ∧ v.isSome then ⟨v.getD 0, .full, false⟩
      else if g = gk ∧ r ≠ 0 ∧ (true, r) ∈ kills F then { getS s g r with st := .dead } else getS s g r) ∧
    (∀ g r, getQ (commit gk 0 F false v p 0 s) g r =
      if g = gk ∧ F.dp = .some r ∧ r ≠ 0 ∧ p.isSome then ⟨p.getD false, false⟩ else getQ s g r) := by
  obtain ⟨⟨w, o0, hw⟩, hv⟩ := killAll_s gk 0 (kills F) (kills_s hk) s
  obtain ⟨o, ho⟩ := keepCache_eq gk 0 F (killAll gk 0 (kills F) s)
  generalize hs1 : keepCache gk 0 F (killAll gk 0 (kills F) s) = s1 at ho
  have hs1' : s1 = { s with sreg := w, sc := { s.sc with opc := o } } := by rw [ho, hw]
  have hv1 : ∀ g r, getS s1 g r =
      if g = gk ∧ r ≠ 0 ∧ (true, r) ∈ kills F then { getS s g r with st := .dead } else getS s g r := by
    intro g r; rw [← hv g r, ho]; rfl
  let s2 : State := match F.dv, v with
    | .some d, .some x => writeDst gk 0 F.uni d (if false then poisonWord else x) false s1
    | _, _ => s1
  have h2 : (∃ w2 o2, s2 = { s1 with sreg := w2, sc := { s1.sc with opc := o2 } }) ∧ ∀ g r, getS s2 g r =
      if g = gk ∧ F.dv = .some r ∧ r ≠ 0 ∧ v.isSome then ⟨v.getD 0, .full, false⟩ else getS s1 g r := by
    simp only [s2]
    cases hd : F.dv with
    | none => exact ⟨⟨s1.sreg, s1.sc.opc, rfl⟩, fun k r => by simp⟩
    | some d =>
      cases v with
      | none => exact ⟨⟨s1.sreg, s1.sc.opc, rfl⟩, fun k r => by simp⟩
      | some x =>
        simp only [hu, writeDst, setR, Bool.false_eq_true, if_false, if_true]
        refine ⟨?_, fun g r => ?_⟩
        · obtain ⟨w', hw'⟩ := setS_eq gk d ⟨x, .full, false⟩ s1
          obtain ⟨o', ho'⟩ := dropKept_eq gk 0 true d (setS gk d ⟨x, .full, false⟩ s1)
          exact ⟨w', o', by rw [ho', hw']⟩
        · rw [getS_dropKept, getS_setS]
          by_cases hr : r = d
          · subst hr; simp
          · simp [hr, Ne.symm hr]
  obtain ⟨⟨w2, o2, hw2⟩, hv2⟩ := h2
  let s3 : State := match F.dp, p with | .some d, .some b => setPQ gk 0 F.uni d ⟨b, false⟩ s2 | _, _ => s2
  have h3 : (∃ q3, s3 = { s2 with qpred := q3 }) ∧ (∀ g r, getQ s3 g r =
      if g = gk ∧ F.dp = .some r ∧ r ≠ 0 ∧ p.isSome then ⟨p.getD false, false⟩ else getQ s2 g r) := by
    simp only [s3]
    cases hd : F.dp with
    | none => exact ⟨⟨s2.qpred, rfl⟩, fun k r => by simp⟩
    | some d =>
      cases p with
      | none => exact ⟨⟨s2.qpred, rfl⟩, fun k r => by simp⟩
      | some b =>
        simp only [hu, setPQ, if_true]
        refine ⟨?_, fun g r => ?_⟩
        · unfold setQ; split
          · exact ⟨s2.qpred, rfl⟩
          · exact ⟨_, rfl⟩
        · rw [getQ_setQ]
          by_cases hr : r = d
          · subst hr; simp
          · simp [hr, Ne.symm hr]
  obtain ⟨⟨q3, hq3⟩, hp3⟩ := h3
  have hc : commit gk 0 F false v p 0 s = s3 := by
    simp only [commit, hs1]
    rfl
  rw [hc]
  refine ⟨⟨w2, q3, o2, by rw [hq3, hw2, hs1']⟩, fun g r => ?_, fun g r => ?_⟩
  · rw [show getS s3 g r = getS s2 g r by rw [hq3]; rfl, hv2 g r, hv1 g r]
  · rw [hp3 g r, show getQ s2 g r = getQ s g r by rw [hw2, hs1']; rfl]

/-- A uniform instruction that acts at once, whose group is ready. -/
theorem uniEff_done {s : State} {F : Form} (h : UniReady s F) {body : List Word → Nat → State → Eff} {v : Option Word}
    {p : Option Bool} {f : Flags} {dst : Option Word}
    (hb : body (F.flds.map fun f => (getS s s.cur.gk f.r).v) 0 (arrive s) = .val v p f dst) :
    ∃ t, uniEff F body s = .next t ∧ UniDone s t F v p (dst.getD s.cur.npc) := by
  obtain ⟨-, hd⟩ := h.toGathered.arrive
  obtain ⟨he, hk⟩ := arrive_spec s
  obtain ⟨hS, hQ, hcur, hrec⟩ := thr_only he
  have hstep : uniEff F body s = .next (uniCommit F false v p dst (arrive s)) := by
    have := uniP_ready h false (fun hp => by simp at hp) (fun vals psn s =>
      match body vals 0 s with
      | .trap t => trapGroup t s
      | .val v p _ pc => uniCommit F psn v p pc s)
    rw [hb] at this
    exact this
  refine ⟨_, hstep, ?_⟩
  unfold uniCommit
  rw [hcur]
  obtain ⟨⟨w, q, o, hc⟩, hcS, hcQ⟩ := commit_uni s.cur.gk F v p (arrive s) h.uniform h.fields
  generalize hu : commit s.cur.gk 0 F false v p 0 (arrive s) = u at hc hcS hcQ
  obtain ⟨⟨x, hx⟩, hpass⟩ := passGroup_spec s.cur.gk (dst.getD s.cur.npc) u
  have hdu : domain u s.cur.gk = domain s s.cur.gk := by rw [← hd, hc]; rfl
  have hThr : ∀ k, getThr (passGroup s.cur.gk (dst.getD s.cur.npc) u) k =
      if ∃ i ∈ domain s s.cur.gk, k = tkOf s i then { getThr s k with pc := dst.getD s.cur.npc, st := .ready, wait := .none }
      else getThr s k := by
    intro k
    rw [hpass k, hdu, show getThr u k = getThr (arrive s) k by rw [hc]; rfl]
    obtain ⟨y, hy⟩ := hk k
    split
    · rw [hy]; split <;> rfl
    · rename_i hn
      rw [hy, if_neg]
      rintro ⟨i, hi, e⟩
      exact hn ⟨i, (h.issuers i hi).1, e⟩
  have hSt : ∀ g r, getS (passGroup s.cur.gk (dst.getD s.cur.npc) u) g r = getS u g r := fun g r => by rw [hx]; rfl
  have hQt : ∀ g r, getQ (passGroup s.cur.gk (dst.getD s.cur.npc) u) g r = getQ u g r := fun g r => by rw [hx]; rfl
  obtain ⟨y, he⟩ := he
  constructor
  · intro d z hdv hz h0
    rw [hSt, hcS, if_pos ⟨rfl, hdv, h0, by simp [hz]⟩]; simp [hz]
  · intro f hf hl h0 hnv
    rw [hSt, hcS, if_neg, if_pos ⟨rfl, h0, (mem_kills_s h.fields f.r).2 ⟨f, hf, hl, rfl⟩⟩, hS]
    rintro ⟨-, h1, -, h2⟩; rw [hnv h1] at h2; exact absurd h2 (by simp)
  · intro g r hne
    rw [hSt, hcS] at hne
    by_cases h1 : g = s.cur.gk ∧ F.dv = .some r ∧ r ≠ 0 ∧ v.isSome
    · exact ⟨h1.1, h1.2.2.1, .inl ⟨h1.2.1, fun h => by rw [h] at h1; exact absurd h1.2.2.2 (by simp)⟩⟩
    · rw [if_neg h1] at hne
      by_cases h2 : g = s.cur.gk ∧ r ≠ 0 ∧ (true, r) ∈ kills F
      · exact ⟨h2.1, h2.2.1, .inr ((mem_kills_s h.fields r).1 h2.2.2)⟩
      · rw [if_neg h2, hS] at hne; exact absurd rfl hne
  · intro z b hdp hb hz
    rw [hQt, hcQ, if_pos ⟨rfl, hdp, hz, by simp [hb]⟩]; simp [hb]
  · intro g z hne
    rw [hQt, hcQ] at hne
    by_cases h1 : g = s.cur.gk ∧ F.dp = .some z ∧ z ≠ 0 ∧ p.isSome
    · exact ⟨h1.1, h1.2.1, h1.2.2.1, fun h => by rw [h] at h1; exact absurd h1.2.2.2 (by simp)⟩
    · rw [if_neg h1, hQ] at hne; exact absurd rfl hne
  · intro i hi
    rw [hThr, if_pos ⟨i, hi, rfl⟩]
  · intro k hne
    rw [hThr] at hne
    by_contra h1
    rw [if_neg h1] at hne; exact hne rfl
  · rw [hx, hc, he]

end Sys2Proof.Machine
end

