-- ==== Sys2Proof/Laws/Access.lean ====
section
/-! SUPPORT. What the shared operations of the accesses do: translation touches only the memory side and the program words as they are seen; one thread's or one group's access;
the commit of a long-latency producer. -/

namespace Sys2Proof.Machine

/-! ## Translation changes the memory side only -/

/-- `t` differs from `s` in the memory side, and in the words of launches' code pages as new key material shows them, only. -/
abbrev MemOnly (s t : State) : Prop := ∃ m g, t = { s with mm := m, grid := g }

theorem memOnly_refl (s : State) : MemOnly s s := ⟨s.mm, s.grid, rfl⟩
theorem memOnly_trans {s t u : State} (h : MemOnly s t) (g : MemOnly t u) : MemOnly s u := by
  obtain ⟨m, a, rfl⟩ := h; obtain ⟨n, b, rfl⟩ := g; exact ⟨n, b, rfl⟩
theorem memOnly_foldl {α : Type} {f : State → α → State} (h : ∀ s a, MemOnly s (f s a)) (l : List α) (s : State) :
    MemOnly s (l.foldl f s) := by
  induction l generalizing s with
  | nil => exact memOnly_refl s
  | cons a l ih => exact memOnly_trans (h s a) (ih _)

theorem memOnly_setEntryBit (pe b : Nat) (s : State) : MemOnly s (setEntryBit pe b s) := by
  simp only [setEntryBit]; split
  · exact memOnly_refl s
  · exact ⟨_, _, rfl⟩
theorem memOnly_sweepPage (p : Nat) (s : State) : MemOnly s (sweepPage p s) := by
  unfold sweepPage
  exact memOnly_trans (memOnly_foldl (fun s l => ⟨_, _, rfl⟩) _ s) ⟨_, _, rfl⟩
theorem memOnly_viewPage (pa : Nat) (m : Option (BitVec 512)) (s : State) : MemOnly s (viewPage pa m s) := by
  simp only [viewPage]; split
  · exact memOnly_refl s
  · exact memOnly_trans (memOnly_sweepPage _ s) ⟨_, _, rfl⟩
theorem memOnly_lookup (core asid va : Nat) (s : State) : MemOnly s (lookup core asid va s).2 := by
  simp only [lookup]
  cases s.mm.xlat.find? fun e => e.core == core && e.asid == asid && e.page == va % 2 ^ 57 / 65536 with
  | some e => exact memOnly_refl s
  | none =>
    simp only
    by_cases h : pendingRec s asid (va % 2 ^ 57 / 65536) = true
    · rw [if_pos h]; exact memOnly_refl s
    · rw [if_neg h]
      cases walk s asid va with
      | leaf l => exact memOnly_trans ⟨_, _, rfl⟩ (memOnly_setEntryBit ..)
      | absent => exact memOnly_refl s
      | bad c => exact memOnly_refl s
theorem memOnly_xlate (q : Asker) (va n : Nat) (a : Acc) (user : Bool) (s : State) : MemOnly s (xlate q va n a user s).2 := by
  have h := memOnly_lookup q.core q.asid va s
  unfold xlate
  cases hl : lookup q.core q.asid va s with
  | mk w u =>
    rw [hl] at h
    cases w with
    | leaf l =>
      simp only
      split
      · exact h
      · refine memOnly_trans h ?_
        split
        · exact memOnly_viewPage ..
        · exact memOnly_refl _
    | absent => exact h
    | bad c => exact h
theorem memOnly_planPiece (k : Asker) (user : Bool) (accs : List Acc) (q : Word × Nat) (s : State) :
    MemOnly s (planPiece k user accs q s).2 := by
  unfold planPiece
  have : ∀ (l : List Acc) (x : Plan × State), MemOnly s x.2 → MemOnly s (l.foldl (fun (acc : Plan × State) a =>
      match acc.1 with
      | .ok _ =>
        if k.deny = .some (q.1.toNat % 2 ^ 57 / 65536) then (.page k.asid (q.1.toNat % 2 ^ 57 / 65536), acc.2)
        else match xlate k (q.1.toNat % 2 ^ 57) q.2 a user acc.2 with
        | (.ok pa l, s) => (.ok [⟨⟨pa, q.2, l.kind⟩, l.at_, l.region, q.1⟩], s)
        | (.cause c, s) => (.fault c q.1, s)
        | (.absent, s) => (.page k.asid (q.1.toNat % 2 ^ 57 / 65536), s)
      | .fault c d => (.fault c d, acc.2)
      | .page a p => (.page a p, acc.2)) x).2 := by
    intro l
    induction l with
    | nil => intro x h; exact h
    | cons a l ih =>
      intro x h
      rw [List.foldl_cons]
      apply ih
      split
      · split
        · exact h
        · have hx := memOnly_xlate k (q.1.toNat % 2 ^ 57) q.2 a user x.2
          cases he : xlate k (q.1.toNat % 2 ^ 57) q.2 a user x.2 with
          | mk r u =>
            rw [he] at hx
            cases r <;> exact memOnly_trans h hx
      · exact h
      · exact h
  exact this accs (.ok [], s) (memOnly_refl s)

/-- Planning an access changes the memory side only: the walker's bits and caches (R287, R288). -/
theorem memOnly_plan (gk tid : Nat) (uni user : Bool) (sp : Space) (accs : List Acc) (va : Word) (n : Nat) (s : State) :
    MemOnly s (plan gk tid uni user sp accs va n s).2 := by
  unfold plan
  generalize ({ askerOf s gk with deny := denyOf s gk tid uni } : Asker) = k
  unfold planFor
  extract_lets wr r
  cases sp with
  | s => simp only; split <;> exact memOnly_refl s
  | h => simp only; split <;> exact memOnly_refl s
  | g =>
    simp only
    split
    · exact memOnly_refl s
    · split
      · split <;> exact memOnly_refl s
      · split
        · exact memOnly_refl s
        · have : ∀ (l : List (Word × Nat)) (x : List Plan × State), MemOnly s x.2 →
              MemOnly s (l.foldl (fun (acc : List Plan × State) q =>
                let x := planPiece k user accs q acc.2
                (acc.1 ++ [x.1], x.2)) x).2 := by
            intro l
            induction l with
            | nil => intro x h; exact h
            | cons q l ih =>
              intro x h
              rw [List.foldl_cons]
              exact ih _ (memOnly_trans h (memOnly_planPiece ..))
          exact this _ ([], s) (memOnly_refl s)

/-! ## The commit of an access -/

theorem commitStore_v (i : Nat) (F : Form) (s : State) (hk : ∀ f ∈ F.flds, f.uni = true → f.c ≠ .last) :
    (∃ w o, commitStore i F s = { s with vreg := w, sc := { s.sc with opc := o } }) ∧
    ∀ k q, getV (commitStore i F s) k q =
      if k = tkOf s i ∧ (false, q) ∈ kills F then { getV s k q with st := .dead } else getV s k q := by
  unfold commitStore
  obtain ⟨⟨w, _, hw⟩, hv⟩ := killAll_v s.cur.gk i (kills F) (kills_v hk) s
  obtain ⟨o, ho⟩ := keepCache_eq s.cur.gk i F (killAll s.cur.gk i (kills F) s)
  exact ⟨⟨w, o, by rw [ho, hw]⟩, fun k q => by rw [← hv k q, ho]; rfl⟩

theorem commitStore_s (i : Nat) (F : Form) (s : State) (hk : ∀ f ∈ F.flds, f.uni = true) :
    (∃ w o, commitStore i F s = { s with sreg := w, sc := { s.sc with opc := o } }) ∧
    ∀ g q, getS (commitStore i F s) g q =
      if g = s.cur.gk ∧ q ≠ 0 ∧ (true, q) ∈ kills F then { getS s g q with st := .dead } else getS s g q := by
  unfold commitStore
  obtain ⟨⟨w, _, hw⟩, hv⟩ := killAll_s s.cur.gk i (kills F) (kills_s hk) s
  obtain ⟨o, ho⟩ := keepCache_eq s.cur.gk i F (killAll s.cur.gk i (kills F) s)
  exact ⟨⟨w, o, by rw [ho, hw]⟩, fun g q => by rw [← hv g q, ho]; rfl⟩

/-- What a thread's access without a destination has done when it has passed. -/
theorem issued_lane_store (s : State) (i : Nat) (F : Form) (hd : F.dv = .none) (hp : F.dp = .none)
    (hk : ∀ f ∈ F.flds, f.uni = true → f.c ≠ .last) :
    LaneIssued s (goOn s.cur.gk s.cur.npc (commitStore i F s) i) i F [] := by
  obtain ⟨⟨w, o, he⟩, hv⟩ := commitStore_v i F s hk
  generalize commitStore i F s = u at he hv
  have hth : ∀ k, getThr u k = getThr s k := fun k => by rw [he]; rfl
  constructor
  · intro d h; rw [hd] at h; exact absurd h (by simp)
  · intro f hf hc _
    rw [show getV (goOn s.cur.gk s.cur.npc u i) (tkOf s i) f.r = getV u (tkOf s i) f.r from rfl, hv,
      if_pos ⟨rfl, (mem_kills hk f.r).2 ⟨f, hf, hc, rfl⟩⟩]
  · intro k r hne
    rw [show getV (goOn s.cur.gk s.cur.npc u i) k r = getV u k r from rfl, hv] at hne
    by_cases h : k = tkOf s i ∧ (false, r) ∈ kills F
    · exact ⟨h.1, .inr ((mem_kills hk r).1 h.2)⟩
    · rw [if_neg h] at hne; exact absurd rfl hne
  · intro q h; rw [hp] at h; exact absurd h (by simp)
  · intro k q hne
    rw [show getP (goOn s.cur.gk s.cur.npc u i) k q = getP u k q from rfl, he] at hne; exact absurd rfl hne
  · simp only [goOn, getThr_setThr_same, hth]
  · intro k hne
    simp only [goOn, getThr_setThr, if_neg hne, hth]
  · rw [show goOn s.cur.gk s.cur.npc u i = { u with thr := (goOn s.cur.gk s.cur.npc u i).thr } from rfl, he]
    simp

/-- What a thread's long-latency access has done when it has passed. -/
theorem issued_lane_long (s : State) (i : Nat) (F : Form) (k : OpK) (hu : F.uni = false)
    (hk : ∀ f ∈ F.flds, f.uni = true → f.c ≠ .last) :
    LaneIssued s (goOn s.cur.gk s.cur.npc (addOp s.cur.gk i s.cur.pc k (commitLong i F s)) i) i F
      [newOp s.cur.gk i s.cur.pc k s] := by
  obtain ⟨⟨w, _, hw⟩, hv⟩ := killAll_v s.cur.gk i (kills F) (kills_v hk) s
  obtain ⟨o, ho⟩ := keepCache_eq s.cur.gk i F (killAll s.cur.gk i (kills F) s)
  let s1 : State := keepCache s.cur.gk i F (killAll s.cur.gk i (kills F) s)
  have hs1 : s1 = { s with vreg := w, sc := { s.sc with opc := o } } := by simp only [s1]; rw [ho, hw]
  have hv1 : ∀ k q, getV s1 k q = if k = tkOf s i ∧ (false, q) ∈ kills F then { getV s k q with st := .dead } else getV s k q := by
    intro k q; rw [← hv k q]; simp only [s1]; rw [ho]; rfl
  have hcur : s1.cur = s.cur := by rw [hs1]
  let s2 : State := match F.dv with | .some d => markEmpty s.cur.gk i F.uni d s1 | .none => s1
  have h2 : (∃ w2 o2, s2 = { s1 with vreg := w2, sc := { s1.sc with opc := o2 } }) ∧ ∀ k q, getV s2 k q =
      if k = tkOf s i ∧ F.dv = .some q then { getV s1 k q with st := .empty } else getV s1 k q := by
    simp only [s2]
    cases hd : F.dv with
    | none => exact ⟨⟨s1.vreg, s1.sc.opc, rfl⟩, fun k q => by simp⟩
    | some d =>
      simp only [hu, markEmpty, setR, getR, Bool.false_eq_true, if_false]
      refine ⟨⟨_, _, rfl⟩, fun k q => ?_⟩
      rw [getV_dropKept, getV_setV]
      by_cases hq : q = d
      · subst hq
        by_cases hk : k = tkOf s i
        · subst hk; simp
        · simp [hk]
      · simp [hq, Ne.symm hq]
  obtain ⟨⟨w2, o2, hw2⟩, hv2⟩ := h2
  let s3 : State := match F.dp with
    | .some p => setPQ s.cur.gk i F.uni p { getPQ s2 s.cur.gk i F.uni p with empty := true } s2 | .none => s2
  have h3 : (∃ q3, s3 = { s2 with pred := q3 }) ∧ ∀ k q, getP s3 k q =
      if k = tkOf s i ∧ F.dp = .some q ∧ q ≠ 0 then { getP s2 k q with empty := true } else getP s2 k q := by
    simp only [s3]
    cases hd : F.dp with
    | none => exact ⟨⟨s2.pred, rfl⟩, fun k q => by simp⟩
    | some d =>
      simp only [hu, setPQ, getPQ, Bool.false_eq_true, if_false]
      refine ⟨?_, fun k q => ?_⟩
      · unfold setP; split
        · exact ⟨s2.pred, rfl⟩
        · exact ⟨_, rfl⟩
      · rw [getP_setP]
        by_cases hq : q = d
        · subst hq
          by_cases hk : k = tkOf s i
          · subst hk; simp
          · simp [hk]
        · simp [hq, Ne.symm hq]
  obtain ⟨⟨q3, hq3⟩, hp3⟩ := h3
  have hc : commitLong i F s = s3 := by show emptyDest i F s1 = s3; simp only [emptyDest, hcur]; rfl
  have hall : s3 = { s with vreg := w2, pred := q3, sc := { s.sc with opc := o2 } } := by rw [hq3, hw2, hs1]
  rw [hc]
  have gV : ∀ j r, getV (goOn s.cur.gk s.cur.npc (addOp s.cur.gk i s.cur.pc k s3) i) j r = getV s3 j r := fun _ _ => rfl
  have gP : ∀ j r, getP (goOn s.cur.gk s.cur.npc (addOp s.cur.gk i s.cur.pc k s3) i) j r = getP s3 j r := fun _ _ => rfl
  have hV : ∀ j r, getV s3 j r = if j = tkOf s i ∧ F.dv = .some r then { getV s1 j r with st := .empty } else getV s1 j r := by
    intro j r; rw [hq3]; exact hv2 j r
  have hP : ∀ j r, getP s3 j r =
      if j = tkOf s i ∧ F.dp = .some r ∧ r ≠ 0 then { getP s j r with empty := true } else getP s j r := by
    intro j r
    rw [hp3, show getP s2 j r = getP s j r by rw [hw2, hs1]; rfl]
  have hth : ∀ j, getThr (addOp s.cur.gk i s.cur.pc k s3) j = getThr s j := fun j => by rw [hall]; rfl
  constructor
  · intro d hd
    rw [gV, hV, if_pos ⟨rfl, hd⟩, hv1]
    split <;> rfl
  · intro f hf hcl hne
    rw [gV, hV, if_neg fun c => hne c.2, hv1, if_pos ⟨rfl, (mem_kills hk f.r).2 ⟨f, hf, hcl, rfl⟩⟩]
  · intro j r hne
    rw [gV, hV] at hne
    by_cases h : j = tkOf s i ∧ F.dv = .some r
    · exact ⟨h.1, .inl h.2⟩
    · rw [if_neg h, hv1] at hne
      by_cases h2 : j = tkOf s i ∧ (false, r) ∈ kills F
      · exact ⟨h2.1, .inr ((mem_kills hk r).1 h2.2)⟩
      · rw [if_neg h2] at hne; exact absurd rfl hne
  · intro q hd h0
    rw [gP, hP, if_pos ⟨rfl, hd, h0⟩]
  · intro j q hne
    rw [gP, hP] at hne
    by_cases h : j = tkOf s i ∧ F.dp = .some q ∧ q ≠ 0
    · exact ⟨h.1, h.2.1⟩
    · rw [if_neg h] at hne; exact absurd rfl hne
  · simp only [goOn, getThr_setThr_same, hth]
  · intro j hne
    simp only [goOn, getThr_setThr, if_neg hne, hth]
  · have e1 : ∀ (x : State), goOn s.cur.gk s.cur.npc x i = { x with thr := (goOn s.cur.gk s.cur.npc x i).thr } := fun _ => rfl
    rw [e1, hall]
    rfl

/-- What a group's access without a destination has done when it has passed. -/
theorem issued_uni_store (u : State) (F : Form) (hd : F.dv = .none) (hp : F.dp = .none)
    (hk : ∀ f ∈ F.flds, f.uni = true) :
    UniIssued u (passGroup u.cur.gk u.cur.npc (commitStore 0 F u)) F [] := by
  obtain ⟨⟨w, o, he⟩, hv⟩ := commitStore_s 0 F u hk
  have hdom : domain (commitStore 0 F u) u.cur.gk = domain u u.cur.gk := by rw [he]; rfl
  obtain ⟨⟨h, hpg⟩, hth⟩ := passGroup_spec u.cur.gk u.cur.npc (commitStore 0 F u)
  rw [hdom] at hth
  have gS : ∀ g r, getS (passGroup u.cur.gk u.cur.npc (commitStore 0 F u)) g r = getS (commitStore 0 F u) g r := by
    intro g r; rw [hpg]; rfl
  have gQ : ∀ g r, getQ (passGroup u.cur.gk u.cur.npc (commitStore 0 F u)) g r = getQ u g r := by
    intro g r; rw [hpg, he]; rfl
  have gT : ∀ k, getThr (commitStore 0 F u) k = getThr u k := by intro k; rw [he]; rfl
  constructor
  · intro d h; rw [hd] at h; exact absurd h (by simp)
  · intro f hf hc h0 _
    rw [gS, hv, if_pos ⟨rfl, h0, (mem_kills_s hk f.r).2 ⟨f, hf, hc, rfl⟩⟩]
  · intro g r hne
    rw [gS, hv] at hne
    by_cases h : g = u.cur.gk ∧ r ≠ 0 ∧ (true, r) ∈ kills F
    · exact ⟨h.1, .inr ((mem_kills_s hk r).1 h.2.2)⟩
    · rw [if_neg h] at hne; exact absurd rfl hne
  · intro q h; rw [hp] at h; exact absurd h (by simp)
  · intro g q hne; exact absurd (gQ g q) hne
  · intro i hi; rw [hth, if_pos ⟨i, hi, rfl⟩, gT]
  · intro k hne
    rw [hth] at hne
    by_cases h : ∃ i ∈ domain u u.cur.gk, k = threadKey u.cur.gk i
    · exact h
    · rw [if_neg h, gT] at hne; exact absurd rfl hne
  · rw [hpg, he]; simp

/-- What a group's long-latency access has done when it has passed. -/
theorem issued_uni_long (u : State) (F : Form) (k : OpK) (hu : F.uni = true) (hk : ∀ f ∈ F.flds, f.uni = true) :
    UniIssued u (passGroup u.cur.gk u.cur.npc (addOp u.cur.gk 0xFFFF u.cur.pc k (commitLong 0 F u))) F
      [newOp u.cur.gk 0xFFFF u.cur.pc k u] := by
  obtain ⟨⟨w, o, hw⟩, hv1⟩ := commitStore_s 0 F u hk
  have hcur : (commitStore 0 F u).cur = u.cur := by rw [hw]
  let s2 : State := match F.dv with | .some d => markEmpty u.cur.gk 0 F.uni d (commitStore 0 F u) | .none => commitStore 0 F u
  have h2 : (∃ w2 o2, s2 = { commitStore 0 F u with sreg := w2, sc := { (commitStore 0 F u).sc with opc := o2 } }) ∧ ∀ g q, getS s2 g q =
      if g = u.cur.gk ∧ F.dv = .some q ∧ q ≠ 0 then { getS (commitStore 0 F u) g q with st := .empty }
      else getS (commitStore 0 F u) g q := by
    simp only [s2]
    cases hd : F.dv with
    | none => exact ⟨⟨(commitStore 0 F u).sreg, (commitStore 0 F u).sc.opc, rfl⟩, fun k q => by simp⟩
    | some d =>
      simp only [hu, markEmpty, setR, getR, if_true]
      refine ⟨?_, fun g q => ?_⟩
      · obtain ⟨w', hw'⟩ := setS_eq u.cur.gk d { getS (commitStore 0 F u) u.cur.gk d with st := .empty } (commitStore 0 F u)
        obtain ⟨o', ho'⟩ := dropKept_eq u.cur.gk 0 true d
          (setS u.cur.gk d { getS (commitStore 0 F u) u.cur.gk d with st := .empty } (commitStore 0 F u))
        exact ⟨w', o', by rw [ho', hw']⟩
      · rw [getS_dropKept, getS_setS]
        by_cases hq : q = d
        · subst hq
          by_cases hg : g = u.cur.gk
          · subst hg; simp
          · simp [hg]
        · simp [hq, Ne.symm hq]
  obtain ⟨⟨w2, o2, hw2⟩, hv2⟩ := h2
  let s3 : State := match F.dp with
    | .some p => setPQ u.cur.gk 0 F.uni p { getPQ s2 u.cur.gk 0 F.uni p with empty := true } s2 | .none => s2
  have h3 : (∃ q3, s3 = { s2 with qpred := q3 }) ∧ ∀ g q, getQ s3 g q =
      if g = u.cur.gk ∧ F.dp = .some q ∧ q ≠ 0 then { getQ s2 g q with empty := true } else getQ s2 g q := by
    simp only [s3]
    cases hd : F.dp with
    | none => exact ⟨⟨s2.qpred, rfl⟩, fun k q => by simp⟩
    | some d =>
      simp only [hu, setPQ, getPQ, if_true]
      refine ⟨?_, fun g q => ?_⟩
      · unfold setQ; split
        · exact ⟨s2.qpred, rfl⟩
        · exact ⟨_, rfl⟩
      · rw [getQ_setQ]
        by_cases hq : q = d
        · subst hq
          by_cases hg : g = u.cur.gk
          · subst hg; simp
          · simp [hg]
        · simp [hq, Ne.symm hq]
  obtain ⟨⟨q3, hq3⟩, hp3⟩ := h3
  have hc : commitLong 0 F u = s3 := by show emptyDest 0 F (commitStore 0 F u) = s3; simp only [emptyDest, hcur]; rfl
  have hall : s3 = { u with sreg := w2, qpred := q3, sc := { u.sc with opc := o2 } } := by rw [hq3, hw2, hw]
  rw [hc]
  generalize hs4 : addOp u.cur.gk 0xFFFF u.cur.pc k s3 = s4
  have h4 : s4 = { u with sreg := w2, qpred := q3, sc := { u.sc with opc := o2 }, mm := { u.mm with
      ops := u.mm.ops ++ [newOp u.cur.gk 0xFFFF u.cur.pc k u], nextId := u.mm.nextId + 1 } } := by
    rw [← hs4, hall]; rfl
  obtain ⟨⟨h, hpg⟩, hth⟩ := passGroup_spec u.cur.gk u.cur.npc s4
  have hdom : domain s4 u.cur.gk = domain u u.cur.gk := by rw [h4]; rfl
  rw [hdom] at hth
  have gS : ∀ g r, getS (passGroup u.cur.gk u.cur.npc s4) g r = getS s3 g r := by intro g r; rw [hpg, ← hs4]; rfl
  have gQ : ∀ g r, getQ (passGroup u.cur.gk u.cur.npc s4) g r = getQ s3 g r := by intro g r; rw [hpg, ← hs4]; rfl
  have gT : ∀ k, getThr s4 k = getThr u k := by intro k; rw [h4]; rfl
  have hS : ∀ g q, getS s3 g q = if g = u.cur.gk ∧ F.dv = .some q ∧ q ≠ 0 then { getS (commitStore 0 F u) g q with st := .empty }
      else getS (commitStore 0 F u) g q := by intro g q; rw [hq3]; exact hv2 g q
  have hQ : ∀ g q, getQ s3 g q = if g = u.cur.gk ∧ F.dp = .some q ∧ q ≠ 0 then { getQ u g q with empty := true } else getQ u g q := by
    intro g q; rw [hp3, show getQ s2 g q = getQ u g q by rw [hw2, hw]; rfl]
  constructor
  · intro d hd h0
    rw [gS, hS, if_pos ⟨rfl, hd, h0⟩, hv1]
    split <;> rfl
  · intro f hf hcl h0 hne
    rw [gS, hS, if_neg fun c => hne c.2.1, hv1, if_pos ⟨rfl, h0, (mem_kills_s hk f.r).2 ⟨f, hf, hcl, rfl⟩⟩]
  · intro g r hne
    rw [gS, hS] at hne
    by_cases h : g = u.cur.gk ∧ F.dv = .some r ∧ r ≠ 0
    · exact ⟨h.1, .inl h.2.1⟩
    · rw [if_neg h, hv1] at hne
      by_cases h2 : g = u.cur.gk ∧ r ≠ 0 ∧ (true, r) ∈ kills F
      · exact ⟨h2.1, .inr ((mem_kills_s hk r).1 h2.2.2)⟩
      · rw [if_neg h2] at hne; exact absurd rfl hne
  · intro q hd h0
    rw [gQ, hQ, if_pos ⟨rfl, hd, h0⟩]
  · intro g q hne
    rw [gQ, hQ] at hne
    by_cases h : g = u.cur.gk ∧ F.dp = .some q ∧ q ≠ 0
    · exact ⟨h.1, h.2.1⟩
    · rw [if_neg h] at hne; exact absurd rfl hne
  · intro i hi; rw [hth, if_pos ⟨i, hi, rfl⟩, gT]
  · intro k hne
    rw [hth] at hne
    by_cases h : ∃ i ∈ domain u u.cur.gk, k = threadKey u.cur.gk i
    · exact h
    · rw [if_neg h, gT] at hne; exact absurd rfl hne
  · rw [hpg, h4]; simp

/-! ## One thread's access -/

/-- A bundle of one ready thread does what its access does. -/
theorem accLane_alone {s : State} {F : Form} {i : Nat} (hr : LaneReady s F) (ha : Alone s i)
    (body : List Word → Nat → State → AccGot) :
    accLane F body s = .next (match body (F.flds.map fun f => (getR s s.cur.gk i f.uni f.r).v) i s with
      | .trap t => trapThread i t s
      | .trapIn t u => trapThread i t u
      | .hold b w u => setSt s.cur.gk i (if b || waitsHeld u w then .blocked else .waitOpnd) w (unage u i)
      | .ok u => goOn s.cur.gk u.cur.npc u i
      | .stall id u => setSt s.cur.gk i .waitOpnd (.agent id) u) := by
  have hi : i ∈ s.cur.tids := by rw [ha]; simp
  have hlim : overLimit s s.cur.gk F = false :=
    overLimit_false hr.limit (fun d h => by rw [hr.lane]; exact hr.limitD d h) hr.limitM
  have hread : readSources s s.cur.gk i s.cur.pc F = .ok (F.flds.map fun f => (getR s s.cur.gk i f.uni f.r).v) false := by
    have hcell : ∀ f ∈ F.flds, readCell (getR s s.cur.gk i f.uni f.r) = ((getR s s.cur.gk i f.uni f.r).v, false) := by
      intro f hf; rw [readCell_full (hr.clean i hi f hf).1, (hr.clean i hi f hf).2]
    rw [readSources_ok]
    · congr 1
      · exact List.map_congr_left fun f h => by rw [hcell f h]
      · rw [List.any_eq_false]; intro f hf; simp [hcell f hf]
    · exact hr.source i hi
    · exact hr.strict i hi
    · intro q hq; simp only [hr.lane, getPQ, Bool.false_eq_true, if_false]; exact hr.pred i hi q hq
    · intro d h; simp only [hr.lane, getR, Bool.false_eq_true, if_false]; exact hr.dest i hi d h
    · intro q h; simp only [hr.lane, getPQ, Bool.false_eq_true, if_false]; exact hr.destP i hi q h
  unfold accLane perThread
  rw [hlim, ha]
  simp only [Bool.false_eq_true, if_false, List.foldl_cons, List.foldl_nil]
  rw [if_neg (hr.live i hi)]
  simp only [accThread, hr.guard i hi, hread] <;> rfl

/-- A ready group does what its access does, in the state in which its issuers have arrived. -/
theorem accUni_ready {s : State} {F : Form} (h : UniReady s F) (body : List Word → Nat → State → AccGot) :
    accUni F body s = .next (accGroup (body (F.flds.map fun f => (getS s s.cur.gk f.r).v) 0 (arrive s)) (arrive s)) :=
  uniP_ready h false (fun hp => by simp at hp) (fun vals _ s => accGroup (body vals 0 s) s)

/-- The commits of accesses leave the issue itself alone. -/
theorem killAll_cur (gk i : Nat) (ks : List (Bool × BitVec 6)) (s : State) : (killAll gk i ks s).cur = s.cur := by
  induction ks generalizing s with
  | nil => rfl
  | cons k ks ih =>
    refine (ih _).trans ?_
    simp only [kill, dropKept, setR]
    split
    · unfold setS; split <;> rfl
    · rfl
theorem commitStore_cur (i : Nat) (F : Form) (s : State) : (commitStore i F s).cur = s.cur := by
  unfold commitStore
  obtain ⟨o, ho⟩ := keepCache_eq s.cur.gk i F (killAll s.cur.gk i (kills F) s)
  rw [ho]; exact killAll_cur ..
theorem commitLong_cur (i : Nat) (F : Form) (s : State) : (commitLong i F s).cur = s.cur := by
  have h : (keepCache s.cur.gk i F (killAll s.cur.gk i (kills F) s)).cur = s.cur := commitStore_cur i F s
  have h2 : ∀ (u : State) (d : BitVec 6), (markEmpty s.cur.gk i F.uni d u).cur = u.cur := by
    intro u d; simp only [markEmpty, dropKept, setR]; split
    · unfold setS; split <;> rfl
    · rfl
  have h3 : ∀ (u : State) (p : BitVec 3) (x : PCell), (setPQ s.cur.gk i F.uni p x u).cur = u.cur := by
    intro u p x; simp only [setPQ]; split
    · unfold setQ; split <;> rfl
    · unfold setP; split <;> rfl
  simp only [commitLong, emptyDest, h]
  cases F.dv <;> cases F.dp <;> simp only [h, h2, h3]

/-- A ready thread whose long-latency access passes has issued it. -/
theorem accLane_issues {s u : State} {F : Form} {i : Nat} {k : OpK} {body : List Word → Nat → State → AccGot}
    (hr : LaneReady s F) (ha : Alone s i) (hk : ∀ f ∈ F.flds, f.uni = true → f.c ≠ .last) (hc : u.cur = s.cur)
    (hb : body (F.flds.map fun f => (getR s s.cur.gk i f.uni f.r).v) i s = .ok (addOp s.cur.gk i s.cur.pc k (commitLong i F u))) :
    ∃ t, accLane F body s = .next t ∧ LaneIssued u t i F [newOp s.cur.gk i s.cur.pc k u] := by
  refine ⟨_, (accLane_alone hr ha body).trans (by rw [hb]), ?_⟩
  have h := issued_lane_long u i F k hr.lane hk
  rw [hc] at h
  have hn : (addOp s.cur.gk i s.cur.pc k (commitLong i F u)).cur = s.cur := (commitLong_cur i F u).trans hc
  simp only [hn]
  exact h

/-- A ready thread whose access without a destination passes has done it. -/
theorem accLane_passes {s u : State} {F : Form} {i : Nat} {body : List Word → Nat → State → AccGot}
    (hr : LaneReady s F) (ha : Alone s i) (hk : ∀ f ∈ F.flds, f.uni = true → f.c ≠ .last) (hd : F.dv = .none) (hp : F.dp = .none)
    (hc : u.cur = s.cur)
    (hb : body (F.flds.map fun f => (getR s s.cur.gk i f.uni f.r).v) i s = .ok (commitStore i F u)) :
    ∃ t, accLane F body s = .next t ∧ LaneIssued u t i F [] := by
  refine ⟨_, (accLane_alone hr ha body).trans (by rw [hb]), ?_⟩
  have h := issued_lane_store u i F hd hp hk
  rw [hc] at h
  simp only [commitStore_cur, hc]
  exact h

/-- A ready group whose long-latency access passes has issued it. -/
theorem accUni_issues {s u : State} {F : Form} {k : OpK} {body : List Word → Nat → State → AccGot} (hr : UniReady s F)
    (hc : u.cur = s.cur)
    (hb : body (F.flds.map fun f => (getS s s.cur.gk f.r).v) 0 (arrive s) = .ok (addOp s.cur.gk 0xFFFF s.cur.pc k (commitLong 0 F u))) :
    ∃ t, accUni F body s = .next t ∧ UniIssued u t F [newOp s.cur.gk 0xFFFF s.cur.pc k u] := by
  refine ⟨_, (accUni_ready hr body).trans (by rw [hb]), ?_⟩
  have h := issued_uni_long u F k hr.uniform hr.fields
  rw [hc] at h
  have hn : (addOp s.cur.gk 0xFFFF s.cur.pc k (commitLong 0 F u)).cur = s.cur := (commitLong_cur 0 F u).trans hc
  simp only [accGroup, hn]
  exact h

end Sys2Proof.Machine
end

