-- ==== Sys2Proof/Laws/Memory.lean ====
section
/-! SUPPORT. The laws of the physical memory: what is read after a write, and that every operation over memory keeps its canonical
form. -/

namespace Sys2Proof.Machine

/-! ## Reading after writing -/

/-- What an address reads as after bytes have been written: the written byte inside their range, the old one outside it. -/
theorem tget_putBytes (bs : List Byte) (pa a : Nat) (m : Tab Byte) :
    tget 0 a (putBytes pa bs m) = if pa ≤ a ∧ a < pa + bs.length then bs.getD (a - pa) 0 else tget 0 a m := by
  induction bs generalizing pa m with
  | nil => simp [putBytes]
  | cons b bs ih =>
    rw [putBytes, ih, tget_tset]
    by_cases h : a = pa
    · subst h; simp [show ¬ (a + 1 ≤ a) by omega]
    · rw [if_neg h]
      by_cases h2 : pa + 1 ≤ a ∧ a < pa + 1 + bs.length
      · rw [if_pos h2, if_pos (by simp only [List.length_cons]; omega), show a - pa = (a - (pa + 1)) + 1 by omega]
        simp
      · rw [if_neg h2, if_neg (by simp only [List.length_cons]; omega)]

/-- A byte reads what the last write of its range put there. -/
theorem pread_pwrite_same (pa : Nat) (bs : List Byte) (s : State) : pread (pwrite pa bs s) pa bs.length = bs := by
  apply List.ext_getElem
  · simp [pread]
  · intro i h1 h2
    simp only [pread, pwrite, List.getElem_map, List.getElem_range, tget_putBytes]
    rw [if_pos ⟨Nat.le_add_right .., Nat.add_lt_add_left h2 _⟩, show pa + i - pa = i by omega]
    exact List.getD_eq_getElem _ _ h2

/-- A write leaves every byte outside its range alone. -/
theorem tget_pwrite_other {pa a : Nat} {bs : List Byte} (h : a < pa ∨ pa + bs.length ≤ a) (s : State) :
    tget 0 a (pwrite pa bs s).mm.mem = tget 0 a s.mm.mem := by
  simp only [pwrite, tget_putBytes]
  rw [if_neg (by omega)]

/-- Only masked bytes are written. -/
theorem tget_putMasked (bs : List Byte) (pa i a : Nat) (mask : BitVec 128) (m : Tab Byte) :
    tget 0 a (putMasked pa mask i bs m) =
      if pa + i ≤ a ∧ a < pa + i + bs.length ∧ mask.getLsbD (a - pa) = true then bs.getD (a - pa - i) 0 else tget 0 a m := by
  induction bs generalizing i m with
  | nil => simp [putMasked]; omega
  | cons b bs ih =>
    rw [putMasked, ih]
    by_cases h : a = pa + i
    · subst h
      rw [if_neg (by omega)]
      simp only [show pa + i - pa = i by omega]
      cases hm : mask.getLsbD i with
      | true => simp
      | false => simp
    · by_cases h2 : pa + (i + 1) ≤ a ∧ a < pa + (i + 1) + bs.length ∧ mask.getLsbD (a - pa) = true
      · rw [if_pos h2, if_pos ⟨by omega, by simp only [List.length_cons]; omega, h2.2.2⟩,
          show a - pa - i = (a - pa - (i + 1)) + 1 by omega]
        simp
      · have h3 : ¬ (pa + i ≤ a ∧ a < pa + i + (b :: bs).length ∧ mask.getLsbD (a - pa) = true) := fun c =>
          h2 ⟨by omega, by have := c.2.1; simp only [List.length_cons] at this; omega, c.2.2⟩
        rw [if_neg h2, if_neg h3]
        cases mask.getLsbD i with
        | true => exact tget_tset_ne _ _ h _
        | false => rfl

/-! ## The canonical form -/

theorem wf_putBytes (bs : List Byte) (pa : Nat) {m : Tab Byte} (h : Memory.wf m) : Memory.wf (putBytes pa bs m) := by
  induction bs generalizing pa m with
  | nil => exact h
  | cons b bs ih => exact ih (pa + 1) (tabWf_tset pa b h)

theorem wf_putMasked (bs : List Byte) (pa i : Nat) (mask : BitVec 128) {m : Tab Byte} (h : Memory.wf m) :
    Memory.wf (putMasked pa mask i bs m) := by
  induction bs generalizing i m with
  | nil => exact h
  | cons b bs ih =>
    rw [putMasked]
    split
    · exact ih _ (tabWf_tset _ b h)
    · exact ih _ h

/-- A write keeps the canonical form. -/
theorem wf_pwrite (pa : Nat) (bs : List Byte) {s : State} (h : Memory.wf s.mm.mem) : Memory.wf (pwrite pa bs s).mm.mem :=
  wf_putBytes bs pa h

theorem wf_pwriteN (pa n v : Nat) {s : State} (h : Memory.wf s.mm.mem) : Memory.wf (pwriteN pa n v s).mm.mem := wf_pwrite _ _ h

/-- A masked write keeps it. -/
theorem wf_pwriteMasked (pa : Nat) (mask : BitVec 128) (bs : List Byte) {s : State} (h : Memory.wf s.mm.mem) :
    Memory.wf (pwriteMasked pa mask bs s).mm.mem := wf_putMasked bs pa 0 mask h

/-- The walker's bits keep it. -/
theorem wf_setEntryBit (pe b : Nat) {s : State} (h : Memory.wf s.mm.mem) : Memory.wf (setEntryBit pe b s).mm.mem := by
  simp only [setEntryBit]
  split
  · exact h
  · exact tabWf_tset _ _ h

theorem wf_foldl {α : Type} {f : State → α → State} (hf : ∀ s a, Memory.wf s.mm.mem → Memory.wf (f s a).mm.mem) (l : List α)
    {s : State} (h : Memory.wf s.mm.mem) : Memory.wf (l.foldl f s).mm.mem := by
  induction l generalizing s with
  | nil => exact h
  | cons a l ih => exact ih (hf s a h)

/-- The sweep of a page out of the caches keeps it. -/
theorem wf_sweepPage (page : Nat) {s : State} (h : Memory.wf s.mm.mem) : Memory.wf (sweepPage page s).mm.mem :=
  wf_foldl (fun _ _ h => wf_pwriteMasked _ _ _ h) _ h

/-- Reading a page under other key material keeps it. -/
theorem wf_recodePage (old new : Option (BitVec 512)) (page : Nat) {m : Tab Byte} (h : Memory.wf m) :
    Memory.wf (recodePage old new page m) := by
  unfold recodePage
  generalize List.range 4096 = l
  induction l generalizing m with
  | nil => exact h
  | cons i l ih => exact ih (wf_putBytes _ _ h)

/-- Seeing a page under other key material keeps it. -/
theorem wf_viewPage (pa : Nat) (m : Option (BitVec 512)) {s : State} (h : Memory.wf s.mm.mem) :
    Memory.wf (viewPage pa m s).mm.mem := by
  unfold viewPage
  generalize pa / 65536 = page
  have hw := wf_sweepPage page h
  simp only
  generalize sweepPage page s = u at hw ⊢
  split
  · exact h
  · have := wf_recodePage (tget .none page s.mm.wrapped) m page hw
    generalize recodePage (tget .none page s.mm.wrapped) m page u.mm.mem = x at this ⊢
    exact this

/-- Translation keeps it. -/
theorem wf_lookup (core asid va : Nat) {s : State} (h : Memory.wf s.mm.mem) : Memory.wf (lookup core asid va s).2.mm.mem := by
  simp only [lookup]
  cases s.mm.xlat.find? fun e => e.core == core && e.asid == asid && e.page == va % 2 ^ 57 / 65536 with
  | some e => exact h
  | none =>
    simp only
    by_cases hp : pendingRec s asid (va % 2 ^ 57 / 65536) = true
    · rw [if_pos hp]; exact h
    · rw [if_neg hp]
      cases walk s asid va with
      | leaf l => exact wf_setEntryBit _ _ h
      | absent => exact h
      | bad c => exact h

theorem wf_xlate (q : Asker) (va n : Nat) (a : Acc) (user : Bool) {s : State} (h : Memory.wf s.mm.mem) :
    Memory.wf (xlate q va n a user s).2.mm.mem := by
  have hl := wf_lookup q.core q.asid va h
  unfold xlate
  cases hw : lookup q.core q.asid va s with
  | mk w u =>
    rw [hw] at hl
    cases w with
    | leaf l =>
      simp only
      split
      · exact hl
      · split
        · exact wf_viewPage _ _ hl
        · exact hl
    | absent => exact hl
    | bad c => exact hl

/-- A range of memory moved over another place keeps it (R381). -/
theorem wf_shiftInto (src dst n : Nat) {m : Tab Byte} (h : Memory.wf m) : Memory.wf (shiftInto src dst n m) := by
  obtain ⟨hs, hd⟩ := h
  simp only [shiftInto]
  refine ⟨?_, ?_⟩
  · rw [List.append_assoc, List.pairwise_append, List.pairwise_append]
    refine ⟨hs.filter _, ⟨?_, hs.filter _, ?_⟩, ?_⟩
    · rw [List.pairwise_map, List.pairwise_filter]
      refine hs.imp fun {a b} hab ha hb => ?_
      simp only [decide_eq_true_eq] at ha hb
      simp only
      omega
    · intro p hp q hq
      rw [List.mem_map] at hp
      obtain ⟨x, hx, rfl⟩ := hp
      simp only [List.mem_filter, decide_eq_true_eq] at hx hq
      simp only
      omega
    · intro p hp q hq
      simp only [List.mem_filter, decide_eq_true_eq] at hp
      rw [List.mem_append, List.mem_map] at hq
      rcases hq with ⟨x, hx, rfl⟩ | hq
      · simp only [List.mem_filter, decide_eq_true_eq] at hx
        simp only
        omega
      · simp only [List.mem_filter, decide_eq_true_eq] at hq
        omega
  · intro p hp
    simp only [List.mem_append, List.mem_map, List.mem_filter] at hp
    rcases hp with (hp | ⟨x, hx, rfl⟩) | hp
    · exact hd p hp.1
    · exact hd x hx.1
    · exact hd p hp.1

/-- A module reset keeps it (R394). -/
theorem wf_afterReset {s : State} (h : Memory.wf s.mm.mem) : Memory.wf (afterReset s).mm.mem := tabWf_filter _ h

/-- The memory of the reset state lists nothing. -/
theorem wf_reset : Memory.wf State.reset.mm.mem := tabWf_nil 0

end Sys2Proof.Machine
end

