-- ==== Sys2Proof/Laws/Caches.lean ====
section
/-! SUPPORT. What the caches do (R230, R231, R234, R312): they change memory, its marks, the L1s, the combining buffers, the directory and
the Gloss units' event queues, and nothing else; and they keep the canonical form of memory. -/

namespace Sys2Proof.Machine

/-- `t` differs from `s` in memory, its marks, the caches, the directory and the Gloss units only. -/
abbrev CacheOnly (s t : State) : Prop := ∃ m b h l c d g,
  t = { s with mm := { s.mm with mem := m, bad := b, badH := h, l1 := l, comb := c, dir := d }, gl := g } ∧ (Memory.wf s.mm.mem → Memory.wf m)

theorem cacheOnly_refl (s : State) : CacheOnly s s :=
  ⟨s.mm.mem, s.mm.bad, s.mm.badH, s.mm.l1, s.mm.comb, s.mm.dir, s.gl, rfl, id⟩

theorem cacheOnly_trans {s t u : State} (h : CacheOnly s t) (k : CacheOnly t u) : CacheOnly s u := by
  obtain ⟨m, b, e, l, c, d, g, rfl, hm⟩ := h
  obtain ⟨m', b', e', l', c', d', g', rfl, hm'⟩ := k
  exact ⟨m', b', e', l', c', d', g', rfl, fun h => hm' (hm h)⟩

theorem cacheOnly_foldl {α : Type} {f : State → α → State} (h : ∀ s a, CacheOnly s (f s a)) (l : List α) (s : State) :
    CacheOnly s (l.foldl f s) := by
  induction l generalizing s with
  | nil => exact cacheOnly_refl s
  | cons a l ih => exact cacheOnly_trans (h s a) (ih _)

theorem cacheOnly_ite {p : Prop} [Decidable p] {s t u : State} (h : CacheOnly s t) (k : CacheOnly s u) :
    CacheOnly s (if p then t else u) := by
  split
  · exact h
  · exact k

theorem cacheOnly_gl (s : State) (g : Tab GUnit) : CacheOnly s { s with gl := g } :=
  ⟨s.mm.mem, s.mm.bad, s.mm.badH, s.mm.l1, s.mm.comb, s.mm.dir, g, rfl, id⟩
theorem cacheOnly_l1 (s : State) (l : List Line) : CacheOnly s { s with mm := { s.mm with l1 := l } } :=
  ⟨s.mm.mem, s.mm.bad, s.mm.badH, l, s.mm.comb, s.mm.dir, s.gl, rfl, id⟩
theorem cacheOnly_comb (s : State) (c : List Line) : CacheOnly s { s with mm := { s.mm with comb := c } } :=
  ⟨s.mm.mem, s.mm.bad, s.mm.badH, s.mm.l1, c, s.mm.dir, s.gl, rfl, id⟩
theorem cacheOnly_dir (s : State) (d : Tab DirEnt) : CacheOnly s { s with mm := { s.mm with dir := d } } :=
  ⟨s.mm.mem, s.mm.bad, s.mm.badH, s.mm.l1, s.mm.comb, d, s.gl, rfl, id⟩

theorem cacheOnly_pwrite (pa : Nat) (bs : List Byte) (s : State) : CacheOnly s (pwrite pa bs s) :=
  ⟨_, _, _, s.mm.l1, s.mm.comb, s.mm.dir, s.gl, rfl, fun h => wf_pwrite pa bs h⟩
theorem cacheOnly_pwriteMasked (pa : Nat) (mask : BitVec 128) (bs : List Byte) (s : State) :
    CacheOnly s (pwriteMasked pa mask bs s) :=
  ⟨_, _, _, s.mm.l1, s.mm.comb, s.mm.dir, s.gl, rfl, fun h => wf_pwriteMasked pa mask bs h⟩

theorem cacheOnly_tap (die cls a b src ctx : Nat) (s : State) : CacheOnly s (tap die cls a b src ctx s) := cacheOnly_gl s _
theorem cacheOnly_tapLine (ctx core line : Nat) (wr e : Bool) (s : State) : CacheOnly s (tapLine ctx core line wr e s) := cacheOnly_tap ..
theorem cacheOnly_dirTap (ctx r line : Nat) (s : State) : CacheOnly s (dirTap ctx r line s) := cacheOnly_tap ..

theorem cacheOnly_tapMiss (ctx line : Nat) (wr : Bool) (s : State) : CacheOnly s (tapMiss ctx line wr s) := cacheOnly_tap ..

/-- The start of a transaction touches the taps only (R312, R325). -/
theorem cacheOnly_dirStart (ctx r line : Nat) (wr : Bool) (s : State) : CacheOnly s (dirStart ctx r line wr s) :=
  cacheOnly_ite (cacheOnly_refl s)
    (cacheOnly_trans (cacheOnly_dirTap ctx r line s) (cacheOnly_ite (cacheOnly_tapMiss ..) (cacheOnly_refl _)))

theorem cacheOnly_dirRead (ctx r line : Nat) (s : State) : CacheOnly s (dirRead ctx r line s) :=
  cacheOnly_trans (cacheOnly_dirStart ctx r line false s) (cacheOnly_dir _ _)
theorem cacheOnly_dirWrite (ctx r line : Nat) (s : State) : CacheOnly s (dirWrite ctx r line s) :=
  cacheOnly_trans (cacheOnly_dirStart ctx r line true s) (cacheOnly_dir _ _)
theorem cacheOnly_dirHome (ctx r line : Nat) (s : State) : CacheOnly s (dirHome ctx r line s) :=
  cacheOnly_trans (cacheOnly_ite (cacheOnly_refl s) (cacheOnly_dirTap ctx r line s)) (cacheOnly_dir _ _)
theorem cacheOnly_dirWriteBack (ctx o line : Nat) (s : State) : CacheOnly s (dirWriteBack ctx o line s) :=
  cacheOnly_ite (cacheOnly_trans (cacheOnly_dirTap ctx o line s) (cacheOnly_dir _ _)) (cacheOnly_refl s)
theorem cacheOnly_dirEvict (ctx r line : Nat) (s : State) : CacheOnly s (dirEvict ctx r line s) :=
  cacheOnly_ite (cacheOnly_trans (cacheOnly_dirTap ctx r line s) (cacheOnly_dir _ _)) (cacheOnly_refl s)

theorem cacheOnly_dirLines {f : Nat → State → State} (h : ∀ l s, CacheOnly s (f l s)) (pa n : Nat) (s : State) :
    CacheOnly s (dirLines f pa n s) := by
  unfold dirLines
  exact cacheOnly_ite (cacheOnly_foldl (fun s i => h _ s) _ s) (cacheOnly_refl s)

theorem cacheOnly_pmark (pa n : Nat) (s : State) : CacheOnly s (pmark pa n s) :=
  ⟨_, _, _, s.mm.l1, s.mm.comb, s.mm.dir, s.gl, rfl, id⟩
theorem cacheOnly_markBad (l : Line) (s : State) : CacheOnly s (markBad l s) := cacheOnly_foldl (fun _ _ => cacheOnly_pmark ..) _ s

theorem cacheOnly_sendBack (core line : Nat) (s : State) : CacheOnly s (sendBack core line s) := by
  simp only [sendBack]
  split
  · exact cacheOnly_refl s
  · split
    · exact cacheOnly_refl s
    · exact cacheOnly_trans 
        (cacheOnly_trans (cacheOnly_trans (cacheOnly_pwriteMasked ..) (cacheOnly_markBad ..)) (cacheOnly_dirWrite ..)) (cacheOnly_l1 _ _)

theorem cacheOnly_writeBackLine (core line : Nat) (s : State) : CacheOnly s (writeBackLine core line s) :=
  cacheOnly_ite (cacheOnly_sendBack core line s) (cacheOnly_refl s)

theorem cacheOnly_writeBackAll (ls : List Line) (s : State) : CacheOnly s (writeBackAll ls s) :=
  cacheOnly_foldl (fun _ _ => cacheOnly_writeBackLine ..) ls s

theorem cacheOnly_markDue (core : Nat) (uo : Bool) (n : BitVec 3) (s : State) : CacheOnly s (markDue core uo n s) := cacheOnly_l1 s _
theorem cacheOnly_performDue (core : Nat) (s : State) : CacheOnly s (performDue core s) := cacheOnly_writeBackAll ..
theorem cacheOnly_performDie (core : Nat) (s : State) : CacheOnly s (performDie core s) := cacheOnly_writeBackAll ..

theorem cacheOnly_fillLine (ctx core line : Nat) (uo wr : Bool) (s : State) : CacheOnly s (fillLine ctx core line uo wr s) := by
  simp only [fillLine]
  split
  · exact cacheOnly_refl s
  · exact cacheOnly_trans
      (cacheOnly_trans (cacheOnly_trans (cacheOnly_performDie core s) (cacheOnly_tapLine ..)) (cacheOnly_dirRead ..)) (cacheOnly_l1 _ _)

theorem cacheOnly_dirtyLine (ctx core line off : Nat) (bs : List Byte) (uo : Bool) (s : State) :
    CacheOnly s (dirtyLine ctx core line off bs uo s) :=
  cacheOnly_trans (cacheOnly_fillLine ..) (cacheOnly_l1 _ _)

theorem cacheOnly_drainEntry (core line : Nat) (s : State) : CacheOnly s (drainEntry core line s) := by
  simp only [drainEntry]
  split
  · exact cacheOnly_refl s
  · exact cacheOnly_trans (cacheOnly_trans (cacheOnly_comb s _) (cacheOnly_fillLine ..)) (cacheOnly_l1 _ _)

theorem cacheOnly_combine (ctx core line off : Nat) (bs : List Byte) (s : State) : CacheOnly s (combine ctx core line off bs s) :=
  cacheOnly_comb s _

theorem cacheOnly_flushLine (core line : Nat) (s : State) : CacheOnly s (flushLine core line s) :=
  cacheOnly_trans (cacheOnly_trans (cacheOnly_drainEntry ..) (cacheOnly_writeBackLine ..)) (cacheOnly_l1 _ _)

theorem cacheOnly_writeBackCore (core : Nat) (uo : Bool) (s : State) : CacheOnly s (writeBackCore core uo s) :=
  cacheOnly_writeBackAll ..

theorem cacheOnly_drainCore (core : Nat) (s : State) : CacheOnly s (drainCore core s) :=
  cacheOnly_foldl (fun _ _ => cacheOnly_drainEntry ..) _ s

theorem cacheOnly_invalidateCore (core : Nat) (uo : Bool) (s : State) : CacheOnly s (invalidateCore core uo s) :=
  cacheOnly_trans (cacheOnly_performDie core s) (cacheOnly_l1 _ _)

theorem cacheOnly_evictTag (core line : Nat) (s : State) : CacheOnly s (evictTag core line s) :=
  cacheOnly_trans (cacheOnly_writeBackAll ..) (cacheOnly_l1 _ _)

theorem cacheOnly_emptyCore (core : Nat) (s : State) : CacheOnly s (emptyCore core s) :=
  cacheOnly_trans (cacheOnly_trans (cacheOnly_drainCore core s) (cacheOnly_writeBackCore ..)) (cacheOnly_invalidateCore ..)

/-- The release side of a fence touches the caches and memory only (R234). -/
theorem cacheOnly_releaseCore (core : Nat) (wide sc : Bool) (s : State) : CacheOnly s (releaseCore core wide sc s) := by
  unfold releaseCore
  have h : CacheOnly s (if sc = true then drainCore core s else s) := cacheOnly_ite (cacheOnly_drainCore core s) (cacheOnly_refl s)
  exact cacheOnly_ite (cacheOnly_trans h (cacheOnly_writeBackCore ..)) h

/-- So does a release whose write-backs are only covered (R138, R243). -/
theorem cacheOnly_releaseLater (core : Nat) (n : BitVec 3) (sc : Bool) (s : State) : CacheOnly s (releaseLater core n sc s) := by
  unfold releaseLater
  have h : CacheOnly s (if sc = true then drainCore core s else s) := cacheOnly_ite (cacheOnly_drainCore core s) (cacheOnly_refl s)
  exact cacheOnly_ite h (cacheOnly_trans h (cacheOnly_markDue ..))

/-- Nor does the release side at a scope touch more. -/
theorem cacheOnly_releaseScope (gk : Nat) (c : Scope) (sc : Bool) (s : State) : CacheOnly s (releaseScope gk c sc s) :=
  cacheOnly_ite (cacheOnly_releaseCore ..) (cacheOnly_releaseLater ..)

/-- The acquire side touches the caches and memory only (R234). -/
theorem cacheOnly_acquireCore (core : Nat) (wide sc : Bool) (s : State) : CacheOnly s (acquireCore core wide sc s) := by
  unfold acquireCore
  exact cacheOnly_ite (cacheOnly_invalidateCore ..) (cacheOnly_refl s)

theorem cacheOnly_tapLines (ctx core : Nat) (p : Part) (wr : Bool) (s : State) : CacheOnly s (tapLines ctx core p wr s) :=
  cacheOnly_foldl (fun _ _ => cacheOnly_tapLine ..) _ s

/-- A core's read of a piece of memory touches the caches only (R228, R231). -/
theorem cacheOnly_readPart (ctx core : Nat) (p : Part) (s : State) : CacheOnly s (readPart ctx core p s).2.2 := by
  unfold readPart
  split
  · exact cacheOnly_refl s
  · split
    · exact cacheOnly_trans (cacheOnly_tapLines ..) (cacheOnly_performDie ..)
    · have : ∀ (l : List (Nat × Nat × Nat)) (x : List Byte × Bool × State), CacheOnly s x.2.2 →
          CacheOnly s (l.foldl (fun (acc : List Byte × Bool × State) q =>
            let s := fillLine ctx core q.1 (p.kind == .uo) false acc.2.2
            let bad := (List.range q.2.2).any fun i => markedFor s core (q.1 * 128 + q.2.1 + i)
            (acc.1 ++ coreBytes s core q.1 q.2.1 q.2.2, acc.2.1 || bad, s)) x).2.2 := by
        intro l
        induction l with
        | nil => intro x h; exact h
        | cons q l ih => intro x h; exact ih _ (cacheOnly_trans h (cacheOnly_fillLine ..))
      exact this _ _ (cacheOnly_refl s)

/-- A core's write of a piece of memory touches the caches and memory only (R230, R231). -/
theorem cacheOnly_writePart (ctx core : Nat) (p : Part) (bs : List Byte) (s : State) : CacheOnly s (writePart ctx core p bs s) := by
  refine cacheOnly_trans (cacheOnly_performDue core s) ?_
  simp only [writePart]
  split
  · exact cacheOnly_pwrite ..
  · split
    · exact cacheOnly_trans (cacheOnly_trans (cacheOnly_tapLines ..) (cacheOnly_pwrite ..))
        (cacheOnly_dirLines (fun _ _ => cacheOnly_dirHome ..) _ _ _)
    · exact cacheOnly_foldl (fun _ _ => cacheOnly_dirtyLine ..) _ _
    · exact cacheOnly_foldl (fun _ _ => cacheOnly_combine ..) _ _

/-- An engine's reads touch the directory and the taps only (R312). -/
theorem cacheOnly_engineReads (ctx die : Nat) (kind : PKind) (pa n : Nat) (s : State) : CacheOnly s (engineReads ctx die kind pa n s) :=
  cacheOnly_ite (cacheOnly_refl s) (cacheOnly_dirLines (fun _ _ => cacheOnly_dirRead ..) _ _ _)

/-- An engine's write touches memory, the directory and the taps only (R238). -/
theorem cacheOnly_engineWrite (ctx die : Nat) (kind : PKind) (pa : Nat) (bs : List Byte) (s : State) :
    CacheOnly s (engineWrite ctx die kind pa bs s) := by
  refine cacheOnly_trans (cacheOnly_pwrite pa bs s) (cacheOnly_dirLines (fun _ _ => ?_) _ _ _)
  split
  · exact cacheOnly_dirHome ..
  · exact cacheOnly_dirWrite ..

end Sys2Proof.Machine
end

