-- ==== Sys2Proof/Laws/Cross.lean ====
section
/-! SUPPORT. What the shared operation of the cross-lane instructions does. -/

namespace Sys2Proof.Machine

/-- What participant `i` has read. -/
def partOf (s : State) (F : Form) (i : Nat) : Part1 := ⟨i, F.flds.map fun f => (getV s (tkOf s i) f.r).v, false⟩

theorem CrossReady.gathered {s : State} {F : Form} (h : CrossReady s F) : Gathered s := ⟨h.issuers, h.arrived, h.width⟩

/-- What a thread of the domain reads. -/
theorem crossRead_ready {s : State} {F : Form} (h : CrossReady s F) {i : Nat} (hi : i ∈ domain s s.cur.gk) :
    crossRead F (arrive s) i =
      (i, if i ∈ parts s then .some (.ok (F.flds.map fun f => (getV s (tkOf s i) f.r).v) false) else .none) := by
  obtain ⟨w, he⟩ := (arrive_spec s).1
  have hcur := arrive_cur s
  have hV : ∀ k r, getV (arrive s) k r = getV s k r := fun k r => by rw [he]; rfl
  have hP : ∀ k r, getP (arrive s) k r = getP s k r := fun k r => by rw [he]; rfl
  have hg : guardVal (arrive s) s.cur.gk i false = guardVal s s.cur.gk i false := by
    unfold guardVal; rw [hcur]
    cases s.cur.guard with
    | none => rfl
    | some g => simp only [getPQ, Bool.false_eq_true, if_false, hP]
  unfold crossRead
  rw [hcur]
  simp only [hg]
  rcases h.guards i hi with hy | hn
  · have hp : i ∈ parts s := by simp [parts, hi, hy]
    have hR : ∀ f ∈ F.flds, getR (arrive s) s.cur.gk i f.uni f.r = getV s (tkOf s i) f.r := by
      intro f hf; simp only [getR, h.lanes f hf, Bool.false_eq_true, if_false, hV]
    have hcell : ∀ f ∈ F.flds, readCell (getR (arrive s) s.cur.gk i f.uni f.r) = ((getV s (tkOf s i) f.r).v, false) := by
      intro f hf; rw [hR f hf, readCell_full (h.clean i hp f hf).1, (h.clean i hp f hf).2]
    have hread : readSources (arrive s) s.cur.gk i s.cur.pc F =
        .ok (F.flds.map fun f => (getV s (tkOf s i) f.r).v) false := by
      rw [readSources_ok]
      · congr 1
        · exact List.map_congr_left fun f hf => by rw [hcell f hf]
        · rw [List.any_eq_false]; intro f hf; simp [hcell f hf]
      · intro f hf; rw [hR f hf]; exact .inl (h.clean i hp f hf).1
      · intro f hf _; rw [hcell f hf]
      · intro q hq; simp only [h.lane, getPQ, Bool.false_eq_true, if_false, hP]; exact h.pred i hp q hq
      · intro d hdv; simp only [h.lane, getR, Bool.false_eq_true, if_false, hV]; exact h.dest i hp d hdv
      · intro q hq; simp only [h.lane, getPQ, Bool.false_eq_true, if_false, hP]; exact h.destP i hp q hq
    rw [hy, hread, if_pos hp]
  · have hp : i ∉ parts s := by simp [parts, hn]
    rw [hn, if_neg hp]

theorem parts_sub {s : State} {i : Nat} (h : i ∈ parts s) : i ∈ domain s s.cur.gk := List.mem_of_mem_filter h

theorem domain_nodup (s : State) (gk : Nat) : (domain s gk).Nodup := by
  have hl : (live s gk).Nodup := List.nodup_range.filter _
  unfold domain
  split
  · exact hl
  · exact hl.filter _

theorem parts_nodup (s : State) : (parts s).Nodup := (domain_nodup s _).filter _

/-- A cross-lane instruction that is ready hands what every participant has read to its own effect. -/
theorem crossWith_ready {s : State} {F : Form} (h : CrossReady s F) (k : List Part1 → State → State) :
    crossWith F k s = .next (k ((parts s).map (partOf s F)) (arrive s)) := by
  obtain ⟨hc, hd⟩ := h.gathered.arrive
  have hcur := arrive_cur s
  have hlim : overLimit s s.cur.gk F = false := by
    refine overLimit_false (fun f hf => ?_) (fun d hdv => ?_) h.limitM
    · rw [h.lanes f hf]; exact h.limit f hf
    · rw [h.lane]; exact h.limitD d hdv
  have hrs : (domain (arrive s) s.cur.gk).map (crossRead F (arrive s)) = (domain s s.cur.gk).map fun i =>
      (i, if i ∈ parts s then .some (.ok (F.flds.map fun f => (getV s (tkOf s i) f.r).v) false) else .none) := by
    rw [hd]; exact List.map_congr_left fun i hi => crossRead_ready h hi
  have hno : ∀ (q : Nat × Option Got → Bool), (∀ i v, q (i, .some (.ok v false)) = false) → (∀ i, q (i, .none) = false) →
      (((domain s s.cur.gk).map fun i =>
        (i, if i ∈ parts s then .some (.ok (F.flds.map fun f => (getV s (tkOf s i) f.r).v) false) else .none)).any q) = false := by
    intro q h1 h2
    rw [List.any_eq_false]
    intro x hx
    obtain ⟨i, -, rfl⟩ := List.mem_map.1 hx
    split
    · simp [h1]
    · simp [h2]
  have hps : (((domain s s.cur.gk).map fun i =>
      (i, if i ∈ parts s then Option.some (Got.ok (F.flds.map fun f => (getV s (tkOf s i) f.r).v) false) else .none)).filterMap crossPart) =
      (parts s).map (partOf s F) := by
    rw [List.filterMap_map]
    have hpd : ∀ i ∈ domain s s.cur.gk, (crossPart ∘ fun i =>
        (i, if i ∈ parts s then Option.some (Got.ok (F.flds.map fun f => (getV s (tkOf s i) f.r).v) false) else .none)) i =
        if guardVal s s.cur.gk i false = .yes then .some (partOf s F i) else .none := by
      intro i hi
      have : i ∈ parts s ↔ guardVal s s.cur.gk i false = .yes := by simp [parts, hi]
      simp only [Function.comp, this]
      split <;> rfl
    rw [List.filterMap_congr hpd]
    unfold parts
    generalize domain s s.cur.gk = l
    induction l with
    | nil => rfl
    | cons i l ih =>
      rw [List.filterMap_cons, List.filter_cons]
      by_cases hg : guardVal s s.cur.gk i false = .yes
      · simp only [hg, if_true, decide_true, List.map_cons, ih]
      · simp only [hg, if_false, decide_false, Bool.false_eq_true, ih]
  unfold crossWith converge
  simp only [hlim, Bool.false_eq_true, if_false, hc, if_true, hcur]
  rw [hrs, hno isTrapGot (fun _ _ => rfl) (fun _ => rfl), hno isWaitGot (fun _ _ => rfl) (fun _ => rfl), hps]
  simp

/-- Clean commits of different threads, one after another. -/
theorem commit_fold {α : Type} (gk : Nat) (F : Form) (key : α → Nat) (v : α → Option Word) (p : α → Option Bool) (hu : F.uni = false)
    (hk : ∀ f ∈ F.flds, f.uni = true → f.c ≠ .last) (l : List α) (hs : ∀ e ∈ l, key e < 64) (hn : (l.map key).Nodup) (s : State) :
    (∃ w q g o, l.foldl (fun s e => commit gk (key e) F false (v e) (p e) 0 s) s =
      { s with vreg := w, pred := q, grp := g, sc := { s.sc with opc := o } }) ∧
    (∀ k r, (∀ e ∈ l, k ≠ threadKey gk (key e)) →
      getV (l.foldl (fun s e => commit gk (key e) F false (v e) (p e) 0 s) s) k r = getV s k r) ∧
    (∀ e ∈ l, ∀ r, getV (l.foldl (fun s e => commit gk (key e) F false (v e) (p e) 0 s) s) (threadKey gk (key e)) r =
      if F.dv = .some r ∧ (v e).isSome then ⟨(v e).getD 0, .full, false⟩
      else if (false, r) ∈ kills F then { getV s (threadKey gk (key e)) r with st := .dead }
      else getV s (threadKey gk (key e)) r) ∧
    (∀ k r, (∀ e ∈ l, k ≠ threadKey gk (key e)) →
      getP (l.foldl (fun s e => commit gk (key e) F false (v e) (p e) 0 s) s) k r = getP s k r) ∧
    (∀ e ∈ l, ∀ r, getP (l.foldl (fun s e => commit gk (key e) F false (v e) (p e) 0 s) s) (threadKey gk (key e)) r =
      if F.dp = .some r ∧ r ≠ 0 ∧ (p e).isSome then ⟨(p e).getD false, false⟩ else getP s (threadKey gk (key e)) r) ∧
    (∀ k, getGrp (l.foldl (fun s e => commit gk (key e) F false (v e) (p e) 0 s) s) k = getGrp s k) := by
  induction l generalizing s with
  | nil =>
    exact ⟨⟨s.vreg, s.pred, s.grp, s.sc.opc, rfl⟩, fun _ _ _ => rfl, by simp, fun _ _ _ => rfl, by simp, fun _ => rfl⟩
  | cons e l ih =>
    obtain ⟨⟨w, q, g, o, he⟩, hv, hp, hg⟩ := commit_lane gk (key e) F (v e) (p e) 0 false s hu hk
    have hn' := List.nodup_cons.1 (show (key e :: l.map key).Nodup from hn)
    obtain ⟨⟨w', q', g', o', he'⟩, a1, a2, a3, a4, a5⟩ :=
      ih (fun x hx => hs x (List.mem_cons_of_mem _ hx)) hn'.2 (commit gk (key e) F false (v e) (p e) 0 s)
    have hne : ∀ x ∈ l, threadKey gk (key e) ≠ threadKey gk (key x) := by
      intro x hx h
      exact hn'.1 (((threadKey_inj (hs e (List.mem_cons_self ..)) (hs x (List.mem_cons_of_mem _ hx))).1 h).2 ▸ List.mem_map_of_mem hx)
    simp only [List.foldl_cons]
    refine ⟨⟨w', q', g', o', by rw [he', he]⟩, ?_, ?_, ?_, ?_, ?_⟩
    · intro k r h
      rw [a1 k r fun x hx => h x (List.mem_cons_of_mem _ hx), hv, if_neg fun c => h e (List.mem_cons_self ..) c.1,
        if_neg fun c => h e (List.mem_cons_self ..) c.1]
    · intro x hx r
      rcases List.mem_cons.1 hx with rfl | hx
      · rw [a1 _ r fun y hy => hne y hy, hv]
        simp
      · have : threadKey gk (key x) ≠ threadKey gk (key e) := fun c => hne x hx c.symm
        have e1 : getV (commit gk (key e) F false (v e) (p e) 0 s) (threadKey gk (key x)) r = getV s (threadKey gk (key x)) r := by
          rw [hv, if_neg fun c => this c.1, if_neg fun c => this c.1]
        rw [a2 x hx r, e1]
    · intro k r h
      rw [a3 k r fun x hx => h x (List.mem_cons_of_mem _ hx), hp, if_neg fun c => h e (List.mem_cons_self ..) c.1]
    · intro x hx r
      rcases List.mem_cons.1 hx with rfl | hx
      · rw [a3 _ r fun y hy => hne y hy, hp]
        simp
      · have : threadKey gk (key x) ≠ threadKey gk (key e) := fun c => hne x hx c.symm
        have e1 : getP (commit gk (key e) F false (v e) (p e) 0 s) (threadKey gk (key x)) r = getP s (threadKey gk (key x)) r := by
          rw [hp, if_neg fun c => this c.1]
        rw [a4 x hx r, e1]
    · intro k
      rw [a5 k, hg]
      have z : (getGrp s k).fpx ||| (0 : Flags) = (getGrp s k).fpx := by simp
      rw [z]; split <;> rfl

/-- A cross-lane instruction that acts at once, whose group is ready. -/
theorem cross_done {s : State} {F : Form} (h : CrossReady s F)
    {res : State → List Part1 → Part1 → Option Word × Bool × Option Bool} {fl : List Part1 → Flags} {v : Nat → Option Word}
    {p : Nat → Option Bool} {f : Flags}
    (hres : ∀ i ∈ parts s, res (arrive s) ((parts s).map (partOf s F)) (partOf s F i) = (v i, false, p i))
    (hfl : fl ((parts s).map (partOf s F)) = f) :
    ∃ t, cross F res fl s = .next t ∧ CrossDone s t F v p f := by
  have hdw : ∀ i ∈ domain s s.cur.gk, i < 64 := fun i hi => lt_of_lt_of_le (mem_domain_width hi) h.width
  have hk : ∀ f ∈ F.flds, f.uni = true → f.c ≠ .last := fun f hf hu => by rw [h.lanes f hf] at hu; exact absurd hu (by simp)
  obtain ⟨-, hd⟩ := h.gathered.arrive
  obtain ⟨⟨x, he⟩, hka⟩ := arrive_spec s
  have hcur := arrive_cur s
  refine ⟨_, crossWith_ready h _, ?_⟩
  simp only [hcur, hfl]
  have heffs : ((parts s).map (partOf s F)).map (fun q => (q.tid, res (arrive s) ((parts s).map (partOf s F)) q)) =
      (parts s).map fun i => (i, v i, false, p i) := by
    rw [List.map_map]
    exact List.map_congr_left fun i hi => by simp only [Function.comp, hres i hi]; rfl
  rw [heffs]
  have hfold : ((parts s).map fun i => (i, v i, false, p i)).foldl (fun u e => commit s.cur.gk e.1 F e.2.2.1 e.2.1 e.2.2.2 0 u) (arrive s) =
      (parts s).foldl (fun u i => commit s.cur.gk i F false (v i) (p i) 0 u) (arrive s) := by
    rw [List.foldl_map]
  rw [hfold]
  obtain ⟨⟨w, q, g, o, hc⟩, a1, a2, a3, a4, a5⟩ := commit_fold s.cur.gk F id v p h.lane hk (parts s)
    (fun i hi => hdw i (parts_sub hi)) (by simpa using parts_nodup s) (arrive s)
  simp only [id] at hc a1 a2 a3 a4 a5
  generalize hu : (parts s).foldl (fun u i => commit s.cur.gk i F false (v i) (p i) 0 u) (arrive s) = u at hc a1 a2 a3 a4 a5
  rw [show u.cur = s.cur by rw [hc]; exact hcur]
  obtain ⟨⟨g2, ho⟩, hgrp⟩ := orFpx_eq s.cur.gk f u
  generalize hu2 : orFpx s.cur.gk f u = u2 at ho hgrp
  obtain ⟨⟨y, hx⟩, hpass⟩ := passGroup_spec s.cur.gk s.cur.npc u2
  have hG : ∀ k, getGrp u2 k = if k = s.cur.gk then { getGrp s k with fpx := (getGrp s k).fpx ||| f } else getGrp s k := by
    intro k
    rw [hgrp k, a5 k, show getGrp (arrive s) k = getGrp s k by rw [he]; rfl]
  have hdu : domain u2 s.cur.gk = domain s s.cur.gk := by
    rw [← hd]
    have h1 : live u2 s.cur.gk = live (arrive s) s.cur.gk := by rw [ho, hc]; rfl
    have h2 : (getGrp u2 s.cur.gk).hset = (getGrp (arrive s) s.cur.gk).hset := by
      rw [hgrp, a5]; simp
    unfold domain; rw [h1, h2]
  have hThr : ∀ k, getThr (passGroup s.cur.gk s.cur.npc u2) k =
      if ∃ i ∈ domain s s.cur.gk, k = tkOf s i then { getThr s k with pc := s.cur.npc, st := .ready, wait := .none }
      else getThr s k := by
    intro k
    rw [hpass k, hdu, show getThr u2 k = getThr (arrive s) k by rw [ho, hc]; rfl]
    obtain ⟨z, hz⟩ := hka k
    split
    · rw [hz]; split <;> rfl
    · rename_i hn
      rw [hz, if_neg]
      rintro ⟨i, hi, e⟩
      exact hn ⟨i, (h.issuers i hi).1, e⟩
  have hVs : ∀ k r, getV (passGroup s.cur.gk s.cur.npc u2) k r = getV u k r := fun k r => by rw [hx, ho]; rfl
  have hPs : ∀ k r, getP (passGroup s.cur.gk s.cur.npc u2) k r = getP u k r := fun k r => by rw [hx, ho]; rfl
  have hVa : ∀ k r, getV (arrive s) k r = getV s k r := fun k r => by rw [he]; rfl
  have hPa : ∀ k r, getP (arrive s) k r = getP s k r := fun k r => by rw [he]; rfl
  have hGp : ∀ k, getGrp (passGroup s.cur.gk s.cur.npc u2) k = getGrp u2 k := fun k => by rw [hx]; rfl
  constructor
  · intro i hi d z hdv hz
    rw [hVs, a2 i hi, if_pos ⟨hdv, by simp [hz]⟩]; simp [hz]
  · intro i hi fl hf hl hnd
    rw [hVs, a2 i hi, if_neg fun c => hnd c.1, if_pos ((mem_kills hk fl.r).2 ⟨fl, hf, hl, rfl⟩), hVa]
  · intro k r hne
    rw [hVs] at hne
    by_cases hp : ∃ i ∈ parts s, k = threadKey s.cur.gk i
    · obtain ⟨i, hi, rfl⟩ := hp
      rw [a2 i hi] at hne
      refine ⟨i, hi, rfl, ?_⟩
      by_cases h1 : F.dv = .some r ∧ (v i).isSome
      · exact .inl h1.1
      · rw [if_neg h1] at hne
        by_cases h2 : (false, r) ∈ kills F
        · exact .inr ((mem_kills hk r).1 h2)
        · rw [if_neg h2, hVa] at hne; exact absurd rfl hne
    · rw [a1 k r fun i hi e => hp ⟨i, hi, e⟩, hVa] at hne
      exact absurd rfl hne
  · intro i hi z b hdp hb hz
    rw [hPs, a4 i hi, if_pos ⟨hdp, hz, by simp [hb]⟩]; simp [hb]
  · intro k z hne
    rw [hPs] at hne
    by_cases hp : ∃ i ∈ parts s, k = threadKey s.cur.gk i
    · obtain ⟨i, hi, rfl⟩ := hp
      rw [a4 i hi] at hne
      refine ⟨i, hi, rfl, ?_⟩
      by_cases h1 : F.dp = .some z ∧ z ≠ 0 ∧ (p i).isSome
      · exact h1.1
      · rw [if_neg h1, hPa] at hne; exact absurd rfl hne
    · rw [a3 k z fun i hi e => hp ⟨i, hi, e⟩, hPa] at hne
      exact absurd rfl hne
  · intro i hi
    rw [hThr, if_pos ⟨i, hi, rfl⟩]
  · intro k hne
    rw [hThr] at hne
    by_contra h1
    rw [if_neg h1] at hne; exact hne rfl
  · rw [hGp, hG, if_pos rfl]
  · intro k hne
    rw [hGp, hG, if_neg hne]
  · rw [hx, ho, hc, he]

end Sys2Proof.Machine
end

