-- ==== Sys2Proof/Laws/Teams.lean ====
section
/-! SUPPORT. What the end of a team or of a grid leaves alone (R162, R224): the physical function's registers, the Bindery, the other packages
and the host side; and it keeps the canonical form of memory. -/

namespace Sys2Proof.Machine

/-- `t` has the registers, the Bindery, the peers' traffic and the host side of `s`, and its memory is as well formed. -/
abbrev OutsideKept (s t : State) : Prop :=
  t.rg = s.rg ∧ t.bd = s.bd ∧ t.pk = s.pk ∧ t.hs = s.hs ∧ (Memory.wf s.mm.mem → Memory.wf t.mm.mem)

theorem outsideKept_refl (s : State) : OutsideKept s s := ⟨rfl, rfl, rfl, rfl, id⟩

theorem outsideKept_trans {s t u : State} (h : OutsideKept s t) (k : OutsideKept t u) : OutsideKept s u :=
  ⟨k.1.trans h.1, k.2.1.trans h.2.1, k.2.2.1.trans h.2.2.1, k.2.2.2.1.trans h.2.2.2.1, fun m => k.2.2.2.2 (h.2.2.2.2 m)⟩

theorem outsideKept_foldl {α : Type} {f : State → α → State} (h : ∀ s a, OutsideKept s (f s a)) (l : List α) (s : State) :
    OutsideKept s (l.foldl f s) := by
  induction l generalizing s with
  | nil => exact outsideKept_refl s
  | cons a l ih => exact outsideKept_trans (h s a) (ih _)

theorem outsideKept_of_cacheOnly {s t : State} (h : CacheOnly s t) : OutsideKept s t := by
  obtain ⟨m, b, e, l, c, d, g, rfl, hm⟩ := h
  exact ⟨rfl, rfl, rfl, rfl, hm⟩

theorem leaveCores_kept (t : Nat) (s : State) : CacheOnly s (leaveCores t s) := by
  unfold leaveCores
  exact cacheOnly_ite (cacheOnly_foldl (fun s c => cacheOnly_trans (cacheOnly_trans (cacheOnly_drainCore c s) (cacheOnly_writeBackCore ..))
    (cacheOnly_markDue ..)) _ s) (cacheOnly_refl s)

theorem dropTeam_kept (t : Nat) (s : State) : OutsideKept s (dropTeam t s) :=
  outsideKept_trans (outsideKept_of_cacheOnly (leaveCores_kept t s)) ⟨rfl, rfl, rfl, rfl, id⟩

theorem reportEnd_kept (g status : Nat) (s : State) : OutsideKept s (reportEnd g status s) := by
  unfold reportEnd
  dsimp only
  split <;> split <;> exact ⟨rfl, rfl, rfl, rfl, id⟩

theorem settleReport_kept (g : Nat) (s : State) : OutsideKept s (settleReport g s) := by
  unfold settleReport
  split
  · exact outsideKept_refl s
  · split
    · exact outsideKept_refl s
    · exact outsideKept_trans (outsideKept_of_cacheOnly (cacheOnly_writeBackAll ..)) (reportEnd_kept ..)

theorem report_kept {s u : State} (h : OutsideKept s u) (g : Nat) (x : Grid) : OutsideKept s (settleReport g (setGrid g x u)) :=
  outsideKept_trans h (outsideKept_trans (t := setGrid g x u) ⟨rfl, rfl, rfl, rfl, id⟩ (settleReport_kept ..))

theorem freeBarrier_kept (c : Nat) (s : State) : OutsideKept s (freeBarrier c s) := ⟨rfl, rfl, rfl, rfl, id⟩

theorem endGrid_kept (g status : Nat) (s : State) : OutsideKept s (endGrid g status s) := by
  have hd := outsideKept_foldl (fun s t => dropTeam_kept t s) (teamsOf s g) s
  unfold endGrid
  dsimp only
  split
  · exact outsideKept_refl s
  · apply report_kept
    split
    · exact outsideKept_trans hd (freeBarrier_kept ..)
    · exact hd

/-- R224: whatever ends with a team leaves the outside of the cores as it was. -/
theorem settleTeam_kept (t : Nat) (s : State) : OutsideKept s (settleTeam t s) := by
  unfold settleTeam
  split
  · dsimp only
    split
    · exact outsideKept_trans (dropTeam_kept t s) (endGrid_kept ..)
    · exact dropTeam_kept t s
  · exact outsideKept_refl s

end Sys2Proof.Machine
end

