-- ==== Sys2Proof/Tests/Slice0.lean ====
section
/-! SUPPORT. The model's own tests: ill-formed terms that are refused, words of the spec's tables of encoded lines, the spec's worked
examples on one step, and for each statement of the certificate states and operands that meet its hypotheses. -/

namespace Sys2Proof.Tests
open Sys2Proof Sys2Proof.Machine

-- One theorem after another: kernel evaluations that wait for each other would each hold a thread.
set_option Elab.async false

/-! ## Ill-formed terms: one for each check -/

theorem test_flaw_zeroControl : Instr.flaw (.addI64U 1 ⟨0, .last⟩ ⟨2, .plain⟩) = .some .zeroControl := by decide
theorem test_flaw_uniControl : Instr.flaw (.mov 1 ⟨2, .keep⟩ true) = .some .uniControl := by decide
theorem test_flaw_shiftCount : Instr.flaw (.shlN64Imm 1 ⟨2, .plain⟩ 64) = .some .shiftCount := by decide
theorem test_flaw_glossShift : Instr.flaw (.gshli 1 2 32) = .some .shiftCount := by decide
theorem test_flaw_neverTaken : Instr.flaw (.bra 0 true 5) = .some .neverTaken := by decide
theorem test_flaw_conversion : Instr.flaw (.cvt 1 ⟨2, .plain⟩ ⟨.d, .d, 0, 0, false, false, .rne⟩) = .some .conversion := by decide
theorem test_flaw_prefetchSpace : Instr.flaw (.pf ⟨2, .plain⟩ ⟨.s, .hn, 0⟩) = .some .prefetchSpace := by decide
theorem test_flaw_atomType : Instr.flaw (.atomAnd 1 ⟨2, .plain⟩ ⟨3, .plain⟩ ⟨.g, .d, .dev, .rlx, 0⟩) = .some .atomType := by decide
theorem test_flaw_noAccess : Instr.flaw (.wrsys .trapKind ⟨2, .plain⟩) = .some .noAccess := by decide
theorem test_flaw_glossDisp : Instr.flaw (.gbr 0) = .some .glossDisp := by decide
/-- The decoder refuses the word of an ill-formed term: `bra !p0` (R35). -/
theorem test_refused_word : decodeWords [0x38200005] = .error (.flawed .neverTaken) := by rfl
/-- A reserved cell (lane major 0x03 minor 7, R44), a reserved bit, and a prefix before a branch (R33) are refused by name. -/
theorem test_refused_cells : decodeWords [0x06000007] = .error .reservedCell ∧ decodeWords [0x7EC00000, 0x38BFFFFD] = .error .badGuard ∧
    decodeWords [0x0A182187] = .error .reservedBit := by refine ⟨?_, ?_, ?_⟩ <;> rfl

/-! ## Words of the spec's tables of encoded lines -/

/-- Registers as the lines name them. -/
def pl (r : BitVec 6) : Src := ⟨r, .plain⟩
/-- An instruction without a guard, of `n` bytes. -/
noncomputable def bare (n : Nat) (i : Instr) : Except Reject Decoded := .ok ⟨.none, i, n⟩

/-- spec/02, spec/04: integers and control. -/
theorem test_words_lane : decodeWords [0x1A28A008] = bare 4 (.addI64Imm 5 (pl 5) 8)
    ∧ decodeWords [0x1E30DC00] = bare 4 (.addI32SatImm 6 ⟨6, .trap⟩ 0x400)
    ∧ decodeWords [0x7EC00000, 0x1A28A008] = .ok ⟨.some (3, false), .addI64Imm 5 (pl 5) 8, 8⟩
    ∧ decodeWords [0x38BFFFFD] = bare 4 (.bra 2 true (-3)) ∧ decodeWords [0x0A182087] = bare 4 (.mov 3 (pl 1) true)
    ∧ decodeWords [0x28104003] = bare 4 (.shlN64Imm 2 (pl 2) 3) ∧ decodeWords [0x12802382] = bare 4 (.setpLtI64 2 (pl 1) (pl 7))
    ∧ decodeWords [0x34204180] = bare 4 (.shflIdx 4 (pl 2) (pl 3)) ∧ decodeWords [0x30480000, 0x00FFFFFE] = bare 8 (.movc 9 (-2))
    ∧ decodeWords [0x3A000005] = bare 4 (.call 0 false 5) ∧ decodeWords [0x30480002, 0x00003FD0] = bare 8 (.movcH 9 0x3FD0) := by
  refine ⟨?_, ?_, ?_, ?_, ?_, ?_, ?_, ?_, ?_, ?_, ?_⟩ <;> rfl

/-- spec/02, spec/05, spec/11: floating forms and conversions. -/
theorem test_words_float : decodeWords [0x4A202130, 0x0C000000] = bare 8 (.fmaD 4 ⟨1, .last⟩ ⟨2, .keep⟩ (pl 3) ⟨.rne, false⟩)
    ∧ decodeWords [0x40182100] = bare 4 (.addD 3 (pl 1) (pl 2))
    ∧ decodeWords [0x4C182100, 0x00000001] = bare 8 (.addDLong 3 (pl 1) (pl 2) ⟨.rtz, false⟩)
    ∧ decodeWords [0x48408281] = bare 4 (.setpLtD 1 (pl 4) (pl 5))
    ∧ decodeWords [0x50284000, 0x000218A0] = bare 8 (.cvt 5 (pl 2) ⟨.e4, .bf, 1, 2, false, false, .rne⟩)
    ∧ decodeWords [0x5030A000, 0x0001A0A0] = bare 8 (.cvt 6 (pl 5) ⟨.bf, .e4, 1, 2, false, false, .rne⟩)
    ∧ decodeWords [0x50A14000, 0x00005000] = bare 8 (.cvt 20 (pl 10) ⟨.d, .i64, 0, 0, false, false, .rne⟩) := by
  refine ⟨?_, ?_, ?_, ?_, ?_, ?_, ?_⟩ <;> rfl

/-- spec/06, spec/12, spec/16: accesses. -/
theorem test_words_memory : decodeWords [0x58384000, 0x00300040] = bare 8 (.ld 7 (pl 2) ⟨.g, .d, .hn, 64⟩)
    ∧ decodeWords [0x7EC00000, 0x580104A1, 0x00600000] = .ok ⟨.some (3, false), .st ⟨8, .last⟩ (pl 9) ⟨.s, .w, .hn, 0⟩, 12⟩
    ∧ decodeWords [0x58516302, 0x40320000] = bare 8 (.lde 10 (pl 11) (pl 6) ⟨.d, .hn, .some 2, 0⟩)
    ∧ decodeWords [0x5A204180, 0x00160000] = bare 8 (.atomAdd 4 (pl 2) (pl 3) ⟨.g, .i64, .dev, .rlx, 0⟩)
    ∧ decodeWords [0x5C406000] = bare 4 (.recvD 8 3) ∧ decodeWords [0x5C00A482] = bare 4 (.sendD 5 (pl 9))
    ∧ decodeWords [0x8E006201, 0x00300000] = bare 8 (.stU (pl 3) (pl 4) ⟨.g, .d, .hn, 0⟩)
    ∧ decodeWords [0x5A218004, 0x001E8000] = bare 8 (.atomOr 4 (pl 12) (pl 0) ⟨.g, .n64, .dev, .acq, 0⟩)
    ∧ decodeWords [0x5A218180, 0x001EA008] = bare 8 (.atomAdd 4 (pl 12) (pl 3) ⟨.g, .n64, .dev, .rel, 8⟩)
    ∧ decodeWords [0x5850A182, 0x00303C00] = bare 8 (.lde 10 (pl 5) (pl 3) ⟨.d, .hn, .none, -1024⟩) := by
  refine ⟨?_, ?_, ?_, ?_, ?_, ?_, ?_, ?_, ?_, ?_⟩ <;> rfl

/-- spec/02, spec/06, spec/07: the uniform set. -/
theorem test_words_uniform : decodeWords [0x98080005] = bare 4 (.fence .rel .die) ∧ decodeWords [0x98180006] = bare 4 (.fence .sc .dev)
    ∧ decodeWords [0x96204182] = bare 4 (.claim 4 (pl 2) (pl 3)) ∧ decodeWords [0x9A000085] = bare 4 (.waith .free 5)
    ∧ decodeWords [0x8A28A008] = bare 4 (.addI64ImmU 5 (pl 5) 8) ∧ decodeWords [0x90000006] = bare 4 (.ujmp 0 false 6)
    ∧ decodeWords [0x907FFFFC] = bare 4 (.ujmp 1 true (-4)) ∧ decodeWords [0x92000005] = bare 4 (.ucall 0 false 5)
    ∧ decodeWords [0x9407E002] = bare 4 (.uret (pl 63)) ∧ decodeWords [0x96000000] = bare 4 .bar ∧ decodeWords [0x96000001] = bare 4 .tbar
    ∧ decodeWords [0x9600E003] = bare 4 (.rdv (pl 7)) ∧ decodeWords [0xA2000280] = bare 4 (.trap 5)
    ∧ decodeWords [0xA2000001] = bare 4 .rett := by
  refine ⟨?_, ?_, ?_, ?_, ?_, ?_, ?_, ?_, ?_, ?_, ?_, ?_, ?_, ?_⟩ <;> rfl

/-- spec/07: channels, launches, editions. -/
theorem test_words_channels : decodeWords [0x9C004180, 0x00140000] = bare 8 (.sendU 5 (pl 2) (.some (pl 3)))
    ∧ decodeWords [0x9C008000, 0x00160000] = bare 8 (.sendU 5 (pl 4) .none) ∧ decodeWords [0x9C400001, 0x000E0000] = bare 8 (.recvU 8 3 .none)
    ∧ decodeWords [0x9C504182, 0x00300000] = bare 8 (.launch 1 10 (pl 2) (pl 3) 2) ∧ decodeWords [0x9C594003, 0] = bare 8 (.waitl 11 (pl 10))
    ∧ decodeWords [0x9C38C004, 0] = bare 8 (.fork 7 (pl 6)) ∧ decodeWords [0x9E304000] = bare 4 (.bpub 6 (pl 2))
    ∧ decodeWords [0x9E304181] = bare 4 (.bfloor 6 (pl 2) (pl 3)) := by
  refine ⟨?_, ?_, ?_, ?_, ?_, ?_, ?_, ?_⟩ <;> rfl

/-- spec/08, spec/11, spec/12: matrix and compositing. -/
theorem test_words_matrix : decodeWords [0xA0004000, 0] = bare 8 (.gang (pl 2))
    ∧ decodeWords [0x70408600, 0x00000009] = bare 8 (.mmarD 8 (pl 4) (pl 12) 1 1)
    ∧ decodeWords [0x70A08622, 0x0000001A] = bare 8 (.mmarBf 20 ⟨4, .last⟩ (pl 12) 2 3)
    ∧ decodeWords [0xA0408281, 0] = bare 8 (.mmasD 8 (pl 4) (pl 5))
    ∧ decodeWords [0xA0008283, 0x0050C000] = bare 8 (.mmasBf 20 (pl 4) (pl 5) 3)
    ∧ decodeWords [0xA0400486, 0x00000001] = bare 8 (.accrel 8 (.some (false, pl 9)))
    ∧ decodeWords [0x72400000, 0] = bare 8 (.copen 8 (pl 0) false 0) ∧ decodeWords [0x72304000, 0x00000085] = bare 8 (.copen 6 (pl 2) true 5)
    ∧ decodeWords [0x72C0C381, 0x20840000] = bare 8 (.cadd 3 (pl 6) (pl 7) (pl 8) (.some 4))
    ∧ decodeWords [0x72C0C381, 0x20000000] = bare 8 (.cadd 3 (pl 6) (pl 7) (pl 8) .none)
    ∧ decodeWords [0x72014002, 0] = bare 8 (.cflush (pl 10)) ∧ decodeWords [0x7200C003, 0] = bare 8 (.cclose (pl 6))
    ∧ decodeWords [0x7248C004, 0x00000001] = bare 8 (.cread 9 (pl 6) 1)
    ∧ decodeWords [0x72504185, 0x00060007] = bare 8 (.creplay 10 (pl 2) (pl 3) 7 6) := by
  refine ⟨?_, ?_, ?_, ?_, ?_, ?_, ?_, ?_, ?_, ?_, ?_, ?_, ?_, ?_⟩ <;> rfl

/-- spec/17: the gloss of its worked program. -/
theorem test_words_gloss : decodeGloss 0x39CC0001 = .ok (.gshli 7 3 1) ∧ decodeGloss 0x3E080001 = .ok (.gshri 8 2 1)
    ∧ decodeGloss 0x36200001 = .ok (.gandi 8 8 1) ∧ decodeGloss 0x05DE0000 = .ok (.gadd 7 7 8) ∧ decodeGloss 0x625C0000 = .ok (.ghist 9 7 0)
    ∧ decodeGloss 0x2E800080 = .ok (.gmovi 10 128) ∧ decodeGloss 0x4E680002 = .ok (.gbne 9 10 2)
    ∧ decodeGloss 0x6C1C0000 = .ok (.gfire 7 0) ∧ decodeGloss 0x70000000 = .ok .gend := by
  refine ⟨?_, ?_, ?_, ?_, ?_, ?_, ?_, ?_, ?_⟩ <;> rfl

/-- The words that the encoder makes of some lines are the spec's (R27, R33). -/
theorem test_encode : encode (.addI64Imm 5 (pl 5) 8) = [0x1A28A008] ∧ encode (.fmaD 4 ⟨1, .last⟩ ⟨2, .keep⟩ (pl 3) ⟨.rne, false⟩)
    = [0x4A202130, 0x0C000000] ∧ encode (.bra 2 true (-3)) = [0x38BFFFFD] ∧ encode (.ghist 9 7 0) = [0x625C0000] := by
  refine ⟨?_, ?_, ?_, ?_⟩ <;> rfl


/-! ## Hypotheses that are met

For each statement of the certificates one theorem shows a concrete state and operands that meet the hypotheses of each of its clauses
together, at the edges of their ranges. -/

/-- A core with one group of 16 threads, of which `ids` are ready at address 0; the others have ended. -/
def small (ids : List Nat) : State :=
  { State.reset with
    grid := [(0, { lr := { teams := 1, groups := 1, w := 16, nv := 64, ns := 64 } })]
    team := [(0, { st := .resident })]
    thr := (List.range 16).map fun i => (i, { st := if i ∈ ids then .ready else .exited })
    cur := { gk := 0, tids := ids, npc := 4 } }

/-- Two threads: the first and the last of their group. -/
def two : State := small [0, 15]

/-- One thread: the last of its group. -/
def one : State := small [15]

/-- What holds of the default and of every listed entry holds of what a table reads. -/
theorem tget_all {α : Type} (P : α → Prop) (d : α) (hd : P d) (k : Nat) : ∀ t : Tab α, (∀ e ∈ t, P e.2) → P (tget d k t)
  | [], _ => hd
  | e :: t, h => by
    simp only [tget]
    split
    · exact h e List.mem_cons_self
    · exact tget_all P d hd k t fun x hx => h x (List.mem_cons_of_mem _ hx)

/-- A state in which every register is FULL and clean and no predicate is EMPTY (R272). -/
structure Fresh (s : State) : Prop where
  vreg : ∀ e ∈ s.vreg, e.2.st = .full ∧ e.2.psn = false
  sreg : ∀ e ∈ s.sreg, e.2.st = .full ∧ e.2.psn = false
  pred : ∀ e ∈ s.pred, e.2.empty = false
  qpred : ∀ e ∈ s.qpred, e.2.empty = false
  guard : s.cur.guard = .none
  counts : (recOf s s.cur.gk).nv = 64 ∧ (recOf s s.cur.gk).ns = 64
  width : Machine.widthOf s s.cur.gk ≤ 64
  issuers : s.cur.tids.Nodup ∧ ∀ i ∈ s.cur.tids, i < 64 ∧ i ∈ domain s s.cur.gk ∧ (getThr s (tkOf s i)).st ≠ .exited ∧
    (getThr s (tkOf s i)).pc = s.cur.pc

theorem Fresh.getV {s : State} (h : Fresh s) (k : Nat) (r : BitVec 6) : (getV s k r).st = .full ∧ (getV s k r).psn = false :=
  tget_all (fun c : Cell => c.st = .full ∧ c.psn = false) {} ⟨rfl, rfl⟩ _ _ h.vreg
theorem Fresh.getS {s : State} (h : Fresh s) (r : BitVec 6) : (getS s s.cur.gk r).st = .full ∧ (getS s s.cur.gk r).psn = false := by
  simp only [Machine.getS]
  split
  · exact ⟨rfl, rfl⟩
  · exact tget_all (fun c : Cell => c.st = .full ∧ c.psn = false) {} ⟨rfl, rfl⟩ _ _ h.sreg
theorem Fresh.getR {s : State} (h : Fresh s) (i : Nat) (u : Bool) (r : BitVec 6) :
    (getR s s.cur.gk i u r).st = .full ∧ (getR s s.cur.gk i u r).psn = false := by
  cases u
  · exact h.getV _ r
  · exact h.getS r
theorem Fresh.getP {s : State} (h : Fresh s) (k : Nat) (p : BitVec 3) : (getP s k p).empty = false := by
  simp only [Machine.getP]
  split
  · rfl
  · exact tget_all (fun c : PCell => c.empty = false) {} rfl _ _ h.pred
theorem Fresh.getQ {s : State} (h : Fresh s) (p : BitVec 3) : (getQ s s.cur.gk p).empty = false := by
  simp only [Machine.getQ]
  split
  · rfl
  · exact tget_all (fun c : PCell => c.empty = false) {} rfl _ _ h.qpred
theorem Fresh.guards {s : State} (h : Fresh s) (i : Nat) (u : Bool) : guardVal s s.cur.gk i u = .yes := by
  simp only [guardVal, h.guard]

/-- A bundle of such a state can issue every lane form, whatever its operands. -/
theorem Fresh.lane {s : State} (h : Fresh s) (F : Form) (hu : F.uni = false) (hm : F.more = [])
    (hk : ∀ f ∈ F.flds, f.uni = true → f.c ≠ .last) : LaneReady s F where
  lane := hu
  nodup := h.issuers.1
  small := fun i hi => (h.issuers.2 i hi).1
  live := fun i hi => (h.issuers.2 i hi).2.2.1
  guard := fun i _ => h.guards i false
  limit := fun f _ => by have := f.r.isLt; have := h.counts; split <;> omega
  limitD := fun d _ => by have := d.isLt; have := h.counts; omega
  limitM := hm
  source := fun i _ f _ => .inl (h.getR i f.uni f.r).1
  strict := fun i _ f _ _ => by have := h.getR i f.uni f.r; simp [readCell, this.1, this.2]
  keepsS := hk
  pred := fun i _ p _ => h.getP _ p
  dest := fun i _ d _ => .inl (h.getV _ d).1
  destP := fun i _ p _ => h.getP _ p
  clean := fun i _ f _ => h.getR i f.uni f.r

/-- Its group can issue every uniform form. -/
theorem Fresh.uni {s : State} (h : Fresh s) (ha : ∀ i ∈ domain s s.cur.gk, i ∈ s.cur.tids) (F : Form) (hu : F.uni = true)
    (hm : F.more = []) (hf : ∀ f ∈ F.flds, f.uni = true) : UniReady s F where
  issuers := fun i hi => ⟨(h.issuers.2 i hi).2.1, (h.issuers.2 i hi).2.2.2⟩
  arrived := fun i hi => .inl (ha i hi)
  width := h.width
  uniform := hu
  guard := h.guards 0 true
  fields := hf
  limit := fun f _ => by have := f.r.isLt; have := h.counts; omega
  limitD := fun d _ => by have := d.isLt; have := h.counts; omega
  limitM := hm
  clean := fun f _ => h.getS f.r
  pred := fun p _ => h.getQ p
  dest := fun d _ => .inl (h.getS d).1
  destP := fun p _ => h.getQ p

/-- And every cross-lane form can act. -/
theorem Fresh.cross {s : State} (h : Fresh s) (ha : ∀ i ∈ domain s s.cur.gk, i ∈ s.cur.tids) (F : Form) (hu : F.uni = false)
    (hm : F.more = []) (hf : ∀ f ∈ F.flds, f.uni = false) : CrossReady s F where
  lane := hu
  width := h.width
  issuers := fun i hi => ⟨(h.issuers.2 i hi).2.1, (h.issuers.2 i hi).2.2.2⟩
  arrived := fun i hi => .inl (ha i hi)
  guards := fun i _ => .inl (h.guards i false)
  lanes := hf
  limit := fun f _ => by have := f.r.isLt; have := h.counts; omega
  limitD := fun d _ => by have := d.isLt; have := h.counts; omega
  limitM := hm
  clean := fun i _ f _ => h.getV _ f.r
  pred := fun i _ p _ => h.getP _ p
  dest := fun i _ d _ => .inl (h.getV _ d).1
  destP := fun i _ p _ => h.getP _ p

theorem two_fresh : Fresh two := by constructor <;> decide
theorem one_fresh : Fresh one := by constructor <;> decide
theorem two_all : ∀ i ∈ domain two two.cur.gk, i ∈ two.cur.tids := by decide
theorem one_all : ∀ i ∈ domain one one.cur.gk, i ∈ one.cur.tids := by decide

/-- Source operands at the two ends of the register numbers. -/
def lo : Src := ⟨0, .last⟩
def hi : Src := ⟨63, .trap⟩

/-- A thread's register, as the tests set one: `getV` of thread 15 of group 0. -/
def withV (r : BitVec 6) (c : Cell) (s : State) : State := setV (tkOf s 15) r c s

/-- LaneTwoSourceResults, LaneShiftResults, LaneOneSourceResults, LaneImmediateResults, LanePredicateResults, SpecialRegisterReads,
FloatTwoSourceResults, FloatOneAndThreeSourceResults, LaneControlFlow: every clause's form, its registers at the ends of their range. -/
theorem meets_lane_forms : LaneReady two (form2 false 63 lo hi) ∧ LaneReady two (formSh false 0 hi lo) ∧ LaneReady two (form1 false 63 lo)
    ∧ LaneReady two { uni := false, flds := [⟨true, 63, .plain, 0, false⟩], dv := .some 63 }
    ∧ LaneReady two { uni := false, flds := [], dv := .some 63 } ∧ LaneReady two { uni := false, flds := [⟨false, 63, .plain, 4, false⟩], dv := .some 63 }
    ∧ LaneReady two (formP false 7 lo hi) ∧ LaneReady two (formPP false 7 [0, 7]) ∧ LaneReady two (formPP false 0 [7])
    ∧ LaneReady two { form2 false 63 lo hi with preds := [7] } ∧ LaneReady two (form3 63 lo hi lo)
    ∧ LaneReady two { uni := false, flds := [], preds := [7] } ∧ LaneReady two { uni := false, flds := [], preds := [7], dv := .some 63 }
    ∧ LaneReady two { uni := false, flds := [⟨false, 63, .last, 0, true⟩] }
    ∧ LaneReady two { uni := false, flds := [⟨false, 63, .last, 0, true⟩], dv := .some 63 } ∧ (∀ i ∈ two.cur.tids, (valV two i 63).toNat % 4 = 0)
    ∧ LaneReady two { uni := false, flds := [] } := by
  refine ⟨?_, ?_, ?_, ?_, ?_, ?_, ?_, ?_, ?_, ?_, ?_, ?_, ?_, ?_, ?_, ?_, ?_⟩
  case refine_16 => decide
  all_goals exact two_fresh.lane _ rfl rfl (by decide)

/-- The decode clauses: words of `add.i64`, `lea`, `shl.n64`, `neg.i64`, `abs.i64`, `popc`, `sext.i32`, `pand` and `pnot`. -/
theorem meets_lane_words : LaneWord 0x03FFFFFF 1 7 ∧ LaneWord 0x11FFFFFF 8 7 ∧ LaneWord 0x0DFFFFF8 6 0
    ∧ (LaneWord 0x05FFE066 2 6 ∧ Word.b 0x05FFE066 = 0 ∧ Word.cb 0x05FFE066 = 0)
    ∧ (LaneWord 0x05FFE067 2 7 ∧ Word.b 0x05FFE067 = 0 ∧ Word.cb 0x05FFE067 = 0)
    ∧ (LaneWord 0x0FFFE067 7 7 ∧ Word.b 0x0FFFE067 = 0 ∧ Word.cb 0x0FFFE067 = 0)
    ∧ (LaneWord 0x17C71C03 11 3 ∧ (Word.d 0x17C71C03).toNat % 8 = 0 ∧ (Word.a 0x17C71C03).toNat % 8 = 0 ∧ (Word.b 0x17C71C03).toNat % 8 = 0
      ∧ Word.ca 0x17C71C03 = 0 ∧ Word.cb 0x17C71C03 = 0)
    ∧ (LaneWord 0x17C70004 11 4 ∧ (Word.d 0x17C70004).toNat % 8 = 0 ∧ (Word.a 0x17C70004).toNat % 8 = 0 ∧ Word.b 0x17C70004 = 0
      ∧ Word.ca 0x17C70004 = 0 ∧ Word.cb 0x17C70004 = 0) := by
  unfold LaneWord; decide

/-- LaneImmediateResults: the shift counts that R85 accepts end at 63. -/
theorem meets_LaneImmediateResults : (63 : BitVec 11).toNat < 64 ∧ LaneReady two (form1 false 63 hi) :=
  ⟨by decide, two_fresh.lane _ rfl rfl (by decide)⟩

/-- LaneShiftResults: a poisoned count. -/
def poisonedCount : State := withV 63 ⟨5, .full, true⟩ one
theorem meets_LaneShiftResults : LaneReadable poisonedCount (form2 false 0 lo ⟨63, .last⟩) ∧ Alone poisonedCount 15
    ∧ (readCell (getV poisonedCount (tkOf poisonedCount 15) 63)).2 = true := by
  refine ⟨?_, rfl, by decide⟩
  constructor <;> decide

/-- PoisonedSources: the operand of every thread is poisoned; and in a comparison the first, or only the second. -/
theorem meets_PoisonedSources : LaneReadable poisonedCount (form2 false 63 ⟨63, .last⟩ lo)
    ∧ (∀ i ∈ poisonedCount.cur.tids, Poisoned poisonedCount (form2 false 63 ⟨63, .last⟩ lo) i)
    ∧ LaneReadable poisonedCount { formP false 7 ⟨63, .keep⟩ lo with flds := [fA false ⟨63, .keep⟩, fB false lo] }
    ∧ LaneReadable poisonedCount { formP false 7 lo ⟨63, .keep⟩ with flds := [fA false lo, fB false ⟨63, .keep⟩] }
    ∧ (readCell (getV poisonedCount (tkOf poisonedCount 15) 0)).2 = false := by
  refine ⟨?_, by decide, ?_, ?_, by decide⟩
  all_goals constructor <;> decide

/-- ConversionResults: both clauses of the first part with and without an E4 side, and a slot of another kind. -/
def e4Slot : State := { two with grid := [(0, { lr := { teams := 1, groups := 1, w := 16, nv := 64, ns := 64, fslots := [(7, 0x4)] } })] }
theorem meets_ConversionResults : LaneReady two (formCvt 63 lo ⟨.d, .i64, 0, 0, false, false, .rne⟩)
    ∧ LaneReady e4Slot (formCvt 63 lo ⟨.bf, .e4, 3, 7, false, false, .rne⟩) ∧ slotKind (cvtSlot e4Slot ⟨.bf, .e4, 3, 7, false, false, .rne⟩) = 4
    ∧ Alone one 15 ∧ (getThr one (tkOf one 15)).st ≠ .exited ∧ slotKind (cvtSlot one ⟨.e4, .bf, 0, 0, false, false, .rne⟩) ≠ 4 := by
  refine ⟨two_fresh.lane _ rfl rfl (by decide), ?_, by decide, rfl, by decide, by decide⟩
  exact Fresh.lane (by constructor <;> decide) _ rfl rfl (by decide)

/-- RoundingAndNans: a NaN, the infinities, a zero, a finite value and the largest finite number of each format's kind; the fused form's
invalid sum, and the root of a negative value. -/
theorem meets_RoundingAndNans : isNan (numOf fp16 0x7E00) = true ∧ numOf fp16 0xFC00 = .inf true ∧ numOf fp16 0x7C00 = .inf false
    ∧ (∃ e, numOf fp16 0x8000 = .fin true 0 e) ∧ (0x7BFF < 2 ^ (1 + fp16.eb + fp16.mb) ∧ isNan (numOf fp16 0x7BFF) = false)
    ∧ (2 ^ 64 - 1 < 2 ^ (1 + fp64.eb + fp64.mb) ∧ isNan (numOf fp64 (2 ^ 63)) = false)
    ∧ (∀ z, isZero (flush fp16 z (numOf fp16 0x8000)) = true ∧ isInf (flush fp16 z (numOf fp16 0x7C00)) = true)
    ∧ (isFin (numOf fp16 0xBC00) = true ∧ isZero (numOf fp16 0xBC00) = false ∧ nSign (numOf fp16 0xBC00) = true)
    ∧ flush fp16 true (numOf fp16 0xFC00) = .inf !((nSign (.inf false) != nSign (numOf fp16 0x3C00)) != false) :=
  ⟨by decide +kernel, by decide +kernel, by decide +kernel, ⟨_, rfl⟩, by decide +kernel, by decide +kernel, by decide +kernel, by decide +kernel,
    by decide +kernel⟩

/-- RoundingAndNans: finite elements of nonzero and of zero sum, difference, product and fused sum (1, 2, −1 and −0 of FP16), and terms of
nonzero and of zero sum. -/
theorem half_one : flush fp16 false (numOf fp16 0x3C00) = .fin false 1024 (-10) := by decide +kernel
theorem half_two : flush fp16 false (numOf fp16 0x4000) = .fin false 1024 (-9) := by decide +kernel
theorem half_minus_one : flush fp16 false (numOf fp16 0xBC00) = .fin true 1024 (-10) := by decide +kernel
theorem half_minus_zero : flush fp16 false (numOf fp16 0x8000) = .fin true 0 (-24) := by decide +kernel
theorem meets_ArithmeticRoundsOnce :
    let v := fun n => flush fp16 false (numOf fp16 n)
    (∀ n ∈ [0x3C00, 0x4000, 0xBC00, 0x8000], isFin (v n) = true)
    ∧ (realOf (v 0x3C00) + realOf (v 0x4000) ≠ 0 ∧ realOf (v 0x3C00) - realOf (v 0x4000) ≠ 0 ∧ realOf (v 0x3C00) * realOf (v 0x4000) ≠ 0
      ∧ realOf (v 0x3C00) ≠ 0 ∧ 0 < realOf (v 0x4000) ∧ realOf (v 0x3C00) * realOf (v 0x3C00) + realOf (v 0x4000) ≠ 0)
    ∧ (realOf (v 0x3C00) + realOf (v 0xBC00) = 0 ∧ realOf (v 0x3C00) - realOf (v 0x3C00) = 0 ∧ realOf (v 0x3C00) * realOf (v 0x8000) = 0
      ∧ realOf (v 0x8000) = 0 ∧ realOf (nProd (v 0x3C00) (v 0x3C00)) + realOf (v 0xBC00) = 0)
    ∧ ([v 0x3C00, v 0x4000].map realOf).sum ≠ 0 ∧ ([v 0x3C00, v 0x8000, v 0xBC00].map realOf).sum = 0 := by
  refine ⟨by decide +kernel, ?_, ?_, ?_, ?_⟩ <;>
    simp [half_one, half_two, half_minus_one, half_minus_zero, realOf, nProd] <;> norm_num

/-- LaneControlFlow: a clean target that is not a multiple of 4. -/
def oddTarget : State := withV 63 ⟨0xFFFFFFFFFFFFFFFE, .full, false⟩ one
theorem meets_LaneControlFlow : Alone oddTarget 15 ∧ (valV oddTarget 15 63).toNat % 4 ≠ 0
    ∧ LaneReady oddTarget { uni := false, flds := [⟨false, 63, .last, 0, true⟩] }
    ∧ LaneReady oddTarget { uni := false, flds := [⟨false, 63, .last, 0, true⟩], dv := .some 63 } := by
  refine ⟨rfl, by decide, ⟨?_, by decide⟩, ⟨?_, by decide⟩⟩ <;> constructor <;> decide

/-- ExitEndsThreads: one thread of two ends, and nothing is settled. -/
def leaving : State := { two with cur := { two.cur with tids := [15] } }
theorem meets_ExitEndsThreads : LaneReady leaving { uni := false, flds := [] }
    ∧ (∀ i ∈ leaving.cur.tids, ∀ r : BitVec 6, r.toNat < (recOf leaving leaving.cur.gk).nv →
      (getV leaving (tkOf leaving i) r).st = .full ∨ (getV leaving (tkOf leaving i) r).st = .dead)
    ∧ (∀ i ∈ leaving.cur.tids, ∀ p : BitVec 3, (getP leaving (tkOf leaving i) p).empty = false)
    ∧ (0 < Machine.widthOf leaving leaving.cur.gk ∧ 0 ∉ leaving.cur.tids ∧ (getThr leaving (tkOf leaving 0)).st = .ready
      ∧ (getGrp leaving leaving.cur.gk).hset = [] ∧ gidOf leaving.cur.gk < (recOf leaving leaving.cur.gk).groups
      ∧ ∀ g, (getGrp leaving g).tbar = .none ∧ (getGrp leaving g).latch = .none) := by
  have h : Fresh leaving := by constructor <;> decide
  refine ⟨h.lane _ rfl rfl (by decide), fun i _ r _ => .inl (h.getV _ r).1, fun i _ p => h.getP _ p, ?_⟩
  exact ⟨by decide, by decide, by decide, by decide, by decide, fun g => ⟨rfl, rfl⟩⟩

/-- UnreadySourcesWaitOrTrap: an EMPTY register with and without control 0b11, and a FAULT register. -/
theorem meets_UnreadySourcesWaitOrTrap : TwoPending (withV 63 ⟨0, .empty, false⟩ one) 15 63 ⟨63, .last⟩ lo
    ∧ (getV (withV 63 ⟨0, .empty, false⟩ one) (tkOf (withV 63 ⟨0, .empty, false⟩ one) 15) 63).st = .empty
    ∧ ¬ ((⟨63, .last⟩ : Src).c = .trap ∨ (lo.r = (63 : BitVec 6) ∧ lo.c = .trap)) ∧ hi.c = .trap
    ∧ TwoPending (withV 63 ⟨0, .fault 1 2, false⟩ one) 15 63 hi lo
    ∧ (getV (withV 63 ⟨0, .fault 1 2, false⟩ one) (tkOf (withV 63 ⟨0, .fault 1 2, false⟩ one) 15) 63).st = .fault 1 2 := by
  refine ⟨?_, by decide, by decide, rfl, ?_, by decide⟩ <;> constructor <;> decide

/-- GuardAndLimits: a false guard, and a register at the launch's count. -/
def guarded : State := { one with cur := { one.cur with guard := .some (7, false) } }
def narrow : State := { one with grid := [(0, { lr := { teams := 1, groups := 1, w := 16, nv := 63, ns := 64 } })] }
theorem meets_GuardAndLimits : (Alone guarded 15 ∧ (getThr guarded (tkOf guarded 15)).st ≠ .exited ∧ guardVal guarded guarded.cur.gk 15 false = .no
      ∧ (63 : BitVec 6).toNat < (recOf guarded guarded.cur.gk).nv)
    ∧ (Alone narrow 15 ∧ (getThr narrow (tkOf narrow 15)).st ≠ .exited ∧ (recOf narrow narrow.cur.gk).nv ≤ (63 : BitVec 6).toNat) := by
  decide

/-- ShuffleResults, BallotVoteAndConvergence, ReductionResults: the forms; and a thread that arrives first. -/
theorem meets_cross_forms : CrossReady two (formSh false 63 lo hi) ∧ CrossReady two { uni := false, flds := [], preds := [7], dv := .some 63 }
    ∧ CrossReady two (formPP false 7 [7]) ∧ CrossReady two (form1 false 63 lo) := by
  refine ⟨?_, ?_, ?_, ?_⟩ <;> exact two_fresh.cross two_all _ rfl rfl (by decide)
theorem meets_BallotVoteAndConvergence : Alone leaving 15 ∧ 63 < (recOf leaving leaving.cur.gk).nv ∧ 0 ∈ domain leaving leaving.cur.gk
    ∧ (getThr leaving (tkOf leaving 0)).st = .ready ∧ (getThr leaving (tkOf leaving 15)).wait = .none := by decide

/-- UniformArithmeticResults, UniformControlFlow: the forms of every clause. -/
theorem meets_uniform_forms : UniReady two (form2 true 63 lo hi) ∧ UniReady two (formSh true 0 hi lo) ∧ UniReady two (form1 true 63 lo)
    ∧ UniReady two { uni := true, flds := [], dv := .some 63 } ∧ UniReady two { uni := true, flds := [⟨true, 63, .plain, 4, false⟩], dv := .some 63 }
    ∧ UniReady two (formP true 7 lo hi) ∧ UniReady two (formPP true 7 [0, 7]) ∧ UniReady two (formPP true 0 [7])
    ∧ UniReady two { uni := true, flds := [], preds := [7] } ∧ UniReady two { uni := true, flds := [], preds := [7], dv := .some 63 }
    ∧ UniReady two { uni := true, flds := [⟨true, 63, .last, 0, true⟩] }
    ∧ UniReady two { uni := true, flds := [⟨true, 63, .last, 0, true⟩], dv := .some 63 } ∧ (valS two 63).toNat % 4 = 0 ∧ UniReady two bareForm := by
  refine ⟨?_, ?_, ?_, ?_, ?_, ?_, ?_, ?_, ?_, ?_, ?_, ?_, ?_, ?_⟩
  case refine_13 => decide
  all_goals exact two_fresh.uni two_all _ rfl rfl (by decide)

/-- A virtual device with a handler. -/
def handled : State := { two with vs := { vb := [(0, .some { handler := 0x4000 })] } }
/-- The group in system mode: its handler set is all its threads. -/
def inHandler : State :=
  { two with
    grp := [(0, { hset := [0, 15] })]
    thr := (List.range 16).map fun i => (i, { st := if i ∈ [0, 15] then .ready else .exited, sys := true }) }
theorem handled_fresh : Fresh handled := by constructor <;> decide
theorem inHandler_fresh : Fresh inHandler := by constructor <;> decide

/-- TakingATrap: a group that can; a trap while another is handled; no handler; a trap in system mode. -/
theorem meets_TakingATrap : CanTrap handled 0 [0, 15]
    ∧ ((getThr { two with grp := [(0, { hset := [0] })] } (threadKey 0 15)).sys = false ∧ (getGrp { two with grp := [(0, { hset := [0] })] } 0).hset ≠ [])
    ∧ ((getGrp two 0).hset = [] ∧ (blockOf two (ctxOf two 0)).handler = 0 ∧ (getGrid two (gridOfG 0)).status = .none)
    ∧ ((getThr inHandler (threadKey 0 15)).sys = true ∧ (getGrid inHandler (gridOfG 0)).status = .none) := by
  refine ⟨?_, by decide, by decide, by decide⟩
  constructor <;> decide

/-- TrapAndReturn and SystemRegisters: in user mode with a handler, and in system mode. -/
theorem meets_TrapAndReturn : UniReady handled bareForm ∧ CanTrap handled handled.cur.gk (domain handled handled.cur.gk)
    ∧ UniReady inHandler bareForm ∧ InSystem inHandler ∧ (getGrp inHandler inHandler.cur.gk).hset = domain inHandler inHandler.cur.gk
    ∧ (getGrp inHandler inHandler.cur.gk).held = [] := by
  refine ⟨handled_fresh.uni (by decide) _ rfl rfl (by decide), ?_, inHandler_fresh.uni (by decide) _ rfl rfl (by decide), ⟨0, by decide, by decide⟩,
    by decide, by decide⟩
  constructor <;> decide
theorem meets_SystemRegisters : UniReady inHandler { uni := true, flds := [], dv := .some 63 } ∧ InSystem inHandler
    ∧ UniReady inHandler { uni := true, flds := [⟨true, 63, .last, 0, true⟩] }
    ∧ UniReady handled { uni := true, flds := [], dv := .some 63 } ∧ UniReady handled { uni := true, flds := [⟨true, 63, .last, 0, true⟩] }
    ∧ CanTrap handled handled.cur.gk (domain handled handled.cur.gk) := by
  refine ⟨inHandler_fresh.uni (by decide) _ rfl rfl (by decide), ⟨0, by decide, by decide⟩, inHandler_fresh.uni (by decide) _ rfl rfl (by decide),
    handled_fresh.uni (by decide) _ rfl rfl (by decide), handled_fresh.uni (by decide) _ rfl rfl (by decide), ?_⟩
  constructor <;> decide

/-! ### Accesses -/

/-- The pages that the tests map, for core 0 and for the agents: page 0 to memory, page 1 to an editioned page of region 1, page 2 to the window of peer 1, page 3 to
memory that may not be accessed, page 4 to a page of kind SO. -/
def leafAt (pa : Nat) : Leaf :=
  { pa := pa, r := true, w := true, x := true, user := true, kind := .rc, region := 0, edition := 0, key := 0, enc := false, place := 0, at_ := 0, size := 0 }
def pages : List XEnt :=
  [0, agentCore].flatMap fun c => [⟨c, 0, 0, leafAt (2 ^ 20)⟩, ⟨c, 0, 1, { leafAt (2 ^ 20 + 65536) with region := 1 }⟩, ⟨c, 0, 2, leafAt (2 ^ 51 + 2 ^ 41)⟩,
   ⟨c, 0, 3, { leafAt (2 ^ 20 + 131072) with r := false, w := false }⟩, ⟨c, 0, 4, { leafAt (2 ^ 20 + 196608) with kind := .so }⟩]

/-- A 2-dimensional shape of 2 rows of 8 bytes at the start of a tile. -/
def tileShape : Shape := { base := 0, ext := [2, 1], str := [8, 8], slot := 7, r := true, w := true }

/-- The last thread of a group on a core, with an address space, a stash window, capabilities, handles, a fork set, launch tokens, an
accumulator slot and an open record. -/
def full : State :=
  { one with
    grid := [(0, { lr := { teams := 1, groups := 1, w := 16, nv := 64, ns := 64, stash := 0x10000, shpcount := 2, shpbase := 0x1000
                           fslots := [(1, 1), (7, 0)] }
                   caps := [(63, .some { kind := .queue, operand := 7, allow := 64, s := true, v := true, x := true }),
                            (62, .some { kind := .comp, operand := 0, allow := 64, s := true, v := true, x := true }),
                            (61, .some { kind := .comp, operand := 2 ^ 32, allow := 64, s := true, v := true, x := true })]
                   toks := [{ tok := 1, status := .some 0 }, { tok := 2, status := .none }]
                   shapes := [(0, .some (.some tileShape)), (1, .some (.some { tileShape with slot := 1 }))]
                   barCtx := .some 0 })]
    team := [(0, { st := .resident
                   handles := [(0, .some { off := 0, size := 1024, st := .full }), (127, .some { off := 4096, size := 128, st := .full }),
                               (126, .some { off := 8192, size := 128, st := .free, err := true })]
                   allow := [(61, 64), (62, 64), (63, 64)], sets := [(7, .some { hs := [127] })] })]
    slot := [(0, .some { tag := 5, team := 0 })]
    recs := [(511, .some { team := 0, off := 0x8000, h := 0 }), (2, .some { team := 0, off := 0x8040, h := 0, w := [(6, 16), (4, 3)] })]
    mm := { State.reset.mm with xlat := pages, mem := [(28, 0x10)] }
    vs := { State.reset.vs with vb := [(0, .some { reqmask := 0x0001FFFFFFFFFFFF, slices := List.replicate 4 (BitVec.allOnes 48), cores := BitVec.allOnes 960 })] } }

/-- The same with `vs` in the thread's registers from v1 on, and `ss` in its group's from s1 on. -/
def rich (vs ss : List Word) : State :=
  { full with
    vreg := (List.range vs.length).map fun k => (15 * 64 + 1 + k, ⟨vs.getD k 0, .full, false⟩)
    sreg := (List.range ss.length).map fun k => (1 + k, ⟨ss.getD k 0, .full, false⟩) }

theorem full_facts : domain full full.cur.gk = [15] ∧ (recOf full full.cur.gk).nv = 64 ∧ (recOf full full.cur.gk).ns = 64
    ∧ Machine.widthOf full full.cur.gk ≤ 64 ∧ (getThr full (tkOf full 15)).st ≠ .exited ∧ (getThr full (tkOf full 15)).pc = full.cur.pc := by decide
theorem rich_domain (vs ss : List Word) : domain (rich vs ss) (rich vs ss).cur.gk = [15] := by
  show domain (rich vs ss) full.cur.gk = [15]
  exact full_facts.1
theorem rich_fresh (vs ss : List Word) : Fresh (rich vs ss) where
  vreg := fun e he => by
    obtain ⟨k, -, rfl⟩ := List.mem_map.1 he
    exact ⟨rfl, rfl⟩
  sreg := fun e he => by
    obtain ⟨k, -, rfl⟩ := List.mem_map.1 he
    exact ⟨rfl, rfl⟩
  pred := fun _ he => nomatch he
  qpred := fun _ he => nomatch he
  guard := rfl
  counts := by
    show (recOf (rich vs ss) full.cur.gk).nv = 64 ∧ (recOf (rich vs ss) full.cur.gk).ns = 64
    exact ⟨full_facts.2.1, full_facts.2.2.1⟩
  width := by
    show Machine.widthOf (rich vs ss) full.cur.gk ≤ 64
    exact full_facts.2.2.2.1
  issuers := ⟨List.nodup_singleton 15, fun i hi => by
    obtain rfl := List.mem_singleton.1 hi
    exact ⟨by decide, by rw [rich_domain]; exact List.mem_singleton_self 15, full_facts.2.2.2.2.1, full_facts.2.2.2.2.2⟩⟩
theorem rich_all (vs ss : List Word) : ∀ i ∈ domain (rich vs ss) (rich vs ss).cur.gk, i ∈ (rich vs ss).cur.tids := by
  rw [rich_domain]; exact fun _ h => h

/-- Such a bundle, and its group, can issue every form. -/
theorem rich_lane (vs ss : List Word) (F : Form) (hu : F.uni = false) (hm : F.more = []) (hk : ∀ f ∈ F.flds, f.uni = true → f.c ≠ .last) :
    LaneReady (rich vs ss) F := (rich_fresh vs ss).lane F hu hm hk
theorem rich_uni (vs ss : List Word) (F : Form) (hu : F.uni = true) (hm : F.more = []) (hf : ∀ f ∈ F.flds, f.uni = true) :
    UniReady (rich vs ss) F := (rich_fresh vs ss).uni (rich_all vs ss) F hu hm hf

/-- How an access of the lane or uniform set goes on from the state `s` in which it issues, where no wait and no refusal stands in its way:
to an editioned page, to the DRAIN word, to a peer. -/
def goes (u : Bool) (s : State) (accs : List Acc) (tracked : Bool) (sp : Space) (va : Word) (n : Nat) : Option (Bool × Bool × Bool) :=
  match plan s.cur.gk (if u then 0 else 15) u (if u then userOf s s.cur.gk 0 true else !(getThr s (tkOf s 15)).sys) sp accs va n (if u then arrive s else s) with
  | (.ok qs, w) =>
    if stashBusy w sp va n = .none ∧ issueWait u (if u then 0 else 15) sp (partsOf qs) tracked w = .none ∧ duePerforms w (coreOf w w.cur.gk) = true
      ∧ unreachable (performDue (coreOf w w.cur.gk) w) w.cur.gk (partsOf qs) = false
    then .some (decide (editioned qs), decide (readsDrainWord qs n), decide (readsPeer qs)) else .none
  | _ => .none
theorem goes_spec {u : Bool} {s : State} {accs : List Acc} {tr : Bool} {sp : Space} {va : Word} {n : Nat} {r : Bool × Bool × Bool}
    (h : goes u s accs tr sp va n = .some r) : ∃ qs w,
    plan s.cur.gk (if u then 0 else 15) u (if u then userOf s s.cur.gk 0 true else !(getThr s (tkOf s 15)).sys) sp accs va n (if u then arrive s else s) = (.ok qs, w)
    ∧ stashBusy w sp va n = .none ∧ issueWait u (if u then 0 else 15) sp (partsOf qs) tr w = .none ∧ duePerforms w (coreOf w w.cur.gk) = true
    ∧ unreachable (performDue (coreOf w w.cur.gk) w) w.cur.gk (partsOf qs) = false ∧ r = (decide (editioned qs), decide (readsDrainWord qs n), decide (readsPeer qs)) := by
  unfold goes at h
  split at h
  · rename_i qs w hp
    by_cases hc : stashBusy w sp va n = .none ∧ issueWait u (if u then 0 else 15) sp (partsOf qs) tr w = .none ∧
        duePerforms w (coreOf w w.cur.gk) = true ∧ unreachable (performDue (coreOf w w.cur.gk) w) w.cur.gk (partsOf qs) = false
    · rw [if_pos hc] at h
      exact ⟨qs, w, hp, hc.1, hc.2.1, hc.2.2.1, hc.2.2.2, (Option.some.inj h).symm⟩
    · rw [if_neg hc] at h
      exact nomatch h
  · exact nomatch h

/-- LaneLoadsIssue: at the two ends of the pages, for every way a load goes, in the stash's last bytes, and at a page that refuses. -/
theorem meets_LaneLoadsIssue : Alone (rich [8] []) 15
    ∧ LaneReady (rich [8] []) { uni := false, flds := [strictF false hi 0], dv := .some 63 } ∧ LaneReady (rich [8] []) { uni := false, flds := [strictF false lo 0], dv := .some 0 }
    ∧ LaneReady (rich [] [0]) { uni := false, flds := [strictF false lo 0, strictF true ⟨63, .plain⟩ 1], dv := .some 63, dp := .some 7 }
    ∧ UniReady (rich [] [0]) { uni := true, flds := [strictF true lo 0, strictF true hi 1], dv := .some 63, dp := .some 7 }
    ∧ goes false (rich [8] []) [.r] true .g (valV (rich [8] []) 15 1 + (0x3FF8 : BitVec 14).signExtend 64) 8 = .some (false, false, false)
    ∧ goes false (rich [0x1FFF8] []) [.r] true .g (valV (rich [0x1FFF8] []) 15 1 + (0 : BitVec 14).signExtend 64) 8 = .some (true, false, false)
    ∧ goes false (rich [0x2FFFF] []) [.r] true .g (valV (rich [0x2FFFF] []) 15 1 + (0 : BitVec 14).signExtend 64) 1 = .some (false, false, true)
    ∧ goes false (rich [0x00FFFFFFFFF40800] []) [.r] true .g (valV (rich [0x00FFFFFFFFF40800] []) 15 1 + (0 : BitVec 14).signExtend 64) 8
      = .some (false, true, false)
    ∧ goes false (rich [0xFFF8] []) [.r] true .s (valV (rich [0xFFF8] []) 15 1 + (0 : BitVec 14).signExtend 64) 8 = .some (false, false, false)
    ∧ (plan 0 15 false true .g [.r] 0x30000 8 (rich [] [])).1 = .fault 2 0x30000
    ∧ goes true (rich [] []) [.r] true .g 0 8 = .some (false, false, false) := by
  refine ⟨rfl, rich_lane _ _ _ rfl rfl (by decide), rich_lane _ _ _ rfl rfl (by decide), rich_lane _ _ _ rfl rfl (by decide),
    rich_uni _ _ _ rfl rfl (by decide), ?_⟩
  decide +kernel

/-- UniformLoadsIssue and StoresPerform: to memory and to the stash, through a plain page, and where releases cover a line. -/
theorem meets_UniformLoadsIssue : UniReady (rich [] [8]) { uni := true, flds := [strictF true hi 0], dv := .some 63 }
    ∧ goes true (rich [] [8]) [.r] true .g (valS (rich [] [8]) 1 + (0x3FF8 : BitVec 14).signExtend 64) 8 = .some (false, false, false)
    ∧ goes true (rich [] [0xFFFC]) [.r] true .s (valS (rich [] [0xFFFC]) 1 + (0 : BitVec 14).signExtend 64) 4 = .some (false, false, false)
    ∧ goes true (rich [] [0x20000]) [.r] true .g (valS (rich [] [0x20000]) 1 + (0 : BitVec 14).signExtend 64) 4 = .some (false, false, true) :=
  ⟨rich_uni _ _ _ rfl rfl (by decide), by decide +kernel⟩
theorem meets_StoresPerform : LaneReady (rich [0xFFFF] []) { uni := false, flds := [strictF false lo 0, strictF false hi 1] }
    ∧ UniReady (rich [] [0xFFFF]) { uni := true, flds := [strictF true lo 0, strictF true hi 1] } ∧ ¬ copyAperture ≤ (0xFFFF : Word).toNat
    ∧ goes false (rich [0xFFFF] []) [.w] false .g (valV (rich [0xFFFF] []) 15 1) 1 = .some (false, false, false)
    ∧ goes false (rich [0xFFFF] []) [.w] false .s (valV (rich [0xFFFF] []) 15 1) 1 = .some (false, false, false)
    ∧ goes true (rich [] [0xFFFF]) [.w] false .g (valS (rich [] [0xFFFF]) 1) 1 = .some (false, false, false)
    ∧ goes true (rich [] [0xFFFF]) [.w] false .s (valS (rich [] [0xFFFF]) 1) 1 = .some (false, false, false) :=
  ⟨rich_lane _ _ _ rfl rfl (by decide), rich_uni _ _ _ rfl rfl (by decide), by decide +kernel⟩

/-- The translation of page 0, as the core of `full` holds it. -/
def entry0 : XEnt := ⟨0, 0, 0, leafAt (2 ^ 20)⟩
/-- Page 0 is plain memory for every access up to its last byte. -/
theorem page0_plain : PlainPage (rich [0xFFF8] []) 15 false [.r, .w] 0xFFF8 8 entry0 ∧ PlainPage (rich [0xFFFF] []) 15 false [.w] 0xFFFF 1 entry0
    ∧ PlainPage (rich [0xFFFF] []) 15 false [.r] 0xFFFF 1 entry0 ∧ PlainPage (arrive (rich [] [0xFFFF])) 0 true [.w] 0xFFFF 1 entry0
    ∧ PlainPage (arrive (rich [] [0xFFFF])) 0 true [.r] 0xFFFF 1 entry0 := by
  refine ⟨?_, ?_, ?_, ?_, ?_⟩ <;> constructor <;> decide +kernel
theorem meets_StoresPerform_completes :
    (∀ u ∈ [false, true], let s := if u then rich [] [0xFFFF] else rich [0xFFFF] []; let tid := if u then 0xFFFF else 15
      (if u then valS s 1 else valV s 15 1) = 0xFFFF ∧ duePerforms s (coreOf s s.cur.gk) = true
      ∧ (0xFFFF + widthBytes .b ≤ windowOf s (teamOfG s.cur.gk) ∧ stashBusy s .s 0xFFFF (widthBytes .b) = .none
        ∧ orderWait s s.cur.gk tid true [⟨0xFFFF, widthBytes .b, .rc⟩] = .none)
      ∧ orderWait s s.cur.gk tid false [(plainPiece 0xFFFF (widthBytes .b) entry0).part] = .none) := by decide +kernel

/-- AtomicsAndPrefetchesIssue: a local atomic, one at a peer at `.sys` and at another scope, a misaligned one, at the ends of the pages; a
prefetch of no space, of no mapped page, and of a page that is cached. -/
def oneNode (s : State) (va : Word) (n : Nat) : Option (Bool × Nat) :=
  match plan s.cur.gk 15 false (!(getThr s (tkOf s 15)).sys) .g [.r, .w] va n s with
  | (.ok [p], u) =>
    if stashBusy u .g va n = .none ∧ issueWait false 15 .g [p.part] true u = .none ∧ releaseWait u u.cur.gk (.some 15) true true true = .none
    then .some (isPeer p.part.pa, p.region) else .none
  | _ => .none
theorem meets_AtomicsAndPrefetchesIssue : LaneReady (rich [0xFFF8] []) { uni := false, flds := [strictF false lo 0, strictF false hi 1], dv := .some 63 }
    ∧ LaneReady (rich [0xFFF8] []) { uni := false, flds := [strictF false lo 0, strictF false hi 1, strictF false lo 2], dv := .some 63 }
    ∧ LaneReady (rich [0xFFF8] []) { uni := false, flds := [strictF false lo 0] } ∧ UniReady (rich [] [0x50000]) { uni := true, flds := [strictF true lo 0] }
    ∧ (oneNode (rich [] []) 0xFFF8 8 = .some (false, 0) ∧ oneNode (rich [] []) 0x2FFFC 4 = .some (true, 0) ∧ oneNode (rich [] []) 0xFFFB 4 = .some (false, 0))
    ∧ (canonical (2 ^ 57) = false ∧ ∀ e ∈ (rich [] []).mm.xlat, e.core = 0 → e.asid = 0 → e.page ≠ (0x50000 : Word).toNat % 2 ^ 57 / 65536) :=
  ⟨rich_lane _ _ _ rfl rfl (by decide), rich_lane _ _ _ rfl rfl (by decide), rich_lane _ _ _ rfl rfl (by decide),
    rich_uni _ _ _ rfl rfl (by decide), by decide +kernel⟩

/-- The completion of an atomic in the stash window and in plain memory, of the strongest order; of a prefetch at a plain page. -/
theorem meets_AtomicsIssue_completes : (0xFFF8 : Word).toNat % atomBytes .n64 = 0 ∧ valV (rich [0xFFF8] []) 15 1 = 0xFFF8
    ∧ mayRelease (rich [0xFFF8] []) 15 ⟨.g, .n64, .sys, .sc, 0⟩
    ∧ (0xFFF8 + atomBytes .n64 ≤ windowOf (rich [0xFFF8] []) 0 ∧ windowOf (rich [0xFFF8] []) 0 ≤ 786432
      ∧ stashBusy (rich [0xFFF8] []) .s 0xFFF8 (atomBytes .n64) = .none ∧ orderWait (rich [0xFFF8] []) 0 15 true [⟨0xFFF8, atomBytes .n64, .rc⟩] = .none)
    ∧ orderWait (rich [0xFFF8] []) 0 15 false [(plainPiece 0xFFF8 (atomBytes .n64) entry0).part] = .none
    ∧ trackersOk (rich [0xFFF8] []) 0 (partLines [(plainPiece 0xFFF8 (atomBytes .n64) entry0).part]) = true := by
  unfold mayRelease; decide +kernel
theorem meets_PrefetchesPass_completes : trackersOk (rich [0xFFFF] []) 0 [(2 ^ 20 + 0xFFFF) / 128] = true
    ∧ reachable (rich [0xFFFF] []) (coreOf (rich [0xFFFF] []) 0) (2 ^ 20 + 0xFFFF) = true
    ∧ trackersOk (rich [] [0xFFFF]) 0 [(2 ^ 20 + 0xFFFF) / 128] = true
    ∧ reachable (rich [] [0xFFFF]) (coreOf (rich [] [0xFFFF]) 0) (2 ^ 20 + 0xFFFF) = true := by decide +kernel

/-! ### Synchronisation, transfers, launches -/

/-- BarriersAndWaits: no barrier of the grid; a full handle and one with an error; a set whose members have ended; a claim of nothing and of
the last byte of a page. -/
theorem meets_BarriersAndWaits : UniReady (rich [] []) bareForm ∧ UniReady two bareForm ∧ UniReady (rich [] [7]) (formU1 hi)
    ∧ UniReady (rich [] [0xFFFF, 1]) (formU2d 63 lo hi)
    ∧ (releaseWait (arrive (rich [] [])) 0 .none true true true = .none ∧ acquireWait (arrive (rich [] [])) 0 = .none
      ∧ oldRequest (arrive (rich [] [])) (dieOf (coreOf (rich [] []) 0)) = .none ∧ releaseWait (arrive (rich [] [])) 0 .none false = .none
      ∧ releaseWait (arrive (rich [] [])) 0 .none false false (getTeam (rich [] []) 0).pair = .none)
    ∧ (0 ∈ groupsOf (rich [] []) 0 ∧ ∀ g ∈ groupsOf (rich [] []) 0, g ≠ 0 → atTbar (rich [] []) g = true)
    ∧ ((getGrid (rich [] []) (gridOfG 0)).barCtx = .some 0 ∧ (getGrid two (gridOfG 0)).barCtx = .none)
    ∧ (∃ h, getHandle (rich [] []) (teamOfG 0) (127 : BitVec 7).toNat = .some h ∧ isEngine h.st = false ∧ h.err = false ∧ condMet .full h.st = true)
    ∧ (∃ h, getHandle (rich [] []) (teamOfG 0) (126 : BitVec 7).toNat = .some h ∧ isEngine h.st = false ∧ h.err = true)
    ∧ (∃ f : ForkSet, (valS (rich [] [7]) 1).toNat < 8 ∧ tget .none (valS (rich [] [7]) 1).toNat (getTeam (rich [] [7]) (teamOfG 0)).sets = .some f
      ∧ f.live = [] ∧ (∀ h ∈ f.hs, handleErr (rich [] [7]) (teamOfG 0) h = false) ∧ f.prog = .none)
    ∧ valS (rich [] [0xFFFF, 1]) 3 = 0 ∧ canonical (valS (rich [] [0xFFFF, 1]) 1) = true
    ∧ (claimScan 0 (userOf (rich [] [0xFFFF, 1]) 0 0 true) 1 0 (arrive (rich [] [0xFFFF, 1]))).1 = .none
    ∧ releaseWait (claimScan 0 (userOf (rich [] [0xFFFF, 1]) 0 0 true) 1 0 (arrive (rich [] [0xFFFF, 1]))).2 0 .none true true = .none := by
  refine ⟨rich_uni _ _ _ rfl rfl (by decide), two_fresh.uni two_all _ rfl rfl (by decide), rich_uni _ _ _ rfl rfl (by decide),
    rich_uni _ _ _ rfl rfl (by decide), by decide +kernel, by decide, by decide, ⟨_, rfl, by decide, by decide, by decide⟩, ⟨_, rfl, by decide, by decide⟩,
    ⟨{ hs := [127] }, by decide +kernel⟩, by decide +kernel⟩

/-- BarriersAndWaits: the only group of its device's barrier context, where everybody has arrived. -/
def barred : State := { full with grp := [(0, { bar := .some 4 })], rp := { full.rp with part := [(0, true)] } }
theorem meets_BarriersAndWaits_flip : (getGrp barred 0).bar = .some 4 ∧ (teamsOf barred 0).flatMap (groupsOf barred) = [0]
    ∧ ∀ k < 960, tget false (0 * 960 + k) barred.rp.part = true → coreReady barred 0 0 k = true := by
  refine ⟨by decide, by decide +kernel, fun k _ hk => ?_⟩
  simp only [barred, tget] at hk
  split at hk
  · rename_i h
    obtain rfl : k = 0 := by omega
    decide +kernel
  · exact nomatch hk

/-- QueueAndMessageTransfers: an entry of a queue, the whole of a queue's room, a block of 128 bytes and of 4,096. -/
theorem meets_QueueAndMessageTransfers : CrossReady (rich [] []) { uni := false, flds := [], dv := .some 63 }
    ∧ CrossReady (rich [5] []) { uni := false, flds := [strictF false lo 1] } ∧ UniReady (rich [] [5]) (formU1 hi) ∧ UniReady (rich [] [0, 128]) (formU2 lo hi)
    ∧ UniReady (rich [] []) { uni := true, flds := [], dv := .some 63 } ∧ UniReady (rich [] [0xF000, 4096]) (formU2d 0 lo hi)
    ∧ (parts (rich [] []) ≠ [] ∧ queueCap (rich [] []) 0 63 false = .some 7 ∧ queueCap (rich [] []) 0 63 true = .some 7
      ∧ trackersOk (arrive (rich [] [])) 0 [2 ^ 60] = true
      ∧ releaseWait (arrive (rich [5] [])) 0 .none false false (getTeam (rich [5] []) 0).pair = .none)
    ∧ ((sendEnts (Machine.widthOf (rich [5] []) 0) 8 (sentBy (rich [5] []) ⟨1, .last⟩)).length
        ≤ queueRoom (releaseCore (coreOf (rich [5] []) 0) (getTeam (rich [5] []) 0).pair false (arrive (rich [5] []))) 0 7
      ∧ (sendEnts (Machine.widthOf (rich [5] []) 0) 8 (sentBy (rich [5] []) ⟨1, .last⟩)).length
        ≤ allowOf (releaseCore (coreOf (rich [5] []) 0) (getTeam (rich [5] []) 0).pair false (arrive (rich [5] []))) 0 63)
    ∧ (∃ c d, capOf (rich [] [5]) 0 63 = .some c ∧ destOf (rich [] [5]) 0 c true 0 = .some d ∧ 1 ≤ allowOf (rich [] [5]) 0 63
      ∧ releaseWait (arrive (rich [] [5])) 0 .none (destSys d) false (destWide (rich [] [5]) 0 d) = .none
      ∧ (accept 0 d ⟨bytesOf 8 (valS (rich [] [5]) 1).toNat, []⟩ false (charge 0 63 1
          (releaseCore (coreOf (rich [] [5]) 0) (destWide (rich [] [5]) 0 d) false (arrive (rich [] [5]))))).isSome = true)
    ∧ (∃ c d, blockCheck (arrive (rich [] [0, 128])) 0 128 = .none ∧ capOf (rich [] [0, 128]) 0 63 = .some c
      ∧ destOf (rich [] [0, 128]) 0 c false 128 = .some d 
      ∧ releaseWait (arrive (rich [] [0, 128])) 0 .none (destSys d) false (destWide (rich [] [0, 128]) 0 d) = .none
      ∧ (accept 0 d ⟨List.replicate 128 0, []⟩ false (charge 0 63 1
          (releaseCore (coreOf (rich [] [0, 128]) 0) (destWide (rich [] [0, 128]) 0 d) false (arrive (rich [] [0, 128]))))).isSome = true)
    ∧ (∃ c, recvCap (rich [] []) 0 63 = .some c) ∧ blockCheck (arrive (rich [] [0xF000, 4096])) 0xF000 4096 = .none := by
  refine ⟨(rich_fresh _ _).cross (rich_all _ _) _ rfl rfl (by decide), (rich_fresh _ _).cross (rich_all _ _) _ rfl rfl (by decide),
    rich_uni _ _ _ rfl rfl (by decide), rich_uni _ _ _ rfl rfl (by decide), rich_uni _ _ _ rfl rfl (by decide), rich_uni _ _ _ rfl rfl (by decide),
    by decide +kernel, by decide +kernel, ⟨_, .queue 7, rfl, by decide +kernel⟩, ⟨_, .queue 7, by decide +kernel, rfl, by decide +kernel⟩,
    ⟨_, rfl⟩, by decide +kernel⟩

/-- LaunchForkAndEditionIssue: a record in the last bytes of a page; a token that has ended and one that has not, and a group that waited for
one; an empty fork block at the end of the window; the last byte of an editioned page. -/
def launchAt : State := rich [] [0xFF00, 0, 0xFFC0, 0x1FFFF, 1, 2]
def waitedFor : State := { rich [] [] with grp := [(0, { wl := .some 1 })] }
theorem meets_LaunchForkAndEditionIssue : UniReady launchAt { formU2d 63 lo hi with dp := .some 7 } ∧ UniReady launchAt (formU1d 63 hi)
    ∧ UniReady launchAt (formU2d 63 lo hi)
    ∧ (valS launchAt 1).toNat % 256 = 0
    ∧ (match plan 0 0 true (userOf launchAt 0 0 true) .g [.r] (valS launchAt 1) 256 (arrive launchAt) with
        | (.ok _, u) => match engPart (askerOf u 0) 0 .g (valS launchAt 1) 256 u with
          | (.ok _ _, w) => decide (w.cur = launchAt.cur ∧ releaseWait w 0 .none false true = .none)
          | _ => false
        | _ => false) = true
    ∧ (∃ k st, findTok (getGrid launchAt (gridOfG 0)) (valS launchAt 5).toNat = .some k ∧ k.status = .some st)
    ∧ (∃ k, findTok (getGrid launchAt (gridOfG 0)) (valS launchAt 6).toNat = .some k ∧ k.status = .none) ∧ (getGrp launchAt 0).wl = .none
    ∧ ((valS launchAt 3).toNat + 64 ≤ windowOf launchAt 0 ∧ (valS launchAt 3).toNat % 64 = 0 ∧ stashBusy (arrive launchAt) .s (valS launchAt 3) 64 = .none
      ∧ stashBad launchAt 0 (valS launchAt 3).toNat 64 = false
      ∧ (match forkChecks 0 (denyOf launchAt 0 0 true) (stashRead launchAt 0 (valS launchAt 3).toNat 64) (List.range 6) [] (arrive launchAt) with
        | (.ok cs, u) => let w := releaseCore (coreOf u 0) true true u
          decide (u.cur = launchAt.cur ∧ releaseWait u 0 .none false true = .none
            ∧ w.cur = launchAt.cur ∧ forkReady w 0 0 cs = true
            ∧ (startFork 0 0 0 0 cs (commitStore 0 (formU1d 63 ⟨3, .last⟩) w)).2.cur = launchAt.cur)
        | _ => false) = true)
    ∧ (match regionOf (valS launchAt 4) (arrive launchAt) with
        | (.ok r, u) => let w := releaseCore (coreOf u 0) true true u
          decide (r = 1 ∧ releaseWait u 0 .none false true = .none ∧ w.mm.nextId = u.mm.nextId ∧ eOpen w r ≠ 0xFFFFFFFF)
        | _ => false) = true
    ∧ aliveG launchAt 0 = true ∧ ∀ o ∈ launchAt.mm.ops, o.id < launchAt.mm.nextId := by
  refine ⟨rich_uni _ _ _ rfl rfl (by decide), rich_uni _ _ _ rfl rfl (by decide), rich_uni _ _ _ rfl rfl (by decide), by decide +kernel, by decide +kernel,
    ⟨{ tok := 1, status := .some 0 }, 0, by decide +kernel⟩, ⟨{ tok := 2, status := .none }, by decide +kernel⟩, by decide +kernel⟩
theorem meets_LaunchForkAndEditionIssue_waited : UniReady waitedFor bareForm ∧ (getGrp waitedFor 0).wl = .some 1
    ∧ ∃ k st, findTok (getGrid waitedFor (gridOfG 0)) (1 : Word).toNat = .some k ∧ k.status = .some st := by
  refine ⟨?_, rfl, { tok := 1, status := .some 0 }, 0, by decide +kernel⟩
  have h : Fresh waitedFor := by constructor <;> decide
  exact h.uni (by decide) _ rfl rfl (by decide)


/-! ### Matrix units, accumulators and records -/

/-- The group of `full` beside a second one: `v` in GANG, `ss` in the s registers; slot n of the launch has kind n, slot 7 kind 0. -/
def ganged (v : Word) (ss : List Word) : State :=
  { rich [] ss with
    grid := [(0, { (getGrid full 0) with lr := { (getGrid full 0).lr with groups := 2, fslots := [(1, 1), (2, 2), (3, 3), (4, 4), (7, 0)] }
                                         shapes := [(0, .some (.some tileShape)), (1, .some (.some { tileShape with slot := 4 }))] })]
    grp := [(0, { gang := v, gangNew := true })] }
/-- A list of groups 0 and 1, with group 0 in position 0. -/
def pairList : Word := BitVec.ofNat 64 (2 * 2 ^ 48 + 1 * 2 ^ 8)

theorem ganged_facts : domain (ganged 0 []) 0 = [15] ∧ (recOf (ganged 0 []) 0).nv = 64 ∧ (recOf (ganged 0 []) 0).ns = 64
    ∧ Machine.widthOf (ganged 0 []) 0 ≤ 64 ∧ (getThr (ganged 0 []) (threadKey 0 15)).st ≠ .exited ∧ (getThr (ganged 0 []) (threadKey 0 15)).pc = 0 := by
  decide
theorem ganged_gathered : Gathered (ganged pairList []) := by constructor <;> decide

/-- MatrixAndAccumulators, first part: a list of none, of two, and bad ones; GANG that holds none, a gang and no gang; register forms of the first and the last type. -/
theorem meets_MatrixAndAccumulators_lists : UniReady (ganged 0 [pairList]) (formU1 hi) ∧ (ganged 0 [pairList]).mm.ops.find? (isMatrixOf 0) = .none
    ∧ gangCount (valS (ganged 0 [pairList]) 63) = 0
    ∧ (gangCount (valS (ganged 0 [pairList]) 1) ≠ 0 ∧ bits (valS (ganged 0 [pairList]) 1) 63 51 = 0
      ∧ listBad (ganged 0 [pairList]) 0 (valS (ganged 0 [pairList]) 1) = false ∧ gangStale (ganged 0 [pairList]) 0 = false)
    ∧ (gangCount (valS (ganged pairList [pairList]) 1) ≠ 0 ∧ gangStale (ganged pairList [pairList]) 0 = false
      ∧ gangCount (valS (ganged 0x1000000000000 [pairList]) 1) ≠ 0 ∧ gangStale (ganged 0x1000000000000 [pairList]) 0 = true)
    ∧ (gangCount (valS (ganged 0 [0x1000000000000]) 1) ≠ 0 ∧ gangStale (ganged 0 [0x1000000000000]) 0 = false ∧ listBad (ganged 0 [0x1000000000000]) 0 (valS (ganged 0 [0x1000000000000]) 1) = true) := by
  refine ⟨?_, by decide⟩
  constructor <;> first | decide | (constructor <;> decide)
theorem meets_MatrixAndAccumulators_mmar : MmarReady (ganged pairList []) 0 63 ⟨0, .last⟩ ⟨16, .keep⟩ 7 7
    ∧ MmarReady (ganged pairList []) 4 0 ⟨0, .last⟩ ⟨16, .keep⟩ 4 4 := by
  constructor <;> refine ⟨ganged_gathered, ?_, ?_, ?_, ?_, ?_, ?_, ?_, ?_⟩
  all_goals first | decide +kernel | skip
  all_goals intro i hi; obtain rfl : i = 15 := by revert i; decide
  all_goals exact ⟨_, _, rfl⟩
/-- Streamed forms: the slot form with a reference of 0 and the last register form. -/
def streamed : State := ganged pairList [0x7F00000000, 0, 0x7F00010001]
theorem meets_MatrixAndAccumulators_mmas : UniReady streamed (mmasForm 0 63 lo ⟨2, .keep⟩)
    ∧ MmasReady streamed (arrive streamed) (arrive streamed) 0 63 (valS streamed 1) (valS streamed 2) (valS streamed 63)
      { off := 4096, size := 128, st := .full } { off := 0, size := 1024, st := .full } tileShape tileShape
    ∧ UniReady streamed (formU2 ⟨3, .keep⟩ hi)
    ∧ MmasReady streamed (arrive streamed) (arrive streamed) 4 0 (valS streamed 3) (valS streamed 63) 0
      { off := 4096, size := 128, st := .full } { off := 0, size := 1024, st := .full } { tileShape with slot := 4 } { tileShape with slot := 4 } := by
  refine ⟨?_, ?_, ?_, ?_⟩
  case refine_1 => constructor <;> first | decide | (constructor <;> decide)
  case refine_3 => constructor <;> first | decide | (constructor <;> decide)
  all_goals refine ⟨?_, ?_, ?_, ?_, ?_, ?_, ?_, ?_, ?_, ?_, ?_, ?_, ?_⟩
  all_goals first | decide +kernel | skip
  all_goals intro i hi; obtain rfl : i = 15 := by revert i; decide
  all_goals exact ⟨_, _, rfl⟩

/-- MatrixAndAccumulators, second part: a reference of 0, a current one, one whose tag is old; a tile at the end of its handle. -/
def referring : State := rich [] [0x500, 0x600, 0]
theorem meets_MatrixAndAccumulators_accrel : (∀ d : BitVec 6, UniReady referring { uni := true, flds := [⟨true, d, .plain, 4, true⟩], dv := .some d })
    ∧ valS referring 63 = 0
    ∧ (valS referring 1 ≠ 0 ∧ refSlot referring 0 (valS referring 1) = .some 0 ∧ slotWriter referring 0 0 = .none)
    ∧ (valS referring 2 ≠ 0 ∧ refSlot referring 0 (valS referring 2) = .none)
    ∧ UniReady referring { uni := true, flds := [strictF true ⟨3, .last⟩ 1, ⟨true, 1, .plain, 4, true⟩], dv := .some 1 } ∧ bits (valS referring 3) 63 23 = 0
    ∧ (∃ y sh z, getHandle referring 0 (bits (valS referring 3) 22 16) = .some y ∧ isEngine y.st = false
      ∧ getShape 0 (denyOf referring 0 0 true) (bits (valS referring 3) 15 0) (arrive referring) = (.ok sh, arrive referring) ∧ stashShapeOk (recOf (arrive referring) 0) sh 0 true = true
      ∧ (arrive referring).cur = referring.cur ∧ spanIn y (shapeSpan sh 64) = true
      ∧ ((rowParts y sh 16 24 64).findSome? fun r => busyTile (arrive referring) 0 r.1 r.2) = .none
      ∧ issueWait true 0 .s ((rowParts y sh 16 24 64).map fun r => ⟨r.1, r.2, .rc⟩) false (arrive referring) = .none
      ∧ getSlot (arrive referring) 0 0 = .some z ∧ (writeTile 0 y sh z.d (arrive referring)).cur = referring.cur) := by
  refine ⟨fun d => rich_uni _ _ _ rfl rfl (by simp), by decide +kernel, by decide +kernel, by decide +kernel,
    rich_uni _ _ _ rfl rfl (by decide), by decide +kernel, ⟨{ off := 0, size := 1024, st := .full }, tileShape, { tag := 5, team := 0 }, by decide +kernel⟩⟩

/-- RecordOperationsIssue: a record to open at the end of its handle; terms of both kinds of record, one's own and through entries; a replay
of an empty log. -/
def recording : State := rich [960, 511, 0x900000000002, 0x300000000, 0xFFE8] []
theorem meets_RecordOperationsIssue : LaneReady recording { uni := false, flds := [strictF false lo 0], dv := .some 63 }
    ∧ LaneReady recording { uni := false, flds := [strictF false lo 0, strictF false hi 1, strictF false ⟨4, .keep⟩ 2], dp := .some 7 }
    ∧ LaneReady recording { uni := false, flds := [strictF false lo 0] } ∧ LaneReady recording { uni := false, flds := [strictF false lo 0, strictF false hi 1], dv := .some 63 }
    ∧ (∃ y, (valV recording 15 1).toNat % 64 = 0 ∧ getHandle recording 0 0 = .some y ∧ y.st = .full
      ∧ (∀ r ∈ recAreas false 960 (words32 (stashRead recording 0 960 64)), y.off ≤ r.1 ∧ r.1 + r.2 ≤ y.off + y.size)
      ∧ recWordsBad false (words32 (stashRead recording 0 960 64)) = false ∧ (freeRecs recording 0).2 < 512 ∧ (freeRecs recording 0).1 ≠ []
      ∧ openAt recording 0 960 = false
      ∧ issueWait false 15 .s [⟨960, 64, .rc⟩] false recording = .none ∧ stashBad recording 0 960 64 = false)
    ∧ (∀ p ∈ (getTeam recording 0).handles, ∀ z, p.2 = .some z → (p.1 = 0 ∨ isEngine z.st = false) ∧ z.mm = 0)
    ∧ issueWait false 15 .s [] false recording = .none
    ∧ (closing recording 0 15 511 = .none ∧ ∃ r, ownRec recording 0 ((valV recording 15 2).toNat % 512) = .some r ∧ isLse r = false)
    ∧ (∃ r, ownRec recording 0 ((valV recording 15 3).toNat % 512) = .some r ∧ isLse r = true ∧ (valV recording 15 4).toNat / 2 ^ 32 = (rw r 4).toNat
      ∧ (match readVec 15 ((valV recording 15 3).toNat / 2 ^ 32) ((valV recording 15 4).toNat / 2 ^ 32) recording with | .inr _ => true | .inl _ => false) = true)
    ∧ (∃ e, capOf recording 0 62 = .some e ∧ e.kind = .comp ∧ e.s = true ∧ bitAt e.operand 32 = false
      ∧ e.operand.toNat % 2 ^ 32 < (recOf recording 0).teams ∧ allowOf recording 0 62 ≠ 0)
    ∧ (∃ e, capOf recording 0 61 = .some e ∧ e.kind = .comp ∧ e.s = true ∧ bitAt e.operand 32 = true
      ∧ e.operand.toNat % 2 ^ 32 < (recOf recording 0).teams ∧ allowOf recording 0 61 ≠ 0) := by
  refine ⟨rich_lane _ _ _ rfl rfl (by decide), rich_lane _ _ _ rfl rfl (by decide), rich_lane _ _ _ rfl rfl (by decide),
    rich_lane _ _ _ rfl rfl (by decide), ⟨{ off := 0, size := 1024, st := .full }, by decide +kernel⟩, ?_, by decide +kernel,
    ⟨by decide +kernel, { team := 0, off := 0x8000, h := 0 }, by decide +kernel⟩, ⟨{ team := 0, off := 0x8040, h := 0, w := [(6, 16), (4, 3)] }, by decide +kernel⟩,
    ⟨{ kind := .comp, operand := 0, allow := 64, s := true, v := true, x := true }, by decide +kernel⟩,
    ⟨{ kind := .comp, operand := 2 ^ 32, allow := 64, s := true, v := true, x := true }, by decide +kernel⟩⟩
  · intro p hp z hz
    have h : ∀ p ∈ (getTeam recording 0).handles, (match p.2 with
        | .some z => decide ((p.1 = 0 ∨ isEngine z.st = false) ∧ z.mm = 0) | .none => true) = true := by decide
    have := h p hp
    rw [hz] at this
    exact of_decide_eq_true this

/-- RecordOperationsIssue: the replay's operands. -/
theorem meets_RecordOperationsIssue_creplay : (valV recording 15 1).toNat + 64 ≤ windowOf recording 0 ∧ (valV recording 15 5).toNat + 24 ≤ windowOf recording 0
    ∧ (∃ rb bb, stashGet recording (valV recording 15 1).toNat 64 = .ok rb ∧ stashGet recording (valV recording 15 5).toNat 24 = .ok bb
      ∧ ((words32 rb).getD 6 0).getLsbD 0 = false ∧ ((words32 rb).getD 6 0).getLsbD 3 = false ∧ ((words32 rb).getD 6 0).getLsbD 4 = false
      ∧ ((words32 rb).getD 10 0).toNat = 0
      ∧ (replayRows 0 0 { off := 0, size := 1024, st := .full } { tileShape with slot := 1 } ((words32 bb).take 3) 0 ((words32 bb).drop 3)
        (commitLong 15 { uni := false, flds := [strictF false lo 0, strictF false hi 1], dv := .some 63 } recording)).cur = recording.cur)
    ∧ getHandle recording 0 0 = .some { off := 0, size := 1024, st := .full }
    ∧ getShape 0 (denyOf recording 0 15 false) 1 recording = (.ok { tileShape with slot := 1 }, recording) ∧ stashShapeOk (recOf recording 0) { tileShape with slot := 1 } 1 true = true
    ∧ spanIn { off := 0, size := 1024, st := .full } (shapeSpan { tileShape with slot := 1 } 32) = true
    ∧ ((rowParts { off := 0, size := 1024, st := .full } { tileShape with slot := 1 } 0 4 32).findSome? fun r => busyTile recording 0 r.1 r.2) = .none
    ∧ issueWait false 15 .s (⟨(valV recording 15 1).toNat, 64, .rc⟩ :: ⟨(valV recording 15 5).toNat, 24, .rc⟩ :: ⟨0, 32 * 0, .rc⟩
        :: (rowParts { off := 0, size := 1024, st := .full } { tileShape with slot := 1 } 0 4 32).map fun r => ⟨r.1, r.2, .rc⟩) false recording = .none := by
  refine ⟨by decide +kernel, by decide +kernel, ⟨List.replicate 64 0, List.replicate 24 0, by with_unfolding_all rfl, by with_unfolding_all rfl, by decide +kernel⟩, by decide +kernel⟩

/-! ### The Gloss set and operations in flight -/

/-- A run on die 0's unit: attachment 0 of owner 64 at word `pc` of 64, with triggers of kind 0 and 1. -/
def glossed (pc : Nat) : State :=
  { rich [] [] with
    gsel := .some 0
    gl := [(0, { att := [(0, .some { valid := true, len := 64, cls := 0, owner := 64, asid := 0, mask := 0, param := 0 })]
                 ten := [(64, .some { budget := 65535, wbase := 0, wlog := 12, quota := 16
                                      trigs := (List.replicate 15 ⟨0, false, 0, 0, 0⟩) ++ [⟨1, true, 7, 0, 0⟩] })]
                 run := .some ⟨0, pc⟩ })] }

/-- GlossArithmeticResults and GlossMemoryBranchesAndTriggers: at the first and the last word; a trigger that cannot be delivered, and one
that can. -/
theorem meets_Gloss : GlossRuns (glossed 0) 0 ⟨0, 0⟩ ∧ GlossRuns (glossed 63) 0 ⟨0, 63⟩
    ∧ ownerOf (spent (getUnit (glossed 0) 0) ⟨0, 0⟩) 0 = 64
    ∧ (∃ x y, tget .none 64 (spent (getUnit (glossed 0) 0) ⟨0, 0⟩).ten = .some x ∧ x.trigs[0]? = .some y ∧ y.kind = 0
      ∧ deliver 64 0 0 y 0 (glossed 0) = .none)
    ∧ (∃ x y, tget .none 64 (spent (getUnit (glossed 0) 0) ⟨0, 0⟩).ten = .some x ∧ x.trigs[15]? = .some y ∧ y.kind = 1
      ∧ tget false (64 * 16 + 15) (spent (getUnit (glossed 0) 0) ⟨0, 0⟩).disarmed = false ∧ (deliver 64 0 15 y 0 (glossed 0)).isSome = true) :=
  ⟨⟨rfl, rfl⟩, ⟨rfl, rfl⟩, by decide, ⟨_, _, rfl, rfl, rfl, rfl⟩, ⟨_, _, rfl, rfl, rfl, by decide, by decide⟩⟩

/-- GlossMemoryBranchesAndTriggers, delivery: grid 0 is the host's launch 9 of device 0; its one team's mailbox 63 has `n` messages; queue 3
has `m` entries, and a record at 0x100. -/
def delivering (n m : Nat) : State :=
  { full with
    grid := [(0, { (getGrid full 0) with hostTok := 9 })]
    team := [(0, { (getTeam full 0) with boxes := [(63, List.replicate n ⟨[], []⟩)] })]
    mm := { full.mm with mem := [(0x108, 1), (0x10C, 1), (0x110, 1), (0x111, 1)] }
    vs := { full.vs with hostq := [(3, List.replicate m { lr := {}, tok := 1, dep := 0 })] } }
def mailTrig (tok team : Nat) : Trig := ⟨2, false, 63, team, tok⟩
def launchTrig : Trig := ⟨3, true, 3, 0, 0x100⟩
theorem meets_Gloss_mail : hostGrid (delivering 7 0) 0 9 = .some 0 ∧ hostGrid (delivering 7 0) 0 8 = .none
    ∧ (getGrid (delivering 7 0) 0).lr.teams = 1 ∧ (teamOrQueued (delivering 7 0) 0).st ≠ .ended
    ∧ (tget [] 63 (teamOrQueued (delivering 7 0) 0).boxes).length = 7 ∧ (tget [] 63 (teamOrQueued (delivering 8 0) 0).boxes).length = 8
    ∧ (deliver 0 0 0 (mailTrig 9 0) 5 (delivering 7 0)).isSome = true ∧ deliver 0 0 0 (mailTrig 9 0) 5 (delivering 8 0) = .none
    ∧ deliver 0 0 0 (mailTrig 8 0) 5 (delivering 7 0) = .none ∧ deliver 0 0 0 (mailTrig 9 1) 5 (delivering 7 0) = .none := by decide +kernel
theorem meets_Gloss_launch : enabledV (delivering 0 255) 0 = true ∧ recordOutside (delivering 0 255) 0 0x100 = false
    ∧ recordOk (pread (delivering 0 255) 0x100 256) = true ∧ pbad (delivering 0 255) 0x100 256 = false
    ∧ (tget [] 3 (delivering 0 255).vs.hostq).length = 255 ∧ (tget [] 3 (delivering 0 256).vs.hostq).length = 256
    ∧ (deliver 0 0 15 launchTrig 5 (delivering 0 255)).isSome = true ∧ deliver 0 0 15 launchTrig 5 (delivering 0 256) = .none
    ∧ deliver 0 0 15 { launchTrig with target := 0x10000 } 5 (delivering 0 255) = .none := by decide +kernel

/-- AtomicValues: the last operation of each kind of type, the greatest old value. -/
theorem meets_AtomicValues : atomAccepts 2 .i64 ∧ atomAccepts 7 .n32 ∧ 2 ^ 32 - 1 < 2 ^ (8 * atomBytes .n32) := by
  simp [atomAccepts, atomBytes]

/-- Operation 9, of the last thread, in flight; words of the stash from 8 on are marked; region 1 has an edition and a mapping at page 1;
the sub-pools of claims have a page and room for one. -/
def fly (k : OpK) : Op := { id := 9, gk := 0, tid := 15, iss := 0, ia := 0x40, k := k }
def inAir (k : OpK) : State :=
  { full with
    team := [(0, { (getTeam full 0) with sbad := [(1, true)] })]
    mm := { full.mm with ops := [fly k], nextId := 10, mem := [(28, 0x10), (256, 1), (272, 1), (16396, 1), (16408, 1)] }
    bd := { full.bd with maps := [(1, .some [{ va := 0x10000, asid := 0 }])] } }

/-- AccessesComplete, loads: of the stash clean and marked, and of memory. -/
theorem meets_AccessesComplete_loads : InFlight (inAir (.load true true 63 .none [⟨0, 8, .rc⟩] 0)) 9 (fly (.load true true 63 .none [⟨0, 8, .rc⟩] 0))
    ∧ aliveG (inAir (.load true true 63 .none [⟨0, 8, .rc⟩] 0)) 0 = true
    ∧ stashBad (inAir (.load true true 63 .none [⟨0, 8, .rc⟩] 0)) 0 0 8 = false ∧ stashBad (inAir (.load true true 63 .none [⟨0, 8, .rc⟩] 0)) 0 8 8 = true
    ∧ (match readParts 0 [⟨2 ^ 20, 8, .rc⟩] (inAir (.load false false 63 (.some 7) [⟨2 ^ 20, 8, .rc⟩] 0)) with
      | .some (_, _, w) => aliveG w 0 | .none => false) = true := by decide +kernel

/-- AccessesComplete, atomics: in the stash, at the core's L1 and at the directory; marked, a compare that fails and an addition that writes. -/
def atomOf (sp : Space) (sc : Scope) (minor : Nat) (p : Part) (bad : Tab Bool) : State :=
  let s := inAir (.atomic 63 minor ⟨sp, .n64, sc, .rlx, 0⟩ p 0 1 1)
  { s with mm := { s.mm with bad := bad } }
theorem meets_AccessesComplete_atomics : InFlight (atomOf .s .dev 0 ⟨0, 8, .rc⟩ []) 9 (fly (.atomic 63 0 ⟨.s, .n64, .dev, .rlx, 0⟩ ⟨0, 8, .rc⟩ 0 1 1))
    ∧ stashBad (atomOf .s .dev 0 ⟨8, 8, .rc⟩ []) 0 8 8 = true ∧ stashBad (atomOf .s .dev 0 ⟨0, 8, .rc⟩ []) 0 0 8 = false ∧ isAcq .rlx = false
    ∧ duePerforms (atomOf .s .dev 0 ⟨0, 8, .rc⟩ []) (coreOf (atomOf .s .dev 0 ⟨0, 8, .rc⟩ []) 0) = true
    ∧ atomNew 7 .n64 0 1 1 = 0 ∧ atomNew 0 .n64 0 1 1 ≠ 0
    ∧ (∀ minor ∈ [0, 7], ∀ bad ∈ [false, true],
      (let s := atomOf .g .thread minor ⟨2 ^ 20, 8, .rc⟩ [(2 ^ 20 / 8, bad)];
        aliveG s 0 = true ∧ duePerforms s (coreOf s 0) = true ∧ partReach s (coreOf s 0) ⟨2 ^ 20, 8, .rc⟩ = true ∧ isHbm (2 ^ 20) = true
        ∧ wideScope s 0 .thread = false ∧ residentG s 0 = true
        ∧ (match readPart (ctxOf s 0) (coreOf s 0) ⟨2 ^ 20, 8, .rc⟩ (drainEntry (coreOf s 0) 8192 (performDue (coreOf s 0) (dropOp 9 s))) with
          | (bs, b, w) => aliveG w 0 && b == bad && natOf bs == 0 && aliveG (dirtyAt 0 0 (noteStore 0 (2 ^ 20)
              (dirtyLine (ctxOf s 0) (coreOf s 0) 8192 0 (bytesOf 8 1) false w))) 0) = true)
      ∧ (let s := atomOf .g .dev minor ⟨2 ^ 20, 8, .rc⟩ [(2 ^ 20 / 8, bad)];
        let w := dirLines (dirWrite (ctxOf s 0) (dieOf (coreOf s 0))) (2 ^ 20) 8
          (tapLine (ctxOf s 0) (coreOf s 0) 8192 true false (flushLine (coreOf s 0) 8192 (performDie (coreOf s 0) (performDue (coreOf s 0) (dropOp 9 s)))));
        aliveG s 0 = true ∧ duePerforms s (coreOf s 0) = true ∧ partReach s (coreOf s 0) ⟨2 ^ 20, 8, .rc⟩ = true ∧ wideScope s 0 .dev = true
        ∧ aliveG w 0 = true ∧ pbad w (2 ^ 20) 8 = bad ∧ natOf (pread w (2 ^ 20) 8) = 0
        ∧ aliveG (dirtyAt 0 0 (noteStore 0 (2 ^ 20) (pwrite (2 ^ 20) (bytesOf 8 1) w))) 0 = true)) := by decide +kernel

/-- AccessesComplete, at the Bindery's agents and the Gloss unit: an edition read of two pages, one that lies in part with a peer, one whose
copy lies outside the device's slices, one that is gone, publishing below and at the limit, the floor, and the DRAIN word. -/
def naming (va : Word) (e : Option Nat) (chk : Option (BitVec 3)) : State := inAir (.edl false 63 chk {} va 8 e 4 {} {})
def narrowed : State := { naming 0x1FFF8 .none .none with vs := { full.vs with vb := [] } }
def bygone (chk : Option (BitVec 3)) : State :=
  let s := naming 0x2FFF8 (.some 5) chk
  { s with mm := { s.mm with xlat := [⟨0, 0, 2, { leafAt (2 ^ 20) with region := 2 }⟩] } }
def publishing : State := inAir (.bpub 63 0x10000 1 4 {} {})
theorem meets_AccessesComplete_agents : InFlight (naming 0xFFFC .none (.some 7)) 9 (fly (.edl false 63 (.some 7) {} 0xFFFC 8 .none 4 {} {}))
    ∧ (cutOff (naming 0xFFFC .none (.some 7)) 0 (pagePieces 0xFFFC 8) = false ∧ aliveG (naming 0xFFFC .none (.some 7)) 0 = true
      ∧ deniedPiece (naming 0xFFFC .none (.some 7)) 0 .none (pagePieces 0xFFFC 8) = .none
      ∧ (match readEditions 0 .none (pagePieces 0xFFFC 8) (naming 0xFFFC .none (.some 7)) with
        | (.ok _ b [], w) => !b && aliveG w 0 | _ => false) = true)
    ∧ (cutOff (naming 0x1FFFC .none .none) 0 (pagePieces 0x1FFFC 8) = false
      ∧ deniedPiece (naming 0x1FFFC .none .none) 0 .none (pagePieces 0x1FFFC 8) = .none
      ∧ (match readEditions 0 .none (pagePieces 0x1FFFC 8) (naming 0x1FFFC .none .none) with
        | (.ok _ _ (_ :: _), w) => aliveG w 0 | _ => false) = true)
    ∧ (cutOff narrowed 0 (pagePieces 0x1FFF8 8) = false ∧ aliveG narrowed 0 = true
      ∧ deniedPiece narrowed 0 .none (pagePieces 0x1FFF8 8) = .some 0x1FFF8)
    ∧ (∀ chk ∈ [.none, .some 7], cutOff (bygone chk) 0 (pagePieces 0x2FFF8 8) = false ∧ deniedPiece (bygone chk) 0 (.some 5) (pagePieces 0x2FFF8 8) = .none
      ∧ (match readEditions 0 (.some 5) (pagePieces 0x2FFF8 8) (bygone chk) with | (.gone _, w) => aliveG w 0 | _ => false) = true)
    ∧ InFlight publishing 9 (fly (.bpub 63 0x10000 1 4 {} {})) ∧ eOpen publishing 1 ≠ 0xFFFFFFFF ∧ aliveG publishing 0 = true
    ∧ eOpen { publishing with mm := { publishing.mm with mem := (List.range 4).map fun k => (256 + k, 0xFF) } } 1 = 0xFFFFFFFF
    ∧ InFlight (inAir (.bfloor 63 1 5)) 9 (fly (.bfloor 63 1 5)) ∧ aliveG (dropOp 9 (inAir (.bfloor 63 1 5))) 0 = true
    ∧ InFlight (inAir (.drain false 63 .none 0 0 0)) 9 (fly (.drain false 63 .none 0 0 0)) ∧ aliveG (inAir (.drain false 63 .none 0 0 0)) 0 = true
    ∧ (getUnit (inAir (.drain false 63 .none 0 0 0)) 0).run = .none ∧ (∀ p ∈ (getUnit (inAir (.drain false 63 .none 0 0 0)) 0).q, 0 ≤ p.n) := by
  decide +kernel


/-- TransfersComplete: a receive of a queue's only entry; a send that is accepted, and one that a full box refuses; an editioned store that
is written, one whose pool page lies outside the device's slices, and one that waits for a pool. -/
def received (k : OpK) : State :=
  { inAir k with
    grid := [(0, { (getGrid full 0) with caps := (getGrid full 0).caps ++ [(60, .some { kind := .core, operand := 0, allow := 0, s := true, v := true, x := true })] })]
    team := [(0, { (getTeam full 0) with queues := [(7, [⟨3, true, List.replicate 128 1, false⟩])], boxes := [(0, List.replicate 8 ⟨List.replicate 128 2, []⟩)] })] }
theorem meets_TransfersComplete_receives :
    (InFlight (received (.qrecv 63 7 1 8 [15])) 9 (fly (.qrecv 63 7 1 8 [15])) ∧ residentG (received (.qrecv 63 7 1 8 [15])) 0 = true
      ∧ recvTurn (received (.qrecv 63 7 1 8 [15])) (fly (.qrecv 63 7 1 8 [15])) = true
      ∧ 1 ≤ (poppable (queueOf (received (.qrecv 63 7 1 8 [15])) 0 7)).length)
    ∧ (∃ c, capOf (received (.crecv 63 63 .none)) 0 63 = .some c ∧ recvTurn (received (.crecv 63 63 .none)) (fly (.crecv 63 63 .none)) = true
      ∧ residentG (received (.crecv 63 63 .none)) 0 = true ∧ c.kind = .queue
      ∧ (match takeNext 0 c .none (received (.crecv 63 63 .none)) with | .some x => x.bad == [] | .none => false) = true)
    ∧ (∀ n ∈ [63, 60], ∃ c, capOf (received (.crecv 63 n (.some (0, 128)))) 0 n = .some c
      ∧ (match takeNext 0 c (.some 128) (received (.crecv 63 n (.some (0, 128)))) with | .some x => decide (x.data.length ≤ 128 ∧ x.bad = []) | .none => false) = true)
    ∧ (∃ c, capOf (received (.crecv 63 60 (.some (0, 127)))) 0 60 = .some c ∧ c.kind ≠ .queue
      ∧ (match takeNext 0 c (.some 127) (received (.crecv 63 60 (.some (0, 127)))) with | .some x => decide (127 < x.data.length) | .none => false) = true) := by
  refine ⟨by decide +kernel, ⟨{ kind := .queue, operand := 7, allow := 64, s := true, v := true, x := true }, by decide +kernel⟩, ?_,
    ⟨{ kind := .core, operand := 0, allow := 0, s := true, v := true, x := true }, by decide +kernel⟩⟩
  intro n hn
  rcases List.mem_cons.1 hn with rfl | hn
  · exact ⟨{ kind := .queue, operand := 7, allow := 64, s := true, v := true, x := true }, by decide +kernel⟩
  · obtain rfl := List.mem_singleton.1 hn
    exact ⟨{ kind := .core, operand := 0, allow := 0, s := true, v := true, x := true }, by decide +kernel⟩
theorem meets_TransfersComplete_sends :
    (accept 0 (.box 0 63) ⟨[1], []⟩ false (received (.msg (.box 0 63) ⟨[1], []⟩ 4 {}))).isSome = true
    ∧ accept 0 (.box 0 0) ⟨[1], []⟩ false (received (.msg (.box 0 0) ⟨[1], []⟩ 4 {})) = .none
    ∧ (∀ x ∈ [(0xFFF8, 0), (0x10000, 1)], let s := inAir (.bwr false {} x.1 (List.replicate 8 1) 4 .none)
      allMapped s 0 false (pagePieces x.1 8) = true ∧ cutOff s 0 (pagePieces x.1 8) = false ∧ duePerforms s (coreOf s 0) = true
      ∧ residentG s 0 = true ∧ (match readyPieces 0 (pagePieces x.1 8) (performDue (coreOf s 0) s) with
        | (.ready, w) => decide (x.2 = 0) && aliveG w 0 | (.pool _ _ _, _) => decide (x.2 = 1) | (.denied _, _) => false) = true) := by decide +kernel

/-- TransfersComplete: the sub-pools have a page, which lies outside the slices of the writer's device. -/
def outside : State :=
  let s := inAir (.bwr false {} 0x10000 (List.replicate 8 1) 4 .none)
  { s with
    vs := { s.vs with vb := [] }
    bd := { s.bd with pools := (List.range 5).map fun k => (8 + k, { stack := 0x3000, count := 1, cap := 4 }) }
    mm := { s.mm with mem := [(28, 0x10), (256, 1), (272, 1), (0x3002, 0x30), (16396, 1), (16408, 1)] } }
theorem meets_TransfersComplete_denied : allMapped outside 0 false (pagePieces 0x10000 8) = true ∧ cutOff outside 0 (pagePieces 0x10000 8) = false
    ∧ duePerforms outside (coreOf outside 0) = true
    ∧ (match readyPieces 0 (pagePieces 0x10000 8) (performDue (coreOf outside 0) outside) with | (.denied a, _) => a == 0x10000 | _ => false) = true := by
  decide +kernel

/-- CopiesClaimsAndForksProceed: the first beat of a fill and of a drain; a copy that is over; a claim with nothing left, of a page that
moves and of one that stays; a fork of nothing. -/
def copyIt (drain : Bool) (pos : Nat) : Copy := { team := 0, tmpl := 0, rows := 0, chan := 0, shape := { tileShape with slot := 7 }, h := 0, drain := drain, xp := false, xw := 0, pos := pos }
theorem meets_CopiesClaimsAndForksProceed_copies :
    (∀ drain ∈ [false, true], let s := inAir (.copy (copyIt drain 0))
      InFlight s 9 (fly (.copy (copyIt drain 0))) ∧ enginesRun s 0 = true ∧ copyOver s (fly (.copy (copyIt drain 0))) (copyIt drain 0) = false ∧ engReady s .none = true
      ∧ (getHandle (nextBeat (fly (.copy (copyIt drain 0))) (copyIt drain 0) s).2 0 0).isSome = true)
    ∧ (match nextBeat (fly (.copy (copyIt false 0))) (copyIt false 0) (inAir (.copy (copyIt false 0))) with
      | (ms, w) => !cutOff w 0 [((ms.headD ⟨0, .none, .none⟩).a, ms.length)]
        && match engRead (copyAsker w 0 0) 0 .g (ms.headD ⟨0, .none, .none⟩).a ms.length w with
        | (.ok _ _, v) => decide (getHandle v 0 0 = getHandle w 0 0) | _ => false) = true
    ∧ (match nextBeat (fly (.copy (copyIt true 0))) (copyIt true 0) (inAir (.copy (copyIt true 0))) with
      | (ms, w) => !cutOff w 0 [((ms.headD ⟨0, .none, .none⟩).a, ms.length)]
        && match engWrite (copyAsker w 0 0) 0 (ms.headD ⟨0, .none, .none⟩).a
          ((List.range ms.length).map fun i => drainByte w 0 0 false ((currentBytes 0 (ms.headD ⟨0, .none, .none⟩).a ms.length w).getD i 0) (ms.getD i ⟨0, .none, .none⟩))
          (ms.map (drainBad w 0 0)) w with
        | (.done, _) => true | _ => false) = true
    ∧ (let s := inAir (.copy (copyIt true 16)); copyOver s (fly (.copy (copyIt true 16))) (copyIt true 16) = true ∧ (getHandle s 0 0).isSome = true) := by
  decide +kernel
theorem meets_CopiesClaimsAndForksProceed_rest :
    aliveG (inAir (.claim 63 0 0 1 .none)) 0 = true
    ∧ (match movePage 0 0 0 0 (inAir (.claim 63 0 1 0 .none)) with | .moved _ => true | _ => false) = true
    ∧ (match movePage 0 0 0 2 (inAir (.claim 63 2 1 0 .none)) with | .left _ => true | _ => false) = true
    ∧ (getTeam (inAir (.fork 63 0 0 [] 4 {})) 0).st = .resident ∧ forkReady (inAir (.fork 63 0 0 [] 4 {})) 0 0 [] = true := by decide +kernel

/-- LaunchesAndStreamsProceed: a record that may be launched, one that is refused, one that is marked; an access program's request at the end
of a page, and a line that returns. -/
def withRecord (k : OpK) (bad : Tab Bool) : State :=
  { inAir k with
    mm := { (inAir k).mm with mem := [(28, 0x10), (2 ^ 20 + 8, 1), (2 ^ 20 + 12, 1), (2 ^ 20 + 14, 8), (2 ^ 20 + 16, 1), (2 ^ 20 + 17, 1)], bad := bad }
    team := [(0, { (getTeam full 0) with prog := .some { base := 0, ready := true, gk := 0, ia := 0, arg := 0xFF80
                                                         recs := [{ off := 0, stride := 128, rows := 1, entries := 1, queue := 7, space := .g }] } })] }
theorem meets_LaunchesAndStreamsProceed :
    (∀ pri ∈ [0, 3], let k : OpK := .lrec 7 63 (2 ^ 20) 0 0 pri; let s := withRecord k [];
      InFlight s 9 (fly k) ∧ isPeer (2 ^ 20) = false ∧ reachable s (coreOf s 0) (2 ^ 20) = true
      ∧ (match readRecord 0 (2 ^ 20) 0 s with | (bs, bad, v) => !bad && launchStatus (dropOp 9 v) 0 pri 0 bs == 0 && aliveG v 0) = true)
    ∧ (let s := withRecord (.lrec 7 63 (2 ^ 20 + 256) 256 0 0) [];
      (match readRecord 0 (2 ^ 20 + 256) 256 s with | (bs, bad, v) => !bad && launchStatus (dropOp 9 v) 0 0 0 bs != 0) = true)
    ∧ (readRecord 0 (2 ^ 20) 0 (withRecord (.lrec 7 63 (2 ^ 20) 0 0 0) [((2 ^ 20 + 255) / 8, true)])).2.1 = true
    ∧ (let s := withRecord (.creplay 0 0) [];
      (getTeam s 0).st = .resident ∧ (0xFF80 + 0 + BitVec.ofNat 64 0 * 128 : Word).toNat % 128 = 0 ∧ queueRoom s 0 7 ≠ 0
      ∧ (match engPart (engAsker s 0) 0 .g (0xFF80 + 0 + BitVec.ofNat 64 0 * 128 + BitVec.ofNat 64 (128 * 0)) 128 s with
        | (.ok q _, w) => trackersOk w 0 (partLines [q]) && reachable w (coreOf w 0) q.pa | _ => false) = true)
    ∧ (let k : OpK := .aline 0 7 3 [⟨2 ^ 20, 128, .rc⟩] 0 .g; let s := withRecord k [];
      InFlight s 9 (fly k) ∧ partReach s (coreOf s 0) ⟨2 ^ 20, 128, .rc⟩ = true) := by decide +kernel

/-- MatrixAndRecordsProceed: a matrix instruction whose turn it is, and one behind another; the last K-step of a streamed one; operations of
the record 511 at a team on a core and at one that is switched out. -/
def behind (k : OpK) : State := { inAir k with mm := { (inAir k).mm with ops := [{ fly k with id := 8 }, fly k] } }
def stepping : OpK := .mmas 0 1 0 1 2 [{ gk := 0, d := 0, a := tileShape, b := tileShape, ha := 127, hb := 0 }] []
theorem meets_MatrixAndRecordsProceed :
    (InFlight (inAir (.matrix 0 7 7 [])) 9 (fly (.matrix 0 7 7 [])) ∧ engineTurn (inAir (.matrix 0 7 7 [])) (fly (.matrix 0 7 7 [])) = true)
    ∧ (InFlight (behind (.matrix 4 7 7 [])) 9 (fly (.matrix 4 7 7 [])) ∧ engineTurn (behind (.matrix 4 7 7 [])) (fly (.matrix 4 7 7 [])) = false)
    ∧ (InFlight (inAir stepping) 9 (fly stepping) ∧ enginesRun (inAir stepping) 0 = true ∧ engineTurn (inAir stepping) (fly stepping) = true
      ∧ (∀ h ∈ mmHandles (inAir stepping) [{ gk := 0, d := 0, a := tileShape, b := tileShape, ha := 127, hb := 0 }],
        (match h with | .some x => decide (x.err = false ∧ x.st = .full) | .none => false) = true))
    ∧ (∀ r ∈ [RecOp.copen 63 511 960 0 false, .cread 63 511 7, .cflush 511], let k : OpK := .rop 0 .none false r; let s := inAir k
      InFlight s 9 (fly k) ∧ s.mm.ops.any (arrivesFirst (fly k)) = false ∧ (getTeam s 0).st = .resident ∧ firstHeld s 0 = .none
      ∧ aliveG s 0 = true ∧ (getRec s 0 (halfOf s 0) 511).isSome = true)
    ∧ (let s := { inAir (.rop 0 .none false (.cflush 511)) with team := [(0, { (getTeam full 0) with st := .switchedOut })] }
      (getTeam s 0).st ≠ .resident ∧ (getTeam s 0).st ≠ .ended ∧ (getTeam s 0).st ≠ .queued ∧ s.mm.ops.any (arrivesFirst (fly (.rop 0 .none false (.cflush 511)))) = false)
    ∧ InFlight (inAir (.creplay 63 0)) 9 (fly (.creplay 63 0)) := by decide +kernel

/-- MatrixAndRecordsProceed, the values: finite elements of nonzero and of zero sum; a partial that is not zero; a NaN; the last element of a
group's K-step of FP64 and of FP4. -/
theorem one_fp64 : numOf fp64 0x3FF0000000000000 = .fin false (2 ^ 52) (-52) := by decide +kernel
theorem minus_one_fp64 : numOf fp64 0xBFF0000000000000 = .fin true (2 ^ 52) (-52) := by decide +kernel
theorem one_e8m26 : numOf e8m26 8522825728 = .fin false (2 ^ 26) (-26) := by decide +kernel
theorem meets_KStepValues :
    (isFin (numOf fp64 0x3FF0000000000000) = true ∧ isFin (numOf e8m26 8522825728) = true
      ∧ (numOf fp64 0x7FF8000000000000 :: terms 0 [] []).any isNan = true)
    ∧ realOf (numOf fp64 0x3FF0000000000000) + dotReal 0 [.some (numOf fp64 0x3FF0000000000000), .none] [.some (numOf fp64 0x3FF0000000000000), .none] ≠ 0
    ∧ realOf (numOf fp64 0xBFF0000000000000) + dotReal 0 [.some (numOf fp64 0x3FF0000000000000)] [.some (numOf fp64 0x3FF0000000000000)] = 0
    ∧ realOf (numOf e8m26 8522825728) ≠ 0
    ∧ (getHandle full 0 127 = .some { off := 4096, size := 128, st := .full } ∧ (getSlot full 0 0).isSome = true
      ∧ 383 < (mty 0).m * (mty 0).n ∧ 1535 < (mty 4).m * (mty 4).n) := by
  refine ⟨by decide +kernel, ?_, ?_, ?_, by decide⟩ <;>
    simp [one_fp64, minus_one_fp64, one_e8m26, realOf, dotReal, elemReal] <;> norm_num

/-- MatrixAndRecordsProceed, how terms retire: an opaque record; a late term; a record with room and a full one, of both kinds, before and
behind what it holds; a log with room and a full one; a transmittance that falls below the threshold and one that does not; a NaN. -/
def someRec (flags last : BitVec 32) (buf : List Term) : Rec :=
  { team := 0, off := 0, h := 0, w := [(3, 0x3F800000), (4, 0x3F000000), (5, last), (6, flags), (9, 1)], buf := buf }
def someTerm (key a : BitVec 32) : Term := { key := key, f0 := a, f1 := 0, f2 := 0, f3 := 0 }
def eight : List Term := (List.range 8).map fun i => someTerm (BitVec.ofNat 32 (2 * i + 1)) 0
theorem meets_RecordsRetire :
    isOpaque (someRec 2 0 []) = true
    ∧ (isOpaque (someRec 5 9 []) = false ∧ hasRetired (someRec 5 9 []) = true ∧ (8 : BitVec 32).toNat < (rw (someRec 5 9 []) 5).toNat
      ∧ (rw (someRec 5 9 []) 5).toNat ≤ (9 : BitVec 32).toNat)
    ∧ (isLse (someRec 1 0 eight) = false ∧ hasRetired (someRec 1 0 eight) = false ∧ 8 ≤ (someRec 1 0 eight).buf.length
      ∧ insertTerm (someTerm 0 0) eight ≠ [] ∧ (someRec 1 0 (eight.take 7)).buf.length < 8)
    ∧ (isLse (someRec 0x11 0 eight) = true ∧ (∀ u ∈ eight, (0 : BitVec 32).toNat < u.key.toNat) ∧ (∃ x ∈ eight, x.key.toNat ≤ (1 : BitVec 32).toNat))
    ∧ ((rw (someRec 1 0 []) 10).toNat < (rw (someRec 1 0 []) 9).toNat
      ∧ (rw { someRec 1 0 [] with w := [(9, 1), (10, 1)] } 9).toNat ≤ (rw { someRec 1 0 [] with w := [(9, 1), (10, 1)] } 10).toNat)
    ∧ (lt32 (rw (retireRad false (someTerm 0 0x3F800000) (someRec 1 0 eight, full)).1 3) (rw (someRec 1 0 eight) 4) = true
      ∧ lt32 (rw (retireRad false (someTerm 0 0) (someRec 1 0 eight, full)).1 3) (rw (someRec 1 0 eight) 4) = false)
    ∧ (isNan (f32 (rw (someRec 0x11 0 []) 0)) = false ∧ isNan (f32 0x7FC00000) = true) := by decide +kernel

/-- SchedulingProceeds: a quarter that regroups and one that does not; a cycle that is withheld, one with no candidate and one that chooses,
at a regrouping and between two; a team that has arrived at the barrier. -/
def cycling (n wh : Nat) (tids : List Nat) : State :=
  { full with
    grp := [(0, { quarter := 3, bar := .some 4 })]
    sc := { full.sc with cyc := [(3, n)], bundles := [(3, if tids = [] then [] else [{ gk := 0, tids := tids }])] }
    thr := if tids = [] then (List.range 16).map fun i => (i, { st := .exited }) else full.thr
    hs := { full.hs with wh := [(0, wh)] }
    rp := { full.rp with holder := [(0, .some 0)], part := [(0, true)] } }
noncomputable def cycled (s : State) : State :=
  let c := tget 0 3 s.sc.cyc
  let x := refreshQuarter 0 3 { s with sc := { s.sc with cyc := tset 0 3 (c + 1) s.sc.cyc } }
  if c % 4 = 0 then standQuarter 0 3 (regroup 0 3 x) else x
theorem meets_SchedulingProceeds : (∀ n ∈ [4, 5], withheld (cycled (cycling n 64 [15])) 0 n = true)
    ∧ (∀ n ∈ [4, 5], ∀ tids ∈ [[], [15]], let u := cycled (cycling n 0 tids);
      withheld u 0 n = false ∧ ((chooseTenant u 3 (tenantsOf u 0) ((candidates u 0 3).map fun b => vdevOfG u b.gk).eraseDups).1.isSome = decide (tids ≠ []))
      ∧ (firstBundle u ((candidates u 0 3).filter fun b => vdevOfG u b.gk == 0)).isSome = decide (tids ≠ []))
    ∧ (let s := cycling 0 0 [];
      tget .none 0 s.rp.holder = .some 0 ∧ tget false (0 * 960 + 0) s.rp.part = true ∧ teamsOn s 0 0 ≠ [] ∧ (∀ t ∈ teamsOn s 0 0, teamArrived s t = true)
      ∧ tget false (0 * 960 + 0) s.rp.forced = false) := by decide +kernel

/-! ### Caches, translation, the Bindery, tenants -/

/-- CachesAndDirectory: a clean line, a dirty one and one without a path to its home; a combining entry with and without its line; each state
of the directory. -/
def lined (d : BitVec 128) : State :=
  { full with mm := { full.mm with
      l1 := [{ core := 0, ctx := 0, line := 8192, data := List.replicate 128 7, dirty := d }, { core := 0, ctx := 0, line := 32, data := List.replicate 128 7, dirty := d }]
      comb := [{ core := 0, ctx := 0, line := 8192, data := List.replicate 128 9, dirty := 1 }, { core := 0, ctx := 0, line := 8193, data := List.replicate 128 9, dirty := 1 }]
      dir := [(1, ⟨.e, 1, 0⟩), (2, ⟨.m, 8, 3⟩), (3, ⟨.o, 12, 3⟩), (4, ⟨.s, 6, 0⟩)] } }
/-- A module whose dies have lost every link. -/
def cut (s : State) : State := { s with rg := { s.rg with route := 0 } }
theorem meets_CachesAndDirectory : (∀ d ∈ [0, BitVec.allOnes 128], ∃ l, findLine 0 8192 (lined d).mm.l1 = .some l ∧ l.dirty = d ∧ l.data.length = 128)
    ∧ (∃ l, findLine 0 (32) (cut (lined 1)).mm.l1 = .some l ∧ l.dirty ≠ 0)
    ∧ reachable (cut (lined 1)) 0 (32 * 128) = false ∧ reachable (lined 1) 0 (8192 * 128) = true
    ∧ (∀ k ∈ (lined 0).mm.l1, k.core = 0 → k.line / 4 = 8192 / 4 → k.dirty = 0)
    ∧ ((findLine 0 8192 (lined 0).mm.comb).isSome = true ∧ (findLine 0 8193 (lined 0).mm.comb).isSome = true ∧ findLine 0 8193 (lined 0).mm.l1 = .none)
    ∧ (∀ k ∈ (lined 0).mm.l1, k.core ≠ 0 → dieOf k.core = dieOf 0 → k.due ≠ 2)
    ∧ (∀ line ∈ [0, 1, 2, 3, 4], 
      (tget {} line (lined 0).mm.dir : DirEnt).st = .e ∨ (tget {} line (lined 0).mm.dir : DirEnt).st = .m →
        (tget {} line (lined 0).mm.dir : DirEnt).pres = dirBit (tget {} line (lined 0).mm.dir : DirEnt).owner)
    ∧ (let e : DirEnt := tget {} 2 (lined 0).mm.dir; e.owner = 3 ∧ e.st = .m)
    ∧ (let e : DirEnt := tget {} 3 (lined 0).mm.dir; e.owner = 3 ∧ e.st = .o ∧ e.pres &&& ~~~dirBit 3 ≠ 0)
    ∧ (let e : DirEnt := tget {} 1 (lined 0).mm.dir; e.st = .e ∧ e.pres &&& ~~~dirBit 0 = 0)
    ∧ (let e : DirEnt := tget {} 4 (lined 0).mm.dir; e.st = .s ∧ e.pres &&& ~~~dirBit 1 ≠ 0) := by
  refine ⟨fun d _ => ⟨{ core := 0, ctx := 0, line := 8192, data := List.replicate 128 7, dirty := d }, rfl, rfl, rfl⟩,
    ⟨{ core := 0, ctx := 0, line := 32, data := List.replicate 128 7, dirty := 1 }, by decide +kernel⟩, by decide +kernel⟩

/-- TranslationsAndFaultRecords: a leaf of 2^30 bytes that no translation caches; a ring with room and a full one; a record of cause 1; an
invalidation with and without an access that uses its pages. -/
def walked : State :=
  { full with mm := { full.mm with mem := [(16, 0x01), (18, 0x10), (0x100000, 0x01), (0x100001, 0x20), (0x100002, 0x10), (0x102000, 0x01), (0x102001, 0x40),
                                           (0x102002, 0x10), (0x104000, 0x9F), (0x104001, 0x02)] }
              vs := { full.vs with vb := [(1, .some { slices := List.replicate 4 (BitVec.allOnes 48) })] } }
def recorded (tail : Word) : State :=
  { State.reset with
    bd := { State.reset.bd with frecs := [⟨0, .none, 0, 5, 1, 0, 0, 0⟩, ⟨0, .some 4, 0, 5, 1, 0, 0, 0⟩] }
    vf := { State.reset.vf with fqTail := [(0, tail)] }
    thr := [(0, { st := .blocked, wait := .page 0 5 })] }
def invalidating (ops : List Op) : State :=
  { full with rg := { full.rg with invCtl := 0x80000000001FF000, invAddr := 0 }, mm := { full.mm with ops := ops } }
theorem meets_TranslationsAndFaultRecords :
    ((walked.mm.xlat.any fun e => e.core == agentCore && e.asid == 1 && e.page == 16383) = false ∧ pendingRec walked 1 16383 = false
      ∧ (match walk walked 1 (16383 * 65536) with | .leaf _ => true | _ => false) = true)
    ∧ (∀ h ∈ [0, 255, 256], (recorded (BitVec.ofNat 64 h)).bd.frecs[0]? = .some ⟨0, .none, 0, 5, 1, 0, 0, 0⟩
      ∧ tget 0 0 (recorded (BitVec.ofNat 64 h)).vf.fqTail = BitVec.ofNat 64 (h + (tget 0 0 (recorded (BitVec.ofNat 64 h)).vf.fqHead).toNat))
    ∧ (∀ r ∈ (recorded 0).bd.frecs, ¬ (r.vdev = 0 ∧ r.seq = .some 5))
    ∧ ((recorded 0).bd.frecs.find? (fun r => r.vdev == 0 && r.seq == .some 4)) = .some ⟨0, .some 4, 0, 5, 1, 0, 0, 0⟩
    ∧ (((recorded 0).thr.map Prod.fst).Nodup ∧ (recorded 0).mm.ops = [] ∧ (recorded 0).vs.hostq = [] ∧ (recorded 0).team = []
      ∧ (getThr (recorded 0) 0).wait = .page 0 5 ∧ (getTeam (recorded 0) (teamOfG 0)).st ≠ .evicted ∧ (getTeam (recorded 0) (teamOfG 0)).st ≠ .woken)
    ∧ (∀ ops ∈ [[], [fly (.load false false 63 .none [⟨2 ^ 20, 8, .rc⟩] 0)]], let s := invalidating ops
      bitAt s.rg.invCtl 63 = true ∧ s.mm.ops.any (usesPages s (bits s.rg.invCtl 11 0) (bits s.rg.invAddr 56 16) (bits s.rg.invCtl 31 12)) = decide (ops ≠ [])
      ∧ recallsAll s (bits s.rg.invCtl 11 0) (bits s.rg.invAddr 56 16) (bits s.rg.invCtl 31 12) = true) := by
  decide +kernel

theorem meets_TranslationsAndFaultRecords_items : items (recorded 0) 0 = [] := by
  simp [items, heads, recorded, State.reset, tget]

/-- RegionsAndRoutes: a region that is well formed and ones that are not; a region to destroy that is mapped, one with a sub-block pending and
one with nothing; the last sub-block; a page with and without copies; a valid address space and none; a route with every link. -/
def regioned (mem : List (Nat × Byte)) (ms : List Mapping) : State :=
  { full with
    mm := { full.mm with mem := [(256, 1), (268, 1), (269, 1), (272, 1), (281, 0x20)] ++ mem }
    hs := { full.hs with boot := 6 }
    bd := { full.bd with maps := [(1, .some ms)], pools := [(8, { cap := 1 }), (9, { cap := 1 })] } }
theorem meets_RegionsAndRoutes : malformedRegion (regioned [] []) 1 = false ∧ malformedRegion (regioned [] []) 0 = true
    ∧ (tget .none 1 (regioned [] []).bd.maps).isSome = true ∧ tget .none 1 (regioned [] [⟨0, 0⟩]).bd.maps = .some [⟨0, 0⟩]
    ∧ (regionPages (regioned [] []) 1 = 1 ∧ catPend (regioned [] []) 1 0 = 0 ∧ poolWaiter (regioned [] []) 1 = false)
    ∧ (catPend (regioned [(0x2001, 0x80)] []) 1 0 / 2 ^ 15 % 2 = 1 ∧ ∀ j < 15, catPend (regioned [(0x2001, 0x80)] []) 1 0 / 2 ^ j % 2 = 0)
    ∧ (∀ k < 16, catPend (regioned [] []) 1 0 / 2 ^ k % 2 = 0) ∧ catCount (regioned [] []) 1 0 = 0 ∧ catCount (regioned [(0x2002, 1)] []) 1 0 ≠ 0
    ∧ freeable (regioned [] []) 1 0 = false ∧ freeable (regioned [(0x2002, 1)] []) 1 0 = true
    ∧ (tget .none 1 (regioned [] []).bd.maps = .some [] ∧ poolWaiter (regioned [(0x2001, 0x80)] []) 1 = false)
    ∧ (linkEnabled (regioned [] []) = true ∧ linkEnabled full = false ∧ bits full.rg.route 15 0 ≠ 0)
    ∧ (rdN walked (walked.rg.asBase.toNat + 16 * 1) 1 % 2 = 1) ∧ (∀ l < 4, bitAt full.rg.route (12 + l) = true) ∧ ¬ (4 : Nat) < 4 := by
  decide +kernel
/-- The state after reset at a step of the bring-up. -/
def booting (n : Nat) : State := { State.reset with hs := { State.reset.hs with boot := n } }
theorem meets_RegionsAndRoutes_memSplit : 3 ≤ (booting 3).hs.boot ∧ State.reset.hs.boot < 3
    ∧ ∀ a < 4096, rdN (booting 3) ((booting 3).rg.asBase.toNat + 16 * a) 1 % 2 ≠ 1 := by
  refine ⟨by decide, by decide, fun a _ => ?_⟩; simp [rdN, pread, booting, State.reset, natOf, tget]

/-- TenantsShareCores: a launch that is placed, one whose capability page is absent, one that finds no room beside another device's team and
beside its own; devices that wait; render contexts of device 0. -/
def waitingItem (cap : Nat) : QItem := { lr := { teams := 1, groups := 1, w := 16, nv := 1, ns := 1, capbase := cap }, tok := 1, dep := 0 }
def oneCore : VBlock := { slices := List.replicate 4 (BitVec.allOnes 48), cores := 1 }
def placing (cap : Nat) (filler : Tab Team) : State :=
  { State.reset with
    vs := { State.reset.vs with vb := [(0, .some oneCore), (1, .some oneCore)], hostq := [(0, [waitingItem cap])]
                                rb := [(0, .some ⟨0, 0, 0, [0]⟩), (1023, .some ⟨0, 0, 0, [0]⟩)] }
    grid := [(0, { ctx := 64, status := .some 0, lr := { teams := 1, groups := 64, w := 16, nv := 64, ns := 1 } })]
    team := filler
    mm := { State.reset.mm with mem := [(0, 1), (2, 0x10)] } }
def filled64 (ctx : Nat) : Tab Team := [(0, { ctx := ctx, st := .resident, grid := 0 })]
/-- What a placement came to. -/
def came : Placed → Nat
  | .done _ => 0
  | .hold _ => 1
  | .no => 2
theorem meets_TenantsShareCores_place :
    (∀ x ∈ [(0, 0), (0x50000, 1)], came (placeItem 0 (.head 0 true (waitingItem x.1)) (placing x.1 [])) = x.2 ∧ contextTurn (placing x.1 []) 0 = true
      ∧ (placing x.1 []).vs.waiting.contains (vdevOf (placing x.1 []) 0) = false)
    ∧ (∀ c ∈ [0, 1], let s := placing 0 (filled64 c)
      came (placeItem 0 (.head 0 true (waitingItem 0)) s) = 2 ∧ heldByOther s (vdevOf s 0) = decide (c = 1)) := by decide +kernel
theorem meets_TenantsShareCores_served : (∀ c ∈ [0, 0x50000], servedCtx (placing c []) 0 = true) ∧ servedCtx (placing 0 []) 2 = false
    ∧ (∀ x ∈ [placing 0 [], placing 0x50000 [], placing 0 (filled64 0), placing 0 (filled64 1)], fillEntries 0 x = x)
    ∧ sliceOn (fillEntries 0 { placing 0 [] with vs := { (placing 0 []).vs with waiting := [1, 0] } }) 0 = false :=
  ⟨by decide +kernel, by decide +kernel, by decide +kernel, by decide +kernel⟩
theorem meets_TenantsShareCores_items : items (placing 0 []) 0 = [.head 0 true (waitingItem 0)] ∧ sliceOn (placing 0 []) 0 = true
    ∧ switchedOut (placing 0 []) 0 = [] ∧ sliceOn { placing 0 [] with vs := { (placing 0 []).vs with waiting := [1, 0] } } 0 = false := by
  refine ⟨?_, rfl, by simp [switchedOut, placing], by decide +kernel⟩
  have h : (placing 0 []).grid.filter (fun p => p.2.ctx == 0 && p.2.status.isNone && decide (created (placing 0 []) p.1 < p.2.lr.teams)) = [] := by decide
  have g : (placing 0 []).team = [] := rfl
  simp only [items, h, g, List.filter_nil, List.mergeSort_nil, List.map_nil, List.append_nil, List.nil_append]
  rfl
theorem meets_TenantsShareCores_victims : victims (placing 0 (filled64 1)) 0 = [] ∧ victims (placing 0 (filled64 0)) 0 = [] := by
  have h : ∀ c ∈ [0, 1], ((tkeys (placing 0 (filled64 c)).team).filter fun t =>
      vdevOf (placing 0 (filled64 c)) (getTeam (placing 0 (filled64 c)) t).ctx == 0 && evictable (placing 0 (filled64 c)) t) = [] := by decide
  constructor
  · simp only [victims, h 1 (by decide), List.mergeSort_nil]
  · simp only [victims, h 0 (by decide), List.mergeSort_nil]

/-- TenantsShareCores: nobody else waits; device 1 waits and shares core 0; no render context and two; the first and last resource of a die. -/
def sliced (ws : List Nat) : State := { placing 0 (filled64 0) with vs := { (placing 0 []).vs with waiting := ws } }
theorem meets_TenantsShareCores_turns : (∀ w ∈ (sliced []).vs.waiting, w = 0 ∨ coresMeet (sliced []) w 0 = false)
    ∧ (residentOf (sliced []) 1 = [] ∧ 0 ∈ (sliced [0]).vs.waiting ∧ residentOf (sliced [2, 1]) 0 ≠ [])
    ∧ ((sliced [2, 1]).vs.waiting = [2] ++ 1 :: [] ∧ coresMeet (sliced [2, 1]) 1 0 = true ∧ (∀ x ∈ [2], x = 0 ∨ coresMeet (sliced [2, 1]) x 0 = false)
      ∧ (1 : Nat) ∉ [2] ∧ (0 : Nat) ∉ [2] ∧ (0 : Nat) ∉ ([] : List Nat))
    ∧ TabWf {} (sliced [2, 1]).team ∧ ((0, 0) ∈ resources 0 ∧ (4, 31) ∈ resources 3) := by
  refine ⟨by decide, by decide +kernel, by decide +kernel, ?_, by decide⟩
  unfold TabWf; decide
def rendering : State :=
  { placing 0 [(0, { ctx := 1087, st := .resident })] with vs := { (placing 0 []).vs with rb := [(1023, .some ⟨0, 0, 0, [0]⟩)] } }
/-- One context on the core, another that left it and is next. -/
def taking : State :=
  { rendering with
    team := [(0, { ctx := 64, st := .resident }), (1, { ctx := 1087, st := .switchedOut })]
    vs := { rendering.vs with rb := [(0, .some ⟨0, 0, 0, [0]⟩), (1023, .some ⟨0, 0, 0, [0]⟩)], rcur := [(0, 64)] } }
theorem meets_TenantsShareCores_next : nextContext (tget 0 0 taking.vs.rcur) (liveContexts taking 0) = .some 1087 ∧ 0 ∈ residentOf taking 0
    ∧ (getTeam taking 0).ctx = 64 ∧ coresMeet taking 1087 64 = true ∧ TabWf {} taking.team := by
  refine ⟨by decide +kernel, by decide +kernel, by decide, by decide +kernel, ?_⟩
  unfold TabWf; decide
theorem meets_TenantsShareCores_contexts : liveContexts rendering 1 = []
    ∧ nextContext (tget 0 0 rendering.vs.rcur) (liveContexts rendering 0) = .some 1087 := by constructor <;> decide

/-- ConfigurationAndHostQueues: before and after the links are up; a tail write of nothing, one before the links are up, one of 256 entries;
a ring with room and a full one. -/
def posting (boot : Nat) (h : Nat) : State :=
  { placing 0 [] with
    hs := { State.reset.hs with boot := boot }
    vs := { (placing 0 []).vs with vb := [(0, .some { oneCore with weight := 1, quantum := 1 })], hostq := [] }
    vf := { State.reset.vf with held := [(0, [{ tok := 1, status := 0, trig := .some 15 }])], cqTail := [(0, BitVec.ofNat 64 h)] } }
theorem meets_ConfigurationAndHostQueues : (posting 5 0).hs.boot < 6 ∧ 6 ≤ (posting 6 0).hs.boot ∧ doorbellOk (posting 5 0) 0 = false
    ∧ (0 ≤ (tget 0 (0 * 4 + 3) (posting 6 0).vf.hqTail).toNat)
    ∧ (doorbellOk (posting 6 0) 0 = true ∧ (tget 0 (0 * 4 + 3) (posting 6 0).vf.hqTail).toNat < 256
      ∧ (tget [] (0 * 4 + 3) (posting 6 0).vs.hostq).length + (256 - (tget 0 (0 * 4 + 3) (posting 6 0).vf.hqTail).toNat) ≤ 256)
    ∧ tget [] 1 (posting 6 0).vf.held = []
    ∧ (∀ h ∈ [0, 255, 256, 2 ^ 64 - 1], tget [] 0 (posting 6 h).vf.held = { tok := 1, status := 0, trig := .some 15 } :: []
      ∧ tget 0 0 (posting 6 h).vf.cqTail = BitVec.ofNat 64 (h + (tget 0 0 (posting 6 h).vf.cqHead).toNat)) := by decide +kernel

/-! ### Gloss units, packages, repairs, the host -/

/-- A Gloss unit of die 0 with attachment 0 of owner 64, class 5. -/
def unitOf (q : List Pair) (susp : Bool) (left quota : Nat) : GUnit :=
  { att := [(0, .some { valid := true, len := 64, cls := 5, owner := 64, asid := 0, mask := 0xFFF, param := 0 })]
    ten := [(64, .some { budget := 65535, wbase := 0, wlog := 8, quota := quota, trigs := [] })]
    q := q, nextPair := 7, susp := [(64, susp)], left := [(64, left)] }
def unitState (u : GUnit) : State := { State.reset with gl := [(0, u)], rg := { State.reset.rg with slots0 := [(0, 0xFF40)] } }
def offered (cls : Nat) : GlossEvent := ⟨cls, 0, 0, 0, 0, 0⟩
theorem meets_GlossUnitsRun_events : (∀ k a, k < 64 → ¬ Takes (getUnit (unitState (unitOf [] false 0 16)) 0) (offered 6) k a)
    ∧ (let u := unitOf [] true 0 16; let a : Att := { valid := true, len := 64, cls := 5, owner := 64, asid := 0, mask := 0xFFF, param := 0 }
      Takes u (offered 5) 0 a ∧ (∀ j b, j < 64 → Takes u (offered 5) j b → j = 0) ∧ (tget .none a.owner u.ten).isSome = true ∧ tget false 64 u.susp = true)
    ∧ (tget false 64 (unitOf [] false 0 1).susp = false ∧ bitAt (unitState (unitOf [] false 0 1)).rg.flrCtl 63 = false ∧ queuedOf (unitOf [] false 0 1) 64 < 1
      ∧ 1 ≤ queuedOf (unitOf [⟨3, offered 5, 0⟩] false 0 1) 64) := by
  refine ⟨fun k a _ h => ?_, ⟨⟨rfl, rfl, rfl, rfl, .inl rfl⟩, fun j b _ h => ?_, by decide, by decide⟩, by decide⟩
  · have h1 : tget .none k (unitOf [] false 0 16).att = .some a := h.1
    simp only [unitOf, tget] at h1
    split at h1
    · cases h1; exact absurd h.2.2.1 (by decide)
    · cases h1
  · have h1 : tget .none j (unitOf [] true 0 16).att = .some b := h.1
    simp only [unitOf, tget] at h1
    split at h1
    · exact (‹0 = j›).symm
    · cases h1
theorem meets_GlossUnitsRun_slots : (let u := { unitOf [] false 0 16 with slot := 17 }; slotOwner (unitState u) 0 (u.slot % 16) = 255)
    ∧ (∀ left ∈ [63, 64], let u := unitOf [⟨3, offered 5, 0⟩] false left 16;
      slotOwner (unitState u) 0 (u.slot % 16) = 64 ∧ u.q = [] ++ ⟨3, offered 5, 0⟩ :: [] ∧ ownerOf u 0 = 64 ∧ tget false 64 u.susp = false
      ∧ (tget 0 64 u.left < lenOf u 0) = (left < 64))
    ∧ ((unitOf [] false 0 16).ten.map Prod.fst).Nodup ∧ (∀ p ∈ (unitOf [⟨3, offered 5, 0⟩] false 0 16).q, p.n < 7) := by
  refine ⟨by decide, ?_, by decide, by decide⟩
  intro left hl
  rcases List.mem_cons.1 hl with rfl | hl
  · exact ⟨by decide, rfl, by decide, by decide, by simp [unitOf, lenOf, tget]⟩
  · obtain rfl := List.mem_singleton.1 hl
    exact ⟨by decide, rfl, by decide, by decide, by simp [unitOf, lenOf, tget]⟩
/-- The GLOSS_TAB of die 0 at 0: tenant 64 with a window of 2^8 words or none, attachment 0 with a program of one word at 0x1000. -/
def tabled (b8 : Byte) (w : Byte) (len : Byte) (ten : Tab (Option Ten)) : State :=
  { unitState { unitOf [] false 0 16 with ten := ten } with
    mm := { State.reset.mm with mem := [(2056, b8), (2081, 0x10), (2088, len), (2089, 1), (2090, 64), (2091, 1), (0x1003, w)] } }
def tenAt (s : State) : Ten :=
  let bs := pread s 2048 32
  { budget := fieldOf bs 0 4, wbase := fieldOf bs 4 4, wlog := fieldOf bs 8 1, quota := fieldOf bs 9 1
    trigs := (List.range 16).map fun j => parseTrig (pread s (fieldOf bs 16 8 + 16 * j) 16) }
theorem meets_GlossUnitsRun_tables :
    (let s := tabled 8 0x70 1 [(0, .some { budget := 1, wbase := 255, wlog := 8, quota := 1, trigs := [] })];
      pbad s 2048 32 = false ∧ (tenAt s).wbase < 255 + 2 ^ 8 ∧ 255 < (tenAt s).wbase + 2 ^ (tenAt s).wlog)
    ∧ (∀ b ∈ [0, 8], let s := tabled b 0x70 1 [(64, .none)];
      (∀ p ∈ (getUnit s 0).ten, p.1 = 64 ∨ p.2 = .none) ∧ (tenAt s).quota ≤ 256)
    ∧ (let s := tabled 8 0x70 1 [(64, .none)]; (8 ≤ (tenAt s).wlog ∧ (tenAt s).wlog ≤ 16 ∧ (tenAt s).wbase % 2 ^ (tenAt s).wlog = 0
      ∧ (tenAt s).wbase + 2 ^ (tenAt s).wlog ≤ 65536 ∧ fieldOf (pread s 2048 32) 10 6 = 0 ∧ fieldOf (pread s 2048 32) 24 8 = 0
      ∧ fieldOf (pread s 2048 32) 16 8 % 16 = 0))
    ∧ ¬ 8 ≤ (tenAt (tabled 0 0x70 1 [(64, .none)])).wlog
    ∧ (attachCode (tabled 8 0x70 1 []) 0 (pread (tabled 8 0x70 1 []) 2080 32) = 0 ∧ pbad (tabled 8 0x70 1 []) 2080 32 = false
      ∧ attachCode (tabled 8 0xFF 1 []) 0 (pread (tabled 8 0xFF 1 []) 2080 32) = 1
      ∧ glossWordOk 1 0 (BitVec.ofNat 32 (rdN (tabled 8 0xFF 1 []) (fieldOf (pread (tabled 8 0xFF 1 []) 2080 32) 0 8 + 4 * 0) 4)) = false
      ∧ mayAttach (tabled 8 0x70 0 []) 1 64 = true)
    ∧ (tget .none 0 (getUnit (tabled 8 0x70 1 []) 0).att).isSome = true := by decide +kernel

/-- PeersAreServed: a request inside peer 1's range and one past it, at a port that is up; the answers to a store and a load; a device that is
being reset; a port that is up and one that is down; a message that is taken, one for a full mailbox and one that may not come. -/
def peered (n : Nat) : State :=
  { rich [] [] with
    mm := { full.mm with mem := [(16, 0x0F), (24, 0xFF), (28, 0x10)] }
    pk := { full.pk with portUp := [(0, true)], inbox := [(63, (List.range n).map fun k => ⟨1, k, 0⟩)] }
    vs := { full.vs with vb := [(0, .some { reqmask := 0x0001FFFFFFFFFFFF, slices := List.replicate 4 (BitVec.allOnes 48), cores := BitVec.allOnes 960 })] } }
def loadsPeer : OpK := .rload false 63 .none [⟨2 ^ 51 + 2 ^ 41, 8, .rc⟩] 0 .none .none
theorem meets_PeersAreServed_requests : portUp (peered 0) 0 = true ∧ bitAt (peered 0).rg.ckptCtl 63 = false ∧ (peered 0).mm.wrapped = []
    ∧ peerMay (peered 0) ⟨1, 0, 2 ^ 24 - 256, .read 256⟩ = true ∧ pbad (peered 0) (2 ^ 24 - 256) 256 = false
    ∧ peerMay (peered 0) ⟨1, 0, 2 ^ 24 - 256, .write (List.replicate 256 1)⟩ = true ∧ peerMay (peered 0) ⟨1, 0, 2 ^ 24 - 255, .read 256⟩ = false
    ∧ nb (peerIn (peered 0) 2) 0 0 = 0 ∧ 4 ≤ (booting 4).hs.boot := by decide +kernel
theorem meets_PeersAreServed_answers :
    (∀ k ∈ [OpK.rstore ⟨2 ^ 51 + 2 ^ 41, 1, .rc⟩ [1], loadsPeer,
        .rload false 63 .none [⟨2 ^ 51 + 2 ^ 41, 8, .rc⟩] 0 .none (.some (true, [1], false))], let s := { peered 0 with mm := { (peered 0).mm with ops := [fly k] } };
      InFlight s 9 (fly k) ∧ peerWait s (fly k) = .some (1, 0) ∧ portUp s 0 = true ∧ peerPorts s 1 ≠ 0 ∧ aliveG s 0 = true ∧ isPeer (2 ^ 51 + 2 ^ 41) = true
      ∧ inReset s (vdevOf s (ctxOf s 0)) = false ∧ inReset { s with rg := { s.rg with flrCtl := 0x8000000000000000 } } (vdevOf s (ctxOf s 0)) = true)
    ∧ (portUp (peered 0) 0 = true ∧ (∀ o ∈ (peered 0).mm.ops, ∀ p ∈ [0, 1], peerWait (peered 0) o ≠ .some (p, 0)) ∧ (peered 0).mm.ops = [] ∧ portUp (peered 0) 15 = false)
    ∧ (linked (peered 0) 2 = false ∧ linked (peered 0) 1 = true ∧ takesFrom (peered 0) 1 63 = false ∧ takesFrom (peered 0) 1 0 = true
      ∧ freeSlot (tget [] (0 * 64 + 63) (peered 15).pk.inbox) = .some 15 ∧ freeSlot (tget [] (0 * 64 + 63) (peered 16).pk.inbox) = .none) := by decide +kernel

/-- EnginesExchangeAndReduce: a halo command that sends, and a malformed one; faces with room and without; a completion. -/
def commandOf (bs : List Byte) : Cmd := { team := 0, gk := 0, data := bs ++ List.replicate (128 - bs.length) 0 }
def commanded (c : Cmd) (faces : Nat) : State :=
  { peered 0 with
    grid := [(0, { (getGrid full 0) with caps := [(59, .some { kind := .ualink, operand := 1, allow := 0, s := true, v := true, x := true })] })]
    rg := { full.rg with ualinkId := 0x8000, collBase := [(0, 0x3000)] }
    mm := { (peered 0).mm with mem := (peered 0).mm.mem ++ [(0x3000, 1)] }
    pk := { (peered 0).pk with halo := [(0, [c])], coll := [(0, [c])], faces := [(0, List.replicate faces ⟨1, 0, 0, 0, [], []⟩)] } }
def sending : Cmd := commandOf [1, 0, 1, 0, 0, 0, 0, 0, 0, 0, 0, 0, 59]
def reducing : Cmd := commandOf [2, 0]
theorem meets_EnginesExchangeAndReduce_halo :
    (let s := commanded sending 0;
      getHalo 0 s = [sending] ∧ putHalo 0 [sending] s = s ∧ (getGrid s 0).status = .none ∧ sending.done = .none ∧ sending.rd = .none ∧ sending.bad = []
      ∧ haloBad sending.data = false ∧ sendPart sending = true
      ∧ recvPart sending = false ∧ engReady s .none = true
      ∧ (match cmdShape 0 0 false s with
        | (.ok sh, u) => (match cmdChan u 0 59 true with
          | .some ch => !isOwn u ch.1 && portUp u ch.2.2.2 && peerPorts u ch.1 != 0 && (match readShape 0 (recOf u 0) (passOver sh) (shapeBytes (recOf u 0) sh) 0 [] [] u with
            | (.all _ _, v) => decide (getHalo 0 v = [sending]) | _ => false)
          | .none => false)
        | _ => false) = true)
    ∧ haloBad (commandOf [0]).data = true
    ∧ (bitAt (commanded sending 0).rg.ckptCtl 63 = false ∧ linked (commanded sending 0) 2 = false ∧ linked (commanded sending 0) 1 = true ∧ takesFrom (commanded sending 0) 1 63 = false ∧ takesFrom (commanded sending 0) 1 0 = true
      ∧ (tget [] 0 (commanded sending 15).pk.faces).length < 16 ∧ 16 ≤ (tget [] 0 (commanded sending 16).pk.faces).length
      ∧ awaits (commanded sending 16) 0 ⟨1, 0, 0, 5, [], []⟩ = false)
    ∧ (let c := { sending with done := .some (0, 16, 0) }; getHalo 0 (commanded c 0) = [] ++ c :: [] ∧ getColl 0 (commanded c 0) = [] ++ c :: []) := by
  decide +kernel
theorem meets_EnginesExchangeAndReduce_coll :
    (let s := commanded reducing 0;
      getColl 0 s = [reducing] ∧ putColl 0 [reducing] s = s ∧ reducing.done = .none ∧ reducing.res = .none ∧ reducing.stat = 0 ∧ reducing.wrote = 0
      ∧ collBad reducing.data = false ∧ reducing.bad = [] ∧ hasId s = true
      ∧ (match cmdShape 0 0 false s with
        | (.ok sa, u) => (match cmdShape 0 0 true u with
          | (.ok sb, v) => kindIs v 0 sa 0 && kindIs v 0 sb 0 && (match collGroup v 0 0 with
            | .some ms => decide (⟨ownId v, 0, 0⟩ ∈ ms) && (match contribs [] 0 0 0 0 ms v with
              | (xs, w) => match combineAll xs with
                | .some (0, bs, bad) =>
                  let x := spread (ms.zip (xs.map Contrib.read)) 0 0 (0, bs, bad) w
                  decide (bs.length = shapeBytes (recOf x 0) sb) && (match writeShape 0 (recOf x 0) (passOver sb) bs bad (bs.length + 1) 0 x with
                    | (.all cs m, z) => decide (cs = bs ∧ m = bad) && (getColl 0 z).length == 1 | _ => false)
                | _ => false)
            | .none => false)
          | _ => false)
        | _ => false) = true) := by decide +kernel


/-- LinksAuditAndReplay: an audit flit that tells of none and of all credits; spares left and none; a replay that succeeds, the seventh and
the eighth that do not. -/
def audited (y m r sp n : Nat) : State :=
  { State.reset with pk := { State.reset.pk with audits := [(7, [(y, m)])], credR := [(7, r)], spares := [(7, sp)], retries := [(7, n)] } }
theorem meets_LinksAuditAndReplay : (∀ d ∈ [0, 2 ^ 32 - 1], ∀ m ∈ [0, 3], let s := audited ((5 + m + d) % 2 ^ 32) m 5 0 0;
      tget [] 7 s.pk.audits = ((5 + m + d) % 2 ^ 32, m) :: [] ∧ (5 + m + d) % 2 ^ 32 < 2 ^ 32
      ∧ ((tget 0 7 s.pk.credR + m) % 2 ^ 32 + d) % 2 ^ 32 = (5 + m + d) % 2 ^ 32)
    ∧ (linkOf 7 < 4 ∧ 4 ≤ linkOf 8) ∧ tget 0 7 (audited 0 0 0 1 0).pk.spares < 2 ∧ 2 ≤ tget 0 7 (audited 0 0 0 2 0).pk.spares
    ∧ tget 0 7 (audited 0 0 0 0 6).pk.retries + 1 < 8 ∧ 8 ≤ tget 0 7 (audited 0 0 0 0 7).pk.retries + 1 := by decide +kernel

/-- ResetsAndRetirements: a device with a store to a peer under way, and one with nothing; the last core with a spare and without; a core that
stays, behind which another waits; a unit that the plan keeps; the bounds of its slack. -/
def resetting (ops : List Op) : State := { peered 0 with rg := { full.rg with flrCtl := 0x8000000000000000 }, mm := { (peered 0).mm with ops := ops } }
def retiring (core : Nat) (n : Nat) : State :=
  { State.reset with
    rg := { State.reset.rg with coreRetire := BitVec.ofNat 64 (2 ^ 63 + core), marginLog := [(3, BitVec.ofNat 64 n)] }
    rp := { State.reset.rp with moves := if core = 960 then [1000, 959, 0] else [] } }
theorem meets_ResetsAndRetirements :
    (∀ ops ∈ [[], [fly (.rstore ⟨2 ^ 51 + 2 ^ 41, 1, .rc⟩ [1])]], let s := resetting ops;
      bitAt s.rg.flrCtl 63 = true ∧ bitAt s.rg.ckptCtl 63 = false ∧ bits s.rg.flrCtl 5 0 = 0 ∧ s.hs.flrWaits = false ∧ undrained (stopDevice 0 s) 0 = decide (ops ≠ []))
    ∧ (∀ n ∈ [0, 16], let s := retiring 959 n;
      bitAt s.rg.coreRetire 63 = true ∧ bits s.rg.coreRetire 9 0 = 959 ∧ tget false 959 s.rp.dead = false ∧ bits (tget 16 (dieOf 959) s.rg.marginLog) 7 0 = n
      ∧ occupants s 959 = [] ∧ s.rp.moves = [] ∧ (∀ l ∈ s.mm.l1 ++ s.mm.comb, l.core ≠ 959) ∧ s.team = [])
    ∧ (let s := retiring 960 0; 960 ≤ bits s.rg.coreRetire 9 0 ∧ s.rp.moves = [1000] ++ 959 :: [0] ∧ (∀ b ∈ [1000], mayRetire s b = false) ∧ tget false 959 s.rp.dead = false)
    ∧ (planUnit 7 [19] (tget 0 (unitKey State.reset 3 ⟨false, 0, [19]⟩) State.reset.rp.volt)).2 = false
    ∧ (let s := { resetting [] with hs := { (resetting []).hs with flrWaits := true }, rg := { (resetting []).rg with ckptCtl := 0x8000000000000000 } };
      s.hs.flrWaits = true ∧ bitAt s.rg.ckptCtl 63 = true) := by decide +kernel

/-- ErrorsAndCheckpoints: a thread that runs, the last byte of memory, a save and a restore of a module where nothing runs. -/
def saving (w : Word) : State := { State.reset with rg := { State.reset.rg with ckptCtl := w } }
theorem meets_ErrorsAndCheckpoints : (getThr one (tkOf one 15)).st ≠ .exited ∧ isHbm (hostBase - 1) = true
    ∧ ckptRuns (saving 0) false = false ∧ ckptRuns (saving 0) true = false
    ∧ (∀ b ∈ [false, true], let s := saving (if b then 0xC000000000000000 else 0x8000000000000000);
      ckptRuns s b = true ∧ residents s = [] ∧ s.mm.comb = [] ∧ s.mm.l1 = [] ∧ s.mm.wrapped = [] ∧ s.mm.mem = [] ∧ s.mm.bad = [] ∧ tget .none (tierAt s) s.hs.snaps = .none) := by
  decide +kernel

/-- FirmwareAndKeys: the key commands of the last key in step 6; no image that the boot ROM accepts; one that it accepts, where there is one. -/
def keyed (op : Nat) : State := { booting 6 with rg := { State.reset.rg with keyCtl := BitVec.ofNat 64 (2 ^ 63 + op * 2 ^ 61 + 4095) } }
theorem meets_FirmwareAndKeys : (∀ op ∈ [0, 1], linkEnabled (keyed op) = true ∧ bitAt (keyed op).rg.keyCtl 63 = true ∧ bits (keyed op).rg.keyCtl 11 0 = 4095
      ∧ bitAt (keyed op).rg.ckptCtl 63 = false ∧ bits (keyed op).rg.keyCtl 62 61 = op)
    ∧ State.reset.hs.pend = .none ∧ bitAt State.reset.rg.keyCtl 63 = false ∧ State.reset.hs.active ≤ 1 := by decide
theorem meets_FirmwareAndKeys_recovery : ∀ n i, tget .none n State.reset.hs.images = .some i → imageOk State.reset i = false := by
  intro n i h; cases h
theorem meets_FirmwareAndKeys_images (d : BitVec 384) (g : BitVec 768) (h : Config.signatureOk d g = true) :
    let s : State := { State.reset with hs := { State.reset.hs with images := [(0, .some ⟨d, g, 0⟩)], image := .some ⟨d, g, 0⟩ } }
    tget .none s.hs.active s.hs.images = .some ⟨d, g, 0⟩ ∧ imageOk s ⟨d, g, 0⟩ = true ∧ measured s 1 = .some d ∧ (sensorValue s 16).isSome = true := by
  refine ⟨rfl, ?_, rfl, rfl⟩
  simp [imageOk, h]; decide

/-- PowerAndHostAccess: no power drawn, and so much that 63 of 64 cycles go; the last bytes of memory through the host's port, and past
them; every access width but 8. -/
theorem meets_PowerAndHostAccess :
    (∀ x ∈ [(0, 0), (228114, 63)], let s := State.reset; let p := ([x.1] : List Nat).foldl (· + ·) 0;
      p * (64 - x.2) * 100 ≤ 64 * bits s.rg.powerLimit 15 0 * (100 - 5 * overheat s)
      ∧ ∀ v < x.2, ¬ p * (64 - v) * 100 ≤ 64 * bits s.rg.powerLimit 15 0 * (100 - 5 * overheat s))
    ∧ (∀ p ∈ State.reset.hs.temp, p.2 ≤ 100)
    ∧ (let s := { peered 0 with hs := { full.hs with boot := 6 } };
      6 ≤ s.hs.boot ∧ s.mm.wrapped = [] ∧ ingressOk s 0 (hostBase - 8) 8 = true ∧ ingressOk s 0 (hostBase - 7) 8 = false) := by decide +kernel

/-- StepRunsInstruction: the loader's bundle before its fetch, a run of the Gloss unit, an event of the agenda, and a module that is off. -/
theorem meets_StepRunsInstruction :
    (let s := loadCore 0x1A28A008 (powered State.reset);
      halted s = false ∧ s.gsel = .none ∧ s.sel.tids ≠ [] ∧ (issuers { s with sel := {} } s.sel).head? = .some 0
      ∧ (match fetchInstr s.sel.gk (!(getThr s (threadKey s.sel.gk 0)).sys) (issuers { s with sel := {} } s.sel) (getThr s (threadKey s.sel.gk 0)).pc
          { s with sel := {} } with
        | (.ok ws, _) => (match decodeWords ws with | .ok _ => true | .error _ => false) | _ => false) = true)
    ∧ (let s := loadGloss 0x70000000 (powered State.reset);
      halted s = false ∧ s.gsel = .some 0 ∧ (match decodeGloss (glossFetch s 0) with | .ok _ => true | .error _ => false) = true)
    ∧ (let s := { powered State.reset with agenda := [.patrolScrub 0] }; halted s = false ∧ s.gsel = .none ∧ s.sel.tids = [] ∧ s.agenda ≠ [])
    ∧ (let s := { State.reset with hs := { State.reset.hs with mainOff := true }, agenda := [.moduleReset] }; halted s = true ∧ s.agenda ≠ [])
    ∧ (let s := { State.reset with hs := { State.reset.hs with mainOff := true } }; halted s = true ∧ s.agenda = []) := by decide +kernel

/-- StepKeepsSound and DecodeEncode: a sound state, and a well-formed instruction of each set. -/
theorem meets_StepKeepsSound : Sound { State.reset with rg := { State.reset.rg with memSplit := 48, powerLimit := 1000 } } := by
  constructor <;> decide
theorem meets_DecodeEncode : Instr.flaw (.addI64 63 hi lo) = .none ∧ Instr.flaw (.gend) = .none ∧ Instr.flaw .unop = .none := by decide

/-! ## The spec's worked cases -/

/-- spec/03, below R60: 1 + 2^-24 + 2^-60 directly to FP32, and through E8M26 rounded to odd and to nearest. -/
theorem test_odd_rounding : (nRound fp32 .rne false (.fin false (2 ^ 60 + 2 ^ 36 + 1) (-60))).1 = 0x3F800001
    ∧ nRoundOdd e8m26 (.fin false (2 ^ 60 + 2 ^ 36 + 1) (-60)) = 0x1FC000005 ∧ (windowEnd 0x1FC000005).1 = 0x3F800001
    ∧ (windowEnd 0x1FC000004).1 = 0x3F800000 := by decide +kernel

/-- spec/03, R67: one K-step of FP64 rounds once, and a chain of two `fma.d` twice. -/
theorem test_kstep_d : (stepD 0 0x3FF0000000000000 ([0x3E40000000000000, 0x3E40000000000000, 0, 0].map fun x => .some (numOf fp64 x))
      ([0x3E50000000000000, 0x3E50000000000000, 0, 0].map fun x => .some (numOf fp64 x))).1 = 0x3FF0000000000001
    ∧ (opFma fp64 false fm0 0x3E40000000000000 0x3E50000000000000 0x3FF0000000000000).1 = 0x3FF0000000000000 := by decide +kernel

/-- spec/03, R62: 0 × ∞ in a K-step of FP64 raises NV. -/
theorem test_kstep_nv : (stepD 0 0x3FF0000000000000 [.some (numOf fp64 0)] [.some (numOf fp64 0x7FF0000000000000)]).2 = flNV := by decide +kernel

/-- spec/03, R68: C enters the exact alignment of the window's first K-step. -/
theorem test_kstep_bf : (windowEnd (stepFrom (numOf fp32 0x3F800000) (terms 0 ([0xBF80, 0x3580].map fun x => .some (numOf bf16 x))
      ([0x3F80, 0x3580].map fun x => .some (numOf bf16 x))))).1 = 0x2B800000 := by decide +kernel

/-- spec/03, R70: a `red.add.d` of 1.0, 2^53, 1.0 and -2^53 with threads 4 to 15 exited. -/
theorem test_redAddD : (match exec (.redAddD 5 (pl 1)) { small [0, 1, 2, 3] with
      vreg := [(1, ⟨0x3FF0000000000000, .full, false⟩), (65, ⟨0x4340000000000000, .full, false⟩), (129, ⟨0x3FF0000000000000, .full, false⟩),
               (193, ⟨0xC340000000000000, .full, false⟩)] } with
    | .next t => getV t 3 5 | _ => {}) = ⟨0x3FF0000000000000, .full, false⟩ := by decide +kernel

/-- spec/04, R86: the last of the three instructions that build 0x7FF4_0000_DEAD_0001. -/
theorem test_movcH : (match exec (.movcH 9 0x7FF4) (withV 9 ⟨0xFFFF0000DEAD0001, .full, false⟩ one) with
    | .next t => (getV t 15 9).v | _ => 0) = 0x7FF40000DEAD0001 := by decide +kernel

/-- spec/15, R317: link A fails while ROUTE is 0xF02A. -/
theorem test_linkDown : (match exec (.linkDown 0) State.reset with
    | .next t => (bits t.rg.route 63 48, bits t.rg.route 15 12, bits t.rg.route 5 0) | _ => (0, 0, 0)) = (1, 0xE, 0x27) := by decide +kernel

/-- spec/06, below R132: a page written under editions 6, 8 and 9, with E_open 9 and retention depth 4, before and after the floor is 8. -/
def editionsOf (floor : Byte) : State :=
  { State.reset with mm := { State.reset.mm with mem := [(256, 9), (260, 8), (264, floor), (268, 4), (272, 1), (281, 0x20), (0x2002, 2), (0x2010, 8), (0x2014, 0x20), (0x201C, 6), (0x2020, 0x21)] } }
theorem test_editions : ([10, 9, 8, 7, 5].map fun e => chooseCopy (editionsOf 0) 1 0 { leafAt (2 ^ 20) with region := 1, edition := 9 } (.some e) 4)
      = [.some (2 ^ 20 + 4), .some (2 ^ 20 + 4), .some (0x200000 + 4), .some (0x210000 + 4), .none]
    ∧ ([10, 9, 8, 7, 5].map fun e => chooseCopy (editionsOf 8) 1 0 { leafAt (2 ^ 20) with region := 1, edition := 9 } (.some e) 4)
      = [.some (2 ^ 20 + 4), .some (2 ^ 20 + 4), .some (0x200000 + 4), .none, .none] := by decide +kernel

/-- spec/04, encoded lines: `movc v9, -2`, placed as the first instruction after reset, writes −2 in the first thread, which goes on past
both words. -/
theorem test_placedCore : (match step (State.reset.withFetchWord 64 0x00FFFFFE30480000) with
    | .next t => some ((getV t 0 9).v, (getThr t 0).pc) | _ => none) = some ((-2 : Word), word (2 ^ 20 + 8)) := by decide +kernel

/-- spec/17, encoded lines: `gmovi g10, 128`, placed as a Gloss unit's word, writes 128. -/
theorem test_placedGloss : (match step (loadGloss 0x2E800080 (powered State.reset)) with
    | .next t => some (gReg (getUnit t 0) 10) | _ => none) = some 128 := by decide +kernel
end Sys2Proof.Tests
end

section
/-! PROOFS. The round trip of the encoder and the decoder (R28, R29, R33, R335), over every row of the opcode table. -/

namespace Sys2Proof.Laws.RoundTrip

/-- Every instruction, by its constructor: one lemma of this namespace for each, in the order of the opcode table. -/
theorem statement_all (i : Instr) : Statement i :=
  Instr.rec (motive := Statement)
    -- the lane set, integers and control
    addI64 subI64 addI32 subI32 addN32 subN32 addI64Sat subI64Sat addN64Sat subN64Sat addI32Sat subI32Sat addN32Sat subN32Sat negI64
    absI64 mulI64 mulhiI64 mulhiN64 mulI32 mulN32 mulwI32 mulwN32 minI64 maxI64 minN64 maxN64 minI32 maxI32 minN32 maxN32 and or xor andn
    orn xnor not mov shlN64 shrN64 shrI64 rotlN64 shlN32 shrN32 shrI32 rotlN32 popc clz ctz brev bswap sextI8 sextI16 sextI32 lea
    setpEqI64 setpNeI64 setpLtI64 setpLeI64 setpLtN64 setpLeN64 setpTst setpEqI32 setpNeI32 setpLtI32 setpLeI32 setpLtN32 setpLeN32 pand
    por pxor pandn pnot sel addI64Imm addI32Imm addI32SatImm addI64SatImm andImm orImm xorImm shlN64Imm shrN64Imm shrI64Imm mulI64Imm movc
    movcM movcH rdsr shflIdx shflUp shflDown shflXor ballot voteAny voteAll redAddI64 redMinI64 redMaxI64 redAddD redMinD redMaxD redAddF
    bra call jmp callr ret exit nop
    -- the lane set, floating point
    addD subD mulD divD minD maxD sqrtD rintD addF subF mulF divF minF maxF sqrtF rintF addHf subHf mulHf minHf maxHf addBf subBf mulBf
    minBf maxBf setpEqD setpLtD setpLeD setpNanD setpEqF setpLtF setpLeF setpNanF fmaD fnmaD fmaF fnmaF fmaHf fmaBf addDLong subDLong
    mulDLong divDLong minDLong maxDLong sqrtDLong rintDLong addFLong subFLong mulFLong divFLong minFLong maxFLong sqrtFLong rintFLong
    addHfLong subHfLong mulHfLong minHfLong maxHfLong addBfLong subBfLong mulBfLong minBfLong maxBfLong rcpD rsqrtD exp2D log2D exp2F
    log2F sinF cosF cvt fclassD fclassF copysignD copysignF absD negD absF negF
    -- the lane set, memory, matrix engine and compositing
    ld st lde pf atomAdd atomMin atomMax atomAnd atomOr atomXor atomXchg atomCas recvD recvW sendD sendW mmarD mmarF mmarBf mmarHf mmarE4
    copen cadd cflush cclose cread creplay
    -- the uniform set
    addI64U subI64U mulI64U mulhiN64U minI64U maxI64U minN64U maxN64U andU orU xorU andnU shlN64U shrN64U shrI64U movU setpEqI64U
    setpNeI64U setpLtI64U setpLeI64U setpLtN64U setpLeN64U setpTstU pandU porU pxorU pandnU pnotU addI64ImmU movcU movcMU movcHU ldU stU
    ldeU pfU ujmp ucall ujmpr ucallr uret bar tbar claim rdv fence waith sendU recvU launch waitl fork bpub bfloor gang mmasD mmasF mmasBf
    mmasHf mmasE4 accrel trap rett rdsys wrsys unop
    -- the Gloss set
    gadd gsub gand gor gxor gshl gshr gmin gmax gmul gmovi gaddi gandi gshli gshri gld gst gbeq gbne gblt gbge gbr ghash ghist gcms ghll
    gfire gend
    -- the steps of the other agents
    loadCompletion atomicPerform editionLookup queueReceiveCompletion channelReceiveCompletion messageDelivery launchRecordRead
    bpubAtBindery bfloorAtHome claimPageMove copyBeat copyEnd forkStart accessProgramRequest accessProgramReturn matrixCompletion
    mmasKStep recordOperationArrival regrouping barrierArrivalBit l1WriteBackBound combiningBufferDrain distributorPlacement sliceEnd
    renderContextSwitch completionEntryWrite hqTailWrite vdevApply rctxApply counterPublish pageWalk faultRecordPost fqDoneRetry
    fqDoneDeny invalidation regionCreate regionReread regionDestroy binderyWrite backgroundSubblockCopy reclaimWalk directoryRead
    directoryWrite directoryWriteBack evictionNotice memSplitWrite routeWrite linkDown glossEventOffer glossSlot glossBudgetWindow
    glossApplyTenant glossAttach glossDetach glossDrain drainWordRead linkTraining ualinkInboundRequest peerAcknowledgement
    ualinkMessageArrival haloCommand haloFaceArrival allReduceCommand engineCompletion functionLevelReset coreRetirement marginPlan
    auditFlitSend auditFlitReceive laneGroupFailure softError patrolScrub checkpointSave checkpointRestore moduleReset keyLoad keyClear
    spdmRequest pldmMonitoring pldmFirmwareUpdate powerManagerUpdate powerLimitWrite thermalCap thermalShutdown registerWrite issueCycle
    creplayCompletion flitReplay ualinkPortDown hostIngressAccess peerDrainTimeout mainSideOff
    i

end Sys2Proof.Laws.RoundTrip

namespace Sys2Proof.Machine

/-- Settles O59: the round trip of each instruction. -/
theorem decodeEncode : Obligations.DecodeEncode := Laws.RoundTrip.statement_all

end Sys2Proof.Machine
end

section
/-! PROOFS. What keeps a thread from issuing a two-source lane instruction, or gives it a poisoned result: guards and register limits (R29,
R34), EMPTY and FAULT sources (R36, R40, R41), poison (R43, R87). -/

namespace Sys2Proof.Machine

/-! ## The two-source forms -/

/-- What a lane instruction with two register sources and a register result is (R76 to R80, R105, R106, R110): the shared lane operation
on a body whose value and flags are functions of the sources. -/
def IsTwoSource (I : BitVec 6 → Src → Src → Instr) (fp : Bool) : Prop :=
  ∃ (body : List Word → Nat → State → Eff) (val : List Word → Word) (fl : List Word → Flags),
    (∀ d a b s, exec (I d a b) s = lane (form2 false d a b) fp body s) ∧
    ∀ vals i s, body vals i s = .val (.some (val vals)) .none (fl vals) .none

/-- What a comparison of two registers is (R87): the shared lane operation, its sources strict (R43). -/
def IsCompare (I : BitVec 3 → Src → Src → Instr) : Prop :=
  ∃ body : List Word → Nat → State → Eff, ∀ p a b s, exec (I p a b) s = lane (formP false p a b) false body s

theorem isTwoSource_laneTwo : ∀ e ∈ laneTwo, IsTwoSource e.1 false := by
  simp only [laneTwo, List.forall_mem_cons, List.not_mem_nil, false_imp_iff, implies_true, and_true]
  and_intros
  all_goals exact ⟨_, _, _, fun _ _ _ _ => rfl, fun _ _ _ => rfl⟩

/-- A poisoned source raises NV in every short floating form but the sign copies, which raise nothing (R43, R110). -/
theorem isTwoSource_floatTwo : ∀ e ∈ floatTwo,
    ∃ fp, IsTwoSource e.1 fp ∧ (fp = true ∨ e.1 = .copysignD ∨ e.1 = .copysignF) := by
  simp only [floatTwo, List.forall_mem_cons, List.not_mem_nil, false_imp_iff, implies_true, and_true]
  and_intros
  all_goals exact ⟨_, ⟨_, _, _, fun _ _ _ _ => rfl, fun _ _ _ => rfl⟩, by simp⟩

theorem isTwoSource_int {I : BitVec 6 → Src → Src → Instr} (h : I ∈ intTwoForms) : IsTwoSource I false := by
  obtain ⟨e, he, rfl⟩ := List.mem_map.1 h
  exact isTwoSource_laneTwo e he

theorem isTwoSource_mem {I : BitVec 6 → Src → Src → Instr} (h : I ∈ intTwoForms ++ floatTwoForms) : ∃ fp, IsTwoSource I fp := by
  rcases List.mem_append.1 h with h | h
  · exact ⟨false, isTwoSource_int h⟩
  · obtain ⟨e, he, rfl⟩ := List.mem_map.1 h
    obtain ⟨fp, hI, -⟩ := isTwoSource_floatTwo e he
    exact ⟨fp, hI⟩

theorem isCompare_compares : ∀ e ∈ compares, IsCompare e.1 := by
  simp only [compares, List.forall_mem_cons, List.not_mem_nil, false_imp_iff, implies_true, and_true]
  and_intros
  all_goals exact ⟨_, fun _ _ _ _ => rfl⟩

/-! ## One thread: skipping, waiting, trapping -/

section
variable {s : State} {F : Form} {fp : Bool} {body : List Word → Nat → State → Eff} {i : Nat}

theorem laneThread_guardFalse (hg : guardVal s s.cur.gk i false = .no) :
    laneThread F fp body s i = goOn s.cur.gk s.cur.npc s i := by simp [laneThread, hg]

theorem laneThread_wait {u : Bool} {r : BitVec 6} (hg : guardVal s s.cur.gk i false = .yes)
    (h : readSources s s.cur.gk i s.cur.pc F = .wait u r) : laneThread F fp body s i = waitReg s.cur.gk i u r s := by
  simp [laneThread, hg, h]

theorem laneThread_trap {t : TrapRec} (hg : guardVal s s.cur.gk i false = .yes)
    (h : readSources s s.cur.gk i s.cur.pc F = .trap t) : laneThread F fp body s i = trapThread i t s := by
  simp [laneThread, hg, h]

/-- A register at or above the launch's count takes ILLEGAL in the thread that issues alone (R29). -/
theorem lane_overLimit_alone (hlim : overLimit s s.cur.gk F = true) (hl : (getThr s (tkOf s i)).st ≠ .exited) (ha : Alone s i) :
    lane F fp body s = .next (trapThread i (illegalHere s) s) := by
  simp only [lane, hlim, if_true, illegalLane, perThread, ha, List.foldl_cons, List.foldl_nil, if_neg hl]

end

theorem overLimit_form2 {s : State} {gk : Nat} {d : BitVec 6} {a b : Src} : overLimit s gk (form2 false d a b) = true ↔
    (recOf s gk).nv ≤ a.r.toNat ∨ (recOf s gk).nv ≤ b.r.toNat ∨ (recOf s gk).nv ≤ d.toNat := by
  simp [overLimit, form2, fA, fB, or_assoc]

theorem overLimit_form2_false {s : State} {gk : Nat} {d : BitVec 6} {a b : Src} (hA : a.r.toNat < (recOf s gk).nv)
    (hB : b.r.toNat < (recOf s gk).nv) (hD : d.toNat < (recOf s gk).nv) : overLimit s gk (form2 false d a b) = false :=
  Bool.eq_false_iff.2 fun h => by rcases overLimit_form2.1 h with h | h | h <;> omega

/-! ## Reading the first source -/

section
variable {s : State} {gk i : Nat} {pc : Word}

theorem readSources_of_checkFields {F : Form} {g : Got} (h : checkFields s gk i pc F.flds F.flds = .some g) :
    readSources s gk i pc F = g := by simp only [readSources, h]

theorem checkFields_empty {f : Fld} {fs all : List Fld} (h : (getR s gk i f.uni f.r).st = .empty) :
    checkFields s gk i pc all (f :: fs) = if all.any fun h => h.uni == f.uni && h.r == f.r && h.c == .trap then
      .some (.trap { name := .emptyRead, pc := pc, info := regNum f.uni f.r }) else .some (.wait f.uni f.r) := by
  simp only [checkFields, h]

theorem checkFields_fault {f : Fld} {fs all : List Fld} {ia da : Word} (h : (getR s gk i f.uni f.r).st = .fault ia da) :
    checkFields s gk i pc all (f :: fs) = .some (.trap { name := .dataUncorr, pc := pc, addr := da, info := ia }) := by
  simp only [checkFields, h]

variable {d : BitVec 6} {a b : Src}

/-- Whether a field that names the first source has control 0b11 (R41). -/
theorem form2_first_trap : ((form2 false d a b).flds.any fun h => h.uni == false && h.r == a.r && h.c == .trap) = true ↔
    a.c = .trap ∨ (b.r = a.r ∧ b.c = .trap) := by
  simp [form2, fA, fB]

theorem readSources_first_wait (h : (getV s (threadKey gk i) a.r).st = .empty) (hc : ¬ (a.c = .trap ∨ (b.r = a.r ∧ b.c = .trap))) :
    readSources s gk i pc (form2 false d a b) = .wait false a.r :=
  readSources_of_checkFields ((checkFields_empty (f := fA false a) h).trans (if_neg (mt form2_first_trap.1 hc)))

theorem readSources_first_emptyRead (h : (getV s (threadKey gk i) a.r).st = .empty) (hc : a.c = .trap ∨ (b.r = a.r ∧ b.c = .trap)) :
    readSources s gk i pc (form2 false d a b) = .trap { name := .emptyRead, pc := pc, info := regNum false a.r } :=
  readSources_of_checkFields ((checkFields_empty (f := fA false a) h).trans (if_pos (form2_first_trap.2 hc)))

theorem readSources_first_fault {ia da : Word} (h : (getV s (threadKey gk i) a.r).st = .fault ia da) :
    readSources s gk i pc (form2 false d a b) = .trap { name := .dataUncorr, pc := pc, addr := da, info := ia } :=
  readSources_of_checkFields (checkFields_fault (f := fA false a) h)

end

section
variable {s : State} {i : Nat} {d : BitVec 6} {a b : Src} {I : BitVec 6 → Src → Src → Instr} {fp : Bool}

/-- A pending two-source form does what the shared operation does to its one thread. -/
theorem exec_twoPending (hI : IsTwoSource I fp) (h : TwoPending s i d a b) :
    ∃ body, exec (I d a b) s = .next (laneThread (form2 false d a b) fp body s i) := by
  obtain ⟨body, val, fl, hexec, -⟩ := hI
  obtain ⟨ha, hb, hd⟩ := h.below
  exact ⟨body, (hexec ..).trans (lane_alone (overLimit_form2_false ha hb hd) h.live h.alone fp body)⟩

theorem exec_twoPending_trap (hI : IsTwoSource I fp) (h : TwoPending s i d a b) {n : TrapName} {addr info : Word}
    (hr : readSources s s.cur.gk i s.cur.pc (form2 false d a b) = .trap { name := n, pc := s.cur.pc, addr := addr, info := info }) :
    exec (I d a b) s = .next (trapOf s i n addr info) := by
  obtain ⟨body, he⟩ := exec_twoPending hI h
  rw [he, laneThread_trap h.guard hr]
  rfl

/-- A thread that waits for a v register stands still at its instruction, in one of the two waiting states of R221. -/
theorem waitReg_lane (r : BitVec 6) : ∃ x, (x = .waitOpnd ∨ x = .blocked) ∧
    waitReg s.cur.gk i false r s = setThr (tkOf s i) { getThr s (tkOf s i) with st := x, wait := .reg false r } s :=
  ⟨_, by split <;> simp, rfl⟩

end

/-- Settles O14: the first field is the first that the shared reading of sources checks. -/
theorem unreadySourcesWaitOrTrap : Obligations.UnreadySourcesWaitOrTrap := by
  intro I hI s d a b i h
  obtain ⟨fp, hI⟩ := isTwoSource_mem hI
  refine ⟨fun he hc => ?wait, fun he hc => ?emptyRead, fun ia da hf => ?fault⟩
  case wait =>
    obtain ⟨body, hexec⟩ := exec_twoPending hI h
    obtain ⟨x, hx, hw⟩ := waitReg_lane (s := s) (i := i) a.r
    exact ⟨x, hx, by rw [hexec, laneThread_wait h.guard (readSources_first_wait he hc), hw]⟩
  case emptyRead => exact exec_twoPending_trap hI h (readSources_first_emptyRead he hc)
  case fault => exact exec_twoPending_trap hI h (readSources_first_fault hf)

/-- Settles O15: the limits are checked before the guard, and the guard before any source is read. -/
theorem guardAndLimits : Obligations.GuardAndLimits := by
  intro I hI s d a b i ha hl
  obtain ⟨fp, body, val, fl, hexec, -⟩ := isTwoSource_mem hI
  refine ⟨fun hg hA hB hD => ?guard, fun hlim => ?limit⟩
  case guard =>
    rw [hexec, lane_alone (overLimit_form2_false hA hB hD) hl ha, laneThread_guardFalse hg]
    rfl
  case limit =>
    rw [hexec, lane_overLimit_alone (overLimit_form2.2 hlim) hl ha]
    rfl

/-! ## Poison -/

theorem lane_twoSource_poisoned {I : BitVec 6 → Src → Src → Instr} {fp : Bool} (hI : IsTwoSource I fp) {s : State} {d : BitVec 6}
    {a b : Src} (hr : LaneReadable s (form2 false d a b)) (hp : ∀ i ∈ s.cur.tids, Poisoned s (form2 false d a b) i) :
    ∃ t, exec (I d a b) s = .next t ∧ LaneDone s t s.cur.tids (form2 false d a b)
      (fun _ => .some ⟨poisonWord, .full, true⟩) (fun _ => .none) (fun _ => if fp then flNV else 0) (fun _ => s.cur.npc) := by
  obtain ⟨body, val, fl, hexec, hbody⟩ := hI
  rw [hexec]
  exact lane_readable hr (psn := fun _ => true) (dst := fun _ => .none)
    (hpsn := fun i hi => List.any_eq_true.2 (hp i hi)) (hb := fun i _ t _ => hbody _ i t)
    (hv := fun _ _ => rfl) (hfl := fun _ _ => rfl) (hpc := fun _ _ => rfl)

/-- The form of a comparison with its sources taken as not strict: what `LaneReadable` may then say of a poisoned source. -/
abbrev formPLax (p : BitVec 3) (a b : Src) : Form := { formP false p a b with flds := [fA false a, fB false b] }

/-- A comparison that can read its sources, the field `f` poisoned and the fields `pre` before it clean, takes POISON_USE (R43, R87). -/
theorem compare_poisoned {I : BitVec 3 → Src → Src → Instr} (hI : IsCompare I) {s : State} {i : Nat} (ha : Alone s i)
    {p : BitVec 3} {a b : Src} (hr : LaneReadable s (formPLax p a b)) {pre post : List Fld} {f : Fld}
    (he : (formP false p a b).flds = pre ++ f :: post)
    (hpre : ∀ g ∈ pre, g.strict = true → (readCell (getR s s.cur.gk i g.uni g.r)).2 = false) (hs : f.strict = true)
    (hf : (readCell (getR s s.cur.gk i f.uni f.r)).2 = true) :
    exec (I p a b) s = .next (trapOf s i .poisonUse 0 (word f.field)) := by
  obtain ⟨body, hexec⟩ := hI
  have hi : i ∈ s.cur.tids := by rw [ha]; exact List.mem_singleton_self i
  have hlim : overLimit s s.cur.gk (formP false p a b) = false := overLimit_false (F := formPLax p a b) hr.limit hr.limitD hr.limitM
  have hsrc : ∀ f ∈ (formP false p a b).flds,
      (getR s s.cur.gk i f.uni f.r).st = .full ∨ (getR s s.cur.gk i f.uni f.r).st = .dead := by
    have hA := hr.source i hi (fA false a) (by simp)
    have hB := hr.source i hi (fB false b) (by simp)
    simpa [formP, fA, fB] using ⟨hA, hB⟩
  have hread := readSources_poison (s := s) (gk := s.cur.gk) (tid := i) (pc := s.cur.pc) he hsrc hpre hs hf (hr.pred i hi)
    (hr.dest i hi) (hr.destP i hi)
  rw [hexec, lane_alone hlim (hr.live i hi) ha, laneThread_trap (hr.guard i hi) hread]
  rfl

/-- Settles O13: the shared operation gives the poisoned result, and a comparison's strict fields trap in their order. -/
theorem poisonedSources : Obligations.PoisonedSources := by
  refine ⟨⟨?int, ?float⟩, ?compare⟩
  case int =>
    intro I hI s d a b hr hp
    exact lane_twoSource_poisoned (isTwoSource_int hI) hr hp
  case float =>
    intro e he s d a b hr hp
    obtain ⟨fp, hI, hc⟩ := isTwoSource_floatTwo e he
    obtain ⟨t, hexec, hdone⟩ := lane_twoSource_poisoned hI hr hp
    refine ⟨t, _, hexec, hdone, ?_⟩
    cases fp with
    | true => exact .inl rfl
    | false =>
      refine .inr ⟨rfl, ?_⟩
      rcases hc with hc | hc | hc
      · exact absurd hc (by decide)
      · exact .inl (by rw [hc])
      · exact .inr (by rw [hc])
  case compare =>
    intro e he s p a b i ha hr
    have hI := isCompare_compares e he
    refine ⟨fun hA => ?_, fun hA hB => ?_⟩
    · exact compare_poisoned hI ha hr (pre := []) (f := fA false a true) (post := [fB false b true]) rfl (by simp) rfl hA
    · exact compare_poisoned hI ha hr (pre := [fA false a true]) (f := fB false b true) (post := []) rfl
        (fun g hg _ => by rw [List.mem_singleton.1 hg]; exact hA) rfl hB

end Sys2Proof.Machine
end

section
/-! PROOFS. How an operation in flight completes (R36, R126, R131, R134, R164, R165, R334). -/

namespace Sys2Proof.Machine

/-! ## What leaves the teams, and so the issuer of an operation, as they are -/

@[simp] theorem setR_team (gk tid : Nat) (u : Bool) (r : BitVec 6) (c : Cell) (s : State) : (setR gk tid u r c s).team = s.team := by
  cases u <;> simp [setR]

@[simp] theorem setPQ_team (gk tid : Nat) (u : Bool) (p : BitVec 3) (c : PCell) (s : State) : (setPQ gk tid u p c s).team = s.team := by
  cases u <;> simp [setPQ]

@[simp] theorem dropKept_team (gk tid : Nat) (u : Bool) (r : BitVec 6) (s : State) : (dropKept gk tid u r s).team = s.team := rfl

@[simp] theorem killAll_team (gk tid : Nat) (ks : List (Bool × BitVec 6)) (s : State) : (killAll gk tid ks s).team = s.team := by
  induction ks generalizing s with
  | nil => rfl
  | cons x ks ih => exact (ih _).trans (by simp [kill])

@[simp] theorem useAll_team (gk tid : Nat) (use : Uses) (s : State) : (useAll gk tid use s).team = s.team := by
  obtain ⟨o, h⟩ := keepRegs_eq gk tid use.keep (killAll gk tid use.kill s)
  simp [useAll, h]

@[simp] theorem filled_team (o : Op) (u : Bool) (d : BitVec 6) (x : Word) (s : State) : (filled o u d x s).team = s.team := by
  simp [filled, writeDst]

@[simp] theorem faulted_team (o : Op) (u : Bool) (d : BitVec 6) (da : Word) (s : State) : (faulted o u d da s).team = s.team := by
  simp [faulted]

theorem team_of_cacheOnly {s t : State} (h : CacheOnly s t) : t.team = s.team := by
  obtain ⟨m, b, e, l, c, d, g, rfl, -⟩ := h; rfl

theorem aliveG_congr {s t : State} {gk : Nat} (h : t.team = s.team) : aliveG t gk = aliveG s gk := by
  simp [aliveG, getTeam, h]

/-- A stash write changes no team's state. -/
theorem aliveG_stashWrite (t off : Nat) (bs : List Byte) (s : State) (gk : Nat) : aliveG (stashWrite t off bs s) gk = aliveG s gk := by
  simp only [aliveG, stashWrite, getTeam_setTeam]
  split
  · next h => rw [h]
  · rfl

/-! ## The parts that completions share, for an issuer that still has registers -/

section
variable {s : State} {o : Op}

theorem finishReg_alive (h : aliveG s o.gk = true) (u : Bool) (d : BitVec 6) (va : Word) (bs : List Byte) (bad : Bool) :
    finishReg o u d va bs bad s = if bad then faulted o u d va s else filled o u d (BitVec.ofNat 64 (natOf bs)) s := by
  simp only [finishReg, h, Bool.not_true, Bool.false_eq_true, if_false]
  rfl

theorem finishPred_alive (h : aliveG s o.gk = true) (u : Bool) (p : Option (BitVec 3)) (b : Bool) :
    finishPred o u p b s = checked o u p b s := by
  cases p with
  | none => rfl
  | some q => simp [finishPred, checked, h]

/-- The destination and the predicate of an access complete together (R36, R131). -/
theorem finish_alive (h : aliveG s o.gk = true) (u : Bool) (d : BitVec 6) (va : Word) (bs : List Byte) (bad : Bool)
    (p : Option (BitVec 3)) (b : Bool) : finishPred o u p b (finishReg o u d va bs bad s) =
      checked o u p b (if bad then faulted o u d va s else filled o u d (BitVec.ofNat 64 (natOf bs)) s) := by
  rw [finishReg_alive h, finishPred_alive]
  rw [← h]
  apply aliveG_congr
  split <;> simp

theorem undo_alive (h : aliveG s o.gk = true) (u : Bool) (d : BitVec 6) (old : Cell) (oldP : PCell) :
    undoPred o u .none oldP (undoReg o u d old s) = setR o.gk o.tid u d old s := by
  simp [undoPred, undoReg, h]

theorem useIssuer_alive (h : aliveG s o.gk = true) (use : Uses) : useIssuer o use s = useAll o.gk o.tid use s := by
  simp [useIssuer, h]

section
variable {d : BitVec 6} {minor : Nat} {m : AtomMod} {va x y : Word} {old : List Byte} {put : List Byte → State → State}

theorem finishAtomic_marked (h : aliveG s o.gk = true) : finishAtomic o d minor m va x y old true put s = faulted o false d va s := by
  simp [finishAtomic, h, faulted, completeFault]

/-- A compare that fails gives the old value and writes nothing (R134). -/
theorem finishAtomic_keeps {e : Word} (h : aliveG s o.gk = true) (ha : isAcq m.order = false) (he : e = atomExt m.ty (natOf old))
    (hk : minor = 7 ∧ atomNew minor m.ty e x y = e) : finishAtomic o d minor m va x y old false put s = filled o false d e s := by
  subst he
  simp only [finishAtomic, ha, if_pos hk, h, Bool.false_eq_true, if_false, if_true]
  rfl

theorem finishAtomic_writes {e : Word} (ha : isAcq m.order = false) (he : e = atomExt m.ty (natOf old))
    (hk : ¬ (minor = 7 ∧ atomNew minor m.ty e x y = e))
    (h : aliveG (put (bytesOf (atomBytes m.ty) (atomNew minor m.ty e x y).toNat) s) o.gk = true) :
    finishAtomic o d minor m va x y old false put s =
      filled o false d e (put (bytesOf (atomBytes m.ty) (atomNew minor m.ty e x y).toNat) s) := by
  subst he
  simp only [finishAtomic, ha, if_neg hk, h, Bool.false_eq_true, if_false, if_true]
  rfl

/-- The three ends of an atomic on memory: marked bytes, a compare that fails, a write (R134, R364). -/
theorem finishAtomic_outcomes {e : Word} {bad : Bool} (h : aliveG s o.gk = true) (ha : isAcq m.order = false)
    (he : e = atomExt m.ty (natOf old)) :
    (bad = true → finishAtomic o d minor m va x y old bad put s = faulted o false d va s) ∧
    (bad = false → minor = 7 ∧ atomNew minor m.ty e x y = e → finishAtomic o d minor m va x y old bad put s = filled o false d e s) ∧
    (bad = false → ¬ (minor = 7 ∧ atomNew minor m.ty e x y = e) →
      ∀ v, v = put (bytesOf (atomBytes m.ty) (atomNew minor m.ty e x y).toNat) s → aliveG v o.gk = true →
        finishAtomic o d minor m va x y old bad put s = filled o false d e v) := by
  refine ⟨?_, ?_, ?_⟩
  · rintro rfl
    exact finishAtomic_marked h
  · rintro rfl hk
    exact finishAtomic_keeps h ha he hk
  · rintro rfl hk v rfl hv
    exact finishAtomic_writes ha he hk hv

end
end

/-- What an atomic writes in its core's L1 (R134, R234). -/
def putInL1 (s : State) (o : Op) (p : Part) (va : Word) (bs : List Byte) (w : State) : State :=
  dirtyAt o.gk va (noteStore o.gk p.pa
    (dirtyLine (ctxOf s o.gk) (coreOf s o.gk) (p.pa / 128) (p.pa % 128) bs (p.kind == .uo) w))

/-- What an atomic writes at the coherent memory (R134, R312). -/
def putAtHome (o : Op) (p : Part) (va : Word) (bs : List Byte) (w : State) : State :=
  dirtyAt o.gk va (noteStore o.gk p.pa (pwrite p.pa bs w))

/-! ## What each completion comes to -/

theorem id_of_inFlight {s : State} {k : Nat} {o : Op} (h : InFlight s k o) : o.id = k := by
  simpa using List.find?_some h

section
variable {s : State} {k : Nat} {o : Op} (hf : InFlight s k o)
include hf

theorem exec_loadCompletion_stash {u : Bool} {d : BitVec 6} {p : Option (BitVec 3)} {q : Part} {va : Word}
    (hk : o.k = .load u true d p [q] va) : exec (.loadCompletion k) s = .next (finishPred o u p true
      (finishReg o u d va (stashRead s (teamOfG o.gk) q.pa q.len) (stashBad s (teamOfG o.gk) q.pa q.len) (dropOp k s))) := by
  show execLoadCompletion k s = _
  simp [execLoadCompletion, hf, hk]

theorem exec_loadCompletion_memory {u : Bool} {d : BitVec 6} {p : Option (BitVec 3)} {qs : List Part} {va : Word} {bs : List Byte}
    {bad : Bool} {w : State} (hk : o.k = .load u false d p qs va) (hr : readParts o.gk qs s = .some (bs, bad, w)) :
    exec (.loadCompletion k) s = .next (finishPred o u p true (finishReg o u d va bs bad (dropOp k w))) := by
  show execLoadCompletion k s = _
  simp [execLoadCompletion, hf, hk, hr]

section
variable {d : BitVec 6} {minor : Nat} {m : AtomMod} {p : Part} {va x y : Word} (hk : o.k = .atomic d minor m p va x y)
  (hdue : duePerforms s (coreOf s o.gk) = true)
include hk hdue

theorem exec_atomicPerform_stash (hm : m.space = .s) : exec (.atomicPerform k) s = .next (finishAtomic o d minor m va x y
    (stashRead s (teamOfG o.gk) p.pa p.len) (stashBad s (teamOfG o.gk) p.pa p.len) (stashWrite (teamOfG o.gk) p.pa)
    (performDue (coreOf s o.gk) (dropOp k s))) := by
  show execAtomicPerform k s = _
  simp [execAtomicPerform, hf, hk, hdue, hm]

theorem exec_atomicPerform_l1 (hm : m.space = .g) (hp : partReach s (coreOf s o.gk) p = true) (hh : isHbm p.pa = true)
    (hso : p.kind ≠ .so) (hw : wideScope s o.gk m.scope = false) (hr : residentG s o.gk = true) {bs : List Byte} {bad : Bool} {w : State}
    (hread : readPart (ctxOf s o.gk) (coreOf s o.gk) p
      (drainEntry (coreOf s o.gk) (p.pa / 128) (performDue (coreOf s o.gk) (dropOp k s))) = (bs, bad, w)) :
    exec (.atomicPerform k) s = .next (finishAtomic o d minor m va x y bs bad (putInL1 s o p va) w) := by
  have hl1 : atomInL1 o d minor m p va x y (dropOp k s) = finishAtomic o d minor m va x y bs bad (putInL1 s o p va) w := by
    have hread' : readPart (ctxOf (dropOp k s) o.gk) (coreOf (dropOp k s) o.gk) p
      (drainEntry (coreOf (dropOp k s) o.gk) (p.pa / 128) (performDue (coreOf (dropOp k s) o.gk) (dropOp k s))) = (bs, bad, w) := hread
    simp only [atomInL1, hread']
    rfl
  rw [← hl1]
  show execAtomicPerform k s = _
  simp [execAtomicPerform, hf, hk, hdue, hm, hp, hh, hso, hw, hr]

theorem exec_atomicPerform_home (hm : m.space = .g) (hp : partReach s (coreOf s o.gk) p = true) (hh : isHbm p.pa = true)
    (hso : p.kind ≠ .so) (hw : wideScope s o.gk m.scope = true ∨ residentG s o.gk = false) {w : State}
    (hat : w = dirLines (dirWrite (ctxOf s o.gk) (dieOf (coreOf s o.gk))) p.pa p.len
      (tapLine (ctxOf s o.gk) (coreOf s o.gk) (p.pa / 128) true false (flushLine (coreOf s o.gk) (p.pa / 128)
        (performDie (coreOf s o.gk) (performDue (coreOf s o.gk) (dropOp k s)))))) : exec (.atomicPerform k) s =
      .next (finishAtomic o d minor m va x y (pread w p.pa p.len) (pbad w p.pa p.len) (putAtHome o p va) w) := by
  have hhome : atomAtHome o d minor m p va x y (dropOp k s) =
      finishAtomic o d minor m va x y (pread w p.pa p.len) (pbad w p.pa p.len) (putAtHome o p va) w := by
    subst hat
    simp only [atomAtHome, hh, hso, if_true, if_false]
    rfl
  rw [← hhome]
  show execAtomicPerform k s = _
  rcases hw with hw | hw <;> simp [execAtomicPerform, hf, hk, hdue, hm, hp, hw]

end

/-! ### Edition-named reads -/

section
variable {u : Bool} {d : BitVec 6} {chk : Option (BitVec 3)} {use : Uses} {va npc : Word} {n : Nat} {e : Option Nat} {old : Cell}
  {oldP : PCell} (hk : o.k = .edl u d chk use va n e npc old oldP) (hc : cutOff s o.gk (pagePieces va n) = false)
include hk hc

theorem exec_editionLookup_denied {a : Word} (hd : deniedPiece s o.gk e (pagePieces va n) = .some a) :
    exec (.editionLookup k) s = .next (trapIssuer o (accessFault o.ia a 3 .g false)
      (undoPred o u chk oldP (undoReg o u d old (dropOp k s)))) := by
  show execEditionLookup k s = _
  simp [execEditionLookup, hf, hk, hc, hd]

variable (hd : deniedPiece s o.gk e (pagePieces va n) = .none)
include hd

theorem exec_editionLookup_here {w : State} {bs : List Byte} {bad : Bool}
    (hr : readEditions o.gk e (pagePieces va n) s = (.ok bs bad [], w)) : exec (.editionLookup k) s =
      .next (passIssuer o npc (finishPred o u chk true (finishReg o u d va bs bad (useIssuer o use (dropOp k w))))) := by
  show execEditionLookup k s = _
  simp [execEditionLookup, hf, hk, hc, hd, hr]

theorem exec_editionLookup_far {w : State} {bs : List Byte} {bad : Bool} {p : Part} {ps : List Part}
    (hr : readEditions o.gk e (pagePieces va n) s = (.ok bs bad (p :: ps), w)) : exec (.editionLookup k) s =
      .next (passIssuer o npc (askPeer o u d chk va bs bad (p :: ps) (useIssuer o use w))) := by
  show execEditionLookup k s = _
  simp [execEditionLookup, hf, hk, hc, hd, hr]

theorem exec_editionLookup_gone {w : State} {a : Word} (hr : readEditions o.gk e (pagePieces va n) s = (.gone a, w)) :
    exec (.editionLookup k) s = .next (if chk.isSome then
      passIssuer o npc (finishPred o u chk false (finishReg o u d va [] false (useIssuer o use (dropOp k w))))
    else trapIssuer o { name := .editionGone, pc := o.ia, addr := a, info := word (e.getD 0) }
      (undoPred o u chk oldP (undoReg o u d old (dropOp k w)))) := by
  show execEditionLookup k s = _
  simp [execEditionLookup, hf, hk, hc, hd, hr]

end

/-! ### Publishes, floors and the drain word -/

theorem exec_bpubAtBindery {d : BitVec 6} {va npc : Word} {r : Nat} {use : Uses} {old : Cell} (hk : o.k = .bpub d va r npc use old)
    (he : eOpen s r ≠ 0xFFFFFFFF) {w : State}
    (hw : w = pwriteN (regionAt s r + 4) 4 (eOpen s r) (pwriteN (regionAt s r) 4 (eOpen s r + 1) (dropOp k s)))
    (h : aliveG w o.gk = true) : exec (.bpubAtBindery k) s =
      .next (passIssuer o npc (writeDst o.gk 0 true d (BitVec.ofNat 64 (eOpen s r)) false (useIssuer o use w))) := by
  subst hw
  show execBpubAtBindery k s = _
  simp only [execBpubAtBindery, hf, hk, if_neg he, h, if_true]
  rfl

theorem exec_bpubAtBindery_limit {d : BitVec 6} {va npc : Word} {r : Nat} {use : Uses} {old : Cell}
    (hk : o.k = .bpub d va r npc use old) (he : eOpen s r = 0xFFFFFFFF) : exec (.bpubAtBindery k) s =
      .next (trapIssuer o { name := .editionLimit, pc := o.ia, addr := va, info := word r } (undoReg o true d old (dropOp k s))) := by
  show execBpubAtBindery k s = _
  simp only [execBpubAtBindery, hf, hk, if_pos he]

theorem exec_bfloorAtHome {d : BitVec 6} {r f : Nat} (hk : o.k = .bfloor d r f) {w : State}
    (hw : w = dropOp k (if eFloor s r < min f (ePub s r) then pwriteN (regionAt s r + 8) 4 (min f (ePub s r)) s else s))
    (h : aliveG w o.gk = true) : exec (.bfloorAtHome k) s = .next (writeDst o.gk 0 true d (BitVec.ofNat 64 (eFloor w r)) false w) := by
  subst hw
  show execBfloorAtHome k s = _
  simp only [execBfloorAtHome, hf, hk, h, if_true]
  rfl

theorem exec_drainWordRead {u : Bool} {d : BitVec 6} {p : Option (BitVec 3)} {die tenant upto : Nat}
    (hk : o.k = .drain u d p die tenant upto) (h : aliveG s o.gk = true) (hr : (getUnit s die).run = .none)
    (hq : ∀ p ∈ (getUnit s die).q, upto ≤ p.n ∨ ownerOf (getUnit s die) p.k ≠ tenant) : exec (.drainWordRead k) s =
      .next (finishPred o u p true (filled o u d (BitVec.ofNat 64 (tget 0 tenant (getUnit s die).total)) (dropOp k s))) := by
  have hall : ((getUnit s die).q.all fun p => decide (upto ≤ p.n) || ownerOf (getUnit s die) p.k != tenant) = true := by
    simpa using hq
  have hd : aliveG (dropOp k s) o.gk = true := h
  show execDrainWordRead k s = _
  simp only [execDrainWordRead, hf, hk, hall, hr, hd, Option.isNone_none, Bool.and_self, if_true]
  rfl

end

/-! ## The statement -/

/-- The request to a peer takes the place of the operation that asks it (R131, R350). -/
theorem askPeer_inFlight {s : State} {k : Nat} {o : Op} (hf : InFlight s k o) {u : Bool} {d : BitVec 6} {chk : Option (BitVec 3)}
    {va : Word} {bs : List Byte} {bad : Bool} {p : Part} {ps : List Part} {w : State} :
    askPeer o u d chk va bs bad (p :: ps) w = setOp k (.rload u d chk (p :: ps) va .none
      (if bs.isEmpty then .none else .some (p.pa % 65536 != va.toNat % 65536, bs, bad))) w := by
  rw [← id_of_inFlight hf]
  rfl

/-- Settles O36: a case for each kind of operation, from what its completion comes to and the ends that completions share. -/
theorem accessesComplete : Obligations.AccessesComplete := by
  refine ⟨?stash, ?memory, ?atomic, ?edition, ?publish, ?floor, ?drain⟩
  case stash =>
    intro s k o u d p q va hf hk h
    rw [exec_loadCompletion_stash hf hk, finish_alive (s := dropOp k s) h]
    exact ⟨fun hb => by rw [hb]; rfl, fun hb => by rw [hb]; rfl⟩
  case memory =>
    intro s w k o u bad d p qs va bs hf hk hr h
    rw [exec_loadCompletion_memory hf hk hr, finish_alive (s := dropOp k w) h]
  case atomic =>
    intro s w k o d minor m p va x y hf hk h hdue
    have hperf : aliveG (performDue (coreOf s o.gk) (dropOp k s)) o.gk = true :=
      (aliveG_congr (team_of_cacheOnly (cacheOnly_performDue ..))).trans h
    refine ⟨fun v hm hv hb => ?_, fun v e hm hv hb ha he => ?_, fun bs bad e hm hp hh hso hw hr hread hwv ha he => ?_,
      fun e hm hp hh hso hw hat hwv ha he => ?_⟩
    · rw [exec_atomicPerform_stash hf hk hdue hm, hb, hv, finishAtomic_marked hperf]
    · rw [exec_atomicPerform_stash hf hk hdue hm, hb, hv]
      exact ⟨fun hkeep => by rw [finishAtomic_keeps hperf ha he hkeep],
        fun hput => by rw [finishAtomic_writes ha he hput ((aliveG_stashWrite ..).trans hperf)]⟩
    · rw [exec_atomicPerform_l1 hf hk hdue hm hp hh hso hw hr hread]
      obtain ⟨hmark, hkeep, hput⟩ := finishAtomic_outcomes hwv ha he
      exact ⟨fun hb => by rw [hmark hb], fun hb hk => by rw [hkeep hb hk], fun hb hk v hv h => by rw [hput hb hk v hv h]⟩
    · rw [exec_atomicPerform_home hf hk hdue hm hp hh hso hw hat]
      obtain ⟨hmark, hkeep, hput⟩ := finishAtomic_outcomes hwv ha he
      exact ⟨fun hb => by rw [hmark hb], fun hb hk => by rw [hkeep hb hk], fun hb hk v hv h => by rw [hput hb hk v hv h]⟩
  case edition =>
    intro s w k o u d chk use va a npc n e bs old oldP hf hk hc h
    refine ⟨?_, fun hd hw => ⟨?_, ?_, ?_, ?_⟩⟩
    · rintro hd rfl
      rw [exec_editionLookup_denied hf hk hc hd, undo_alive (s := dropOp k s) h]
    · intro bad hr
      have huse : aliveG (useAll o.gk o.tid use (dropOp k w)) o.gk = true := (aliveG_congr (by simp)).trans hw
      rw [exec_editionLookup_here hf hk hc hd hr, useIssuer_alive (s := dropOp k w) hw, finish_alive huse]
    · intro bad p ps hr
      rw [exec_editionLookup_far hf hk hc hd hr, useIssuer_alive hw, askPeer_inFlight hf]
    · intro hr hs
      have huse : aliveG (useAll o.gk o.tid use (dropOp k w)) o.gk = true := (aliveG_congr (by simp)).trans hw
      rw [exec_editionLookup_gone hf hk hc hd hr, if_pos hs, useIssuer_alive (s := dropOp k w) hw, finish_alive huse]
      rfl
    · rintro hr rfl
      rw [exec_editionLookup_gone hf hk hc hd hr, undo_alive (s := dropOp k w) hw]
      rfl
  case publish =>
    intro s k o d va npc r use old hf hk h
    refine ⟨fun he w hw => ?_, fun he => ?_⟩
    · have hal : aliveG w o.gk = true := by subst hw; exact h
      rw [exec_bpubAtBindery hf hk he hw hal, useIssuer_alive hal]
    · rw [exec_bpubAtBindery_limit hf hk he]
      simp [undoReg, show aliveG (dropOp k s) o.gk = true from h]
      rfl
  case floor =>
    intro s w k o d r f hf hk hw h
    exact exec_bfloorAtHome hf hk hw h
  case drain =>
    intro s k o u d p die tenant upto hf hk h hr hq
    rw [exec_drainWordRead hf hk h hr hq, finishPred_alive ((aliveG_congr (by simp)).trans h)]

end Sys2Proof.Machine
end

section
/-! PROOFS. What one step runs (R22, R24, R203, R213): the chosen bundle, a Gloss run, the agenda, or, while the main side does not run, the
side-band port. -/

namespace Sys2Proof.Machine

/-- A running module's step is what comes next, and what every step settles. -/
theorem step_of_running {s : State} (h : halted s = false) : step s = after (advanceOnce s) := by
  simp [step, stepOnce, h]

/-- A step of a module whose main side does not run, and what every step settles. -/
theorem step_of_halted {s : State} (h : halted s = true) : step s = after (haltedStep s) := by
  simp [step, stepOnce, h]

theorem advanceOnce_gloss {s : State} {die : Nat} (h : s.gsel = .some die) : advanceOnce s = issueGloss die s := by
  simp [advanceOnce, h]

theorem advanceOnce_bundle {s : State} (hg : s.gsel = .none) (h : s.sel.tids ≠ []) : advanceOnce s = issueBundle s := by
  simp [advanceOnce, hg, h]

theorem advanceOnce_agenda {s : State} {i : Instr} {r : List Instr} (hg : s.gsel = .none) (hs : s.sel.tids = [])
    (h : s.agenda = i :: r) : advanceOnce s = exec i { s with agenda := r } := by
  simp [advanceOnce, hg, hs, h]

/-- A chosen bundle whose words are fetched and decode runs their instruction, by the threads that may issue (R28, R33). -/
theorem issueBundle_decoded {s s' : State} {i : Nat} {ts : List Nat} {ws : List (BitVec 32)} {d : Decoded} {y : Thr}
    (hi : issuers { s with sel := {} } s.sel = i :: ts) (hy : y = getThr s (threadKey s.sel.gk i))
    (hf : fetchInstr s.sel.gk (!y.sys) (i :: ts) y.pc { s with sel := {} } = (.ok ws, s')) (hd : decodeWords ws = .ok d) :
    issueBundle s = exec d.ins (withCur s.sel (i :: ts) y.pc (y.pc + BitVec.ofNat 64 d.bytes) d.guard (insWord ws)
      (clearTgt s.sel.gk s')) := by
  subst hy
  have hf' : fetchInstr s.sel.gk (!(getThr { s with sel := {} } (threadKey s.sel.gk i)).sys) (i :: ts)
      (getThr { s with sel := {} } (threadKey s.sel.gk i)).pc { s with sel := {} } = (.ok ws, s') := hf
  unfold issueBundle
  simp only [hi, hf', hd]
  rfl

theorem issueGloss_decoded {s : State} {die : Nat} {i : Instr} (h : decodeGloss (glossFetch s die) = .ok i) :
    issueGloss die s = exec i s := by
  simp [issueGloss, h]

theorem haltedStep_sideBand {s : State} {i : Instr} {r : List Instr} (h : s.agenda = i :: r) (hi : sideBand i = true) :
    haltedStep s = exec i { s with agenda := r } := by
  simp [haltedStep, h, hi]

theorem haltedStep_idle {s : State} (h : s.agenda = []) : haltedStep s = .fault .moduleStopped := by
  simp [haltedStep, h]

/-- Settles O55: each clause is one branch of the step. -/
theorem stepRunsInstruction : Obligations.StepRunsInstruction := by
  refine ⟨?bundle, ?gloss, ?agenda, ?idle, ?reset⟩
  case bundle =>
    rintro s s' i ts x ws d y hrun hg rfl hs hi hy hf hd
    rw [step_of_running hrun, advanceOnce_bundle hg hs, issueBundle_decoded hi hy hf hd]
  case gloss =>
    intro s die i hrun hg hd
    rw [step_of_running hrun, advanceOnce_gloss hg, issueGloss_decoded hd]
  case agenda =>
    intro s i r hrun hg hs ha
    rw [step_of_running hrun, advanceOnce_agenda hg hs ha]
  case idle =>
    intro s h ha
    rw [step_of_halted h, haltedStep_idle ha]
    rfl
  case reset =>
    intro s r h ha
    rw [step_of_halted h, haltedStep_sideBand ha rfl]

end Sys2Proof.Machine
end

section
/-! PROOFS. Reductions (R70, R71, R96): the tree over all lanes gives the combination of what the participants have read. -/

namespace Sys2Proof.Machine

/-! ## The tree of R70 -/

section
variable {α β : Type} {op : α → α → α}

/-- The combination of a list by an associative operation does not depend on how adjacent values are paired. -/
theorem foldr_pairUp (assoc : ∀ x y z, op (op x y) z = op x (op y z)) (e : α) : ∀ xs, (pairUp op xs).foldr op e = xs.foldr op e
  | [] => rfl
  | [_] => rfl
  | x :: y :: r => by simp only [pairUp, List.foldr_cons, foldr_pairUp assoc e r, assoc]

theorem foldr_tree (assoc : ∀ x y z, op (op x y) z = op x (op y z)) (e : α) (n : Nat) (xs : List α) :
    (tree op n xs).foldr op e = xs.foldr op e := by
  induction n generalizing xs with
  | zero => rfl
  | succ n ih => rw [tree, ih, foldr_pairUp assoc]

theorem length_pairUp_le : ∀ xs : List α, 2 * (pairUp op xs).length ≤ xs.length + 1
  | [] => by simp [pairUp]
  | [_] => by simp [pairUp]
  | _ :: _ :: r => by
    have := length_pairUp_le r
    simp only [pairUp, List.length_cons]
    omega

/-- `n` levels leave one value of at most 2^n. -/
theorem length_tree_le (n : Nat) (xs : List α) (h : xs.length ≤ 2 ^ n) : (tree op n xs).length ≤ 1 := by
  induction n generalizing xs with
  | zero => exact h
  | succ n ih =>
    refine ih _ ?_
    have := length_pairUp_le (op := op) xs
    rw [pow_succ] at h
    omega

/-- The root of the tree of an associative operation over at most 64 lanes is the lanes' combination. -/
theorem headD_tree (assoc : ∀ x y z, op (op x y) z = op x (op y z)) {e : α} (right : ∀ x, op x e = x) {xs : List α}
    (h : xs.length ≤ 64) : (tree op 6 xs).headD e = xs.foldr op e := by
  have hl : (tree op 6 xs).length ≤ 1 := length_tree_le 6 xs h
  rw [← foldr_tree assoc e 6 xs]
  match tree op 6 xs, hl with
  | [], _ => rfl
  | [x], _ => exact (right x).symm

theorem pairUp_map {opb : β → β → β} {g : α → β} (hom : ∀ x y, opb (g x) (g y) = g (op x y)) :
    ∀ xs, pairUp opb (xs.map g) = (pairUp op xs).map g
  | [] => rfl
  | [_] => rfl
  | x :: y :: r => by simp only [pairUp, List.map_cons, hom, ← pairUp_map hom r]

theorem tree_map {opb : β → β → β} {g : α → β} (hom : ∀ x y, opb (g x) (g y) = g (op x y)) (n : Nat) (xs : List α) :
    tree opb n (xs.map g) = (tree op n xs).map g := by
  induction n generalizing xs with
  | zero => rfl
  | succ n ih => rw [tree, pairUp_map hom, ih, tree]

/-- Every node of a tree satisfies what its operation keeps. -/
theorem forall_pairUp {P : α → Prop} (keeps : ∀ x y, P x → P y → P (op x y)) :
    ∀ xs, (∀ x ∈ xs, P x) → ∀ x ∈ pairUp op xs, P x
  | [], h => h
  | [_], h => h
  | x :: y :: r, h => by
    intro z hz
    rcases List.mem_cons.1 hz with rfl | hz
    · exact keeps x y (h x (by simp)) (h y (by simp))
    · exact forall_pairUp keeps r (fun u hu => h u (by simp [hu])) z hz

theorem forall_tree {P : α → Prop} (keeps : ∀ x y, P x → P y → P (op x y)) (n : Nat) (xs : List α) (h : ∀ x ∈ xs, P x) :
    ∀ x ∈ tree op n xs, P x := by
  induction n generalizing xs with
  | zero => exact h
  | succ n ih => exact ih _ (forall_pairUp keeps xs h)

theorem foldr_skip_identity {ident : α} (left : ∀ x, op ident x = x) (p : β → Prop) [DecidablePred p] (f : β → α) (e : α) (l : List β) :
    (l.map fun i => if p i then f i else ident).foldr op e = ((l.filter fun i => decide (p i)).map f).foldr op e := by
  induction l with
  | nil => rfl
  | cons i l ih =>
    by_cases hp : p i
    · simp only [List.map_cons, List.foldr_cons, List.filter_cons, hp, decide_true, if_true, ih]
    · simp only [List.map_cons, List.foldr_cons, List.filter_cons, hp, decide_false, if_false, Bool.false_eq_true, left, ih]

end

/-! ## What the lanes give -/

/-- The value that lane `i` gives a reduction: what it has read, or the identity where it takes no part (R96). -/
def laneValue (s : State) (a : Src) (ident : Word) (i : Nat) : Word := if i ∈ parts s then valV s i a.r else ident

theorem domain_eq_filter (s : State) (gk : Nat) : ∃ q : Nat → Bool, domain s gk = (List.range (widthOf s gk)).filter q := by
  unfold domain live
  split
  · exact ⟨_, rfl⟩
  · exact ⟨_, List.filter_filter ..⟩

/-- The participants, in lane order. -/
theorem parts_eq_filter (s : State) : parts s = (List.range (widthOf s s.cur.gk)).filter fun i => decide (i ∈ parts s) := by
  obtain ⟨q, hq⟩ := domain_eq_filter s s.cur.gk
  have hp : parts s = (List.range (widthOf s s.cur.gk)).filter fun i => decide (guardVal s s.cur.gk i false = .yes) && q i := by
    unfold parts; rw [hq, List.filter_filter]
  conv_lhs => rw [hp]
  refine List.filter_congr fun i hi => ?_
  rw [hp]
  simp [List.mem_range.1 hi]

theorem find?_partOf (s : State) (F : Form) (i : Nat) (l : List Nat) :
    ((l.map (partOf s F)).find? fun q => q.tid == i) = if i ∈ l then some (partOf s F i) else none := by
  induction l with
  | nil => rfl
  | cons j l ih =>
    by_cases h : j = i
    · subst h; simp [partOf]
    · have hne : (j == i) = false := by simpa using h
      have hij : i ≠ j := Ne.symm h
      simp only [List.map_cons, List.find?_cons, List.mem_cons, hij, false_or, ← ih]
      simp [partOf, hne]

/-- The tree of a reduction has as leaves what the lanes give (R70, R96). -/
theorem reduce_parts (s : State) (d : BitVec 6) (a : Src) (ident : Word) (fp : Bool) (op : Word → Word → Word × Flags) (w : Nat) :
    reduce w ident fp op ((parts s).map (partOf s (form1 false d a))) =
      (tree (flagged fp op) 6 ((List.range w).map fun i => (some (laneValue s a ident i), (0 : Flags)))).headD (some ident, 0) := by
  refine congrArg (fun l => (tree (flagged fp op) 6 l).headD (some ident, 0)) (List.map_congr_left fun i _ => ?_)
  by_cases h : i ∈ parts s
  · simp only [find?_partOf, laneValue, if_pos h]; rfl
  · simp only [find?_partOf, laneValue, if_neg h]

/-- A reduction whose tree comes to a clean value gives it to every participant, with the flags of every node. -/
theorem red_done {s : State} {d : BitVec 6} {a : Src} (h : CrossReady s (form1 false d a)) {ident x : Word} {fp : Bool}
    {op : Word → Word → Word × Flags} {f : Flags}
    (hr : (tree (flagged fp op) 6 ((List.range (widthOf s s.cur.gk)).map fun i =>
      (some (laneValue s a ident i), (0 : Flags)))).headD (some ident, 0) = (some x, f)) :
    ∃ t, red d a ident op fp s = .next t ∧ CrossDone s t (form1 false d a) (fun _ => .some x) (fun _ => .none) f := by
  have hred : reduce (widthOf s s.cur.gk) ident fp op ((parts s).map (partOf s (form1 false d a))) = (some x, f) :=
    (reduce_parts ..).trans hr
  exact cross_done h (fun i _ => by simp only [hred]; rfl) (by simp only [hred])

/-! ## Integer reductions -/

/-- The word that the lanes combine to. -/
theorem redInt_done {s : State} {d : BitVec 6} {a : Src} (h : CrossReady s (form1 false d a)) {ident : Word} {f : Word → Word → Word}
    (assoc : ∀ x y z, f (f x y) z = f x (f y z)) (left : ∀ x, f ident x = x) (right : ∀ x, f x ident = x) :
    ∃ t, red d a ident (noFlags f) false s = .next t ∧ CrossDone s t (form1 false d a)
      (fun _ => .some (((parts s).map fun i => valV s i a.r).foldr f ident)) (fun _ => .none) 0 := by
  refine red_done h ?_
  have hom : ∀ x y : Word, flagged false (noFlags f) (some x, 0) (some y, 0) = (some (f x y), 0) := fun x y => by
    simp [flagged, noFlags]
  have hleaves : ((List.range (widthOf s s.cur.gk)).map fun i => (some (laneValue s a ident i), (0 : Flags))) =
      (((List.range (widthOf s s.cur.gk)).map (laneValue s a ident)).map fun x => (some x, (0 : Flags))) := by
    rw [List.map_map]; rfl
  have hroot : (tree f 6 ((List.range (widthOf s s.cur.gk)).map (laneValue s a ident))).headD ident =
      ((parts s).map fun i => valV s i a.r).foldr f ident := by
    rw [headD_tree assoc right (by simpa using h.width)]
    exact (foldr_skip_identity left (· ∈ parts s) (fun i => valV s i a.r) ident _).trans (by rw [← parts_eq_filter])
  rw [hleaves, tree_map hom, ← hroot]
  cases tree f 6 ((List.range (widthOf s s.cur.gk)).map (laneValue s a ident)) <;> rfl

theorem foldr_iAdd (xs : List Word) : xs.foldr iAdd 0 = BitVec.ofInt 64 (xs.map BitVec.toInt).sum := by
  induction xs with
  | nil => rfl
  | cons x xs ih => rw [List.foldr_cons, ih, List.map_cons, List.sum_cons, BitVec.ofInt_add, BitVec.ofInt_toInt, iAdd]

theorem toInt_minI (x y : Word) : (minI x y).toInt = min x.toInt y.toInt := by
  unfold minI
  rw [BitVec.slt_eq_decide]
  split
  · next h => exact (min_eq_right (of_decide_eq_true h).le).symm
  · next h => exact (min_eq_left (not_lt.1 fun c => h (decide_eq_true c))).symm

theorem toInt_maxI (x y : Word) : (maxI x y).toInt = max x.toInt y.toInt := by
  unfold maxI
  rw [BitVec.slt_eq_decide]
  split
  · next h => exact (max_eq_right (of_decide_eq_true h).le).symm
  · next h => exact (max_eq_left (not_lt.1 fun c => h (decide_eq_true c))).symm

/-- A chain of an operation on words is the chain of its integer counterpart on their values. -/
theorem foldr_toInt {f : Word → Word → Word} {g : Int → Int → Int} (hfg : ∀ x y, (f x y).toInt = g x.toInt y.toInt)
    (comm : ∀ x y, g x y = g y x) (assoc : ∀ x y z, g (g x y) z = g x (g y z)) (e : Word) (xs : List Word) :
    xs.foldr f e = BitVec.ofInt 64 ((xs.map BitVec.toInt).foldl g e.toInt) := by
  have hto : (xs.foldr f e).toInt = (xs.map BitVec.toInt).foldr g e.toInt := by
    induction xs with
    | nil => rfl
    | cons x xs ih => rw [List.foldr_cons, hfg, ih, List.map_cons, List.foldr_cons]
  have : Std.Commutative g := ⟨comm⟩
  have : Std.Associative g := ⟨assoc⟩
  rw [List.foldl_eq_foldr, ← hto, BitVec.ofInt_toInt]

theorem word_toInt_bounds (x : Word) : -2 ^ 63 ≤ x.toInt ∧ x.toInt ≤ 2 ^ 63 - 1 := by
  have h1 := x.le_toInt
  have h2 := x.toInt_lt
  simp at h1 h2
  omega

theorem redMinI64_done {s : State} {d : BitVec 6} {a : Src} (h : CrossReady s (form1 false d a)) :
    ∃ t, exec (.redMinI64 d a) s = .next t ∧ CrossDone s t (form1 false d a)
      (fun _ => .some (BitVec.ofInt 64 (((parts s).map fun i => (valV s i a.r).toInt).foldl min (2 ^ 63 - 1)))) (fun _ => .none) 0 := by
  have hid : (0x7FFFFFFFFFFFFFFF : Word).toInt = 2 ^ 63 - 1 := by decide
  have := redInt_done h (ident := 0x7FFFFFFFFFFFFFFF) (f := minI)
    (fun x y z => BitVec.eq_of_toInt_eq (by simp only [toInt_minI, min_assoc]))
    (fun x => BitVec.eq_of_toInt_eq (by rw [toInt_minI, hid]; exact min_eq_right (word_toInt_bounds x).2))
    (fun x => BitVec.eq_of_toInt_eq (by rw [toInt_minI, hid]; exact min_eq_left (word_toInt_bounds x).2))
  rw [foldr_toInt toInt_minI min_comm min_assoc, hid, List.map_map] at this
  exact this

theorem redMaxI64_done {s : State} {d : BitVec 6} {a : Src} (h : CrossReady s (form1 false d a)) :
    ∃ t, exec (.redMaxI64 d a) s = .next t ∧ CrossDone s t (form1 false d a)
      (fun _ => .some (BitVec.ofInt 64 (((parts s).map fun i => (valV s i a.r).toInt).foldl max (-2 ^ 63)))) (fun _ => .none) 0 := by
  have hid : (0x8000000000000000 : Word).toInt = -2 ^ 63 := by decide
  have := redInt_done h (ident := 0x8000000000000000) (f := maxI)
    (fun x y z => BitVec.eq_of_toInt_eq (by simp only [toInt_maxI, max_assoc]))
    (fun x => BitVec.eq_of_toInt_eq (by rw [toInt_maxI, hid]; exact max_eq_right (word_toInt_bounds x).1))
    (fun x => BitVec.eq_of_toInt_eq (by rw [toInt_maxI, hid]; exact max_eq_left (word_toInt_bounds x).1))
  rw [foldr_toInt toInt_maxI max_comm max_assoc, hid, List.map_map] at this
  exact this

theorem redAddI64_done {s : State} {d : BitVec 6} {a : Src} (h : CrossReady s (form1 false d a)) :
    ∃ t, exec (.redAddI64 d a) s = .next t ∧ CrossDone s t (form1 false d a)
      (fun _ => .some (BitVec.ofInt 64 ((parts s).map fun i => (valV s i a.r).toInt).sum)) (fun _ => .none) 0 := by
  have := redInt_done h (ident := 0) (f := iAdd) BitVec.add_assoc (fun x => BitVec.zero_add x) (fun x => BitVec.add_zero x)
  rw [foldr_iAdd, List.map_map] at this
  exact this

/-! ## Floating reductions -/

/-- Clean leaves have a clean root. -/
theorem tree_flagged_clean (op : Word → Word → Word × Flags) (ident : Word) (v : Nat → Word) (l : List Nat) :
    ∃ x f, (tree (flagged true op) 6 (l.map fun i => (some (v i), (0 : Flags)))).headD (some ident, 0) = (some x, f) := by
  have hclean : ∀ y ∈ tree (flagged true op) 6 (l.map fun i => (some (v i), (0 : Flags))), ∃ x f, y = (some x, f) := by
    refine forall_tree ?_ 6 _ ?_
    · rintro _ _ ⟨x, f, rfl⟩ ⟨y, g, rfl⟩
      exact ⟨_, _, rfl⟩
    · intro y hy
      obtain ⟨i, -, rfl⟩ := List.mem_map.1 hy
      exact ⟨_, _, rfl⟩
  revert hclean
  cases tree (flagged true op) 6 (l.map fun i => (some (v i), (0 : Flags))) with
  | nil => exact fun _ => ⟨ident, 0, rfl⟩
  | cons y ys => exact fun hclean => hclean y (List.mem_cons_self ..)

theorem redFloat_done {s : State} {d : BitVec 6} {a : Src} (h : CrossReady s (form1 false d a)) (ident : Word)
    (op : Word → Word → Word × Flags) :
    ∃ t x f, red d a ident op true s = .next t ∧ CrossDone s t (form1 false d a) (fun _ => .some x) (fun _ => .none) f ∧
      (some x, f) = (tree (flagged true op) 6 ((List.range (widthOf s s.cur.gk)).map fun i =>
        (some (laneValue s a ident i), (0 : Flags)))).headD (some ident, 0) := by
  obtain ⟨x, f, hx⟩ := tree_flagged_clean op ident (laneValue s a ident) (List.range (widthOf s s.cur.gk))
  obtain ⟨t, ht, hd⟩ := red_done h hx
  exact ⟨t, x, f, ht, hd, hx.symm⟩

/-- Settles O18: the tree over all lanes, which for an associative operation is the combination of the participants' values. -/
theorem reductionResults : Obligations.ReductionResults := by
  refine ⟨fun s d a h => ⟨redAddI64_done h, redMinI64_done h, redMaxI64_done h⟩, ?_⟩
  intro e he s d a h
  simp only [List.mem_cons, List.not_mem_nil, or_false] at he
  rcases he with rfl | rfl | rfl | rfl
  · exact redFloat_done h _ _
  · exact redFloat_done h _ _
  · exact redFloat_done h _ _
  · exact redFloat_done h _ _

end Sys2Proof.Machine
end

section
/-! PROOFS. One rounding of an exact real number (R49, R58, R59): what the model's helpers of a rounding compute, up to `Round` and
`RoundToOdd` of a magnitude. -/

namespace Sys2Proof.Machine

/-! ## Formats (R49, R50) -/

/-- A format wide enough for a subnormal and three binades of normal numbers. -/
def FmtOk (F : Fmt) : Prop := 2 ≤ F.eb ∧ 1 ≤ F.mb

theorem fmtOk_of_mem {F : Fmt} (h : F ∈ e8m26 :: regFormats) : FmtOk F := by
  simp only [regFormats, List.mem_cons, List.not_mem_nil, or_false] at h
  rcases h with rfl | rfl | rfl | rfl | rfl <;> constructor <;> decide

theorem fmtOk_of_regFormats {F : Fmt} (h : F ∈ regFormats) : FmtOk F := fmtOk_of_mem (List.mem_cons_of_mem _ h)

theorem two_pow_eb {F : Fmt} (hF : FmtOk F) : 2 ^ F.eb = 2 * fBias F + 2 := by
  have h : 2 ^ F.eb = 2 * 2 ^ (F.eb - 1) := by rw [← pow_succ']; congr 1; have := hF.1; omega
  have h1 : 1 ≤ 2 ^ (F.eb - 1) := Nat.one_le_two_pow
  unfold fBias; omega

theorem one_le_fBias {F : Fmt} (hF : FmtOk F) : 1 ≤ fBias F := by
  have h : 2 ^ 1 ≤ 2 ^ (F.eb - 1) := Nat.pow_le_pow_right (by norm_num) (by have := hF.1; omega)
  unfold fBias; omega

theorem zpow_two_pos (e : Int) : (0 : ℝ) < 2 ^ e := zpow_pos (by norm_num) e

theorem zpow_two_add (a b : Int) : (2 : ℝ) ^ (a + b) = 2 ^ a * 2 ^ b := zpow_add₀ (by norm_num) a b

theorem zpow_two_le {a b : Int} : (2 : ℝ) ^ a ≤ 2 ^ b ↔ a ≤ b := zpow_le_zpow_iff_right₀ (by norm_num)

/-- A natural power as an integer one. -/
theorem zpow_two_toNat {a : Int} (h : 0 ≤ a) : ((2 ^ a.toNat : Nat) : ℝ) = 2 ^ a := by
  rw [Nat.cast_pow, Nat.cast_ofNat, ← zpow_natCast, Int.toNat_of_nonneg h]

theorem two_pow_mul_zpow (a : Nat) (e : Int) : ((2 ^ a : Nat) : ℝ) * 2 ^ e = 2 ^ ((a : Int) + e) := by
  rw [zpow_two_add, Nat.cast_pow, zpow_natCast, Nat.cast_ofNat]

/-! ## Counting quanta -/

/-- `x` is m · 2^e or, sticky, lies above it by less than one unit of m. -/
def Approx (m : Nat) (e : Int) (sticky : Bool) (x : ℝ) : Prop :=
  (m : ℝ) * 2 ^ e ≤ x ∧ x < (m + 1) * 2 ^ e ∧ (sticky = false ↔ x = m * 2 ^ e)

theorem approx_exact (m : Nat) (e : Int) : Approx m e false (m * 2 ^ e) :=
  ⟨le_rfl, by have := zpow_two_pos e; linarith, by simp⟩

/-- What `quanta` answers for the fraction of a quantum: zero, below, at, or above one half. -/
def RestOf (rest : Nat) (f : ℝ) : Prop :=
  (rest = 0 ∧ f = 0) ∨ (rest = 1 ∧ 0 < f ∧ f < 1 / 2) ∨ (rest = 2 ∧ f = 1 / 2) ∨ (rest = 3 ∧ 1 / 2 < f)

theorem RestOf.eq_zero_iff {rest : Nat} {f : ℝ} (h : RestOf rest f) : rest = 0 ↔ f = 0 := by
  rcases h with ⟨rfl, hf⟩ | ⟨rfl, hf, -⟩ | ⟨rfl, hf⟩ | ⟨rfl, hf⟩
  · simp [hf]
  · simp [hf.ne']
  · simp [hf]
  · have : f ≠ 0 := by rintro rfl; norm_num at hf
    simp [this]

/-- The rest of `r + δ` units where a quantum has `2 h` of them. -/
theorem restOf_units {r h : Nat} {δ : ℝ} {sticky : Bool} (h0 : 0 ≤ δ) (h1 : δ < 1) (hs : sticky = false ↔ δ = 0) (hpos : 0 < h) :
    RestOf (if r < h then (if r = 0 && !sticky then 0 else 1) else if r = h && !sticky then 2 else 3) ((r + δ) / (2 * h)) := by
  have hh : (0 : ℝ) < 2 * h := by exact_mod_cast Nat.mul_pos two_pos hpos
  have half : (1 / 2 : ℝ) = h / (2 * h) := by field_simp
  by_cases hlt : r < h
  · have hle : (r : ℝ) + 1 ≤ h := by exact_mod_cast hlt
    by_cases hz : r = 0 ∧ sticky = false
    · left; simp [hz.1, hz.2, hpos, hs.1 hz.2]
    · right; left
      refine ⟨by simp [hlt, hz], div_pos ?_ hh, ?_⟩
      · have hr : (0 : ℝ) ≤ r := Nat.cast_nonneg r
        rcases hr.lt_or_eq with hr | hr
        · linarith
        · have hr0 : r = 0 := by exact_mod_cast hr.symm
          have hδ : δ ≠ 0 := fun c => hz ⟨hr0, hs.2 c⟩
          have := lt_of_le_of_ne h0 (Ne.symm hδ)
          linarith
      · rw [half, div_lt_div_iff_of_pos_right hh]; linarith
  · by_cases hz : r = h ∧ sticky = false
    · right; right; left
      obtain ⟨rfl, hst⟩ := hz
      refine ⟨by simp [hst], ?_⟩
      rw [hs.1 hst, half, add_zero]
    · right; right; right
      refine ⟨by simp [hlt, hz], ?_⟩
      rw [half, div_lt_div_iff_of_pos_right hh]
      have hr : (h : ℝ) ≤ r := by exact_mod_cast not_lt.1 hlt
      rcases hr.lt_or_eq with hr | hr
      · linarith
      · have hr0 : r = h := by exact_mod_cast hr.symm
        have hδ : δ ≠ 0 := fun c => hz ⟨hr0, hs.2 c⟩
        have := lt_of_le_of_ne h0 (Ne.symm hδ)
        linarith

theorem floor_fract_of_eq_add {t d : ℝ} {n : Nat} (h : t = n + d) (h0 : 0 ≤ d) (h1 : d < 1) :
    ⌊t⌋ = (n : ℤ) ∧ Int.fract t = d := by
  have hfl : ⌊t⌋ = (n : ℤ) := by
    rw [Int.floor_eq_iff, Int.cast_natCast, h]
    constructor <;> linarith
  exact ⟨hfl, by rw [Int.fract, hfl, Int.cast_natCast, h]; ring⟩

/-- `quanta` counts the whole quanta of `x` and tells the rest, where a sticky bit lies below the quantum. -/
theorem quanta_spec {m : Nat} {e q : Int} {sticky : Bool} {x : ℝ} (h : Approx m e sticky x) (hq : sticky = true → e < q) :
    ⌊x / 2 ^ q⌋ = ((quanta m e q sticky).1 : ℤ) ∧ RestOf (quanta m e q sticky).2 (Int.fract (x / 2 ^ q)) := by
  obtain ⟨hlo, hhi, hst⟩ := h
  have hqp := zpow_two_pos q
  have hep := zpow_two_pos e
  by_cases hqe : q ≤ e
  · have hs : sticky = false := by
      by_contra c; exact absurd (hq (by simpa using c)) (not_lt.2 hqe)
    have hx : x / 2 ^ q = ((m * 2 ^ (e - q).toNat : Nat) : ℝ) := by
      rw [Nat.cast_mul, zpow_two_toNat (by omega), hst.1 hs, zpow_sub₀ (by norm_num), mul_div_assoc]
    rw [hx, quanta, if_pos hqe, hs]
    exact ⟨Int.floor_natCast _, .inl ⟨rfl, Int.fract_natCast _⟩⟩
  · have hlt : e < q := not_le.1 hqe
    obtain ⟨k, hk⟩ : ∃ k : Nat, (q - e).toNat = k + 1 := ⟨(q - e).toNat - 1, by omega⟩
    have hqk : q = e + ((k + 1 : Nat) : Int) := by omega
    have hP : (2 : ℝ) ^ q = 2 ^ e * (2 * (2 ^ k : Nat)) := by
      rw [hqk, zpow_two_add, zpow_natCast, pow_succ']; push_cast; ring
    have hkp : (0 : ℝ) < 2 * (2 ^ k : Nat) := by positivity
    set δ : ℝ := x / 2 ^ e - m with hδ
    have h0 : 0 ≤ δ := by rw [hδ, sub_nonneg, le_div_iff₀ hep]; exact hlo
    have h1 : δ < 1 := by rw [hδ, sub_lt_iff_lt_add', div_lt_iff₀ hep]; exact hhi
    have hs : sticky = false ↔ δ = 0 := by rw [hst, hδ, sub_eq_zero, div_eq_iff hep.ne']
    have hm : (m : ℝ) = 2 * (2 ^ k : Nat) * (m / 2 ^ (k + 1) : Nat) + (m % 2 ^ (k + 1) : Nat) := by
      have := Nat.div_add_mod m (2 ^ (k + 1))
      rw [pow_succ'] at this ⊢
      exact_mod_cast this.symm
    have ht : x / 2 ^ q = (m / 2 ^ (k + 1) : Nat) + ((m % 2 ^ (k + 1) : Nat) + δ) / (2 * (2 ^ k : Nat)) := by
      have hx : x / 2 ^ e = m + δ := by rw [hδ]; ring
      rw [hP, ← div_div, hx, hm]
      field_simp
      ring
    have hr : ((m % 2 ^ (k + 1) : Nat) : ℝ) + 1 ≤ 2 * (2 ^ k : Nat) := by
      have := Nat.mod_lt m (show 0 < 2 ^ (k + 1) by positivity)
      rw [pow_succ'] at this ⊢
      exact_mod_cast this
    have hd0 : 0 ≤ (((m % 2 ^ (k + 1) : Nat) : ℝ) + δ) / (2 * (2 ^ k : Nat)) := by positivity
    have hd1 : (((m % 2 ^ (k + 1) : Nat) : ℝ) + δ) / (2 * (2 ^ k : Nat)) < 1 := by rw [div_lt_one hkp]; linarith
    obtain ⟨hfl, hfr⟩ := floor_fract_of_eq_add ht hd0 hd1
    have hquanta : quanta m e q sticky = (m / 2 ^ (k + 1),
        if m % 2 ^ (k + 1) < 2 ^ k then (if m % 2 ^ (k + 1) = 0 && !sticky then 0 else 1)
        else if m % 2 ^ (k + 1) = 2 ^ k && !sticky then 2 else 3) := by
      simp [quanta, hqe, hk]
    rw [hquanta]
    refine ⟨hfl, ?_⟩
    rw [hfr]
    exact restOf_units h0 h1 hs (by positivity)

/-- The mode takes the count of quanta up exactly where `roundsUp` says so (R58). -/
theorem roundCount_eq {t : ℝ} {n rest : Nat} (r : Rnd) (neg : Bool) (hn : ⌊t⌋ = (n : ℤ)) (hr : RestOf rest (Int.fract t)) :
    roundCount r neg t = ((if roundsUp r neg (n % 2 == 1) rest then n + 1 else n : Nat) : ℤ) := by
  have hceil : ⌈t⌉ = if rest = 0 then (n : ℤ) else n + 1 := by
    have hsplit : (n : ℝ) + Int.fract t = t := by
      have := Int.floor_add_fract t; rw [hn] at this; exact_mod_cast this
    split
    · next h0 => rw [Int.ceil_eq_iff, ← hsplit, hr.eq_zero_iff.1 h0]; push_cast; constructor <;> linarith
    · next h0 =>
      have hpos : 0 < Int.fract t := lt_of_le_of_ne (Int.fract_nonneg t) fun c => h0 (hr.eq_zero_iff.2 c.symm)
      have hlt := Int.fract_lt_one t
      rw [Int.ceil_eq_iff]; push_cast; constructor <;> linarith
  cases r with
  | rne =>
    have heven : Even ⌊t⌋ ↔ (n % 2 == 1) = false := by
      rw [hn, Int.even_coe_nat, Nat.even_iff]; simp
    simp only [roundCount, roundsUp, hn] at heven ⊢
    rcases hr with ⟨rfl, hf⟩ | ⟨rfl, h0, hf⟩ | ⟨rfl, hf⟩ | ⟨rfl, hf⟩
    · simp [hf]
    · rw [if_pos (.inl hf)]; simp
    · by_cases ho : n % 2 = 1
      · simp [hf, heven, ho]
      · simp [hf, heven, ho]
    · have : ¬ (Int.fract t < 1 / 2 ∨ (Int.fract t = 1 / 2 ∧ Even (n : ℤ))) := by
        rintro (c | ⟨c, -⟩) <;> linarith
      rw [if_neg this]; simp
  | rtz => simp [roundCount, roundsUp, hn]
  | rup => cases neg <;> simp [roundCount, roundsUp, hn, hceil]
  | rdn => cases neg <;> simp [roundCount, roundsUp, hn, hceil]

/-! ## The bits of a format (R49) -/

/-- The bits with a sign, an exponent field and a fraction field. -/
def fBits (F : Fmt) (neg : Bool) (ef fr : Nat) : Nat := (neg.toNat * 2 ^ F.eb + ef) * 2 ^ F.mb + fr

theorem fZero_eq (F : Fmt) (neg : Bool) : fZero F neg = fBits F neg 0 0 := by
  cases neg <;> simp [fZero, fBits, pow_add]

theorem fInf_eq (F : Fmt) (neg : Bool) : fInf F neg = fBits F neg (2 ^ F.eb - 1) 0 := by
  cases neg <;> simp [fInf, fBits, pow_add, add_mul]

theorem fMax_eq {F : Fmt} (hF : FmtOk F) (neg : Bool) : fMax F neg = fBits F neg (2 ^ F.eb - 2) (2 ^ F.mb - 1) := by
  have he : 2 ^ F.eb - 1 = (2 ^ F.eb - 2) + 1 := by rw [two_pow_eb hF]; omega
  have hm : 1 ≤ 2 ^ F.mb := Nat.one_le_two_pow
  have hs : (neg.toNat * 2 ^ F.eb + (2 ^ F.eb - 2) + 1) * 2 ^ F.mb =
      (neg.toNat * 2 ^ F.eb + (2 ^ F.eb - 2)) * 2 ^ F.mb + 2 ^ F.mb := by ring
  rw [fMax, fInf_eq, fBits, fBits, he, ← add_assoc, hs]
  omega

section
variable {F : Fmt} {ef fr : Nat} (he : ef < 2 ^ F.eb) (hf : fr < 2 ^ F.mb) (neg : Bool)
include he hf

theorem fBits_lt : fBits F neg ef fr < 2 ^ (1 + F.eb + F.mb) := by
  have h1 : neg.toNat ≤ 1 := Bool.toNat_le neg
  have h2 : neg.toNat * 2 ^ F.eb + ef + 1 ≤ 2 * 2 ^ F.eb := by nlinarith
  calc fBits F neg ef fr < (neg.toNat * 2 ^ F.eb + ef + 1) * 2 ^ F.mb := by unfold fBits; linarith
    _ ≤ 2 * 2 ^ F.eb * 2 ^ F.mb := Nat.mul_le_mul_right _ h2
    _ = 2 ^ (1 + F.eb + F.mb) := by rw [pow_add, pow_add]; ring

/-- The value that the fields encode (R49). -/
theorem numOf_fBits : numOf F (fBits F neg ef fr) =
    if ef = 2 ^ F.eb - 1 then (if fr = 0 then .inf neg else .nan (fr < 2 ^ (F.mb - 1)))
    else if ef = 0 then .fin neg fr (fQmin F) else .fin neg (2 ^ F.mb + fr) (fQmin F + ef - 1) := by
  have hhi : fBits F neg ef fr / 2 ^ F.mb = neg.toNat * 2 ^ F.eb + ef := by
    rw [fBits, Nat.mul_comm, Nat.mul_add_div (by positivity), Nat.div_eq_of_lt hf, add_zero]
  have hfr : fBits F neg ef fr % 2 ^ F.mb = fr := by
    rw [fBits, Nat.mul_comm, Nat.mul_add_mod, Nat.mod_eq_of_lt hf]
  have hef : fBits F neg ef fr / 2 ^ F.mb % 2 ^ F.eb = ef := by
    rw [hhi, Nat.mul_comm, Nat.mul_add_mod, Nat.mod_eq_of_lt he]
  have hsg : decide (fBits F neg ef fr / 2 ^ (F.eb + F.mb) % 2 = 1) = neg := by
    rw [pow_add, Nat.mul_comm, ← Nat.div_div_eq_div_mul, hhi, Nat.mul_comm, Nat.mul_add_div (by positivity), Nat.div_eq_of_lt he]
    cases neg <;> rfl
  unfold numOf
  simp only [hsg, hef, hfr]

end

/-- Bits of a format's width are its fields'. -/
theorem exists_fBits {F : Fmt} {x : Nat} (h : x < 2 ^ (1 + F.eb + F.mb)) :
    ∃ neg ef fr, ef < 2 ^ F.eb ∧ fr < 2 ^ F.mb ∧ x = fBits F neg ef fr := by
  refine ⟨decide (x / 2 ^ F.mb / 2 ^ F.eb = 1), x / 2 ^ F.mb % 2 ^ F.eb, x % 2 ^ F.mb, Nat.mod_lt _ (by positivity),
    Nat.mod_lt _ (by positivity), ?_⟩
  have hs : x / 2 ^ F.mb / 2 ^ F.eb < 2 := by
    rw [Nat.div_div_eq_div_mul, ← pow_add, Nat.div_lt_iff_lt_mul (by positivity), ← pow_succ']
    rwa [show F.mb + F.eb + 1 = 1 + F.eb + F.mb by omega]
  have hsg : (decide (x / 2 ^ F.mb / 2 ^ F.eb = 1)).toNat = x / 2 ^ F.mb / 2 ^ F.eb := by
    generalize x / 2 ^ F.mb / 2 ^ F.eb = s at hs
    interval_cases s <;> rfl
  rw [fBits, hsg, Nat.div_add_mod', Nat.div_add_mod']

/-! ## The exponent and the quantum of a value (R58) -/

theorem Approx.pos {m : Nat} {e : Int} {sticky : Bool} {x : ℝ} (h : Approx m e sticky x) (hm : m ≠ 0) : 0 < x :=
  lt_of_lt_of_le (mul_pos (by exact_mod_cast Nat.pos_of_ne_zero hm) (zpow_two_pos e)) h.1

theorem intLog_bounds {x : ℝ} (hx : 0 < x) : (2 : ℝ) ^ Int.log 2 x ≤ x ∧ x < 2 ^ (Int.log 2 x + 1) := by
  have h1 := (Int.zpow_le_iff_le_log (b := 2) one_lt_two hx).2 le_rfl
  have h2 := (Int.lt_zpow_iff_log_lt (b := 2) one_lt_two hx).2 (lt_add_one (Int.log 2 x))
  exact ⟨by exact_mod_cast h1, by exact_mod_cast h2⟩

/-- The exponent of a value is its significand's length above the significand's unit. -/
theorem intLog_of_approx {m : Nat} {e : Int} {sticky : Bool} {x : ℝ} (h : Approx m e sticky x) (hm : m ≠ 0) :
    Int.log 2 x = Nat.log2 m + e := by
  have hx := h.pos hm
  obtain ⟨hlo, hhi, -⟩ := h
  have hep := zpow_two_pos e
  apply le_antisymm
  · rw [← Int.lt_add_one_iff, ← Int.lt_zpow_iff_log_lt (b := 2) one_lt_two hx]
    have hm1 : (m : ℝ) + 1 ≤ (2 ^ (Nat.log2 m + 1) : Nat) := by exact_mod_cast Nat.lt_log2_self
    calc x < (m + 1) * 2 ^ e := hhi
      _ ≤ (2 ^ (Nat.log2 m + 1) : Nat) * 2 ^ e := mul_le_mul_of_nonneg_right hm1 hep.le
      _ = ((2 : Nat) : ℝ) ^ ((Nat.log2 m : Int) + e + 1) := by
        rw [two_pow_mul_zpow, Nat.cast_ofNat]; congr 1; push_cast; ring
  · rw [← Int.zpow_le_iff_le_log (b := 2) one_lt_two hx]
    have hm1 : ((2 ^ Nat.log2 m : Nat) : ℝ) ≤ m := by exact_mod_cast Nat.log2_self_le hm
    calc ((2 : Nat) : ℝ) ^ ((Nat.log2 m : Int) + e) = (2 ^ Nat.log2 m : Nat) * 2 ^ e := by
          rw [two_pow_mul_zpow, Nat.cast_ofNat]
      _ ≤ m * 2 ^ e := mul_le_mul_of_nonneg_right hm1 hep.le
      _ ≤ x := hlo

theorem quantumAt_of_approx {m : Nat} {e : Int} {sticky : Bool} {x : ℝ} (F : Fmt) (h : Approx m e sticky |x|) (hm : m ≠ 0) :
    quantumAt F x = 2 ^ quantum F m e := by
  rw [quantumAt, intLog_of_approx h hm, quantum]

/-! ## Counts of quanta that a format holds, but for its greatest exponent -/

structure Quantized (F : Fmt) (n : Nat) (q : Int) : Prop where
  le : n ≤ 2 ^ (F.mb + 1)
  qmin : fQmin F ≤ q
  normal : q = fQmin F ∨ 2 ^ F.mb ≤ n

theorem quantized_floor {F : Fmt} {m n : Nat} {e : Int} {sticky : Bool} {x : ℝ} (h : Approx m e sticky x) (hm : m ≠ 0)
    (hn : ⌊x / 2 ^ quantum F m e⌋ = (n : ℤ)) : n < 2 ^ (F.mb + 1) ∧ Quantized F n (quantum F m e) := by
  have hx := h.pos hm
  obtain ⟨hlo, hhi⟩ := intLog_bounds hx
  rw [intLog_of_approx h hm] at hlo hhi
  have hq := zpow_two_pos (quantum F m e)
  have hlt : n < 2 ^ (F.mb + 1) := by
    have hle : (n : ℝ) ≤ x / 2 ^ quantum F m e := by
      have := Int.floor_le (x / 2 ^ quantum F m e); rw [hn] at this; exact_mod_cast this
    have hup : x / 2 ^ quantum F m e < (2 ^ (F.mb + 1) : Nat) := by
      rw [div_lt_iff₀ hq, two_pow_mul_zpow]
      refine lt_of_lt_of_le hhi (zpow_two_le.2 ?_)
      unfold quantum; push_cast; omega
    exact_mod_cast lt_of_le_of_lt hle hup
  refine ⟨hlt, hlt.le, by unfold quantum fQmin; omega, ?_⟩
  by_cases hmin : quantum F m e = fQmin F
  · exact .inl hmin
  · right
    have hge : ((2 ^ F.mb : Nat) : ℝ) ≤ x / 2 ^ quantum F m e := by
      rw [le_div_iff₀ hq, two_pow_mul_zpow]
      refine le_trans (zpow_two_le.2 ?_) hlo
      unfold quantum fQmin at *; omega
    have : ((2 ^ F.mb : Nat) : ℤ) ≤ ⌊x / 2 ^ quantum F m e⌋ := Int.le_floor.2 (by exact_mod_cast hge)
    rw [hn] at this
    exact_mod_cast this

theorem Quantized.succ {F : Fmt} {n : Nat} {q : Int} (h : Quantized F n q) (hn : n < 2 ^ (F.mb + 1)) : Quantized F (n + 1) q :=
  ⟨hn, h.qmin, h.normal.imp id fun c => by omega⟩

theorem maxFinite_eq {F : Fmt} (hF : FmtOk F) : maxFinite F = (2 ^ (F.mb + 1) - 1 : Nat) * 2 ^ ((fBias F : Int) - F.mb) := by
  have hp := two_pow_eb hF
  have hb := one_le_fBias hF
  have hm : 1 ≤ 2 ^ F.mb := Nat.one_le_two_pow
  rw [maxFinite, fMax_eq hF, numOf_fBits (by omega) (by omega), if_neg (by omega), if_neg (by omega), realOf]
  have h1 : 2 ^ F.mb + (2 ^ F.mb - 1) = 2 ^ (F.mb + 1) - 1 := by rw [pow_succ]; omega
  have h2 : fQmin F + ((2 ^ F.eb - 2 : Nat) : Int) - 1 = (fBias F : Int) - F.mb := by
    rw [hp]; unfold fQmin fEmin; push_cast; omega
  rw [h1, h2]; simp

section
variable {F : Fmt} {n : Nat} {q : Int} (hF : FmtOk F) (h : Quantized F n q)

include hF h in
/-- The model's overflow test: the exponent leaves the format exactly where the value passes the greatest finite one. -/
theorem overflows_iff : (n ≠ 0 ∧ (Nat.log2 n : Int) + q > fBias F) ↔ maxFinite F < n * 2 ^ q := by
  have hbias : fQmin F ≤ (fBias F : Int) - F.mb := by unfold fQmin fEmin; have := one_le_fBias hF; omega
  have hm1 : 1 ≤ 2 ^ (F.mb + 1) := Nat.one_le_two_pow
  rw [maxFinite_eq hF]
  have key : ∀ {a b : Nat} {c : Int}, a ≤ b → c ≤ (fBias F : Int) - F.mb → (a : ℝ) * 2 ^ c ≤ b * 2 ^ ((fBias F : Int) - F.mb) :=
    fun hab hc => mul_le_mul (by exact_mod_cast hab) (zpow_two_le.2 hc) (zpow_two_pos _).le (Nat.cast_nonneg _)
  constructor
  · rintro ⟨hn, hlog⟩
    calc ((2 ^ (F.mb + 1) - 1 : Nat) : ℝ) * 2 ^ ((fBias F : Int) - F.mb)
        < (2 ^ (F.mb + 1) : Nat) * 2 ^ ((fBias F : Int) - F.mb) :=
          mul_lt_mul_of_pos_right (by exact_mod_cast Nat.sub_lt hm1 one_pos) (zpow_two_pos _)
      _ = 2 ^ ((fBias F : Int) + 1) := by
        rw [two_pow_mul_zpow]; congr 1; push_cast; ring
      _ ≤ 2 ^ ((Nat.log2 n : Int) + q) := zpow_two_le.2 (by omega)
      _ = (2 ^ Nat.log2 n : Nat) * 2 ^ q := by rw [two_pow_mul_zpow]
      _ ≤ n * 2 ^ q := mul_le_mul_of_nonneg_right (by exact_mod_cast Nat.log2_self_le hn) (zpow_two_pos _).le
  · intro hlt
    by_contra hc
    refine absurd hlt (not_lt.2 ?_)
    by_cases hn : n = 0
    · rw [hn, Nat.cast_zero, zero_mul]; exact mul_nonneg (Nat.cast_nonneg _) (zpow_two_pos _).le
    have hlog : (Nat.log2 n : Int) + q ≤ fBias F := not_lt.1 fun c => hc ⟨hn, c⟩
    have hmb : q = fQmin F ∨ F.mb ≤ Nat.log2 n := h.normal.imp id fun c => (Nat.le_log2 hn).2 c
    by_cases hfull : n < 2 ^ (F.mb + 1)
    · exact key (by omega) (by omega)
    · have hn2 : n = 2 ^ (F.mb + 1) := le_antisymm h.le (not_lt.1 hfull)
      rw [hn2, Nat.log2_two_pow] at hlog
      have h2 : 2 ≤ 2 ^ (F.mb + 1) := by rw [pow_succ]; have : 1 ≤ 2 ^ F.mb := Nat.one_le_two_pow; omega
      calc (n : ℝ) * 2 ^ q = (2 ^ F.mb : Nat) * 2 ^ (q + 1) := by
            rw [hn2, zpow_two_add, pow_succ]; push_cast; ring
        _ ≤ (2 ^ (F.mb + 1) - 1 : Nat) * 2 ^ ((fBias F : Int) - F.mb) := key (by rw [pow_succ] at h2 ⊢; omega) (by push_cast at hlog; omega)

include h in
theorem lt_two_pow_mb_iff : n < 2 ^ F.mb ↔ (n : ℝ) * 2 ^ q < minNormal F := by
  have hmin : minNormal F = (2 ^ F.mb : Nat) * 2 ^ fQmin F := by
    rw [minNormal, fQmin, two_pow_mul_zpow]; congr 1; ring
  rw [hmin]
  constructor
  · intro hn
    have hq : q = fQmin F := h.normal.resolve_right (not_le.2 hn)
    rw [hq]
    exact mul_lt_mul_of_pos_right (by exact_mod_cast hn) (zpow_two_pos _)
  · intro hlt
    by_contra hn
    exact absurd hlt (not_lt.2 (mul_le_mul (by exact_mod_cast not_lt.1 hn) (zpow_two_le.2 h.qmin) (zpow_two_pos _).le (Nat.cast_nonneg _)))

include h in
/-- The fields that `encodeAt` builds: a subnormal's, a normal number's, or a significand that has carried into the next exponent. -/
theorem encodeAt_eq (neg : Bool) : encodeAt F neg n q =
    if n < 2 ^ F.mb then fBits F neg 0 n
    else if n < 2 ^ (F.mb + 1) then fBits F neg ((q - fQmin F).toNat + 1) (n - 2 ^ F.mb)
    else fBits F neg ((q - fQmin F).toNat + 2) 0 := by
  have hle := h.le
  rw [encodeAt, fZero_eq]
  unfold fBits
  split
  · next hn =>
    have hq : q = fQmin F := h.normal.resolve_right (not_le.2 hn)
    simp [hq]
  · next hn =>
    split
    · simp only [add_mul, one_mul]; omega
    · next hfull =>
      have hn2 : n = 2 * 2 ^ F.mb := by rw [pow_succ'] at hle hfull; omega
      simp only [add_mul, hn2]; omega

include hF h in
theorem encodes_encodeAt (neg : Bool) (hle : (n : ℝ) * 2 ^ q ≤ maxFinite F) : Encodes F neg (n * 2 ^ q) (encodeAt F neg n q) := by
  have hp := two_pow_eb hF
  have hb := one_le_fBias hF
  have hmb : 1 ≤ 2 ^ F.mb := Nat.one_le_two_pow
  have hno : n ≠ 0 → (Nat.log2 n : Int) + q ≤ fBias F := fun hn => not_lt.1 fun c =>
    absurd hle (not_le.2 ((overflows_iff hF h).1 ⟨hn, c⟩))
  obtain ⟨j, hj⟩ : ∃ j : Nat, q = fQmin F + j := ⟨(q - fQmin F).toNat, by have := h.qmin; omega⟩
  have hjn : (q - fQmin F).toNat = j := by omega
  have hqmin : fQmin F = 1 - (fBias F : Int) - F.mb := rfl
  have encodes : ∀ {ef fr m : Nat} {c : Int}, ef < 2 ^ F.eb - 1 → fr < 2 ^ F.mb →
      numOf F (fBits F neg ef fr) = .fin neg m c → (m : ℝ) * 2 ^ c = n * 2 ^ q → Encodes F neg (n * 2 ^ q) (fBits F neg ef fr) := by
    intro ef fr m c he hf hv hr
    refine ⟨fBits_lt (by omega) hf neg, by rw [hv]; rfl, by rw [hv]; rfl, ?_⟩
    rw [hv, realOf, hr]
    cases neg <;> simp
  rw [encodeAt_eq h, hjn]
  split
  · next hn =>
    have hq : q = fQmin F := h.normal.resolve_right (not_le.2 hn)
    refine encodes (by omega) hn ?_ (by rw [hq])
    rw [numOf_fBits (by omega) hn, if_neg (by omega), if_pos rfl]
  · next hn =>
    have hn0 : n ≠ 0 := by omega
    have hlog := hno hn0
    split
    · next hfull =>
      have hlm : F.mb ≤ Nat.log2 n := (Nat.le_log2 hn0).2 (not_lt.1 hn)
      have hfr : n - 2 ^ F.mb < 2 ^ F.mb := by rw [pow_succ] at hfull; omega
      refine encodes (by omega) hfr (by rw [numOf_fBits (by omega) hfr, if_neg (by omega), if_neg (by omega)]) ?_
      rw [show 2 ^ F.mb + (n - 2 ^ F.mb) = n by omega, hj]; congr 2; push_cast; ring
    · next hfull =>
      have hn2 : n = 2 ^ (F.mb + 1) := le_antisymm h.le (not_lt.1 hfull)
      rw [hn2, Nat.log2_two_pow] at hlog
      push_cast at hlog
      refine encodes (by omega) (by omega) (by rw [numOf_fBits (by omega) (by omega), if_neg (by omega), if_neg (by omega)]) ?_
      rw [hn2, hj, show fQmin F + ((j + 2 : Nat) : Int) - 1 = fQmin F + j + 1 by push_cast; ring, zpow_two_add _ 1, pow_succ]
      push_cast; ring

end

/-! ## `Round` and `RoundToOdd` of a magnitude (R58, R59) -/

/-- The count of quanta that a rounding comes to. -/
def roundedCount (r : Rnd) (neg : Bool) (p : Nat × Nat) : Nat := if roundsUp r neg (p.1 % 2 == 1) p.2 then p.1 + 1 else p.1

/-- `roundMag` by the count that it comes to: past the format, flushed, or encoded. -/
theorem roundMag_eq (F : Fmt) (r : Rnd) (ftz neg : Bool) (m : Nat) (e : Int) (sticky : Bool) {q : Int} {p : Nat × Nat} {y : Nat}
    (hq : quantum F m e = q) (hp : quanta m e q sticky = p) (hy : roundedCount r neg p = y) :
    roundMag F r ftz neg m e sticky =
      if y ≠ 0 ∧ (Nat.log2 y : Int) + q > fBias F then (overflowTo F r neg, flOF ||| flNX)
      else if ftz && decide (y < 2 ^ F.mb) && y != 0 then
        (fZero F neg, (if p.2 = 0 then 0 else if y < 2 ^ F.mb then flNX ||| flUF else flNX) ||| flUF ||| flNX)
      else (encodeAt F neg y q, if p.2 = 0 then 0 else if y < 2 ^ F.mb then flNX ||| flUF else flNX) := by
  subst hq hp hy
  simp only [roundMag, roundedCount, decide_eq_true_eq]
  rfl

section
variable {F : Fmt} (hF : FmtOk F) {m : Nat} {e : Int} {sticky : Bool} {x : ℝ} (h : Approx m e sticky |x|) (hm : m ≠ 0)
  (hq : sticky = true → e < quantum F m e)
include h hm hq

theorem quantized_roundedCount (r : Rnd) (neg : Bool) :
    Quantized F (roundedCount r neg (quanta m e (quantum F m e) sticky)) (quantum F m e) := by
  obtain ⟨hlt, hn⟩ := quantized_floor h hm (quanta_spec h hq).1
  unfold roundedCount
  split
  · exact hn.succ hlt
  · exact hn

/-- The value that the rounding comes to, and that it is exact where no rest is left. -/
theorem roundedCount_value (r : Rnd) (neg : Bool) :
    (roundCount r neg (|x| / quantumAt F x) : ℝ) * quantumAt F x =
        roundedCount r neg (quanta m e (quantum F m e) sticky) * 2 ^ quantum F m e ∧
      ((roundedCount r neg (quanta m e (quantum F m e) sticky) : ℝ) * 2 ^ quantum F m e = |x| ↔
        (quanta m e (quantum F m e) sticky).2 = 0) := by
  obtain ⟨hfl, hrest⟩ := quanta_spec h hq
  have hqp := zpow_two_pos (quantum F m e)
  rw [quantumAt_of_approx F h hm, roundCount_eq r neg hfl hrest]
  refine ⟨by simp [roundedCount], ?_⟩
  rw [← eq_div_iff hqp.ne', hrest.eq_zero_iff]
  constructor
  · intro heq; rw [← heq]; exact Int.fract_natCast _
  · intro hf
    have h0 := hrest.eq_zero_iff.2 hf
    have hval : |x| / 2 ^ quantum F m e = ((quanta m e (quantum F m e) sticky).1 : ℝ) := by
      have := Int.floor_add_fract (|x| / 2 ^ quantum F m e)
      rw [hfl, hf, add_zero] at this
      exact_mod_cast this.symm
    rw [hval, roundedCount, h0]
    cases r <;> simp [roundsUp]

include hF in
/-- `roundMag` is the one rounding of the real number that its significand, exponent and sticky bit stand for (R58). -/
theorem roundsTo_roundMag {neg : Bool} (hneg : neg = true ↔ x < 0) (r : Rnd) (ftz : Bool) :
    RoundsTo F r ftz x (roundMag F r ftz neg m e sticky) := by
  intro neg' y hneg' hy
  obtain rfl : neg' = neg := Bool.eq_iff_iff.2 (hneg'.trans hneg.symm)
  obtain ⟨hval, hexact⟩ := roundedCount_value h hm hq r neg'
  have hQ := quantized_roundedCount h hm hq r neg'
  rw [roundMag_eq F r ftz neg' m e sticky rfl rfl rfl]
  rw [hval] at hy
  subst hy
  generalize quanta m e (quantum F m e) sticky = p at *
  generalize roundedCount r neg' p = n at *
  generalize quantum F m e = q at *
  have hover := overflows_iff hF hQ
  have htiny := lt_two_pow_mb_iff hQ
  have hnz : (n : ℝ) * 2 ^ q ≠ 0 ↔ n ≠ 0 := by
    rw [mul_ne_zero_iff, Nat.cast_ne_zero]; exact and_iff_left (zpow_two_pos q).ne'
  refine ⟨fun hmax => ?_, fun hmax hftz h0 hlt => ?_, fun hmax hkeep => ?_⟩
  · rw [if_pos (hover.2 hmax)]
    refine ⟨rfl, ?_, ?_, ?_, ?_⟩ <;> rintro rfl <;> rfl
  · rw [if_neg fun c => absurd hmax (not_le.2 (hover.1 c)), if_pos (by simp [hftz, htiny.2 hlt, hnz.1 h0])]
    have hflags : (if p.2 = 0 then (0 : Flags) else if n < 2 ^ F.mb then flNX ||| flUF else flNX) ||| flUF ||| flNX = flUF ||| flNX := by
      split
      · rfl
      · rw [if_pos (htiny.2 hlt)]; rfl
    rw [hflags]
  · rw [if_neg fun c => absurd hmax (not_le.2 (hover.1 c)), if_neg ?_]
    · refine ⟨encodes_encodeAt hF hQ neg' hmax, fun hx => ?_, fun hx hlt => ?_, fun hx hge => ?_⟩
      · exact if_pos (hexact.1 hx)
      · simp only [if_neg fun c => hx (hexact.2 c), if_pos (htiny.2 hlt)]; rfl
      · simp only [if_neg fun c => hx (hexact.2 c), if_neg fun c => not_lt.2 hge (htiny.1 c)]
    · simp only [Bool.and_eq_true, decide_eq_true_eq, bne_iff_ne]
      rintro ⟨⟨hftz, ht⟩, hn⟩
      exact absurd (htiny.1 ht) (not_lt.2 (hkeep hftz (hnz.2 hn)))

end

theorem RestOf.floor_exact {t : ℝ} {n rest : Nat} (hn : ⌊t⌋ = (n : ℤ)) (hr : RestOf rest (Int.fract t)) : rest = 0 ↔ (n : ℝ) = t := by
  have := Int.floor_add_fract t
  rw [hn, Int.cast_natCast] at this
  rw [hr.eq_zero_iff]
  constructor <;> intro h <;> linarith

/-- The greatest finite value is the only one whose next count of quanta passes it. -/
theorem greatest_of_succ_overflows {F : Fmt} (hF : FmtOk F) {n : Nat} {q : Int} (h : Quantized F n q) (hlt : n < 2 ^ (F.mb + 1))
    (hle : (n : ℝ) * 2 ^ q ≤ maxFinite F) (hover : maxFinite F < ((n + 1 : Nat) : ℝ) * 2 ^ q) :
    n = 2 ^ (F.mb + 1) - 1 ∧ q = (fBias F : Int) - F.mb := by
  obtain ⟨-, hup⟩ := (overflows_iff hF (h.succ hlt)).2 hover
  have hno : n ≠ 0 → (Nat.log2 n : Int) + q ≤ fBias F := fun hn => not_lt.1 fun c =>
    absurd hle (not_le.2 ((overflows_iff hF h).1 ⟨hn, c⟩))
  have hlogle : Nat.log2 (n + 1) < F.mb + 2 := (Nat.log2_lt (by omega)).2 (by rw [pow_succ]; omega)
  have hbias : fQmin F + F.mb + 1 ≤ (fBias F : Int) + 1 := by unfold fQmin fEmin; have := one_le_fBias hF; omega
  have hmb : 1 ≤ 2 ^ F.mb := Nat.one_le_two_pow
  have hnormal : 2 ^ F.mb ≤ n := by
    refine h.normal.resolve_left fun hq => ?_
    by_cases hfull : n < 2 ^ F.mb
    · have := (Nat.log2_lt (show n + 1 ≠ 0 by omega)).2 (show n + 1 < 2 ^ (F.mb + 1) by rw [pow_succ]; omega)
      omega
    · have hn : n ≠ 0 := by omega
      have := one_le_fBias hF
      unfold fQmin fEmin at hq
      omega
  have hn : n ≠ 0 := by omega
  have hlog : F.mb ≤ Nat.log2 n := (Nat.le_log2 hn).2 hnormal
  have hq := hno hn
  have hfull : ¬ n + 1 < 2 ^ (F.mb + 1) := fun c => by
    have := (Nat.log2_lt (show n + 1 ≠ 0 by omega)).2 c
    omega
  omega

theorem encodeAt_greatest {F : Fmt} (hF : FmtOk F) (neg : Bool) (h : Quantized F (2 ^ (F.mb + 1) - 1) ((fBias F : Int) - F.mb)) :
    encodeAt F neg (2 ^ (F.mb + 1) - 1) ((fBias F : Int) - F.mb) = fMax F neg := by
  have hmb : 1 ≤ 2 ^ F.mb := Nat.one_le_two_pow
  have hp := two_pow_eb hF
  have hb := one_le_fBias hF
  have hfield : ((fBias F : Int) - F.mb - fQmin F).toNat + 1 = 2 ^ F.eb - 2 := by rw [hp]; unfold fQmin fEmin; omega
  rw [encodeAt_eq h, if_neg (by rw [pow_succ]; omega), if_pos (by rw [pow_succ]; omega), fMax_eq hF, hfield]
  congr 1
  rw [pow_succ]; omega

/-- `nRoundOdd` is the rounding to odd of the real number that a finite value is (R59). -/
theorem roundsToOdd_nRoundOdd {F : Fmt} (hF : FmtOk F) {neg : Bool} {m : Nat} {e : Int} {x : ℝ} (hx : |x| = m * 2 ^ e) (hm : m ≠ 0)
    (hneg : neg = true ↔ x < 0) : RoundsToOdd F x (nRoundOdd F (.fin neg m e)) := by
  have h : Approx m e false |x| := hx ▸ approx_exact m e
  intro neg' k hneg' hk
  obtain rfl : neg' = neg := Bool.eq_iff_iff.2 (hneg'.trans hneg.symm)
  obtain ⟨hfl, hrest⟩ := quanta_spec (q := quantum F m e) h (by simp)
  obtain ⟨hlt, hQ⟩ := quantized_floor h hm hfl
  have hexact := hrest.floor_exact hfl
  rw [quantumAt_of_approx F h hm] at hk ⊢
  rw [hfl] at hk
  subst hk
  have hqp := zpow_two_pos (quantum F m e)
  have hle : ((quanta m e (quantum F m e) false).1 : ℝ) * 2 ^ quantum F m e ≤ |x| := by
    rw [← le_div_iff₀ hqp]; have := Int.floor_le (|x| / 2 ^ quantum F m e); rw [hfl] at this; exact_mod_cast this
  have hhi : |x| < ((quanta m e (quantum F m e) false).1 + 1 : ℝ) * 2 ^ quantum F m e := by
    rw [← div_lt_iff₀ hqp]; have := Int.lt_floor_add_one (|x| / 2 ^ quantum F m e); rw [hfl] at this; exact_mod_cast this
  rw [eq_div_iff hqp.ne'] at hexact
  simp only [nRoundOdd, if_neg hm]
  generalize quanta m e (quantum F m e) false = p at *
  generalize quantum F m e = q at *
  have hover : (Nat.log2 p.1 : Int) + q > fBias F ↔ maxFinite F < p.1 * 2 ^ q := by
    rw [← overflows_iff hF hQ, iff_and_self]
    intro hlog h0
    have hmb : 1 ≤ 2 ^ F.mb := Nat.one_le_two_pow
    have hq : q = fQmin F := hQ.normal.resolve_right (by omega)
    rw [h0, hq, Nat.log2_zero] at hlog
    have := one_le_fBias hF
    unfold fQmin fEmin at hlog
    omega
  constructor
  · intro hmax
    by_cases hp : maxFinite F < p.1 * 2 ^ q
    · rw [if_pos (hover.2 hp)]
    · obtain ⟨hn, hqe⟩ := greatest_of_succ_overflows hF hQ hlt (not_lt.1 hp) (hmax.trans (by exact_mod_cast hhi))
      have hodd : ¬ p.1 % 2 = 0 := by have : 1 ≤ 2 ^ F.mb := Nat.one_le_two_pow; rw [hn, pow_succ]; omega
      rw [if_neg fun c => hp (hover.1 c), if_neg (by simp [hodd]), hn, hqe]
      exact encodeAt_greatest hF neg' (hn ▸ hqe ▸ hQ)
  · intro hmax
    rw [if_neg fun c => absurd (hle.trans hmax) (not_le.2 (hover.1 c))]
    by_cases hkeep : (p.1 : ℝ) * 2 ^ q = |x| ∨ p.1 % 2 = 1
    · have hmodel : ¬ (p.2 ≠ 0 && p.1 % 2 == 0) = true := by
        rcases hkeep with he | ho
        · simp [hexact.2 he]
        · simp [ho]
      have hspec : ((p.1 : ℤ) : ℝ) * 2 ^ q = |x| ∨ (p.1 : ℤ) % 2 = 1 := hkeep.imp (by simp) (by omega)
      rw [if_neg hmodel, if_pos hspec]
      exact encodes_encodeAt hF hQ neg' (hle.trans hmax)
    · obtain ⟨hne, heven⟩ := not_or.1 hkeep
      have hmodel : (p.2 ≠ 0 && p.1 % 2 == 0) = true := by
        simp only [ne_eq, Bool.and_eq_true, decide_eq_true_eq, beq_iff_eq]
        exact ⟨fun c => hne (hexact.1 c), by omega⟩
      have hspec : ¬ (((p.1 : ℤ) : ℝ) * 2 ^ q = |x| ∨ (p.1 : ℤ) % 2 = 1) := fun c => hkeep (c.imp (by simp) (by omega))
      rw [if_pos hmodel, if_neg hspec]
      have hin : ((p.1 + 1 : Nat) : ℝ) * 2 ^ q ≤ maxFinite F := by
        by_contra c
        have hn := (greatest_of_succ_overflows hF hQ hlt (hle.trans hmax) (not_le.1 c)).1
        have : 1 ≤ 2 ^ F.mb := Nat.one_le_two_pow
        rw [pow_succ] at hn
        omega
      exact_mod_cast encodes_encodeAt hF (hQ.succ hlt) neg' hin

end Sys2Proof.Machine
end

section
/-! PROOFS. Finite elements as real numbers, and the operations on one element (R51, R58, R62, R105, R107): exact values rounded once,
NaNs, invalid combinations, and what a format holds given back. -/

namespace Sys2Proof.Machine

/-! ## Finite values as real numbers -/

theorem isFin_iff {v : Num} : isFin v = true ↔ ∃ n m e, v = .fin n m e := by
  cases v with
  | nan s => simp [isFin]
  | inf n => simp [isFin]
  | fin n m e => simp [isFin]

theorem realOf_fin_eq_zero {n : Bool} {m : Nat} {e : Int} : realOf (.fin n m e) = 0 ↔ m = 0 := by
  have := (zpow_two_pos e).ne'
  cases n <;> simp [realOf, this]

theorem abs_realOf_fin (n : Bool) (m : Nat) (e : Int) : |realOf (.fin n m e)| = m * 2 ^ e := by
  have h : (0 : ℝ) ≤ m * 2 ^ e := mul_nonneg (Nat.cast_nonneg m) (zpow_two_pos e).le
  cases n <;> simp [realOf, abs_of_nonneg h]

theorem realOf_fin_neg_iff {n : Bool} {m : Nat} {e : Int} (hm : m ≠ 0) : n = true ↔ realOf (.fin n m e) < 0 := by
  have h : (0 : ℝ) < m * 2 ^ e := mul_pos (by exact_mod_cast Nat.pos_of_ne_zero hm) (zpow_two_pos e)
  cases n
  · simpa [realOf] using h.le
  · simpa [realOf] using h

theorem isZero_iff_realOf {x : Num} (h : isFin x = true) : isZero x = true ↔ realOf x = 0 := by
  cases x with
  | nan s => cases h
  | inf n => cases h
  | fin n m e => rw [realOf_fin_eq_zero]; simp [isZero]

theorem realOf_nNeg (x : Num) : realOf (nNeg x) = -realOf x := by
  cases x with
  | nan s => simp [nNeg, realOf]
  | inf n => simp [nNeg, realOf]
  | fin n m e => cases n <;> simp [nNeg, realOf]

theorem isFin_nNeg {x : Num} (h : isFin x = true) : isFin (nNeg x) = true := by
  cases x with
  | nan s => cases h
  | inf n => cases h
  | fin n m e => rfl

/-- The product of finite values is finite and exact, with the sign of its factors. -/
theorem nProd_finite {x y : Num} (hx : isFin x = true) (hy : isFin y = true) :
    isFin (nProd x y) = true ∧ nSign (nProd x y) = (nSign x != nSign y) ∧ realOf (nProd x y) = realOf x * realOf y := by
  obtain ⟨n, m, e, rfl⟩  := isFin_iff.1 hx
  obtain ⟨k, p, f, rfl⟩  := isFin_iff.1 hy
  refine ⟨rfl, rfl, ?_⟩
  simp only [nProd, realOf, zpow_two_add]
  cases n <;> cases k <;> simp <;> ring

/-! ## `Round` and `RoundToOdd` of a finite value -/

/-- The rounding of a finite nonzero value is the one rounding of its real number (R58). -/
theorem roundsTo_nRound {F : Fmt} (hF : FmtOk F) (r : Rnd) (ftz : Bool) {v : Num} (hv : isFin v = true) (h0 : realOf v ≠ 0) :
    RoundsTo F r ftz (realOf v) (nRound F r ftz v) := by
  obtain ⟨n, m, e, rfl⟩  := isFin_iff.1 hv
  have hm : m ≠ 0 := fun c => h0 (realOf_fin_eq_zero.2 c)
  rw [nRound, if_neg hm]
  exact roundsTo_roundMag hF (abs_realOf_fin n m e ▸ approx_exact m e) hm (by simp) (realOf_fin_neg_iff hm) r ftz

theorem roundsToOdd_of_fin {F : Fmt} (hF : FmtOk F) {v : Num} (hv : isFin v = true) (h0 : realOf v ≠ 0) :
    RoundsToOdd F (realOf v) (nRoundOdd F v) := by
  obtain ⟨n, m, e, rfl⟩  := isFin_iff.1 hv
  have hm : m ≠ 0 := fun c => h0 (realOf_fin_eq_zero.2 c)
  exact roundsToOdd_nRoundOdd hF (abs_realOf_fin n m e) hm (realOf_fin_neg_iff hm)

theorem nRound_zero (F : Fmt) (r : Rnd) (ftz : Bool) {v : Num} (hv : isFin v = true) (h0 : realOf v = 0) :
    nRound F r ftz v = (fZero F (nSign v), 0) ∧ nRoundOdd F v = fZero F (nSign v) := by
  obtain ⟨n, m, e, rfl⟩  := isFin_iff.1 hv
  simp [nRound, nRoundOdd, realOf_fin_eq_zero.1 h0, nSign]

/-! ## `Align`: the exact sum (R58) -/

theorem minExp_le (e : Int) (ts : List Num) : minExp e ts ≤ e ∧ ∀ n m f, Num.fin n m f ∈ ts → minExp e ts ≤ f := by
  induction ts generalizing e with
  | nil => exact ⟨le_rfl, by simp⟩
  | cons t ts ih =>
    cases t with
    | nan s => exact ⟨(ih e).1, fun n m f hf => (ih e).2 n m f (by simpa using hf)⟩
    | inf s => exact ⟨(ih e).1, fun n m f hf => (ih e).2 n m f (by simpa using hf)⟩
    | fin n m f =>
      obtain ⟨h1, h2⟩ := ih (if f < e then f else e)
      have hmin : (if f < e then f else e) ≤ e ∧ (if f < e then f else e) ≤ f := by split <;> omega
      refine ⟨h1.trans hmin.1, fun n' m' f' hf => ?_⟩
      rcases List.mem_cons.1 hf with heq | hf
      · cases heq; exact h1.trans hmin.2
      · exact h2 n' m' f' hf

/-- Units of 2^e below every term's exponent count the sum exactly. -/
theorem sumAt_real (e : Int) (ts : List Num) (h : ∀ n m f, Num.fin n m f ∈ ts → e ≤ f) :
    (sumAt e ts : ℝ) * 2 ^ e = (ts.map realOf).sum := by
  induction ts with
  | nil => simp [sumAt]
  | cons t ts ih =>
    have ih := ih fun n m f hf => h n m f (List.mem_cons_of_mem _ hf)
    cases t with
    | nan s => simpa [sumAt, realOf] using ih
    | inf s => simpa [sumAt, realOf] using ih
    | fin n m f =>
      have hf : e ≤ f := h n m f (List.mem_cons_self ..)
      have hterm : ((m * 2 ^ (f - e).toNat : Nat) : ℝ) * 2 ^ e = m * 2 ^ f := by
        rw [Nat.cast_mul, mul_assoc, two_pow_mul_zpow]; congr 2; omega
      rw [List.map_cons, List.sum_cons, ← ih, sumAt, realOf, ← hterm]
      cases n <;> simp <;> ring

theorem sum_nonzero_terms (ts : List Num) (h : ∀ t ∈ ts, isFin t = true) :
    ((ts.filter (!isZero ·)).map realOf).sum = (ts.map realOf).sum := by
  induction ts with
  | nil => rfl
  | cons t ts ih =>
    have ih := ih fun u hu => h u (List.mem_cons_of_mem _ hu)
    by_cases hz : isZero t = true
    · simp [hz, ih, (isZero_iff_realOf (h t (List.mem_cons_self ..))).1 hz]
    · simp [hz, ih]

/-- Among finite terms there is no NaN and no infinity. -/
theorem finite_terms {ts : List Num} (h : ∀ t ∈ ts, isFin t = true) :
    ts.any isNan = false ∧ (∀ n, ts.contains (.inf n) = false) ∧ sumInvalid ts = false ∧ snv ts = 0 := by
  have hno : ∀ (q : Num → Bool), (∀ n m e, q (.fin n m e) = false) → ts.any q = false := fun q hq =>
    List.any_eq_false.2 fun t ht => by obtain ⟨n, m, e, rfl⟩ := isFin_iff.1 (h t ht); simp [hq]
  have hinf : ∀ n, ts.contains (.inf n) = false := fun n => by
    rw [List.contains_eq_any_beq]
    exact hno _ fun k m e => rfl
  refine ⟨hno _ fun n m e => rfl, hinf, ?_, ?_⟩
  · rw [sumInvalid, hinf, hinf]; rfl
  · rw [snv, hno _ fun n m e => rfl]; rfl

/-- The exact sum of finite terms (R58): its real number, and the sign where it is zero. -/
theorem nAlign_finite (r : Rnd) {ts : List Num} (h : ∀ t ∈ ts, isFin t = true) :
    isFin (nAlign r ts) = true ∧ realOf (nAlign r ts) = (ts.map realOf).sum ∧
      ((ts.map realOf).sum = 0 → nSign (nAlign r ts) = zeroNeg r ts) := by
  obtain ⟨hnan, hinf, hinv, -⟩ := finite_terms h
  obtain ⟨e, x, hsum, hal⟩ : ∃ (e x : Int), (x : ℝ) * 2 ^ e = (ts.map realOf).sum ∧
      nAlign r ts = if x = 0 then .fin (zeroNeg r ts) 0 0 else .fin (x < 0) x.natAbs e := by
    obtain ⟨e, he⟩ : ∃ e, nAlign r ts = if sumAt (minExp e (ts.filter (!isZero ·))) (ts.filter (!isZero ·)) = 0
        then .fin (zeroNeg r ts) 0 0 else .fin (sumAt (minExp e (ts.filter (!isZero ·))) (ts.filter (!isZero ·)) < 0)
          (sumAt (minExp e (ts.filter (!isZero ·))) (ts.filter (!isZero ·))).natAbs (minExp e (ts.filter (!isZero ·))) := by
      unfold nAlign
      simp only [hnan, hinf, hinv, Bool.or_self, Bool.false_eq_true, if_false]
      exact ⟨_, rfl⟩
    exact ⟨_, _, (sumAt_real _ _ (minExp_le e _).2).trans (sum_nonzero_terms ts h), he⟩
  rw [hal, ← hsum]
  have hep := (zpow_two_pos e).ne'
  by_cases hx : x = 0
  · simp [hx, isFin, realOf, nSign]
  · have hxr : (x : ℝ) ≠ 0 := by exact_mod_cast hx
    rw [if_neg hx]
    refine ⟨rfl, ?_, fun h0 => absurd h0 (mul_ne_zero hxr hep)⟩
    rw [realOf, ← mul_assoc, Nat.cast_natAbs, Int.cast_abs]
    congr 1
    rcases lt_or_gt_of_ne hx with hlt | hgt
    · have : (x : ℝ) < 0 := by exact_mod_cast hlt
      simp [hlt, abs_of_neg this]
    · have : (0 : ℝ) < x := by exact_mod_cast hgt
      simp [not_lt.2 hgt.le, abs_of_pos this]

/-- The exact sum of finite terms is rounded once, or rounded to odd; an exact zero has the sign of R58. -/
theorem round_sum {F : Fmt} (hF : FmtOk F) (r : Rnd) (ftz : Bool) {ts : List Num} {x : ℝ} (h : ∀ t ∈ ts, isFin t = true)
    (hx : x = (ts.map realOf).sum) :
    (x ≠ 0 → RoundsTo F r ftz x (nRound F r ftz (nAlign r ts)) ∧ RoundsToOdd F x (nRoundOdd F (nAlign r ts))) ∧
    (x = 0 → nRound F r ftz (nAlign r ts) = (fZero F (zeroNeg r ts), 0) ∧ nRoundOdd F (nAlign r ts) = fZero F (zeroNeg r ts)) := by
  obtain ⟨hfin, hreal, hsign⟩ := nAlign_finite r h
  rw [hx, ← hreal]
  refine ⟨fun h0 => ⟨roundsTo_nRound hF r ftz hfin h0, roundsToOdd_of_fin hF hfin h0⟩, fun h0 => ?_⟩
  rw [← hsign (hreal ▸ h0)]
  exact nRound_zero F r ftz hfin h0

/-! ## Quotients and roots: a truncated significand with a sticky bit (R105, R107) -/

theorem approx_of_unit {m : Nat} {e : Int} {sticky : Bool} {u : ℝ} (hlo : (m : ℝ) ≤ u) (hhi : u < m + 1)
    (hst : sticky = false ↔ u = m) : Approx m e sticky (u * 2 ^ e) := by
  have hep := zpow_two_pos e
  exact ⟨mul_le_mul_of_nonneg_right hlo hep.le, mul_lt_mul_of_pos_right hhi hep, by rw [hst, mul_left_inj' hep.ne']⟩

/-- A significand of two bits more than the format's lies below its quantum. -/
theorem lt_quantum {F : Fmt} {m : Nat} (e : Int) (h : F.mb + 1 ≤ Nat.log2 m) : e < quantum F m e := by
  unfold quantum; omega

section
variable {k a b : Nat} (ha : a ≠ 0) (hb : b ≠ 0)
include ha hb

theorem divBits_length (hk : 1 ≤ k) : (divBits k a b).1 ≠ 0 ∧ k - 1 ≤ Nat.log2 (divBits k a b).1 := by
  have hpow : 2 ^ (k - 1) ≤ a * 2 ^ (k + Nat.log2 b - Nat.log2 a) / b := by
    rw [Nat.le_div_iff_mul_le (Nat.pos_of_ne_zero hb)]
    calc 2 ^ (k - 1) * b ≤ 2 ^ (k - 1) * 2 ^ (Nat.log2 b + 1) := Nat.mul_le_mul_left _ Nat.lt_log2_self.le
      _ = 2 ^ (k + Nat.log2 b) := by rw [← pow_add]; congr 1; omega
      _ ≤ 2 ^ (Nat.log2 a + (k + Nat.log2 b - Nat.log2 a)) := Nat.pow_le_pow_right two_pos (by omega)
      _ = 2 ^ Nat.log2 a * 2 ^ (k + Nat.log2 b - Nat.log2 a) := pow_add ..
      _ ≤ a * 2 ^ (k + Nat.log2 b - Nat.log2 a) := Nat.mul_le_mul_right _ (Nat.log2_self_le ha)
  have h0 : (divBits k a b).1 ≠ 0 := (lt_of_lt_of_le (by positivity : 0 < 2 ^ (k - 1)) hpow).ne'
  exact ⟨h0, (Nat.le_log2 h0).2 hpow⟩

theorem divBits_approx (ea eb : Int) : Approx (divBits k a b).1 (ea - eb + (divBits k a b).2.1) (divBits k a b).2.2
    (a * 2 ^ ea / (b * 2 ^ eb)) := by
  have hbp : (0 : ℝ) < b := by exact_mod_cast Nat.pos_of_ne_zero hb
  simp only [divBits]
  set s := k + Nat.log2 b - Nat.log2 a
  have hval : (a : ℝ) * 2 ^ ea / (b * 2 ^ eb) = ((a * 2 ^ s : Nat) : ℝ) / b * 2 ^ (ea - eb + -(s : Int)) := by
    rw [zpow_two_add, zpow_sub₀ (by norm_num), zpow_neg, zpow_natCast]
    push_cast; field_simp
  have hdiv : ((a * 2 ^ s : Nat) : ℝ) = b * (a * 2 ^ s / b : Nat) + (a * 2 ^ s % b : Nat) := by
    exact_mod_cast (Nat.div_add_mod _ _).symm
  have hmod : ((a * 2 ^ s % b : Nat) : ℝ) < b := by exact_mod_cast Nat.mod_lt _ (Nat.pos_of_ne_zero hb)
  have hmod0 : (0 : ℝ) ≤ (a * 2 ^ s % b : Nat) := Nat.cast_nonneg _
  rw [hval]
  refine approx_of_unit ?_ ?_ ?_
  · rw [le_div_iff₀ hbp, hdiv]; linarith
  · rw [div_lt_iff₀ hbp, hdiv]; linarith
  · rw [div_eq_iff hbp.ne', hdiv]
    have : a * 2 ^ s % b = 0 ↔ ((a * 2 ^ s % b : Nat) : ℝ) = 0 := Nat.cast_eq_zero.symm
    rw [bne_eq_false_iff_eq, this]
    constructor <;> intro h <;> linarith

end

theorem sqrtBits_spec (n i r : Nat) (hlo : r * r ≤ n) (hhi : n < (r + 2 ^ i) * (r + 2 ^ i)) :
    sqrtBits n i r * sqrtBits n i r ≤ n ∧ n < (sqrtBits n i r + 1) * (sqrtBits n i r + 1) := by
  induction i generalizing r with
  | zero => exact ⟨hlo, hhi⟩
  | succ i ih =>
    rw [sqrtBits]
    split
    · next hle => exact ih _ hle (by rwa [add_assoc, ← two_mul, ← pow_succ'])
    · next hgt => exact ih _ hlo (not_le.1 hgt)

/-- The bitwise root is the library's. -/
theorem isqrt_eq_sqrt (n : Nat) : isqrt n = Nat.sqrt n := by
  have hn : n < 2 ^ (Nat.log2 n / 2 + 1) * 2 ^ (Nat.log2 n / 2 + 1) := by
    rw [← pow_add]
    exact Nat.lt_log2_self.trans_le (Nat.pow_le_pow_right two_pos (by omega))
  exact Nat.eq_sqrt.2 (sqrtBits_spec n _ 0 (by simp) (by simpa using hn))

section
variable {k m : Nat} (hm : m ≠ 0) (e : Int)
include hm

theorem sqrtNum_length : (sqrtNum k m e).1 ≠ 0 ∧ k ≤ Nat.log2 (sqrtNum k m e).1 := by
  have hpow : 2 ^ k ≤ (sqrtNum k m e).1 := by
    simp only [sqrtNum, isqrt_eq_sqrt]
    rw [Nat.le_sqrt, ← pow_add]
    calc 2 ^ (k + k) ≤ 2 ^ (2 * k + if e % 2 = 0 then 0 else 1) := Nat.pow_le_pow_right two_pos (by omega)
      _ ≤ m * 2 ^ (2 * k + if e % 2 = 0 then 0 else 1) := Nat.le_mul_of_pos_left _ (Nat.pos_of_ne_zero hm)
  have h0 : (sqrtNum k m e).1 ≠ 0 := (lt_of_lt_of_le (by positivity : 0 < 2 ^ k) hpow).ne'
  exact ⟨h0, (Nat.le_log2 h0).2 hpow⟩

omit hm in
theorem sqrtNum_approx : Approx (sqrtNum k m e).1 (sqrtNum k m e).2.1 (sqrtNum k m e).2.2 (Real.sqrt (m * 2 ^ e)) := by
  simp only [sqrtNum, isqrt_eq_sqrt]
  obtain ⟨s, hs, heven⟩ : ∃ s : Nat, (2 * k + if e % 2 = 0 then 0 else 1) = s ∧ (e - s) % 2 = 0 :=
    ⟨_, rfl, by split <;> push_cast <;> omega⟩
  rw [hs]
  have hval : Real.sqrt (m * 2 ^ e) = Real.sqrt ((m * 2 ^ s : Nat) : ℝ) * 2 ^ ((e - s) / 2) := by
    have hsq : (m : ℝ) * 2 ^ e = ((m * 2 ^ s : Nat) : ℝ) * ((2 ^ ((e - s) / 2)) * 2 ^ ((e - s) / 2)) := by
      rw [← zpow_two_add, Nat.cast_mul, mul_assoc, two_pow_mul_zpow]; congr 2; omega
    rw [hsq, Real.sqrt_mul (Nat.cast_nonneg _), Real.sqrt_mul_self (zpow_two_pos _).le]
  rw [hval]
  generalize m * 2 ^ s = n
  have hn : (0 : ℝ) ≤ n := Nat.cast_nonneg n
  refine approx_of_unit (Real.nat_sqrt_le_real_sqrt) ?_ ?_
  · rw [Real.sqrt_lt' (by positivity)]
    have := Nat.lt_succ_sqrt n
    rw [sq]
    exact_mod_cast this
  · rw [bne_eq_false_iff_eq, Real.sqrt_eq_iff_mul_self_eq hn (Nat.cast_nonneg _)]
    rw [eq_comm]; norm_cast

end

/-- A quotient or root whose significand has two bits more than the format is rounded once. -/
theorem roundsTo_sticky {F : Fmt} (hF : FmtOk F) {m : Nat} {e : Int} {sticky neg : Bool} {x : ℝ} (h : Approx m e sticky |x|)
    (hm : m ≠ 0) (hlen : F.mb + 1 ≤ Nat.log2 m) (hneg : neg = true ↔ x < 0) (r : Rnd) (ftz : Bool) :
    RoundsTo F r ftz x (roundMag F r ftz neg m e sticky) :=
  roundsTo_roundMag hF h hm (fun _ => lt_quantum e hlen) hneg r ftz

/-! ## The operations on finite elements (R105, R107) -/

theorem prodInvalid_finite {x y : Num} (fx : isFin x = true) (fy : isFin y = true) : prodInvalid x y = false := by
  obtain ⟨n, p, e, rfl⟩ := isFin_iff.1 fx
  obtain ⟨k, q, f, rfl⟩ := isFin_iff.1 fy
  simp [prodInvalid, isInf]

section
variable {F : Fmt} (hF : FmtOk F) {m : FMod} {a b c : Nat} {x y w : Num} (hx : x = flush F m.ftz (numOf F a)) (hy : y = flush F m.ftz (numOf F b))
  (hw : w = flush F m.ftz (numOf F c)) (fx : isFin x = true) (fy : isFin y = true) (fw : isFin w = true)
include hx fx hy fy

/-- Sums, products and fused sums of finite elements are one `Round` of the exact value, and raise nothing else. -/
theorem opAdd_finite : opAdd F m a b = nRound F m.rnd m.ftz (nAlign m.rnd [x, y]) := by
  obtain ⟨-, -, hinv, hsnv⟩ := finite_terms (ts := [x, y]) (by simp [fx, fy])
  simp [opAdd, ← hx, ← hy, hinv, hsnv, nvIf]

theorem opSub_finite : opSub F m a b = nRound F m.rnd m.ftz (nAlign m.rnd [x, nNeg y]) := by
  obtain ⟨-, -, hinv, hsnv⟩ := finite_terms (ts := [x, nNeg y]) (by simp [fx, isFin_nNeg fy])
  simp [opSub, ← hx, ← hy, hinv, hsnv, nvIf]

theorem opMul_finite : opMul F m a b = nRound F m.rnd m.ftz (nProd x y) := by
  obtain ⟨-, -, -, hsnv⟩ := finite_terms (ts := [x, y]) (by simp [fx, fy])
  simp [opMul, ← hx, ← hy, prodInvalid_finite fx fy, hsnv, nvIf]

include hw fw in
theorem opFma_finite (neg : Bool) : opFma F neg m a b c =
    nRound F m.rnd m.ftz (nAlign m.rnd [if neg then nNeg (nProd x y) else nProd x y, w]) := by
  have fp : isFin (if neg then nNeg (nProd x y) else nProd x y) = true := by
    have := (nProd_finite fx fy).1
    cases neg
    · exact this
    · exact isFin_nNeg this
  obtain ⟨-, -, hinv, -⟩ := finite_terms (ts := [if neg then nNeg (nProd x y) else nProd x y, w]) (by simp [fp, fw])
  obtain ⟨-, -, -, hsnv⟩ := finite_terms (ts := [x, y, w]) (by simp [fx, fy, fw])
  simp [opFma, ← hx, ← hy, ← hw, prodInvalid_finite fx fy, hinv, hsnv, nvIf]

include hF in
theorem opDiv_finite (h0 : realOf x ≠ 0) (h1 : realOf y ≠ 0) : RoundsTo F m.rnd m.ftz (realOf x / realOf y) (opDiv F m a b) := by
  obtain ⟨n, p, e, rfl⟩ := isFin_iff.1 fx
  obtain ⟨k, q, f, rfl⟩ := isFin_iff.1 fy
  have hp : p ≠ 0 := fun c => h0 (realOf_fin_eq_zero.2 c)
  have hq : q ≠ 0 := fun c => h1 (realOf_fin_eq_zero.2 c)
  have hdiv : opDiv F m a b = roundMag F m.rnd m.ftz (n != k) (divBits (F.mb + 4) p q).1 (e - f + (divBits (F.mb + 4) p q).2.1)
      (divBits (F.mb + 4) p q).2.2 := by
    simp [opDiv, ← hx, ← hy, hp, hq]
  obtain ⟨hz, hlen⟩ := divBits_length hp hq (show 1 ≤ F.mb + 4 by omega)
  rw [hdiv]
  refine roundsTo_sticky hF ?_ hz (by omega) ?_ m.rnd m.ftz
  · rw [abs_div, abs_realOf_fin, abs_realOf_fin]
    exact divBits_approx hp hq e f
  · have hn := realOf_fin_neg_iff (n := n) (e := e) hp
    have hk := realOf_fin_neg_iff (n := k) (e := f) hq
    have hsplit : realOf (.fin n p e) / realOf (.fin k q f) < 0 ↔
        (realOf (.fin n p e) < 0 ∧ ¬ realOf (.fin k q f) < 0) ∨ (¬ realOf (.fin n p e) < 0 ∧ realOf (.fin k q f) < 0) := by
      rw [div_neg_iff, not_lt, not_lt, h1.symm.le_iff_lt, h0.symm.le_iff_lt]; tauto
    rw [hsplit, ← hn, ← hk]
    cases n <;> cases k <;> simp

theorem opDiv_zero (h0 : realOf x = 0) (h1 : realOf y ≠ 0) : opDiv F m a b = (fZero F (nSign x != nSign y), 0) := by
  obtain ⟨n, p, e, rfl⟩ := isFin_iff.1 fx
  obtain ⟨k, q, f, rfl⟩ := isFin_iff.1 fy
  have hq : q ≠ 0 := fun c => h1 (realOf_fin_eq_zero.2 c)
  simp [opDiv, ← hx, ← hy, realOf_fin_eq_zero.1 h0, hq, nSign]

omit hy fy
include hF in
theorem opSqrt_finite (hpos : 0 < realOf x) : RoundsTo F m.rnd m.ftz (Real.sqrt (realOf x)) (opSqrt F m a) := by
  obtain ⟨n, p, e, rfl⟩ := isFin_iff.1 fx
  have hp : p ≠ 0 := fun c => hpos.ne' (realOf_fin_eq_zero.2 c)
  have hn : n = false := by
    cases n with
    | false => rfl
    | true => exact absurd ((realOf_fin_neg_iff hp).1 rfl) (not_lt.2 hpos.le)
  subst hn
  have hsqrt : opSqrt F m a = roundMag F m.rnd m.ftz false (sqrtNum (F.mb + 4) p e).1 (sqrtNum (F.mb + 4) p e).2.1
      (sqrtNum (F.mb + 4) p e).2.2 := by
    simp [opSqrt, ← hx, hp]
  obtain ⟨hz, hlen⟩ := sqrtNum_length (k := F.mb + 4) hp e
  rw [hsqrt]
  refine roundsTo_sticky hF ?_ hz (by omega) ?_ m.rnd m.ftz
  · rw [abs_of_nonneg (Real.sqrt_nonneg _), ← abs_of_pos hpos, abs_realOf_fin]
    exact sqrtNum_approx e
  · simp [Real.sqrt_nonneg]

theorem opSqrt_zero (h0 : realOf x = 0) : opSqrt F m a = (fZero F (nSign x), 0) := by
  obtain ⟨n, p, e, rfl⟩ := isFin_iff.1 fx
  simp [opSqrt, ← hx, realOf_fin_eq_zero.1 h0, nSign]

end

/-! ## NaNs and invalid combinations (R49, R51, R62) -/

@[simp] theorem isNan_flush (F : Fmt) (ftz : Bool) (x : Num) : isNan (flush F ftz x) = isNan x := by
  cases x with
  | nan s => simp [flush, isSub]
  | inf n => simp [flush, isSub]
  | fin n m e => unfold flush; split <;> rfl

@[simp] theorem isNan_nNeg (x : Num) : isNan (nNeg x) = isNan x := by cases x <;> rfl

theorem isNan_iff {x : Num} : isNan x = true ↔ ∃ s, x = .nan s := by
  cases x <;> simp [isNan]

theorem isInf_iff {x : Num} : isInf x = true ↔ ∃ n, x = .inf n := by
  cases x <;> simp [isInf]

theorem isZero_iff {x : Num} : isZero x = true ↔ ∃ n e, x = .fin n 0 e := by
  cases x <;> simp [isZero]

theorem nAlign_of_nan (r : Rnd) {ts : List Num} (h : ts.any isNan = true) : nAlign r ts = .nan false := by
  simp only [nAlign, h, Bool.true_or, if_true]

theorem nAlign_of_invalid (r : Rnd) {ts : List Num} (h : sumInvalid ts = true) : nAlign r ts = .nan false := by
  simp only [nAlign, h, Bool.or_true, if_true]

theorem sumInvalid_opposite (n : Bool) : sumInvalid [.inf n, .inf !n] = true := by cases n <;> rfl

theorem isNan_nProd {x y : Num} (h : isNan x = true ∨ isNan y = true) : isNan (nProd x y) = true := by
  rcases h with h | h
  · obtain ⟨s, rfl⟩ := isNan_iff.1 h; rfl
  · obtain ⟨s, rfl⟩ := isNan_iff.1 h; cases x <;> rfl

/-- The invalid product as the statement writes it. -/
theorem prodInvalid_iff {x y : Num} :
    prodInvalid x y = true ↔ (isInf x = true ∧ isZero y = true) ∨ (isZero x = true ∧ isInf y = true) := by
  simp [prodInvalid]

theorem nProd_of_invalid {x y : Num} (h : prodInvalid x y = true) : nProd x y = .nan false := by
  rcases prodInvalid_iff.1 h with ⟨hx, hy⟩ | ⟨hx, hy⟩
  · obtain ⟨n, rfl⟩ := isInf_iff.1 hx
    obtain ⟨k, f, rfl⟩ := isZero_iff.1 hy
    rfl
  · obtain ⟨n, e, rfl⟩ := isZero_iff.1 hx
    obtain ⟨k, rfl⟩ := isInf_iff.1 hy
    rfl

/-- An infinity times anything but a NaN or a zero is the infinity of the factors' sign. -/
theorem nProd_of_inf {x y : Num} (h : (isInf x = true ∧ isNan y = false ∧ isZero y = false) ∨
    (isInf y = true ∧ isNan x = false ∧ isZero x = false)) : nProd x y = .inf (nSign x != nSign y) := by
  rcases h with ⟨hx, hn, hz⟩ | ⟨hy, hn, hz⟩
  · obtain ⟨n, rfl⟩ := isInf_iff.1 hx
    cases y with
    | nan s => cases hn
    | inf k => rfl
    | fin k p f => exact if_neg (by simpa [isZero] using hz)
  · obtain ⟨k, rfl⟩ := isInf_iff.1 hy
    cases x with
    | nan s => cases hn
    | inf n => rfl
    | fin n p e => exact if_neg (by simpa [isZero] using hz)

@[simp] theorem nRound_nan (F : Fmt) (r : Rnd) (ftz s : Bool) : nRound F r ftz (.nan s) = (fNaN F, 0) := rfl

/-- NV absorbs what the operands raise. -/
theorem snv_or_flNV (ts : List Num) : 0 ||| snv ts ||| flNV = flNV := by
  unfold snv; split <;> rfl

section
variable {F : Fmt} {m : FMod} {a b : Nat}

section
variable (h : isNan (numOf F a) = true ∨ isNan (numOf F b) = true)
include h

theorem opAdd_of_nan : (opAdd F m a b).1 = fNaN F := by
  simp only [opAdd]
  rw [nAlign_of_nan _ (by simpa using h)]; rfl

theorem opSub_of_nan : (opSub F m a b).1 = fNaN F := by
  simp only [opSub]
  rw [nAlign_of_nan _ (by simpa using h)]; rfl

theorem opMul_of_nan : (opMul F m a b).1 = fNaN F := by
  obtain ⟨s, hs⟩ := isNan_iff.1 (isNan_nProd (x := flush F m.ftz (numOf F a)) (y := flush F m.ftz (numOf F b)) (by simpa using h))
  simp only [opMul, hs]; rfl

theorem opDiv_of_nan : (opDiv F m a b).1 = fNaN F := by
  have h : isNan (flush F m.ftz (numOf F a)) = true ∨ isNan (flush F m.ftz (numOf F b)) = true := by simpa using h
  unfold opDiv
  generalize flush F m.ftz (numOf F a) = x at *
  generalize flush F m.ftz (numOf F b) = y at *
  rcases h with h | h
  · obtain ⟨s, rfl⟩ := isNan_iff.1 h; cases y <;> rfl
  · obtain ⟨s, rfl⟩ := isNan_iff.1 h; cases x <;> rfl

end

theorem opFma_of_nan (neg : Bool) {c : Nat} (h : isNan (numOf F a) = true ∨ isNan (numOf F b) = true ∨ isNan (numOf F c) = true) :
    (opFma F neg m a b c).1 = fNaN F := by
  have hany : [if neg then nNeg (nProd (flush F m.ftz (numOf F a)) (flush F m.ftz (numOf F b)))
      else nProd (flush F m.ftz (numOf F a)) (flush F m.ftz (numOf F b)), flush F m.ftz (numOf F c)].any isNan = true := by
    rcases h with h | h | h
    · have := isNan_nProd (x := flush F m.ftz (numOf F a)) (y := flush F m.ftz (numOf F b)) (by simp [h])
      cases neg <;> simp [this]
    · have := isNan_nProd (x := flush F m.ftz (numOf F a)) (y := flush F m.ftz (numOf F b)) (by simp [h])
      cases neg <;> simp [this]
    · simp [h]
  simp only [opFma]
  rw [nAlign_of_nan _ hany]; rfl

theorem flush_of_nan {ftz : Bool} {x : Num} (h : isNan x = true) : ∃ s, flush F ftz x = .nan s := isNan_iff.1 (by simpa using h)

theorem opSqrt_of_nan (h : isNan (numOf F a) = true) : (opSqrt F m a).1 = fNaN F := by
  obtain ⟨s, hs⟩ := flush_of_nan (F := F) (ftz := m.ftz) h
  simp only [opSqrt, hs]

theorem opRint_of_nan (h : isNan (numOf F a) = true) : (opRint F m a).1 = fNaN F := by
  obtain ⟨s, hs⟩ := flush_of_nan (F := F) (ftz := m.ftz) h
  simp only [opRint, hs]

theorem opMinMax_of_nans (big ftz : Bool) (h : isNan (numOf F a) = true) (h' : isNan (numOf F b) = true) :
    (opMinMax F big ftz a b).1 = fNaN F := by
  simp [opMinMax, h, h']

section
variable {x y : Num} (hx : x = flush F m.ftz (numOf F a)) (hy : y = flush F m.ftz (numOf F b))
include hx hy

theorem opSub_invalid {n : Bool} (h : x = .inf n) (h' : y = .inf n) : opSub F m a b = (fNaN F, flNV) := by
  simp only [opSub, ← hx, ← hy, h, h', nNeg, sumInvalid_opposite, nAlign_of_invalid, nRound_nan, nvIf, if_true, snv_or_flNV]

theorem opAdd_invalid {n : Bool} (h : x = .inf n) (h' : y = .inf !n) : opAdd F m a b = (fNaN F, flNV) := by
  simp only [opAdd, ← hx, ← hy, h, h', sumInvalid_opposite, nAlign_of_invalid, nRound_nan, nvIf, if_true, snv_or_flNV]

theorem opDiv_infinities (h : isInf x = true) (h' : isInf y = true) : opDiv F m a b = (fNaN F, flNV) := by
  obtain ⟨n, rfl⟩ := isInf_iff.1 h
  obtain ⟨k, rfl⟩ := isInf_iff.1 h'
  simp only [opDiv, ← hx, ← hy]

theorem opDiv_zeros (h : isZero x = true) (h' : isZero y = true) : opDiv F m a b = (fNaN F, flNV) := by
  obtain ⟨n, e, rfl⟩ := isZero_iff.1 h
  obtain ⟨k, f, rfl⟩ := isZero_iff.1 h'
  simp only [opDiv, ← hx, ← hy, if_true]

theorem opDiv_by_zero (hf : isFin x = true) (h : isZero x = false) (h' : isZero y = true) :
    opDiv F m a b = (fInf F (nSign x != nSign y), flDZ) := by
  obtain ⟨n, p, e, rfl⟩ := isFin_iff.1 hf
  obtain ⟨k, f, rfl⟩ := isZero_iff.1 h'
  have hp : p ≠ 0 := by simpa [isZero] using h
  simp only [opDiv, ← hx, ← hy, if_true, if_neg hp, nSign]

theorem opMul_invalid (h : prodInvalid x y = true) : opMul F m a b = (fNaN F, flNV) := by
  simp only [opMul, ← hx, ← hy, h, nProd_of_invalid, nRound_nan, nvIf, if_true, snv_or_flNV]

theorem opFma_prodInvalid (h : prodInvalid x y = true) (c : Nat) (neg : Bool) : opFma F neg m a b c = (fNaN F, flNV) := by
  have hp : (if neg then nNeg (nProd x y) else nProd x y) = .nan false := by rw [nProd_of_invalid h]; cases neg <;> rfl
  simp only [opFma, ← hx, ← hy, h, hp, Bool.true_or, nvIf, if_true]
  rw [nAlign_of_nan _ (by rfl), nRound_nan, snv_or_flNV]

theorem opFma_sumInvalid {c : Nat} {neg : Bool} (h : (isInf x = true ∧ isNan y = false ∧ isZero y = false) ∨
    (isInf y = true ∧ isNan x = false ∧ isZero x = false))
    (hc : flush F m.ftz (numOf F c) = .inf !((nSign x != nSign y) != neg)) : opFma F neg m a b c = (fNaN F, flNV) := by
  have hp : (if neg then nNeg (nProd x y) else nProd x y) = .inf ((nSign x != nSign y) != neg) := by
    rw [nProd_of_inf h]; cases neg <;> simp [nNeg]
  simp only [opFma, ← hx, ← hy, hp, hc, sumInvalid_opposite, Bool.or_true, nvIf, if_true]
  rw [nAlign_of_invalid _ (sumInvalid_opposite _), nRound_nan, snv_or_flNV]

omit hy in
theorem opSqrt_negative (h : nSign x = true) (h' : isZero x = false) : opSqrt F m a = (fNaN F, flNV) := by
  cases x with
  | nan s => cases h
  | inf n => obtain rfl : n = true := h; simp [opSqrt, ← hx]
  | fin n p e =>
    obtain rfl : n = true := h
    have hp : p ≠ 0 := by simpa [isZero] using h'
    simp [opSqrt, ← hx, hp]

end

end

/-! ## Rounding gives back what the format holds (R58) -/

/-- A significand whose quantum is its own unit is kept. -/
theorem roundMag_of_quantum {F : Fmt} {m : Nat} {e : Int} (r : Rnd) (neg : Bool) (hq : quantum F m e = e)
    (hle : m ≠ 0 → (Nat.log2 m : Int) + e ≤ fBias F) : roundMag F r false neg m e false = (encodeAt F neg m e, 0) := by
  have hy : roundedCount r neg (m, 0) = m := by cases r <;> simp [roundedCount, roundsUp]
  rw [roundMag_eq F r false neg m e false hq (p := (m, 0)) (by simp [quanta]) hy, if_neg fun c => absurd (hle c.1) (not_le.2 c.2)]
  simp

theorem nRound_numOf {F : Fmt} (hF : FmtOk F) (r : Rnd) {x : Nat} (hx : x < 2 ^ (1 + F.eb + F.mb)) (hn : isNan (numOf F x) = false) :
    nRound F r false (numOf F x) = (x, 0) := by
  obtain ⟨neg, ef, fr, he, hf, rfl⟩ := exists_fBits hx
  have hp := two_pow_eb hF
  have hb := one_le_fBias hF
  have hmb : 1 ≤ 2 ^ F.mb := Nat.one_le_two_pow
  rw [numOf_fBits he hf] at hn ⊢
  by_cases htop : ef = 2 ^ F.eb - 1
  · by_cases hfr : fr = 0
    · simp [htop, hfr, nRound, fInf_eq]
    · simp [htop, hfr, isNan] at hn
  rw [if_neg htop]
  by_cases hsub : ef = 0
  · subst hsub
    rw [if_pos rfl, nRound]
    by_cases hz : fr = 0
    · rw [if_pos hz, fZero_eq, hz]
    have hlog : Nat.log2 fr < F.mb := (Nat.log2_lt hz).2 hf
    have hq : quantum F fr (fQmin F) = fQmin F := by unfold quantum fQmin; omega
    rw [if_neg hz, roundMag_of_quantum r neg hq fun _ => by unfold fQmin fEmin; omega,
      encodeAt_eq ⟨by rw [pow_succ]; omega, le_rfl, .inl rfl⟩, if_pos hf]
  · rw [if_neg hsub, nRound, if_neg (by omega)]
    have hlog : Nat.log2 (2 ^ F.mb + fr) = F.mb := (Nat.log2_eq_iff (by omega)).2 ⟨by omega, by rw [pow_succ]; omega⟩
    have hq : quantum F (2 ^ F.mb + fr) (fQmin F + ef - 1) = fQmin F + ef - 1 := by
      rw [quantum, hlog]; unfold fQmin; omega
    rw [roundMag_of_quantum r neg hq fun _ => by rw [hlog]; unfold fQmin fEmin; omega,
      encodeAt_eq ⟨by rw [pow_succ]; omega, by omega, .inr (by omega)⟩, if_neg (by omega), if_pos (by rw [pow_succ]; omega)]
    congr 2
    · omega
    · omega

/-! ## The statement -/

theorem defaultNans : fNaN fp64 = 0x7FF8000000000000 ∧ fNaN fp32 = 0x7FC00000 ∧ fNaN fp16 = 0x7E00 ∧ fNaN bf16 = 0x7FC0 := by
  decide +kernel

/-- Settles O10: NaNs and invalid combinations case by case; every rounding through `roundsTo_roundMag`, the exact value being that of
`Align`, of `Prod`, or a truncated significand with a sticky bit. -/
theorem roundingAndNans : Obligations.RoundingAndNans := by
  refine ⟨⟨defaultNans, fun F _ m a b => ⟨fun h => ?nan, fun h => ?nanOne, fun x y hx hy => ?invalid⟩⟩, ⟨?finite, ?product, ?sum⟩, ?back⟩
  case nan =>
    exact ⟨opAdd_of_nan h, opSub_of_nan h, opMul_of_nan h, opDiv_of_nan h, fun c neg => opFma_of_nan neg (by tauto),
      fun c neg => opFma_of_nan neg (by tauto)⟩
  case nanOne => exact ⟨opSqrt_of_nan h, opRint_of_nan h, fun h' big => opMinMax_of_nans big m.ftz h h'⟩
  case invalid =>
    exact ⟨fun n => opSub_invalid hx hy, fun n => opAdd_invalid hx hy, opDiv_infinities hx hy, opDiv_zeros hx hy, opDiv_by_zero hx hy,
      fun h => ⟨opMul_invalid hx hy (prodInvalid_iff.2 h), opFma_prodInvalid hx hy (prodInvalid_iff.2 h)⟩,
      fun c neg => opFma_sumInvalid hx hy, opSqrt_negative hx⟩
  case finite =>
    intro F hmem m a b c x y w hx hy hw fx fy fw
    have hF := fmtOk_of_regFormats hmem
    obtain ⟨fp, sp, rp⟩ := nProd_finite fx fy
    have hadd := round_sum hF m.rnd m.ftz (ts := [x, y]) (x := realOf x + realOf y) (by simp [fx, fy]) (by simp)
    have hsub := round_sum hF m.rnd m.ftz (ts := [x, nNeg y]) (x := realOf x - realOf y) (by simp [fx, isFin_nNeg fy])
      (by simp [realOf_nNeg]; ring)
    have hfma := fun (neg : Bool) => round_sum hF m.rnd m.ftz (ts := [if neg then nNeg (nProd x y) else nProd x y, w])
      (x := (if neg then -(realOf x * realOf y) else realOf x * realOf y) + realOf w)
      (by cases neg <;> simp [fp, fw, isFin_nNeg]) (by cases neg <;> simp [realOf_nNeg, rp])
    rw [← opAdd_finite hx hy fx fy] at hadd
    rw [← opSub_finite hx hy fx fy] at hsub
    refine ⟨fun h => (hadd.1 h).1, fun h => (hsub.1 h).1, fun h => ?_, opDiv_finite hF hx hy fx fy, opSqrt_finite hF hx fx, ?_,
      fun h => (hadd.2 h).1, fun h => (hsub.2 h).1, fun h => ?_, opDiv_zero hx hy fx fy, opSqrt_zero hx fx, ?_⟩
    · rw [opMul_finite hx hy fx fy, ← rp]
      exact roundsTo_nRound hF _ _ fp (rp ▸ h)
    · rintro neg p rfl hp
      rw [opFma_finite hx hy hw fx fy fw]
      exact ((hfma neg).1 hp).1
    · rw [opMul_finite hx hy fx fy, ← sp]
      exact (nRound_zero F _ _ fp (rp ▸ h)).1
    · rintro neg p rfl hp
      rw [opFma_finite hx hy hw fx fy fw]
      refine ((hfma neg).2 ?_).1
      rw [← hp]
      cases neg <;> simp [realOf_nNeg, rp]
  case product => exact fun x y fx fy => nProd_finite fx fy
  case sum => exact fun F hmem r ftz ts x h hx => round_sum (fmtOk_of_mem hmem) r ftz h hx
  case back => exact fun F hmem r x hx hn => nRound_numOf (fmtOk_of_regFormats hmem) r hx hn

end Sys2Proof.Machine
end

section
/-! PROOFS. K-steps (R67, R68, R188): the exact sum of products rounded once, and every element of a group's K-step. -/

namespace Sys2Proof.Machine

/-! ## The products of a row and a column (R57, R188) -/

/-- Every element that is not an edge is finite. -/
def FiniteElems (l : List (Option Num)) : Prop := ∀ x ∈ l, ∀ y, x = .some y → isFin y = true

theorem finiteElems_cons {a : Option Num} {l : List (Option Num)} (h : FiniteElems (a :: l)) :
    (∀ y, a = .some y → isFin y = true) ∧ FiniteElems l :=
  ⟨h a (List.mem_cons_self ..), fun x hx => h x (List.mem_cons_of_mem _ hx)⟩

theorem nScale_finite (k : Int) {x : Num} (h : isFin x = true) : isFin (nScale k x) = true ∧ realOf (nScale k x) = realOf x * 2 ^ k := by
  obtain ⟨n, m, e, rfl⟩ := isFin_iff.1 h
  refine ⟨rfl, ?_⟩
  simp only [nScale, realOf, zpow_two_add]
  ring

/-- One product of finite elements: exact, scaled, and valid; +0 with an edge. -/
theorem mprod_finite (sc : Int) {a b : Option Num} (ha : ∀ y, a = .some y → isFin y = true) (hb : ∀ y, b = .some y → isFin y = true) :
    isFin (mprod sc a b) = true ∧ realOf (mprod sc a b) = elemReal a * elemReal b * 2 ^ sc ∧ prodNv a b = false := by
  cases a with
  | none => simp [mprod, isFin, realOf, elemReal, prodNv]
  | some x =>
    cases b with
    | none => simp [mprod, isFin, realOf, elemReal, prodNv]
    | some y =>
      have fx := ha x rfl
      have fy := hb y rfl
      obtain ⟨fp, -, rp⟩ := nProd_finite fx fy
      obtain ⟨fs, rs⟩ := nScale_finite sc fp
      refine ⟨fs, by rw [mprod, rs, rp, elemReal, elemReal], ?_⟩
      have hsnan : ∀ {v : Num}, isFin v = true → isSnan v = false := fun hv => by obtain ⟨n, m, e, rfl⟩ := isFin_iff.1 hv; rfl
      simp [prodNv, hsnan fx, hsnan fy, prodInvalid_finite fx fy]

/-- The products of a finite row and column are finite, sum to their exact dot product, and none is invalid. -/
theorem terms_finite (sc : Int) (row col : List (Option Num)) (hr : FiniteElems row) (hc : FiniteElems col) :
    (∀ t ∈ terms sc row col, isFin t = true) ∧ ((terms sc row col).map realOf).sum = dotReal sc row col ∧
      (row.zipWith prodNv col).contains true = false := by
  induction row generalizing col with
  | nil => simp [terms, dotReal]
  | cons a row ih =>
    cases col with
    | nil => simp [terms, dotReal]
    | cons b col =>
      obtain ⟨ha, hr⟩ := finiteElems_cons hr
      obtain ⟨hb, hc⟩ := finiteElems_cons hc
      obtain ⟨fp, rp, np⟩ := mprod_finite sc ha hb
      obtain ⟨ih1, ih2, ih3⟩ := ih col hr hc
      unfold terms at ih1 ih2
      unfold dotReal at ih2
      refine ⟨?_, ?_, ?_⟩
      · simpa [terms, fp] using ih1
      · rw [terms, dotReal, List.zipWith_cons_cons, List.zipWith_cons_cons, List.map_cons, List.sum_cons, List.sum_cons, rp, ih2]
      · simpa [np] using ih3

/-! ## One K-step of one element (R67, R68) -/

section
variable {sc : Int} {row col : List (Option Num)} (hr : FiniteElems row) (hc : FiniteElems col)
include hr hc

theorem acc_terms_finite {v : Num} (hv : isFin v = true) : (∀ t ∈ v :: terms sc row col, isFin t = true) ∧
    realOf v + dotReal sc row col = ((v :: terms sc row col).map realOf).sum := by
  obtain ⟨ft, rt, -⟩ := terms_finite sc row col hr hc
  exact ⟨by simpa [hv] using ft, by simp [rt]⟩

/-- A K-step of finite values raises the flags of its one rounding only. -/
theorem stepD_finite {d : Nat} (hd : isFin (numOf fp64 d) = true) :
    stepD sc d row col = nRound fp64 .rne false (nAlign .rne (numOf fp64 d :: terms sc row col)) := by
  obtain ⟨-, -, hnv⟩ := terms_finite sc row col hr hc
  obtain ⟨-, -, hinv, -⟩ := finite_terms (acc_terms_finite (sc := sc) hr hc hd).1
  have hs : isSnan (numOf fp64 d) = false := by obtain ⟨n, m, e, he⟩ := isFin_iff.1 hd; rw [he]; rfl
  simp only [stepD, hs, hnv, hinv, nvIf, Bool.or_self, Bool.false_eq_true, if_false]
  simp

theorem stepD_rounds_once {d : Nat} {x : ℝ} (hd : isFin (numOf fp64 d) = true) (hx : x = realOf (numOf fp64 d) + dotReal sc row col) :
    (x ≠ 0 → RoundsTo fp64 .rne false x (stepD sc d row col)) ∧
    (x = 0 → stepD sc d row col = (fZero fp64 (zeroNeg .rne (numOf fp64 d :: terms sc row col)), 0)) := by
  obtain ⟨hfin, hsum⟩ := acc_terms_finite (sc := sc) hr hc hd
  obtain ⟨h1, h2⟩ := round_sum (fmtOk_of_mem (F := fp64) (by simp [regFormats])) .rne false hfin (hx.trans hsum)
  rw [stepD_finite hr hc hd]
  exact ⟨fun h => (h1 h).1, fun h => (h2 h).1⟩

theorem stepFrom_rounds_odd {c : Num} {x : ℝ} (hc' : isFin c = true) (hx : x = realOf c + dotReal sc row col) :
    (x ≠ 0 → RoundsToOdd e8m26 x (stepFrom c (terms sc row col))) ∧
    (x = 0 → stepFrom c (terms sc row col) = fZero e8m26 (zeroNeg .rne (c :: terms sc row col))) := by
  obtain ⟨hfin, hsum⟩ := acc_terms_finite (sc := sc) hr hc hc'
  obtain ⟨h1, h2⟩ := round_sum (fmtOk_of_mem (F := e8m26) (by simp)) .rne false hfin (hx.trans hsum)
  exact ⟨fun h => (h1 h).2, fun h => (h2 h).2⟩

end

theorem windowEnd_rounds_once {acc : Nat} (h : isFin (numOf e8m26 acc) = true) (h0 : realOf (numOf e8m26 acc) ≠ 0) :
    RoundsTo fp32 .rne false (realOf (numOf e8m26 acc)) (windowEnd acc) :=
  roundsTo_nRound (fmtOk_of_mem (by simp [regFormats])) .rne false h h0

theorem stepD_of_nan {sc : Int} {d : Nat} {row col : List (Option Num)} (h : (numOf fp64 d :: terms sc row col).any isNan = true) :
    (stepD sc d row col).1 = fNaN fp64 := by
  simp only [stepD, nAlign_of_nan _ h, nRound_nan]

theorem stepFrom_of_nan {c : Num} {ts : List Num} (h : (c :: ts).any isNan = true) : stepFrom c ts = fNaN e8m26 := by
  simp only [stepFrom, nAlign_of_nan _ h, nRoundOdd]

/-! ## The K-step of a group (R188) -/

/-- What a table holds that is filled from a list of results, element by element. -/
theorem tget_fill {α β : Type} [DecidableEq α] (d : α) (f : β → α) (z : β) (rs : List β) (n e : Nat) (t : Tab α) :
    tget d e ((List.range n).foldl (fun c i => tset d i (f (rs.getD i z)) c) t) = if e < n then f (rs.getD e z) else tget d e t := by
  induction n with
  | zero => simp
  | succ n ih =>
    rw [List.range_succ, List.foldl_append, List.foldl_cons, List.foldl_nil, tget_tset, ih]
    by_cases h : e = n
    · simp [h]
    · have : e < n + 1 ↔ e < n := by omega
      simp [h, this]

theorem getD_map_range {β : Type} (f : Nat → β) (z : β) {n e : Nat} (h : e < n) : ((List.range n).map f).getD e z = f e := by
  simp [h]

theorem getSlot_setSlot_same (gk n : Nat) (z : Option Slot) (s : State) : getSlot (setSlot gk n z s) gk n = z := tget_tset_same ..

/-- The row of the A tile that element `e` of a K-step multiplies, and its scale (R57, R188). -/
def tileRow (s : State) (m : MmGroup) (ha : Handle) (ty k e : Nat) : List (Option Num) :=
  (List.range (mty ty).k).map fun x => tileElem s (teamOfG m.gk) ha m.a ty (codebook (getGrid s (gridOfG m.gk)) m.a.slot.toNat)
    (e / (mty ty).n) (k * (mty ty).k + x)

section
variable {ty k e : Nat} {first last : Bool} {sb : List Int} {cols : List (List (Option Num))} {acc : List MmGroup × Flags × State}
  {m : MmGroup} {ha : Handle} (hh : getHandle acc.2.2 (teamOfG m.gk) m.ha = .some ha) (he : e < (mty ty).m * (mty ty).n)
include hh he

/-- An element of a group's FP64 K-step, in its slot (R67). -/
theorem mmGroup_slot (hty : ty = 0) {n : Nat} {z : Slot} (hm : m.slot = .some n) (hz : getSlot acc.2.2 m.gk n = .some z) :
    ∃ y, getSlot (mmGroup ty k first last sb cols acc m).2.2 m.gk n = .some y ∧
      tget 0 e y.d = word (stepD (slotScale (slotOf (getGrid acc.2.2 (gridOfG m.gk)).lr m.a.slot) + sb.getD (e % (mty ty).n) 0)
        (tget 0 e z.d).toNat (tileRow acc.2.2 m ha ty k e) (cols.getD (e % (mty ty).n) [])).1 := by
  subst hty
  have hrow : e / (mty 0).n < (mty 0).m := Nat.div_lt_of_lt_mul (by rwa [Nat.mul_comm])
  have hbind : m.slot.bind (getSlot acc.2.2 m.gk) = .some z := by rw [hm]; exact hz
  have h384 : e < 384 := he
  simp only [mmGroup, hh, hbind, if_true]
  rw [hm, Option.getD_some, getSlot_setSlot_same]
  refine ⟨_, rfl, ?_⟩
  rw [tget_fill 0 (fun r : Nat × Flags => word r.1) (0, 0), if_pos h384, getD_map_range _ _ h384, getD_map_range _ _ hrow]
  rfl

/-- An element of a group's K-step of the other types, in the partial or, at a window's end, in the C registers (R68). -/
theorem mmGroup_regs (hty : ty ≠ 0) {a : Nat}
    (hstep : a = stepFrom (if first then numOf fp32 (tget 0 e m.cur).toNat else numOf e8m26 (tget 0 e m.acc).toNat)
      (terms (slotScale (slotOf (getGrid acc.2.2 (gridOfG m.gk)).lr m.a.slot) + sb.getD (e % (mty ty).n) 0)
        (tileRow acc.2.2 m ha ty k e) (cols.getD (e % (mty ty).n) []))) :
    ∃ y, (mmGroup ty k first last sb cols acc m).1 = acc.1 ++ [y] ∧ (mmGroup ty k first last sb cols acc m).2.2 = acc.2.2 ∧
      (last = false → tget 0 e y.acc = BitVec.ofNat 35 a) ∧ (last = true → tget 0 e y.cur = BitVec.ofNat 32 (windowEnd a).1) := by
  have hrow : e / (mty ty).n < (mty ty).m := Nat.div_lt_of_lt_mul (by rwa [Nat.mul_comm])
  subst hstep
  cases last with
  | false =>
    simp only [mmGroup, hh, if_neg hty, Bool.false_eq_true, if_false]
    refine ⟨_, rfl, trivial, fun _ => ?_, fun c => absurd c (by simp)⟩
    rw [tget_fill 0 (BitVec.ofNat 35) 0, if_pos he, getD_map_range _ _ he, getD_map_range _ _ hrow]
    rfl
  | true =>
    simp only [mmGroup, hh, if_neg hty, if_true]
    refine ⟨_, rfl, trivial, fun c => absurd c (by simp), fun _ => ?_⟩
    rw [tget_fill 0 (fun r : Nat × Flags => BitVec.ofNat 32 r.1) (0, 0), if_pos he, List.map_map, getD_map_range _ _ he, Function.comp,
      getD_map_range _ _ hrow]
    rfl

end

end Sys2Proof.Machine
end

section
/-! PROOFS. How the terms of compositing records arrive and retire (R197, R198, R199). -/

namespace Sys2Proof.Machine

/-! ## The words and flags of a record (R193) -/

theorem rw_setW (i j : Nat) (x : BitVec 32) (r : Rec) : rw (setW i x r) j = if j = i then x else rw r j := tget_tset ..

@[simp] theorem rw_setW_same (i : Nat) (x : BitVec 32) (r : Rec) : rw (setW i x r) i = x := by simp [rw_setW]

theorem rw_setW_ne {i j : Nat} (h : j ≠ i) (x : BitVec 32) (r : Rec) : rw (setW i x r) j = rw r j := by simp [rw_setW, h]

theorem rw_setFlag_ne {j : Nat} (i : Nat) (h : j ≠ 6) (r : Rec) : rw (setFlag i r) j = rw r j := rw_setW_ne h ..

/-- A flag that is set changes that bit of word 6 alone. -/
theorem getLsbD_setFlag {i : Nat} (hi : i < 32) (j : Nat) (r : Rec) :
    (rw (setFlag i r) 6).getLsbD j = ((rw r 6).getLsbD j || decide (j = i)) := by
  rw [setFlag, rw_setW_same, BitVec.getLsbD_or, BitVec.getLsbD_ofNat, Nat.testBit_two_pow]
  by_cases h : j = i
  · simp [h, hi]
  · simp [h, Ne.symm h]

theorem rw_markLast {j : Nat} (late : Bool) (key : BitVec 32) (r : Rec) (h : j ≠ 6) :
    rw (markLast late key r) j = if j = 5 then (if late then rw r 5 else key) else rw r j := by
  cases late with
  | true => by_cases h5 : j = 5 <;> simp [markLast, h5]
  | false => simp [markLast, rw_setFlag_ne 2 h, rw_setW]

theorem getLsbD_markLast (late : Bool) (key : BitVec 32) (j : Nat) (r : Rec) :
    (rw (markLast late key r) 6).getLsbD j = ((rw r 6).getLsbD j || (!late && decide (j = 2))) := by
  cases late with
  | true => simp [markLast]
  | false => simp [markLast, getLsbD_setFlag, rw_setW]

@[simp] theorem markLast_buf (late : Bool) (key : BitVec 32) (r : Rec) : (markLast late key r).buf = r.buf := by cases late <;> rfl

/-! ## The stash, and what a tap leaves alone -/

theorem length_bytesOf (n v : Nat) : (bytesOf n v).length = n := by
  induction n generalizing v with
  | zero => rfl
  | succ n ih => rw [bytesOf, List.length_cons, ih]

theorem length_bytes32 (ws : List (BitVec 32)) : (bytes32 ws).length = 4 * ws.length := by
  induction ws with
  | nil => rfl
  | cons w ws ih =>
    rw [bytes32, List.flatMap_cons, List.length_append, length_bytesOf, List.length_cons]
    rw [bytes32] at ih
    omega

theorem stashRead_congr {s u : State} (h : u.team = s.team) (t off n : Nat) : stashRead u t off n = stashRead s t off n := by
  simp only [stashRead, getTeam, h]

/-- A stash reads back what was written (R229). -/
theorem stashRead_stashWrite_same (t off : Nat) {n : Nat} (bs : List Byte) (s : State) (h : bs.length = n) :
    stashRead (stashWrite t off bs s) t off n = bs := by
  subst h
  apply List.ext_getElem
  · simp [stashRead]
  · intro i h1 h2
    simp only [stashRead, stashWrite, List.getElem_map, List.getElem_range, getTeam_setTeam_same, tget_putBytes]
    rw [if_pos ⟨by omega, by omega⟩, Nat.add_sub_cancel_left, List.getD_eq_getElem _ _ h2]

@[simp] theorem tapRec_team (r : Rec) (key : BitVec 32) (kind : Nat) (s : State) : (tapRec r key kind s).team = s.team := by
  simp only [tapRec, tapComp, tap, offerEvent, setUnit]

@[simp] theorem tapRecs_team (r : Rec) (kind : Nat) (l : List Term) (s : State) :
    (l.foldl (fun s b => tapRec r b.key kind s) s).team = s.team := by
  induction l generalizing s with
  | nil => rfl
  | cons b l ih => rw [List.foldl_cons, ih, tapRec_team]

/-! ## A term arrives (R197) -/

theorem length_insertTerm (t : Term) (l : List Term) : (insertTerm t l).length = l.length + 1 := by
  induction l with
  | nil => rfl
  | cons u us ih =>
    unfold insertTerm
    split
    · rfl
    · rw [List.length_cons, ih, List.length_cons]

theorem exists_insertTerm (t : Term) (l : List Term) : ∃ u us, insertTerm t l = u :: us :=
  List.exists_cons_of_length_pos (by rw [length_insertTerm]; omega)

section
variable {t : Term} {vec : List (BitVec 32)} {r : Rec} {s : State}

theorem arriveTerm_opaque (h : isOpaque r = true) : arriveTerm t vec (r, s) = (false, (incW 11 1 r, tapRec r t.key 2 s)) := by
  simp only [arriveTerm, h, if_true]

section
theorem not_late (hl : hasRetired r = false ∨ (rw r 5).toNat ≤ t.key.toNat) :
    (hasRetired r && decide (t.key.toNat < (rw r 5).toNat)) = false := by
  rcases hl with h | h
  · simp [h]
  · simp [not_lt.2 h]

variable (ho : isOpaque r = false)
include ho

theorem arriveTerm_late (hr : hasRetired r = true) (hk : t.key.toNat < (rw r 5).toNat) : arriveTerm t vec (r, s) =
    (true, if isLse r then retireLse true t vec (incW 7 1 r, s) else retireRad true t (incW 7 1 r, s)) := by
  simp only [arriveTerm, ho, hr, hk, decide_true, Bool.and_self, Bool.false_eq_true, if_false, if_true]

variable (hl : hasRetired r = false ∨ (rw r 5).toNat ≤ t.key.toNat)
include hl

theorem arriveTerm_rad (hk : isLse r = false) {u : Term} {us : List Term} (hi : insertTerm t r.buf = u :: us) :
    arriveTerm t vec (r, s) =
      (true, if us.length < 8 then ({ r with buf := u :: us }, s) else retireRad false u ({ r with buf := us }, s)) := by
  simp only [arriveTerm, ho, not_late hl, hk, hi, Bool.false_eq_true, if_false]
  split <;> rfl

theorem arriveTerm_lse_room (hk : isLse r = true) (hb : r.buf.length < 8) : arriveTerm t vec (r, s) = (true, bufferLse t vec (r, s)) := by
  simp only [arriveTerm, ho, not_late hl, hk, hb, Bool.false_eq_true, if_false, if_true]

theorem arriveTerm_lse_least (hk : isLse r = true) (hb : 8 ≤ r.buf.length) (hu : ∀ u ∈ r.buf, t.key.toNat < u.key.toNat) :
    arriveTerm t vec (r, s) = (true, retireLse false t vec (r, s)) := by
  have hall : (r.buf.all fun u => decide (t.key.toNat < u.key.toNat)) = true := by simpa using hu
  simp only [arriveTerm, ho, not_late hl, hk, not_lt.2 hb, hall, Bool.false_eq_true, if_false, if_true]

theorem arriveTerm_lse_full (hk : isLse r = true) {u : Term} {us : List Term} (hbuf : r.buf = u :: us) (hb : 8 ≤ r.buf.length)
    (hx : ∃ x ∈ r.buf, x.key.toNat ≤ t.key.toNat) :
    arriveTerm t vec (r, s) = (true, bufferLse t vec (retire u ({ r with buf := us }, s))) := by
  have hall : ((u :: us).all fun u => decide (t.key.toNat < u.key.toNat)) = false := by
    obtain ⟨x, hm, hle⟩ := hx
    exact List.all_eq_false.2 ⟨x, hbuf ▸ hm, by simpa using hle⟩
  have hlen : ¬ (u :: us).length < 8 := by rw [← hbuf]; exact not_lt.2 hb
  simp only [arriveTerm, ho, not_late hl, hk, hbuf, hlen, hall, Bool.false_eq_true, if_false, if_true]

omit hl in
/-- A record that is not opaque accepts every term. -/
theorem arriveTerm_accepts : (arriveTerm t vec (r, s)).1 = true := by
  by_cases hlate : hasRetired r = true ∧ t.key.toNat < (rw r 5).toNat
  · rw [arriveTerm_late ho hlate.1 hlate.2]
  have hl : hasRetired r = false ∨ (rw r 5).toNat ≤ t.key.toNat := by
    rw [← not_lt, ← Bool.not_eq_true]; exact not_and_or.1 hlate
  by_cases hk : isLse r = true
  · by_cases hb : r.buf.length < 8
    · rw [arriveTerm_lse_room ho hl hk hb]
    by_cases hu : ∀ u ∈ r.buf, t.key.toNat < u.key.toNat
    · rw [arriveTerm_lse_least ho hl hk (not_lt.1 hb) hu]
    · obtain ⟨u, us, hbuf⟩ := List.exists_cons_of_length_pos (show 0 < r.buf.length by omega)
      rw [arriveTerm_lse_full ho hl hk hbuf (not_lt.1 hb) (by push Not at hu; exact hu)]
  · obtain ⟨u, us, hi⟩ := exists_insertTerm t r.buf
    rw [arriveTerm_rad ho hl (by simpa using hk) hi]

end
end

/-! ## A radiance term retires (R198) -/

/-- The log entry of a term, or the flag of a log that is full. -/
def radLog (t : Term) (x : RS) : RS :=
  if (rw x.1 10).toNat < (rw x.1 9).toNat then
    (incW 10 1 x.1, stashWrite x.1.team ((rw x.1 8).toNat + 32 * (rw x.1 10).toNat)
      (bytes32 [t.key, t.f0, t.f1, t.f2, t.f3, rw x.1 3, 0, 0]) x.2)
  else (setFlag 3 x.1, x.2)

/-- The term's weight (R198). -/
def radWeight (t : Term) (tr : BitVec 32) : BitVec 32 := r32 (mul32 tr t.f0)

/-- Colour, transmittance and last key after a term. -/
def radMix (late : Bool) (t : Term) (tr : BitVec 32) (r : Rec) : Rec :=
  let w := radWeight t tr
  let r := setW 0 (sum32 [n32 (rw r 0), mul32 w t.f1]) r
  let r := setW 1 (sum32 [n32 (rw r 1), mul32 w t.f2]) r
  let r := setW 2 (sum32 [n32 (rw r 2), mul32 w t.f3]) r
  let r := setW 3 (sum32 [n32 tr, nNeg (mul32 tr t.f0)]) r
  markLast late t.key r

/-- A record whose transmittance is below its threshold turns opaque and discards what it holds. -/
def radEnd (t : Term) (x : RS) : RS :=
  if lt32 (rw x.1 3) (rw x.1 4) then
    let s := x.1.buf.foldl (fun s b => tapRec x.1 b.key 2 s) x.2
    let r := { incW 11 x.1.buf.length (setFlag 1 x.1) with buf := [] }
    (r, tapRec r t.key 3 s)
  else x

theorem retireRad_eq (late : Bool) (t : Term) (x : RS) : retireRad late t x =
    radEnd t (radMix late t (rw x.1 3) (radLog t x).1,
      tapRec (radMix late t (rw x.1 3) (radLog t x).1) t.key (if late then 1 else 0) (radLog t x).2) := rfl

theorem radLog_words (t : Term) (x : RS) {i : Nat} (h10 : i ≠ 10) (h6 : i ≠ 6) : rw (radLog t x).1 i = rw x.1 i := by
  unfold radLog
  split
  · exact rw_setW_ne h10 ..
  · exact rw_setFlag_ne 3 h6 _

theorem radLog_flags (t : Term) (x : RS) {j : Nat} (h : j ≠ 3) : (rw (radLog t x).1 6).getLsbD j = (rw x.1 6).getLsbD j := by
  unfold radLog
  split
  · rw [incW, rw_setW_ne (by decide)]
  · rw [getLsbD_setFlag (by decide)]; simp [h]

theorem radLog_buf (t : Term) (x : RS) : (radLog t x).1.buf = x.1.buf := by unfold radLog; split <;> rfl

theorem radMix_words (late : Bool) (t : Term) (tr : BitVec 32) (r : Rec) :
    rw (radMix late t tr r) 0 = sum32 [n32 (rw r 0), mul32 (radWeight t tr) t.f1] ∧
    rw (radMix late t tr r) 1 = sum32 [n32 (rw r 1), mul32 (radWeight t tr) t.f2] ∧
    rw (radMix late t tr r) 2 = sum32 [n32 (rw r 2), mul32 (radWeight t tr) t.f3] ∧
    rw (radMix late t tr r) 3 = sum32 [n32 tr, nNeg (mul32 tr t.f0)] ∧
    rw (radMix late t tr r) 5 = (if late then rw r 5 else t.key) ∧
    (∀ i, i ≠ 6 → 4 ≤ i → i ≠ 5 → rw (radMix late t tr r) i = rw r i) := by
  refine ⟨?_, ?_, ?_, ?_, ?_, fun i h6 h4 h5 => ?_⟩
  · simp [radMix, rw_markLast, rw_setW]
  · simp [radMix, rw_markLast, rw_setW]
  · simp [radMix, rw_markLast, rw_setW]
  · simp [radMix, rw_markLast, rw_setW]
  · simp [radMix, rw_markLast, rw_setW]
  · rw [radMix, rw_markLast _ _ _ h6, if_neg h5]
    simp only [rw_setW]
    rw [if_neg (by omega), if_neg (by omega), if_neg (by omega), if_neg (by omega)]

theorem radMix_flags (late : Bool) (t : Term) (tr : BitVec 32) (r : Rec) (j : Nat) :
    (rw (radMix late t tr r) 6).getLsbD j = ((rw r 6).getLsbD j || (!late && decide (j = 2))) := by
  simp [radMix, getLsbD_markLast, rw_setW]

theorem radMix_buf (late : Bool) (t : Term) (tr : BitVec 32) (r : Rec) : (radMix late t tr r).buf = r.buf := by
  simp [radMix]; rfl

theorem radEnd_words (t : Term) (x : RS) {i : Nat} (h11 : i ≠ 11) (h6 : i ≠ 6) : rw (radEnd t x).1 i = rw x.1 i := by
  unfold radEnd
  split
  · exact (rw_setW_ne h11 ..).trans (rw_setFlag_ne 1 h6 _)
  · rfl

theorem radEnd_flags (t : Term) (x : RS) {j : Nat} (h : j ≠ 1) : (rw (radEnd t x).1 6).getLsbD j = (rw x.1 6).getLsbD j := by
  unfold radEnd
  split
  · exact (congrArg (BitVec.getLsbD · j) (rw_setW_ne (by decide) ..)).trans (by rw [getLsbD_setFlag (by decide)]; simp [h])
  · rfl

theorem radEnd_team (t : Term) (x : RS) : (radEnd t x).2.team = x.2.team := by
  unfold radEnd
  split
  · exact (tapRec_team ..).trans (tapRecs_team ..)
  · rfl

/-- The end of a term that makes the record opaque. -/
theorem radEnd_below (t : Term) (x : RS) (h : lt32 (rw x.1 3) (rw x.1 4) = true) : isOpaque (radEnd t x).1 = true ∧ (radEnd t x).1.buf = [] ∧
    rw (radEnd t x).1 11 = rw x.1 11 + BitVec.ofNat 32 x.1.buf.length := by
  unfold radEnd
  rw [if_pos h]
  refine ⟨?_, rfl, ?_⟩
  · refine (congrArg (BitVec.getLsbD · 1) (rw_setW_ne (by decide) ..)).trans ?_
    rw [getLsbD_setFlag (by decide)]; simp
  · refine (rw_setW_same ..).trans ?_
    rw [rw_setFlag_ne 1 (by decide)]

theorem radEnd_above (t : Term) (x : RS) (h : lt32 (rw x.1 3) (rw x.1 4) = false) : radEnd t x = x := by
  simp [radEnd, h]

section
variable (late : Bool) (t : Term) (r : Rec) (s : State)

/-- A word that neither the log, the flags nor the end of a record changes is what the term makes of it. -/
theorem retireRad_word {i : Nat} (h11 : i ≠ 11) (h6 : i ≠ 6) :
    rw (retireRad late t (r, s)).1 i = rw (radMix late t (rw r 3) (radLog t (r, s)).1) i := by
  rw [retireRad_eq]; exact radEnd_words t _ h11 h6

theorem retireRad_kept {i : Nat} (h : i = 4 ∨ i = 7 ∨ i = 8 ∨ i = 9) : rw (retireRad late t (r, s)).1 i = rw r i := by
  obtain ⟨-, -, -, -, -, hkeep⟩ := radMix_words late t (rw r 3) (radLog t (r, s)).1
  rw [retireRad_word late t r s (by omega) (by omega), hkeep i (by omega) (by omega) (by omega),
    radLog_words t _ (by omega) (by omega)]

/-- The words that a term changes (R198). -/
theorem retireRad_words : rw (retireRad late t (r, s)).1 0 = sum32 [n32 (rw r 0), mul32 (radWeight t (rw r 3)) t.f1] ∧
    rw (retireRad late t (r, s)).1 1 = sum32 [n32 (rw r 1), mul32 (radWeight t (rw r 3)) t.f2] ∧
    rw (retireRad late t (r, s)).1 2 = sum32 [n32 (rw r 2), mul32 (radWeight t (rw r 3)) t.f3] ∧
    rw (retireRad late t (r, s)).1 3 = sum32 [n32 (rw r 3), nNeg (mul32 (rw r 3) t.f0)] ∧
    rw (retireRad late t (r, s)).1 5 = (if late then rw r 5 else t.key) := by
  obtain ⟨h0, h1, h2, h3, h5, -⟩ := radMix_words late t (rw r 3) (radLog t (r, s)).1
  refine ⟨?_, ?_, ?_, ?_, ?_⟩
  · rw [retireRad_word late t r s (by decide) (by decide), h0, radLog_words t _ (by decide) (by decide)]
  · rw [retireRad_word late t r s (by decide) (by decide), h1, radLog_words t _ (by decide) (by decide)]
  · rw [retireRad_word late t r s (by decide) (by decide), h2, radLog_words t _ (by decide) (by decide)]
  · rw [retireRad_word late t r s (by decide) (by decide), h3]
  · rw [retireRad_word late t r s (by decide) (by decide), h5, radLog_words t _ (by decide) (by decide)]

theorem retireRad_flag {j : Nat} (h1 : j ≠ 1) : (rw (retireRad late t (r, s)).1 6).getLsbD j =
    ((rw (radLog t (r, s)).1 6).getLsbD j || (!late && decide (j = 2))) := by
  rw [retireRad_eq, radEnd_flags t _ h1, radMix_flags]

theorem retireRad_retired (h : late = false) : hasRetired (retireRad late t (r, s)).1 = true := by
  rw [hasRetired, retireRad_flag late t r s (by decide), h]; simp

theorem retireRad_logCount : rw (retireRad late t (r, s)).1 10 = rw (radLog t (r, s)).1 10 := by
  obtain ⟨-, -, -, -, -, hkeep⟩ := radMix_words late t (rw r 3) (radLog t (r, s)).1
  rw [retireRad_eq, radEnd_words t _ (by decide) (by decide)]
  exact hkeep 10 (by decide) (by decide) (by decide)

/-- A term that the log has room for is logged. -/
theorem retireRad_logged (h : (rw r 10).toNat < (rw r 9).toNat) : rw (retireRad late t (r, s)).1 10 = rw r 10 + 1 ∧
    stashRead (retireRad late t (r, s)).2 r.team ((rw r 8).toNat + 32 * (rw r 10).toNat) 32 =
      bytes32 [t.key, t.f0, t.f1, t.f2, t.f3, rw r 3, 0, 0] := by
  have hlog : radLog t (r, s) = (incW 10 1 r, stashWrite r.team ((rw r 8).toNat + 32 * (rw r 10).toNat)
      (bytes32 [t.key, t.f0, t.f1, t.f2, t.f3, rw r 3, 0, 0]) s) := if_pos h
  constructor
  · rw [retireRad_logCount, hlog]; exact rw_setW_same ..
  · rw [stashRead_congr (s := (radLog t (r, s)).2), hlog]
    · exact stashRead_stashWrite_same _ _ _ _ (length_bytes32 _)
    · rw [retireRad_eq, radEnd_team]; exact tapRec_team ..

theorem retireRad_truncated (h : (rw r 9).toNat ≤ (rw r 10).toNat) :
    rw (retireRad late t (r, s)).1 10 = rw r 10 ∧ (rw (retireRad late t (r, s)).1 6).getLsbD 3 = true := by
  have hlog : radLog t (r, s) = (setFlag 3 r, s) := if_neg (not_lt.2 h)
  constructor
  · rw [retireRad_logCount, hlog]; exact rw_setFlag_ne 3 (by decide) r
  · rw [retireRad_flag late t r s (by decide), hlog, getLsbD_setFlag (by decide)]; simp

theorem radMix_radLog_rest : rw (radMix late t (rw r 3) (radLog t (r, s)).1) 11 = rw r 11 ∧
    rw (radMix late t (rw r 3) (radLog t (r, s)).1) 4 = rw r 4 ∧ (radMix late t (rw r 3) (radLog t (r, s)).1).buf = r.buf ∧
    isOpaque (radMix late t (rw r 3) (radLog t (r, s)).1) = isOpaque r := by
  obtain ⟨-, -, -, -, -, hkeep⟩ := radMix_words late t (rw r 3) (radLog t (r, s)).1
  refine ⟨?_, ?_, ?_, ?_⟩
  · rw [hkeep 11 (by decide) (by decide) (by decide), radLog_words t _ (by decide) (by decide)]
  · rw [hkeep 4 (by decide) (by decide) (by decide), radLog_words t _ (by decide) (by decide)]
  · rw [radMix_buf, radLog_buf]
  · rw [isOpaque, radMix_flags, radLog_flags t _ (by decide)]; simp [isOpaque]

theorem retireRad_below (h : lt32 (rw (retireRad late t (r, s)).1 3) (rw r 4) = true) :
    isOpaque (retireRad late t (r, s)).1 = true ∧ (retireRad late t (r, s)).1.buf = [] ∧
      rw (retireRad late t (r, s)).1 11 = rw r 11 + BitVec.ofNat 32 r.buf.length := by
  obtain ⟨h11, h4, hbuf, -⟩ := radMix_radLog_rest late t r s
  rw [retireRad_word late t r s (by decide) (by decide), ← h4] at h
  rw [retireRad_eq, ← h11, ← hbuf]
  exact radEnd_below t _ h

theorem retireRad_above (h : lt32 (rw (retireRad late t (r, s)).1 3) (rw r 4) = false) :
    isOpaque (retireRad late t (r, s)).1 = isOpaque r ∧ (retireRad late t (r, s)).1.buf = r.buf ∧
      rw (retireRad late t (r, s)).1 11 = rw r 11 := by
  obtain ⟨h11, h4, hbuf, hop⟩ := radMix_radLog_rest late t r s
  rw [retireRad_word late t r s (by decide) (by decide), ← h4] at h
  rw [retireRad_eq, radEnd_above t]
  · exact ⟨hop, hbuf, h11⟩
  · exact h

end

/-! ## A log-sum term retires (R199) -/

/-- The scale of one side of a log-sum: 1 at the new maximum, else a power of two of the difference. -/
def lseScale (x mn : BitVec 32) : BitVec 32 := if eq32 x mn then one32 else exp32 (sum32 [n32 x, nNeg (n32 mn)])

/-- Maximum, sum and last key after a term. -/
def lseMix (late : Bool) (key m l : BitVec 32) (r : Rec) : Rec := markLast late key (setW 0 m (setW 1 l r))

theorem lseMix_spec (late : Bool) (key m l : BitVec 32) (r : Rec) : rw (lseMix late key m l r) 0 = m ∧ rw (lseMix late key m l r) 1 = l ∧
    rw (lseMix late key m l r) 5 = (if late then rw r 5 else key) ∧ (late = false → hasRetired (lseMix late key m l r) = true) ∧
    (lseMix late key m l r).buf = r.buf ∧ isOpaque (lseMix late key m l r) = isOpaque r := by
  refine ⟨?_, ?_, ?_, fun h => ?_, ?_, ?_⟩
  · simp [lseMix, rw_markLast]
  · simp [lseMix, rw_markLast, rw_setW]
  · simp [lseMix, rw_markLast, rw_setW]
  · simp [hasRetired, lseMix, getLsbD_markLast, h]
  · rw [lseMix, markLast_buf]; rfl
  · rw [isOpaque, isOpaque, lseMix, getLsbD_markLast, rw_setW_ne (by decide), rw_setW_ne (by decide)]; simp

section
variable (late : Bool) (t : Term) (vec : List (BitVec 32)) (r : Rec) (s : State)

theorem retireLse_nan (h : isNan (n32 (rw r 0)) = true ∨ isNan (n32 t.f0) = true) : retireLse late t vec (r, s) =
    (lseMix late t.key nan32 nan32 r, stashWrite r.team (rw r 8).toNat (bytes32 (List.replicate (rw r 4).toNat nan32))
      (tapRec r t.key (if late then 1 else 0) s)) :=
  if_pos (by simpa using h)

theorem retireLse_value (h : isNan (n32 (rw r 0)) = false) (h' : isNan (n32 t.f0) = false) {mn a b : BitVec 32}
    (hmn : mn = if lt32 (rw r 0) t.f0 then t.f0 else rw r 0) (ha : a = lseScale (rw r 0) mn) (hb : b = lseScale t.f0 mn) :
    retireLse late t vec (r, s) = (lseMix late t.key mn (sum32 [mul32 a (rw r 1), mul32 b t.f1]) r,
      stashWrite r.team (rw r 8).toNat (bytes32 ((List.range (rw r 4).toNat).map fun j => sum32 [mul32 a
        ((words32 (stashRead s r.team (rw r 8).toNat (4 * (rw r 4).toNat))).getD j 0), mul32 b (vec.getD j 0)]))
      (tapRec r t.key (if late then 1 else 0) s)) := by
  subst hmn ha hb
  rw [← stashRead_congr (tapRec_team r t.key (if late then 1 else 0) s)]
  exact if_neg (by simp [h, h'])

/-- What every log-sum term leaves of its record. -/
theorem retireLse_rest : rw (retireLse late t vec (r, s)).1 5 = (if late then rw r 5 else t.key) ∧
    (late = false → hasRetired (retireLse late t vec (r, s)).1 = true) ∧ (retireLse late t vec (r, s)).1.buf = r.buf ∧
    isOpaque (retireLse late t vec (r, s)).1 = isOpaque r := by
  obtain ⟨m, l, hml⟩ : ∃ m l, (retireLse late t vec (r, s)).1 = lseMix late t.key m l r := by
    by_cases h : isNan (n32 (rw r 0)) = true ∨ isNan (n32 t.f0) = true
    · exact ⟨_, _, by rw [retireLse_nan late t vec r s h]⟩
    · obtain ⟨h1, h2⟩ := not_or.1 h
      exact ⟨_, _, by rw [retireLse_value late t vec r s (by simpa using h1) (by simpa using h2) rfl rfl rfl]⟩
  rw [hml]
  obtain ⟨-, -, h5, hr, hb, ho⟩ := lseMix_spec late t.key m l r
  exact ⟨h5, hr, hb, ho⟩

end

end Sys2Proof.Machine
end

section
/-! PROOFS. Matrix instructions, K-steps and record operations in flight proceed (R182, R183, R187, R190, R197, R200, R201). -/

namespace Sys2Proof.Machine

/-! ## Matrix instructions (R183, R187, R190) -/

/-- A streamed instruction whose handles are full and that has a step left performs it. -/
theorem mmasStep_full {s : State} {o : Op} {ty p k0 i kend : Nat} {gs : List MmGroup} {sets : List (Nat × Nat)} (hi : i < kend)
    (hh : ∀ h ∈ mmHandles s gs, ∃ x, h = .some x ∧ x.err = false ∧ x.st = .full) {cols : List (Int × List (Option Num))}
    {r : List MmGroup × Flags × State} {w : State} (hcols : cols = mmCols s ty i gs)
    (hr : r = gs.foldl (mmGroup ty i (decide ((i - k0) % p = 0)) (decide ((i - k0) % p = p - 1) || decide (i + 1 = kend))
      (cols.map (·.1)) (cols.map (·.2))) ([], 0, s))
    (hw : w = gs.foldl (fun s m => orFpx m.gk r.2.1 s) (tick r.2.2)) : mmasStep o ty p k0 i kend gs sets s =
      if i + 1 = kend then endMmas o ty r.1 sets false w else setOp o.id (.mmas ty p k0 (i + 1) kend r.1 sets) w := by
  have herr : ((mmHandles s gs).any fun h => match h with | .some x => x.err | .none => false) = false :=
    List.any_eq_false.2 fun h hm => by obtain ⟨x, rfl, he, -⟩ := hh h hm; simp [he]
  have hfull : ((mmHandles s gs).all fun h => match h with | .some x => x.st == .full | .none => false) = true :=
    List.all_eq_true.2 fun h hm => by obtain ⟨x, rfl, -, hs⟩ := hh h hm; simp [hs]
  subst hcols hr hw
  rw [mmasStep, if_neg (not_le.2 hi)]
  refine (if_neg (by rw [← Bool.not_eq_true] at herr; exact herr)).trans ?_
  exact if_pos hfull

section
variable {s : State} {k : Nat} {o : Op} (hf : InFlight s k o)
include hf

theorem exec_matrixCompletion {ty : Nat} {fa fb : BitVec 3} {gs : List MrGroup} (hk : o.k = .matrix ty fa fb gs) :
    exec (.matrixCompletion k) s =
      .next (if engineTurn s o then settleTeam (teamOfG o.gk) (finishMatrix o ty fa fb gs s) else s) := by
  show execMatrixCompletion k s = _
  have hfind : findOp s k = .some o := hf
  simp only [execMatrixCompletion, hfind, hk]

theorem exec_mmasKStep {ty p k0 i kend : Nat} {gs : List MmGroup} {sets : List (Nat × Nat)} (hk : o.k = .mmas ty p k0 i kend gs sets)
    (hrun : enginesRun s o.gk = true) (hturn : engineTurn s o = true) :
    exec (.mmasKStep k) s = .next (settleTeam (teamOfG o.gk) (mmasStep o ty p k0 i kend gs sets s)) := by
  show execMmasKStep k s = _
  have hfind : findOp s k = .some o := hf
  simp only [execMmasKStep, hfind, hk, hrun, hturn, Bool.and_self, if_true]

/-! ## Record operations (R197, R200, R201, R202) -/

section
variable {t : Nat} {ch : Option Nat} {r : RecOp} (hid : o.id = k) (hk : o.k = .rop t ch false r) (hfirst : s.mm.ops.any (arrivesFirst o) = false)
include hid hk hfirst

theorem exec_recordOperationArrival_resident (hres : (getTeam s t).st = .resident) (hheld : firstHeld s t = .none) :
    exec (.recordOperationArrival k) s =
      .next (applyRec o t (if ch.isNone then halfOf s o.gk else 0) r (dropOp k s)) := by
  show execRecordOperationArrival k s = _
  have hfind : findOp s k = .some o := hf
  simp only [execRecordOperationArrival, hfind, hk, arriveOp, hfirst, hres, hheld, hid, Option.isNone_none, Bool.true_or,
    Bool.false_eq_true, if_false, if_true]
  rfl

theorem exec_recordOperationArrival_away (hres : (getTeam s t).st ≠ .resident) (hend : (getTeam s t).st ≠ .ended)
    (hq : (getTeam s t).st ≠ .queued) : exec (.recordOperationArrival k) s = .next { s with mm := { s.mm with
      ops := (s.mm.ops.filter fun p => p.id != k) ++ [{ o with k := .rop t ch true r }] } } := by
  show execRecordOperationArrival k s = _
  have hfind : findOp s k = .some o := hf
  have hno : ¬ ((getTeam s t).st = .ended ∨ (getTeam s t).st = .queued) := not_or.2 ⟨hend, hq⟩
  simp only [execRecordOperationArrival, hfind, hk, arriveOp, hfirst, if_neg hno, if_neg hres, hid, Bool.false_eq_true, if_false]

end

theorem exec_creplayCompletion {d : BitVec 6} {n : Nat} (hk : o.k = .creplay d n) :
    exec (.creplayCompletion k) s = .next (filled o false d (BitVec.ofNat 64 n) (dropOp k s)) := by
  show execCreplayCompletion k s = _
  have hfind : findOp s k = .some o := hf
  simp only [execCreplayCompletion, hfind, hk]
  rfl

end

/-- A `copen` that takes its place gives its thread the record's number (R194). -/
theorem applyRec_copen {s : State} {o : Op} (t half rid off h : Nat) (d : BitVec 6) (lse : Bool) (ha : aliveG s o.gk = true) :
    applyRec o t half (.copen d rid off h lse) s = filled o false d (BitVec.ofNat 64 rid) (openRec t half rid off h lse s) :=
  if_pos ha

/-- A `cread` gives its thread eight bytes of the record's image (R200). -/
theorem applyRec_cread {s : State} {o : Op} {t half rid i : Nat} {d : BitVec 6} {x : Rec} (ha : aliveG s o.gk = true)
    (hx : getRec s t half rid = .some x) : applyRec o t half (.cread d rid i) s =
      filled o false d (BitVec.ofNat 64 (fieldOf (recImage x) (8 * i) 8)) s := by
  simp only [applyRec, ha, hx, Bool.not_true, Bool.false_eq_true, if_false]
  rfl

/-! ## The statement -/

/-- Settles O40: each event by what its completion comes to; the values by the exact sum that is rounded once; the records by where a
term goes and what it makes of each word. -/
theorem matrixAndRecordsProceed : Obligations.MatrixAndRecordsProceed := by
  refine ⟨⟨?matrix, ?kstep, ?arrival, ?away, ?creplay⟩, ⟨?values, ?window, ?nans, ?group⟩, ⟨?arrive, ?radiance, ?logSum⟩⟩
  case matrix =>
    intro s k ty o fa fb gs hf hk
    rw [exec_matrixCompletion hf hk]
    exact ⟨fun h => by rw [if_pos h], fun h => by simp [h]⟩
  case kstep =>
    intro s k ty p k0 i kend o gs sets hf hk hrun hturn hi hh cols r w hcols hr hw
    rw [exec_mmasKStep hf hk hrun hturn, mmasStep_full hi hh hcols hr hw]
  case arrival =>
    intro s k t o ch r hf hid hk hfirst hres hheld half hhalf
    rw [exec_recordOperationArrival_resident hf hid hk hfirst hres hheld, ← hhalf]
    refine ⟨rfl, ?_, ?_⟩
    · rintro d rid off h lse rfl ha
      rw [applyRec_copen t half rid off h d lse (s := dropOp k s) ha]
    · rintro d rid i x rfl ha hx
      rw [applyRec_cread (s := dropOp k s) ha hx]
  case away => exact fun s k t o ch r hf hid hk hfirst => exec_recordOperationArrival_away hf hid hk hfirst
  case creplay => exact fun s k n o d hf hk => exec_creplayCompletion hf hk
  case values =>
    exact fun sc row col hr hc => ⟨fun d x hd hx => stepD_rounds_once hr hc hd hx, fun c x hc' hx => stepFrom_rounds_odd hr hc hc' hx⟩
  case window => exact fun acc => windowEnd_rounds_once
  case nans => exact fun sc d row col c => ⟨stepD_of_nan, stepFrom_of_nan⟩
  case group =>
    rintro ty k e first last sb cols acc m ha g sc row col hh rfl rfl rfl rfl he r rfl
    refine ⟨fun hty n z hm hz => mmGroup_slot hh he hty hm hz, fun hty a hstep => mmGroup_regs hh he hty hstep⟩
  case arrive =>
    refine fun t vec r s => ⟨fun ho => ?_, fun ho => ⟨arriveTerm_accepts ho, ?_, ?_, ?_⟩⟩
    · rw [arriveTerm_opaque ho]
      exact ⟨rfl, rfl⟩
    · rintro hr hk x rfl
      rw [arriveTerm_late ho hr hk]
      rfl
    · refine fun hl hk => ⟨fun hb => ?_, fun hb u us hi => ?_⟩
      · obtain ⟨u, us, hi⟩ := exists_insertTerm t r.buf
        have hlen := length_insertTerm t r.buf
        rw [hi, List.length_cons] at hlen
        rw [arriveTerm_rad ho hl hk hi, if_pos (by omega), hi]
      · have hlen := length_insertTerm t r.buf
        rw [hi, List.length_cons] at hlen
        rw [arriveTerm_rad ho hl hk hi, if_neg (by omega)]
    · refine fun hl hk => ⟨fun hb => ?_, fun hb hu => ?_, fun u us hbuf hb hx => ?_⟩
      · rw [arriveTerm_lse_room ho hl hk hb]
      · rw [arriveTerm_lse_least ho hl hk hb hu]
      · rw [arriveTerm_lse_full ho hl hk hbuf hb hx]
  case radiance =>
    rintro late t r s x w rfl rfl
    obtain ⟨h0, h1, h2, h3, h5⟩ := retireRad_words late t r s
    exact ⟨h0, h1, h2, h3, h5, retireRad_retired late t r s, retireRad_logged late t r s, retireRad_truncated late t r s,
      retireRad_below late t r s, retireRad_above late t r s, fun i => retireRad_kept late t r s⟩
  case logSum =>
    rintro late t vec r s p n ob rfl rfl rfl
    obtain ⟨h5, hr, hb, ho⟩ := retireLse_rest late t vec r s
    refine ⟨h5, hr, hb, ho, fun h => ?_, fun h h' mn a b hmn ha hb' => ?_⟩
    · obtain ⟨h0, h1, -⟩ := lseMix_spec late t.key nan32 nan32 r
      rw [retireLse_nan late t vec r s h]
      exact ⟨h0, h1, stashRead_stashWrite_same _ _ _ _ (by rw [length_bytes32, List.length_replicate])⟩
    · obtain ⟨h0, h1, -⟩ := lseMix_spec late t.key mn (sum32 [mul32 a (rw r 1), mul32 b t.f1]) r
      rw [retireLse_value late t vec r s h h' hmn ha hb']
      exact ⟨h0, h1, stashRead_stashWrite_same _ _ _ _ (by rw [length_bytes32, List.length_map, List.length_range])⟩

end Sys2Proof.Machine
end

section
/-! PROOFS. Two-source integer forms (R76, R78 to R80, R84): decoding, and results as exact arithmetic. -/

namespace Sys2Proof.Machine

/-! ## What a ready bundle gets -/

section
variable {s : State} {F : Form} {fp : Bool} {body : List Word → Nat → State → Eff}

/-- A ready bundle whose body gives a register value gets it. -/
theorem lane_result (hr : LaneReady s F) {f : Nat → Word} {fl : Nat → Flags}
    (hb : ∀ i ∈ s.cur.tids, ∀ t, Agree s t i →
      body (F.flds.map fun x => (getR s s.cur.gk i x.uni x.r).v) i t = .val (.some (f i)) .none (fl i) .none) :
    ∃ t, lane F fp body s = .next t ∧ LaneResult s t F f fl :=
  lane_done hr (dst := fun _ => .none) hb (fun _ _ => rfl) fun _ _ => rfl

/-- The same, of a body that gives the value of a function of two v registers. -/
theorem lane_result_b2 {a b : Src} {m n : Nat} {x y : Bool} (hr : LaneReady s F)
    (hF : F.flds = [⟨false, a.r, a.c, m, x⟩, ⟨false, b.r, b.c, n, y⟩]) (f : Word → Word → Word) :
    ∃ t, lane F false (b2 f) s = .next t ∧ LaneResult s t F (fun i => f (valV s i a.r) (valV s i b.r)) :=
  lane_result hr fun _ _ _ _ => by rw [hF]; rfl

end

/-! ## Decoding -/

/-- A word of the lane set is what its cell reads, if that is well-formed. -/
theorem decodePlain_lane {w x : BitVec 32} {i : Instr} (hs : Word.set w = 0) (hc : laneCell w x = .ok i) (hf : i.flaw = .none) :
    decodePlain w x = .ok i := by
  simp only [decodePlain, hs, if_true, hc, hf]

/-! ## Exact results of words -/

section
variable {n : Nat} (x y : BitVec n)

theorem add_eq_ofInt : x + y = BitVec.ofInt n (x.toInt + y.toInt) := by
  rw [BitVec.ofInt_add, BitVec.ofInt_toInt, BitVec.ofInt_toInt]

theorem sub_eq_ofInt : x - y = BitVec.ofInt n (x.toInt - y.toInt) := by
  rw [sub_eq_add_neg x.toInt, BitVec.ofInt_add, BitVec.ofInt_neg, BitVec.ofInt_toInt, BitVec.ofInt_toInt, BitVec.sub_eq_add_neg]

theorem mul_eq_ofInt : x * y = BitVec.ofInt n (x.toInt * y.toInt) := by
  rw [BitVec.ofInt_mul, BitVec.ofInt_toInt, BitVec.ofInt_toInt]

theorem ofInt_toNat : BitVec.ofInt n x.toNat = x := by rw [BitVec.ofInt_natCast, BitVec.ofNat_toNat, BitVec.setWidth_eq]

theorem add_eq_ofInt_toNat : x + y = BitVec.ofInt n (x.toNat + y.toNat) := by
  rw [BitVec.ofInt_add, ofInt_toNat, ofInt_toNat]

theorem sub_eq_ofInt_toNat : x - y = BitVec.ofInt n (x.toNat - y.toNat) := by
  rw [sub_eq_add_neg (x.toNat : Int), BitVec.ofInt_add, BitVec.ofInt_neg, ofInt_toNat, ofInt_toNat, BitVec.sub_eq_add_neg]

theorem mul_eq_ofNat : x * y = BitVec.ofNat n (x.toNat * y.toNat) := by
  rw [BitVec.ofNat_mul]; simp

end

theorem clamp_eq {lo hi : Int} (h : lo ≤ hi) (x : Int) : clamp lo hi x = max lo (min hi x) := by
  unfold clamp; split_ifs <;> omega

theorem satI_64 (x : Int) : satI 64 x = satTo (-2 ^ 63) (2 ^ 63 - 1) x := congrArg (BitVec.ofInt 64) (clamp_eq (by decide) x)
theorem satI_32 (x : Int) : satI 32 x = satTo (-2 ^ 31) (2 ^ 31 - 1) x := congrArg (BitVec.ofInt 64) (clamp_eq (by decide) x)
theorem satN_64 (x : Int) : satN 64 x = satTo 0 (2 ^ 64 - 1) x := congrArg (BitVec.ofInt 64) (clamp_eq (by decide) x)
theorem satN_32 (x : Int) : satN 32 x = satTo 0 (2 ^ 32 - 1) x := congrArg (BitVec.ofInt 64) (clamp_eq (by decide) x)

theorem sx32_eq_ofInt (x : BitVec 32) : sx32 x = BitVec.ofInt 64 x.toInt := rfl
theorem toInt_sx32 (x : BitVec 32) : (sx32 x).toInt = x.toInt := BitVec.toInt_signExtend_of_le (by decide)
theorem toNat_zx32 (x : BitVec 32) : (zx32 x).toNat = x.toNat := by simp [zx32]; omega

theorem zx32_eq_ofNat (x : BitVec 32) : zx32 x = BitVec.ofNat 64 x.toNat := (BitVec.ofNat_toNat 64 x).symm

theorem sx32_mul_sx32 (x y : BitVec 32) : sx32 x * sx32 y = BitVec.ofInt 64 (x.toInt * y.toInt) := by
  rw [mul_eq_ofInt, toInt_sx32, toInt_sx32]

theorem zx32_mul_zx32 (x y : BitVec 32) : zx32 x * zx32 y = BitVec.ofNat 64 (x.toNat * y.toNat) := by
  rw [mul_eq_ofNat, toNat_zx32, toNat_zx32]

theorem minI_eq_ite (x y : Word) : minI x y = if x.toInt ≤ y.toInt then x else y := by
  simp only [minI, BitVec.slt_iff_toInt_lt, ← not_le, ite_not]

theorem maxI_eq_ite (x y : Word) : maxI x y = if x.toInt ≤ y.toInt then y else x := by
  rw [← BitVec.toInt_inj, toInt_maxI]
  split
  · next h => exact max_eq_right h
  · next h => exact max_eq_left (not_le.1 h).le

theorem minN_eq_ite (x y : Word) : minN x y = if x.toNat ≤ y.toNat then x else y := by
  simp only [minN, BitVec.ult_iff_lt, BitVec.lt_def, ← not_le, ite_not]

theorem maxN_eq_ite (x y : Word) : maxN x y = if x.toNat ≤ y.toNat then y else x := by
  apply BitVec.eq_of_toNat_eq
  simp only [maxN, BitVec.ult_iff_lt, BitVec.lt_def]
  split_ifs <;> omega

theorem minI_sx32 (x y : BitVec 32) : minI (sx32 x) (sx32 y) = BitVec.ofInt 64 (min x.toInt y.toInt) := by
  rw [← BitVec.ofInt_toInt (x := minI _ _), toInt_minI, toInt_sx32, toInt_sx32]

theorem maxI_sx32 (x y : BitVec 32) : maxI (sx32 x) (sx32 y) = BitVec.ofInt 64 (max x.toInt y.toInt) := by
  rw [← BitVec.ofInt_toInt (x := maxI _ _), toInt_maxI, toInt_sx32, toInt_sx32]

theorem minN_zx32 (x y : BitVec 32) : minN (zx32 x) (zx32 y) = BitVec.ofNat 64 (min x.toNat y.toNat) := by
  rw [minN_eq_ite, toNat_zx32, toNat_zx32]
  split
  · next h => rw [min_eq_left h, zx32_eq_ofNat]
  · next h => rw [min_eq_right (not_le.1 h).le, zx32_eq_ofNat]

theorem maxN_zx32 (x y : BitVec 32) : maxN (zx32 x) (zx32 y) = BitVec.ofNat 64 (max x.toNat y.toNat) := by
  rw [maxN_eq_ite, toNat_zx32, toNat_zx32]
  split
  · next h => rw [max_eq_right h, zx32_eq_ofNat]
  · next h => rw [max_eq_left (not_le.1 h).le, zx32_eq_ofNat]

theorem add_shiftLeft_eq (x y : Word) (k : Nat) : x + (y <<< k) = BitVec.ofNat 64 (x.toNat + y.toNat * 2 ^ k) := by
  apply BitVec.eq_of_toNat_eq
  simp [Nat.shiftLeft_eq]

/-! ## The two-source forms -/

/-- `I` is the shared lane operation of form `F` on the function `f` of its two sources. -/
def ComputesTwo (F : BitVec 6 → Src → Src → Form) (I : BitVec 6 → Src → Src → Instr) (f : Word → Word → Word) : Prop :=
  ∀ d a b s, exec (I d a b) s = lane (F d a b) false (b2 f) s

/-- The function may be said in another way. -/
theorem ComputesTwo.of_eq {F : BitVec 6 → Src → Src → Form} {I : BitVec 6 → Src → Src → Instr} {f g : Word → Word → Word}
    (hI : ComputesTwo F I f) (h : ∀ x y, f x y = g x y) : ComputesTwo F I g := by
  obtain rfl : f = g := funext₂ h
  exact hI

/-- Each two-source form computes its exact result (R76, R78 to R80). -/
theorem computesTwo_laneTwo : ∀ e ∈ laneTwo, ComputesTwo (form2 false) e.1 e.2 := by
  simp only [laneTwo, List.forall_mem_cons, List.not_mem_nil, false_imp_iff, implies_true, and_true]
  exact ⟨-- R76: sums and differences
    .of_eq (fun _ _ _ _ => rfl) add_eq_ofInt,
    .of_eq (fun _ _ _ _ => rfl) sub_eq_ofInt,
    .of_eq (fun _ _ _ _ => rfl) fun _ _ => congrArg _ (add_eq_ofInt _ _),
    .of_eq (fun _ _ _ _ => rfl) fun _ _ => congrArg _ (sub_eq_ofInt _ _),
    .of_eq (fun _ _ _ _ => rfl) fun _ _ => congrArg _ (add_eq_ofInt_toNat _ _),
    .of_eq (fun _ _ _ _ => rfl) fun _ _ => congrArg _ (sub_eq_ofInt_toNat _ _),
    .of_eq (fun _ _ _ _ => rfl) fun _ _ => satI_64 _,
    .of_eq (fun _ _ _ _ => rfl) fun _ _ => satI_64 _,
    .of_eq (fun _ _ _ _ => rfl) fun _ _ => satN_64 _,
    .of_eq (fun _ _ _ _ => rfl) fun _ _ => satN_64 _,
    .of_eq (fun _ _ _ _ => rfl) fun _ _ => satI_32 _,
    .of_eq (fun _ _ _ _ => rfl) fun _ _ => satI_32 _,
    .of_eq (fun _ _ _ _ => rfl) fun _ _ => satN_32 _,
    .of_eq (fun _ _ _ _ => rfl) fun _ _ => satN_32 _,
    -- R78: products
    .of_eq (fun _ _ _ _ => rfl) mul_eq_ofInt,
    fun _ _ _ _ => rfl,
    fun _ _ _ _ => rfl,
    .of_eq (fun _ _ _ _ => rfl) fun _ _ => congrArg _ (mul_eq_ofInt _ _),
    .of_eq (fun _ _ _ _ => rfl) fun _ _ => congrArg _ (mul_eq_ofNat _ _),
    .of_eq (fun _ _ _ _ => rfl) fun _ _ => sx32_mul_sx32 _ _,
    .of_eq (fun _ _ _ _ => rfl) fun _ _ => zx32_mul_zx32 _ _,
    -- R79: the least and the greatest
    .of_eq (fun _ _ _ _ => rfl) minI_eq_ite,
    .of_eq (fun _ _ _ _ => rfl) maxI_eq_ite,
    .of_eq (fun _ _ _ _ => rfl) minN_eq_ite,
    .of_eq (fun _ _ _ _ => rfl) maxN_eq_ite,
    .of_eq (fun _ _ _ _ => rfl) fun _ _ => minI_sx32 _ _,
    .of_eq (fun _ _ _ _ => rfl) fun _ _ => maxI_sx32 _ _,
    .of_eq (fun _ _ _ _ => rfl) fun _ _ => minN_zx32 _ _,
    .of_eq (fun _ _ _ _ => rfl) fun _ _ => maxN_zx32 _ _,
    -- R80: logic
    fun _ _ _ _ => rfl, fun _ _ _ _ => rfl, fun _ _ _ _ => rfl, fun _ _ _ _ => rfl, fun _ _ _ _ => rfl, fun _ _ _ _ => rfl⟩

/-- A cell that holds a two-source form decodes to it, with both sources' controls. -/
theorem decodePlain_lr2 {I : BitVec 6 → Src → Src → Instr} {maj : BitVec 6} {mn : BitVec 3}
    (hc : ∀ {w x}, Word.major w = maj → Word.minor w = mn → laneCell w x = lr2D I w) (hf : ∀ d a b, (I d a b).flaw = .none)
    (w x : BitVec 32) : LaneWord w maj mn → decodePlain w x = .ok (I (Word.d w) (srcA w) (srcB w)) :=
  fun ⟨hset, hmaj, hmin⟩ => decodePlain_lane hset (hc hmaj hmin) (hf ..)

theorem decodePlain_laneTwo : ∀ p ∈ laneTwoCells.zip laneTwo, ∀ w x, LaneWord w p.1.1 p.1.2 →
    decodePlain w x = .ok (p.2.1 (Word.d w) (srcA w) (srcB w)) := by
  simp only [laneTwoCells, laneTwo, List.zip_cons_cons, List.zip_nil_right, List.forall_mem_cons, List.not_mem_nil, false_imp_iff,
    implies_true, and_true]
  exact ⟨decodePlain_lr2 laneCell_addI64 fun _ _ _ => rfl,
    decodePlain_lr2 laneCell_subI64 fun _ _ _ => rfl,
    decodePlain_lr2 laneCell_addI32 fun _ _ _ => rfl,
    decodePlain_lr2 laneCell_subI32 fun _ _ _ => rfl,
    decodePlain_lr2 laneCell_addN32 fun _ _ _ => rfl,
    decodePlain_lr2 laneCell_subN32 fun _ _ _ => rfl,
    decodePlain_lr2 laneCell_addI64Sat fun _ _ _ => rfl,
    decodePlain_lr2 laneCell_subI64Sat fun _ _ _ => rfl,
    decodePlain_lr2 laneCell_addN64Sat fun _ _ _ => rfl,
    decodePlain_lr2 laneCell_subN64Sat fun _ _ _ => rfl,
    decodePlain_lr2 laneCell_addI32Sat fun _ _ _ => rfl,
    decodePlain_lr2 laneCell_subI32Sat fun _ _ _ => rfl,
    decodePlain_lr2 laneCell_addN32Sat fun _ _ _ => rfl,
    decodePlain_lr2 laneCell_subN32Sat fun _ _ _ => rfl,
    decodePlain_lr2 laneCell_mulI64 fun _ _ _ => rfl,
    decodePlain_lr2 laneCell_mulhiI64 fun _ _ _ => rfl,
    decodePlain_lr2 laneCell_mulhiN64 fun _ _ _ => rfl,
    decodePlain_lr2 laneCell_mulI32 fun _ _ _ => rfl,
    decodePlain_lr2 laneCell_mulN32 fun _ _ _ => rfl,
    decodePlain_lr2 laneCell_mulwI32 fun _ _ _ => rfl,
    decodePlain_lr2 laneCell_mulwN32 fun _ _ _ => rfl,
    decodePlain_lr2 laneCell_minI64 fun _ _ _ => rfl,
    decodePlain_lr2 laneCell_maxI64 fun _ _ _ => rfl,
    decodePlain_lr2 laneCell_minN64 fun _ _ _ => rfl,
    decodePlain_lr2 laneCell_maxN64 fun _ _ _ => rfl,
    decodePlain_lr2 laneCell_minI32 fun _ _ _ => rfl,
    decodePlain_lr2 laneCell_maxI32 fun _ _ _ => rfl,
    decodePlain_lr2 laneCell_minN32 fun _ _ _ => rfl,
    decodePlain_lr2 laneCell_maxN32 fun _ _ _ => rfl,
    decodePlain_lr2 laneCell_and fun _ _ _ => rfl,
    decodePlain_lr2 laneCell_or fun _ _ _ => rfl,
    decodePlain_lr2 laneCell_xor fun _ _ _ => rfl,
    decodePlain_lr2 laneCell_andn fun _ _ _ => rfl,
    decodePlain_lr2 laneCell_orn fun _ _ _ => rfl,
    decodePlain_lr2 laneCell_xnor fun _ _ _ => rfl⟩

/-- Settles O1: the shared lane operation on each form's function, whose values are exact arithmetic, and the cells one by one. -/
theorem laneTwoSourceResults : Obligations.LaneTwoSourceResults := by
  refine ⟨?two, ?lea, decodePlain_laneTwo, ?leaCell⟩
  case two =>
    intro e he s d a b hr
    rw [computesTwo_laneTwo e he]
    exact lane_result_b2 hr rfl e.2
  case lea =>
    intro s d a b k hr
    simp only [← add_shiftLeft_eq]
    exact lane_result_b2 hr rfl fun x y => x + (y <<< k.toNat)
  case leaCell =>
    rintro w x k ⟨hset, hmaj, rfl⟩
    exact decodePlain_lane hset (laneCell_lea hmaj) rfl

end Sys2Proof.Machine
end

section
/-! PROOFS. Shifts and rotates (R82): decoding, results for every count, a poisoned count. -/

namespace Sys2Proof.Machine

/-! ## Shifts as exact arithmetic -/

/-- Dividing by a power of two beyond the width leaves the sign. -/
theorem toInt_ediv_two_pow {n : Nat} (x : BitVec (n + 1)) {c : Nat} (h : n ≤ c) : x.toInt / 2 ^ c = x.toInt / 2 ^ n := by
  have hlo := x.le_toInt
  have hhi := x.toInt_lt
  have hpow : (2 : Int) ^ n ≤ 2 ^ c := pow_le_pow_right₀ (by decide) h
  have hpos : (0 : Int) < 2 ^ n := by positivity
  simp only [Nat.add_sub_cancel] at hlo hhi
  rcases le_or_gt 0 x.toInt with hx | hx
  · rw [Int.ediv_eq_zero_of_lt hx hhi, Int.ediv_eq_zero_of_lt hx (by omega)]
  · have neg : ∀ b : Int, 2 ^ n ≤ b → x.toInt / b = -1 := fun b hb => by
      rw [Int.ediv_eq_iff_of_pos (by omega)]; constructor <;> linarith
    rw [neg _ hpow, neg _ le_rfl]

/-- An arithmetic shift, its count held at the width less one, divides by the whole power of two. -/
theorem toInt_sshiftRight_min {n : Nat} (x : BitVec (n + 1)) (c : Nat) : (x.sshiftRight (min c n)).toInt = x.toInt / 2 ^ c := by
  rw [BitVec.toInt_sshiftRight, Int.shiftRight_eq_div_pow]
  rcases le_total c n with h | h
  · rw [min_eq_left h]; norm_cast
  · rw [min_eq_right h, toInt_ediv_two_pow x h]; norm_cast

theorem sar64_eq (x c : Word) : sar64 x c = BitVec.ofInt 64 (x.toInt / 2 ^ c.toNat) := by
  rw [← toInt_sshiftRight_min (n := 63) x, BitVec.ofInt_toInt, sar64]

theorem sar32_eq (x : BitVec 32) (c : Nat) : sx32 (x.sshiftRight (min c 31)) = BitVec.ofInt 64 (x.toInt / 2 ^ c) := by
  rw [sx32_eq_ofInt, toInt_sshiftRight_min (n := 31) x]

theorem computesTwo_laneShift : ∀ e ∈ laneShift, ComputesTwo (formSh false) e.1 fun x c => e.2 x c.toNat := by
  simp only [laneShift, List.forall_mem_cons, List.not_mem_nil, false_imp_iff, implies_true, and_true]
  exact ⟨fun _ _ _ _ => rfl, fun _ _ _ _ => rfl, .of_eq (fun _ _ _ _ => rfl) sar64_eq, fun _ _ _ _ => rfl, fun _ _ _ _ => rfl,
    fun _ _ _ _ => rfl, .of_eq (fun _ _ _ _ => rfl) fun _ _ => sar32_eq _ _, fun _ _ _ _ => rfl⟩

theorem decodePlain_laneShift : ∀ p ∈ (List.range 8).zip laneShift, ∀ w x, LaneWord w 6 (BitVec.ofNat 3 p.1) →
    decodePlain w x = .ok (p.2.1 (Word.d w) (srcA w) (srcB w)) := by
  rw [show List.range 8 = [0, 1, 2, 3, 4, 5, 6, 7] from rfl]
  simp only [laneShift, List.zip_cons_cons, List.zip_nil_right, List.forall_mem_cons, List.not_mem_nil, false_imp_iff, implies_true, and_true]
  exact ⟨decodePlain_lr2 laneCell_shlN64 fun _ _ _ => rfl,
    decodePlain_lr2 laneCell_shrN64 fun _ _ _ => rfl,
    decodePlain_lr2 laneCell_shrI64 fun _ _ _ => rfl,
    decodePlain_lr2 laneCell_rotlN64 fun _ _ _ => rfl,
    decodePlain_lr2 laneCell_shlN32 fun _ _ _ => rfl,
    decodePlain_lr2 laneCell_shrN32 fun _ _ _ => rfl,
    decodePlain_lr2 laneCell_shrI32 fun _ _ _ => rfl,
    decodePlain_lr2 laneCell_rotlN32 fun _ _ _ => rfl⟩

/-! ## A poisoned count -/

/-- The count of a shift is its only strict field: poisoned, it takes POISON_USE with the number of its field (R43, R82). -/
theorem lane_formSh_poisoned {s : State} {d : BitVec 6} {a b : Src} {i : Nat} (hr : LaneReadable s (form2 false d a b)) (ha : Alone s i)
    (hp : (readCell (getV s (tkOf s i) b.r)).2 = true) (fp : Bool) (body : List Word → Nat → State → Eff) :
    lane (formSh false d a b) fp body s = .next (trapThread i { name := .poisonUse, pc := s.cur.pc, info := 1 } s) := by
  have hi : i ∈ s.cur.tids := by rw [ha]; exact List.mem_singleton_self i
  have hlim : overLimit s s.cur.gk (formSh false d a b) = false := overLimit_false (F := form2 false d a b) hr.limit hr.limitD hr.limitM
  have hsrc : ∀ f ∈ (formSh false d a b).flds,
      (getR s s.cur.gk i f.uni f.r).st = .full ∨ (getR s s.cur.gk i f.uni f.r).st = .dead := by
    have hA := hr.source i hi (fA false a) (by simp [form2])
    have hB := hr.source i hi (fB false b) (by simp [form2])
    simpa [formSh, fA, fB] using ⟨hA, hB⟩
  have hread := readSources_poison (s := s) (gk := s.cur.gk) (tid := i) (pc := s.cur.pc) (F := formSh false d a b)
    (pre := [fA false a]) (f := fB false b true) (post := []) rfl hsrc
    (fun g hg h => by rw [List.mem_singleton.1 hg] at h; exact absurd h Bool.false_ne_true) rfl hp (hr.pred i hi) (hr.dest i hi) (hr.destP i hi)
  rw [lane_alone hlim (hr.live i hi) ha, laneThread_trap (hr.guard i hi) hread]
  rfl

/-- Settles O2: the shared lane operation on each shift's function; the count is the only strict field of the form. -/
theorem laneShiftResults : Obligations.LaneShiftResults := by
  refine ⟨?results, ?poison, decodePlain_laneShift⟩
  case results =>
    intro e he s d a b hr
    rw [computesTwo_laneShift e he]
    exact lane_result_b2 hr rfl fun x c => e.2 x c.toNat
  case poison =>
    intro e he s d a b i hr ha hp
    rw [computesTwo_laneShift e he]
    exact lane_formSh_poisoned hr ha hp _ _

end Sys2Proof.Machine
end

section
/-! PROOFS. One-source integer forms, moves, constants and bit operations (R77, R80, R81, R83, R86). -/

namespace Sys2Proof.Machine

/-! ## The one-source forms -/

/-- A ready bundle gets the value of a function of its one source. -/
theorem lane_result_b1 {s : State} {F : Form} {u : Bool} {r : BitVec 6} {c : Ctl} {m : Nat} {x : Bool} (hr : LaneReady s F)
    (hF : F.flds = [⟨u, r, c, m, x⟩]) (f : Word → Word) :
    ∃ t, lane F false (b1 f) s = .next t ∧ LaneResult s t F (fun i => f (getR s s.cur.gk i u r).v) :=
  lane_result hr fun _ _ _ _ => by rw [hF]; rfl

/-- `I` is the shared lane operation on the function `f` of its source. -/
def ComputesOne (I : BitVec 6 → Src → Instr) (f : Word → Word) : Prop :=
  ∀ d a s, exec (I d a) s = lane (form1 false d a) false (b1 f) s

theorem ComputesOne.of_eq {I : BitVec 6 → Src → Instr} {f g : Word → Word} (hI : ComputesOne I f) (h : ∀ x, f x = g x) :
    ComputesOne I g := by
  obtain rfl : f = g := funext h
  exact hI

theorem ComputesOne.done {I : BitVec 6 → Src → Instr} {f : Word → Word} (hI : ComputesOne I f) {s : State} {d : BitVec 6} {a : Src}
    (hr : LaneReady s (form1 false d a)) :
    ∃ t, exec (I d a) s = .next t ∧ LaneResult s t (form1 false d a) fun i => f (valV s i a.r) := by
  rw [hI]
  exact lane_result_b1 hr rfl f

theorem neg_eq_ofInt (x : Word) : 0 - x = BitVec.ofInt 64 (-x.toInt) := by
  rw [BitVec.ofInt_neg, BitVec.ofInt_toInt]
  exact BitVec.zero_sub x

theorem iAbs_eq_ofInt (x : Word) : iAbs x = BitVec.ofInt 64 |x.toInt| := by
  unfold iAbs
  rw [BitVec.msb_eq_toInt]
  split
  · next h => rw [abs_of_neg (of_decide_eq_true h), neg_eq_ofInt]
  · next h => rw [abs_of_nonneg (not_lt.1 fun c => h (decide_eq_true c)), BitVec.ofInt_toInt]

theorem computesOne_laneOne : ∀ e ∈ laneOne, ComputesOne e.1 e.2 := by
  simp only [laneOne, List.forall_mem_cons, List.not_mem_nil, false_imp_iff, implies_true, and_true]
  exact ⟨.of_eq (fun _ _ _ => rfl) neg_eq_ofInt, .of_eq (fun _ _ _ => rfl) iAbs_eq_ofInt, fun _ _ _ => rfl, fun _ _ _ => rfl,
    fun _ _ _ => rfl, fun _ _ _ => rfl, fun _ _ _ => rfl⟩

/-- A cell that holds a one-source form decodes to it where the reserved fields are zero. -/
theorem decodePlain_lr1 {I : BitVec 6 → Src → Instr} {maj : BitVec 6} {mn : BitVec 3}
    (hc : ∀ {w x}, Word.major w = maj → Word.minor w = mn → laneCell w x = lr1D I w) (hf : ∀ d a, (I d a).flaw = .none)
    (w x : BitVec 32) : LaneWord w maj mn → Word.b w = 0 → Word.cb w = 0 → decodePlain w x = .ok (I (Word.d w) (srcA w)) :=
  fun ⟨hset, hmaj, hmin⟩ hb hcb => decodePlain_lane hset ((hc hmaj hmin).trans (if_pos ⟨hb, hcb⟩)) (hf ..)

theorem decodePlain_bitOps :
    ∀ p ∈ (List.range 8).zip ([.popc, .clz, .ctz, .brev, .bswap, .sextI8, .sextI16, .sextI32] : List (BitVec 6 → Src → Instr)), ∀ w x,
      LaneWord w 7 (BitVec.ofNat 3 p.1) → Word.b w = 0 → Word.cb w = 0 → decodePlain w x = .ok (p.2 (Word.d w) (srcA w)) := by
  rw [show List.range 8 = [0, 1, 2, 3, 4, 5, 6, 7] from rfl]
  simp only [List.zip_cons_cons, List.zip_nil_right, List.forall_mem_cons, List.not_mem_nil, false_imp_iff, implies_true, and_true]
  exact ⟨decodePlain_lr1 laneCell_popc fun _ _ => rfl,
    decodePlain_lr1 laneCell_clz fun _ _ => rfl,
    decodePlain_lr1 laneCell_ctz fun _ _ => rfl,
    decodePlain_lr1 laneCell_brev fun _ _ => rfl,
    decodePlain_lr1 laneCell_bswap fun _ _ => rfl,
    decodePlain_lr1 laneCell_sextI8 fun _ _ => rfl,
    decodePlain_lr1 laneCell_sextI16 fun _ _ => rfl,
    decodePlain_lr1 laneCell_sextI32 fun _ _ => rfl⟩

/-! ## Bits of a word (R83) -/

@[simp] theorem length_bitList (x : Word) : (bitList x).length = 64 := by simp [bitList]

theorem getElem?_bitList (x : Word) {k : Nat} (h : k < 64) : (bitList x)[k]? = some (x.getLsbD k) := by
  simp [bitList, h]

theorem getElem?_bitList_reverse (x : Word) {k : Nat} (h : k < 64) : (bitList x).reverse[k]? = some (x.getLsbD (63 - k)) := by
  rw [List.getElem?_reverse (by simpa using h), length_bitList, getElem?_bitList x (by omega)]

theorem popcount_eq (x : Word) : popcount x = BitVec.ofNat 64 ((List.range 64).countP x.getLsbD) := by
  rw [popcount, bitList, List.filter_map, List.length_map, Function.id_comp, ← List.countP_eq_length_filter, word]

/-- The false values that begin a list, and the true one that ends them. -/
theorem takeWhile_not_spec (l : List Bool) :
    (l.takeWhile (!·)).length ≤ l.length ∧ (∀ k < (l.takeWhile (!·)).length, l[k]? = some false) ∧
      ((l.takeWhile (!·)).length < l.length → l[(l.takeWhile (!·)).length]? = some true) := by
  induction l with
  | nil => simp
  | cons b l ih =>
    obtain ⟨hle, hfalse, htrue⟩ := ih
    cases b with
    | true => simp
    | false =>
      simp only [List.takeWhile_cons, Bool.not_false, if_true, List.length_cons, Nat.add_le_add_iff_right, Nat.add_lt_add_iff_right,
        List.getElem?_cons_succ]
      refine ⟨hle, fun k hk => ?_, htrue⟩
      cases k with
      | zero => rfl
      | succ k => exact hfalse k (Nat.lt_of_succ_lt_succ hk)

/-- The number of false values that begin the bits `bit 0`, …, `bit 63`. -/
theorem leadingFalse_spec {l : List Bool} {bit : Nat → Bool} (hl : l.length = 64) (hbit : ∀ k < 64, l[k]? = some (bit k)) {f : Word}
    (hf : f = word (l.takeWhile (!·)).length) :
    f.toNat ≤ 64 ∧ (∀ k < f.toNat, bit k = false) ∧ (f.toNat < 64 → bit f.toNat = true) := by
  obtain ⟨hle, hfalse, htrue⟩ := takeWhile_not_spec l
  rw [hl] at hle htrue
  have hn : f.toNat = (l.takeWhile (!·)).length := by
    rw [hf, word, BitVec.toNat_ofNat]
    exact Nat.mod_eq_of_lt (by omega)
  rw [hn]
  refine ⟨hle, fun k hk => ?_, fun h => ?_⟩
  · exact Option.some.inj ((hbit k (by omega)).symm.trans (hfalse k hk))
  · exact Option.some.inj ((hbit _ h).symm.trans (htrue h))

theorem testBit_natOfBits (l : List Bool) (k : Nat) : (natOfBits l).testBit k = (l[k]?).getD false := by
  induction l generalizing k with
  | nil => simp [natOfBits]
  | cons b l ih =>
    cases k with
    | zero => cases b <;> simp [natOfBits, Nat.testBit_zero]
    | succ k =>
      rw [natOfBits, Nat.testBit_succ, List.getElem?_cons_succ, ← ih]
      congr 1
      split <;> omega

theorem getLsbD_bitReverse (x : Word) {k : Nat} (h : k < 64) : (bitReverse x).getLsbD k = x.getLsbD (63 - k) := by
  rw [bitReverse, word, BitVec.getLsbD_ofNat, testBit_natOfBits, getElem?_bitList_reverse x h]
  simp [h]

theorem getElem?_bytesOf (n v : Nat) {k : Nat} (h : k < n) : (bytesOf n v)[k]? = some (BitVec.ofNat 8 (v / 256 ^ k)) := by
  induction n generalizing v k with
  | zero => omega
  | succ n ih =>
    cases k with
    | zero => simp [bytesOf]
    | succ k => rw [bytesOf, List.getElem?_cons_succ, ih _ (Nat.lt_of_succ_lt_succ h), Nat.div_div_eq_div_mul, pow_succ']

theorem testBit_natOf (bs : List Byte) (k : Nat) {j : Nat} (h : j < 8) :
    (natOf bs).testBit (8 * k + j) = ((bs[k]?).getD 0).getLsbD j := by
  induction bs generalizing k with
  | nil => simp [natOf]
  | cons b bs ih =>
    rw [natOf, add_comm b.toNat, show 256 = 2 ^ 8 from rfl, Nat.testBit_two_pow_mul_add _ b.isLt]
    cases k with
    | zero => rw [if_pos (by omega)]; simp [BitVec.getLsbD]
    | succ k => rw [if_neg (by omega), List.getElem?_cons_succ, ← ih]; congr 1; omega

theorem getLsbD_byteReverse (x : Word) {k j : Nat} (hk : k < 8) (hj : j < 8) :
    (byteReverse x).getLsbD (8 * k + j) = x.getLsbD (8 * (7 - k) + j) := by
  have hrev : (bytesOf 8 x.toNat).reverse[k]? = some (BitVec.ofNat 8 (x.toNat / 256 ^ (7 - k))) := by
    rw [List.getElem?_reverse (by rw [length_bytesOf]; exact hk), length_bytesOf, getElem?_bytesOf _ _ (by omega)]
  rw [byteReverse, word, BitVec.getLsbD_ofNat, testBit_natOf _ _ hj, hrev, Option.getD_some, BitVec.getLsbD_ofNat,
    show 256 = 2 ^ 8 from rfl, ← pow_mul, Nat.testBit_div_two_pow, BitVec.getLsbD]
  simp only [decide_eq_true hj, Bool.true_and, decide_eq_true (show 8 * k + j < 64 by omega)]
  congr 1
  omega

/-- Settles O3: the shared lane operation on each form's function, and the bits of what the bit operations give. -/
theorem laneOneSourceResults : Obligations.LaneOneSourceResults := by
  refine ⟨⟨?one, ?movU, ?movc, ?movcM, ?movcH, ?neg, ?abs⟩, decodePlain_bitOps, ?bits⟩
  case one =>
    intro e he s d a hr
    exact (computesOne_laneOne e he).done hr
  case movU =>
    intro s d a hr
    exact lane_result_b1 hr rfl fun x => x
  case movc =>
    intro s d k hr
    exact lane_result hr fun _ _ _ _ => rfl
  case movcM =>
    intro s d k hr
    exact lane_result_b1 hr rfl fun x => movcMid x k
  case movcH =>
    intro s d k hr
    exact lane_result_b1 hr rfl fun x => movcHigh x k
  case neg => exact decodePlain_lr1 laneCell_negI64 fun _ _ => rfl
  case abs => exact decodePlain_lr1 laneCell_absI64 fun _ _ => rfl
  case bits =>
    intro s d a hr
    have done {I f} (hI : ComputesOne I f) {P : (Nat → Word) → Prop} (h : P fun i => f (valV s i a.r)) :
        ∃ t g, exec (I d a) s = .next t ∧ LaneResult s t (form1 false d a) g ∧ P g := by
      obtain ⟨t, ht, hd⟩ := hI.done hr
      exact ⟨t, _, ht, hd, h⟩
    refine ⟨?popc, ?clz, ?ctz, ?brev, ?bswap⟩
    case popc => exact ComputesOne.done (.of_eq (f := popcount) (fun _ _ _ => rfl) popcount_eq) hr
    case clz =>
      exact done (f := leadZeros) (fun _ _ _ => rfl) fun i _ =>
        leadingFalse_spec (by simp) (fun k hk => getElem?_bitList_reverse _ hk) rfl
    case ctz =>
      exact done (f := trailZeros) (fun _ _ _ => rfl) fun i _ => leadingFalse_spec (by simp) (fun k hk => getElem?_bitList _ hk) rfl
    case brev => exact done (f := bitReverse) (fun _ _ _ => rfl) fun i _ k hk => getLsbD_bitReverse _ hk
    case bswap => exact done (f := byteReverse) (fun _ _ _ => rfl) fun i _ k hk j hj => getLsbD_byteReverse _ hk hj

end Sys2Proof.Machine
end

section
/-! PROOFS. Immediate forms (R85), comparisons and predicate logic (R87 to R89), special registers (R90). -/

namespace Sys2Proof.Machine

/-! ## Immediate forms (R85) -/

/-- `I` is the shared lane operation on the function `f` of its source and its immediate. -/
def ComputesImm (I : BitVec 6 → Src → BitVec 11 → Instr) (f : Word → BitVec 11 → Word) : Prop :=
  ∀ k, ComputesOne (fun d a => I d a k) fun x => f x k

theorem ComputesImm.of_eq {I : BitVec 6 → Src → BitVec 11 → Instr} {f g : Word → BitVec 11 → Word} (hI : ComputesImm I f)
    (h : ∀ x k, f x k = g x k) : ComputesImm I g := fun k => (hI k).of_eq fun x => h x k

theorem setWidth_signExtend_imm (k : BitVec 11) : (k.signExtend 64).setWidth 32 = k.signExtend 32 := by
  refine BitVec.eq_of_getLsbD_eq fun i hi => ?_
  simp only [BitVec.getLsbD_setWidth, BitVec.getLsbD_signExtend, decide_eq_true hi, decide_eq_true (show i < 64 by omega),
    Bool.true_and]

theorem toInt_signExtend_imm (k : BitVec 11) : (k.signExtend 64).toInt = k.toInt := BitVec.toInt_signExtend_of_le (by decide)

theorem computesImm_laneImm : ∀ e ∈ laneImm, ComputesImm e.1 fun x k => e.2 x (k.signExtend 64) := by
  simp only [laneImm, List.forall_mem_cons, List.not_mem_nil, false_imp_iff, implies_true, and_true]
  exact ⟨fun _ _ _ _ => rfl,
    .of_eq (fun _ _ _ _ => rfl) fun _ k => by rw [setWidth_signExtend_imm]; rfl,
    .of_eq (fun _ _ _ _ => rfl) fun _ k => by rw [toInt_signExtend_imm]; exact satI_32 _,
    .of_eq (fun _ _ _ _ => rfl) fun _ k => by rw [toInt_signExtend_imm]; exact satI_64 _,
    fun _ _ _ _ => rfl, fun _ _ _ _ => rfl, fun _ _ _ _ => rfl, fun _ _ _ _ => rfl⟩

/-- An immediate count, as the register count that the shifts take. -/
theorem toNat_immCount (k : BitVec 11) : (k.setWidth 64 : Word).toNat = k.toNat := BitVec.toNat_setWidth_of_le (by decide)

theorem computesOne_laneShiftImm {k : BitVec 11} (hk : k.toNat < 64) :
    ∀ e ∈ laneShiftImm, ComputesOne (fun d a => e.1 d a k) fun x => e.2 x k.toNat := by
  simp only [laneShiftImm, List.forall_mem_cons, List.not_mem_nil, false_imp_iff, implies_true, and_true]
  exact ⟨.of_eq (fun _ _ _ => rfl) fun x => by rw [shl64, toNat_immCount, if_neg (by omega)],
    .of_eq (fun _ _ _ => rfl) fun x => by rw [shr64, toNat_immCount, if_neg (by omega)],
    .of_eq (fun _ _ _ => rfl) fun x => by rw [sar64, toNat_immCount, min_eq_left (by omega)]⟩

/-- Settles O4: the shared lane operation on each form's function of the sign-extended immediate or of the count. -/
theorem laneImmediateResults : Obligations.LaneImmediateResults := by
  refine ⟨fun e he s d a k hr => ?imm, fun e he s d a k hk hr => ?shift⟩
  case imm => exact (computesImm_laneImm e he k).done hr
  case shift => exact (computesOne_laneShiftImm hk e he).done hr

/-! ## Predicate results (R87, R88) -/

/-- A ready bundle whose body gives a predicate value gets it. -/
theorem lane_presult {s : State} {F : Form} (hr : LaneReady s F) {fp : Bool} {body : List Word → Nat → State → Eff} {f : Nat → Bool}
    (hb : ∀ i ∈ s.cur.tids, ∀ t, Agree s t i →
      body (F.flds.map fun x => (getR s s.cur.gk i x.uni x.r).v) i t = .val .none (.some (f i)) 0 .none) :
    ∃ t, lane F fp body s = .next t ∧ LanePResult s t F f :=
  lane_done hr (x := fun _ => .none) (dst := fun _ => .none) hb (fun _ _ => rfl) fun _ _ => rfl

/-- `I` is the shared lane operation on a test of its two sources that decides the relation `R` (R87). -/
def Decides (I : BitVec 3 → Src → Src → Instr) (R : Word → Word → Prop) : Prop :=
  ∃ f : Word → Word → Bool, (∀ p a b s, exec (I p a b) s = lane (formP false p a b) false (bp f) s) ∧ ∀ x y, f x y = true ↔ R x y

theorem decides_compares : ∀ e ∈ compares, Decides e.1 e.2 := by
  simp only [compares, List.forall_mem_cons, List.not_mem_nil, false_imp_iff, implies_true, and_true]
  exact ⟨⟨_, fun _ _ _ _ => rfl, fun _ _ => beq_iff_eq⟩,
    ⟨_, fun _ _ _ _ => rfl, fun _ _ => bne_iff_ne⟩,
    ⟨_, fun _ _ _ _ => rfl, fun _ _ => BitVec.slt_iff_toInt_lt⟩,
    ⟨_, fun _ _ _ _ => rfl, fun _ _ => BitVec.sle_iff_toInt_le⟩,
    ⟨_, fun _ _ _ _ => rfl, fun _ _ => BitVec.ult_iff_lt⟩,
    ⟨_, fun _ _ _ _ => rfl, fun _ _ => BitVec.ule_iff_le⟩,
    ⟨_, fun _ _ _ _ => rfl, fun _ _ => bne_iff_ne⟩,
    ⟨_, fun _ _ _ _ => rfl, fun _ _ => beq_iff_eq⟩,
    ⟨_, fun _ _ _ _ => rfl, fun _ _ => bne_iff_ne⟩,
    ⟨_, fun _ _ _ _ => rfl, fun _ _ => BitVec.slt_iff_toInt_lt⟩,
    ⟨_, fun _ _ _ _ => rfl, fun _ _ => BitVec.sle_iff_toInt_le⟩,
    ⟨_, fun _ _ _ _ => rfl, fun _ _ => BitVec.ult_iff_lt⟩,
    ⟨_, fun _ _ _ _ => rfl, fun _ _ => BitVec.ule_iff_le⟩⟩

/-- A predicate operation of two sources, whatever its function (R88). -/
theorem lane_bpp {s : State} {p q r : BitVec 3} {ps : List (BitVec 3)} (hr : LaneReady s (formPP false p ps)) (f : Bool → Bool → Bool) :
    ∃ t, lane (formPP false p ps) false (bpp false q r f) s = .next t ∧
      LanePResult s t (formPP false p ps) (fun i => f (getP s (tkOf s i) q).b (getP s (tkOf s i) r).b) :=
  lane_presult hr fun i _ t ht => by
    simp only [bpp, effP, getPQ, Bool.false_eq_true, if_false, ht.cur, ht.pred]

theorem exec_predTwo : ∀ e ∈ predTwo, ∀ p q r s,
    exec (e.1 p q r) s = lane (formPP false p [q, r]) false (bpp false q r e.2) s := by
  simp only [predTwo, List.forall_mem_cons, List.not_mem_nil, false_imp_iff, implies_true, and_true]
  exact ⟨fun _ _ _ _ => rfl, fun _ _ _ _ => rfl, fun _ _ _ _ => rfl, fun _ _ _ _ => rfl⟩

/-! ## The cells of major 0x0B -/

/-- The lower half of a register field that holds a predicate number is reserved (R27). -/
theorem lo3_eq_zero {r : BitVec 6} (h : r.toNat % 8 = 0) : lo3 r = 0 :=
  BitVec.eq_of_toNat_eq (by rw [lo3, BitVec.extractLsb'_toNat]; simpa using h)

/-- A cell that holds a predicate operation decodes to it where the reserved fields are zero. -/
theorem decodePlain_p3 {I : BitVec 3 → BitVec 3 → BitVec 3 → Instr} {maj : BitVec 6} {mn : BitVec 3}
    (hcell : ∀ {w x}, Word.major w = maj → Word.minor w = mn → laneCell w x = p3D I w) (hf : ∀ p q r, (I p q r).flaw = .none)
    (w x : BitVec 32) : LaneWord w maj mn → (Word.d w).toNat % 8 = 0 → (Word.a w).toNat % 8 = 0 → (Word.b w).toNat % 8 = 0 →
      Word.ca w = 0 → Word.cb w = 0 →
      decodePlain w x = .ok (I ((Word.d w).extractLsb' 3 3) ((Word.a w).extractLsb' 3 3) ((Word.b w).extractLsb' 3 3)) :=
  fun ⟨hset, hmaj, hmin⟩ hd ha hb hca hcb => decodePlain_lane hset
    ((hcell hmaj hmin).trans (if_pos ⟨lo3_eq_zero hd, lo3_eq_zero ha, lo3_eq_zero hb, hca, hcb⟩)) (hf ..)

theorem decodePlain_predTwo : ∀ e ∈ (List.range 4).zip predTwo, ∀ w x, LaneWord w 11 (BitVec.ofNat 3 e.1) →
    (Word.d w).toNat % 8 = 0 → (Word.a w).toNat % 8 = 0 → (Word.b w).toNat % 8 = 0 → Word.ca w = 0 → Word.cb w = 0 →
    decodePlain w x = .ok (e.2.1 ((Word.d w).extractLsb' 3 3) ((Word.a w).extractLsb' 3 3) ((Word.b w).extractLsb' 3 3)) := by
  rw [show List.range 4 = [0, 1, 2, 3] from rfl]
  simp only [predTwo, List.zip_cons_cons, List.zip_nil_right, List.forall_mem_cons, List.not_mem_nil, false_imp_iff, implies_true, and_true]
  exact ⟨decodePlain_p3 laneCell_pand fun _ _ _ => rfl,
    decodePlain_p3 laneCell_por fun _ _ _ => rfl,
    decodePlain_p3 laneCell_pxor fun _ _ _ => rfl,
    decodePlain_p3 laneCell_pandn fun _ _ _ => rfl⟩

/-- Settles O5: a body that gives a predicate, from the sources or from the thread's own predicates. -/
theorem lanePredicateResults : Obligations.LanePredicateResults := by
  refine ⟨?compare, ?two, ?not, ?sel, decodePlain_predTwo, ?notCell⟩
  case compare =>
    intro e he s p a b hr
    obtain ⟨f, hexec, hf⟩ := decides_compares e he
    rw [hexec]
    obtain ⟨t, ht, hd⟩ := lane_presult hr (fp := false) (body := bp f) (f := fun i => f (valV s i a.r) (valV s i b.r))
      fun _ _ _ _ => rfl
    exact ⟨t, _, ht, hd, fun i _ => hf _ _⟩
  case two =>
    intro e he s p q r hr
    rw [exec_predTwo e he]
    exact lane_bpp hr e.2
  case not =>
    intro s p q hr
    exact lane_bpp hr fun x _ => !x
  case sel =>
    intro s d a b k hr
    refine lane_result hr fun i _ t ht => ?_
    simp only [effV, getPQ, Bool.false_eq_true, if_false, ht.cur, ht.pred]
    rfl
  case notCell =>
    rintro w x ⟨hset, hmaj, hmin⟩ hd ha hb hca hcb
    exact decodePlain_lane hset ((laneCell_pnot hmaj hmin).trans (if_pos ⟨lo3_eq_zero hd, lo3_eq_zero ha, hb, hca, hcb⟩)) rfl

/-! ## Special registers (R90) -/

/-- What other threads of the bundle write is no part of what a special register reads. -/
theorem Agree.specialReg {s t : State} {i : Nat} (h : Agree s t i) (gk tid : Nat) (r : BitVec 3) :
    Machine.specialReg t gk tid r = Machine.specialReg s gk tid r := by
  obtain ⟨w, q, h, g, o, rfl⟩ := h.same
  rfl

/-- The table of R90. -/
theorem specialReg_eq (s : State) (gk tid : Nat) (r : BitVec 3) : specialReg s gk tid r =
    if r = 0 then BitVec.ofNat 64 tid
    else if r = 1 then BitVec.ofNat 64 (gidOf gk)
    else if r = 2 then BitVec.ofNat 64 (teamOfG gk % 2 ^ 24)
    else if r = 3 then BitVec.ofNat 64 (coreOf s gk)
    else if r = 4 then BitVec.ofNat 64 (dieOf (coreOf s gk))
    else if r = 5 then BitVec.ofNat 64 (widthOf s gk)
    else if r = 6 then BitVec.ofNat 64 (coreCycles s (coreOf s gk) + 1 - tget 0 (coreOf s gk) (getGrid s (gridOfG gk)).start)
    else BitVec.ofNat 64 (vdevOf s (ctxOf s gk)) := by
  have hr : r = 0 ∨ r = 1 ∨ r = 2 ∨ r = 3 ∨ r = 4 ∨ r = 5 ∨ r = 6 ∨ r = 7 := by revert r; decide
  rcases hr with rfl | rfl | rfl | rfl | rfl | rfl | rfl | rfl <;> rfl

/-- Settles O6: the table of R90, which no thread of the bundle changes for another. -/
theorem specialRegisterReads : Obligations.SpecialRegisterReads := by
  intro s d r hr
  refine lane_result hr fun i _ t ht => ?_
  rw [effV, ht.cur, ht.specialReg, specialReg_eq]

end Sys2Proof.Machine
end

section
/-! PROOFS. Branches, calls and register jumps (R28, R35, R97 to R99, R101), the end of threads (R100). -/

namespace Sys2Proof.Machine

/-! ## Branches (R35, R97, R98) -/

/-- The target of a branch: the address of its own word plus four times the signed displacement. -/
theorem branchTarget_eq (pc : Word) (x : BitVec 21) : branchTarget pc x = BitVec.ofInt 64 (pc.toNat + 4 * x.toInt) := by
  have htimes : x.signExtend 64 <<< 2 = BitVec.ofInt 64 (4 * x.toInt) := by
    rw [BitVec.shiftLeft_eq_mul_twoPow, BitVec.mul_comm, BitVec.ofInt_mul]
    rfl
  rw [branchTarget, htimes, BitVec.ofInt_add, ofInt_toNat]

/-- What a branch does in a state that other threads of its bundle may have changed. -/
theorem branchBody_eq {s t : State} {i : Nat} (ht : Agree s t i) (p : BitVec 3) (n : Bool) (x : BitVec 21) (link : Bool)
    (vals : List Word) : branchBody false p n x link vals i t =
      .val (if (getP s (tkOf s i) p).b ≠ n ∧ link then .some s.cur.npc else .none) .none 0
        (if (getP s (tkOf s i) p).b ≠ n then .some (BitVec.ofInt 64 (s.cur.pc.toNat + 4 * x.toInt)) else .none) := by
  simp only [branchBody, getPQ, Bool.false_eq_true, if_false, ht.cur, ht.pred, branchTarget_eq, Bool.and_eq_true, bne_iff_ne]

/-! ## Register jumps (R28, R99) -/

theorem jumpBody_aligned {s t : State} {i : Nat} (ht : Agree s t i) (link : Bool) {x : Word} (hx : x.toNat % 4 = 0) :
    jumpBody link [x] i t = .val (if link then .some s.cur.npc else .none) .none 0 (.some x) := by
  have hbits : bits x 1 0 = 0 := by simpa [bits] using hx
  simp [jumpBody, hbits, ht.cur]

theorem jumpBody_misaligned (link : Bool) {x : Word} (hx : x.toNat % 4 ≠ 0) (i : Nat) (s : State) :
    jumpBody link [x] i s = .trap (illegalHere s) := by
  have hbits : bits x 1 0 ≠ 0 := by simpa [bits] using hx
  simp [jumpBody, hbits]

/-- A ready bundle of one thread whose body traps takes that trap. -/
theorem lane_alone_bodyTrap {s : State} {F : Form} {i : Nat} (hr : LaneReady s F) (ha : Alone s i) {fp : Bool}
    {body : List Word → Nat → State → Eff} {tr : TrapRec} (hb : body (F.flds.map fun f => (getR s s.cur.gk i f.uni f.r).v) i s = .trap tr) :
    lane F fp body s = .next (trapThread i tr s) := by
  have hi : i ∈ s.cur.tids := by rw [ha]; exact List.mem_singleton_self i
  have hlim : overLimit s s.cur.gk F = false :=
    overLimit_false hr.limit (fun d h => by rw [hr.lane]; exact hr.limitD d h) hr.limitM
  have hread := readSources_ok (pc := s.cur.pc) (hr.source i hi) (hr.strict i hi)
    (fun p hp => by simpa only [hr.lane, getPQ, Bool.false_eq_true, if_false] using hr.pred i hi p hp)
    (fun d hd => by simpa only [hr.lane, getR, Bool.false_eq_true, if_false] using hr.dest i hi d hd)
    (fun p hp => by simpa only [hr.lane, getPQ, Bool.false_eq_true, if_false] using hr.destP i hi p hp)
  have hvals : (F.flds.map fun f => (readCell (getR s s.cur.gk i f.uni f.r)).1) = F.flds.map fun f => (getR s s.cur.gk i f.uni f.r).v :=
    List.map_congr_left fun f hf => by rw [readCell_full (hr.clean i hi f hf).1]
  rw [lane_alone hlim (hr.live i hi) ha]
  simp only [laneThread, hr.guard i hi, hread, hvals, hb]

/-- Settles O11: what each body gives its thread, and the trap of the one that finds its target misaligned. -/
theorem laneControlFlow : Obligations.LaneControlFlow := by
  refine ⟨⟨?bra, ?call, ?jump, ?callr, ?nop⟩, ?misaligned⟩
  case bra =>
    intro s p n x hr
    refine lane_done hr (x := fun _ => .none)
      (dst := fun i => if (getP s (tkOf s i) p).b ≠ n then .some (BitVec.ofInt 64 (s.cur.pc.toNat + 4 * x.toInt)) else .none)
      (fun i _ t ht => ?_) (fun _ _ => rfl) fun i _ => ?_
    · rw [branchBody_eq ht]; simp
    · split <;> rfl
  case call =>
    intro s p n x hr
    refine lane_done hr (x := fun i => if (getP s (tkOf s i) p).b ≠ n then .some s.cur.npc else .none)
      (dst := fun i => if (getP s (tkOf s i) p).b ≠ n then .some (BitVec.ofInt 64 (s.cur.pc.toNat + 4 * x.toInt)) else .none)
      (fun i _ t ht => ?_) (fun i _ => ?_) fun i _ => ?_
    · rw [branchBody_eq ht]; simp
    · split <;> rfl
    · split <;> rfl
  case jump =>
    intro I hI s a hr hal
    have hexec : exec (I a) s = lane { uni := false, flds := [fA false a true] } false (jumpBody false) s := by
      simp only [List.mem_cons, List.not_mem_nil, or_false] at hI
      rcases hI with rfl | rfl <;> rfl
    rw [hexec]
    exact lane_done hr (x := fun _ => .none) (dst := fun i => .some (valV s i a.r))
      (fun i hi t ht => jumpBody_aligned ht false (hal i hi)) (fun _ _ => rfl) fun _ _ => rfl
  case callr =>
    intro s d a hr hal
    exact lane_done hr (x := fun _ => .some s.cur.npc) (dst := fun i => .some (valV s i a.r))
      (fun i hi t ht => jumpBody_aligned ht true (hal i hi)) (fun _ _ => rfl) fun _ _ => rfl
  case nop =>
    intro s hr
    exact lane_done hr (x := fun _ => .none) (dst := fun _ => .none) (fun _ _ _ _ => rfl) (fun _ _ => rfl) fun _ _ => rfl
  case misaligned =>
    intro s d a i ha hx
    refine ⟨fun hr => ⟨?_, ?_⟩, fun hr => ?_⟩
    · exact lane_alone_bodyTrap hr ha (jumpBody_misaligned false hx i s)
    · exact lane_alone_bodyTrap hr ha (jumpBody_misaligned false hx i s)
    · exact lane_alone_bodyTrap hr ha (jumpBody_misaligned true hx i s)

/-! ## One thread ends (R100) -/

/-- Thread `i` reaches `exit` with its guard true, no producer outstanding and no FAULT register. -/
structure CanExit (s : State) (i : Nat) : Prop where
  guard : guardVal s s.cur.gk i false = .yes
  regs : ∀ r : BitVec 6, r.toNat < (recOf s s.cur.gk).nv → (getV s (tkOf s i) r).st = .full ∨ (getV s (tkOf s i) r).st = .dead
  preds : ∀ p : BitVec 3, (getP s (tkOf s i) p).empty = false
  ops : ∀ o ∈ s.mm.ops, o.gk = s.cur.gk → o.tid = i → isCadd o.k = false

/-- What decides whether a thread can end is no part of the threads and the fetch lanes. -/
theorem CanExit.of_rest {s : State} {i : Nat} (h : CanExit s i) (x : Tab Thr) (c : Sched) :
    CanExit { s with thr := x, sc := c } i := ⟨h.guard, h.regs, h.preds, h.ops⟩

theorem CanExit.threadRegs {s : State} {i : Nat} (h : CanExit s i) :
    ∀ c ∈ threadRegs s s.cur.gk i, c.st = .full ∨ c.st = .dead := by
  intro c hc
  obtain ⟨r, hr, rfl⟩ := List.mem_map.1 hc
  exact h.regs _ (lt_of_le_of_lt (by rw [BitVec.toNat_ofNat]; exact Nat.mod_le _ _) (List.mem_range.1 hr))

theorem CanExit.unfinished {s : State} {i : Nat} (h : CanExit s i) : unfinished s s.cur.gk i = false := by
  simp only [Machine.unfinished, Bool.or_eq_false_iff, List.any_eq_false, decide_eq_true_eq]
  refine ⟨⟨fun c hc => ?regs, fun p _ => ?preds⟩, fun o ho hc => ?ops⟩
  case regs => rcases h.threadRegs c hc with hs | hs <;> rw [hs] <;> simp
  case preds => rw [h.preds]; simp
  case ops =>
    simp only [Bool.and_eq_true, beq_iff_eq] at hc
    obtain ⟨⟨hg, ht⟩, hk⟩ := hc
    have := h.ops o ho hg ht
    unfold isCadd at this
    split at hk
    · next hk' => simp [hk'] at this
    · exact absurd hk Bool.false_ne_true

theorem CanExit.faultOf {s : State} {i : Nat} (h : CanExit s i) (pc : Word) : faultOf s s.cur.gk i pc = .none := by
  rw [Machine.faultOf, List.findSome?_eq_none_iff]
  intro c hc
  rcases h.threadRegs c hc with hs | hs <;> rw [hs]

theorem exitThread_ends {s : State} {i : Nat} (h : CanExit s i) :
    exitThread s i = dropLane (tkOf s i) (setSt s.cur.gk i .exited .none s) := by
  simp only [exitThread, h.guard, h.unfinished, h.faultOf, Bool.false_eq_true, if_false]

/-- Every thread of a bundle that can end ends, and gives up its fetch lane; nothing else changes. -/
theorem exit_fold (ids : List Nat) (s : State) (hn : ids.Nodup) (hs : ∀ i ∈ ids, i < 64) (hc : ∀ i ∈ ids, CanExit s i)
    (hl : ∀ i ∈ ids, (getThr s (tkOf s i)).st ≠ .exited) :
    (∃ h l q, ids.foldl (fun s i => if (getThr s (threadKey s.cur.gk i)).st = .exited then s else exitThread s i) s =
      { s with thr := h, sc := { s.sc with lanes := l, laneq := q } }) ∧
    ∀ k, getThr (ids.foldl (fun s i => if (getThr s (threadKey s.cur.gk i)).st = .exited then s else exitThread s i) s) k =
      if ∃ i ∈ ids, k = tkOf s i then { getThr s k with st := .exited, wait := .none } else getThr s k := by
  induction ids generalizing s with
  | nil => exact ⟨⟨s.thr, s.sc.lanes, s.sc.laneq, rfl⟩, fun k => by simp⟩
  | cons i ids ih =>
    obtain ⟨hni, hn⟩ := List.nodup_cons.1 hn
    have hmem : ∀ j ∈ ids, j ∈ i :: ids := fun j => List.mem_cons_of_mem i
    have hi : i ∈ i :: ids := List.mem_cons_self ..
    rw [List.foldl_cons, if_neg (hl i hi), exitThread_ends (hc i hi)]
    have hthr : ∀ k, getThr (dropLane (tkOf s i) (setSt s.cur.gk i .exited .none s)) k =
        if k = tkOf s i then { getThr s (tkOf s i) with st := .exited, wait := .none } else getThr s k :=
      fun k => getThr_setThr s (tkOf s i) k _
    have hne : ∀ j ∈ ids, tkOf s j ≠ tkOf s i := fun j hj h =>
      hni (((threadKey_inj (hs j (hmem j hj)) (hs i hi)).1 h).2 ▸ hj)
    obtain ⟨⟨h, l, q, he⟩, hk⟩ := ih (dropLane (tkOf s i) (setSt s.cur.gk i .exited .none s)) hn (fun j hj => hs j (hmem j hj))
      (fun j hj => (hc j (hmem j hj)).of_rest _ _)
      (fun j hj => (congrArg Thr.st ((hthr (tkOf s j)).trans (if_neg (hne j hj)))).trans_ne (hl j (hmem j hj)))
    refine ⟨⟨h, l, q, he⟩, fun k => ?_⟩
    rw [hk k, hthr k]
    by_cases hki : k = tkOf s i
    · subst hki
      rw [if_neg fun ⟨j, hj, e⟩ => hne j hj e.symm, if_pos rfl, if_pos ⟨i, hi, rfl⟩]
    · simp only [List.mem_cons, exists_eq_or_imp, hki, false_or, if_false]
      rfl

/-! ## What the end of threads settles, while another thread runs on (R100) -/

section
variable {s : State} {gk j : Nat}

theorem mem_live_of_ready (hj : j < widthOf s gk) (hst : (getThr s (threadKey gk j)).st = .ready) : j ∈ live s gk := by
  simp [live, hj, hst]

theorem handlerDone_no_set (h : (getGrp s gk).hset = []) : handlerDone gk s = s := by simp [handlerDone, h]

/-- A thread of the domain that does not wait for the others keeps the group from UNIFORM_SPLIT (R147). -/
theorem splitCheck_not_all_waiting (hj : j ∈ domain s gk) (hst : (getThr s (threadKey gk j)).st ≠ .waitConv) : splitCheck gk s = s := by
  refine if_neg fun ⟨_, hall, _⟩ => hst ?_
  simpa using List.all_eq_true.1 hall j hj

theorem latchGone_no_latch (t : Nat) (h : ∀ g, (getGrp s g).latch = .none) : latchGone t s = s := by
  have : waitingIn s t = [] := List.filter_eq_nil_iff.2 fun g _ => by simp [latchOf, h]
  simp [latchGone, this]

theorem settleTbar_no_tbar (t : Nat) (h : ∀ g, (getGrp s g).tbar = .none) : settleTbar t s = s := by
  simp [settleTbar, h]

/-- A team with a live thread is not done (R224). -/
theorem settleTeam_live (hg : gidOf gk < (recOf s gk).groups) (hj : j ∈ live s gk) : settleTeam (teamOfG gk) s = s := by
  have hgk : groupKey (teamOfG gk) (gidOf gk) = gk := by unfold groupKey teamOfG gidOf; omega
  have hall : ((List.range (getGrid s (gridOfT (teamOfG gk))).lr.groups).all fun i => (live s (groupKey (teamOfG gk) i)).isEmpty) = false := by
    rw [List.all_eq_false]
    refine ⟨gidOf gk, List.mem_range.2 hg, ?_⟩
    rw [hgk, List.isEmpty_iff]
    exact List.ne_nil_of_mem hj
  have hdone : teamDone s (teamOfG gk) = false := by simp only [teamDone, hall, Bool.and_false, Bool.false_and]
  simp [settleTeam, hdone]

/-- While a thread of the group runs on, its end of others settles nothing, where no group waits at a barrier or in a latch. -/
theorem settleExit_ready (hj : j < widthOf s gk) (hst : (getThr s (threadKey gk j)).st = .ready) (hset : (getGrp s gk).hset = [])
    (hg : gidOf gk < (recOf s gk).groups) (hw : ∀ g, (getGrp s g).tbar = .none ∧ (getGrp s g).latch = .none) : settleExit gk s = s := by
  have hl := mem_live_of_ready hj hst
  have hd : j ∈ domain s gk := by rw [domain, if_pos hset]; exact hl
  rw [settleExit, handlerDone_no_set hset, splitCheck_not_all_waiting hd (by simp [hst]), latchGone_no_latch _ fun g => (hw g).2,
    settleTbar_no_tbar _ fun g => (hw g).1]
  exact settleTeam_live hg hl

end

/-- Settles O12: the bundle's threads end one after another; a group in which another thread runs on has nothing to settle. -/
theorem exitEndsThreads : Obligations.ExitEndsThreads := by
  intro s hr hregs hpreds hops
  obtain ⟨⟨h, l, q, he⟩, hk⟩ := exit_fold s.cur.tids s hr.nodup hr.small
    (fun i hi => ⟨hr.guard i hi, hregs i hi, hpreds i hi, fun o ho hg ht => hops o ho hg (ht ▸ hi)⟩) hr.live
  refine ⟨perThread exitThread s, rfl, ?ended, ?others, ?rest, ?settled⟩
  case ended =>
    intro i hi
    exact (hk _).trans (if_pos ⟨i, hi, rfl⟩)
  case others =>
    intro k hne
    exact (hk k).trans (if_neg fun ⟨i, hi, e⟩ => hne i hi e)
  case rest =>
    rw [perThread, he]
  case settled =>
    intro j hj hw hn hst hset hg hwait
    have hjk : getThr (perThread exitThread s) (tkOf s j) = getThr s (tkOf s j) :=
      (hk _).trans (if_neg fun ⟨i, hi, e⟩ => hn (((threadKey_inj hj (hr.small i hi)).1 e).2 ▸ hi))
    have hu : perThread exitThread s = { s with thr := h, sc := { s.sc with lanes := l, laneq := q } } := he
    refine settleExit_ready (j := j) ?_ (by rw [hjk]; exact hst) ?_ ?_ ?_
    · rw [hu]; exact hw
    · rw [hu]; exact hset
    · rw [hu]; exact hg
    · rw [hu]; exact hwait

end Sys2Proof.Machine
end

section
/-! PROOFS. Shuffles (R92, R93), `ballot` and the votes (R94), and a thread that reaches a cross-lane instruction first (R91, R144). -/

namespace Sys2Proof.Machine

/-! ## Shuffles (R92, R93) -/

/-- The lane that the shuffle of a minor names (R92). -/
def shuffleLane (minor t lane : Nat) : Int :=
  match minor with
  | 0 => lane
  | 1 => (t : Int) - lane
  | 2 => (t : Int) + lane
  | _ => ((BitVec.ofNat 6 t ^^^ BitVec.ofNat 6 lane).toNat : Int)

/-- A shuffle, said with the lane that it names. -/
theorem shuffle_eq (minor : Nat) (s : State) (ps : List Part1) (p : Part1) : shuffle minor s ps p =
    let c := p.vals.getD 1 0
    let l := shuffleLane minor p.tid (bits c 5 0)
    let src := if 0 ≤ l ∧ l < widthOf s s.cur.gk then (ps.find? fun q => (q.tid : Int) == l).getD p else p
    (.some (word (elem (64 / 2 ^ bits c 9 8) (bits c 12 10 % (64 / (64 / 2 ^ bits c 9 8))) (src.vals.getD 0 0))), src.psn, .none) :=
  match minor with
  | 0 => rfl
  | 1 => rfl
  | 2 => rfl
  | _ + 3 => rfl

/-- The participant whose number is an integer. -/
theorem find?_partOf_int (s : State) (F : Form) {l : Int} (hl : 0 ≤ l) (ps : List Nat) :
    ((ps.map (partOf s F)).find? fun q => (q.tid : Int) == l) = if l.toNat ∈ ps then some (partOf s F l.toNat) else none := by
  rw [← find?_partOf]
  congr 1
  funext q
  exact Bool.eq_iff_iff.2 (by simp only [beq_iff_eq]; omega)

/-- The participant that a shuffle reads: that of the lane it names, else the reader itself. -/
theorem shuffleSource_eq (s : State) (F : Form) (l : Int) (w : Nat) (i : Nat) :
    (if 0 ≤ l ∧ l < w then (((parts s).map (partOf s F)).find? fun q => (q.tid : Int) == l).getD (partOf s F i) else partOf s F i) =
      partOf s F (if 0 ≤ l ∧ l < w ∧ l.toNat ∈ parts s then l.toNat else i) := by
  by_cases h : 0 ≤ l ∧ l < w
  · rw [if_pos h, find?_partOf_int s F h.1]
    by_cases hm : l.toNat ∈ parts s
    · rw [if_pos hm, if_pos ⟨h.1, h.2, hm⟩]; rfl
    · rw [if_neg hm, if_neg fun c => hm c.2.2]; rfl
  · rw [if_neg h, if_neg fun c => h ⟨c.1, c.2.1⟩]

/-- `I` is the shuffle of a minor, which names the lane `lane` (R92). -/
def IsShuffle (I : BitVec 6 → Src → Src → Instr) (lane : Nat → Nat → Int) : Prop :=
  ∃ minor, (∀ d a b s, exec (I d a b) s = shflBy minor d a b s) ∧ ∀ t < 64, ∀ k < 64, shuffleLane minor t k = lane t k

theorem shuffleLane_xor {t k : Nat} (ht : t < 64) (hk : k < 64) : shuffleLane 3 t k = ((t ^^^ k : Nat) : Int) := by
  rw [shuffleLane, BitVec.toNat_xor, BitVec.toNat_ofNat, BitVec.toNat_ofNat, Nat.mod_eq_of_lt ht, Nat.mod_eq_of_lt hk]
  all_goals simp

theorem isShuffle_shuffles : ∀ e ∈ shuffles, IsShuffle e.1 e.2 := by
  simp only [shuffles, List.forall_mem_cons, List.not_mem_nil, false_imp_iff, implies_true, and_true]
  exact ⟨⟨0, fun _ _ _ _ => rfl, fun _ _ _ _ => rfl⟩, ⟨1, fun _ _ _ _ => rfl, fun _ _ _ _ => rfl⟩,
    ⟨2, fun _ _ _ _ => rfl, fun _ _ _ _ => rfl⟩, ⟨3, fun _ _ _ _ => rfl, fun _ ht _ hk => shuffleLane_xor ht hk⟩⟩

theorem widthOf_arrive (s : State) (gk : Nat) : widthOf (arrive s) gk = widthOf s gk := by
  obtain ⟨⟨h, e⟩, -⟩ := arrive_spec s
  rw [e]; rfl

/-- What a participant of a shuffle gets. -/
theorem shuffle_partOf (s : State) {minor : Nat} {lane : Nat → Nat → Int} (hlane : ∀ t < 64, ∀ k < 64, shuffleLane minor t k = lane t k)
    (d : BitVec 6) (a b : Src) {i : Nat} (hi : i < 64) :
    shuffle minor (arrive s) ((parts s).map (partOf s (formSh false d a b))) (partOf s (formSh false d a b) i) =
      (.some (shuffled s lane a.r b.r i), false, .none) := by
  rw [shuffle_eq, arrive_cur, widthOf_arrive]
  have hl : shuffleLane minor i (bits (valV s i b.r) 5 0) = lane i ((valV s i b.r).toNat % 64) := by
    rw [← hlane i hi _ (Nat.mod_lt _ (by decide))]
    simp [bits]
  have htid : (partOf s (formSh false d a b) i).tid = i := rfl
  have hsel : (partOf s (formSh false d a b) i).vals.getD 1 0 = valV s i b.r := rfl
  simp only [htid, hsel, hl, shuffleSource_eq]
  rfl

/-- Settles O16: a shuffle gives each participant what the participants' readings hold, all of them read before any write. -/
theorem shuffleResults : Obligations.ShuffleResults := by
  intro e he s d a b h
  obtain ⟨minor, hexec, hlane⟩ := isShuffle_shuffles e he
  rw [hexec]
  exact cross_done h
    (fun i hi => shuffle_partOf s hlane d a b (lt_of_lt_of_le (mem_domain_width (parts_sub hi)) h.width)) rfl

/-! ## `ballot` and the votes (R94) -/

theorem predTrue_partOf (s : State) (F : Form) (q : BitVec 3) (i : Nat) :
    predTrue (arrive s) q (partOf s F i) = (getP s (tkOf s i) q).b := by
  obtain ⟨⟨h, e⟩, -⟩ := arrive_spec s
  rw [e]; rfl

/-- Adding a power of two whose bit is clear sets that bit. -/
theorem getLsbD_add_twoPow {x : Word} {i : Nat} (h : x.getLsbD i = false) {k : Nat} (hk : k < 64) :
    (x + BitVec.twoPow 64 i).getLsbD k = (x.getLsbD k || decide (k = i)) := by
  have hand : x &&& BitVec.twoPow 64 i = 0 := by
    rw [BitVec.and_twoPow, h]; rfl
  rw [BitVec.add_eq_or_of_and_eq_zero _ _ hand, BitVec.getLsbD_or, BitVec.getLsbD_twoPow]
  by_cases e : k = i
  · subst e; simp [hk]
  · simp [e, Ne.symm e]

/-- The bits of a sum of different powers of two. -/
theorem getLsbD_foldl_two_pow (l : List Nat) (hn : l.Nodup) (n : Nat) (hl : ∀ i ∈ l, (word n).getLsbD i = false) (hs : ∀ i ∈ l, i < 64)
    {k : Nat} (hk : k < 64) :
    (word (l.foldl (fun n i => n + 2 ^ i) n)).getLsbD k = true ↔ (word n).getLsbD k = true ∨ k ∈ l := by
  induction l generalizing n with
  | nil => simp
  | cons i l ih =>
    obtain ⟨hni, hn⟩ := List.nodup_cons.1 hn
    have hword : word (n + 2 ^ i) = word n + BitVec.twoPow 64 i := by
      rw [word, BitVec.ofNat_add, word, show BitVec.ofNat 64 (2 ^ i) = BitVec.twoPow 64 i from
        BitVec.eq_of_toNat_eq (by rw [BitVec.toNat_twoPow, BitVec.toNat_ofNat])]
    have hstep : ∀ j < 64, (word (n + 2 ^ i)).getLsbD j = ((word n).getLsbD j || decide (j = i)) := fun j hj => by
      rw [hword, getLsbD_add_twoPow (hl i (List.mem_cons_self ..)) hj]
    have hclear : ∀ j ∈ l, (word (n + 2 ^ i)).getLsbD j = false := fun j hj => by
      rw [hstep j (hs j (List.mem_cons_of_mem _ hj)), hl j (List.mem_cons_of_mem _ hj), decide_eq_false fun e : j = i => hni (e ▸ hj)]
      rfl
    rw [List.foldl_cons, ih hn _ hclear fun j hj => hs j (List.mem_cons_of_mem _ hj), hstep k hk]
    simp only [Bool.or_eq_true, decide_eq_true_eq, List.mem_cons, or_assoc]

/-- The word of `ballot`. -/
def ballotWord (s : State) (p : BitVec 3) : Word :=
  word (((parts s).filter fun i => (getP s (tkOf s i) p).b).foldl (fun n i => n + 2 ^ i) 0)

theorem getLsbD_ballotWord (s : State) (p : BitVec 3) (hw : widthOf s s.cur.gk ≤ 64) {i : Nat} (hi : i < 64) :
    (ballotWord s p).getLsbD i = true ↔ i ∈ parts s ∧ (getP s (tkOf s i) p).b = true := by
  have hs : ∀ j ∈ (parts s).filter fun i => (getP s (tkOf s i) p).b, j < 64 := fun j hj =>
    lt_of_lt_of_le (mem_domain_width (parts_sub (List.mem_of_mem_filter hj))) hw
  have hzero : ∀ k, (word 0).getLsbD k = false := fun _ => BitVec.getLsbD_zero
  rw [ballotWord, getLsbD_foldl_two_pow _ ((parts_nodup s).filter _) 0 (fun _ _ => hzero _) hs hi, hzero, List.mem_filter]
  simp

theorem ballot_partOf (s : State) (F : Form) (p : BitVec 3) :
    word ((((parts s).map (partOf s F)).filter (predTrue (arrive s) p)).foldl (fun n q => n + 2 ^ q.tid) 0) = ballotWord s p := by
  rw [List.filter_map, List.foldl_map, ballotWord]
  congr 2
  exact List.filter_congr fun i _ => predTrue_partOf s F p i

theorem any_partOf (s : State) (F : Form) (q : BitVec 3) :
    ((parts s).map (partOf s F)).any (predTrue (arrive s) q) = true ↔ ∃ i ∈ parts s, (getP s (tkOf s i) q).b = true := by
  simp only [List.any_map, List.any_eq_true, Function.comp, predTrue_partOf]

theorem all_partOf (s : State) (F : Form) (q : BitVec 3) :
    ((parts s).map (partOf s F)).all (predTrue (arrive s) q) = true ↔ ∀ i ∈ parts s, (getP s (tkOf s i) q).b = true := by
  simp only [List.all_map, List.all_eq_true, Function.comp, predTrue_partOf]

section
variable {s : State}

theorem ballot_done {d : BitVec 6} {p : BitVec 3} (h : CrossReady s { uni := false, flds := [], preds := [p], dv := .some d }) :
    ∃ t, exec (.ballot d p) s = .next t ∧
      CrossDone s t { uni := false, flds := [], preds := [p], dv := .some d } (fun _ => .some (ballotWord s p)) (fun _ => .none) 0 := by
  have hexec : exec (.ballot d p) s = cross { uni := false, flds := [], preds := [p], dv := .some d } (fun s ps _ =>
      (.some (word ((ps.filter (predTrue s p)).foldl (fun n q => n + 2 ^ q.tid) 0)), false, .none)) (fun _ => 0) s := rfl
  rw [hexec]
  exact cross_done h (fun _ _ => by simp only [ballot_partOf]) rfl

variable {p q : BitVec 3}

theorem voteAny_done (h : CrossReady s (formPP false p [q])) :
    ∃ t, exec (.voteAny p q) s = .next t ∧ CrossDone s t (formPP false p [q]) (fun _ => .none)
      (fun _ => .some (((parts s).map (partOf s (formPP false p [q]))).any (predTrue (arrive s) q))) 0 :=
  cross_done h (res := fun s ps _ => (.none, false, .some (ps.any (predTrue s q)))) (fl := fun _ => 0) (fun _ _ => rfl) rfl

theorem voteAll_done (h : CrossReady s (formPP false p [q])) :
    ∃ t, exec (.voteAll p q) s = .next t ∧ CrossDone s t (formPP false p [q]) (fun _ => .none)
      (fun _ => .some (((parts s).map (partOf s (formPP false p [q]))).all (predTrue (arrive s) q))) 0 :=
  cross_done h (res := fun s ps _ => (.none, false, .some (ps.all (predTrue s q)))) (fl := fun _ => 0) (fun _ _ => rfl) rfl

end

/-! ## A thread that arrives first (R91, R144) -/

theorem mem_domain {s : State} {gk j : Nat} : j ∈ domain s gk ↔
    (j < widthOf s gk ∧ (getThr s (threadKey gk j)).st ≠ .exited) ∧ ((getGrp s gk).hset = [] ∨ j ∈ (getGrp s gk).hset) := by
  unfold domain live
  split
  · next h => simp [h]
  · next h => simp [h, and_assoc, and_comm (a := j ∈ _)]

/-- A bundle of one thread that carries no denial only waits where it arrives. -/
theorem arrive_alone {s : State} {i : Nat} (ha : Alone s i) (hw : (getThr s (tkOf s i)).wait = .none) :
    arrive s = setThr (tkOf s i) { getThr s (tkOf s i) with st := .waitConv, wait := .none } s := by
  simp [arrive, ha, setSt, hw, keepDenied]

/-- While a thread that convergence awaits is elsewhere, the issuers arrive and nothing else happens. -/
theorem converge_not_arrived {s : State} {j : Nat} (hj : j ∈ domain (arrive s) s.cur.gk)
    (hst : (getThr (arrive s) (tkOf s j)).st ≠ .waitConv) (k : State → State) : converge k s = .next (arrive s) := by
  have hc : converged (arrive s) = false := by
    rw [converged, arrive_cur, List.all_eq_false]
    exact ⟨j, hj, by simp [hst]⟩
  rw [converge]
  simp only [hc, Bool.false_eq_true, if_false, arrive_cur]
  rw [splitCheck_not_all_waiting hj hst]

/-- A thread that is ready when another arrives keeps the group from converging. -/
theorem converge_alone_waits {s : State} {i j : Nat} (ha : Alone s i) (hi : i < 64) (hj64 : j < 64) (hij : i ≠ j)
    (hj : j ∈ domain s s.cur.gk) (hst : (getThr s (tkOf s j)).st = .ready) (hw : (getThr s (tkOf s i)).wait = .none) (k : State → State) :
    converge k s = .next (setThr (tkOf s i) { getThr s (tkOf s i) with st := .waitConv, wait := .none } s) := by
  have hne : tkOf s j ≠ tkOf s i := fun e => hij ((threadKey_inj hj64 hi).1 e).2.symm
  have hthr : getThr (arrive s) (tkOf s j) = getThr s (tkOf s j) := by
    rw [arrive_alone ha hw, getThr_setThr, if_neg hne]
  have hmem : j ∈ domain (arrive s) s.cur.gk := by
    obtain ⟨⟨hlt, hlive⟩, hset⟩ := mem_domain.1 hj
    refine mem_domain.2 ⟨⟨by rw [widthOf_arrive]; exact hlt, by rw [hthr]; exact hlive⟩, ?_⟩
    rw [arrive_alone ha hw]
    exact hset
  rw [← arrive_alone ha hw]
  exact converge_not_arrived hmem (by rw [hthr, hst]; decide) k

theorem overLimit_formSh_false {s : State} {gk : Nat} {d : BitVec 6} {a b : Src} (hA : a.r.toNat < (recOf s gk).nv)
    (hB : b.r.toNat < (recOf s gk).nv) (hD : d.toNat < (recOf s gk).nv) : overLimit s gk (formSh false d a b) = false :=
  overLimit_form2_false hA hB hD

/-- Settles O17: the votes are what the participants' predicates say; convergence fails while a live thread is elsewhere. -/
theorem ballotVoteAndConvergence : Obligations.BallotVoteAndConvergence := by
  refine ⟨⟨?ballot, ?votes⟩, ?waits⟩
  case ballot =>
    intro s d p h
    obtain ⟨t, ht, hd⟩ := ballot_done h
    exact ⟨t, _, ht, hd, fun i hi => getLsbD_ballotWord s p h.width hi⟩
  case votes =>
    intro s p q h
    obtain ⟨t, ht, hd⟩ := voteAny_done h
    obtain ⟨u, hu, hd'⟩ := voteAll_done h
    exact ⟨⟨t, _, ht, hd, any_partOf s _ q⟩, ⟨u, _, hu, hd', all_partOf s _ q⟩⟩
  case waits =>
    intro e he s d a b i j ha hi hj64 hij hA hB hD hj hst hw
    obtain ⟨minor, hexec, -⟩ := isShuffle_shuffles e he
    rw [hexec, shflBy, cross, crossWith, overLimit_formSh_false hA hB hD, if_neg Bool.false_ne_true]
    exact converge_alone_waits ha hi hj64 hij hj hst hw _

end Sys2Proof.Machine
end

section
/-! PROOFS. Floating lane instructions (R105 to R113): every form applies its element-wise function, with the flags of all elements. -/

namespace Sys2Proof.Machine

/-! ## What a ready bundle gets, with its flags (R62) -/

section
variable {s : State} {d : BitVec 6} {a b c : Src}

theorem lane_bf1 (hr : LaneReady s (form1 false d a)) (fp : Bool) (f : Word → Word × Flags) :
    ∃ t, lane (form1 false d a) fp (bf1 f) s = .next t ∧ LaneResult s t (form1 false d a)
      (fun i => (f (valV s i a.r)).1) (fun i => (f (valV s i a.r)).2) :=
  lane_result hr fun _ _ _ _ => rfl

theorem lane_bf2 (hr : LaneReady s (form2 false d a b)) (fp : Bool) (f : Word → Word → Word × Flags) :
    ∃ t, lane (form2 false d a b) fp (bf2 f) s = .next t ∧ LaneResult s t (form2 false d a b)
      (fun i => (f (valV s i a.r) (valV s i b.r)).1) (fun i => (f (valV s i a.r) (valV s i b.r)).2) :=
  lane_result hr fun _ _ _ _ => rfl

theorem lane_bf3 (hr : LaneReady s (form3 d a b c)) (fp : Bool) (f : Word → Word → Word → Word × Flags) :
    ∃ t, lane (form3 d a b c) fp (bf3 f) s = .next t ∧ LaneResult s t (form3 d a b c)
      (fun i => (f (valV s i a.r) (valV s i b.r) (valV s i c.r)).1) (fun i => (f (valV s i a.r) (valV s i b.r) (valV s i c.r)).2) :=
  lane_result hr fun _ _ _ _ => rfl

/-- A comparison writes a predicate and raises flags (R108). -/
theorem lane_bfp {p : BitVec 3} (hr : LaneReady s (formP false p a b)) (fp : Bool) (f : Word → Word → Bool × Flags) :
    ∃ t, lane (formP false p a b) fp (bfp f) s = .next t ∧ LanePResult s t (formP false p a b)
      (fun i => (f (valV s i a.r) (valV s i b.r)).1) (fun i => (f (valV s i a.r) (valV s i b.r)).2) :=
  lane_done hr (x := fun _ => .none) (dst := fun _ => .none) (fun _ _ _ _ => rfl) (fun _ _ => rfl) fun _ _ => rfl

end

/-! ## The two-source forms (R105, R106, R110) -/

/-- `I` is the shared lane operation on the function `f` of its two sources, which gives a value and flags. -/
def ComputesFloat2 (I : BitVec 6 → Src → Src → Instr) (f : Word → Word → Word × Flags) : Prop :=
  ∃ fp, ∀ d a b s, exec (I d a b) s = lane (form2 false d a b) fp (bf2 f) s

theorem ComputesFloat2.done {I : BitVec 6 → Src → Src → Instr} {f : Word → Word → Word × Flags} (hI : ComputesFloat2 I f)
    {s : State} {d : BitVec 6} {a b : Src} (hr : LaneReady s (form2 false d a b)) :
    ∃ t, exec (I d a b) s = .next t ∧ LaneResult s t (form2 false d a b)
      (fun i => (f (valV s i a.r) (valV s i b.r)).1) (fun i => (f (valV s i a.r) (valV s i b.r)).2) := by
  obtain ⟨fp, hexec⟩ := hI
  rw [hexec]
  exact lane_bf2 hr fp f

/-- `copysign` as arithmetic on the bits of two elements (R110): all but the sign of the first, the sign of the second. -/
theorem lift2_signCopy (F : Fmt) : lift2 F signCopy =
    lift2 F fun _ x y => (x % 2 ^ (F.eb + F.mb) + y / 2 ^ (F.eb + F.mb) * 2 ^ (F.eb + F.mb), 0) := rfl

theorem lift2_signCopy_fp64 : lift2 fp64 signCopy = lift2 fp64 fun _ x y => (x % 2 ^ 63 + y / 2 ^ 63 * 2 ^ 63, 0) := by
  rw [lift2_signCopy, show fp64.eb + fp64.mb = 63 from rfl]

theorem lift2_signCopy_fp32 : lift2 fp32 signCopy = lift2 fp32 fun _ x y => (x % 2 ^ 31 + y / 2 ^ 31 * 2 ^ 31, 0) := by
  rw [lift2_signCopy, show fp32.eb + fp32.mb = 31 from rfl]

theorem computesFloat2_floatTwo : ∀ e ∈ floatTwo, ComputesFloat2 e.1 e.2 := by
  simp only [floatTwo, ← lift2_signCopy_fp64, ← lift2_signCopy_fp32, List.forall_mem_cons, List.not_mem_nil, false_imp_iff,
    implies_true, and_true]
  and_intros
  all_goals exact ⟨_, fun _ _ _ _ => rfl⟩

theorem computesFloat2_floatTwoLong (m : FMod) : ∀ e ∈ floatTwoLong, ComputesFloat2 (fun d a b => e.1 d a b m) (e.2 m) := by
  simp only [floatTwoLong, List.forall_mem_cons, List.not_mem_nil, false_imp_iff, implies_true, and_true]
  and_intros
  all_goals exact ⟨_, fun _ _ _ _ => rfl⟩

theorem computesFloat2_floatMinMaxLong (z : Bool) : ∀ e ∈ floatMinMaxLong, ComputesFloat2 (fun d a b => e.1 d a b z) (e.2 z) := by
  simp only [floatMinMaxLong, List.forall_mem_cons, List.not_mem_nil, false_imp_iff, implies_true, and_true]
  and_intros
  all_goals exact ⟨_, fun _ _ _ _ => rfl⟩

/-! ## Comparisons of element 0 (R108) -/

theorem elem_zero (n : Nat) (x : Word) : elem n 0 x = x.toNat % 2 ^ n := by simp [elem]

theorem cmp0_eq (F : Fmt) (c : FCmp) (x y : Word) : cmp0 F c x y = opCmp F c (x.toNat % 2 ^ fWidth F) (y.toNat % 2 ^ fWidth F) := by
  rw [cmp0, elem_zero, elem_zero]

theorem exec_floatCompares : ∀ e ∈ floatCompares, ∀ p a b s,
    exec (e.1 p a b) s = lane (formP false p a b) false (bfp e.2) s := by
  have hcmp : ∀ F c, cmp0 F c = fun x y => opCmp F c (x.toNat % 2 ^ fWidth F) (y.toNat % 2 ^ fWidth F) :=
    fun F c => funext₂ (cmp0_eq F c)
  simp only [floatCompares, List.forall_mem_cons, List.not_mem_nil, false_imp_iff, implies_true, and_true]
  and_intros
  all_goals exact fun p a b s => congrArg (fun f => lane (formP false p a b) false (bfp f) s) (hcmp _ _)

/-- Settles O7: each form is the shared lane operation on its function of the two sources. -/
theorem floatTwoSourceResults : Obligations.FloatTwoSourceResults := by
  refine ⟨⟨?short, ?long, ?minMax⟩, ?compare⟩
  case short => exact fun e he s d a b hr => (computesFloat2_floatTwo e he).done hr
  case long => exact fun e he s d a b m hr => (computesFloat2_floatTwoLong m e he).done hr
  case minMax => exact fun e he s d a b z hr => (computesFloat2_floatMinMaxLong z e he).done hr
  case compare =>
    intro e he s p a b hr
    rw [exec_floatCompares e he]
    exact lane_bfp hr false e.2

/-! ## The one-source forms (R105, R109 to R113) -/

/-- Two operations that agree on the elements of a format agree on registers. -/
theorem lift1_congr {F : Fmt} {f g : Fmt → Nat → Nat × Flags} (h : ∀ x < 2 ^ fWidth F, f F x = g F x) : lift1 F f = lift1 F g := by
  have helem : ∀ (a : Word) i, f F (elem (fWidth F) i a) = g F (elem (fWidth F) i a) :=
    fun a i => h _ (Nat.mod_lt _ (by positivity))
  funext a
  simp only [lift1, packed1, helem]

/-- The sign bit inverted, as arithmetic on an element's bits (R110). -/
theorem signFlip_eq {F : Fmt} {x : Nat} (hx : x < 2 ^ fWidth F) :
    signFlip F x = (if x < 2 ^ (F.eb + F.mb) then x + 2 ^ (F.eb + F.mb) else x - 2 ^ (F.eb + F.mb), 0) := by
  have hw : 2 ^ fWidth F = 2 * 2 ^ (F.eb + F.mb) := by rw [fWidth, Nat.add_assoc, Nat.pow_add, Nat.pow_one]
  rw [hw] at hx
  rw [signFlip, hw]
  split
  · next h => rw [Nat.mod_eq_of_lt (by omega)]
  · next h => rw [Nat.mod_eq_sub_mod (by omega), Nat.mod_eq_of_lt (by omega)]; congr 1; omega

/-- `I` is the shared lane operation on the function `f` of its source, which gives a value and flags. -/
def ComputesFloat1 (I : BitVec 6 → Src → Instr) (f : Word → Word × Flags) : Prop :=
  ∃ fp, ∀ d a s, exec (I d a) s = lane (form1 false d a) fp (bf1 f) s

theorem ComputesFloat1.done {I : BitVec 6 → Src → Instr} {f : Word → Word × Flags} (hI : ComputesFloat1 I f)
    {s : State} {d : BitVec 6} {a : Src} (hr : LaneReady s (form1 false d a)) :
    ∃ t, exec (I d a) s = .next t ∧ LaneResult s t (form1 false d a)
      (fun i => (f (valV s i a.r)).1) (fun i => (f (valV s i a.r)).2) := by
  obtain ⟨fp, hexec⟩ := hI
  rw [hexec]
  exact lane_bf1 hr fp f

/-- The function may be said in another way. -/
theorem ComputesFloat1.of_eq {I : BitVec 6 → Src → Instr} {f g : Word → Word × Flags} (hI : ComputesFloat1 I f) (h : f = g) :
    ComputesFloat1 I g := h ▸ hI

theorem computesFloat1_floatOne : ∀ e ∈ floatOne, ComputesFloat1 e.1 e.2 := by
  simp only [floatOne, List.forall_mem_cons, List.not_mem_nil, false_imp_iff, implies_true, and_true]
  refine ⟨?sqrtD, ?rintD, ?fclassD, ?absD, ?negD, ?sqrtF, ?rintF, ?fclassF, ?absF, ?negF, ?special⟩
  case negD => exact .of_eq (f := lift1 fp64 signFlip) ⟨_, fun _ _ _ => rfl⟩ (lift1_congr fun _ hx => signFlip_eq hx)
  case negF => exact .of_eq (f := lift1 fp32 signFlip) ⟨_, fun _ _ _ => rfl⟩ (lift1_congr fun _ hx => signFlip_eq hx)
  case special => and_intros; all_goals exact ⟨_, fun _ _ _ => rfl⟩
  all_goals exact ⟨_, fun _ _ _ => rfl⟩

theorem computesFloat1_floatOneLong (m : FMod) : ∀ e ∈ floatOneLong, ComputesFloat1 (fun d a => e.1 d a m) (e.2 m) := by
  simp only [floatOneLong, List.forall_mem_cons, List.not_mem_nil, false_imp_iff, implies_true, and_true]
  exact ⟨⟨_, fun _ _ _ => rfl⟩, ⟨_, fun _ _ _ => rfl⟩, ⟨_, fun _ _ _ => rfl⟩, ⟨_, fun _ _ _ => rfl⟩⟩

/-! ## The fused forms (R107) -/

theorem exec_floatFused : ∀ e ∈ floatFused, ∀ d a b c m s,
    exec (e.1 d a b c m) s = lane (form3 d a b c) true (bf3 (e.2 m)) s := by
  simp only [floatFused, List.forall_mem_cons, List.not_mem_nil, false_imp_iff, implies_true, and_true]
  and_intros
  all_goals exact fun _ _ _ _ _ _ => rfl

/-- Settles O8: each form is the shared lane operation on its function; only `neg` says its function in another way. -/
theorem floatOneAndThreeSourceResults : Obligations.FloatOneAndThreeSourceResults := by
  refine ⟨?short, ?long, ?fused⟩
  case short => exact fun e he s d a hr => (computesFloat1_floatOne e he).done hr
  case long => exact fun e he s d a m hr => (computesFloat1_floatOneLong m e he).done hr
  case fused =>
    intro e he s d a b c m hr
    rw [exec_floatFused e he]
    exact lane_bf3 hr true (e.2 m)

end Sys2Proof.Machine
end

section
/-! PROOFS. Conversions (R114 to R118): merging into vd (R115), AMAX before the result (R65, R66), a slot of another kind (R118). -/

namespace Sys2Proof.Machine

/-! ## Merging (R115) -/

/-- Where a conversion does not merge, what vd held is no part of its result. -/
theorem cvtReg_of_not_merges {m : CvtMod} (h : cvtMerges m = false) (slot : Word) (book : List Num) (a old old' : Word) :
    cvtReg m slot book a old = cvtReg m slot book a old' := by
  have hn : cvtN m = kindCount m.dk := min_eq_right (not_lt.1 (of_decide_eq_false h))
  unfold cvtReg
  split
  · rfl
  · simp only [hn, lt_irrefl, if_false, Nat.zero_le, Nat.zero_add, true_and]
    congr 3
    exact List.map_congr_left fun i hi => by rw [if_pos (List.mem_range.1 hi), if_pos (List.mem_range.1 hi)]

/-- What a conversion does with the values it reads, under the slot and codebook of its launch. -/
def cvtBody (s : State) (m : CvtMod) : List Word → Nat → State → Eff := fun v _ _ =>
  let r := cvtReg m (cvtSlot s m) (codebook (getGrid s (gridOfG s.cur.gk)) m.slot.toNat) (v.getD 0 0) (v.getD 1 0)
  effV r.1 r.2

/-- The value that a conversion gives thread `i`, and its flags. -/
def cvtValue (s : State) (d : BitVec 6) (a : Src) (m : CvtMod) (i : Nat) : Word × Flags :=
  cvtReg m (cvtSlot s m) (codebook (getGrid s (gridOfG s.cur.gk)) m.slot.toNat) (valV s i a.r) (valV s i d)

theorem cvtBody_eq (s : State) (d : BitVec 6) (a : Src) (m : CvtMod) (i : Nat) (t : State) :
    cvtBody s m ((formCvt d a m).flds.map fun x => (getR s s.cur.gk i x.uni x.r).v) i t =
      .val (.some (cvtValue s d a m i).1) .none (cvtValue s d a m i).2 .none := by
  cases h : cvtMerges m with
  | true => simp only [formCvt, h, if_true]; rfl
  | false =>
    rw [cvtValue, cvtReg_of_not_merges h _ _ _ _ 0]
    simp only [formCvt, h, Bool.false_eq_true, if_false]
    rfl

/-! ## AMAX (R65, R66) -/

section
variable {s t : State} {F : Form} {i : Nat}

/-- No thread's readiness depends on what its group holds besides its registers. -/
theorem LaneReady.withGrp (hr : LaneReady s F) (g : Tab Grp) : LaneReady { s with grp := g } F :=
  ⟨⟨hr.lane, hr.nodup, hr.small, hr.live, hr.guard, hr.limit, hr.limitD, hr.limitM, hr.source, hr.strict, hr.keepsS, hr.pred, hr.dest,
    hr.destP⟩, hr.clean⟩

theorem noteAmax_eq (gk k : Nat) (xs : List Num) (s : State) : ∃ g, noteAmax gk k xs s = { s with grp := g } := ⟨_, rfl⟩

theorem getGrp_noteAmax (gk k : Nat) (xs : List Num) (s : State) (g : Nat) : getGrp (noteAmax gk k xs s) g =
    if g = gk then { getGrp s gk with
      amax := tset 0 k (xs.foldl (fun a x => amaxNote x a) (tget 0 k (getGrp s gk).amax)) (getGrp s gk).amax } else getGrp s g := by
  rw [noteAmax, getGrp_setGrp]

/-- A value noted in AMAX is noted alike before and after some threads have issued: what they have done stays the same. -/
theorem LaneDone.noteAmax {ids : List Nat} {v : Nat → Option Cell} {p : Nat → Option Bool} {fl : Nat → Flags} {pc : Nat → Word}
    (hd : LaneDone s t ids F v p fl pc) (k : Nat) (xs : List Num) :
    LaneDone (noteAmax s.cur.gk k xs s) (noteAmax s.cur.gk k xs t) ids F v p fl pc where
  dest := hd.dest
  killed := hd.killed
  others := hd.others
  destP := hd.destP
  othersP := hd.othersP
  next := hd.next
  otherThreads := hd.otherThreads
  fpx := by
    show getGrp (Machine.noteAmax s.cur.gk k xs t) s.cur.gk = { getGrp (Machine.noteAmax s.cur.gk k xs s) s.cur.gk with
      fpx := ids.foldl (fun f i => f ||| fl i) (getGrp (Machine.noteAmax s.cur.gk k xs s) s.cur.gk).fpx }
    rw [getGrp_noteAmax, getGrp_noteAmax, if_pos rfl, if_pos rfl, hd.fpx]
  otherGroups := fun g (hg : g ≠ s.cur.gk) => by
    rw [getGrp_noteAmax, getGrp_noteAmax, if_neg hg, if_neg hg, hd.otherGroups g hg]
  rest := by
    have hrest := hd.rest
    conv_lhs => rw [hrest]
    rfl

theorem LaneReady.belowLimit (hr : LaneReady s F) : overLimit s s.cur.gk F = false :=
  overLimit_false hr.limit (fun d h => by rw [hr.lane]; exact hr.limitD d h) hr.limitM

theorem LaneReady.readCell_eq (hr : LaneReady s F) (hi : i ∈ s.cur.tids) {f : Fld} (hf : f ∈ F.flds) :
    readCell (getR s s.cur.gk i f.uni f.r) = ((getR s s.cur.gk i f.uni f.r).v, false) := by
  obtain ⟨hfull, hpsn⟩ := hr.clean i hi f hf
  rw [readCell_full hfull, hpsn]

/-- In a state that other threads of the bundle may have changed, a ready thread's guard holds and its sources are what they were. -/
theorem LaneReady.reads (hr : LaneReady s F) (hi : i ∈ s.cur.tids) (ha : Agree s t i)
    (hv : ∀ r, getV t (tkOf s i) r = getV s (tkOf s i) r) :
    guardVal t s.cur.gk i false = .yes ∧
      readSources t s.cur.gk i s.cur.pc F = .ok (F.flds.map fun f => (getR s s.cur.gk i f.uni f.r).v) false := by
  have hR : ∀ u r, getR t s.cur.gk i u r = getR s s.cur.gk i u r := by
    rintro (_ | _) r
    · exact hv r
    · exact ha.getS _ r
  have hP : ∀ q, getPQ t s.cur.gk i F.uni q = getP s (tkOf s i) q := by
    intro q; rw [hr.lane]; exact ha.pred q
  constructor
  · rw [← hr.guard i hi]
    simp only [guardVal, ha.cur, getPQ, Bool.false_eq_true, if_false, ha.pred]
  · have hread := readSources_ok (s := t) (gk := s.cur.gk) (tid := i) (pc := s.cur.pc) (F := F)
      (fun f hf => by rw [hR]; exact hr.source i hi f hf) (fun f hf hs => by rw [hR]; exact hr.strict i hi f hf hs)
      (fun p hp => by rw [hP]; exact hr.pred i hi p hp)
      (fun d hd => by rw [hR, hr.lane]; exact hr.dest i hi d hd)
      (fun p hp => by rw [hP]; exact hr.destP i hi p hp)
    rw [hread]
    congr 1
    · exact List.map_congr_left fun f hf => by rw [hR, hr.readCell_eq hi hf]
    · exact List.any_eq_false.2 fun f hf => by rw [hR, hr.readCell_eq hi hf]; exact Bool.false_ne_true

/-- One more thread of a ready bundle has issued, its sources clean. -/
theorem LaneDone.step_ready (hr : LaneReady s F) {ids : List Nat} {v : Nat → Option Cell} {p : Nat → Option Bool} {fl : Nat → Flags}
    {pc : Nat → Word} (hd : LaneDone s t ids F v p fl pc) (hi : i ∈ s.cur.tids) (hn : i ∉ ids) (hids : ∀ j ∈ ids, j ∈ s.cur.tids)
    {fp : Bool} {body : List Word → Nat → State → Eff} {x : Option Word} {f : Flags} {dst : Option Word}
    (hb : body (F.flds.map fun f => (getR s s.cur.gk i f.uni f.r).v) i t = .val x (p i) f dst)
    (hv : v i = x.map fun y => ⟨y, .full, false⟩) (hfl : fl i = f) (hpc : pc i = dst.getD s.cur.npc) :
    LaneDone s (laneThread F fp body t i) (ids ++ [i]) F v p fl pc :=
  hd.step hr.toLaneReadable hi hn hids
    (hpsn := List.any_eq_false.2 fun f hf => by rw [hr.readCell_eq hi hf]; exact Bool.false_ne_true)
    (hb := by rw [← hb]; congr 1; exact List.map_congr_left fun f hf => by rw [hr.readCell_eq hi hf])
    (hv := hv) (hfl := hfl) (hpc := hpc)

end

section
variable {s t : State} {d : BitVec 6} {a : Src} {m : CvtMod} {i : Nat}

/-- A ready thread notes its source values, whatever the others have done (R66). -/
theorem cvtNote_eq (hr : LaneReady s (formCvt d a m)) (hi : i ∈ s.cur.tids) (ha : Agree s t i)
    (hv : ∀ r, getV t (tkOf s i) r = getV s (tkOf s i) r) :
    cvtNote d a m t i = noteAmax s.cur.gk m.slot.toNat (cvtInputs s a m i) t := by
  obtain ⟨hguard, hread⟩ := hr.reads hi ha hv
  have hmem : fA false a ∈ (formCvt d a m).flds := by
    unfold formCvt; split <;> exact List.mem_cons_self ..
  have hcell : readCell (getR t s.cur.gk i false a.r) = (valV s i a.r, false) :=
    (congrArg readCell (hv a.r)).trans (hr.readCell_eq hi hmem)
  have hgrid : getGrid t = getGrid s := by
    obtain ⟨w, q, h, g, o, rfl⟩ := ha.same; rfl
  have hfirst : ((formCvt d a m).flds.map fun f => (getR s s.cur.gk i f.uni f.r).v).getD 0 0 = valV s i a.r := by
    unfold formCvt; split <;> rfl
  simp only [cvtNote, ha.cur, hguard, hread, hcell, hgrid, hfirst, Bool.false_eq_true, if_false]
  rfl

/-- AMAX after the threads `ids` have converted (R66): each notes its own source values, in order. -/
def cvtNoted (s : State) (a : Src) (m : CvtMod) (ids : List Nat) : State :=
  ids.foldl (fun u i => noteAmax s.cur.gk m.slot.toNat (cvtInputs s a m i) u) s

theorem cvtNoted_append (ids : List Nat) (i : Nat) :
    cvtNoted s a m (ids ++ [i]) = noteAmax s.cur.gk m.slot.toNat (cvtInputs s a m i) (cvtNoted s a m ids) := by
  rw [cvtNoted, List.foldl_append]; rfl

theorem cvtNoted_eq (ids : List Nat) : ∃ g, cvtNoted s a m ids = { s with grp := g } := by
  induction ids using List.reverseRecOn with
  | nil => exact ⟨s.grp, rfl⟩
  | append_singleton ids i ih =>
    obtain ⟨g, hg⟩ := ih
    rw [cvtNoted_append, hg]
    exact noteAmax_eq ..

/-- The threads `noted` have noted their source values, and the threads `ids` have converted them. -/
abbrev CvtDone (s t : State) (d : BitVec 6) (a : Src) (m : CvtMod) (noted ids : List Nat) : Prop :=
  LaneDone (cvtNoted s a m noted) t ids (formCvt d a m) (fun i => .some ⟨(cvtValue s d a m i).1, .full, false⟩) (fun _ => .none)
    (fun i => (cvtValue s d a m i).2) (fun _ => s.cur.npc)

theorem CvtDone.note {noted ids : List Nat} (hd : CvtDone s t d a m noted ids) (i : Nat) :
    CvtDone s (noteAmax s.cur.gk m.slot.toNat (cvtInputs s a m i) t) d a m (noted ++ [i]) ids := by
  obtain ⟨g, hg⟩ := cvtNoted_eq (s := s) (a := a) (m := m) noted
  unfold CvtDone at hd ⊢
  rw [cvtNoted_append, hg]
  rw [hg] at hd
  exact LaneDone.noteAmax hd _ _

/-- One more thread of a ready bundle, still live, notes its source values and converts them. -/
theorem CvtDone.step (hr : LaneReady s (formCvt d a m)) {ids : List Nat} (hd : CvtDone s t d a m ids ids) (hi : i ∈ s.cur.tids)
    (hn : i ∉ ids) (hids : ∀ j ∈ ids, j ∈ s.cur.tids) :
    (getThr t (threadKey t.cur.gk i)).st ≠ .exited ∧
      CvtDone s (laneThread (formCvt d a m) true (cvtBody s m) (cvtNote d a m t i) i) d a m (ids ++ [i]) (ids ++ [i]) := by
  obtain ⟨g, hg⟩ := cvtNoted_eq (s := s) (a := a) (m := m) ids
  obtain ⟨g', hg'⟩ := cvtNoted_eq (s := s) (a := a) (m := m) (ids ++ [i])
  have hnoted := hd.note i
  unfold CvtDone at hd hnoted ⊢
  rw [hg] at hd
  rw [hg'] at hnoted ⊢
  obtain ⟨ha, hv, hthr⟩ := hd.agree (hr.small i hi) (fun j hj => hr.small j (hids j hj)) hn
  have hnote : cvtNote d a m t i = noteAmax s.cur.gk m.slot.toNat (cvtInputs s a m i) t :=
    cvtNote_eq (s := { s with grp := g }) (hr.withGrp g) hi ha hv
  refine ⟨?live, ?done⟩
  case live =>
    rw [ha.cur, hthr]
    exact hr.live i hi
  case done =>
    rw [hnote]
    exact hnoted.step_ready (hr.withGrp g') hi hn hids (cvtBody_eq s d a m i _) rfl rfl rfl

/-- The whole bundle, thread by thread. -/
theorem CvtDone.fold (hr : LaneReady s (formCvt d a m)) (rest ids : List Nat) (t : State) (hsplit : s.cur.tids = ids ++ rest)
    (hd : CvtDone s t d a m ids ids) :
    CvtDone s (rest.foldl (fun u i => if (getThr u (threadKey u.cur.gk i)).st = .exited then u else
      laneThread (formCvt d a m) true (cvtBody s m) (cvtNote d a m u i) i) t) d a m (ids ++ rest) (ids ++ rest) := by
  induction rest generalizing ids t with
  | nil => rwa [List.append_nil]
  | cons i rest ih =>
    have hnodup := hr.nodup
    rw [hsplit] at hnodup
    obtain ⟨hlive, hd'⟩ := hd.step hr (i := i) (by rw [hsplit]; simp)
      (fun h => (List.nodup_append.1 hnodup).2.2 i h i (List.mem_cons_self ..) rfl) (fun j hj => by rw [hsplit]; simp [hj])
    rw [List.foldl_cons, if_neg hlive, List.append_cons]
    exact ih (ids ++ [i]) _ (by rw [hsplit, List.append_cons]) hd'

theorem exec_cvt_eq (d : BitVec 6) (a : Src) (m : CvtMod) (s : State) : exec (.cvt d a m) s = execCvt d a m s := rfl

/-- A ready bundle converts where an E4 side has a slot of its kind (R114, R118); a narrowing conversion notes its sources first (R66). -/
theorem exec_cvt_ready (hr : LaneReady s (formCvt d a m)) (hk : (m.sk = .e4 ∨ m.dk = .e4) → slotKind (cvtSlot s m) = 4) :
    exec (.cvt d a m) s = .next (perThread (fun u i =>
      laneThread (formCvt d a m) true (cvtBody s m) (if narrows m then cvtNote d a m u i else u) i) s) := by
  have hslot : ¬ ((m.sk = .e4 ∨ m.dk = .e4) ∧ slotKind (cvtSlot s m) ≠ kindNum .e4) := fun h => h.2 (hk h.1)
  rw [exec_cvt_eq, execCvt]
  exact (if_neg hslot).trans (if_neg (by rw [hr.belowLimit]; exact Bool.false_ne_true))

theorem exec_cvt_narrows (hr : LaneReady s (formCvt d a m)) (hk : (m.sk = .e4 ∨ m.dk = .e4) → slotKind (cvtSlot s m) = 4)
    (hw : kindWidth m.dk < kindWidth m.sk) : ∃ t, exec (.cvt d a m) s = .next t ∧ CvtDone s t d a m s.cur.tids s.cur.tids := by
  refine ⟨_, exec_cvt_ready hr hk, ?_⟩
  simp only [narrows, decide_eq_true hw, if_true, perThread]
  exact CvtDone.fold hr s.cur.tids [] s rfl (laneDone_nil ..)

theorem exec_cvt_not_narrows (hr : LaneReady s (formCvt d a m)) (hk : (m.sk = .e4 ∨ m.dk = .e4) → slotKind (cvtSlot s m) = 4)
    (hw : ¬ kindWidth m.dk < kindWidth m.sk) : ∃ t, exec (.cvt d a m) s = .next t ∧
      LaneResult s t (formCvt d a m) (fun i => (cvtValue s d a m i).1) (fun i => (cvtValue s d a m i).2) := by
  have hlane : exec (.cvt d a m) s = lane (formCvt d a m) true (cvtBody s m) s := by
    rw [exec_cvt_ready hr hk]
    simp only [narrows, decide_eq_false hw, Bool.false_eq_true, if_false, lane, hr.belowLimit]
  rw [hlane]
  exact lane_result hr fun i _ t _ => cvtBody_eq s d a m i t

/-! ## A slot of another kind (R118) -/

theorem exec_cvt_slotMismatch (ha : Alone s i) (hl : (getThr s (tkOf s i)).st ≠ .exited) (hk : m.sk = .e4 ∨ m.dk = .e4)
    (hs : slotKind (cvtSlot s m) ≠ 4) : exec (.cvt d a m) s = .next (trapThread i (illegalHere s) s) := by
  have hill : execCvt d a m s = .next (illegalLane s) := by
    unfold execCvt
    exact if_pos ⟨hk, hs⟩
  rw [exec_cvt_eq, hill, illegalLane, perThread, ha, List.foldl_cons, List.foldl_nil, if_neg hl]

end

/-- Settles O9: AMAX is noted thread by thread between the conversions, and comes to the same as noting it first. -/
theorem conversionResults : Obligations.ConversionResults := by
  refine ⟨fun s d a m hr hk => ?converts, fun s d a m i ha hl hk hs => exec_cvt_slotMismatch ha hl hk hs⟩
  by_cases hw : kindWidth m.dk < kindWidth m.sk
  · obtain ⟨t, ht, hd⟩ := exec_cvt_narrows hr hk hw
    refine ⟨t, ht, ?_⟩
    obtain ⟨g, hg⟩ := cvtNoted_eq (s := s) (a := a) (m := m) s.cur.tids
    rw [if_pos hw, ← cvtNoted]
    unfold CvtDone at hd
    rw [hg] at hd ⊢
    exact hd
  · rw [if_neg hw]
    exact exec_cvt_not_narrows hr hk hw

end Sys2Proof.Machine
end

section
/-! PROOFS. The values that atomics write (R134). -/

namespace Sys2Proof.Machine

/-- The bits of an atomic's element. -/
def atomWidth (ty : AtomTy) : Nat := 8 * atomBytes ty

section
variable {ty : AtomTy} {z : Nat}

/-- Extending an element keeps its bits (R52). -/
theorem toNat_atomExt_mod (hz : z < 2 ^ atomWidth ty) : (atomExt ty z).toNat % 2 ^ atomWidth ty = z := by
  cases ty <;> simp [atomExt, atomWidth, atomBytes, word, zx32, sx32, BitVec.toNat_signExtend] at hz ⊢
  case i32 => split <;> omega
  all_goals omega

/-- An element of an unsigned type, and its extension, are one number. -/
theorem toNat_atomExt_unsigned (hs : atomSigned ty = false) (hz : z < 2 ^ atomWidth ty) : (atomExt ty z).toNat = z := by
  cases ty <;> simp [atomSigned, atomExt, atomWidth, atomBytes, word, zx32] at hs hz ⊢ <;> omega

/-- The number that the bits of an element stand for, as a signed one. -/
theorem toInt_ofNat_eq_elemInt {w : Nat} (hw : 0 < w) (hz : z < 2 ^ w) : (BitVec.ofNat w z).toInt = elemInt true w z := by
  obtain ⟨n, rfl⟩ : ∃ n, w = n + 1 := ⟨w - 1, by omega⟩
  have hcast : ((2 ^ (n + 1) : Nat) : Int) = 2 ^ (n + 1) := by push_cast; rfl
  rw [BitVec.toInt_eq_toNat_cond, BitVec.toNat_ofNat, Nat.mod_eq_of_lt hz, elemInt, Nat.add_sub_cancel, hcast]
  have hpow : 2 ^ (n + 1) = 2 * 2 ^ n := pow_succ' 2 n
  by_cases h : 2 ^ n ≤ z
  · rw [if_neg (by omega), if_pos ⟨rfl, h⟩]
  · rw [if_pos (by omega), if_neg fun c => h c.2]

/-- An element of a signed type extends to the number that it stands for (R52). -/
theorem toInt_atomExt_signed (hs : atomSigned ty = true) (hz : z < 2 ^ atomWidth ty) :
    (atomExt ty z).toInt = elemInt true (atomWidth ty) z := by
  cases ty with
  | i32 => exact (BitVec.toInt_signExtend_of_le (by decide)).trans (toInt_ofNat_eq_elemInt (by decide) hz)
  | i64 => exact toInt_ofNat_eq_elemInt (w := 64) (by decide) hz
  | n32 => cases hs
  | n64 => cases hs
  | d => cases hs

theorem atomExt_inj {x : Nat} (hx : x < 2 ^ atomWidth ty) (hz : z < 2 ^ atomWidth ty) : atomExt ty z = atomExt ty x ↔ z = x := by
  refine ⟨fun h => ?_, fun h => h ▸ rfl⟩
  rw [← toNat_atomExt_mod hz, h, toNat_atomExt_mod hx]

theorem toNat_atomExt_add {x : Nat} (hx : x < 2 ^ atomWidth ty) (hz : z < 2 ^ atomWidth ty) :
    (atomExt ty z + atomExt ty x).toNat % 2 ^ atomWidth ty = (z + x) % 2 ^ atomWidth ty := by
  have hdvd : 2 ^ atomWidth ty ∣ 2 ^ 64 := Nat.pow_dvd_pow 2 (by cases ty <;> decide)
  rw [BitVec.toNat_add, Nat.mod_mod_of_dvd _ hdvd, Nat.add_mod, toNat_atomExt_mod hx, toNat_atomExt_mod hz]

/-- The comparison by which an atomic orders words: of its type's signedness (R134). -/
def atomLess (ty : AtomTy) (x y : Word) : Bool := if atomSigned ty then x.slt y else x.ult y

/-- The order of extended elements is that of the numbers they stand for. -/
theorem atomLess_iff {x : Nat} (hx : x < 2 ^ atomWidth ty) (hz : z < 2 ^ atomWidth ty) :
    atomLess ty (atomExt ty x) (atomExt ty z) = true ↔
      elemInt (atomSigned ty) (atomWidth ty) x < elemInt (atomSigned ty) (atomWidth ty) z := by
  cases hs : atomSigned ty with
  | true => simp [atomLess, hs, BitVec.slt, toInt_atomExt_signed hs hx, toInt_atomExt_signed hs hz]
  | false => simp [atomLess, hs, BitVec.ult, toNat_atomExt_unsigned hs hx, toNat_atomExt_unsigned hs hz, elemInt]
end

/-- The operand of an atomic is read as an element (R134). -/
theorem atomOperand_eq (ty : AtomTy) (x : Word) :
    (if atomBytes ty = 4 then atomExt ty (bits x 31 0) else x) = atomExt ty (x.toNat % 2 ^ atomWidth ty) := by
  cases ty <;> simp [atomBytes, atomWidth, atomExt, bits, word, Nat.mod_eq_of_lt x.isLt]

/-- What an integer atomic answers, in the words of the extended elements. -/
theorem atomNew_integer {ty : AtomTy} (hty : ty ≠ .d) (minor : Nat) (e x y : Word) {x' y' : Word}
    (hx : x' = atomExt ty (x.toNat % 2 ^ atomWidth ty)) (hy : y' = atomExt ty (y.toNat % 2 ^ atomWidth ty)) :
    atomNew minor ty e x y = match minor with
      | 0 => e + x'
      | 1 => if atomLess ty x' e then x' else e
      | 2 => if atomLess ty e x' then x' else e
      | 3 => e &&& x'
      | 4 => e ||| x'
      | 5 => e ^^^ x'
      | 6 => x'
      | _ => if e = x' then y' else e := by
  subst hx hy
  simp only [atomNew, atomOperand_eq]
  match minor with
  | 0 => cases ty with | d => exact absurd rfl hty | _ => rfl
  | 1 => cases ty with | d => exact absurd rfl hty | _ => rfl
  | 2 => cases ty with | d => exact absurd rfl hty | _ => rfl
  | 3 | 4 | 5 | 6 | _ + 7 => rfl

/-- The bitwise atomics, the exchange and the compare are of unsigned types (R134). -/
theorem unsigned_of_accepts {minor : Nat} {ty : AtomTy} (h : atomAccepts minor ty) (hm : 3 ≤ minor) : atomSigned ty = false := by
  cases ty with
  | i32 | i64 => exact absurd h (by simp [atomAccepts]; omega)
  | n32 | n64 | d => rfl

theorem integer_of_accepts {minor : Nat} {ty : AtomTy} (h : atomAccepts minor ty) : ty ≠ .d := by
  rintro rfl; exact h

/-- The value that an integer atomic writes, as bits of the element. -/
theorem toNat_atomNew {minor : Nat} {ty : AtomTy} {z : Nat} (h : atomAccepts minor ty) (hz : z < 2 ^ atomWidth ty) (x y : Word) :
    (atomNew minor ty (atomExt ty z) x y).toNat % 2 ^ atomWidth ty =
      atomRule minor (atomSigned ty) (atomWidth ty) z (x.toNat % 2 ^ atomWidth ty) (y.toNat % 2 ^ atomWidth ty) := by
  rw [atomNew_integer (integer_of_accepts h) minor _ x y rfl rfl]
  have hx : x.toNat % 2 ^ atomWidth ty < 2 ^ atomWidth ty := Nat.mod_lt _ (by positivity)
  have hy : y.toNat % 2 ^ atomWidth ty < 2 ^ atomWidth ty := Nat.mod_lt _ (by positivity)
  generalize x.toNat % 2 ^ atomWidth ty = a at hx
  generalize y.toNat % 2 ^ atomWidth ty = b at hy
  have hbit (hm : 3 ≤ minor) : (atomExt ty z).toNat = z ∧ (atomExt ty a).toNat = a :=
    ⟨toNat_atomExt_unsigned (unsigned_of_accepts h hm) hz, toNat_atomExt_unsigned (unsigned_of_accepts h hm) hx⟩
  match minor with
  | 0 => exact toNat_atomExt_add hx hz
  | 1 =>
    simp only [atomLess_iff hx hz, atomRule]
    split
    · exact toNat_atomExt_mod hx
    · exact toNat_atomExt_mod hz
  | 2 =>
    simp only [atomLess_iff hz hx, atomRule]
    split
    · exact toNat_atomExt_mod hx
    · exact toNat_atomExt_mod hz
  | 3 =>
    obtain ⟨h1, h2⟩ := hbit (by decide)
    simp only [BitVec.toNat_and, h1, h2, atomRule, Nat.mod_eq_of_lt (Nat.and_lt_two_pow z hx)]
  | 4 =>
    obtain ⟨h1, h2⟩ := hbit (by decide)
    simp only [BitVec.toNat_or, h1, h2, atomRule, Nat.mod_eq_of_lt (Nat.or_lt_two_pow hz hx)]
  | 5 =>
    obtain ⟨h1, h2⟩ := hbit (by decide)
    simp only [BitVec.toNat_xor, h1, h2, atomRule, Nat.mod_eq_of_lt (Nat.xor_lt_two_pow hz hx)]
  | 6 => exact toNat_atomExt_mod hx
  | _ + 7 =>
    simp only [atomExt_inj hx hz, atomRule]
    split
    · exact toNat_atomExt_mod hy
    · exact toNat_atomExt_mod hz

/-- Settles O35: the extended elements are added, compared and combined as the numbers they stand for; `.d` is the model's own addition. -/
theorem atomicValues : Obligations.AtomicValues :=
  ⟨fun _ _ _ x y h hz => toNat_atomNew h hz x y, fun _ x _ => by simp [atomNew, atomBytes, word]⟩

end Sys2Proof.Machine
end

section
/-! PROOFS. What translation leaves of the launch records, and what the commits of accesses leave of the rest of the state. -/

namespace Sys2Proof.Machine

/-! ## Translation keeps the launch records -/

/-- What reads as a value that a change does not make the default reads as the changed value. -/
theorem tget_tmap {α : Type} [DecidableEq α] {d : α} {f : Nat → α → α} {k : Nat} {t : Tab α} (h : tget d k t ≠ d)
    (hf : f k (tget d k t) ≠ d) : tget d k (tmap d f t) = f k (tget d k t) := by
  induction t with
  | nil => exact absurd rfl h
  | cons p t ih =>
    unfold tmap at ih ⊢
    rw [List.map_cons, List.filter_cons]
    by_cases hk : p.1 = k
    · simp only [tget, if_pos hk] at hf ⊢
      subst hk
      simp [hf, tget]
    · simp only [tget, if_neg hk] at h hf ⊢
      split
      · simp only [tget, if_neg hk, ih h hf]
      · exact ih h hf

section
variable {R : State → State → Prop} (refl : ∀ s, R s s) (mem : ∀ s m, R s { s with mm := m }) (trans : ∀ s t u, R s t → R t u → R s u)
  (view : ∀ pa m s, R s (viewPage pa m s))
include refl mem

theorem rel_setEntryBit (pe b : Nat) (s : State) : R s (setEntryBit pe b s) := by
  simp only [setEntryBit]
  split
  · exact refl s
  · exact mem s _

include trans

theorem rel_lookup (core asid va : Nat) (s : State) : R s (lookup core asid va s).2 := by
  simp only [lookup]
  split
  · exact refl s
  · split
    · exact refl s
    · split
      · exact trans _ _ _ (mem s _) (rel_setEntryBit refl mem ..)
      · exact refl s
      · exact refl s

include view

theorem rel_xlate (q : Asker) (va n : Nat) (a : Acc) (user : Bool) (s : State) : R s (xlate q va n a user s).2 := by
  have h := rel_lookup refl mem trans q.core q.asid va s
  unfold xlate
  split <;> rename_i hl <;> rw [hl] at h
  · dsimp only
    split
    · exact h
    · refine trans _ _ _ h ?_
      split
      · exact view ..
      · exact refl _
  · exact h
  · exact h

theorem rel_planPiece (k : Asker) (user : Bool) (accs : List Acc) (q : Word × Nat) (s : State) : R s (planPiece k user accs q s).2 := by
  unfold planPiece
  refine List.foldlRecOn accs _ (motive := fun x : Plan × State => R s x.2) (refl s) fun x h a _ => ?_
  split
  · split
    · exact h
    · have hx := rel_xlate refl mem trans view k (q.1.toNat % 2 ^ 57) q.2 a user x.2
      split <;> rename_i he <;> rw [he] at hx <;> exact trans _ _ _ h hx
  · exact h
  · exact h

/-- Planning an access relates the states before and after as the steps of a translation do. -/
theorem rel_plan (gk tid : Nat) (uni user : Bool) (sp : Space) (accs : List Acc) (va : Word) (n : Nat) (s : State) :
    R s (plan gk tid uni user sp accs va n s).2 := by
  unfold plan planFor
  cases sp with
  | s => simp only; split <;> exact refl s
  | h => simp only; split <;> exact refl s
  | g =>
    simp only
    split
    · exact refl s
    · split
      · split <;> exact refl s
      · split
        · exact refl s
        · refine List.foldlRecOn _ _ (motive := fun x : List Plan × State => R s x.2) (refl s) fun x h q _ => ?_
          exact trans _ _ _ h (rel_planPiece refl mem trans view ..)
end

/-- The launch records of `s` that are not the default stand in `t`. -/
def KeepsRecords (s t : State) : Prop := ∀ g, (getGrid s g).lr ≠ {} → (getGrid t g).lr = (getGrid s g).lr

theorem keepsRecords_of_grid {s t : State} (h : t.grid = s.grid) : KeepsRecords s t := fun g _ => by simp only [getGrid, h]

theorem keepsRecords_trans (s t u : State) (h : KeepsRecords s t) (k : KeepsRecords t u) : KeepsRecords s u := fun g hg => by
  rw [k g (by rwa [h g hg]), h g hg]

theorem grid_of_cacheOnly {s t : State} (h : CacheOnly s t) : t.grid = s.grid := by
  obtain ⟨_, _, _, _, _, _, _, rfl, -⟩ := h; rfl

theorem cacheOnly_sweepPage (page : Nat) (s : State) : CacheOnly s (sweepPage page s) := by
  unfold sweepPage
  exact cacheOnly_trans (cacheOnly_foldl (fun _ (l : Line) => cacheOnly_pwriteMasked (l.line * 128) l.dirty l.data _) _ s)
    ⟨_, _, _, _, _, _, _, rfl, id⟩

/-- New key material changes of a grid the words of its code pages only (R210, R303). -/
theorem keepsRecords_viewPage (pa : Nat) (m : Option (BitVec 512)) (s : State) : KeepsRecords s (viewPage pa m s) := by
  intro g hg
  have hne : getGrid s g ≠ {} := fun c => hg (by rw [c])
  have hsweep : (sweepPage (pa / 65536) s).grid = s.grid := grid_of_cacheOnly (cacheOnly_sweepPage ..)
  simp only [viewPage]
  split
  · rfl
  · simp only [getGrid, hsweep]
    rw [tget_tmap hne]
    exact fun c => hg (congrArg Grid.lr c :)

/-- A launch record that has registers is the same after a translation. -/
theorem recOf_plan {gk tid : Nat} {uni user : Bool} {sp : Space} {accs : List Acc} {va : Word} {n : Nat} {s u : State} {r : Plan}
    (h : plan gk tid uni user sp accs va n s = (r, u)) {k : Nat} (hr : recOf s k ≠ {}) : recOf u k = recOf s k := by
  have := rel_plan (R := KeepsRecords) (fun _ => keepsRecords_of_grid rfl) (fun _ _ => keepsRecords_of_grid rfl) keepsRecords_trans
    keepsRecords_viewPage gk tid uni user sp accs va n s
  rw [h] at this
  exact this _ hr

theorem cur_of_plan {gk tid : Nat} {uni user : Bool} {sp : Space} {accs : List Acc} {va : Word} {n : Nat} {s u : State} {r : Plan}
    (h : plan gk tid uni user sp accs va n s = (r, u)) : u.cur = s.cur := by
  have hm := memOnly_plan gk tid uni user sp accs va n s
  rw [h] at hm
  obtain ⟨m, g, e⟩ := hm
  rw [show u = _ from e]

/-- So is that of the issuing group. -/
theorem recOf_issued {gk tid : Nat} {uni user : Bool} {sp : Space} {accs : List Acc} {va : Word} {n : Nat} {s u : State} {r : Plan}
    (h : plan gk tid uni user sp accs va n s = (r, u)) (hr : recOf s s.cur.gk ≠ {}) : recOf u u.cur.gk = recOf s s.cur.gk := by
  rw [cur_of_plan h, recOf_plan h hr]

/-- A thread that can issue belongs to a launch with registers (R29). -/
theorem LaneReadable.recOf_ne {s : State} {F : Form} (h : LaneReadable s F) {f : Fld} (hf : f ∈ F.flds) : recOf s s.cur.gk ≠ {} := by
  intro c
  have := h.limit f hf
  rw [c] at this
  cases hu : f.uni <;> simp [hu] at this

/-! ## What the commits of accesses leave -/

/-- `t` differs from `s` in registers, predicates and the operand caches only. -/
abbrev RegsOnly (s t : State) : Prop :=
  ∃ v w p q o, t = { s with vreg := v, sreg := w, pred := p, qpred := q, sc := { s.sc with opc := o } }

theorem regsOnly_refl (s : State) : RegsOnly s s := ⟨s.vreg, s.sreg, s.pred, s.qpred, s.sc.opc, rfl⟩

theorem regsOnly_trans {s t u : State} (h : RegsOnly s t) (k : RegsOnly t u) : RegsOnly s u := by
  obtain ⟨_, _, _, _, _, rfl⟩ := h
  obtain ⟨v, w, p, q, o, rfl⟩ := k
  exact ⟨v, w, p, q, o, rfl⟩

theorem regsOnly_dropKept (gk i : Nat) (u : Bool) (r : BitVec 6) (s : State) : RegsOnly s (dropKept gk i u r s) :=
  ⟨s.vreg, s.sreg, s.pred, s.qpred, _, rfl⟩

theorem regsOnly_setR (gk i : Nat) (u : Bool) (r : BitVec 6) (c : Cell) (s : State) : RegsOnly s (setR gk i u r c s) := by
  cases u with
  | false => exact ⟨_, s.sreg, s.pred, s.qpred, s.sc.opc, rfl⟩
  | true =>
    obtain ⟨w, hw⟩ := setS_eq gk r c s
    exact ⟨s.vreg, w, s.pred, s.qpred, s.sc.opc, hw⟩

theorem regsOnly_setPQ (gk i : Nat) (u : Bool) (p : BitVec 3) (c : PCell) (s : State) : RegsOnly s (setPQ gk i u p c s) := by
  cases u with
  | false =>
    simp only [setPQ, setP, Bool.false_eq_true, if_false]
    split
    · exact regsOnly_refl s
    · exact ⟨s.vreg, s.sreg, _, s.qpred, s.sc.opc, rfl⟩
  | true =>
    simp only [setPQ, setQ, if_true]
    split
    · exact regsOnly_refl s
    · exact ⟨s.vreg, s.sreg, s.pred, _, s.sc.opc, rfl⟩

theorem regsOnly_killAll (gk i : Nat) (ks : List (Bool × BitVec 6)) (s : State) : RegsOnly s (killAll gk i ks s) :=
  List.foldlRecOn ks _ (motive := RegsOnly s) (regsOnly_refl s) fun _ h _ _ =>
    regsOnly_trans h (regsOnly_trans (regsOnly_setR ..) (regsOnly_dropKept ..))

theorem regsOnly_keepRegs (gk i : Nat) (ks : List (Bool × BitVec 6)) (s : State) : RegsOnly s (keepRegs gk i ks s) := by
  obtain ⟨o, h⟩ := keepRegs_eq gk i ks s
  exact ⟨s.vreg, s.sreg, s.pred, s.qpred, o, h⟩

theorem regsOnly_useAll (gk i : Nat) (u : Uses) (s : State) : RegsOnly s (useAll gk i u s) :=
  regsOnly_trans (regsOnly_killAll ..) (regsOnly_keepRegs ..)

theorem regsOnly_commitStore (i : Nat) (F : Form) (s : State) : RegsOnly s (commitStore i F s) :=
  regsOnly_useAll s.cur.gk i ⟨kills F, keeps F⟩ s

theorem regsOnly_markEmpty (gk i : Nat) (u : Bool) (r : BitVec 6) (s : State) : RegsOnly s (markEmpty gk i u r s) :=
  regsOnly_trans (regsOnly_setR ..) (regsOnly_dropKept ..)

theorem regsOnly_emptyDest (i : Nat) (F : Form) (s : State) : RegsOnly s (emptyDest i F s) := by
  have hd : RegsOnly s (match F.dv with | .some d => markEmpty s.cur.gk i F.uni d s | .none => s) := by
    split
    · exact regsOnly_markEmpty ..
    · exact regsOnly_refl s
  unfold emptyDest
  dsimp only
  split
  · exact regsOnly_trans hd (regsOnly_setPQ ..)
  · exact hd

theorem regsOnly_commitLong (i : Nat) (F : Form) (s : State) : RegsOnly s (commitLong i F s) :=
  regsOnly_trans (regsOnly_commitStore i F s) (regsOnly_emptyDest ..)

/-- The destination of a thread's long-latency producer is EMPTY from its issue on (R36). -/
theorem getV_emptyDest {F : Form} (hu : F.uni = false) (i : Nat) (s : State) (k : Nat) (r : BitVec 6) :
    getV (emptyDest i F s) k r = if k = tkOf s i ∧ F.dv = .some r then { getV s k r with st := .empty } else getV s k r := by
  have hp : ∀ t : State, getV (match F.dp with
      | .some p => setPQ s.cur.gk i F.uni p { getPQ t s.cur.gk i F.uni p with empty := true } t | .none => t) k r = getV t k r := by
    intro t
    cases F.dp with
    | none => rfl
    | some p => simp [setPQ, hu]
  refine (hp _).trans ?_
  cases hd : F.dv with
  | none => simp
  | some d =>
    simp only [markEmpty, getV_dropKept, setR, getR, hu, Bool.false_eq_true, if_false, getV_setV, Option.some.injEq]
    by_cases h : k = tkOf s i ∧ r = d
    · obtain ⟨rfl, rfl⟩ := h
      simp
    · rw [if_neg h, if_neg fun c => h ⟨c.1, c.2.symm⟩]

/-- So is the predicate destination of a checked one (R37, R131). -/
theorem getP_emptyDest {F : Form} (hu : F.uni = false) (i : Nat) (s : State) {p : BitVec 3} (hp : F.dp = .some p) (h0 : p ≠ 0) :
    (getP (emptyDest i F s) (tkOf s i) p).empty = true := by
  simp only [emptyDest, hp, setPQ, getPQ, hu, Bool.false_eq_true, if_false, getP_setP, true_and]
  rw [if_pos h0]

/-- What a commit does to the one source of a form (R41). -/
theorem usesOf_single (F : Form) (u : Bool) (a : Src) (n : Nat) (b : Bool) (h : F.flds = [⟨u, a.r, a.c, n, b⟩]) :
    usesOf F = ⟨if a.c = .last then [(u, a.r)] else [], if a.c = .keep then [(u, a.r)] else []⟩ := by
  obtain ⟨r, c⟩ := a
  cases c <;> simp [usesOf, kills, keeps, h]

end Sys2Proof.Machine
end

section
/-! PROOFS. How loads issue (R126, R129 to R131). -/

namespace Sys2Proof.Machine

/-! ## What a load does once its address has been translated -/

/-- The operation that a load of `n` bytes at `va`, translated to `qs`, has in flight (R126, R334, R348). -/
def loadKind (F : Form) (d : BitVec 6) (sp : Space) (n : Nat) (va : Word) (qs : List Piece) (u : State) : OpK :=
  if isDrainWord (partsOf qs) && n == 8 then
    .drain F.uni d F.dp (dieOf (coreOf u u.cur.gk)) (vdevOf u (ctxOf u u.cur.gk)) (getUnit u (dieOf (coreOf u u.cur.gk))).nextPair
  else if (partsOf qs).any fun p => isPeer p.pa then .rload F.uni d F.dp (partsOf qs) va .none .none
  else .load F.uni (sp == .s) d F.dp (partsOf qs) va

/-- The operation by which a load of an editioned page goes to its agent (R297). -/
def edlKind (F : Form) (d : BitVec 6) (n : Nat) (va : Word) (e : Option Nat) (tid : Nat) (u : State) : OpK :=
  .edl F.uni d F.dp (usesOf F) va n e u.cur.npc (getR u u.cur.gk tid F.uni d) (predOf u tid F)

theorem editioned_any {qs : List Piece} : (qs.any (·.region != 0)) = true ↔ editioned qs := by simp [editioned]

theorem readsDrainWord_iff {qs : List Piece} {n : Nat} : (isDrainWord (partsOf qs) && n == 8) = true ↔ readsDrainWord qs n := by
  simp [isDrainWord, partsOf, readsDrainWord, and_comm]

theorem readsPeer_iff {qs : List Piece} : ((partsOf qs).any fun p => isPeer p.pa) = true ↔ readsPeer qs := by
  simp [partsOf, readsPeer]

section
variable {F : Form} {d : BitVec 6} {sp : Space} {n : Nat} {va : Word} {qs : List Piece} {u : State}

theorem loadKind_drain (h : readsDrainWord qs n) : loadKind F d sp n va qs u = .drain F.uni d F.dp (dieOf (coreOf u u.cur.gk))
    (vdevOf u (ctxOf u u.cur.gk)) (getUnit u (dieOf (coreOf u u.cur.gk))).nextPair := if_pos (readsDrainWord_iff.2 h)

theorem loadKind_ordinary (h : ¬ readsDrainWord qs n) : loadKind F d sp n va qs u =
    if (partsOf qs).any fun p => isPeer p.pa then .rload F.uni d F.dp (partsOf qs) va .none .none
    else .load F.uni (sp == .s) d F.dp (partsOf qs) va := if_neg (mt readsDrainWord_iff.1 h)

/-- Registers do not say what a load asks for. -/
theorem loadKind_regsOnly {t : State} (h : RegsOnly u t) : loadKind F d sp n va qs t = loadKind F d sp n va qs u := by
  obtain ⟨_, _, _, _, _, rfl⟩ := h; rfl

variable {e : Option Nat} {tid : Nat} {s : State}

theorem loadBody_fault {c : Nat} {a : Word} (hp : plan s.cur.gk tid F.uni (userOf s s.cur.gk tid F.uni) sp [.r] va n s = (.fault c a, u)) :
    loadBody F d sp n va e tid s = .trap (accessFault s.cur.pc a c sp false) := by
  simp only [loadBody, hp, cur_of_plan hp]

variable (hp : plan s.cur.gk tid F.uni (userOf s s.cur.gk tid F.uni) sp [.r] va n s = (.ok qs, u))
  (hb : stashBusy u sp va n = .none) (hw : issueWait F.uni tid sp (partsOf qs) true u = .none)
include hp hb hw

theorem loadBody_issues (he : ¬ editioned qs) : loadBody F d sp n va e tid s =
    .ok (addOp s.cur.gk (issuerOf F.uni tid) s.cur.pc (loadKind F d sp n va qs u) (commitLong tid F u)) := by
  have hc : u.cur = s.cur := cur_of_plan hp
  rw [← loadKind_regsOnly (regsOnly_commitLong tid F u)]
  simp only [loadBody, hp, hb, hw, mt editioned_any.1 he, loadKind, commitLong_cur, hc, if_false, Bool.false_eq_true]

theorem loadBody_stalls (he : editioned qs) : loadBody F d sp n va e tid s =
    .stall u.mm.nextId (addOp s.cur.gk (issuerOf F.uni tid) s.cur.pc (edlKind F d n va e tid u)
      (tapAgents s.cur.gk qs false (emptyDest tid F u))) := by
  have hc : u.cur = s.cur := cur_of_plan hp
  simp only [loadBody, hp, hb, hw, editioned_any.2 he, edlKind, hc, if_true]
end

/-! ## A thread that waits for the agent of an editioned page -/

theorem cacheOnly_tapAgents (gk : Nat) (ps : List Piece) (wr : Bool) (s : State) : CacheOnly s (tapAgents gk ps wr s) :=
  cacheOnly_foldl (fun _ _ => cacheOnly_tapLines ..) _ s

theorem getV_of_cacheOnly {s t : State} (h : CacheOnly s t) (k : Nat) (r : BitVec 6) : getV t k r = getV s k r := by
  obtain ⟨_, _, _, _, _, _, _, rfl, -⟩ := h; rfl

theorem getP_of_cacheOnly {s t : State} (h : CacheOnly s t) (k : Nat) (p : BitVec 3) : getP t k p = getP s k p := by
  obtain ⟨_, _, _, _, _, _, _, rfl, -⟩ := h; rfl

/-- The state in which a thread's load goes to the agent: its destinations EMPTY, its requests tapped. -/
def sentToAgent (i : Nat) (F : Form) (qs : List Piece) (u : State) : State := tapAgents u.cur.gk qs false (emptyDest i F u)

theorem sentToAgent_id (i : Nat) (F : Form) (qs : List Piece) (u : State) :
    (sentToAgent i F qs u).cur = u.cur ∧ (sentToAgent i F qs u).mm.nextId = u.mm.nextId := by
  obtain ⟨_, _, _, _, _, _, _, h, -⟩ := cacheOnly_tapAgents u.cur.gk qs false (emptyDest i F u)
  obtain ⟨_, _, _, _, _, h'⟩ := regsOnly_emptyDest i F u
  rw [sentToAgent, h, h']
  exact ⟨rfl, rfl⟩

theorem getV_sentToAgent {F : Form} (hu : F.uni = false) (i : Nat) (qs : List Piece) (u : State) (k : Nat) (r : BitVec 6) :
    getV (sentToAgent i F qs u) k r = if k = tkOf u i ∧ F.dv = .some r then { getV u k r with st := .empty } else getV u k r :=
  (getV_of_cacheOnly (cacheOnly_tapAgents ..) k r).trans (getV_emptyDest hu ..)

theorem getP_sentToAgent {F : Form} (hu : F.uni = false) (i : Nat) (qs : List Piece) (u : State) {p : BitVec 3} (hp : F.dp = .some p)
    (h0 : p ≠ 0) : (getP (sentToAgent i F qs u) (tkOf u i) p).empty = true := by
  rw [sentToAgent, getP_of_cacheOnly (cacheOnly_tapAgents ..)]
  exact getP_emptyDest hu i u hp h0

theorem laneStalled_eq (w : State) (i : Nat) (k : OpK) :
    setSt w.cur.gk i .waitOpnd (.agent w.mm.nextId) (addOp w.cur.gk i w.cur.pc k w) = laneStalled w i k := rfl

/-- A ready thread whose access stalls stays at it until the agent has served it. -/
theorem accLane_stalls {s u : State} {F : Form} {i : Nat} {qs : List Piece} {k : OpK} {body : List Word → Nat → State → AccGot}
    (hr : LaneReady s F) (ha : Alone s i) (hc : u.cur = s.cur)
    (hb : body (F.flds.map fun f => (getR s s.cur.gk i f.uni f.r).v) i s =
      .stall u.mm.nextId (addOp s.cur.gk i s.cur.pc k (sentToAgent i F qs u))) :
    accLane F body s = .next (laneStalled (sentToAgent i F qs u) i k) := by
  obtain ⟨hcur, hid⟩ := sentToAgent_id i F qs u
  rw [accLane_alone hr ha body, hb, ← laneStalled_eq, hcur, hc, hid]

/-! ## Loads and edition-named loads of threads -/

section
variable {s u : State} {i : Nat} {qs : List Piece} {F : Form} {d : BitVec 6} {sp : Space} {n : Nat} {va : Word} {e : Option Nat}
  {body : List Word → Nat → State → AccGot} (hr : LaneReady s F) (ha : Alone s i)
  (hbody : body (F.flds.map fun f => (getR s s.cur.gk i f.uni f.r).v) i s = loadBody F d sp n va e i s)
include hr ha hbody

theorem laneLoad_faults {c : Nat} {a : Word} (hp : plan s.cur.gk i false (!(getThr s (tkOf s i)).sys) sp [.r] va n s = (.fault c a, u)) :
    accLane F body s = .next (takeTrap s.cur.gk [i] false (accessFault s.cur.pc a c sp false) s) := by
  have hl := hr.lane
  rw [accLane_alone hr ha body, hbody, loadBody_fault (u := u) (c := c) (a := a) (by rw [hl]; exact hp)]
  rfl

variable (hp : plan s.cur.gk i false (!(getThr s (tkOf s i)).sys) sp [.r] va n s = (.ok qs, u))
  (hb : stashBusy u sp va n = .none) (hw : issueWait false i sp (partsOf qs) true u = .none)
include hp hb hw

/-- A thread's load of plain pages is in flight, its destination EMPTY (R126, R36). -/
theorem laneLoad_issues (he : ¬ editioned qs) :
    ∃ t, accLane F body s = .next t ∧ LaneIssued u t i F [opHere u i (loadKind F d sp n va qs u)] := by
  have hl := hr.lane
  have hc : u.cur = s.cur := cur_of_plan hp
  have := accLane_issues (u := u) (k := loadKind F d sp n va qs u) hr ha hr.keepsS hc (hbody.trans (by
    rw [loadBody_issues (u := u) (qs := qs) (by rw [hl]; exact hp) hb (by rw [hl]; exact hw) he, hl]; rfl))
  rwa [← hc] at this

/-- A thread's load of an editioned page waits for the page's agent (R297). -/
theorem laneLoad_stalls (he : editioned qs) :
    accLane F body s = .next (laneStalled (sentToAgent i F qs u) i (edlKind F d n va e i u)) := by
  have hl := hr.lane
  have hc : u.cur = s.cur := cur_of_plan hp
  refine accLane_stalls hr ha hc (hbody.trans ?_)
  rw [loadBody_stalls (u := u) (qs := qs) (by rw [hl]; exact hp) hb (by rw [hl]; exact hw) he, sentToAgent, hc, hl]
  rfl
end

theorem sys_arrive (s : State) (k : Nat) : (getThr (arrive s) k).sys = (getThr s k).sys := by
  obtain ⟨w, hw⟩ := (arrive_spec s).2 k
  rw [hw]
  split <;> rfl

/-- Arriving does not change who runs in system mode. -/
theorem userOf_arrive {s : State} (h : Gathered s) : userOf (arrive s) s.cur.gk 0 true = userOf s s.cur.gk 0 true := by
  obtain ⟨-, hd⟩ := h.arrive
  simp only [userOf, hd, sys_arrive, if_true]

/-- A group's load of plain pages is in flight once for the group (R129). -/
theorem uniLoad_issues {s u : State} {qs : List Piece} {F : Form} {d : BitVec 6} {sp : Space} {n : Nat} {va : Word} {e : Option Nat}
    {body : List Word → Nat → State → AccGot} (hr : UniReady s F)
    (hbody : body (F.flds.map fun f => (getS s s.cur.gk f.r).v) 0 (arrive s) = loadBody F d sp n va e 0 (arrive s))
    (hp : plan s.cur.gk 0 true (userOf s s.cur.gk 0 true) sp [.r] va n (arrive s) = (.ok qs, u))
    (hb : stashBusy u sp va n = .none) (hw : issueWait true 0 sp (partsOf qs) true u = .none) (he : ¬ editioned qs) :
    ∃ t, accUni F body s = .next t ∧ UniIssued u t F [opHere u 0xFFFF (loadKind F d sp n va qs u)] := by
  have hl := hr.uniform
  have harr := arrive_cur s
  have hc : u.cur = s.cur := (cur_of_plan hp).trans harr
  have := accUni_issues (u := u) (k := loadKind F d sp n va qs u) hr hc (hbody.trans (by
    rw [loadBody_issues (u := u) (qs := qs) (by rw [hl, harr, userOf_arrive hr.toGathered]; exact hp) hb (by rw [hl]; exact hw) he, hl,
      harr]
    rfl))
  rwa [← hc] at this

/-- The edition that an operand names (R130). -/
theorem editionOf_eq (l : LRec) (v : Word) :
    editionOf l v = if v.getLsbD 63 then defEdition l (v.toNat % 4) else .some (v.toNat % 2 ^ 32) := by
  simp [editionOf, bitAt, bits]

/-! ## The statements -/

/-- Settles O24: a thread's load issues, stalls or takes its fault by what the shared body of loads answers; an edition-named load is that
body with the edition of its operand. -/
theorem laneLoadsIssue : Obligations.LaneLoadsIssue := by
  refine ⟨fun s u i d a m ha hr => ⟨fun qs hp hb hw => ⟨fun he => ?plain, fun he => ?editioned⟩, fun c x hp => ?fault⟩,
    fun s u i d a b m qs ha hr hp hw => ⟨fun he => ?named, fun he hd => ?namedPlain⟩, fun s u d a b m qs hr hp hw he hd => ?namedUni⟩
  case plain =>
    obtain ⟨t, ht, hi⟩ := laneLoad_issues (d := d) (body := ldBody false d a m) hr ha rfl hp hb hw he
    exact ⟨t, _, ht, hi, fun hd => loadKind_drain hd,
      fun hd hpeer => (loadKind_ordinary hd).trans (if_pos (readsPeer_iff.2 hpeer)),
      fun hd hpeer => (loadKind_ordinary hd).trans (if_neg (mt readsPeer_iff.1 hpeer))⟩
  case editioned =>
    refine ⟨_, rfl, ?_, fun r hne => ?_, ?_⟩
    · exact (congrArg Cell.st (getV_sentToAgent rfl i qs u _ d)).trans (by simp)
    · exact (getV_sentToAgent rfl i qs u _ r).trans (if_neg fun c => hne (Option.some.inj c.2).symm)
    · have h := laneLoad_stalls (d := d) (body := ldBody false d a m) hr ha rfl hp hb hw he
      rw [edlKind, usesOf_single _ _ _ _ _ rfl] at h
      rw [recOf_issued hp (hr.recOf_ne (List.mem_singleton_self _))]
      exact h
  case fault => exact laneLoad_faults (d := d) (body := ldBody false d a m) hr ha rfl hp
  case named =>
    refine ⟨_, _, rfl, rfl, ?_, fun p hchk h0 => getP_sentToAgent rfl i qs u hchk h0, ?_⟩
    · exact (congrArg Cell.st (getV_sentToAgent rfl i qs u _ d)).trans (by simp)
    · have h := laneLoad_stalls (d := d) (body := ldeBody false d a b m) hr ha rfl hp (if_neg (by decide)) hw he
      rw [recOf_issued hp (hr.recOf_ne List.mem_cons_self), ← editionOf_eq]
      exact h
  case namedPlain =>
    obtain ⟨t, ht, hi⟩ := laneLoad_issues (d := d) (body := ldeBody false d a b m) hr ha rfl hp (if_neg (by decide)) hw he
    rw [loadKind_ordinary hd] at hi
    exact ⟨t, ht, hi⟩
  case namedUni =>
    obtain ⟨t, ht, hi⟩ := uniLoad_issues (d := d) (body := ldeBody true d a b m) hr rfl hp (if_neg (by decide)) hw he
    rw [loadKind_ordinary hd] at hi
    exact ⟨t, ht, hi⟩

/-- Settles O25: the shared body of loads, once for the group. -/
theorem uniformLoadsIssue : Obligations.UniformLoadsIssue := by
  intro s u d a m qs hr hp hb hw he hd
  obtain ⟨t, ht, hi⟩ := uniLoad_issues (d := d) (body := ldBody true d a m) hr rfl hp hb hw he
  rw [loadKind_ordinary hd] at hi
  exact ⟨t, ht, hi⟩

end Sys2Proof.Machine
end

section
/-! PROOFS. Atomics to a peer (R135, R235, R244, R349): what the core's releases cover reaches memory before the request leaves, and the ports
by which it leaves are read from memory then. -/

namespace Sys2Proof.Machine

/-- An atomic on a 64-bit word of a peer at `.sys`, without a release side. -/
def peerAtom : AtomMod := ⟨.g, .n64, .sys, .rlx, 0⟩

/-- The piece of peer 1's memory that it acts on. -/
def peerPiece : Piece := ⟨⟨2 ^ 51 + 2 ^ 41, 8, .rc⟩, 0, 0, 0⟩

/-- A lone thread whose page 0 is peer 1's memory. PEER_IN (at 0) gives that peer one port; the core holds a dirty line, covered by a
release at `.dev`, by whose bytes the entry gives it two. -/
def portChange : State :=
  { State.reset with
    grid := [(0, { lr := { teams := 1, groups := 1, w := 1, nv := 64, ns := 64 } })]
    team := [(0, { st := .resident })]
    thr := [(0, { st := .ready })]
    cur := { gk := 0, tids := [0], npc := 4 }
    mm := { State.reset.mm with
      mem := [(28, 0x10)]
      xlat := [⟨0, 0, 0, { pa := 2 ^ 51 + 2 ^ 41, r := true, w := true, x := false, user := true, kind := .rc, region := 0, edition := 0
                           key := 0, enc := false, place := 0, at_ := 0, size := 0 }⟩]
      l1 := [{ core := 0, ctx := 0, line := 0, data := (List.replicate 28 0) ++ 0x30 :: List.replicate 99 0, dirty := 2 ^ 28, due := 1 }] } }

/-- Its thread can issue the atomic. -/
theorem portChange_ready : LaneReady portChange { uni := false, flds := [strictF false ⟨1, .plain⟩ 0, strictF false ⟨2, .plain⟩ 1], dv := .some 3 } := by
  refine ⟨?_, by decide⟩
  constructor <;> decide

/-- The generations under which the requests in flight have left (R317, R349). -/
def sentGens (r : Out) : List Nat := match r with | .next t => t.mm.ops.map (·.gen) | .fault _ => [] | .refused _ => []

/-- The request leaves by the ports that memory names after the write-back. -/
theorem portChange_sent : sentGens (exec (.atomAdd 3 ⟨1, .plain⟩ ⟨2, .plain⟩ peerAtom) portChange) = [3 * 65536] := by decide +kernel

/-- Before the write-back it names another set. -/
theorem portChange_before : genOf portChange (.rload false 3 .none [peerPiece.part] 0 (.some (0, peerAtom, 0, 0)) .none) = 65536 := by
  decide +kernel

/-- Refutes O27: the operation of an atomic to a peer is stated from the state before the covered lines are written back, but those may
hold the peer's PEER_IN entry, by which the request leaves. -/
theorem not_atomicsAndPrefetchesIssue : ¬ Obligations.AtomicsAndPrefetchesIssue := by
  rintro ⟨⟨-, -, h, -⟩, -⟩
  obtain ⟨-, -, h⟩ := h (.atomAdd, 0) (by simp [atomics]) portChange portChange 0 3 ⟨1, .plain⟩ ⟨2, .plain⟩ peerAtom peerPiece rfl
    portChange_ready (by decide +kernel)
  obtain ⟨t, ht, hd⟩ := h (by decide) (by decide +kernel) (by decide +kernel) (by decide +kernel) (fun c => nomatch c) rfl
    (fun _ => by decide +kernel)
  have hops : t.mm.ops.map (·.gen) = [65536] := by
    have hpeer : isPeer peerPiece.part.pa = true := by decide
    have hnone : (sentFrom true (releasedFor portChange peerAtom)).mm.ops = [] := by decide +kernel
    rw [hd.rest, hpeer, hnone, ← portChange_before]
    rfl
  have hsent := portChange_sent
  rw [ht] at hsent
  exact absurd (hops.symm.trans hsent) (by decide)

end Sys2Proof.Machine
end

section
/-! PROOFS. How stores perform (R127, R129, R231, R287). -/

namespace Sys2Proof.Machine

/-! ## What a covered release performs does not depend on the threads -/

/-- The state with other threads. -/
abbrev withThr (h : Tab Thr) (s : State) : State := { s with thr := h }

theorem tap_withThr (h : Tab Thr) (die cls a b src ctx : Nat) (s : State) :
    tap die cls a b src ctx (withThr h s) = withThr h (tap die cls a b src ctx s) := by
  have hv : vdevOf (withThr h s) ctx = vdevOf s ctx := rfl
  have hr : resetting (withThr h s) = resetting s := rfl
  have hu : getUnit (withThr h s) die = getUnit s die := rfl
  have hs (u : GUnit) : setUnit die u (withThr h s) = withThr h (setUnit die u s) := rfl
  simp only [tap, offerEvent, hv, hr, hu, hs]

theorem homeDie_withThr (h : Tab Thr) (s : State) (pa : Nat) : homeDie (withThr h s) pa = homeDie s pa := rfl

theorem dirWrite_withThr (h : Tab Thr) (ctx r line : Nat) (s : State) :
    dirWrite ctx r line (withThr h s) = withThr h (dirWrite ctx r line s) := by
  have hstart : dirStart ctx r line true (withThr h s) = withThr h (dirStart ctx r line true s) := by
    simp only [dirStart, dirTap, tapDir, tapMiss, homeDie_withThr, tap_withThr]
    by_cases ho : dirOwns (tget {} line s.mm.dir) r = true
    · simp only [if_pos ho, if_true]
    · simp only [if_neg ho, if_true]
      split <;> rfl
  simp only [dirWrite, hstart]

theorem markBad_withThr (h : Tab Thr) (l : Line) (s : State) : markBad l (withThr h s) = withThr h (markBad l s) := by
  unfold markBad
  exact List.foldl_hom (withThr h) (g₁ := fun s i => pmark (l.line * 128 + 8 * i) 8 s) fun _ _ => rfl

theorem sendBack_withThr (h : Tab Thr) (core line : Nat) (s : State) :
    sendBack core line (withThr h s) = withThr h (sendBack core line s) := by
  simp only [sendBack]
  split
  · rfl
  · next l _ =>
    split
    · rfl
    · rw [show pwriteMasked (line * 128) l.dirty l.data (withThr h s) = withThr h (pwriteMasked (line * 128) l.dirty l.data s) from rfl,
        markBad_withThr, dirWrite_withThr]

theorem performDue_withThr (h : Tab Thr) (core : Nat) (s : State) : performDue core (withThr h s) = withThr h (performDue core s) := by
  unfold performDue writeBackAll
  refine List.foldl_hom (withThr h) (g₁ := fun s (l : Line) => writeBackLine l.core l.line s) fun t l => ?_
  have hreach : reachable (withThr h t) l.core (l.line * 128) = reachable t l.core (l.line * 128) := rfl
  simp only [writeBackLine, sendBack_withThr, hreach]
  split <;> rfl

/-! ## What a store does once its address has been translated -/

/-- The store starts no copy: it does not write a channel of the copy aperture (R140). -/
abbrev NoCopy (sp : Space) (va : Word) (n : Nat) : Prop :=
  ¬ (sp = .g ∧ copyAperture ≤ va.toNat ∧ va.toNat < copyAperture + 512 ∧ n = 8 ∧ va.toNat % 8 = 0)

theorem widthBytes_eq_eight (x : Width) : widthBytes x = 8 ↔ x = .d := by cases x <;> simp [widthBytes]

section
variable {F : Form} {sp : Space} {n : Nat} {va v : Word} {qs : List Piece} {s u : State} {tid : Nat} (hn : NoCopy sp va n)
  (hp : plan s.cur.gk tid F.uni (userOf s s.cur.gk tid F.uni) sp [.w] va n s = (.ok qs, u))
  (hb : stashBusy u sp va n = .none) (hw : issueWait F.uni tid sp (partsOf qs) false u = .none)
  (hdue : duePerforms u (coreOf u s.cur.gk) = true)
include hn hp hb hw hdue

theorem storeBody_stash (hs : sp = .s) : storeBody F sp n va v tid s = .ok (stashWrite (teamOfG s.cur.gk) va.toNat (bytesOf n v.toNat)
    (commitStore tid F (performDue (coreOf u s.cur.gk) u))) := by
  simp only [storeBody, if_neg hn, hp, hb, hw, hdue]
  subst hs
  rfl

theorem storeBody_memory (hs : sp ≠ .s) (hr : unreachable (performDue (coreOf u s.cur.gk) u) s.cur.gk (partsOf qs) = false)
    (he : ¬ editioned qs) : storeBody F sp n va v tid s = .ok (storeParts s.cur.gk (issuerOf F.uni tid) u.cur.pc qs (bytesOf n v.toNat)
      (setDirty qs (commitStore tid F (performDue (coreOf u s.cur.gk) u)))) := by
  obtain ⟨_, _, _, _, _, _, _, hcache, -⟩ := cacheOnly_performDue (coreOf u s.cur.gk) u
  have hpc : (performDue (coreOf u s.cur.gk) u).cur.pc = u.cur.pc := by rw [hcache]
  simp only [storeBody, if_neg hn, hp, hb, hw, hdue, hr, mt editioned_any.1 he, hs, hpc, Bool.not_true, Bool.and_false,
    Bool.false_eq_true, if_false]
end

/-! ## What a store's pieces leave alone -/

theorem setDirty_eq (qs : List Piece) (s : State) : ∃ m, setDirty qs s = { s with mm := m } := by
  unfold setDirty
  refine List.foldlRecOn qs _ (motive := fun t => ∃ m, t = { s with mm := m }) ⟨s.mm, rfl⟩ fun t h q _ => ?_
  obtain ⟨m, rfl⟩ := h
  split
  · exact ⟨m, rfl⟩
  · simp only [setEntryBit]
    split
    · exact ⟨m, rfl⟩
    · exact ⟨_, rfl⟩

/-- A store's pieces touch memory, the caches, the operations in flight and the taps only. -/
theorem storeParts_eq (gk tid : Nat) (pc : Word) (qs : List Piece) (bs : List Byte) (s : State) :
    ∃ m g, storeParts gk tid pc qs bs s = { s with mm := m, gl := g } := by
  induction qs generalizing bs s with
  | nil => exact ⟨s.mm, s.gl, rfl⟩
  | cons q qs ih =>
    have hpiece : ∃ m g, (if isPeer q.part.pa then addOp gk tid pc (.rstore q.part (bs.take q.part.len)) s
        else noteStore gk q.part.pa (writePart (ctxOf s gk) (coreOf s gk) q.part (bs.take q.part.len) s)) = { s with mm := m, gl := g } := by
      split
      · exact ⟨_, s.gl, rfl⟩
      · obtain ⟨_, _, _, _, _, _, _, h, -⟩ := cacheOnly_writePart (ctxOf s gk) (coreOf s gk) q.part (bs.take q.part.len) s
        exact ⟨_, _, by rw [h]; rfl⟩
    obtain ⟨m, g, h⟩ := hpiece
    obtain ⟨m', g', h'⟩ := ih (bs.drop q.part.len) { s with mm := m, gl := g }
    exact ⟨m', g', by rw [storeParts, h]; exact h'⟩

/-! ## Plain memory -/

/-- A translation that the core holds, of a page that is seen under its own key, changes nothing (R288, R303). -/
theorem xlate_held {s : State} {q : Asker} {va n : Nat} {a : Acc} {user : Bool} {e : XEnt}
    (hheld : (s.mm.xlat.find? fun x => x.core == q.core && x.asid == q.asid && x.page == va / 65536) = .some e) (hva : va < 2 ^ 57)
    (hallow : refuse s e.leaf a user q (e.leaf.pa + va % 65536) n = .none)
    (hview : tget .none ((e.leaf.pa + va % 65536) / 65536) s.mm.wrapped = materialOf s e.leaf) :
    xlate q va n a user s = (.ok (e.leaf.pa + va % 65536) e.leaf, s) := by
  have hl : lookup q.core q.asid va s = (.leaf e.leaf, s) := by simp only [lookup, Nat.mod_eq_of_lt hva, hheld]
  simp only [xlate, hl, hallow, viewPage, hview, if_true, ite_self]

theorem planPiece_held {k : Asker} {user : Bool} {a : Acc} {q : Word × Nat} {s : State} {pa : Nat} {l : Leaf} (hd : k.deny = .none)
    (hx : xlate k (q.1.toNat % 2 ^ 57) q.2 a user s = (.ok pa l, s)) :
    planPiece k user [a] q s = (.ok [⟨⟨pa, q.2, l.kind⟩, l.at_, l.region, q.1⟩], s) := by
  simp only [planPiece, List.foldl_cons, List.foldl_nil, hd, hx, reduceCtorEq, if_false]

/-- An access within a page, outside the apertures, is one piece (R121, R122, R233). -/
theorem planFor_onePage {k : Asker} {window : Nat} {user : Bool} {accs : List Acc} {va : Word} {n : Nat} (s : State)
    (hcan : canonical va = true) (hrange : va.toNat + n ≤ glossAperture ∨ 2 ^ 63 ≤ va.toNat) (hpage : va.toNat % 65536 + n ≤ 65536) :
    planFor k window user .g accs va n s =
      (joinPlans [(planPiece k user accs (va, n) s).1], (planPiece k user accs (va, n) s).2) := by
  have hlast : canonical (va + word (n - 1)) = true := by
    have hnat : (va + word (n - 1)).toNat = va.toNat + (n - 1) := by
      have := va.isLt
      rw [BitVec.toNat_add, word, BitVec.toNat_ofNat]
      omega
    rw [← hcan]
    simp only [canonical, hnat]
    congr 2 <;> omega
  have hgloss : ¬ (glossAperture < va.toNat + n ∧ va.toNat < statusPage + 4096) := by
    unfold glossAperture statusPage at *; omega
  have hcopy : ¬ (copyAperture < va.toNat + n ∧ va.toNat < copyAperture + 65536) := by
    unfold glossAperture copyAperture at *; omega
  have hpieces : pagePieces va n = [(va, n)] := if_pos (by omega)
  simp only [planFor, hcan, hlast, if_neg hgloss, if_neg hcopy, hpieces, Bool.not_true, Bool.or_self, Bool.false_eq_true, if_false,
    List.foldl_cons, List.foldl_nil, List.nil_append]

/-- An access of plain memory needs no walk and is refused by nothing. -/
theorem plan_plainPage {s : State} {tid : Nat} {uni : Bool} {a : Acc} {va : Word} {n : Nat} {e : XEnt}
    (h : PlainPage s tid uni [a] va n e) :
    plan s.cur.gk tid uni (userOf s s.cur.gk tid uni) .g [a] va n s = (.ok [plainPiece va n e], s) := by
  obtain ⟨⟨hcan, hrange, hpage⟩, hheld, ⟨hdeny, hallow⟩, hkind, hregion, -, hview⟩ := h
  have hoff : va.toNat % 2 ^ 57 % 65536 = va.toNat % 65536 := Nat.mod_mod_of_dvd _ (by decide)
  have hx := xlate_held (q := askerOf s s.cur.gk) (n := n) (user := userOf s s.cur.gk tid uni) hheld (Nat.mod_lt _ (by decide))
    (by rw [hoff]; exact hallow a (List.mem_singleton_self a)) (by rw [hoff]; exact hview)
  rw [hoff] at hx
  have hpiece : planPiece { askerOf s s.cur.gk with deny := .none } (userOf s s.cur.gk tid uni) [a] (va, n) s =
      (.ok [plainPiece va n e], s) := by
    rw [planPiece_held rfl hx, hkind, hregion, plainPiece]
  rw [plan, hdeny, planFor_onePage s hcan hrange hpage, hpiece]
  rfl

/-- A store in plain memory is one piece in its core's L1 (R230, R231). -/
theorem storeParts_plain {s : State} {gk tid : Nat} {pc : Word} {va : Word} {n : Nat} {e : XEnt} {bs : List Byte}
    (hh : isHbm (e.leaf.pa + va.toNat % 65536) = true) (hlen : bs.length = n) :
    storeParts gk tid pc [plainPiece va n e] bs s = noteStore gk (plainPiece va n e).part.pa
      (writePart (ctxOf s gk) (coreOf s gk) (plainPiece va n e).part bs s) := by
  have hpeer : isPeer (plainPiece va n e).part.pa = false := by
    have hlow : e.leaf.pa + va.toNat % 65536 < 768 * 2 ^ 30 := of_decide_eq_true hh
    exact decide_eq_false fun c => absurd (show 2 ^ 51 ≤ e.leaf.pa + va.toNat % 65536 from c.1) (by omega)
  have htake : bs.take (plainPiece va n e).part.len = bs := List.take_of_length_le (by simp [plainPiece, hlen])
  simp only [storeParts, hpeer, htake, Bool.false_eq_true, if_false]

/-! ## Stores of threads and of groups -/

section
variable {s u : State} {i : Nat} {a b : Src} {m : MemMod} {va : Word} {qs : List Piece}

/-- The form of a store (R127, R129). -/
abbrev storeForm (uni : Bool) (a b : Src) : Form := { uni := uni, flds := [strictF uni a 0, strictF uni b 1] }

theorem noCopy_of_width (h : ¬ (m.space = .g ∧ copyAperture ≤ va.toNat ∧ va.toNat < copyAperture + 512 ∧ m.width = .d ∧ va.toNat % 8 = 0)) :
    NoCopy m.space va (widthBytes m.width) := by rwa [NoCopy, widthBytes_eq_eight]

theorem cur_of_cacheOnly {s t : State} (h : CacheOnly s t) : t.cur = s.cur := by
  obtain ⟨_, _, _, _, _, _, _, rfl, -⟩ := h; rfl
theorem sc_of_cacheOnly {s t : State} (h : CacheOnly s t) : t.sc = s.sc := by
  obtain ⟨_, _, _, _, _, _, _, rfl, -⟩ := h; rfl

/-- A ready thread whose access passes goes on. -/
theorem accLane_goesOn {F : Form} {body : List Word → Nat → State → AccGot} (hr : LaneReady s F) (ha : Alone s i)
    (hb : body (F.flds.map fun f => (getR s s.cur.gk i f.uni f.r).v) i s = .ok u) :
    accLane F body s = .next (goOn s.cur.gk u.cur.npc u i) := by
  rw [accLane_alone hr ha, hb]

/-- A ready group whose access passes goes on. -/
theorem accUni_goesOn {F : Form} {body : List Word → Nat → State → AccGot} (hr : UniReady s F)
    (hb : body (F.flds.map fun f => (getS s s.cur.gk f.r).v) 0 (arrive s) = .ok u) :
    accUni F body s = .next (passGroup u.cur.gk u.cur.npc u) := by
  rw [accUni_ready hr, hb]
  rfl

/-- The state after a store's commit, before its bytes are written: what the core's releases cover is performed (R138). -/
def storeCommitted (tid : Nat) (F : Form) (u : State) : State := commitStore tid F (performDue (coreOf u u.cur.gk) u)

theorem storeCommitted_cur (tid : Nat) (F : Form) (u : State) : (storeCommitted tid F u).cur = u.cur :=
  (commitStore_cur ..).trans (cur_of_cacheOnly (cacheOnly_performDue ..))

/-- The state after a store's bytes are written. -/
def storedAt (issuer : Nat) (sp : Space) (qs : List Piece) (va : Word) (bs : List Byte) (c : State) : State :=
  if sp = .s then stashWrite (teamOfG c.cur.gk) va.toNat bs c else storeParts c.cur.gk issuer c.cur.pc qs bs (setDirty qs c)

/-- Writing a store's bytes touches stashes, memory, the caches, the operations in flight and the taps only. -/
theorem storedAt_eq (issuer : Nat) (sp : Space) (qs : List Piece) (va : Word) (bs : List Byte) (c : State) :
    ∃ x m g, storedAt issuer sp qs va bs c = { c with team := x, mm := m, gl := g } := by
  unfold storedAt
  split
  · exact ⟨_, c.mm, c.gl, rfl⟩
  · obtain ⟨m, h⟩ := setDirty_eq qs c
    obtain ⟨m', g, h'⟩ := storeParts_eq c.cur.gk issuer c.cur.pc qs bs (setDirty qs c)
    exact ⟨c.team, m', g, by rw [h', h]⟩

theorem storedAt_cur (issuer : Nat) (sp : Space) (qs : List Piece) (va : Word) (bs : List Byte) (c : State) :
    (storedAt issuer sp qs va bs c).cur = c.cur := by
  obtain ⟨_, _, _, h⟩ := storedAt_eq issuer sp qs va bs c
  rw [h]

/-- A store whose address translates writes its bytes, in whatever space. -/
theorem storeBody_stores {F : Form} {sp : Space} {n : Nat} {v : Word} {tid : Nat} (hn : NoCopy sp va n)
    (hp : plan s.cur.gk tid F.uni (userOf s s.cur.gk tid F.uni) sp [.w] va n s = (.ok qs, u)) (hb : stashBusy u sp va n = .none)
    (hw : issueWait F.uni tid sp (partsOf qs) false u = .none) (hdue : duePerforms u (coreOf u u.cur.gk) = true)
    (hm : sp ≠ .s → unreachable (performDue (coreOf u u.cur.gk) u) u.cur.gk (partsOf qs) = false ∧ ¬ editioned qs) :
    storeBody F sp n va v tid s = .ok (storedAt (issuerOf F.uni tid) sp qs va (bytesOf n v.toNat) (storeCommitted tid F u)) := by
  have hc := cur_of_plan hp
  rw [hc] at hdue hm
  rw [storedAt, storeCommitted_cur, storeCommitted, hc]
  by_cases hs : sp = .s
  · rw [if_pos hs]
    exact storeBody_stash hn hp hb hw hdue hs
  · rw [if_neg hs, ← hc, hc]
    obtain ⟨hr, he⟩ := hm hs
    have := storeBody_memory (v := v) hn hp hb hw hdue hs hr he
    rwa [hc] at this

section
variable (hr : LaneReady s (storeForm false a b)) (ha : Alone s i) (hva : va = valV s i a.r + m.off.signExtend 64)
  (hn : NoCopy m.space va (widthBytes m.width))
  (hp : plan s.cur.gk i false (!(getThr s (tkOf s i)).sys) m.space [.w] va (widthBytes m.width) s = (.ok qs, u))
  (hb : stashBusy u m.space va (widthBytes m.width) = .none) (hw : issueWait false i m.space (partsOf qs) false u = .none)
  (hdue : duePerforms u (coreOf u u.cur.gk) = true)
  (hm : m.space ≠ .s → unreachable (performDue (coreOf u u.cur.gk) u) u.cur.gk (partsOf qs) = false ∧ ¬ editioned qs)
include hr ha hva hn hp hb hw hdue hm

/-- What a thread's store comes to (R127). -/
theorem exec_st : exec (.st a b m) s = .next (goOn u.cur.gk u.cur.npc (storedAt i m.space qs va
    (bytesOf (widthBytes m.width) (valV s i b.r).toNat) (storeCommitted i (storeForm false a b) u)) i) := by
  subst hva
  have h := accLane_goesOn (body := stBody false a b m) hr ha
    (storeBody_stores (F := storeForm false a b) (v := valV s i b.r) hn hp hb hw hdue hm)
  rw [storedAt_cur, storeCommitted_cur, cur_of_plan hp] at h
  rw [cur_of_plan hp]
  exact h
end

section
variable (hr : UniReady s (storeForm true a b)) (hva : va = valS s a.r + m.off.signExtend 64)
  (hn : NoCopy m.space va (widthBytes m.width))
  (hp : plan s.cur.gk 0 true (userOf s s.cur.gk 0 true) m.space [.w] va (widthBytes m.width) (arrive s) = (.ok qs, u))
  (hb : stashBusy u m.space va (widthBytes m.width) = .none) (hw : issueWait true 0 m.space (partsOf qs) false u = .none)
  (hdue : duePerforms u (coreOf u u.cur.gk) = true)
  (hm : m.space ≠ .s → unreachable (performDue (coreOf u u.cur.gk) u) u.cur.gk (partsOf qs) = false ∧ ¬ editioned qs)
include hr hva hn hp hb hw hdue hm

/-- What a group's store comes to (R129). -/
theorem exec_stU : exec (.stU a b m) s = .next (passGroup u.cur.gk u.cur.npc (storedAt 0xFFFF m.space qs va
    (bytesOf (widthBytes m.width) (valS s b.r).toNat) (storeCommitted 0 (storeForm true a b) u))) := by
  subst hva
  rw [← userOf_arrive hr.toGathered, ← arrive_cur s] at hp
  have h := accUni_goesOn (body := stBody true a b m) hr
    (storeBody_stores (F := storeForm true a b) (v := valS s b.r) hn hp hb hw hdue hm)
  rw [storedAt_cur, storeCommitted_cur] at h
  exact h
end
end

/-! ## What has gone on, and what has been written -/

theorem storeCommitted_lane (i : Nat) (a b : Src) (u : State) (hk : ∀ f ∈ (storeForm false a b).flds, f.uni = true → f.c ≠ .last) :
    storeCommitted i (storeForm false a b) u = { performDue (coreOf u u.cur.gk) u with
      vreg := (storeCommitted i (storeForm false a b) u).vreg
      sc := { u.sc with opc := (storeCommitted i (storeForm false a b) u).sc.opc } } := by
  obtain ⟨⟨w, o, h⟩, -⟩ := commitStore_v i (storeForm false a b) (performDue (coreOf u u.cur.gk) u) hk
  rw [storeCommitted, h, sc_of_cacheOnly (cacheOnly_performDue ..)]

theorem storeCommitted_uni (a b : Src) (u : State) :
    storeCommitted 0 (storeForm true a b) u = { performDue (coreOf u u.cur.gk) u with
      sreg := (storeCommitted 0 (storeForm true a b) u).sreg
      sc := { u.sc with opc := (storeCommitted 0 (storeForm true a b) u).sc.opc } } := by
  obtain ⟨⟨w, o, h⟩, -⟩ := commitStore_s 0 (storeForm true a b) (performDue (coreOf u u.cur.gk) u) (by simp)
  rw [storeCommitted, h, sc_of_cacheOnly (cacheOnly_performDue ..)]

theorem storedAt_memory (issuer : Nat) {sp : Space} (hs : sp ≠ .s) (qs : List Piece) (va : Word) (bs : List Byte) (c : State) :
    storedAt issuer sp qs va bs c = storeParts c.cur.gk issuer c.cur.pc qs bs (setDirty qs c) := if_neg hs

theorem storedAt_stash (issuer : Nat) (qs : List Piece) (va : Word) (bs : List Byte) (c : State) :
    storedAt issuer .s qs va bs c = stashWrite (teamOfG c.cur.gk) va.toNat bs c := if_pos rfl

theorem domain_congr {s t : State} (ht : t.thr = s.thr) (hg : t.grp = s.grp) (hl : t.grid = s.grid) (gk : Nat) : domain t gk = domain s gk := by
  have hthr : getThr t = getThr s := by unfold getThr; rw [ht]
  have hgrp : getGrp t gk = getGrp s gk := by simp only [getGrp, hg]
  have hrec : recOf t gk = recOf s gk := by simp only [recOf, getGrid, hl]
  simp only [domain, live, widthOf, hthr, hgrp, hrec]

/-- A commit and the write of the bytes leave the threads, and whom convergence awaits, as they were. -/
theorem stored_threads (issuer tid : Nat) (F : Form) (sp : Space) (qs : List Piece) (va : Word) (bs : List Byte) (u : State) :
    (storedAt issuer sp qs va bs (storeCommitted tid F u)).thr = u.thr ∧
    ∀ gk, domain (storedAt issuer sp qs va bs (storeCommitted tid F u)) gk = domain u gk := by
  obtain ⟨_, _, _, hst⟩ := storedAt_eq issuer sp qs va bs (storeCommitted tid F u)
  obtain ⟨_, _, _, _, _, hreg⟩ := regsOnly_commitStore tid F (performDue (coreOf u u.cur.gk) u)
  obtain ⟨_, _, _, _, _, _, _, hca, -⟩ := cacheOnly_performDue (coreOf u u.cur.gk) u
  rw [hst, storeCommitted, hreg, hca]
  exact ⟨rfl, fun gk => domain_congr rfl rfl rfl gk⟩

/-- Where a store's commit leaves the group's context and core. -/
theorem placed_storeCommitted (qs : List Piece) (tid : Nat) (F : Form) (u : State) (gk : Nat) :
    ctxOf (setDirty qs (storeCommitted tid F u)) gk = ctxOf u gk ∧ coreOf (setDirty qs (storeCommitted tid F u)) gk = coreOf u gk := by
  obtain ⟨_, hd⟩ := setDirty_eq qs (storeCommitted tid F u)
  obtain ⟨_, _, _, _, _, hreg⟩ := regsOnly_commitStore tid F (performDue (coreOf u u.cur.gk) u)
  obtain ⟨_, _, _, _, _, _, _, hca, -⟩ := cacheOnly_performDue (coreOf u u.cur.gk) u
  rw [hd, storeCommitted, hreg, hca]
  exact ⟨rfl, rfl⟩

/-- A thread that passes in a state whose threads are those of the issue has gone on. -/
theorem wentOn_goOn {s w : State} {i : Nat} (h : w.thr = s.thr) : WentOn s (goOn s.cur.gk s.cur.npc w i) i := by
  have hthr : getThr w = getThr s := by unfold getThr; rw [h]
  rw [WentOn, goOn, getThr_setThr_same, hthr]

/-- So has every thread of a group that passes once its issuers have arrived. -/
theorem wentOn_passGroup {s w : State} (hg : Gathered s) (h : w.thr = (arrive s).thr)
    (hd : domain w s.cur.gk = domain (arrive s) s.cur.gk) :
    ∀ i ∈ domain s s.cur.gk, WentOn s (passGroup s.cur.gk s.cur.npc w) i := by
  intro i hi
  obtain ⟨-, harr⟩ := hg.arrive
  obtain ⟨x, hx⟩ := (arrive_spec s).2 (tkOf s i)
  have hthr : getThr w (tkOf s i) = getThr (arrive s) (tkOf s i) := by simp only [getThr, h]
  rw [WentOn, (passGroup_spec ..).2, hd, harr, if_pos ⟨i, hi, rfl⟩, hthr, hx]
  split <;> rfl

theorem inSys_arrive {s : State} (h : Gathered s) (tid : Nat) : inSys (arrive s) s.cur.gk tid = inSys s s.cur.gk tid := by
  obtain ⟨-, hd⟩ := h.arrive
  simp only [inSys, hd, sys_arrive]

/-- A thread's wait for older operations is the same once its group's issuers have arrived. -/
theorem orderWait_arrive {s : State} (h : Gathered s) (tid : Nat) (st : Bool) (ps : List Part) :
    orderWait (arrive s) s.cur.gk tid st ps = orderWait s s.cur.gk tid st ps := by
  obtain ⟨⟨w, he⟩, -⟩ := arrive_spec s
  simp only [orderWait, inSys_arrive h]
  rw [he]
  rfl

/-! ## Stores to the stash and to plain memory -/

theorem not_copyStore_stash {m : MemMod} (hs : m.space = .s) (va : Word) :
    ¬ (m.space = .g ∧ copyAperture ≤ va.toNat ∧ va.toNat < copyAperture + 512 ∧ m.width = .d ∧ va.toNat % 8 = 0) := by
  simp [hs]

theorem PlainPage.not_copyStore {s : State} {tid : Nat} {uni : Bool} {accs : List Acc} {va : Word} {n : Nat} {e : XEnt}
    (h : PlainPage s tid uni accs va n e) (m : MemMod) :
    ¬ (m.space = .g ∧ copyAperture ≤ va.toNat ∧ va.toNat < copyAperture + 512 ∧ m.width = .d ∧ va.toNat % 8 = 0) := by
  rintro ⟨-, hlow, hhigh, -⟩
  obtain ⟨-, hrange, -⟩ := h.address
  unfold glossAperture copyAperture at *
  omega

/-- The piece of the stash that an access is. -/
abbrev stashPiece (va : Word) (n : Nat) : Piece := ⟨⟨va.toNat, n, .rc⟩, 0, 0, va⟩

theorem plan_stash {s : State} {gk tid : Nat} {uni user : Bool} {accs : List Acc} {va : Word} {n : Nat}
    (h : va.toNat + n ≤ windowOf s (teamOfG gk)) : plan gk tid uni user .s accs va n s = (.ok [stashPiece va n], s) := by
  simp only [plan, planFor, if_pos h]

theorem issueWait_untracked (uni : Bool) (tid : Nat) (sp : Space) (ps : List Part) (s : State) :
    issueWait uni tid sp ps false s = .none ↔ orderWait s s.cur.gk (issuerOf uni tid) (sp == .s) ps = .none := by
  unfold issueWait
  split <;> simp_all

theorem unreachable_plain (s : State) (gk : Nat) (va : Word) (n : Nat) (e : XEnt) :
    unreachable s gk (partsOf [plainPiece va n e]) = false := rfl

theorem not_editioned_plain (va : Word) (n : Nat) (e : XEnt) : ¬ editioned [plainPiece va n e] := by
  simp [editioned, plainPiece]

/-- The memory after a store into plain memory, once it is committed as `c` (R231, R287). -/
theorem storedAt_plain {issuer tid : Nat} {F : Form} {va : Word} {n : Nat} {e : XEnt} {bs : List Byte} {u : State}
    (hh : isHbm (e.leaf.pa + va.toNat % 65536) = true) (hlen : bs.length = n) :
    storedAt issuer .g [plainPiece va n e] va bs (storeCommitted tid F u) =
      noteStore u.cur.gk (plainPiece va n e).part.pa (writePart (ctxOf u u.cur.gk) (coreOf u u.cur.gk) (plainPiece va n e).part bs
        (setDirty [plainPiece va n e] (storeCommitted tid F u))) := by
  obtain ⟨hctx, hcore⟩ := placed_storeCommitted [plainPiece va n e] tid F u u.cur.gk
  rw [storedAt_memory _ (by simp), storeCommitted_cur, storeParts_plain hh hlen, hctx, hcore]

/-- What a store has written to the stash is there, whatever happens to the threads (R229). -/
theorem stashRead_storedAt (issuer : Nat) (qs : List Piece) {tid : Nat} {F : Form} {va : Word} {n v : Nat} {u w : State}
    (h : w.team = (storedAt issuer .s qs va (bytesOf n v) (storeCommitted tid F u)).team) :
    stashRead w (teamOfG u.cur.gk) va.toNat n = bytesOf n v := by
  rw [stashRead_congr h, storedAt_stash, storeCommitted_cur]
  exact stashRead_stashWrite_same _ _ _ _ (length_bytesOf ..)

theorem passGroup_withThr (gk : Nat) (pc : Word) (s : State) : ∃ h, passGroup gk pc s = withThr h s := (passGroup_spec ..).1

/-- The arrival of a group's issuers changes nothing but threads. -/
theorem arrive_withThr (s : State) : ∃ h, arrive s = withThr h s := (arrive_spec s).1

theorem performDue_arrive (core : Nat) (s : State) : performDue core (arrive s) = withThr (arrive s).thr (performDue core s) := by
  obtain ⟨h, e⟩ := arrive_withThr s
  rw [e, performDue_withThr]

section
variable {s : State} {i : Nat} {a b : Src} {m : MemMod} {va : Word}

section
variable (ha : Alone s i) (hva : va = valV s i a.r + m.off.signExtend 64) (hr : LaneReady s (storeForm false a b))
  (hdue : duePerforms s (coreOf s s.cur.gk) = true)
include ha hva hr hdue

theorem st_stash (hs : m.space = .s) (hin : va.toNat + widthBytes m.width ≤ windowOf s (teamOfG s.cur.gk))
    (hb : stashBusy s .s va (widthBytes m.width) = .none)
    (hw : orderWait s s.cur.gk i true [⟨va.toNat, widthBytes m.width, .rc⟩] = .none) :
    ∃ t, exec (.st a b m) s = .next t ∧ WentOn s t i ∧
      stashRead t (teamOfG s.cur.gk) va.toNat (widthBytes m.width) = bytesOf (widthBytes m.width) (valV s i b.r).toNat := by
  have hx := exec_st hr ha hva (noCopy_of_width (not_copyStore_stash hs va)) (by rw [hs]; exact plan_stash hin) (by rw [hs]; exact hb)
    ((issueWait_untracked ..).2 (by rw [hs]; exact hw)) hdue (absurd hs)
  rw [hs] at hx
  exact ⟨_, hx, wentOn_goOn (stored_threads ..).1, stashRead_storedAt i [stashPiece va (widthBytes m.width)] rfl⟩

theorem st_plain {e : XEnt} (hs : m.space = .g) (hpl : PlainPage s i false [.w] va (widthBytes m.width) e)
    (hw : orderWait s s.cur.gk i false [(plainPiece va (widthBytes m.width) e).part] = .none) :
    ∃ t c, exec (.st a b m) s = .next t ∧ WentOn s t i ∧
      c = { performDue (coreOf s s.cur.gk) s with vreg := c.vreg, sc := { s.sc with opc := c.sc.opc } } ∧
      t.mm = (noteStore s.cur.gk (plainPiece va (widthBytes m.width) e).part.pa
        (writePart (ctxOf s s.cur.gk) (coreOf s s.cur.gk) (plainPiece va (widthBytes m.width) e).part
          (bytesOf (widthBytes m.width) (valV s i b.r).toNat) (setDirty [plainPiece va (widthBytes m.width) e] c))).mm := by
  obtain ⟨-, -, hhbm, -⟩ := hpl.plain
  have hx := exec_st hr ha hva (noCopy_of_width (hpl.not_copyStore m)) (by rw [hs]; exact plan_plainPage hpl) (by simp [stashBusy, hs])
    ((issueWait_untracked ..).2 (by rw [hs]; exact hw)) hdue fun _ => ⟨unreachable_plain .., not_editioned_plain _ _ e⟩
  refine ⟨_, storeCommitted i (storeForm false a b) s, hx, wentOn_goOn (stored_threads ..).1, storeCommitted_lane i a b s hr.keepsS, ?_⟩
  rw [hs, storedAt_plain hhbm (length_bytesOf ..)]
  rfl
end

section
variable (hva : va = valS s a.r + m.off.signExtend 64) (hr : UniReady s (storeForm true a b))
  (hdue : duePerforms s (coreOf s s.cur.gk) = true)
include hva hr hdue

theorem stU_stash (hs : m.space = .s) (hin : va.toNat + widthBytes m.width ≤ windowOf s (teamOfG s.cur.gk))
    (hb : stashBusy s .s va (widthBytes m.width) = .none)
    (hw : orderWait s s.cur.gk 0xFFFF true [⟨va.toNat, widthBytes m.width, .rc⟩] = .none) :
    ∃ t, exec (.stU a b m) s = .next t ∧ (∀ i ∈ domain s s.cur.gk, WentOn s t i) ∧
      stashRead t (teamOfG s.cur.gk) va.toNat (widthBytes m.width) = bytesOf (widthBytes m.width) (valS s b.r).toNat := by
  obtain ⟨h, e⟩ := arrive_withThr s
  have hx := exec_stU (u := arrive s) hr hva (noCopy_of_width (not_copyStore_stash hs va))
    (by rw [hs]; exact plan_stash (by rw [e]; exact hin)) (by rw [hs, e]; exact hb)
    ((issueWait_untracked ..).2 (by rw [hs, arrive_cur, orderWait_arrive hr.toGathered]; exact hw)) (by rw [e]; exact hdue) (absurd hs)
  obtain ⟨hthr, hdom⟩ := stored_threads 0xFFFF 0 (storeForm true a b) .s [stashPiece va (widthBytes m.width)] va
    (bytesOf (widthBytes m.width) (valS s b.r).toNat) (arrive s)
  rw [hs, arrive_cur] at hx
  refine ⟨_, hx, wentOn_passGroup hr.toGathered hthr (hdom _), ?_⟩
  obtain ⟨h', e'⟩ := passGroup_withThr s.cur.gk s.cur.npc
    (storedAt 0xFFFF .s [stashPiece va (widthBytes m.width)] va
      (bytesOf (widthBytes m.width) (valS s b.r).toNat) (storeCommitted 0 (storeForm true a b) (arrive s)))
  rw [e', ← arrive_cur s]
  exact stashRead_storedAt 0xFFFF [stashPiece va (widthBytes m.width)] rfl

theorem stU_plain {e : XEnt} (hs : m.space = .g) (hpl : PlainPage (arrive s) 0 true [.w] va (widthBytes m.width) e)
    (hw : orderWait s s.cur.gk 0xFFFF false [(plainPiece va (widthBytes m.width) e).part] = .none) :
    ∃ t c, exec (.stU a b m) s = .next t ∧ (∀ i ∈ domain s s.cur.gk, WentOn s t i) ∧
      c = { performDue (coreOf s s.cur.gk) s with sreg := c.sreg, thr := c.thr, sc := { s.sc with opc := c.sc.opc } } ∧
      t.mm = (noteStore s.cur.gk (plainPiece va (widthBytes m.width) e).part.pa
        (writePart (ctxOf s s.cur.gk) (coreOf s s.cur.gk) (plainPiece va (widthBytes m.width) e).part
          (bytesOf (widthBytes m.width) (valS s b.r).toNat) (setDirty [plainPiece va (widthBytes m.width) e] c))).mm := by
  obtain ⟨-, -, hhbm, -⟩ := hpl.plain
  obtain ⟨h, e'⟩ := arrive_withThr s
  have hcur := arrive_cur s
  have hplan := plan_plainPage hpl
  rw [hcur, userOf_arrive hr.toGathered] at hplan
  have hx := exec_stU (u := arrive s) hr hva (noCopy_of_width (hpl.not_copyStore m)) (by rw [hs]; exact hplan) (by simp [stashBusy, hs])
    ((issueWait_untracked ..).2 (by rw [hs, hcur, orderWait_arrive hr.toGathered]; exact hw)) (by rw [e']; exact hdue)
    fun _ => ⟨unreachable_plain .., not_editioned_plain _ _ e⟩
  obtain ⟨hthr, hdom⟩ := stored_threads 0xFFFF 0 (storeForm true a b) .g [plainPiece va (widthBytes m.width) e] va
    (bytesOf (widthBytes m.width) (valS s b.r).toNat) (arrive s)
  rw [hs, hcur] at hx
  refine ⟨_, storeCommitted 0 (storeForm true a b) (arrive s), hx, wentOn_passGroup hr.toGathered hthr (hdom _), ?_, ?_⟩
  · have hc := storeCommitted_uni a b (arrive s)
    rw [performDue_arrive, hcur] at hc
    generalize storeCommitted 0 (storeForm true a b) (arrive s) = c at hc ⊢
    have hcthr : c.thr = (arrive s).thr := by rw [hc]
    rw [hcthr]
    rw [e'] at hc ⊢
    exact hc
  · obtain ⟨h', he⟩ := passGroup_withThr s.cur.gk s.cur.npc (storedAt 0xFFFF .g [plainPiece va (widthBytes m.width) e] va
      (bytesOf (widthBytes m.width) (valS s b.r).toNat) (storeCommitted 0 (storeForm true a b) (arrive s)))
    rw [he, storedAt_plain hhbm (length_bytesOf ..), hcur, show ctxOf (arrive s) s.cur.gk = ctxOf s s.cur.gk by rw [e']; rfl,
      show coreOf (arrive s) s.cur.gk = coreOf s s.cur.gk by rw [e']; rfl]
end
end

/-! ## O26 -/

/-- Settles O26: a store commits after what its core's releases cover, and then its bytes are written where its plan says. -/
theorem storesPerform : Obligations.StoresPerform := by
  refine ⟨fun s i a b m va ha hva hr hdue => ⟨st_stash ha hva hr hdue, fun e => st_plain ha hva hr hdue⟩,
    fun s a b m va hva hr hdue => ⟨stU_stash hva hr hdue, fun e => stU_plain hva hr hdue⟩, ?_, ?_⟩
  · intro s u i a b m va qs ha hr hva hn hp hb hw hdue hm
    have hx := exec_st hr ha hva (noCopy_of_width hn) hp hb hw hdue hm
    have hissued := issued_lane_store (performDue (coreOf u u.cur.gk) u) i (storeForm false a b) rfl rfl hr.keepsS
    rw [cur_of_cacheOnly (cacheOnly_performDue ..)] at hissued
    refine ⟨_, hissued, fun hs => ?_, fun hs => ⟨storeCommitted i (storeForm false a b) u, storeCommitted_lane i a b u hr.keepsS, ?_⟩⟩
    · rw [hs, storedAt_stash, storeCommitted_cur] at hx
      exact hx
    · rw [storedAt_memory _ hs, storeCommitted_cur] at hx
      exact hx
  · intro s u a b m va qs hr hva hn hp hb hw hdue hm
    have hx := exec_stU hr hva (noCopy_of_width hn) hp hb hw hdue hm
    rw [storedAt, storeCommitted_cur] at hx
    exact ⟨storeCommitted 0 (storeForm true a b) u, storeCommitted_uni a b u, hx⟩

end Sys2Proof.Machine
end

section
/-! PROOFS. How fences, barriers, handle waits, rendezvous and claims pass (R138, R139, R143, R152, R153, R157). -/

namespace Sys2Proof.Machine

/-! ## What a group's passing has done -/

/-- A ready group goes on to its own effect in the state in which its issuers have arrived. -/
theorem uni_ready {s : State} {F : Form} (h : UniReady s F) (k : List Word → Bool → State → State) :
    uni F k s = .next (k (F.flds.map fun f => (getS s s.cur.gk f.r).v) false (arrive s)) :=
  uniP_ready h false (fun hp => by simp at hp) k

/-- A ready group that commits a value passes with it. -/
theorem uniCommit_done {s : State} {F : Form} (h : UniReady s F) (v : Option Word) :
    UniDone s (uniCommit F false v .none .none (arrive s)) F v .none s.cur.npc := by
  have hx : uniEff F (fun _ _ _ => .val v .none 0 .none) s = .next (uniCommit F false v .none .none (arrive s)) := uni_ready h _
  obtain ⟨t, ht, hdone⟩ := uniEff_done h (body := fun _ _ _ => .val v .none 0 .none) (dst := .none) rfl
  rw [hx] at ht
  cases ht
  exact hdone

/-- A commit without results is that of a store. -/
theorem uniCommit_none {F : Form} (hd : F.dv = .none) (hp : F.dp = .none) (s : State) :
    uniCommit F false .none .none .none s = passGroup s.cur.gk s.cur.npc (commitStore 0 F s) := by
  simp only [uniCommit, commit, hd, hp, orFpx, if_true]
  rfl

/-- A group that passes an instruction without operands only goes on. -/
theorem uniCommit_bare (s : State) : uniCommit bareForm false .none .none .none s = passGroup s.cur.gk s.cur.npc s :=
  (uniCommit_none (F := bareForm) rfl rfl s).trans rfl

/-- A group's access without destinations that puts nothing in flight is done when it has passed. -/
theorem UniIssued.done {s t : State} {F : Form} (h : UniIssued s t F []) (hd : F.dv = .none) (hp : F.dp = .none) :
    UniDone s t F .none .none s.cur.npc where
  dest d x hdv := by simp [hd] at hdv
  killed f hf hc h0 _ := h.killed f hf hc h0 (by simp [hd])
  others g r hne := by
    obtain ⟨hg, ho⟩ := h.others g r hne
    refine ⟨hg, fun h0 => hne (by simp [getS, h0]), .inr (ho.resolve_left (by simp [hd]))⟩
  destP q b hdp := by simp [hp] at hdp
  othersP g q hne := absurd (h.othersP g q hne).2 (by simp [hp])
  next := h.next
  otherThreads := h.otherThreads
  rest := by simpa using h.rest

/-- A group that commits without results has done so from the state it commits in. -/
theorem uniCommit_none_done (s : State) {F : Form} (hd : F.dv = .none) (hp : F.dp = .none) (hk : ∀ f ∈ F.flds, f.uni = true) :
    UniDone s (uniCommit F false .none .none .none s) F .none .none s.cur.npc := by
  rw [uniCommit_none hd hp]
  exact (issued_uni_store s F hd hp hk).done hd hp

/-! ## Fences (R138, R234) -/

theorem dieScope_iff (c : Scope) : dieScope c = true ↔ dieOrWider c := by cases c <;> simp [dieScope, dieOrWider]

/-- The caches' actions leave a group on its core and in its pair. -/
theorem placed_of_cacheOnly {s t : State} (h : CacheOnly s t) (gk : Nat) (c : Scope) :
    coreOf t gk = coreOf s gk ∧ wideScope t gk c = wideScope s gk c := by
  obtain ⟨_, _, _, _, _, _, _, rfl, -⟩ := h
  exact ⟨rfl, rfl⟩

theorem releaseScope_sc (gk : Nat) (c : Scope) (s : State) : releaseScope gk c true s =
    if c = .dev ∨ c = .sys then releaseCore (coreOf s gk) true true s else releaseLater (coreOf s gk) (dueBits s gk c) true s := by
  simp [releaseScope]

/-- The release side and then the acquire side, where the release has left the group. -/
theorem acquire_releaseScope (gk : Nat) (c : Scope) (b : Bool) (s : State) :
    acquireCore (coreOf (releaseScope gk c b s) gk) (wideScope (releaseScope gk c b s) gk c) b (releaseScope gk c b s) =
      acquireCore (coreOf s gk) (wideScope s gk c) b (releaseScope gk c b s) := by
  obtain ⟨hcore, hwide⟩ := placed_of_cacheOnly (cacheOnly_releaseScope gk c b s) gk c
  rw [hcore, hwide]

theorem fenceCore_eq (k : OrdKind) (c : Scope) (u : State) : fenceCore u.cur.gk k c u = fenced k c u := by
  cases k with
  | acq => rfl
  | rel => rfl
  | ar => exact acquire_releaseScope u.cur.gk c false u
  | sc =>
    refine (acquire_releaseScope u.cur.gk c true u).trans ?_
    rw [releaseScope_sc]
    rfl

theorem fenceWait_none {s : State} {gk : Nat} {k : OrdKind} {c : Scope}
    (hrel : k ≠ .acq → releaseWait s gk .none (c == .sys) (k == .sc) (wideScope s gk c) = .none ∧
      (dieOrWider c → oldRequest s (dieOf (coreOf s gk)) = .none))
    (hacq : k = .acq → acquireWait s gk = .none) : fenceWait s gk k c = .none := by
  by_cases hk : k = .acq
  · subst hk
    exact hacq rfl
  · obtain ⟨hwait, hold⟩ := hrel hk
    simp only [fenceWait, fenceRel, bne_iff_ne.2 hk, if_true, hwait]
    split
    · next hd => exact hold ((dieScope_iff c).1 hd)
    · rfl

theorem exec_fence_eq (k : OrdKind) (c : Scope) (s : State) : exec (.fence k c) s = execFence k c s := rfl

theorem exec_fence_thread {s : State} (h : UniReady s bareForm) (k : OrdKind) :
    exec (.fence k .thread) s = .next (uniCommit bareForm false .none .none .none (arrive s)) := by
  rw [exec_fence_eq, execFence, uni_ready (F := noForm) h, if_pos rfl, uniCommit_bare]

theorem exec_fence {s : State} (h : UniReady s bareForm) {k : OrdKind} {c : Scope} (hc : c ≠ .thread)
    (hw : fenceWait (arrive s) s.cur.gk k c = .none) :
    exec (.fence k c) s = .next (passGroup s.cur.gk s.cur.npc (fenced k c (arrive s))) := by
  rw [exec_fence_eq, execFence, uni_ready (F := noForm) h]
  simp only [if_neg hc, arrive_cur, hw, ← fenceCore_eq]

/-! ## What the barriers leave of the groups (R152, R153) -/

/-- What arriving at, waiting at and leaving the barriers keep: the grids, the handler sets, and of each thread everything but where it goes
on and what it waits for; no thread exits. -/
structure BarrierKeeps (s t : State) : Prop where
  grid : t.grid = s.grid
  hset : ∀ g, (getGrp t g).hset = (getGrp s g).hset
  thread : ∀ k, ∃ pc st w, getThr t k = { getThr s k with pc := pc, st := st, wait := w } ∧ (st = .exited ↔ (getThr s k).st = .exited)

namespace BarrierKeeps

theorem refl (s : State) : BarrierKeeps s s := ⟨rfl, fun _ => rfl, fun _ => ⟨_, _, _, rfl, Iff.rfl⟩⟩

theorem trans {s t u : State} (h : BarrierKeeps s t) (k : BarrierKeeps t u) : BarrierKeeps s u where
  grid := k.grid.trans h.grid
  hset g := (k.hset g).trans (h.hset g)
  thread x := by
    obtain ⟨pc, st, w, he, hx⟩ := h.thread x
    obtain ⟨pc', st', w', he', hx'⟩ := k.thread x
    exact ⟨pc', st', w', by rw [he', he], by rw [hx', he]; exact hx⟩

theorem recOf {s t : State} (h : BarrierKeeps s t) (g : Nat) : recOf t g = recOf s g := by simp only [Machine.recOf, getGrid, h.grid]

theorem live {s t : State} (h : BarrierKeeps s t) (g : Nat) : live t g = live s g := by
  refine live_congr (by simp only [widthOf, h.recOf]) fun k => ?_
  obtain ⟨_, _, _, he, hx⟩ := h.thread k
  rw [he]
  exact hx

theorem domain {s t : State} (h : BarrierKeeps s t) (g : Nat) : domain t g = domain s g := by
  simp only [Machine.domain, h.hset, h.live]

theorem of_cacheOnly {s t : State} (h : CacheOnly s t) : BarrierKeeps s t := by
  obtain ⟨_, _, _, _, _, _, _, rfl, -⟩ := h
  exact ⟨rfl, fun _ => rfl, fun _ => ⟨_, _, _, rfl, Iff.rfl⟩⟩

theorem setGrp {s : State} {g : Nat} {x : Grp} (h : x.hset = (getGrp s g).hset) : BarrierKeeps s (setGrp g x s) := by
  refine ⟨rfl, fun j => ?_, fun _ => ⟨_, _, _, rfl, Iff.rfl⟩⟩
  rw [getGrp_setGrp]
  split
  · next e => rw [h, e]
  · rfl

/-- A change of threads that moves live ones only. -/
theorem of_threads {s t : State} (he : ∃ h, t = withThr h s)
    (hk : ∀ k, getThr t k = getThr s k ∨ ((getThr s k).st ≠ .exited ∧ ∃ pc st w, st ≠ .exited ∧
      getThr t k = { getThr s k with pc := pc, st := st, wait := w })) : BarrierKeeps s t where
  grid := by obtain ⟨h, rfl⟩ := he; rfl
  hset g := by obtain ⟨h, rfl⟩ := he; rfl
  thread k := by
    rcases hk k with h | ⟨hl, pc, st, w, hst, h⟩
    · exact ⟨_, _, _, h, Iff.rfl⟩
    · exact ⟨pc, st, w, h, by simp [hst, hl]⟩

theorem passGroup (gk : Nat) (pc : Word) (s : State) : BarrierKeeps s (passGroup gk pc s) := by
  obtain ⟨he, hk⟩ := passGroup_spec gk pc s
  refine of_threads he fun k => ?_
  rw [hk]
  split
  · next h =>
    obtain ⟨i, hi, rfl⟩ := h
    exact .inr ⟨mem_domain_live hi, _, _, _, by simp, rfl⟩
  · exact .inl rfl

theorem arrive {s : State} (h : Gathered s) : BarrierKeeps s (arrive s) := by
  obtain ⟨he, hk⟩ := arrive_spec s
  refine of_threads he fun k => ?_
  obtain ⟨w, hw⟩ := hk k
  rw [hw]
  split
  · next hi =>
    obtain ⟨i, hi, rfl⟩ := hi
    obtain ⟨hdom, -⟩ := h.issuers i hi
    exact .inr ⟨mem_domain_live hdom, _, _, _, by simp, rfl⟩
  · exact .inl rfl

end BarrierKeeps

/-! ## Waiting at a barrier -/

theorem block_fold (w : Wait) (ids : List Nat) (s : State) :
    (∃ h, ids.foldl (fun s i => setSt s.cur.gk i .blocked w s) s = withThr h s) ∧
    ∀ k, getThr (ids.foldl (fun s i => setSt s.cur.gk i .blocked w s) s) k =
      if ∃ i ∈ ids, k = tkOf s i then { getThr s k with st := .blocked, wait := w } else getThr s k := by
  induction ids generalizing s with
  | nil => exact ⟨⟨s.thr, rfl⟩, fun k => by simp⟩
  | cons i ids ih =>
    obtain ⟨⟨h, hh⟩, hk⟩ := ih (setSt s.cur.gk i .blocked w s)
    rw [List.foldl_cons]
    refine ⟨⟨h, by rw [hh]; rfl⟩, fun k => ?_⟩
    rw [hk k]
    by_cases h1 : k = tkOf s i
    · subst h1
      simp only [setSt, getThr_setThr_same, List.mem_cons, exists_eq_or_imp, true_or, if_true]
      split <;> rfl
    · have e : getThr (setSt s.cur.gk i .blocked w s) k = getThr s k := by simp only [setSt, getThr_setThr, if_neg h1]
      rw [e]
      simp only [List.mem_cons, exists_eq_or_imp, h1, false_or]
      rfl

/-- A group that blocks waits with every thread that convergence awaits, and nothing else changes (R220). -/
theorem blockAll_spec (w : Wait) (s : State) :
    (∃ h, blockAll w s = withThr h s) ∧ ∀ k, getThr (blockAll w s) k =
      if ∃ i ∈ domain s s.cur.gk, k = tkOf s i then { getThr s k with st := .blocked, wait := w } else getThr s k :=
  block_fold w (domain s s.cur.gk) s

theorem BarrierKeeps.blockAll (w : Wait) (s : State) : BarrierKeeps s (blockAll w s) := by
  obtain ⟨he, hk⟩ := blockAll_spec w s
  refine .of_threads he fun k => ?_
  rw [hk]
  split
  · next h =>
    obtain ⟨i, hi, rfl⟩ := h
    exact .inr ⟨mem_domain_live hi, _, _, _, by simp, rfl⟩
  · exact .inl rfl

/-! ## Leaving a barrier -/

/-- A group at the core's acquire side with its note of the barrier gone. -/
def acquired (gk core : Nat) (wide : Bool) (x : Grp) (s : State) : State := setGrp gk x (acquireCore core wide false s)

theorem acquired_keeps {gk core : Nat} {wide : Bool} {x : Grp} {s : State} (h : x.hset = (getGrp s gk).hset) :
    BarrierKeeps s (acquired gk core wide x s) ∧ (acquired gk core wide x s).thr = s.thr ∧
    ∀ g, getGrp (acquired gk core wide x s) g = if g = gk then x else getGrp s g := by
  have hc := cacheOnly_acquireCore core wide false s
  have hgrp : (acquireCore core wide false s).grp = s.grp ∧ (acquireCore core wide false s).thr = s.thr := by
    obtain ⟨_, _, _, _, _, _, _, he, -⟩ := hc
    rw [he]
    exact ⟨rfl, rfl⟩
  obtain ⟨hg, ht⟩ := hgrp
  have hget : getGrp (acquireCore core wide false s) = getGrp s := by unfold getGrp; rw [hg]
  exact ⟨.trans (.of_cacheOnly hc) (.setGrp (by rw [hget, h])), ht, fun g => by rw [acquired, getGrp_setGrp, hget]⟩

/-- A group that passes has passed for every thread that convergence awaited. -/
theorem passGroup_passes {s u : State} (hk : BarrierKeeps s u) (ht : u.thr = s.thr) (gk : Nat) (npc : Word) {i : Nat}
    (hi : i ∈ domain s gk) : getThr (passGroup gk npc u) (threadKey gk i) =
      { getThr s (threadKey gk i) with pc := npc, st := .ready, wait := .none } := by
  have hthr : getThr u = getThr s := by unfold getThr; rw [ht]
  rw [(passGroup_spec ..).2, hk.domain, if_pos ⟨i, hi, rfl⟩, hthr]

/-! ## The team barrier (R152) -/

theorem leaveTbar_none {s : State} {g : Nat} (h : (getGrp s g).tbar = .none) : leaveTbar s g = s := by
  simp only [leaveTbar, h]

theorem leaveTbar_some {s : State} {g : Nat} {npc : Word} (h : (getGrp s g).tbar = .some npc) :
    leaveTbar s g = passGroup g npc (acquired g (coreOf s g) (getTeam s (teamOfG g)).pair { getGrp s g with tbar := .none } s) := by
  simp only [leaveTbar, h]
  rfl

/-- A group that leaves the team barrier moves only its own threads and forgets only its own arrival. -/
theorem leaveTbar_keeps (s : State) (g : Nat) : BarrierKeeps s (leaveTbar s g) ∧
    (∀ gk, gk ≠ g → (getGrp (leaveTbar s g) gk).tbar = (getGrp s gk).tbar) ∧
    ∀ k, (∀ j, k ≠ threadKey g j) → getThr (leaveTbar s g) k = getThr s k := by
  cases h : (getGrp s g).tbar with
  | none =>
    rw [leaveTbar_none h]
    exact ⟨.refl s, fun _ _ => rfl, fun _ _ => rfl⟩
  | some npc =>
    obtain ⟨hkeep, hthr, hgrp⟩ := acquired_keeps (core := coreOf s g) (wide := (getTeam s (teamOfG g)).pair)
      (x := { getGrp s g with tbar := .none }) (gk := g) (s := s) rfl
    obtain ⟨⟨x, hx⟩, hpass⟩ := passGroup_spec g npc (acquired g (coreOf s g) (getTeam s (teamOfG g)).pair { getGrp s g with tbar := .none } s)
    rw [leaveTbar_some h]
    refine ⟨.trans hkeep (.passGroup ..), fun gk hne => ?_, fun k hk => ?_⟩
    · rw [hx, ← if_neg (t := { getGrp s g with tbar := .none }) (e := getGrp s gk) hne, ← hgrp]
      rfl
    · rw [hpass, if_neg fun ⟨i, _, e⟩ => hk i e]
      simp only [getThr, hthr]

theorem leaveTbar_passes {s : State} {g : Nat} {npc : Word} (h : (getGrp s g).tbar = .some npc) {i : Nat} (hi : i ∈ domain s g) :
    getThr (leaveTbar s g) (threadKey g i) = { getThr s (threadKey g i) with pc := npc, st := .ready, wait := .none } := by
  obtain ⟨hkeep, hthr, -⟩ := acquired_keeps (core := coreOf s g) (wide := (getTeam s (teamOfG g)).pair)
    (x := { getGrp s g with tbar := .none }) (gk := g) (s := s) rfl
  rw [leaveTbar_some h]
  exact passGroup_passes hkeep hthr g npc hi

/-- Groups that leave before a group leave it at the barrier. -/
theorem leave_before {gk : Nat} {npc : Word} (l : List Nat) (s : State) (hl : ∀ g ∈ l, gk ≠ g) (h : (getGrp s gk).tbar = .some npc) :
    BarrierKeeps s (l.foldl leaveTbar s) ∧ (getGrp (l.foldl leaveTbar s) gk).tbar = .some npc := by
  induction l generalizing s with
  | nil => exact ⟨.refl s, h⟩
  | cons g l ih =>
    obtain ⟨hkeep, htbar, -⟩ := leaveTbar_keeps s g
    obtain ⟨hkeep', htbar'⟩ := ih (leaveTbar s g) (fun x hx => hl x (List.mem_cons_of_mem _ hx))
      (by rw [htbar gk (hl g List.mem_cons_self), h])
    exact ⟨hkeep.trans hkeep', htbar'⟩

/-- Groups with greater keys that leave after a group do not move its threads. -/
theorem leave_after {gk i : Nat} (hi : i < 64) (l : List Nat) (s : State) (hl : ∀ g ∈ l, gk < g) :
    getThr (l.foldl leaveTbar s) (threadKey gk i) = getThr s (threadKey gk i) := by
  induction l generalizing s with
  | nil => rfl
  | cons g l ih =>
    obtain ⟨-, -, hthr⟩ := leaveTbar_keeps s g
    have hlt := hl g List.mem_cons_self
    rw [List.foldl_cons, ih _ fun x hx => hl x (List.mem_cons_of_mem _ hx), hthr _ fun j e => ?_]
    unfold threadKey at e
    omega

theorem groupsOf_pairwise (s : State) (t : Nat) : (groupsOf s t).Pairwise (· < ·) := by
  rw [groupsOf, List.pairwise_map]
  exact List.pairwise_lt_range.imp fun h => by unfold groupKey; omega

/-- When every group of the team has arrived, a group that waits at the barrier leaves it (R152). -/
theorem settleTbar_releases {s : State} {gk i : Nat} {npc : Word} (hmem : gk ∈ groupsOf s (teamOfG gk))
    (hall : ∀ g ∈ groupsOf s (teamOfG gk), atTbar s g = true) (h : (getGrp s gk).tbar = .some npc) (hi : i ∈ domain s gk)
    (h64 : i < 64) : getThr (settleTbar (teamOfG gk) s) (threadKey gk i) =
      { getThr s (threadKey gk i) with pc := npc, st := .ready, wait := .none } := by
  have hready : ((groupsOf s (teamOfG gk)).all (atTbar s) && (groupsOf s (teamOfG gk)).any fun g => (getGrp s g).tbar.isSome) = true := by
    rw [Bool.and_eq_true, List.all_eq_true, List.any_eq_true]
    exact ⟨hall, gk, hmem, by rw [h]; rfl⟩
  have hsorted := groupsOf_pairwise s (teamOfG gk)
  rw [settleTbar, if_pos hready]
  obtain ⟨l, r, hsplit⟩ := List.append_of_mem hmem
  rw [hsplit, List.pairwise_append] at hsorted
  obtain ⟨-, hright, hcross⟩ := hsorted
  obtain ⟨hkeep, htbar⟩ := leave_before l s (fun g hg => (hcross g hg gk List.mem_cons_self).ne') h
  rw [hsplit, List.foldl_append, List.foldl_cons, leave_after h64 r _ (List.pairwise_cons.1 hright).1,
    leaveTbar_passes htbar (by rw [hkeep.domain]; exact hi)]
  obtain ⟨_, _, _, he, -⟩ := hkeep.thread (threadKey gk i)
  rw [he]

/-! ## Waiting at a barrier after a release -/

/-- A group that waits at a barrier, noted as `x`, after the release side (R152, R153). -/
def waitingAt (w : Wait) (x : Grp) (core : Nat) (wide sc : Bool) (s : State) : State :=
  blockAll w (setGrp s.cur.gk x (releaseCore core wide sc (arrive s)))

/-- Where the arrival of its issuers leaves a group. -/
theorem placed_arrive (s : State) : (arrive s).cur = s.cur ∧ getTeam (arrive s) = getTeam s ∧ coreOf (arrive s) = coreOf s ∧
    getGrid (arrive s) = getGrid s := by
  obtain ⟨h, he⟩ := arrive_withThr s
  rw [he]
  exact ⟨rfl, rfl, rfl, rfl⟩

/-- What a release after the arrival leaves alone. -/
theorem releaseCore_arrive (core : Nat) (wide sc : Bool) (s : State) : getGrp (releaseCore core wide sc (arrive s)) = getGrp s ∧
    getThr (releaseCore core wide sc (arrive s)) = getThr (arrive s) ∧ (releaseCore core wide sc (arrive s)).cur = s.cur := by
  obtain ⟨h, he⟩ := arrive_withThr s
  obtain ⟨_, _, _, _, _, _, _, hc, -⟩ := cacheOnly_releaseCore core wide sc (arrive s)
  rw [hc, he]
  exact ⟨rfl, rfl, rfl⟩

theorem waitingAt_spec {s : State} (hg : Gathered s) {w : Wait} {x : Grp} (hx : x.hset = (getGrp s s.cur.gk).hset) (core : Nat) (wide sc : Bool) :
    BarrierKeeps s (waitingAt w x core wide sc s) ∧
    (∀ g, getGrp (waitingAt w x core wide sc s) g = if g = s.cur.gk then x else getGrp s g) ∧
    ∀ i ∈ domain s s.cur.gk, getThr (waitingAt w x core wide sc s) (tkOf s i) = { getThr s (tkOf s i) with st := .blocked, wait := w } := by
  obtain ⟨hget, hthr, hcur⟩ := releaseCore_arrive core wide sc s
  have hkeep : BarrierKeeps s (setGrp s.cur.gk x (releaseCore core wide sc (arrive s))) :=
    .trans (.arrive hg) (.trans (.of_cacheOnly (cacheOnly_releaseCore ..)) (.setGrp (by rw [hget, hx])))
  obtain ⟨⟨h', hb⟩, hblocked⟩ := blockAll_spec w (setGrp s.cur.gk x (releaseCore core wide sc (arrive s)))
  refine ⟨hkeep.trans (.blockAll ..), fun g => ?_, fun i hi => ?_⟩
  · rw [waitingAt, hb, ← hget, ← getGrp_setGrp]
    rfl
  · obtain ⟨y, hy⟩ := (arrive_spec s).2 (tkOf s i)
    have hbase : getThr (setGrp s.cur.gk x (releaseCore core wide sc (arrive s))) (tkOf s i) = getThr (arrive s) (tkOf s i) := by
      rw [getThr_setGrp, hthr]
    have hcur' : (setGrp s.cur.gk x (releaseCore core wide sc (arrive s))).cur = s.cur := hcur
    rw [waitingAt, hblocked, hcur', hkeep.domain, if_pos ⟨i, hi, congrArg (fun c : Cur => threadKey c.gk i) hcur'.symm⟩, hbase, hy]
    split <;> rfl

section
variable {s : State} (hr : UniReady s bareForm)
include hr

theorem exec_tbar (hw : releaseWait (arrive s) s.cur.gk .none false false (getTeam s (teamOfG s.cur.gk)).pair = .none) :
    exec .tbar s = .next (settleTbar (teamOfG s.cur.gk) (waitingAt .tbar { getGrp s s.cur.gk with tbar := .some s.cur.npc }
      (coreOf s s.cur.gk) (getTeam s (teamOfG s.cur.gk)).pair false s)) := by
  rw [show exec .tbar s = execTbar s from rfl, execTbar, uni_ready (F := noForm) hr]
  obtain ⟨hcur, hteam, hcore, -⟩ := placed_arrive s
  obtain ⟨hgrp, -, hrcur⟩ := releaseCore_arrive (coreOf s s.cur.gk) (getTeam s (teamOfG s.cur.gk)).pair false s
  simp only [hcur, hteam, hcore, hw, hgrp, hrcur, waitingAt]

theorem tbar_releases (hw : releaseWait (arrive s) s.cur.gk .none false false (getTeam s (teamOfG s.cur.gk)).pair = .none)
    (hmem : s.cur.gk ∈ groupsOf s (teamOfG s.cur.gk)) (hall : ∀ g ∈ groupsOf s (teamOfG s.cur.gk), g ≠ s.cur.gk → atTbar s g = true) :
    ∃ t, exec .tbar s = .next t ∧ ∀ i ∈ domain s s.cur.gk, WentOn s t i := by
  refine ⟨_, exec_tbar hr hw, fun i hi => ?_⟩
  obtain ⟨hkeep, hgrp, hthr⟩ := waitingAt_spec hr.toGathered (w := .tbar) (x := { getGrp s s.cur.gk with tbar := .some s.cur.npc }) rfl
    (coreOf s s.cur.gk) (getTeam s (teamOfG s.cur.gk)).pair false
  generalize waitingAt .tbar { getGrp s s.cur.gk with tbar := .some s.cur.npc } (coreOf s s.cur.gk)
    (getTeam s (teamOfG s.cur.gk)).pair false s = w at hkeep hgrp hthr ⊢
  have hgroups : groupsOf w (teamOfG s.cur.gk) = groupsOf s (teamOfG s.cur.gk) := by simp only [groupsOf, getGrid, hkeep.grid]
  have harrived : ∀ g ∈ groupsOf w (teamOfG s.cur.gk), atTbar w g = true := by
    intro g hg
    rw [hgroups] at hg
    by_cases hgk : g = s.cur.gk
    · simp [atTbar, hgrp, hgk]
    · simpa [atTbar, hgrp, hgk, hkeep.live] using hall g hg hgk
  have h64 : i < 64 := lt_of_lt_of_le (mem_domain_width hi) hr.width
  rw [WentOn, settleTbar_releases (by rwa [hgroups]) harrived (by rw [hgrp, if_pos rfl]) (by rwa [hkeep.domain]) h64, hthr i hi]

/-! ## The device barrier (R153, R377) -/

theorem exec_bar (hw : releaseWait (arrive s) s.cur.gk .none true true = .none) {c : Nat}
    (hc : (getGrid s (gridOfG s.cur.gk)).barCtx = .some c) :
    exec .bar s = .next (waitingAt .bar { getGrp s s.cur.gk with bar := .some s.cur.npc } (coreOf s s.cur.gk) true true s) := by
  rw [show exec .bar s = execBar s from rfl, execBar, uni_ready (F := noForm) hr]
  obtain ⟨hcur, -, hcore, hgrid⟩ := placed_arrive s
  obtain ⟨hgrp, -, hrcur⟩ := releaseCore_arrive (coreOf s s.cur.gk) true true s
  simp only [hcur, hcore, hgrid, hc, hw, hgrp, hrcur, waitingAt, Option.isNone_some, Bool.false_eq_true, if_false]

theorem exec_bar_fault (hc : (getGrid s (gridOfG s.cur.gk)).barCtx = .none) :
    exec .bar s = .next (trapGroup { name := .barrierFault, pc := s.cur.pc } (arrive s)) := by
  rw [show exec .bar s = execBar s from rfl, execBar, uni_ready (F := noForm) hr]
  obtain ⟨hcur, -, -, hgrid⟩ := placed_arrive s
  simp only [hcur, hgrid, hc, Option.isNone_none, if_true, trapAt]

theorem bar_waits (hw : releaseWait (arrive s) s.cur.gk .none true true = .none) {c : Nat}
    (hc : (getGrid s (gridOfG s.cur.gk)).barCtx = .some c) :
    ∃ t, exec .bar s = .next t ∧ (getGrp t s.cur.gk).bar = .some s.cur.npc ∧
      ∀ i ∈ domain s s.cur.gk, getThr t (tkOf s i) = { getThr s (tkOf s i) with st := .blocked, wait := .bar } := by
  obtain ⟨-, hgrp, hthr⟩ := waitingAt_spec hr.toGathered (w := .bar) (x := { getGrp s s.cur.gk with bar := .some s.cur.npc }) rfl
    (coreOf s s.cur.gk) true true
  exact ⟨_, exec_bar hr hw hc, by rw [hgrp, if_pos rfl], hthr⟩
end

theorem releaseGroup_some {s : State} {gk : Nat} {npc : Word} (h : (getGrp s gk).bar = .some npc) :
    releaseGroup s gk = passGroup gk npc (acquired gk (coreOf s gk) true { getGrp s gk with bar := .none } s) := by
  simp only [releaseGroup, h]
  rfl

/-- A group that takes the device barrier's release leaves it. -/
theorem releaseGroup_passes {s : State} {gk : Nat} {npc : Word} (h : (getGrp s gk).bar = .some npc) :
    (getGrp (releaseGroup s gk) gk).bar = .none ∧ ∀ i ∈ domain s gk, getThr (releaseGroup s gk) (threadKey gk i) =
      { getThr s (threadKey gk i) with pc := npc, st := .ready, wait := .none } := by
  obtain ⟨hkeep, hthr, hgrp⟩ := acquired_keeps (core := coreOf s gk) (wide := true) (x := { getGrp s gk with bar := .none })
    (gk := gk) (s := s) rfl
  obtain ⟨x, hx⟩ := passGroup_withThr gk npc (acquired gk (coreOf s gk) true { getGrp s gk with bar := .none } s)
  rw [releaseGroup_some h]
  refine ⟨?_, fun i hi => passGroup_passes hkeep hthr gk npc hi⟩
  rw [hx]
  exact congrArg Grp.bar ((hgrp gk).trans (if_pos rfl))

/-- The root's release of the only group that waits (R377). -/
theorem flipRoot_releases {s : State} {c g gk : Nat} {npc : Word} (hbar : (getGrp s gk).bar = .some npc)
    (hone : (teamsOf s g).flatMap (groupsOf s) = [gk])
    (hready : ∀ k < 960, tget false (c * 960 + k) s.rp.part = true → coreReady s c g k = true) :
    (getGrp (flipRoot c g s) gk).bar = .none ∧ ∀ i ∈ domain s gk, getThr (flipRoot c g s) (threadKey gk i) =
      { getThr s (threadKey gk i) with pc := npc, st := .ready, wait := .none } := by
  have hall : ((List.range 960).filter fun k => tget false (c * 960 + k) s.rp.part).all (coreReady s c g) = true := by
    rw [List.all_eq_true]
    intro k hk
    obtain ⟨hk960, hpart⟩ := List.mem_filter.1 hk
    exact hready k (List.mem_range.1 hk960) hpart
  have hone' : ∀ x : Repair, (teamsOf { s with rp := x } g).flatMap (groupsOf { s with rp := x }) = [gk] := fun _ => hone
  obtain ⟨x, hflip⟩ : ∃ x, flipRoot c g s = releaseGroup { s with rp := x } gk := by
    simp only [flipRoot, hone, hone', hall, hbar, List.any_cons, Option.isSome_some, Bool.true_or, Bool.and_self, if_true, List.foldl_cons,
      List.foldl_nil]
    exact ⟨_, rfl⟩
  rw [hflip]
  exact releaseGroup_passes (s := { s with rp := x }) hbar

/-! ## Handle waits (R143) -/

section
variable {s : State} {c : HCond} {n : BitVec 7} {h : Handle} (hr : UniReady s bareForm)
  (hh : getHandle s (teamOfG s.cur.gk) n.toNat = .some h) (he : isEngine h.st = false)
include hr hh he

theorem exec_waith (hmet : h.err = true ∨ condMet c h.st = true) : exec (.waith c n) s = .next (if h.err then
    trapGroup (trapAt s .copyFault 0 (word n.toNat)) (setHandle (teamOfG s.cur.gk) n.toNat { h with err := false } (arrive s))
    else passGroup s.cur.gk s.cur.npc (acquireCore (coreOf s s.cur.gk) true true (arrive s))) := by
  have hmet' : (isEngine h.st || !(h.err || condMet c h.st)) = false := by
    cases hx : h.err <;> simp_all
  have hhandle : getHandle (arrive s) (teamOfG s.cur.gk) n.toNat = .some h := by
    obtain ⟨x, hx⟩ := arrive_withThr s
    rw [hx]
    exact hh
  obtain ⟨hcur, -, hcore, -⟩ := placed_arrive s
  rw [show exec (.waith c n) s = execWaith c n s from rfl, execWaith, uni_ready (F := noForm) hr]
  simp only [hcur, hcore, hhandle, hmet', trapAt, Bool.false_eq_true, if_false]
end

/-! ## Rendezvous (R157) -/

theorem freeSet_eq (t n : Nat) (s : State) : ∃ g : Tab Grp, freeSet t n s =
    { setTeam t { getTeam s t with sets := tset .none n .none (getTeam s t).sets } s with grp := g } := by
  unfold freeSet
  refine List.foldlRecOn (groupsOf _ t) _ (motive := fun v => ∃ g : Tab Grp, v =
    { setTeam t { getTeam s t with sets := tset .none n .none (getTeam s t).sets } s with grp := g }) ⟨s.grp, rfl⟩ fun v h g _ => ?_
  obtain ⟨x, rfl⟩ := h
  split
  · exact ⟨_, rfl⟩
  · exact ⟨x, rfl⟩

/-- Freeing a set leaves every group on its core. -/
theorem placed_freeSet (t n : Nat) (s : State) (gk : Nat) : (freeSet t n s).cur = s.cur ∧ coreOf (freeSet t n s) gk = coreOf s gk := by
  obtain ⟨g, h⟩ := freeSet_eq t n s
  rw [h]
  refine ⟨rfl, ?_⟩
  simp only [coreOf, getTeam, setTeam, tget_tset]
  split
  · next e => subst e; rfl
  · rfl

/-- What a rendezvous of a set that has ended well has done. -/
theorem exec_rdv {s : State} {a : Src} {f : ForkSet} (hr : UniReady s (formU1 a)) (hlt : (valS s a.r).toNat < 8)
    (hset : tget .none (valS s a.r).toNat (getTeam s (teamOfG s.cur.gk)).sets = .some f) (hlive : f.live = [])
    (herr : ∀ h ∈ f.hs, handleErr s (teamOfG s.cur.gk) h = false) (hprog : f.prog = .none ∨ f.prog = .some .ok) :
    exec (.rdv a) s = .next (uniCommit (formU1 a) false .none .none .none (acquireCore (coreOf s s.cur.gk) true true
      (freeSet (teamOfG s.cur.gk) (valS s a.r).toNat (arrive s)))) := by
  have hended : setEnded f = true := by
    rcases hprog with h | h <;> simp [setEnded, hlive, h]
  have hgood : f.hs.find? (handleErr s (teamOfG s.cur.gk)) = .none := by
    rw [List.find?_eq_none]
    intro h hh
    simp [herr h hh]
  have herr' : handleErr (arrive s) (teamOfG s.cur.gk) = handleErr s (teamOfG s.cur.gk) := by
    obtain ⟨x, hx⟩ := arrive_withThr s
    rw [hx]
    rfl
  obtain ⟨hcur, hteam, hcore, -⟩ := placed_arrive s
  rw [show exec (.rdv a) s = execRdv a s from rfl, execRdv, uni_ready (F := { uni := true, flds := [fA true a true] }) hr]
  have hv : ([fA true a true].map fun f => (getS s s.cur.gk f.r).v).getD 0 0 = valS s a.r := rfl
  simp only [hv, hcur, hteam, hcore, if_pos hlt, hset, hended, herr', hgood, Bool.not_true, Bool.false_eq_true, if_false]
  rcases hprog with h | h <;> rw [h] <;> rfl

theorem rdv_done {s : State} {a : Src} {f : ForkSet} (hr : UniReady s (formU1 a)) (hlt : (valS s a.r).toNat < 8)
    (hset : tget .none (valS s a.r).toNat (getTeam s (teamOfG s.cur.gk)).sets = .some f) (hlive : f.live = [])
    (herr : ∀ h ∈ f.hs, handleErr s (teamOfG s.cur.gk) h = false) (hprog : f.prog = .none ∨ f.prog = .some .ok) :
    ∃ t, exec (.rdv a) s = .next t ∧ UniDone (acquireCore (coreOf (freeSet (teamOfG s.cur.gk) (valS s a.r).toNat (arrive s)) s.cur.gk)
      true true (freeSet (teamOfG s.cur.gk) (valS s a.r).toNat (arrive s))) t (formU1 a) .none .none s.cur.npc := by
  have hx := exec_rdv hr hlt hset hlive herr hprog
  obtain ⟨hcur, -, hcore, -⟩ := placed_arrive s
  obtain ⟨hfcur, hfcore⟩ := placed_freeSet (teamOfG s.cur.gk) (valS s a.r).toNat (arrive s) s.cur.gk
  rw [← hcore, ← hfcore] at hx
  have hdone := uniCommit_none_done (acquireCore (coreOf (freeSet (teamOfG s.cur.gk) (valS s a.r).toNat (arrive s)) s.cur.gk) true true
    (freeSet (teamOfG s.cur.gk) (valS s a.r).toNat (arrive s))) (F := formU1 a) rfl rfl (by simp)
  rw [cur_of_cacheOnly (cacheOnly_acquireCore ..), hfcur, hcur] at hdone
  exact ⟨_, hx, hdone⟩

/-! ## Claims (R139) -/

/-- The scan of the pages of a claim changes the memory side only. -/
theorem memOnly_claimScan (gk : Nat) (user : Bool) (k page : Nat) (s : State) : MemOnly s (claimScan gk user k page s).2 := by
  induction k generalizing page s with
  | zero => exact memOnly_refl s
  | succ k ih =>
    have hx := memOnly_xlate { askerOf s gk with core := agentCore } (page * 65536) 1 .w user s
    unfold claimScan
    split <;> rename_i he <;> rw [he] at hx
    · exact memOnly_trans hx (ih ..)
    · exact hx
    · exact hx

section
variable {s u : State} {d : BitVec 6} {a b : Src} (hr : UniReady s (formU2d d a b))
include hr

theorem exec_claim : exec (.claim d a b) s = .next (accGroup (claimBody (formU2d d a b) d [valS s a.r, valS s b.r] 0 (arrive s)) (arrive s)) :=
  accUni_ready hr (claimBody (formU2d d a b) d)

theorem claim_empty (hb : valS s b.r = 0) :
    exec (.claim d a b) s = .next (uniCommit (formU2d d a b) false (.some 0) .none .none (arrive s)) := by
  have hcur := arrive_cur s
  have hbody : claimBody (formU2d d a b) d [valS s a.r, valS s b.r] 0 (arrive s) =
      .ok (commit s.cur.gk 0 (formU2d d a b) false (.some 0) .none 0 (arrive s)) := by
    simp [claimBody, hb, commit, orFpx, complete, commitStore, hcur]
  have hccur : (commit s.cur.gk 0 (formU2d d a b) false (.some 0) .none 0 (arrive s)).cur = s.cur := by
    obtain ⟨⟨_, _, _, hc⟩, -⟩ := commit_uni s.cur.gk (formU2d d a b) (.some 0) .none (arrive s) rfl (by simp)
    rw [hc]
    exact hcur
  rw [exec_claim hr, hbody]
  simp only [accGroup, hccur, uniCommit, hcur, Option.getD_none]

theorem claim_starts {ra rb : Word} (ha : ra = valS s a.r) (hb : rb = valS s b.r) (h0 : rb ≠ 0) (hcan : canonical ra = true)
    (hrange : ra.toNat % 2 ^ 57 + rb.toNat ≤ 2 ^ 57)
    (hscan : claimScan s.cur.gk (userOf s s.cur.gk 0 true) ((ra.toNat % 2 ^ 57 + rb.toNat - 1) / 65536 + 1 - ra.toNat % 2 ^ 57 / 65536)
        (ra.toNat % 2 ^ 57 / 65536) (arrive s) = (.none, u))
    (hw : releaseWait u s.cur.gk .none true true = .none) :
    ∃ t, exec (.claim d a b) s = .next t ∧ UniIssued (releaseCore (coreOf u s.cur.gk) true true u) t (formU2d d a b)
        [opHere (releaseCore (coreOf u s.cur.gk) true true u) 0xFFFF (.claim d (ra.toNat % 2 ^ 57 / 65536)
          ((ra.toNat % 2 ^ 57 + rb.toNat - 1) / 65536 + 1 - ra.toNat % 2 ^ 57 / 65536) 0 .none)] := by
  subst ha hb
  have hcur := arrive_cur s
  have hucur : u.cur = s.cur := by
    have hm := memOnly_claimScan s.cur.gk (userOf s s.cur.gk 0 true) (((valS s a.r).toNat % 2 ^ 57 + (valS s b.r).toNat - 1) / 65536 + 1 -
      (valS s a.r).toNat % 2 ^ 57 / 65536) ((valS s a.r).toNat % 2 ^ 57 / 65536) (arrive s)
    rw [hscan] at hm
    obtain ⟨m, g, he⟩ := hm
    rw [show u = _ from he]
    exact hcur
  have hrcur : (releaseCore (coreOf u s.cur.gk) true true u).cur = s.cur := (cur_of_cacheOnly (cacheOnly_releaseCore ..)).trans hucur
  have hn : (valS s b.r).toNat ≠ 0 := fun h => h0 (BitVec.eq_of_toNat_eq h)
  have hin : (!true || decide (2 ^ 57 < (valS s a.r).toNat % 2 ^ 57 + (valS s b.r).toNat)) = false := by
    simpa using hrange
  have hbody : claimBody (formU2d d a b) d [valS s a.r, valS s b.r] 0 (arrive s) =
      .ok (addOp s.cur.gk 0xFFFF s.cur.pc (.claim d ((valS s a.r).toNat % 2 ^ 57 / 65536)
        (((valS s a.r).toNat % 2 ^ 57 + (valS s b.r).toNat - 1) / 65536 + 1 - (valS s a.r).toNat % 2 ^ 57 / 65536) 0 .none)
        (commitLong 0 (formU2d d a b) (releaseCore (coreOf u s.cur.gk) true true u))) := by
    simp only [claimBody, List.getD_cons_zero, List.getD_cons_succ, if_neg hn, hcan, hcur, userOf_arrive hr.toGathered, hscan, hw, hrcur,
      hin, Bool.false_eq_true, if_false]
  have h := accUni_issues (F := formU2d d a b) hr hrcur (body := claimBody (formU2d d a b) d) hbody
  simp only [opHere, hrcur]
  exact h
end

/-! ## O28 -/

/-- Settles O28: each instruction in its ready group, then the releases of the two barriers. -/
theorem barriersAndWaits : Obligations.BarriersAndWaits := by
  refine ⟨fun s hr k c => ⟨?_, fun hc hrel hacq => ?_⟩, fun s hr hw => ⟨exec_tbar hr hw, tbar_releases hr hw⟩,
    fun s hr hw => ⟨fun c => exec_bar hr hw, fun c => bar_waits hr hw⟩,
    fun s c g gk npc hbar hone hready => flipRoot_releases hbar hone hready, fun s hr => exec_bar_fault hr, ?_, ?_, ?_⟩
  · rintro rfl
    exact ⟨_, exec_fence_thread hr k, uniCommit_done hr .none⟩
  · have hw := fenceWait_none (s := arrive s) (gk := s.cur.gk) (k := k) (c := c)
    obtain ⟨-, hteam, hcore, -⟩ := placed_arrive s
    have hwide : wideScope (arrive s) s.cur.gk c = wideScope s s.cur.gk c := by simp only [wideScope, hteam]
    rw [hwide, hcore] at hw
    exact exec_fence hr hc (hw hrel hacq)
  · intro s c n h hr hh he
    refine ⟨fun herr hmet => ?_, fun herr => ?_⟩
    · rw [exec_waith hr hh he (.inr hmet), herr]
      rfl
    · rw [exec_waith hr hh he (.inl herr), if_pos herr]
      rfl
  · exact fun s a f hr hlt hset hlive herr hprog => rdv_done hr hlt hset hlive herr hprog
  · exact fun s d a b hr => ⟨fun hb => ⟨_, claim_empty hr hb, uniCommit_done hr (.some 0)⟩,
      fun u h0 hcan hrange hscan hw => claim_starts hr rfl rfl h0 hcan hrange hscan hw⟩

end Sys2Proof.Machine
end

section
/-! PROOFS. How sends and receives through capability entries issue (R136, R137, R158 to R160). -/

namespace Sys2Proof.Machine

/-! ## Lane receives and sends (R136, R137) -/

/-- A fold of register changes over threads is a register change. -/
theorem regsOnly_foldl {α : Type} {f : State → α → State} (h : ∀ s a, RegsOnly s (f s a)) (l : List α) (s : State) :
    RegsOnly s (l.foldl f s) :=
  List.foldlRecOn l f (motive := RegsOnly s) (regsOnly_refl s) fun _ hu a _ => regsOnly_trans hu (h _ a)

/-- Register changes and the caches' actions leave the issue and the width of its group. -/
theorem issue_of_regsOnly {s t : State} (h : RegsOnly s t) (gk : Nat) : t.cur = s.cur ∧ widthOf t gk = widthOf s gk := by
  obtain ⟨_, _, _, _, _, rfl⟩ := h
  exact ⟨rfl, rfl⟩

theorem queueCap_arrive (s : State) (gk n : Nat) (send : Bool) : queueCap (arrive s) gk n send = queueCap s gk n send := by
  obtain ⟨-, -, -, hgrid⟩ := placed_arrive s
  simp only [queueCap, capOf, hgrid]

theorem capOf_arrive (s : State) (gk n : Nat) : capOf (arrive s) gk n = capOf s gk n := by
  obtain ⟨-, -, -, hgrid⟩ := placed_arrive s
  simp only [capOf, hgrid]

theorem laneRecv_issues {s : State} {d n : BitVec 6} {q : Nat} (b : Nat) (h : CrossReady s { uni := false, flds := [], dv := .some d })
    (hq : queueCap s s.cur.gk n.toNat false = .some q) (ht : trackersOk (arrive s) s.cur.gk [2 ^ 60] = true) :
    laneRecv d n b s = .next (passGroup s.cur.gk s.cur.npc (addOp s.cur.gk 0xFFFF s.cur.pc
      (.qrecv d q ((widthOf s s.cur.gk * b + 127) / 128) b (parts s))
      ((parts s).foldl (fun u i => commitLong i { uni := false, flds := [], dv := .some d } u) (arrive s)))) := by
  have hregs := regsOnly_foldl (fun u i => regsOnly_commitLong i { uni := false, flds := [], dv := .some d } u) (parts s) (arrive s)
  obtain ⟨hcur, hwidth⟩ := issue_of_regsOnly hregs s.cur.gk
  have htids : ∀ F, ((parts s).map (partOf s F)).map (·.tid) = parts s := fun F => by simp [partOf, Function.comp_def]
  have hissue : ∀ F u, ((parts s).map (partOf s F)).foldl (fun u p => commitLong p.tid { uni := false, flds := [], dv := .some d } u) u =
      (parts s).foldl (fun u i => commitLong i { uni := false, flds := [], dv := .some d } u) u := fun F u => List.foldl_map ..
  rw [laneRecv, crossWith_ready h]
  simp only [arrive_cur, queueCap_arrive, hq, ht, hissue, hcur, hwidth, widthOf_arrive, entriesFor, htids,
    Bool.not_true, Bool.false_eq_true, if_false]

/-- What releasing after the arrival leaves of a group's issue. -/
theorem released_issue (core : Nat) (wide sc : Bool) (s : State) (gk : Nat) :
    (releaseCore core wide sc (arrive s)).cur = s.cur ∧ widthOf (releaseCore core wide sc (arrive s)) gk = widthOf s gk := by
  obtain ⟨-, -, hcur⟩ := releaseCore_arrive core wide sc s
  refine ⟨hcur, Eq.trans ?_ (widthOf_arrive s gk)⟩
  simp only [widthOf, recOf, getGrid, grid_of_cacheOnly (cacheOnly_releaseCore core wide sc (arrive s))]

theorem laneSend_pushes {s u : State} {n : BitVec 6} {v : Src} {q : Nat} (b : Nat) (h : CrossReady s { uni := false, flds := [strictF false v 1] })
    (hq : queueCap s s.cur.gk n.toNat true = .some q)
    (hw : releaseWait (arrive s) s.cur.gk .none false false (getTeam s (teamOfG s.cur.gk)).pair = .none)
    (hu : u = releaseCore (coreOf s s.cur.gk) (getTeam s (teamOfG s.cur.gk)).pair false (arrive s))
    (hroom : (sendEnts (widthOf s s.cur.gk) b (sentBy s v)).length ≤ queueRoom u (teamOfG s.cur.gk) q)
    (hallow : (sendEnts (widthOf s s.cur.gk) b (sentBy s v)).length ≤ allowOf u (teamOfG s.cur.gk) n.toNat) :
    laneSend n v b s = .next (passGroup s.cur.gk s.cur.npc
      (charge (teamOfG s.cur.gk) n.toNat (sendEnts (widthOf s s.cur.gk) b (sentBy s v)).length
        (pushEnts (teamOfG s.cur.gk) q ((sendEnts (widthOf s s.cur.gk) b (sentBy s v)).map fun x => (x, false))
          ((parts s).foldl (fun w i => useAll s.cur.gk i
            ⟨if v.c = .last then [(false, v.r)] else [], if v.c = .keep then [(false, v.r)] else []⟩ w) u)))) := by
  obtain ⟨hcur, hteam, hcore, -⟩ := placed_arrive s
  obtain ⟨hucur, huwidth⟩ := released_issue (coreOf s s.cur.gk) (getTeam s (teamOfG s.cur.gk)).pair false s s.cur.gk
  rw [← hu] at hucur huwidth
  have hsent : (parts s).map (partOf s { uni := false, flds := [fB false v true] }) = sentBy s v := rfl
  have htids : (sentBy s v).map (·.tid) = parts s := by simp [sentBy, Function.comp_def]
  rw [laneSend, crossWith_ready (F := { uni := false, flds := [fB false v true] }) h, hsent]
  simp only [hcur, hteam, hcore, queueCap_arrive, hq, hw, ← hu, hucur, huwidth, if_pos hroom, lanePush, if_neg (Nat.not_lt.2 hallow), htids]
  rw [usesOf_single { uni := false, flds := [fB false v true] } false v 1 true rfl]

/-! ## Uniform sends (R158 to R160) -/

section
variable {s w : State} {n : BitVec 6} {c : Cap} {d : Dest}

theorem destWide_arrive (s : State) (gk : Nat) (d : Dest) : destWide (arrive s) gk d = destWide s gk d := by
  obtain ⟨-, hteam, -, -⟩ := placed_arrive s
  simp only [destWide, hteam]

theorem destOf_arrive (s : State) (gk : Nat) (c : Cap) (val : Bool) (len : Nat) : destOf (arrive s) gk c val len = destOf s gk c val len := by
  obtain ⟨h, he⟩ := arrive_withThr s
  rw [he]
  rfl

/-- The message that a uniform send carries (R159). -/
def sentMessage (val : Bool) (t : Nat) (x len : Word) (r : State) : Msg :=
  if val then ⟨bytesOf 8 x.toNat, []⟩ else ⟨stashRead r t x.toNat len.toNat, blockMarks r t x.toNat len.toNat⟩

/-- A send that its endpoint accepts passes (R159, R160). -/
theorem sendBody_accepted {F : Form} {val : Bool} {v : List Word} {r : State}
    (hblk : val = false → blockCheck (arrive s) (v.getD 0 0) (v.getD 1 0) = .none) (hc : capOf s s.cur.gk n.toNat = .some c)
    (hd : destOf s s.cur.gk c val (v.getD 1 0).toNat = .some d)
    (hallow : (if val then 1 else (v.getD 1 0).toNat / 128) ≤ allowOf s (teamOfG s.cur.gk) n.toNat)
    (hw : releaseWait (arrive s) s.cur.gk .none (destSys d) false (destWide s s.cur.gk d) = .none)
    (hr : r = releaseCore (coreOf s s.cur.gk) (destWide s s.cur.gk d) false (arrive s))
    (ha : accept s.cur.gk d (sentMessage val (teamOfG s.cur.gk) (v.getD 0 0) (v.getD 1 0) r) false
      (charge (teamOfG s.cur.gk) n.toNat (if val then 1 else (v.getD 1 0).toNat / 128) r) = .some w) :
    sendBody F n.toNat val v 0 (arrive s) = .ok (commitStore 0 F w) := by
  obtain ⟨hcur, hteam, hcore, -⟩ := placed_arrive s
  have hallow' : ¬ allowOf (arrive s) (teamOfG s.cur.gk) n.toNat < if val then 1 else (v.getD 1 0).toNat / 128 := by
    simpa only [allowOf, hteam, Nat.not_lt] using hallow
  have hblk' : (if val then .none else blockCheck (arrive s) (v.getD 0 0) (v.getD 1 0)) = .none := by
    cases val with
    | true => rfl
    | false => exact hblk rfl
  simp only [sendBody, hblk', hcur, capOf_arrive, hc, destOf_arrive, hd, if_neg hallow', destWide_arrive, hw, hcore, ← hr]
  rw [sentMessage] at ha
  rw [ha]

theorem accUni_accepted {F : Form} {body : List Word → Nat → State → AccGot} (hr : UniReady s F)
    (hb : body (F.flds.map fun f => (getS s s.cur.gk f.r).v) 0 (arrive s) = .ok (commitStore 0 F w)) :
    accUni F body s = .next (passGroup w.cur.gk w.cur.npc (commitStore 0 F w)) := by
  have := accUni_goesOn hr hb
  rwa [commitStore_cur] at this
end

/-! ## Uniform receives (R159, R160) -/

theorem recvCap_arrive (s : State) (gk n : Nat) : recvCap (arrive s) gk n = recvCap s gk n := by
  simp only [recvCap, capOf_arrive]

/-- A receive of a uniform entry is in flight once for its group. -/
theorem recvBody_issues {s : State} {F : Form} {d n : BitVec 6} {c : Cap} {blk : Bool} {v : List Word} {b : Option (Nat × Nat)}
    (hb : b = if blk then .some ((v.getD 0 0).toNat, (v.getD 1 0).toNat) else .none)
    (hblk : blk = true → blockCheck (arrive s) (v.getD 0 0) (v.getD 1 0) = .none) (hc : recvCap s s.cur.gk n.toNat = .some c)
    (hm : meetWait (arrive s) s.cur.gk 0xFFFF true (opParts (.crecv d n.toNat b)) = .none)
    (ht : trackersOk (arrive s) s.cur.gk [2 ^ 60] = true) :
    recvBody F d n.toNat blk v 0 (arrive s) = .ok (addOp s.cur.gk 0xFFFF s.cur.pc (.crecv d n.toNat b) (commitLong 0 F (arrive s))) := by
  have hblk' : (if blk then blockCheck (arrive s) (v.getD 0 0) (v.getD 1 0) else .none) = .none := by
    cases blk with
    | true => exact hblk rfl
    | false => rfl
  simp only [recvBody, hblk', arrive_cur, recvCap_arrive, hc, ← hb, hm, ht, Bool.not_true, Bool.false_eq_true, if_false]

/-- An operation that is put in flight is the same once its group's issuers have arrived. -/
theorem newOp_arrive {s : State} (h : Gathered s) (tid : Nat) (ia : Word) (k : OpK) :
    newOp s.cur.gk tid ia k (arrive s) = newOp s.cur.gk tid ia k s := by
  have hsys := inSys_arrive h tid
  obtain ⟨x, he⟩ := arrive_withThr s
  rw [newOp, newOp, hsys, he]
  rfl

/-- A ready group whose receive passes has issued it. -/
theorem recv_issues {s : State} {F : Form} {k : OpK} {body : List Word → Nat → State → AccGot} (hr : UniReady s F)
    (hb : body (F.flds.map fun f => (getS s s.cur.gk f.r).v) 0 (arrive s) =
      .ok (addOp s.cur.gk 0xFFFF s.cur.pc k (commitLong 0 F (arrive s)))) :
    ∃ t, accUni F body s = .next t ∧ UniIssued (arrive s) t F [opHere s 0xFFFF k] := by
  have := accUni_issues hr (arrive_cur s) hb
  rwa [newOp_arrive hr.toGathered] at this

theorem meetWait_nothing (s : State) (gk tid : Nat) (st : Bool) : meetWait s gk tid st [] = .none := by
  simp [meetWait, partsMeet]

/-! ## O29 -/

/-- Settles O29: each transfer reads its entry and its operands in the state in which its group has gathered. -/
theorem queueAndMessageTransfers : Obligations.QueueAndMessageTransfers := by
  refine ⟨⟨?_, ?_⟩, ?_, ?_, ?_, ?_⟩
  · intro e he s d n q h hq ht
    have hx := fun b => laneRecv_issues b h hq ht
    simp only [laneReceives, List.mem_cons, List.not_mem_nil, or_false] at he
    rcases he with rfl | rfl
    · exact hx 8
    · exact hx 4
  · intro e he s n v q h hq hw u hu hroom hallow
    have hx := fun b => laneSend_pushes b h hq hw hu
    simp only [laneSends, List.mem_cons, List.not_mem_nil, or_false] at he
    rcases he with rfl | rfl
    · exact hx 8 hroom hallow
    · exact hx 4 hroom hallow
  · intro s w n a c d hr hc hd hallow hw ha
    exact accUni_accepted hr (sendBody_accepted (val := true) (F := formU1 a) (by simp) hc hd hallow hw rfl ha)
  · intro s w n a b c d hr hblk hc hd hallow hw r hrel ha
    exact accUni_accepted hr (sendBody_accepted (val := false) (F := formU2 a b) (fun _ => hblk) hc hd hallow hw hrel ha)
  · intro s d n c hr hc ht
    exact recv_issues hr (recvBody_issues (blk := false) rfl (by simp) hc (meetWait_nothing ..) ht)
  · intro s d n a b c hr hblk hc ht hm
    exact recv_issues hr (recvBody_issues (blk := true) rfl (fun _ => hblk) hc hm ht)

end Sys2Proof.Machine
end

section
/-! PROOFS. How receives, messages, Bindery writes, copies, claims and forks proceed (R137, R142, R156, R160, R297, R315). -/

namespace Sys2Proof.Machine

/-! ## Receives and messages (R137, R160) -/

section
variable {s w : State} {k : Nat} {o : Op} (hf : InFlight s k o)
include hf

/-- A lane receive that may go on pops its entries. -/
theorem exec_queueReceive {d : BitVec 6} {q n b : Nat} {tids : List Nat} (hk : o.k = .qrecv d q n b tids) (hr : residentG s o.gk = true)
    (ht : recvTurn s o = true) (hn : n ≤ (poppable (queueOf s (teamOfG o.gk) q)).length) :
    exec (.queueReceiveCompletion k) s = .next (finishQrecv o d q n b tids s) := by
  show execQueueReceiveCompletion k s = _
  simp [execQueueReceiveCompletion, hf, hk, hr, ht, hn]

/-- A uniform receive that may go on takes its message. -/
theorem exec_channelReceive {d : BitVec 6} {n : Nat} {blk : Option (Nat × Nat)} {c : Cap} (hk : o.k = .crecv d n blk)
    (hc : capOf s o.gk n = .some c) (hr : residentG s o.gk = true) (ht : recvTurn s o = true) :
    exec (.channelReceiveCompletion k) s = .next (finishCrecv o d c blk s) := by
  show execChannelReceiveCompletion k s = _
  simp [execChannelReceiveCompletion, hf, hk, hc, hr, ht]

section
variable {d : Dest} {m : Msg} {npc : Word} {use : Uses} (hk : o.k = .msg d m npc use) (hr : residentG s o.gk = true)
include hk hr

/-- A waiting send passes when its endpoint has room. -/
theorem exec_messageDelivery_accepted (ha : accept o.gk d m false s = .some w) :
    exec (.messageDelivery k) s = .next (passGroup o.gk npc (useAll o.gk 0 use (dropOp k w))) := by
  show execMessageDelivery k s = _
  simp [execMessageDelivery, hf, hk, hr, ha]

theorem exec_messageDelivery_waits (ha : accept o.gk d m false s = .none) : exec (.messageDelivery k) s = .next s := by
  show execMessageDelivery k s = _
  simp [execMessageDelivery, hf, hk, hr, ha]
end
end

theorem finishQrecv_eq (o : Op) (d : BitVec 6) (q n b : Nat) (tids : List Nat) (s : State) :
    finishQrecv o d q n b tids s = tids.foldl (fun w i =>
      if (((poppable (queueOf s (teamOfG o.gk) q)).take n).getD (i * b / 128) ⟨0, true, [], false⟩).bad
      then setV (threadKey o.gk i) d { getV w (threadKey o.gk i) d with st := .fault o.ia 0 } w
      else writeDst o.gk i false d
        (BitVec.ofNat 64 (fieldOf (((poppable (queueOf s (teamOfG o.gk) q)).take n).flatMap (·.data)) (i * b) b)) false w)
      (acquireCore (coreOf (dropOp o.id (popEnts (teamOfG o.gk) q n s)) o.gk) (getTeam s (teamOfG o.gk)).pair false
        (dropOp o.id (popEnts (teamOfG o.gk) q n s))) := by
  have hpair : (getTeam (dropOp o.id (popEnts (teamOfG o.gk) q n s)) (teamOfG o.gk)).pair = (getTeam s (teamOfG o.gk)).pair := by
    simp [popEnts, setQueue]
  simp only [finishQrecv, hpair]
  rfl

section
variable {s : State} {o : Op} {d : BitVec 6} {c : Cap} {x : Taken}

theorem finishCrecv_value (hx : takeNext o.gk c .none s = .some x) (hfit : c.kind = .queue ∨ x.data.length ≤ 8) (hbad : x.bad = []) :
    finishCrecv o d c .none s =
      writeDst o.gk 0 true d (BitVec.ofNat 64 (fieldOf x.data 0 8)) false (recvAcquire o.gk c (dropOp o.id x.rest)) := by
  have hfit' : (!(c.kind == .queue) && decide (8 < x.data.length)) = false := by
    rcases hfit with h | h <;> simp [h]
  simp only [finishCrecv, Option.map_none, hx, hfit', hbad, Bool.false_eq_true, if_false, List.contains_nil]
  rfl

variable {off cap : Nat}

theorem finishCrecv_block (hx : takeNext o.gk c (.some cap) s = .some x) (hfit : c.kind = .queue ∨ x.data.length ≤ cap) (hbad : x.bad = []) :
    finishCrecv o d c (.some (off, cap)) s = writeDst o.gk 0 true d (BitVec.ofNat 64 x.data.length) false
      (stashWrite (teamOfG o.gk) off x.data (recvAcquire o.gk c (dropOp o.id x.rest))) := by
  have hfit' : (!(c.kind == .queue) && decide (cap < x.data.length)) = false := by
    rcases hfit with h | h <;> simp [h]
  simp only [finishCrecv, Option.map_some, hx, hfit', hbad, Bool.false_eq_true, if_false, List.foldl_nil]
  rfl

/-- A message that is too long stays where it is (R160). -/
theorem finishCrecv_tooLong (hx : takeNext o.gk c (.some cap) s = .some x) (hq : c.kind ≠ .queue) (hlong : cap < x.data.length) :
    finishCrecv o d c (.some (off, cap)) s = writeDst o.gk 0 true d (BitVec.ofNat 64 (x.data.length + 2 ^ 63)) false (dropOp o.id s) := by
  have hlong' : (!(c.kind == .queue) && decide (cap < x.data.length)) = true := by simp [hq, hlong]
  simp only [finishCrecv, Option.map_some, hx, hlong', if_true]
  rfl
end

/-! ## Writes at a page's agent (R297, R302) -/

section
variable {s w : State} {k : Nat} {o : Op} {u : Bool} {use : Uses} {va npc : Word} {data : List Byte} (hf : InFlight s k o)
  (hk : o.k = .bwr u use va data npc .none) (hm : allMapped s o.gk false (pagePieces va data.length) = true)
  (hc : cutOff s o.gk (pagePieces va data.length) = false) (hdue : duePerforms s (coreOf s o.gk) = true)
include hf hk hm hc hdue

/-- A write whose sub-blocks are ready is performed, and its issuer passes. -/
theorem exec_binderyWrite_ready (halive : aliveG w o.gk = true)
    (hready : readyPieces o.gk (pagePieces va data.length) (performDue (coreOf s o.gk) s) = (.ready, w)) :
    exec (.binderyWrite k) s = .next (passIssuer o npc
      (writePieces o.gk o.tid o.ia (pagePieces va data.length) data (useAll o.gk o.tid use (dropOp k w)))) := by
  show execBinderyWrite k s = _
  simp [execBinderyWrite, hf, hk, hm, hc, hdue, hready, useIssuer_alive (s := dropOp k w) halive]

theorem exec_binderyWrite_denied {a : Word}
    (hready : readyPieces o.gk (pagePieces va data.length) (performDue (coreOf s o.gk) s) = (.denied a, w)) :
    exec (.binderyWrite k) s = .next (trapIssuer o (accessFault o.ia a 3 .g true) (dropOp k s)) := by
  show execBinderyWrite k s = _
  simp [execBinderyWrite, hf, hk, hm, hc, hdue, hready, undoAtom]

theorem exec_binderyWrite_pool {r i p : Nat} {v : State}
    (hready : readyPieces o.gk (pagePieces va data.length) (performDue (coreOf s o.gk) s) = (.pool r i p, w))
    (hv : v = enterPool r i p (ctxOf w o.gk) (vdevOf w (ctxOf w o.gk)) 2 (dropOp k w)) :
    exec (.binderyWrite k) s = .next ((heldThreads v o).foldl (fun s t => setSt o.gk t .blocked (.pool r p) s) v) := by
  show execBinderyWrite k s = _
  simp [execBinderyWrite, hf, hk, hm, hc, hdue, hready, undoAtom, hv]
end

/-- Settles O37: each completion by what its operation finds. -/
theorem transfersComplete : Obligations.TransfersComplete := by
  refine ⟨?_, ?_, ?_, ?_, ?_⟩
  · intro s w k o d q n b tids hf hk hr ht hn hw hid
    rw [exec_queueReceive hf hk hr ht hn, finishQrecv_eq, hid, hw]
  · intro s w k n o d c x hf hk hid hc hr ht hx hfit hbad hw
    rw [exec_channelReceive hf hk hc hr ht, finishCrecv_value hx hfit hbad, hid, hw]
  · intro s w k n off cap o d c x hf hk hid hc hr ht hx
    rw [exec_channelReceive hf hk hc hr ht]
    refine ⟨fun hfit hbad hw => ?_, fun hq hlong => ?_⟩
    · rw [finishCrecv_block hx hfit hbad, hid, hw]
    · rw [finishCrecv_tooLong hx hq hlong, hid]
  · exact fun s w k o d m npc use hf hk hr => ⟨exec_messageDelivery_accepted hf hk hr, exec_messageDelivery_waits hf hk hr⟩
  · intro s w k o u use va npc data hf hk hm hc hdue
    exact ⟨exec_binderyWrite_ready hf hk hm hc hdue, fun a => exec_binderyWrite_denied hf hk hm hc hdue,
      fun r i p v hready hv => exec_binderyWrite_pool hf hk hm hc hdue hready hv⟩

/-! ## Copies (R142, R238) -/

section
variable {s : State} {k : Nat} {o : Op} {c : Copy} {x : Handle} (hf : InFlight s k o) (hk : o.k = .copy c) (hrun : enginesRun s o.gk = true)
include hf hk hrun

theorem exec_copyBeat (hover : copyOver s o c = false) (hready : engReady s c.wait = true) : exec (.copyBeat k) s = .next (copyStep o c s) := by
  show execCopyBeat k s = _
  simp [execCopyBeat, hf, hk, hrun, hover, hready]

/-- The end of a copy outside a fork set: its handle, its tap, and its team's end if it was the last to await it. -/
theorem exec_copyEnd (hover : copyOver s o c = true) (hx : getHandle s c.team c.h = .some x) (hset : c.set = .none) {w : State}
    (hw : w = copyEnded (recOf s o.gk) c x s) :
    exec (.copyEnd k) s = .next (settleTeam c.team (dropOp k (tapCopy (coreOf w o.gk) c.tmpl c.err c.drain (ctxOf w o.gk) w))) := by
  subst hw
  show execCopyEnd k s = _
  simp only [execCopyEnd, hf, hk, hrun, hover, hx, hset, copyEnded, Bool.and_self, if_true]
end

section
variable {s w v : State} {o : Op} {c : Copy} {ms : List Move} {x : Handle} (hb : nextBeat o c s = (ms, w))
  (hx : getHandle w c.team c.h = .some x) (hcut : cutOff w o.gk [((ms.headD ⟨0, .none, .none⟩).a, ms.length)] = false)
include hb hx hcut

/-- A fill's beat whose bytes are read reaches the stash. -/
theorem copyStep_fill {bs : List Byte} {bad : List Bool} (hd : c.drain = false)
    (hread : engRead (copyAsker w o.gk c.chan) o.gk .g (ms.headD ⟨0, .none, .none⟩).a ms.length w = (.ok bs bad, v))
    (hv : getHandle v c.team c.h = .some x) : copyStep o c s =
      setOp o.id (.copy { c with pos := c.pos + ms.length, wait := .none, sent := .none }) (fillBeat c.team x.off ms bs bad v) := by
  simp only [copyStep, hb, hx, hcut, hd, hread, fillArrives, hv, setCopy, Bool.false_eq_true, if_false]

/-- A drain's beat whose bytes are written advances. -/
theorem copyStep_drain (hd : c.drain = true)
    (hwrite : engWrite (copyAsker w o.gk c.chan) o.gk (ms.headD ⟨0, .none, .none⟩).a
      ((List.range ms.length).map fun i => drainByte w c.team x.off c.xp
        ((currentBytes o.gk (ms.headD ⟨0, .none, .none⟩).a ms.length w).getD i 0) (ms.getD i ⟨0, .none, .none⟩))
      (ms.map (drainBad w c.team x.off)) w = (.done, v)) :
    copyStep o c s = setOp o.id (.copy { c with pos := c.pos + ms.length, wait := .none }) v := by
  simp only [copyStep, hb, hx, hcut, hd, hwrite, setCopy, Bool.false_eq_true, if_false, if_true]
end

/-! ## Claims and forks (R156, R315) -/

section
variable {s w : State} {k : Nat} {o : Op} (hf : InFlight s k o)
include hf

section
variable {d : BitVec 6} {page left moved : Nat} (hk : o.k = .claim d page left moved .none)
include hk

/-- After the last page the claim gives the number moved. -/
theorem exec_claimPageMove_last (h0 : left = 0) (ha : aliveG s o.gk = true) :
    exec (.claimPageMove k) s = .next (writeDst o.gk 0 true d (BitVec.ofNat 64 moved) false (dropOp k s)) := by
  show execClaimPageMove k s = _
  have ha' : aliveG (dropOp k s) o.gk = true := ha
  simp only [execClaimPageMove, hf, hk, if_pos h0, ha', if_true]
  rfl

theorem exec_claimPageMove_moved (h0 : left ≠ 0)
    (hm : movePage (ctxOf s o.gk) (vdevOf s (ctxOf s o.gk)) (dieOf (coreOf s o.gk)) page s = .moved w) :
    exec (.claimPageMove k) s = .next (setOp k (.claim d (page + 1) (left - 1) (moved + 1) .none) w) := by
  show execClaimPageMove k s = _
  simp [execClaimPageMove, hf, hk, h0, hm]

theorem exec_claimPageMove_left (h0 : left ≠ 0)
    (hm : movePage (ctxOf s o.gk) (vdevOf s (ctxOf s o.gk)) (dieOf (coreOf s o.gk)) page s = .left w) :
    exec (.claimPageMove k) s = .next (setOp k (.claim d (page + 1) (left - 1) moved .none) w) := by
  show execClaimPageMove k s = _
  simp [execClaimPageMove, hf, hk, h0, hm]
end

/-- A fork that waited starts on its team's core. -/
theorem exec_forkStart {d : BitVec 6} {prog arg npc : Word} {cs : List Copy} {use : Uses} (hk : o.k = .fork d prog arg cs npc use)
    (hst : (getTeam s (teamOfG o.gk)).st = .resident) (hready : forkReady s o.gk prog cs = true) :
    exec (.forkStart k) s = .next (passGroup o.gk npc (writeDst o.gk 0 true d
      (BitVec.ofNat 64 (startFork o.gk o.ia prog arg cs (useAll o.gk 0 use (dropOp k s))).1) false
      (startFork o.gk o.ia prog arg cs (useAll o.gk 0 use (dropOp k s))).2)) := by
  show execForkStart k s = _
  simp only [execForkStart, hf, hk, hst, hready, and_self, if_true]
  rfl
end

/-- Settles O38: each agent's step by what it finds. -/
theorem copiesClaimsAndForksProceed : Obligations.CopiesClaimsAndForksProceed := by
  refine ⟨?_, ?_, ?_, ?_⟩
  · intro s w v k o c ms x hf hid hk hrun hover hready hb hx hcut
    rw [exec_copyBeat hf hk hrun hover hready, ← hid]
    exact ⟨fun bs bad hd hread hv => congrArg _ (copyStep_fill hb hx hcut hd hread hv),
      fun hd hwrite => congrArg _ (copyStep_drain hb hx hcut hd hwrite)⟩
  · exact fun s k o c x hf hk hrun hover hx hset w hw => exec_copyEnd hf hk hrun hover hx hset hw
  · exact fun s w k o d page left moved hf hk => ⟨exec_claimPageMove_last hf hk, exec_claimPageMove_moved hf hk,
      exec_claimPageMove_left hf hk⟩
  · rintro s k o d prog arg npc cs use hf hk hst hready r rfl
    exact exec_forkStart hf hk hst hready

end Sys2Proof.Machine
end

section
/-! PROOFS. Uniform arithmetic, comparisons and predicate operations (R149), uniform jumps and calls (R150, R151, R172). -/

namespace Sys2Proof.Machine

/-! ## What a ready group gets (R149) -/

/-- `I` is the shared uniform operation of form `F` on the function `f` of its two sources. -/
def ComputesUniTwo (F : BitVec 6 → Src → Src → Form) (I : BitVec 6 → Src → Src → Instr) (f : Word → Word → Word) : Prop :=
  ∀ d a b s, exec (I d a b) s = uniEff (F d a b) (b2 f) s

/-- The function may be said in another way. -/
theorem ComputesUniTwo.of_eq {F : BitVec 6 → Src → Src → Form} {I : BitVec 6 → Src → Src → Instr} {f g : Word → Word → Word}
    (hI : ComputesUniTwo F I f) (h : ∀ x y, f x y = g x y) : ComputesUniTwo F I g := by
  obtain rfl : f = g := funext₂ h
  exact hI

section
variable {s : State} {F : Form} (hr : UniReady s F)
include hr

/-- A ready group gets the value of a function of its two s registers. -/
theorem uni_result_b2 {a b : Src} {m n : Nat} {x y : Bool} (hF : F.flds = [⟨true, a.r, a.c, m, x⟩, ⟨true, b.r, b.c, n, y⟩])
    (f : Word → Word → Word) :
    ∃ t, uniEff F (b2 f) s = .next t ∧ UniDone s t F (.some (f (valS s a.r) (valS s b.r))) .none s.cur.npc :=
  uniEff_done hr (dst := .none) (by rw [hF]; rfl)

/-- The same of its one s register. -/
theorem uni_result_b1 {r : BitVec 6} {c : Ctl} {m : Nat} {x : Bool} (hF : F.flds = [⟨true, r, c, m, x⟩]) (f : Word → Word) :
    ∃ t, uniEff F (b1 f) s = .next t ∧ UniDone s t F (.some (f (valS s r))) .none s.cur.npc :=
  uniEff_done hr (dst := .none) (by rw [hF]; rfl)
end

/-- Each two-source form computes the result of the lane form of its name (R76, R78 to R80). -/
theorem computesUniTwo_uniTwo : ∀ e ∈ uniTwo, ComputesUniTwo (form2 true) e.1 e.2 := by
  simp only [uniTwo, List.forall_mem_cons, List.not_mem_nil, false_imp_iff, implies_true, and_true]
  exact ⟨.of_eq (fun _ _ _ _ => rfl) add_eq_ofInt,
    .of_eq (fun _ _ _ _ => rfl) sub_eq_ofInt,
    .of_eq (fun _ _ _ _ => rfl) mul_eq_ofInt,
    fun _ _ _ _ => rfl,
    .of_eq (fun _ _ _ _ => rfl) minI_eq_ite,
    .of_eq (fun _ _ _ _ => rfl) maxI_eq_ite,
    .of_eq (fun _ _ _ _ => rfl) minN_eq_ite,
    .of_eq (fun _ _ _ _ => rfl) maxN_eq_ite,
    fun _ _ _ _ => rfl, fun _ _ _ _ => rfl, fun _ _ _ _ => rfl, fun _ _ _ _ => rfl⟩

/-- Each shift computes the result of the lane shift of its name (R82). -/
theorem computesUniTwo_uniShift : ∀ e ∈ uniShift, ComputesUniTwo (formSh true) e.1 fun x c => e.2 x c.toNat := by
  simp only [uniShift, List.forall_mem_cons, List.not_mem_nil, false_imp_iff, implies_true, and_true]
  exact ⟨fun _ _ _ _ => rfl, fun _ _ _ _ => rfl, .of_eq (fun _ _ _ _ => rfl) sar64_eq⟩

/-! ## Comparisons and predicate operations (R87, R88) -/

/-- `I` is the shared uniform operation on a test of its two sources that decides the relation `R`. -/
def DecidesUni (I : BitVec 3 → Src → Src → Instr) (R : Word → Word → Prop) : Prop :=
  ∃ f : Word → Word → Bool, (∀ p a b s, exec (I p a b) s = uniEff (formP true p a b) (bp f) s) ∧ ∀ x y, f x y = true ↔ R x y

theorem decidesUni_uniCompares : ∀ e ∈ uniCompares, DecidesUni e.1 e.2 := by
  simp only [uniCompares, List.forall_mem_cons, List.not_mem_nil, false_imp_iff, implies_true, and_true]
  exact ⟨⟨_, fun _ _ _ _ => rfl, fun _ _ => beq_iff_eq⟩,
    ⟨_, fun _ _ _ _ => rfl, fun _ _ => bne_iff_ne⟩,
    ⟨_, fun _ _ _ _ => rfl, fun _ _ => BitVec.slt_iff_toInt_lt⟩,
    ⟨_, fun _ _ _ _ => rfl, fun _ _ => BitVec.sle_iff_toInt_le⟩,
    ⟨_, fun _ _ _ _ => rfl, fun _ _ => BitVec.ult_iff_lt⟩,
    ⟨_, fun _ _ _ _ => rfl, fun _ _ => BitVec.ule_iff_le⟩,
    ⟨_, fun _ _ _ _ => rfl, fun _ _ => bne_iff_ne⟩⟩

theorem getQ_arrive (s : State) (gk : Nat) (q : BitVec 3) : getQ (arrive s) gk q = getQ s gk q := by
  obtain ⟨-, hQ, -⟩ := thr_only (arrive_spec s).1
  exact hQ gk q

/-- A q predicate gets the value of a function of two, whatever the function. -/
theorem uni_bpp {s : State} {p q r : BitVec 3} {ps : List (BitVec 3)} (hr : UniReady s (formPP true p ps)) (f : Bool → Bool → Bool) :
    ∃ t, uniEff (formPP true p ps) (bpp true q r f) s = .next t ∧
      UniDone s t (formPP true p ps) .none (.some (f (getQ s s.cur.gk q).b (getQ s s.cur.gk r).b)) s.cur.npc :=
  uniEff_done hr (f := 0) (dst := .none) (by simp only [bpp, effP, getPQ, if_true, arrive_cur, getQ_arrive])

theorem exec_uniPredTwo : ∀ e ∈ uniPredTwo, ∀ p q r s,
    exec (e.1 p q r) s = uniEff (formPP true p [q, r]) (bpp true q r e.2) s := by
  simp only [uniPredTwo, List.forall_mem_cons, List.not_mem_nil, false_imp_iff, implies_true, and_true]
  exact ⟨fun _ _ _ _ => rfl, fun _ _ _ _ => rfl, fun _ _ _ _ => rfl, fun _ _ _ _ => rfl⟩

/-- Settles O19: each form is the shared uniform operation on the function, or the test, of the lane form of its name. -/
theorem uniformArithmeticResults : Obligations.UniformArithmeticResults := by
  refine ⟨⟨?two, ?shift, ?one, ?movc, ?merge⟩, ?compare, ?predTwo, ?pnot⟩
  case two =>
    intro e he s d a b hr
    rw [computesUniTwo_uniTwo e he]
    exact uni_result_b2 hr rfl e.2
  case shift =>
    intro e he s d a b hr
    rw [computesUniTwo_uniShift e he]
    exact uni_result_b2 hr rfl fun x c => e.2 x c.toNat
  case one =>
    exact fun s d a hr => ⟨uni_result_b1 hr rfl fun x => x, fun k => uni_result_b1 hr rfl fun x => x + k.signExtend 64⟩
  case movc => exact fun s d k hr => uniEff_done hr (body := fun _ _ _ => effV (k.signExtend 64)) (dst := .none) rfl
  case merge =>
    exact fun s d hr => ⟨fun k => uni_result_b1 hr rfl fun x => movcMid x k, fun k => uni_result_b1 hr rfl fun x => movcHigh x k⟩
  case compare =>
    intro e he s p a b hr
    obtain ⟨f, hexec, hf⟩ := decidesUni_uniCompares e he
    obtain ⟨t, ht, hd⟩ := uniEff_done hr (body := bp f) (f := 0) (dst := .none) rfl
    exact ⟨t, _, (hexec ..).trans ht, hd, hf _ _⟩
  case predTwo =>
    intro e he s p q r hr
    rw [exec_uniPredTwo e he]
    exact uni_bpp hr e.2
  case pnot => exact fun s p q hr => uni_bpp (r := q) hr fun x _ => !x

/-! ## Jumps and calls (R150, R151) -/

/-- What a branch of a group on its q predicate does, in the state in which its issuers have arrived. -/
theorem branchBody_arrive (s : State) (p : BitVec 3) (n : Bool) (x : BitVec 21) (link : Bool) (vals : List Word) :
    branchBody true p n x link vals 0 (arrive s) =
      .val (if (getQ s s.cur.gk p).b ≠ n ∧ link then .some s.cur.npc else .none) .none 0
        (if (getQ s s.cur.gk p).b ≠ n then .some (BitVec.ofInt 64 (s.cur.pc.toNat + 4 * x.toInt)) else .none) := by
  simp only [branchBody, getPQ, if_true, arrive_cur, getQ_arrive, branchTarget_eq, Bool.and_eq_true, bne_iff_ne]

/-- The commit of a uniform instruction leaves the groups' records alone. -/
theorem getGrp_of_uniDone {s t : State} {F : Form} {v : Option Word} {p : Option Bool} {pc : Word} (h : UniDone s t F v p pc) (g : Nat) :
    getGrp t g = getGrp s g := by
  rw [h.rest]
  rfl

/-- A register jump to an aligned target takes the group there, and its fetches too (R151). -/
theorem uniJump_done {s : State} {F : Form} {a : Src} (hr : UniReady s F) (hF : F.flds = [⟨true, a.r, a.c, 0, true⟩]) (link : Bool)
    (hal : (valS s a.r).toNat % 4 = 0) :
    ∃ t, uniJump F link s = .next (setGrp s.cur.gk { getGrp s s.cur.gk with utgt := .some (valS s a.r) } t) ∧
      UniDone s t F (if link then .some s.cur.npc else .none) .none (valS s a.r) := by
  have hbits : bits (valS s a.r) 1 0 = 0 := by simpa [bits] using hal
  have hbody : jumpBody link (F.flds.map fun f => (getS s s.cur.gk f.r).v) 0 (arrive s) =
      .val (if link then .some s.cur.npc else .none) .none 0 (.some (valS s a.r)) := by
    rw [hF]
    simp [jumpBody, hbits, arrive_cur]
  obtain ⟨t, ht, hd⟩ := uniEff_done hr hbody
  have hcommit : uniCommit F false (if link then .some s.cur.npc else .none) .none (.some (valS s a.r)) (arrive s) = t := by
    rw [uniEff, uni_ready hr, hbody] at ht
    simpa using ht
  refine ⟨t, ?_, hd⟩
  rw [uniJump, uni_ready hr, hbody]
  simp only [hcommit, arrive_cur, getGrp_of_uniDone hd]

/-- Settles O20: where each body sends the group. -/
theorem uniformControlFlow : Obligations.UniformControlFlow := by
  refine ⟨?ujmp, ?ucall, ?jump, ?ucallr, ?unop⟩
  case ujmp =>
    intro s p n x hr
    obtain ⟨t, ht, hd⟩ := uniEff_done hr (branchBody_arrive s p n x false _)
    refine ⟨t, ht, ?_⟩
    by_cases htaken : (getQ s s.cur.gk p).b ≠ n <;> simpa [htaken] using hd
  case ucall =>
    intro s p n x hr
    obtain ⟨t, ht, hd⟩ := uniEff_done hr (branchBody_arrive s p n x true _)
    refine ⟨t, ht, ?_⟩
    by_cases htaken : (getQ s s.cur.gk p).b ≠ n <;> simpa [htaken] using hd
  case jump =>
    intro I hI s a hr hal
    have hexec : exec (I a) s = uniJump { uni := true, flds := [fA true a true] } false s := by
      simp only [List.mem_cons, List.not_mem_nil, or_false] at hI
      rcases hI with rfl | rfl <;> rfl
    rw [hexec]
    exact uniJump_done hr rfl false hal
  case ucallr => exact fun s d a hr hal => uniJump_done hr rfl true hal
  case unop =>
    intro s hr
    refine ⟨_, ?_, uniCommit_done hr .none⟩
    rw [uniCommit_bare, show exec .unop s = uni noForm (fun _ _ s => passGroup s.cur.gk s.cur.npc s) s from rfl,
      uni_ready (F := noForm) hr]

end Sys2Proof.Machine
end

section
/-! PROOFS. Taking a trap (R145, R360 to R363), `trap` and `rett` (R167, R168). -/

namespace Sys2Proof.Machine

/-! ## The end of a grid (R363) -/

theorem getGrid_setGrid_status {s : State} {g : Nat} {x : Grid} (h : x.status = (getGrid s g).status) (k : Nat) :
    (getGrid (setGrid g x s) k).status = (getGrid s k).status := by
  rw [getGrid_setGrid]
  split
  · next e => rw [h, e]
  · rfl

/-- A report to the launcher leaves the statuses of the grids. -/
theorem reportEnd_status (g st : Nat) (s : State) (k : Nat) : (getGrid (reportEnd g st s) k).status = (getGrid s k).status := by
  unfold reportEnd
  extract_lets _ u x w
  have hu : ∀ j, (getGrid u j).status = (getGrid s j).status := getGrid_setGrid_status rfl
  have hw : (getGrid w k).status = (getGrid s k).status := by
    simp only [w]
    split
    · exact (getGrid_setGrid_status (by rfl) k).trans (hu k)
    · exact hu k
  split <;> exact hw

theorem settleReport_status (g : Nat) (s : State) (k : Nat) : (getGrid (settleReport g s) k).status = (getGrid s k).status := by
  unfold settleReport
  split
  · rfl
  · split
    · rfl
    · rw [reportEnd_status]
      obtain ⟨_, _, _, _, _, _, _, he, -⟩ :=
        cacheOnly_writeBackAll (s.mm.l1.filter fun l => l.ctx == (getGrid s g).ctx && l.due != 0) s
      rw [he]
      rfl

/-- A grid that is still running ends with the status. -/
theorem endGrid_status {g : Nat} {s : State} (h : (getGrid s g).status = .none) (st : Nat) :
    (getGrid (endGrid g st s) g).status = .some st := by
  simp [endGrid, h, settleReport_status]

/-! ## Threads that are all updated alike -/

/-- What one update of every thread of a list does to the threads, if doing it twice is doing it once. -/
theorem setThr_fold {f : Thr → Thr} (hf : ∀ x, f (f x) = f x) (gk : Nat) (ids : List Nat) (s : State) :
    (∃ h, ids.foldl (fun s i => setThr (threadKey gk i) (f (getThr s (threadKey gk i))) s) s = withThr h s) ∧
    ∀ k, getThr (ids.foldl (fun s i => setThr (threadKey gk i) (f (getThr s (threadKey gk i))) s) s) k =
      if ∃ i ∈ ids, k = threadKey gk i then f (getThr s k) else getThr s k := by
  induction ids generalizing s with
  | nil => exact ⟨⟨s.thr, rfl⟩, fun k => by simp⟩
  | cons i ids ih =>
    obtain ⟨⟨h, hh⟩, hk⟩ := ih (setThr (threadKey gk i) (f (getThr s (threadKey gk i))) s)
    refine ⟨⟨h, hh⟩, fun k => ?_⟩
    rw [List.foldl_cons, hk k, getThr_setThr]
    by_cases h1 : k = threadKey gk i
    · subst h1
      simp [hf]
    · simp [h1]

/-- Giving up fetch lanes leaves everything but the lanes (R209). -/
theorem dropLanes_fold (gk : Nat) (ids : List Nat) (s : State) :
    ∃ (l : Tab (List Lane)) (q : Tab (List Nat)), ids.foldl (fun s i => dropLane (threadKey gk i) s) s = { s with sc := { s.sc with lanes := l, laneq := q } } := by
  refine List.foldlRecOn ids _ (motive := fun v => ∃ (l : Tab (List Lane)) (q : Tab (List Nat)), v = { s with sc := { s.sc with lanes := l, laneq := q } })
    ⟨s.sc.lanes, s.sc.laneq, rfl⟩ fun v hv i _ => ?_
  obtain ⟨l, q, rfl⟩ := hv
  exact ⟨_, _, rfl⟩

/-- Updating a thread and giving up its lane, thread by thread, is updating all of them and then giving up their lanes. -/
theorem setThr_dropLane_fold (f : Thr → Thr) (gk : Nat) (ids : List Nat) (s : State) :
    ids.foldl (fun s i => dropLane (threadKey gk i) (setThr (threadKey gk i) (f (getThr s (threadKey gk i))) s)) s =
      ids.foldl (fun s i => dropLane (threadKey gk i) s)
        (ids.foldl (fun s i => setThr (threadKey gk i) (f (getThr s (threadKey gk i))) s) s) := by
  induction ids generalizing s with
  | nil => rfl
  | cons i ids ih =>
    simp only [List.foldl_cons]
    rw [ih]
    congr 1
    exact List.foldl_hom (dropLane (threadKey gk i)) (g₁ := fun s j => setThr (threadKey gk j) (f (getThr s (threadKey gk j))) s)
      fun _ _ => rfl

/-! ## Entering the handler (R145, R360) -/

/-- A thread that goes on in the handler at `h`. -/
def inHandlerAt (h : Word) (x : Thr) : Thr := { x with pc := h, sys := true, st := .ready, wait := .none }

/-- The group's record once the trap registers hold `tr` and the handler set is `tids` (R362). -/
def trapNoted (tids : List Nat) (group : Bool) (tr : TrapRec) (x : Grp) : Grp :=
  { x with tKind := trapKind tr group, tPc := tr.pc, tAddr := tr.addr, tInfo := tr.info
           tTid := if group then 0xFFFF else word (tids.headD 0), hset := tids }

theorem enterHandler_eq (gk : Nat) (tids : List Nat) (group : Bool) (tr : TrapRec) (h : Word) (s : State) :
    enterHandler gk tids group tr h s = tids.foldl (fun s i => dropLane (threadKey gk i) s)
      (tids.foldl (fun s i => setThr (threadKey gk i) (inHandlerAt h (getThr s (threadKey gk i))) s)
        (setGrp gk (trapNoted tids group tr (getGrp s gk)) s)) :=
  setThr_dropLane_fold (inHandlerAt h) gk tids _

/-- TRAP_KIND holds the code and the bits of R362. -/
theorem trapKind_eq (tr : TrapRec) (group : Bool) : trapKind tr group = BitVec.ofNat 64 (trapCode tr.name + (if group then 256 else 0) +
    (if tr.fetch then 512 else 0) + 1024 * spaceNum tr.space + (if tr.wr then 4096 else 0)) := by
  cases group <;> cases hf : tr.fetch <;> cases hw : tr.wr <;> simp [trapKind, word, bitN, hf, hw, Nat.mul_comm]

theorem enterHandler_taken (gk : Nat) (tids : List Nat) (group : Bool) (tr : TrapRec) (s : State) :
    TrapTaken s (enterHandler gk tids group tr (blockOf s (ctxOf s gk)).handler s) gk tids group tr := by
  rw [enterHandler_eq]
  obtain ⟨⟨h, hset⟩, hthr⟩ := setThr_fold (f := inHandlerAt (blockOf s (ctxOf s gk)).handler) (fun _ => rfl) gk tids
    (setGrp gk (trapNoted tids group tr (getGrp s gk)) s)
  generalize tids.foldl (fun s i => setThr (threadKey gk i) (inHandlerAt _ (getThr s (threadKey gk i))) s) _ = u at hset hthr ⊢
  obtain ⟨l, q, hdrop⟩ := dropLanes_fold gk tids u
  generalize tids.foldl (fun s i => dropLane (threadKey gk i) s) u = t at hdrop ⊢
  have hgrp : ∀ g, getGrp t g = if g = gk then trapNoted tids group tr (getGrp s gk) else getGrp s g := by
    intro g
    rw [← getGrp_setGrp, hdrop, hset]
    rfl
  have hget : ∀ k, getThr t k = if ∃ i ∈ tids, k = threadKey gk i then inHandlerAt (blockOf s (ctxOf s gk)).handler (getThr s k)
      else getThr s k := by
    intro k
    rw [← getThr_setGrp s gk (trapNoted tids group tr (getGrp s gk)), ← hthr, hdrop]
    rfl
  refine ⟨?record, fun i hi => ?threads, fun k hk => ?otherThreads, fun g hg => ?otherGroups, ?rest⟩
  case record =>
    rw [hgrp, if_pos rfl, trapNoted, trapKind_eq]
    rfl
  case threads =>
    rw [hget, if_pos ⟨i, hi, rfl⟩]
    rfl
  case otherThreads =>
    by_contra hn
    exact hk (by rw [hget, if_neg hn])
  case otherGroups => rw [hgrp, if_neg hg]
  case rest =>
    rw [hdrop, hset]
    rfl

/-! ## What taking a trap comes to -/

section
variable {s : State} {gk : Nat} {tids : List Nat} (group : Bool) (tr : TrapRec)

theorem takeTrap_sys (h : ∃ i ∈ tids, (getThr s (threadKey gk i)).sys = true) :
    takeTrap gk tids group tr s = endGrid (gridOfG gk) (trapCode tr.name + 0x100) s := by
  rw [takeTrap, if_pos (List.any_eq_true.2 h)]

section
variable (huser : ∀ i ∈ tids, (getThr s (threadKey gk i)).sys = false)
include huser

theorem takeTrap_user : takeTrap gk tids group tr s =
    if (getGrp s gk).hset ≠ [] then tids.foldl (fun s i => setSt gk i .waitOpnd .handleTrap s)
      (setGrp gk { getGrp s gk with held := (getGrp s gk).held ++ [⟨tids, group, tr⟩] } s)
    else if (blockOf s (ctxOf s gk)).handler = 0 then endGrid (gridOfG gk) (trapCode tr.name) s
    else enterHandler gk tids group tr (blockOf s (ctxOf s gk)).handler s := by
  rw [takeTrap, if_neg (by simpa using huser)]

/-- Behind another handler set the trap is held, and its threads wait where they are (R145). -/
theorem takeTrap_held (hset : (getGrp s gk).hset ≠ []) :
    (getGrp (takeTrap gk tids group tr s) gk).held = (getGrp s gk).held ++ [⟨tids, group, tr⟩] ∧
    ∀ i ∈ tids, (getThr (takeTrap gk tids group tr s) (threadKey gk i)).wait = .handleTrap ∧
      (getThr (takeTrap gk tids group tr s) (threadKey gk i)).pc = (getThr s (threadKey gk i)).pc := by
  rw [takeTrap_user group tr huser, if_pos hset]
  obtain ⟨⟨h, he⟩, hthr⟩ := setThr_fold (f := fun x => { x with st := .waitOpnd, wait := .handleTrap }) (fun _ => rfl) gk tids
    (setGrp gk { getGrp s gk with held := (getGrp s gk).held ++ [⟨tids, group, tr⟩] } s)
  refine ⟨?_, fun i hi => ?_⟩
  · simp only [setSt]
    rw [he]
    simp [getGrp, setGrp]
  · simp only [setSt, hthr, getThr_setGrp]
    rw [if_pos ⟨i, hi, rfl⟩]
    exact ⟨rfl, rfl⟩
end

theorem takeTrap_taken (h : CanTrap s gk tids) : TrapTaken s (takeTrap gk tids group tr s) gk tids group tr := by
  rw [takeTrap_user group tr h.user, if_neg (not_not.2 h.idle), if_neg h.handler]
  exact enterHandler_taken gk tids group tr s
end

/-- Settles O21: the four things that a trap can come to, and the codes of R361. -/
theorem takingATrap : Obligations.TakingATrap := by
  refine ⟨fun s gk tids group tr _ _ => ⟨takeTrap_taken group tr, takeTrap_held group tr, ?noHandler, ?inSystem⟩, rfl, fun n => ?codes⟩
  case noHandler =>
    intro huser hset hh hrun
    rw [takeTrap_user group tr huser, if_neg (not_not.2 hset), if_pos hh]
    exact endGrid_status hrun _
  case inSystem =>
    intro hsys hrun
    rw [takeTrap_sys group tr hsys, Nat.add_comm]
    exact endGrid_status hrun _
  case codes => cases n <;> decide

end Sys2Proof.Machine
end

section
/-! PROOFS. `trap` and `rett` (R167, R168), and PRIVILEGE (R148). -/

namespace Sys2Proof.Machine

/-! ## Traps of a group that has gathered -/

/-- What arriving leaves of a group, of its handler and of who runs in system mode. -/
theorem trapView_arrive (s : State) : getGrp (arrive s) = getGrp s ∧ blockOf (arrive s) = blockOf s ∧ ctxOf (arrive s) = ctxOf s := by
  obtain ⟨h, he⟩ := arrive_withThr s
  rw [he]
  exact ⟨rfl, rfl, rfl⟩

theorem CanTrap.arrive {s : State} {gk : Nat} {tids : List Nat} (h : CanTrap s gk tids) : CanTrap (arrive s) gk tids := by
  obtain ⟨hgrp, hblk, hctx⟩ := trapView_arrive s
  exact ⟨hgrp ▸ h.idle, by rw [hblk, hctx]; exact h.handler, fun i hi => (sys_arrive s _).trans (h.user i hi), h.nonempty⟩

/-- Arriving changes a thread's waiting only, and only an issuer's. -/
theorem getThr_arrive (s : State) (k : Nat) : ∃ st w, getThr (arrive s) k = { getThr s k with st := st, wait := w } ∧
    ((∀ i ∈ s.cur.tids, k ≠ tkOf s i) → getThr (arrive s) k = getThr s k) := by
  obtain ⟨w, hw⟩ := (arrive_spec s).2 k
  by_cases h : ∃ i ∈ s.cur.tids, k = tkOf s i
  · rw [if_pos h] at hw
    obtain ⟨i, hi, e⟩ := h
    exact ⟨_, _, hw, fun hn => absurd e (hn i hi)⟩
  · rw [if_neg h] at hw
    exact ⟨(getThr s k).st, (getThr s k).wait, hw, fun _ => hw⟩

/-- A group that traps once its issuers have arrived has trapped from where it was. -/
theorem TrapTaken.of_arrive {s t : State} {group : Bool} {tr : TrapRec} (hg : Gathered s)
    (h : TrapTaken (arrive s) t s.cur.gk (domain s s.cur.gk) group tr) : TrapTaken s t s.cur.gk (domain s s.cur.gk) group tr := by
  obtain ⟨hgrp, hblk, hctx⟩ := trapView_arrive s
  refine ⟨?record, fun i hi => ?threads, fun k hk => ?otherThreads, fun g hg => ?otherGroups, ?rest⟩
  case record => rw [h.record, hgrp]
  case threads =>
    obtain ⟨st, w, he, -⟩ := getThr_arrive s (threadKey s.cur.gk i)
    rw [h.threads i hi, hblk, hctx, he]
  case otherThreads =>
    by_contra hn
    obtain ⟨_, _, -, hkeep⟩ := getThr_arrive s k
    have harr := hkeep fun i hi e => hn ⟨i, (hg.issuers i hi).1, e⟩
    exact hn (h.otherThreads k (by rwa [harr]))
  case otherGroups => rw [h.otherGroups g hg, hgrp]
  case rest =>
    obtain ⟨x, he⟩ := arrive_withThr s
    rw [h.rest, he]

/-- A gathered group that can trap takes the trap of its instruction. -/
theorem trapGroup_arrive_taken {s : State} (hg : Gathered s) (hc : CanTrap s s.cur.gk (domain s s.cur.gk)) (tr : TrapRec) :
    TrapTaken s (trapGroup tr (arrive s)) s.cur.gk (domain s s.cur.gk) true tr := by
  obtain ⟨-, hdom⟩ := hg.arrive
  refine .of_arrive hg ?_
  rw [trapGroup, arrive_cur, hdom]
  exact takeTrap_taken true tr hc.arrive

/-! ## User mode and system mode -/

theorem userOf_of_canTrap {s : State} (h : CanTrap s s.cur.gk (domain s s.cur.gk)) : userOf s s.cur.gk 0 true = true := by
  simpa [userOf] using h.user

theorem userOf_of_inSystem {s : State} (h : InSystem s) : userOf s s.cur.gk 0 true = false := by
  simpa [userOf, InSystem] using h

/-- A ready group in system mode goes on to the effect of a privileged instruction. -/
theorem uniP_system {s : State} {F : Form} (h : UniReady s F) (hs : InSystem s) (priv : Bool) (k : List Word → Bool → State → State) :
    uniP priv F k s = .next (k (F.flds.map fun f => (getS s s.cur.gk f.r).v) false (arrive s)) :=
  uniP_ready h priv (fun _ => by rw [userOf_arrive h.toGathered, userOf_of_inSystem hs]) k

/-- A ready group in user mode takes PRIVILEGE at a privileged instruction (R148). -/
theorem uniP_user {s : State} {F : Form} (h : UniReady s F) (hc : CanTrap s s.cur.gk (domain s s.cur.gk))
    (k : List Word → Bool → State → State) : ∃ t, uniP true F k s = .next t ∧ TrapTaken s t s.cur.gk (domain s s.cur.gk) true
      { name := .privilege, pc := s.cur.pc, info := s.cur.word.setWidth 64 } := by
  obtain ⟨-, -, hcur, hrec⟩ := thr_only (arrive_spec s).1
  have hlim : overLimit (arrive s) s.cur.gk F = false := by
    refine overLimit_false (fun f hf => ?_) (fun d hdv => ?_) h.limitM
    · rw [hrec, h.fields f hf]
      exact h.limit f hf
    · rw [hrec, h.uniform]
      exact h.limitD d hdv
  have huser : userOf (arrive s) s.cur.gk 0 true = true := (userOf_arrive h.toGathered).trans (userOf_of_canTrap hc)
  refine ⟨_, ?_, trapGroup_arrive_taken h.toGathered hc _⟩
  simp only [uniP, converge, h.toGathered.arrive.1, hcur, hlim, huser, illegalHere, Bool.and_self, Bool.false_eq_true, if_true, if_false]
  rfl

/-! ## `rett` (R168) -/

/-- A thread that goes on at `pc` in user mode. -/
def backAt (pc : Word) (x : Thr) : Thr := { x with pc := pc, sys := false, st := .ready, wait := .none }

/-- With no trap held, the handler set goes on and nothing else happens. -/
theorem returnFromTrap_eq {s : State} {gk : Nat} (h : (getGrp s gk).held = []) : returnFromTrap gk s =
    (domain s gk).foldl (fun v i => setThr (threadKey gk i) (backAt (getGrp s gk).tPc (getThr v (threadKey gk i))) v)
      (setGrp gk { getGrp s gk with hset := [] } s) := by
  obtain ⟨⟨x, he⟩, -⟩ := setThr_fold (f := backAt (getGrp s gk).tPc) (fun _ => rfl) gk (domain s gk)
    (setGrp gk { getGrp s gk with hset := [] } s)
  have hheld : (getGrp ((domain s gk).foldl (fun v i => setThr (threadKey gk i) (backAt (getGrp s gk).tPc (getThr v (threadKey gk i))) v)
      (setGrp gk { getGrp s gk with hset := [] } s)) gk).held = [] := by
    rw [he]
    simpa [getGrp, setGrp] using h
  show enterHeld gk _ = _
  rw [enterHeld]
  split
  · rfl
  · next hc => exact absurd (hheld.symm.trans hc) (by simp)

/-- What a return of a gathered group's handler set has done. -/
theorem returnFromTrap_arrive {s t : State} (hg : Gathered s) (hheld : (getGrp s s.cur.gk).held = [])
    (ht : t = returnFromTrap s.cur.gk (arrive s)) :
    getGrp t s.cur.gk = { getGrp s s.cur.gk with hset := [] } ∧
    (∀ i ∈ domain s s.cur.gk, getThr t (tkOf s i) = backAt (getGrp s s.cur.gk).tPc (getThr s (tkOf s i))) ∧
    (∀ k, getThr t k ≠ getThr s k → ∃ i ∈ domain s s.cur.gk, k = tkOf s i) ∧
    (∀ g, g ≠ s.cur.gk → getGrp t g = getGrp s g) ∧ t = { s with grp := t.grp, thr := t.thr } := by
  obtain ⟨hgrp, -, -⟩ := trapView_arrive s
  obtain ⟨-, hdom⟩ := hg.arrive
  obtain ⟨⟨x, he⟩, hthr⟩ := setThr_fold (f := backAt (getGrp s s.cur.gk).tPc) (fun _ => rfl) s.cur.gk (domain s s.cur.gk)
    (setGrp s.cur.gk { getGrp s s.cur.gk with hset := [] } (arrive s))
  rw [returnFromTrap_eq (by rw [hgrp, hheld]), hgrp, hdom] at ht
  rw [← ht] at he hthr
  have hget : ∀ g, getGrp t g = if g = s.cur.gk then { getGrp s s.cur.gk with hset := [] } else getGrp s g := by
    intro g
    rw [he, ← hgrp, ← getGrp_setGrp]
    rfl
  refine ⟨by rw [hget, if_pos rfl], fun i hi => ?_, fun k hk => ?_, fun g hg => by rw [hget, if_neg hg], ?_⟩
  · obtain ⟨st, w, harr, -⟩ := getThr_arrive s (tkOf s i)
    rw [hthr, if_pos ⟨i, hi, rfl⟩, getThr_setGrp, harr]
    rfl
  · by_contra hn
    obtain ⟨_, _, -, hkeep⟩ := getThr_arrive s k
    rw [hthr, if_neg hn, getThr_setGrp] at hk
    exact hk (hkeep fun i hi e => hn ⟨i, (hg.issuers i hi).1, e⟩)
  · obtain ⟨y, ha⟩ := arrive_withThr s
    rw [he, ha]
    rfl

/-- Settles O22: the trap of the group, the return of the handler set, and PRIVILEGE. -/
theorem trapAndReturn : Obligations.TrapAndReturn := by
  refine ⟨fun s c hr hc => ?trap, fun s hr hs _ hheld => ?system, fun s hr hc => ?user⟩
  case trap =>
    have hx : exec (.trap c) s = .next (trapGroup { name := .userTrap, pc := s.cur.npc, info := c.setWidth 64 } (arrive s)) := by
      rw [show exec (.trap c) s = execTrap c s from rfl, execTrap, uni_ready (F := noForm) hr, arrive_cur]
    exact ⟨_, hx, trapGroup_arrive_taken hr.toGathered hc _⟩
  case system =>
    have hx : exec .rett s = .next (returnFromTrap s.cur.gk (arrive s)) := by
      rw [show exec .rett s = execRett s from rfl, execRett, uniP_system (F := noForm) hr hs, arrive_cur]
    exact ⟨_, hx, returnFromTrap_arrive hr.toGathered hheld rfl⟩
  case user => exact uniP_user (F := noForm) hr hc fun _ _ s => returnFromTrap s.cur.gk s

end Sys2Proof.Machine
end

section
/-! PROOFS. The system registers (R169 to R171). -/

namespace Sys2Proof.Machine

/-! ## The commit of a uniform instruction, from any state -/

/-- Whatever its group has done before, a uniform commit does what `UniDone` says, and leaves the q predicates where it names none. -/
theorem uniCommit_from (u : State) {F : Form} (hu : F.uni = true) (hk : ∀ f ∈ F.flds, f.uni = true) (v : Option Word) (p : Option Bool) :
    UniDone u (uniCommit F false v p .none u) F v p u.cur.npc := by
  obtain ⟨⟨w, q, o, hc⟩, hcS, hcQ⟩ := commit_uni u.cur.gk F v p u hu hk
  rw [uniCommit, Option.getD_none]
  generalize commit u.cur.gk 0 F false v p 0 u = c at hc hcS hcQ ⊢
  obtain ⟨⟨h, hp⟩, hthr⟩ := passGroup_spec u.cur.gk u.cur.npc c
  generalize passGroup u.cur.gk u.cur.npc c = t at hp hthr ⊢
  have hS : ∀ g r, getS t g r = getS c g r := fun g r => by rw [hp]; rfl
  have hQ : ∀ g r, getQ t g r = getQ c g r := fun g r => by rw [hp]; rfl
  have hT : ∀ k, getThr c k = getThr u k := fun k => by rw [hc]; rfl
  have hdom : domain c u.cur.gk = domain u u.cur.gk := by rw [hc]; rfl
  rw [hdom] at hthr
  refine ⟨?dest, ?killed, ?others, ?destP, ?othersP, ?next, ?otherThreads, ?rest⟩
  case dest =>
    intro d x hd hx h0
    rw [hS, hcS, if_pos ⟨rfl, hd, h0, by simp [hx]⟩, hx]
    rfl
  case killed =>
    intro f hf hlast h0 hnv
    rw [hS, hcS, if_neg fun ⟨_, hd, _, hx⟩ => by simp [hnv hd] at hx, if_pos ⟨rfl, h0, (mem_kills_s hk f.r).2 ⟨f, hf, hlast, rfl⟩⟩]
  case others =>
    intro g r hne
    rw [hS, hcS] at hne
    split at hne
    · next h => exact ⟨h.1, h.2.2.1, .inl ⟨h.2.1, fun hn => by simp [hn] at h⟩⟩
    · split at hne
      · next h => exact ⟨h.1, h.2.1, .inr ((mem_kills_s hk r).1 h.2.2)⟩
      · exact absurd rfl hne
  case destP =>
    intro z b hd hb h0
    rw [hQ, hcQ, if_pos ⟨rfl, hd, h0, by simp [hb]⟩, hb]
    rfl
  case othersP =>
    intro g z hne
    rw [hQ, hcQ] at hne
    split at hne
    · next h => exact ⟨h.1, h.2.1, h.2.2.1, fun hn => by simp [hn] at h⟩
    · exact absurd rfl hne
  case next =>
    intro i hi
    rw [hthr, if_pos ⟨i, hi, rfl⟩, hT]
  case otherThreads =>
    intro k hne
    by_contra hn
    exact hne (by rw [hthr, if_neg hn, hT])
  case rest => rw [hp, hc]

/-- A commit without results leaves the q predicates, too. -/
theorem uniCommit_none_rest (u : State) {F : Form} (hd : F.dv = .none) (hp : F.dp = .none) (hk : ∀ f ∈ F.flds, f.uni = true) :
    ∃ w h o, uniCommit F false .none .none .none u = { u with sreg := w, thr := h, sc := { u.sc with opc := o } } := by
  obtain ⟨⟨w, o, hc⟩, -⟩ := commitStore_s 0 F u hk
  obtain ⟨⟨h, hpass⟩, -⟩ := passGroup_spec u.cur.gk u.cur.npc (commitStore 0 F u)
  exact ⟨w, h, o, by rw [uniCommit_none hd hp, hpass, hc]⟩

/-! ## The table of system registers (R170) -/

/-- A statement about every row, row by row. -/
theorem forall_sysRows {P : SysRow → Prop} : (∀ e ∈ sysRows, P e) ↔
    (P ⟨.fpx, fun g => g.fpx.setWidth 64, true, true, true⟩ ∧ P ⟨.atomSize, fun _ => 0x3356, true, false, false⟩ ∧
      P ⟨.gang, fun g => g.gang, true, false, true⟩ ∧ P ⟨.trapKind, fun g => g.tKind, false, false, false⟩ ∧
      P ⟨.trapPc, fun g => g.tPc, false, false, true⟩ ∧ P ⟨.trapAddr, fun g => g.tAddr, false, false, false⟩ ∧
      P ⟨.trapInfo, fun g => g.tInfo, false, false, false⟩ ∧ P ⟨.trapTid, fun g => g.tTid, false, false, false⟩ ∧
      P ⟨.trapTmp0, fun g => g.tTmp0, false, false, true⟩ ∧ P ⟨.trapTmp1, fun g => g.tTmp1, false, false, true⟩ ∧
      P ⟨.trapTmp2, fun g => g.tTmp2, false, false, true⟩) ∧
    ∀ k < 8, P ⟨.amax (BitVec.ofNat 3 k), fun g => tget 0 k g.amax, true, true, true⟩ := by
  simp only [sysRows, List.forall_mem_append, List.forall_mem_cons, List.not_mem_nil, false_imp_iff, implies_true, and_true,
    List.forall_mem_map, List.mem_range]

theorem toNat_amaxIndex {k : Nat} (hk : k < 8) : (BitVec.ofNat 3 k).toNat = k := by
  rw [BitVec.toNat_ofNat]
  exact Nat.mod_eq_of_lt hk

/-- The model reads each row's register as the row says. -/
theorem readSys_row : ∀ e ∈ sysRows, ∀ (s : State) (gk : Nat), readSys s gk e.reg = e.value (getGrp s gk) := by
  rw [forall_sysRows]
  refine ⟨⟨?_, ?_, ?_, ?_, ?_, ?_, ?_, ?_, ?_, ?_, ?_⟩, fun k hk s gk => ?_⟩
  case refine_12 => simp only [readSys, toNat_amaxIndex hk]
  all_goals exact fun _ _ => rfl

theorem sysOnly_row : ∀ e ∈ sysRows, sysOnly e.reg = !e.user := by
  rw [forall_sysRows]
  exact ⟨⟨rfl, rfl, rfl, rfl, rfl, rfl, rfl, rfl, rfl, rfl, rfl⟩, fun _ _ => rfl⟩

/-! ## Writing a system register (R169) -/

section
variable (gk : Nat) (r : SysReg) (x : Word) (s : State)

/-- A write changes the group's record only. -/
theorem writeSys_grp : (∃ g, writeSys gk r x s = { s with grp := g }) ∧ ∀ k, k ≠ gk → getGrp (writeSys gk r x s) k = getGrp s k := by
  have hset : ∀ g, (∃ y, setGrp gk g s = { s with grp := y }) ∧ ∀ k, k ≠ gk → getGrp (setGrp gk g s) k = getGrp s k :=
    fun g => ⟨⟨_, rfl⟩, fun k hk => by rw [getGrp_setGrp, if_neg hk]⟩
  have hsame : (∃ y, s = { s with grp := y }) ∧ ∀ k, k ≠ gk → getGrp s k = getGrp s k := ⟨⟨_, rfl⟩, fun _ _ => rfl⟩
  cases r with
  | fpx | amax _ | gang | trapPc | trapTmp0 | trapTmp1 | trapTmp2 => exact hset _
  | atomSize | trapKind | trapAddr | trapInfo | trapTid => exact hsame

/-- A write leaves every other system register of the group as it reads. -/
theorem readSys_writeSys_ne {q : SysReg} (h : q ≠ r) : readSys (writeSys gk r x s) gk q = readSys s gk q := by
  cases r with
  | atomSize | trapKind | trapAddr | trapInfo | trapTid => rfl
  | fpx | gang | trapPc | trapTmp0 | trapTmp1 | trapTmp2 => cases q <;> simp_all [writeSys, readSys]
  | amax k =>
    cases q with
    | amax j =>
      have hne : j.toNat ≠ k.toNat := fun e => h (congrArg SysReg.amax (BitVec.eq_of_toNat_eq e))
      simp only [writeSys, readSys, getGrp_setGrp_same, tget_tset_ne _ _ hne]
    | _ => simp only [writeSys, readSys, getGrp_setGrp_same]
end

/-- The rows of the other registers keep their values. -/
theorem value_writeSys_ne {e f : SysRow} (hf : f ∈ sysRows) (h : f.reg ≠ e.reg) (gk : Nat) (x : Word) (s : State) :
    f.value (getGrp (writeSys gk e.reg x s) gk) = f.value (getGrp s gk) := by
  rw [← readSys_row f hf, ← readSys_row f hf, readSys_writeSys_ne gk e.reg x s h]

/-- The lower bits of a word, alone. -/
theorem setWidth_setWidth_eq_and (x : Word) {n : Nat} (hn : n ≤ 64) : (x.setWidth n).setWidth 64 = x &&& BitVec.ofNat 64 (2 ^ n - 1) := by
  have hpow : 2 ^ n ≤ 2 ^ 64 := Nat.pow_le_pow_right (by decide) hn
  apply BitVec.eq_of_toNat_eq
  rw [BitVec.toNat_and, BitVec.toNat_ofNat, Nat.mod_eq_of_lt (by omega), Nat.and_two_pow_sub_one_eq_mod, BitVec.toNat_setWidth,
    BitVec.toNat_setWidth]
  exact Nat.mod_eq_of_lt (by have := Nat.mod_lt x.toNat (Nat.two_pow_pos n); omega)

theorem and_full (x : Word) : x &&& 0xFFFFFFFFFFFFFFFF = x := BitVec.and_allOnes

/-- A write gives a register with write access what its bits hold of the word (R170). -/
theorem value_writeSys : ∀ e ∈ sysRows, e.writes = true → ∀ (gk : Nat) (x : Word) (s : State),
    e.value (getGrp (writeSys gk e.reg x s) gk) = x &&& (if e.reg = .fpx then 0x1F else if e.reg = .gang then 0x003FFFFFFFFFFFFF
      else 0xFFFFFFFFFFFFFFFF) := by
  rw [forall_sysRows]
  refine ⟨⟨?fpx, ?size, ?gang, ?kind, ?pc, ?addr, ?info, ?tid, ?tmp0, ?tmp1, ?tmp2⟩, ?amax⟩
  case fpx =>
    intro _ gk x s
    simp only [writeSys, getGrp_setGrp_same, if_true]
    exact setWidth_setWidth_eq_and x (by decide)
  case gang =>
    intro _ gk x s
    simp only [writeSys, getGrp_setGrp_same, if_true, reduceCtorEq, if_false]
    exact setWidth_setWidth_eq_and x (by decide)
  case amax =>
    intro k hk _ gk x s
    simp only [writeSys, getGrp_setGrp_same, toNat_amaxIndex hk, tget_tset_same, reduceCtorEq, if_false, and_full]
  case pc | tmp0 | tmp1 | tmp2 =>
    intro _ gk x s
    simp only [writeSys, getGrp_setGrp_same, reduceCtorEq, if_false, and_full]
  case size | kind | addr | info | tid => exact fun h => absurd h (by decide)

/-- Clear access comes with write access. -/
theorem writes_of_clears : ∀ e ∈ sysRows, e.clears = true → e.writes = true := by
  rw [forall_sysRows]
  decide

/-! ## The instructions -/

/-- A ready group that may read a register goes on to `rdsys`'s effect (R169, R171). -/
theorem exec_rdsys {s : State} {d : BitVec 6} {e : SysRow} (he : e ∈ sysRows)
    (hr : UniReady s { uni := true, flds := [], dv := .some d }) (hmay : e.user = true ∨ InSystem s) (k : Bool) :
    exec (.rdsys d e.reg k) s = .next (uniCommit { uni := true, flds := [], dv := .some d } false (.some (e.value (getGrp s s.cur.gk)))
      .none .none (if k then writeSys s.cur.gk e.reg 0 (arrive s) else arrive s)) := by
  have hpriv : sysOnly e.reg = true → userOf (arrive s) s.cur.gk 0 true = false := by
    intro h
    rw [sysOnly_row e he] at h
    rw [userOf_arrive hr.toGathered]
    exact userOf_of_inSystem (hmay.resolve_left (by simpa using h))
  obtain ⟨hgrp, -, -⟩ := trapView_arrive s
  rw [show exec (.rdsys d e.reg k) s = execRdsys d e.reg k s from rfl, execRdsys, uniP_ready hr _ hpriv]
  simp only [arrive_cur, readSys_row e he, hgrp]

/-- `rdsys.clr` has read the register, and left zero in it and every other register as it was. -/
theorem rdsys_clears {s : State} {d : BitVec 6} {e : SysRow} (he : e ∈ sysRows)
    (hr : UniReady s { uni := true, flds := [], dv := .some d }) (hmay : e.user = true ∨ InSystem s) (hc : e.clears = true) :
    ∃ t, exec (.rdsys d e.reg true) s = .next t ∧ (d ≠ 0 → getS t s.cur.gk d = ⟨e.value (getGrp s s.cur.gk), .full, false⟩) ∧
      e.value (getGrp t s.cur.gk) = 0 ∧
      ∀ f ∈ sysRows, f.reg ≠ e.reg → f.value (getGrp t s.cur.gk) = f.value (getGrp s s.cur.gk) := by
  have hx := exec_rdsys he hr hmay true
  rw [if_pos rfl] at hx
  have hdone := uniCommit_from (writeSys s.cur.gk e.reg 0 (arrive s)) (F := { uni := true, flds := [], dv := .some d }) rfl (by simp)
    (.some (e.value (getGrp s s.cur.gk))) .none
  obtain ⟨hgrp, -, -⟩ := trapView_arrive s
  obtain ⟨⟨y, hy⟩, -⟩ := writeSys_grp s.cur.gk e.reg 0 (arrive s)
  have hcur : (writeSys s.cur.gk e.reg 0 (arrive s)).cur = s.cur := by
    rw [hy]
    exact arrive_cur s
  refine ⟨_, hx, fun h0 => ?_, ?_, fun f hf hne => ?_⟩
  · have := hdone.dest d _ rfl rfl h0
    rwa [hcur] at this
  · rw [getGrp_of_uniDone hdone, value_writeSys e he (writes_of_clears e he hc)]
    exact BitVec.zero_and
  · rw [getGrp_of_uniDone hdone, value_writeSys_ne hf hne, hgrp]

/-- `wrsys` has written the register, and has changed nothing else but its dead source. -/
theorem wrsys_writes {s : State} {a : Src} {e : SysRow} (he : e ∈ sysRows)
    (hr : UniReady s { uni := true, flds := [⟨true, a.r, a.c, 0, true⟩] }) (hs : InSystem s) (hw : e.writes = true) :
    ∃ t, exec (.wrsys e.reg a) s = .next t ∧
      e.value (getGrp t s.cur.gk) = valS s a.r &&& (if e.reg = .fpx then 0x1F else if e.reg = .gang then 0x003FFFFFFFFFFFFF
        else 0xFFFFFFFFFFFFFFFF) ∧
      (∀ f ∈ sysRows, f.reg ≠ e.reg → f.value (getGrp t s.cur.gk) = f.value (getGrp s s.cur.gk)) ∧
      (∀ g, g ≠ s.cur.gk → getGrp t g = getGrp s g) ∧
      t = { s with sreg := t.sreg, grp := t.grp, thr := t.thr, sc := { s.sc with opc := t.sc.opc } } := by
  obtain ⟨hgrp, -, -⟩ := trapView_arrive s
  obtain ⟨h, harr⟩ := arrive_withThr s
  obtain ⟨⟨y, hy⟩, hother⟩ := writeSys_grp s.cur.gk e.reg (valS s a.r) (arrive s)
  obtain ⟨w, x, o, ht⟩ := uniCommit_none_rest (writeSys s.cur.gk e.reg (valS s a.r) (arrive s))
    (F := { uni := true, flds := [⟨true, a.r, a.c, 0, true⟩] }) rfl rfl (by simp)
  have hx : exec (.wrsys e.reg a) s = .next (uniCommit { uni := true, flds := [⟨true, a.r, a.c, 0, true⟩] } false .none .none .none
      (writeSys s.cur.gk e.reg (valS s a.r) (arrive s))) := by
    rw [show exec (.wrsys e.reg a) s = execWrsys e.reg a s from rfl, execWrsys,
      uniP_system (F := { uni := true, flds := [fA true a true] }) hr hs, arrive_cur]
    rfl
  generalize uniCommit _ false .none .none .none _ = t at hx ht
  have hget : ∀ g, getGrp t g = getGrp (writeSys s.cur.gk e.reg (valS s a.r) (arrive s)) g := fun g => by rw [ht]; rfl
  refine ⟨t, hx, ?_, fun f hf hne => ?_, fun g hg => ?_, ?_⟩
  · rw [hget, value_writeSys e he hw]
  · rw [hget, value_writeSys_ne hf hne, hgrp]
  · rw [hget, hother g hg, hgrp]
  · rw [ht, hy, harr]

/-- Settles O23: row by row, the value read, what a clear or a write leaves, and PRIVILEGE. -/
theorem systemRegisters : Obligations.SystemRegisters := by
  intro e he s
  refine ⟨fun d hr hmay => ⟨?read, rdsys_clears he hr hmay⟩, fun a hr hs hw => wrsys_writes he hr hs hw, fun d hu hr hc => ?readUser,
    fun a hr hc => ?writeUser⟩
  case read => exact ⟨_, exec_rdsys he hr hmay false, uniCommit_done hr _⟩
  case readUser =>
    rw [show exec (.rdsys d e.reg false) s = execRdsys d e.reg false s from rfl, execRdsys, sysOnly_row e he, hu]
    exact uniP_user hr hc _
  case writeUser =>
    rw [show exec (.wrsys e.reg a) s = execWrsys e.reg a s from rfl, execWrsys]
    exact uniP_user (F := { uni := true, flds := [fA true a true] }) hr hc _

end Sys2Proof.Machine
end

section
/-! PROOFS. How launches, `waitl`, forks, publishes and floors issue (R156, R161, R163 to R165). -/

namespace Sys2Proof.Machine

/-! ## `launch` (R161) -/

theorem cur_releaseCore (core : Nat) (wide sc : Bool) (s : State) : (releaseCore core wide sc s).cur = s.cur :=
  cur_of_cacheOnly (cacheOnly_releaseCore ..)

/-- A launch whose record can be read is in flight. -/
theorem launch_issues {s u w : State} {q : BitVec 3} {d : BitVec 6} {a b : Src} {k : BitVec 2} {qs : List Piece} {p via : Part}
    (hr : UniReady s { formU2d d a b with dp := .some q })
    (hp : plan s.cur.gk 0 true (userOf s s.cur.gk 0 true) .g [.r] (valS s a.r) 256 (arrive s) = (.ok qs, u))
    (hal : (valS s a.r).toNat % 256 = 0) (he : engPart (askerOf u s.cur.gk) s.cur.gk .g (valS s a.r) 256 u = (.ok p via, w))
    (hw : w.cur = s.cur) (hrel : releaseWait w s.cur.gk .none false true = .none) :
    ∃ t, exec (.launch q d a b k) s = .next t ∧
      UniIssued (releaseCore (coreOf w s.cur.gk) true true w) t { formU2d d a b with dp := .some q }
        [opHere (releaseCore (coreOf w s.cur.gk) true true w) 0xFFFF (.lrec q d p.pa (valS s a.r) (valS s b.r) k.toNat)] := by
  have hcur : (releaseCore (coreOf w s.cur.gk) true true w).cur = s.cur := (cur_releaseCore ..).trans hw
  have hbody : launchBody q d a b k.toNat [valS s a.r, valS s b.r] 0 (arrive s) =
      .ok (addOp s.cur.gk 0xFFFF s.cur.pc (.lrec q d p.pa (valS s a.r) (valS s b.r) k.toNat)
        (commitLong 0 (launchForm q d a b) (releaseCore (coreOf w s.cur.gk) true true w))) := by
    simp only [launchBody, List.getD_cons_zero, List.getD_cons_succ, arrive_cur, userOf_arrive hr.toGathered, hp, hal, he, hrel, hcur,
      ne_eq, not_true_eq_false, if_false]
  have h := accUni_issues (F := launchForm q d a b) hr hcur (body := launchBody q d a b k.toNat) hbody
  simp only [opHere, hcur]
  exact h

/-! ## `waitl` (R163) -/

/-- What `waitl` does to a group that knows the token. -/
def waitlOn (d : BitVec 6) (a : Src) (s : State) (tok : Word) (k : Tok) : State :=
  match k.status with
  | .none => blockAll (.waitl tok.toNat) (markEmpty s.cur.gk 0 true d
      (setGrp s.cur.gk { getGrp s s.cur.gk with wl := .some tok } (arrive s)))
  | .some st => uniCommit (formU1d d a) false (.some (BitVec.ofNat 64 st)) .none .none
      (acquireCore (coreOf s s.cur.gk) true true (setGrp s.cur.gk { getGrp s s.cur.gk with wl := .none } (arrive s)))

/-- The group reads its token where it waits for none, and looks for the one it waits for where it does. -/
theorem exec_waitl {s : State} {d : BitVec 6} {a : Src} {tok : Word} {k : Tok}
    (hk : findTok (getGrid s (gridOfG s.cur.gk)) tok.toNat = .some k)
    (hr : (UniReady s (formU1d d a) ∧ (getGrp s s.cur.gk).wl = .none ∧ tok = valS s a.r) ∨
      (UniReady s bareForm ∧ (getGrp s s.cur.gk).wl = .some tok)) : exec (.waitl d a) s = .next (waitlOn d a s tok k) := by
  obtain ⟨hgrp, -, -⟩ := trapView_arrive s
  obtain ⟨-, -, hcore, hgrid⟩ := placed_arrive s
  show execWaitl d a s = _
  rcases hr with ⟨hr, hwl, rfl⟩ | ⟨hr, hwl⟩
  · have hv : ((formU1d d a).flds.map fun f => (getS s s.cur.gk f.r).v).getD 0 0 = valS s a.r := rfl
    simp only [execWaitl, hwl]
    rw [show ({ uni := true, flds := [fA true a true], dv := .some d } : Form) = formU1d d a from rfl, uni_ready hr]
    simp only [hv, hgrid, hk, hgrp, hcore, waitlOn]
    rfl
  · simp only [execWaitl, hwl]
    rw [uni_ready (F := { uni := true, flds := [] }) hr]
    simp only [hgrid, hk, hgrp, hcore, waitlOn]
    rfl

/-- The group takes the status of a launch that has ended. -/
theorem waitl_ended {s : State} {d : BitVec 6} {a : Src} {tok : Word} {k : Tok} {st : Nat} (hst : k.status = .some st)
    (hx : exec (.waitl d a) s = .next (waitlOn d a s tok k)) : ∃ t, exec (.waitl d a) s = .next t ∧
      UniDone (acquireCore (coreOf s s.cur.gk) true true (setGrp s.cur.gk { getGrp s s.cur.gk with wl := .none } (arrive s))) t
        (formU1d d a) (.some (BitVec.ofNat 64 st)) .none s.cur.npc := by
  have hdone := uniCommit_from (acquireCore (coreOf s s.cur.gk) true true
    (setGrp s.cur.gk { getGrp s s.cur.gk with wl := .none } (arrive s))) (F := formU1d d a) rfl (by simp)
    (.some (BitVec.ofNat 64 st)) .none
  rw [cur_of_cacheOnly (cacheOnly_acquireCore ..), setGrp_cur, arrive_cur] at hdone
  rw [waitlOn, hst] at hx
  exact ⟨_, hx, hdone⟩

/-! ## `fork` (R156) -/

/-- Arriving leaves the denials of pages that threads carry (R290). -/
theorem keepDenied_arrive (s : State) (k : Nat) : keepDenied (getThr (arrive s) k).wait = keepDenied (getThr s k).wait := by
  have hidem : ∀ w, keepDenied (keepDenied w) = keepDenied w := fun w => by cases w <;> rfl
  unfold arrive
  refine List.foldlRecOn s.cur.tids _ (motive := fun v => keepDenied (getThr v k).wait = keepDenied (getThr s k).wait) rfl
    fun v hv i _ => ?_
  rw [setSt, getThr_setThr]
  split
  · next e => rw [hidem, ← e, hv]
  · exact hv

/-- The page of a context that a waiting thread has been denied. -/
def deniedPage (ctx : Nat) : Wait → Option Nat
  | .denied a p => if a = ctx then .some p else .none
  | _ => .none

theorem deniedPage_keepDenied (ctx : Nat) (w : Wait) : deniedPage ctx (keepDenied w) = deniedPage ctx w := by cases w <;> rfl

theorem denyOf_group (s : State) (gk : Nat) :
    denyOf s gk 0 true = (domain s gk).findSome? fun i => deniedPage (ctxOf s gk) (getThr s (threadKey gk i)).wait := rfl

/-- Which page has been denied to a group is what its threads carry once they have arrived. -/
theorem denyOf_arrive {s : State} (h : Gathered s) : denyOf (arrive s) s.cur.gk 0 true = denyOf s s.cur.gk 0 true := by
  obtain ⟨-, hdom⟩ := h.arrive
  obtain ⟨-, -, hctx⟩ := trapView_arrive s
  have hpage : ∀ k, deniedPage (ctxOf s s.cur.gk) (getThr (arrive s) k).wait = deniedPage (ctxOf s s.cur.gk) (getThr s k).wait := fun k => by
    rw [← deniedPage_keepDenied, keepDenied_arrive, deniedPage_keepDenied]
  simp only [denyOf_group, hdom, hctx, hpage]

/-- Writing a register leaves the issue alone. -/
theorem cur_writeDst (gk i : Nat) (u : Bool) (r : BitVec 6) (x : Word) (psn : Bool) (s : State) : (writeDst gk i u r x psn s).cur = s.cur := by
  obtain ⟨_, _, _, _, _, h⟩ := regsOnly_trans (regsOnly_setR gk i u r ⟨x, .full, psn⟩ s) (regsOnly_dropKept gk i u r _)
  rw [writeDst, h]

/-- A fork whose block checks and whose handles are ready starts at once. -/
theorem exec_fork {s u w : State} {d : BitVec 6} {a : Src} {cs : List Copy} {blk : List Byte} {r : Nat × State} (hr : UniReady s (formU1d d a))
    (hin : (valS s a.r).toNat + 64 ≤ windowOf s (teamOfG s.cur.gk)) (hal : (valS s a.r).toNat % 64 = 0)
    (hbusy : stashBusy (arrive s) .s (valS s a.r) 64 = .none) (hbad : stashBad s (teamOfG s.cur.gk) (valS s a.r).toNat 64 = false)
    (hblk : blk = stashRead s (teamOfG s.cur.gk) (valS s a.r).toNat 64)
    (hc : forkChecks s.cur.gk (denyOf s s.cur.gk 0 true) blk (List.range 6) [] (arrive s) = (.ok cs, u)) (hu : u.cur = s.cur)
    (hrel : releaseWait u s.cur.gk .none false true = .none) (hw : w = releaseCore (coreOf u s.cur.gk) true true u)
    (hready : forkReady w s.cur.gk (BitVec.ofNat 64 (fieldOf blk 0 8)) cs = true)
    (hstart : r = startFork s.cur.gk s.cur.pc (BitVec.ofNat 64 (fieldOf blk 0 8)) (BitVec.ofNat 64 (fieldOf blk 8 8)) cs
      (commitStore 0 (formU1d d a) w)) (hrcur : r.2.cur = s.cur) :
    exec (.fork d a) s = .next (passGroup s.cur.gk s.cur.npc (writeDst s.cur.gk 0 true d (BitVec.ofNat 64 r.1) false r.2)) := by
  subst hblk hw
  obtain ⟨hcur, hteam, -, hgrid⟩ := placed_arrive s
  have hwcur : (releaseCore (coreOf u s.cur.gk) true true u).cur = s.cur := (cur_releaseCore ..).trans hu
  have hwindow : windowOf (arrive s) = windowOf s := by
    funext t
    simp only [windowOf, hgrid]
  have hbad' : stashBad (arrive s) = stashBad s := by
    funext t off n
    simp only [stashBad, hteam]
  have hread : stashRead (arrive s) = stashRead s := by
    funext t off n
    simp only [stashRead, hteam]
  have hbody : forkBody (formU1d d a) d [valS s a.r] 0 (arrive s) =
      .ok (writeDst s.cur.gk 0 true d (BitVec.ofNat 64 r.1) false r.2) := by
    simp only [forkBody, List.getD_cons_zero, hcur, hal, hwindow, if_neg (Nat.not_lt.2 hin), hbusy, hbad', hbad, hread,
      denyOf_arrive hr.toGathered, hc, hrel, hwcur, hready, hstart, word, ne_eq, not_true_eq_false, Bool.false_eq_true, if_true, if_false]
  have h := accUni_goesOn (F := formU1d d a) (body := forkBody (formU1d d a) d) hr hbody
  rw [cur_writeDst, hrcur] at h
  exact h

end Sys2Proof.Machine
end

section
/-! PROOFS. Publishes and floors (R164, R165), and that a translation keeps the operations in flight. -/

namespace Sys2Proof.Machine

/-! ## Translation keeps the operations in flight -/

/-- `t` has the operations in flight of `s`, and its next number. -/
def KeepsOps (s t : State) : Prop := t.mm.ops = s.mm.ops ∧ t.mm.nextId = s.mm.nextId

theorem keepsOps_refl (s : State) : KeepsOps s s := ⟨rfl, rfl⟩
theorem keepsOps_trans {s t u : State} (h : KeepsOps s t) (k : KeepsOps t u) : KeepsOps s u := ⟨k.1.trans h.1, k.2.trans h.2⟩

theorem keepsOps_of_cacheOnly {s t : State} (h : CacheOnly s t) : KeepsOps s t := by
  obtain ⟨_, _, _, _, _, _, _, rfl, -⟩ := h
  exact ⟨rfl, rfl⟩

theorem keepsOps_setEntryBit (pe b : Nat) (s : State) : KeepsOps s (setEntryBit pe b s) := by
  simp only [setEntryBit]
  split <;> exact keepsOps_refl _

theorem keepsOps_lookup (core asid va : Nat) (s : State) : KeepsOps s (lookup core asid va s).2 := by
  simp only [lookup]
  split
  · exact keepsOps_refl s
  · split
    · exact keepsOps_refl s
    · split
      · exact keepsOps_setEntryBit ..
      · exact keepsOps_refl s
      · exact keepsOps_refl s

theorem keepsOps_viewPage (pa : Nat) (m : Option (BitVec 512)) (s : State) : KeepsOps s (viewPage pa m s) := by
  simp only [viewPage]
  split
  · exact keepsOps_refl s
  · obtain ⟨hops, hid⟩ := keepsOps_of_cacheOnly (cacheOnly_sweepPage (pa / 65536) s)
    exact ⟨hops, hid⟩

theorem keepsOps_xlate (q : Asker) (va n : Nat) (a : Acc) (user : Bool) (s : State) : KeepsOps s (xlate q va n a user s).2 := by
  have h := keepsOps_lookup q.core q.asid va s
  unfold xlate
  split <;> rename_i hl <;> rw [hl] at h
  · dsimp only
    split
    · exact h
    · refine keepsOps_trans h ?_
      split
      · exact keepsOps_viewPage ..
      · exact keepsOps_refl _
  · exact h
  · exact h

theorem keepsOps_planPiece (k : Asker) (user : Bool) (accs : List Acc) (q : Word × Nat) (s : State) :
    KeepsOps s (planPiece k user accs q s).2 := by
  unfold planPiece
  refine List.foldlRecOn accs _ (motive := fun x : Plan × State => KeepsOps s x.2) (keepsOps_refl s) fun x h a _ => ?_
  split
  · split
    · exact h
    · have hx := keepsOps_xlate k (q.1.toNat % 2 ^ 57) q.2 a user x.2
      split <;> rename_i he <;> rw [he] at hx <;> exact keepsOps_trans h hx
  · exact h
  · exact h

theorem keepsOps_plan (gk tid : Nat) (uni user : Bool) (sp : Space) (accs : List Acc) (va : Word) (n : Nat) (s : State) :
    KeepsOps s (plan gk tid uni user sp accs va n s).2 := by
  unfold plan planFor
  cases sp with
  | s | h => simp only; split <;> exact keepsOps_refl s
  | g =>
    simp only
    split
    · exact keepsOps_refl s
    · split
      · split <;> exact keepsOps_refl s
      · split
        · exact keepsOps_refl s
        · refine List.foldlRecOn _ _ (motive := fun x : List Plan × State => KeepsOps s x.2) (keepsOps_refl s) fun x h q _ => ?_
          exact keepsOps_trans h (keepsOps_planPiece ..)

/-! ## Finding the region (R164) -/

/-- Whatever a region's finding comes to, the state is that of its plan. -/
theorem regionOf_state (va : Word) (s : State) :
    (regionOf va s).2 = (plan s.cur.gk 0 true (userOf s s.cur.gk 0 true) .g [.w] va 1 s).2 := by
  unfold regionOf
  dsimp only
  split
  · next h => rw [h]
  · next h => rw [h]
  · next h =>
    rw [h]
    split
    · split <;> rfl
    · rfl

/-- Finding a region keeps the issue, the launch records that have registers, the operations, and all that translation keeps. -/
theorem regionOf_keeps {va : Word} {s u : State} (hu : u = (regionOf va s).2) :
    MemOnly s u ∧ KeepsOps s u ∧ ∀ g, recOf s g ≠ {} → recOf u g = recOf s g := by
  rw [regionOf_state] at hu
  have hp : plan s.cur.gk 0 true (userOf s s.cur.gk 0 true) .g [.w] va 1 s = (_, u) := Prod.ext rfl hu.symm
  subst hu
  exact ⟨memOnly_plan .., keepsOps_plan .., fun g hg => recOf_plan hp hg⟩

theorem cur_of_memOnly {s t : State} (h : MemOnly s t) : t.cur = s.cur := by
  obtain ⟨_, _, rfl⟩ := h
  rfl

/-- A group that can issue belongs to a launch with registers (R29). -/
theorem UniReady.recOf_ne {s : State} {F : Form} (h : UniReady s F) {f : Fld} (hf : f ∈ F.flds) : recOf s s.cur.gk ≠ {} := by
  intro c
  have := h.limit f hf
  rw [c] at this
  exact absurd this (Nat.not_lt_zero _)

/-! ## Waiting for an agent -/

/-- A group that is held waits with every thread that convergence awaits, and nothing else changes. -/
theorem holdAll_spec (w : Wait) (s : State) :
    (∃ h, holdAll w s = withThr h s) ∧ ∀ k, getThr (holdAll w s) k =
      if ∃ i ∈ domain s s.cur.gk, k = tkOf s i then { getThr s k with st := .waitConv, wait := w } else getThr s k := by
  have hfold : ∀ (ids : List Nat) (v : State), v.cur = s.cur → ids.foldl (fun s i => setSt s.cur.gk i .waitConv w s) v =
      ids.foldl (fun v i => setThr (threadKey s.cur.gk i) { getThr v (threadKey s.cur.gk i) with st := .waitConv, wait := w } v) v := by
    intro ids
    induction ids with
    | nil => exact fun _ _ => rfl
    | cons i ids ih =>
      intro v hv
      rw [List.foldl_cons, List.foldl_cons, hv]
      exact ih _ hv
  rw [holdAll, hfold _ s rfl]
  exact setThr_fold (f := fun x => { x with st := .waitConv, wait := w }) (fun _ => rfl) s.cur.gk (domain s s.cur.gk) s

/-! ## `bpub` and `bfloor` issue -/

/-- What a form of one source kills and keeps (R41). -/
theorem usesOf_oneSource (d : BitVec 6) (a : Src) : usesOf { uni := true, flds := [fA true a true], dv := .some d } =
    ⟨if a.c = .last then [(true, a.r)] else [], if a.c = .keep then [(true, a.r)] else []⟩ := by
  obtain ⟨r, c⟩ := a
  cases c <;> simp [usesOf, kills, keeps, fA]

/-- The operation of a publish (R164), put in flight in the state `w` of its release. -/
def bpubOp (s w : State) (d : BitVec 6) (a : Src) (r : Nat) : OpK :=
  .bpub d (valS s a.r) r s.cur.npc ⟨if a.c = .last then [(true, a.r)] else [], if a.c = .keep then [(true, a.r)] else []⟩ (getS w s.cur.gk d)

/-- The group's wait for its publish: the destination is EMPTY and the publish in flight. -/
def bpubSent (s w : State) (d : BitVec 6) (a : Src) (r : Nat) : State :=
  holdAll (.agent w.mm.nextId) (addOp s.cur.gk 0xFFFF s.cur.pc (bpubOp s w d a r) (markEmpty s.cur.gk 0 true d w))

section
variable {s u : State} {d : BitVec 6} {a b : Src} {r : Nat} (hreg : (regionOf (valS s a.r) (arrive s)).1 = .ok r)
  (hu : u = (regionOf (valS s a.r) (arrive s)).2)
include hreg hu

/-- A floor's query is in flight (R165). -/
theorem bfloor_issues (hr : UniReady s (formU2d d a b)) : ∃ t, exec (.bfloor d a b) s = .next t ∧
    UniIssued u t (formU2d d a b) [opHere u 0xFFFF (.bfloor d r ((valS s b.r).toNat % 2 ^ 32))] := by
  obtain ⟨hmem, -, -⟩ := regionOf_keeps hu
  have hcur : u.cur = s.cur := (cur_of_memOnly hmem).trans (arrive_cur s)
  have hgot : regionOf (valS s a.r) (arrive s) = (.ok r, u) := Prod.ext hreg hu.symm
  have hbits : bits (valS s b.r) 31 0 = (valS s b.r).toNat % 2 ^ 32 := by simp [bits]
  simp only [opHere, hcur]
  show ∃ t, execBfloor d a b s = _ ∧ _
  unfold execBfloor
  refine accUni_issues (F := formU2d d a b) hr hcur ?_
  have hva : ((formU2d d a b).flds.map fun f => (getS s s.cur.gk f.r).v).getD 0 0 = valS s a.r := rfl
  have hvb : ((formU2d d a b).flds.map fun f => (getS s s.cur.gk f.r).v).getD 1 0 = valS s b.r := rfl
  simp only [hva, hvb, hgot, hbits, hcur]
  rfl

/-- A publish of a region waits for the region's agent, once the group's earlier accesses are performed. -/
theorem exec_bpub (hr : UniReady s (formU1d d a)) (hrel : releaseWait u s.cur.gk .none false true = .none) {w : State}
    (hw : w = releaseCore (coreOf u s.cur.gk) true true u) : exec (.bpub d a) s = .next (bpubSent s w d a r) := by
  obtain ⟨hmem, -, -⟩ := regionOf_keeps hu
  have hwcur : w.cur = s.cur := by
    rw [hw, cur_releaseCore]
    exact (cur_of_memOnly hmem).trans (arrive_cur s)
  have hgot : regionOf (valS s a.r) (arrive s) = (.ok r, u) := Prod.ext hreg hu.symm
  show execBpub d a s = _
  simp only [execBpub]
  rw [accUni_ready (F := { uni := true, flds := [fA true a true], dv := .some d }) hr]
  have hv : ([fA true a true].map fun f => (getS s s.cur.gk f.r).v).getD 0 0 = valS s a.r := rfl
  simp only [hv, hgot, arrive_cur, hrel, ← hw, hwcur, usesOf_oneSource]
  rfl
end

/-! ## The publish acts (R164) -/

/-- A group that is held exits no thread. -/
theorem BarrierKeeps.holdAll (w : Wait) (s : State) : BarrierKeeps s (holdAll w s) := by
  obtain ⟨he, hk⟩ := holdAll_spec w s
  refine of_threads he fun k => ?_
  rw [hk]
  split
  · next h =>
    obtain ⟨i, hi, rfl⟩ := h
    exact .inr ⟨mem_domain_live hi, _, _, _, by simp, rfl⟩
  · exact .inl rfl

/-- The region's counters once a publish has acted (R164). -/
def bpubCounted (k r : Nat) (t : State) : State :=
  pwriteN (regionAt t r + 4) 4 (eOpen t r) (pwriteN (regionAt t r) 4 (eOpen t r + 1) (dropOp k t))

theorem bpubCounted_eq (k r : Nat) (t : State) : ∃ m, bpubCounted k r t = { t with mm := m } := ⟨_, rfl⟩

/-- A group's publish in flight, of a region that can take another edition, completes with the open one; the group goes on. -/
theorem bpub_acts {t : State} {k r : Nat} {o : Op} {d : BitVec 6} {va npc : Word} {use : Uses} {old : Cell} (hf : findOp t k = .some o)
    (hk : o.k = .bpub d va r npc use old) (htid : o.tid = 0xFFFF) (he : eOpen t r ≠ 0xFFFFFFFF) (hal : aliveG t o.gk = true) :
    ∃ v, exec (.bpubAtBindery k) t = .next v ∧ (d ≠ 0 → getS v o.gk d = ⟨BitVec.ofNat 64 (eOpen t r), .full, false⟩) ∧
      ∀ i ∈ domain t o.gk, getThr v (threadKey o.gk i) =
        { getThr t (threadKey o.gk i) with pc := npc, st := .ready, wait := .none } := by
  obtain ⟨m, hm⟩ := bpubCounted_eq k r t
  have hwal : aliveG (bpubCounted k r t) o.gk = true := by
    rw [hm]
    exact hal
  have hregs : RegsOnly (bpubCounted k r t) (writeDst o.gk 0 true d (BitVec.ofNat 64 (eOpen t r)) false
      (useIssuer o use (bpubCounted k r t))) := by
    rw [useIssuer_alive hwal]
    exact regsOnly_trans (regsOnly_useAll ..) (regsOnly_trans (regsOnly_setR ..) (regsOnly_dropKept ..))
  have hwritten : d ≠ 0 → getS (writeDst o.gk 0 true d (BitVec.ofNat 64 (eOpen t r)) false
      (useIssuer o use (bpubCounted k r t))) o.gk d = ⟨BitVec.ofNat 64 (eOpen t r), .full, false⟩ := fun h => by
    simp only [writeDst, setR, if_true, getS_dropKept, getS_setS, if_pos (⟨trivial, trivial, h⟩ : True ∧ True ∧ d ≠ 0)]
  generalize hy : writeDst o.gk 0 true d (BitVec.ofNat 64 (eOpen t r)) false (useIssuer o use (bpubCounted k r t)) = y
    at hregs hwritten
  obtain ⟨_, _, _, _, _, hye⟩ := hm ▸ hregs
  have hydom : domain y o.gk = domain t o.gk := by
    rw [hye]
    exact domain_congr rfl rfl rfl _
  have hythr : getThr y = getThr t := by
    rw [hye]
    rfl
  have hyal : aliveG y o.gk = true := by
    rw [hye]
    exact hal
  obtain ⟨hfold, hgo⟩ := goOn_fold o.gk npc (domain t o.gk) y
  have hpass : passIssuer o npc y = (domain t o.gk).foldl (goOn o.gk npc) y := by
    simp [passIssuer, heldThreads, hyal, htid, hydom]
  refine ⟨passIssuer o npc y, hy ▸ exec_bpubAtBindery hf hk he rfl hwal, fun h => ?_, fun i hi => ?_⟩
  · obtain ⟨z, hz⟩ := hfold
    rw [hpass, hz]
    exact hwritten h
  · rw [hpass, hgo, if_pos ⟨i, hi, rfl⟩, hythr]

section
variable {s u w : State} {d : BitVec 6} {a : Src} {r : Nat} (hr : UniReady s (formU1d d a))
  (hu : u = (regionOf (valS s a.r) (arrive s)).2) (hw : w = releaseCore (coreOf u s.cur.gk) true true u)
include hr hu hw

/-- The release of a publish leaves the group's threads, team and domain as its arrival did. -/
theorem bpubReleased_keeps : w.cur = s.cur ∧ w.thr = (arrive s).thr ∧ w.team = s.team ∧ KeepsOps s w ∧
    domain w s.cur.gk = domain s s.cur.gk := by
  obtain ⟨hmem, hops, hrec⟩ := regionOf_keeps hu
  obtain ⟨-, hdom⟩ := hr.toGathered.arrive
  obtain ⟨x, harr⟩ := arrive_withThr s
  have hne : recOf (arrive s) s.cur.gk ≠ {} := by
    rw [harr]
    exact hr.recOf_ne (List.mem_singleton_self _)
  have hurec := hrec _ hne
  obtain ⟨_, _, hue⟩ := hmem
  have hcache : CacheOnly u w := hw ▸ cacheOnly_releaseCore ..
  have hwdom : domain w s.cur.gk = domain u s.cur.gk := by
    obtain ⟨_, _, _, _, _, _, _, rfl, -⟩ := hcache
    rfl
  have hudom : domain u s.cur.gk = domain (arrive s) s.cur.gk := by
    have hthr : getThr u = getThr (arrive s) := by rw [hue]; rfl
    have hgrp : getGrp u = getGrp (arrive s) := by rw [hue]; rfl
    simp only [domain, live, widthOf, hurec, hthr, hgrp]
  refine ⟨?_, ?_, ?_, keepsOps_trans (keepsOps_trans ?_ hops) (keepsOps_of_cacheOnly hcache), hwdom.trans (hudom.trans hdom)⟩
  · rw [cur_of_cacheOnly hcache, hue, harr]
  · obtain ⟨_, _, _, _, _, _, _, he, -⟩ := hcache
    rw [he, hue]
  · rw [team_of_cacheOnly hcache, hue, harr]
  · rw [harr]
    exact keepsOps_refl s

/-- The operation that a publish put in flight is found under its own number. -/
theorem findOp_bpubSent (hid : ∀ o ∈ s.mm.ops, o.id < s.mm.nextId) : findOp (bpubSent s w d a r) w.mm.nextId =
    .some (newOp s.cur.gk 0xFFFF s.cur.pc (bpubOp s w d a r) (markEmpty s.cur.gk 0 true d w)) := by
  obtain ⟨-, -, -, ⟨hops, hnext⟩, -⟩ := bpubReleased_keeps hr hu hw
  obtain ⟨⟨x, hx⟩, -⟩ := holdAll_spec (.agent w.mm.nextId)
    (addOp s.cur.gk 0xFFFF s.cur.pc (bpubOp s w d a r) (markEmpty s.cur.gk 0 true d w))
  obtain ⟨_, _, _, _, _, hme⟩ := regsOnly_markEmpty s.cur.gk 0 true d w
  have hmm : (markEmpty s.cur.gk 0 true d w).mm = w.mm := by rw [hme]
  have hold : w.mm.ops.find? (fun o => o.id == w.mm.nextId) = .none := by
    rw [hops, hnext]
    exact List.find?_eq_none.2 fun o ho => by simpa using (hid o ho).ne
  rw [bpubSent, hx]
  simp only [findOp, addOp, hmm, List.find?_append, hold, Option.none_or]
  simp [newOp, hmm]

/-- A publish in flight leaves the group waiting, with its team and domain as they were. -/
theorem bpubSent_keeps : (bpubSent s w d a r).team = s.team ∧ eOpen (bpubSent s w d a r) = eOpen w ∧
    domain (bpubSent s w d a r) s.cur.gk = domain s s.cur.gk ∧
    ∀ k, ∃ st x, getThr (bpubSent s w d a r) k = { getThr s k with st := st, wait := x } := by
  obtain ⟨hcur, hthr, hteam, -, hdom⟩ := bpubReleased_keeps hr hu hw
  set y := addOp s.cur.gk 0xFFFF s.cur.pc (bpubOp s w d a r) (markEmpty s.cur.gk 0 true d w) with hy
  obtain ⟨_, _, _, _, _, hme⟩ := regsOnly_markEmpty s.cur.gk 0 true d w
  rw [hme] at hy
  obtain ⟨hx, hk⟩ := holdAll_spec (.agent w.mm.nextId) y
  have hsent : bpubSent s w d a r = holdAll (.agent w.mm.nextId) y := rfl
  have hkeeps : BarrierKeeps y (holdAll (.agent w.mm.nextId) y) := BarrierKeeps.holdAll ..
  have hydom : domain y = domain w := by
    rw [hy]
    exact funext fun g => domain_congr rfl rfl rfl g
  have hythr : getThr y = getThr (arrive s) := by
    unfold getThr
    rw [hy]
    exact congrArg (fun x k => tget {} k x) hthr
  rw [hsent]
  refine ⟨?_, ?_, by rw [hkeeps.domain, hydom, hdom], fun k => ?_⟩
  · obtain ⟨x, hx⟩ := hx
    rw [hx, hy]
    exact hteam
  · obtain ⟨x, hx⟩ := hx
    rw [hx, hy]
    rfl
  · obtain ⟨st, x, he, -⟩ := getThr_arrive s k
    rw [hk, hythr, he]
    split
    · exact ⟨_, _, rfl⟩
    · exact ⟨_, _, rfl⟩

/-- A publish of a region that can take another edition completes with the open one, and its group goes on. -/
theorem bpub_publishes (halive : aliveG s s.cur.gk = true) (hid : ∀ o ∈ s.mm.ops, o.id < s.mm.nextId)
    (he : eOpen w r ≠ 0xFFFFFFFF) : ∃ v, exec (.bpubAtBindery w.mm.nextId) (bpubSent s w d a r) = .next v ∧
      (d ≠ 0 → getS v s.cur.gk d = ⟨BitVec.ofNat 64 (eOpen w r), .full, false⟩) ∧ ∀ i ∈ domain s s.cur.gk, WentOn s v i := by
  obtain ⟨hteam, hopen, hdom, hthr⟩ := bpubSent_keeps (d := d) (r := r) hr hu hw
  obtain ⟨v, hx, hd, hwent⟩ := bpub_acts (findOp_bpubSent hr hu hw hid) rfl rfl (by rwa [hopen])
    ((aliveG_congr hteam).trans halive)
  refine ⟨v, hx, fun h => by rw [← hopen]; exact hd h, fun i hi => ?_⟩
  obtain ⟨st, x, hk⟩ := hthr (tkOf s i)
  have h : getThr v (tkOf s i) = { getThr (bpubSent s w d a r) (tkOf s i) with pc := s.cur.npc, st := .ready, wait := .none } :=
    hwent i (by rwa [← hdom] at hi)
  rw [hk] at h
  exact h
end

/-! ## The statement -/

/-- A group that waits for a launch that has not ended blocks with its destination EMPTY (R163). -/
theorem waitl_waits {s : State} {d : BitVec 6} {a : Src} {k : Tok} (hr : UniReady s (formU1d d a)) (hwl : (getGrp s s.cur.gk).wl = .none)
    (hk : findTok (getGrid s (gridOfG s.cur.gk)) (valS s a.r).toNat = .some k) (hst : k.status = .none) :
    exec (.waitl d a) s = .next (blockAll (.waitl (valS s a.r).toNat) (markEmpty s.cur.gk 0 true d
      (setGrp s.cur.gk { getGrp s s.cur.gk with wl := .some (valS s a.r) } (arrive s)))) := by
  rw [exec_waitl hk (.inl ⟨hr, hwl, rfl⟩), waitlOn, hst]

/-- Settles O30, one instruction per clause: a launch and a floor leave an operation in flight, `waitl` takes a status or waits, a fork starts
at once, and a publish waits for its agent, which then completes it. -/
theorem launchForkAndEditionIssue : Obligations.LaunchForkAndEditionIssue := by
  unfold Obligations.LaunchForkAndEditionIssue
  refine ⟨fun s u w q d a b k qs p via hr hp hal he hw hrel => launch_issues hr hp hal he hw hrel,
    fun s d a tok k st hk hr hst => waitl_ended hst (exec_waitl hk hr),
    fun s d a k hr hwl hk hst => waitl_waits hr hwl hk hst,
    fun s u d a cs blk hr hin hal hbusy hbad hblk hc hu hrel w hw _ hready r hstart hrcur =>
      exec_fork hr hin hal hbusy hbad hblk hc hu hrel hw hready hstart hrcur,
    fun s u d a r hr hreg hu hrel w hw hid => ?_,
    fun s u d a b r hr hreg hu => bfloor_issues hreg hu hr⟩
  have hx : exec (.bpub d a) s = .next (bpubSent s w d a r) := exec_bpub hreg hu hr hrel hw
  rw [← hid]
  refine ⟨hx, fun hal hops he => ?_⟩
  obtain ⟨v, hv⟩ := bpub_publishes hr hu hw hal hops he
  exact ⟨_, v, hx, hv⟩

end Sys2Proof.Machine
end

section
/-! PROOFS. Launch records and access programs proceed (R161, R162, R218). -/

namespace Sys2Proof.Machine

/-! ## The read of a launch record (R161, R162) -/

section
variable {s v : State} {k : Nat} {o : Op} {q : BitVec 3} {d : BitVec 6} {pa pri : Nat} {va dep : Word} {bs : List Byte} {bad : Bool}

/-- A record that has been read comes to what its launch makes of it. -/
theorem exec_launchRecordRead (hf : InFlight s k o) (hk : o.k = .lrec q d pa va dep pri) (hpeer : isPeer pa = false)
    (hreach : reachable s (coreOf s o.gk) pa = true) (hread : readRecord o.gk pa va s = (bs, bad, v)) :
    exec (.launchRecordRead k) s = .next (finishLaunch o q d va dep pri bs bad v) := by
  show execLaunchRecordRead k s = _
  simp [execLaunchRecordRead, show findOp s k = .some o from hf, hk, hpeer, hreach, hread]

/-- The destinations of a launch whose team is there are completed (R161). -/
theorem launchDone_alive {gk : Nat} {x : Word} {ok : Bool} (h : aliveG s gk = true) :
    launchDone gk q d x ok s = setQ gk q ⟨ok, false⟩ (writeDst gk 0 true d x false s) := if_pos h

/-- The state with a launch appended to the queue of its class and context, under the next token of its grid (R161). -/
def launchQueued (g pri : Nat) (lr : LRec) (dep : Word) (s : State) : State :=
  let x := getGrid s g
  let key := dqKey x.ctx pri
  setGrid g { x with toks := x.toks ++ [⟨x.nextTok, .none⟩], nextTok := x.nextTok + 1 }
    { s with vs := { s.vs with devq := tset [] key (tget [] key s.vs.devq ++
      [{ lr := lr, tok := x.nextTok, dep := dep.toNat, parent := .some (g, x.nextTok) }]) s.vs.devq } }

variable (hal : aliveG v o.gk = true)
include hal

/-- A record whose words are marked is a fault (R162). -/
theorem finishLaunch_marked : finishLaunch o q d va dep pri bs true v = setQ o.gk q ⟨false, false⟩
    (setR o.gk 0 true d { getS v o.gk d with st := .fault o.ia va } (dropOp o.id v)) := by
  have hdrop : aliveG (dropOp o.id v) o.gk = true := hal
  simp only [finishLaunch, hdrop, if_true]
  rfl

/-- A launch that a check refuses takes the check's code (R162). -/
theorem finishLaunch_refused {c : Nat} (hc : launchStatus (dropOp o.id v) o.gk pri dep bs = c) (hne : c ≠ 0) :
    finishLaunch o q d va dep pri bs false v = setQ o.gk q ⟨false, false⟩
      (writeDst o.gk 0 true d (BitVec.ofNat 64 (2 ^ 63 + c)) false (dropOp o.id v)) := by
  have hdrop : aliveG (dropOp o.id v) o.gk = true := hal
  simp only [← launchDone_alive hdrop, finishLaunch, hc, if_pos hne, Bool.false_eq_true, if_false]
  rfl

/-- A launch that passes its checks is appended under the next token, which is its result (R161). -/
theorem finishLaunch_appended (hc : launchStatus (dropOp o.id v) o.gk pri dep bs = 0) :
    finishLaunch o q d va dep pri bs false v = setQ o.gk q ⟨true, false⟩
      (writeDst o.gk 0 true d (BitVec.ofNat 64 (getGrid v (gridOfG o.gk)).nextTok) false
        (launchQueued (gridOfG o.gk) pri (parseRecord bs) dep (dropOp o.id v))) := by
  have hqueued : aliveG (launchQueued (gridOfG o.gk) pri (parseRecord bs) dep (dropOp o.id v)) o.gk = true := hal
  rw [← launchDone_alive hqueued]
  simp only [finishLaunch, hc, ne_eq, not_true_eq_false, Bool.false_eq_true, if_false]
  rfl
end

/-! ## An access program's request (R218) -/

section
variable {s w : State} {t : Nat} {p : AProg} {r : StreamRec}

theorem skipEmpty_of_rows (hrec : p.recs[p.i]? = .some r) (hrows : r.rows ≠ 0) (n : Nat) : skipEmpty n p = p := by
  cases n with
  | zero => rfl
  | succ n => simp [skipEmpty, hrec, hrows]

/-- The address of the row that a program's position is in (R217). -/
def rowAddress (p : AProg) (r : StreamRec) : Word := p.arg + r.off + BitVec.ofNat 64 p.row * r.stride

/-- The address of the line that a program requests next (R217). -/
def lineAddress (p : AProg) (r : StreamRec) : Word := rowAddress p r + BitVec.ofNat 64 (128 * p.e)

/-- A program that has requested a line: the entry is reserved, the line in flight, and the position the next. -/
def lineRequested (t : Nat) (p : AProg) (r : StreamRec) (q : Part) (w : State) : State :=
  addOp p.gk engineTid p.ia (.aline t r.queue w.mm.nextId [q] (lineAddress p r) r.space)
    (setProg t (.some (stepProg r { p with wait := .none }))
      (setQueue t r.queue (queueOf w t r.queue ++ [⟨w.mm.nextId, false, [], false⟩]) w))

/-- A resident team's program requests the line of its position, where its queue has room and a tracker can be taken. -/
theorem programRequest_requests {q via : Part} (hprog : (getTeam s t).prog = .some p) (hst : (getTeam s t).st = .resident)
    (hready : p.ready = true) (hrec : p.recs[p.i]? = .some r) (hrows : r.rows ≠ 0) (hal : (rowAddress p r).toNat % 128 = 0)
    (hroom : queueRoom s t r.queue ≠ 0) (he : engPart (engAsker s p.gk) p.gk r.space (lineAddress p r) 128 s = (.ok q via, w))
    (htr : trackersOk w p.gk (partLines [q]) = true) (hreach : reachable w (coreOf w p.gk) q.pa = true) :
    programRequest t s = if r.space = .g ∧ isHbm q.pa = true then
        tapLine (ctxOf (lineRequested t p r q w) p.gk) (coreOf (lineRequested t p r q w) p.gk) (via.pa / 128) false true
          (lineRequested t p r q w)
      else lineRequested t p r q w := by
  simp only [lineAddress, rowAddress] at he hal
  simp only [programRequest, hprog, hst, hready, skipEmpty_of_rows hrec hrows, hrec, word, hal, hroom, he, htr, hreach, ne_eq,
    not_true_eq_false, Bool.not_true, Bool.or_self, Bool.false_eq_true, if_false, lineRequested, lineAddress, rowAddress]
end

/-! ## The return of a line (R218) -/

section
variable {s w : State} {k : Nat} {o : Op} {t q ent : Nat} {bs : List Byte} {bad : Bool}

/-- A line of a queue fills its entry; the program then ends if nothing is left to do. -/
theorem lineReturn_fills (hq : q ≠ 8) (s : State) : lineReturn o t q ent bs bad s = settleProg t (setQueue t q
    ((queueOf (dropOp o.id s) t q).map fun e => if e.id = ent then ⟨ent, true, bs, bad⟩ else e) (dropOp o.id s)) := if_neg hq

/-- A line that its home returns goes to its program. -/
theorem exec_accessProgramReturn {p : Part} {va : Word} {sp : Space} (hf : InFlight s k o) (hk : o.k = .aline t q ent [p] va sp)
    (hpeer : isPeer p.pa = false) (hreach : partReach s (coreOf s o.gk) p = true)
    (hbytes : lineBytes o.gk p va sp s = (.some (bs, bad), w)) :
    exec (.accessProgramReturn k) s = .next (settleTeam t (lineReturn o t q ent bs bad w)) := by
  show execAccessProgramReturn k s = _
  simp [execAccessProgramReturn, show findOp s k = .some o from hf, hk, hpeer, hreach, hbytes]
end

/-! ## The statement -/

/-- Settles O39: a launch record's read comes to a fault, a refusal or an item of its queue; a program's request and a line's return are one
step of R218 each. -/
theorem launchesAndStreamsProceed : Obligations.LaunchesAndStreamsProceed := by
  unfold Obligations.LaunchesAndStreamsProceed
  refine ⟨?launch, ?request, ?ret⟩
  case launch =>
    rintro s v k o q d pa pri va dep bs bad hf rfl hk hpeer hreach hread hal
    have hx := exec_launchRecordRead hf hk hpeer hreach hread
    refine ⟨?_, fun c hbad hc => ⟨fun hne => ?_, ?_⟩⟩
    · rintro rfl
      rw [hx, finishLaunch_marked hal]
    · rw [hx, hbad, finishLaunch_refused hal hc hne]
    · rintro rfl x key it w rfl rfl rfl rfl
      rw [hx, hbad, finishLaunch_appended hal hc]
      rfl
  case request =>
    rintro s w t p r q via hprog hst hready hrec hrows hal hroom he htr hreach v rfl
    exact congrArg (fun x => Host.Outcome.next (settleTeam t x))
      (programRequest_requests hprog hst hready hrec hrows hal hroom he htr hreach)
  case ret =>
    rintro s w k o t q ent p va sp bs bad hf rfl hk hpeer hreach hq hbytes
    rw [exec_accessProgramReturn hf hk hpeer hreach hbytes, lineReturn_fills hq]

end Sys2Proof.Machine
end

section
/-! PROOFS. How joint instructions arrive at the latch (R173 to R175, R181, R184, R187), and `accrel` (R191). -/

namespace Sys2Proof.Machine

/-! ## What the arrival of a group's issuers leaves -/

/-- Lists, GANG values and the operations in flight are the same once the issuers have arrived. -/
theorem gangView_arrive (s : State) : listBad (arrive s) = listBad s ∧ gangBad (arrive s) = gangBad s ∧
    gangStale (arrive s) = gangStale s ∧ (arrive s).mm = s.mm := by
  obtain ⟨h, he⟩ := arrive_withThr s
  rw [he]
  exact ⟨rfl, rfl, rfl, rfl⟩

/-- Accumulator slots, handles and registers are the same once the issuers have arrived. -/
theorem slotView_arrive (s : State) : refSlot (arrive s) = refSlot s ∧ slotWriter (arrive s) = slotWriter s ∧
    getHandle (arrive s) = getHandle s ∧ mmasHandle (arrive s) = mmasHandle s ∧ getS (arrive s) = getS s := by
  obtain ⟨h, he⟩ := arrive_withThr s
  rw [he]
  exact ⟨rfl, rfl, rfl, rfl, rfl⟩

theorem recOf_arrive (s : State) : recOf (arrive s) = recOf s := by
  obtain ⟨h, he⟩ := arrive_withThr s
  rw [he]
  rfl

theorem trapAt_arrive (s : State) (n : TrapName) (x : Word) : trapAt (arrive s) n 0 x = { name := n, pc := s.cur.pc, info := x } := by
  rw [trapAt, arrive_cur]

/-- A gathered group acts in the state in which its issuers have arrived (R144). -/
theorem converge_gathered {s : State} (h : Gathered s) (k : State → State) : converge k s = .next (k (arrive s)) := by
  obtain ⟨hconv, -⟩ := h.arrive
  simp only [converge, hconv, if_true]

/-- The registers of a ready group lie below the launch's counts (R29). -/
theorem UniReady.belowLimit {s : State} {F : Form} (h : UniReady s F) : overLimit s s.cur.gk F = false :=
  overLimit_false (fun f hf => by rw [h.fields f hf]; exact h.limit f hf) (fun d hd => by rw [h.uniform]; exact h.limitD d hd) h.limitM

/-! ## `gang` (R173, R174) -/

section
variable {s : State} {a : Src} (hr : UniReady s (formU1 a)) (hop : s.mm.ops.find? (isMatrixOf s.cur.gk) = .none)
include hr hop

/-- What `gang` does to a ready group that no matrix instruction in flight holds (R174). -/
theorem exec_gang : exec (.gang a) s = .next
    (if gangCount (valS s a.r) ≠ 0 ∧ gangStale s s.cur.gk = true then
      trapGroup (trapAt (arrive s) .gangFault 0 (valS s a.r)) (gangSeen s.cur.gk (arrive s))
    else if gangCount (valS s a.r) = 0 then
      uniCommit (formU1 a) false .none .none .none (setGrp s.cur.gk { getGrp s s.cur.gk with gang := 0 } (arrive s))
    else if bits (valS s a.r) 63 51 ≠ 0 ∨ listBad s s.cur.gk (valS s a.r) = true then
      trapGroup (trapAt (arrive s) .gangFault 0 (valS s a.r)) (arrive s)
    else settleLatch (teamOfG s.cur.gk)
      (enterLatch s.cur.gk (.gang (valS s a.r)) (kills (formU1 a)) (keepCache s.cur.gk 0 (formU1 a) (arrive s)))) := by
  obtain ⟨hlist, -, hstale, hmm⟩ := gangView_arrive s
  obtain ⟨hgrp, -, -⟩ := trapView_arrive s
  have hv : ((formU1 a).flds.map fun f => (getS s s.cur.gk f.r).v).getD 0 0 = valS s a.r := rfl
  show execGang a s = _
  rw [execGang, show ({ uni := true, flds := [fA true a true] } : Form) = formU1 a from rfl, uni_ready hr]
  simp only [hv, arrive_cur, hmm, hop, hlist, hstale, hgrp]

/-- A list of no groups clears GANG (R174). -/
theorem gang_clears (hn : gangCount (valS s a.r) = 0) : ∃ t, exec (.gang a) s = .next t ∧
    UniDone (setGrp s.cur.gk { getGrp s s.cur.gk with gang := 0 } (arrive s)) t (formU1 a) .none .none s.cur.npc := by
  have hdone := uniCommit_none_done (setGrp s.cur.gk { getGrp s s.cur.gk with gang := 0 } (arrive s)) (F := formU1 a) rfl rfl hr.fields
  rw [setGrp_cur, arrive_cur] at hdone
  rw [exec_gang hr hop, if_neg fun h => h.1 hn, if_pos hn]
  exact ⟨_, rfl, hdone⟩

section
variable (hn : gangCount (valS s a.r) ≠ 0)
include hn

/-- A list that passes arrives at the latch (R174, R175). -/
theorem gang_arrives (hzero : bits (valS s a.r) 63 51 = 0) (hlist : listBad s s.cur.gk (valS s a.r) = false)
    (hstale : gangStale s s.cur.gk = false) : exec (.gang a) s = .next (settleLatch (teamOfG s.cur.gk)
      (enterLatch s.cur.gk (.gang (valS s a.r)) (kills (formU1 a)) (keepCache s.cur.gk 0 (formU1 a) (arrive s)))) := by
  rw [exec_gang hr hop, if_neg (by simp [hstale]), if_neg hn, if_neg (by simp [hzero, hlist])]

/-- A GANG value that is no gang's is a fault, once (R173). -/
theorem gang_stale (hstale : gangStale s s.cur.gk = true) : exec (.gang a) s =
    .next (trapGroup { name := .gangFault, pc := s.cur.pc, info := valS s a.r } (gangSeen s.cur.gk (arrive s))) := by
  rw [exec_gang hr hop, if_pos ⟨hn, hstale⟩, trapAt_arrive]

/-- A list that fails the checks is a fault (R174). -/
theorem gang_refused (hstale : gangStale s s.cur.gk = false)
    (hbad : bits (valS s a.r) 63 51 ≠ 0 ∨ listBad s s.cur.gk (valS s a.r) = true) : exec (.gang a) s =
    .next (trapGroup { name := .gangFault, pc := s.cur.pc, info := valS s a.r } (arrive s)) := by
  rw [exec_gang hr hop, if_neg (by simp [hstale]), if_neg hn, if_pos hbad, trapAt_arrive]
end
end

/-! ## The register form (R181) -/

/-- Threads that can read give no wait. -/
theorem any_isWaitGot_false {s : State} {gk : Nat} {pc : Word} {F : Form} {ids : List Nat}
    (h : ∀ i ∈ ids, ∃ v p, readSources s gk i pc F = .ok v p) :
    (ids.map fun i => (i, Option.some (readSources s gk i pc F))).any isWaitGot = false := by
  rw [List.any_map, List.any_eq_false]
  intro i hi
  obtain ⟨v, p, hread⟩ := h i hi
  simp [isWaitGot, hread]

/-- An `mmar` whose checks pass arrives at the latch (R181). -/
theorem mmar_arrives {s : State} {ty : Nat} {d : BitVec 6} {a b : Src} {fa fb : BitVec 3} (h : MmarReady s ty d a b fa fb) :
    mmar ty d a b fa fb s = .next (settleLatch (teamOfG s.cur.gk) (enterLatch s.cur.gk (.mmar ty d a b fa fb) [] (arrive s))) := by
  obtain ⟨hcount, hgang⟩ := h.list
  obtain ⟨hka, hkb⟩ := h.kinds
  obtain ⟨-, hbad, -, -⟩ := gangView_arrive s
  obtain ⟨hgrp, -, -⟩ := trapView_arrive s
  obtain ⟨-, -, -, -, hregs⟩ := slotView_arrive s
  have hC : (ty != 0 && blockOver (recOf s s.cur.gk) ⟨d, .plain⟩ (cBytes ty)) = false :=
    Bool.and_eq_false_imp.2 fun hty => h.blockC (bne_iff_ne.1 hty)
  have href : (ty == 0 && decide ((recOf s s.cur.gk).ns ≤ d.toNat)) = false :=
    Bool.and_eq_false_imp.2 fun hty => decide_eq_false (Nat.not_le.2 (h.ref (beq_iff_eq.1 hty)).1)
  have hempty : ¬ (ty = 0 ∧ (getS s s.cur.gk d).st = .empty) := fun ⟨hty, he⟩ => (h.ref hty).2 he
  have hwait := any_isWaitGot_false h.reads
  rw [mmar]
  simp only [h.blockA, hC, href, hka, hkb, decide_eq_false (Nat.not_le.2 h.baseB), bne_self_eq_false, Bool.or_self, Bool.false_eq_true,
    if_false, converge_gathered h.toGathered]
  simp only [arrive_cur, hgrp, hbad, hcount, hgang, h.blockB, hwait, hregs, hempty, or_self, Bool.false_eq_true, if_false]

theorem exec_mmarForms : ∀ e ∈ mmarForms, ∀ d a b fa fb s, exec (e.1 d a b fa fb) s = mmar e.2 d a b fa fb s := by
  simp only [mmarForms, List.forall_mem_cons, List.not_mem_nil, false_imp_iff, implies_true, and_true]
  refine ⟨?_, ?_, ?_, ?_, ?_⟩ <;> exact fun _ _ _ _ _ _ => rfl

/-! ## The streamed form (R184, R187) -/

theorem keepCache_cur (gk i : Nat) (F : Form) (s : State) : (keepCache gk i F s).cur = s.cur := by
  obtain ⟨_, ho⟩ := keepCache_eq gk i F s
  rw [ho]

/-- Operands that pass the checks of R187 leave the group in the latch, after its release. -/
theorem mmasBody_arrives {s u w : State} {F : Form} {ty p : Nat} {d : BitVec 6} {v : List Word} {ha hb : Handle} {sa sb : Shape}
    (hg : Gathered s) (h : MmasReady s u w ty d (v.getD 0 0) (v.getD 1 0) (v.getD 2 0) ha hb sa sb) :
    ∃ x, mmasBody ty p F d v 0 (arrive s) = .ok x ∧
      holdAll .none x = mmasArrived w F ty p d (v.getD 0 0) (v.getD 1 0) (v.getD 2 0) sa sb := by
  obtain ⟨hz1, hz2, hz3⟩ := h.zero
  obtain ⟨hha, hhb⟩ := h.handles
  obtain ⟨hra, hrb⟩ := h.ready
  obtain ⟨hoka, hspana⟩ := h.okA
  obtain ⟨hokb, hspanb⟩ := h.okB
  obtain ⟨hcount, hgang⟩ := h.list
  obtain ⟨hrefs, -, hhandle, hmmas, -⟩ := slotView_arrive s
  obtain ⟨hgrp, -, -⟩ := trapView_arrive s
  have hslot : ¬ (ty = 0 ∧ v.getD 2 0 ≠ 0 ∧ (refSlot s s.cur.gk (v.getD 2 0)).isNone = true) := fun ⟨hty, hne, hnone⟩ => by
    have hsome := h.slot hty hne
    rw [Option.isNone_iff_eq_none.1 hnone] at hsome
    cases hsome
  refine ⟨_, ?_, rfl⟩
  rw [mmasBody]
  simp only [arrive_cur, hz1, hz2, hz3, hrefs, hslot, hhandle, hha, hhb, hmmas, hra, hrb, Option.orElse,
    denyOf_arrive hg, h.shapeA, h.shapeB, h.same, recOf_arrive, hoka, hspana, hokb, hspanb, hgrp, hcount, hgang, h.release, ne_eq,
    not_true_eq_false, or_self, Bool.true_eq_false, Bool.false_eq_true, if_false]
  split
  next i r hscan =>
    obtain ⟨j, hj, hstall⟩ := List.exists_of_findSome?_eq_some hscan
    obtain ⟨x, q, hread⟩ := h.reads j hj
    simp [hread] at hstall
  next =>
    rw [keepCache_cur, cur_releaseCore, h.same]

/-- A streamed form whose operands pass the checks arrives at the latch. -/
theorem mmas_arrives {s u w : State} {ty p : Nat} {d : BitVec 6} {a b : Src} {v : List Word} {ha hb : Handle} {sa sb : Shape}
    (hr : UniReady s (mmasForm ty d a b)) (hv : v = (mmasForm ty d a b).flds.map fun f => (getS s s.cur.gk f.r).v)
    (h : MmasReady s u w ty d (v.getD 0 0) (v.getD 1 0) (v.getD 2 0) ha hb sa sb) :
    mmas ty p d a b s = .next (settleLatch (teamOfG s.cur.gk)
      (mmasArrived w (mmasForm ty d a b) ty p d (v.getD 0 0) (v.getD 1 0) (v.getD 2 0) sa sb)) := by
  obtain ⟨x, hx, harr⟩ := mmasBody_arrives (F := mmasForm ty d a b) (p := p) hr.toGathered h
  have hblock : (ty != 0 && blockOver (recOf s s.cur.gk) ⟨d, .plain⟩ (cBytes ty)) = false :=
    Bool.and_eq_false_imp.2 fun hty => h.block (bne_iff_ne.1 hty)
  rw [mmas]
  simp only [hr.belowLimit, hblock, Bool.or_self, Bool.false_eq_true, if_false, uni_ready hr, ← hv, hx, harr, arrive_cur]

theorem exec_mmasForms : ∀ e ∈ mmasForms, ∀ d a b n s, exec (e.1 d a b n) s = mmas e.2 (n.toNat + 1) d a b s := by
  simp only [mmasForms, List.forall_mem_cons, List.not_mem_nil, false_imp_iff, implies_true, and_true]
  refine ⟨?_, ?_, ?_, ?_⟩ <;> exact fun _ _ _ _ _ => rfl

/-- The forms with accumulator registers read two operands only. -/
theorem mmasForm_mmasForms : ∀ e ∈ mmasForms, ∀ d a b, mmasForm e.2 d a b = formU2 a b := by
  simp only [mmasForms, List.forall_mem_cons, List.not_mem_nil, false_imp_iff, implies_true, and_true]
  refine ⟨?_, ?_, ?_, ?_⟩ <;> exact fun _ _ _ => rfl

/-! ## `accrel` (R191) -/

/-- An `accrel` that only releases has no source to kill or to keep. -/
theorem commitStore_accrelForm_none (d : BitVec 6) (s : State) : commitStore 0 (accrelForm d .none) s = s := rfl

section
variable {s : State} {d : BitVec 6} (hr : UniReady s (accrelForm d .none))
include hr

theorem exec_accrel_none : exec (.accrel d .none) s = .next (accGroup (accrelBody d .none [valS s d] (arrive s)) (arrive s)) :=
  accUni_ready (F := accrelForm d .none) hr fun v _ s => accrelBody d .none v s

/-- A reference of 0 frees nothing. -/
theorem accrel_zero (h0 : valS s d = 0) : exec (.accrel d .none) s = .next (passGroup s.cur.gk s.cur.npc (arrive s)) := by
  rw [exec_accrel_none hr]
  simp only [accrelBody, Option.isSome_none, List.getD_cons_zero, h0, commitStore_accrelForm_none, accGroup, arrive_cur,
    Bool.false_eq_true, if_true, if_false]

/-- A current reference frees its slot once nothing in flight writes it. -/
theorem accrel_frees {n : Nat} (h0 : valS s d ≠ 0) (hs : refSlot s s.cur.gk (valS s d) = .some n)
    (hw : slotWriter s s.cur.gk n = .none) : exec (.accrel d .none) s = .next (passGroup s.cur.gk s.cur.npc
      (writeDst s.cur.gk 0 true d 0 false (setSlot s.cur.gk n .none (arrive s)))) := by
  obtain ⟨href, hwriter, -, -, -⟩ := slotView_arrive s
  have hcur : (setSlot s.cur.gk n .none (arrive s)).cur = s.cur := arrive_cur s
  rw [exec_accrel_none hr]
  simp only [accrelBody, Option.isSome_none, List.getD_cons_zero, h0, arrive_cur, href, hs, hwriter, hw,
    commitStore_accrelForm_none, accGroup, cur_writeDst, hcur, Bool.false_eq_true, if_false]

/-- A reference that names no slot is a fault. -/
theorem accrel_stale (h0 : valS s d ≠ 0) (hs : refSlot s s.cur.gk (valS s d) = .none) : exec (.accrel d .none) s =
    .next (trapGroup { name := .slotFault, pc := s.cur.pc, info := valS s d } (arrive s)) := by
  obtain ⟨href, -, -, -, -⟩ := slotView_arrive s
  rw [exec_accrel_none hr]
  simp only [accrelBody, Option.isSome_none, List.getD_cons_zero, h0, arrive_cur, href, hs, accGroup, trapAt_arrive, Bool.false_eq_true,
    if_false]
end

/-- A tile of a slot that passes the checks of R187 is written through its shape. -/
theorem accrelWrite_writes {s u : State} {n : Nat} {x : Word} {y : Handle} {sh : Shape} {z : Slot} (hg : Gathered s)
    (hh : getHandle s (teamOfG s.cur.gk) (bits x 22 16) = .some y) (hst : isEngine y.st = false)
    (hsh : getShape s.cur.gk (denyOf s s.cur.gk 0 true) (bits x 15 0) (arrive s) = (.ok sh, u))
    (hok : stashShapeOk (recOf u u.cur.gk) sh 0 true = true) (hu : u.cur = s.cur) (hspan : spanIn y (shapeSpan sh 64) = true)
    (hbusy : ((rowParts y sh 16 24 64).findSome? fun r => busyTile u (teamOfG s.cur.gk) r.1 r.2) = .none)
    (hwait : issueWait true 0 .s ((rowParts y sh 16 24 64).map fun r => ⟨r.1, r.2, .rc⟩) false u = .none)
    (hz : getSlot u s.cur.gk n = .some z) : accrelWrite n x (arrive s) = .ok (writeTile (teamOfG s.cur.gk) y sh z.d u) := by
  obtain ⟨-, -, hhandle, -, -⟩ := slotView_arrive s
  rw [hu] at hok
  simp only [accrelWrite, arrive_cur, hhandle, hh, hst, denyOf_arrive hg, hsh, hok, hspan, hbusy, hwait, hz, Bool.true_eq_false,
    Bool.false_eq_true, if_false]

/-- What `accrel.st` leaves of the state `w` that holds its written tile: the slot is freed unless it is kept. -/
def accrelStored (gk n : Nat) (d : BitVec 6) (keep : Bool) (b : Src) (w : State) : State :=
  if keep then commitStore 0 (accrelForm d (.some (keep, b))) w
  else writeDst gk 0 true d 0 false (commitStore 0 (accrelForm d (.some (keep, b))) (setSlot gk n .none w))

theorem accrelStored_cur (gk n : Nat) (d : BitVec 6) (keep : Bool) (b : Src) (w : State) : (accrelStored gk n d keep b w).cur = w.cur := by
  cases keep with
  | true => exact commitStore_cur ..
  | false => exact (cur_writeDst ..).trans (commitStore_cur ..)

/-- `accrel.st` passes once its tile is written. -/
theorem accrel_stores {s w : State} {d : BitVec 6} {b : Src} {keep : Bool} {n : Nat} (hr : UniReady s (accrelForm d (.some (keep, b))))
    (hx : bits (valS s b.r) 63 23 = 0) (hs : refSlot s s.cur.gk (valS s d) = .some n) (hw : slotWriter s s.cur.gk n = .none)
    (hwrite : accrelWrite n (valS s b.r) (arrive s) = .ok w) (hcur : w.cur = s.cur) :
    exec (.accrel d (.some (keep, b))) s = .next (passGroup s.cur.gk s.cur.npc (accrelStored s.cur.gk n d keep b w)) := by
  obtain ⟨href, hwriter, -, -, -⟩ := slotView_arrive s
  have hbody : accrelBody d (.some (keep, b)) [valS s b.r, valS s d] (arrive s) = .ok (accrelStored s.cur.gk n d keep b w) := by
    simp only [accrelBody, Option.isSome_some, List.getD_cons_zero, List.getD_cons_succ, hx, arrive_cur, href, hs, hwriter, hw, hwrite,
      accrelStored, ne_eq, not_true_eq_false, if_true, if_false]
  have hgo := accUni_goesOn (F := accrelForm d (.some (keep, b))) (body := fun v _ s => accrelBody d (.some (keep, b)) v s) hr hbody
  rw [accrelStored_cur, hcur] at hgo
  exact hgo

/-! ## The statement -/

/-- Settles O31, one instruction per clause: each passes its checks in the state in which its group has gathered. -/
theorem matrixAndAccumulators : Obligations.MatrixAndAccumulators := by
  unfold Obligations.MatrixAndAccumulators
  refine ⟨⟨?gang, ?mmar, ?mmasSlot, ?mmasBlock⟩, ?accrel, ?accrelStore⟩
  case gang =>
    exact fun s a hr hop => ⟨gang_clears hr hop, fun hn hz hl hs => gang_arrives hr hop hn hz hl hs, gang_stale hr hop,
      fun hn hs hb => gang_refused hr hop hn hs hb⟩
  case mmar =>
    intro e he s d a b fa fb h
    rw [exec_mmarForms e he, mmar_arrives h]
  case mmasSlot =>
    intro s u w d a b ha hb sa sb hr h
    exact mmas_arrives (p := 1) (v := [valS s a.r, valS s b.r, valS s d]) hr rfl h
  case mmasBlock =>
    intro e he s u w d a b n ha hb sa sb hr h
    have hform := mmasForm_mmasForms e he d a b
    rw [exec_mmasForms e he, ← hform]
    rw [← hform] at hr
    exact mmas_arrives (v := [valS s a.r, valS s b.r]) hr (by rw [hform]; rfl) h
  case accrel =>
    exact fun s d hr => ⟨accrel_zero hr, fun n h0 hs hw => accrel_frees hr h0 hs hw, accrel_stale hr⟩
  case accrelStore =>
    rintro s w d b keep n hr hx hs hw ⟨y, sh, z, u, hh, hst, hsh, hok, hu, hspan, hbusy, hwait, hz, rfl, hcur⟩
    exact accrel_stores hr hx hs hw (accrelWrite_writes hr.toGathered hh hst hsh hok hu hspan hbusy hwait hz) hcur

end Sys2Proof.Machine
end

section
/-! PROOFS. How record operations issue (R192 to R196, R200, R201, R258). -/

namespace Sys2Proof.Machine

/-! ## Operations put in flight beside a change of the issuer's team -/

/-- An operation that is put in flight does not depend on its team's handles and allowances. -/
theorem newOp_setTeam {s : State} {t : Nat} {x : Team} (hcore : x.core = (getTeam s t).core) (hpair : x.pair = (getTeam s t).pair)
    (gk tid : Nat) (ia : Word) (k : OpK) : newOp gk tid ia k (setTeam t x s) = newOp gk tid ia k s := by
  have hof : coreOf (setTeam t x s) gk = coreOf s gk := by
    simp only [coreOf, getTeam_setTeam]
    split
    · next e => rw [hcore, hpair, e]; rfl
    · rfl
  rw [newOp, newOp, hof]
  rfl

theorem newOp_setHandle (t h gk tid : Nat) (x : Handle) (ia : Word) (k : OpK) (s : State) :
    newOp gk tid ia k (setHandle t h x s) = newOp gk tid ia k s :=
  newOp_setTeam (x := { getTeam s t with handles := tset .none h (.some x) (getTeam s t).handles }) rfl rfl ..

theorem newOp_charge (t n units gk tid : Nat) (ia : Word) (k : OpK) (s : State) :
    newOp gk tid ia k (charge t n units s) = newOp gk tid ia k s :=
  newOp_setTeam (x := { getTeam s t with allow := tset 0 n (allowOf s t n - units) (getTeam s t).allow }) rfl rfl ..

/-- A free choice of a list that is not empty is one of its members. -/
theorem pick_mem {α : Type} {l : List α} (h : l ≠ []) (d : α) (s : State) : (pick l d s).1 ∈ l := by
  match l, h with
  | [x], _ => exact List.mem_singleton_self x
  | x :: y :: l, _ =>
    have hlt : Config.choice s.fresh % (x :: y :: l).length < (x :: y :: l).length := Nat.mod_lt _ (by simp)
    show (x :: y :: l).getD (Config.choice s.fresh % (x :: y :: l).length) d ∈ _
    rw [List.getD_eq_getElem _ _ hlt]
    exact List.getElem_mem hlt

/-- A free choice takes at most a free value's number. -/
theorem pick_state {α : Type} (l : List α) (d : α) (s : State) : ∃ n, (pick l d s).2 = { s with fresh := n } := by
  match l with
  | [] => exact ⟨s.fresh, rfl⟩
  | [_] => exact ⟨s.fresh, rfl⟩
  | _ :: _ :: _ => exact ⟨s.fresh + 1, rfl⟩

/-- The open of a record is the same operation once its handle fills. -/
theorem newOp_openSent (s : State) (h : Nat) (y : Handle) (gk tid : Nat) (ia : Word) (k : OpK) :
    newOp gk tid ia k (openSent s h y) = newOp gk tid ia k s ∧ (openSent s h y).cur = s.cur := by
  obtain ⟨n, hn⟩ := pick_state (freeRecs s s.cur.gk).1 0 s
  refine ⟨?_, ?_⟩
  · rw [openSent, newOp_setHandle, hn]; rfl
  · rw [openSent, hn]; rfl

/-! ## The fields of a term (R195) -/

theorem bits_low9 (x : Word) : bits x 8 0 = x.toNat % 512 := by simp [bits]
theorem bits_low32 (x : Word) : bits x 31 0 = x.toNat % 2 ^ 32 := by simp [bits]
theorem bits_high32 (x : Word) : bits x 63 32 = x.toNat / 2 ^ 32 := by
  have := x.isLt
  simp only [bits]
  omega
theorem lo32_eq (x : Word) : lo32 x = x.extractLsb' 0 32 := by
  apply BitVec.eq_of_toNat_eq
  simp [lo32]
theorem hi32_eq (x : Word) : hi32 x = x.extractLsb' 32 32 := by
  apply BitVec.eq_of_toNat_eq
  simp [hi32]

/-! ## `copen` (R194, R258) -/

section
variable {s : State} {i : Nat} {a : Src} (ha : Alone s i)
include ha

/-- A record that passes the checks of R194 is on its way to its place, under a free id. -/
theorem copen_issues {d : BitVec 6} {l : Bool} {h : BitVec 7} {y : Handle} {w : List (BitVec 32)} {off : Nat}
    (hr : LaneReady s (copenForm d a)) (hoff : off = (valV s i a.r).toNat) (hal : off % 64 = 0)
    (hh : getHandle s (teamOfG s.cur.gk) h.toNat = .some y) (hdrain : y.st ≠ .draining) (hfill : y.st = .filling → y.recs ≠ 0)
    (hothers : ∀ p ∈ (getTeam s (teamOfG s.cur.gk)).handles, ∀ z, p.2 = .some z → tilesMeet y.off z.off y.size z.size = true →
      (p.1 = h.toNat ∨ isEngine z.st = false) ∧ z.mm = 0)
    (hw : w = words32 (stashRead s (teamOfG s.cur.gk) off 64)) (hareas : ∀ r ∈ recAreas l off w, y.off ≤ r.1 ∧ r.1 + r.2 ≤ y.off + y.size)
    (hwords : recWordsBad l w = false) (hroom : (freeRecs s s.cur.gk).2 < 512) (hfree : (freeRecs s s.cur.gk).1 ≠ [])
    (hopen : openAt s (teamOfG s.cur.gk) off = false) (hwait : issueWait false i .s [⟨off, 64, .rc⟩] false s = .none)
    (hbad : stashBad s (teamOfG s.cur.gk) off 64 = false) :
    ∃ t, exec (.copen d a l h) s = .next t ∧ LaneIssued (openSent s h.toNat y) t i (copenForm d a)
      [opHere s i (.rop (teamOfG s.cur.gk) .none false (.copen d (pick (freeRecs s s.cur.gk).1 0 s).1 off h.toNat l))] := by
  obtain ⟨hnew, hcur⟩ := newOp_openSent s h.toNat y s.cur.gk i s.cur.pc
    (.rop (teamOfG s.cur.gk) .none false (.copen d (pick (freeRecs s s.cur.gk).1 0 s).1 off h.toNat l))
  have hinside : (recAreas l off w).find? (fun r => !decide (y.off ≤ r.1 ∧ r.1 + r.2 ≤ y.off + y.size)) = .none :=
    List.find?_eq_none.2 fun r hr => by simpa using hareas r hr
  have hbody : copenBody (copenForm d a) d l h.toNat [valV s i a.r] i s =
      .ok (addOp s.cur.gk i s.cur.pc (.rop (teamOfG s.cur.gk) .none false (.copen d (pick (freeRecs s s.cur.gk).1 0 s).1 off h.toNat l))
        (commitLong i (copenForm d a) (openSent s h.toNat y))) := by
    rw [openSent] at hcur
    rw [copenBody]
    simp only [List.getD_cons_zero, ← hoff, hal, hh, ← hw, hinside, hwords, decide_eq_false (Nat.not_le.2 hroom),
      List.isEmpty_eq_false_iff.2 hfree, hopen, hwait, hbad, hcur, openSent, Bool.or_self, Bool.false_eq_true, ne_eq, not_true_eq_false,
      if_false]
    rw [if_neg (not_or.2 ⟨hdrain, not_or.2 ⟨fun ⟨hf, h0⟩ => hfill hf h0, ?others⟩⟩)]
    case others =>
      rw [Bool.not_eq_true, List.any_eq_false]
      rintro ⟨n, z⟩ hp hmeets
      cases z with
      | none => cases hmeets
      | some z =>
        rw [Bool.and_eq_true] at hmeets
        obtain ⟨hstate, hmm⟩ := hothers _ hp z rfl hmeets.1
        rcases hstate with (hn : n = h.toNat) | he
        · simp [hn, hmm] at hmeets
        · simp [he, hmm] at hmeets
  rw [opHere, ← hnew]
  exact accLane_issues hr ha (by simp [copenForm, fA]) hcur hbody

/-! ## `cadd` (R195, R196) -/

/-- The operation that a term is sent as, from the words of its three sources. -/
def termOp (p : BitVec 3) (lse : Bool) (x y z : Word) (vec : List (BitVec 32)) : RecOp :=
  if lse then .cadd p (x.toNat % 512) true (y.extractLsb' 0 32) (y.extractLsb' 32 32) (z.extractLsb' 0 32) 0 0 vec
  else .cadd p (x.toNat % 512) false (y.extractLsb' 0 32) (y.extractLsb' 32 32) (z.extractLsb' 0 32) (z.extractLsb' 32 32)
    (x.extractLsb' 32 32) []

section
variable {p : BitVec 3} {b c : Src} (hr : LaneReady s (caddForm p a b c)) (hwait : issueWait false i .s [] false s = .none)
include hr hwait

/-- A term of an open record of the thread's own team is sent to it. -/
theorem cadd_local_issues {r : Rec} {vec : List (BitVec 32)} (hclose : closing s s.cur.gk i ((valV s i a.r).toNat % 512) = .none)
    (hown : ownRec s s.cur.gk ((valV s i a.r).toNat % 512) = .some r)
    (hvec : isLse r = true → (valV s i c.r).toNat / 2 ^ 32 = (rw r 4).toNat ∧
      readVec i ((valV s i a.r).toNat / 2 ^ 32) ((valV s i c.r).toNat / 2 ^ 32) s = .inr vec) :
    ∃ t, exec (.cadd p a b c .none) s = .next t ∧ LaneIssued s t i (caddForm p a b c)
      [opHere s i (.rop (teamOfG s.cur.gk) .none false (termOp p (isLse r) (valV s i a.r) (valV s i b.r) (valV s i c.r) vec))] := by
  refine accLane_issues (F := caddForm p a b c) hr ha (by simp [caddForm, fA, fB, fC]) rfl (body := caddBody (caddForm p a b c) p .none) ?_
  show caddBody (caddForm p a b c) p .none [valV s i a.r, valV s i b.r, valV s i c.r] i s = _
  rw [caddBody]
  simp only [List.getD_cons_zero, List.getD_cons_succ, bits_low9, bits_high32, lo32_eq, hi32_eq, hclose, hown, hwait]
  cases hk : isLse r with
  | false => rfl
  | true =>
    obtain ⟨hn, hread⟩ := hvec hk
    rw [hn] at hread
    simp only [hn, hread, Bool.not_true, Bool.false_eq_true, ne_eq, not_true_eq_false, if_true, if_false]
    rfl

/-- A term that a capability entry carries is sent to the record of the entry's team, at one unit of the allowance. -/
theorem cadd_remote_issues {n : BitVec 6} {e : Cap} {vec : List (BitVec 32)} (hcap : capOf s s.cur.gk n.toNat = .some e)
    (hkind : e.kind = .comp) (hsend : e.s = true) (hteam : e.operand.toNat % 2 ^ 32 < (recOf s s.cur.gk).teams)
    (hallow : allowOf s (teamOfG s.cur.gk) n.toNat ≠ 0)
    (hvec : bitAt e.operand 32 = true → 1 ≤ (valV s i c.r).toNat / 2 ^ 32 ∧ (valV s i c.r).toNat / 2 ^ 32 ≤ 64 ∧
      readVec i ((valV s i a.r).toNat / 2 ^ 32) ((valV s i c.r).toNat / 2 ^ 32) s = .inr vec) :
    ∃ t, exec (.cadd p a b c (.some n)) s = .next t ∧ LaneIssued (charge (teamOfG s.cur.gk) n.toNat 1 s) t i (caddForm p a b c)
      [opHere s i (.rop (teamKey (gridOfG s.cur.gk) (e.operand.toNat % 2 ^ 32)) (.some n.toNat) false
        (termOp p (bitAt e.operand 32) (valV s i a.r) (valV s i b.r) (valV s i c.r) vec))] := by
  rw [opHere, ← newOp_charge (teamOfG s.cur.gk) n.toNat 1]
  refine accLane_issues (F := caddForm p a b c) hr ha (by simp [caddForm, fA, fB, fC]) rfl
    (body := caddBody (caddForm p a b c) p (.some n.toNat)) ?_
  show caddBody (caddForm p a b c) p (.some n.toNat) [valV s i a.r, valV s i b.r, valV s i c.r] i s = _
  rw [caddBody]
  simp only [List.getD_cons_zero, List.getD_cons_succ, bits_low9, bits_low32, bits_high32, lo32_eq, hi32_eq, hcap, hkind, hsend,
    hallow, hwait, Nat.not_le.2 hteam, ne_eq, not_true_eq_false, Bool.true_eq_false, or_self, if_false]
  cases hk : bitAt e.operand 32 with
  | false => rfl
  | true =>
    obtain ⟨hlo, hhi, hread⟩ := hvec hk
    have hlen : ¬ ((valV s i c.r).toNat / 2 ^ 32 = 0 ∨ 64 < (valV s i c.r).toNat / 2 ^ 32) := by omega
    simp only [hread, hlen, Bool.not_true, Bool.false_eq_true, if_true, if_false]
    rfl
end

/-! ## The other operations of an open record (R200) -/

/-- An operation of an open record of the thread's team is sent to it. -/
theorem recOp_issues {F : Form} {op : Nat → RecOp} {r : Rec} (hr : LaneReady s F) (hF : F.flds = [strictF false a 0])
    (hwait : issueWait false i .s [] false s = .none) (hclose : closing s s.cur.gk i ((valV s i a.r).toNat % 512) = .none)
    (hown : ownRec s s.cur.gk ((valV s i a.r).toNat % 512) = .some r) :
    ∃ t, accLane F (recOpBody F op) s = .next t ∧ LaneIssued s t i F
      [opHere s i (.rop (teamOfG s.cur.gk) .none false (op ((valV s i a.r).toNat % 512)))] := by
  refine accLane_issues hr ha (by simp [hF]) rfl ?_
  have hv : (F.flds.map fun f => (getR s s.cur.gk i f.uni f.r).v) = [valV s i a.r] := by rw [hF]; rfl
  rw [hv, recOpBody]
  simp only [List.getD_cons_zero, bits_low9, hclose, hown, hwait]

/-! ## `creplay` (R201) -/

/-- A replay whose checks pass has written its rows and is in flight (R201). -/
theorem creplay_issues {u w : State} {d : BitVec 6} {b : Src} {x : BitVec 16} {h : BitVec 7} {rb bb : List Byte} {n : Nat}
    {y : Handle} {sh : Shape} {log : List Byte} (hr : LaneReady s (creplayForm d a b))
    (hA : (valV s i a.r).toNat + 64 ≤ windowOf s (teamOfG s.cur.gk)) (hB : (valV s i b.r).toNat + 24 ≤ windowOf s (teamOfG s.cur.gk))
    (hrb : stashGet s (valV s i a.r).toNat 64 = .ok rb) (hbb : stashGet s (valV s i b.r).toNat 24 = .ok bb)
    (h0 : ((words32 rb).getD 6 0).getLsbD 0 = false) (h3 : ((words32 rb).getD 6 0).getLsbD 3 = false)
    (h4 : ((words32 rb).getD 6 0).getLsbD 4 = false) (hn : n = ((words32 rb).getD 10 0).toNat)
    (hlog : n ≠ 0 → stashGet s ((words32 rb).getD 8 0).toNat (32 * n) = .ok log) (hh : getHandle s (teamOfG s.cur.gk) h.toNat = .some y)
    (hsh : getShape s.cur.gk (denyOf s s.cur.gk i false) x.toNat s = (.ok sh, u))
    (hok : stashShapeOk (recOf u s.cur.gk) sh 1 true = true) (hspan : spanIn y (shapeSpan sh 32) = true)
    (hbusy : ((rowParts y sh n 4 32).findSome? fun r => busyTile u (teamOfG s.cur.gk) r.1 r.2) = .none)
    (hwait : issueWait false i .s (⟨(valV s i a.r).toNat, 64, .rc⟩ :: ⟨(valV s i b.r).toNat, 24, .rc⟩ ::
      ⟨((words32 rb).getD 8 0).toNat, 32 * n, .rc⟩ :: (rowParts y sh n 4 32).map fun r => ⟨r.1, r.2, .rc⟩) false u = .none)
    (hw : w = replayRows (teamOfG s.cur.gk) ((words32 rb).getD 8 0).toNat y sh ((words32 bb).take 3) n ((words32 bb).drop 3)
      (commitLong i (creplayForm d a b) u)) (hcur : w.cur = s.cur) :
    exec (.creplay d a b x h) s = .next (goOn s.cur.gk s.cur.npc (addOp s.cur.gk i s.cur.pc (.creplay d n) w) i) := by
  have hbody : creplayBody (creplayForm d a b) d x.toNat h.toNat [valV s i a.r, valV s i b.r] i s =
      .ok (addOp s.cur.gk i s.cur.pc (.creplay d n) w) := by
    rw [creplayBody]
    simp only [List.getD_cons_zero, List.getD_cons_succ, Nat.not_lt.2 hA, Nat.not_lt.2 hB, hrb, hbb, h0, h3, h4, ← hn, hh, hsh, hok,
      hspan, hbusy, hwait, ← hw, hcur, Bool.or_self, Bool.true_eq_false, Bool.false_eq_true, if_false]
    by_cases hz : n = 0
    · simp only [hz, if_true]
    · simp only [if_neg hz, hlog hz]
  have hgo := accLane_goesOn (F := creplayForm d a b) (body := creplayBody (creplayForm d a b) d x.toNat h.toNat) hr ha hbody
  have hadd : (addOp s.cur.gk i s.cur.pc (.creplay d n) w).cur = s.cur := hcur
  rw [hadd] at hgo
  exact hgo
end

/-! ## The statement -/

/-- Settles O32, one instruction per clause: each passes its checks at issue and leaves its operation in flight. -/
theorem recordOperationsIssue : Obligations.RecordOperationsIssue := by
  unfold Obligations.RecordOperationsIssue
  refine ⟨?copen, ?cadd, ?others, ?creplay⟩
  case copen =>
    intro s i d a l h y w off ha hr hoff hal hh hdrain hfill hothers hw hareas hwords hroom hfree hopen hwait hbad
    obtain ⟨t, hx, hissued⟩ := copen_issues ha hr hoff hal hh hdrain hfill hothers hw hareas hwords hroom hfree hopen hwait hbad
    exact ⟨t, hx, pick_mem hfree 0 s, hissued⟩
  case cadd =>
    intro s i p a b c ha hwait hr
    refine ⟨fun r hclose hown => ⟨fun hk => ?_, fun vec hk hn hread => ?_⟩, fun n e hcap hkind hsend hk hteam hallow => ?_,
      fun n e vec hcap hkind hsend hk hteam hallow hlo hhi hread => ?_⟩
    · have hx := cadd_local_issues (vec := []) ha hr hwait hclose hown (by simp [hk])
      rwa [hk] at hx
    · have hx := cadd_local_issues ha hr hwait hclose hown fun _ => ⟨hn, hread⟩
      rwa [hk] at hx
    · have hx := cadd_remote_issues (vec := []) ha hr hwait hcap hkind hsend hteam hallow (by simp [hk])
      rwa [hk] at hx
    · have hx := cadd_remote_issues ha hr hwait hcap hkind hsend hteam hallow fun _ => ⟨hlo, hhi, hread⟩
      rwa [hk] at hx
  case others =>
    intro s i a r ha hwait hclose hown
    exact ⟨fun hr => ⟨recOp_issues ha hr rfl hwait hclose hown, recOp_issues ha hr rfl hwait hclose hown⟩,
      fun d k hr => recOp_issues ha hr rfl hwait hclose hown⟩
  case creplay =>
    rintro s w i d a b x h rb bb ha hr hA hB hrb hbb h0 h3 h4 n rfl ⟨y, sh, u, log, hlog, hh, hsh, -, hok, hspan, hbusy, hwait, hw, hcur⟩
    exact creplay_issues ha hr hA hB hrb hbb h0 h3 h4 rfl hlog hh hsh hok hspan hbusy hwait hw hcur

end Sys2Proof.Machine
end

section
/-! PROOFS. A quarter's cycles (R208, R212, R213) and the arrival bit of a core (R384). -/

namespace Sys2Proof.Machine

/-! ## Regrouping (R208) -/

/-- A quarter regroups at a cycle count that is a multiple of 4 only. -/
theorem exec_regrouping (core q : Nat) (s : State) : exec (.regrouping core q) s =
    .next (if tget 0 (core * 4 + q) s.sc.cyc % 4 = 0 then regroup core q (refreshQuarter core q s) else s) := rfl

/-! ## One issue cycle (R212, R213) -/

/-- The tenant that `chooseBundle` serves, the counters after it, and the scavenger served last. -/
def cycleChoice (core q : Nat) (s : State) : Option Nat × List (Nat × Int) × Nat :=
  chooseTenant s (core * 4 + q) (tenantsOf s core) ((candidates s core q).map fun b => vdevOfG s b.gk).eraseDups

/-- A quarter with its deficit counters, and the scavenger served last, replaced. -/
def chargeQuarter (core q : Nat) (dcs : List (Nat × Int)) (z : Nat) (s : State) : State :=
  { s with sc := { s.sc with dc := setDcs (core * 4 + q) dcs s.sc.dc, zlast := tset 0 (core * 4 + q) z s.sc.zlast } }

/-- A bundle that is selected for issue in this cycle, with the ages that its threads had. -/
def selectBundle (core q : Nat) (b : Sel) (w : State) : State :=
  { ageBundle b (tget 0 (core * 4 + q) w.sc.cyc) w with
    sel := { b with ages := b.tids.map fun i => (i, (getThr w (threadKey b.gk i)).last) }
    sc := { w.sc with issues := w.sc.issues + 1 } }

/-- Charging a quarter does not change whose the groups are. -/
@[simp] theorem vdevOfG_chargeQuarter (core q : Nat) (dcs : List (Nat × Int)) (z : Nat) (s : State) (gk : Nat) :
    vdevOfG (chargeQuarter core q dcs z s) gk = vdevOfG s gk := rfl

/-- A cycle that is not withheld charges the counters and selects the served tenant's first candidate, if there is one (R212, R213). -/
theorem chooseBundle_eq {core q z : Nat} {s : State} {r : Option Nat} {dcs : List (Nat × Int)} (h : cycleChoice core q s = (r, dcs, z)) :
    chooseBundle core q s = (r.bind fun v => firstBundle (chargeQuarter core q dcs z s)
      ((candidates s core q).filter fun b => vdevOfG (chargeQuarter core q dcs z s) b.gk == v)).elim (chargeQuarter core q dcs z s)
        fun b => selectBundle core q b (chargeQuarter core q dcs z s) := by
  obtain rfl : r = (cycleChoice core q s).1 := by rw [h]
  obtain rfl : dcs = (cycleChoice core q s).2.1 := by rw [h]
  obtain rfl : z = (cycleChoice core q s).2.2 := by rw [h]
  rw [chooseBundle]
  split
  case h_1 hnone => exact (congrArg (Option.elim · _ (selectBundle core q · _)) hnone).symm
  case h_2 b hb => exact (congrArg (Option.elim · _ (selectBundle core q · (chargeQuarter core q _ _ s))) hb).symm

section
variable {core q : Nat} {s : State}

/-- A withheld cycle has counted and regrouped, and chooses nothing (R399). -/
theorem exec_issueCycle_withheld (h : withheld (beginCycle core q s) core (tget 0 (core * 4 + q) s.sc.cyc) = true) :
    exec (.issueCycle core q) s = .next (beginCycle core q s) :=
  congrArg Host.Outcome.next (if_pos h)

theorem exec_issueCycle_chooses (h : withheld (beginCycle core q s) core (tget 0 (core * 4 + q) s.sc.cyc) = false) :
    exec (.issueCycle core q) s = .next (chooseBundle core q (beginCycle core q s)) :=
  congrArg Host.Outcome.next (if_neg (Bool.eq_false_iff.1 h))
end

/-! ## The arrival bit (R384) -/

/-- A core whose teams have all arrived, and whose bit is not forced, releases what it holds and raises its bit before the root looks. -/
theorem exec_barrierArrivalBit_raises {s : State} {c core g : Nat} (hholder : tget .none c s.rp.holder = .some g)
    (hpart : tget false (c * 960 + core) s.rp.part = true) (hteams : teamsOn s g core ≠ [])
    (harrived : ∀ t ∈ teamsOn s g core, teamArrived s t = true) (hforced : tget false (c * 960 + core) s.rp.forced = false) {u : State}
    (hu : u = releaseCore core true true s) :
    exec (.barrierArrivalBit c core) s = .next (flipRoot c g
      { u with rp := { u.rp with arr := tset false (c * 960 + core) (!tget false c u.rp.gen) u.rp.arr } }) := by
  have hraise : (tget false (c * 960 + core) s.rp.part && teamsOn s g core != [] && (teamsOn s g core).all (teamArrived s) &&
      !tget false (c * 960 + core) s.rp.forced) = true := by
    rw [hpart, hforced, List.all_eq_true.2 harrived, bne_iff_ne.2 hteams]
    rfl
  rw [show exec (.barrierArrivalBit c core) s = execBarrierArrivalBit c core s from rfl, execBarrierArrivalBit]
  simp only [hholder, hraise, if_true, hu]

/-! ## The statement -/

/-- Settles O41: the two kinds of regrouping event, the three ends of an issue cycle, and a core that raises its bit. -/
theorem schedulingProceeds : Obligations.SchedulingProceeds := by
  unfold Obligations.SchedulingProceeds
  refine ⟨?regrouping, ?issueCycle, ?arrivalBit⟩
  case regrouping =>
    intro s core q
    rw [exec_regrouping]
    exact ⟨fun h => by rw [if_pos h], fun h => by rw [if_neg h]⟩
  case issueCycle =>
    rintro s x u core q c rfl rfl hu
    obtain rfl : u = beginCycle core q s := hu
    refine ⟨exec_issueCycle_withheld, fun r dcs z w hissues hchoice hw => ?_⟩
    obtain rfl : w = chargeQuarter core q dcs z (beginCycle core q s) := hw
    rw [exec_issueCycle_chooses hissues]
    refine ⟨?noTenant, ?tenant⟩
    case noTenant =>
      rintro rfl
      rw [chooseBundle_eq hchoice]
      rfl
    case tenant =>
      rintro v b rfl hb
      rw [chooseBundle_eq hchoice, Option.bind_some]
      simp only [vdevOfG_chargeQuarter, hb]
      rfl
  case arrivalBit =>
    intro s u c core g hholder hpart hteams harrived hforced hu
    exact exec_barrierArrivalBit_raises hholder hpart hteams harrived hforced hu

end Sys2Proof.Machine
end

section
/-! PROOFS. L1 lines that go home and combining-buffer entries that drain into the L1 (R230, R231, R319), and the directory's table
(R312). -/

namespace Sys2Proof.Machine

/-! ## The directory's transactions (R312) -/

/-- A tap reaches a Gloss unit only. -/
@[simp] theorem tap_mm (die cls a b src ctx : Nat) (s : State) : (tap die cls a b src ctx s).mm = s.mm := by
  rw [tap, offerEvent, setUnit]

/-- The start of a transaction offers events only (R325). -/
@[simp] theorem dirStart_mm (ctx r line : Nat) (wr : Bool) (s : State) : (dirStart ctx r line wr s).mm = s.mm := by
  simp only [dirStart, dirTap, tapDir, tapMiss, apply_ite State.mm, tap_mm, ite_self]

/-- A state whose memory system differs in one directory entry has that entry, and all else of `DirectoryGets` as before. -/
theorem directoryGets_of_tset {s t : State} {line : Nat} {e : DirEnt} (h : t.mm = { s.mm with dir := tset {} line e s.mm.dir }) :
    DirectoryGets s t line e := by
  rw [DirectoryGets, h]
  exact ⟨tget_tset_same .., fun _ hl => tget_tset_ne _ _ hl _, rfl, rfl⟩

theorem directoryGets_self {s : State} {line : Nat} {e : DirEnt} (h : tget {} line s.mm.dir = e) : DirectoryGets s s line e :=
  ⟨h, fun _ _ => rfl, rfl, rfl⟩

/-- Taking away bits that a vector does not have leaves it. -/
theorem and_not_of_and_eq_zero {n : Nat} {x y : BitVec n} (h : x &&& y = 0) : x &&& ~~~y = x := by
  calc x &&& ~~~y = (x &&& y) ||| (x &&& ~~~y) := by rw [h]; exact BitVec.zero_or.symm
    _ = x := by rw [← BitVec.and_or_distrib_left, BitVec.or_not_self, BitVec.and_allOnes]

section
variable {ctx r o line : Nat} {s : State}

/-- A read request changes the directory's entry only. -/
theorem dirRead_mm (ctx r line : Nat) (s : State) : ∃ d, (dirRead ctx r line s).mm = { s.mm with dir := d } := by
  rw [dirRead, dirStart_mm]
  exact ⟨_, rfl⟩

/-- A read request leaves R312's entry, where the owner of a line that one die alone holds is that die. -/
theorem directoryGets_dirRead (howner : (tget {} line s.mm.dir).st = .e ∨ (tget {} line s.mm.dir).st = .m →
    (tget {} line s.mm.dir).pres = dirBit (tget {} line s.mm.dir).owner) :
    DirectoryGets s (dirRead ctx r line s) line (afterRead r (tget {} line s.mm.dir)) := by
  apply directoryGets_of_tset
  simp only [dirRead, dirStart_mm, afterRead]
  cases hst : (tget {} line s.mm.dir : DirEnt).st with
  | i => rfl
  | s => rfl
  | o => rfl
  | e => simp only [howner (.inl hst)]
  | m => simp only [howner (.inr hst)]

theorem dirWrite_mm (ctx r line : Nat) (s : State) :
    (dirWrite ctx r line s).mm = { s.mm with dir := tset {} line ⟨.m, dirBit r, r⟩ s.mm.dir } := by
  rw [dirWrite, dirStart_mm]

/-- The owner's write-back leaves no copy of an M line, and of an O line those of the other dies. -/
theorem dirWriteBack_mm (hst : (tget {} line s.mm.dir).st = .m ∨ (tget {} line s.mm.dir).st = .o)
    (howner : (tget {} line s.mm.dir).owner = o) {e : DirEnt}
    (he : e = if (tget {} line s.mm.dir).st = .m ∨ (tget {} line s.mm.dir).pres &&& ~~~dirBit o = 0 then {}
      else ⟨.s, (tget {} line s.mm.dir).pres &&& ~~~dirBit o, 0⟩) :
    (dirWriteBack ctx o line s).mm = { s.mm with dir := tset {} line e s.mm.dir } := by
  rw [he, dirWriteBack, if_pos ⟨hst, howner⟩]
  rfl

/-- An eviction notice of a die that holds no copy changes nothing. -/
theorem dirEvict_absent (h : (tget {} line s.mm.dir).pres &&& dirBit r = 0) : dirEvict ctx r line s = s :=
  if_neg fun hp => hp.2 h

/-- One of a die that holds a copy takes its presence bit, and the entry with the last one. -/
theorem dirEvict_mm (hst : (tget {} line s.mm.dir).st = .e ∨ (tget {} line s.mm.dir).st = .s)
    (hr : (tget {} line s.mm.dir).pres &&& dirBit r ≠ 0) {p : BitVec 4} (hp : p = (tget {} line s.mm.dir).pres &&& ~~~dirBit r) :
    (dirEvict ctx r line s).mm =
      { s.mm with dir := tset {} line (if p = 0 then {} else { tget {} line s.mm.dir with pres := p }) s.mm.dir } := by
  rw [hp, dirEvict, if_pos ⟨hst, hr⟩]
  rfl

/-- While another die holds the line, an eviction notice leaves the other presence bits, whether or not the die had its own. -/
theorem directoryGets_dirEvict (hst : (tget {} line s.mm.dir).st = .e ∨ (tget {} line s.mm.dir).st = .s)
    (hp : (tget {} line s.mm.dir).pres &&& ~~~dirBit r ≠ 0) : DirectoryGets s (dirEvict ctx r line s) line
      { tget {} line s.mm.dir with pres := (tget {} line s.mm.dir).pres &&& ~~~dirBit r } := by
  by_cases hr : (tget {} line s.mm.dir).pres &&& dirBit r = 0
  · rw [dirEvict_absent hr]
    rw [and_not_of_and_eq_zero hr]
    exact directoryGets_self rfl
  · apply directoryGets_of_tset
    rw [dirEvict_mm hst hr rfl, if_neg hp]
end

/-! ## A line goes home (R230, R319) -/

theorem findLine_some {core line : Nat} {ls : List Line} {l : Line} (h : findLine core line ls = .some l) :
    l ∈ ls ∧ l.core = core ∧ l.line = line := by
  have hkey := List.find?_some h
  rw [Bool.and_eq_true, beq_iff_eq, beq_iff_eq] at hkey
  exact ⟨List.mem_of_find?_eq_some h, hkey⟩

/-- A change of lines that keeps their keys changes the line that is found. -/
theorem findLine_map {f : Line → Line} (hcore : ∀ k, (f k).core = k.core) (hline : ∀ k, (f k).line = k.line) (core line : Nat)
    (ls : List Line) : findLine core line (ls.map f) = (findLine core line ls).map f := by
  rw [findLine, List.find?_map]
  simp only [Function.comp_def, hcore, hline]
  rfl

theorem findLine_dropLine (core line : Nat) (ls : List Line) : findLine core line (dropLine core line ls) = .none := by
  rw [findLine, dropLine, List.find?_eq_none]
  intro l hl
  exact Bool.not_iff_not.1 ((List.mem_filter.1 hl).2)

section
variable {core line : Nat} {s : State} {l : Line}

theorem exec_l1WriteBackBound (h : findLine core line s.mm.l1 = .some l) : exec (.l1WriteBackBound core line) s =
    .next (if l.dirty = 0 then evictTag core line s else writeBackLine core line s) := by
  rw [show exec (.l1WriteBackBound core line) s = execL1WriteBackBound core line s from rfl, execL1WriteBackBound, h]

/-- Marking the bad words of a line changes the marks only (R364). -/
theorem markBad_mm (l : Line) (s : State) : ∃ b, (markBad l s).mm = { s.mm with bad := b } := by
  unfold markBad
  generalize (List.range 16).filter _ = ws
  induction ws generalizing s with
  | nil => exact ⟨s.mm.bad, rfl⟩
  | cons w ws ih => exact ih (pmark (l.line * 128 + 8 * w) 8 s)

/-- A dirty line sent home: it becomes clean, its dirty bytes are in memory, and its core's die alone holds the line. -/
theorem sendBack_dirty (h : findLine core line s.mm.l1 = .some l) (hd : l.dirty ≠ 0) :
    (sendBack core line s).mm.l1 =
      (s.mm.l1.map fun k => if k.core = core ∧ k.line = line then { k with dirty := 0, due := 0, bad := 0 } else k) ∧
    (sendBack core line s).mm.mem = putMasked (line * 128) l.dirty 0 l.data s.mm.mem ∧
    (sendBack core line s).mm.dir = tset {} line ⟨.m, dirBit (dieOf core), dieOf core⟩ s.mm.dir := by
  obtain ⟨b, hb⟩ := markBad_mm l (pwriteMasked (line * 128) l.dirty l.data s)
  simp only [sendBack, h, if_neg hd, dirWrite_mm, hb]
  exact ⟨rfl, rfl, rfl⟩

/-- A line that is clean, or absent, is not written back. -/
theorem writeBackLine_clean (h : ∀ l, findLine core line s.mm.l1 = .some l → l.dirty = 0) : writeBackLine core line s = s := by
  have hsend : sendBack core line s = s := by
    rw [sendBack]
    split
    case h_1 => rfl
    case h_2 l hl => exact if_pos (h l hl)
  rw [writeBackLine, hsend, ite_self]

theorem writeBackAll_fixed {ls : List Line} (h : ∀ l ∈ ls, writeBackLine l.core l.line s = s) : writeBackAll ls s = s := by
  induction ls with
  | nil => rfl
  | cons l ls ih =>
    obtain ⟨hl, hls⟩ := List.forall_mem_cons.1 h
    rw [writeBackAll, List.foldl_cons, hl]
    exact ih hls

/-- A superblock tag whose lines are all clean leaves with them. -/
theorem evictTag_clean (h : ∀ k ∈ s.mm.l1, k.core = core → k.line / 4 = line / 4 → k.dirty = 0) : evictTag core line s =
    { s with mm := { s.mm with l1 := s.mm.l1.filter fun k => !(k.core == core && k.line / 4 == line / 4) } } := by
  have hback : writeBackAll (s.mm.l1.filter fun k => k.core == core && k.line / 4 == line / 4) s = s := by
    refine writeBackAll_fixed fun k hk => writeBackLine_clean fun l hl => ?_
    obtain ⟨hmem, hcore, hline⟩ := findLine_some hl
    have hkey := (List.mem_filter.1 hk).2
    rw [Bool.and_eq_true, beq_iff_eq, beq_iff_eq] at hkey
    exact h l hmem (hcore.trans hkey.1) (hline ▸ hkey.2)
  have hkeep : (s.mm.l1.filter fun k => !(k.core == core && k.line / 4 == line / 4) || k.dirty != 0) =
      s.mm.l1.filter fun k => !(k.core == core && k.line / 4 == line / 4) := by
    refine List.filter_congr fun k hk => ?_
    cases hmine : k.core == core && k.line / 4 == line / 4 with
    | false => rfl
    | true =>
      rw [Bool.and_eq_true, beq_iff_eq, beq_iff_eq] at hmine
      rw [h k hk hmine.1 hmine.2]
      rfl
  rw [evictTag, hback, hkeep]

/-- A dirty line without a path to its home stays as it is. -/
theorem writeBackLine_held (h : reachable s core (line * 128) = false) : writeBackLine core line s = s :=
  if_neg (Bool.eq_false_iff.1 h)

theorem l1WriteBackBound_dirty (h : findLine core line s.mm.l1 = .some l) (hd : l.dirty ≠ 0) (hlen : l.data.length = 128)
    (hr : reachable s core (line * 128) = true) : ∃ t, exec (.l1WriteBackBound core line) s = .next t ∧
      t.mm.l1 = (s.mm.l1.map fun k => if k.core = core ∧ k.line = line then { k with dirty := 0, due := 0, bad := 0 } else k) ∧
      (∀ a, tget 0 a t.mm.mem = if line * 128 ≤ a ∧ a < line * 128 + 128 ∧ l.dirty.getLsbD (a - line * 128) = true
        then l.data.getD (a - line * 128) 0 else tget 0 a s.mm.mem) ∧
      tget {} line t.mm.dir = ⟨.m, dirBit (dieOf core), dieOf core⟩ ∧
      t.vreg = s.vreg ∧ t.pred = s.pred ∧ t.sreg = s.sreg ∧ t.qpred = s.qpred ∧ t.thr = s.thr ∧ t.grp = s.grp := by
  obtain ⟨hl1, hmem, hdir⟩ := sendBack_dirty h hd
  refine ⟨sendBack core line s, ?_, hl1, fun a => ?_, ?_, ?_⟩
  · rw [exec_l1WriteBackBound h, if_neg hd, writeBackLine, if_pos hr]
  · rw [hmem, tget_putMasked, hlen]
    rfl
  · rw [hdir, tget_tset_same]
  · obtain ⟨_, _, _, _, _, _, _, heq, _⟩ := cacheOnly_sendBack core line s
    rw [heq]
    exact ⟨rfl, rfl, rfl, rfl, rfl, rfl⟩
end

/-! ## A combining-buffer entry drains (R230, R231) -/

/-- A line with the bytes that a combining-buffer entry holds over its own. -/
def drainedOver (e l : Line) : Line :=
  { l with data := (List.range 128).map fun i => if e.dirty.getLsbD i then e.data.getD i 0 else l.data.getD i 0
           dirty := l.dirty ||| e.dirty, uo := true, bad := stillBad e.dirty l.bad }

section
variable {core line : Nat} {s : State} {e l : Line}

theorem drainEntry_eq (h : findLine core line s.mm.comb = .some e) {u : State}
    (hu : u = fillLine e.ctx core line true true { s with mm := { s.mm with comb := dropLine core line s.mm.comb } }) :
    drainEntry core line s = { u with mm := { u.mm with
      l1 := u.mm.l1.map fun l => if l.core = core ∧ l.line = line then drainedOver e l else l } } := by
  rw [drainEntry, h, hu]
  rfl

/-- The drained line, in a state in which the L1 has been filled with the line `l` for it. -/
theorem findLine_drained (hl : findLine core line s.mm.l1 = .some l) :
    findLine core line (s.mm.l1.map fun l => if l.core = core ∧ l.line = line then drainedOver e l else l) = .some (drainedOver e l) := by
  rw [findLine_map (fun k => by split <;> rfl) (fun k => by split <;> rfl), hl, Option.map_some, if_pos (findLine_some hl).2]

theorem fillLine_present (h : findLine core line s.mm.l1 = .some l) (ctx : Nat) (uo wr : Bool) : fillLine ctx core line uo wr s = s := by
  rw [fillLine, h]

theorem performDie_uncovered (h : ∀ k ∈ s.mm.l1, coversFor core k = false) : performDie core s = s := by
  rw [performDie, List.filter_eq_nil_iff.2 fun k hk => Bool.eq_false_iff.1 (h k hk)]
  rfl

/-- A line that the L1 lacks comes with memory's bytes, where no covered release comes before the access (R241, R243). -/
theorem fillLine_absent (h : findLine core line s.mm.l1 = .none) (hcov : ∀ k ∈ s.mm.l1, coversFor core k = false) (ctx : Nat)
    (uo wr : Bool) : ∃ d, (fillLine ctx core line uo wr s).mm = { s.mm with
      l1 := s.mm.l1 ++ [{ core := core, ctx := ctx, line := line, data := pread s (line * 128) 128, uo := uo }], dir := d } := by
  obtain ⟨d, hd⟩ := dirRead_mm ctx (dieOf core) line (tapLine ctx core line wr false s)
  simp only [fillLine, h, performDie_uncovered hcov, pread, hd]
  exact ⟨d, rfl⟩

theorem findLine_append_absent (h : findLine core line s.mm.l1 = .none) (hcore : l.core = core) (hline : l.line = line) :
    findLine core line (s.mm.l1 ++ [l]) = .some l := by
  rw [findLine] at h ⊢
  rw [List.find?_append, h]
  simp [hcore, hline]

/-- A drain, by what filling the L1 for it gives: the entry leaves, memory stays, and the line takes the entry's bytes. -/
theorem combiningBufferDrain_fills (he : findLine core line s.mm.comb = .some e) {u : State}
    (hu : u = fillLine e.ctx core line true true { s with mm := { s.mm with comb := dropLine core line s.mm.comb } })
    (hcomb : u.mm.comb = dropLine core line s.mm.comb) (hmem : u.mm.mem = s.mm.mem) (hl : findLine core line u.mm.l1 = .some l) :
    ∃ t n, exec (.combiningBufferDrain core line) s = .next t ∧ findLine core line t.mm.comb = .none ∧ t.mm.mem = s.mm.mem ∧
      findLine core line t.mm.l1 = .some n ∧ n.dirty = l.dirty ||| e.dirty ∧
      ∀ i < 128, n.data.getD i 0 = if e.dirty.getLsbD i = true then e.data.getD i 0 else l.data.getD i 0 := by
  refine ⟨_, drainedOver e l, congrArg Host.Outcome.next (drainEntry_eq he hu), ?_, hmem, findLine_drained hl, rfl,
    fun i hi => getD_map_range _ _ hi⟩
  exact hcomb ▸ findLine_dropLine core line s.mm.comb

/-- The line is in the L1: it keeps the bytes that the entry does not hold. -/
theorem combiningBufferDrain_present (he : findLine core line s.mm.comb = .some e) (hl : findLine core line s.mm.l1 = .some l) :
    ∃ t n, exec (.combiningBufferDrain core line) s = .next t ∧ findLine core line t.mm.comb = .none ∧ t.mm.mem = s.mm.mem ∧
      findLine core line t.mm.l1 = .some n ∧ n.dirty = l.dirty ||| e.dirty ∧
      ∀ i < 128, n.data.getD i 0 = if e.dirty.getLsbD i = true then e.data.getD i 0 else l.data.getD i 0 :=
  combiningBufferDrain_fills he (fillLine_present (s := { s with mm := { s.mm with comb := dropLine core line s.mm.comb } }) hl ..).symm
    rfl rfl hl

/-- The line is not in the L1: memory's bytes stand for those that the entry does not hold, and only the entry's are dirty. -/
theorem combiningBufferDrain_absent (he : findLine core line s.mm.comb = .some e) (hl : findLine core line s.mm.l1 = .none)
    (hcov : ∀ k ∈ s.mm.l1, coversFor core k = false) :
    ∃ t n, exec (.combiningBufferDrain core line) s = .next t ∧ findLine core line t.mm.comb = .none ∧ t.mm.mem = s.mm.mem ∧
      findLine core line t.mm.l1 = .some n ∧ n.dirty = e.dirty ∧
      ∀ i < 128, n.data.getD i 0 = if e.dirty.getLsbD i = true then e.data.getD i 0 else tget 0 (line * 128 + i) s.mm.mem := by
  obtain ⟨d, hfill⟩ := fillLine_absent (s := { s with mm := { s.mm with comb := dropLine core line s.mm.comb } }) hl hcov e.ctx true true
  obtain ⟨t, n, hexec, hcomb, hmem, hn, hdirty, hdata⟩ := combiningBufferDrain_fills he rfl (by rw [hfill]) (by rw [hfill])
    (by rw [hfill]; exact findLine_append_absent hl rfl rfl)
  refine ⟨t, n, hexec, hcomb, hmem, hn, hdirty.trans (BitVec.zero_or ..), fun i hi => ?_⟩
  rw [hdata i hi, pread, getD_map_range _ _ hi]
end

/-! ## The statement -/

/-- Settles O42: the four ends of an L1 line's time, a drain with and without its line in the L1, and the four transactions of the
directory. -/
theorem cachesAndDirectory : Obligations.CachesAndDirectory := by
  unfold Obligations.CachesAndDirectory
  refine ⟨⟨?writeBack, ?drain⟩, ?read, ?write, ?ownerWriteBack, ?eviction⟩
  case writeBack =>
    intro s core line l hl
    refine ⟨fun hclean => ?_, fun hclean htag => ?_, fun hd hr => ?_, l1WriteBackBound_dirty hl⟩
    · rw [exec_l1WriteBackBound hl, if_pos hclean]
    · rw [exec_l1WriteBackBound hl, if_pos hclean, evictTag_clean htag]
    · rw [exec_l1WriteBackBound hl, if_neg hd, writeBackLine_held hr]
  case drain =>
    intro s core line e he
    exact ⟨fun l hl => combiningBufferDrain_present he hl, combiningBufferDrain_absent he⟩
  case read =>
    rintro s r line e rfl howner
    exact ⟨_, rfl, directoryGets_dirRead howner⟩
  case write =>
    intro s r line
    exact ⟨_, rfl, directoryGets_of_tset (dirWrite_mm ..)⟩
  case ownerWriteBack =>
    rintro s o line e rfl howner
    refine ⟨fun hm => ⟨_, rfl, directoryGets_of_tset (dirWriteBack_mm (.inl hm) howner (if_pos (.inl hm)).symm)⟩,
      fun ho hp => ⟨_, rfl, directoryGets_of_tset (dirWriteBack_mm (.inr ho) howner (if_neg ?_).symm)⟩⟩
    rw [ho]
    exact fun h => h.elim (by decide) hp
  case eviction =>
    rintro s r line e rfl hst
    refine ⟨fun hr => congrArg Host.Outcome.next (dirEvict_absent hr), fun hr hp => ⟨_, rfl, ?_⟩,
      fun hp => ⟨_, rfl, directoryGets_dirEvict hst hp⟩⟩
    rw [dirEvict_mm hst hr rfl, if_pos hp, tget_tset_same]

end Sys2Proof.Machine
end

section
/-! PROOFS. What leaves the virtual devices' tables (`State.vs`) as they are: translation, the caches, the reads of an admission (R263,
R271); and what the entries of a host queue that are read again change of them (R289, R391). -/

namespace Sys2Proof.Machine

theorem vs_of_memOnly {s t : State} (h : MemOnly s t) : t.vs = s.vs := by
  obtain ⟨_, _, rfl⟩ := h; rfl

theorem vs_of_cacheOnly {s t : State} (h : CacheOnly s t) : t.vs = s.vs := by
  obtain ⟨_, _, _, _, _, _, _, rfl, -⟩ := h; rfl

/-! ## The reads of an admission -/

/-- Planning any asker's access to an address space changes the memory side only. -/
theorem memOnly_planFor (k : Asker) (window : Nat) (user : Bool) (accs : List Acc) (va : Word) (n : Nat) (s : State) :
    MemOnly s (planFor k window user .g accs va n s).2 := by
  simp only [planFor]
  split
  · exact memOnly_refl s
  · split
    · split <;> exact memOnly_refl s
    · split
      · exact memOnly_refl s
      · refine List.foldlRecOn _ _ (motive := fun x : List Plan × State => MemOnly s x.2) (memOnly_refl s) fun x h q _ => ?_
        exact memOnly_trans h (memOnly_planPiece ..)

theorem vs_peerError (p : Nat) (s : State) : (peerError p s).vs = s.vs := by
  simp only [peerError, raiseMgmt, raiseIrq]
  split <;> rfl

theorem vs_peerBytes (pa n : Nat) (s : State) : (peerBytes pa n s).2.vs = s.vs := by
  obtain ⟨f, hf⟩ := pick_state [true, false] true s
  simp only [peerBytes, hf]
  split
  · rfl
  · exact vs_peerError ..

theorem vs_pieceBytes (asid : Nat) (l : LRec) (p : Piece) (s : State) : (pieceBytes asid l p s).2.vs = s.vs := by
  unfold pieceBytes
  split
  · exact vs_peerBytes ..
  · split
    · rfl
    · split
      · rfl
      · dsimp only
        split
        · rfl
        · split <;> rfl

theorem vs_piecesBytes (asid : Nat) (l : LRec) (ps : List Piece) (s : State) : (piecesBytes asid l ps s).2.vs = s.vs := by
  induction ps generalizing s with
  | nil => rfl
  | cons p ps ih =>
    have hp := vs_pieceBytes asid l p s
    unfold piecesBytes
    split <;> rename_i u hu <;> rw [hu] at hp
    · exact hp
    · have hps := ih u
      split <;> rename_i hw <;> rw [hw] at hps <;> exact hps.trans hp

theorem vs_readTable (ctx : Nat) (l : LRec) (va n : Nat) (s : State) : (readTable ctx l va n s).2.vs = s.vs := by
  have hplan := vs_of_memOnly (memOnly_planFor { asid := ctx, vdev := vdevOf s ctx } 0 true [.r] (word va) n s)
  unfold readTable
  split <;> rename_i u hu <;> rw [hu] at hplan
  · exact hplan
  · exact hplan
  · rename_i ps
    have hps := vs_piecesBytes ctx l ps u
    split <;> rename_i hw <;> rw [hw] at hps <;> exact hps.trans hplan

theorem vs_admitJoin (ctx asid page : Nat) (s : State) : (admitJoin ctx asid page s).vs = s.vs := by
  unfold admitJoin joinRec
  split <;> rfl

/-! ## Entries of a host queue -/

/-- An entry keeps the token it was given, whatever its record's read comes to. -/
theorem readEntry_tok (ctx tok va : Nat) (s : State) : (readEntry ctx tok va s).1.tok = tok := by
  unfold readEntry
  split
  · dsimp only
    split <;> rfl
  · rfl
  · rfl

theorem vs_readEntry (ctx tok va : Nat) (s : State) : (readEntry ctx tok va s).2.vs = s.vs := by
  have h := vs_readTable ctx {} va 256 s
  unfold readEntry
  split <;> rename_i hu <;> rw [hu] at h
  · exact h
  · exact h
  · exact (vs_admitJoin ..).trans h

/-- `t` has the virtual devices' tables of `s`, but for the host queues. -/
def FillsQueues (s t : State) : Prop := ∃ q, t.vs = { s.vs with hostq := q }

theorem fillsQueues_refl (s : State) : FillsQueues s s := ⟨s.vs.hostq, rfl⟩
theorem fillsQueues_trans {s t u : State} (h : FillsQueues s t) (k : FillsQueues t u) : FillsQueues s u := by
  obtain ⟨p, hp⟩ := h
  obtain ⟨q, hq⟩ := k
  exact ⟨q, by rw [hq, hp]⟩

theorem fillsQueues_fillQueue (ctx : Nat) (s : State) (k : Nat) : FillsQueues s (fillQueue ctx s k) := by
  unfold fillQueue
  extract_lets r
  have hr : r.2.vs = s.vs := by
    refine List.foldlRecOn _ _ (motive := fun r : List QItem × State => r.2.vs = s.vs) rfl fun r h it _ => ?_
    split
    · exact (vs_readEntry ..).trans h
    · exact h
  exact ⟨_, congrArg (fun v : Tenancy => { v with hostq := tset [] k r.1 v.hostq }) hr⟩

/-- Reading awaited records again changes the host queues alone of a device's tables. -/
theorem fillsQueues_fillEntries (ctx : Nat) (s : State) : FillsQueues s (fillEntries ctx s) :=
  List.foldlRecOn _ _ (motive := FillsQueues s) (fillsQueues_refl s) fun _ h _ _ => fillsQueues_trans h (fillsQueues_fillQueue ..)

@[simp] theorem servedCtx_fillEntries (s : State) (v ctx : Nat) : servedCtx (fillEntries v s) ctx = servedCtx s ctx := by
  obtain ⟨q, hq⟩ := fillsQueues_fillEntries v s
  simp only [servedCtx, enabledV, hq]

end Sys2Proof.Machine
end

section
/-! PROOFS. The distributor, slices of time, render contexts in turn and published counters (R271, R272, R277, R278, R282). -/

namespace Sys2Proof.Machine

/-! ## The distributor (R271, R272, R277) -/

theorem distribute_unserved {s : State} {v : Nat} (h : servedCtx s v = false) : distribute v s = s := by
  simp only [distribute, h, Bool.false_eq_true, if_false, Bool.not_false, Bool.true_or, if_true]

theorem distribute_sliceOff {s : State} {v : Nat} (h : servedCtx s v = true)
    (hslice : sliceOn (fillEntries v s) (vdevOf s v) = false) : distribute v s = fillEntries v s := by
  simp only [distribute, h, hslice, if_true, Bool.not_false, Bool.or_true]

/-- The device's wait for its slice is over. -/
def leaveWaiting (d : Nat) (s : State) : State := { s with vs := { s.vs with waiting := s.vs.waiting.erase d } }

section
variable {s u : State} {v : Nat} {i : Item} {is : List Item} (hserved : servedCtx s v = true) (hu : u = fillEntries v s)
  (hslice : sliceOn u (vdevOf s v) = true) (hout : switchedOut u (vdevOf s v) = []) (hitems : items u v = i :: is)
  (hturn : contextTurn u v = true)
include hserved hu hslice hout hitems hturn

/-- With no team switched out, the first item of a context in its slice and its turn comes to what its placement does. -/
theorem distribute_done {w : State} (hplace : placeItem v i u = .done w) :
    distribute v s = leaveWaiting (vdevOf s v) (takeTurn v w) := by
  subst hu
  simp [distribute, hserved, hslice, hout, hitems, hturn, hplace, leaveWaiting]

theorem distribute_hold {w : State} (hplace : placeItem v i u = .hold w) : distribute v s = w := by
  subst hu
  simp [distribute, hserved, hslice, hout, hitems, hturn, hplace]

/-- An item in the way, with nobody to evict: the device waits while another holds its cores, once. -/
theorem distribute_stuck (hplace : placeItem v i u = .no) (hvictims : victims u (vdevOf s v) = []) :
    distribute v s = if heldByOther u (vdevOf s v) && !u.vs.waiting.contains (vdevOf s v) then
      { u with vs := { u.vs with waiting := u.vs.waiting ++ [vdevOf s v] } } else u := by
  subst hu
  simp [distribute, hserved, hslice, hout, hitems, hturn, hplace, hvictims, evictFor]
end

/-! ## A team is switched out (R224) -/

theorem unseat_eq (t : Nat) (s : State) : ∃ c g, unseat t s = { s with sc := c, grp := g } := by
  unfold unseat
  refine List.foldlRecOn _ _ (motive := fun u : State => ∃ c g, u = { s with sc := c, grp := g }) ⟨_, _, rfl⟩ fun u h g _ => ?_
  obtain ⟨c, x, rfl⟩ := h
  split <;> exact ⟨_, _, rfl⟩

/-- What a team leaves behind on its cores concerns the memory side, the scheduler and the groups. -/
theorem leave_keeps (t : Nat) (s : State) : (withdraw t (unseat t (leaveCores t s))).team = s.team ∧
    (withdraw t (unseat t (leaveCores t s))).vs = s.vs := by
  have hcache := leaveCores_kept t s
  obtain ⟨c, g, hseat⟩ := unseat_eq t (leaveCores t s)
  rw [hseat]
  exact ⟨(team_of_cacheOnly hcache : (leaveCores t s).team = s.team), (vs_of_cacheOnly hcache : (leaveCores t s).vs = s.vs)⟩

theorem vs_switchOut (t : Nat) (s : State) : (switchOut t s).vs = s.vs := (leave_keeps t s).2

theorem getTeam_switchOut (t k : Nat) (s : State) :
    getTeam (switchOut t s) k = if k = t then { getTeam s k with st := .switchedOut } else getTeam s k := by
  obtain ⟨hteam, -⟩ := leave_keeps t s
  unfold switchOut
  simp only [getTeam, setTeam, hteam, tget_tset]
  split
  · next h => rw [h]
  · rfl

/-- Teams are switched out one after another. -/
def switchOutAll (ts : List Nat) (s : State) : State := ts.foldl (fun s t => switchOut t s) s

theorem vs_switchOutAll (ts : List Nat) (s : State) : (switchOutAll ts s).vs = s.vs :=
  List.foldlRecOn ts _ (motive := fun u : State => u.vs = s.vs) rfl fun _ h _ _ => (vs_switchOut ..).trans h

theorem getTeam_switchOutAll (ts : List Nat) (k : Nat) (s : State) :
    getTeam (switchOutAll ts s) k = if k ∈ ts then { getTeam s k with st := .switchedOut } else getTeam s k := by
  unfold switchOutAll
  induction ts generalizing s with
  | nil => rfl
  | cons t ts ih =>
    rw [List.foldl_cons, ih, getTeam_switchOut]
    by_cases ht : k = t <;> by_cases hts : k ∈ ts <;> simp [ht, hts]

/-! ## The end of a quantum (R277, R278) -/

theorem execSliceEnd_stays {s : State} {v : Nat}
    (h : residentOf s v = [] ∨ v ∈ s.vs.waiting ∨ ∀ w ∈ s.vs.waiting, w = v ∨ coresMeet s w v = false) :
    execSliceEnd v s = .next s := by
  unfold execSliceEnd
  obtain h | h | h := h
  · rw [if_pos (.inl h)]
  · rw [if_pos (.inr (List.contains_iff_mem.2 h))]
  · have hnone : (s.vs.waiting.find? fun w => w != v && coresMeet s w v) = none :=
      List.find?_eq_none.2 fun w hw => by rcases h w hw with h | h <;> simp [h]
    rw [hnone]
    split <;> rfl

/-- The slice ends: the resident teams leave, and the device joins the end of those that wait, which `w` leaves. -/
def endSlice (v w : Nat) (s : State) : State :=
  { switchOutAll (residentOf s v) s with vs := { s.vs with waiting := (s.vs.waiting.erase w).erase v ++ [v] } }

theorem execSliceEnd_switches {s : State} {v w : Nat} {before after : List Nat} (hwait : s.vs.waiting = before ++ w :: after)
    (hne : w ≠ v) (hmeet : coresMeet s w v = true) (hbefore : ∀ x ∈ before, x = v ∨ coresMeet s x v = false) (hv : v ∉ s.vs.waiting)
    (hres : residentOf s v ≠ []) :
    execSliceEnd v s = .next ((switchedOut (endSlice v w s) w).foldl returnTeam (endSlice v w s)) := by
  have hfind : (s.vs.waiting.find? fun w => w != v && coresMeet s w v) = some w := by
    rw [hwait, List.find?_append, List.find?_eq_none.2 fun x hx => by rcases hbefore x hx with h | h <;> simp [h]]
    simp [hne, hmeet]
  have hrun : ¬ (residentOf s v = [] ∨ s.vs.waiting.contains v = true) := by simp [hres, hv]
  simp only [execSliceEnd, if_neg hrun, hfind]
  rw [endSlice, ← vs_switchOutAll (residentOf s v) s]
  rfl

theorem nextContext_nil (cur : Nat) : nextContext cur [] = none := rfl

/-- The turn goes to context `c` of device `v`, and the other contexts' teams that share its cores leave them. -/
def giveTurn (v c : Nat) (s : State) : State :=
  { switchOutAll ((residentOf s v).filter fun t => decide (64 ≤ (getTeam s t).ctx) && (getTeam s t).ctx != c
      && coresMeet s c (getTeam s t).ctx) s with vs := { s.vs with rcur := tset 0 v c s.vs.rcur } }

theorem execRenderContextSwitch_turns {s : State} {v c : Nat} (h : nextContext (tget 0 v s.vs.rcur) (liveContexts s v) = some c) :
    execRenderContextSwitch v s = .next (((switchedOut (giveTurn v c s) v).filter fun t =>
      (getTeam (giveTurn v c s) t).ctx == c).foldl returnTeam (giveTurn v c s)) := by
  simp only [execRenderContextSwitch, h]
  rw [giveTurn, ← vs_switchOutAll ((residentOf s v).filter fun t => decide (64 ≤ (getTeam s t).ctx) && (getTeam s t).ctx != c
    && coresMeet s c (getTeam s t).ctx) s]
  rfl

/-! ## Published counters (R282) -/

/-- The key of a shared resource's counter. -/
def counterKey (die : Nat) (r : Nat × Nat) : Nat := (die * 8 + r.1) * 65536 + r.2

/-- Kinds and indices are small, so that each resource of a die has its own key. -/
theorem resources_bounds {die : Nat} (hdie : die < 4) : ∀ r ∈ resources die, r.1 < 8 ∧ r.2 < 65536 := by
  interval_cases die <;> decide

theorem resources_nodup {die : Nat} (hdie : die < 4) : (resources die).Nodup := by
  interval_cases die <;> decide

theorem counterKey_inj {die : Nat} (hdie : die < 4) {q r : Nat × Nat} (hq : q ∈ resources die) (hr : r ∈ resources die)
    (h : counterKey die q = counterKey die r) : q = r := by
  obtain ⟨hq1, hq2⟩ := resources_bounds hdie q hq
  obtain ⟨hr1, hr2⟩ := resources_bounds hdie r hr
  simp only [counterKey] at h
  exact Prod.ext (by omega) (by omega)

/-- The counter at a key and its two latches. -/
def counterAt (k : Nat) (s : State) : Nat × Nat × Nat := (tget 0 k s.vs.cnt, tget 0 k s.vs.latch1, tget 0 k s.vs.latch2)

theorem vs_publish (die : Nat) (r : Nat × Nat) (s : State) : ∃ c, (publish die s r).vs = { s.vs with
    cnt := tset 0 (counterKey die r) c s.vs.cnt
    latch2 := tset 0 (counterKey die r) (tget 0 (counterKey die r) s.vs.latch1) s.vs.latch2
    latch1 := tset 0 (counterKey die r) (c / 4096 * 4096) s.vs.latch1 } :=
  ⟨tget 0 (counterKey die r) s.vs.cnt + Config.countedEvents s.fresh, rfl⟩

theorem counterAt_publish_same (die : Nat) (r : Nat × Nat) (s : State) : ∃ c,
    counterAt (counterKey die r) (publish die s r) = (c, c / 4096 * 4096, tget 0 (counterKey die r) s.vs.latch1) := by
  obtain ⟨c, hvs⟩ := vs_publish die r s
  exact ⟨c, by simp only [counterAt, hvs, tget_tset_same]⟩

theorem counterAt_publish_other {die k : Nat} {r : Nat × Nat} (h : k ≠ counterKey die r) (s : State) :
    counterAt k (publish die s r) = counterAt k s := by
  obtain ⟨c, hvs⟩ := vs_publish die r s
  simp only [counterAt, hvs, tget_tset_ne _ _ h]

theorem counterAt_publishAll_other {die k : Nat} {rs : List (Nat × Nat)} (h : ∀ r ∈ rs, k ≠ counterKey die r) (s : State) :
    counterAt k (rs.foldl (publish die) s) = counterAt k s :=
  List.foldlRecOn rs _ (motive := fun u : State => counterAt k u = counterAt k s) rfl
    fun _ hu r hr => (counterAt_publish_other (h r hr) _).trans hu

/-- Each resource of a die is published once: its latch is the counter's multiple of 4096, and the latch before stays behind. -/
theorem counterAt_publishAll {die : Nat} (hdie : die < 4) {r : Nat × Nat} (hr : r ∈ resources die) (s : State) : ∃ c,
    counterAt (counterKey die r) ((resources die).foldl (publish die) s) =
      (c, c / 4096 * 4096, tget 0 (counterKey die r) s.vs.latch1) := by
  obtain ⟨before, after, hsplit⟩ := List.append_of_mem hr
  have hkey : ∀ q ∈ resources die, counterKey die r = counterKey die q → q = r := fun q hq h => counterKey_inj hdie hq hr h.symm
  have hnodup := resources_nodup hdie
  rw [hsplit] at hkey hnodup ⊢
  have hother : ∀ q ∈ before ++ after, counterKey die r ≠ counterKey die q := fun q hq h =>
    (List.nodup_cons.1 (List.nodup_middle.1 hnodup)).1 (hkey q (by simp at hq ⊢; tauto) h ▸ hq)
  have hbefore : ∀ q ∈ before, counterKey die r ≠ counterKey die q := fun q hq => hother q (List.mem_append_left _ hq)
  have hafter : ∀ q ∈ after, counterKey die r ≠ counterKey die q := fun q hq => hother q (List.mem_append_right _ hq)
  have hlatch := congrArg (fun x => x.2.1) (counterAt_publishAll_other hbefore s)
  obtain ⟨c, hc⟩ := counterAt_publish_same die r (before.foldl (publish die) s)
  refine ⟨c, ?_⟩
  rw [List.foldl_append, List.foldl_cons, counterAt_publishAll_other hafter, hc]
  exact congrArg (fun x => (c, c / 4096 * 4096, x)) hlatch

/-! ## The statement -/

/-- Settles O45: the distributor's ways out, the quantum that ends with another device waiting and without one, the next context's turn,
and the latches of each resource. -/
theorem tenantsShareCores : Obligations.TenantsShareCores := by
  unfold Obligations.TenantsShareCores
  refine ⟨?first, ?sliceOff, ?unserved, ?stays, ?switches, ?noContext, ?turn, ?published⟩
  case first =>
    intro s u w v i is hserved hu hslice hout hitems hturn
    refine ⟨fun hp => ?_, fun hp => ?_, fun hp hvic hheld hfree => ?_, fun hp hvic hfree => ?_⟩
    · exact congrArg Host.Outcome.next (distribute_done hserved hu hslice hout hitems hturn hp)
    · exact congrArg Host.Outcome.next (distribute_hold hserved hu hslice hout hitems hturn hp)
    · refine congrArg Host.Outcome.next ((distribute_stuck hserved hu hslice hout hitems hturn hp hvic).trans (if_pos ?_))
      rw [hheld, hfree]
      rfl
    · refine congrArg Host.Outcome.next ((distribute_stuck hserved hu hslice hout hitems hturn hp hvic).trans (if_neg ?_))
      simp [hfree]
  case sliceOff =>
    intro s v hserved hslice
    exact congrArg Host.Outcome.next (distribute_sliceOff hserved hslice)
  case unserved =>
    intro s v hserved
    exact congrArg Host.Outcome.next (distribute_unserved hserved)
  case stays =>
    intro s v h
    exact execSliceEnd_stays h
  case switches =>
    intro s v w before after hwait hne hmeet hskip hw hvb hva hres _
    have hv : v ∉ s.vs.waiting := by simp [hwait, hvb, hva, Ne.symm hne]
    refine ⟨endSlice v w s, execSliceEnd_switches hwait hne hmeet hskip hv hres, ?_, fun k hk => ?_, fun k hk => ?_⟩
    · have herase : (before ++ w :: after).erase w = before ++ after := by
        rw [List.erase_append_right _ hw, List.erase_cons_head]
      rw [endSlice]
      simp only [hwait, herase]
      rw [List.erase_of_not_mem (by simp [hvb, hva])]
    · exact (getTeam_switchOutAll ..).trans (if_pos hk)
    · exact (getTeam_switchOutAll ..).trans (if_neg hk)
  case noContext =>
    intro s v h
    show execRenderContextSwitch v s = _
    rw [execRenderContextSwitch, h, nextContext_nil]
  case turn =>
    intro s v c hnext
    refine ⟨giveTurn v c s, execRenderContextSwitch_turns hnext, tget_tset_same .., fun _ k hk hctx hne hmeet => ?_⟩
    refine (getTeam_switchOutAll ..).trans (if_pos (List.mem_filter.2 ⟨hk, ?_⟩))
    simp [hctx, hne, hmeet]
  case published =>
    intro s die r hdie hr
    obtain ⟨c, hc⟩ := counterAt_publishAll hdie hr s
    simp only [counterAt, Prod.mk.injEq] at hc
    obtain ⟨rfl, hlatch1, hlatch2⟩ := hc
    exact ⟨_, rfl, (congrArg (· % 4096) hlatch1).trans (Nat.mul_mod_left ..), hlatch1, hlatch2⟩

end Sys2Proof.Machine
end

section
/-! PROOFS. Configuration blocks (R274, R279), host queues (R391) and completion rings (R392). -/

namespace Sys2Proof.Machine

/-! ## Configuration blocks (R274, R279) -/

theorem linkEnabled_eq_false {s : State} : linkEnabled s = false ↔ s.hs.boot < 6 := by
  rw [linkEnabled, decide_eq_false_iff_not, Nat.not_le]

theorem linkEnabled_of_boot {s : State} (h : 6 ≤ s.hs.boot) : linkEnabled s = true := decide_eq_true h

theorem bits_low6 (x : Word) : bits x 5 0 = x.toNat % 64 := by simp [bits]
theorem bits_low10 (x : Word) : bits x 9 0 = x.toNat % 1024 := by simp [bits]
theorem bits_low16 (x : Word) : bits x 15 0 = x.toNat % 65536 := by simp [bits]

theorem execVdevApply_ignored {s : State} (h : s.hs.boot < 6) (w : BitVec 64) : execVdevApply w s = .next s :=
  if_pos (linkEnabled_eq_false.2 h)

/-- The code of an apply, as R274's table lists the checks. -/
theorem vdevCode_eq (s : State) (v : Nat) (bs : List Byte) (b : VBlock) : vdevCode s v bs b =
    if malformedBlock s bs b = true ∨ pbad s (s.rg.vdevBase.toNat + 256 * v) 256 = true then 4
    else if overlapBlock s v b = true then 2 else if busyBlock s v b = true then 3 else if b.quantum < minQuantum b then 1 else 0 := by
  rw [vdevCode]
  simp only [Bool.or_eq_true]

/-- An apply reports its code, and an accepted block stands for its device. -/
theorem execVdevApply_eq {s : State} (h : 6 ≤ s.hs.boot) {w : BitVec 64} {v code : Nat} {bs : List Byte} {b : VBlock}
    (hv : v = w.toNat % 64) (hbs : bs = pread s (s.rg.vdevBase.toNat + 256 * v) 256) (hb : b = parseBlock bs)
    (hcode : vdevCode s v bs b = code) :
    execVdevApply w s = .next { s with
      rg := { s.rg with vdevApply := BitVec.ofNat 64 v, vdevStatus := BitVec.ofNat 64 (minQuantum b * 2 ^ 32 + code) }
      vs := if code = 0 then { s.vs with vb := tset .none v (.some b) s.vs.vb } else s.vs } := by
  subst hb hbs
  have hlink : ¬ linkEnabled s = false := by rw [linkEnabled_of_boot h]; exact Bool.noConfusion
  simp only [execVdevApply, if_neg hlink, bits_low6, ← hv, blockBytes, hcode]
  split <;> rfl

/-- An apply of a render context reports the code of the first of R279's checks that fails; without one the new block stands, or none where
the context is withdrawn. -/
theorem execRctxApply_eq {s : State} {w : BitVec 64} {r at_ code : Nat} {new : Option RBlock} (hr : r = w.toNat % 1024)
    (hat : at_ = s.rg.rctxBase.toNat + 64 * r) (hnew : new = parseRctx (pread s at_ 64))
    (hcode : code = if pbad s at_ 64 = true ∨ reservedRctx (pread s at_ 64) = true ∨ (∃ b, new = some b ∧ malformedRctx s b = true) then 4
      else if (∃ p ∈ s.team, p.2.ctx = 64 + r ∧ (p.2.st = .resident ∨ isSaved p.2 = true)) ∧ tget .none r s.vs.rb ≠ new then 3 else 0) :
    execRctxApply w s = .next { s with
      rg := { s.rg with rctxApply := BitVec.ofNat 64 r, rctxStatus := BitVec.ofNat 64 code }
      vs := if code = 0 then { s.vs with rb := tset .none r new s.vs.rb } else s.vs } := by
  unfold execRctxApply
  extract_lets r' at' bs new' held bad code' t
  obtain rfl : r = r' := hr.trans (bits_low10 w).symm
  obtain rfl : at_ = at' := hat
  obtain rfl : new = new' := hnew
  have hbad : bad = true ↔
      pbad s at' 64 = true ∨ reservedRctx (pread s at' 64) = true ∨ ∃ b, new' = some b ∧ malformedRctx s b = true := by
    simp only [bad, Bool.or_eq_true, or_assoc]
    cases new' <;> simp [bs]
  have hheld : held = true ↔ ∃ p ∈ s.team, p.2.ctx = 64 + r' ∧ (p.2.st = .resident ∨ isSaved p.2 = true) := by simp [held]
  obtain rfl : code = code' := by simp only [hcode, code', hbad, hheld, Bool.and_eq_true, bne_iff_ne]
  split <;> rfl

/-! ## Tail writes (R391) -/

theorem execHqTailWrite_ignored {s : State} {x val : Nat} (j : Nat)
    (h : val ≤ (tget 0 (x * 4 + j) s.vf.hqTail).toNat ∨ doorbellOk s x = false) : execHqTailWrite x j val s = .next s := by
  unfold execHqTailWrite
  dsimp only
  rw [if_pos]
  simp only [Bool.or_eq_true, decide_eq_true_eq, Bool.not_eq_true']
  rcases h with h | h
  · exact .inl (.inl (.inr h))
  · exact .inl (.inl (.inl (.inl h)))

theorem execHqTailWrite_takes {s : State} {x j val old : Nat} (hok : doorbellOk s x = true) (hj : j < 4)
    (hold : old = (tget 0 (x * 4 + j) s.vf.hqTail).toNat) (hlt : old < val) (hval : val < 2 ^ 64)
    (hroom : (tget [] (x * 4 + j) s.vs.hostq).length + (val - old) ≤ 256) :
    execHqTailWrite x j val s = .next ((List.range (val - old)).foldl (fun s i => takeEntry x j s (old + i))
      { s with vf := { s.vf with hqTail := tset 0 (x * 4 + j) (BitVec.ofNat 64 val) s.vf.hqTail } }) := by
  unfold execHqTailWrite
  dsimp only
  rw [← hold, if_neg]
  · rfl
  · simp only [Bool.or_eq_true, decide_eq_true_eq, Bool.not_eq_true', hok, Bool.true_eq_false, false_or]
    omega

/-- An entry that is taken stands at the end of its queue, under the next token, and HQ_HEAD passes it. -/
theorem takeEntry_appends (x j i : Nat) (s : State) : ∃ it,
    tget [] (x * 4 + j) (takeEntry x j s i).vs.hostq = tget [] (x * 4 + j) s.vs.hostq ++ [it] ∧
    it.tok = nextHostTok s (vdevOf s x) ∧ tget 0 (x * 4 + j) (takeEntry x j s i).vf.hqHead = BitVec.ofNat 64 (i + 1) := by
  unfold takeEntry
  extract_lets v at_ tok r t k
  have hr : r.1.tok = tok ∧ r.2.vs = s.vs := by
    simp only [r]
    split
    · exact ⟨rfl, rfl⟩
    · exact ⟨readEntry_tok .., vs_readEntry ..⟩
  obtain ⟨htok, hvs⟩ := hr
  have hq : t.vs.hostq = s.vs.hostq := (congrArg Tenancy.hostq hvs : r.2.vs.hostq = s.vs.hostq)
  refine ⟨r.1, ?_, htok, tget_tset_same ..⟩
  simp only [tget_tset_same, hq, k]

/-! ## Completion rings (R392) -/

/-- Some of the bytes that have been written. -/
theorem pread_pwrite_slice {i n : Nat} {bs : List Byte} (h : i + n ≤ bs.length) (pa : Nat) (s : State) :
    pread (pwrite pa bs s) (pa + i) n = (bs.drop i).take n := by
  apply List.ext_getElem
  · simp [pread]
    omega
  · intro k hk _
    have hlt : k < n := by simpa [pread] using hk
    simp only [pread, pwrite, List.getElem_map, List.getElem_range, tget_putBytes, List.getElem_take, List.getElem_drop]
    rw [if_pos (by omega), show pa + i + k - pa = i + k by omega]
    exact List.getD_eq_getElem _ _ (by omega)

/-- The bytes of a completion entry (R392). -/
def completionBytes (c : CEnt) : List Byte :=
  bytesOf 4 c.tok ++ bytesOf 2 c.status ++ bytesOf 1 (if c.trig.isSome then 1 else 0) ++ bytesOf 1 (c.trig.getD 0) ++ bytesOf 8 0

theorem length_completionBytes (c : CEnt) : (completionBytes c).length = 16 := rfl

/-- A completion entry in memory, field by field. -/
theorem pread_completion (pa : Nat) (c : CEnt) (s : State) :
    pread (pwrite pa (completionBytes c) s) pa 4 = bytesOf 4 c.tok ∧
    pread (pwrite pa (completionBytes c) s) (pa + 4) 2 = bytesOf 2 c.status ∧
    pread (pwrite pa (completionBytes c) s) (pa + 6) 1 = [if c.trig.isSome then 1 else 0] ∧
    pread (pwrite pa (completionBytes c) s) (pa + 7) 1 = bytesOf 1 (c.trig.getD 0) ∧
    pread (pwrite pa (completionBytes c) s) (pa + 8) 8 = List.replicate 8 0 := by
  have hfield : ∀ i n, i + n ≤ 16 →
      pread (pwrite pa (completionBytes c) s) (pa + i) n = ((completionBytes c).drop i).take n := fun i n h =>
    pread_pwrite_slice (by rwa [length_completionBytes]) pa s
  refine ⟨(hfield 0 4 (by decide)).trans rfl, (hfield 4 2 (by decide)).trans rfl, (hfield 6 1 (by decide)).trans ?_,
    (hfield 7 1 (by decide)).trans rfl, (hfield 8 8 (by decide)).trans rfl⟩
  cases hc : c.trig <;> simp [completionBytes, bytesOf, hc]

/-- Where CQ_TAIL points in the ring. -/
def ringPlace (s : State) (x : Nat) : Nat := (tget 0 x s.vf.cqBase).toNat + 16 * ((tget 0 x s.vf.cqTail).toNat % 256)

/-- The oldest held completion has been written, and CQ_TAIL and the interrupt say so. -/
def completionWritten (x : Nat) (c : CEnt) (cs : List CEnt) (s : State) : State :=
  raiseIrq (vdevOf s x) (if x < 64 then 0 else 2) { pwrite (ringPlace s x) (completionBytes c) s with
    vf := { s.vf with held := tset [] x cs s.vf.held, cqTail := tset 0 x (word ((tget 0 x s.vf.cqTail).toNat + 1)) s.vf.cqTail } }

theorem execCompletionEntryWrite_idle {s : State} {x : Nat} (h : tget [] x s.vf.held = []) :
    execCompletionEntryWrite x s = .next s := by
  simp only [execCompletionEntryWrite, h]

/-- The number of entries that the host has not consumed, from CQ_TAIL and CQ_HEAD, which wrap. -/
theorem ring_used {tail head : Word} {h : Nat} (htail : tail = BitVec.ofNat 64 (h + head.toNat)) (hlt : h < 2 ^ 64) :
    (tail.toNat + 2 ^ 64 - head.toNat) % 2 ^ 64 = h := by
  have hhead := head.isLt
  rw [htail, BitVec.toNat_ofNat]
  omega

section
variable {s : State} {x h : Nat} {c : CEnt} {cs : List CEnt} (hheld : tget [] x s.vf.held = c :: cs)
  (htail : tget 0 x s.vf.cqTail = BitVec.ofNat 64 (h + (tget 0 x s.vf.cqHead).toNat))
include hheld htail

theorem execCompletionEntryWrite_full (hfull : 256 ≤ h) (hlt : h < 2 ^ 64) : execCompletionEntryWrite x s = .next s := by
  simp only [execCompletionEntryWrite, hheld, ring_used htail hlt, if_pos hfull]

theorem execCompletionEntryWrite_writes (hroom : h < 256) :
    execCompletionEntryWrite x s = .next (completionWritten x c cs s) := by
  simp only [execCompletionEntryWrite, hheld, ring_used htail (by omega : h < 2 ^ 64), if_neg (Nat.not_le.2 hroom)]
  rfl
end

/-! ## The statement -/

/-- Settles O46: the two applies with their codes, tail writes with the entries they take, and the ring of completions with and without
room. -/
theorem configurationAndHostQueues : Obligations.ConfigurationAndHostQueues := by
  unfold Obligations.ConfigurationAndHostQueues
  refine ⟨⟨?vdevEarly, ?vdevApply, ?rctxApply⟩, ?tailIgnored, ?tailTakes, ?entry, ?idle, ?completion⟩
  case vdevEarly =>
    intro s w hboot
    exact execVdevApply_ignored hboot w
  case vdevApply =>
    intro s w v bs b code hboot hv hbs hb hcode
    exact execVdevApply_eq hboot hv hbs hb ((vdevCode_eq ..).trans hcode.symm)
  case rctxApply =>
    intro s w r at_ new code hr hat hnew hcode
    exact execRctxApply_eq hr hat hnew hcode
  case tailIgnored =>
    intro s x j val h
    exact execHqTailWrite_ignored j h
  case tailTakes =>
    intro s x j val old hok hj hold hlt hval hroom
    exact execHqTailWrite_takes hok hj hold hlt hval hroom
  case entry =>
    intro s x j i
    exact takeEntry_appends x j i s
  case idle =>
    intro s x h
    exact execCompletionEntryWrite_idle h
  case completion =>
    rintro s x h at_ c cs hheld htail rfl
    refine ⟨execCompletionEntryWrite_full hheld htail, fun hroom => ⟨_, execCompletionEntryWrite_writes hheld htail hroom,
      tget_tset_same .., ?tail, rfl, rfl, ?bytes⟩⟩
    case tail =>
      exact (tget_tset_same ..).trans (by simp [word, BitVec.ofNat_add])
    case bytes =>
      obtain ⟨htok, hstatus, htrig, hevent, hzero⟩ := pread_completion (ringPlace s x) c s
      refine ⟨htok, hstatus, htrig, hevent, hzero, fun a ha => tget_pwrite_other ?_ s⟩
      rw [length_completionBytes, ringPlace]
      omega

end Sys2Proof.Machine
end

section
/-! PROOFS. Power and temperature (R399, R401), the host's accesses to module memory (R276, R389) and the physical function's window
(R390, R391). -/

namespace Sys2Proof.Machine

/-! ## POWER_STAT (R399) -/

/-- The bits of POWER_STAT as a number, its parts being below their fields' bounds. -/
theorem toNat_powerStat {w : Nat} (hw : w < 256) (therm : Bool) (watts : Nat) :
    (powerStat therm w watts).toNat = bitN therm 24 + w * 2 ^ 16 + watts % 65536 := by
  have hbit : bitN therm 24 ≤ 2 ^ 24 := by cases therm <;> decide
  rw [powerStat, word, BitVec.toNat_ofNat, Nat.mod_eq_of_lt (by omega)]

theorem bits_powerStat_withheld {w : Nat} (hw : w < 256) (therm : Bool) (watts : Nat) : bits (powerStat therm w watts) 23 16 = w := by
  rw [bits, toNat_powerStat hw]
  cases therm with
  | false => simp only [bitN, Bool.false_eq_true, if_false]; omega
  | true => simp only [bitN, if_true]; omega

theorem bitAt_powerStat_cap {w : Nat} (hw : w < 256) (therm : Bool) (watts : Nat) : bitAt (powerStat therm w watts) 24 = therm := by
  rw [bitAt, ← BitVec.testBit_toNat, toNat_powerStat hw, Nat.testBit_eq_decide_div_mod_eq]
  cases therm with
  | false => simp only [bitN, Bool.false_eq_true, if_false, decide_eq_false_iff_not]; omega
  | true => simp only [bitN, if_true, decide_eq_true_eq]; omega

/-! ## The power manager (R399) -/

theorem withhold_least {limit total d w : Nat} (hw : w < 64) (hfits : total * (64 - w) * 100 ≤ 64 * limit * (100 - 5 * d))
    (hleast : ∀ v < w, ¬ total * (64 - v) * 100 ≤ 64 * limit * (100 - 5 * d)) : withhold limit total d = w := by
  have hfind : ((List.range 64).find? fun w => decide (total * (64 - w) * 100 ≤ 64 * limit * (100 - 5 * d))) = some w :=
    List.find?_range_eq_some.2 ⟨decide_eq_true hfits, List.mem_range.2 hw, fun v hv => by simpa using hleast v hv⟩
  rw [withhold, hfind, Option.getD_some]

/-- The keys of a list all read the value that has been written at each. -/
theorem tget_foldl_tset {α : Type} [DecidableEq α] (d v : α) (ks : List Nat) (k : Nat) (t : Tab α) :
    tget d k (ks.foldl (fun t i => tset d i v t) t) = if k ∈ ks then v else tget d k t := by
  induction ks generalizing t with
  | nil => simp
  | cons i ks ih =>
    rw [List.foldl_cons, ih, tget_tset]
    by_cases hi : k = i <;> simp [hi]

/-- The power manager withholds as many cycles of every die. -/
theorem execPowerManagerUpdate_eq {s : State} {w : Nat} (est : List Nat)
    (hw : withhold (bits s.rg.powerLimit 15 0) (est.foldl (· + ·) 0) (overheat s) = w) : execPowerManagerUpdate est s =
    .next { s with hs := { s.hs with wh := (List.range 4).foldl (fun t d => tset 0 d w t) s.hs.wh }
                   rg := { s.rg with powerStat := powerStat (decide (0 < overheat s)) w (est.foldl (· + ·) 0 * (64 - w) / 64) } } := by
  subst hw
  rfl

theorem toNat_heldIn_powerLimit (w : BitVec 64) :
    (word (heldIn 1000 3600 (bits w 15 0))).toNat = max 1000 (min 3600 (w.toNat % 65536)) := by
  rw [bits_low16, word, BitVec.toNat_ofNat, heldIn]
  split
  · omega
  · split <;> omega

/-! ## Temperatures (R401) -/

theorem foldl_max_le {l : List (Nat × Nat)} {a b : Nat} : l.foldl (fun n p => max n p.2) a ≤ b ↔ a ≤ b ∧ ∀ p ∈ l, p.2 ≤ b := by
  induction l generalizing a with
  | nil => simp
  | cons p l ih => simp [ih, and_assoc]

/-- No die is hotter than 100 °C where the excess is zero. -/
theorem overheat_eq_zero {s : State} : overheat s = 0 ↔ ∀ p ∈ s.hs.temp, p.2 ≤ 100 := by
  rw [overheat, Nat.sub_eq_zero_iff_le, foldl_max_le]
  simp

/-- A value that a key reads, and that is not the default, is listed. -/
theorem mem_of_tget_ne {α : Type} {d : α} {k : Nat} {t : Tab α} (h : tget d k t ≠ d) : (k, tget d k t) ∈ t := by
  induction t with
  | nil => exact absurd rfl h
  | cons p t ih =>
    by_cases hk : p.1 = k
    · simp only [tget, if_pos hk]
      exact hk ▸ List.mem_cons_self ..
    · simp only [tget, if_neg hk] at h ⊢
      exact List.mem_cons_of_mem _ (ih h)

/-- What is listed after a write is what was written, or was listed before. -/
theorem mem_tset {α : Type} [DecidableEq α] {d v : α} {k : Nat} {t : Tab α} {p : Nat × α} (h : p ∈ tset d k v t) : p = (k, v) ∨ p ∈ t := by
  unfold tset at h
  split at h
  · exact .inr (List.mem_of_mem_filter h)
  · exact mem_tput h

theorem hs_takeTemp (die temp : Nat) (s : State) : (takeTemp die temp s).hs = { s.hs with temp := tset 0 die temp s.hs.temp } := rfl

/-- A die above 100 °C is an excess. -/
theorem overheat_takeTemp_hot {die temp : Nat} (h : 100 < temp) (s : State) : overheat (takeTemp die temp s) ≠ 0 := fun h0 => by
  have hread : tget 0 die (takeTemp die temp s).hs.temp = temp := by rw [hs_takeTemp]; exact tget_tset_same ..
  have hlisted := mem_of_tget_ne (d := 0) (k := die) (t := (takeTemp die temp s).hs.temp) (by omega)
  have := overheat_eq_zero.1 h0 _ hlisted
  omega

theorem overheat_takeTemp_cool {die temp : Nat} {s : State} (hs : ∀ p ∈ s.hs.temp, p.2 ≤ 100) (h : temp ≤ 100) :
    overheat (takeTemp die temp s) = 0 := by
  rw [overheat_eq_zero, hs_takeTemp]
  intro p hp
  rcases mem_tset hp with rfl | hp
  · exact h
  · exact hs p hp

/-- POWER_STAT says whether the thermal cap is in force, with the rest as before. -/
def reportCap (s : State) : State :=
  { s with rg := { s.rg with
    powerStat := powerStat (decide (0 < overheat s)) (bits s.rg.powerStat 23 16) (bits s.rg.powerStat 15 0) } }

theorem bitAt_reportCap (s : State) : bitAt (reportCap s).rg.powerStat 24 = decide (0 < overheat s) :=
  bitAt_powerStat_cap (Nat.mod_lt _ (by decide)) ..

/-- A die's temperature has been taken, and at 110 °C the module has stopped. -/
def afterTemp (die temp : Nat) (s : State) : State :=
  if 110 ≤ temp then stopHot die (reportCap (takeTemp die temp s)) else reportCap (takeTemp die temp s)

theorem execThermalCap_eq (die temp : Nat) (s : State) : execThermalCap die temp s = .next (afterTemp die temp s) := rfl

theorem temp_afterTemp (die temp : Nat) (s : State) : (afterTemp die temp s).hs.temp = tset 0 die temp s.hs.temp := by
  unfold afterTemp
  split <;> rfl

theorem bitAt_afterTemp (die temp : Nat) (s : State) :
    bitAt (afterTemp die temp s).rg.powerStat 24 = decide (0 < overheat (takeTemp die temp s)) := by
  have hrg : (afterTemp die temp s).rg = (reportCap (takeTemp die temp s)).rg := by
    unfold afterTemp
    split <;> rfl
  rw [hrg, bitAt_reportCap]

/-! ## The host's accesses to module memory (R276, R389) -/

theorem hs_of_cacheOnly {s t : State} (h : CacheOnly s t) : t.hs = s.hs := by
  obtain ⟨_, _, _, _, _, _, _, rfl, -⟩ := h; rfl

/-- With no page under a key, a view without one is what is there. -/
theorem viewPage_unwrapped {s : State} (h : s.mm.wrapped = []) (pa : Nat) : viewPage pa .none s = s := by
  rw [viewPage, h, tget_nil]
  exact if_pos rfl

theorem foldl_viewPage_unwrapped {s : State} (h : s.mm.wrapped = []) (ps : List Nat) :
    ps.foldl (fun s p => viewPage p .none s) s = s :=
  List.foldlRecOn ps _ (motive := fun u : State => u = s) rfl fun _ hu p _ => by rw [hu, viewPage_unwrapped h]

theorem mem_dirHome (ctx r line : Nat) (s : State) : (dirHome ctx r line s).mm.mem = s.mm.mem := by
  simp only [dirHome, dirTap, tapDir, apply_ite State.mm, tap_mm, ite_self]

theorem mem_dirLines_dirHome (ctx r pa n : Nat) (s : State) : (dirLines (dirHome ctx r) pa n s).mm.mem = s.mm.mem := by
  unfold dirLines
  split
  · exact List.foldlRecOn _ _ (motive := fun u : State => u.mm.mem = s.mm.mem) rfl fun _ h _ _ => (mem_dirHome ..).trans h
  · rfl

section
variable {s : State} {r : HostReq} (hboot : 6 ≤ s.hs.boot) (hwrap : s.mm.wrapped = [])
include hboot hwrap

theorem execHostIngressAccess_write {d : List Byte} (hwr : r.wr = some d) (hok : ingressOk s r.die r.pa d.length = true) :
    execHostIngressAccess r s = .next (dirLines (dirHome 0 r.die) r.pa d.length (pwrite r.pa d s)) := by
  simp [execHostIngressAccess, linkEnabled_of_boot hboot, hwr, hok, foldl_viewPage_unwrapped hwrap]

theorem execHostIngressAccess_read (hwr : r.wr = none) (hok : ingressOk s r.die r.pa r.len = true) :
    execHostIngressAccess r s = .next { s with hs := { s.hs with hostReads := s.hs.hostReads ++ [pread s r.pa r.len] } } := by
  simp [execHostIngressAccess, linkEnabled_of_boot hboot, hwr, hok, foldl_viewPage_unwrapped hwrap]
end

theorem execHostIngressAccess_refused {s : State} {r : HostReq} {d : List Byte} (hwr : r.wr = some d)
    (hno : ingressOk s r.die r.pa d.length = false) : execHostIngressAccess r s = .next s := by
  simp [execHostIngressAccess, hwr, hno]

/-! ## The physical function's window (R390) -/

/-- A write that the window takes goes to its register of the first page. -/
theorem writePf_low {s : State} {o : Nat} (hlink : linkEnabled s = true ∨ firmwareRegister o = true) (h8 : o % 8 = 0)
    (hkey : ¬ (0xB0 ≤ o ∧ o < 0xF0)) (hlow : o < 0x1000) (x : Word) : writePf o 8 x s = writeLow o x s := by
  have hgo : ¬ (8 ≠ 8 ∨ o % 8 ≠ 0 ∨ (linkEnabled s = false ∧ firmwareRegister o = false)) := by
    rcases hlink with h | h <;> simp [h, h8]
  rw [writePf, if_neg hgo, if_neg hkey, if_pos hlow]

/-- Before step 6 of the bring-up the window takes only what firmware writes, and UALINK_ID from step 4 on (R394). -/
theorem writePf_early {s : State} {o : Nat} (hboot : s.hs.boot < 6) (hsplit : o ≠ 0x20) (hroute : o ≠ 0x28)
    (hid : o ≠ 0x88 ∨ s.hs.boot < 4) (x : Word) : writePf o 8 x s = s := by
  by_cases ho : o = 0x88
  · subst ho
    rw [writePf_low (.inr rfl) rfl (by decide) (by decide)]
    exact if_pos (hid.resolve_left (· rfl))
  · rw [writePf, if_pos (.inr (.inr ⟨linkEnabled_eq_false.2 hboot, by simp [firmwareRegister, hsplit, hroute, ho]⟩))]

theorem writePf_misshapen {o w : Nat} (h : w ≠ 8 ∨ o % 8 ≠ 0) (x : Word) (s : State) : writePf o w x s = s := by
  rw [writePf, if_pos (h.imp_right .inl)]

theorem mgmtCause_clearMgmt (x : Word) (s : State) : (clearMgmt x s).rg.mgmtCause = s.rg.mgmtCause &&& ~~~x := rfl

theorem exec_registerWrite_pf (o w : Nat) (x : Word) (s : State) :
    exec (.registerWrite ⟨.none, o, w, .some x⟩) s = .next (writePf o w x s) := rfl

theorem exec_registerWrite_low {s : State} {o : Nat} (hlink : linkEnabled s = true ∨ firmwareRegister o = true) (h8 : o % 8 = 0)
    (hkey : ¬ (0xB0 ≤ o ∧ o < 0xF0)) (hlow : o < 0x1000) (x : Word) :
    exec (.registerWrite ⟨.none, o, 8, .some x⟩) s = .next (writeLow o x s) := by
  rw [exec_registerWrite_pf, writePf_low hlink h8 hkey hlow]

/-- A register write that starts a step comes to that step. -/
theorem next_andGo_vdevApply (x : Word) (s : State) : Host.Outcome.next (andGo s (execVdevApply x s)) = execVdevApply x s := by
  unfold execVdevApply
  split <;> rfl

theorem readPf_peerErr {p : Nat} (hp : p < 1024) (s : State) : readPf s (0x8000 + 4 * p) 4 = tget 0 p s.rg.peerErr := by
  rw [readPf, if_neg (by simp), if_pos (by omega), show (0x8000 + 4 * p - 0x8000) / 4 = p by omega]

theorem exec_registerRead_pf (o w : Nat) (s : State) : exec (.registerWrite ⟨.none, o, w, .none⟩) s =
    .next { s with hs := { s.hs with hostReads := s.hs.hostReads ++ [bytesOf w (readPf s o w)] } } := rfl

/-! ## The statement -/

/-- Settles O54: the least number of withheld cycles, the held limit, temperatures, the host's accesses, and the window's writes and reads
before and after the link is up. -/
theorem powerAndHostAccess : Obligations.PowerAndHostAccess := by
  unfold Obligations.PowerAndHostAccess
  refine ⟨?power, ?limit, ?cap, ?shutdown, ?host, ?firmware, ?early, ?late, ?readLimit, ?readErrors⟩
  case power =>
    intro s est w hw hfits hleast
    refine ⟨_, execPowerManagerUpdate_eq est (withhold_least hw hfits hleast), fun d hd => ?_, ?_, rfl, rfl⟩
    · dsimp only
      rw [tget_foldl_tset, if_pos (List.mem_range.2 hd)]
    · exact bits_powerStat_withheld (Nat.lt_trans hw (by decide)) ..
  case limit =>
    intro s w
    exact ⟨_, rfl, rfl, rfl, toNat_heldIn_powerLimit w⟩
  case cap =>
    intro s die temp
    refine ⟨_, execThermalCap_eq die temp s, ?_, fun hhot => ?_, fun hs hcool => ?_, fun hstop => ?_, fun hgo => ?_⟩
    · rw [temp_afterTemp, tget_tset_same]
    · rw [bitAt_afterTemp]
      exact decide_eq_true (Nat.pos_of_ne_zero (overheat_takeTemp_hot hhot s))
    · rw [bitAt_afterTemp, overheat_takeTemp_cool hs hcool]
      rfl
    · rw [afterTemp, if_pos hstop]
      exact ⟨rfl, rfl⟩
    · rw [afterTemp, if_neg (Nat.not_le.2 hgo)]
      rfl
  case shutdown =>
    intro s die temp hstop
    exact ⟨_, congrArg Host.Outcome.next (if_pos hstop), rfl, rfl⟩
  case host =>
    intro s r hboot hwrap
    refine ⟨fun d hwr hok => ⟨_, execHostIngressAccess_write hboot hwrap hwr hok, ?_, ?_, fun a ha => ?_⟩,
      execHostIngressAccess_read hboot hwrap, fun d hwr hno => execHostIngressAccess_refused hwr hno⟩
    · rw [pread, mem_dirLines_dirHome]
      exact pread_pwrite_same r.pa d s
    · rw [hs_of_cacheOnly (cacheOnly_dirLines (fun _ _ => cacheOnly_dirHome ..) ..)]
      rfl
    · rw [mem_dirLines_dirHome]
      exact tget_pwrite_other (by omega) s
  case firmware =>
    intro s x
    exact ⟨exec_registerWrite_low (.inr rfl) rfl (by decide) (by decide) x,
      exec_registerWrite_low (.inr rfl) rfl (by decide) (by decide) x⟩
  case early =>
    intro s o x hboot hsplit hroute hid
    rw [exec_registerWrite_pf, writePf_early hboot hsplit hroute hid]
  case late =>
    intro s x hlink
    refine ⟨exec_registerWrite_low (.inl hlink) rfl (by decide) (by decide) x, ?_,
      exec_registerWrite_low (.inl hlink) rfl (by decide) (by decide) x,
      ⟨_, exec_registerWrite_low (.inl hlink) rfl (by decide) (by decide) x, mgmtCause_clearMgmt x s⟩, fun o w h => ?_⟩
    · exact (exec_registerWrite_low (.inl hlink) rfl (by decide) (by decide) x).trans (next_andGo_vdevApply x s)
    · rw [exec_registerWrite_pf, writePf_misshapen h]
  case readLimit =>
    intro s
    exact exec_registerRead_pf 0x98 8 s
  case readErrors =>
    intro s p hp
    rw [exec_registerRead_pf, readPf_peerErr hp]

end Sys2Proof.Machine
end

section
/-! PROOFS. Walks and cached translations (R287, R288), fault records and their answers (R289, R290), invalidations (R291). -/

namespace Sys2Proof.Machine

/-! ## One walk (R287, R288) -/

theorem execPageWalk_caches {s : State} {asid page : Nat} {l : Leaf} (hpage : page < 2 ^ 41)
    (hnew : (s.mm.xlat.any fun e => e.core == agentCore && e.asid == asid && e.page == page) = false)
    (hpend : pendingRec s asid page = false) (hwalk : walk s asid (page * 65536) = .leaf l) :
    execPageWalk asid page s = .next (setEntryBit l.at_ 4
      { s with mm := { s.mm with xlat := s.mm.xlat ++ [⟨agentCore, asid, page, l⟩] } }) := by
  have hva : page * 65536 % 2 ^ 57 / 65536 = page := by omega
  have hnone : (s.mm.xlat.find? fun e => e.core == agentCore && e.asid == asid && e.page == page) = none := by
    rw [List.find?_eq_none]
    exact List.any_eq_false.1 hnew
  simp only [execPageWalk, lookup, hva, hnone, hpend, hwalk, Bool.false_eq_true, if_false]

/-! ## Posting a record (R289) -/

theorem length_recBytes (r : FRec) (n : Nat) : (recBytes r n).length = 64 := rfl

/-- Where FQ_TAIL of a device points in its ring. -/
def recordPlace (s : State) (v : Nat) : Nat := (blockOf s v).savebase + 64 * ((tget 0 v s.vf.fqTail).toNat % 256)

/-- The `k`-th record has been written, and FQ_TAIL, the next number and the interrupt say so. -/
def recordPosted (k : Nat) (r : FRec) (s : State) : State :=
  raiseIrq r.vdev 1 { pwrite (recordPlace s r.vdev) (recBytes r (tget 0 r.vdev s.bd.fseq)) s with
    vf := { s.vf with fqTail := tset 0 r.vdev (word ((tget 0 r.vdev s.vf.fqTail).toNat + 1)) s.vf.fqTail }
    bd := { s.bd with frecs := s.bd.frecs.set k { r with seq := .some (tget 0 r.vdev s.bd.fseq) }
                      fseq := tset 0 r.vdev ((tget 0 r.vdev s.bd.fseq + 1) % 2 ^ 32) s.bd.fseq } }

theorem vf_recordPosted (k : Nat) (r : FRec) (s : State) : (recordPosted k r s).vf =
    { s.vf with fqTail := tset 0 r.vdev (word ((tget 0 r.vdev s.vf.fqTail).toNat + 1)) s.vf.fqTail } := rfl

theorem bd_recordPosted (k : Nat) (r : FRec) (s : State) : (recordPosted k r s).bd =
    { s.bd with frecs := s.bd.frecs.set k { r with seq := .some (tget 0 r.vdev s.bd.fseq) }
                fseq := tset 0 r.vdev ((tget 0 r.vdev s.bd.fseq + 1) % 2 ^ 32) s.bd.fseq } := rfl

theorem mm_recordPosted (k : Nat) (r : FRec) (s : State) :
    (recordPosted k r s).mm = (pwrite (recordPlace s r.vdev) (recBytes r (tget 0 r.vdev s.bd.fseq)) s).mm := rfl

theorem fqTail_recordPosted_same (k : Nat) (r : FRec) (s : State) :
    tget 0 r.vdev (recordPosted k r s).vf.fqTail = tget 0 r.vdev s.vf.fqTail + 1 := by
  rw [vf_recordPosted, tget_tset_same, word, BitVec.ofNat_add, BitVec.ofNat_toNat, BitVec.setWidth_eq]
  rfl

theorem pread_recordPosted (k : Nat) (r : FRec) (s : State) :
    pread (recordPosted k r s) (recordPlace s r.vdev) 64 = recBytes r (tget 0 r.vdev s.bd.fseq) := by
  simp only [pread, mm_recordPosted]
  exact pread_pwrite_same (recordPlace s r.vdev) (recBytes r (tget 0 r.vdev s.bd.fseq)) s

theorem mem_recordPosted_other (k : Nat) (r : FRec) (s : State) {a : Nat}
    (h : ¬ (recordPlace s r.vdev ≤ a ∧ a < recordPlace s r.vdev + 64)) :
    tget 0 a (recordPosted k r s).mm.mem = tget 0 a s.mm.mem := by
  rw [mm_recordPosted]
  refine tget_pwrite_other ?_ s
  rw [length_recBytes]
  omega

section
variable {s : State} {k h : Nat} {r : FRec} (hrec : s.bd.frecs[k]? = some r)
  (htail : tget 0 r.vdev s.vf.fqTail = BitVec.ofNat 64 (h + (tget 0 r.vdev s.vf.fqHead).toNat))
include hrec htail

theorem execFaultRecordPost_posts (hseq : r.seq = none) (hroom : h < 256) :
    execFaultRecordPost k s = .next (recordPosted k r s) := by
  have hused := ring_used htail (by omega)
  have hgo : ¬ 256 ≤ h := by omega
  simp only [execFaultRecordPost, postRecord, hrec, hseq, hused, hgo, Option.isSome_none, decide_false, Bool.or_self,
    Bool.false_eq_true, if_false]
  rfl

theorem execFaultRecordPost_full (hfull : 256 ≤ h) (hlt : h < 2 ^ 64) : execFaultRecordPost k s = .next s := by
  have hused := ring_used htail hlt
  simp only [execFaultRecordPost, postRecord, hrec, hused, hfull, decide_true, Bool.or_true, if_true]
end

/-! ## A denied page (R290) -/

/-- Every thread that waits for the page runs again, to take its trap. -/
def denyThreads (asid page : Nat) (s : State) : State := s.thr.foldl (denyThread asid page) s
/-- Every copy that waits for it ends. -/
def denyOps (asid page : Nat) (s : State) : State := s.mm.ops.foldl (denyOp asid page) s
/-- Every access program that waits for it ends. -/
def denyProgs (asid page : Nat) (s : State) : State := (tkeys s.team).foldl (denyProg asid page) s
/-- Every command of a halo or all-reduce engine that waits for it completes. -/
def denyEngines (asid page : Nat) (s : State) : State :=
  { s with pk := { s.pk with halo := tmap [] (fun _ q => denyCmds asid page q) s.pk.halo
                             coll := tmap [] (fun _ q => denyCmds asid page q) s.pk.coll } }
/-- All that a denied page ends beside the threads' waits. -/
def denyOthers (asid page : Nat) (s : State) : State :=
  denyAdmission asid page (denyEntries asid page (denyEngines asid page (denyProgs asid page (denyOps asid page s))))

theorem execFqDoneDeny_page {s : State} {v seq : Nat} {r : FRec} (hrec : recordOf s v seq = some r) (hcause : r.cause = 1) :
    execFqDoneDeny v seq s =
      .next (denyOthers r.asid r.page (denyThreads r.asid r.page (dropRecord v seq s))) := by
  simp only [execFqDoneDeny, hrec, hcause, ne_eq, not_true, if_false]
  rfl

theorem execFqDoneDeny_unknown {s : State} {v seq : Nat} (h : ∀ r ∈ s.bd.frecs, ¬ (r.vdev = v ∧ r.seq = some seq)) :
    execFqDoneDeny v seq s = .next s := by
  have hnone : recordOf s v seq = none := List.find?_eq_none.2 fun r hr => by simpa using h r hr
  simp only [execFqDoneDeny, hnone]

/-! ### What a denied page leaves alone -/

theorem denyThread_eq (asid page : Nat) (s : State) (p : Nat × Thr) : ∃ h, denyThread asid page s p = { s with thr := h } := by
  unfold denyThread
  dsimp only
  split
  · exact ⟨_, rfl⟩
  · exact ⟨s.thr, rfl⟩

theorem foldl_denyThread_eq (asid page : Nat) (l : List (Nat × Thr)) (s : State) :
    ∃ h, l.foldl (denyThread asid page) s = { s with thr := h } := by
  refine List.foldlRecOn l _ (motive := fun u : State => ∃ h, u = { s with thr := h }) ⟨s.thr, rfl⟩ fun u hu p _ => ?_
  obtain ⟨h, rfl⟩ := hu
  exact denyThread_eq asid page _ p

theorem denyThreads_eq (asid page : Nat) (s : State) : ∃ h, denyThreads asid page s = { s with thr := h } :=
  foldl_denyThread_eq asid page s.thr s

theorem bd_denyOp (asid page : Nat) (s : State) (o : Op) : (denyOp asid page s o).bd = s.bd := by
  unfold denyOp
  split
  · split <;> rfl
  · rfl

theorem bd_denyOps (asid page : Nat) (s : State) : (denyOps asid page s).bd = s.bd :=
  List.foldlRecOn _ _ (motive := fun u : State => u.bd = s.bd) rfl fun _ h o _ => (bd_denyOp asid page _ o).trans h

theorem bd_endProg (t : Nat) (e : ProgEnd) (s : State) : (endProg t e s).bd = s.bd := by
  unfold endProg
  split
  · rfl
  · dsimp only
    split <;> rfl

theorem bd_settleTeam (t : Nat) (s : State) : (settleTeam t s).bd = s.bd := by
  obtain ⟨-, hbd, -⟩ := settleTeam_kept t s
  exact hbd

theorem bd_denyProg (asid page : Nat) (s : State) (t : Nat) : (denyProg asid page s t).bd = s.bd := by
  unfold denyProg
  split
  · split
    · exact (bd_settleTeam ..).trans (bd_endProg ..)
    · rfl
  · rfl

theorem bd_denyProgs (asid page : Nat) (s : State) : (denyProgs asid page s).bd = s.bd :=
  List.foldlRecOn _ _ (motive := fun u : State => u.bd = s.bd) rfl fun _ h t _ => (bd_denyProg asid page _ t).trans h

theorem bd_refuseItem (ctx prio : Nat) (host : Bool) (it : QItem) (status : Nat) (s : State) :
    (refuseItem ctx prio host it status s).bd = s.bd := by
  obtain ⟨-, hbd, -⟩ := endGrid_kept (makeGrid ctx prio host it {} s).1 status (makeGrid ctx prio host it {} s).2
  exact hbd

theorem bd_popHead (ctx prio : Nat) (host : Bool) (s : State) : (popHead ctx prio host s).bd = s.bd := by
  unfold popHead
  dsimp only
  split <;> rfl

theorem bd_denyAdmission (asid page : Nat) (s : State) : (denyAdmission asid page s).bd = s.bd := by
  unfold denyAdmission
  split
  · split
    · split
      · exact (bd_refuseItem ..).trans (bd_popHead ..)
      · rfl
    · rfl
  · rfl

/-- A denial changes no record beside the one it retires. -/
theorem bd_deny (asid page : Nat) (s : State) : (denyOthers asid page (denyThreads asid page s)).bd = s.bd := by
  obtain ⟨h, hthr⟩ := denyThreads_eq asid page s
  rw [denyOthers, bd_denyAdmission, hthr]
  exact (bd_denyProgs ..).trans (bd_denyOps ..)

/-! ### The threads of a denied page -/

/-- The thread that a listed one becomes runs again, to take its trap. -/
theorem getThr_denyThread_same {asid page k : Nat} {x : Thr} {s : State} (hwait : x.wait = .page asid page)
    (hev : (getTeam s (teamOfG (k / 64))).st ≠ .evicted) (hwoken : (getTeam s (teamOfG (k / 64))).st ≠ .woken) :
    getThr (denyThread asid page s (k, x)) k = { x with st := .ready, wait := .denied asid page } := by
  rw [denyThread, if_pos ⟨hwait, hev, hwoken⟩]
  exact tget_tset_same ..

theorem getThr_denyThread_other {k : Nat} {p : Nat × Thr} (h : k ≠ p.1) (asid page : Nat) (s : State) :
    getThr (denyThread asid page s p) k = getThr s k := by
  unfold denyThread
  dsimp only
  split
  · exact tget_tset_ne _ _ h _
  · rfl

theorem getThr_foldl_denyThread_other {k : Nat} {l : List (Nat × Thr)} (h : ∀ p ∈ l, k ≠ p.1) (asid page : Nat) (s : State) :
    getThr (l.foldl (denyThread asid page) s) k = getThr s k :=
  List.foldlRecOn l _ (motive := fun u : State => getThr u k = getThr s k) rfl
    fun _ hu p hp => (getThr_denyThread_other (h p hp) ..).trans hu

/-- With every thread listed once, a thread that waits for the denied page runs again, its team being neither evicted nor woken. -/
theorem getThr_denyThreads {asid page k : Nat} {s : State} (hnodup : (s.thr.map Prod.fst).Nodup)
    (hwait : (getThr s k).wait = .page asid page) (hev : (getTeam s (teamOfG (k / 64))).st ≠ .evicted)
    (hwoken : (getTeam s (teamOfG (k / 64))).st ≠ .woken) :
    getThr (denyThreads asid page s) k = { getThr s k with st := .ready, wait := .denied asid page } := by
  have hne : getThr s k ≠ ({} : Thr) := fun h => by
    rw [h] at hwait
    cases hwait
  have hlisted : (k, getThr s k) ∈ s.thr := mem_of_tget_ne hne
  obtain ⟨before, after, hsplit⟩ := List.append_of_mem hlisted
  have hafter : ∀ p ∈ after, k ≠ p.1 := fun p hp h => by
    rw [hsplit, List.map_append, List.map_cons] at hnodup
    exact (List.nodup_cons.1 hnodup.of_append_right).1 (List.mem_map.2 ⟨p, hp, h.symm⟩)
  obtain ⟨h, hbefore⟩ := foldl_denyThread_eq asid page before s
  rw [denyThreads, hsplit, List.foldl_append, List.foldl_cons, getThr_foldl_denyThread_other hafter, hbefore]
  exact getThr_denyThread_same hwait hev hwoken

/-! ### A denial that meets threads and engine commands only -/

theorem items_congr {s t : State} (hteam : t.team = s.team) (hgrid : t.grid = s.grid) (hvs : t.vs = s.vs) (ctx : Nat) :
    items t ctx = items s ctx := by
  cases s
  cases t
  cases hteam
  cases hgrid
  cases hvs
  rfl

theorem denyOps_idle {s : State} (h : s.mm.ops = []) (asid page : Nat) : denyOps asid page s = s := by
  rw [denyOps, h, List.foldl_nil]

theorem denyProgs_idle {s : State} (h : ∀ t, (getTeam s t).prog = none) (asid page : Nat) : denyProgs asid page s = s :=
  List.foldlRecOn _ _ (motive := fun u : State => u = s) rfl fun _ hu t _ => by simp only [hu, denyProg, h t]

theorem denyEntries_idle {s : State} (h : s.vs.hostq = []) (asid page : Nat) : denyEntries asid page s = s := by
  unfold denyEntries
  rw [h]
  exact congrArg (fun q => { s with vs := { s.vs with hostq := q } }) h.symm

theorem denyAdmission_idle {s : State} {asid : Nat} (h : items s asid = []) (page : Nat) : denyAdmission asid page s = s := by
  simp only [denyAdmission, h, List.head?_nil]

theorem denyOthers_idle {s : State} {asid : Nat} (hops : s.mm.ops = []) (hhost : s.vs.hostq = [])
    (hprog : ∀ t, (getTeam s t).prog = none) (hitems : items s asid = []) (page : Nat) :
    denyOthers asid page s = denyEngines asid page s := by
  rw [denyOthers, denyOps_idle hops, denyProgs_idle hprog, denyEntries_idle (s := denyEngines asid page s) hhost]
  exact denyAdmission_idle (s := denyEngines asid page s) ((items_congr rfl rfl rfl asid).trans hitems) page

/-- With nobody but threads and engine commands to deny, the threads and the commands alone change. -/
theorem deny_idle {s : State} {asid : Nat} (hops : s.mm.ops = []) (hhost : s.vs.hostq = [])
    (hprog : ∀ t, (getTeam s t).prog = none) (hitems : items s asid = []) (page : Nat) :
    ∃ h, denyThreads asid page s = { s with thr := h } ∧
      denyOthers asid page (denyThreads asid page s) = denyEngines asid page { s with thr := h } := by
  obtain ⟨h, hthr⟩ := denyThreads_eq asid page s
  refine ⟨h, hthr, ?_⟩
  rw [hthr]
  exact denyOthers_idle (s := { s with thr := h }) hops hhost hprog ((items_congr rfl rfl rfl asid).trans hitems) page

/-! ## Invalidations (R291) -/

theorem cacheOnly_recallPage (page : Nat) (s : State) : CacheOnly s (recallPage page s) := by
  unfold recallPage
  extract_lets mine drained home
  have hdrain : CacheOnly s drained := cacheOnly_foldl (fun s (l : Line) => cacheOnly_drainEntry l.core l.line s) _ s
  have hhome : CacheOnly drained home := cacheOnly_foldl (fun s (l : Line) => cacheOnly_sendBack l.core l.line s) _ drained
  exact cacheOnly_trans (cacheOnly_trans hdrain hhome) ⟨home.mm.mem, home.mm.bad, home.mm.badH, _, home.mm.comb, _, home.gl, rfl, id⟩

theorem xlat_of_cacheOnly {s t : State} (h : CacheOnly s t) : t.mm.xlat = s.mm.xlat := by
  obtain ⟨_, _, _, _, _, _, _, rfl, -⟩ := h; rfl

/-- The lines of an invalidation go home, and its translations alone go. -/
theorem xlat_invalidate (asid lo n : Nat) (s : State) : (invalidate asid lo n s).mm.xlat =
    s.mm.xlat.filter fun e => !(e.asid == asid && decide (lo ≤ e.page ∧ e.page < lo + n)) := by
  have hrecall := cacheOnly_foldl (fun s (e : XEnt) => cacheOnly_recallPage (e.leaf.pa / 65536 * 65536) s)
    (s.mm.xlat.filter fun e => e.asid == asid && decide (lo ≤ e.page ∧ e.page < lo + n)) s
  simp only [invalidate, dropXlat, xlat_of_cacheOnly hrecall]

theorem mem_xlat_invalidate {asid lo n : Nat} {s : State} {e : XEnt} : e ∈ (invalidate asid lo n s).mm.xlat ↔
    e ∈ s.mm.xlat ∧ ¬ (e.asid = asid ∧ lo ≤ e.page ∧ e.page < lo + n) := by
  rw [xlat_invalidate, List.mem_filter, Bool.not_eq_true', ← Bool.not_eq_true, Bool.and_eq_true, beq_iff_eq, decide_eq_true_iff]

/-- The invalidation is done: INV_CTL says so. -/
def invalidationDone (s : State) : State :=
  let t := invalidate (bits s.rg.invCtl 11 0) (bits s.rg.invAddr 56 16) (bits s.rg.invCtl 31 12) s
  { t with rg := { t.rg with invCtl := s.rg.invCtl &&& 0x7FFFFFFFFFFFFFFF } }

/-- Bit 63 of INV_CTL is clear in a done invalidation. -/
theorem bitAt_invalidationDone (s : State) : bitAt (invalidationDone s).rg.invCtl 63 = false := by
  rw [invalidationDone, bitAt, BitVec.getLsbD_and]
  exact Bool.and_false _

section
variable {s : State} {asid n lo : Nat} (hon : bitAt s.rg.invCtl 63 = true) (hasid : asid = bits s.rg.invCtl 11 0)
  (hn : n = bits s.rg.invCtl 31 12) (hlo : lo = bits s.rg.invAddr 56 16)
include hon hasid hn hlo

theorem execInvalidation_waits (h : s.mm.ops.any (usesPages s asid lo n) = true ∨ recallsAll s asid lo n = false) :
    execInvalidation s = .next s := by
  subst hasid hn hlo
  rcases h with h | h <;> simp [execInvalidation, hon, h]

theorem execInvalidation_acts (hops : s.mm.ops.any (usesPages s asid lo n) = false) (hlines : recallsAll s asid lo n = true) :
    execInvalidation s = .next (invalidationDone s) := by
  subst hasid hn hlo
  simp only [execInvalidation, hon, hops, hlines]
  rfl
end

/-! ## The statement -/

/-- Settles O43: the walk, the record's place in its ring, the answers to a record, and an invalidation that waits or acts. -/
theorem translationsAndFaultRecords : Obligations.TranslationsAndFaultRecords := by
  unfold Obligations.TranslationsAndFaultRecords
  refine ⟨?walk, ?posts, ?full, ?retry, ?unknown, ?deny, ?invalidation⟩
  case walk =>
    intro s asid page l hpage hnew hpend hwalk
    exact execPageWalk_caches hpage hnew hpend hwalk
  case posts =>
    rintro s k n h r hrec hseq rfl htail hroom
    refine ⟨recordPosted k r s, execFaultRecordPost_posts hrec htail hseq hroom, fqTail_recordPosted_same k r s, fun v hv => ?_, rfl,
      rfl, ?_, rfl, pread_recordPosted k r s, fun a ha => mem_recordPosted_other k r s ha⟩
    · rw [vf_recordPosted, tget_tset_ne _ _ hv]
    · rw [bd_recordPosted, tget_tset_same]
  case full =>
    intro s k h r hrec hfull hlt htail
    exact execFaultRecordPost_full hrec htail hfull hlt
  case retry =>
    intro s v seq
    rfl
  case unknown =>
    intro s v seq h
    exact execFqDoneDeny_unknown h
  case deny =>
    intro s v seq r hrec hcause hnodup
    refine ⟨_, execFqDoneDeny_page hrec hcause, congrArg Bindery.frecs (bd_deny ..), ?_⟩
    rintro ⟨hops, hhost, hprog, hitems⟩
    obtain ⟨h, hthr, hidle⟩ := deny_idle (s := dropRecord v seq s) hops hhost hprog ((items_congr rfl rfl rfl r.asid).trans hitems) r.page
    rw [hidle]
    refine ⟨rfl, rfl, rfl, fun k hwait hev hwoken => (congrArg (getThr · k) hthr.symm).trans ?_⟩
    exact getThr_denyThreads (s := dropRecord v seq s) hnodup hwait hev hwoken
  case invalidation =>
    intro s asid n lo hon hasid hn hlo
    refine ⟨execInvalidation_waits hon hasid hn hlo, fun hops hlines =>
      ⟨_, execInvalidation_acts hon hasid hn hlo hops hlines, bitAt_invalidationDone s, ?_, ?_⟩⟩
    · subst hasid hn hlo
      exact fun e he => (mem_xlat_invalidate.1 he).2
    · subst hasid hn hlo
      exact fun e he hout => mem_xlat_invalidate.2 ⟨he, hout⟩

end Sys2Proof.Machine
end

section
/-! PROOFS. Regions (R293, R394), the Bindery's background work (R297, R301), MEM_SPLIT (R306) and routes (R316, R317). -/

namespace Sys2Proof.Machine

/-! ## Regions (R293) -/

/-- Before step 6 of the bring-up no apply of a region comes about (R394). -/
theorem regionApplies_early {s : State} (h : linkEnabled s = false) (r : Nat) :
    execRegionCreate r s = .next s ∧ execRegionReread r s = .next s ∧ execRegionDestroy r s = .next s := by
  simp only [execRegionCreate, execRegionReread, execRegionDestroy, h, Bool.false_eq_true, if_false, and_self]

theorem execRegionCreate_eq {s : State} (h : linkEnabled s = true) (r : Nat) : execRegionCreate r s = .next (createRegion r s) := by
  rw [execRegionCreate, if_pos h]
theorem execRegionReread_eq {s : State} (h : linkEnabled s = true) (r : Nat) : execRegionReread r s = .next (rereadRegion r s) := by
  rw [execRegionReread, if_pos h]
theorem execRegionDestroy_eq {s : State} (h : linkEnabled s = true) (r : Nat) : execRegionDestroy r s = .next (destroyRegion r s) := by
  rw [execRegionDestroy, if_pos h]

/-- What REGION_APPLY and REGION_STATUS say after an apply: the operation is in the bits above the region's number. -/
theorem regionStatus_create (r code : Nat) (s : State) : regionStatus 0 r code s =
    { s with rg := { s.rg with regionApply := BitVec.ofNat 64 r, regionStatus := BitVec.ofNat 64 code } } := by
  rw [regionStatus, Nat.zero_mul, Nat.zero_add]
  rfl
theorem regionStatus_reread (r code : Nat) (s : State) : regionStatus 1 r code s =
    { s with rg := { s.rg with regionApply := BitVec.ofNat 64 (2 ^ 62 + r), regionStatus := BitVec.ofNat 64 code } } := by
  rw [regionStatus, Nat.one_mul]
  rfl

theorem bd_regionStatus (op r code : Nat) (s : State) : (regionStatus op r code s).bd = s.bd := by
  rw [regionStatus]
theorem maps_setMaps (r : Nat) (m : Option (List Mapping)) (s : State) : (setMaps r m s).bd.maps = tset none r m s.bd.maps := rfl

/-- A descriptor with a field out of its range is malformed. -/
theorem malformedRegion_of_field {s : State} {r : Nat} (h : r = 0 ∨ eOpen s r = 0 ∨ ePub s r + 1 ≠ eOpen s r ∨ ePub s r < eFloor s r ∨
    regionDepth s r = 0 ∨ 4 < regionDepth s r ∨ regionPages s r = 0 ∨ 2 ^ 20 < regionPages s r ∨ regionCat s r % 64 ≠ 0) :
    malformedRegion s r = true := by
  simp only [malformedRegion, Bool.or_eq_true, beq_iff_eq, bne_iff_ne, decide_eq_true_eq, or_assoc]
  refine h.imp_right fun h => h.imp_right fun h => h.imp_right fun h => h.imp_right fun h => h.imp_right fun h => ?_
  exact h.imp_right fun h => .inr (h.imp_right fun h => h.imp_right .inl)

/-! ### The pool fields are read again -/

theorem readPool_congr {s t : State} (hbase : t.rg.regionBase = s.rg.regionBase) (hmem : t.mm.mem = s.mm.mem) (r k : Nat) :
    readPool t r k = readPool s r k := by
  simp only [readPool, poolCount, poolCap, regionPool, regionAt, rdN, pread, hbase, hmem]

theorem rereadPool_spec (r : Nat) (s : State) (k : Nat) : (rereadPool r s k).bd =
      { s.bd with pools := tset {} (r * 8 + k) (readPool s r k) s.bd.pools } ∧
    (rereadPool r s k).rg = s.rg ∧ (rereadPool r s k).mm.mem = s.mm.mem := by
  unfold rereadPool
  dsimp only
  split <;> exact ⟨rfl, rfl, rfl⟩

theorem readPool_rereadPool (r : Nat) (s : State) (j k : Nat) : readPool (rereadPool r s j) r k = readPool s r k := by
  obtain ⟨-, hrg, hmem⟩ := rereadPool_spec r s j
  exact readPool_congr (by rw [hrg]) hmem r k

/-- Each sub-pool of a list has its fields from memory, the others keep theirs. -/
theorem tget_foldl_rereadPool (r k : Nat) (ks : List Nat) (s : State) : tget {} (r * 8 + k) (ks.foldl (rereadPool r) s).bd.pools =
    if k ∈ ks then readPool s r k else tget {} (r * 8 + k) s.bd.pools := by
  induction ks generalizing s with
  | nil => rfl
  | cons j ks ih =>
    obtain ⟨hbd, -⟩ := rereadPool_spec r s j
    rw [List.foldl_cons, ih, readPool_rereadPool, hbd, tget_tset]
    by_cases hj : k = j <;> by_cases hks : k ∈ ks <;> simp [hj, hks]

theorem tget_rereadPools {k : Nat} (hk : k < 5) (r : Nat) (s : State) :
    tget {} (r * 8 + k) (rereadPools r s).bd.pools = readPool s r k := by
  rw [rereadPools, tget_foldl_rereadPool, if_pos]
  simp only [List.mem_cons, List.not_mem_nil, or_false]
  omega

theorem maps_foldl_rereadPool (r : Nat) (ks : List Nat) (s : State) : (ks.foldl (rereadPool r) s).bd.maps = s.bd.maps := by
  induction ks generalizing s with
  | nil => rfl
  | cons k ks ih =>
    obtain ⟨hbd, -⟩ := rereadPool_spec r s k
    rw [List.foldl_cons, ih, hbd]

theorem maps_rereadPools (r : Nat) (s : State) : (rereadPools r s).bd.maps = s.bd.maps := by
  rw [rereadPools, maps_foldl_rereadPool]

/-! ### A destroy -/

theorem destroyRegion_absent {s : State} {r : Nat} (h : tget none r s.bd.maps = none) : destroyRegion r s = regionStatus 2 r 1 s := by
  simp only [destroyRegion, h]

section
variable {s : State} {r : Nat} {ms : List Mapping} (hmaps : tget none r s.bd.maps = some ms)
include hmaps

theorem destroyRegion_mapped (h : r = 0 ∨ ms ≠ []) : destroyRegion r s = regionStatus 2 r 1 s := by
  simp only [destroyRegion, hmaps, if_pos h]

section
variable (hr : r ≠ 0) (hnone : ms = [])
include hr hnone

theorem destroyRegion_busy (h : (∃ i < regionPages s r, catPend s r i ≠ 0) ∨ poolWaiter s r = true) :
    destroyRegion r s = regionStatus 2 r 2 s := by
  have hfree : ¬ (r = 0 ∨ ms ≠ []) := by simp [hr, hnone]
  have hbusy : ((List.range (regionPages s r)).any (fun i => catPend s r i != 0) || poolWaiter s r) = true := by
    simpa using h
  simp only [destroyRegion, hmaps, if_neg hfree, if_pos hbusy]

theorem destroyRegion_done (hpend : ∀ i < regionPages s r, catPend s r i = 0) (hwait : poolWaiter s r = false) :
    destroyRegion r s =
      regionStatus 2 r 0 (setMaps r none ((List.range (regionPages s r)).foldl (returnCopies r) s)) := by
  have hfree : ¬ (r = 0 ∨ ms ≠ []) := by simp [hr, hnone]
  have hidle : ¬ ((List.range (regionPages s r)).any (fun i => catPend s r i != 0) || poolWaiter s r) = true := by
    simpa [hwait] using hpend
  simp only [destroyRegion, hmaps, if_neg hfree, if_neg hidle]
end
end

/-! ## Background work (R297, R301) -/

theorem execBackgroundSubblockCopy_lowest {s : State} {r page k : Nat} (hk : k < 16) (hpend : catPend s r page / 2 ^ k % 2 = 1)
    (hlow : ∀ j < k, catPend s r page / 2 ^ j % 2 = 0) :
    execBackgroundSubblockCopy r page s = .next (copySub r page k (pageCurrent s r page) s) := by
  have hfind : ((List.range 16).find? fun k => decide (catPend s r page / 2 ^ k % 2 = 1)) = some k :=
    List.find?_range_eq_some.2 ⟨decide_eq_true hpend, List.mem_range.2 hk, fun j hj => by simp [hlow j hj]⟩
  simp only [execBackgroundSubblockCopy, hfind]

theorem execBackgroundSubblockCopy_idle {s : State} {r page : Nat} (h : ∀ k < 16, catPend s r page / 2 ^ k % 2 = 0) :
    execBackgroundSubblockCopy r page s = .next s := by
  have hfind : ((List.range 16).find? fun k => decide (catPend s r page / 2 ^ k % 2 = 1)) = none :=
    List.find?_eq_none.2 fun k hk => by simp [h k (List.mem_range.1 hk)]
  simp only [execBackgroundSubblockCopy, hfind]

theorem execReclaimWalk_frees {s : State} {r page : Nat} (hcount : catCount s r page ≠ 0)
    (hbelow : ∀ i < page, freeable s r i = false) :
    execReclaimWalk r page s = .next (reclaimPage r page (pageEdition s r page) s) := by
  rw [execReclaimWalk, if_neg]
  simpa [hcount] using hbelow

theorem execReclaimWalk_waits {s : State} {r page : Nat} (h : catCount s r page = 0 ∨ ∃ i < page, freeable s r i = true) :
    execReclaimWalk r page s = .next s := by
  rw [execReclaimWalk, if_pos]
  simpa using h

/-! ## MEM_SPLIT (R306, R394) -/

/-- A done action of the bring-up changes the bring-up alone. -/
theorem bootDid_eq (step a : Nat) (all : List Nat) (s : State) : ∃ h, bootDid step a all s = { s with hs := h } := by
  unfold bootDid
  extract_lets did
  split
  · exact ⟨s.hs, rfl⟩
  · split <;> exact ⟨_, rfl⟩

theorem execMemSplitWrite_early {s : State} (h : s.hs.boot < 3) (w : BitVec 64) : execMemSplitWrite w s = .next s := by
  rw [execMemSplitWrite, if_pos h]

section
variable {s : State} (hboot : 3 ≤ s.hs.boot)
include hboot

theorem execMemSplitWrite_ignored (h : ∃ a < 4096, rdN s (s.rg.asBase.toNat + 16 * a) 1 % 2 = 1) (w : BitVec 64) :
    execMemSplitWrite w s = .next s := by
  have hvalid : (List.range 4096).any (fun a => decide (rdN s (s.rg.asBase.toNat + 16 * a) 1 % 2 = 1)) = true := by
    simpa using h
  rw [execMemSplitWrite, if_neg (Nat.not_lt.2 hboot), if_pos hvalid]

theorem execMemSplitWrite_writes (h : ∀ a < 4096, rdN s (s.rg.asBase.toNat + 16 * a) 1 % 2 ≠ 1) (w : BitVec 64) :
    execMemSplitWrite w s = .next (bootDid 3 4 [4, 5] { s with rg := { s.rg with memSplit := word (min (bits w 5 0) 48) } }) := by
  have hvalid : ¬ (List.range 4096).any (fun a => decide (rdN s (s.rg.asBase.toNat + 16 * a) 1 % 2 = 1)) = true := by
    simpa using h
  rw [execMemSplitWrite, if_neg (Nat.not_lt.2 hboot), if_neg hvalid]
end

theorem toNat_heldSplit (w : BitVec 64) : (word (min (bits w 5 0) 48)).toNat = min (w.toNat % 64) 48 := by
  rw [bits_low6, word, BitVec.toNat_ofNat]
  omega

/-! ## Fields of ROUTE (R316) -/

theorem testBit_bits {hi lo i : Nat} (h : i < hi + 1 - lo) (x : Word) : (bits x hi lo).testBit i = bitAt x (lo + i) := by
  rw [bits, Nat.testBit_mod_two_pow, decide_eq_true h, Bool.true_and, Nat.testBit_div_two_pow, Nat.add_comm, BitVec.testBit_toNat]
  rfl

theorem bits_route_up (x : Word) : bits x 15 12 = bits x 15 0 / 2 ^ 12 := by
  simp only [bits]
  omega

theorem bits_route_dir (x : Word) : bits x 5 0 = bits x 15 0 % 2 ^ 6 := by
  simp only [bits]
  omega

theorem bits_routeWord {gen route : Nat} (hgen : gen < 2 ^ 16) (hroute : route < 2 ^ 16) :
    bits (word (gen * 2 ^ 48 + route)) 15 0 = route ∧ bits (word (gen * 2 ^ 48 + route)) 63 48 = gen := by
  have hsmall : gen * 2 ^ 48 + route < 2 ^ 64 := by omega
  rw [bits, bits, word, BitVec.toNat_ofNat, Nat.mod_eq_of_lt hsmall]
  omega

/-! ### The directions of the pairs -/

/-- The directions are packed one bit for each pair. -/
theorem packDirs_eq (f : Nat → Bool) : packDirs ((List.range 6).map f) = natOfBits ((List.range 6).map f) := by
  have hall : ∀ a b c d e g : Bool, packDirs [a, b, c, d, e, g] = natOfBits [a, b, c, d, e, g] := by decide
  exact hall ..

theorem testBit_packDirs (f : Nat → Bool) (i : Nat) : (packDirs ((List.range 6).map f)).testBit i = (decide (i < 6) && f i) := by
  rw [packDirs_eq, testBit_natOfBits, List.getElem?_map]
  by_cases h : i < 6
  · simp [h]
  · simp [h]

theorem packDirs_lt (f : Nat → Bool) : packDirs ((List.range 6).map f) < 2 ^ 6 :=
  Nat.lt_pow_two_of_testBit _ fun i hi => by rw [testBit_packDirs, decide_eq_false (by omega), Bool.false_and]

theorem lt_of_mem_pairPath {p : Nat × Nat} {d : Bool} {l : Nat} (h : l ∈ pairPath p d) : l < 4 := by
  have hring : ∀ a b, l ∈ ringLinks a b → l < 4 := fun a b hl => by
    obtain ⟨i, -, rfl⟩ := List.mem_map.1 hl
    exact Nat.mod_lt _ (by decide)
  unfold pairPath at h
  split at h <;> exact hring _ _ h

/-- With every link in service a pair takes the written direction. -/
theorem pairDir_all_up {up : Nat → Bool} (h : ∀ l < 4, up l = true) (p : Nat × Nat) (dir : Bool) : pairDir up p dir = dir :=
  if_pos (List.all_eq_true.2 fun _ hl => h _ (lt_of_mem_pairPath hl))

/-! ### A new route -/

theorem rg_raiseMgmt (b : Nat) (s : State) :
    (raiseMgmt b s).rg = { s.rg with mgmtCause := s.rg.mgmtCause ||| word (2 ^ b) } := by
  unfold raiseMgmt
  dsimp only
  split <;> rfl

theorem rg_foldl_settleTeam (ts : List Nat) (s : State) : (ts.foldl (fun s t => settleTeam t s) s).rg = s.rg := by
  obtain ⟨hrg, -⟩ := outsideKept_foldl (fun s t => settleTeam_kept t s) ts s
  exact hrg

/-- A route that changes nothing leaves the register; another takes the next generation. -/
theorem route_setRoute (up dir : Nat) (s : State) : (setRoute up dir s).rg.route =
    if up * 2 ^ 12 + dir = bits s.rg.route 15 0 then s.rg.route
    else word ((bits s.rg.route 63 48 + 1) % 65536 * 2 ^ 48 + (up * 2 ^ 12 + dir)) := by
  unfold setRoute
  extract_lets route gen regs changed raised
  have hraised : raised.rg.route = changed.rg.route := by
    unfold raised
    split
    · rw [rg_raiseMgmt]
    · rfl
  split
  · rfl
  · rw [rg_foldl_settleTeam]
    exact hraised

section
variable {up dir : Nat} (hup : up < 2 ^ 4) (hdir : dir < 2 ^ 6) (s : State)
include hup hdir

theorem low_setRoute : bits (setRoute up dir s).rg.route 15 0 = up * 2 ^ 12 + dir := by
  rw [route_setRoute]
  split
  · next h => exact h.symm
  · obtain ⟨hlow, -⟩ := bits_routeWord (Nat.mod_lt (bits s.rg.route 63 48 + 1) (by decide : 0 < 65536))
      (by omega : up * 2 ^ 12 + dir < 2 ^ 16)
    exact hlow

theorem gen_setRoute (h : bits s.rg.route 15 0 ≠ up * 2 ^ 12 + dir) :
    bits (setRoute up dir s).rg.route 63 48 = (bits s.rg.route 63 48 + 1) % 65536 := by
  rw [route_setRoute, if_neg (Ne.symm h)]
  obtain ⟨-, hgen⟩ := bits_routeWord (Nat.mod_lt (bits s.rg.route 63 48 + 1) (by decide : 0 < 65536))
    (by omega : up * 2 ^ 12 + dir < 2 ^ 16)
  exact hgen

theorem up_setRoute : bits (setRoute up dir s).rg.route 15 12 = up := by
  rw [bits_route_up, low_setRoute hup hdir]
  omega

theorem dir_setRoute : bits (setRoute up dir s).rg.route 5 0 = dir := by
  rw [bits_route_dir, low_setRoute hup hdir]
  omega
end

/-! ## A written route (R316, R394) -/

/-- The directions that the pairs take when `w` is written. -/
def writtenDirs (w : BitVec 64) : Nat :=
  packDirs ((List.range 6).map fun i => pairDir (fun l => bitAt w (12 + l)) (diePairs.getD i (0, 1)) (bitAt w i))

theorem execRouteWrite_early {s : State} (h : s.hs.boot < 3) (w : BitVec 64) : execRouteWrite w s = .next s :=
  congrArg Host.Outcome.next (if_pos h)

theorem execRouteWrite_eq {s : State} (h : 3 ≤ s.hs.boot) (w : BitVec 64) :
    execRouteWrite w s = .next (bootDid 3 5 [4, 5] (setRoute (bits w 15 12) (writtenDirs w) s)) :=
  congrArg Host.Outcome.next (if_neg (Nat.not_lt.2 h))

/-- With every link in service the pairs take the written directions. -/
theorem writtenDirs_all_up {w : BitVec 64} (h : bits w 15 12 = 15) : writtenDirs w = bits w 5 0 := by
  have hlinks : ∀ l < 4, bitAt w (12 + l) = true := fun l hl => by
    rw [← testBit_bits (hi := 15) (by omega), h]
    interval_cases l <;> rfl
  refine Nat.eq_of_testBit_eq fun i => ?_
  simp only [writtenDirs, pairDir_all_up hlinks]
  rw [testBit_packDirs]
  by_cases hi : i < 6
  · rw [testBit_bits (by omega), Nat.zero_add, decide_eq_true hi, Bool.true_and]
  · rw [decide_eq_false hi, Bool.false_and, Nat.testBit_lt_two_pow]
    calc bits w 5 0 < 2 ^ 6 := Nat.mod_lt _ (by decide)
      _ ≤ 2 ^ i := Nat.pow_le_pow_right (by decide) (by omega)

/-! ## A link goes down (R317, R374) -/

/-- The directions after link `l` has gone down: the pairs that used it take the other one. -/
def flippedDirs (l : Nat) (route : Word) : Nat :=
  packDirs ((List.range 6).map fun i =>
    if (pairPath (diePairs.getD i (0, 1)) (bitAt route i)).contains l then !bitAt route i else bitAt route i)

theorem testBit_flippedDirs {i : Nat} (hi : i < 6) (l : Nat) (route : Word) : (flippedDirs l route).testBit i =
    (bitAt route i ^^ (pairPath (diePairs.getD i (0, 1)) (bitAt route i)).contains l) := by
  rw [flippedDirs, testBit_packDirs, decide_eq_true hi, Bool.true_and]
  split
  · next h => rw [h, Bool.xor_true]
  · next h => rw [Bool.not_eq_true] at h; rw [h, Bool.xor_false]

/-- The route without link `l`, before the events and the interrupt. -/
def rerouted (l : Nat) (s : State) : State := setRoute (bits s.rg.route 15 12 - 2 ^ l) (flippedDirs l s.rg.route) s

theorem execLinkDown_eq {s : State} {l : Nat} (hl : l < 4) (hup : bitAt s.rg.route (12 + l) = true) :
    execLinkDown l s = .next (raiseMgmt 0 (tapLink l 2 (rerouted l s))) :=
  congrArg Host.Outcome.next (if_pos ⟨hl, hup⟩)

theorem execLinkDown_down {s : State} {l : Nat} (h : ¬ (l < 4 ∧ bitAt s.rg.route (12 + l) = true)) : execLinkDown l s = .next s :=
  congrArg Host.Outcome.next (if_neg h)

theorem rg_tap (die cls a b src ctx : Nat) (s : State) : (tap die cls a b src ctx s).rg = s.rg := by
  rw [tap, offerEvent, setUnit]

theorem rg_tapLink (l kind : Nat) (s : State) : (tapLink l kind s).rg = s.rg := by
  simp only [tapLink, apply_ite State.rg, rg_tap, ite_self]

/-- A link in service has its bit among those of the route. -/
theorem two_pow_le_up {x : Word} {l : Nat} (hl : l < 4) (hup : bitAt x (12 + l) = true) : 2 ^ l ≤ bits x 15 12 :=
  Nat.ge_two_pow_of_testBit (by rw [testBit_bits (by omega), hup])

theorem lowers_up {x : Word} {l : Nat} (hl : l < 4) (hup : bitAt x (12 + l) = true) (dir : Nat) (hdir : dir < 2 ^ 6) :
    bits x 15 0 ≠ (bits x 15 12 - 2 ^ l) * 2 ^ 12 + dir := by
  have hle := two_pow_le_up hl hup
  have hpos : 0 < 2 ^ l := Nat.two_pow_pos l
  rw [bits_route_up] at hle ⊢
  omega

/-! ## The statement -/

/-- Settles O44: applies of regions before and in step 6, the background copy and the reclaim walk, MEM_SPLIT, written routes and links that
go down. -/
theorem regionsAndRoutes : Obligations.RegionsAndRoutes := by
  unfold Obligations.RegionsAndRoutes
  refine ⟨?create, ?early, ?malformed, ?reread, ?destroyAbsent, ?destroy, ?lowest, ?noPending, ?reclaim, ?beforeStep3, ?memSplit, ?route,
    ?linkDown, ?linkIsDown⟩
  case create =>
    intro s r hlink
    refine ⟨fun hbad => ?_, fun hok => ⟨_, execRegionCreate_eq hlink r, ?_, ?_, fun k hk => ?_⟩⟩
    · rw [show exec (.regionCreate r) s = _ from execRegionCreate_eq hlink r, createRegion, if_pos hbad, regionStatus_create]
      rfl
    all_goals rw [createRegion, if_neg (by simp [hok])]
    · rw [regionStatus_create]
      rfl
    · rw [maps_rereadPools, bd_regionStatus, maps_setMaps, tget_tset_same]
    · rw [tget_rereadPools hk]
      exact readPool_congr rfl rfl r k
  case early =>
    intro s r hlink
    exact regionApplies_early hlink r
  case malformed =>
    intro s r h
    exact malformedRegion_of_field h
  case reread =>
    intro s r hlink
    refine ⟨fun h => (execRegionReread_eq hlink r).trans ?_, fun hr hmaps => (execRegionReread_eq hlink r).trans ?_⟩
    · rw [rereadRegion, if_pos (h.imp_right Option.isNone_iff_eq_none.2), regionStatus_reread]
      rfl
    · rw [rereadRegion, if_neg (by simp [hr, Option.isSome_iff_ne_none.1 hmaps]), regionStatus_reread]
      rfl
  case destroyAbsent =>
    intro s r hlink hmaps
    exact (execRegionDestroy_eq hlink r).trans (congrArg Host.Outcome.next (destroyRegion_absent hmaps))
  case destroy =>
    intro s r ms hlink hmaps
    refine ⟨fun h => ?_, fun hr hnone h => ?_, fun hr hnone hpend hwait => ⟨_, execRegionDestroy_eq hlink r, ?_, ?_⟩⟩
    · exact (execRegionDestroy_eq hlink r).trans (congrArg Host.Outcome.next (destroyRegion_mapped hmaps h))
    · exact (execRegionDestroy_eq hlink r).trans (congrArg Host.Outcome.next (destroyRegion_busy hmaps hr hnone h))
    all_goals rw [destroyRegion_done hmaps hr hnone hpend hwait]
    · rfl
    · rw [bd_regionStatus, maps_setMaps, tget_tset_same]
  case lowest =>
    intro s r page k hk hpend hlow
    exact execBackgroundSubblockCopy_lowest hk hpend hlow
  case noPending =>
    intro s r page h
    exact execBackgroundSubblockCopy_idle h
  case reclaim =>
    intro s r page
    exact ⟨fun h => execReclaimWalk_waits (.inl h), execReclaimWalk_frees, fun h => execReclaimWalk_waits (.inr h)⟩
  case beforeStep3 =>
    intro s w hboot
    exact ⟨execMemSplitWrite_early hboot w, execRouteWrite_early hboot w⟩
  case memSplit =>
    intro s w hboot
    refine ⟨fun h => execMemSplitWrite_ignored hboot h w, fun h => ⟨_, execMemSplitWrite_writes hboot h w, ?_⟩⟩
    obtain ⟨x, hx⟩ := bootDid_eq 3 4 [4, 5] { s with rg := { s.rg with memSplit := word (min (bits w 5 0) 48) } }
    rw [hx]
    exact ⟨toNat_heldSplit w, rfl⟩
  case route =>
    intro s w hboot
    have hup : bits w 15 12 < 2 ^ 4 := Nat.mod_lt _ (by decide)
    have hdir : writtenDirs w < 2 ^ 6 := packDirs_lt _
    refine ⟨_, execRouteWrite_eq hboot w, ?_⟩
    obtain ⟨x, hx⟩ := bootDid_eq 3 5 [4, 5] (setRoute (bits w 15 12) (writtenDirs w) s)
    simp only [hx]
    refine ⟨fun hsame => ?_, fun hnew => ?_, up_setRoute hup hdir s, fun hall => ?_⟩
    · rw [low_setRoute hup hdir] at hsame
      rw [route_setRoute, if_pos hsame]
    · rw [low_setRoute hup hdir] at hnew
      exact gen_setRoute hup hdir s (Ne.symm hnew)
    · rw [dir_setRoute hup hdir, writtenDirs_all_up hall]
  case linkDown =>
    intro s l hl hbit
    have hup : bits s.rg.route 15 12 - 2 ^ l < 2 ^ 4 := Nat.lt_of_le_of_lt (Nat.sub_le ..) (Nat.mod_lt _ (by decide))
    have hdir : flippedDirs l s.rg.route < 2 ^ 6 := packDirs_lt _
    refine ⟨_, execLinkDown_eq hl hbit, ?_⟩
    simp only [rg_raiseMgmt, rg_tapLink]
    refine ⟨gen_setRoute hup hdir s (lowers_up hl hbit _ hdir), up_setRoute hup hdir s, fun i hi => ?_, ?_⟩
    · rw [← testBit_flippedDirs hi, ← dir_setRoute hup hdir s, testBit_bits (by omega), Nat.zero_add]
      rfl
    · rw [bitAt, BitVec.getLsbD_or]
      exact Bool.or_true _
  case linkIsDown =>
    intro s l h
    exact execLinkDown_down h

end Sys2Proof.Machine
end

section
/-! PROOFS. What reset leaves (R62, R170, R291, R306, R316, R332, R365, R372, R380, R399), and the words of the tables of encoded lines. -/

namespace Sys2Proof.Machine

/-- Settles O57: at reset every table reads its default. The count of spares is the one field taken out of a longer word. -/
theorem resetState : Obligations.ResetState := by
  refine ⟨rfl, rfl, rfl, rfl, rfl, rfl, rfl, rfl, rfl, rfl, rfl, rfl, rfl, fun d => ⟨rfl, rfl, rfl, ?_⟩, fun p => rfl, fun v => rfl,
    fun g => rfl, fun c => rfl, by decide⟩
  have spares : bits 16 7 0 = 16 := by decide
  exact spares

/-- Settles O58: memory is empty at reset, POWER_LIMIT 3600 W, MEM_SPLIT 24. -/
theorem resetIsSound : Obligations.ResetIsSound :=
  ⟨wf_reset, by decide, by decide⟩

/-- Settles O56: each word's row of the opcode table is found by evaluation. -/
theorem wordsDecode : Obligations.WordsDecode :=
  ⟨rfl, rfl, rfl, rfl, rfl, rfl, rfl, rfl, rfl⟩

end Sys2Proof.Machine
end

section
/-! PROOFS. Soundness (R306, R399) and the writes and results that keep it. -/

namespace Sys2Proof.Machine
variable {s t : State}

set_option autoImplicit true in
/-- Soundness speaks of memory and of two registers: writes outside them keep it. -/
theorem Sound.update (h : Sound s) : Sound ⟨vreg, sreg, pred, qpred, thr, grp, team, grid, slot, tag, tagRun, recs, s.mm,
    sc, vs, bd, s.rg, vf, gl, pk, rp, hs, sel, cur, gsel, agenda, fresh⟩ :=
  ⟨h.mem, h.power, h.split⟩

set_option autoImplicit true in
/-- Writes to the rest of the memory system keep soundness. -/
theorem Sound.updateMem (h : Sound s) : Sound ⟨vreg, sreg, pred, qpred, thr, grp, team, grid, slot, tag, tagRun, recs,
    ⟨s.mm.mem, bad, badH, l1, comb, ops, withdrawn, nextId, xlat, dir, hostMap, stored, wrapped⟩, sc, vs, bd, s.rg,
    vf, gl, pk, rp, hs, sel, cur, gsel, agenda, fresh⟩ :=
  ⟨h.mem, h.power, h.split⟩

set_option autoImplicit true in
/-- Writes to the other registers keep soundness. -/
theorem Sound.updateRegs (h : Sound s) : Sound ⟨vreg, sreg, pred, qpred, thr, grp, team, grid, slot, tag, tagRun, recs, s.mm, sc, vs, bd,
    ⟨asBase, regionBase, regionApply, regionStatus', s.rg.memSplit, route, invAddr, invCtl, vdevApply, vdevStatus, vdevBase, flrCtl,
      coreRetire, ckptDest, ckptCtl, ckptStat, mgmtCause, ualinkId, peerInBase, s.rg.powerLimit, powerStat', keyCtl, keyData, rctxBase,
      rctxApply, rctxStatus, eccLog, marginLog, glossApply, glossStatus, slots0, slots1, glossTab, collBase, linkErr', peerErr⟩,
    vf, gl, pk, rp, hs, sel, cur, gsel, agenda, fresh⟩ :=
  ⟨h.mem, h.power, h.split⟩

/-- What rewrites memory and no register keeps soundness where memory keeps its canonical form. -/
theorem Sound.of_mem (h : Sound s) (hm : Memory.wf s.mm.mem → Memory.wf t.mm.mem) (hr : t.rg = s.rg) : Sound t := by
  obtain ⟨a, b, c⟩ := h
  exact ⟨hm a, hr ▸ b, hr ▸ c⟩

theorem Sound.outside (h : Sound s) (k : OutsideKept s t) : Sound t := by
  obtain ⟨hr, -, -, -, hm⟩ := k
  exact h.of_mem hm hr

theorem Sound.caches (h : Sound s) (k : CacheOnly s t) : Sound t := h.outside (outsideKept_of_cacheOnly k)

theorem Sound.ite {p : Prop} [Decidable p] (h : Sound s) (k : Sound t) : Sound (if p then s else t) := by
  split
  · exact h
  · exact k

theorem Sound.snd {α : Type} {p : α × State} {a : α} (e : p = (a, t)) (h : Sound p.2) : Sound t := by
  subst e
  exact h

theorem Sound.fold {α : Type} {f : State → α → State} (hf : ∀ s a, Sound s → Sound (f s a)) {l : List α} (h : Sound s) :
    Sound (l.foldl f s) := by
  induction l generalizing s with
  | nil => exact h
  | cons a l ih => exact ih (hf s a h)

/-- A fold that carries a value beside the state. -/
theorem Sound.fold_pair {α β : Type} {f : β × State → α → β × State} (hf : ∀ x a, Sound x.2 → Sound (f x a).2) {l : List α} {b : β}
    (h : Sound s) : Sound (l.foldl f (b, s)).2 := by
  have run : ∀ x : β × State, Sound x.2 → Sound (l.foldl f x).2 := by
    induction l with
    | nil => exact fun _ h => h
    | cons a l ih => exact fun x h => ih _ (hf x a h)
  exact run _ h

/-- A fold that carries two values beside the state. -/
theorem Sound.fold_pair2 {α β γ : Type} {f : β × γ × State → α → β × γ × State} (hf : ∀ x a, Sound x.2.2 → Sound (f x a).2.2)
    {l : List α} {b : β} {c : γ} (h : Sound s) : Sound (l.foldl f (b, c, s)).2.2 := by
  have run : ∀ x : β × γ × State, Sound x.2.2 → Sound (l.foldl f x).2.2 := by
    induction l with
    | nil => exact fun _ h => h
    | cons a l ih => exact fun x h => ih _ (hf x a h)
  exact run _ h

/-- The state that an outcome goes on to, if it does, is sound. -/
def SoundOut (o : Out) : Prop := match o with | .next t => Sound t | .fault _ => True | .refused _ => True

theorem SoundOut.ite {x y : Out} {p : Prop} [Decidable p] (h : SoundOut x) (k : SoundOut y) :
    SoundOut (if p then x else y) := by
  split
  · exact h
  · exact k

theorem SoundOut.next {o : Out} (e : o = .next t) (h : SoundOut o) : Sound t := by subst e; exact h

/-- The state in what an access comes to is sound. -/
def SoundGot (g : AccGot) : Prop :=
  match g with
  | .trap _ => True | .trapIn _ t => Sound t | .hold _ _ t => Sound t | .ok t => Sound t | .stall _ t => Sound t

theorem SoundGot.ite {x y : AccGot} {p : Prop} [Decidable p] (h : SoundGot x) (k : SoundGot y) :
    SoundGot (if p then x else y) := by
  split
  · exact h
  · exact k

theorem SoundGot.trapIn {g : AccGot} {x : TrapRec} (e : g = .trapIn x t) (h : SoundGot g) : Sound t := by subst e; exact h

theorem SoundGot.hold {g : AccGot} {b : Bool} {w : Wait} (e : g = .hold b w t) (h : SoundGot g) : Sound t := by subst e; exact h

theorem SoundGot.ok {g : AccGot} (e : g = .ok t) (h : SoundGot g) : Sound t := by subst e; exact h

theorem SoundGot.stall {g : AccGot} {n : Nat} (e : g = .stall n t) (h : SoundGot g) : Sound t := by subst e; exact h

/-- The state that a search finds is sound. -/
def SoundSome (o : Option State) : Prop := match o with | .some t => Sound t | .none => True

theorem SoundSome.ite {x y : Option State} {p : Prop} [Decidable p] (h : SoundSome x) (k : SoundSome y) :
    SoundSome (if p then x else y) := by
  split
  · exact h
  · exact k

theorem SoundSome.of_eq {o : Option State} (e : o = .some t) (h : SoundSome o) : Sound t := by subst e; exact h

theorem SoundSome.getD {o : Option State} (h : SoundSome o) (k : Sound s) : Sound (o.getD s) := by
  cases o with
  | none => exact k
  | some t => exact h

/-- The same where a value stands before the state. -/
def SoundSomeP {α : Type} (o : Option (α × State)) : Prop := match o with | .some x => Sound x.2 | .none => True

theorem SoundSomeP.of_eq {α : Type} {a : α} {o : Option (α × State)} (e : o = .some (a, t)) (h : SoundSomeP o) : Sound t := by
  subst e
  exact h

/-- The same where two values stand before the state. -/
def SoundSomePP {α β : Type} (o : Option (α × β × State)) : Prop := match o with | .some x => Sound x.2.2 | .none => True

theorem SoundSomePP.of_eq {α β : Type} {a : α} {b : β} {o : Option (α × β × State)} (e : o = .some (a, b, t)) (h : SoundSomePP o) :
    Sound t := by
  subst e
  exact h

/-- The same where a value stands after the state. -/
def SoundSomeL {α : Type} (o : Option (State × α)) : Prop := match o with | .some x => Sound x.1 | .none => True

theorem SoundSomeL.of_eq {α : Type} {a : α} {o : Option (State × α)} (e : o = .some (t, a)) (h : SoundSomeL o) : Sound t := by
  subst e
  exact h

/-- What a receive takes leaves a sound state. -/
def SoundTaken (o : Option Taken) : Prop := match o with | .some x => Sound x.rest | .none => True

theorem SoundTaken.ite {x y : Option Taken} {p : Prop} [Decidable p] (h : SoundTaken x) (k : SoundTaken y) :
    SoundTaken (if p then x else y) := by
  split
  · exact h
  · exact k

theorem SoundTaken.of_eq {x : Taken} {o : Option Taken} (e : o = .some x) (h : SoundTaken o) : Sound x.rest := by subst e; exact h

/-- The state that a write of the Bindery leaves is sound. -/
def SoundAgent (o : AgentWrite) : Prop := match o with | .done t => Sound t | .pool _ t => Sound t | .denied => True

theorem SoundAgent.ite {x y : AgentWrite} {p : Prop} [Decidable p] (h : SoundAgent x) (k : SoundAgent y) :
    SoundAgent (if p then x else y) := by
  split
  · exact h
  · exact k

theorem SoundAgent.done {o : AgentWrite} (e : o = .done t) (h : SoundAgent o) : Sound t := by subst e; exact h

theorem SoundAgent.pool {n : Nat} {o : AgentWrite} (e : o = .pool n t) (h : SoundAgent o) : Sound t := by subst e; exact h

/-- The state that a move of a page by a claim leaves is sound. -/
def SoundMove (o : PageMove) : Prop := match o with | .moved t => Sound t | .left t => Sound t | .wait _ t => Sound t | .held => True

theorem SoundMove.ite {x y : PageMove} {p : Prop} [Decidable p] (h : SoundMove x) (k : SoundMove y) :
    SoundMove (if p then x else y) := by
  split
  · exact h
  · exact k

theorem SoundMove.moved {o : PageMove} (e : o = .moved t) (h : SoundMove o) : Sound t := by subst e; exact h

theorem SoundMove.left {o : PageMove} (e : o = .left t) (h : SoundMove o) : Sound t := by subst e; exact h

theorem SoundMove.wait {w : Wait} {o : PageMove} (e : o = .wait w t) (h : SoundMove o) : Sound t := by subst e; exact h

/-- The state that the head of a queue leaves is sound. -/
def SoundPlaced (o : Placed) : Prop := match o with | .done t => Sound t | .hold t => Sound t | .no => True

theorem SoundPlaced.ite {x y : Placed} {p : Prop} [Decidable p] (h : SoundPlaced x) (k : SoundPlaced y) :
    SoundPlaced (if p then x else y) := by
  split
  · exact h
  · exact k

theorem SoundPlaced.done {o : Placed} (e : o = .done t) (h : SoundPlaced o) : Sound t := by subst e; exact h

theorem SoundPlaced.hold {o : Placed} (e : o = .hold t) (h : SoundPlaced o) : Sound t := by subst e; exact h

end Sys2Proof.Machine
end

section
/-! PROOFS. Soundness is kept (R306, R399): the writes of the state, the caches and the operands (R303, R306, R399). -/

namespace Sys2Proof.Machine
variable {s : State}

theorem sound_setThr {tk : Nat} {t : Thr} (h : Sound s) : Sound (setThr tk t s) := h.update
theorem sound_setGrp {gk : Nat} {x : Grp} (h : Sound s) : Sound (setGrp gk x s) := h.update
theorem sound_setTeam {t : Nat} {x : Team} (h : Sound s) : Sound (setTeam t x s) := h.update
theorem sound_setGrid {g : Nat} {x : Grid} (h : Sound s) : Sound (setGrid g x s) := h.update
theorem sound_pwrite {pa : Nat} {bs : List Byte} (h : Sound s) : Sound (pwrite pa bs s) := h.caches (cacheOnly_pwrite ..)
theorem sound_pwriteN {pa n v : Nat} (h : Sound s) : Sound (pwriteN pa n v s) := sound_pwrite h
theorem sound_pmark {pa n : Nat} (h : Sound s) : Sound (pmark pa n s) := h.caches (cacheOnly_pmark ..)
theorem sound_setUnit {die : Nat} {u : GUnit} (h : Sound s) : Sound (setUnit die u s) := h.update
theorem sound_offerEvent {die : Nat} {e : GlossEvent} (h : Sound s) : Sound (offerEvent die e s) := sound_setUnit h
theorem sound_tap {die cls a b src ctx : Nat} (h : Sound s) : Sound (tap die cls a b src ctx s) := h.caches (cacheOnly_tap ..)

theorem sound_tapLine {ctx core line : Nat} {wr engine : Bool} (h : Sound s) : Sound (tapLine ctx core line wr engine s) :=
  h.caches (cacheOnly_tapLine ..)

theorem sound_tapLink {l kind : Nat} (h : Sound s) : Sound (tapLink l kind s) :=
  Sound.ite (sound_tap (sound_tap h)) (Sound.ite (sound_tap h) h)

theorem sound_tapBindery {pa page kind region ctx : Nat} (h : Sound s) : Sound (tapBindery pa page kind region ctx s) := sound_tap h
theorem sound_tapComp {core key kind ctx : Nat} (h : Sound s) : Sound (tapComp core key kind ctx s) := sound_tap h

theorem sound_tapCopy {core index : Nat} {err drain : Bool} {ctx : Nat} (h : Sound s) : Sound (tapCopy core index err drain ctx s) :=
  sound_tap h

theorem sound_tapMonitor {die sensor reading : Nat} (h : Sound s) : Sound (tapMonitor die sensor reading s) := sound_tap h
theorem sound_tapPort {core e : Nat} {v : Word} {ctx : Nat} (h : Sound s) : Sound (tapPort core e v ctx s) := sound_tap h
theorem sound_tapSummary {die v res kind : Nat} (h : Sound s) : Sound (tapSummary die v res kind s) := sound_tap h
theorem sound_dirRead {ctx r line : Nat} (h : Sound s) : Sound (dirRead ctx r line s) := h.caches (cacheOnly_dirRead ..)
theorem sound_dirWrite {ctx r line : Nat} (h : Sound s) : Sound (dirWrite ctx r line s) := h.caches (cacheOnly_dirWrite ..)
theorem sound_dirHome {ctx r line : Nat} (h : Sound s) : Sound (dirHome ctx r line s) := h.caches (cacheOnly_dirHome ..)
theorem sound_dirWriteBack {ctx o line : Nat} (h : Sound s) : Sound (dirWriteBack ctx o line s) := h.caches (cacheOnly_dirWriteBack ..)
theorem sound_dirEvict {ctx r line : Nat} (h : Sound s) : Sound (dirEvict ctx r line s) := h.caches (cacheOnly_dirEvict ..)

theorem sound_dirLines {f : Nat → State → State} {pa n : Nat} (hf : ∀ l s, Sound s → Sound (f l s)) (h : Sound s) :
    Sound (dirLines f pa n s) :=
  Sound.ite (Sound.fold (fun _ _ h => hf _ _ h) h) h

theorem sound_writeBackLine {core line : Nat} (h : Sound s) : Sound (writeBackLine core line s) := h.caches (cacheOnly_writeBackLine ..)
theorem sound_performDue {core : Nat} (h : Sound s) : Sound (performDue core s) := h.caches (cacheOnly_performDue ..)
theorem sound_performDie {core : Nat} (h : Sound s) : Sound (performDie core s) := h.caches (cacheOnly_performDie ..)

theorem sound_fillLine {ctx core line : Nat} {uo wr : Bool} (h : Sound s) : Sound (fillLine ctx core line uo wr s) :=
  h.caches (cacheOnly_fillLine ..)

theorem sound_dirtyLine {ctx core line off : Nat} {bs : List Byte} {uo : Bool} (h : Sound s) :
    Sound (dirtyLine ctx core line off bs uo s) :=
  h.caches (cacheOnly_dirtyLine ..)

theorem sound_drainEntry {core line : Nat} (h : Sound s) : Sound (drainEntry core line s) := h.caches (cacheOnly_drainEntry ..)
theorem sound_flushLine {core line : Nat} (h : Sound s) : Sound (flushLine core line s) := h.caches (cacheOnly_flushLine ..)
theorem sound_evictTag {core line : Nat} (h : Sound s) : Sound (evictTag core line s) := h.caches (cacheOnly_evictTag ..)

theorem sound_writeBackCore {core : Nat} {uo : Bool} (h : Sound s) : Sound (writeBackCore core uo s) :=
  h.caches (cacheOnly_writeBackCore ..)

theorem sound_drainCore {core : Nat} (h : Sound s) : Sound (drainCore core s) := h.caches (cacheOnly_drainCore ..)

theorem sound_invalidateCore {core : Nat} {uo : Bool} (h : Sound s) : Sound (invalidateCore core uo s) :=
  h.caches (cacheOnly_invalidateCore ..)

theorem sound_setV {tk : Nat} {r : BitVec 6} {c : Cell} (h : Sound s) : Sound (setV tk r c s) := h.update
theorem sound_setS {gk : Nat} {r : BitVec 6} {c : Cell} (h : Sound s) : Sound (setS gk r c s) := Sound.ite h h.update
theorem sound_setP {tk : Nat} {p : BitVec 3} {c : PCell} (h : Sound s) : Sound (setP tk p c s) := Sound.ite h h.update
theorem sound_setQ {gk : Nat} {p : BitVec 3} {c : PCell} (h : Sound s) : Sound (setQ gk p c s) := Sound.ite h h.update

theorem sound_setR {gk tid : Nat} {uni : Bool} {r : BitVec 6} {c : Cell} (h : Sound s) : Sound (setR gk tid uni r c s) :=
  Sound.ite (sound_setS h) (sound_setV h)

theorem sound_setPQ {gk tid : Nat} {uni : Bool} {p : BitVec 3} {c : PCell} (h : Sound s) : Sound (setPQ gk tid uni p c s) :=
  Sound.ite (sound_setQ h) (sound_setP h)

theorem sound_dropKept {gk tid : Nat} {uni : Bool} {r : BitVec 6} (h : Sound s) : Sound (dropKept gk tid uni r s) := h.update

theorem sound_writeDst {gk tid : Nat} {uni : Bool} {r : BitVec 6} {x : Word} {psn : Bool} (h : Sound s) :
    Sound (writeDst gk tid uni r x psn s) :=
  sound_dropKept (sound_setR h)

theorem sound_markEmpty {gk tid : Nat} {uni : Bool} {r : BitVec 6} (h : Sound s) : Sound (markEmpty gk tid uni r s) :=
  sound_dropKept (sound_setR h)

theorem sound_complete {gk tid : Nat} {uni : Bool} {r : BitVec 6} {x : Word} (h : Sound s) : Sound (complete gk tid uni r x s) :=
  sound_writeDst h

theorem sound_completeFault {gk tid : Nat} {uni : Bool} {r : BitVec 6} {ia da : Word} (h : Sound s) :
    Sound (completeFault gk tid uni r ia da s) :=
  sound_setR h

theorem sound_kill {gk tid : Nat} {uni : Bool} {r : BitVec 6} (h : Sound s) : Sound (kill gk tid uni r s) := sound_dropKept (sound_setR h)

theorem sound_killAll {gk tid : Nat} {ks : List (Bool × BitVec 6)} (h : Sound s) : Sound (killAll gk tid ks s) :=
  Sound.fold (fun _ _ h => sound_kill h) h

theorem sound_orFpx {gk : Nat} {f : Flags} (h : Sound s) : Sound (orFpx gk f s) := Sound.ite h (sound_setGrp h)
theorem sound_setSt {gk tid : Nat} {st : TState} {w : Wait} (h : Sound s) : Sound (setSt gk tid st w s) := sound_setThr h

theorem sound_unage {tid : Nat} (h : Sound s) : Sound (unage s tid) := by
  dsimp only [unage]
  split
  · exact sound_setThr h
  · exact h

theorem sound_goOn {gk : Nat} {pc : Word} {tid : Nat} (h : Sound s) : Sound (goOn gk pc s tid) := sound_setThr h
theorem sound_passGroup {gk : Nat} {pc : Word} (h : Sound s) : Sound (passGroup gk pc s) := Sound.fold (fun _ _ h => sound_goOn h) h
theorem sound_leaveCores {t : Nat} (h : Sound s) : Sound (leaveCores t s) := h.caches (leaveCores_kept ..)
theorem sound_settleReport {g : Nat} (h : Sound s) : Sound (settleReport g s) := h.outside (settleReport_kept ..)
theorem sound_endGrid {g status : Nat} (h : Sound s) : Sound (endGrid g status s) := h.outside (endGrid_kept ..)
theorem sound_settleTeam {t : Nat} (h : Sound s) : Sound (settleTeam t s) := h.outside (settleTeam_kept ..)
theorem sound_dropLane {tk : Nat} (h : Sound s) : Sound (dropLane tk s) := h.update

theorem sound_enterHandler {gk : Nat} {tids : List Nat} {group : Bool} {tr : TrapRec} {w : Word} (h : Sound s) :
    Sound (enterHandler gk tids group tr w s) :=
  Sound.fold (fun _ _ h => sound_dropLane (sound_setThr h)) (sound_setGrp h)

theorem sound_takeTrap {gk : Nat} {tids : List Nat} {group : Bool} {tr : TrapRec} (h : Sound s) : Sound (takeTrap gk tids group tr s) :=
  Sound.ite (sound_endGrid h) (Sound.ite (Sound.fold (fun _ _ h => sound_setSt h) (sound_setGrp h))
    (Sound.ite (sound_endGrid h) (sound_enterHandler h)))

theorem sound_enterHeld {gk : Nat} (h : Sound s) : Sound (enterHeld gk s) := by
  dsimp only [enterHeld]
  split
  · exact h
  · exact sound_takeTrap (sound_setGrp h)

theorem sound_returnFromTrap {gk : Nat} (h : Sound s) : Sound (returnFromTrap gk s) :=
  sound_enterHeld (Sound.fold (fun _ _ h => sound_setThr h) (sound_setGrp h))

theorem sound_trapThread {tid : Nat} {tr : TrapRec} (h : Sound s) : Sound (trapThread tid tr s) := sound_takeTrap h
theorem sound_trapGroup {tr : TrapRec} (h : Sound s) : Sound (trapGroup tr s) := sound_takeTrap h
theorem sound_splitCheck {gk : Nat} (h : Sound s) : Sound (splitCheck gk s) := Sound.ite (sound_takeTrap h) h
theorem sound_addOp {gk tid : Nat} {ia : Word} {k : OpK} (h : Sound s) : Sound (addOp gk tid ia k s) := h.updateMem
theorem sound_dropOp {id : Nat} (h : Sound s) : Sound (dropOp id s) := h.updateMem
theorem sound_setOp {id : Nat} {k : OpK} (h : Sound s) : Sound (setOp id k s) := h.updateMem
theorem sound_tick (h : Sound s) : Sound (tick s) := h.update

theorem sound_pick {α : Type} {l : List α} {d : α} (h : Sound s) : Sound (pick l d s).2 := by
  dsimp only [pick]
  split
  · exact h
  · exact h
  · exact sound_tick h

theorem sound_raiseIrq {f v : Nat} (h : Sound s) : Sound (raiseIrq f v s) := h.update
theorem sound_raiseMgmt {b : Nat} (h : Sound s) : Sound (raiseMgmt b s) := sound_raiseIrq ((Sound.ite h h.update).updateRegs)
theorem sound_peerError {p : Nat} (h : Sound s) : Sound (peerError p s) := sound_raiseMgmt h.updateRegs
theorem sound_freeBytes {n : Nat} (h : Sound s) : Sound (freeBytes n s).2 := h.update

theorem sound_peerBytes {pa n : Nat} (h : Sound s) : Sound (peerBytes pa n s).2 := by
  dsimp only [peerBytes]
  split
  · exact sound_freeBytes (sound_pick h)
  · exact sound_peerError (sound_pick h)

theorem sound_bindGroup {gk : Nat} (h : Sound s) : Sound (bindGroup s gk) :=
  (Sound.fold (fun _ _ h => sound_setThr h) (sound_setGrp h)).update

theorem sound_freshTenant {core v : Nat} (h : Sound s) : Sound (freshTenant core v s) := Sound.ite h h.update

theorem sound_reside {t core : Nat} (h : Sound s) : Sound (reside t core s) :=
  Sound.fold (fun _ _ h => sound_bindGroup h) (Sound.fold (fun _ _ h => sound_setGrp h)
    (sound_setGrid (Sound.fold (fun _ _ h => sound_invalidateCore h) (sound_setTeam
    (Sound.ite (sound_freshTenant (sound_freshTenant h)) (sound_freshTenant h))))))

theorem sound_startGroup {l : LRec} {gk : Nat} (h : Sound s) : Sound (startGroup l s gk) :=
  Sound.fold (fun _ _ h => sound_setThr h) (sound_setS (sound_setS h))

theorem sound_startTeam {t core : Nat} (h : Sound s) : Sound (startTeam t core s) :=
  sound_reside (sound_setTeam (Sound.fold (fun _ _ h => sound_startGroup h) (sound_setTeam h)))

theorem sound_waitPred {gk tid : Nat} {p : BitVec 3} (h : Sound s) : Sound (waitPred gk tid p s) := sound_setSt h
theorem sound_waitReg {gk tid : Nat} {uni : Bool} {r : BitVec 6} (h : Sound s) : Sound (waitReg gk tid uni r s) := sound_setSt h
theorem sound_waitThere {gk tid : Nat} {uni : Bool} {r : BitVec 6} (h : Sound s) : Sound (waitThere gk tid uni r s) := sound_setSt h
theorem sound_waitThereP {gk tid : Nat} {p : BitVec 3} (h : Sound s) : Sound (waitThereP gk tid p s) := sound_setSt h
theorem sound_keepRegs {gk tid : Nat} {ks : List (Bool × BitVec 6)} (h : Sound s) : Sound (keepRegs gk tid ks s) := Sound.ite h h.update
theorem sound_keepCache {gk tid : Nat} {F : Form} (h : Sound s) : Sound (keepCache gk tid F s) := sound_keepRegs h
theorem sound_useAll {gk tid : Nat} {u : Uses} (h : Sound s) : Sound (useAll gk tid u s) := sound_keepRegs (sound_killAll h)

theorem sound_commit {gk tid : Nat} {F : Form} {psn : Bool} {v : Option Word} {p : Option Bool} {f : Flags} (h : Sound s) :
    Sound (commit gk tid F psn v p f s) := by
  dsimp only [commit]
  refine sound_orFpx ?_
  split
  · refine sound_setPQ ?_
    split
    · exact sound_writeDst (sound_keepCache (sound_killAll h))
    · exact sound_keepCache (sound_killAll h)
  · split
    · exact sound_writeDst (sound_keepCache (sound_killAll h))
    · exact sound_keepCache (sound_killAll h)

theorem sound_laneThread {F : Form} {fp : Bool} {body : List Word → Nat → State → Eff} {i : Nat} (h : Sound s) :
    Sound (laneThread F fp body s i) := by
  dsimp only [laneThread]
  split
  · exact h.update
  · exact h.update
  · split
    · exact h.update
    · exact h.update
    · exact sound_trapThread h
    · split
      · exact sound_trapThread h
      · exact (sound_commit h).update

theorem sound_perThread {f : State → Nat → State} (hf : ∀ s i, Sound s → Sound (f s i)) (h : Sound s) : Sound (perThread f s) :=
  h.fold fun _ _ h => Sound.ite h (hf _ _ h)

theorem sound_illegalLane (h : Sound s) : Sound (illegalLane s) := sound_perThread (fun _ _ h => sound_trapThread h) h

theorem sound_lane {F : Form} {fp : Bool} {body : List Word → Nat → State → Eff} (h : Sound s) : SoundOut (lane F fp body s) :=
  Sound.ite (sound_illegalLane h) (sound_perThread (fun _ _ h => sound_laneThread h) h)

theorem sound_arrive (h : Sound s) : Sound (arrive s) := Sound.fold (fun _ _ h => sound_setSt h) h
theorem sound_holdAll {w : Wait} (h : Sound s) : Sound (holdAll w s) := Sound.fold (fun _ _ h => sound_setSt h) h
theorem sound_unageAll (h : Sound s) : Sound (unageAll s) := Sound.fold (fun _ _ h => sound_unage h) h
theorem sound_blockAll {w : Wait} (h : Sound s) : Sound (blockAll w s) := Sound.fold (fun _ _ h => sound_setSt h) h

theorem sound_waitRegAll {u : Bool} {r : BitVec 6} (h : Sound s) : Sound (waitRegAll u r s) :=
  Sound.ite (sound_blockAll h) (sound_holdAll h)

theorem sound_waitPredAll {p : BitVec 3} (h : Sound s) : Sound (waitPredAll p s) := Sound.ite (sound_blockAll h) (sound_holdAll h)

theorem sound_converge {k : State → State} (hk : ∀ s, Sound s → Sound (k s)) (h : Sound s) : SoundOut (converge k s) :=
  SoundOut.ite (hk _ (sound_arrive h)) (sound_splitCheck (sound_arrive h))

theorem sound_uniP {priv : Bool} {F : Form} {k : List Word → Bool → State → State} (hk : ∀ v p s, Sound s → Sound (k v p s)) (h : Sound s) :
    SoundOut (uniP priv F k s) := by
  refine sound_converge (fun _ h => Sound.ite (sound_trapGroup h) (Sound.ite (sound_trapGroup h) ?_)) h
  split
  · exact sound_waitPredAll h
  · exact sound_passGroup h
  · split
    · exact sound_waitRegAll h
    · exact sound_waitPredAll h
    · exact sound_trapGroup h
    · exact hk _ _ _ h

theorem sound_uni {F : Form} {k : List Word → Bool → State → State} (hk : ∀ v p s, Sound s → Sound (k v p s)) (h : Sound s) :
    SoundOut (uni F k s) := sound_uniP hk h

theorem sound_uniCommit {F : Form} {psn : Bool} {v : Option Word} {p : Option Bool} {pc : Option Word} (h : Sound s) :
    Sound (uniCommit F psn v p pc s) :=
  sound_passGroup (sound_commit h)

theorem sound_uniEff {F : Form} {body : List Word → Nat → State → Eff} (h : Sound s) : SoundOut (uniEff F body s) := by
  refine sound_uni (fun _ _ _ h => ?_) h
  split
  · exact sound_trapGroup h
  · exact sound_uniCommit h

end Sys2Proof.Machine
end

section
/-! PROOFS. Soundness is kept (R306, R399): lane instructions, crossings, translation, accesses. -/

namespace Sys2Proof.Machine
variable {s : State}

theorem sound_crossWait {gk : Nat} {r : Nat × Option Got} (h : Sound s) : Sound (crossWait gk s r) := by
  dsimp only [crossWait]
  split
  · exact sound_waitThere h
  · exact sound_waitThereP h
  · exact h
  · exact h
  · exact h

theorem sound_crossTrap {r : Nat × Option Got} (h : Sound s) : Sound (crossTrap s r) := by
  dsimp only [crossTrap]
  split
  · exact Sound.ite h (sound_trapThread h)
  · exact h
  · exact h
  · exact h
  · exact h

theorem sound_crossWith {F : Form} {k : List Part1 → State → State} (hk : ∀ l s, Sound s → Sound (k l s)) (h : Sound s) :
    SoundOut (crossWith F k s) :=
  SoundOut.ite (sound_illegalLane h) (sound_converge (fun _ h => Sound.ite (Sound.fold (fun _ _ h => sound_crossTrap h) h)
    (Sound.ite (Sound.fold (fun _ _ h => sound_crossWait h) (sound_unageAll h)) (hk _ _ h))) h)

theorem sound_cross {F : Form} {res : State → List Part1 → Part1 → Option Word × Bool × Option Bool} {fl : List Part1 → Flags}
    (h : Sound s) : SoundOut (cross F res fl s) :=
  sound_crossWith (fun _ _ h => sound_passGroup (sound_orFpx (h.fold fun _ _ h => sound_commit h))) h

theorem sound_shflBy {minor : Nat} {d : BitVec 6} {a b : Src} (h : Sound s) : SoundOut (shflBy minor d a b s) := sound_cross h

theorem sound_red {d : BitVec 6} {a : Src} {ident : Word} {op : Word → Word → Word × Flags} {fp : Bool} (h : Sound s) :
    SoundOut (red d a ident op fp s) :=
  sound_cross h

theorem sound_noteAmax {gk k : Nat} {xs : List Num} (h : Sound s) : Sound (noteAmax gk k xs s) := sound_setGrp h

theorem sound_cvtNote {d : BitVec 6} {a : Src} {m : CvtMod} {tid : Nat} (h : Sound s) : Sound (cvtNote d a m s tid) := by
  dsimp only [cvtNote]
  split
  · exact sound_noteAmax h
  · exact h

theorem sound_execCvt {d : BitVec 6} {a : Src} {m : CvtMod} (h : Sound s) : SoundOut (execCvt d a m s) :=
  SoundOut.ite (sound_illegalLane h) (SoundOut.ite (sound_illegalLane h)
    (sound_perThread (fun _ _ h => sound_laneThread (Sound.ite (sound_cvtNote h) h)) h))

theorem sound_setEntryBit {pe b : Nat} (h : Sound s) : Sound (setEntryBit pe b s) :=
  h.of_mem (wf_setEntryBit pe b) (by obtain ⟨m, g, e⟩ := memOnly_setEntryBit pe b s; rw [e])

theorem sound_lookup {core asid va : Nat} (h : Sound s) : Sound (lookup core asid va s).2 := by
  dsimp only [lookup]
  split
  · exact h
  · split
    · exact h
    · split
      · exact sound_setEntryBit h.updateMem
      · exact h
      · exact h

theorem sound_joinRec {r : FRec} (h : Sound s) : Sound (joinRec r s) := Sound.ite h h.update

theorem sound_viewPage {pa : Nat} {m : Option (BitVec 512)} (h : Sound s) : Sound (viewPage pa m s) :=
  h.of_mem (wf_viewPage pa m) (by obtain ⟨x, g, e⟩ := memOnly_viewPage pa m s; rw [e])

theorem sound_xlate {q : Asker} {va n : Nat} {a : Acc} {user : Bool} (h : Sound s) : Sound (xlate q va n a user s).2 := by
  dsimp only [xlate]
  split
  · rename_i e
    split
    · have hw := Sound.snd e (sound_lookup h)
      exact hw
    · have hx4 := Sound.snd e (sound_lookup h)
      exact Sound.ite (sound_viewPage hx4) hx4
  · rename_i e5
    have hx6 := Sound.snd e5 (sound_lookup h)
    exact hx6
  · rename_i e7
    have hx8 := Sound.snd e7 (sound_lookup h)
    exact hx8

theorem sound_dropXlat {asid lo n : Nat} (h : Sound s) : Sound (dropXlat asid lo n s) := h.updateMem
theorem sound_stashWrite {t off : Nat} {bs : List Byte} (h : Sound s) : Sound (stashWrite t off bs s) := sound_setTeam h
theorem sound_stashMark {t off n : Nat} (h : Sound s) : Sound (stashMark t off n s) := sound_setTeam h
theorem sound_setHandle {t w : Nat} {x : Handle} (h : Sound s) : Sound (setHandle t w x s) := sound_setTeam h

theorem sound_tapLines {ctx core : Nat} {p : Part} {wr : Bool} (h : Sound s) : Sound (tapLines ctx core p wr s) :=
  h.caches (cacheOnly_tapLines ..)

theorem sound_noteStore {gk pa : Nat} (h : Sound s) : Sound (noteStore gk pa s) := h.updateMem
theorem sound_readPart {ctx core : Nat} {p : Part} (h : Sound s) : Sound (readPart ctx core p s).2.2 := h.caches (cacheOnly_readPart ..)

theorem sound_readAway {ctx core : Nat} {p : Part} (h : Sound s) : Sound (readAway ctx core p s).2.2 :=
  Sound.ite (sound_tapLines (Sound.fold (fun _ _ h => sound_flushLine h) (sound_performDie h))) h

theorem sound_readHere {gk : Nat} {p : Part} (h : Sound s) : Sound (readHere gk p s).2.2 := by
  dsimp only [readHere]
  split
  · exact sound_readPart h
  · exact sound_readAway h

theorem sound_writePart {ctx core : Nat} {p : Part} {bs : List Byte} (h : Sound s) : Sound (writePart ctx core p bs s) :=
  h.caches (cacheOnly_writePart ..)

theorem sound_engineReads {ctx die : Nat} {kind : PKind} {pa n : Nat} (h : Sound s) : Sound (engineReads ctx die kind pa n s) :=
  h.caches (cacheOnly_engineReads ..)

theorem sound_engineWrite {ctx die : Nat} {kind : PKind} {pa : Nat} {bs : List Byte} (h : Sound s) :
    Sound (engineWrite ctx die kind pa bs s) :=
  h.caches (cacheOnly_engineWrite ..)

theorem sound_planPiece {k : Asker} {user : Bool} {accs : List Acc} {q : Word × Nat} (h : Sound s) :
    Sound (planPiece k user accs q s).2 := by
  dsimp only [planPiece]
  refine Sound.fold_pair (fun _ _ h => ?_) h
  split
  · split
    · exact h
    · split
      · rename_i e2
        have hx3 := Sound.snd e2 (sound_xlate h)
        exact hx3
      · rename_i e4
        have hx5 := Sound.snd e4 (sound_xlate h)
        exact hx5
      · rename_i e6
        have hx7 := Sound.snd e6 (sound_xlate h)
        exact hx7
  · exact h
  · exact h

theorem sound_planFor {k : Asker} {window : Nat} {user : Bool} {sp : Space} {accs : List Acc} {va : Word} {n : Nat} (h : Sound s) :
    Sound (planFor k window user sp accs va n s).2 := by
  dsimp only [planFor]
  split
  · split <;> exact h
  · split <;> exact h
  · split
    · exact h
    · split
      · split <;> exact h
      · split
        · exact h
        · refine Sound.fold_pair (fun _ _ h => ?_) h
          exact sound_planPiece h

theorem sound_plan {gk tid : Nat} {uni user : Bool} {sp : Space} {accs : List Acc} {va : Word} {n : Nat} (h : Sound s) :
    Sound (plan gk tid uni user sp accs va n s).2 :=
  sound_planFor h

theorem sound_holdGroup {blocking : Bool} {w : Wait} (h : Sound s) : Sound (holdGroup blocking w s) :=
  Sound.ite (sound_blockAll (sound_unageAll h)) (sound_holdAll (sound_unageAll h))

theorem sound_releaseCore {core : Nat} {wide sc : Bool} (h : Sound s) : Sound (releaseCore core wide sc s) :=
  h.caches (cacheOnly_releaseCore ..)

theorem sound_releaseScope {gk : Nat} {c : Scope} {sc : Bool} (h : Sound s) : Sound (releaseScope gk c sc s) :=
  h.caches (cacheOnly_releaseScope ..)

theorem sound_acquireCore {core : Nat} {wide sc : Bool} (h : Sound s) : Sound (acquireCore core wide sc s) :=
  h.caches (cacheOnly_acquireCore ..)

end Sys2Proof.Machine
end

section
/-! PROOFS. Soundness is kept (R306, R399): editions, copies, memory instructions, queues, access programs. -/

namespace Sys2Proof.Machine
variable {s : State}

theorem sound_bump {pa n : Nat} (h : Sound s) : Sound (bump pa n s) := sound_pwriteN h

theorem sound_poolPop {p : Nat} (h : Sound s) : SoundSomeP (poolPop p s) := by
  dsimp only [poolPop]
  split
  · exact trivial
  · exact sound_pwriteN h

theorem sound_poolPush {p page : Nat} (h : Sound s) : Sound (poolPush p page s) := sound_pwriteN (sound_pwriteN h)
theorem sound_setCount {r k n : Nat} (h : Sound s) : Sound (setCount r k n s) := (sound_pwriteN h).update

theorem sound_subPop {r k : Nat} (h : Sound s) : SoundSomeP (subPop r k s) := by
  dsimp only [subPop]
  split
  · exact trivial
  · exact sound_setCount h

theorem sound_setCat {r i pend : Nat} {slots : List (Nat × Nat)} (h : Sound s) : Sound (setCat r i pend slots s) := sound_pwrite h
theorem sound_viewAddrs {l : Leaf} {as : List Nat} (h : Sound s) : Sound (viewAddrs l as s) := Sound.fold (fun _ _ h => sound_viewPage h) h
theorem sound_endPoolWaits {r k : Nat} (h : Sound s) : Sound (endPoolWaits r k s) := h.updateMem
theorem sound_subPush {r k page : Nat} (h : Sound s) : Sound (subPush r k page s) := sound_endPoolWaits (sound_setCount (sound_pwriteN h))

theorem sound_freeOldest {r i n : Nat} {slots : List (Nat × Nat)} (h : Sound s) : Sound (freeOldest r i n slots s).2 := by
  induction n generalizing slots s with
  | zero => exact h
  | succ n ih =>
    dsimp only [freeOldest]
    split
    · exact h
    · split
      · exact h
      · exact ih (sound_tapBindery (sound_bump (sound_subPush h)))

theorem sound_reclaimPage {r i cur : Nat} (h : Sound s) : Sound (reclaimPage r i cur s) := Sound.ite h (sound_setCat (sound_freeOldest h))

theorem sound_reclaimRegion {r : Nat} (h : Sound s) : Sound (reclaimRegion r s) :=
  Sound.fold (fun _ _ h => Sound.ite h (sound_reclaimPage h)) h

theorem sound_copyCode {src dst n : Nat} (h : Sound s) : Sound (copyCode src dst n s) := h.updateMem

theorem sound_copyBytes {m : Option (BitVec 512)} {src dst n : Nat} (h : Sound s) : Sound (copyBytes m src dst n s) :=
  Sound.fold (fun _ _ h => sound_pmark h) (sound_copyCode (sound_pwrite (sound_viewPage (sound_viewPage h))))

theorem sound_recallPage {page : Nat} (h : Sound s) : Sound (recallPage page s) := h.caches (cacheOnly_recallPage ..)

theorem sound_remapPage {r i page edition place : Nat} (h : Sound s) : Sound (remapPage r i page edition place s) := by
  dsimp only [remapPage]
  refine Sound.fold (fun _ _ h => ?_) ?_
  · split
    · exact h
    · exact sound_dropXlat (sound_recallPage (sound_pwriteN h))
  · exact h.update

theorem sound_copySub {r i sub : Nat} {cur : Nat × Nat} (h : Sound s) : Sound (copySub r i sub cur s) :=
  Sound.ite h (Sound.ite (sound_reclaimPage (sound_setCat (sound_copyBytes h))) (sound_setCat (sound_copyBytes h)))

theorem sound_copyAllSubs {r i : Nat} {cur : Nat × Nat} (h : Sound s) : Sound (copyAllSubs r i cur s) :=
  Sound.fold (fun _ _ h => sound_copySub h) h

theorem sound_takePage {r k : Nat} (h : Sound s) : Sound (takePage r k s).2 := by
  dsimp only [takePage]
  split
  · exact SoundSomeP.of_eq ‹_› (sound_subPop h)
  · split
    · exact SoundSomeP.of_eq ‹_› (sound_subPop (sound_reclaimRegion h))
    · exact sound_reclaimRegion h

theorem sound_trimSlots {r i : Nat} {slots : List (Nat × Nat)} {pend : Nat} (h : Sound s) : Sound (trimSlots r i slots pend s) := by
  dsimp only [trimSlots]
  refine sound_setCat ?_
  split
  · exact sound_bump (sound_freeOldest (sound_freeOldest h))
  · exact sound_freeOldest h

theorem sound_pushHeld {full : Bool} {r : Nat} (h : Sound s) : Sound (pushHeld full r s) := Sound.ite (sound_reclaimRegion h) h

theorem sound_copyOnWrite {asid r i sub : Nat} {l : Leaf} (h : Sound s) : SoundAgent (copyOnWrite asid r i sub l s) := by
  dsimp only [copyOnWrite]
  split
  · rename_i e
    have hv := Sound.snd e (sound_takePage (sound_copyAllSubs h))
    exact hv
  · rename_i e2
    have hx3 := Sound.snd e2 (sound_takePage (sound_copyAllSubs h))
    exact SoundAgent.ite trivial (sound_pushHeld (sound_tapBindery (sound_bump (sound_remapPage (sound_trimSlots (sound_copyBytes hx3))))))

theorem sound_readySub {r i asid va sub : Nat} (h : Sound s) : SoundAgent (readySub r i asid va sub s) := by
  dsimp only [readySub]
  split
  · exact h
  · exact SoundAgent.ite (sound_copyOnWrite h) (sound_copySub h)

theorem sound_readyRange {r i asid va n : Nat} (h : Sound s) : SoundAgent (readyRange r i asid va n s) := by
  dsimp only [readyRange]
  split
  · rename_i e
    have hv := SoundAgent.pool e (sound_readySub h)
    exact hv
  · exact trivial
  · rename_i e3
    have hx4 := SoundAgent.done e3 (sound_readySub h)
    exact SoundAgent.ite hx4 (sound_readySub hx4)

theorem sound_agentWrite {die r asid va : Nat} {bs : List Byte} (h : Sound s) : SoundAgent (agentWrite die r asid va bs s) := by
  dsimp only [agentWrite]
  split
  · exact h
  · split
    · rename_i e2
      have hx3 := SoundAgent.pool e2 (sound_readyRange h)
      exact hx3
    · exact trivial
    · rename_i e5
      split
      · have hx7 := SoundAgent.done e5 (sound_readyRange h)
        exact hx7
      · have hx9 := SoundAgent.done e5 (sound_readyRange h)
        exact sound_setEntryBit (sound_engineWrite (sound_viewPage hx9))

theorem sound_enterPool {r i k asid vdev : Nat} {acc : BitVec 8} (h : Sound s) : Sound (enterPool r i k asid vdev acc s) :=
  sound_joinRec (sound_tapBindery (sound_bump h))

theorem sound_getShape {gk : Nat} {deny : Option Nat} {x : Nat} (h : Sound s) : Sound (getShape gk deny x s).2 := by
  dsimp only [getShape]
  split
  · exact h
  · exact h
  · split
    · exact h
    · split
      · rename_i e3
        have hx4 := Sound.snd e3 (sound_planFor h)
        exact hx4
      · rename_i e5
        have hx6 := Sound.snd e5 (sound_planFor h)
        exact hx6
      · rename_i e7
        have hx8 := Sound.snd e7 (sound_planFor h)
        exact sound_setGrid hx8

theorem sound_engJoin {gk asid page : Nat} {wr : Bool} (h : Sound s) : Sound (engJoin gk asid page wr s) := sound_joinRec h

theorem sound_engineReadsAt {gk : Nat} {kind : PKind} {as : List Nat} (h : Sound s) : Sound (engineReadsAt gk kind as s) :=
  Sound.fold (fun _ _ h => sound_engineReads h) h

theorem sound_engRead {q : Asker} {gk : Nat} {sp : Space} {va : Word} {n : Nat} (h : Sound s) : Sound (engRead q gk sp va n s).2 := by
  dsimp only [engRead]
  split
  · rename_i e
    have hv := Sound.snd e (sound_planFor h)
    exact hv
  · rename_i e2
    have hx3 := Sound.snd e2 (sound_planFor h)
    exact sound_engJoin hx3
  · rename_i e4
    split
    · split
      · have hx6 := Sound.snd e4 (sound_planFor h)
        exact hx6
      · split
        · have hx8 := Sound.snd e4 (sound_planFor h)
          exact hx8
        · split
          · have hx10 := Sound.snd e4 (sound_planFor h)
            exact sound_engineReadsAt hx10
          · split
            · rename_i e11
              split
              · have hx13 := Sound.snd e4 (sound_planFor h)
                have hx14 := Sound.snd e11 (sound_lookup hx13)
                exact sound_engineReadsAt hx14
              · have hx16 := Sound.snd e4 (sound_planFor h)
                have hx17 := Sound.snd e11 (sound_lookup hx16)
                exact hx17
              · have hx19 := Sound.snd e4 (sound_planFor h)
                have hx20 := Sound.snd e11 (sound_lookup hx19)
                exact hx20
            · rename_i e21
              have hx22 := Sound.snd e4 (sound_planFor h)
              have hx23 := Sound.snd e21 (sound_lookup hx22)
              exact hx23
            · rename_i e24
              have hx25 := Sound.snd e4 (sound_planFor h)
              have hx26 := Sound.snd e24 (sound_lookup hx25)
              exact hx26
    · have hx27 := Sound.snd e4 (sound_planFor h)
      exact hx27

theorem sound_carryMarks {pa : Nat} {bad : List Bool} (h : Sound s) : Sound (carryMarks pa bad s) :=
  Sound.fold (fun _ _ h => sound_pmark h) h

theorem sound_engWrite {q : Asker} {gk : Nat} {va : Word} {bs : List Byte} {bad : List Bool} (h : Sound s) :
    Sound (engWrite q gk va bs bad s).2 := by
  dsimp only [engWrite]
  split
  · rename_i e
    have hv := Sound.snd e (sound_planFor h)
    exact hv
  · rename_i e2
    have hx3 := Sound.snd e2 (sound_planFor h)
    exact sound_engJoin hx3
  · rename_i e4
    split
    · split
      · have hx6 := Sound.snd e4 (sound_planFor h)
        exact hx6
      · split
        · have hx8 := Sound.snd e4 (sound_planFor h)
          exact hx8
        · split
          · have hx10 := Sound.snd e4 (sound_planFor h)
            exact sound_carryMarks (sound_setEntryBit (sound_engineWrite (sound_noteStore hx10)))
          · split
            · have hx12 := Sound.snd e4 (sound_planFor h)
              exact hx12
            · rename_i e13
              have hx14 := Sound.snd e4 (sound_planFor h)
              have hx15 := SoundAgent.pool e13 (sound_agentWrite hx14)
              exact sound_enterPool hx15
            · rename_i e16
              split
              · have hx18 := Sound.snd e4 (sound_planFor h)
                have hx19 := SoundAgent.done e16 (sound_agentWrite hx18)
                exact sound_carryMarks (sound_noteStore hx19)
              · have hx21 := Sound.snd e4 (sound_planFor h)
                have hx22 := SoundAgent.done e16 (sound_agentWrite hx21)
                exact hx22
    · have hx23 := Sound.snd e4 (sound_planFor h)
      exact hx23

theorem sound_fillNib {t off v : Nat} {n : Option Nib} (h : Sound s) : Sound (fillNib t off v n s) := by
  dsimp only [fillNib]
  split
  · exact h
  · exact sound_setTeam h

theorem sound_fillBeat {t off : Nat} {ms : List Move} {bs : List Byte} {bad : List Bool} (h : Sound s) :
    Sound (fillBeat t off ms bs bad s) := by
  dsimp only [fillBeat]
  refine Sound.fold (fun _ _ h => ?_) (sound_setTeam (Sound.fold (fun _ _ h => sound_fillNib (sound_fillNib h)) h))
  split
  · exact sound_stashMark h
  · exact h

theorem sound_copyCheck {gk : Nat} {deny : Option Nat} {chan : Nat} {v : Word} (h : Sound s) : Sound (copyCheck gk deny chan v s).2 := by
  dsimp only [copyCheck]
  split
  · exact h
  · split
    · exact h
    · split
      · exact h
      · split
        · rename_i e1
          have hw := Sound.snd e1 (sound_getShape h)
          exact hw
        · rename_i e3
          have hx4 := Sound.snd e3 (sound_getShape h)
          exact hx4
        · rename_i e5
          split
          · split
            · have hx8 := Sound.snd e5 (sound_getShape h)
              exact hx8
            · split
              · have hx10 := Sound.snd e5 (sound_getShape h)
                exact hx10
              · split
                · have hx12 := Sound.snd e5 (sound_getShape h)
                  exact hx12
                · split
                  · have hx14 := Sound.snd e5 (sound_getShape h)
                    exact hx14
                  · have hx15 := Sound.snd e5 (sound_getShape h)
                    exact hx15
          · split
            · have hx17 := Sound.snd e5 (sound_getShape h)
              exact hx17
            · split
              · have hx19 := Sound.snd e5 (sound_getShape h)
                exact hx19
              · split
                · have hx21 := Sound.snd e5 (sound_getShape h)
                  exact hx21
                · split
                  · have hx23 := Sound.snd e5 (sound_getShape h)
                    exact hx23
                  · have hx24 := Sound.snd e5 (sound_getShape h)
                    exact hx24

theorem sound_startCopy {gk : Nat} {pc : Word} {c : Copy} (h : Sound s) : Sound (startCopy gk pc c s) := by
  dsimp only [startCopy]
  refine sound_addOp ?_
  split
  · exact sound_setHandle h
  · exact h

theorem sound_accThread {F : Form} {body : List Word → Nat → State → AccGot} {i : Nat} (hb : ∀ v i s, Sound s → SoundGot (body v i s))
    (h : Sound s) : Sound (accThread F body s i) := by
  dsimp only [accThread]
  split
  · exact h.update
  · exact h.update
  · split
    · exact h.update
    · exact h.update
    · exact sound_trapThread h
    · have hg := hb ‹_› i s h
      split
      · exact sound_trapThread h
      · exact sound_trapThread (SoundGot.trapIn ‹_› hg)
      · have hu := SoundGot.hold ‹_› hg
        exact (sound_unage hu).update
      · have hu := SoundGot.ok ‹_› hg
        exact hu.update
      · have hu := SoundGot.stall ‹_› hg
        exact hu.update

theorem sound_accLane {F : Form} {body : List Word → Nat → State → AccGot} (hb : ∀ v i s, Sound s → SoundGot (body v i s)) (h : Sound s) :
    SoundOut (accLane F body s) :=
  Sound.ite (sound_illegalLane h) (sound_perThread (fun _ _ h => sound_accThread hb h) h)

theorem sound_accGroup {r : AccGot} (hr : SoundGot r) (h : Sound s) : Sound (accGroup r s) := by
  cases r with
  | trap x => exact sound_trapGroup h
  | trapIn x t => exact sound_trapGroup hr
  | hold b w t => exact sound_holdGroup hr
  | ok t => exact sound_passGroup hr
  | stall k t => exact sound_holdAll hr

theorem sound_accUni {F : Form} {body : List Word → Nat → State → AccGot} (hb : ∀ v i s, Sound s → SoundGot (body v i s)) (h : Sound s) :
    SoundOut (accUni F body s) :=
  sound_uni (fun _ _ _ h => sound_accGroup (hb _ _ _ h) h) h

theorem sound_absentPage {uni : Bool} {tid : Nat} {sp : Space} {va : Word} {wr : Bool} {asid page : Nat} (h : Sound s) :
    SoundGot (absentPage uni tid sp va wr asid page s) :=
  SoundGot.ite trivial (sound_joinRec h)

theorem sound_tapAgents {gk : Nat} {ps : List Piece} {wr : Bool} (h : Sound s) : Sound (tapAgents gk ps wr s) :=
  h.caches (cacheOnly_tapAgents ..)

theorem sound_setDirty {ps : List Piece} (h : Sound s) : Sound (setDirty ps s) :=
  Sound.fold (fun _ _ h => Sound.ite h (sound_setEntryBit h)) h

theorem sound_emptyDest {tid : Nat} {F : Form} (h : Sound s) : Sound (emptyDest tid F s) := by
  dsimp only [emptyDest]
  split
  · refine sound_setPQ ?_
    split
    · exact sound_markEmpty h
    · exact h
  · split
    · exact sound_markEmpty h
    · exact h

theorem sound_commitLong {tid : Nat} {F : Form} (h : Sound s) : Sound (commitLong tid F s) :=
  sound_emptyDest (sound_keepCache (sound_killAll h))

theorem sound_loadBody {F : Form} {d : BitVec 6} {sp : Space} {n : Nat} {va : Word} {e : Option Nat} {tid : Nat} (h : Sound s) :
    SoundGot (loadBody F d sp n va e tid s) := by
  dsimp only [loadBody]
  split
  · exact trivial
  · rename_i e1
    have hw := Sound.snd e1 (sound_plan h)
    exact sound_absentPage hw
  · rename_i e3
    split
    · exact trivial
    · split
      · have hx7 := Sound.snd e3 (sound_plan h)
        exact hx7
      · have hx9 := Sound.snd e3 (sound_plan h)
        exact SoundGot.ite (sound_addOp (sound_tapAgents (sound_emptyDest hx9))) (sound_addOp (sound_commitLong hx9))

theorem sound_ldBody {u : Bool} {d : BitVec 6} {a : Src} {m : MemMod} {v : List Word} {tid : Nat} (h : Sound s) :
    SoundGot (ldBody u d a m v tid s) :=
  sound_loadBody h

theorem sound_ldeBody {u : Bool} {d : BitVec 6} {a b : Src} {m : LdeMod} {v : List Word} {tid : Nat} (h : Sound s) :
    SoundGot (ldeBody u d a b m v tid s) :=
  sound_loadBody h

theorem sound_commitStore {tid : Nat} {F : Form} (h : Sound s) : Sound (commitStore tid F s) := sound_keepCache (sound_killAll h)

theorem sound_apertureStore {F : Form} {tid : Nat} {va v : Word} (h : Sound s) : SoundGot (apertureStore F tid va v s) := by
  dsimp only [apertureStore]
  split
  · rename_i e
    have hv := Sound.snd e (sound_copyCheck h)
    exact hv
  · rename_i e2
    have hx3 := Sound.snd e2 (sound_copyCheck h)
    exact sound_absentPage hx3
  · rename_i e4
    have hx5 := Sound.snd e4 (sound_copyCheck h)
    refine SoundGot.ite hx5 ?_
    split
    · exact hx5
    · split
      · exact hx5
      · exact sound_startCopy (sound_releaseCore (sound_commitStore hx5))

theorem sound_storeParts {gk tid : Nat} {pc : Word} {qs : List Piece} {bs : List Byte} (h : Sound s) :
    Sound (storeParts gk tid pc qs bs s) := by
  induction qs generalizing bs s with
  | nil => exact h
  | cons q qs ih =>
    dsimp only [storeParts]
    exact ih (Sound.ite (sound_addOp h) (sound_noteStore (sound_writePart h)))

theorem sound_storeBody {F : Form} {sp : Space} {n : Nat} {va v : Word} {tid : Nat} (h : Sound s) :
    SoundGot (storeBody F sp n va v tid s) := by
  dsimp only [storeBody]
  refine SoundGot.ite (sound_apertureStore h) ?_
  split
  · exact trivial
  · rename_i e1
    have hw := Sound.snd e1 (sound_plan h)
    exact sound_absentPage hw
  · rename_i e3
    split
    · exact trivial
    · split
      · have hx7 := Sound.snd e3 (sound_plan h)
        exact hx7
      · have hx9 := Sound.snd e3 (sound_plan h)
        exact SoundGot.ite (sound_performDue hx9) (SoundGot.ite (sound_performDue hx9)
          (SoundGot.ite (sound_stashWrite (sound_commitStore (sound_performDue hx9)))
          (SoundGot.ite (sound_addOp (sound_tapAgents (sound_performDue hx9)))
          (sound_storeParts (sound_setDirty (sound_commitStore (sound_performDue hx9)))))))

theorem sound_stBody {u : Bool} {a b : Src} {m : MemMod} {v : List Word} {tid : Nat} (h : Sound s) : SoundGot (stBody u a b m v tid s) :=
  sound_storeBody h

theorem sound_pfBody {F : Form} {m : PfMod} {v : List Word} {tid : Nat} (h : Sound s) : SoundGot (pfBody F m v tid s) := by
  dsimp only [pfBody]
  refine SoundGot.ite (sound_commitStore h) ?_
  split
  · exact sound_commitStore h
  · exact SoundGot.ite (sound_commitStore h) (SoundGot.ite (sound_dirRead (sound_tapLine (sound_viewPage (sound_commitStore h))))
      (sound_fillLine (sound_viewPage (sound_commitStore h))))

theorem sound_atomBody {F : Form} {d : BitVec 6} {minor : Nat} {m : AtomMod} {v : List Word} {tid : Nat} (h : Sound s) :
    SoundGot (atomBody F d minor m v tid s) := by
  dsimp only [atomBody]
  split
  · exact trivial
  · rename_i e1
    have hw := Sound.snd e1 (sound_plan h)
    exact sound_absentPage hw
  · rename_i e3
    refine SoundGot.ite trivial (SoundGot.ite trivial ?_)
    split
    · exact trivial
    · split
      · have hx7 := Sound.snd e3 (sound_plan h)
        exact hx7
      · split
        · have hx10 := Sound.snd e3 (sound_plan h)
          exact hx10
        · have hx12 := Sound.snd e3 (sound_plan h)
          refine SoundGot.ite (sound_addOp (sound_tapAgents (sound_emptyDest (Sound.ite (sound_releaseScope hx12) hx12)))) ?_
          split
          · exact SoundGot.ite (SoundGot.ite (Sound.ite (sound_releaseScope hx12) hx12)
              (sound_addOp (sound_commitLong (sound_performDue (Sound.ite (sound_releaseScope hx12) hx12)))))
              (sound_addOp (sound_commitLong (Sound.ite (sound_releaseScope hx12) hx12)))
          · exact Sound.ite (sound_releaseScope hx12) hx12

theorem sound_setQueue {t q : Nat} {es : List QEnt} (h : Sound s) : Sound (setQueue t q es s) := sound_setTeam h

theorem sound_pushEnts {t q : Nat} {ents : List (List Byte × Bool)} (h : Sound s) : Sound (pushEnts t q ents s) := by
  dsimp only [pushEnts]
  refine Sound.fold (fun _ _ h => ?_) h
  exact (sound_setQueue h).updateMem

theorem sound_popEnts {t q n : Nat} (h : Sound s) : Sound (popEnts t q n s) := sound_setQueue h

theorem sound_trapEach {ps : List Nat} {t : TrapRec} (h : Sound s) : Sound (trapEach ps t s) :=
  Sound.fold (fun _ _ h => Sound.ite h (sound_trapThread h)) h

theorem sound_laneRecv {d n : BitVec 6} {b : Nat} (h : Sound s) : SoundOut (laneRecv d n b s) := by
  dsimp only [laneRecv]
  refine sound_crossWith (fun _ _ h => ?_) h
  split
  · exact Sound.ite (sound_passGroup h) (sound_trapEach h)
  · exact Sound.ite (sound_holdGroup h) (sound_passGroup (sound_addOp (Sound.fold (fun _ _ h => sound_commitLong h) h)))

theorem sound_charge {t n units : Nat} (h : Sound s) : Sound (charge t n units s) := sound_setTeam h

theorem sound_lanePush {gk q n : Nat} {ents : List (List Byte)} {tids : List Nat} {use : Uses} {pc npc : Word} (h : Sound s) :
    Sound (lanePush gk q n ents tids use pc npc s) :=
  Sound.ite (Sound.ite (sound_passGroup h) (Sound.fold (fun _ _ h => Sound.ite h (sound_takeTrap h)) h))
    (sound_passGroup (sound_charge (sound_pushEnts (Sound.fold (fun _ _ h => sound_useAll h) h))))

theorem sound_laneSend {n : BitVec 6} {v : Src} {b : Nat} (h : Sound s) : SoundOut (laneSend n v b s) := by
  dsimp only [laneSend]
  refine sound_crossWith (fun _ _ h => ?_) h
  split
  · exact Sound.ite (sound_passGroup h) (sound_trapEach h)
  · split
    · exact sound_holdGroup h
    · exact Sound.ite (sound_lanePush (sound_releaseCore h)) (sound_holdAll (sound_addOp (sound_releaseCore h)))

theorem sound_accept {gk : Nat} {d : Dest} {m : Msg} {peerOk : Bool} (h : Sound s) : SoundSome (accept gk d m peerOk s) := by
  dsimp only [accept]
  split
  · exact SoundSome.ite (sound_pushEnts h) trivial
  · exact SoundSome.ite (sound_setTeam h) trivial
  · exact SoundSome.ite h.update trivial
  · exact SoundSome.ite h.update trivial
  · exact SoundSome.ite h.update trivial
  · exact sound_tapPort h

theorem sound_sendBody {F : Form} {n : Nat} {val : Bool} {v : List Word} {x : Nat} (h : Sound s) : SoundGot (sendBody F n val v x s) := by
  dsimp only [sendBody]
  split
  · exact trivial
  · split
    · exact trivial
    · refine SoundGot.ite trivial ?_
      split
      · exact h
      · split
        · rename_i e6
          have hx7 := SoundSome.of_eq e6 (sound_accept (sound_charge (sound_releaseCore h)))
          exact sound_commitStore hx7
        · exact sound_addOp (sound_charge (sound_releaseCore h))

theorem sound_recvBody {F : Form} {d : BitVec 6} {n : Nat} {blk : Bool} {v : List Word} {x : Nat} (h : Sound s) :
    SoundGot (recvBody F d n blk v x s) := by
  dsimp only [recvBody]
  split
  · exact trivial
  · split
    · exact trivial
    · split
      · exact h
      · exact SoundGot.ite h (sound_addOp (sound_commitLong h))

theorem sound_takeCompl {t : Nat} {blk : Bool} {q : List Compl} {put : List Compl → State} (h : ∀ l, Sound (put l)) :
    SoundTaken (takeCompl t blk q put) := by
  unfold takeCompl
  split
  · exact h _
  · trivial

theorem sound_takeNext {gk : Nat} {c : Cap} {cap : Option Nat} (h : Sound s) : SoundTaken (takeNext gk c cap s) := by
  dsimp only [takeNext]
  split
  · exact SoundTaken.ite trivial (sound_popEnts h)
  · split
    · trivial
    · exact sound_setTeam h
  · split
    · exact h.update
    · trivial
  · exact sound_takeCompl fun _ => h.update
  · exact sound_takeCompl fun _ => h.update
  · trivial
  · trivial

theorem sound_recvAcquire {gk : Nat} {c : Cap} (h : Sound s) : Sound (recvAcquire gk c s) := sound_acquireCore h

theorem sound_finishCrecv {o : Op} {d : BitVec 6} {c : Cap} {blk : Option (Nat × Nat)} (h : Sound s) : Sound (finishCrecv o d c blk s) := by
  dsimp only [finishCrecv]
  split
  · exact h
  · refine Sound.ite (sound_complete (sound_dropOp h)) ?_
    split
    · have hw := SoundTaken.of_eq ‹_› (sound_takeNext h)
      exact sound_complete (Sound.fold (fun _ _ h => sound_stashMark h) (sound_stashWrite (sound_recvAcquire (sound_dropOp hw))))
    · have hx3 := SoundTaken.of_eq ‹_› (sound_takeNext h)
      have hx4 := SoundTaken.of_eq ‹_› (sound_takeNext h)
      exact Sound.ite (sound_completeFault (sound_recvAcquire (sound_dropOp hx3))) (sound_complete (sound_recvAcquire (sound_dropOp hx4)))

theorem sound_finishQrecv {o : Op} {d : BitVec 6} {q n b : Nat} {tids : List Nat} (h : Sound s) : Sound (finishQrecv o d q n b tids s) :=
  Sound.fold (fun _ _ h => Sound.ite (sound_completeFault h) (sound_complete h)) (sound_acquireCore (sound_dropOp (sound_popEnts h)))

theorem sound_engPart {q : Asker} {gk : Nat} {sp : Space} {va : Word} {n : Nat} (h : Sound s) : Sound (engPart q gk sp va n s).2 := by
  dsimp only [engPart]
  split
  · rename_i e
    have hv := Sound.snd e (sound_planFor h)
    exact hv
  · rename_i e2
    have hx3 := Sound.snd e2 (sound_planFor h)
    exact sound_engJoin hx3
  · rename_i e4
    split
    · split
      · have hx6 := Sound.snd e4 (sound_planFor h)
        exact hx6
      · split
        · have hx8 := Sound.snd e4 (sound_planFor h)
          exact hx8
        · split
          · split
            · have hx12 := Sound.snd e4 (sound_planFor h)
              exact hx12
            · have hx14 := Sound.snd e4 (sound_planFor h)
              exact hx14
          · have hx15 := Sound.snd e4 (sound_planFor h)
            exact hx15
    · have hx16 := Sound.snd e4 (sound_planFor h)
      exact hx16

theorem sound_setProg {t : Nat} {p : Option AProg} (h : Sound s) : Sound (setProg t p s) := sound_setTeam h

theorem sound_endProg {t : Nat} {e : ProgEnd} (h : Sound s) : Sound (endProg t e s) := by
  dsimp only [endProg]
  split
  · exact h
  · split
    · exact sound_setTeam (sound_setProg h)
    · exact sound_setProg h

theorem sound_readProg {t n : Nat} (h : Sound s) : Sound (readProg t n s) := by
  induction n generalizing s with
  | zero => exact h
  | succ n ih =>
    dsimp only [readProg]
    split
    · exact h
    · refine Sound.ite h ?_
      split
      · exact sound_endProg h
      · refine Sound.ite ?_ ?_
        · split
          · exact sound_endProg h
          · exact sound_setProg h
        · split
          · exact sound_endProg (Sound.snd ‹_› (sound_engPart h))
          · have hp := Sound.snd ‹_› (sound_engPart h)
            exact sound_setProg hp
          · have hp := Sound.snd ‹_› (sound_engPart h)
            exact Sound.ite (sound_setProg (sound_addOp hp)) (Sound.ite (sound_endProg hp)
              (ih (sound_setProg (sound_engineReads hp))))

theorem sound_startProg {gk : Nat} {ia base arg : Word} {set : Nat} (h : Sound s) : Sound (startProg gk ia base arg set s) :=
  Sound.ite (sound_endProg (sound_setProg h)) (sound_readProg (sound_setProg h))

theorem sound_settleProg {t : Nat} (h : Sound s) : Sound (settleProg t s) := by
  dsimp only [settleProg]
  split
  · exact Sound.ite (sound_endProg h) h
  · exact h

theorem sound_programRequest {t : Nat} (h : Sound s) : Sound (programRequest t s) := by
  dsimp only [programRequest]
  split
  · exact h
  · refine Sound.ite h (Sound.ite ?_ ?_)
    · split
      · exact h
      · exact sound_readProg h
    · split
      · exact sound_settleProg (sound_setProg h)
      · refine Sound.ite (sound_endProg h) (Sound.ite h ?_)
        split
        · rename_i e5
          have hx6 := Sound.snd e5 (sound_engPart h)
          exact sound_endProg hx6
        · rename_i e7
          have hx8 := Sound.snd e7 (sound_engPart h)
          exact sound_setProg hx8
        · rename_i e9
          have hx10 := Sound.snd e9 (sound_engPart h)
          exact Sound.ite hx10 (Sound.ite (sound_tapLine (sound_addOp (sound_setProg (sound_setQueue hx10))))
            (sound_addOp (sound_setProg (sound_setQueue hx10))))

theorem sound_lineReturn {o : Op} {t q ent : Nat} {bs : List Byte} {bad : Bool} (h : Sound s) : Sound (lineReturn o t q ent bs bad s) := by
  dsimp only [lineReturn]
  refine Sound.ite ?_ (sound_settleProg (sound_setQueue (sound_dropOp h)))
  split
  · exact Sound.ite (sound_endProg (sound_dropOp h)) (sound_readProg (sound_setProg (sound_dropOp h)))
  · exact sound_dropOp h

theorem sound_execAccessProgramRequest {t : Nat} (h : Sound s) : SoundOut (execAccessProgramRequest t s) :=
  sound_settleTeam (sound_programRequest h)

theorem sound_lineBytes {gk : Nat} {p : Part} {va : Word} {sp : Space} (h : Sound s) : Sound (lineBytes gk p va sp s).2 := by
  dsimp only [lineBytes]
  split
  · exact Sound.ite (sound_engineReads h) h
  · split
    · exact Sound.ite (sound_engineReads h) h
    · split
      · exact Sound.ite (sound_engineReads (Sound.ite (sound_viewPage h) h)) (Sound.ite (sound_viewPage h) h)
      · split
        · exact sound_engineReadsAt h
        · exact h
        · exact h

theorem sound_execAccessProgramReturn {k : Nat} (h : Sound s) : SoundOut (execAccessProgramReturn k s) := by
  dsimp only [execAccessProgramReturn]
  split
  · split
    · split
      · refine Sound.ite h ?_
        split
        · rename_i e2
          have hx3 := Sound.snd e2 (sound_lineBytes h)
          exact sound_settleTeam (sound_lineReturn hx3)
        · rename_i e4
          have hx5 := Sound.snd e4 (sound_lineBytes h)
          exact sound_settleTeam (sound_lineReturn (sound_freeBytes (sound_endProg hx5)))
      · exact sound_dropOp h
    · exact h
  · exact h

end Sys2Proof.Machine
end

section
/-! PROOFS. Soundness is kept (R306, R399): control, the uniform set, launches, the latch, fetching. -/

namespace Sys2Proof.Machine
variable {s : State}

theorem sound_uniJump {F : Form} {link : Bool} (h : Sound s) : SoundOut (uniJump F link s) := by
  dsimp only [uniJump]
  refine sound_uni (fun _ _ _ h => ?_) h
  split
  · exact sound_trapGroup h
  · exact sound_setGrp (sound_uniCommit h)

theorem sound_leaveTbar {gk : Nat} (h : Sound s) : Sound (leaveTbar s gk) := by
  dsimp only [leaveTbar]
  split
  · exact h
  · exact sound_passGroup (sound_setGrp (sound_acquireCore h))

theorem sound_settleTbar {t : Nat} (h : Sound s) : Sound (settleTbar t s) := Sound.ite (Sound.fold (fun _ _ h => sound_leaveTbar h) h) h

theorem sound_execTbar (h : Sound s) : SoundOut (execTbar s) := by
  dsimp only [execTbar]
  refine sound_uni (fun _ _ _ h => ?_) h
  split
  · exact sound_holdGroup h
  · exact sound_settleTbar (sound_blockAll (sound_setGrp (sound_releaseCore h)))

theorem sound_execBar (h : Sound s) : SoundOut (execBar s) := by
  dsimp only [execBar]
  refine sound_uni (fun _ _ _ h => Sound.ite (sound_trapGroup h) ?_) h
  split
  · exact sound_holdGroup h
  · exact sound_blockAll (sound_setGrp (sound_releaseCore h))

theorem sound_fenceCore {gk : Nat} {k : OrdKind} {c : Scope} (h : Sound s) : Sound (fenceCore gk k c s) :=
  Sound.ite (sound_acquireCore (Sound.ite (sound_releaseScope h) h)) (Sound.ite (sound_releaseScope h) h)

theorem sound_execFence {k : OrdKind} {c : Scope} (h : Sound s) : SoundOut (execFence k c s) := by
  dsimp only [execFence]
  refine sound_uni (fun _ _ _ h => Sound.ite (sound_passGroup h) ?_) h
  split
  · exact sound_holdGroup h
  · exact sound_passGroup (sound_fenceCore h)

theorem sound_claimScan {gk n page : Nat} {user : Bool} (h : Sound s) : Sound (claimScan gk user n page s).2 := by
  induction n generalizing page s with
  | zero => exact h
  | succ n ih =>
    unfold claimScan
    split
    · exact ih (Sound.snd ‹_› (sound_xlate h))
    · exact Sound.snd ‹_› (sound_xlate h)
    · exact Sound.snd ‹_› (sound_xlate h)

theorem sound_claimBody {F : Form} {d : BitVec 6} {v : List Word} {x : Nat} (h : Sound s) : SoundGot (claimBody F d v x s) := by
  dsimp only [claimBody]
  refine SoundGot.ite (sound_complete (sound_commitStore h)) (SoundGot.ite trivial ?_)
  split
  · exact trivial
  · rename_i e1
    split
    · have hx3 := Sound.snd e1 (sound_claimScan h)
      exact hx3
    · have hx5 := Sound.snd e1 (sound_claimScan h)
      exact sound_addOp (sound_commitLong (sound_releaseCore hx5))

theorem sound_execWaith {c : HCond} {n : BitVec 7} (h : Sound s) : SoundOut (execWaith c n s) := by
  dsimp only [execWaith]
  refine sound_uni (fun _ _ _ h => ?_) h
  split
  · exact sound_trapGroup h
  · exact Sound.ite (sound_blockAll h) (Sound.ite (sound_trapGroup (sound_setHandle h)) (sound_passGroup (sound_acquireCore h)))

theorem sound_freeSet {t n : Nat} (h : Sound s) : Sound (freeSet t n s) :=
  Sound.fold (fun _ _ h => Sound.ite (sound_setGrp h) h) (sound_setTeam h)

theorem sound_clearErrs {t : Nat} {hs : List Nat} (h : Sound s) : Sound (clearErrs t hs s) := by
  dsimp only [clearErrs]
  refine Sound.fold (fun _ _ h => ?_) h
  split
  · exact sound_setHandle h
  · exact h

theorem sound_execRdv {a : Src} (h : Sound s) : SoundOut (execRdv a s) := by
  dsimp only [execRdv]
  refine sound_uni (fun _ _ _ h => ?_) h
  split
  · exact sound_trapGroup h
  · refine Sound.ite (sound_blockAll h) ?_
    split
    · exact sound_trapGroup (sound_freeSet (sound_clearErrs h))
    · split
      · exact sound_trapGroup (sound_freeSet h)
      · exact h
      · exact sound_uniCommit (sound_acquireCore (sound_freeSet h))
      · exact sound_uniCommit (sound_acquireCore (sound_freeSet h))

theorem sound_regionOf {va : Word} (h : Sound s) : Sound (regionOf va s).2 := by
  dsimp only [regionOf]
  split
  · rename_i e
    have hv := Sound.snd e (sound_plan h)
    exact hv
  · rename_i e2
    have hx3 := Sound.snd e2 (sound_plan h)
    exact hx3
  · rename_i e4
    split
    · split
      · have hx6 := Sound.snd e4 (sound_plan h)
        exact hx6
      · have hx7 := Sound.snd e4 (sound_plan h)
        exact hx7
    · have hx8 := Sound.snd e4 (sound_plan h)
      exact hx8

theorem sound_execBpub {d : BitVec 6} {a : Src} (h : Sound s) : SoundOut (execBpub d a s) := by
  dsimp only [execBpub]
  refine sound_accUni (fun _ _ _ h => ?_) h
  split
  · exact trivial
  · rename_i e1
    have hw := Sound.snd e1 (sound_regionOf h)
    exact sound_absentPage hw
  · rename_i e3
    split
    · have hx5 := Sound.snd e3 (sound_regionOf h)
      exact hx5
    · have hx7 := Sound.snd e3 (sound_regionOf h)
      exact sound_addOp (sound_markEmpty (sound_releaseCore hx7))

theorem sound_execBfloor {d : BitVec 6} {a b : Src} (h : Sound s) : SoundOut (execBfloor d a b s) := by
  dsimp only [execBfloor]
  refine sound_accUni (fun _ _ _ h => ?_) h
  split
  · exact trivial
  · rename_i e1
    have hw := Sound.snd e1 (sound_regionOf h)
    exact sound_absentPage hw
  · rename_i e3
    have hx4 := Sound.snd e3 (sound_regionOf h)
    exact sound_addOp (sound_commitLong hx4)

theorem sound_writeSys {gk : Nat} {r : SysReg} {x : Word} (h : Sound s) : Sound (writeSys gk r x s) := by
  dsimp only [writeSys]
  split
  · exact sound_setGrp h
  · exact sound_setGrp h
  · exact sound_setGrp h
  · exact sound_setGrp h
  · exact sound_setGrp h
  · exact sound_setGrp h
  · exact sound_setGrp h
  · exact h
  · exact h
  · exact h
  · exact h
  · exact h

theorem sound_launchDone {gk : Nat} {q : BitVec 3} {d : BitVec 6} {x : Word} {ok : Bool} (h : Sound s) : Sound (launchDone gk q d x ok s) :=
  Sound.ite (sound_setQ (sound_complete h)) h

theorem sound_finishLaunch {o : Op} {q : BitVec 3} {d : BitVec 6} {va dep : Word} {pri : Nat} {bs : List Byte} {bad : Bool} (h : Sound s) :
    Sound (finishLaunch o q d va dep pri bs bad s) :=
  Sound.ite (Sound.ite (sound_setQ (sound_completeFault (sound_dropOp h))) (sound_dropOp h))
    (Sound.ite (sound_launchDone (sound_dropOp h)) (sound_launchDone (sound_setGrid ((sound_dropOp h).update))))

theorem sound_launchBody {q : BitVec 3} {d : BitVec 6} {a b : Src} {pri : Nat} {v : List Word} {x : Nat} (h : Sound s) :
    SoundGot (launchBody q d a b pri v x s) := by
  dsimp only [launchBody]
  split
  · exact trivial
  · rename_i e1
    have hw := Sound.snd e1 (sound_plan h)
    exact sound_absentPage hw
  · rename_i e3
    refine SoundGot.ite trivial ?_
    split
    · exact trivial
    · rename_i e5
      have hx6 := Sound.snd e3 (sound_plan h)
      have hx7 := Sound.snd e5 (sound_engPart hx6)
      exact hx7
    · rename_i e8
      split
      · have hx10 := Sound.snd e3 (sound_plan h)
        have hx11 := Sound.snd e8 (sound_engPart hx10)
        exact hx11
      · have hx13 := Sound.snd e3 (sound_plan h)
        have hx14 := Sound.snd e8 (sound_engPart hx13)
        exact sound_addOp (sound_commitLong (sound_releaseCore hx14))

theorem sound_readRecord {gk pa : Nat} {va : Word} (h : Sound s) : Sound (readRecord gk pa va s).2.2 := by
  dsimp only [readRecord]
  split
  · exact sound_readHere h
  · split
    · exact sound_readHere (Sound.ite (sound_viewPage h) h)
    · split
      · exact sound_engineReadsAt h
      · exact sound_readHere h
      · exact sound_readHere h

theorem sound_execLaunchRecordRead {k : Nat} (h : Sound s) : SoundOut (execLaunchRecordRead k s) := by
  dsimp only [execLaunchRecordRead]
  split
  · split
    · exact Sound.ite h (sound_finishLaunch (sound_readRecord h))
    · exact h
  · exact h

theorem sound_execWaitl {d : BitVec 6} {a : Src} (h : Sound s) : SoundOut (execWaitl d a s) := by
  dsimp only [execWaitl]
  split
  · refine sound_uni (fun _ _ _ h => ?_) h
    split
    · exact sound_trapGroup h
    · split
      · exact sound_blockAll (sound_markEmpty (sound_setGrp h))
      · exact sound_uniCommit (sound_acquireCore (sound_setGrp h))
  · refine sound_uni (fun _ _ _ h => ?_) h
    split
    · exact sound_trapGroup h
    · split
      · exact sound_blockAll (sound_markEmpty (sound_setGrp h))
      · exact sound_uniCommit (sound_acquireCore (sound_setGrp h))

theorem sound_forkChecks {gk : Nat} {deny : Option Nat} {blk : List Byte} {is : List Nat} {cs : List Copy} (h : Sound s) :
    Sound (forkChecks gk deny blk is cs s).2 := by
  induction is generalizing cs s with
  | nil => exact h
  | cons i is ih =>
    dsimp only [forkChecks]
    split
    · exact ih h
    · split
      · exact h
      · split
        · exact Sound.snd ‹_› (sound_copyCheck h)
        · exact Sound.snd ‹_› (sound_copyCheck h)
        · have hc := Sound.snd ‹_› (sound_copyCheck h)
          split
          · exact hc
          · exact ih hc

theorem sound_startFork {gk : Nat} {pc prog arg : Word} {cs : List Copy} (h : Sound s) : Sound (startFork gk pc prog arg cs s).2 :=
  Sound.ite (Sound.fold (fun _ _ h => sound_startCopy h) (sound_setGrp (sound_setTeam (sound_pick h))))
    (sound_startProg (Sound.fold (fun _ _ h => sound_startCopy h) (sound_setGrp (sound_setTeam (sound_pick h)))))

theorem sound_forkBody {F : Form} {d : BitVec 6} {v : List Word} {x : Nat} (h : Sound s) : SoundGot (forkBody F d v x s) := by
  dsimp only [forkBody]
  refine SoundGot.ite trivial (SoundGot.ite trivial ?_)
  split
  · exact trivial
  · refine SoundGot.ite trivial ?_
    split
    · rename_i e2
      split
      · have hx4 := Sound.snd e2 (sound_forkChecks h)
        exact hx4
      · have hx6 := Sound.snd e2 (sound_forkChecks h)
        exact SoundGot.ite (sound_writeDst (sound_startFork (sound_commitStore (sound_releaseCore hx6))))
          (sound_addOp (sound_releaseCore hx6))
    · rename_i e7
      have hx8 := Sound.snd e7 (sound_forkChecks h)
      exact hx8
    · rename_i e9
      have hx10 := Sound.snd e9 (sound_forkChecks h)
      exact sound_absentPage hx10

theorem sound_execForkStart {k : Nat} (h : Sound s) : SoundOut (execForkStart k s) := by
  dsimp only [execForkStart]
  split
  · split
    · exact Sound.ite (sound_passGroup (sound_writeDst (sound_startFork (sound_useAll (sound_dropOp h))))) h
    · exact h
  · exact h

theorem sound_gangSeen {gk : Nat} (h : Sound s) : Sound (gangSeen gk s) := sound_setGrp h
theorem sound_setLatch {gk : Nat} {l : Option Latch} (h : Sound s) : Sound (setLatch gk l s) := sound_setGrp h
theorem sound_groupTrap {tr : TrapRec} {gk : Nat} (h : Sound s) : Sound (groupTrap tr s gk) := Sound.ite h (sound_takeTrap h)

theorem sound_latchFault {gk : Nat} (h : Sound s) : Sound (latchFault s gk) := by
  dsimp only [latchFault]
  split
  · exact h
  · exact sound_groupTrap (sound_setLatch h)

theorem sound_latchGone {t : Nat} (h : Sound s) : Sound (latchGone t s) := by
  dsimp only [latchGone]
  refine Sound.fold (fun _ _ h => ?_) h
  split
  · exact h
  · exact Sound.ite (Sound.fold (fun _ _ h => sound_latchFault h) h) h

theorem sound_handlerDone {gk : Nat} (h : Sound s) : Sound (handlerDone gk s) := Sound.ite (sound_enterHeld (sound_setGrp h)) h

theorem sound_settleExit {gk : Nat} (h : Sound s) : Sound (settleExit gk s) :=
  sound_settleTeam (sound_settleTbar (sound_latchGone (sound_splitCheck (sound_handlerDone h))))

theorem sound_exitThread {tid : Nat} (h : Sound s) : Sound (exitThread s tid) := by
  dsimp only [exitThread]
  split
  · exact sound_waitPred h
  · exact sound_goOn h
  · refine Sound.ite (sound_setSt h) ?_
    split
    · exact sound_trapThread h
    · exact sound_dropLane (sound_setSt h)

theorem sound_oldOrNew {own : Bool} {old new : List Byte} (h : Sound s) : Sound (oldOrNew own old new s).2 := by
  dsimp only [oldOrNew]
  split
  · exact h
  · exact sound_tick h

theorem sound_fetchWord {gk : Nat} {user : Bool} {va : Word} (h : Sound s) : Sound (fetchWord gk user va s).2 := by
  dsimp only [fetchWord]
  split
  · exact h
  · split
    · rename_i e1
      have hw := Sound.snd e1 (sound_xlate h)
      exact hw
    · rename_i e3
      have hx4 := Sound.snd e3 (sound_xlate h)
      exact hx4
    · rename_i e5
      split
      · split
        · rename_i e7
          have hx8 := Sound.snd e5 (sound_xlate h)
          have hx9 := Sound.snd e7 (sound_peerBytes hx8)
          exact hx9
        · rename_i e10
          have hx11 := Sound.snd e5 (sound_xlate h)
          have hx12 := Sound.snd e10 (sound_peerBytes hx11)
          exact hx12
      · split
        · have hx14 := Sound.snd e5 (sound_xlate h)
          exact sound_viewAddrs hx14
        · have hx15 := Sound.snd e5 (sound_xlate h)
          exact sound_oldOrNew (sound_viewAddrs hx15)

theorem sound_setLane {gk : Nat} {l : Lane} (h : Sound s) : Sound (setLane gk l s) := h.update

theorem sound_fillBuffer {gk n : Nat} {user : Bool} {va : Word} (h : Sound s) : Sound (fillBuffer gk user n va s).2 := by
  induction n generalizing va s with
  | zero => exact h
  | succ n ih =>
    unfold fillBuffer
    split
    · exact ih (Sound.snd ‹_› (sound_fetchWord h))
    · exact h
    · exact h

theorem sound_fetchFor {gk : Nat} {user : Bool} {tids : List Nat} {va : Word} (h : Sound s) : Sound (fetchFor gk user tids va s).2 := by
  dsimp only [fetchFor]
  split
  · exact h
  · split
    · exact sound_fetchWord h
    · split
      · exact h
      · split
        · rename_i e5
          have hx6 := Sound.snd e5 (sound_fetchWord h)
          exact sound_setLane (sound_fillBuffer hx6)
        · exact sound_fetchWord h

theorem sound_andThen {gk : Nat} {user : Bool} {tids : List Nat} {va : Word} {r : Fetched × State} (h : Sound r.2) :
    Sound (andThen gk user tids va r).2 := by
  unfold andThen
  split
  · split
    · exact Sound.snd ‹_› (sound_fetchFor h)
    · exact sound_fetchFor h
  · exact h

theorem sound_fetchInstr {gk : Nat} {user : Bool} {tids : List Nat} {pc : Word} (h : Sound s) : Sound (fetchInstr gk user tids pc s).2 := by
  dsimp only [fetchInstr]
  split
  · exact sound_fetchFor h
  · split
    · split
      · exact sound_andThen (sound_andThen (sound_fetchFor h))
      · exact sound_andThen (sound_fetchFor h)
    · split
      · exact sound_andThen (sound_fetchFor h)
      · exact sound_fetchFor h

theorem sound_fetchTrap {gk : Nat} {tids : List Nat} {pc : Word} {n : TrapName} {info addr : Word} (h : Sound s) :
    Sound (fetchTrap gk tids pc n info addr s) :=
  Sound.ite (sound_takeTrap (sound_setGrp h)) (Sound.fold (fun _ _ h => Sound.ite h (sound_takeTrap h)) h)

theorem sound_fetchAbsent {gk : Nat} {tids : List Nat} {pc : Word} {asid page : Nat} (h : Sound s) :
    Sound (fetchAbsent gk tids pc asid page s) :=
  Sound.ite (sound_fetchTrap h) (Sound.fold (fun _ _ h => sound_dropLane (sound_setSt h)) (sound_joinRec h))

theorem sound_clearTgt {gk : Nat} (h : Sound s) : Sound (clearTgt gk s) := Sound.ite h (sound_setGrp h)

end Sys2Proof.Machine
end

section
/-! PROOFS. Soundness is kept (R306, R399): the matrix engine and compositing. -/

namespace Sys2Proof.Machine
variable {s : State}

theorem sound_setSlot {gk n : Nat} {z : Option Slot} (h : Sound s) : Sound (setSlot gk n z s) := h.update
theorem sound_allocSlot {gk : Nat} (h : Sound s) : Sound (allocSlot gk s).2.2 := sound_setSlot ((sound_pick h).update)

theorem sound_slotBusy {gk n : Nat} {up : Bool} (h : Sound s) : Sound (slotBusy gk n up s) := by
  dsimp only [slotBusy]
  split
  · exact sound_setSlot h
  · exact h

theorem sound_enterLatch {gk : Nat} {j : Joint} {kl : List (Bool × BitVec 6)} (h : Sound s) : Sound (enterLatch gk j kl s) :=
  sound_holdAll (sound_setLatch h)

theorem sound_leaveLatch {gk : Nat} (h : Sound s) : Sound (leaveLatch s gk) := by
  dsimp only [leaveLatch]
  split
  · exact sound_passGroup (sound_killAll (sound_setLatch h))
  · exact h

theorem sound_issueGang {gs : List Nat} {v : Word} (h : Sound s) : Sound (issueGang gs v s) :=
  Sound.fold (fun _ _ h => sound_leaveLatch (sound_setGrp h)) h

theorem sound_applyTraps {x : Nat × MGot} (h : Sound s) : Sound (applyTraps s x) := by
  dsimp only [applyTraps]
  split
  · exact h
  · exact sound_groupTrap (sound_setLatch h)
  · exact Sound.fold (fun _ _ h => Sound.ite h (sound_takeTrap h)) (sound_setLatch h)

theorem sound_emptyBlock {gk : Nat} {d : BitVec 6} {bytes : Nat} (h : Sound s) : Sound (emptyBlock gk d bytes s) :=
  Sound.fold (fun _ _ h => Sound.fold (fun _ _ h => sound_markEmpty h) h) h

theorem sound_fillBlock {gk : Nat} {d : BitVec 6} {bs : List Byte} (h : Sound s) : Sound (fillBlock gk d bs s) :=
  Sound.fold (fun _ _ h => Sound.fold (fun _ _ h => sound_complete h) h) h

theorem sound_takeSlots {gs : List Nat} (h : Sound s) : Sound (takeSlots gs s).2 := by
  dsimp only [takeSlots]
  refine Sound.fold_pair (fun _ _ h => ?_) h
  split
  · exact h
  · split
    · exact h
    · split
      · exact sound_slotBusy (sound_writeDst (sound_allocSlot h))
      · exact sound_slotBusy h

theorem sound_takeMr {ty g : Nat} {x : Nat × Nat × Option Nat} (h : Sound s) : Sound (takeMr ty g s x).2 := by
  dsimp only [takeMr]
  split
  · exact Sound.ite (Sound.fold (fun _ _ h => sound_keepCache (sound_killAll h)) h)
      (sound_emptyBlock (Sound.fold (fun _ _ h => sound_keepCache (sound_killAll h)) h))
  · exact h

theorem sound_takeMm {ty id : Nat} {x : Nat × Nat × Option Nat} (h : Sound s) : Sound (takeMm ty id s x).2.2 := by
  dsimp only [takeMm]
  split
  · split
    · refine Sound.fold (fun _ _ h => ?_) (Sound.ite h (sound_emptyBlock h))
      split
      · exact sound_setHandle h
      · exact h
    · split
      · refine sound_setTeam (Sound.fold (fun _ _ h => ?_) (Sound.ite h (sound_emptyBlock h)))
        split
        · exact sound_setHandle h
        · exact h
      · refine Sound.fold (fun _ _ h => ?_) (Sound.ite h (sound_emptyBlock h))
        split
        · exact sound_setHandle h
        · exact h
  · exact h

theorem sound_issueMatrix {gs : List Nat} {l : Latch} (h : Sound s) : Sound (issueMatrix gs l s) := by
  dsimp only [issueMatrix]
  refine Sound.ite (Sound.fold (fun _ _ h => sound_applyTraps h) h) (Sound.ite (Sound.fold (fun _ _ h => ?_) h) ?_)
  · split
    · exact sound_groupTrap (sound_setLatch h)
    · exact h
  · split
    · exact h
    · refine Sound.fold (fun _ _ h => sound_leaveLatch h) (sound_addOp (Sound.fold_pair (fun _ _ h => ?_) (sound_takeSlots h)))
      exact sound_takeMr h
    · refine Sound.fold (fun _ _ h => sound_leaveLatch h) (sound_addOp (Sound.fold_pair2 (fun _ _ h => ?_) (sound_takeSlots h)))
      exact sound_takeMm h

theorem sound_actList {gk : Nat} (h : Sound s) : Sound (actList s gk) := by
  dsimp only [actList]
  split
  · exact h
  · refine Sound.ite (Sound.ite ?_ (Sound.fold (fun _ _ h => sound_latchFault h) h)) h
    split
    · exact sound_issueGang h
    · exact sound_issueMatrix h
    · exact sound_issueMatrix h

theorem sound_settleLatch {t : Nat} (h : Sound s) : Sound (settleLatch t s) := Sound.fold (fun _ _ h => sound_actList h) (sound_latchGone h)

theorem sound_execGang {a : Src} (h : Sound s) : SoundOut (execGang a s) := by
  dsimp only [execGang]
  refine sound_uni (fun _ _ _ h => ?_) h
  split
  · exact sound_holdGroup h
  · exact Sound.ite (sound_trapGroup (sound_gangSeen h)) (Sound.ite (sound_uniCommit (sound_setGrp h))
      (Sound.ite (sound_trapGroup h) (sound_settleLatch (sound_enterLatch (sound_keepCache h)))))

theorem sound_mmar {ty : Nat} {d : BitVec 6} {a b : Src} {fa fb : BitVec 3} (h : Sound s) : SoundOut (mmar ty d a b fa fb s) :=
  SoundOut.ite (sound_illegalLane h) (sound_converge (fun _ h => Sound.ite (sound_trapGroup (sound_gangSeen h))
    (Sound.ite (sound_trapGroup h) (Sound.ite (Sound.fold (fun _ _ h => sound_crossWait h) (sound_unageAll h))
    (Sound.ite (sound_waitRegAll h) (sound_settleLatch (sound_enterLatch h)))))) h)

theorem sound_mrGroup {ty : Nat} {sc : Int} {a : List Num} {cols : List (List (Option Num))} {acc : Flags × State} {m : MrGroup}
    (h : Sound acc.2) : Sound (mrGroup ty sc a cols acc m).2 := by
  dsimp only [mrGroup]
  split
  · split
    · exact h
    · split
      · exact h
      · exact sound_slotBusy (h.update)
  · exact sound_fillBlock h

theorem sound_finishMatrix {o : Op} {ty : Nat} {fa fb : BitVec 3} {gs : List MrGroup} (h : Sound s) :
    Sound (finishMatrix o ty fa fb gs s) := by
  dsimp only [finishMatrix]
  refine Sound.fold (fun _ _ h => sound_orFpx h) (Sound.fold_pair (fun _ _ h => ?_) (sound_dropOp h))
  exact sound_mrGroup h

theorem sound_execMatrixCompletion {k : Nat} (h : Sound s) : SoundOut (execMatrixCompletion k s) := by
  dsimp only [execMatrixCompletion]
  split
  · split
    · exact Sound.ite (sound_settleTeam (sound_finishMatrix h)) h
    · exact h
  · exact h

theorem sound_mmasBody {ty p : Nat} {F : Form} {d : BitVec 6} {v : List Word} {x : Nat} (h : Sound s) :
    SoundGot (mmasBody ty p F d v x s) := by
  dsimp only [mmasBody]
  refine SoundGot.ite trivial (SoundGot.ite trivial ?_)
  split
  · exact trivial
  · exact trivial
  · split
    · exact trivial
    · split
      · rename_i e7
        have hx8 := Sound.snd e7 (sound_getShape h)
        exact sound_absentPage hx8
      · rename_i e9
        have hx10 := Sound.snd e9 (sound_getShape h)
        exact hx10
      · rename_i e11
        split
        · rename_i e12
          have hx13 := Sound.snd e11 (sound_getShape h)
          have hx14 := Sound.snd e12 (sound_getShape hx13)
          exact sound_absentPage hx14
        · rename_i e15
          have hx16 := Sound.snd e11 (sound_getShape h)
          have hx17 := Sound.snd e15 (sound_getShape hx16)
          exact hx17
        · rename_i e18
          have hx19 := Sound.snd e11 (sound_getShape h)
          have hx20 := Sound.snd e18 (sound_getShape hx19)
          refine SoundGot.ite hx20 (SoundGot.ite hx20 (SoundGot.ite hx20 (SoundGot.ite hx20 (SoundGot.ite (sound_gangSeen hx20) ?_))))
          split
          · exact sound_waitThere (sound_unageAll hx20)
          · split
            · exact hx20
            · exact sound_setLatch (sound_keepCache (sound_releaseCore hx20))

theorem sound_mmas {ty p : Nat} {d : BitVec 6} {a b : Src} (h : Sound s) : SoundOut (mmas ty p d a b s) := by
  dsimp only [mmas]
  refine SoundOut.ite (sound_converge (fun _ h => sound_trapGroup h) h) (sound_uni (fun _ _ _ h => ?_) h)
  split
  · exact sound_trapGroup h
  · rename_i e1
    have hw := SoundGot.trapIn e1 (sound_mmasBody h)
    exact sound_trapGroup hw
  · rename_i e3
    have hx4 := SoundGot.hold e3 (sound_mmasBody h)
    exact sound_holdGroup hx4
  · rename_i e5
    have hx6 := SoundGot.ok e5 (sound_mmasBody h)
    exact sound_settleLatch (sound_holdAll hx6)
  · rename_i e7
    have hx8 := SoundGot.stall e7 (sound_mmasBody h)
    exact hx8

theorem sound_endMmas {o : Op} {ty : Nat} {gs : List MmGroup} {sets : List (Nat × Nat)} {stop : Bool} (h : Sound s) :
    Sound (endMmas o ty gs sets stop s) := by
  dsimp only [endMmas]
  refine Sound.fold (fun _ _ h => ?_) (Sound.fold (fun _ _ h => Sound.fold (fun _ _ h => ?_) (Sound.ite ?_ (sound_fillBlock ?_)))
    (sound_dropOp h))
  · split
    · exact sound_setTeam h
    · exact h
  · split
    · exact sound_setHandle h
    · exact h
  · split
    · exact sound_slotBusy h
    · exact h
  · split
    · exact sound_slotBusy h
    · exact h

theorem sound_mmGroup {ty k : Nat} {first last : Bool} {sb : List Int} {cols : List (List (Option Num))}
    {acc : List MmGroup × Flags × State} {m : MmGroup} (h : Sound acc.2.2) : Sound (mmGroup ty k first last sb cols acc m).2.2 := by
  dsimp only [mmGroup]
  split
  · exact h
  · split
    · split
      · exact h
      · exact h.update
    · split
      · exact h
      · exact h

theorem sound_mmasStep {o : Op} {ty p k0 k kend : Nat} {gs : List MmGroup} {sets : List (Nat × Nat)} (h : Sound s) :
    Sound (mmasStep o ty p k0 k kend gs sets s) := by
  dsimp only [mmasStep]
  refine Sound.ite (sound_endMmas h) (Sound.ite (sound_endMmas h) (Sound.ite
    (Sound.ite (sound_endMmas (Sound.fold (fun _ _ h => sound_orFpx h) (sound_tick (Sound.fold_pair2 (fun _ _ h => ?_) h))))
    (sound_setOp (Sound.fold (fun _ _ h => sound_orFpx h) (sound_tick (Sound.fold_pair2 (fun _ _ h => ?_) h))))) h))
  · exact sound_mmGroup h
  · exact sound_mmGroup h

theorem sound_execMmasKStep {k : Nat} (h : Sound s) : SoundOut (execMmasKStep k s) := by
  dsimp only [execMmasKStep]
  split
  · split
    · exact Sound.ite (sound_settleTeam (sound_mmasStep h)) h
    · exact h
  · exact h

theorem sound_writeTile {t : Nat} {w : Handle} {sh : Shape} {d : Tab Word} (h : Sound s) : Sound (writeTile t w sh d s) :=
  Sound.fold (fun _ _ h => Sound.ite h (sound_stashWrite h)) h

theorem sound_accrelWrite {n : Nat} {x : Word} (h : Sound s) : SoundGot (accrelWrite n x s) := by
  dsimp only [accrelWrite]
  split
  · exact trivial
  · refine SoundGot.ite trivial ?_
    split
    · rename_i e2
      have hx3 := Sound.snd e2 (sound_getShape h)
      exact sound_absentPage hx3
    · rename_i e4
      have hx5 := Sound.snd e4 (sound_getShape h)
      exact hx5
    · rename_i e6
      have hx7 := Sound.snd e6 (sound_getShape h)
      refine SoundGot.ite hx7 (SoundGot.ite hx7 ?_)
      split
      · exact hx7
      · split
        · exact hx7
        · split
          · exact sound_writeTile hx7
          · exact hx7

theorem sound_accrelBody {d : BitVec 6} {o : Option (Bool × Src)} {v : List Word} (h : Sound s) : SoundGot (accrelBody d o v s) := by
  dsimp only [accrelBody]
  split
  · refine SoundGot.ite (sound_commitStore h) ?_
    split
    · exact trivial
    · split
      · exact h
      · exact sound_writeDst (sound_commitStore (sound_setSlot h))
  · refine SoundGot.ite trivial ?_
    split
    · exact trivial
    · split
      · exact h
      · split
        · rename_i e8
          have hx9 := SoundGot.ok e8 (sound_accrelWrite h)
          exact Sound.ite (sound_commitStore hx9) (sound_writeDst (sound_commitStore (sound_setSlot hx9)))
        · exact sound_accrelWrite h

theorem sound_setRec {t half rid : Nat} {r : Option Rec} (h : Sound s) : Sound (setRec t half rid r s) := h.update
theorem sound_tapRec {r : Rec} {key : BitVec 32} {kind : Nat} (h : Sound s) : Sound (tapRec r key kind s) := sound_tapComp h

theorem sound_retireRad {late : Bool} {t : Term} {x : RS} (h : Sound x.2) : Sound (retireRad late t x).2 := by
  unfold retireRad
  extract_lets r tr n y r1 w r2 r3 r4 r5 r6 s1
  have hy : Sound y.2 := by
    dsimp only [y]
    split
    · exact sound_stashWrite h
    · exact h
  split
  · exact sound_tapRec (Sound.fold (fun _ _ h => sound_tapRec h) (sound_tapRec hy))
  · exact sound_tapRec hy

theorem sound_retireLse {late : Bool} {t : Term} {vec : List (BitVec 32)} {x : RS} (h : Sound x.2) : Sound (retireLse late t vec x).2 := by
  unfold retireLse
  extract_lets
  split
  · exact sound_stashWrite (sound_tapRec h)
  · exact sound_stashWrite (sound_tapRec h)

theorem sound_retire {t : Term} {x : RS} (h : Sound x.2) : Sound (retire t x).2 := by
  unfold retire
  split
  · exact sound_retireLse h
  · exact sound_retireRad h

theorem sound_retireAll {n : Nat} {x : RS} (h : Sound x.2) : Sound (retireAll n x).2 := by
  induction n generalizing x with
  | zero => exact h
  | succ n ih =>
    unfold retireAll
    split
    · exact h
    · exact ih (sound_retire h)

theorem sound_bufferLse {t : Term} {vec : List (BitVec 32)} {x : RS} (h : Sound x.2) : Sound (bufferLse t vec x).2 := h.update

theorem sound_arriveTerm {t : Term} {vec : List (BitVec 32)} {x : RS} (h : Sound x.2) : Sound (arriveTerm t vec x).2.2 := by
  dsimp only [arriveTerm]
  split
  · exact sound_tapRec h
  · split
    · split
      · exact sound_retireLse h
      · exact sound_retireRad h
    · split
      · split
        · exact sound_bufferLse h
        · split
          · exact sound_retireLse h
          · split
            · exact sound_bufferLse (sound_retire h)
            · exact h
      · split
        · split
          · exact h
          · exact sound_retireRad h
        · exact h

theorem sound_openRec {t half rid off w : Nat} {lse : Bool} (h : Sound s) : Sound (openRec t half rid off w lse s) :=
  Sound.ite (sound_stashWrite (sound_stashWrite (sound_setRec h))) (sound_stashWrite (sound_setRec h))

theorem sound_copenBody {F : Form} {d : BitVec 6} {lse : Bool} {w : Nat} {v : List Word} {tid : Nat} (h : Sound s) :
    SoundGot (copenBody F d lse w v tid s) := by
  dsimp only [copenBody]
  refine SoundGot.ite trivial ?_
  split
  · exact trivial
  · refine SoundGot.ite trivial ?_
    split
    · exact trivial
    · refine SoundGot.ite trivial ?_
      split
      · exact h
      · exact SoundGot.ite trivial (sound_addOp (sound_commitLong (sound_setHandle (sound_pick h))))

theorem sound_readVec {tid off n : Nat} {g : AccGot} (h : Sound s) (e : readVec tid off n s = .inl g) : SoundGot g := by
  unfold readVec at e
  split at e
  · cases e; trivial
  · split at e
    · cases e; exact h
    · cases e

theorem sound_caddBody {F : Form} {p : BitVec 3} {chan : Option Nat} {v : List Word} {tid : Nat} (h : Sound s) :
    SoundGot (caddBody F p chan v tid s) := by
  unfold caddBody
  extract_lets gk t a b c rid np term send
  have hs : ∀ target op, SoundGot (send target op s) := fun target op => by
    dsimp only [send]
    split
    · exact h
    · refine sound_addOp (sound_commitLong ?_)
      split
      · exact sound_charge h
      · exact h
  clear_value send
  split
  · split
    · exact h
    · split
      · trivial
      · refine SoundGot.ite (hs _ _) (SoundGot.ite trivial ?_)
        split
        · rename_i e
          exact sound_readVec h e
        · exact hs _ _
  · split
    · trivial
    · refine SoundGot.ite trivial (SoundGot.ite (hs _ _) (SoundGot.ite trivial ?_))
      split
      · rename_i e
        exact sound_readVec h e
      · exact hs _ _

theorem sound_recOpBody {F : Form} {op : Nat → RecOp} {v : List Word} {tid : Nat} (h : Sound s) : SoundGot (recOpBody F op v tid s) := by
  dsimp only [recOpBody]
  split
  · exact h
  · split
    · exact trivial
    · split
      · exact h
      · exact sound_addOp (sound_commitLong h)

theorem sound_completeP {gk tid : Nat} {p : BitVec 3} {b : Bool} (h : Sound s) : Sound (completeP gk tid p b s) :=
  Sound.ite (sound_setP h) h

theorem sound_writeRec {r : Rec} (h : Sound s) : Sound (writeRec r s) := sound_stashWrite h
theorem sound_leaveArea {r : Rec} (h : Sound s) : Sound (leaveArea r s) := Sound.ite h (sound_tick (sound_stashWrite h))

theorem sound_closeRec {t half rid : Nat} {r : Rec} (h : Sound s) : Sound (closeRec t half rid r s) := by
  dsimp only [closeRec]
  refine sound_settleTeam ?_
  split
  · exact sound_setHandle (sound_leaveArea (sound_writeRec (sound_setRec h)))
  · exact sound_leaveArea (sound_writeRec (sound_setRec h))

theorem sound_discardTerm {o : Op} {t half : Nat} {p : BitVec 3} {key : BitVec 32} (h : Sound s) : Sound (discardTerm o t half p key s) :=
  sound_completeP (sound_tapComp h)

theorem sound_applyRec {o : Op} {t half : Nat} {k : RecOp} (h : Sound s) : Sound (applyRec o t half k s) := by
  dsimp only [applyRec]
  split
  · exact Sound.ite (sound_complete (sound_openRec h)) h
  · split
    · exact sound_discardTerm h
    · exact Sound.ite (sound_discardTerm h) (sound_completeP (sound_setRec (sound_arriveTerm h)))
  · split
    · exact h
    · exact sound_writeRec (sound_setRec (sound_retireAll h))
  · split
    · exact h
    · exact sound_closeRec (sound_retireAll h)
  · refine Sound.ite h ?_
    split <;> exact sound_complete h

theorem sound_arriveOp {o : Op} {t : Nat} {chan : Option Nat} {held : Bool} {k : RecOp} (h : Sound s) :
    Sound (arriveOp o t chan held k s) :=
  Sound.ite h (Sound.ite (sound_applyRec (sound_dropOp h)) (Sound.ite (Sound.ite (sound_applyRec (sound_dropOp h)) h)
    (Sound.ite h h.updateMem)))

theorem sound_execRecordOperationArrival {k : Nat} (h : Sound s) : SoundOut (execRecordOperationArrival k s) := by
  dsimp only [execRecordOperationArrival]
  split
  · split
    · exact sound_arriveOp h
    · exact h
  · exact h

theorem sound_replayRows {t base n : Nat} {y : Handle} {sh : Shape} {g u : List (BitVec 32)} (h : Sound s) :
    Sound (replayRows t base y sh g n u s) := by
  induction n generalizing u s with
  | zero => exact h
  | succ n ih => exact ih (Sound.ite h (h.update))

theorem sound_creplayBody {F : Form} {d : BitVec 6} {x w : Nat} {v : List Word} {tid : Nat} (h : Sound s) :
    SoundGot (creplayBody F d x w v tid s) := by
  dsimp only [creplayBody]
  refine SoundGot.ite trivial (SoundGot.ite trivial ?_)
  split
  · exact trivial
  · exact trivial
  · refine SoundGot.ite trivial ?_
    split
    · exact trivial
    · split
      · exact trivial
      · split
        · rename_i e9
          have hx10 := Sound.snd e9 (sound_getShape h)
          exact sound_absentPage hx10
        · rename_i e11
          have hx12 := Sound.snd e11 (sound_getShape h)
          exact hx12
        · rename_i e13
          have hx14 := Sound.snd e13 (sound_getShape h)
          refine SoundGot.ite hx14 (SoundGot.ite hx14 ?_)
          split
          · exact hx14
          · split
            · exact hx14
            · exact sound_addOp (sound_replayRows (sound_commitLong hx14))

theorem sound_execCreplayCompletion {k : Nat} (h : Sound s) : SoundOut (execCreplayCompletion k s) := by
  dsimp only [execCreplayCompletion]
  split
  · split
    · exact sound_complete (sound_dropOp h)
    · exact h
  · exact h

end Sys2Proof.Machine
end

section
/-! PROOFS. Soundness is kept (R306, R399): the Gloss set, and operations in flight. -/

namespace Sys2Proof.Machine
variable {s : State}

theorem sound_glossStep {f : GRun → GUnit → GUnit × Option Nat} (h : Sound s) : SoundOut (glossStep f s) := by
  dsimp only [glossStep]
  split
  · exact h
  · split
    · exact h.update
    · split
      · exact SoundOut.ite (h.update) (h.update)
      · exact h.update

theorem sound_glossD {d : BitVec 4} {v : GUnit → BitVec 32} (h : Sound s) : SoundOut (glossD d v s) := sound_glossStep h

theorem sound_gloss2 {f : BitVec 32 → BitVec 32 → BitVec 32} {d a b : BitVec 4} (h : Sound s) : SoundOut (gloss2 d a b f s) :=
  sound_glossD h

theorem sound_glossBr {c : BitVec 32 → BitVec 32 → Bool} {a b : BitVec 4} {t : BitVec 6} (h : Sound s) : SoundOut (glossBr a b t c s) :=
  sound_glossStep h

theorem sound_giveHostTok {v : Nat} (h : Sound s) : Sound (giveHostTok v s) := h.update

theorem sound_deliver {o k i : Nat} {t : Trig} {x : BitVec 32} (h : Sound s) : SoundSomeL (deliver o k i t x s) := by
  dsimp only [deliver]
  split
  · exact h.update
  · split
    · exact trivial
    · split
      · exact trivial
      · split
        · exact trivial
        · exact sound_setTeam h
  · split
    · exact trivial
    · exact (sound_giveHostTok h).update
  · exact trivial

theorem sound_execGfire {a t : BitVec 4} (h : Sound s) : SoundOut (execGfire a t s) := by
  unfold execGfire
  split
  · exact h
  · extract_lets u i x
    split
    · exact h.update
    · extract_lets o key u trig res
      have hr : ∀ y, res = some y → Sound y.1.1 := by
        intro y e
        dsimp only [res] at e
        clear_value trig
        split at e
        · split at e
          · cases e
          · obtain ⟨p, hp, rfl⟩ := Option.map_eq_some_iff.mp e
            exact SoundSomeL.of_eq hp (sound_deliver h)
        · cases e
      clear_value res
      split
      · exact sound_glossStep (sound_setUnit h)
      · exact sound_glossStep (sound_setUnit (hr _ rfl))

theorem sound_readParts {gk : Nat} {ps : List Part} (h : Sound s) : SoundSomePP (readParts gk ps s) := by
  induction ps generalizing s with
  | nil => exact h
  | cons p ps ih =>
    unfold readParts
    extract_lets core one
    have ho : SoundSomePP one := by
      dsimp only [one]
      split
      · cases devRead s (dieOf core) (vdevOf s (ctxOf s gk)) p.pa p.len with
        | none => trivial
        | some b => exact h
      · split
        · exact sound_readHere h
        · trivial
    clear_value one
    split
    · trivial
    · have hp := ih (SoundSomePP.of_eq rfl ho)
      split
      · trivial
      · rename_i e
        exact SoundSomePP.of_eq e hp

theorem sound_finishReg {o : Op} {u : Bool} {d : BitVec 6} {va : Word} {bs : List Byte} {bad : Bool} (h : Sound s) :
    Sound (finishReg o u d va bs bad s) :=
  Sound.ite h (Sound.ite (sound_completeFault h) (sound_complete h))

theorem sound_finishPred {o : Op} {u : Bool} {p : Option (BitVec 3)} {b : Bool} (h : Sound s) : Sound (finishPred o u p b s) := by
  dsimp only [finishPred]
  split
  · exact Sound.ite (sound_setPQ h) h
  · exact h

theorem sound_execLoadCompletion {k : Nat} (h : Sound s) : SoundOut (execLoadCompletion k s) := by
  dsimp only [execLoadCompletion]
  split
  · split
    · refine Sound.ite ?_ ?_
      · split
        · exact sound_finishPred (sound_finishReg (sound_dropOp h))
        · exact sound_dropOp h
      · split
        · exact h
        · rename_i e3
          have hx4 := SoundSomePP.of_eq e3 (sound_readParts h)
          exact sound_finishPred (sound_finishReg (sound_dropOp hx4))
    · exact h
  · exact h

theorem sound_finishAtomic {o : Op} {d : BitVec 6} {minor : Nat} {m : AtomMod} {va x y : Word} {old : List Byte} {bad : Bool}
    {put : List Byte → State → State} (hput : ∀ bs s, Sound s → Sound (put bs s)) (h : Sound s) :
    Sound (finishAtomic o d minor m va x y old bad put s) := by
  have hc : ∀ t, Sound t → Sound (if isAcq m.order then acquireCore (coreOf t o.gk) (wideScope t o.gk m.scope) (m.order == .sc) t else t) :=
    fun _ h => Sound.ite (sound_acquireCore h) h
  have hd : ∀ t e, Sound t → Sound (if aliveG t o.gk then complete o.gk o.tid false d e t else t) :=
    fun _ _ h => Sound.ite (sound_complete h) h
  exact Sound.ite (Sound.ite (sound_completeFault h) h) (hc _ (hd _ _ (Sound.ite h (hput _ _ h))))

theorem sound_dirtyAt {gk : Nat} {va : Word} (h : Sound s) : Sound (dirtyAt gk va s) := by
  dsimp only [dirtyAt]
  split
  · exact sound_setEntryBit h
  · exact h

theorem sound_atomInL1 {o : Op} {d : BitVec 6} {minor : Nat} {m : AtomMod} {p : Part} {va x y : Word} (h : Sound s) :
    Sound (atomInL1 o d minor m p va x y s) := by
  dsimp only [atomInL1]
  refine sound_finishAtomic (fun _ _ h => ?_) (sound_readPart (sound_drainEntry (sound_performDue h)))
  exact sound_dirtyAt (sound_noteStore (sound_dirtyLine h))

theorem sound_atomAtHome {o : Op} {d : BitVec 6} {minor : Nat} {m : AtomMod} {p : Part} {va x y : Word} (h : Sound s) :
    Sound (atomAtHome o d minor m p va x y s) := by
  dsimp only [atomAtHome]
  refine sound_finishAtomic (fun _ _ h => ?_) (sound_dirLines (fun _ _ h => ?_) (Sound.ite (sound_tapLine (sound_flushLine ?_)) ?_))
  · exact sound_dirtyAt (sound_noteStore (sound_pwrite h))
  · split
    · exact sound_dirHome h
    · exact sound_dirWrite h
  · exact sound_performDie (sound_performDue h)
  · exact sound_performDie (sound_performDue h)

theorem sound_execAtomicPerform {k : Nat} (h : Sound s) : SoundOut (execAtomicPerform k s) := by
  dsimp only [execAtomicPerform]
  split
  · split
    · refine Sound.ite h (Sound.ite (sound_finishAtomic (fun _ _ h => ?_) (sound_performDue (sound_dropOp h)))
        (Sound.ite h (Sound.ite (sound_atomInL1 (sound_dropOp h)) (sound_atomAtHome (sound_dropOp h)))))
      exact sound_stashWrite h
    · exact h
  · exact h

theorem sound_readEdition {gk : Nat} {e : Option Nat} {q : Word × Nat} {l : Leaf} (h : Sound s) : Sound (readEdition gk e q l s).2 := by
  dsimp only [readEdition]
  split
  · exact sound_readHere h
  · exact sound_engineReadsAt h

theorem sound_readEditions {gk : Nat} {e : Option Nat} {qs : List (Word × Nat)} (h : Sound s) : Sound (readEditions gk e qs s).2 := by
  induction qs generalizing s with
  | nil => exact h
  | cons q qs ih =>
    dsimp only [readEditions]
    split
    · exact h
    · split
      · split
        · exact Sound.snd ‹_› (ih h)
        · exact ih h
      · split
        · exact Sound.snd ‹_› (sound_readEdition h)
        · exact Sound.snd ‹_› (sound_readEdition h)
        · have hr := Sound.snd ‹_› (sound_readEdition h)
          split
          · exact Sound.snd ‹_› (ih hr)
          · exact ih hr

theorem sound_passIssuer {o : Op} {npc : Word} (h : Sound s) : Sound (passIssuer o npc s) := Sound.fold (fun _ _ h => sound_goOn h) h
theorem sound_trapIssuer {o : Op} {tr : TrapRec} (h : Sound s) : Sound (trapIssuer o tr s) := Sound.ite (sound_takeTrap h) h
theorem sound_useIssuer {o : Op} {u : Uses} (h : Sound s) : Sound (useIssuer o u s) := Sound.ite (sound_useAll h) h

theorem sound_undoReg {o : Op} {u : Bool} {d : BitVec 6} {old : Cell} (h : Sound s) : Sound (undoReg o u d old s) :=
  Sound.ite (sound_setR h) h

theorem sound_undoPred {o : Op} {u : Bool} {p : Option (BitVec 3)} {old : PCell} (h : Sound s) : Sound (undoPred o u p old s) := by
  dsimp only [undoPred]
  split
  · exact Sound.ite (sound_setPQ h) h
  · exact h

theorem sound_askPeer {o : Op} {u : Bool} {d : BitVec 6} {chk : Option (BitVec 3)} {va : Word} {bs : List Byte} {bad : Bool}
    {far : List Part} (h : Sound s) : Sound (askPeer o u d chk va bs bad far s) :=
  sound_setOp h

theorem sound_execEditionLookup {k : Nat} (h : Sound s) : SoundOut (execEditionLookup k s) := by
  dsimp only [execEditionLookup]
  split
  · split
    · refine Sound.ite h ?_
      split
      · exact sound_trapIssuer (sound_undoPred (sound_undoReg (sound_dropOp h)))
      · split
        · rename_i e4
          have hx5 := Sound.snd e4 (sound_readEditions h)
          exact sound_trapIssuer (sound_undoPred (sound_undoReg (sound_dropOp hx5)))
        · rename_i e6
          have hx7 := Sound.snd e6 (sound_readEditions h)
          exact sound_passIssuer (sound_finishPred (sound_finishReg (sound_useIssuer (sound_dropOp hx7))))
        · rename_i e8
          have hx9 := Sound.snd e8 (sound_readEditions h)
          exact sound_passIssuer (sound_askPeer (sound_useIssuer hx9))
        · rename_i e10
          have hx11 := Sound.snd e10 (sound_readEditions h)
          exact Sound.ite (sound_passIssuer (sound_finishPred (sound_finishReg (sound_useIssuer (sound_dropOp hx11)))))
            (sound_trapIssuer (sound_undoPred (sound_undoReg (sound_dropOp hx11))))
        · rename_i e12
          have hx13 := Sound.snd e12 (sound_readEditions h)
          exact sound_undoPred (sound_undoReg (sound_dropOp hx13))
    · exact h
  · exact h

theorem sound_readyPieces {gk : Nat} {qs : List (Word × Nat)} (h : Sound s) : Sound (readyPieces gk qs s).2 := by
  induction qs generalizing s with
  | nil => exact h
  | cons q qs ih =>
    dsimp only [readyPieces]
    split
    · exact ih h
    · split
      · exact ih h
      · split
        · exact ih h
        · split
          · exact SoundAgent.pool ‹_› (sound_readyRange h)
          · exact h
          · exact ih (SoundAgent.done ‹_› (sound_readyRange h))

theorem sound_writePieces {gk tid : Nat} {ia : Word} {qs : List (Word × Nat)} {bs : List Byte} (h : Sound s) :
    Sound (writePieces gk tid ia qs bs s) := by
  induction qs generalizing bs s with
  | nil => exact h
  | cons q qs ih =>
    dsimp only [writePieces]
    refine ih ?_
    split
    · exact h
    · exact Sound.ite (sound_addOp (sound_setEntryBit h)) (Sound.ite
        (sound_setEntryBit (sound_noteStore (sound_writePart h)))
        (sound_setEntryBit (sound_noteStore (sound_engineWrite (sound_viewPage h)))))

theorem sound_atomAtAgent {o : Op} {d : BitVec 6} {minor : Nat} {m : AtomMod} {l : Leaf} {va x y : Word} (h : Sound s) :
    Sound (atomAtAgent o d minor m l va x y s) := by
  dsimp only [atomAtAgent]
  refine sound_finishAtomic (fun _ _ h => ?_) (sound_dirLines (fun _ _ h => ?_) (sound_viewPage h))
  · exact sound_setEntryBit (sound_noteStore (sound_pwrite h))
  · split
    · exact sound_dirHome h
    · split
      · exact sound_dirWrite h
      · exact sound_dirRead h

theorem sound_undoAtom {o : Op} {atom : Option (BitVec 6 × Nat × AtomMod × Word × Word × Cell)} (h : Sound s) :
    Sound (undoAtom o atom s) := by
  dsimp only [undoAtom]
  split
  · exact sound_undoReg h
  · exact h

theorem sound_execBinderyWrite {k : Nat} (h : Sound s) : SoundOut (execBinderyWrite k s) := by
  dsimp only [execBinderyWrite]
  split
  · split
    · refine Sound.ite (sound_undoAtom (sound_dropOp h)) (Sound.ite h ?_)
      split
      · exact sound_trapIssuer (sound_undoAtom (sound_dropOp h))
      · rename_i e3
        have hx4 := Sound.snd e3 (sound_readyPieces (sound_performDue h))
        exact Sound.fold (fun _ _ h => sound_setSt h) (sound_enterPool (sound_undoAtom (sound_dropOp hx4)))
      · rename_i e5
        split
        · have hx6 := Sound.snd e5 (sound_readyPieces (sound_performDue h))
          exact sound_passIssuer (sound_writePieces (sound_useIssuer (sound_dropOp hx6)))
        · split
          · have hx8 := Sound.snd e5 (sound_readyPieces (sound_performDue h))
            exact sound_passIssuer (sound_useIssuer (sound_dropOp hx8))
          · have hx10 := Sound.snd e5 (sound_readyPieces (sound_performDue h))
            exact sound_passIssuer (sound_atomAtAgent (sound_useIssuer (sound_dropOp hx10)))
    · exact h
  · exact h

theorem sound_execQueueReceiveCompletion {k : Nat} (h : Sound s) : SoundOut (execQueueReceiveCompletion k s) := by
  dsimp only [execQueueReceiveCompletion]
  split
  · split
    · exact Sound.ite (sound_finishQrecv h) h
    · exact h
  · exact h

theorem sound_execChannelReceiveCompletion {k : Nat} (h : Sound s) : SoundOut (execChannelReceiveCompletion k s) := by
  dsimp only [execChannelReceiveCompletion]
  split
  · split
    · split
      · exact Sound.ite (sound_finishCrecv h) h
      · exact h
    · exact h
  · exact h

theorem sound_execMessageDelivery {k : Nat} (h : Sound s) : SoundOut (execMessageDelivery k s) := by
  dsimp only [execMessageDelivery]
  split
  · split
    · refine Sound.ite h ?_
      split
      · rename_i e2
        have hx3 := SoundSome.of_eq e2 (sound_accept h)
        exact sound_passGroup (sound_useAll (sound_dropOp hx3))
      · exact h
    · exact Sound.ite (sound_lanePush (sound_dropOp h)) h
    · exact h
  · exact h

theorem sound_execBpubAtBindery {k : Nat} (h : Sound s) : SoundOut (execBpubAtBindery k s) := by
  dsimp only [execBpubAtBindery]
  split
  · split
    · exact Sound.ite (sound_trapIssuer (sound_undoReg (sound_dropOp h)))
        (sound_passIssuer (Sound.ite (sound_complete (sound_useIssuer (sound_pwriteN (sound_pwriteN (sound_dropOp h)))))
        (sound_pwriteN (sound_pwriteN (sound_dropOp h)))))
    · exact h
  · exact h

theorem sound_execBfloorAtHome {k : Nat} (h : Sound s) : SoundOut (execBfloorAtHome k s) := by
  dsimp only [execBfloorAtHome]
  split
  · split
    · exact Sound.ite (sound_complete (sound_dropOp (Sound.ite (sound_pwriteN h) h))) (sound_dropOp (Sound.ite (sound_pwriteN h) h))
    · exact h
  · exact h

theorem sound_execDrainWordRead {k : Nat} (h : Sound s) : SoundOut (execDrainWordRead k s) := by
  dsimp only [execDrainWordRead]
  split
  · split
    · exact Sound.ite (sound_finishPred (Sound.ite (sound_complete (sound_dropOp h)) (sound_dropOp h))) h
    · exact h
  · exact h

theorem sound_execL1WriteBackBound {core line : Nat} (h : Sound s) : SoundOut (execL1WriteBackBound core line s) := by
  dsimp only [execL1WriteBackBound]
  split
  · exact Sound.ite (sound_evictTag h) (sound_writeBackLine h)
  · exact h

end Sys2Proof.Machine
end

section
/-! PROOFS. Soundness is kept (R306, R399): the scheduler, admission and the engines. -/

namespace Sys2Proof.Machine
variable {s : State}

theorem sound_refreshThread {gk tid : Nat} (h : Sound s) : Sound (refreshThread gk s tid) := by
  dsimp only [refreshThread]
  split
  · exact Sound.ite (sound_setSt h) h
  · exact Sound.ite (sound_setSt h) h
  · split
    · exact h
    · exact h
    · exact Sound.ite (sound_setSt h) h
  · exact h
  · exact h
  · exact h

theorem sound_refreshGroup {gk : Nat} (h : Sound s) : Sound (refreshGroup s gk) := Sound.fold (fun _ _ h => sound_refreshThread h) h
theorem sound_arriveThread {gk tid : Nat} (h : Sound s) : Sound (arriveThread gk s tid) := Sound.ite (sound_setSt h) h

theorem sound_needThread {gk tid : Nat} (h : Sound s) : Sound (needThread gk s tid) := by
  dsimp only [needThread]
  refine Sound.ite ?_ h
  split
  · exact sound_waitReg h
  · exact sound_waitPred h
  · exact sound_setSt h
  · exact h

theorem sound_needGroup {gk : Nat} (h : Sound s) : Sound (needGroup s gk) := by
  dsimp only [needGroup]
  refine Sound.ite h ?_
  split
  · exact h
  · refine Sound.ite ?_ (Sound.fold (fun _ _ h => ?_) h)
    · split
      · exact (sound_waitRegAll h.update).update
      · exact (sound_waitPredAll h.update).update
      · exact h
    · split
      · exact sound_waitThere h
      · exact sound_waitThereP h
      · exact h

theorem sound_sweepLanes {core q : Nat} (h : Sound s) : Sound (sweepLanes core q s) := h.update

theorem sound_standGroup {gk : Nat} (h : Sound s) : Sound (standGroup s gk) :=
  sound_needGroup (Sound.fold (fun _ _ h => sound_needThread h) (sound_splitCheck (Sound.fold (fun _ _ h => sound_arriveThread h) h)))

theorem sound_standQuarter {core q : Nat} (h : Sound s) : Sound (standQuarter core q s) :=
  sound_sweepLanes (Sound.fold (fun _ _ h => sound_standGroup h) h)

theorem sound_refreshQuarter {core q : Nat} (h : Sound s) : Sound (refreshQuarter core q s) :=
  sound_standQuarter (Sound.fold (fun _ _ h => sound_refreshGroup h) (sound_sweepLanes h))

theorem sound_setState {gk tid : Nat} {st : TState} (h : Sound s) : Sound (setState gk tid st s) := sound_setThr h
theorem sound_joinBroadcast {gk i : Nat} (h : Sound s) : Sound (joinBroadcast gk s i) := Sound.ite (sound_setState h) h

theorem sound_regroup {core q : Nat} (h : Sound s) : Sound (regroup core q s) :=
  (Sound.fold (fun _ _ h => sound_setState h) (Sound.fold (fun _ _ h => Sound.fold (fun _ _ h => sound_joinBroadcast h) h) h)).update

theorem sound_beginCycle {core q : Nat} (h : Sound s) : Sound (beginCycle core q s) :=
  Sound.ite (sound_standQuarter (sound_regroup (sound_refreshQuarter h.update))) (sound_refreshQuarter h.update)

theorem sound_ageBundle {b : Sel} {c : Nat} (h : Sound s) : Sound (ageBundle b c s) := Sound.fold (fun _ _ h => sound_setThr h) h

theorem sound_chooseBundle {core q : Nat} (h : Sound s) : Sound (chooseBundle core q s) := by
  dsimp only [chooseBundle]
  split
  · exact h.update
  · exact (sound_ageBundle h.update).update

theorem sound_issueCycle {core q : Nat} (h : Sound s) : Sound (issueCycle core q s) :=
  Sound.ite (sound_beginCycle h) (sound_chooseBundle (sound_beginCycle h))

theorem sound_execIssueCycle {core q : Nat} (h : Sound s) : SoundOut (execIssueCycle core q s) := sound_issueCycle h
theorem sound_wakeTeam {t : Nat} (h : Sound s) : Sound (wakeTeam s t) := Sound.ite ((sound_setTeam h).update) h

theorem sound_pieceBytes {asid : Nat} {l : LRec} {p : Piece} (h : Sound s) : Sound (pieceBytes asid l p s).2 := by
  dsimp only [pieceBytes]
  split
  · exact sound_peerBytes h
  · split
    · exact h
    · split
      · exact h
      · split
        · exact h
        · split <;> exact h

theorem sound_piecesBytes {asid : Nat} {l : LRec} {ps : List Piece} (h : Sound s) : Sound (piecesBytes asid l ps s).2 := by
  induction ps generalizing s with
  | nil => exact h
  | cons p ps ih =>
    unfold piecesBytes
    split
    · exact Sound.snd ‹_› (sound_pieceBytes h)
    · have hp := Sound.snd ‹_› (sound_pieceBytes h)
      split
      · exact Sound.snd ‹_› (ih hp)
      · exact Sound.snd ‹_› (ih hp)

theorem sound_readTable {ctx : Nat} {l : LRec} {va n : Nat} (h : Sound s) : Sound (readTable ctx l va n s).2 := by
  dsimp only [readTable]
  split
  · rename_i e
    have hv := Sound.snd e (sound_planFor h)
    exact hv
  · rename_i e2
    have hx3 := Sound.snd e2 (sound_planFor h)
    exact hx3
  · rename_i e4
    split
    · rename_i e5
      have hx6 := Sound.snd e4 (sound_planFor h)
      have hx7 := Sound.snd e5 (sound_piecesBytes hx6)
      exact hx7
    · rename_i e8
      have hx9 := Sound.snd e4 (sound_planFor h)
      have hx10 := Sound.snd e8 (sound_piecesBytes hx9)
      exact hx10

theorem sound_admitJoin {ctx asid page : Nat} (h : Sound s) : Sound (admitJoin ctx asid page s) := sound_joinRec h

theorem sound_readEntry {ctx tok va : Nat} (h : Sound s) : Sound (readEntry ctx tok va s).2 := by
  dsimp only [readEntry]
  split
  · rename_i e
    have hv := Sound.snd e (sound_readTable h)
    exact hv
  · rename_i e2
    have hx3 := Sound.snd e2 (sound_readTable h)
    exact hx3
  · rename_i e4
    have hx5 := Sound.snd e4 (sound_readTable h)
    exact sound_admitJoin hx5

theorem sound_fillQueue {ctx k : Nat} (h : Sound s) : Sound (fillQueue ctx s k) := by
  dsimp only [fillQueue]
  refine (Sound.fold_pair (fun _ _ h => ?_) h).update
  split
  · exact sound_readEntry h
  · exact h

theorem sound_fillEntries {ctx : Nat} (h : Sound s) : Sound (fillEntries ctx s) := Sound.fold (fun _ _ h => sound_fillQueue h) h

theorem sound_withTable {ctx va n : Nat} {l : LRec} {use : List Byte → Found → Option Found} {r : AdmGot × State} (h : Sound r.2) :
    Sound (withTable ctx l va n use r).2 := by
  dsimp only [withTable]
  split
  · split
    · exact h
    · split
      · exact Sound.snd ‹_› (sound_readTable h)
      · exact Sound.snd ‹_› (sound_readTable h)
      · exact Sound.snd ‹_› (sound_readTable h)
  · exact h

theorem sound_readCode {ctx slot : Nat} {l : LRec} {r : AdmGot × State} (h : Sound r.2) : Sound (readCode ctx l r slot).2 := by
  dsimp only [readCode]
  split
  · exact h
  · split
    · split
      · exact Sound.snd ‹_› (sound_readTable h)
      · exact Sound.snd ‹_› (sound_readTable h)
      · exact Sound.snd ‹_› (sound_readTable h)
    · exact h

theorem sound_admitChecks {ctx : Nat} {l : LRec} (h : Sound s) : Sound (admitChecks ctx l s).2 := by
  dsimp only [admitChecks]
  refine sound_withTable (sound_withTable (sound_withTable (Sound.fold_pair (fun _ _ h => ?_) h)))
  exact sound_readCode h

theorem sound_placeNext {g : Nat} (h : Sound s) : SoundSome (placeNext g s) := by
  dsimp only [placeNext]
  split
  · exact trivial
  · exact sound_startTeam (sound_pick h)

theorem sound_placeAll {g n : Nat} (h : Sound s) : SoundSome (placeAll g n s) := by
  induction n generalizing s with
  | zero => exact h
  | succ n ih =>
    unfold placeAll
    cases e : placeNext g s with
    | none => trivial
    | some t => exact ih (SoundSome.of_eq e (sound_placeNext h))

theorem sound_reissueOne {o : Op} (h : Sound s) : Sound (reissueOne s o) := Sound.ite h.updateMem h
theorem sound_reissue {t : Nat} (h : Sound s) : Sound (reissue t s) := Sound.fold (fun _ _ h => sound_reissueOne h) h
theorem sound_comeBack {t core : Nat} (h : Sound s) : Sound (comeBack t core s) := sound_settleTeam (sound_reissue (sound_reside h))

theorem sound_placeWoken {t : Nat} (h : Sound s) : SoundSome (placeWoken t s) := by
  dsimp only [placeWoken]
  split
  · exact trivial
  · exact sound_comeBack (sound_pick h)

theorem sound_takeBarrier {g c : Nat} {parts : List Nat} (h : Sound s) : Sound (takeBarrier g c parts s) := by
  dsimp only [takeBarrier]
  refine Sound.fold (fun _ _ h => ?_) ?_
  · exact h.update
  · exact (sound_setGrid h).update

theorem sound_makeGrid {ctx prio : Nat} {host : Bool} {it : QItem} {f : Found} (h : Sound s) : Sound (makeGrid ctx prio host it f s).2 :=
  (sound_setGrid h).update

theorem sound_refuseItem {ctx prio : Nat} {host : Bool} {it : QItem} {status : Nat} (h : Sound s) :
    Sound (refuseItem ctx prio host it status s) :=
  sound_endGrid (sound_makeGrid h)

theorem sound_popHead {ctx prio : Nat} {host : Bool} (h : Sound s) : Sound (popHead ctx prio host s) := Sound.ite h.update h.update

theorem sound_admitLaunch {ctx prio : Nat} {host : Bool} {it : QItem} (h : Sound s) : SoundPlaced (admitLaunch ctx prio host it s) := by
  dsimp only [admitLaunch]
  refine SoundPlaced.ite (sound_refuseItem (sound_popHead h)) ?_
  split
  · exact sound_refuseItem (sound_popHead (Sound.snd ‹_› (sound_admitChecks h)))
  · exact sound_admitJoin (Sound.snd ‹_› (sound_admitChecks h))
  · have hc := Sound.snd ‹_› (sound_admitChecks h)
    refine SoundPlaced.ite (sound_refuseItem (sound_popHead hc)) ?_
    rename_i f u _
    have hg := sound_makeGrid (ctx := ctx) (prio := prio) (host := host) (it := it) (f := f)
      (sound_popHead (ctx := ctx) (prio := prio) (host := host) hc)
    generalize makeGrid ctx prio host it f (popHead ctx prio host u) = r at hg ⊢
    have ht : SoundSome (if f.parts = [] then .some r.2 else (freeContext r.2).map fun c => takeBarrier r.1 c f.parts r.2) := by
      refine SoundSome.ite hg ?_
      cases freeContext r.2 with
      | none => trivial
      | some c => exact sound_takeBarrier hg
    split
    · trivial
    · rename_i e
      have hp := sound_placeAll (g := r.1) (n := if it.lr.cls = .concurrent then it.lr.teams else 1) (SoundSome.of_eq e ht)
      split
      · rename_i e
        exact SoundSome.of_eq e hp
      · trivial

theorem sound_placeItem {ctx : Nat} {i : Item} (h : Sound s) : SoundPlaced (placeItem ctx i s) := by
  dsimp only [placeItem]
  split
  · split
    · rename_i e
      have hv := SoundSome.of_eq e (sound_placeWoken h)
      exact hv
    · exact trivial
  · split
    · rename_i e3
      have hx4 := SoundSome.of_eq e3 (sound_placeNext h)
      exact hx4
    · exact trivial
  · exact sound_admitLaunch h

theorem sound_takeTurn {ctx : Nat} (h : Sound s) : Sound (takeTurn ctx s) := Sound.ite h h.update

theorem sound_unseat {t : Nat} (h : Sound s) : Sound (unseat t s) := by
  dsimp only [unseat]
  refine Sound.fold (fun _ _ h => Sound.ite (sound_setGrp h) h) ?_
  exact h.update

theorem sound_withdraw {t : Nat} (h : Sound s) : Sound (withdraw t s) := h.updateMem
theorem sound_evict {t : Nat} (h : Sound s) : Sound (evict t s) := sound_setTeam (sound_withdraw (sound_unseat (sound_leaveCores h)))

theorem sound_evictFor {ctx : Nat} {i : Item} {ts : List Nat} (h : Sound s) : SoundPlaced (evictFor ctx i ts s) := by
  induction ts generalizing s with
  | nil => trivial
  | cons t ts ih =>
    dsimp only [evictFor]
    refine SoundPlaced.ite (ih h) ?_
    split
    · exact ih (sound_evict h)
    · exact sound_placeItem (sound_evict h)

theorem sound_returnTeam {t : Nat} (h : Sound s) : Sound (returnTeam s t) := Sound.ite (sound_comeBack h) h

theorem sound_distribute {ctx : Nat} (h : Sound s) : Sound (distribute ctx s) := by
  dsimp only [distribute]
  refine Sound.ite (Sound.ite (sound_fillEntries h) h) (Sound.ite ((sound_takeTurn
    (Sound.fold (fun _ _ h => sound_returnTeam h) (Sound.ite (sound_fillEntries h) h))).update) ?_)
  split
  · exact Sound.ite ((Sound.ite (sound_fillEntries h) h).update) (Sound.ite (sound_fillEntries h) h)
  · refine Sound.ite (Sound.ite (sound_fillEntries h) h) ?_
    split
    · rename_i e2
      have hx3 := SoundPlaced.done e2 (sound_placeItem (Sound.ite (sound_fillEntries h) h))
      exact (sound_takeTurn hx3).update
    · rename_i e4
      have hx5 := SoundPlaced.hold e4 (sound_placeItem (Sound.ite (sound_fillEntries h) h))
      exact hx5
    · split
      · rename_i e7
        have hx8 := SoundPlaced.done e7 (sound_evictFor (Sound.ite (sound_fillEntries h) h))
        exact (sound_takeTurn hx8).update
      · rename_i e9
        have hx10 := SoundPlaced.hold e9 (sound_evictFor (Sound.ite (sound_fillEntries h) h))
        exact hx10
      · exact Sound.ite ((Sound.ite (sound_fillEntries h) h).update) (Sound.ite (sound_fillEntries h) h)

theorem sound_execDistributorPlacement {v : Nat} (h : Sound s) : SoundOut (execDistributorPlacement v s) := sound_distribute h

theorem sound_beatBlock {q : Asker} {wr : Bool} {a : Word} (h : Sound s) : Sound (beatBlock q wr a s).2 := by
  dsimp only [beatBlock]
  split
  · rename_i e
    have hv := Sound.snd e (sound_xlate h)
    exact hv
  · rename_i e2
    have hx3 := Sound.snd e2 (sound_xlate h)
    exact hx3
  · rename_i e4
    have hx5 := Sound.snd e4 (sound_xlate h)
    exact hx5

theorem sound_setCopy {k : Nat} {c : Copy} (h : Sound s) : Sound (setCopy k c s) := sound_setOp h

theorem sound_fillArrives {k : Nat} {c : Copy} {ms : List Move} {bs : List Byte} {bad : List Bool} (h : Sound s) :
    Sound (fillArrives k c ms bs bad s) := by
  dsimp only [fillArrives]
  split
  · exact h
  · exact sound_setCopy (sound_fillBeat h)

theorem sound_nextBeat {o : Op} {c : Copy} (h : Sound s) : Sound (nextBeat o c s).2 := sound_beatBlock h

theorem sound_copyStep {o : Op} {c : Copy} (h : Sound s) : Sound (copyStep o c s) := by
  dsimp only [copyStep]
  split
  · exact sound_nextBeat h
  · refine Sound.ite (sound_nextBeat h) (Sound.ite ?_ ?_)
    · split
      · rename_i e2
        have hx3 := Sound.snd e2 (sound_engWrite (sound_nextBeat h))
        exact sound_setCopy hx3
      · rename_i e4
        have hx5 := Sound.snd e4 (sound_engWrite (sound_nextBeat h))
        exact sound_setCopy hx5
      · rename_i e6
        have hx7 := Sound.snd e6 (sound_engWrite (sound_nextBeat h))
        exact sound_setCopy hx7
      · rename_i e8
        have hx9 := Sound.snd e8 (sound_engWrite (sound_nextBeat h))
        exact sound_setCopy (sound_setEntryBit hx9)
    · split
      · rename_i e10
        have hx11 := Sound.snd e10 (sound_engRead (sound_nextBeat h))
        exact sound_fillArrives hx11
      · rename_i e12
        have hx13 := Sound.snd e12 (sound_engRead (sound_nextBeat h))
        exact sound_setCopy hx13
      · rename_i e14
        have hx15 := Sound.snd e14 (sound_engRead (sound_nextBeat h))
        exact sound_setCopy hx15
      · rename_i e16
        have hx17 := Sound.snd e16 (sound_engRead (sound_nextBeat h))
        exact sound_setCopy hx17

theorem sound_execCopyBeat {k : Nat} (h : Sound s) : SoundOut (execCopyBeat k s) := by
  dsimp only [execCopyBeat]
  split
  · split
    · exact Sound.ite (sound_copyStep h) h
    · exact h
  · exact h

theorem sound_zeroRest {l : LRec} {c : Copy} {x : Handle} (h : Sound s) : Sound (zeroRest l c x s) := sound_stashWrite h

theorem sound_execCopyEnd {k : Nat} (h : Sound s) : SoundOut (execCopyEnd k s) := by
  dsimp only [execCopyEnd]
  split
  · split
    · refine Sound.ite (sound_settleTeam (sound_dropOp (sound_tapCopy ?_))) h
      split
      · split
        · exact h
        · exact Sound.ite (sound_setHandle h) (Sound.ite (sound_setHandle h) (sound_setHandle (sound_zeroRest h)))
      · split
        · refine sound_setTeam ?_
          split
          · exact h
          · exact Sound.ite (sound_setHandle h) (Sound.ite (sound_setHandle h) (sound_setHandle (sound_zeroRest h)))
        · split
          · exact h
          · exact Sound.ite (sound_setHandle h) (Sound.ite (sound_setHandle h) (sound_setHandle (sound_zeroRest h)))
    · exact h
  · exact h

theorem sound_rehome {l : Leaf} {page place : Nat} (h : Sound s) : Sound (rehome l page place s) := sound_pwriteN h
theorem sound_redirect {asid old q : Nat} (h : Sound s) : Sound (redirect asid old q s) := h.updateMem

theorem sound_movePlain {asid vdev d page : Nat} {l : Leaf} (h : Sound s) : SoundMove (movePlain asid vdev d page l s) := by
  dsimp only [movePlain]
  refine SoundMove.ite h ?_
  split
  · exact h
  · rename_i e1
    have hw := SoundSomeP.of_eq e1 (sound_poolPop h)
    exact sound_poolPush (sound_dropXlat (sound_rehome (sound_redirect (sound_copyBytes (sound_recallPage hw)))))

theorem sound_popMany {r k n : Nat} (h : Sound s) : Sound (popMany r k n s).2 := by
  induction n generalizing s with
  | zero => exact h
  | succ n ih =>
    unfold popMany
    split
    · exact h
    · exact ih (SoundSomeP.of_eq ‹_› (sound_subPop h))

theorem sound_moveEditioned {asid vdev d i : Nat} {l : Leaf} (h : Sound s) : SoundMove (moveEditioned asid vdev d i l s) :=
  SoundMove.ite (sound_enterPool (Sound.ite (sound_reclaimRegion (sound_copyAllSubs h)) (sound_copyAllSubs h)))
    (SoundMove.ite (Sound.ite (sound_reclaimRegion (sound_copyAllSubs h)) (sound_copyAllSubs h))
    (sound_pushHeld (Sound.fold (fun _ _ h => sound_subPush h) (sound_subPush
    (sound_remapPage (sound_setCat (Sound.fold (fun _ _ h => sound_copyBytes h)
    (sound_copyBytes (sound_recallPage (sound_popMany (Sound.ite (sound_reclaimRegion (sound_copyAllSubs h))
    (sound_copyAllSubs h))))))))))))

theorem sound_movePage {asid vdev d page : Nat} (h : Sound s) : SoundMove (movePage asid vdev d page s) := by
  dsimp only [movePage]
  split
  · exact h
  · refine SoundMove.ite h (SoundMove.ite trivial (SoundMove.ite (sound_movePlain h) ?_))
    split
    · exact h
    · exact sound_moveEditioned h

theorem sound_execClaimPageMove {k : Nat} (h : Sound s) : SoundOut (execClaimPageMove k s) := by
  dsimp only [execClaimPageMove]
  split
  · split
    · refine Sound.ite (Sound.ite (sound_complete (sound_dropOp h)) (sound_dropOp h)) (Sound.ite h ?_)
      split
      · rename_i e2
        have hx3 := SoundMove.moved e2 (sound_movePage h)
        exact sound_setOp hx3
      · rename_i e4
        have hx5 := SoundMove.left e4 (sound_movePage h)
        exact sound_setOp hx5
      · rename_i e6
        have hx7 := SoundMove.wait e6 (sound_movePage h)
        exact sound_setOp hx7
      · exact h
    · exact h
  · exact h

end Sys2Proof.Machine
end

section
/-! PROOFS. Soundness is kept (R306, R399): tenancy, the Bindery, the Gloss units and the package. -/

namespace Sys2Proof.Machine
variable {s : State}

theorem sound_switchOut {t : Nat} (h : Sound s) : Sound (switchOut t s) :=
  sound_setTeam (sound_withdraw (sound_unseat (sound_leaveCores h)))

theorem sound_execSliceEnd {v : Nat} (h : Sound s) : SoundOut (execSliceEnd v s) := by
  dsimp only [execSliceEnd]
  refine Sound.ite h ?_
  split
  · exact h
  · refine Sound.fold (fun _ _ h => sound_returnTeam h) ?_
    exact (Sound.fold (fun _ _ h => sound_switchOut h) h).update

theorem sound_execRenderContextSwitch {v : Nat} (h : Sound s) : SoundOut (execRenderContextSwitch v s) := by
  dsimp only [execRenderContextSwitch]
  split
  · exact h
  · refine Sound.fold (fun _ _ h => sound_returnTeam h) ?_
    exact (Sound.fold (fun _ _ h => sound_switchOut h) h).update

theorem sound_publish {die : Nat} {r : Nat × Nat} (h : Sound s) : Sound (publish die s r) := sound_tapSummary (sound_tick h.update)

theorem sound_execVdevApply {w : BitVec 64} (h : Sound s) : SoundOut (execVdevApply w s) :=
  SoundOut.ite h (Sound.ite h.updateRegs h.updateRegs)

theorem sound_execRctxApply {w : BitVec 64} (h : Sound s) : SoundOut (execRctxApply w s) := Sound.ite h.updateRegs h.updateRegs

theorem sound_postRecord {k : Nat} (h : Sound s) : Sound (postRecord k s) := by
  dsimp only [postRecord]
  split
  · exact h
  · exact Sound.ite h (sound_raiseIrq ((sound_pwrite h).update))

theorem sound_execFaultRecordPost {k : Nat} (h : Sound s) : SoundOut (execFaultRecordPost k s) := sound_postRecord h
theorem sound_dropRecord {v seq : Nat} (h : Sound s) : Sound (dropRecord v seq s) := h.update
theorem sound_execFqDoneRetry {v seq : Nat} (h : Sound s) : SoundOut (execFqDoneRetry v seq s) := sound_dropRecord h
theorem sound_denyThread {asid page : Nat} {p : Nat × Thr} (h : Sound s) : Sound (denyThread asid page s p) := Sound.ite h.update h

theorem sound_denyOp {asid page : Nat} {o : Op} (h : Sound s) : Sound (denyOp asid page s o) := by
  dsimp only [denyOp]
  split
  · exact Sound.ite (sound_setOp h) h
  · exact h

theorem sound_denyProg {asid page t : Nat} (h : Sound s) : Sound (denyProg asid page s t) := by
  dsimp only [denyProg]
  split
  · exact Sound.ite (sound_settleTeam (sound_endProg h)) h
  · exact h

theorem sound_denyEntries {asid page : Nat} (h : Sound s) : Sound (denyEntries asid page s) := h.update

theorem sound_denyAdmission {asid page : Nat} (h : Sound s) : Sound (denyAdmission asid page s) := by
  dsimp only [denyAdmission]
  split
  · split
    · exact Sound.ite (sound_refuseItem (sound_popHead h)) h
    · exact h
  · exact h

theorem sound_execFqDoneDeny {v seq : Nat} (h : Sound s) : SoundOut (execFqDoneDeny v seq s) := by
  dsimp only [execFqDoneDeny]
  split
  · exact h
  · exact Sound.ite (sound_dropRecord h) (sound_denyAdmission (sound_denyEntries
      ((Sound.fold (fun _ _ h => sound_denyProg h) (Sound.fold (fun _ _ h => sound_denyOp h)
      (Sound.fold (fun _ _ h => sound_denyThread h) (sound_dropRecord h)))).update)))

theorem sound_invalidate {asid lo n : Nat} (h : Sound s) : Sound (invalidate asid lo n s) :=
  sound_dropXlat (Sound.fold (fun _ _ h => sound_recallPage h) h)

theorem sound_execInvalidation (h : Sound s) : SoundOut (execInvalidation s) := Sound.ite h ((sound_invalidate h).updateRegs)
theorem sound_setMaps {r : Nat} {m : Option (List Mapping)} (h : Sound s) : Sound (setMaps r m s) := h.update
theorem sound_rereadPool {r k : Nat} (h : Sound s) : Sound (rereadPool r s k) := Sound.ite (sound_endPoolWaits h.update) h.update
theorem sound_rereadPools {r : Nat} (h : Sound s) : Sound (rereadPools r s) := Sound.fold (fun _ _ h => sound_rereadPool h) h
theorem sound_regionStatus {op r code : Nat} (h : Sound s) : Sound (regionStatus op r code s) := h.updateRegs

theorem sound_createRegion {r : Nat} (h : Sound s) : Sound (createRegion r s) :=
  Sound.ite (sound_regionStatus h) (sound_rereadPools (sound_regionStatus (sound_setMaps h)))

theorem sound_rereadRegion {r : Nat} (h : Sound s) : Sound (rereadRegion r s) :=
  Sound.ite (sound_regionStatus h) (sound_reclaimRegion (sound_rereadPools (sound_regionStatus (sound_setMaps h))))

theorem sound_returnCopies {r i : Nat} (h : Sound s) : Sound (returnCopies r s i) :=
  Sound.ite (Sound.fold (fun _ _ h => Sound.ite h (sound_subPush h)) h)
    (sound_setCat (Sound.fold (fun _ _ h => Sound.ite h (sound_subPush h)) h))

theorem sound_destroyRegion {r : Nat} (h : Sound s) : Sound (destroyRegion r s) := by
  dsimp only [destroyRegion]
  split
  · exact sound_regionStatus h
  · exact Sound.ite (sound_regionStatus h) (Sound.ite (sound_regionStatus h)
      (sound_regionStatus (sound_setMaps (Sound.fold (fun _ _ h => sound_returnCopies h) h))))

theorem sound_execBackgroundSubblockCopy {r page : Nat} (h : Sound s) : SoundOut (execBackgroundSubblockCopy r page s) := by
  dsimp only [execBackgroundSubblockCopy]
  split
  · exact h
  · exact sound_copySub h

theorem sound_execReclaimWalk {r page : Nat} (h : Sound s) : SoundOut (execReclaimWalk r page s) := Sound.ite h (sound_reclaimPage h)

theorem sound_bootDid {step a : Nat} {all : List Nat} (h : Sound s) : Sound (bootDid step a all s) :=
  Sound.ite h (Sound.ite h.update h.update)

theorem sound_execMemSplitWrite {w : BitVec 64} (h : Sound s) : SoundOut (execMemSplitWrite w s) := by
  refine Sound.ite h (Sound.ite h (sound_bootDid ⟨h.mem, h.power, ?_⟩))
  dsimp only
  rw [toNat_heldSplit]
  omega

theorem sound_setRoute {up dir : Nat} (h : Sound s) : Sound (setRoute up dir s) := by
  dsimp only [setRoute]
  refine Sound.ite h (Sound.fold (fun _ _ h => sound_settleTeam h) ?_)
  exact Sound.ite (sound_raiseMgmt h.updateRegs) h.updateRegs

theorem sound_execRouteWrite {w : BitVec 64} (h : Sound s) : SoundOut (execRouteWrite w s) := Sound.ite h (sound_bootDid (sound_setRoute h))

theorem sound_linkGoesDown {l : Nat} (h : Sound s) : Sound (linkGoesDown l s) :=
  Sound.ite (sound_raiseMgmt (sound_tapLink (sound_setRoute h))) h

theorem sound_execGlossSlot {die : Nat} (h : Sound s) : SoundOut (execGlossSlot die s) := by
  dsimp only [execGlossSlot]
  refine Sound.ite (sound_setUnit h) ?_
  split
  · exact sound_setUnit h
  · exact Sound.ite (sound_setUnit h) ((sound_setUnit h).update)

theorem sound_execGlossBudgetWindow {die : Nat} (h : Sound s) : SoundOut (execGlossBudgetWindow die s) := sound_setUnit h
theorem sound_glossDone {die op i code : Nat} (h : Sound s) : Sound (glossDone die op i code s) := h.updateRegs

theorem sound_applyTenant {die i : Nat} (h : Sound s) : Sound (applyTenant die i s) :=
  Sound.ite (sound_glossDone h) (sound_glossDone (sound_setUnit h))

theorem sound_attach {die k : Nat} (h : Sound s) : Sound (attach die k s) :=
  Sound.ite (sound_glossDone h) (sound_glossDone (sound_setUnit h))

theorem sound_execGlossDetach {die i : Nat} (h : Sound s) : SoundOut (execGlossDetach die i s) :=
  Sound.ite (sound_glossDone h) (sound_glossDone (sound_setUnit h))

theorem sound_execGlossDrain {die : Nat} (h : Sound s) : SoundOut (execGlossDrain die s) := sound_setUnit h

theorem sound_execLinkTraining {port : Nat} {ok : Bool} (h : Sound s) : SoundOut (execLinkTraining port ok s) :=
  Sound.ite (sound_bootDid h.update) h

theorem sound_reply {p : Nat} {bs : Option (List Byte)} (h : Sound s) : Sound (reply p bs s) := h.update

theorem sound_serve {r : PeerReq} (h : Sound s) : Sound (serve r s) := by
  dsimp only [serve]
  split
  · exact Sound.ite (sound_reply (Sound.fold (fun _ _ h => sound_viewPage h) h))
      (sound_reply (Sound.fold (fun _ _ h => sound_viewPage h) h))
  · exact sound_reply (sound_dirLines (fun _ _ h => sound_dirHome h) (sound_pwrite (Sound.fold (fun _ _ h => sound_viewPage h) h)))
  · exact Sound.ite (sound_reply (Sound.fold (fun _ _ h => sound_viewPage h) h))
      (sound_reply (Sound.ite (Sound.fold (fun _ _ h => sound_viewPage h) h)
      (sound_dirLines (fun _ _ h => sound_dirHome h) (sound_pwrite (Sound.fold (fun _ _ h => sound_viewPage h) h)))))

theorem sound_mixParts {gk : Nat} {ps : List Part} {d : List Byte} (h : Sound s) : SoundSomePP (mixParts gk ps d s) := by
  induction ps generalizing d s with
  | nil => exact h
  | cons p ps ih =>
    have hr : SoundSomePP (if isPeer p.pa then .some (slice d 0 p.len, false, s) else readParts gk [p] s) := by
      split
      · exact h
      · exact sound_readParts h
    dsimp only [mixParts]
    split
    · trivial
    · have hp := SoundSomePP.of_eq ‹_› hr
      split
      · trivial
      · exact SoundSomePP.of_eq ‹_› (ih hp)

theorem sound_faceDone {id stat : Nat} (h : Sound s) : Sound (faceDone id stat s) := h.update

theorem sound_peerDone {o : Op} {bs : List Byte} (h : Sound s) : Sound (peerDone o bs s) := by
  dsimp only [peerDone]
  split
  · exact sound_dropOp h
  · split
    · exact h
    · rename_i e3
      split
      · have hx4 := SoundSomePP.of_eq e3 (sound_mixParts h)
        exact sound_finishPred (sound_finishReg (sound_dropOp hx4))
      · have hx5 := SoundSomePP.of_eq e3 (sound_mixParts h)
        exact Sound.ite (sound_acquireCore (Sound.ite (sound_complete (Sound.ite (sound_dropOp hx5) (sound_dirtyAt (sound_dropOp hx5))))
          (Sound.ite (sound_dropOp hx5) (sound_dirtyAt (sound_dropOp hx5)))))
          (Sound.ite (sound_complete (Sound.ite (sound_dropOp hx5) (sound_dirtyAt (sound_dropOp hx5))))
          (Sound.ite (sound_dropOp hx5) (sound_dirtyAt (sound_dropOp hx5))))
  · split
    · exact sound_settleTeam (sound_lineReturn h)
    · exact sound_dropOp h
  · exact sound_finishLaunch h
  · exact Sound.ite (sound_dropOp h) (Sound.ite (sound_setCopy h) (sound_fillArrives h))
  · split
    · rename_i e10
      have hx11 := SoundSome.of_eq e10 (sound_accept h)
      exact sound_passGroup (sound_useAll (sound_dropOp hx11))
    · exact h
  · exact sound_dropOp (sound_faceDone h)
  · exact h

theorem sound_peerLost {o : Op} {p : Nat} (h : Sound s) : Sound (peerLost o p s) := by
  dsimp only [peerLost]
  split
  · exact sound_finishPred (sound_finishReg (sound_dropOp (sound_peerError h)))
  · split
    · exact sound_settleTeam (sound_lineReturn (sound_peerError h))
    · exact sound_dropOp (sound_peerError h)
  · exact sound_finishLaunch (sound_peerError h)
  · exact Sound.ite (sound_dropOp (sound_peerError h)) (Sound.ite (sound_setCopy (sound_peerError h))
      (sound_fillArrives (sound_peerError h)))
  · exact sound_passGroup (sound_useAll (sound_dropOp (sound_peerError h)))
  · exact sound_dropOp (sound_faceDone (sound_peerError h))
  · exact sound_dropOp (sound_peerError h)

theorem sound_execPeerAcknowledgement {k : Nat} {r : PeerReply} (h : Sound s) : SoundOut (execPeerAcknowledgement k r s) := by
  dsimp only [execPeerAcknowledgement]
  split
  · exact h
  · split
    · exact h
    · split
      · exact Sound.ite (sound_peerDone h) (sound_peerLost h)
      · exact sound_peerLost h
      · exact sound_peerLost h

theorem sound_execUalinkPortDown {port : Nat} (h : Sound s) : SoundOut (execUalinkPortDown port s) := by
  dsimp only [execUalinkPortDown]
  refine Sound.ite (sound_raiseMgmt (Sound.fold (fun _ _ h => ?_) ?_)) h
  · split
    · exact Sound.ite (sound_peerLost h) h
    · exact h
  · exact h.update

theorem sound_execPeerDrainTimeout {k : Nat} (h : Sound s) : SoundOut (execPeerDrainTimeout k s) := by
  dsimp only [execPeerDrainTimeout]
  split
  · exact h
  · split
    · exact h
    · exact Sound.ite (sound_peerError (sound_dropOp h)) h

theorem sound_takeMessage {m : PeerMsg} {k : Nat} (h : Sound s) : Sound (takeMessage m k s) :=
  (Sound.fold (fun _ _ h => sound_pmark h) (sound_pwrite h)).update

theorem sound_execUalinkMessageArrival {m : PeerMsg} (h : Sound s) : SoundOut (execUalinkMessageArrival m s) := by
  dsimp only [execUalinkMessageArrival]
  refine Sound.ite h (Sound.ite (sound_peerError h) ?_)
  split
  · exact sound_takeMessage h
  · exact h

theorem sound_cmdShape {gk x : Nat} {wr : Bool} (h : Sound s) : Sound (cmdShape gk x wr s).2 := by
  dsimp only [cmdShape]
  split
  · rename_i e
    have hv := Sound.snd e (sound_getShape h)
    exact hv
  · rename_i e2
    have hx3 := Sound.snd e2 (sound_getShape h)
    exact hx3
  · rename_i e4
    have hx5 := Sound.snd e4 (sound_getShape h)
    exact sound_engJoin hx5

theorem sound_readShape {gk n i : Nat} {l : LRec} {c : Copy} {bs : List Byte} {bad : List Nat} (h : Sound s) :
    Sound (readShape gk l c n i bs bad s).2 := by
  induction n generalizing i bs bad s with
  | zero => exact h
  | succ n ih =>
    dsimp only [readShape]
    split
    · exact h
    · split
      · exact sound_beatBlock h
      · split
        · exact ih (Sound.snd ‹_› (sound_engRead (sound_beatBlock h)))
        · exact Sound.snd ‹_› (sound_engRead (sound_beatBlock h))
        · exact Sound.snd ‹_› (sound_engRead (sound_beatBlock h))
        · exact Sound.snd ‹_› (sound_engRead (sound_beatBlock h))

theorem sound_writeShape {gk n i : Nat} {l : LRec} {c : Copy} {bs : List Byte} {bad : List Nat} (h : Sound s) :
    Sound (writeShape gk l c bs bad n i s).2 := by
  induction n generalizing i s with
  | zero => exact h
  | succ n ih =>
    dsimp only [writeShape]
    split
    · exact h
    · split
      · exact sound_beatBlock h
      · split
        · exact ih (Sound.snd ‹_› (sound_engWrite (sound_beatBlock h)))
        · exact Sound.snd ‹_› (sound_engWrite (sound_beatBlock h))
        · exact Sound.snd ‹_› (sound_engWrite (sound_beatBlock h))
        · exact Sound.snd ‹_› (sound_engWrite (sound_beatBlock h))

theorem sound_addFace {die : Nat} {f : Face} (h : Sound s) : Sound (addFace die f s) := h.update

theorem sound_haloSend {die : Nat} {c : Cmd} {sh : Shape} {ch : Nat × Nat × Nat × Nat} (h : Sound s) :
    Sound (haloSend die c sh ch s).2 := by
  dsimp only [haloSend]
  split
  · exact h
  · split
    · exact h
    · split
      · exact h
      · split
        · rename_i e3
          have hx4 := Sound.snd e3 (sound_readShape h)
          exact hx4
        · rename_i e5
          have hx6 := Sound.snd e5 (sound_readShape h)
          exact hx6
        · rename_i e7
          have hx8 := Sound.snd e7 (sound_readShape h)
          exact Sound.ite (sound_addFace (sound_addOp hx8)) ((sound_addOp hx8).update)

theorem sound_haloTake {die : Nat} {c : Cmd} {sh : Shape} {ch : Nat × Nat × Nat × Nat} (h : Sound s) :
    Sound (haloTake die c sh ch s).2 := by
  dsimp only [haloTake]
  split
  · exact h
  · split
    · split <;> exact h
    · refine Sound.ite ?_ h.update
      split
      · exact sound_dropOp (sound_faceDone h.update)
      · exact h.update

theorem sound_writeRes {c : Cmd} {sh : Shape} (h : Sound s) : Sound (writeRes c sh s).2.2 := by
  dsimp only [writeRes]
  split
  · split
    · rename_i e1
      have hw := Sound.snd e1 (sound_writeShape h)
      exact hw
    · rename_i e3
      have hx4 := Sound.snd e3 (sound_writeShape h)
      exact hx4
    · rename_i e5
      have hx6 := Sound.snd e5 (sound_writeShape h)
      exact hx6
  · exact h
  · exact h

theorem sound_haloShapes {c : Cmd} (h : Sound s) : Sound (haloShapes c s).2.2 := by
  dsimp only [haloShapes]
  split
  · refine sound_cmdShape ?_
    split
    · exact sound_cmdShape h
    · exact h
  · split
    · exact sound_cmdShape h
    · exact h

theorem sound_haloStep {die : Nat} {c : Cmd} (h : Sound s) : Sound (haloStep die c s).2 := by
  dsimp only [haloStep]
  split
  · exact h
  · split
    · exact h
    · split
      · exact sound_haloShapes h
      · exact sound_haloShapes h
      · split
        · exact sound_haloShapes h
        · split
          · refine sound_writeRes (sound_haloTake ?_)
            split
            · exact sound_haloSend (sound_haloShapes h)
            · exact sound_haloShapes h
          · split
            · exact sound_haloSend (sound_haloShapes h)
            · exact sound_haloShapes h

theorem sound_advance {step : Cmd → State → Cmd × State} {get : State → List Cmd} {put : List Cmd → State → State}
    (hstep : ∀ c s, Sound s → Sound (step c s).2) (hput : ∀ l s, Sound s → Sound (put l s)) (h : Sound s) :
    Sound (advance step get put s) := by
  refine hput _ _ (Sound.fold (fun _ _ h => ?_) (hput _ _ h))
  split
  · exact hput _ _ (hstep _ _ h)
  · exact h

theorem sound_putHalo {die : Nat} {q : List Cmd} (h : Sound s) : Sound (putHalo die q s) := h.update
theorem sound_putColl {die : Nat} {q : List Cmd} (h : Sound s) : Sound (putColl die q s) := h.update

theorem sound_execHaloCommand {die : Nat} (h : Sound s) : SoundOut (execHaloCommand die s) :=
  sound_advance (fun _ _ h => sound_haloStep h) (fun _ _ h => sound_putHalo h) h

theorem sound_contribOf {cs : List Contribution} {v g tag r : Nat} {m : Member} (h : Sound s) : Sound (contribOf cs v g tag r m s).2 := by
  dsimp only [contribOf]
  split
  · split
    · exact h
    · split
      · rename_i e3
        split
        · rename_i e4
          have hx5 := Sound.snd e3 (sound_cmdShape h)
          have hx6 := Sound.snd e4 (sound_readShape hx5)
          exact hx6
        · rename_i e7
          have hx8 := Sound.snd e3 (sound_cmdShape h)
          have hx9 := Sound.snd e7 (sound_readShape hx8)
          exact hx9
        · rename_i e10
          have hx11 := Sound.snd e3 (sound_cmdShape h)
          have hx12 := Sound.snd e10 (sound_readShape hx11)
          exact hx12
      · rename_i e13
        have hx14 := Sound.snd e13 (sound_cmdShape h)
        exact hx14
      · rename_i e15
        have hx16 := Sound.snd e15 (sound_cmdShape h)
        exact hx16
  · split <;> exact h

theorem sound_contribs {cs : List Contribution} {v g tag r : Nat} {ms : List Member} (h : Sound s) :
    Sound (contribs cs v g tag r ms s).2 := by
  induction ms generalizing r s with
  | nil => exact h
  | cons m ms ih => exact ih (sound_contribOf h)

theorem sound_spread {ms : List (Member × Nat)} {g tag : Nat} {res : Nat × List Byte × List Nat} (h : Sound s) :
    Sound (spread ms g tag res s) := by
  dsimp only [spread]
  refine Sound.fold (fun _ _ h => ?_) h
  split
  · exact h
  · exact sound_putColl h

theorem sound_collStep {die : Nat} {cs : List Contribution} {c0 : Cmd} (h : Sound s) : Sound (collStep die cs c0 s).2 := by
  unfold collStep
  split
  · exact h
  · split
    · exact h
    · extract_lets g v k a b c s'
      have hs : Sound s' := sound_cmdShape (sound_cmdShape h)
      clear_value s' a b c
      split
      · exact hs
      · exact hs
      · split
        · exact hs
        · split
          · exact hs
          · split
            · exact hs
            · extract_lets x counts own r c' s'' fits w
              have hx : Sound x.2 := sound_contribs hs
              have hr : Sound r.2 := by
                dsimp only [r]
                split
                · exact hs
                · split
                  · exact hx
                  · exact sound_spread hx
              split
              · exact hr
              · exact sound_writeRes hr
      · exact hs

theorem sound_execAllReduceCommand {die : Nat} {cs : List Contribution} (h : Sound s) : SoundOut (execAllReduceCommand die cs s) :=
  sound_advance (fun _ _ h => sound_collStep h) (fun _ _ h => sound_putColl h) h

theorem sound_execEngineCompletion {die : Nat} {coll : Bool} (h : Sound s) : SoundOut (execEngineCompletion die coll s) := by
  dsimp only [execEngineCompletion]
  refine Sound.ite ?_ ?_
  · split
    · exact h
    · exact (sound_putColl h).update
  · split
    · exact h
    · exact (sound_putHalo h).update

end Sys2Proof.Machine
end

section
/-! PROOFS. Soundness is kept (R306, R399): resets, repairs, checkpoints and the host. -/

namespace Sys2Proof.Machine
variable {s : State}

theorem sound_releaseGroup {gk : Nat} (h : Sound s) : Sound (releaseGroup s gk) := by
  dsimp only [releaseGroup]
  split
  · exact h
  · exact sound_passGroup (sound_setGrp (sound_acquireCore h))

theorem sound_flipRoot {c g : Nat} (h : Sound s) : Sound (flipRoot c g s) := by
  dsimp only [flipRoot]
  refine Sound.ite (Sound.fold (fun _ _ h => sound_releaseGroup h) ?_) h
  exact h.update

theorem sound_execBarrierArrivalBit {c core : Nat} (h : Sound s) : SoundOut (execBarrierArrivalBit c core s) := by
  dsimp only [execBarrierArrivalBit]
  split
  · exact h
  · exact sound_flipRoot (Sound.ite ((sound_releaseCore h).update) h)

theorem sound_stopDevice {v : Nat} (h : Sound s) : Sound (stopDevice v s) := (Sound.fold (fun _ _ h => sound_endGrid h) h).updateMem

theorem sound_forgetCtx {ctx : Nat} (h : Sound s) : Sound (forgetCtx s ctx) :=
  (Sound.fold (fun _ _ h => sound_writeBackLine h) (Sound.fold (fun _ _ h => sound_drainEntry h) h)).updateMem

theorem sound_zeroRange {pa n : Nat} (h : Sound s) : Sound (zeroRange pa n s) := by
  have hv : Sound ((pagesOf pa n).foldl (fun s p => viewPage p .none s) s) := Sound.fold (fun _ _ h => sound_viewPage h) h
  exact hv.of_mem (fun w => tabWf_tdrop (fun k => decide (pa ≤ 1 * k ∧ 1 * k + 1 ≤ pa + n)) w) rfl

theorem sound_scrubTeams {v : Nat} (h : Sound s) : Sound (scrubTeams v s) := h.update

theorem sound_scrubDevice {v : Nat} (h : Sound s) : Sound (scrubDevice v s) := by
  dsimp only [scrubDevice]
  refine sound_scrubTeams (Sound.fold (fun _ _ h => sound_forgetCtx h) ?_)
  exact Sound.ite (sound_zeroRange (sound_zeroRange h.update)) h.update

theorem sound_execFunctionLevelReset (h : Sound s) : SoundOut (execFunctionLevelReset s) :=
  Sound.ite h (Sound.ite (sound_stopDevice h) ((sound_scrubDevice (sound_stopDevice h)).updateRegs))

theorem sound_forceMasks {core : Nat} (h : Sound s) : Sound (forceMasks core s) := by
  dsimp only [forceMasks]
  refine Sound.fold (fun _ _ h => ?_) h
  exact Sound.ite h.update h

theorem sound_loseLaunch {g : Nat} (h : Sound s) : Sound (loseLaunch s g) := Sound.ite (sound_endGrid h) h

theorem sound_loseCore {core : Nat} (h : Sound s) : Sound (loseCore core s) := by
  dsimp only [loseCore]
  refine sound_raiseMgmt (Sound.fold (fun _ _ h => sound_loseLaunch h) (Sound.fold (fun _ _ h => ?_) ?_))
  · exact (sound_setTeam h).update
  · exact h.update

theorem sound_retireCore {core : Nat} (h : Sound s) : Sound (retireCore core s) := by
  dsimp only [retireCore]
  refine Sound.ite (sound_loseCore (sound_writeBackCore (sound_drainCore
    (sound_forceMasks (Sound.fold (fun _ _ h => sound_switchOut h) h))))) (Sound.fold (fun _ _ h => sound_comeBack h) ?_)
  exact (sound_writeBackCore (sound_drainCore (sound_forceMasks (Sound.fold (fun _ _ h => sound_switchOut h) h)))).updateRegs

theorem sound_startRetire {core : Nat} (h : Sound s) : Sound (startRetire core s) := Sound.ite h.update h.updateRegs

theorem sound_nextRetire (h : Sound s) : Sound (nextRetire s) := by
  dsimp only [nextRetire]
  split
  · exact h.update
  · exact sound_startRetire h.update

theorem sound_execCoreRetirement (h : Sound s) : SoundOut (execCoreRetirement s) :=
  Sound.ite (sound_nextRetire ((Sound.ite (sound_retireCore h) h).updateRegs)) h

theorem sound_execAuditFlitSend {l : Nat} (h : Sound s) : SoundOut (execAuditFlitSend l s) := sound_tick (sound_tick h.update)
theorem sound_linkErr {l hi lo n : Nat} (h : Sound s) : Sound (linkErr l hi lo n s) := h.updateRegs

theorem sound_execAuditFlitReceive {l : Nat} {crc : Bool} (h : Sound s) : SoundOut (execAuditFlitReceive l crc s) := by
  dsimp only [execAuditFlitReceive]
  split
  · exact h
  · exact Sound.ite h.update (Sound.ite h.update (sound_tapLink (sound_linkErr h.update)))

theorem sound_portGoesDown {p : Nat} (h : Sound s) : Sound (portGoesDown p s) := by
  dsimp only [portGoesDown]
  refine Sound.ite (sound_raiseMgmt (Sound.fold (fun _ _ h => ?_) ?_)) h
  · split
    · exact Sound.ite (sound_peerLost h) h
    · exact h
  · exact h.update

theorem sound_loseLane {l : Nat} (h : Sound s) : Sound (loseLane l s) :=
  Sound.ite (Sound.ite h.update (sound_linkGoesDown h)) (sound_portGoesDown h)

theorem sound_execFlitReplay {l : Nat} (h : Sound s) : SoundOut (execFlitReplay l s) :=
  Sound.ite ((sound_tapLink (sound_linkErr (sound_pick h))).update) (sound_linkGoesDown
    ((sound_tapLink (sound_linkErr (sound_pick h))).update))

theorem sound_retireUnit {die : Nat} {c : Canary} (h : Sound s) : Sound (retireUnit die c s) :=
  Sound.ite (sound_loseLane h.update) (sound_startRetire h)

theorem sound_execMarginPlan {die : Nat} {us : List Canary} (h : Sound s) : SoundOut (execMarginPlan die us s) := by
  dsimp only [execMarginPlan]
  refine Sound.fold (fun _ _ h => sound_retireUnit h) ?_
  exact sound_tick ((Sound.fold (fun _ _ h => Sound.fold (fun _ _ h => sound_tapMonitor h) h) (sound_bootDid h)).updateRegs)

theorem sound_logError {e : SoftErr} {die at_ : Nat} (h : Sound s) : Sound (logError e die at_ s) := h.updateRegs
theorem sound_badWord {core line off : Nat} (h : Sound s) : Sound (badWord core line off s) := h.updateMem

theorem sound_l1Error {core line off : Nat} (h : Sound s) : Sound (l1Error core line off s) := by
  dsimp only [l1Error]
  split
  · exact h
  · exact (sound_writeBackLine (Sound.ite (sound_badWord h) h)).updateMem

theorem sound_endHolder {t : Option Nat} (h : Sound s) : Sound (endHolder s t) := by
  dsimp only [endHolder]
  split
  · exact sound_endGrid h
  · exact h

theorem sound_uncorrectable {p : ErrPlace} (h : Sound s) : Sound (uncorrectable p s) := by
  dsimp only [uncorrectable]
  split
  · exact Sound.ite h (sound_setV h)
  · exact Sound.ite h (sound_setS h)
  · exact Sound.ite h (sound_stashMark h)
  · exact sound_l1Error h
  · exact Sound.ite (sound_pmark h) h
  · exact Sound.ite h.updateMem h
  · exact h.update
  · exact sound_endHolder h
  · exact sound_endHolder h
  · exact sound_raiseMgmt ((Sound.fold (fun _ _ h => sound_flushLine h) h).updateMem)
  · exact sound_setUnit h

theorem sound_allHome (h : Sound s) : Sound (allHome s) :=
  Sound.fold (fun _ _ h => sound_writeBackLine h) (Sound.fold (fun _ _ h => sound_drainEntry h) h)

theorem sound_ckptDone {uncorr : Nat} (h : Sound s) : Sound (ckptDone uncorr s) := h.updateRegs

theorem sound_execCheckpointSave (h : Sound s) : SoundOut (execCheckpointSave s) := by
  refine Sound.ite h (Sound.fold (fun _ _ h => sound_returnTeam h) (sound_ckptDone ?_))
  have hm : Sound (((residents s).foldl (fun s t => switchOut t s) s)) := Sound.fold (fun _ _ h => sound_switchOut h) h
  exact Sound.of_mem (Sound.fold (fun _ _ h => sound_viewPage h) (sound_allHome hm)) (wf_shiftInto _ _ _) rfl

theorem sound_backTeam {x : Snap} {t : Nat} (h : Sound s) : Sound (backTeam x s t) := Sound.ite h h.updateMem

theorem sound_execCheckpointRestore (h : Sound s) : SoundOut (execCheckpointRestore s) := by
  refine Sound.ite h (Sound.fold (fun _ _ h => sound_returnTeam h) (sound_ckptDone ?_))
  have hm : Sound (((residents s).foldl (fun s t => switchOut t s) s)) := Sound.fold (fun _ _ h => sound_switchOut h) h
  split
  · exact Sound.fold (fun _ _ h => sound_backTeam h) (Sound.of_mem (sound_allHome hm) (wf_shiftInto _ _ _) rfl)
  · exact Sound.of_mem (sound_allHome hm) (wf_shiftInto _ _ _) rfl

theorem sound_reset : Sound State.reset := resetIsSound
theorem sound_afterReset (h : Sound s) : Sound (afterReset s) := ⟨wf_afterReset h.mem, sound_reset.power, sound_reset.split⟩

theorem sound_execModuleReset (h : Sound s) : SoundOut (execModuleReset s) := by
  dsimp only [execModuleReset]
  split <;> exact (sound_afterReset h).update

theorem sound_execPldmFirmwareUpdate {img : FwImage} (h : Sound s) : SoundOut (execPldmFirmwareUpdate img s) := Sound.ite h.update h
theorem sound_execMainSideOff (h : Sound s) : SoundOut (execMainSideOff s) := h.update

theorem sound_takeEntry {x j i : Nat} (h : Sound s) : Sound (takeEntry x j s i) := by
  dsimp only [takeEntry]
  refine (sound_giveHostTok ?_).update
  split
  · exact h
  · exact sound_readEntry h

theorem sound_execHqTailWrite {x j val : Nat} (h : Sound s) : SoundOut (execHqTailWrite x j val s) := by
  dsimp only [execHqTailWrite]
  refine Sound.ite h (Sound.fold (fun _ _ h => sound_takeEntry h) ?_)
  exact h.update

theorem sound_execCompletionEntryWrite {x : Nat} (h : Sound s) : SoundOut (execCompletionEntryWrite x s) := by
  dsimp only [execCompletionEntryWrite]
  split
  · exact h
  · exact Sound.ite h (sound_raiseIrq ((sound_pwrite h).update))

theorem sound_keyDone (h : Sound s) : Sound (keyDone s) := h.updateRegs
theorem sound_execKeyLoad {i : Nat} (h : Sound s) : SoundOut (execKeyLoad i s) := Sound.ite (sound_keyDone h.update) h
theorem sound_execKeyClear {i : Nat} (h : Sound s) : SoundOut (execKeyClear i s) := Sound.ite (sound_keyDone h.update) h

theorem sound_execSpdmRequest {i : Nat} (h : Sound s) : SoundOut (execSpdmRequest i s) := by
  dsimp only [execSpdmRequest]
  split
  · exact h.update
  · exact h

theorem sound_execPldmMonitoring {i : Nat} (h : Sound s) : SoundOut (execPldmMonitoring i s) := by
  dsimp only [execPldmMonitoring]
  split
  · exact sound_tick h.update
  · exact h

theorem sound_execPowerManagerUpdate {est : List Nat} (h : Sound s) : SoundOut (execPowerManagerUpdate est s) := h.updateRegs

theorem sound_execPowerLimitWrite {w : BitVec 64} (h : Sound s) : SoundOut (execPowerLimitWrite w s) := by
  refine ⟨h.mem, ?_, h.split⟩
  dsimp only
  rw [toNat_heldIn_powerLimit]
  omega

theorem sound_takeTemp {die temp : Nat} (h : Sound s) : Sound (takeTemp die temp s) := sound_tapMonitor h.update
theorem sound_stopHot {die : Nat} (h : Sound s) : Sound (stopHot die s) := h.update

theorem sound_execThermalCap {die temp : Nat} (h : Sound s) : SoundOut (execThermalCap die temp s) :=
  Sound.ite (sound_stopHot ((sound_takeTemp h).updateRegs)) ((sound_takeTemp h).updateRegs)

theorem sound_execHostIngressAccess {r : HostReq} (h : Sound s) : SoundOut (execHostIngressAccess r s) := by
  dsimp only [execHostIngressAccess]
  refine Sound.ite h (Sound.ite ?_ ?_)
  · split
    · exact h
    · exact h.update
  · split
    · exact sound_dirLines (fun _ _ h => sound_dirHome h) (sound_pwrite (Sound.fold (fun _ _ h => sound_viewPage h) h))
    · exact (Sound.fold (fun _ _ h => sound_viewPage h) h).update

theorem sound_andGo {o : Out} (h : Sound s) (ho : SoundOut o) : Sound (andGo s o) := by
  cases o with
  | next t => exact ho
  | fault r => exact h
  | refused r => exact h

theorem sound_writeFlr {x : Word} (h : Sound s) : Sound (writeFlr x s) := Sound.ite h h.updateRegs
theorem sound_writeRetire {x : Word} (h : Sound s) : Sound (writeRetire x s) := Sound.ite (sound_startRetire h) (Sound.ite h h.updateRegs)
theorem sound_writeCkpt {x : Word} (h : Sound s) : Sound (writeCkpt x s) := Sound.ite h h.updateRegs
theorem sound_writeKeyCtl {x : Word} (h : Sound s) : Sound (writeKeyCtl x s) := Sound.ite h (Sound.ite h h.updateRegs)
theorem sound_writeInv {x : Word} (h : Sound s) : Sound (writeInv x s) := Sound.ite h h.updateRegs
theorem sound_clearMgmt {x : Word} (h : Sound s) : Sound (clearMgmt x s) := (Sound.ite h h.update).updateRegs
theorem sound_clearEcc {d : Nat} {x : Word} (h : Sound s) : Sound (clearEcc d x s) := h.updateRegs

theorem sound_writeRegionApply {x : Word} (h : Sound s) : Sound (writeRegionApply x s) := by
  dsimp only [writeRegionApply]
  split
  · exact sound_createRegion h
  · exact sound_rereadRegion h
  · exact sound_destroyRegion h
  · exact sound_regionStatus h

theorem sound_writeGlossApply {d : Nat} {x : Word} (h : Sound s) : Sound (writeGlossApply d x s) := by
  dsimp only [writeGlossApply]
  split
  · exact sound_applyTenant h
  · exact sound_attach h
  · exact sound_andGo h (sound_execGlossDetach h)
  · exact sound_glossDone h

theorem sound_writeLow {o : Nat} {x : Word} (h : Sound s) : Sound (writeLow o x s) := by
  dsimp only [writeLow]
  split
  · exact h.updateRegs
  · exact h.updateRegs
  · exact sound_writeRegionApply h
  · exact sound_andGo h (sound_execMemSplitWrite h)
  · exact sound_andGo h (sound_execRouteWrite h)
  · exact h.updateRegs
  · exact sound_writeInv h
  · exact sound_andGo h (sound_execVdevApply h)
  · exact h.updateRegs
  · exact sound_writeFlr h
  · exact sound_writeRetire h
  · exact h.updateRegs
  · exact sound_writeCkpt h
  · exact sound_clearMgmt h
  · exact Sound.ite h (sound_bootDid h.updateRegs)
  · exact h.updateRegs
  · exact sound_andGo h (sound_execPowerLimitWrite h)
  · exact sound_writeKeyCtl h
  · exact h.updateRegs
  · exact sound_andGo h (sound_execRctxApply h)
  · exact h

theorem sound_writeDie {d i : Nat} {x : Word} (h : Sound s) : Sound (writeDie d i x s) := by
  dsimp only [writeDie]
  split
  · exact sound_clearEcc h
  · exact sound_writeGlossApply h
  · exact h.updateRegs
  · exact h.updateRegs
  · exact Sound.ite (sound_andGo h (sound_execGlossDrain h)) h
  · exact h.updateRegs
  · exact h

theorem sound_writePf {o w : Nat} {x : Word} (h : Sound s) : Sound (writePf o w x s) :=
  Sound.ite h (Sound.ite h.updateRegs (Sound.ite (sound_writeLow h) (Sound.ite (Sound.ite (sound_writeDie h) h)
    (Sound.ite h.updateRegs h))))

theorem sound_writeFqDone {v : Nat} {x : Word} (h : Sound s) : Sound (writeFqDone v x s) := by
  dsimp only [writeFqDone]
  split
  · exact sound_andGo h.update (sound_execFqDoneRetry h.update)
  · exact sound_andGo h.update (sound_execFqDoneDeny h.update)
  · exact h.update

theorem sound_writeVf {v o w : Nat} {x : Word} (h : Sound s) : Sound (writeVf v o w x s) := by
  dsimp only [writeVf]
  refine Sound.ite h ?_
  split
  · exact h
  · refine Sound.ite h.update (Sound.ite (sound_andGo h (sound_execHqTailWrite h)) ?_)
    split
    · exact h.update
    · exact h.update
    · exact h.update
    · exact sound_writeFqDone h
    · exact h

theorem sound_execRegisterWrite {a : RegAccess} (h : Sound s) : SoundOut (execRegisterWrite a s) := by
  dsimp only [execRegisterWrite]
  split
  · split
    · exact Sound.ite (sound_writeVf h) h
    · exact sound_writePf h
  · exact h.update

end Sys2Proof.Machine
end

section
/-! PROOFS. Soundness is kept (R306, R399): every instruction, and a step. -/

namespace Sys2Proof.Machine
variable {s : State}

theorem sound_exec {i : Instr} (h : Sound s) : SoundOut (exec i s) := by
  cases i <;> dsimp only [exec]
  case addI64 | subI64 | addI32 | subI32 | addN32 | subN32 | addI64Sat | subI64Sat | addN64Sat | subN64Sat | addI32Sat | subI32Sat |
    addN32Sat | subN32Sat | negI64 | absI64 | mulI64 | mulhiI64 | mulhiN64 | mulI32 | mulN32 | mulwI32 | mulwN32 | minI64 | maxI64 |
    minN64 | maxN64 | minI32 | maxI32 | minN32 | maxN32 | and | or | xor | andn | orn | xnor | not | mov | shlN64 | shrN64 | shrI64 |
    rotlN64 | shlN32 | shrN32 | shrI32 | rotlN32 | popc | clz | ctz | brev | bswap | sextI8 | sextI16 | sextI32 | lea | setpEqI64 |
    setpNeI64 | setpLtI64 | setpLeI64 | setpLtN64 | setpLeN64 | setpTst | setpEqI32 | setpNeI32 | setpLtI32 | setpLeI32 | setpLtN32 |
    setpLeN32 | pand | por | pxor | pandn | pnot | sel | addI64Imm | addI32Imm | addI32SatImm | addI64SatImm | andImm | orImm | xorImm |
    shlN64Imm | shrN64Imm | shrI64Imm | mulI64Imm | movc | movcM | movcH | rdsr | bra | call | jmp | callr | ret | nop | addD | subD |
    mulD | divD | minD | maxD | sqrtD | rintD | addF | subF | mulF | divF | minF | maxF | sqrtF | rintF | addHf | subHf | mulHf | minHf |
    maxHf | addBf | subBf | mulBf | minBf | maxBf | setpEqD | setpLtD | setpLeD | setpNanD | setpEqF | setpLtF | setpLeF | setpNanF |
    fmaD | fnmaD | fmaF | fnmaF | fmaHf | fmaBf | addDLong | subDLong | mulDLong | divDLong | minDLong | maxDLong | sqrtDLong |
    rintDLong | addFLong | subFLong | mulFLong | divFLong | minFLong | maxFLong | sqrtFLong | rintFLong | addHfLong | subHfLong |
    mulHfLong | minHfLong | maxHfLong | addBfLong | subBfLong | mulBfLong | minBfLong | maxBfLong | rcpD | rsqrtD | exp2D | log2D |
    exp2F | log2F | sinF | cosF | fclassD | fclassF | copysignD | copysignF | absD | negD | absF | negF => exact sound_lane h
  case shflIdx | shflUp | shflDown | shflXor => exact sound_shflBy h
  case ballot | voteAny | voteAll => exact sound_cross h
  case redAddI64 | redMinI64 | redMaxI64 | redAddD | redMinD | redMaxD | redAddF => exact sound_red h
  case exit => exact sound_settleExit (sound_perThread (fun _ _ h => sound_exitThread h) h)
  case cvt => exact sound_execCvt h
  case ld => exact sound_accLane (fun _ _ _ h => sound_ldBody h) h
  case st => exact sound_accLane (fun _ _ _ h => sound_stBody h) h
  case lde => exact sound_accLane (fun _ _ _ h => sound_ldeBody h) h
  case pf => exact sound_accLane (fun _ _ _ h => sound_pfBody h) h
  case atomAdd | atomMin | atomMax | atomAnd | atomOr | atomXor | atomXchg | atomCas =>
    exact sound_accLane (fun _ _ _ h => sound_atomBody h) h
  case recvD | recvW => exact sound_laneRecv h
  case sendD | sendW => exact sound_laneSend h
  case mmarD | mmarF | mmarBf | mmarHf | mmarE4 => exact sound_mmar h
  case copen => exact sound_accLane (fun _ _ _ h => sound_copenBody h) h
  case cadd => exact sound_accLane (fun _ _ _ h => sound_caddBody h) h
  case cflush | cclose | cread => exact sound_accLane (fun _ _ _ h => sound_recOpBody h) h
  case creplay => exact sound_accLane (fun _ _ _ h => sound_creplayBody h) h
  case addI64U | subI64U | mulI64U | mulhiN64U | minI64U | maxI64U | minN64U | maxN64U | andU | orU | xorU | andnU | shlN64U | shrN64U |
    shrI64U | movU | setpEqI64U | setpNeI64U | setpLtI64U | setpLeI64U | setpLtN64U | setpLeN64U | setpTstU | pandU | porU | pxorU |
    pandnU | pnotU | addI64ImmU | movcU | movcMU | movcHU | ujmp | ucall => exact sound_uniEff h
  case ldU => exact sound_accUni (fun _ _ _ h => sound_ldBody h) h
  case stU => exact sound_accUni (fun _ _ _ h => sound_stBody h) h
  case ldeU => exact sound_accUni (fun _ _ _ h => sound_ldeBody h) h
  case pfU => exact sound_accUni (fun _ _ _ h => sound_pfBody h) h
  case ujmpr | ucallr | uret => exact sound_uniJump h
  case bar => exact sound_execBar h
  case tbar => exact sound_execTbar h
  case claim => exact sound_accUni (fun _ _ _ h => sound_claimBody h) h
  case rdv => exact sound_execRdv h
  case fence => exact sound_execFence h
  case waith => exact sound_execWaith h
  case sendU => exact sound_accUni (fun _ _ _ h => sound_sendBody h) h
  case recvU => exact sound_accUni (fun _ _ _ h => sound_recvBody h) h
  case launch => exact sound_accUni (fun _ _ _ h => sound_launchBody h) h
  case waitl => exact sound_execWaitl h
  case fork => exact sound_accUni (fun _ _ _ h => sound_forkBody h) h
  case bpub => exact sound_execBpub h
  case bfloor => exact sound_execBfloor h
  case gang => exact sound_execGang h
  case mmasD | mmasF | mmasBf | mmasHf | mmasE4 => exact sound_mmas h
  case accrel => exact sound_accUni (fun _ _ _ h => sound_accrelBody h) h
  case trap => exact sound_uni (fun _ _ _ h => sound_trapGroup h) h
  case rett => exact sound_uniP (fun _ _ _ h => sound_returnFromTrap h) h
  case rdsys => exact sound_uniP (fun _ _ _ h => sound_uniCommit (Sound.ite (sound_writeSys h) h)) h
  case wrsys => exact sound_uniP (fun _ _ _ h => sound_uniCommit (sound_writeSys h)) h
  case unop => exact sound_uni (fun _ _ _ h => sound_passGroup h) h
  case gadd | gsub | gand | gor | gxor | gshl | gshr | gmin | gmax | gmul | ghash => exact sound_gloss2 h
  case gmovi | gaddi | gandi | gshli | gshri => exact sound_glossD h
  case gld | gst | gbr | ghist | gcms | ghll | gend => exact sound_glossStep h
  case gbeq | gbne | gblt | gbge => exact sound_glossBr h
  case gfire => exact sound_execGfire h
  case loadCompletion => exact sound_execLoadCompletion h
  case atomicPerform => exact sound_execAtomicPerform h
  case editionLookup => exact sound_execEditionLookup h
  case queueReceiveCompletion => exact sound_execQueueReceiveCompletion h
  case channelReceiveCompletion => exact sound_execChannelReceiveCompletion h
  case messageDelivery => exact sound_execMessageDelivery h
  case launchRecordRead => exact sound_execLaunchRecordRead h
  case bpubAtBindery => exact sound_execBpubAtBindery h
  case bfloorAtHome => exact sound_execBfloorAtHome h
  case claimPageMove => exact sound_execClaimPageMove h
  case copyBeat => exact sound_execCopyBeat h
  case copyEnd => exact sound_execCopyEnd h
  case forkStart => exact sound_execForkStart h
  case accessProgramRequest => exact sound_execAccessProgramRequest h
  case accessProgramReturn => exact sound_execAccessProgramReturn h
  case matrixCompletion => exact sound_execMatrixCompletion h
  case mmasKStep => exact sound_execMmasKStep h
  case recordOperationArrival => exact sound_execRecordOperationArrival h
  case regrouping => exact Sound.ite (sound_regroup (sound_refreshQuarter h)) h
  case barrierArrivalBit => exact sound_execBarrierArrivalBit h
  case l1WriteBackBound => exact sound_execL1WriteBackBound h
  case combiningBufferDrain => exact sound_drainEntry h
  case distributorPlacement => exact sound_execDistributorPlacement h
  case sliceEnd => exact sound_execSliceEnd h
  case renderContextSwitch => exact sound_execRenderContextSwitch h
  case completionEntryWrite => exact sound_execCompletionEntryWrite h
  case hqTailWrite => exact sound_execHqTailWrite h
  case vdevApply => exact sound_execVdevApply h
  case rctxApply => exact sound_execRctxApply h
  case counterPublish => exact Sound.fold (fun _ _ h => sound_publish h) h
  case pageWalk => exact sound_lookup h
  case faultRecordPost => exact sound_execFaultRecordPost h
  case fqDoneRetry => exact sound_execFqDoneRetry h
  case fqDoneDeny => exact sound_execFqDoneDeny h
  case invalidation => exact sound_execInvalidation h
  case regionCreate => exact Sound.ite (sound_createRegion h) h
  case regionReread => exact Sound.ite (sound_rereadRegion h) h
  case regionDestroy => exact Sound.ite (sound_destroyRegion h) h
  case binderyWrite => exact sound_execBinderyWrite h
  case backgroundSubblockCopy => exact sound_execBackgroundSubblockCopy h
  case reclaimWalk => exact sound_execReclaimWalk h
  case directoryRead => exact sound_dirRead h
  case directoryWrite => exact sound_dirWrite h
  case directoryWriteBack => exact sound_dirWriteBack h
  case evictionNotice => exact sound_dirEvict h
  case memSplitWrite => exact sound_execMemSplitWrite h
  case routeWrite => exact sound_execRouteWrite h
  case linkDown => exact sound_linkGoesDown h
  case glossEventOffer => exact sound_offerEvent h
  case glossSlot => exact sound_execGlossSlot h
  case glossBudgetWindow => exact sound_execGlossBudgetWindow h
  case glossApplyTenant => exact sound_applyTenant h
  case glossAttach => exact sound_attach h
  case glossDetach => exact sound_execGlossDetach h
  case glossDrain => exact sound_execGlossDrain h
  case drainWordRead => exact sound_execDrainWordRead h
  case linkTraining => exact sound_execLinkTraining h
  case ualinkInboundRequest => exact Sound.ite h (Sound.ite (sound_serve h) (sound_reply h))
  case peerAcknowledgement => exact sound_execPeerAcknowledgement h
  case ualinkMessageArrival => exact sound_execUalinkMessageArrival h
  case haloCommand => exact sound_execHaloCommand h
  case haloFaceArrival => exact Sound.ite h (Sound.ite (sound_peerError h) (Sound.ite (sound_addFace h) h))
  case allReduceCommand => exact sound_execAllReduceCommand h
  case engineCompletion => exact sound_execEngineCompletion h
  case functionLevelReset => exact sound_execFunctionLevelReset h
  case coreRetirement => exact sound_execCoreRetirement h
  case marginPlan => exact sound_execMarginPlan h
  case auditFlitSend => exact sound_execAuditFlitSend h
  case auditFlitReceive => exact sound_execAuditFlitReceive h
  case laneGroupFailure => exact sound_loseLane h
  case softError => exact sound_logError (Sound.ite h (sound_uncorrectable h))
  case patrolScrub => exact h
  case checkpointSave => exact sound_execCheckpointSave h
  case checkpointRestore => exact sound_execCheckpointRestore h
  case moduleReset => exact sound_execModuleReset h
  case keyLoad => exact sound_execKeyLoad h
  case keyClear => exact sound_execKeyClear h
  case spdmRequest => exact sound_execSpdmRequest h
  case pldmMonitoring => exact sound_execPldmMonitoring h
  case pldmFirmwareUpdate => exact sound_execPldmFirmwareUpdate h
  case powerManagerUpdate => exact sound_execPowerManagerUpdate h
  case powerLimitWrite => exact sound_execPowerLimitWrite h
  case thermalCap => exact sound_execThermalCap h
  case thermalShutdown => exact Sound.ite (sound_stopHot (sound_takeTemp h)) h
  case registerWrite => exact sound_execRegisterWrite h
  case issueCycle => exact sound_execIssueCycle h
  case creplayCompletion => exact sound_execCreplayCompletion h
  case flitReplay => exact sound_execFlitReplay h
  case ualinkPortDown => exact sound_execUalinkPortDown h
  case hostIngressAccess => exact sound_execHostIngressAccess h
  case peerDrainTimeout => exact sound_execPeerDrainTimeout h
  case mainSideOff => exact sound_execMainSideOff h

theorem sound_illegalWords {ws : List (BitVec 32)} (h : Sound s) : SoundOut (illegalWords ws s) :=
  SoundOut.ite (sound_converge (fun _ h => sound_trapGroup h) h) (sound_illegalLane h)

theorem sound_issueBundle (h : Sound s) : SoundOut (issueBundle s) := by
  have h' : Sound { s with sel := {} } := h.update
  dsimp only [issueBundle]
  split
  · exact h'
  · split
    · exact sound_fetchTrap (Sound.snd ‹_› (sound_fetchInstr h'))
    · have hf := Sound.snd ‹_› (sound_fetchInstr h')
      refine sound_fetchAbsent (Sound.fold (fun _ _ h => ?_) hf)
      exact h.update
    · have hf := Sound.snd ‹_› (sound_fetchInstr h')
      split
      · exact sound_exec ((sound_clearTgt hf).update)
      · exact sound_illegalWords ((sound_clearTgt hf).update)

theorem sound_issueGloss {die : Nat} (h : Sound s) : SoundOut (issueGloss die s) := by
  unfold issueGloss
  split
  · exact sound_exec h
  · exact sound_glossStep h

theorem sound_haltedStep (h : Sound s) : SoundOut (haltedStep s) := by
  unfold haltedStep
  split
  · exact SoundOut.ite (sound_exec (h.update)) trivial
  · trivial

theorem sound_reissueAll (h : Sound s) : Sound (reissueAll s) := Sound.fold (fun _ _ h => sound_reissue h) h
theorem sound_reportAll (h : Sound s) : Sound (reportAll s) := Sound.fold (fun _ _ h => sound_settleReport h) h

theorem sound_afterStep (h : Sound s) : Sound (afterStep s) :=
  sound_reportAll (sound_reissueAll (Sound.fold (fun _ _ h => sound_wakeTeam h) h))

theorem sound_after {o : Out} (h : SoundOut o) : SoundOut (after o) := by
  cases o with
  | next t => exact sound_afterStep h
  | fault r => trivial
  | refused r => trivial

theorem sound_opStep {o : Op} (h : Sound s) : SoundOut (opStep s o) := by
  dsimp only [opStep]
  split
  · exact sound_execLoadCompletion h
  · exact sound_execAtomicPerform h
  · exact sound_execEditionLookup h
  · exact sound_execBinderyWrite h
  · exact sound_execQueueReceiveCompletion h
  · exact sound_execChannelReceiveCompletion h
  · exact sound_execMessageDelivery h
  · exact sound_execMessageDelivery h
  · exact sound_execLaunchRecordRead h
  · exact sound_execBpubAtBindery h
  · exact sound_execBfloorAtHome h
  · exact sound_execClaimPageMove h
  · exact SoundOut.ite (sound_execCopyEnd h) (sound_execCopyBeat h)
  · exact sound_execForkStart h
  · exact sound_execAccessProgramReturn h
  · exact sound_execMatrixCompletion h
  · exact sound_execMmasKStep h
  · exact sound_execRecordOperationArrival h
  · exact sound_execCreplayCompletion h
  · exact sound_execDrainWordRead h
  · exact h
  · exact h
  · exact h

theorem sound_firstOf {α : Type} {run : α → State → Out} {moved : α → State → State → Bool} {l : List α} (hr : ∀ a, SoundOut (run a s)) :
    SoundSome (firstOf run moved s l) := by
  induction l with
  | nil => trivial
  | cons a l ih =>
    unfold firstOf
    split
    · rename_i e
      exact SoundSome.ite (SoundOut.next e (hr a)) ih
    · exact ih

theorem sound_findSome {l : List (Option State)} (h : ∀ o ∈ l, SoundSome o) : SoundSome (l.findSome? id) := by
  cases e : l.findSome? id with
  | none => trivial
  | some t =>
    obtain ⟨o, ho, rfl⟩ := List.exists_of_findSome?_eq_some e
    exact h _ ho

theorem sound_nextOp (h : Sound s) : SoundSome (nextOp s) := sound_firstOf (fun _ => sound_opStep h)
theorem sound_nextProg (h : Sound s) : SoundSome (nextProg s) := sound_firstOf (fun _ => sound_execAccessProgramRequest h)

theorem sound_nextHost (h : Sound s) : SoundSome (nextHost s) := by
  refine sound_findSome fun o ho => ?_
  simp only [List.mem_cons, List.not_mem_nil, or_false] at ho
  rcases ho with rfl | rfl | rfl | rfl | rfl | rfl | rfl | rfl | rfl | rfl
  · exact sound_firstOf fun _ => sound_execCompletionEntryWrite h
  · exact sound_firstOf fun _ => sound_execFaultRecordPost h
  · exact sound_firstOf fun _ => sound_execBarrierArrivalBit h
  · exact sound_firstOf fun _ => sound_execInvalidation h
  · exact sound_firstOf fun _ => sound_execFunctionLevelReset h
  · exact sound_firstOf fun _ => sound_execCoreRetirement h
  · exact sound_firstOf fun _ => sound_execKeyLoad h
  · exact sound_firstOf fun _ => sound_execKeyClear h
  · exact sound_firstOf fun _ => sound_execCheckpointSave h
  · exact sound_firstOf fun _ => sound_execCheckpointRestore h

theorem sound_nextEngine (h : Sound s) : SoundSome (nextEngine s) := by
  refine sound_findSome fun o ho => ?_
  simp only [List.mem_cons, List.not_mem_nil, or_false] at ho
  rcases ho with rfl | rfl | rfl | rfl
  · exact sound_firstOf fun _ => sound_execEngineCompletion h
  · exact sound_firstOf fun _ => sound_execEngineCompletion h
  · exact sound_firstOf fun _ => sound_execHaloCommand h
  · exact sound_firstOf fun _ => sound_execAllReduceCommand h

theorem sound_nextPlace (h : Sound s) : SoundSome (nextPlace s) := sound_firstOf (fun _ => sound_execDistributorPlacement h)

theorem sound_nextBackground (h : Sound s) : SoundSome (nextBackground s) := by
  unfold nextBackground
  generalize e : firstOf _ _ s (tkeys s.bd.current) = o
  cases o with
  | none => exact sound_firstOf fun _ => sound_execReclaimWalk h
  | some t => exact SoundSome.of_eq e (sound_firstOf fun _ => sound_execBackgroundSubblockCopy h)

theorem sound_ageCaches (h : Sound s) : Sound (ageCaches s) :=
  Sound.fold (fun _ _ h => sound_flushLine h) (Sound.fold (fun _ _ h => sound_drainEntry h) h)

theorem sound_onTime (h : Sound s) : SoundOut (onTime s) := by
  dsimp only [onTime]
  split
  · exact sound_execGlossBudgetWindow h
  · exact sound_execSliceEnd h
  · exact sound_execRenderContextSwitch h

theorem sound_oneTurn (h : Sound s) : SoundOut (oneTurn s) := by
  dsimp only [oneTurn]
  refine SoundOut.ite (sound_onTime (sound_ageCaches h.update)) (SoundOut.ite (SoundSome.getD (sound_nextBackground h.update) h.update) ?_)
  split
  · exact sound_execIssueCycle h.update
  · split
    · exact sound_execGlossSlot h.update
    · exact h.update

theorem sound_defaultStep (h : Sound s) : SoundOut (defaultStep s) := by
  unfold defaultStep
  split
  · refine SoundSome.of_eq ‹_› (sound_findSome fun o ho => ?_)
    simp only [List.mem_cons, List.not_mem_nil, or_false] at ho
    rcases ho with rfl | rfl | rfl | rfl
    · exact sound_nextOp h
    · exact sound_nextProg h
    · exact sound_nextHost h
    · exact sound_nextEngine h
  · refine SoundOut.ite (h.update) ?_
    split
    · exact SoundSome.of_eq ‹_› (sound_nextPlace h)
    · exact sound_oneTurn h

theorem sound_advanceOnce (h : Sound s) : SoundOut (advanceOnce s) := by
  unfold advanceOnce
  split
  · exact sound_issueGloss h
  · refine SoundOut.ite (sound_issueBundle h) ?_
    split
    · exact sound_exec (h.update)
    · exact sound_defaultStep h

theorem soundOut_step (h : Sound s) : SoundOut (step s) :=
  SoundOut.ite (sound_after (sound_haltedStep h)) (sound_after (sound_advanceOnce h))

end Sys2Proof.Machine
end

namespace Sys2Proof.Machine

/-- Settles O60: each function that a step runs keeps soundness, by the lemma of its name. -/
theorem stepKeepsSound : Obligations.StepKeepsSound :=
  fun _ _ h e => SoundOut.next e (soundOut_step h)

end Sys2Proof.Machine

section
/-! PROOFS. The Gloss set (R336, R338 to R341): what one instruction leaves of the run, and the values it writes. -/

namespace Sys2Proof.Machine

/-! ## One instruction of a run -/

@[simp] theorem att_setG (d : BitVec 4) (x : BitVec 32) (u : GUnit) : (setG d x u).att = u.att := by
  unfold setG
  split <;> rfl
@[simp] theorem att_winSet (o : Nat) (i x : BitVec 32) (u : GUnit) : (winSet o i x u).att = u.att := rfl
@[simp] theorem att_spent (u : GUnit) (r : GRun) : (spent u r).att = u.att := rfl

theorem lenOf_att {u v : GUnit} (h : u.att = v.att) (k : Nat) : lenOf u k = lenOf v k := by
  unfold lenOf
  rw [h]

section
variable {s : State} {die : Nat} {r : GRun} {f : GRun → GUnit → GUnit × Option Nat} {v : GUnit}

/-- An instruction with a next word goes on there, or ends the run past the last one. -/
theorem glossStep_goes (h : GlossRuns s die r) {pc : Nat} (hf : f r (spent (getUnit s die) r) = (v, .some pc))
    (ha : v.att = (getUnit s die).att) : glossStep f s = .next (glossGo s die r v pc) := by
  obtain ⟨hsel, hrun⟩ := h
  simp only [spent, hrun] at hf
  simp only [glossStep, hsel, hrun, hf, glossGo, lenOf_att ha]
  split <;> rfl

/-- An instruction without a next word ends the run. -/
theorem glossStep_ends (h : GlossRuns s die r) (hf : f r (spent (getUnit s die) r) = (v, .none)) :
    glossStep f s = .next { setUnit die (endRun r.k v) s with gsel := .none } := by
  obtain ⟨hsel, hrun⟩ := h
  simp only [spent, hrun] at hf
  simp only [glossStep, hsel, hrun, hf]

theorem glossD_goes (h : GlossRuns s die r) (d : BitVec 4) {f : GUnit → BitVec 32} {x : BitVec 32}
    (hx : f (spent (getUnit s die) r) = x) :
    glossD d f s = .next (glossGo s die r (setG d x (spent (getUnit s die) r)) (r.pc + 1)) := by
  subst hx
  exact glossStep_goes h rfl (by simp)
end

/-! ## Values (R336) -/

theorem glossAdd_eq (x y : BitVec 32) : x + y = BitVec.ofNat 32 (x.toNat + y.toNat) := by
  rw [BitVec.ofNat_add, BitVec.ofNat_toNat, BitVec.ofNat_toNat, BitVec.setWidth_eq, BitVec.setWidth_eq]

theorem glossMul_eq (x y : BitVec 32) : x * y = BitVec.ofNat 32 (x.toNat * y.toNat) := by
  rw [BitVec.ofNat_mul, BitVec.ofNat_toNat, BitVec.ofNat_toNat, BitVec.setWidth_eq, BitVec.setWidth_eq]

theorem glossAddInt_eq (x : BitVec 32) (i : Int) : x + BitVec.ofInt 32 i = BitVec.ofInt 32 (x.toNat + i) := by
  rw [BitVec.ofInt_add, BitVec.ofInt_natCast, BitVec.ofNat_toNat, BitVec.setWidth_eq]

theorem glossSub_eq (x y : BitVec 32) : x - y = BitVec.ofInt 32 (x.toNat - y.toNat) := by
  rw [Int.sub_eq_add_neg, ← glossAddInt_eq, BitVec.ofInt_neg, BitVec.ofInt_natCast, BitVec.ofNat_toNat, BitVec.setWidth_eq,
    BitVec.sub_eq_add_neg]

theorem glossMin_eq (x y : BitVec 32) : (if x.ult y then x else y) = BitVec.ofNat 32 (min x.toNat y.toNat) := by
  apply BitVec.eq_of_toNat_eq
  rw [BitVec.toNat_ofNat, Nat.mod_eq_of_lt (by omega)]
  simp only [BitVec.ult, decide_eq_true_eq]
  split <;> omega

theorem glossMax_eq (x y : BitVec 32) : (if x.ult y then y else x) = BitVec.ofNat 32 (max x.toNat y.toNat) := by
  apply BitVec.eq_of_toNat_eq
  rw [BitVec.toNat_ofNat, Nat.mod_eq_of_lt (by omega)]
  simp only [BitVec.ult, decide_eq_true_eq]
  split <;> omega

theorem glossShl_eq (x : BitVec 32) (n : Nat) : x <<< n = BitVec.ofNat 32 (x.toNat * 2 ^ n) := by
  apply BitVec.eq_of_toNat_eq
  rw [BitVec.toNat_shiftLeft, BitVec.toNat_ofNat, Nat.shiftLeft_eq]

theorem glossShr_eq (x : BitVec 32) (n : Nat) : x >>> n = BitVec.ofNat 32 (x.toNat / 2 ^ n) := by
  apply BitVec.eq_of_toNat_eq
  rw [BitVec.toNat_ushiftRight, BitVec.toNat_ofNat, Nat.shiftRight_eq_div_pow, Nat.mod_eq_of_lt]
  exact Nat.lt_of_le_of_lt (Nat.div_le_self ..) x.isLt

theorem glossAnd_eq (x : BitVec 32) (i : BitVec 18) : x &&& i.setWidth 32 = BitVec.ofNat 32 (x.toNat &&& i.toNat) := by
  apply BitVec.eq_of_toNat_eq
  have hi : i.toNat < 2 ^ 32 := Nat.lt_trans i.isLt (by decide)
  rw [BitVec.toNat_and, BitVec.toNat_setWidth, BitVec.toNat_ofNat, Nat.mod_eq_of_lt hi,
    Nat.mod_eq_of_lt (Nat.lt_of_le_of_lt Nat.and_le_left x.isLt)]

theorem glossTwo_goes {s : State} {die : Nat} {r : GRun} (h : GlossRuns s die r)
    {e : (BitVec 4 → BitVec 4 → BitVec 4 → Instr) × (BitVec 32 → BitVec 32 → BitVec 32)} (he : e ∈ glossTwo) (d a b : BitVec 4) :
    exec (e.1 d a b) s = .next (glossGo s die r
      (setG d (e.2 (gReg (spent (getUnit s die) r) a) (gReg (spent (getUnit s die) r) b)) (spent (getUnit s die) r)) (r.pc + 1)) := by
  simp only [glossTwo, List.mem_cons, List.not_mem_nil, or_false] at he
  rcases he with rfl | rfl | rfl | rfl | rfl | rfl | rfl | rfl | rfl | rfl <;>
    dsimp only [exec, execGadd, execGsub, execGand, execGor, execGxor, execGshl, execGshr, execGmin, execGmax,
      execGmul, gloss2]
  · exact glossD_goes h d (glossAdd_eq _ _)
  · exact glossD_goes h d (glossSub_eq _ _)
  · exact glossD_goes h d rfl
  · exact glossD_goes h d rfl
  · exact glossD_goes h d rfl
  · exact glossD_goes h d (by rw [glossShl_eq])
  · exact glossD_goes h d (by rw [glossShr_eq])
  · exact glossD_goes h d (glossMin_eq _ _)
  · exact glossD_goes h d (glossMax_eq _ _)
  · exact glossD_goes h d (glossMul_eq _ _)

theorem glossImm_goes {s : State} {die : Nat} {r : GRun} (h : GlossRuns s die r)
    {e : (BitVec 4 → BitVec 4 → BitVec 18 → Instr) × (BitVec 32 → BitVec 18 → BitVec 32)} (he : e ∈ glossImm) (d a : BitVec 4)
    (i : BitVec 18) :
    exec (e.1 d a i) s = .next (glossGo s die r
      (setG d (e.2 (gReg (spent (getUnit s die) r) a) i) (spent (getUnit s die) r)) (r.pc + 1)) := by
  simp only [glossImm, List.mem_cons, List.not_mem_nil, or_false] at he
  rcases he with rfl | rfl | rfl | rfl <;> dsimp only [exec, execGaddi, execGandi, execGshli, execGshri]
  · exact glossD_goes h d (glossAddInt_eq _ _)
  · exact glossD_goes h d (glossAnd_eq _ _)
  · refine glossD_goes h d ?_
    rw [glossShl_eq]
  · refine glossD_goes h d ?_
    split
    case isTrue hi => exact BitVec.ushiftRight_eq_zero hi
    case isFalse => exact glossShr_eq _ _

/-- Settles O33: every form goes on with its value, which the rule gives as a number. -/
theorem glossArithmeticResults : Obligations.GlossArithmeticResults := by
  intro s die r u hr hu
  subst hu
  refine ⟨fun e he d a b => glossTwo_goes hr he d a b, fun e he d a i => glossImm_goes hr he d a i, fun d i => ?_, fun d a b => ?_⟩
  · dsimp only [exec, execGmovi]
    exact glossD_goes hr d rfl
  · dsimp only [exec, execGhash, gloss2]
    exact glossD_goes hr d rfl

end Sys2Proof.Machine
end

section
/-! PROOFS. Memory, branches, sketches and triggers of the Gloss set (R336, R338 to R341). -/

namespace Sys2Proof.Machine

theorem heldIn_eq {lo hi : Nat} (h : lo ≤ hi) (x : Nat) : heldIn lo hi x = max lo (min hi x) := by
  unfold heldIn
  split
  · omega
  · split <;> omega

theorem ownerOf_spent (u : GUnit) (r : GRun) (k : Nat) : ownerOf (spent u r) k = ownerOf u k := rfl

/-! ## Sketches (R339) -/

/-- One row of `gcms` after another, each in the window that the earlier ones leave. -/
theorem cmsRows_eq (o : Nat) (x y : BitVec 32) (k : Nat) (rows : List Nat) (u : GUnit) (m : BitVec 32) :
    rows.foldl (fun (acc : GUnit × BitVec 32) row =>
      let i := y + 1 + BitVec.ofNat 32 (row * 2 ^ k + (glossHash x (BitVec.ofNat 32 row)).toNat % 2 ^ k)
      let w := satInc (winGet acc.1 o i)
      (winSet o i w acc.1, if w.ult acc.2 then w else acc.2)) (u, m) = cmsRows o x y k rows u m := by
  induction rows generalizing u m with
  | nil => rfl
  | cons row rows ih =>
    rw [List.foldl_cons, ih, cmsRows]
    simp only [BitVec.ult, decide_eq_true_eq]

theorem att_cmsRows (o : Nat) (x y : BitVec 32) (k : Nat) (rows : List Nat) (u : GUnit) (m : BitVec 32) :
    (cmsRows o x y k rows u m).1.att = u.att := by
  induction rows generalizing u m with
  | nil => rfl
  | cons row rows ih => rw [cmsRows, ih, att_winSet]

/-- The two outcomes of `ghll` go on at the same word. -/
theorem ite_pair {α β : Type} {p : Prop} [Decidable p] (a b : α) (c : β) : (if p then (a, c) else (b, c)) = (if p then a else b, c) := by
  split <;> rfl

/-! ## Branches (R336) -/

theorem glossBr_goes {s : State} {die : Nat} {r : GRun} (h : GlossRuns s die r) (a b : BitVec 4) (t : BitVec 6)
    (c : BitVec 32 → BitVec 32 → Bool) :
    glossBr a b t c s = .next (glossGo s die r (spent (getUnit s die) r)
      (if c (gReg (spent (getUnit s die) r) a) (gReg (spent (getUnit s die) r) b) then r.pc + t.toNat else r.pc + 1)) :=
  glossStep_goes h rfl rfl

/-- The four conditions, as the rule compares numbers. -/
theorem glossBranches_goes {s : State} {die : Nat} {r : GRun} (h : GlossRuns s die r)
    {e : (BitVec 4 → BitVec 4 → BitVec 6 → Instr) × (BitVec 32 → BitVec 32 → Prop)} (he : e ∈ glossBranches) (a b : BitVec 4)
    (t : BitVec 6) :
    ∃ c : Bool, (c = true ↔ e.2 (gReg (spent (getUnit s die) r) a) (gReg (spent (getUnit s die) r) b)) ∧
      exec (e.1 a b t) s = .next (glossGo s die r (spent (getUnit s die) r) (if c then r.pc + t.toNat else r.pc + 1)) := by
  simp only [glossBranches, List.mem_cons, List.not_mem_nil, or_false] at he
  rcases he with rfl | rfl | rfl | rfl <;> dsimp only [exec, execGbeq, execGbne, execGblt, execGbge]
  · exact ⟨_, beq_iff_eq, glossBr_goes h a b t _⟩
  · exact ⟨_, bne_iff_ne, glossBr_goes h a b t _⟩
  · exact ⟨_, by rw [BitVec.ult, decide_eq_true_eq], glossBr_goes h a b t _⟩
  · exact ⟨_, by rw [BitVec.ult, ← decide_not, decide_eq_true_eq, Nat.not_lt], glossBr_goes h a b t _⟩

/-! ## Triggers (R341) -/

@[simp] theorem getUnit_setUnit_same (die : Nat) (u : GUnit) (s : State) : getUnit (setUnit die u s) die = u :=
  tget_tset_same ..

/-- The unit once `gfire` has recorded its value. -/
def firedUnit (u : GUnit) (o i : Nat) (x : BitVec 32) : GUnit := { u with fired := tset 0 (o * 16 + i) x u.fired }

/-- The unit once a fire drop of an attachment is counted. -/
def droppedUnit (u : GUnit) (k : Nat) : GUnit := { u with fire := tset 0 k (tget 0 k u.fire + 1) u.fire }

/-- The unit once a trigger is delivered: disarmed where it fires once, with the token of an appended launch. -/
def deliveredUnit (u : GUnit) (o i tok : Nat) (y : Trig) : GUnit :=
  { u with disarmed := if y.once then tset false (o * 16 + i) true u.disarmed else u.disarmed
           trigTok := if y.kind = 3 then tset 0 (o * 16 + i) tok u.trigTok else u.trigTok }

/-- The run goes on from a unit that the instruction has already changed. -/
theorem glossStep_setUnit {s : State} {die : Nat} {r : GRun} {w : GUnit} (hsel : s.gsel = .some die) (hrun : w.run = .some r) :
    glossStep (fun r u => (u, .some (r.pc + 1))) (setUnit die w s) = .next (glossGo (setUnit die w s) die r (spent w r) (r.pc + 1)) := by
  have h : GlossRuns (setUnit die w s) die r := ⟨hsel, by rw [getUnit_setUnit_same, hrun]⟩
  have hf := glossStep_goes h (f := fun r u => (u, .some (r.pc + 1))) rfl rfl
  rwa [getUnit_setUnit_same] at hf

theorem gsel_deliver {o k i : Nat} {y : Trig} {x : BitVec 32} {s : State} {p : State × Nat} (h : deliver o k i y x s = .some p) :
    p.1.gsel = s.gsel := by
  unfold deliver at h
  split at h
  · cases h; rfl
  · split at h
    · cases h
    · dsimp only at h
      split at h
      · cases h
      · split at h
        · cases h
        · cases h; rfl
  · dsimp only at h
    split at h
    · cases h
    · cases h; rfl
  · cases h

section
variable {s : State} {die : Nat} {r : GRun} (h : GlossRuns s die r) {u : GUnit} (hu : u = getUnit s die) {o : Nat} (ho : o = ownerOf u r.k)
include h hu ho

/-- No trigger is set up, it is disarmed, or it cannot be delivered: a drop is counted. -/
theorem execGfire_drops (a t : BitVec 4)
    (hno : ∀ x y, tget .none o u.ten = .some x → x.trigs[t.toNat]? = .some y →
      tget false (o * 16 + t.toNat) u.disarmed = true ∨ deliver o r.k t.toNat y (gReg u a) s = .none) :
    exec (.gfire a t) s =
      glossStep (fun r u => (u, .some (r.pc + 1))) (setUnit die (droppedUnit (firedUnit u o t.toNat (gReg u a)) r.k) s) := by
  obtain ⟨hsel, hrun⟩ := h
  subst hu ho
  dsimp only [exec, execGfire, droppedUnit, firedUnit]
  simp only [hsel, hrun]
  cases hx : tget .none (ownerOf (getUnit s die) r.k) (getUnit s die).ten with
  | none => rfl
  | some x =>
    dsimp only
    cases hy : x.trigs[t.toNat]? with
    | none => rfl
    | some y =>
      rcases hno x y hx hy with hd | hd
      · simp only [hd, if_true]
      · simp only [hd, Option.map_none, ite_self]

/-- A trigger that can be delivered is. -/
theorem execGfire_delivers (a t : BitVec 4) {x : Ten} {y : Trig} {p : State × Nat} (hx : tget .none o u.ten = .some x)
    (hy : x.trigs[t.toNat]? = .some y) (harm : tget false (o * 16 + t.toNat) u.disarmed = false)
    (hp : deliver o r.k t.toNat y (gReg u a) s = .some p) :
    exec (.gfire a t) s =
      glossStep (fun r u => (u, .some (r.pc + 1)))
        (setUnit die (deliveredUnit (firedUnit u o t.toNat (gReg u a)) o t.toNat p.2 y) p.1) := by
  obtain ⟨hsel, hrun⟩ := h
  subst hu ho
  dsimp only [exec, execGfire, deliveredUnit, firedUnit]
  simp only [hsel, hrun, hx, hy, harm, hp, Option.map_some, Bool.false_eq_true, if_false]
end

section
variable {o k i : Nat} {y : Trig} {x : BitVec 32} {s : State}

theorem deliver_kind0 (h : y.kind = 0) : deliver o k i y x s = .none := by
  simp only [deliver, h]

theorem deliver_irq (h : y.kind = 1) :
    deliver o k i y x s = .some ({ s with hs := { s.hs with irq := s.hs.irq ++ [(o, 8 + y.sel)] } }, 0) := by
  simp only [deliver, h]

theorem deliver_box_unknown (h : y.kind = 2) (hg : hostGrid s o (y.target % 2 ^ 32) = .none) : deliver o k i y x s = .none := by
  unfold deliver
  rw [h]
  simp only [hg]

theorem deliver_box_full (h : y.kind = 2) {g : Nat} (hg : hostGrid s o (y.target % 2 ^ 32) = .some g)
    (hfull : (getGrid s g).lr.teams ≤ y.team ∨ 64 ≤ y.sel ∨ (teamOrQueued s (teamKey g y.team)).st = .ended ∨
      8 ≤ (tget [] y.sel (teamOrQueued s (teamKey g y.team)).boxes).length) : deliver o k i y x s = .none := by
  unfold deliver
  rw [h]
  simp only [hg]
  split
  · rfl
  · rw [if_pos (by tauto)]

theorem deliver_box (h : y.kind = 2) {g : Nat} (hg : hostGrid s o (y.target % 2 ^ 32) = .some g) (ht : y.team < (getGrid s g).lr.teams)
    (hb : y.sel < 64) {n : Nat} {z : Team} (hn : n = teamKey g y.team) (hz : z = teamOrQueued s n) (hst : z.st ≠ .ended)
    (hlen : (tget [] y.sel z.boxes).length < 8) :
    deliver o k i y x s = .some (setTeam n
      { z with boxes := tset [] y.sel (tget [] y.sel z.boxes ++ [⟨bytesOf 8 (x.toNat + k * 2 ^ 32), []⟩]) z.boxes } s, 0) := by
  subst hz hn
  unfold deliver
  rw [h]
  simp only [hg]
  rw [if_neg (by omega), if_neg (by simp only [hst, false_or]; omega)]

theorem deliver_launch_refused (h : y.kind = 3)
    (hbad : enabledV s o = false ∨ recordOutside s o y.target = true ∨ 4 ≤ y.sel ∨ recordOk (pread s y.target 256) = false ∨
      pbad s y.target 256 = true ∨ 256 ≤ (tget [] (o * 4 + y.sel) s.vs.hostq).length) : deliver o k i y x s = .none := by
  unfold deliver
  rw [h]
  exact if_pos hbad

theorem deliver_launch (h : y.kind = 3) (hen : enabledV s o = true) (hin : recordOutside s o y.target = false) (hsel : y.sel < 4)
    (hok : recordOk (pread s y.target 256) = true) (hmark : pbad s y.target 256 = false)
    (hlen : (tget [] (o * 4 + y.sel) s.vs.hostq).length < 256) :
    ∃ v, deliver o k i y x s = .some (v, nextHostTok s o) ∧ tget [] (o * 4 + y.sel) v.vs.hostq =
      tget [] (o * 4 + y.sel) s.vs.hostq ++
        [({ lr := { parseRecord (pread s y.target 256) with arg := x.setWidth 64 }, tok := nextHostTok s o,
            dep := (parseRecord (pread s y.target 256)).dep, trig := .some i } : QItem)] := by
  unfold deliver
  rw [h]
  dsimp only
  rw [if_neg (by simp only [hen, hin, hok, hmark]; simp; omega)]
  exact ⟨_, rfl, tget_tset_same ..⟩
end

/-- Settles O34: each form is one step of the run with its effect on the unit; `gfire` steps the run after the delivery or the drop. -/
theorem glossMemoryBranchesAndTriggers : Obligations.GlossMemoryBranchesAndTriggers := by
  intro s die r u o hr hu ho
  subst hu ho
  refine ⟨fun d a i => ?gld, fun d a i => ?gst, fun e he a b t => ?br, fun t => ?gbr, ?gend, fun d a b w hw => ?ghist,
    fun d a b k z hk hz => ?gcms, fun d a b p h rank i hp hh hrank hi => ?ghll, fun a t v hv => ⟨fun w hw hno => ?drop,
    fun x y w p hx hy harm hp hw => ?fire, fun y i x => ⟨deliver_kind0, deliver_irq, fun h => ⟨deliver_box_unknown h, ?box⟩, ?launch⟩⟩⟩
  case gld =>
    dsimp only [exec, execGld]
    exact glossStep_goes hr rfl (by simp)
  case gst =>
    dsimp only [exec, execGst]
    exact glossStep_goes hr rfl (by simp)
  case br =>
    obtain ⟨c, hc, e⟩ := glossBranches_goes hr he a b t
    refine ⟨fun h => ?_, fun h => ?_⟩
    · rw [e, if_pos (hc.mpr h)]
    · rw [e, if_neg (mt hc.mp h)]
  case gbr =>
    dsimp only [exec, execGbr]
    exact glossStep_goes hr rfl rfl
  case gend =>
    dsimp only [exec, execGend]
    exact glossStep_ends hr rfl
  case ghist =>
    subst hw
    dsimp only [exec, execGhist]
    exact glossStep_goes hr rfl (by simp)
  case gcms =>
    subst hk hz
    rw [← heldIn_eq (by decide), ← cmsRows_eq]
    dsimp only [exec, execGcms]
    refine glossStep_goes hr rfl ?_
    rw [att_setG, cmsRows_eq, att_cmsRows]
    rfl
  case ghll =>
    subst hi hrank hh hp
    rw [← heldIn_eq (by decide)]
    dsimp only [exec, execGhll]
    refine glossStep_goes hr (ite_pair ..) ?_
    rw [apply_ite GUnit.att, att_setG, att_setG, att_winSet, ite_self, att_spent]
  case drop =>
    subst hw hv
    exact (execGfire_drops hr rfl rfl a t hno).trans (glossStep_setUnit hr.selected hr.run)
  case fire =>
    subst hw hv
    exact (execGfire_delivers hr rfl rfl a t hx hy harm hp).trans (glossStep_setUnit ((gsel_deliver hp).trans hr.selected) hr.run)
  case box =>
    intro g n z hg hn hz
    refine ⟨fun hfull => ?_, fun ht hb hst hlen => deliver_box h hg ht hb hn hz hst hlen⟩
    subst hz hn
    exact deliver_box_full h hg hfull
  case launch =>
    intro h bs q hbs hq
    subst hbs hq
    exact ⟨deliver_launch_refused h, fun hen hin hsel hok hmark hlen => deliver_launch h hen hin hsel hok hmark hlen⟩

end Sys2Proof.Machine
end

section
/-! PROOFS. The Gloss units outside their programs (R325 to R328, R331 to R335): offers, slots, windows, drains, tenants, attachments. -/

namespace Sys2Proof.Machine

theorem getUnit_setUnit_ne {die d : Nat} (h : d ≠ die) (u : GUnit) (s : State) : getUnit (setUnit die u s) d = getUnit s d :=
  tget_tset_ne _ _ h _

theorem unitBecomes_setUnit (s : State) (die : Nat) (u : GUnit) : UnitBecomes s (setUnit die u s) die u :=
  ⟨getUnit_setUnit_same die u s, fun _ h => getUnit_setUnit_ne h u s, rfl, rfl, rfl, rfl⟩

/-! ## Offers (R326, R331, R333) -/

theorem attMatches_iff (e : GlossEvent) (a : Att) : attMatches e a = true ↔
    a.valid = true ∧ e.cls = a.cls ∧ e.asid &&& a.mask = a.asid &&& a.mask ∧ (a.owner = 64 ∨ e.cls = 10 ∨ e.vdev = a.owner) := by
  simp only [attMatches, Bool.and_eq_true, Bool.or_eq_true, decide_eq_true_eq, beq_iff_eq, and_assoc, or_assoc]

theorem formPair_skips {e : GlossEvent} {u : GUnit} {k : Nat} (h : ∀ a, ¬ Takes u e k a) (rst : Option Nat) : formPair e rst u k = u := by
  unfold formPair
  split
  · rfl
  · rename_i a ha
    rw [if_pos]
    rw [Bool.not_eq_true', ← Bool.not_eq_true, attMatches_iff]
    exact fun hm => h a ⟨ha, hm⟩

section
variable {e : GlossEvent} {u : GUnit} {k : Nat} {a : Att} (h : Takes u e k a)
include h

theorem formPair_suspended (rst : Option Nat) (hs : tget false a.owner u.susp = true) :
    formPair e rst u k = { u with budg := tset 0 k (tget 0 k u.budg + 1) u.budg } := by
  obtain ⟨ha, hm⟩ := h
  simp only [formPair, ha, (attMatches_iff e a).mpr hm, hs, Bool.not_true, Bool.false_eq_true, if_false, if_true]

theorem formPair_full {x : Ten} (hx : tget .none a.owner u.ten = .some x) (hs : tget false a.owner u.susp = false)
    (hq : x.quota ≤ queuedOf u a.owner) : formPair e .none u k = { u with fifo := tset 0 k (tget 0 k u.fifo + 1) u.fifo } := by
  obtain ⟨ha, hm⟩ := h
  simp only [formPair, ha, (attMatches_iff e a).mpr hm, hs, hx, Bool.not_true, Bool.false_eq_true, if_false]
  exact if_pos (.inr hq)

theorem formPair_queues {x : Ten} (hx : tget .none a.owner u.ten = .some x) (hs : tget false a.owner u.susp = false)
    (hq : queuedOf u a.owner < x.quota) : formPair e .none u k = { u with q := u.q ++ [⟨u.nextPair, e, k⟩], nextPair := u.nextPair + 1 } := by
  obtain ⟨ha, hm⟩ := h
  simp only [formPair, ha, (attMatches_iff e a).mpr hm, hs, hx, Bool.not_true, Bool.false_eq_true, if_false]
  exact if_neg (by simp only [reduceCtorEq, false_or]; omega)
end

theorem att_formPair (e : GlossEvent) (rst : Option Nat) (u : GUnit) (k : Nat) : (formPair e rst u k).att = u.att := by
  unfold formPair
  split
  · rfl
  · split
    · rfl
    · split <;> dsimp only <;> split
      · rfl
      · split <;> rfl
      · rfl
      · split <;> rfl

theorem foldl_formPair_skips {e : GlossEvent} {u : GUnit} {ks : List Nat} (h : ∀ k ∈ ks, ∀ a, ¬ Takes u e k a) (rst : Option Nat) :
    ks.foldl (formPair e rst) u = u := by
  induction ks with
  | nil => rfl
  | cons k ks ih =>
    rw [List.foldl_cons, formPair_skips (h k List.mem_cons_self) rst]
    exact ih fun j hj => h j (List.mem_cons_of_mem _ hj)

/-- One attachment takes the event: the offer is what it makes of the unit. -/
theorem offered_one {e : GlossEvent} {u : GUnit} {k : Nat} (hk : k < 64) (rst : Option Nat)
    (hone : ∀ j b, j < 64 → Takes u e j b → j = k) : (List.range 64).foldl (formPair e rst) u = formPair e rst u k := by
  obtain ⟨l, r, hlr⟩ := List.append_of_mem (List.mem_range.mpr hk)
  have hnd : (l ++ k :: r).Nodup := hlr ▸ List.nodup_range
  have hlt : ∀ j ∈ l ++ k :: r, j < 64 := fun j hj => List.mem_range.mp (hlr ▸ hj)
  have skip : ∀ js : List Nat, (∀ j ∈ js, j ∈ l ++ k :: r ∧ j ≠ k) → ∀ v : GUnit, v.att = u.att → js.foldl (formPair e rst) v = v := by
    intro js hjs v hv
    refine foldl_formPair_skips (fun j hj b hb => ?_) rst
    obtain ⟨hmem, hne⟩ := hjs j hj
    obtain ⟨ha, hm⟩ := hb
    exact hne (hone j b (hlt j hmem) ⟨hv ▸ ha, hm⟩)
  have hnot := List.nodup_append.mp hnd
  rw [hlr, List.foldl_append, List.foldl_cons, skip l (fun j hj => ⟨by simp [hj], ?_⟩) u rfl,
    skip r (fun j hj => ⟨by simp [hj], ?_⟩) _ (att_formPair ..)]
  · rintro rfl
    exact (List.nodup_cons.mp hnot.2.1).1 hj
  · rintro rfl
    exact hnot.2.2 j hj j List.mem_cons_self rfl

theorem resetting_none {s : State} (h : bitAt s.rg.flrCtl 63 = false) : resetting s = .none := by
  unfold resetting
  rw [h]
  rfl

theorem execGlossEventOffer_becomes {s : State} {die : Nat} {e : GlossEvent} {u : GUnit}
    (h : (List.range 64).foldl (formPair e (resetting s)) (getUnit s die) = u) :
    ∃ t, exec (.glossEventOffer die e) s = .next t ∧ UnitBecomes s t die u :=
  ⟨_, rfl, h ▸ unitBecomes_setUnit s die _⟩

/-! ## Slots (R332, R333, R337) -/

theorem settleDrain_eq (u : GUnit) : ∃ d, settleDrain u = { u with drain := d } := by
  unfold settleDrain
  split
  · split
    · exact ⟨.none, rfl⟩
    · exact ⟨u.drain, rfl⟩
  · exact ⟨u.drain, rfl⟩

@[simp] theorem settleDrain_susp (u : GUnit) : (settleDrain u).susp = u.susp := by obtain ⟨d, e⟩ := settleDrain_eq u; rw [e]
@[simp] theorem settleDrain_slot (u : GUnit) : (settleDrain u).slot = u.slot := by obtain ⟨d, e⟩ := settleDrain_eq u; rw [e]
@[simp] theorem settleDrain_q (u : GUnit) : (settleDrain u).q = u.q := by obtain ⟨d, e⟩ := settleDrain_eq u; rw [e]
@[simp] theorem settleDrain_att (u : GUnit) : (settleDrain u).att = u.att := by obtain ⟨d, e⟩ := settleDrain_eq u; rw [e]
@[simp] theorem settleDrain_fifo (u : GUnit) : (settleDrain u).fifo = u.fifo := by obtain ⟨d, e⟩ := settleDrain_eq u; rw [e]

/-- The registers at the start of a run (R337). -/
theorem loadRun_regs (p : Pair) (param : BitVec 32) (u : GUnit) :
    tget 0 0 (loadRun p param u).g = 0 ∧ tget 0 1 (loadRun p param u).g = p.e.a ∧ tget 0 2 (loadRun p param u).g = p.e.b ∧
      tget 0 3 (loadRun p param u).g = p.e.src ∧
      tget 0 4 (loadRun p param u).g = BitVec.ofNat 32 (p.e.asid.toNat + 4096 * (p.e.vdev % 64)) ∧
      tget 0 5 (loadRun p param u).g = BitVec.ofNat 32 (tget 0 p.k u.fifo + tget 0 p.k u.budg) ∧ tget 0 6 (loadRun p param u).g = param := by
  simp only [loadRun, List.foldl_cons, List.foldl_nil, tget_tset, reduceIte, Nat.reduceEqDiff, and_self, and_true]
  rfl

section
variable {s : State} {die o : Nat} {u : GUnit} (hu : u = getUnit s die) (ho : o = slotOwner s die (u.slot % 16))
include hu ho

theorem execGlossSlot_idle (h : 64 < o ∨ tget false o u.susp = true ∨ ∀ p ∈ u.q, ownerOf u p.k ≠ o) :
    exec (.glossSlot die) s = .next (setUnit die { u with slot := (u.slot + 1) % 16 } s) := by
  subst ho hu
  dsimp only [exec, execGlossSlot]
  split
  · rfl
  · rename_i hno
    split
    · rfl
    · rename_i p hp
      simp only [Bool.or_eq_true, decide_eq_true_eq, not_or] at hno
      obtain ⟨⟨hlt, hsusp⟩, -⟩ := hno
      rcases h with h | h | h
      · exact absurd h hlt
      · exact absurd h hsusp
      · have hp' := List.find?_some hp
        exact absurd (beq_iff_eq.mp hp') (h p (List.mem_of_find?_eq_some hp))

theorem execGlossSlot_takes (hflr : bitAt s.rg.flrCtl 63 = false) {before after : List Pair} {p : Pair} (hq : u.q = before ++ p :: after)
    (hp : ownerOf u p.k = o) (hb : ∀ x ∈ before, ownerOf u x.k ≠ o) (hle : o ≤ 64) (hsusp : tget false o u.susp = false) :
    exec (.glossSlot die) s = .next (if tget 0 o u.left < lenOf u p.k then setUnit die (suspend o { u with slot := (u.slot + 1) % 16 }) s
      else { setUnit die (loadRun p (match tget .none p.k u.att with | .some a => a.param | .none => 0)
        { u with slot := (u.slot + 1) % 16, q := u.q.filter fun x => x.n != p.n }) s with gsel := .some die }) := by
  have hfind : u.q.find? (fun p => ownerOf u p.k == o) = .some p := by
    rw [List.find?_eq_some_iff_append]
    exact ⟨beq_iff_eq.mpr hp, before, after, hq, fun x hx => by simpa using hb x hx⟩
  subst hu
  have hfind' : (getUnit s die).q.find? (fun p => ownerOf { getUnit s die with slot := ((getUnit s die).slot + 1) % 16 } p.k == o) = .some p :=
    hfind
  dsimp only [exec, execGlossSlot]
  rw [if_neg (by rw [← ho, hsusp, hflr]; simp; omega), ← ho, hfind']
  rfl
end

/-! ## Windows (R333) and drains (R334) -/

/-- What a window gives one tenant. -/
def windowRefill (l : Tab Nat) (p : Nat × Option Ten) : Tab Nat := match p.2 with | .some t => tset 0 p.1 t.budget l | .none => l

theorem tget_windowRefill_ne {o : Nat} {p : Nat × Option Ten} (h : o ≠ p.1) (l : Tab Nat) : tget 0 o (windowRefill l p) = tget 0 o l := by
  unfold windowRefill
  split
  · exact tget_tset_ne _ _ h _
  · rfl

theorem tget_windowRefill_absent {o : Nat} {ps : List (Nat × Option Ten)} (h : o ∉ ps.map Prod.fst) (l : Tab Nat) :
    tget 0 o (ps.foldl windowRefill l) = tget 0 o l := by
  induction ps generalizing l with
  | nil => rfl
  | cons p ps ih =>
    rw [List.map_cons, List.mem_cons, not_or] at h
    rw [List.foldl_cons, ih h.2, tget_windowRefill_ne h.1]

theorem tget_windowRefill {o : Nat} {x : Ten} {ps : List (Nat × Option Ten)} (hnd : (ps.map Prod.fst).Nodup) (h : (o, .some x) ∈ ps) (l : Tab Nat) :
    tget 0 o (ps.foldl windowRefill l) = x.budget := by
  induction ps generalizing l with
  | nil => cases h
  | cons p ps ih =>
    rw [List.map_cons, List.nodup_cons] at hnd
    rw [List.foldl_cons]
    rcases List.mem_cons.mp h with rfl | h
    · rw [tget_windowRefill_absent hnd.1]
      exact tget_tset_same ..
    · exact ih hnd.2 h _

theorem execGlossBudgetWindow_eq (die : Nat) (s : State) : exec (.glossBudgetWindow die) s =
    .next (setUnit die { getUnit s die with left := (getUnit s die).ten.foldl windowRefill (getUnit s die).left, susp := [] } s) := rfl

theorem settleDrain_done {u : GUnit} {n : Nat} (hd : u.drain = .some n) (hr : u.run = .none) (hq : u.q = []) :
    (settleDrain u).drain = .none := by
  simp only [settleDrain, hd, hr, hq, Option.isNone_none, List.all_nil, Bool.and_self, if_true]

theorem settleDrain_waits {u : GUnit} {n : Nat} (hd : u.drain = .some n) (hlt : ∀ p ∈ u.q, p.n < n) (h : u.run ≠ .none ∨ u.q ≠ []) :
    settleDrain u = u := by
  simp only [settleDrain, hd]
  rw [if_neg]
  rw [Bool.and_eq_true, List.all_eq_true, not_and]
  intro hrun hall
  rcases h with h | h
  · exact h (Option.isNone_iff_eq_none.mp hrun)
  · obtain ⟨p, hp⟩ := List.exists_mem_of_ne_nil _ h
    exact absurd (of_decide_eq_true (hall p hp)) (Nat.not_le.mpr (hlt p hp))

/-! ## Tenants (R327, R328) -/

/-- The tenant that an entry's bytes describe. -/
def entryTen (s : State) (bs : List Byte) : Ten :=
  { budget := fieldOf bs 0 4, wbase := fieldOf bs 4 4, wlog := fieldOf bs 8 1, quota := fieldOf bs 9 1
    trigs := (List.range 16).map fun j => parseTrig (pread s (fieldOf bs 16 8 + 16 * j) 16) }

theorem windowsMeet_iff (t x : Ten) : windowsMeet t x = true ↔ t.wbase < x.wbase + 2 ^ x.wlog ∧ x.wbase < t.wbase + 2 ^ t.wlog := by
  simp only [windowsMeet, tilesMeet, decide_eq_true_eq]

theorem tenantCode_meets {u : GUnit} {i j : Nat} {x t : Ten} (bs : List Byte) (hj : j ≠ i) (hx : (j, .some x) ∈ u.ten)
    (hm : windowsMeet t x = true) : tenantCode u i bs t = 3 := by
  unfold tenantCode
  rw [if_pos]
  rw [Bool.or_eq_true]
  refine .inl (List.any_eq_true.mpr ⟨x, List.mem_filterMap.mpr ⟨_, hx, ?_⟩, hm⟩)
  exact if_neg hj

theorem tenantCode_alone {u : GUnit} {i : Nat} {t : Ten} (bs : List Byte) (hu : ∀ p ∈ u.ten, p.1 = i ∨ p.2 = .none) (hq : t.quota ≤ 256) :
    (TenantFits t bs → tenantCode u i bs t = 0) ∧ (¬ TenantFits t bs → tenantCode u i bs t = 4) := by
  unfold tenantCode TenantFits
  extract_lets others
  have none : others = [] := by
    refine List.filterMap_eq_nil_iff.mpr fun p hp => ?_
    rcases hu p hp with h | h
    · split
      · exact if_pos h
      · rfl
    · rw [h]
  have few : ¬ ((([] : List Ten).any (windowsMeet t) || decide (256 < ([] : List Ten).foldl (fun n x => n + x.quota) t.quota)) = true) := by
    rw [List.any_nil, List.foldl_nil, Bool.false_or, decide_eq_true_eq]
    omega
  rw [none, if_neg few]
  exact ⟨fun h => if_neg (by omega), fun h => if_pos (by omega)⟩

section
variable {s : State} {die i : Nat} (hi : i ≤ 64) (hok : pbad s (glossEntry s die i) 32 = false)
include hi hok

theorem execGlossApplyTenant_refused {code : Nat}
    (h : tenantCode (getUnit s die) i (pread s (glossEntry s die i) 32) (entryTen s (pread s (glossEntry s die i) 32)) = code)
    (hne : code ≠ 0) : exec (.glossApplyTenant die i) s = .next (glossDone die 0 i code s) := by
  dsimp only [exec, execGlossApplyTenant, applyTenant]
  have hc : ¬ (64 < i ∨ pbad s (glossEntry s die i) 32 = true) := by
    rw [hok]
    simp only [Bool.false_eq_true, or_false]
    omega
  unfold entryTen at h
  simp only [if_neg hc, h, if_pos hne]

theorem execGlossApplyTenant_applies {t : Ten} {u : GUnit} (ht : t = entryTen s (pread s (glossEntry s die i) 32)) (hu : u = getUnit s die)
    (h : tenantCode u i (pread s (glossEntry s die i) 32) t = 0) :
    exec (.glossApplyTenant die i) s = .next (glossDone die 0 i 0 (setUnit die { u with
      ten := tset .none i (.some t) u.ten
      left := tset 0 i (if (tget .none i u.ten).isSome then min (tget 0 i u.left) t.budget else t.budget) u.left
      disarmed := tdrop (fun k => k / 16 == i) u.disarmed } s)) := by
  subst ht hu
  dsimp only [exec, execGlossApplyTenant, applyTenant]
  have hc : ¬ (64 < i ∨ pbad s (glossEntry s die i) 32 = true) := by
    rw [hok]
    simp only [Bool.false_eq_true, or_false]
    omega
  unfold entryTen at h
  simp only [if_neg hc, h, ne_eq, not_true, if_false, entryTen]
  cases tget .none i (getUnit s die).ten <;> rfl
end

/-! ## Attachments (R326, R328, R335) -/

theorem natOf_lt (bs : List Byte) : natOf bs < 256 ^ bs.length := by
  induction bs with
  | nil => exact Nat.one_pos
  | cons b bs ih =>
    have hb := b.isLt
    rw [natOf, List.length_cons, Nat.pow_succ]
    omega

theorem fieldOf_lt (bs : List Byte) (lo n : Nat) : fieldOf bs lo n < 256 ^ n := by
  have h := natOf_lt (slice bs lo n)
  rwa [slice, List.length_map, List.length_range] at h

theorem tget_program (f : Nat → BitVec 32) (c : Tab (BitVec 32)) (k : Nat) {n w : Nat} (hw : w < n) :
    tget 0 (k * 64 + w) ((List.range n).foldl (fun c i => tset 0 (k * 64 + i) (f i) c) c) = f w := by
  induction n with
  | zero => omega
  | succ n ih =>
    rw [List.range_succ, List.foldl_append, List.foldl_cons, List.foldl_nil]
    by_cases h : w = n
    · rw [h, tget_tset_same]
    · rw [tget_tset_ne _ _ (by omega), ih (by omega)]

theorem attachCode_badWord {s : State} {bs : List Byte} (k : Nat) (h1 : 1 ≤ fieldOf bs 8 1) (h64 : fieldOf bs 8 1 ≤ 64)
    (hbad : ∃ i < fieldOf bs 8 1, glossWordOk (fieldOf bs 8 1) i (BitVec.ofNat 32 (rdN s (fieldOf bs 0 8 + 4 * i) 4)) = false) :
    attachCode s k bs = 1 := by
  obtain ⟨i, hi, hw⟩ := hbad
  refine if_pos ?_
  rw [Bool.and_eq_true, decide_eq_true_eq, List.any_eq_true]
  exact ⟨⟨h1, h64⟩, i, List.mem_range.mpr hi, by rw [hw]; rfl⟩

theorem attachCode_empty {s : State} {bs : List Byte} (k : Nat) (h0 : fieldOf bs 8 1 = 0)
    (hmay : mayAttach s (fieldOf bs 9 1) (fieldOf bs 10 1) = true) : attachCode s k bs = 4 := by
  unfold attachCode
  extract_lets prog len cls o sized
  have hs : sized = false := decide_eq_false (by omega)
  have hm : mayAttach s cls o = true := hmay
  rw [hs, hm, Bool.false_and, if_neg Bool.false_ne_true, if_neg (by decide), if_pos (.inr (.inl rfl))]

theorem glossStatus_glossDone (die op i code : Nat) (s : State) : tget 0 die (glossDone die op i code s).rg.glossStatus = word code :=
  tget_tset_same ..

section
variable {s : State} {die i : Nat}

theorem execGlossAttach_refused (hok : pbad s (glossEntry s die (65 + i)) 32 = false)
    (h : attachCode s i (pread s (glossEntry s die (65 + i)) 32) ≠ 0) :
    exec (.glossAttach die i) s = .next (glossDone die 1 i (attachCode s i (pread s (glossEntry s die (65 + i)) 32)) s) := by
  dsimp only [exec, execGlossAttach, attach]
  simp only [hok, Bool.false_eq_true, if_false, if_pos h]

/-- The attachment that an entry's bytes describe. -/
def entryAtt (bs : List Byte) : Att :=
  { valid := true, len := fieldOf bs 8 1, cls := fieldOf bs 9 1, owner := fieldOf bs 10 1, asid := BitVec.ofNat 12 (fieldOf bs 12 2)
    mask := BitVec.ofNat 12 (fieldOf bs 14 2), param := BitVec.ofNat 32 (fieldOf bs 16 4) }

/-- What a fresh attachment leaves: its entry, its program, its counts at 0. -/
theorem execGlossAttach_attaches {bs : List Byte} (hbs : bs = pread s (glossEntry s die (65 + i)) 32)
    (hok : pbad s (glossEntry s die (65 + i)) 32 = false) (h : attachCode s i bs = 0) :
    ∃ t a, exec (.glossAttach die i) s = .next t ∧ tget 0 die t.rg.glossStatus = 0 ∧ tget .none i (getUnit t die).att = .some a ∧
      a.valid = true ∧ a.len = fieldOf bs 8 1 ∧ a.cls = fieldOf bs 9 1 ∧ a.owner = fieldOf bs 10 1 ∧ a.param.toNat = fieldOf bs 16 4 ∧
      (∀ w < a.len, tget 0 (i * 64 + w) (getUnit t die).code = BitVec.ofNat 32 (rdN s (fieldOf bs 0 8 + 4 * w) 4)) ∧
      tget 0 i (getUnit t die).runs = 0 ∧ tget 0 i (getUnit t die).fifo = 0 ∧ tget 0 i (getUnit t die).budg = 0 ∧ t.mm = s.mm := by
  subst hbs
  dsimp only [exec, execGlossAttach, attach]
  simp only [hok, h, Bool.false_eq_true, if_false, ne_eq, not_true]
  refine ⟨_, entryAtt _, rfl, glossStatus_glossDone .., ?att, rfl, rfl, rfl, rfl, Nat.mod_eq_of_lt (fieldOf_lt _ 16 4), ?code, ?runs, ?fifo,
    ?budg, rfl⟩
  all_goals
    dsimp only [glossDone, getUnit, setUnit]
    rw [tget_tset_same]
    dsimp only
  case att => exact tget_tset_same ..
  case code => exact fun w hw => tget_program _ _ _ hw
  case runs => exact tget_tset_same ..
  case fifo => exact tget_tset_same ..
  case budg => exact tget_tset_same ..

theorem execGlossDetach_detaches {a : Att} {u : GUnit} (hu : u = getUnit s die) (hi : i < 64) (ha : tget .none i u.att = .some a) :
    ∃ t, exec (.glossDetach die i) s = .next t ∧ tget 0 die t.rg.glossStatus = 0 ∧
      tget .none i (getUnit t die).att = .some { a with valid := false } ∧
      tget 0 i (getUnit t die).fifo = tget 0 i u.fifo + (u.q.filter fun p => p.k == i).length ∧
      (getUnit t die).q = u.q.filter (fun p => p.k != i) ∧ t.mm = s.mm := by
  subst hu
  dsimp only [exec, execGlossDetach]
  rw [if_neg (by omega)]
  simp only [detach, ha]
  refine ⟨_, rfl, glossStatus_glossDone .., ?att, ?fifo, ?q, rfl⟩
  all_goals
    dsimp only [glossDone, getUnit, setUnit]
    rw [tget_tset_same]
  case att => rw [settleDrain_att, tget_tset_same]
  case fifo => rw [settleDrain_fifo, tget_tset_same]
  case q => rw [settleDrain_q]
end

/-- Settles O47: the offer is one pair's fold, the slot its owner's oldest pair; an apply or attach takes the branch of its code. -/
theorem glossUnitsRun : Obligations.GlossUnitsRun := by
  refine ⟨⟨fun s die e h => ?none, fun s die e k a x u hu hk ht hone hx => ⟨fun hs => ?susp, fun hs hflr => ⟨fun hq => ?full, fun hq => ?queue⟩⟩,
    fun s die o u hu ho hflr => ⟨fun h => ?idle, fun before p after hq hp hb hle hsusp => ⟨fun hl => ?short, fun hl => ?run⟩⟩,
    fun s die => ?window, fun s die u hu hlt => ⟨fun h => ?drained, fun h => ?drains⟩⟩,
    ⟨fun s die i a bs t u hi hu ha hbs hok ht => ⟨fun h => ?three, fun h hq => ⟨fun hfit => ?four, fun hfit => ?applies⟩⟩,
    fun s die i at_ hat hok => ⟨fun h => ?refused, fun h => ?attaches⟩, fun s k len cls o bs hlen hcls ho => ⟨fun h1 h64 hbad => ?one,
    fun h0 hmay => ?empty⟩, fun s die i u a hu hi ha => execGlossDetach_detaches hu hi ha⟩⟩
  case none => exact execGlossEventOffer_becomes (foldl_formPair_skips (fun k hk a => h k a (List.mem_range.mp hk)) _)
  case susp =>
    subst hu
    exact execGlossEventOffer_becomes ((offered_one hk _ hone).trans (formPair_suspended ht _ hs))
  case full =>
    subst hu
    refine execGlossEventOffer_becomes ((offered_one hk _ hone).trans ?_)
    rw [resetting_none hflr, formPair_full ht hx hs hq]
  case queue =>
    subst hu
    refine execGlossEventOffer_becomes ((offered_one hk _ hone).trans ?_)
    rw [resetting_none hflr, formPair_queues ht hx hs hq]
  case idle => exact ⟨_, execGlossSlot_idle hu ho h, rfl, unitBecomes_setUnit s die _⟩
  case short =>
    have e := execGlossSlot_takes hu ho hflr hq hp hb hle hsusp
    rw [if_pos hl] at e
    refine ⟨_, e, rfl, ?_⟩
    rw [getUnit_setUnit_same, suspend, settleDrain_susp, settleDrain_slot, settleDrain_q]
    dsimp only
    exact ⟨tget_tset_same .., rfl, rfl⟩
  case run =>
    have e := execGlossSlot_takes hu ho hflr hq hp hb hle hsusp
    rw [if_neg (Nat.not_lt.mpr hl)] at e
    refine ⟨_, e, rfl, ?_⟩
    have hunit : ∀ v : GUnit, getUnit { setUnit die v s with gsel := .some die } die = v := fun v => getUnit_setUnit_same die v s
    rw [hunit]
    obtain ⟨g0, g1, g2, g3, g4, g5, g6⟩ := loadRun_regs p (match tget .none p.k u.att with | .some a => a.param | .none => 0)
      { u with slot := (u.slot + 1) % 16, q := u.q.filter fun x => x.n != p.n }
    refine ⟨rfl, rfl, rfl, g0, g1, g2, g3, g4, g5, fun a ha => ?_⟩
    rw [ha] at g6 ⊢
    exact g6
  case window =>
    refine ⟨_, execGlossBudgetWindow_eq die s, ?_, fun o x hnd hx => ?_⟩
    · rw [getUnit_setUnit_same]
    · rw [getUnit_setUnit_same]
      exact tget_windowRefill hnd hx _
  case drained =>
    subst hu
    refine ⟨_, rfl, ?_⟩
    rw [getUnit_setUnit_same]
    exact settleDrain_done rfl h.1 h.2
  case drains =>
    subst hu
    exact congrArg (fun u => Host.Outcome.next (setUnit die u s)) (settleDrain_waits rfl hlt h)
  case three =>
    obtain ⟨j, x, hj, hx, hm⟩ := h
    subst hu ha hbs ht
    exact execGlossApplyTenant_refused hi hok (tenantCode_meets _ hj hx ((windowsMeet_iff _ _).mpr hm)) (by decide)
  case four =>
    subst hu ha hbs ht
    exact execGlossApplyTenant_refused hi hok ((tenantCode_alone _ h hq).2 hfit) (by decide)
  case applies =>
    subst ha hbs
    exact execGlossApplyTenant_applies hi hok ht hu (hu ▸ (tenantCode_alone _ h hq).1 hfit)
  case refused =>
    subst hat
    exact execGlossAttach_refused hok h
  case attaches =>
    subst hat
    exact execGlossAttach_attaches rfl hok h
  case one =>
    subst hlen
    exact attachCode_badWord k h1 h64 hbad
  case empty =>
    subst hlen hcls ho
    exact attachCode_empty k h0 hmay

end Sys2Proof.Machine
end

section
/-! PROOFS. O48 (R346, R349 to R351, R367, R374): peers. What counting a peer's error changes, what an answer, a refusal or a port that
goes down makes of an operation in flight, and where a message's bytes lie. -/

namespace Sys2Proof.Machine

/-! ## A counted error of a peer (R350) -/

@[simp] theorem team_peerError (p : Nat) (s : State) : (peerError p s).team = s.team := by
  simp only [peerError, raiseMgmt, raiseIrq]
  split <;> rfl

@[simp] theorem mm_peerError (p : Nat) (s : State) : (peerError p s).mm = s.mm := by
  simp only [peerError, raiseMgmt, raiseIrq]
  split <;> rfl

theorem rg_peerError (p : Nat) (s : State) : (peerError p s).rg = { s.rg with
    peerErr := tset 0 p (min (tget 0 p s.rg.peerErr + 1) (2 ^ 32 - 1)) s.rg.peerErr
    mgmtCause := s.rg.mgmtCause ||| word (2 ^ 3) } := by
  rw [peerError, rg_raiseMgmt]

theorem irq_raiseMgmt (b : Nat) (s : State) : (64, 0) ∈ (raiseMgmt b s).hs.irq := by
  simp [raiseMgmt, raiseIrq]

/-- A cause that is raised stands in MGMT_CAUSE. -/
theorem bitAt_cause (c : Word) : bitAt (c ||| word (2 ^ 3)) 3 = true := by
  have h : (word (2 ^ 3)).getLsbD 3 = true := by decide
  rw [bitAt, BitVec.getLsbD_or, h, Bool.or_true]

theorem peerError_counts (s : State) (p : Nat) :
    (∀ q, q ≠ p → tget 0 q (peerError p s).rg.peerErr = tget 0 q s.rg.peerErr) ∧
    tget 0 p (peerError p s).rg.peerErr = min (tget 0 p s.rg.peerErr + 1) 0xFFFFFFFF ∧ bitAt (peerError p s).rg.mgmtCause 3 = true ∧
    (peerError p s).mm = s.mm ∧ (64, 0) ∈ (peerError p s).hs.irq := by
  rw [rg_peerError]
  exact ⟨fun q hq => tget_tset_ne 0 _ hq _, tget_tset_same .., bitAt_cause _, mm_peerError p s, irq_raiseMgmt ..⟩

/-! ## Training (R346) -/

theorem execLinkTraining_ports {s : State} {port : Nat} (hp : port < 16) (hb : 4 ≤ s.hs.boot) (ok : Bool) :
    ∃ t, execLinkTraining port ok s = .next t ∧ portUp t port = ok ∧ ∀ q, q ≠ port → portUp t q = portUp s q := by
  obtain ⟨h, e⟩ := bootDid_eq 4 port portSteps { s with pk := { s.pk with portUp := tset false port ok s.pk.portUp } }
  refine ⟨_, by rw [execLinkTraining, if_pos ⟨hp, hb⟩, e], ?_, fun q hq => ?_⟩
  · exact tget_tset_same ..
  · exact tget_tset_ne false _ hq _

/-! ## Peers' requests (R349, R350) -/

theorem pk_of_cacheOnly {s t : State} (h : CacheOnly s t) : t.pk = s.pk := by
  obtain ⟨_, _, _, _, _, _, _, rfl, -⟩ := h; rfl

section
variable {s : State} {r : PeerReq} (hck : bitAt s.rg.ckptCtl 63 = false) (hup : portUp s r.port = true)
include hck hup

theorem execUalinkInboundRequest_up : execUalinkInboundRequest r s = .next (if peerMay s r then serve r s else reply r.peer .none s) := by
  simp [execUalinkInboundRequest, inboundHeld, hck, hup]

theorem execUalinkInboundRequest_refused (hmay : peerMay s r = false) :
    execUalinkInboundRequest r s = .next (reply r.peer .none s) := by
  simp [execUalinkInboundRequest_up hck hup, hmay]

theorem execUalinkInboundRequest_read {n : Nat} (hop : r.op = .read n) (hmay : peerMay s r = true) (hw : s.mm.wrapped = [])
    (hbad : pbad s r.pa n = false) : execUalinkInboundRequest r s = .next (reply r.peer (.some (pread s r.pa n)) s) := by
  simp [execUalinkInboundRequest_up hck hup, hmay, serve, foldl_viewPage_unwrapped hw, hop, hbad]

theorem execUalinkInboundRequest_write {d : List Byte} (hop : r.op = .write d) (hmay : peerMay s r = true) (hw : s.mm.wrapped = []) :
    execUalinkInboundRequest r s =
      .next (reply r.peer (.some []) (dirLines (dirHome 0 (r.port / 4)) r.pa d.length (pwrite r.pa d s))) := by
  simp [execUalinkInboundRequest_up hck hup, hmay, serve, foldl_viewPage_unwrapped hw, hop]

end

/-- A peer's write puts its bytes at the home and nothing else. -/
theorem pread_dirLines_pwrite (die pa : Nat) (d : List Byte) (s : State) :
    pread (dirLines (dirHome 0 die) pa d.length (pwrite pa d s)) pa d.length = d := by
  have hmem := mem_dirLines_dirHome 0 die pa d.length (pwrite pa d s)
  have hread := pread_pwrite_same pa d s
  simp only [pread] at hread ⊢
  rw [hmem, hread]

theorem tget_pwrite_outside {pa a : Nat} {bs : List Byte} (h : ¬ (pa ≤ a ∧ a < pa + bs.length)) (s : State) :
    tget 0 a (pwrite pa bs s).mm.mem = tget 0 a s.mm.mem :=
  tget_pwrite_other (by omega) s

theorem inboundWrite_memory (die pa p : Nat) (d : List Byte) (s : State) :
    let t := reply p (.some []) (dirLines (dirHome 0 die) pa d.length (pwrite pa d s))
    t.pk.replies = s.pk.replies ++ [(p, .some [])] ∧ pread t pa d.length = d ∧
      ∀ a, ¬ (pa ≤ a ∧ a < pa + d.length) → tget 0 a t.mm.mem = tget 0 a s.mm.mem := by
  have hpk : (dirLines (dirHome 0 die) pa d.length (pwrite pa d s)).pk = s.pk :=
    pk_of_cacheOnly (s := pwrite pa d s) (cacheOnly_dirLines (fun _ _ => cacheOnly_dirHome ..) ..)
  refine ⟨?_, pread_dirLines_pwrite die pa d s, fun a ha => ?_⟩
  · simp only [reply, hpk]
  · simp only [reply, mem_dirLines_dirHome, tget_pwrite_outside ha]

/-- R349: a request without the right, below the range or past it is refused. -/
theorem peerMay_false {s : State} {r : PeerReq} {e : Nat} (he : e = peerIn s r.peer) (h : (match r.op with
      | .read _ => nb e 0 0 | .write _ => nb e 1 1 | .atomic _ _ _ _ => nb e 2 2) = 0 ∨ r.pa < nb e 63 28 * 65536 ∨
      nb e 99 64 * 65536 + 65536 < r.pa + reqBytes r.op) : peerMay s r = false := by
  unfold peerMay
  extract_lets e' n right lo hi row
  have hee : e' = e := he.symm
  rcases h with h | h | h
  · have hright : right = false := by
      simp only [right, hee]
      split at h <;> next hop => simp [hop, h]
    simp [hright]
  · have hlo : ¬ lo ≤ r.pa := by
      simp only [lo, hee]
      exact Nat.not_le.mpr h
    simp [hlo]
  · have hhi : ¬ r.pa + n ≤ hi := by
      simp only [hi, hee]
      exact Nat.not_le.mpr h
    simp [hhi]

/-! ## A peer's answers (R350) -/

/-- A load of one piece at a peer returns the bytes that the peer sends. -/
theorem mixParts_peer {p : Part} (hp : isPeer p.pa = true) {bs : List Byte} (hl : bs.length = p.len) (gk : Nat) (s : State) :
    mixParts gk [p] bs s = .some (bs, false, s) := by
  have hs : slice bs 0 p.len = bs := by
    rw [← hl]
    exact List.ext_getElem (by simp [slice]) fun i h₁ h₂ => by simp [slice, List.getD_eq_getElem?_getD, h₂]
  simp [mixParts, hp, hs]

section
variable {s : State} {k peer port : Nat} {o : Op} (hfly : InFlight s k o) (hwait : peerWait s o = .some (peer, port))
include hfly hwait

theorem execPeerAcknowledgement_done (hup : portUp s port = true) (hpp : peerPorts s peer ≠ 0) (bs : List Byte) :
    execPeerAcknowledgement k (.done bs) s = .next (peerDone o bs s) := by
  simp [execPeerAcknowledgement, show findOp s k = .some o from hfly, hwait, hup, hpp]

theorem execPeerAcknowledgement_lost {r : PeerReply} (hr : r = .refused ∨ r = .unreachable) :
    execPeerAcknowledgement k r s = .next (peerLost o peer s) := by
  rcases hr with rfl | rfl <;> simp [execPeerAcknowledgement, show findOp s k = .some o from hfly, hwait]

theorem execPeerDrainTimeout_waits : execPeerDrainTimeout k s = .next (if inReset s (vdevOf s (ctxOf s o.gk)) then
    peerError peer (dropOp k s) else s) := by
  simp [execPeerDrainTimeout, show findOp s k = .some o from hfly, hwait]

end

theorem aliveG_dropOp (s : State) (k gk : Nat) : aliveG (dropOp k s) gk = aliveG s gk := rfl

theorem peerDone_rload {s : State} {o : Op} {u : Bool} {d : BitVec 6} {q : Option (BitVec 3)} {p : Part} {va : Word} {bs : List Byte}
    {served : Option (Bool × List Byte × Bool)} (hk : o.k = .rload u d q [p] va .none served) (hp : isPeer p.pa = true)
    (hl : bs.length = p.len) (ha : aliveG s o.gk = true) :
    peerDone o bs s = checked o u q true (if (withServed served bs false).2 then faulted o u d va (dropOp o.id s)
      else filled o u d (BitVec.ofNat 64 (natOf (withServed served bs false).1)) (dropOp o.id s)) := by
  simp only [peerDone, hk, mixParts_peer hp hl]
  exact finish_alive (s := dropOp o.id s) ha u d va _ _ q true

theorem peerLost_rload {s : State} {o : Op} {u : Bool} {d : BitVec 6} {q : Option (BitVec 3)} {ps : List Part} {va : Word}
    {atom : Option (Nat × AtomMod × Word × Word)} {served : Option (Bool × List Byte × Bool)}
    (hk : o.k = .rload u d q ps va atom served) (ha : aliveG s o.gk = true) (p : Nat) :
    peerLost o p s = checked o u q true (faulted o u d va (dropOp o.id (peerError p s))) := by
  have ha' : aliveG (dropOp o.id (peerError p s)) o.gk = true :=
    (aliveG_dropOp ..).trans ((aliveG_congr (team_peerError p s)).trans ha)
  simp only [peerLost, hk]
  exact finish_alive ha' u d va [] true q true

/-! ## Ports that go down (R374) -/

theorem execUalinkPortDown_idle {s : State} {port : Nat} (hup : portUp s port = true)
    (hnone : ∀ o ∈ s.mm.ops, ∀ p, peerWait s o ≠ .some (p, port))
    (hsame : ∀ o ∈ s.mm.ops, peerWait { s with pk := { s.pk with portUp := tset false port false s.pk.portUp } } o = peerWait s o) :
    execUalinkPortDown port s = .next (raiseMgmt 1 { s with pk := { s.pk with portUp := tset false port false s.pk.portUp } }) := by
  rw [execUalinkPortDown, if_pos hup]
  refine congrArg (fun t => Host.Outcome.next (raiseMgmt 1 t)) ?_
  refine List.foldlRecOn _ _ (motive := fun u => u = { s with pk := { s.pk with portUp := tset false port false s.pk.portUp } })
    rfl fun u hu o ho => ?_
  subst hu
  split
  · next p q hw =>
    have hq : q ≠ port := fun hq => hnone o ho p (by rw [← hsame o ho, hw, hq])
    exact if_neg hq
  · rfl

/-! ## Messages (R351) -/

section
variable {s : State} {m : PeerMsg} (hck : bitAt s.rg.ckptCtl 63 = false) (hm : m.m < 64) (hlen : m.data.length ≤ 4096)

theorem execUalinkMessageArrival_unlinked (hl : linked s m.peer = false) : execUalinkMessageArrival m s = .next s := by
  simp [execUalinkMessageArrival, hl]

include hck

theorem execUalinkMessageArrival_full (hl : linked s m.peer = true) (ht : takesFrom s m.peer m.vdev = true)
    (hfull : freeSlot (tget [] (m.vdev * 64 + m.m) s.pk.inbox) = .none) : execUalinkMessageArrival m s = .next s := by
  simp [execUalinkMessageArrival, inboundHeld, hck, hl, ht, hfull]

include hm hlen

theorem execUalinkMessageArrival_untaken (hl : linked s m.peer = true) (ht : takesFrom s m.peer m.vdev = false) :
    execUalinkMessageArrival m s = .next (peerError m.peer s) := by
  simp [execUalinkMessageArrival, inboundHeld, hck, hl, hm, hlen, ht]

theorem execUalinkMessageArrival_taken (hl : linked s m.peer = true) (ht : takesFrom s m.peer m.vdev = true) {k : Nat}
    (hfree : freeSlot (tget [] (m.vdev * 64 + m.m) s.pk.inbox) = .some k) :
    execUalinkMessageArrival m s = .next (takeMessage m k s) := by
  simp [execUalinkMessageArrival, inboundHeld, hck, hl, hm, hlen, ht, hfree]

end

/-- The marks of a message change no byte of memory. -/
theorem mem_foldl_pmark (a : Nat) (ws : List Nat) (s : State) :
    (ws.foldl (fun s w => pmark (a + 8 * w) 8 s) s).mm.mem = s.mm.mem ∧ (ws.foldl (fun s w => pmark (a + 8 * w) 8 s) s).pk = s.pk :=
  List.foldlRecOn ws _ (motive := fun u : State => u.mm.mem = s.mm.mem ∧ u.pk = s.pk) ⟨rfl, rfl⟩ fun _ h _ _ => h

theorem takeMessage_holds (m : PeerMsg) (k : Nat) (s : State) :
    (tget [] (m.vdev * 64 + m.m) (takeMessage m k s).pk.inbox =
      tget [] (m.vdev * 64 + m.m) s.pk.inbox ++ [⟨m.peer, k, m.data.length⟩]) ∧
    (takeMessage m k s).mm.mem = (pwrite (inboxAt s m.vdev m.m k) m.data s).mm.mem := by
  obtain ⟨hmem, hpk⟩ := mem_foldl_pmark (inboxAt s m.vdev m.m k) m.bad (pwrite (inboxAt s m.vdev m.m k) m.data s)
  refine ⟨?_, hmem⟩
  simp only [takeMessage, hpk, tget_tset_same]
  rfl

/-! ## O48 -/

/-- Settles O48: each event by the equation of its definition under the clause's hypotheses; a completed load by the shared completion of
a destination and its predicate. -/
theorem peersAreServed : Obligations.PeersAreServed := by
  unfold Obligations.PeersAreServed
  dsimp only [exec]
  refine ⟨peerError_counts, ?training, ?requests, ?refusals, ?answers, ?down, ?already, ?messages⟩
  case training =>
    intro s port ok hp hb
    exact execLinkTraining_ports hp hb ok
  case requests =>
    intro s r hck hup
    refine ⟨execUalinkInboundRequest_refused hck hup, fun n hop hmay hw hbad => execUalinkInboundRequest_read hck hup hop hmay hw hbad,
      fun d hop hmay hw => ⟨_, execUalinkInboundRequest_write hck hup hop hmay hw, ?_⟩⟩
    exact inboundWrite_memory (r.port / 4) r.pa r.peer d s
  case refusals =>
    intro s r e he h
    exact peerMay_false he h
  case answers =>
    rintro s k peer port o hfly rfl hwait
    refine ⟨?_, ?_, ?_, ?_, ?_, ?_, ?_⟩
    · intro p data bs hk hup hpp
      refine (execPeerAcknowledgement_done hfly hwait hup hpp bs).trans ?_
      simp only [peerDone, hk]
    · intro p data hk
      refine (execPeerAcknowledgement_lost hfly hwait (.inl rfl)).trans ?_
      simp only [peerLost, hk]
    · intro u d q p va bs hk hp hup hpp hl ha
      exact (execPeerAcknowledgement_done hfly hwait hup hpp bs).trans (congrArg Host.Outcome.next (peerDone_rload hk hp hl ha))
    · intro u d q p va bs first cs bad hk hp hup hpp hl ha
      refine (execPeerAcknowledgement_done hfly hwait hup hpp bs).trans ?_
      simp only [peerDone_rload hk hp hl ha, withServed, Bool.or_false]
    · intro u d q ps va atom served r hk hr ha
      exact (execPeerAcknowledgement_lost hfly hwait hr).trans (congrArg Host.Outcome.next (peerLost_rload hk ha peer))
    · intro hr
      exact (execPeerDrainTimeout_waits hfly hwait).trans (by rw [if_pos hr])
    · intro hr
      exact (execPeerDrainTimeout_waits hfly hwait).trans (by rw [hr]; rfl)
  case down =>
    intro s port hup hnone hsame
    exact execUalinkPortDown_idle hup hnone hsame
  case already =>
    intro s port hup
    simp [execUalinkPortDown, hup]
  case messages =>
    intro s m hck hm hlen
    refine ⟨execUalinkMessageArrival_unlinked, execUalinkMessageArrival_untaken hck hm hlen, ?_,
      execUalinkMessageArrival_full hck⟩
    rintro k _ hl ht hfree rfl
    obtain ⟨hbox, hmem⟩ := takeMessage_holds m k s
    refine ⟨takeMessage m k s, execUalinkMessageArrival_taken hck hm hlen hl ht hfree, hbox, ?_, fun x hx => ?_⟩
    · have hread := pread_pwrite_same (inboxAt s m.vdev m.m k) m.data s
      simp only [pread] at hread ⊢
      rw [hmem, hread]
    · rw [hmem]
      exact tget_pwrite_outside hx s

end Sys2Proof.Machine
end

section
/-! PROOFS. O49 (R352 to R354, R356): the engines. What one advance of an engine with a single command comes to, what the command does in
it, the tree over contributions in rank order, and the completion that leaves first. -/

namespace Sys2Proof.Machine

/-! ## One advance of an engine with a single command -/

section
variable {step : Cmd → State → Cmd × State} {get : State → List Cmd} {put : List Cmd → State → State}
  (hget : ∀ q s, get (put q s) = q) {s : State} {c : Cmd} (hone : get s = [c]) (hself : put [c] s = s)
  (hrun : (getGrid s (gridOfG c.gk)).status = .none) (hopen : c.done = .none)
include hget hone hself hrun hopen

/-- The command is the whole queue before and after its step, so the order of the completed ones does not come in. -/
theorem advance_single {c' y : Cmd} {s' : State} (hstep : step c s = (c', s')) (hafter : get s' = [y]) :
    advance step get put s = put [c'] (put [c'] s') := by
  have hkeep : put ((get s).filter fun c => (getGrid s (gridOfG c.gk)).status.isNone) s = s := by
    rw [hone, List.filter_cons_of_pos (by simp [hrun]), List.filter_nil, hself]
  have hold : (get s).filter (·.done.isSome) = [] := by simp [hone, hopen]
  simp only [advance, hkeep, hold]
  simp [hone, hstep, hafter, List.range_succ, hget]
  cases hd : c'.done <;> simp [hd]

end

theorem getHalo_putHalo (die : Nat) (q : List Cmd) (s : State) : getHalo die (putHalo die q s) = q :=
  tget_tset_same ..

theorem getColl_putColl (die : Nat) (q : List Cmd) (s : State) : getColl die (putColl die q s) = q :=
  tget_tset_same ..

/-! ## Halo commands (R354) -/

/-- The operation that a face travels by is in flight as soon as it is issued. -/
theorem findOp_addOp_next (gk tid : Nat) (ia : Word) (k : OpK) (s : State) :
    (findOp (addOp gk tid ia k s) s.mm.nextId).isSome = true := by
  simp [findOp, addOp, newOp, List.find?_append]

/-- A face is read and leaves through its port: the operation that carries it, and the face in the queue to the peer. -/
def streamed (die : Nat) (c : Cmd) (ch : Nat × Nat × Nat × Nat) (bs : List Byte) (bad : List Nat) (v : State) : State :=
  let t := addOp c.gk 0xFFFF 0 (.face ch.2.2.2 ch.1) v
  { t with pk := { t.pk with faceOut := t.pk.faceOut ++ [(ch.2.2.1, ⟨ownId v, die, ch.2.1, fieldOf c.data 4 4, bs, bad⟩)] } }

section
variable {s u v : State} {die : Nat} {c : Cmd} {sh : Shape} {ch : Nat × Nat × Nat × Nat} {bs : List Byte} {bad : List Nat}
  (hopen : c.done = .none) (hrd : c.rd = .none) (hok : haloBad c.data = false) (hclean : c.bad = []) (hsend : sendPart c = true)
  (hrecv : recvPart c = false) (hready : engReady s c.wait = true) (hshape : cmdShape c.gk (fieldOf c.data 8 2) false s = (.ok sh, u))
  (hch : cmdChan u c.gk (fieldOf c.data 12 1) true = .some ch) (hown : isOwn u ch.1 = false) (hup : portUp u ch.2.2.2 = true)
  (hport : peerPorts u ch.1 ≠ 0)
  (hread : readShape c.gk (recOf u c.gk) (passOver sh) (shapeBytes (recOf u c.gk) sh) 0 [] [] u = (.all bs bad, v))

include hrd hown hup hport hread in
theorem haloSend_out : haloSend die { c with wait := .none } sh ch u =
    ({ c with wait := .none, rd := .some bs.length, face := .some v.mm.nextId }, streamed die c ch bs bad v) := by
  simp [haloSend, hrd, hown, hup, hport, hread, streamed]

include hopen hrd hok hclean hsend hrecv hready hshape hch hown hup hport hread in
/-- With no receive part the command waits only for its face to have arrived. -/
theorem haloStep_sends : haloStep die c s =
    ({ c with wait := .none, rd := .some bs.length, face := .some v.mm.nextId }, streamed die c ch bs bad v) := by
  have hshapes : haloShapes c s = (.ok sh, .wait .none, u) := by simp [haloShapes, hsend, hrecv, hshape]
  have hgo := haloSend_out (die := die) hrd hown hup hport hread
  have hfly : (findOp (streamed die c ch bs bad v) v.mm.nextId).isNone = false := by
    rw [← Option.not_isSome, Bool.not_eq_false']
    exact findOp_addOp_next c.gk 0xFFFF 0 (.face ch.2.2.2 ch.1) v
  have hsend' : fieldOf c.data 2 1 % 2 = 1 := by simpa [sendPart] using hsend
  have hrecv' : ¬ fieldOf c.data 2 1 / 2 % 2 = 1 := by simpa [recvPart] using hrecv
  rw [haloStep, if_neg (by simp [hopen, cmdReady, hready]), if_neg (by simp [hok, hclean])]
  simp only [hshapes, shapeWait, hch, hgo]
  simp [hfly, sendPart, recvPart, hsend', hrecv']

end

theorem haloStep_malformed {s : State} {die : Nat} {c : Cmd} (hopen : c.done = .none) (hready : engReady s c.wait = true)
    (hbad : haloBad c.data = true ∨ c.bad ≠ []) : haloStep die c s = (finish c 1, s) := by
  have hbad' : (haloBad c.data || !c.bad.isEmpty) = true := by simpa using hbad
  simp [haloStep, hopen, cmdReady, hready, hbad']

/-! ## Faces that arrive (R354) -/

section
variable {s : State} {die : Nat} {f : Face}

theorem execHaloFaceArrival_unlinked (hl : linked s f.peer = false) : execHaloFaceArrival die f s = .next s := by
  simp [execHaloFaceArrival, hl]

theorem execHaloFaceArrival_linked (hck : bitAt s.rg.ckptCtl 63 = false) (hl : linked s f.peer = true) : execHaloFaceArrival die f s =
    .next (if !takesFrom s f.peer f.vdev then peerError f.peer s else if faceRoom s die f then addFace die f s else s) := by
  simp [execHaloFaceArrival, inboundHeld, hck, hl]

end

/-! ## All-reduce commands (R356) -/

section
variable {s u v w x z : State} {die g own : Nat} {cs : List Contribution} {c : Cmd} {sa sb : Shape} {ms : List Member}
  {xs : List Contrib} {bs : List Byte} {bad : List Nat}
  (hopen : c.done = .none) (hres : c.res = .none) (hstat : c.stat = 0) (hwrote : c.wrote = 0) (hok : collBad c.data = false)
  (hclean : c.bad = []) (hready : engReady s c.wait = true) (hg : g = fieldOf c.data 12 1)
  (ha : cmdShape c.gk (fieldOf c.data 8 2) false s = (.ok sa, u)) (hb : cmdShape c.gk (fieldOf c.data 10 2) true u = (.ok sb, v))
  (hka : kindIs v c.gk sa (collKind (fieldOf c.data 3 1)) = true) (hkb : kindIs v c.gk sb (collKind (fieldOf c.data 3 1)) = true)
  (hgroup : collGroup v (vdevOf s (ctxOf s c.gk)) g = .some ms) (hid : hasId v = true)
  (hmem : ⟨ownId v, vdevOf s (ctxOf s c.gk), die⟩ ∈ ms)
  (hcs : contribs cs (vdevOf s (ctxOf s c.gk)) g (fieldOf c.data 4 4) 0 ms v = (xs, w)) (hall : combineAll xs = .some (0, bs, bad))
  (hcount : own = (((ms.zip (xs.map Contrib.read)).find? fun m => m.1 == ⟨ownId v, vdevOf s (ctxOf s c.gk), die⟩).map (·.2)).getD 0)
  (hspread : spread (ms.zip (xs.map Contrib.read)) g (fieldOf c.data 4 4) (0, bs, bad) w = x)
  (hfits : bs.length = shapeBytes (recOf x c.gk) sb)
  (hwrite : writeShape c.gk (recOf x c.gk) (passOver sb) bs bad (bs.length + 1) 0 x = (.all bs bad, z))
include hopen hres hstat hwrote hok hclean hready hg ha hb hka hkb hgroup hid hmem hcs hall hcount hspread hfits hwrite

/-- The members' contributions are combined, the result is written, and the command completes in one advance. -/
theorem collStep_completes : collStep die cs c s = ({ c with
    wait := .none, res := .some (0, bs, bad), rd := .some own, wrote := bs.length, done := .some (0, own, bs.length) }, z) := by
  subst hg
  have hw : writeRes { c with wait := .none, res := .some (0, bs, bad), rd := .some own } sb x =
      ({ c with wait := .none, res := .some (0, bs, bad), rd := .some own, wrote := bs.length }, true, z) := by
    simp only [writeRes, hwrote, hwrite]
  rw [collStep, if_neg (by simp [hopen, cmdReady, hready]), if_neg (by simp [hok, hclean])]
  simp only [ha, hb, shapeWait, hka, hkb, hgroup, collTag, hcs, hall, ← hcount, hspread]
  rw [if_neg (by simp), if_neg (by simp [hid, hmem])]
  simp only [hres, Option.isSome_none, Bool.false_eq_true, if_false, ← hfits, beq_self_eq_true, Bool.not_true, hw, if_true]
  simp only [finish, hstat, Option.getD_some]

end

/-! ## The tree over contributions in rank order (R356) -/

section
variable (op : Word → Word → Word)

/-- One level of the tree over a row of leaves. -/
theorem pairUp_range (n : Nat) (f : Nat → Word) :
    pairUp op ((List.range (2 * n)).map f) = (List.range n).map fun r => op (f (2 * r)) (f (2 * r + 1)) := by
  induction n generalizing f with
  | zero => rfl
  | succ n ih =>
    have hrow : (List.range (2 * (n + 1))).map f = f 0 :: f 1 :: (List.range (2 * n)).map fun r => f (r + 2) := by
      rw [show 2 * (n + 1) = 2 * n + 1 + 1 by omega, List.range_succ_eq_map, List.range_succ_eq_map]
      simp [Function.comp_def]
    rw [hrow, pairUp, ih, List.range_succ_eq_map]
    simp [Function.comp_def, Nat.mul_add, Nat.add_right_comm]

theorem treeLevel_pair (f : Nat → Word) (k r : Nat) :
    treeLevel op (fun r => op (f (2 * r)) (f (2 * r + 1))) k r = treeLevel op f (k + 1) r := by
  induction k generalizing r with
  | zero => rfl
  | succ k ih =>
    rw [treeLevel, ih, ih]
    rfl

theorem tree_singleton (n : Nat) (x : Word) : tree op n [x] = [x] := by
  induction n with
  | zero => rfl
  | succ n ih => rw [tree, pairUp, ih]; simp

theorem tree_range (k n : Nat) (h : k ≤ n) (f : Nat → Word) : tree op n ((List.range (2 ^ k)).map f) = [treeLevel op f k 0] := by
  induction k generalizing n f with
  | zero => exact tree_singleton op n _
  | succ k ih =>
    obtain ⟨m, rfl⟩ : ∃ m, n = m + 1 := ⟨n - 1, by omega⟩
    rw [tree, Nat.pow_succ', pairUp_range, ih m (by omega), treeLevel_pair]

end

theorem powTwo_eq {n k : Nat} (hle : n ≤ 2 ^ k) (hk : k = 0 ∨ 2 ^ (k - 1) < n) : powTwo n = 2 ^ k := by
  rcases Nat.eq_zero_or_pos k with rfl | hpos
  · rw [powTwo, if_pos (by simpa using hle)]
    rfl
  · have hlt : 2 ^ (k - 1) < n := by omega
    have hone : ¬ n ≤ 1 := by have := Nat.one_le_two_pow (n := k - 1); omega
    have hlog : Nat.log2 (n - 1) = k - 1 := by
      rw [Nat.log2_eq_iff (by omega), Nat.sub_add_cancel hpos]
      omega
    rw [powTwo, if_neg hone, hlog, Nat.sub_add_cancel hpos]

/-- The contributions filled up with the identity are a row of leaves by rank. -/
theorem filledUp_eq (xs : List Word) (e : Word) {n : Nat} (h : xs.length ≤ n) :
    xs ++ List.replicate (n - xs.length) e = (List.range n).map fun r => if r < xs.length then xs.getD r 0 else e := by
  refine List.ext_getElem (by simp; omega) fun i h₁ h₂ => ?_
  by_cases hi : i < xs.length
  · simp [hi]
  · simp [hi, List.getElem_append_right (Nat.le_of_not_lt hi)]

theorem collElem_eq (op ty : Nat) {k : Nat} {xs : List Word} (hle : xs.length ≤ 2 ^ k)
    (hk : k = 0 ∨ 2 ^ (k - 1) < xs.length) (h6 : k ≤ 6) : collElem op ty xs =
      treeLevel (collOp op ty) (fun r => if r < xs.length then xs.getD r 0 else collIdent op ty) k 0 := by
  unfold collElem
  extract_lets w
  have hw : w = 2 ^ k := powTwo_eq hle hk
  rw [hw, filledUp_eq xs _ hle, tree_range _ k 7 (by omega)]
  rfl

/-- The signed minimum and maximum, whichever way a tie goes. -/
theorem minI_eq (x y : Word) : minI x y = if x.slt y then x else y := by
  unfold minI
  rcases Int.lt_trichotomy x.toInt y.toInt with h | h | h
  · simp [BitVec.slt, h, not_lt.2 h.le]
  · rw [BitVec.eq_of_toInt_eq h]
  · simp [BitVec.slt, h, not_lt.2 h.le]

theorem maxI_eq (x y : Word) : maxI x y = if y.slt x then x else y := by
  unfold maxI
  rcases Int.lt_trichotomy x.toInt y.toInt with h | h | h
  · simp [BitVec.slt, h, not_lt.2 h.le]
  · rw [BitVec.eq_of_toInt_eq h]
  · simp [BitVec.slt, h, not_lt.2 h.le]

/-! ## Completions (R352, R353) -/

/-- The oldest completed command leaves; the open ones before it keep their places. -/
theorem popDone_first {before after : List Cmd} {c : Cmd} {st rd wr : Nat} (hb : ∀ x ∈ before, x.done = .none)
    (hc : c.done = .some (st, rd, wr)) :
    popDone (before ++ c :: after) = .some (⟨c.team, st, BitVec.ofNat 64 (fieldOf c.data 16 8), rd, wr⟩, before ++ after) := by
  have hfind : (before ++ c :: after).find? (·.done.isSome) = .some c := by
    rw [List.find?_append, List.find?_eq_none.2 (fun x hx => by simp [hb x hx])]
    simp [hc]
  have hout : c ∉ before := fun h => by simp [hb c h] at hc
  have herase : (before ++ c :: after).erase c = before ++ after := by
    rw [List.erase_append_right _ hout, List.erase_cons_head]
  simp [popDone, hfind, hc, herase]
  rfl

theorem execEngineCompletion_halo {s : State} {die : Nat} {x : Compl} {q : List Cmd} (h : popDone (getHalo die s) = .some (x, q)) :
    execEngineCompletion die false s = .next { putHalo die q s with pk := { (putHalo die q s).pk with
      hdone := tset [] die (tget [] die s.pk.hdone ++ [x]) s.pk.hdone } } := by
  simp only [execEngineCompletion, h, Bool.false_eq_true, if_false]
  rfl

theorem execEngineCompletion_coll {s : State} {die : Nat} {x : Compl} {q : List Cmd} (h : popDone (getColl die s) = .some (x, q)) :
    execEngineCompletion die true s = .next { putColl die q s with pk := { (putColl die q s).pk with
      cdone := tset [] die (tget [] die s.pk.cdone ++ [x]) s.pk.cdone } } := by
  simp only [execEngineCompletion, h, if_true]
  rfl

/-! ## O49 -/

/-- Settles O49: an engine with one command by its step, the tree by its levels, a completion by the first command that is done. -/
theorem enginesExchangeAndReduce : Obligations.EnginesExchangeAndReduce := by
  unfold Obligations.EnginesExchangeAndReduce
  dsimp only [exec]
  refine ⟨?sends, ?malformed, ?faces, ?reduces, ?tree, ?ops, ?completes⟩
  case sends =>
    intro s u v die c sh ch bs bad hone hself hrun hopen hrd hok hclean hsend hrecv hready hshape hch hown hup hport hread hafter
    have hstep := haloStep_sends (die := die) hopen hrd hok hclean hsend hrecv hready hshape hch hown hup hport hread
    have hget : getHalo die (streamed die c ch bs bad v) = [c] := hafter
    refine ⟨_, congrArg Host.Outcome.next (advance_single (getHalo_putHalo die) hone hself hrun hopen hstep hget), ?_, ?_⟩
    · exact getHalo_putHalo ..
    · rfl
  case malformed =>
    intro s die c hone hself hrun hopen hbad hready
    have hstep := haloStep_malformed (die := die) hopen hready hbad
    exact ⟨_, congrArg Host.Outcome.next (advance_single (getHalo_putHalo die) hone hself hrun hopen hstep hone), getHalo_putHalo ..⟩
  case faces =>
    intro s die f hck
    refine ⟨execHaloFaceArrival_unlinked, fun hl ht => ?_, fun hl ht hroom => ?_, fun hl ht hfull hno => ?_⟩
    all_goals rw [execHaloFaceArrival_linked hck hl]
    · simp [ht]
    · have hroom' : faceRoom s die f = true := by simpa [faceRoom] using hroom
      simp [ht, hroom', addFace]
    · have hroom' : faceRoom s die f = false := by simpa [faceRoom, hno] using hfull
      simp [ht, hroom']
  case reduces =>
    intro s u v w x z die g own cs c y sa sb ms xs bs bad hone hself hrun hopen hres hstat hwrote hok hclean hready hg ha hb hka hkb hgroup
      hid hmem hcs hall hcount hspread hfits hwrite hafter
    have hstep := collStep_completes hopen hres hstat hwrote hok hclean hready hg ha hb hka hkb hgroup hid hmem hcs hall hcount hspread
      hfits hwrite
    exact ⟨_, _, congrArg Host.Outcome.next (advance_single (getColl_putColl die) hone hself hrun hopen hstep hafter), getColl_putColl ..,
      rfl, rfl, rfl⟩
  case tree =>
    intro op ty k xs _ hle hk h6
    exact collElem_eq op ty hle hk h6
  case ops =>
    intro x y
    exact ⟨rfl, minI_eq x y, maxI_eq x y⟩
  case completes =>
    intro s die before after c st rd wr hb hc
    have hpop := popDone_first (after := after) hb hc
    refine ⟨fun hq => ?_, fun hq => ?_⟩
    · refine ⟨_, execEngineCompletion_halo (by rw [hq, hpop]), getHalo_putHalo .., ?_⟩
      exact tget_tset_same ..
    · refine ⟨_, execEngineCompletion_coll (by rw [hq, hpop]), getColl_putColl .., ?_⟩
      exact tget_tset_same ..

end Sys2Proof.Machine
end

section
/-! PROOFS. O50 (R373, R374): links. The fields of a register that a count writes, what an event at a link leaves unchanged, and the audit
and replay events by their cases. -/

namespace Sys2Proof.Machine

/-! ## Fields of registers -/

/-- A word by one of its fields, what stands above it and what stands below. -/
theorem eq_fields (n : Nat) {hi lo : Nat} (h : lo ≤ hi) :
    n = n / 2 ^ (hi + 1) * 2 ^ (hi + 1) + n / 2 ^ lo % 2 ^ (hi + 1 - lo) * 2 ^ lo + n % 2 ^ lo := by
  have hpow : 2 ^ (hi + 1) = 2 ^ lo * 2 ^ (hi + 1 - lo) := by rw [← Nat.pow_add]; congr 1; omega
  have hdiv : n / 2 ^ (hi + 1) = n / 2 ^ lo / 2 ^ (hi + 1 - lo) := by rw [hpow, Nat.div_div_eq_div_mul]
  calc n = n / 2 ^ lo * 2 ^ lo + n % 2 ^ lo := (Nat.div_add_mod' n _).symm
    _ = (n / 2 ^ lo / 2 ^ (hi + 1 - lo) * 2 ^ (hi + 1 - lo) + n / 2 ^ lo % 2 ^ (hi + 1 - lo)) * 2 ^ lo + n % 2 ^ lo := by
      rw [Nat.div_add_mod' (n / 2 ^ lo)]
    _ = _ := by rw [hdiv, hpow]; ring

/-- A field and what stands below it lie below the next field. -/
theorem field_lt {hi lo f r : Nat} (h : lo ≤ hi) (hf : f < 2 ^ (hi + 1 - lo)) (hr : r < 2 ^ lo) : f * 2 ^ lo + r < 2 ^ (hi + 1) := by
  have hpow : 2 ^ (hi + 1) = 2 ^ (hi + 1 - lo) * 2 ^ lo := by rw [← Nat.pow_add]; congr 1; omega
  calc f * 2 ^ lo + r < f * 2 ^ lo + 2 ^ lo := by omega
    _ = (f + 1) * 2 ^ lo := by ring
    _ ≤ 2 ^ (hi + 1 - lo) * 2 ^ lo := Nat.mul_le_mul_right _ hf
    _ = 2 ^ (hi + 1) := hpow.symm

section
variable {hi lo : Nat} (h : lo ≤ hi) (h64 : hi < 64) (x : Word) (n : Nat)
include h h64

theorem toNat_setField : (setField x hi lo n).toNat =
    x.toNat / 2 ^ (hi + 1) * 2 ^ (hi + 1) + (n % 2 ^ (hi + 1 - lo) * 2 ^ lo + x.toNat % 2 ^ lo) := by
  have hx := eq_fields x.toNat h
  have hlow := field_lt h (Nat.mod_lt n (Nat.two_pow_pos (hi + 1 - lo))) (Nat.mod_lt x.toNat (Nat.two_pow_pos lo))
  have htop : (x.toNat / 2 ^ (hi + 1) + 1) * 2 ^ (hi + 1) ≤ 2 ^ 64 := by
    have hdvd : 2 ^ 64 = 2 ^ (63 - hi) * 2 ^ (hi + 1) := by rw [← Nat.pow_add]; congr 1; omega
    rw [hdvd]
    refine Nat.mul_le_mul_right _ (Nat.succ_le_of_lt (Nat.div_lt_of_lt_mul ?_))
    rw [Nat.mul_comm, ← hdvd]
    exact x.isLt
  rw [Nat.add_mul, Nat.one_mul] at htop
  rw [setField, word, BitVec.toNat_ofNat, bits, Nat.mod_eq_of_lt] <;> omega

/-- What is written to a field is read from it. -/
theorem bits_setField_same : bits (setField x hi lo n) hi lo = n % 2 ^ (hi + 1 - lo) := by
  have hpow : 2 ^ (hi + 1) = 2 ^ (hi + 1 - lo) * 2 ^ lo := by rw [← Nat.pow_add]; congr 1; omega
  rw [bits, toNat_setField h h64, hpow, ← Nat.mul_assoc, ← Nat.add_assoc, ← Nat.add_mul, Nat.mul_comm _ (2 ^ lo),
    Nat.mul_add_div (Nat.two_pow_pos lo), Nat.div_eq_of_lt (Nat.mod_lt _ (Nat.two_pow_pos lo)), Nat.add_zero, Nat.mul_comm,
    Nat.mul_add_mod, Nat.mod_mod]

/-- A field above the one that is written stays. -/
theorem bits_setField_above {hi' lo' : Nat} (hab : hi < lo') : bits (setField x hi lo n) hi' lo' = bits x hi' lo' := by
  have hpow : 2 ^ lo' = 2 ^ (hi + 1) * 2 ^ (lo' - (hi + 1)) := by rw [← Nat.pow_add]; congr 1; omega
  have hlow := field_lt h (Nat.mod_lt n (Nat.two_pow_pos (hi + 1 - lo))) (Nat.mod_lt x.toNat (Nat.two_pow_pos lo))
  rw [bits, bits, toNat_setField h h64, hpow, ← Nat.div_div_eq_div_mul, ← Nat.div_div_eq_div_mul, Nat.mul_comm (x.toNat / _),
    Nat.mul_add_div (Nat.two_pow_pos _), Nat.div_eq_of_lt hlow, Nat.add_zero]

/-- A field below the one that is written stays. -/
theorem bits_setField_below {hi' lo' : Nat} (hbe : hi' < lo) (hlo : lo' ≤ hi') : bits (setField x hi lo n) hi' lo' = bits x hi' lo' := by
  have hmod : (setField x hi lo n).toNat % 2 ^ lo = x.toNat % 2 ^ lo := by
    have hpow : 2 ^ (hi + 1) = 2 ^ (hi + 1 - lo) * 2 ^ lo := by rw [← Nat.pow_add]; congr 1; omega
    rw [toNat_setField h h64, hpow, ← Nat.mul_assoc, ← Nat.add_assoc, ← Nat.add_mul, Nat.mul_comm _ (2 ^ lo), Nat.mul_add_mod,
      Nat.mod_mod]
  have hread (y : Nat) : y / 2 ^ lo' % 2 ^ (hi' + 1 - lo') = y % 2 ^ lo / 2 ^ lo' % 2 ^ (hi' + 1 - lo') := by
    have hpow : 2 ^ lo = 2 ^ lo' * 2 ^ (hi' + 1 - lo') * 2 ^ (lo - (hi' + 1)) := by
      rw [← Nat.pow_add, ← Nat.pow_add]; congr 1; omega
    rw [← Nat.mod_mul_right_div_self, ← Nat.mod_mul_right_div_self, hpow, Nat.mod_mul_right_mod]
  rw [bits, bits, hread, hmod, ← hread]

end

/-! ## What an event at a link leaves unchanged -/

@[simp] theorem tap_pk (die cls a b src ctx : Nat) (s : State) : (tap die cls a b src ctx s).pk = s.pk := by
  rw [tap, offerEvent, setUnit]

@[simp] theorem tapLink_pk (l kind : Nat) (s : State) : (tapLink l kind s).pk = s.pk := by
  simp only [tapLink, apply_ite State.pk, tap_pk, ite_self]

@[simp] theorem tapLink_mm (l kind : Nat) (s : State) : (tapLink l kind s).mm = s.mm := by
  simp only [tapLink, apply_ite State.mm, tap_mm, ite_self]

@[simp] theorem raiseMgmt_pk (b : Nat) (s : State) : (raiseMgmt b s).pk = s.pk := by
  simp only [raiseMgmt, raiseIrq]
  split <;> rfl

theorem setRoute_pk (up dir : Nat) (s : State) : (setRoute up dir s).pk = s.pk := by
  unfold setRoute
  extract_lets route gen regs changed raised
  split
  · rfl
  · obtain ⟨-, -, hpk, -⟩ := outsideKept_foldl (fun s t => settleTeam_kept t s) (tkeys raised.team) raised
    refine hpk.trans ?_
    unfold raised
    split
    · exact raiseMgmt_pk ..
    · rfl

theorem linkGoesDown_pk (l : Nat) (s : State) : (linkGoesDown l s).pk = s.pk := by
  unfold linkGoesDown
  split
  · exact (raiseMgmt_pk ..).trans ((tapLink_pk ..).trans (setRoute_pk ..))
  · rfl

/-- A link that goes down is not among those of the route. -/
theorem linkGoesDown_route {l : Nat} (hl : l < 4) (s : State) : bitAt (linkGoesDown l s).rg.route (12 + l) = false := by
  by_cases hup : bitAt s.rg.route (12 + l) = true
  · have hdown : linkGoesDown l s = raiseMgmt 0 (tapLink l 2 (rerouted l s)) := if_pos ⟨hl, hup⟩
    have hlt : bits s.rg.route 15 12 - 2 ^ l < 2 ^ 4 := Nat.lt_of_le_of_lt (Nat.sub_le ..) (Nat.mod_lt _ (by decide))
    have hbits : bits (linkGoesDown l s).rg.route 15 12 = bits s.rg.route 15 12 - 2 ^ l := by
      simp only [hdown, rg_raiseMgmt, rg_tapLink]
      exact up_setRoute hlt (packDirs_lt _) s
    have hset : (bits s.rg.route 15 12).testBit l = true := by rw [testBit_bits (by omega), hup]
    rw [← testBit_bits (hi := 15) (by omega), hbits]
    have hbit : ∀ l < 4, ∀ b < 2 ^ 4, b.testBit l = true → (b - 2 ^ l).testBit l = false := by decide
    exact hbit l hl _ (Nat.mod_lt _ (by decide)) hset
  · have hdown : linkGoesDown l s = s := if_neg fun h => hup h.2
    rw [hdown]
    simpa using hup

/-! ## Credit audits (R373) -/

theorem linkErr_pk (l hi lo n : Nat) (s : State) : (linkErr l hi lo n s).pk = s.pk := rfl
theorem linkErr_mm (l hi lo n : Nat) (s : State) : (linkErr l hi lo n s).mm = s.mm := rfl
theorem linkErr_route (l hi lo n : Nat) (s : State) : (linkErr l hi lo n s).rg.route = s.rg.route := rfl
theorem tick_rg (s : State) : (tick s).rg = s.rg := rfl

/-- The register of the link, after a count in one of its fields. -/
theorem linkErr_reg (l hi lo n : Nat) (s : State) :
    tget 0 l (linkErr l hi lo n s).rg.linkErr = setField (tget 0 l s.rg.linkErr) hi lo (bits (tget 0 l s.rg.linkErr) hi lo + n) :=
  tget_tset_same ..

/-- The transmitter has taken the credit returns that come before the audit flit, and the flit. -/
def auditTaken (l m : Nat) (rest : List (Nat × Nat)) (s : State) : State :=
  { s with pk := { s.pk with
    audits := tset [] l rest s.pk.audits
    credR := tset 0 l ((tget 0 l s.pk.credR + m) % 2 ^ 32) s.pk.credR
    avail := tset 0 l (tget 0 l s.pk.avail + m) s.pk.avail } }

/-- The credits that the transmitter has missed are restored. -/
def restored (l y d : Nat) (s : State) : State :=
  { s with pk := { s.pk with avail := tset 0 l (tget 0 l s.pk.avail + d) s.pk.avail, credR := tset 0 l y s.pk.credR } }

section
variable {s : State} {l y m : Nat} {rest : List (Nat × Nat)} (hq : tget [] l s.pk.audits = (y, m) :: rest)
include hq

theorem execAuditFlitReceive_dropped : execAuditFlitReceive l false s = .next (auditTaken l m rest s) := by
  simp [execAuditFlitReceive, hq, auditTaken]

theorem execAuditFlitReceive_taken {d : Nat} (hd : d < 2 ^ 32) (hy : ((tget 0 l s.pk.credR + m) % 2 ^ 32 + d) % 2 ^ 32 = y) :
    execAuditFlitReceive l true s = .next (if d = 0 then restored l y d (auditTaken l m rest s)
      else tapLink (linkOf l) 1 (linkErr (linkOf l) 31 0 d (restored l y d (auditTaken l m rest s)))) := by
  have hmissed : (y + 2 ^ 32 - (tget 0 l s.pk.credR + m) % 2 ^ 32) % 2 ^ 32 = d := by omega
  simp only [execAuditFlitReceive, hq, hmissed]
  rfl

end

/-! ## Replays (R374) -/

/-- A replay is counted and told of. -/
def replayed (l : Nat) (s : State) : State := tapLink (linkOf l) 0 (linkErr (linkOf l) 63 32 1 (tick s))

theorem replayed_pk (l : Nat) (s : State) : (replayed l s).pk = s.pk := by
  rw [replayed, tapLink_pk, linkErr_pk]
  rfl

theorem replayed_mm (l : Nat) (s : State) : (replayed l s).mm = s.mm := by
  rw [replayed, tapLink_mm, linkErr_mm]
  rfl

theorem replayed_count (l : Nat) (s : State) : bits (tget 0 (linkOf l) (replayed l s).rg.linkErr) 63 32 =
    (bits (tget 0 (linkOf l) s.rg.linkErr) 63 32 + 1) % 2 ^ 32 := by
  rw [replayed, rg_tapLink, linkErr_reg, bits_setField_same (by decide) (by decide), tick_rg]

theorem replayed_route (l : Nat) (s : State) : (replayed l s).rg.route = s.rg.route := by
  rw [replayed, rg_tapLink, linkErr_route, tick_rg]

/-- The replays of the flit that is oldest in direction `l`. -/
def withRetries (l n : Nat) (s : State) : State := { s with pk := { s.pk with retries := tset 0 l n s.pk.retries } }

theorem withRetries_same (l n : Nat) (s : State) : tget 0 l (withRetries l n s).pk.retries = n := tget_tset_same ..

section
variable {s : State} {l n : Nat} {ok : Bool} (hn : n = tget 0 l s.pk.retries + 1) (hok : ok = (pick [false, true] false s).1)
include hn hok

theorem execFlitReplay_eq : execFlitReplay l s = .next (if (if ok then 0 else n) < 8 ∨ 8 ≤ l then
    withRetries l (if ok then 0 else n) (replayed l s) else linkGoesDown (linkOf l) (withRetries l 0 (replayed l s))) := by
  rw [hn, hok, ← replayed_pk l s]
  rfl

theorem execFlitReplay_goesOn (h : ok = true ∨ n < 8 ∨ 8 ≤ l) :
    execFlitReplay l s = .next (withRetries l (if ok then 0 else n) (replayed l s)) := by
  rw [execFlitReplay_eq hn hok, if_pos]
  rcases h with h | h | h
  · exact .inl (by simp [h])
  · exact .inl (by split <;> omega)
  · exact .inr h

theorem execFlitReplay_eighth (hno : ok = false) (h8 : 8 ≤ n) (hl : l < 8) :
    execFlitReplay l s = .next (linkGoesDown (linkOf l) (withRetries l 0 (replayed l s))) := by
  rw [execFlitReplay_eq hn hok, if_neg]
  rw [hno]
  simp
  omega

end

/-! ## O50 -/

/-- Settles O50: the audit flit by the credits it carries and restores, a failed lane group by its spares, a replay by its count. -/
theorem linksAuditAndReplay : Obligations.LinksAuditAndReplay := by
  unfold Obligations.LinksAuditAndReplay
  dsimp only [exec]
  refine ⟨?send, ?receive, ?lane, ?port, ?replay⟩
  case send =>
    intro s l
    refine ⟨_, Config.countedEvents s.fresh, Config.countedEvents (s.fresh + 1) % (Config.countedEvents s.fresh + 1), rfl, ?_, ?_, ?_, rfl,
      rfl, rfl⟩
    · exact Nat.le_of_lt_succ (Nat.mod_lt _ (Nat.succ_pos _))
    · exact tget_tset_same ..
    · simp [tick]
  case receive =>
    rintro s l y m d got rest hq hy rfl
    refine ⟨⟨_, execAuditFlitReceive_dropped hq, ?_, ?_, ?_, rfl, rfl⟩, fun hd hlt => ⟨_, execAuditFlitReceive_taken hq hlt hd, ?_⟩⟩
    · exact tget_tset_same ..
    · exact tget_tset_same ..
    · exact tget_tset_same ..
    · rw [apply_ite State.pk, apply_ite State.rg, tapLink_pk, linkErr_pk, ite_self, rg_tapLink]
      refine ⟨?_, ?_, ?_, ?_, ?_, rfl⟩
      · exact tget_tset_same ..
      · simp [restored, auditTaken]
      · exact tget_tset_same ..
      · split
        · next h0 =>
          rw [h0, Nat.add_zero]
          exact (Nat.mod_mod _ _).symm
        · rw [linkErr_reg, bits_setField_same (by decide) (by decide)]
          rfl
      · split
        · rfl
        · rw [linkErr_reg, bits_setField_above (by decide) (by decide) _ _ (by decide)]
          rfl
  case lane =>
    intro s l hl
    refine ⟨fun hs => ?_, fun hs => ?_⟩
    · rw [execLaneGroupFailure, loseLane, if_pos hl, if_pos hs]
    · rw [execLaneGroupFailure, loseLane, if_pos hl, if_neg (by omega), execLinkDown]
  case port =>
    intro s l hl
    rw [execLaneGroupFailure, loseLane, if_neg (by omega)]
    rfl
  case replay =>
    intro s l n ok hn hok
    by_cases h : ok = true ∨ n < 8 ∨ 8 ≤ l
    · refine ⟨_, execFlitReplay_goesOn hn hok h, fun _ => ⟨?_, ?_, ?_, ?_⟩, fun hno h8 hl => ?_⟩
      · exact replayed_route l s
      · exact replayed_mm l s
      · exact withRetries_same ..
      · exact replayed_count l s
      · subst hno
        exact absurd h (by simp; omega)
    · have hno : ok = false := by simpa using fun h' => h (.inl h')
      refine ⟨_, execFlitReplay_eighth hn hok hno (by omega) (by omega), fun h' => absurd h' h, fun _ _ hl => ⟨?_, ?_⟩⟩
      · rw [linkGoesDown_pk]
        exact withRetries_same ..
      · exact linkGoesDown_route (by unfold linkOf; omega) _

end Sys2Proof.Machine
end

section
/-! PROOFS. O51 (R366 to R372, R379): function-level reset, retirement, margin plans. What the end of a grid and the flush of a core leave
unchanged, which lines and translations a scrubbed context leaves, and the planner by its readings. -/

namespace Sys2Proof.Machine

/-! ## What the end of a grid leaves unchanged (R363, R366, R370) -/

/-- `t` has the virtual devices' blocks, the dead cores and the waiting retirements of `s`. -/
abbrev DevicesKept (s t : State) : Prop := t.vs.vb = s.vs.vb ∧ t.rp.dead = s.rp.dead ∧ t.rp.moves = s.rp.moves

theorem devicesKept_trans {s t u : State} (h : DevicesKept s t) (k : DevicesKept t u) : DevicesKept s u := by
  obtain ⟨hv, hd, hm⟩ := h
  obtain ⟨kv, kd, km⟩ := k
  exact ⟨kv.trans hv, kd.trans hd, km.trans hm⟩

theorem devicesKept_foldl {α : Type} {f : State → α → State} (h : ∀ s a, DevicesKept s (f s a)) (l : List α) (s : State) :
    DevicesKept s (l.foldl f s) :=
  List.foldlRecOn l f (motive := DevicesKept s) ⟨rfl, rfl, rfl⟩ fun _ hu a _ => devicesKept_trans hu (h _ a)

theorem devicesKept_of_cacheOnly {s t : State} (h : CacheOnly s t) : DevicesKept s t := by
  obtain ⟨_, _, _, _, _, _, _, rfl, -⟩ := h
  exact ⟨rfl, rfl, rfl⟩

theorem devicesKept_dropTeam (t : Nat) (s : State) : DevicesKept s (dropTeam t s) :=
  devicesKept_trans (devicesKept_of_cacheOnly (leaveCores_kept t s)) ⟨rfl, rfl, rfl⟩

theorem devicesKept_reportEnd (g status : Nat) (s : State) : DevicesKept s (reportEnd g status s) := by
  unfold reportEnd
  dsimp only
  split <;> split <;> exact ⟨rfl, rfl, rfl⟩

theorem devicesKept_settleReport (g : Nat) (s : State) : DevicesKept s (settleReport g s) := by
  unfold settleReport
  split
  · exact ⟨rfl, rfl, rfl⟩
  · split
    · exact ⟨rfl, rfl, rfl⟩
    · exact devicesKept_trans (devicesKept_of_cacheOnly (cacheOnly_writeBackAll ..)) (devicesKept_reportEnd ..)

theorem devicesKept_endGrid (g status : Nat) (s : State) : DevicesKept s (endGrid g status s) := by
  have hdrop := devicesKept_foldl (fun s t => devicesKept_dropTeam t s) (teamsOf s g) s
  unfold endGrid
  extract_lets x dropped freed
  have hfreed : DevicesKept s freed := by
    unfold freed
    split
    · exact devicesKept_trans hdrop ⟨rfl, rfl, rfl⟩
    · exact hdrop
  split
  · exact ⟨rfl, rfl, rfl⟩
  · exact devicesKept_trans hfreed (devicesKept_trans (t := setGrid g _ freed) ⟨rfl, rfl, rfl⟩ (devicesKept_settleReport ..))

theorem devicesKept_loseLaunch (s : State) (g : Nat) : DevicesKept s (loseLaunch s g) := by
  unfold loseLaunch
  dsimp only
  split
  · exact devicesKept_endGrid ..
  · exact ⟨rfl, rfl, rfl⟩

/-! ## The lines and translations of a context (R366) -/

/-- No line, combining entry or translation is of context `v`. -/
def Forgotten (v : Nat) (s : State) : Prop :=
  (∀ l ∈ s.mm.l1, l.ctx ≠ v) ∧ (∀ l ∈ s.mm.comb, l.ctx ≠ v) ∧ ∀ e ∈ s.mm.xlat, e.asid ≠ v

/-- `t` has the contexts of the lines of `s`, its combining entries and its translations. -/
def SameLines (s t : State) : Prop :=
  t.mm.l1.map Line.ctx = s.mm.l1.map Line.ctx ∧ t.mm.comb = s.mm.comb ∧ t.mm.xlat = s.mm.xlat

theorem sameLines_trans {s t u : State} (h : SameLines s t) (k : SameLines t u) : SameLines s u := by
  obtain ⟨hl, hc, hx⟩ := h
  obtain ⟨kl, kc, kx⟩ := k
  exact ⟨kl.trans hl, kc.trans hc, kx.trans hx⟩

theorem forgotten_of_sameLines {v : Nat} {s t : State} (h : Forgotten v s) (k : SameLines s t) : Forgotten v t := by
  obtain ⟨hl, hc, hx⟩ := h
  obtain ⟨kl, kc, kx⟩ := k
  refine ⟨fun l hl' => ?_, kc ▸ hc, kx ▸ hx⟩
  have hmem : l.ctx ∈ s.mm.l1.map Line.ctx := kl ▸ List.mem_map_of_mem hl'
  obtain ⟨k, hk, he⟩ := List.mem_map.1 hmem
  exact he ▸ hl k hk

theorem sameLines_sendBack (core line : Nat) (s : State) : SameLines s (sendBack core line s) := by
  unfold sendBack
  split
  · exact ⟨rfl, rfl, rfl⟩
  · next l _ =>
    split
    · exact ⟨rfl, rfl, rfl⟩
    · obtain ⟨b, hb⟩ := markBad_mm l (pwriteMasked (line * 128) l.dirty l.data s)
      simp only [SameLines, dirWrite_mm, hb]
      refine ⟨?_, rfl, rfl⟩
      rw [List.map_map]
      refine List.map_congr_left fun k _ => ?_
      simp only [Function.comp_apply]
      split <;> rfl

theorem sameLines_writeBackLine (core line : Nat) (s : State) : SameLines s (writeBackLine core line s) := by
  unfold writeBackLine
  split
  · exact sameLines_sendBack ..
  · exact ⟨rfl, rfl, rfl⟩

theorem sameLines_writeBackAll (ls : List Line) (s : State) : SameLines s (writeBackAll ls s) :=
  List.foldlRecOn ls _ (motive := SameLines s) ⟨rfl, rfl, rfl⟩ fun _ hu _ _ => sameLines_trans hu (sameLines_writeBackLine ..)

/-- What is filled is a line of the context that asks for it; the other lines are those that were there. -/
theorem fillLine_lines (ctx core line : Nat) (uo wr : Bool) (s : State) :
    (∀ l ∈ (fillLine ctx core line uo wr s).mm.l1, l.ctx = ctx ∨ l.ctx ∈ s.mm.l1.map Line.ctx) ∧
    (fillLine ctx core line uo wr s).mm.comb = s.mm.comb ∧ (fillLine ctx core line uo wr s).mm.xlat = s.mm.xlat := by
  unfold fillLine
  split
  · exact ⟨fun l hl => .inr (List.mem_map_of_mem hl), rfl, rfl⟩
  · obtain ⟨hl1, hcomb, hxlat⟩ := sameLines_writeBackAll (s.mm.l1.filter (coversFor core)) s
    obtain ⟨d, hd⟩ := dirRead_mm ctx (dieOf core) line (tapLine ctx core line wr false (performDie core s))
    rw [show (tapLine ctx core line wr false (performDie core s)).mm = (performDie core s).mm from tap_mm ..] at hd
    simp only [hd]
    refine ⟨fun l hl => ?_, hcomb, hxlat⟩
    rcases List.mem_append.1 hl with hl | hl
    · exact .inr (hl1 ▸ List.mem_map_of_mem hl)
    · exact .inl (by rw [List.mem_singleton.1 hl])

/-- A drain moves an entry of the buffer into the L1: no new context comes in, and nothing stays at that core and line. -/
theorem drainEntry_lines (core line : Nat) (s : State) :
    (∀ l ∈ (drainEntry core line s).mm.l1, l.ctx ∈ s.mm.comb.map Line.ctx ∨ l.ctx ∈ s.mm.l1.map Line.ctx) ∧
    (∀ l ∈ (drainEntry core line s).mm.comb, l ∈ s.mm.comb ∧ ¬ (l.core = core ∧ l.line = line)) ∧
    (drainEntry core line s).mm.xlat = s.mm.xlat := by
  unfold drainEntry
  split
  · next hnone =>
    refine ⟨fun l hl => .inr (List.mem_map_of_mem hl), fun l hl => ⟨hl, fun hkey => ?_⟩, rfl⟩
    have := List.find?_eq_none.1 hnone l hl
    simp [hkey] at this
  · next e he =>
    obtain ⟨hl1, hcomb, hxlat⟩ := fillLine_lines e.ctx core line true true
      { s with mm := { s.mm with comb := dropLine core line s.mm.comb } }
    refine ⟨fun l hl => ?_, fun l hl => ?_, hxlat⟩
    · obtain ⟨k, hk, rfl⟩ := List.mem_map.1 hl
      have hctx := (hl1 k hk).imp_left fun (h : k.ctx = e.ctx) => h ▸ List.mem_map_of_mem (f := Line.ctx) (findLine_some he).1
      split
      · exact hctx
      · exact hctx
    · obtain ⟨hmem, hkey⟩ := List.mem_filter.1 ((congrArg (l ∈ ·) hcomb).mp hl)
      exact ⟨hmem, fun hat => by simp [hat] at hkey⟩

theorem forgotten_drainEntry {v : Nat} {s : State} (h : Forgotten v s) (core line : Nat) : Forgotten v (drainEntry core line s) := by
  obtain ⟨hl, hc, hx⟩ := h
  obtain ⟨kl, kc, kx⟩ := drainEntry_lines core line s
  refine ⟨fun l hmem => ?_, fun l hmem => hc l (kc l hmem).1, kx ▸ hx⟩
  rcases kl l hmem with hm | hm <;> obtain ⟨k, hk, he⟩ := List.mem_map.1 hm
  · exact he ▸ hc k hk
  · exact he ▸ hl k hk

/-- After the entries of some lines have been drained, none of those lines is in the buffer. -/
theorem comb_foldl_drainEntry (ls : List Line) (s : State) :
    ∀ k ∈ (ls.foldl (fun s l => drainEntry l.core l.line s) s).mm.comb, k ∈ s.mm.comb ∧ ∀ l ∈ ls, ¬ (k.core = l.core ∧ k.line = l.line) := by
  induction ls generalizing s with
  | nil => exact fun k hk => ⟨hk, fun l hl => absurd hl List.not_mem_nil⟩
  | cons a ls ih =>
    intro k hk
    obtain ⟨hmem, hrest⟩ := ih (drainEntry a.core a.line s) k hk
    obtain ⟨-, hcomb, -⟩ := drainEntry_lines a.core a.line s
    obtain ⟨hin, hne⟩ := hcomb k hmem
    exact ⟨hin, fun l hl => (List.mem_cons.1 hl).elim (fun e => e ▸ hne) (hrest l)⟩

/-- What is in flight towards the caches of a context, and then of the caches themselves. -/
def drained (s : State) (ctx : Nat) : State :=
  let s := (s.mm.comb.filter fun l => l.ctx == ctx).foldl (fun s l => drainEntry l.core l.line s) s
  (s.mm.l1.filter fun l => l.ctx == ctx).foldl (fun s l => writeBackLine l.core l.line s) s

theorem forgetCtx_eq (s : State) (ctx : Nat) : forgetCtx s ctx = { drained s ctx with mm := { (drained s ctx).mm with
    l1 := (drained s ctx).mm.l1.filter fun l => l.ctx != ctx, xlat := (drained s ctx).mm.xlat.filter fun e => e.asid != ctx } } := rfl

theorem comb_drained (s : State) (ctx : Nat) : ∀ l ∈ (drained s ctx).mm.comb, l.ctx ≠ ctx := by
  intro k hk hctx
  obtain ⟨-, hcomb, -⟩ := sameLines_writeBackAll
    (((s.mm.comb.filter fun l => l.ctx == ctx).foldl (fun s l => drainEntry l.core l.line s) s).mm.l1.filter fun l => l.ctx == ctx)
    ((s.mm.comb.filter fun l => l.ctx == ctx).foldl (fun s l => drainEntry l.core l.line s) s)
  obtain ⟨hmem, hgone⟩ := comb_foldl_drainEntry (s.mm.comb.filter fun l => l.ctx == ctx) s k (hcomb ▸ hk)
  exact hgone k (List.mem_filter.2 ⟨hmem, by simpa using hctx⟩) ⟨rfl, rfl⟩

theorem forgotten_forgetCtx (s : State) (ctx : Nat) : Forgotten ctx (forgetCtx s ctx) := by
  rw [forgetCtx_eq]
  refine ⟨fun l hl => ?_, comb_drained s ctx, fun e he => ?_⟩
  · simpa using (List.mem_filter.1 hl).2
  · simpa using (List.mem_filter.1 he).2

theorem forgotten_forgetCtx_other {v : Nat} {s : State} (h : Forgotten v s) (ctx : Nat) : Forgotten v (forgetCtx s ctx) := by
  have hdrain : Forgotten v ((s.mm.comb.filter fun l => l.ctx == ctx).foldl (fun s l => drainEntry l.core l.line s) s) :=
    List.foldlRecOn _ _ (motive := Forgotten v) h fun _ hu l _ => forgotten_drainEntry hu l.core l.line
  obtain ⟨hl, hc, hx⟩ : Forgotten v (drained s ctx) := forgotten_of_sameLines hdrain (sameLines_writeBackAll ..)
  rw [forgetCtx_eq]
  exact ⟨fun l hm => hl l (List.mem_filter.1 hm).1, hc, fun e hm => hx e (List.mem_filter.1 hm).1⟩

/-- The device's own context comes first among those that are forgotten, and the others bring nothing of it back. -/
theorem forgotten_ctxs (v : Nat) (cs : List Nat) (s : State) : Forgotten v ((v :: cs).foldl forgetCtx s) :=
  List.foldlRecOn cs forgetCtx (motive := Forgotten v) (forgotten_forgetCtx s v) fun _ hu c _ => forgotten_forgetCtx_other hu c

/-! ## A scrubbed device (R366, R367) -/

/-- `t` has the fault records, the peers' traffic and the virtual devices of `s`. -/
abbrev TrafficKept (s t : State) : Prop := t.bd = s.bd ∧ t.pk = s.pk ∧ t.vs = s.vs

theorem trafficKept_trans {s t u : State} (h : TrafficKept s t) (k : TrafficKept t u) : TrafficKept s u := by
  obtain ⟨hb, hp, hv⟩ := h
  obtain ⟨kb, kp, kv⟩ := k
  exact ⟨kb.trans hb, kp.trans hp, kv.trans hv⟩

theorem trafficKept_foldl {α : Type} {f : State → α → State} (h : ∀ s a, TrafficKept s (f s a)) (l : List α) (s : State) :
    TrafficKept s (l.foldl f s) :=
  List.foldlRecOn l f (motive := TrafficKept s) ⟨rfl, rfl, rfl⟩ fun _ hu a _ => trafficKept_trans hu (h _ a)

theorem trafficKept_of_cacheOnly {s t : State} (h : CacheOnly s t) : TrafficKept s t := by
  obtain ⟨_, _, _, _, _, _, _, rfl, -⟩ := h
  exact ⟨rfl, rfl, rfl⟩

theorem trafficKept_of_memOnly {s t : State} (h : MemOnly s t) : TrafficKept s t := by
  obtain ⟨_, _, rfl⟩ := h
  exact ⟨rfl, rfl, rfl⟩

theorem trafficKept_forgetCtx (s : State) (ctx : Nat) : TrafficKept s (forgetCtx s ctx) := by
  have hdrain := trafficKept_foldl (fun s (l : Line) => trafficKept_of_cacheOnly (cacheOnly_drainEntry l.core l.line s))
    (s.mm.comb.filter fun l => l.ctx == ctx) s
  have h : TrafficKept s (drained s ctx) := trafficKept_trans hdrain (trafficKept_of_cacheOnly (cacheOnly_writeBackAll ..))
  rw [forgetCtx_eq]
  exact h

theorem trafficKept_zeroRange (pa n : Nat) (s : State) : TrafficKept s (zeroRange pa n s) :=
  trafficKept_trans (u := zeroRange pa n s)
    (trafficKept_foldl (fun _ p => trafficKept_of_memOnly (memOnly_viewPage p .none _)) (pagesOf pa n) s) ⟨rfl, rfl, rfl⟩

/-- No entry is left under a key that is dropped. -/
theorem tget_tdrop_of_drop {α : Type} (d : α) {f : Nat → Bool} {k : Nat} (h : f k = true) (t : Tab α) : tget d k (tdrop f t) = d := by
  induction t with
  | nil => rfl
  | cons p t ih =>
    unfold tdrop at ih ⊢
    by_cases hp : p.1 = k
    · rw [List.filter_cons_of_neg (by simp [hp, h])]
      exact ih
    · rw [List.filter_cons]
      split
      · rw [tget, if_neg hp]
        exact ih
      · exact ih

/-- What a scrub does to the queues that other parts fill; the rest of it touches memory, the caches, the teams and the Gloss units. -/
theorem scrubDevice_traffic (v : Nat) (s : State) :
    (scrubDevice v s).bd.frecs = s.bd.frecs.filter (fun r => r.vdev != v) ∧
    (scrubDevice v s).pk.inbox = tdrop (fun k => k / 64 == v) s.pk.inbox ∧ (scrubDevice v s).vs = s.vs := by
  unfold scrubDevice
  extract_lets cs bindery package cleared b zeroed
  have hzero : TrafficKept cleared zeroed := by
    unfold zeroed
    split
    · exact trafficKept_trans (trafficKept_zeroRange ..) (trafficKept_zeroRange ..)
    · exact ⟨rfl, rfl, rfl⟩
  obtain ⟨hbd, hpk, hvs⟩ : TrafficKept cleared (scrubTeams v (cs.foldl forgetCtx zeroed)) :=
    trafficKept_trans hzero (trafficKept_foldl trafficKept_forgetCtx cs zeroed)
  rw [hbd, hpk, hvs]
  exact ⟨rfl, rfl, rfl⟩

theorem forgotten_scrubDevice (v : Nat) (s : State) : Forgotten v (scrubDevice v s) :=
  forgotten_ctxs v _ _

section
variable {s : State} {v : Nat}

theorem execFunctionLevelReset_waits (h : bitAt s.rg.flrCtl 63 = false ∨ (s.hs.flrWaits = true ∧ bitAt s.rg.ckptCtl 63 = true)) :
    execFunctionLevelReset s = .next s := by
  rw [execFunctionLevelReset, if_pos]
  rcases h with h | ⟨hw, hc⟩
  · simp [h]
  · simp [hw, hc]

variable (hon : bitAt s.rg.flrCtl 63 = true) (hgo : s.hs.flrWaits = false ∨ bitAt s.rg.ckptCtl 63 = false) (hv : v = bits s.rg.flrCtl 5 0)
include hon hgo hv

theorem execFunctionLevelReset_runs : execFunctionLevelReset s = .next (if undrained (stopDevice v s) v then stopDevice v s
    else { scrubDevice v (stopDevice v s) with
      rg := { (scrubDevice v (stopDevice v s)).rg with flrCtl := word v } }) := by
  rw [execFunctionLevelReset, if_neg, hv]
  rcases hgo with h | h <;> simp [hon, h]

end

/-- A stopped device has no entries in its host queues; its block stays. -/
theorem stopDevice_vs (v : Nat) (s : State) :
    tget [] (v * 4) (stopDevice v s).vs.hostq = [] ∧ (stopDevice v s).vs.vb = s.vs.vb := by
  unfold stopDevice
  extract_lets cs gs ended mine vs
  obtain ⟨hvb, -⟩ := devicesKept_foldl (fun s g => devicesKept_endGrid g 0x17 s) gs s
  refine ⟨tget_tdrop_of_drop [] ?_ _, hvb⟩
  simp [mine, cs, ctxsOf]

/-! ## A core is emptied (R369) -/

/-- The caches of a core that moves have gone home, and the barriers that it has arrived at excuse it. -/
def emptied (core : Nat) (s : State) : State := writeBackCore core true (drainCore core (forceMasks core s))

theorem forceMasks_eq (core : Nat) (s : State) : ∃ m f, forceMasks core s = { s with rp := { s.rp with mask := m, forced := f } } := by
  refine List.foldlRecOn [0, 1, 2, 3] _ (motive := fun u : State => ∃ m f, u = { s with rp := { s.rp with mask := m, forced := f } })
    ⟨s.rp.mask, s.rp.forced, rfl⟩ fun u hu c _ => ?_
  obtain ⟨m, f, rfl⟩ := hu
  dsimp only
  split <;> exact ⟨_, _, rfl⟩

theorem emptied_kept (core : Nat) (s : State) : (emptied core s).rg = s.rg ∧ (emptied core s).team = s.team ∧
    (emptied core s).rp.dead = s.rp.dead ∧ (emptied core s).rp.moves = s.rp.moves := by
  obtain ⟨m, f, hm⟩ := forceMasks_eq core s
  obtain ⟨_, _, _, _, _, _, _, h, -⟩ := cacheOnly_trans (cacheOnly_drainCore core (forceMasks core s)) (cacheOnly_writeBackCore core true _)
  rw [emptied, h, hm]
  exact ⟨rfl, rfl, rfl, rfl⟩

/-- A core without lines and entries has nothing that goes home. -/
theorem emptied_mm {core : Nat} {s : State} (h : ∀ l ∈ s.mm.l1 ++ s.mm.comb, l.core ≠ core) : (emptied core s).mm = s.mm := by
  obtain ⟨m, f, hm⟩ := forceMasks_eq core s
  have hcomb : s.mm.comb.filter (fun l => l.core == core) = [] :=
    List.filter_eq_nil_iff.2 fun l hl => by simpa using h l (List.mem_append_right _ hl)
  have hl1 : s.mm.l1.filter (fun l => l.core == core && (true || !l.uo)) = [] :=
    List.filter_eq_nil_iff.2 fun l hl => by simpa using h l (List.mem_append_left _ hl)
  have hdrain : drainCore core (forceMasks core s) = forceMasks core s := by
    rw [drainCore, hm, hcomb, List.foldl_nil]
  rw [emptied, hdrain, writeBackCore, hm, hl1]
  rfl

/-! ## Retirement (R368 to R370) -/

/-- The core is the next spare of its die, which has one spare less. -/
def onSpare (core n : Nat) (s : State) : State :=
  { s with
    rp := { s.rp with phys := tset .none core (.some (256 - n)) s.rp.phys }
    rg := { s.rg with marginLog := tset 16 (dieOf core) (setField (tget 16 (dieOf core) s.rg.marginLog) 7 0 (n - 1)) s.rg.marginLog } }

theorem onSpare_phys (core n : Nat) (s : State) : tget .none core (onSpare core n s).rp.phys = .some (256 - n) := by
  simp [onSpare]

theorem onSpare_dead (core n : Nat) (s : State) : (onSpare core n s).rp.dead = s.rp.dead := rfl
theorem onSpare_moves (core n : Nat) (s : State) : (onSpare core n s).rp.moves = s.rp.moves := rfl
theorem onSpare_mm (core n : Nat) (s : State) : (onSpare core n s).mm = s.mm := rfl

theorem onSpare_spares {core n : Nat} (h : n < 256) (s : State) :
    bits (tget 16 (dieOf core) (onSpare core n s).rg.marginLog) 7 0 = n - 1 := by
  rw [show tget 16 (dieOf core) (onSpare core n s).rg.marginLog = setField (tget 16 (dieOf core) s.rg.marginLog) 7 0 (n - 1) from
    tget_tset_same .., bits_setField_same (by decide) (by decide)]
  omega

section
variable {s : State} {core n : Nat} (hfree : occupants s core = []) (hn : n = bits (tget 16 (dieOf core) s.rg.marginLog) 7 0)
include hn

theorem spares_emptied : spares (emptied core s) (dieOf core) = n := by
  obtain ⟨hrg, -⟩ := emptied_kept core s
  rw [spares, hrg, hn]

include hfree

/-- A core without teams moves onto the first spare. -/
theorem retireCore_spare (h0 : n ≠ 0) : retireCore core s = onSpare core n (emptied core s) := by
  have hspares := spares_emptied hn
  unfold retireCore
  simp only [hfree, List.foldl_nil]
  rw [show writeBackCore core true (drainCore core (forceMasks core s)) = emptied core s from rfl, hspares, if_neg h0]
  rfl

theorem retireCore_dies (h0 : n = 0) : retireCore core s = loseCore core (emptied core s) := by
  have hspares := spares_emptied hn
  unfold retireCore
  simp only [hfree, List.foldl_nil]
  rw [show writeBackCore core true (drainCore core (forceMasks core s)) = emptied core s from rfl, hspares, if_pos h0]

end

/-- CORE_RETIRE shows a core, and no retirement under way. -/
def atRest (core : Nat) (s : State) : State := { s with rg := { s.rg with coreRetire := word core } }

/-- CORE_RETIRE shows a core, and no retirement waits. -/
def allRetired (core : Nat) (s : State) : State :=
  { s with rg := { s.rg with coreRetire := word core }, rp := { s.rp with moves := [] } }

section
variable (core : Nat) (s : State)
theorem allRetired_phys : (allRetired core s).rp.phys = s.rp.phys := rfl
theorem allRetired_dead : (allRetired core s).rp.dead = s.rp.dead := rfl
theorem allRetired_margins : (allRetired core s).rg.marginLog = s.rg.marginLog := rfl
theorem allRetired_cause : (allRetired core s).rg.mgmtCause = s.rg.mgmtCause := rfl
theorem allRetired_coreRetire : (allRetired core s).rg.coreRetire = word core := rfl
theorem allRetired_mm : (allRetired core s).mm = s.mm := rfl
end

theorem nextRetire_idle {core : Nat} {s : State} (h : s.rp.moves = []) : nextRetire (atRest core s) = allRetired core s := by
  rw [nextRetire, show (atRest core s).rp.moves = [] from h]
  rfl

theorem rp_raiseMgmt (b : Nat) (s : State) : (raiseMgmt b s).rp = s.rp := by
  simp only [raiseMgmt, raiseIrq]
  split <;> rfl

theorem mm_raiseMgmt (b : Nat) (s : State) : (raiseMgmt b s).mm = s.mm := by
  simp only [raiseMgmt, raiseIrq]
  split <;> rfl

/-- A lost core is dead and told of; the retirements that wait go on waiting. -/
theorem loseCore_marks (core : Nat) (s : State) : (loseCore core s).rp.dead = tset false core true s.rp.dead ∧
    (loseCore core s).rp.moves = s.rp.moves ∧ bitAt (loseCore core s).rg.mgmtCause 5 = true := by
  unfold loseCore
  extract_lets rp marked ts woken ended
  have hwoken : woken.rp = marked.rp :=
    List.foldlRecOn ts _ (motive := fun u : State => u.rp = marked.rp) rfl fun _ h _ _ => h
  obtain ⟨-, hdead, hmoves⟩ := devicesKept_foldl devicesKept_loseLaunch ((tkeys woken.team).map gridOfT).eraseDups woken
  rw [rp_raiseMgmt, rg_raiseMgmt]
  refine ⟨by rw [hdead, hwoken], by rw [hmoves, hwoken], ?_⟩
  rw [bitAt, BitVec.getLsbD_or]
  exact Bool.or_true _

/-- Where there are no teams, no launch ends with a lost core. -/
theorem loseCore_mm {core : Nat} {s : State} (h : s.team = []) : (loseCore core s).mm = s.mm := by
  unfold loseCore
  simp only [h]
  exact mm_raiseMgmt ..

section
variable {s : State} {core : Nat} (hon : bitAt s.rg.coreRetire 63 = true) (hcore : core = bits s.rg.coreRetire 9 0)
include hon hcore

theorem execCoreRetirement_runs : execCoreRetirement s =
    .next (nextRetire (atRest core (if mayRetire s core then retireCore core s else s))) := by
  rw [execCoreRetirement, if_pos hon, hcore]
  rfl

theorem execCoreRetirement_last (hmay : mayRetire s core = true) (hmoves : (retireCore core s).rp.moves = []) :
    execCoreRetirement s = .next (allRetired core (retireCore core s)) := by
  rw [execCoreRetirement_runs hon hcore, hmay, if_pos rfl, nextRetire_idle hmoves]

end

theorem bitAt_word_small {n i : Nat} (h : n < 2 ^ i) : bitAt (word n) i = false := by
  rw [bitAt, word, BitVec.getLsbD_ofNat, Nat.testBit_lt_two_pow h, Bool.and_false]

/-- A retirement that may start is in CORE_RETIRE with its busy bit. -/
theorem busy_word {c : Nat} (h : c < 960) : bitAt (word (2 ^ 63 + c)) 63 = true ∧ bits (word (2 ^ 63 + c)) 9 0 = c := by
  have hval : (word (2 ^ 63 + c)).toNat = 2 ^ 63 + c := by
    rw [word, BitVec.toNat_ofNat]
    omega
  constructor
  · rw [bitAt, ← BitVec.testBit_toNat, hval, Nat.testBit_two_pow_add_eq, Nat.testBit_lt_two_pow (by omega)]
    rfl
  · rw [bits, hval]
    omega

theorem execCoreRetirement_next {s : State} {core c : Nat} {before cs : List Nat} (hon : bitAt s.rg.coreRetire 63 = true)
    (hcore : core = bits s.rg.coreRetire 9 0) (hstays : 960 ≤ core) (hmoves : s.rp.moves = before ++ c :: cs)
    (hbefore : ∀ b ∈ before, mayRetire s b = false) (hc : c < 960) (halive : tget false c s.rp.dead = false) :
    execCoreRetirement s = .next { s with
      rg := { s.rg with coreRetire := word (2 ^ 63 + c) }, rp := { s.rp with moves := cs } } := by
  have hidle : mayRetire s core = false := by simp [mayRetire, Nat.not_lt.2 hstays]
  have hmay : mayRetire s c = true := by simp [mayRetire, hc, halive]
  have hbit : bitAt (word core) 63 = false := bitAt_word_small (by have : core < 2 ^ 10 := hcore ▸ Nat.mod_lt _ (by decide); omega)
  have hdrop : s.rp.moves.dropWhile (fun b => !mayRetire s b) = c :: cs := by
    rw [hmoves, List.dropWhile_append_of_pos (fun b hb => by simp [hbefore b hb])]
    simp [hmay]
  have hnext : nextRetire (atRest core s) = startRetire c { atRest core s with rp := { s.rp with moves := cs } } := by
    unfold nextRetire
    simp only [show (atRest core s).rp.moves.dropWhile (fun b => !mayRetire (atRest core s) b) = c :: cs from hdrop]
    rfl
  have hstart : startRetire c { atRest core s with rp := { s.rp with moves := cs } } = { s with
      rg := { s.rg with coreRetire := word ((if mayRetire s c then 2 ^ 63 else 0) + c) }, rp := { s.rp with moves := cs } } :=
    if_neg (by rw [Bool.not_eq_true]; exact hbit)
  rw [execCoreRetirement_runs hon hcore, hidle, if_neg Bool.false_ne_true, hnext, hstart, hmay, if_pos rfl]

/-! ## Margin plans (R371, R372) -/

theorem planUnit_keeps {r : Nat} (h : 20 ≤ r) (v n : Nat) (rest : List Nat) : planUnit (n + 1) (r :: rest) v = (v, false) := by
  rw [planUnit, if_pos h]

theorem planUnit_raises {r : Nat} (h12 : 12 ≤ r) (h20 : r < 20) (v n : Nat) (rest : List Nat) :
    planUnit (n + 1) (r :: rest) v = (min 50 (v + 10), false) := by
  rw [planUnit, if_neg (by omega), if_pos h12]

theorem planUnit_retires {r v : Nat} (hr : r < 12) (hv : 50 ≤ v) (n : Nat) (rest : List Nat) :
    planUnit (n + 1) (r :: rest) v = (50, true) := by
  rw [planUnit, if_neg (by omega), if_neg (by omega), if_pos hv]

/-- Below 12 with voltage to spare, the unit is raised and read again. -/
theorem planUnit_steps {r v : Nat} (hr : r < 12) (hv : v < 50) (n : Nat) (rest : List Nat) :
    planUnit (n + 1) (r :: rest) v = planUnit n (if rest.isEmpty then [r] else rest) (min 50 (v + 10)) := by
  rw [planUnit, if_neg (by omega), if_neg (by omega), if_neg (by omega)]

/-- A unit whose readings stay below 12 is retired once it is at +50: every step that is left raises it by 10. -/
theorem planUnit_stuck {r : Nat} (hr : r < 12) (n v : Nat) (h : 50 ≤ v + 10 * n) : planUnit (n + 1) [r] v = (50, true) := by
  induction n generalizing v with
  | zero => exact planUnit_retires hr (by omega) 0 []
  | succ n ih =>
    by_cases hv : 50 ≤ v
    · exact planUnit_retires hr hv _ []
    · rw [planUnit_steps hr (by omega)]
      exact ih _ (by omega)

/-- MARGIN_LOG after a plan: the spares stand at the bottom, and above them how many units retired. -/
theorem bits_planLog {hours least raised retired n : Nat} (hn : n < 256) :
    let log := word (hours * 2 ^ 32 + least % 256 * 2 ^ 24 + raised % 256 * 2 ^ 16 + retired % 256 * 2 ^ 8 + n)
    bits log 7 0 = n ∧ bits log 15 8 = retired % 256 := by
  simp only [bits, word, BitVec.toNat_ofNat]
  omega

/-- A plan that retires nothing writes the voltages and the log, and goes on. -/
theorem execMarginPlan_keeps {s : State} {die : Nat} {us : List Canary}
    (hkeep : ∀ c ∈ us, (planUnit 7 c.slack (tget 0 (unitKey s die c) s.rp.volt)).2 = false) :
    ∃ t hours least raised, execMarginPlan die us s = .next t ∧
      t.rp.volt = us.foldl (fun v c => tset 0 (unitKey s die c) (planUnit 7 c.slack (tget 0 (unitKey s die c) s.rp.volt)).1 v) s.rp.volt ∧
      tget 16 die t.rg.marginLog =
        word (hours * 2 ^ 32 + least % 256 * 2 ^ 24 + raised % 256 * 2 ^ 16 + 0 % 256 * 2 ^ 8 + spares s die) := by
  unfold execMarginPlan
  extract_lets old plan raised retired least volt log monitored regs repair ticked
  have hnone : plan.filter (·.2.2) = [] := by
    refine List.filter_eq_nil_iff.2 fun p hp => ?_
    obtain ⟨c, hc, rfl⟩ := List.mem_map.1 hp
    simpa using hkeep c hc
  refine ⟨ticked, (Config.hours s.fresh).toNat, least, raised, ?_, ?_, ?_⟩
  · rw [hnone]
    rfl
  · exact List.foldl_map ..
  · have hret : retired = 0 := by unfold retired; rw [hnone]; rfl
    rw [← hret]
    exact tget_tset_same ..

/-! ## O51 -/

/-- Settles O51: the reset by what a scrub forgets, a retirement by the spares of its die, the planner by its readings. -/
theorem resetsAndRetirements : Obligations.ResetsAndRetirements := by
  unfold Obligations.ResetsAndRetirements
  dsimp only [exec]
  refine ⟨fun _ => execFunctionLevelReset_waits, ?reset, ?idle, ?retire, ?next, ?plan, fun r v n h => planUnit_keeps h v n [],
    fun r v n h12 h20 => planUnit_raises h12 h20 v n [], fun r v n rest hr hv => planUnit_retires hr hv n rest, ?steps,
    fun r v hr => planUnit_stuck hr 6 v (by omega)⟩
  case reset =>
    intro s v hv64 hon hgo hv
    have hruns := execFunctionLevelReset_runs hon hgo hv
    refine ⟨fun hu => hruns.trans (by rw [hu, if_pos rfl]), fun hu => ⟨_, hruns.trans (by rw [hu, if_neg Bool.false_ne_true]), ?_⟩⟩
    obtain ⟨hfrecs, hinbox, hvs⟩ := scrubDevice_traffic v (stopDevice v s)
    obtain ⟨hl1, -, hxlat⟩ := forgotten_scrubDevice v (stopDevice v s)
    obtain ⟨hhostq, hvb⟩ := stopDevice_vs v s
    refine ⟨bitAt_word_small (by omega), fun r hr => ?_, hxlat, hl1, fun m hm => ?_, ?_, ?_⟩
    · rw [hfrecs] at hr
      simpa using (List.mem_filter.1 hr).2
    · rw [hinbox]
      exact tget_tdrop_of_drop [] (by rw [beq_iff_eq]; omega) _
    · rw [hvs, hhostq]
    · rw [hvs, hvb]
  case idle =>
    intro s h
    rw [execCoreRetirement, h]
    rfl
  case retire =>
    intro s core n hon hcore hlt halive hn hfree hmoves
    have hmay : mayRetire s core = true := by simp [mayRetire, hlt, halive]
    have hbit : bitAt (word core) 63 = false := bitAt_word_small (by omega)
    obtain ⟨-, hteam, hdead, hstay⟩ := emptied_kept core s
    refine ⟨fun h0 => ?_, fun h0 => ?_⟩
    · have hspare := retireCore_spare hfree hn h0
      refine ⟨_, execCoreRetirement_last hon hcore hmay ?_, ?_⟩
      · rw [hspare, onSpare_moves, hstay, hmoves]
      · rw [allRetired_phys, allRetired_dead, allRetired_margins, allRetired_coreRetire, allRetired_mm, hspare, onSpare_phys, onSpare_dead,
          onSpare_mm, hdead, onSpare_spares (hn ▸ Nat.mod_lt _ (by decide))]
        exact ⟨rfl, rfl, hbit, halive, emptied_mm⟩
    · have hlost := retireCore_dies hfree hn h0
      obtain ⟨kdead, kmoves, kcause⟩ := loseCore_marks core (emptied core s)
      refine ⟨_, execCoreRetirement_last hon hcore hmay ?_, ?_⟩
      · rw [hlost, kmoves, hstay, hmoves]
      · rw [allRetired_dead, allRetired_cause, allRetired_coreRetire, allRetired_mm, hlost, kdead]
        refine ⟨tget_tset_same .., kcause, hbit, fun hl ht => ?_⟩
        exact (loseCore_mm (hteam.trans ht)).trans (emptied_mm hl)
  case next =>
    intro s core c before cs hon hcore hstays hmoves hbefore hc halive
    refine ⟨_, execCoreRetirement_next hon hcore hstays hmoves hbefore hc halive, rfl, ?_⟩
    exact busy_word hc
  case plan =>
    intro s die us _ hkeep
    obtain ⟨t, hours, least, raised, ht, hvolt, hlog⟩ := execMarginPlan_keeps hkeep
    obtain ⟨hspares, hretired⟩ := bits_planLog (hours := hours) (least := least) (raised := raised) (retired := 0)
      (n := spares s die) (Nat.mod_lt _ (by decide))
    refine ⟨t, ht, ?_, ?_, fun c hc => ?_⟩
    · rw [hlog, hspares]
      rfl
    · rw [hlog, hretired]
    · subst hc
      rw [hvolt]
      exact tget_tset_same ..
  case steps =>
    intro r q v n rest hr hv
    have hstep (k : Nat) : planUnit (k + 1) (r :: q :: rest) v = planUnit k (q :: rest) (min 50 (v + 10)) := planUnit_steps hr hv k _
    refine ⟨hstep n, fun hq => ?_, fun h12 h20 => ?_, fun hq hv40 => ?_⟩
    · rw [hstep, planUnit_keeps hq]
    · rw [hstep, planUnit_raises h12 h20]
      congr 1
      omega
    · rw [hstep, planUnit_retires hq (by omega)]

end Sys2Proof.Machine
end

section
/-! PROOFS. O52 (R364, R365, R380, R381): soft errors and checkpoints. What an uncorrectable error leaves of the error counts, what a range
of a table reads as where it is moved, and the checkpoint of a module whose caches are empty. -/

namespace Sys2Proof.Machine

/-! ## The error counts (R365) -/

section
variable (die at_ : Nat) (s : State) {e : SoftErr}

theorem logError_other {d : Nat} (h : d ≠ die) (e : SoftErr) :
    tget 0 d (logError e die at_ s).rg.eccLog = tget 0 d s.rg.eccLog := tget_tset_ne _ _ h _

theorem logError_corrected (h : e.corr = true) :
    bits (tget 0 die (logError e die at_ s).rg.eccLog) 47 16 = min (bits (tget 0 die s.rg.eccLog) 47 16 + 1) (2 ^ 32 - 1) ∧
    bits (tget 0 die (logError e die at_ s).rg.eccLog) 63 48 = bits (tget 0 die s.rg.eccLog) 63 48 := by
  have hlog : tget 0 die (logError e die at_ s).rg.eccLog =
      setField (tget 0 die s.rg.eccLog) 47 16 (min (bits (tget 0 die s.rg.eccLog) 47 16 + 1) (2 ^ 32 - 1)) := by
    simp [logError, h]
  rw [hlog, bits_setField_same (by decide) (by decide), bits_setField_above (by decide) (by decide) _ _ (by decide)]
  exact ⟨Nat.mod_eq_of_lt (by omega), rfl⟩

theorem logError_uncorrected (h : e.corr = false) :
    bits (tget 0 die (logError e die at_ s).rg.eccLog) 63 48 = min (bits (tget 0 die s.rg.eccLog) 63 48 + 1) 65535 ∧
    bits (tget 0 die (logError e die at_ s).rg.eccLog) 15 12 = errUnit e.place ∧
    bits (tget 0 die (logError e die at_ s).rg.eccLog) 11 0 = at_ % 4096 := by
  have hlog : tget 0 die (logError e die at_ s).rg.eccLog = setField (setField (setField (tget 0 die s.rg.eccLog) 63 48
      (min (bits (tget 0 die s.rg.eccLog) 63 48 + 1) 65535)) 15 12 (errUnit e.place)) 11 0 at_ := by
    simp [logError, h]
  have hunit : errUnit e.place < 16 := by unfold errUnit; split <;> decide
  have hlow {x : Word} {n hi lo : Nat} (hlo : 11 < lo) : bits (setField x 11 0 n) hi lo = bits x hi lo :=
    bits_setField_above (by decide) (by decide) x n hlo
  rw [hlog]
  refine ⟨?_, ?_, bits_setField_same (by decide) (by decide) _ _⟩
  · rw [hlow (by decide), bits_setField_above (by decide) (by decide) _ _ (by decide), bits_setField_same (by decide) (by decide)]
    exact Nat.mod_eq_of_lt (by omega)
  · rw [hlow (by decide), bits_setField_same (by decide) (by decide)]
    exact Nat.mod_eq_of_lt hunit

end

/-! ## What an uncorrectable error does (R364) -/

theorem rg_of_cacheOnly {s t : State} (h : CacheOnly s t) : t.rg = s.rg := by
  obtain ⟨_, _, _, _, _, _, _, rfl, -⟩ := h; rfl

theorem rg_endHolder (s : State) (t : Option Nat) : (endHolder s t).rg = s.rg := by
  cases t with
  | none => rfl
  | some t =>
    obtain ⟨hrg, -⟩ := endGrid_kept (gridOfT t) 0x07 s
    exact hrg

theorem rg_l1Error (core line off : Nat) (s : State) : (l1Error core line off s).rg = s.rg := by
  unfold l1Error
  split
  · rfl
  · extract_lets hit sent
    refine (rg_of_cacheOnly (cacheOnly_writeBackLine ..)).trans ?_
    split <;> rfl

/-- An uncorrectable error in a directory is told of; the others leave the registers. -/
theorem eccLog_uncorrectable (p : ErrPlace) (s : State) : (uncorrectable p s).rg.eccLog = s.rg.eccLog := by
  have hflush (line : Nat) (ls : List Line) : (ls.foldl (fun s l => flushLine l.core line s) s).rg = s.rg :=
    rg_of_cacheOnly (cacheOnly_foldl (fun _ _ => cacheOnly_flushLine ..) ls s)
  cases p with
  | vreg tk r => simp only [uncorrectable, apply_ite State.rg, setV, ite_self]
  | sreg gk r => simp only [uncorrectable, apply_ite State.rg, setS, ite_self]
  | stash t off => simp only [uncorrectable, apply_ite State.rg, stashMark, setTeam, ite_self]
  | l1 core line off => rw [uncorrectable, rg_l1Error]
  | l2 pa dirty => simp only [uncorrectable, apply_ite State.rg, pmark, ite_self]
  | hbm pa => simp only [uncorrectable, apply_ite State.rg, ite_self]
  | fetch tk => rfl
  | acc ctx core n => rw [uncorrectable, rg_endHolder]
  | record ctx core n => rw [uncorrectable, rg_endHolder]
  | dir line =>
    simp only [uncorrectable, rg_raiseMgmt, hflush]
  | gloss die w => rfl

section
variable {s : State} {e : SoftErr}

theorem execSoftError_corrected (h : e.corr = true) : execSoftError e s = .next (logError e (errAt s e).1 (errAt s e).2 s) := by
  simp [execSoftError, h]

theorem execSoftError_uncorrected (h : e.corr = false) :
    execSoftError e s = .next (logError e (errAt s e).1 (errAt s e).2 (uncorrectable e.place s)) := by
  simp [execSoftError, h]

end

/-- A word of HBM with an uncorrectable error is bad at each of its bytes. -/
theorem pbad_of_badH {s : State} {pa a : Nat} (h : tget false (pa / 32) s.mm.badH = true) (ha : a / 32 = pa / 32) : pbad s a 1 = true := by
  simp [pbad, badAt, ha, h]

/-! ## A range of a table at another place (R381) -/

section
variable {α : Type} (d : α)

theorem tget_append_left {k : Nat} {t u : Tab α} (h : ∀ p ∈ u, p.1 ≠ k) : tget d k (t ++ u) = tget d k t := by
  induction t with
  | nil =>
    induction u with
    | nil => rfl
    | cons p u ih =>
      obtain ⟨hp, hu⟩ := List.forall_mem_cons.1 h
      exact (if_neg hp).trans (ih hu)
  | cons p t ih => simp only [List.cons_append, tget, ih]

theorem tget_append_right {k : Nat} {t u : Tab α} (h : ∀ p ∈ t, p.1 ≠ k) : tget d k (t ++ u) = tget d k u := by
  induction t with
  | nil => rfl
  | cons p t ih =>
    obtain ⟨hp, ht⟩ := List.forall_mem_cons.1 h
    rw [List.cons_append, tget, if_neg hp]
    exact ih ht

theorem tget_filter_keys {k : Nat} {f : Nat → Bool} (h : f k = true) (t : Tab α) : tget d k (t.filter fun p => f p.1) = tget d k t := by
  induction t with
  | nil => rfl
  | cons p t ih =>
    rw [List.filter_cons]
    split
    · simp only [tget, ih]
    · next hp =>
      have hne : p.1 ≠ k := fun he => hp (he ▸ h)
      rw [ih, tget, if_neg hne]

/-- Keys that are all moved by one distance are found at that distance. -/
theorem tget_map_shift {src dst k : Nat} {t : Tab α} (h : ∀ p ∈ t, src ≤ p.1) (hk : dst ≤ k) :
    tget d k (t.map fun p => (p.1 - src + dst, p.2)) = tget d (k - dst + src) t := by
  induction t with
  | nil => rfl
  | cons p t ih =>
    obtain ⟨hp, ht⟩ := List.forall_mem_cons.1 h
    have hiff : p.1 - src + dst = k ↔ p.1 = k - dst + src := by omega
    simp only [List.map_cons, tget, hiff, ih ht]

/-- A range that is moved reads at its new place as it did at the old one; outside of the new place nothing changes. -/
theorem tget_shiftInto (src dst n k : Nat) (t : Tab α) : tget d k (shiftInto src dst n t) =
    if dst ≤ k ∧ k < dst + n then tget d (k - dst + src) t else tget d k t := by
  unfold shiftInto
  extract_lets piece
  have hpiece : ∀ p ∈ piece, dst ≤ p.1 ∧ p.1 < dst + n := fun p hp => by
    obtain ⟨q, hq, rfl⟩ := List.mem_map.1 hp
    have := (List.mem_filter.1 hq).2
    simp only [decide_eq_true_eq] at this
    dsimp only
    omega
  have hlow : ∀ p ∈ t.filter (fun p => decide (p.1 < dst)), p.1 < dst := fun p hp => by simpa using (List.mem_filter.1 hp).2
  have hhigh : ∀ p ∈ t.filter (fun p => decide (dst + n ≤ p.1)), dst + n ≤ p.1 := fun p hp => by simpa using (List.mem_filter.1 hp).2
  split
  · next hk =>
    rw [tget_append_left d fun p hp => by have := hhigh p hp; omega, tget_append_right d fun p hp => by have := hlow p hp; omega,
      tget_map_shift d (fun p hp => by have := (List.mem_filter.1 hp).2; simp only [decide_eq_true_eq] at this; exact this.1) hk.1]
    exact tget_filter_keys d (f := fun k => decide (src ≤ k ∧ k < src + n)) (by simp; omega) t
  · next hk =>
    by_cases hlt : k < dst
    · rw [tget_append_left d fun p hp => by have := hhigh p hp; omega, tget_append_left d fun p hp => by have := hpiece p hp; omega]
      exact tget_filter_keys d (f := fun k => decide (k < dst)) (by simpa using hlt) t
    · rw [List.append_assoc, tget_append_right d fun p hp => by have := hlow p hp; omega,
        tget_append_right d fun p hp => by have := hpiece p hp; omega]
      exact tget_filter_keys d (f := fun k => decide (dst + n ≤ k)) (by simp; omega) t

end

/-! ## Checkpoints (R380, R381) -/

theorem ckptDone_idle (n : Nat) (s : State) : bitAt (ckptDone n s).rg.ckptCtl 63 = false := by
  have h : (0x4000000000000000 : Word).getLsbD 63 = false := by decide
  rw [ckptDone, bitAt, BitVec.getLsbD_and, h, Bool.and_false]

theorem allHome_empty {s : State} (hc : s.mm.comb = []) (hl : s.mm.l1 = []) : allHome s = s := by
  simp only [allHome, hc, List.foldl_nil, hl]

section
variable {s : State} (hidle : residents s = []) (hc : s.mm.comb = []) (hl : s.mm.l1 = [])
include hidle hc hl

/-- Where nothing is resident and the caches are empty, a save copies memory to the tier. -/
theorem execCheckpointSave_copies (hrun : ckptRuns s false = true) (hw : s.mm.wrapped = []) : ∃ n t, execCheckpointSave s = .next (ckptDone n t) ∧
    t.mm.mem = shiftInto 0 (tierAt s) hostBase s.mm.mem := by
  simp only [execCheckpointSave, hrun, Bool.not_true, Bool.false_eq_true, if_false, hidle, List.foldl_nil, allHome_empty hc hl, hw, tkeys,
    List.map_nil]
  exact ⟨_, _, rfl, rfl⟩

theorem execCheckpointRestore_copies (hrun : ckptRuns s true = true) (hsnap : tget .none (tierAt s) s.hs.snaps = .none) :
    ∃ n t, execCheckpointRestore s = .next (ckptDone n t) ∧ t.mm.mem = shiftInto (tierAt s) 0 hostBase s.mm.mem ∧ t.mm.l1 = [] ∧
      t.mm.dir = [] := by
  simp only [execCheckpointRestore, hrun, Bool.not_true, Bool.false_eq_true, if_false, hidle, List.foldl_nil, allHome_empty hc hl, hsnap]
  exact ⟨_, _, rfl, rfl, rfl, rfl⟩

end

/-! ## O52 -/

/-- Settles O52: an error by the fields it counts in and by what it does at its place, a checkpoint by the move of a range of memory. -/
theorem errorsAndCheckpoints : Obligations.ErrorsAndCheckpoints := by
  unfold Obligations.ErrorsAndCheckpoints
  dsimp only [exec]
  refine ⟨?corrected, ?places, ?uncorrected, fun _ _ => rfl, ?noSave, ?noRestore, ?save, ?restore⟩
  case corrected =>
    intro s e h
    obtain ⟨hcount, hrest⟩ := logError_corrected (errAt s e).1 (errAt s e).2 s h
    exact ⟨_, execSoftError_corrected h, rfl, hcount, hrest, fun d hd => logError_other _ _ s hd e⟩
  case places =>
    intro s e pa core line off
    exact ⟨fun h => by rw [errAt, h], fun h => by rw [errAt, h]⟩
  case uncorrected =>
    intro s e h
    have hexec := execSoftError_uncorrected (s := s) h
    refine ⟨fun tk r hp hlive => ?_, fun pa hp hin => ?_, fun die w hp => ?_, ?_⟩
    · have hdo : uncorrectable e.place s = setV tk r { getV s tk r with st := .fault 0 0 } s := by rw [hp, uncorrectable, if_neg hlive]
      rw [hdo] at hexec
      refine ⟨_, hexec, ?_, fun k q hne => ?_, rfl⟩
      · exact (getV_setV ..).trans (if_pos ⟨rfl, rfl⟩)
      · exact (getV_setV ..).trans (if_neg fun hkq => hne (by rw [hkq.1, hkq.2]))
    · have hdo : uncorrectable e.place s = { s with mm := { s.mm with badH := tset false (pa / 32) true s.mm.badH } } := by
        rw [hp, uncorrectable, if_pos hin]
      rw [hdo] at hexec
      refine ⟨_, hexec, rfl, fun a ha => pbad_of_badH (pa := pa) ?_ ha⟩
      exact tget_tset_same false true (pa / 32) s.mm.badH
    · have hdo : uncorrectable e.place s = setUnit die { getUnit s die with mem := tset 0 w 0 (getUnit s die).mem } s := by
        rw [hp, uncorrectable]
      rw [hdo] at hexec
      refine ⟨_, hexec, ?_⟩
      refine (congrArg (fun u : GUnit => tget 0 w u.mem) (getUnit_setUnit_same die _ s)).trans ?_
      exact tget_tset_same 0 0 w (getUnit s die).mem
    · obtain ⟨hcount, hunit, hat⟩ := logError_uncorrected (errAt s e).1 (errAt s e).2 (uncorrectable e.place s) h
      rw [eccLog_uncorrectable] at hcount
      exact ⟨_, hexec, hcount, hunit, hat⟩
  case noSave =>
    intro s h
    rw [execCheckpointSave, h]
    rfl
  case noRestore =>
    intro s h
    rw [execCheckpointRestore, h]
    rfl
  case save =>
    intro s hrun hidle hc hl hw _ _
    obtain ⟨n, t, ht, hmem⟩ := execCheckpointSave_copies hidle hc hl hrun hw
    have hread (a : Nat) : tget 0 a (ckptDone n t).mm.mem =
        if tierAt s ≤ a ∧ a < tierAt s + hostBase then tget 0 (a - tierAt s + 0) s.mm.mem else tget 0 a s.mm.mem := by
      rw [← tget_shiftInto, ← hmem]
      rfl
    have htier : hostBase ≤ tierAt s := Nat.le_add_right ..
    refine ⟨_, ht, ckptDone_idle n t, fun a ha => ⟨?_, ?_⟩, fun a _ hout => ?_⟩
    · rw [hread, if_neg (by omega)]
    · rw [hread, if_pos (by omega), Nat.add_sub_cancel_left, Nat.add_zero]
    · rw [hread, if_neg hout]
  case restore =>
    intro s hrun hidle _ hc hl hsnap
    obtain ⟨n, t, ht, hmem, hl1, hdir⟩ := execCheckpointRestore_copies hidle hc hl hrun hsnap
    have hread (a : Nat) : tget 0 a (ckptDone n t).mm.mem =
        if 0 ≤ a ∧ a < 0 + hostBase then tget 0 (a - 0 + tierAt s) s.mm.mem else tget 0 a s.mm.mem := by
      rw [← tget_shiftInto, ← hmem]
      rfl
    refine ⟨_, ht, ckptDone_idle n t, fun a ha => ?_, fun a ha => ?_, hl1, hdir⟩
    · rw [hread, if_pos (by omega), Nat.sub_zero, Nat.add_comm]
    · rw [hread, if_neg (by omega)]

end Sys2Proof.Machine
end

section
/-! PROOFS. O53 (R394 to R398): reset, keys, attestation, firmware. Which image the boot ROM takes after a reset, when a key command is
carried out, and what the side-band port answers. -/

namespace Sys2Proof.Machine

/-! ## Module reset (R394, R395) -/

theorem imageOk_afterReset (s : State) (i : FwImage) : imageOk (afterReset s) i = imageOk s i := rfl

theorem active_afterReset {s : State} (h : s.hs.pend = .none) : (afterReset s).hs.active = s.hs.active := by
  simp only [afterReset, h]

section
variable {s : State} (hpend : s.hs.pend = .none)

theorem bootImage_none (h : ∀ n i, tget .none n s.hs.images = .some i → imageOk s i = false) : bootImage (afterReset s) = .none := by
  refine List.findSome?_eq_none_iff.2 fun n _ => ?_
  split
  · next i hi => rw [imageOk_afterReset, h n i hi, if_neg Bool.false_ne_true]
  · rfl

include hpend

/-- The active image comes first. -/
theorem bootImage_active {i : FwImage} (hi : tget .none s.hs.active s.hs.images = .some i) (hok : imageOk s i = true) :
    bootImage (afterReset s) = .some (s.hs.active, i) := by
  have hi' : tget .none s.hs.active (afterReset s).hs.images = .some i := hi
  simp only [bootImage, active_afterReset hpend, List.findSome?_cons, hi', imageOk_afterReset, hok, if_true]

end

theorem execModuleReset_recovers {s : State} (h : bootImage (afterReset s) = .none) :
    execModuleReset s = .next { afterReset s with hs := { (afterReset s).hs with recovery := true } } := by
  simp only [execModuleReset, h]

theorem execModuleReset_starts {s : State} {n : Nat} {i : FwImage} (h : bootImage (afterReset s) = .some (n, i)) :
    execModuleReset s = .next { afterReset s with hs := { (afterReset s).hs with
      boot := 2, running := n, image := .some i, fuses := max s.hs.fuses (min 64 i.ver) } } := by
  simp only [execModuleReset, h]
  rfl

/-! ## Keys (R396) -/

theorem keyDone_idle (s : State) : bitAt (keyDone s).rg.keyCtl 63 = false := by
  have h : (0x7FFFFFFFFFFFFFFF : Word).getLsbD 63 = false := by decide
  rw [keyDone, bitAt, BitVec.getLsbD_and, h, Bool.and_false]

theorem keyDone_hs (s : State) : (keyDone s).hs = s.hs := rfl

section
variable {s : State} {op i : Nat}

theorem keyStart_eq (hlink : linkEnabled s = true) (hon : bitAt s.rg.keyCtl 63 = true) (hi : bits s.rg.keyCtl 11 0 = i)
    (hck : bitAt s.rg.ckptCtl 63 = false) (hop : bits s.rg.keyCtl 62 61 = op) : keyStart s op i = true := by
  simp [keyStart, hlink, hon, hi, hck, hop]

theorem keyStart_idle (h : bitAt s.rg.keyCtl 63 = false) (op i : Nat) : keyStart s op i = false := by
  simp [keyStart, h]

theorem execKeyLoad_starts (h : keyStart s 0 i = true) : execKeyLoad i s =
    .next (keyDone { s with hs := { s.hs with keys := tset .none i (.some (Config.unwrapKey (keyWords s))) s.hs.keys } }) := by
  rw [execKeyLoad, if_pos h]

theorem execKeyClear_starts (h : keyStart s 1 i = true) :
    execKeyClear i s = .next (keyDone { s with hs := { s.hs with keys := tset .none i .none s.hs.keys } }) := by
  rw [execKeyClear, if_pos h]

end

/-! ## Firmware update (R398) -/

theorem execPldmFirmwareUpdate_accepted {s : State} {img : FwImage} (h : imageOk s img = true) : execPldmFirmwareUpdate img s =
    .next { s with hs := { s.hs with
      images := tset .none (1 - s.hs.active) (.some img) s.hs.images, pend := .some (1 - s.hs.active) } } := by
  rw [execPldmFirmwareUpdate, if_pos h]

/-! ## O53 -/

/-- Settles O53: a reset by the image that the boot ROM takes, a key command by whether it starts, the side-band port by what it knows. -/
theorem firmwareAndKeys : Obligations.FirmwareAndKeys := by
  unfold Obligations.FirmwareAndKeys
  dsimp only [exec]
  refine ⟨?recovers, ?starts, ?keys, ?idle, ?measures, ?senses, ?updates, fun _ => rfl⟩
  case recovers =>
    intro s hbad _
    exact ⟨_, execModuleReset_recovers (bootImage_none hbad), rfl, rfl, rfl⟩
  case starts =>
    intro s i hpend hi hok
    refine ⟨_, execModuleReset_starts (bootImage_active hpend hi hok), rfl, rfl, rfl, ?_, rfl, rfl, rfl, rfl, rfl⟩
    exact Nat.le_max_left ..
  case keys =>
    intro s i _ hlink hon hi hck
    refine ⟨fun hop => ⟨_, execKeyLoad_starts (keyStart_eq hlink hon hi hck hop), ?_, keyDone_idle _, fun j hj => ?_⟩,
      fun hop => ⟨_, execKeyClear_starts (keyStart_eq hlink hon hi hck hop), ?_, keyDone_idle _, fun j hj => ?_⟩⟩
    all_goals rw [keyDone_hs]
    · exact tget_tset_same .none (.some (Config.unwrapKey (keyWords s))) i s.hs.keys
    · exact tget_tset_ne .none (.some (Config.unwrapKey (keyWords s))) hj s.hs.keys
    · exact tget_tset_same .none .none i s.hs.keys
    · exact tget_tset_ne .none .none hj s.hs.keys
  case idle =>
    intro s i h
    rw [execKeyLoad, execKeyClear, keyStart_idle h, keyStart_idle h]
    exact ⟨rfl, rfl⟩
  case measures =>
    intro s i d h
    rw [execSpdmRequest, h]
  case senses =>
    intro s i x h
    rw [execPldmMonitoring, h]
    exact ⟨_, rfl, rfl, rfl, rfl⟩
  case updates =>
    intro s img
    refine ⟨fun h => by rw [execPldmFirmwareUpdate, if_neg (by simp [h])], fun h hact =>
      ⟨_, execPldmFirmwareUpdate_accepted h, ?_, ?_, rfl, rfl, rfl, rfl⟩⟩
    · exact tget_tset_same .none (.some img) (1 - s.hs.active) s.hs.images
    · have hne : s.hs.active ≠ 1 - s.hs.active := by omega
      exact tget_tset_ne .none (.some img) hne s.hs.images

end Sys2Proof.Machine
end
